-- ==== Sys2Proof/Word.lean ====
section
/-!
DEFINITION. The plainest words of the module: bytes, registers, 256-bit command words and hall times (R9).
-/
namespace Sys2Proof

abbrev Byte := BitVec 8
abbrev U16 := BitVec 16
abbrev U32 := BitVec 32
abbrev U64 := BitVec 64
abbrev W256 := BitVec 256

/-- A sparse table: key and value pairs, keys strictly rising, no entry equal to the table's default. -/
abbrev Tbl (α : Type) := List (Nat × α)

/-- A byte memory in the same form; what an unlisted address reads as is 0 (log entry 4). -/
abbrev Mem := Tbl Byte

end Sys2Proof
end

