-- ==== Sys2Proof/Syntax.lean ====
section
/-!
DEFINITION. The commands of the block: one constructor of Instr for each row of spec/opcode_table.json, and the
operand types they carry. A row whose moment the spec does not fix is given from outside; the others the tick gives.
-/
namespace Sys2Proof

/-- The words of one command, word 0 first (R69). Words a command does not have are not looked at. -/
structure CmdWords where
  w0 : W256
  w1 : W256
  w2 : W256
  w3 : W256
  deriving DecidableEq, Repr

/-- A class-0 message of 16 or 32 bytes, byte i at bits [8i+7 : 8i] (Table 11.6). -/
abbrev C0Msg := BitVec 256

/-- An error on a 72-byte stored block: byte position and the bits flipped (R274, R275). -/
abbrev ErrPat := List (Nat × Byte)

/-- The fields of a flit's link header and trailer, and its payload (Tables 11.3 and 11.4). -/
structure Flit where
  fkind : BitVec 3
  pathSeq : BitVec 24
  offset : BitVec 45
  space : BitVec 4
  len4 : BitVec 7
  src : BitVec 12
  srcCore : BitVec 5
  ikind : BitVec 3
  last : Bool
  retry : Bool
  epoch : BitVec 11
  dest : BitVec 12
  key : U32
  c2Seq : U16
  payload : List Byte
  deriving DecidableEq, Repr

/-- One received flit: the flit, its class-0 cell, the link-level trailer fields and the CRC as read (Table 11.4). -/
structure WireFlit where
  flit : Flit
  cell : C0Msg
  slot : BitVec 13
  linkCode : BitVec 3
  nackValid : Bool
  nack : BitVec 12
  c2Ack : U16
  crc : U32
  deriving DecidableEq, Repr

/-- A received codeword: its index, and the 136 symbols that came in on each of the five lanes, the first in bits [9:0] (R287). -/
structure Codeword where
  index : BitVec 64
  lanes : Vector (BitVec 1360) 5
  deriving DecidableEq, Repr

/-- The two paths that reach the management controller (R403). -/
inductive Path where
  | bar0
  | smbus
  deriving DecidableEq, Repr

/-- Where a kill comes from: DETAIL0 of its halt record (R370). -/
inductive KillSource where
  | bar0
  | smbus
  | supply
  deriving DecidableEq, Repr

/-- A register read as it arrives over BAR0: its offset and its size in bytes (R322). -/
structure RegRead where
  offset : BitVec 24
  size : Nat
  deriving DecidableEq, Repr

/-- The path a bell operation comes on: its source core, and whether that is the core's express path or its ordered one (R235, R236). -/
structure BellPath where
  core : Fin 32
  express : Bool
  deriving DecidableEq, Repr

/-- A request's way over the mesh: the stack it goes to and its source among those of R48 (R267). -/
structure MeshWay where
  stack : Fin 16
  src : Fin 64
  deriving DecidableEq, Repr

/-- The wrong bits of a block at its service: those this read meets only, and those that are in the stored block from now on (R275). -/
structure BlockErrors where
  flip : ErrPat
  stored : ErrPat
  deriving DecidableEq, Repr

/-- How a phase of the bring-up ends: whether it has failed, and for the last one the blocks that the full scrub has met with wrong bits, each
by its number in stack memory (R278, R361, R362). -/
structure PhaseEnd where
  failed : Bool
  errors : List (Nat × ErrPat)
  deriving DecidableEq, Repr

/-- The commands of the block, one for each row of spec/opcode_table.json. -/
inductive Instr where
  /-- STANDBY_POWER_ON (R361): 12 V standby is applied; the management controller and the time domain start, and bring-up phase 0 begins. -/
  | standbyPowerOn
  /-- STANDBY_POWER_LOSS (R363): Standby power is removed; everything that is not fused or kept is lost, and a retained kill ends. -/
  | standbyPowerLoss
  /-- OSCILLATOR_STABLE (R26): The time-domain oscillator becomes stable and TIME_STATUS leaves RESET for FREE_RUN. -/
  | oscillatorStable
  /-- MAIN_INPUT_STABLE (R361): The main input has stayed within 46–56 V for 10 ms, so bring-up starts phase 2 when AUTO_ON is 1. -/
  | mainInputStable (mv : U16)
  /-- BRINGUP_PHASE_DONE (R361): A bring-up phase completes and the management controller starts the next phase of Table 14.4. -/
  | bringupPhaseDone (done : PhaseEnd)
  /-- MAIN_INPUT_LOSS (R363): The main input is lost; the die, stacks and port tiles lose state and bring-up restarts from step 2. -/
  | mainInputLoss
  /-- TIER_ENTRY (R364): The main input has stayed below a tier's entry threshold for 20 samples, and that tier's shedding actions apply. -/
  | tierEntry (tier : Fin 6) (mv : U16) (fast : Bool)
  /-- TIER_LEAVE (R364): The leave condition of tier 1 or 2 holds, and the tier in force falls to the deepest lower tier whose leave condition does not hold. -/
  | tierLeave (tier : Fin 6) (mv : U16)
  /-- PPS_IN_EDGE (R11): A rising edge on PPS_IN gives the root module its phase reference. -/
  | ppsInEdge
  /-- REF_LOSS (R20): The root loses REF_IN or PPS_IN, keeps the hall running on its own oscillator and clears REF_OK. -/
  | refLoss (pps : Bool)
  /-- REF_RETURN (R20): The reference returns and the root steers back to it by slewing. -/
  | refReturn (pps : Bool)
  /-- PPS_OUT_RISE (R14): At each whole second of hall time, the module drives PPS_OUT high. -/
  | ppsOutRise
  /-- PPS_OUT_FALL (R14): 100 µs after it rose, the module ends the PPS_OUT pulse. -/
  | ppsOutFall
  /-- BEACON_TIME (R16): A beacon time cell is received, and the module sets its phase to the stamped time plus the sounded link delay. -/
  | beaconTime (port : Fin 16) (msg : C0Msg)
  /-- PARENT_SILENT (R17): No valid time cell has come from the parent for 1,024 ns, so the module switches to its backup parent and sets ON_BACKUP. -/
  | parentSilent
  /-- STANDBY_ROOT_TAKEOVER (R19): The standby root has received no time cell for 4,096 ns; it becomes the acting root and floods root-change cells. -/
  | standbyRootTakeover
  /-- ROOT_CHANGE (R19): A root-change message is received; the module follows its backup parent and forwards the first such message. -/
  | rootChange (port : Fin 16) (msg : C0Msg)
  /-- HOLDOVER (R21): Both the parent and the backup parent are lost, and the module enters holdover at its last recovered frequency. -/
  | holdover
  /-- HOLDOVER_LIMIT (R21): Holdover has lasted 20 ms; OUT_OF_SPEC and the class-0 status bit are set. -/
  | holdoverLimit
  /-- PARENT_RETURN (R21): A parent returns during holdover; the module re-acquires by slewing and clears OUT_OF_SPEC. -/
  | parentReturn (backup : Bool)
  /-- SOUND (R22): A SOUND request or response message of a sounding round trip is received. -/
  | soundMsg (port : Fin 16) (msg : C0Msg)
  /-- SOUNDING_COMPLETE (R23): Sounding of a link completes; the delay, its uncertainty and the path budgets are set, and links or the backup path may be refused. -/
  | soundingComplete (port : Fin 16) (up : Bool) (u primarySum backupSum : U16)
  /-- ACQUIRE_COMPLETE (R26): Frequency and phase have stayed within limits for 1 ms, and the time domain enters LOCKED. -/
  | acquireComplete
  /-- LEG_ARM_HI_WRITE (R97): The host writes LEG_ARM_HI and arms the first mark, or the write is refused and MARK_PAST or MARK_ALIGN is logged. -/
  | legArmHiWrite (v : U32)
  /-- MARK (R28): A mark is reached and the next leg starts at cycle 0; CLEAR_SYNC and predicate loads apply, and the tables, musters and helm loads act. -/
  | mark
  /-- HELM_LOAD_DONE (R88): A core's helm stream finishes copying the next leg's block into the idle bank and sets HELM_DONE. -/
  | helmLoadDone (core : Fin 32)
  /-- LEG_COMPLETE (R30): Every core has issued its last command and every engine is idle; the die gates its clocks and the sequencer walks the table. -/
  | legComplete
  /-- HORIZON_CHECK (R36): At the slip horizon, each module whose leg is incomplete predicts completion and may raise a SLIP_HORIZON slip. -/
  | horizonCheck
  /-- SLIP (R33): A slip message is received; the module applies k_max × Q, forwards the slip if it raised k_max, or logs it as late. -/
  | slipMsg (port : Fin 16) (msg : C0Msg)
  /-- DROOP_TRIP (R51): A droop detector trips; the region stretches a period and raises a request on the stretch net unless it is locked out. -/
  | droopTrip (region : Fin 8)
  /-- STRETCH_FOLLOW (R51): Two cycles after another region's request, each region stretches one period unless it is locked out. -/
  | stretchFollow
  /-- FREQ_STEP_APPLY (R56): A decided step down takes effect in every region at once from cycle d + 8, or after a release or gating. -/
  | freqStepApply
  /-- FREQ_STEP_UP (R55): 1,000,000 ns have passed with no trigger and the sensors are cool, so f steps up by 25 MHz at the next leg start. -/
  | freqStepUp
  /-- REGION_TEMP_READING (R50): The region temperature sensors are read at a multiple of 1,000 ns, which may decide a heat step or a thermal trip. -/
  | regionTempReading (temps : BitVec 512)
  /-- TRIP_LOCKOUT_END (R377): 60 s after a thermal trip, POWER_ON is accepted again. -/
  | tripLockoutEnd
  /-- LOOKOUT (R57): At cycle c − 8 a command's waits, hand-over conditions and predicate are sampled; a failure holds the die. -/
  | lookout (core : Fin 32) (w : CmdWords) (issue : U32)
  /-- LANTERN_RELEASE (R59): Every failed wait of a hold is satisfied; the lantern net releases the die, and clocks restart 20 periods later. -/
  | lanternRelease
  /-- HOLD_TIMEOUT (R61): A hold exceeds HOLD_LIMIT, and the die halts with HOLD_TIMEOUT. -/
  | holdTimeout
  /-- NOP (R71): Issue-unit NOP: no effect beyond its waits, signals and progress check. -/
  | nop (core : Fin 32) (w : CmdWords)
  /-- PRED_SET (R82): Sets the predicates selected by MASK to the bits of VALUE. -/
  | predSet (core : Fin 32) (w : CmdWords)
  /-- PRED_LOGIC (R82): Writes a logical combination of two predicates into DEST. -/
  | predLogic (core : Fin 32) (w : CmdWords)
  /-- TEST_SYNC (R82): Compares a flag or counter with VALUE and writes the result to a predicate. -/
  | testSync (core : Fin 32) (w : CmdWords)
  /-- STAT_LOAD (R109): Loads a stationary tile from scratchpad into the shadow set of an array. -/
  | statLoad (core : Fin 32) (w : CmdWords)
  /-- STAT_LOAD_COMPLETE (R109): A stationary load completes at c + 4 + n_load and fires its signals. -/
  | statLoadComplete (core : Fin 32) (array : Fin 2)
  /-- STAT_SWAP (R111): Exchanges the active and shadow stationary sets with their formats and tags. -/
  | statSwap (core : Fin 32) (w : CmdWords)
  /-- PASS_N (R107): Feeds moving rows through an array in the N orientation into the ACB. -/
  | passN (core : Fin 32) (w : CmdWords)
  /-- PASS_T (R107): Feeds moving rows through an array in the T orientation into the ACB. -/
  | passT (core : Fin 32) (w : CmdWords)
  /-- PASS_N_DIRECT (R120): Runs an N pass whose moving rows come from a direct-feed stream. -/
  | passNDirect (core : Fin 32) (w : CmdWords)
  /-- PASS_DONE (R108): A pass's last row becomes valid in its done cycle, and its signals, including the done flag, fire. -/
  | passDone (core : Fin 32) (array : Fin 2)
  /-- ACB_FILL (R118): Writes a 32-bit pattern into consecutive ACB entries. -/
  | acbFill (core : Fin 32) (w : CmdWords)
  /-- ACB_FILL_COMPLETE (R118): An ACB_FILL completes at c + 2 + count and fires its signals. -/
  | acbFillComplete (core : Fin 32) (array : Fin 2)
  /-- ELASTIC_SLICE_DUE (R122): A slice of a moving row is due at a row group's elastic link; it enters, or the lateness rises, or the link escalates. -/
  | elasticSliceDue (core : Fin 32) (array : Fin 2) (group : Fin 8)
  /-- DIRECT_ROW_PRESENT (R121): A direct-feed row's last byte reaches the elastic links, and the row becomes present for all groups. -/
  | directRowPresent (core : Fin 32) (array : Fin 2)
  /-- CHAIN (R169): Runs a tile through up to eight fused vector stages and writes the result. -/
  | chain (core : Fin 32) (w : CmdWords)
  /-- REDUCE (R170): Reduces a tile register along rows, columns or the full tile, and may write a predicate. -/
  | reduce (core : Fin 32) (w : CmdWords)
  /-- TILE_MOVE (R169): Converts and copies a tile from a source to a destination. -/
  | tileMove (core : Fin 32) (w : CmdWords)
  /-- VECTOR_COMPLETE (R157): A vector command completes, fires its signals and writes its predicates. -/
  | vectorComplete (core : Fin 32)
  /-- STREAM_ARM (R214): Arms a stream descriptor, resets its totals and starts the lead side. -/
  | streamArm (core : Fin 32) (w : CmdWords)
  /-- STREAM_HAND (R209): Hands over positions of a load or store stream and frees earlier ones. -/
  | streamHand (core : Fin 32) (w : CmdWords)
  /-- STORE_HAND_COMPLETE (R211): A store hand-over's last read cycle passes; the command completes and its signals fire. -/
  | storeHandComplete (core : Fin 32) (engine : Fin 4)
  /-- STREAM_REARM (R217): Stages the bases of the next round of a persistent stream. -/
  | streamRearm (core : Fin 32) (w : CmdWords)
  /-- STREAM_STOP (R218): Stops a stream's lead side; the descriptor is unarmed at the next leg completion. -/
  | streamStop (core : Fin 32) (w : CmdWords)
  /-- LEAD_START (R208): A lead side starts fetching or writing out a startable position, checking its bounds. -/
  | leadStart (core : Fin 32) (engine : Fin 4)
  /-- FILL_ACCESS (R200): A waiting fill access is served in the first cycle in which its bank is free. -/
  | fillAccess (core : Fin 32) (bank : BitVec 5)
  /-- LOAD_ELEMENT_COMPLETE (R212): A load element is in its bank or has entered its array or engine, and its ACK counter may gain 1. -/
  | loadElementComplete (core : Fin 32) (desc : BitVec 11)
  /-- STORE_ELEMENT_COMPLETE (R212): A store element has been written or accepted at its destination, and its ACK counter may gain 1. -/
  | storeElementComplete (core : Fin 32) (desc : BitVec 11)
  /-- TURN (R222): Transposes 64 × 64 tiles between stack memory and scratchpad. -/
  | turn (core : Fin 32) (w : CmdWords)
  /-- TURN_COMPLETE (R223): A TURN completes, after its last scheduled read or its last landed segment, and fires its signals. -/
  | turnComplete (core : Fin 32)
  /-- CH_SEND (R248): Sends a message on a channel endpoint, deducting credits and placing it in the ring. -/
  | chSend (core : Fin 32) (w : CmdWords)
  /-- CH_SEND_COMPLETE (R248): A send's last source read passes; it completes and fires its signals. -/
  | chSendComplete (core : Fin 32)
  /-- CH_RELEASE (R250): Releases landed messages, advances RP and launches a credit return. -/
  | chRelease (core : Fin 32) (w : CmdWords)
  /-- CH_CLOSE (R254): Closes a channel endpoint. -/
  | chClose (core : Fin 32) (w : CmdWords)
  /-- BELL_OP (R233): Launches a bell operation on a local, remote or multicast bell word. -/
  | bellOp (core : Fin 32) (w : CmdWords)
  /-- BUOY_ARM (R238): Arms a buoy on a bell word of this module under a condition. -/
  | buoyArm (core : Fin 32) (w : CmdWords)
  /-- BUOY_DISARM (R238): Disarms a buoy. -/
  | buoyDisarm (core : Fin 32) (w : CmdWords)
  /-- BELL_TEST (R241): Compares a buoy's copy with a value and writes a predicate. -/
  | bellTest (core : Fin 32) (w : CmdWords)
  /-- ADD (R230): The home unit adds the operand to a bell word and updates the copies that watch it. -/
  | bellAdd (src : BellPath)
  /-- SET (R230): The home unit writes the operand to a bell word and updates the copies that watch it. -/
  | bellSet (src : BellPath)
  /-- MAX (R230): The home unit keeps the larger of a bell word and the operand and updates the copies that watch it. -/
  | bellMax (src : BellPath)
  /-- READ (R230): The home unit returns a bell word's value to the requester. -/
  | bellRead (src : Fin 32)
  /-- READ_VALUE_LANDING (R234): A READ value lands at RDEST, and the ACK counter may gain 1. -/
  | readValueLanding (core : Fin 32)
  /-- BUOY_REGISTRATION (R239): The home unit takes a buoy's registration and returns the word's current value. -/
  | buoyRegistration (core : Fin 32) (buoy : BitVec 6)
  /-- BUOY_VALUE_ARRIVAL (R239): The registered value reaches the buoy, and its copy becomes valid. -/
  | buoyValueArrival (core : Fin 32) (buoy : BitVec 6)
  /-- CHANNEL_MESSAGE_LANDED (R249): Every byte of a message is in the ring, and ARR_COUNTER may gain 1. -/
  | channelMessageLanded (core : Fin 32) (ep : BitVec 7)
  /-- CREDIT_RETURN_ARRIVAL (R250): A credit return on the die reaches the sender, and its credits become usable. -/
  | creditReturnArrival (core : Fin 32) (ep : BitVec 7)
  /-- STACK_REQUEST_ARRIVAL (R267): A block request enters its pseudo-channel queue in fixed order, or is held back on the mesh when the queue is full. -/
  | stackRequestArrival (way : MeshWay)
  /-- STACK_REQUEST_SERVICE (R269): A request at a queue head is served with its page-state timing, and its block is decoded under the fathom code. -/
  | stackRequestService (stack : Fin 16) (pc : Fin 32) (errors : BlockErrors)
  /-- TIDE_START (R271): A stack's refresh tide starts at its fixed hall time and closes every page. -/
  | tideStart (stack : Fin 16)
  /-- TIDE_END (R271): A 220 ns tide ends, and the stack serves requests again. -/
  | tideEnd (stack : Fin 16)
  /-- DOUBLING_TIDE_START (R272): Under refresh doubling, an extra tide starts 1,952 ns after a normal tide. -/
  | doublingTideStart (stack : Fin 16)
  /-- STACK_TEMP_READING (R272): The stack sensors are read, which may start or end doubling or count as a heat trigger. -/
  | stackTempReading (stack : Fin 16) (temps : U32)
  /-- ROW_SPARING (R280): While no image is loaded, management copies a candidate row into a spare row and remaps it. -/
  | rowSparing (stack : Fin 16)
  /-- PEER_SIGNAL_DETECT (R288): A DOWN port detects peer signal on at least 4 lanes and enters TRAIN. -/
  | peerSignalDetect (port : Fin 16) (lanes : BitVec 5)
  /-- TRAIN_DONE (R289): Every lane is trained, or 100 ms have elapsed; lanes are spared or the port fails. -/
  | trainDone (port : Fin 16) (trained : BitVec 5)
  /-- ALIGN_DONE (R288): Codeword lock and the peer identity are achieved, or the 1 ms limit expires. -/
  | alignDone (port : Fin 16) (locked : Bool) (peerModule : BitVec 12) (peerPort : BitVec 4)
  /-- LOCK_LOSS (R288): An UP port loses lock for 1 ms, or loses a lane beyond the spare, and leaves UP. -/
  | lockLoss (port : Fin 16)
  /-- RETRAIN (R288): A PORT_CTRL.RETRAIN write sends a FAILED or UP port to DOWN. -/
  | retrain (port : Fin 16)
  /-- LANE_FAIL (R292): A lane loses lock or exceeds 10,000 corrected symbols per ms, and the receiver requests a spare takeover. -/
  | laneFail (port : Fin 16) (lane : Fin 5)
  /-- SPARE_TAKEOVER_REQUEST (R292): The transmitter receives LINK_CODE 1 + i and duplicates lane i onto lane 4 from a 32 ns boundary. -/
  | spareTakeoverRequest (port : Fin 16) (lane : Fin 4)
  /-- SPARE_LANE_SWITCH (R292): After 16 error-free codewords, the receiver takes lane i from lane 4 and sends LINK_CODE 5. -/
  | spareLaneSwitch (port : Fin 16)
  /-- SPARE_TAKEOVER_ACK (R292): The transmitter receives LINK_CODE 5 and stops the failed lane. -/
  | spareTakeoverAck (port : Fin 16)
  /-- CODEWORD_RECEIVE (R287): A codeword is decoded; its flits are checked, and lost flits are discarded and NACKed. -/
  | codewordReceive (port : Fin 16) (cw : Codeword)
  /-- NACK_RECEIVE (R305): A NACK arrives, and the copies of the lost codeword's flits enter the retry buffer. -/
  | nackReceive (port : Fin 16) (index : BitVec 12)
  /-- FLIT_COPY_EXPIRE (R305): A kept class-1 copy expires after 4,096 slots and is dropped. -/
  | flitCopyExpire (port : Fin 16)
  /-- RETRY_WAIT_EXPIRE (R306): A flit has waited 8,192 slots in a retry buffer and is lost. -/
  | retryWaitExpire (port : Fin 16)
  /-- LAUNCH (R303): A LAUNCH slot sends the head flit of its queue, or class 2, or an empty flit. -/
  | launchSlot (port : Fin 16)
  /-- TRANSIT (R303): A TRANSIT slot sends the class-1 flit presented by its input port. -/
  | transitSlot (port : Fin 16)
  /-- RETRY (R306): A RETRY slot sends the head of the retry buffer, or class 2, or an empty flit. -/
  | retrySlot (port : Fin 16)
  /-- FREE (R311): A FREE slot carries class-2 traffic. -/
  | freeSlot (port : Fin 16)
  /-- FLIT_PRESENT (R303): A flit is presented A slots after it was sent; it lands, transits, or halts with SLOT_COLLISION. -/
  | flitPresent (port : Fin 16)
  /-- C1_WRITE (R309): A class-1 write flit lands after its window check. -/
  | c1Write (f : Flit)
  /-- C1_WRITE_WITH_ACCEPT (R309): A class-1 write lands, and its LAST flit causes an ACCEPT to be sent. -/
  | c1WriteWithAccept (f : Flit)
  /-- C1_READ_REQUEST (R309): The owner checks the window, reads the data and launches read-response flits. -/
  | c1ReadRequest (f : Flit)
  /-- C1_READ_RESPONSE (R309): A read-response flit lands at its return address. -/
  | c1ReadResponse (f : Flit)
  /-- C1_BELL_OPERATION (R309): An ordered bell operation takes effect in PATH_SEQ order and an ACCEPT is sent. -/
  | c1BellOperation (f : Flit)
  /-- C1_CHANNEL_MESSAGE (R309): Channel-message flits are written into the receiver's ring. -/
  | c1ChannelMessage (f : Flit)
  /-- HALT (R383): A HALT flood message is received; it is forwarded once, and the module halts with REMOTE_HALT. -/
  | haltMsg (port : Fin 16) (msg : C0Msg)
  /-- STATUS (R299): A STATUS flood message is received and forwarded when it is new. -/
  | statusMsg (port : Fin 16) (msg : C0Msg)
  /-- CREDIT (R300): A routed CREDIT message arrives, and the sender takes the larger cumulative total. -/
  | creditMsg (port : Fin 16) (msg : C0Msg)
  /-- CREDIT_DROP (R255): A drop return arrives; the sender takes back the credits, or halts with CHANNEL_DROP_STRICT. -/
  | creditDrop (port : Fin 16) (msg : C0Msg)
  /-- EXPRESS_BELL (R236): An express bell operation arrives on class 0 and is applied in EXP_SEQ order after a window check. -/
  | expressBell (port : Fin 16) (msg : C0Msg)
  /-- WINDOW_NACK (R316): A WINDOW_NACK arrives at the source; it is logged, and a STRICT one halts the die. -/
  | windowNack (port : Fin 16) (msg : C0Msg)
  /-- ACCEPT (R309): An ACCEPT arrives; store elements complete and ACK counters rise. -/
  | acceptMsg (port : Fin 16) (msg : C0Msg)
  /-- C2_FLIT_RECEIVE (R311): A class-2 flit is received into a buffer and forwarded hop by hop. -/
  | c2FlitReceive (port : Fin 16) (f : Flit)
  /-- C2_RESEND_TIMEOUT (R311): 2,000 ns pass without acknowledgement, and unacknowledged class-2 flits are resent. -/
  | c2ResendTimeout (port : Fin 16)
  /-- DRAIN_END (R296): The FAB_DRAIN interval after a mark ends, and the next table-set copy starts. -/
  | drainEnd
  /-- TABLE_COPY_DONE (R295): The fabric table loader finishes copying a set into the shadow tables and sets SHADOW_READY. -/
  | tableCopyDone
  /-- FAB_WIN_CLOSE_WRITE (R317): Sets a window's CLOSE_MARK to the next mark. -/
  | fabWinCloseWrite (v : U32)
  /-- PERST (R321): PERST# resets the host link only. -/
  | perst
  /-- HOT_RESET (R321): A hot reset resets the host link only. -/
  | hotReset
  /-- FUNCTION_LEVEL_RESET (R321): A function-level reset resets the host link only. -/
  | functionLevelReset
  /-- D3HOT (R321): Entry to D3hot resets the host link only. -/
  | pmD3hot
  /-- REGISTER_WRITE (R402): A BAR0 write to a register without behaviour of its own is applied by its access type, or ignored. -/
  | registerWrite (offset : BitVec 24) (size : Nat) (v : U32)
  /-- LO_PAIR_READ (R405): A read of the LO half of a 64-bit pair latches the value for the next HI read. -/
  | loPairRead (read : RegRead)
  /-- BAR2_READ (R324): A host read of local hall space through BAR2 returns a consistent snapshot, or all ones. -/
  | bar2Read (offset : BitVec 36) (len : Nat)
  /-- BAR2_WRITE (R323): A host write through BAR2 reaches scratchpad, ACB or stack memory, or is dropped and logged. -/
  | bar2Write (offset : BitVec 36) (data : List Byte)
  /-- OPEN (R327): Once accepted, opens a mooring session with its ring. -/
  | moorOpen
  /-- CLOSE (R327): Once accepted, sets an OPEN session to CLOSING. -/
  | moorClose
  /-- DOORBELL (R327): Once accepted, advances a session's PRODUCER, or is refused as an overrun. -/
  | doorbell (session : BitVec 18) (v : U32)
  /-- RELAY (R338): Sends local bytes and a doorbell as class-2 traffic to another module's session. -/
  | moorRelay
  /-- RELAYED_DOORBELL (R338): A relayed doorbell is accepted once all of its relayed bytes have landed. -/
  | relayedDoorbell (session : BitVec 18) (source : BitVec 12) (bytes : U32)
  /-- RELAY_STALL (R338): A relayed doorbell whose bytes have not landed within 1,000,000 ns is dropped and logged. -/
  | relayStall (session : BitVec 18) (source : BitVec 12)
  /-- MUSTER_WRITE (R332): After the previous leg completes, the muster buffer, log records and MUSTERED are written and the muster bell is raised. -/
  | musterWrite
  /-- ILOG_TAIL_HI_WRITE (R405): Commits the ILOG_TAIL pair, releasing log space. -/
  | ilogTailHiWrite (v : U32)
  /-- ILOG_HEAD_SET_WRITE (R337): Sets the length of a recorded log for replay. -/
  | ilogHeadSetWrite (v : U32)
  /-- CORE_BANK_DATA0_READ (R98): Copies the addressed command word into CORE_BANK_DATA0–7. -/
  | coreBankData0Read (core : Fin 32)
  /-- CORE_BANK_DATA7_READ (R98): Advances the bank pointer by one word. -/
  | coreBankData7Read (core : Fin 32)
  /-- CORE_BANK_DATA7_WRITE (R89): Commits a command word to a bank, or drops and logs it, and advances the pointer. -/
  | coreBankData7Write (core : Fin 32) (v : U32)
  /-- STREAM_DESC_DATA0_READ (R227): Copies a descriptor and latches its state and totals. -/
  | streamDescData0Read (core : Fin 32)
  /-- STREAM_DESC_DATA15_WRITE (R227): Commits the data registers to descriptor memory in state EMPTY. -/
  | streamDescData15Write (core : Fin 32) (v : U32)
  /-- BUOY_DATA0_READ (R261): Copies a buoy record into BUOY_DATA0–11. -/
  | buoyData0Read (core : Fin 32)
  /-- BELL_QUERY_MASK_LO_READ (R261): Compares the query address with every armed buoy and latches the mask. -/
  | bellQueryMaskLoRead (core : Fin 32)
  /-- CH_EP_DATA0_READ (R261): Copies an endpoint descriptor and latches its state, pointers and counters. -/
  | chEpData0Read (core : Fin 32)
  /-- CH_EP_DATA7_WRITE (R253): Stages an endpoint migration for the next leg boundary. -/
  | chEpData7Write (core : Fin 32) (v : U32)
  /-- DBG_DATA0_READ (R399): Copies a retained 32-byte word into DBG_DATA0–7. -/
  | dbgData0Read (path : Path)
  /-- DBG_DATA7_READ (R399): Advances the debug word pointer. -/
  | dbgData7Read (path : Path)
  /-- LOAD (R353): IMG_CMD starts an image load, or it is refused with STATE. -/
  | imageLoad
  /-- LOAD_COMPLETE (R354): The load's check and write passes end; the state becomes LOADED, or the load is refused or stops DIRTY. -/
  | loadComplete (stop : Option (Byte × U64))
  /-- KEY_LOCK (R349): Writing 1 to IMG_KEY_CFG.LOCK freezes the key slots until standby power is removed. -/
  | keyLock
  /-- KILL (R370): Halts the die with KILL, runs the scrub engine and closes the job's windows. -/
  | kill (source : KillSource) (retain : Bool)
  /-- SCRUB (R372): Ends a retained kill and starts the deferred scrub and zeroing. -/
  | scrub
  /-- WINDOW_TABLE_EMPTY (R371): 65,536 ns after the close mark, the window table is empty and stack zeroing begins. -/
  | windowTableEmpty
  /-- SCRUB_DONE (R371): Zeroing completes; SCRUB_DONE is set and LEG_STATE becomes EMPTY. -/
  | scrubDone
  /-- SUSPEND (R374): Requests a suspend at mark s, or is refused and logged. -/
  | suspend
  /-- SUSPEND_SNAPSHOT (R375): Once leg s − 1 is complete and drained, the context is written to the suspend area and the regions enter retention. -/
  | suspendSnapshot
  /-- RESUME (R376): Ends a park or a suspension; stacks leave self-refresh and the withheld leg starts. -/
  | resume
  /-- POWER_ON (R369): Restarts the die after tier 4, a thermal trip or power-off, when the input allows. -/
  | powerOn
  /-- POWER_OFF (R363): Switches the main rails off in state EMPTY. -/
  | powerOff
  /-- SERVICE_CLEAR (R379): Clears the replace-request when no condition holds. -/
  | serviceClear
  /-- DEBUG_ENABLE (R373): Sets or clears PWR_DEBUG.DEBUG_ENABLE while the fuse is intact and the state is EMPTY. -/
  | debugEnable (on : Bool)
  /-- BLOW (R373): Blows the debug fuse permanently in EMPTY. -/
  | blowFuse
  /-- SMBUS_BLOCK_WRITE (R358): An SMBus Block Write writes a register of a standby-domain block. -/
  | smbusBlockWrite (offset : BitVec 24) (v : U32)
  /-- SMBUS_PROCESS_CALL (R358): An SMBus Block Write–Block Read Process Call reads a register. -/
  | smbusProcessCall (offset : BitVec 24)
  /-- BYPASS (R359): JTAG BYPASS instruction. -/
  | jtagBypass
  /-- IDCODE (R359): JTAG IDCODE instruction returns the device identity. -/
  | jtagIdcode
  /-- SAMPLE_PRELOAD (R359): JTAG SAMPLE/PRELOAD instruction. -/
  | jtagSamplePreload (pins : U64)
  /-- EXTEST (R359): JTAG EXTEST runs in EMPTY with no load in progress, and acts as BYPASS otherwise. -/
  | jtagExtest (pins : U64)
  /-- LINK_UP (R320): The PCI Express host link finishes training, and HOST_STATUS.LINK_UP, SPEED and WIDTH report the rate and width reached. -/
  | linkUp (speed : BitVec 4) (width : BitVec 5)
  /-- D0 (R321): The host returns the function from D3hot to D0, and HOST_STATUS.D3HOT clears. -/
  | pmD0
  deriving DecidableEq, Repr

end Sys2Proof
end

