-- ==== Sys2Proof/WellFormed.lean ====
section
/-!
DEFINITION. Well-formed commands: the words an issue row carries spell that row's opcode (R69, R96).
-/
namespace Sys2Proof

/-- OPCODE, word 0 bits [7:0] (Table 3.3). -/
def CmdWords.opcode (w : CmdWords) : Nat := (w.w0.extractLsb' 0 8).toNat

/-- The opcode of Table 3.11 a row's words must spell, with those words; none for a row that is no command of a stream. -/
def Instr.spelt : Instr → Option (Nat × CmdWords)
  | .nop _ w => some (0x00, w)
  | .predSet _ w => some (0x01, w)
  | .predLogic _ w => some (0x02, w)
  | .testSync _ w => some (0x03, w)
  | .statLoad _ w => some (0x10, w)
  | .statSwap _ w => some (0x11, w)
  | .passN _ w => some (0x12, w)
  | .passT _ w => some (0x13, w)
  | .passNDirect _ w => some (0x14, w)
  | .acbFill _ w => some (0x15, w)
  | .chain _ w => some (0x20, w)
  | .reduce _ w => some (0x21, w)
  | .tileMove _ w => some (0x22, w)
  | .streamArm _ w => some (0x30, w)
  | .streamHand _ w => some (0x31, w)
  | .streamRearm _ w => some (0x32, w)
  | .streamStop _ w => some (0x33, w)
  | .turn _ w => some (0x40, w)
  | .chSend _ w => some (0x50, w)
  | .chRelease _ w => some (0x51, w)
  | .chClose _ w => some (0x52, w)
  | .bellOp _ w => some (0x60, w)
  | .buoyArm _ w => some (0x61, w)
  | .buoyDisarm _ w => some (0x62, w)
  | .bellTest _ w => some (0x63, w)
  | _ => none

/-- A command of the stream spells its row's opcode; every other row's operands are typed and need no check. -/
def Instr.wellFormed (i : Instr) : Bool :=
  match i.spelt with
  | some (op, w) => decide (w.opcode = op)
  | none => true

end Sys2Proof
end

