-- ==== Sys2Proof/Config.lean ====
section
/-!
DEFINITION. What one shipped module fixes and the spec leaves open: fuse values and free values.
A constant without a body is a free value: no proof can see what it is.
-/
namespace Sys2Proof

/-- Raw fuse bits behind ID_SERIAL (R410); Machine.serial keeps it off 0 and all ones. -/
opaque Config.serialFuse : U64

/-- ID_VERSION (R410): vendor-assigned numbers with no meaning beyond their order. -/
opaque Config.idVersion : U32

/-- What JTAG IDCODE returns, "the device identity" (R359); the manual states no value. -/
opaque Config.jtagIdcode : U32

/-- The bytes a load reads where the host writes the staged image during that load (R355: undefined for that load). -/
opaque Config.stagedByte : Nat → Byte

/-- POS[1:0], the sled straps (R319, Table 14.2). -/
opaque Config.pos : BitVec 2

/-- Which of two fresh draws the model has no rule for: the k-th free value (log entry 2). -/
opaque Config.freeValue : Nat → U64

end Sys2Proof
end

