-- ==== Sys2Proof/Machine/State.lean ====
section
/-!
DEFINITION. The state of the module as plain data: every register, memory, queue and pin the manual gives it
(INVENTORY.md lists each with its rule and reset value), and the queue of waiting commands.
-/
namespace Sys2Proof.Machine

/-! ## Hall time (01_hall_time.md) -/

/-- TIME_STATUS.STATE (Table 1.2). -/
inductive TimeState where
  | reset | freeRun | sounding | acquire | locked | holdover
  deriving DecidableEq, Repr

/-- The role in force (Table 1.1); R19 can change it until the next sounding. -/
inductive BeaconRole where
  | member | root | standbyRoot
  deriving DecidableEq, Repr

/-- One entry of the slip log (Table 1.9). -/
structure SlipEntry where
  appliedAt : U64
  mark : U64
  newTime : U64
  raiser : BitVec 12
  core : BitVec 5
  seq : Bool
  k : BitVec 4
  kMax : BitVec 4
  reason : Byte
  late : Bool
  deriving DecidableEq, Repr

/-- The time domain and beacon block (Tables 1.5 to 1.9). `frac`: what the count has gained beyond the whole ns of TIME_NOW, and
`slew`: phase correction still to make, both in 0.1 ps (R12). The two cell times are those of the last valid cell of that parent,
or of the moment from which the module listens for one (R17), which it does once it has left sounding (`listening`). `phaseOutAt`: the last
moment of ACQUIRE at which the phase was not within the path budget, or its beginning (Table 1.2). -/
structure TimeDom where
  hallTime : U64 := 0
  frac : Int := 0
  slew : Int := 0
  osc : TimeState := .reset
  depth : Byte := 0
  portInUse : BitVec 4 := 0
  outOfSpec : Bool := false
  actingRoot : Bool := false
  backupLost : Bool := false
  onBackup : Bool := false
  rootChanged : Bool := false
  refOk : Bool := false
  role : BeaconRole := .member
  beaconCfg : U32 := 0
  pathBudget : U32 := 0xFFFFFFFF
  slipCfg : U32 := 0x00800040
  legCfg : U32 := 0x0000003C
  slipCount : U32 := 0
  slipLog : List SlipEntry := []
  slipTotal : Nat := 0
  slipIrqSent : Bool := false
  parentCellAt : U64 := 0
  backupCellAt : U64 := 0
  parentSeen : Bool := false
  backupSeen : Bool := false
  refPin : Bool := false
  ppsPin : Bool := false
  ppsOut : Bool := false
  epochSet : Bool := false
  holdoverAt : U64 := 0
  listening : Bool := false
  phaseOutAt : U64 := 0
  deriving DecidableEq, Repr

/-! ## Leg sequencer (01, 03) -/

/-- LEG_STATE.STATE (Table 3.13, Table 16.6). -/
inductive LegState where
  | empty | loaded | armed | running | gated | done | halted
  deriving DecidableEq, Repr

/-- A leg entry (Table 3.7). -/
structure LegEntry where
  w16 : U32 := 0
  l : U32 := 0
  reps : U32 := 0
  isEnd : Bool := false
  clearSync : Bool := false
  coreTable : U64 := 0
  loopTo : U16 := 0
  loopCount : U32 := 0
  deriving DecidableEq, Repr

/-- A core block entry (Table 3.8). -/
structure CoreBlock where
  block : Nat := 0
  words : Nat := 0
  predInit : U16 := 0
  predMask : U16 := 0
  deriving DecidableEq, Repr

/-- A place in the walk of R85: entry index, repetition, the entry as read, and loop_left; `ended` after END. -/
structure Walk where
  entry : Nat := 0
  rep : Nat := 0
  leg : LegEntry := {}
  left : Tbl Nat := []
  ended : Bool := false
  deriving DecidableEq, Repr

/-- The leg sequencer: registers of Table 3.13, the walk of R85 and the marks of R27 to R36. `cur` is the leg that runs or ran
last, `next` the one after it (R87), `due` the one that the next mark starts; `legMark` is the mark number of `cur`. `legs`: the leg entries,
which the sequencer keeps as the load has read them (R85, log entry 33). -/
structure Sequencer where
  state : LegState := .empty
  cfg : U32 := 0
  tableBaseLo : U32 := 0
  tableBaseHi : U32 := 0
  tableLen : U32 := 0
  armLo : U32 := 0
  cur : Walk := {}
  next : Walk := {}
  due : Walk := {}
  legMark : U64 := 0
  mark : U64 := 0
  markAt : U64 := 0
  nextAt : U64 := 0
  nextBase : U64 := 0
  legs : List LegEntry := []
  kMax : Tbl Nat := []
  markTimes : Tbl U64 := []
  begun : Bool := false
  horizonDone : Bool := false
  parked : Bool := false
  suspendReq : Option U64 := none
  suspendAt : U64 := 0
  suspended : Bool := false
  cycle : Nat := 0
  lastCycle : U32 := 0
  esc : Nat := 0
  floorLegs : List Bool := []
  programId : U64 := 0
  partSize : U16 := 0
  origin : BitVec 12 := 0
  deriving DecidableEq, Repr

/-! ## Die clock and holds (02) -/

/-- A hand-over condition sampled at a lookout, with what it names (R61). -/
inductive HandCond where
  | loadHand (desc : BitVec 11) (upto : Nat)
  | storeHand (desc : BitVec 11) (upto : Nat)
  | maskIn (desc : BitVec 11)
  | maskOut (desc : BitVec 11) (taken : Nat)
  | credits (ep : BitVec 7) (n : Nat)
  | release (ep : BitVec 7) (msgs : Nat)
  | turnQueue (before : Nat)
  | buoyCopy (buoy : BitVec 6)
  deriving DecidableEq, Repr

/-- What a core waits for in a hold: a wait field, a hand-over or an elastic link's slice (R58, R60, R123). -/
inductive WaitFor where
  | field (w : U32)
  | hand (h : HandCond)
  | slice (array : Fin 2) (group : Fin 8)
  deriving DecidableEq, Repr

structure HoldCause where
  core : Fin 32
  what : WaitFor
  met : Bool := false
  deriving DecidableEq, Repr

/-- A hold in force (R58 to R61). `since`: the nanosecond of the freeze, and `acc`: how far cycle `cycle` would have begun before it, in
units of the run clock's `acc`. -/
structure Hold where
  cycle : Nat
  since : U64
  acc : Int := 0
  causes : List HoldCause
  metAt : Option U64 := none
  deriving DecidableEq, Repr

/-- A change of f: 25 MHz down, to the cap of a supply tier at once, or 25 MHz up (R54, R55, R364). -/
inductive FreqChange where
  | down
  | cap (f : U16)
  | up
  deriving DecidableEq, Repr

/-- A decided change of f (R54 to R56): CLK_STATUS.LIMIT with it, and the cycle it applies from when the die was running. A step up
waits for cycle 0 of a leg. -/
structure FreqStep where
  change : FreqChange
  limit : BitVec 4
  fromCycle : Option Nat
  deriving DecidableEq, Repr

/-- A claim of a scheduled-plane transfer on a link direction of a mesh node in a cycle (R46): 0 east to 3 south. -/
structure MeshUse where
  cycle : Nat
  x : Nat
  y : Nat
  dir : Nat
  deriving DecidableEq, Repr

/-- One region (R50, R51, Table 2.9). -/
structure Region where
  requests : U16 := 0
  absorbed : Byte := 0
  tmax : Byte := 0
  temps : BitVec 64 := 0
  lastStretch : Option Nat := none
  stretches : Nat := 0
  reqTimes : List U64 := []
  deriving DecidableEq, Repr

/-- Where the tick stands inside a cycle (log entry 1). -/
inductive ClkPhase where
  | sample | links | work | issue | wait
  deriving DecidableEq, Repr

/-- The die clock. `acc`: time of the run clock not used by cycles yet; `rest`: the mark of this nanosecond is under way and the rest of the
nanosecond comes after it; `sensors`: what the 64 temperature sensors show, sensor i of
region r in byte 8r + i (R50). -/
structure ClkDom where
  freq : U16 := 1250
  limit : BitVec 4 := 0
  cfg : U32 := 0x00004028
  thermal : U32 := 0x00005F5A
  holdCfg : U32 := 0x00271010
  stretchCount : U32 := 0
  stepsUp : U16 := 0
  stepsDown : U16 := 0
  holdCount : U32 := 0
  holdTime : U64 := 0
  holdMax : U32 := 0
  hold : Option Hold := none
  steps : List FreqStep := []
  reqs : List (Nat × Nat) := []
  regions : Vector Region 8 := Vector.replicate 8 {}
  lastDroop : Option U64 := none
  lastHeat : Option U64 := none
  lastTrigger : U64 := 0
  coreOrder : Vector Byte 32 := Vector.ofFn fun i => BitVec.ofNat 8 i.val
  arrayOrder : Vector Byte 64 := Vector.ofFn fun i => BitVec.ofNat 8 i.val
  mesh : List MeshUse := []
  acc : Int := 0
  phase : ClkPhase := .sample
  rest : Bool := false
  sensors : BitVec 512 := 0
  deriving DecidableEq, Repr

/-! ## Cores (03 to 09) -/

/-- A command after its lookout (R57, R80): the sampled decision is final. -/
structure LookEntry where
  words : CmdWords
  idx : Nat
  issue : Nat
  skip : Bool
  staleFlag : Bool
  buoysArmed : Bool
  deriving DecidableEq, Repr

/-- One scoreboard entry of checked mode (R94): the writing command, its port and the write cycle of each line. -/
structure SbEntry where
  idx : Nat
  port : Nat
  lines : List (Nat × Nat)
  deriving DecidableEq, Repr

/-- A stationary set (R99, R112). -/
structure StatSet where
  fmt : BitVec 4 := 0
  sparse : Bool := false
  tag : U16 := 0
  data : Mem := []
  aux : Mem := []
  usedUntil : Nat := 0
  deriving DecidableEq, Repr

/-- A stationary load in flight (R109). -/
structure LoadRec where
  idx : Nat
  issue : Nat
  fmt : BitVec 4
  sparse : Bool
  tag : U16
  src : Nat
  aux : Nat
  sig : U64
  deriving DecidableEq, Repr

/-- A moving row read by the feeder, or handed by a direct-feed stream at the links, where `m` is its position: its bytes and its
scale bytes (R106, R121). -/
structure FedRow where
  m : Nat
  bytes : List Byte
  scales : List Byte
  deriving DecidableEq, Repr

/-- A pass in flight (R107, R108). `first` is the stream position of a direct pass's row 0 (R219). -/
structure PassRec where
  idx : Nat
  issue : Nat
  rows : Nat
  tOrient : Bool
  direct : Option (BitVec 11)
  first : Nat := 0
  mfmt : BitVec 4
  mode : BitVec 2
  rtz : Bool
  entry : Nat
  pitch : Nat
  src : Nat
  scaleSrc : Nat
  useSetB : Bool
  sig : U64
  fed : List FedRow := []
  buf : Mem := []
  slices : Vector Nat 8 := Vector.replicate 8 0
  deriving DecidableEq, Repr

/-- An ACB_FILL in flight (R118). -/
structure FillRec where
  idx : Nat
  issue : Nat
  entry : Nat
  count : Nat
  value : U32
  sig : U64
  deriving DecidableEq, Repr

/-- One array. `idleFrom` is the first cycle after the completion of its last command (R115); `extNow` holds the external writes to the
buffer in a cycle whose drains are still to come: address, byte before, byte written (R119). -/
structure ArrayUnit where
  doneFlag : BitVec 7 := 0x7F
  idleFrom : Nat := 0
  extNow : List (Nat × Byte × Byte) := []
  setA : StatSet := {}
  setB : StatSet := {}
  activeB : Bool := false
  shadowValid : Bool := false
  load : Option LoadRec := none
  passes : List PassRec := []
  fills : List FillRec := []
  acb : Mem := []
  late : Vector Nat 8 := Vector.replicate 8 0
  rows : List FedRow := []
  passCount : U32 := 0
  escCount : U32 := 0
  escLeg : U16 := 0
  deriving DecidableEq, Repr

/-- A vector command in flight (R157); a skipped one stays for the overlap checks (R162). -/
structure VecRec where
  idx : Nat
  issue : Nat
  words : CmdWords
  skipped : Bool
  srcSlices : List (List U32) := []
  tbSlices : List (List U32) := []
  maskIn : List Bool := []
  maskOut : List Bool := []
  preds : List (Bool × Bool) := []
  trapped : Bool := false
  deriving DecidableEq, Repr

structure VecUnit where
  inFlight : List VecRec := []
  cmdCount : U32 := 0
  nfCount : U32 := 0
  lastDone : U32 := 0
  deriving DecidableEq, Repr

/-- How an operation reached its home unit, and with it what follows its application: the ordered or the express path of a core of this
die (R235, R236), item `n` of path `key` of the fabric (R308), an express message (R300), the registration of a buoy (R239), or the
muster bell (R332). -/
inductive BellOrigin where
  | ordered
  | express
  | item (key n : Nat)
  | expressIn (key : Nat)
  | buoy (core : Fin 32) (buoy : BitVec 6)
  | muster
  deriving DecidableEq, Repr

/-- A bell operation on its way to its home unit (R229 to R236). `respQueue`: the launch queue here by which a READ of another module gets its
value (log entry 19). -/
structure BellReq where
  op : BitVec 2
  addr : U64
  operand : U64
  express : Bool
  srcModule : BitVec 12
  srcCore : BitVec 5
  cmd : BitVec 13
  ack : Option (BitVec 5) := none
  rdest : Nat := 0
  respQueue : Nat := 0
  origin : BellOrigin := .ordered
  deriving DecidableEq, Repr

/-- Whose data a stack request or a fill access carries. -/
inductive Tag where
  | none
  | loadPiece (core : Fin 32) (desc : BitVec 11) (pos : Nat) (spAddr : Nat)
  | bufPiece (core : Fin 32) (desc : BitVec 11) (pos : Nat) (off : Nat)
  | storePiece (core : Fin 32) (desc : BitVec 11) (pos : Nat)
  | listEntry (core : Fin 32) (desc : BitVec 11) (arms pos : Nat)
  | turnPiece (core : Fin 32) (idx off : Nat)
  | turnWrite (core : Fin 32) (idx : Nat)
  | item (key n : Nat)
  | message (src : Fin 32)
  | readValue (core : Fin 32) (id : Nat)
  | job (id off : Nat)
  | ingress (id addr : Nat)
  | hostWrite (id : Nat)
  | posted
  | relayed (session : BitVec 18) (source : BitVec 12)
  deriving DecidableEq, Repr

/-- What a fill access does to its line (R197): it writes bytes, reads them, or carries a bell operation, which reads the word in one access
and writes it in a later one (R229). -/
inductive FillOp where
  | write (data : List Byte)
  | read (n : Nat)
  | bell (r : BellReq) (old : Option U64)
  deriving DecidableEq, Repr

/-- A fill access that waits for its bank (R200). -/
structure FillAcc where
  port : Nat
  addr : Nat
  op : FillOp
  tag : Tag
  deferred : Bool := false
  deriving DecidableEq, Repr

/-- An element in movement (R208, R212): the bytes still missing, its hall address, its scratchpad address and length, its bytes where it
goes through a buffer, whether it goes to another module, has been started, and has completed. -/
structure Elem where
  pos : Nat
  need : Nat
  hall : U64 := 0
  sp : Nat := 0
  len : Nat := 0
  buf : Mem := []
  remote : Bool := false
  started : Bool := true
  done : Bool := false
  deriving DecidableEq, Repr

/-- Bases of a round and the command that staged them (R217, R226). -/
structure RoundBase where
  hall : U64
  sp : Nat
  cmd : Nat
  deriving DecidableEq, Repr

/-- The run-time state of one stream descriptor (R207 to R218). `list`: the block entries that the lead side has read, and `asked`: how
many positions it has asked for since the last of `arms` arms (R205). -/
structure Stream where
  armed : Bool := false
  arms : Nat := 0
  asked : Nat := 0
  list : List (Nat × BitVec 128) := []
  stopping : Bool := false
  faulted : Bool := false
  lead : Nat := 0
  handed : Nat := 0
  freed : Nat := 0
  bases : List RoundBase := []
  elems : List Elem := []
  deriving DecidableEq, Repr

/-- A handed block: its position, hall address, scratchpad address and length. -/
structure HandMove where
  pos : Nat
  hall : U64
  sp : Nat
  len : Nat
  deriving DecidableEq, Repr

/-- A store hand-over in its read cycles: its blocks, and the byte address of each read, one for each line (R211). -/
structure StoreHand where
  idx : Nat
  issue : Nat
  desc : BitVec 11
  moves : List HandMove
  lines : List Nat
  port : Option (Fin 16)
  skipped : Bool
  sig : U64
  buf : Mem := []
  deriving DecidableEq, Repr

structure StreamEng where
  landed : U32 := 0
  sent : U32 := 0
  holds : U32 := 0
  hands : List StoreHand := []
  deriving DecidableEq, Repr

/-- A TURN in flight (R221 to R224). -/
structure TurnRec where
  idx : Nat
  issue : Nat
  words : CmdWords
  skipped : Bool := false
  tile : Nat := 0
  busy : Bool := false
  need : Nat := 0
  gathered : Bool := false
  readDone : Bool := false
  buf : Mem := []
  deriving DecidableEq, Repr

structure TurnUnit where
  inFlight : List TurnRec := []
  count : U32 := 0
  deriving DecidableEq, Repr

/-- A message of a channel on its way to its ring (R246 to R249). -/
structure ChMsg where
  module : BitVec 12
  core : BitVec 5
  ep : BitVec 7
  routeGen : U16
  seq : U32
  units : Nat
  need : Nat
  ring : Nat
  at_ : Nat
  skipAt : Option Nat
  srcCore : BitVec 5
  srcEp : BitVec 7
  bytes : List Byte
  deriving DecidableEq, Repr

/-- One item of a core's ordered path on this die (R235). -/
inductive PathItem where
  | bell (r : BellReq)
  | message (m : ChMsg)
  | store (desc : BitVec 11) (pos : Nat)
  deriving DecidableEq, Repr

/-- A value a READ returns, on its way to RDEST (R234). `id` numbers the values of a core, and `need`: the bytes of it that are not written,
once it has reached the scratchpad. -/
structure ReadValue where
  id : Nat
  rdest : Nat
  value : U64
  ack : Option (BitVec 5)
  need : Option Nat := none
  deriving DecidableEq, Repr

/-- Where a buoy's registration stands (R239). -/
inductive BuoyReg where
  | idle
  | registering
  | reading
  | returning (value : U64) (later : List U64)
  deriving DecidableEq, Repr

/-- A buoy and its record (R238, R239, Table 9.7). -/
structure Buoy where
  armed : Bool := false
  cmpEq : Bool := false
  addr : U64 := 0
  value : U64 := 0
  copy : U64 := 0
  valid : Bool := false
  reg : BuoyReg := .idle
  lastTime : U64 := 0
  lastModule : BitVec 12 := 0
  lastCore : BitVec 5 := 0
  lastCmd : BitVec 13 := 0
  armedAt : Nat := 0
  deriving DecidableEq, Repr

/-- One entry of a home unit's bell log (Table 9.8). -/
structure BellLogEntry where
  addr : U64
  newValue : U64
  time : U64
  module : BitVec 12
  core : BitVec 5
  op : BitVec 2
  express : Bool
  cmd : BitVec 13
  deriving DecidableEq, Repr

/-- A landed message that is not yet released: SEQ, start unit, the units it frees with its skip marker, and the unit after
it, where RP goes (R250). -/
structure Landed where
  seq : U32
  start : Nat
  units : Nat
  after : Nat
  deriving DecidableEq, Repr

/-- A credit return on the die (R250, R255): the receiver's number core * 128 + endpoint, units, drop reason (0 none). -/
structure CreditRet where
  member : Nat
  units : Nat
  routeGen : U16
  reason : BitVec 2
  seq : U32
  receiver : BitVec 12
  deriving DecidableEq, Repr

/-- A channel endpoint: its descriptor (Table 9.4) and its run-time state. -/
structure Endpoint where
  desc : W256 := 0
  open_ : Bool := false
  closedPeer : Bool := false
  cpLogged : Bool := false
  staged : Option W256 := none
  wp : Nat := 0
  rp : Nat := 0
  credits : Nat := 0
  creditsIn : List CreditRet := []
  landed : List Landed := []
  seq : U32 := 0
  sent : U32 := 0
  landedCount : U32 := 0
  deducted : List Nat := []
  returned : Nat := 0
  released : U32 := 0
  cumIn : U32 := 0
  memberCum : Tbl Nat := []
  memberIn : Tbl Nat := []
  stall : U32 := 0
  dropGen : U32 := 0
  dropClosed : U32 := 0
  dropsTaken : List U32 := []
  deriving DecidableEq, Repr

/-- A CH_SEND in its read cycles (R248). -/
structure SendRec where
  idx : Nat
  issue : Nat
  ep : BitVec 7
  src : Nat
  len : Nat
  skipped : Bool
  sig : U64
  msg : Option ChMsg
  buf : Mem := []
  deriving DecidableEq, Repr

/-- A core. `pathNeed`: the front item of its ordered path has reached its destination, and so many of its bytes are not written yet;
`expBusy`: the front operation of its express path has reached its home unit; `bellAt` and `regAt`: the hall time and cycle in which its home
bell unit last applied an operation and last took a registration (R229, R239). `prev` and `older`: the lines that its vector engine wrote in
the last cycle and in the one before, with their old content (R93); `lateAdds`: landing adds of this cycle, which apply after its local
writes (R78); `fillAt`, `fillPorts` and `fillBanks`: when its last fill access was made, and the ports and banks that have made one then (R200). `helmEntry`: the
core's block entry of the next leg, once its helm stream has read it (R87). -/
structure Core where
  bank0 : Tbl W256 := []
  bank1 : Tbl W256 := []
  blockWords : Nat := 0
  cmdIdx : Nat := 0
  prevIssue : Nat := 0
  lookIdx : Nat := 0
  lookPrev : Nat := 0
  ahead : List LookEntry := []
  slotCycle : Nat := 0
  slotTargets : List Nat := []
  slotWords : Nat := 0
  blockDone : Bool := false
  preds : U16 := 0
  flags : U64 := 0
  counters : Vector U16 32 := Vector.replicate 32 0
  predLate : U16 := 0
  preds0 : U16 := 0
  flags0 : U64 := 0
  counters0 : Vector U16 32 := Vector.replicate 32 0
  skipCount : U32 := 0
  untracked : U16 := 0
  scoreboard : List SbEntry := []
  bankPtr : U32 := 0
  bankData : W256 := 0
  helmBusy : Bool := false
  helmDone : Bool := false
  helmEntry : Option CoreBlock := none
  arrays : Vector ArrayUnit 2 := Vector.replicate 2 {}
  vec : VecUnit := {}
  tiles : Tbl U32 := []
  spad : Mem := []
  fills : List FillAcc := []
  busyBanks : U32 := 0
  fillDefer : U32 := 0
  engines : Vector StreamEng 4 := Vector.replicate 4 {}
  descs : Tbl (BitVec 512) := []
  streams : Tbl Stream := []
  descPtr : U32 := 0
  descData : BitVec 512 := 0
  descState : U32 := 0
  descLead : U32 := 0
  descHanded : U32 := 0
  descFreed : U32 := 0
  turn : TurnUnit := {}
  bellDescs : Tbl (BitVec 128) := []
  buoys : Tbl Buoy := []
  buoys0 : Tbl Buoy := []
  buoyPtr : U32 := 0
  buoyData : BitVec 384 := 0
  queryLo : U32 := 0
  queryHi : U32 := 0
  queryMask : U64 := 0
  bellLog : List BellLogEntry := []
  bellTotal : Nat := 0
  bellTimes : List U64 := []
  path : List PathItem := []
  pathNeed : Option Nat := none
  expPath : List BellReq := []
  expBusy : Bool := false
  bellAt : Option (U64 × Nat) := none
  regAt : Option (U64 × Nat) := none
  readValues : List ReadValue := []
  readNo : Nat := 0
  lateAdds : List (BitVec 5) := []
  fillAt : Option (U64 × Nat) := none
  fillPorts : List Nat := []
  fillBanks : List Nat := []
  eps : Tbl Endpoint := []
  epPtr : U32 := 0
  epData : W256 := 0
  epLatch : Endpoint := {}
  sends : List SendRec := []
  expSeqOut : Tbl Nat := []
  spans : List (Nat × Nat) := []
  prev : List (Nat × List Byte) := []
  older : List (Nat × List Byte) := []
  accs : List (Nat × Nat × Nat) := []
  deriving DecidableEq, Repr

/-- A multicast group of the die (R251, log entry 18): local receivers, ports toward child modules, the module set with the core each is
addressed by, and the parent: the port toward the root, none where the root's send endpoint is on this die, with the endpoint that
a credit to the parent names. `rootModule`, `rootCore` and `rootEp` are the send endpoint at the root, which every message of the group names
as its sender. `selfCore`, `selfEp` and `gen`: the pair by which a credit of a child names the group where the module has no receiver of it, and
its generation then. `childIn`: the credit total of each child module, and `sentUp`: the one last sent to the parent. -/
structure MGroup where
  defined : Bool := false
  members : List (Fin 32 × BitVec 7) := []
  ports : U16 := 0
  modules : List (BitVec 12 × BitVec 5) := []
  parentPort : Option (Fin 16) := none
  parentCore : Fin 32 := 0
  parentEp : BitVec 7 := 0
  rootModule : BitVec 12 := 0
  rootCore : Fin 32 := 0
  rootEp : BitVec 7 := 0
  selfCore : Fin 32 := 0
  selfEp : BitVec 7 := 0
  gen : U16 := 0
  childIn : Tbl Nat := []
  sentUp : Nat := 0
  deriving DecidableEq, Repr

/-! ## Memory stacks (10) -/

/-- A block request (R267): its stack address, the bytes it writes (none: a read) or the bell operation it carries, who asks (R277), for
whom, and the source from which it comes over the mesh (R48): the node of a core, 32 the fabric, 33 the host, 34 the ingress unit. -/
structure StackReq where
  addr : Nat
  len : Nat
  write : Option (List Byte)
  bell : Option BellReq := none
  requester : BitVec 3
  tag : Tag
  src : Nat := 0
  arrived : U64 := 0
  deriving DecidableEq, Repr

/-- One pseudo-channel queue and its banks' open rows (R267 to R269). In 0.01 ns of hall time, `doing` is when the service of the
head ends, once it has begun, and `freeAt` when the last one ended; `lastWrite` and `lastRow`: the direction and the open row of the last one.
`drain`: the requests from the head on that are served before self-refresh (R282). -/
structure PcQueue where
  q : List StackReq := []
  doing : Option Nat := none
  freeAt : Nat := 0
  lastWrite : Option Bool := none
  lastRow : Option (Nat × Nat) := none
  openRows : Tbl Nat := []
  drain : Nat := 0
  deriving DecidableEq, Repr

/-- A row of one bank (R279). -/
structure RowRef where
  pc : Fin 32
  bank : BitVec 4
  row : BitVec 18
  deriving DecidableEq, Repr

/-- A stack and its controller. `toRefresh`: it completes the writes that its queues held, and then enters self-refresh (R282). `sensors`: what its four temperature sensors show; `temp`: the highest of the last reading (R272). -/
structure StackCtl where
  sensors : U32 := 0
  temp : Byte := 0
  hot : Bool := false
  doubling : Bool := false
  doubleNext : Bool := false
  singleNext : Bool := false
  selfRefresh : Bool := false
  toRefresh : Bool := false
  candLost : Bool := false
  ueSeen : Bool := false
  ceCount : U32 := 0
  ceLast : BitVec 37 := 0
  ceTimes : List U64 := []
  ceBlocks : List (RowRef × Nat) := []
  tideDouble : U32 := 0
  tideUntil : Option U64 := none
  cands : List RowRef := []
  spared : List RowRef := []
  sparesUsed : Tbl Nat := []
  meshq : List StackReq := []
  pcs : Vector PcQueue 32 := Vector.replicate 32 {}
  deriving DecidableEq, Repr

/-! ## The Opvin fabric (11) -/

/-- PORT_STATUS.STATE (Table 11.2). -/
inductive PortState where
  | down | train | align | sound | up | failed
  deriving DecidableEq, Repr

/-- A class-0 message that waits for a cell, whether it fills both positions of one, and the hall time since which it waits (R301). -/
structure C0Out where
  msg : C0Msg
  wide : Bool
  since : U64 := 0
  deriving DecidableEq, Repr

/-- A codeword as a port sends it: its index, and the 136 symbols on each of the five lanes, the first in bits [9:0]; none on a lane that
carries no codeword symbols (R287, R292). -/
structure TxWord where
  index : BitVec 64
  lanes : Vector (Option (BitVec 1360)) 5
  deriving DecidableEq, Repr

/-- A flit held until its presentation slot (R303). -/
structure Held where
  slot : Nat
  flit : Flit
  deriving DecidableEq, Repr

/-- A flit that crosses this module: the output slot it leaves in, and the port it came in on (R303). -/
structure Crossing where
  slot : Nat
  flit : Flit
  inp : Fin 16
  deriving DecidableEq, Repr

/-- A fabric port. `beaconD`: the delay in force for the beacon (R24); `soundAt`: when the last sounding request left, and
`soundSum`: the sum of round trip minus turnaround over the rounds made, both in ps (R22). `laneFixes`: when and how many symbols
of each lane the FEC corrected, and `cleanRun`: the codewords in a row without an error on lane 4 (R292). `lastSent`: the slot of the
last flit sent, and that flit as it left; `sentWord`: the last codeword sent, as its symbols stand on the lanes (R287). `alignAt`: when ALIGN
began, and `syncRun`: the SYNC symbols in sequence since then (R288). `c2Again`: class-2 flits to be sent again, in order (R311). -/
structure FabPort where
  state : PortState := .down
  spareInUse : Bool := false
  failedLane : BitVec 3 := 7
  tooLong : Bool := false
  identKnown : Bool := false
  peerPort : BitVec 4 := 0
  peerModule : BitVec 12 := 0
  cfg : U32 := 0
  soundU : U16 := 0xFFFF
  soundD : U16 := 0xFFFF
  beaconD : U16 := 0xFFFF
  rounds : Nat := 0
  soundAt : Nat := 0
  soundSum : Nat := 0
  fecCorr : U32 := 0
  fecUncorr : U32 := 0
  c1Retry : U32 := 0
  c1Lost : U32 := 0
  c2Resend : U32 := 0
  rxLaneBad : Option (Fin 4) := none
  linkCode : BitVec 3 := 0
  rxCode : BitVec 3 := 0
  txDup : Option (Fin 4 × Nat) := none
  txStopped : Option (Fin 4) := none
  laneFixes : Vector (List (U64 × Nat)) 5 := Vector.replicate 5 []
  cleanRun : Nat := 0
  nacks : List (BitVec 12 × Nat) := []
  nackIn : List (BitVec 12) := []
  retry : List Held := []
  copies : List Held := []
  gone : List Held := []
  present : List Held := []
  transit : List Crossing := []
  c0q : List C0Out := []
  c0in : List C0Msg := []
  c2Arrived : List Flit := []
  c2In : List Flit := []
  c2Out : List Flit := []
  c2Sent : List (U64 × Flit) := []
  c2Again : List Flit := []
  c2SeqOut : U16 := 0
  c2SeqIn : U16 := 0
  lastSent : Option (Nat × WireFlit) := none
  sentWord : Option TxWord := none
  alignAt : U64 := 0
  syncRun : Nat := 0
  deriving DecidableEq, Repr

/-- A remote-window entry (R314). -/
structure RemoteWin where
  module : BitVec 12
  base : BitVec 52
  size : U64
  key : U32
  deriving DecidableEq, Repr

/-- What the header of a channel message or of a skip marker says of it: the receivers with their drop reasons (0 none), SEQ, LEN (0 a
marker), generation, the units of a marker before it, the ring unit of its first byte, the sender, the core that it is addressed to, the
group whose children it goes on to, whether no endpoint here is its receiver, and the number of the header on its path; `broken`: a flit of it
was rejected, so that it is for nobody (R249, R251, R255). -/
structure MsgIn where
  recvs : List (Fin 32 × BitVec 7 × BitVec 2)
  seq : U32
  len : Nat
  gen : U16
  skip : Nat
  start : Nat
  srcModule : BitVec 12
  srcCore : BitVec 5
  srcEp : BitVec 7
  core : Fin 32 := 0
  group : Option Nat := none
  lost : Bool := false
  first : Nat := 0
  broken : Bool := false
  deriving DecidableEq, Repr

/-- The landing state of one class-1 path into the module (R308): the next number, the numbers at or above it that have landed or been
rejected, the bytes of them that are not written yet, the flits with an effect in path order, and the flits of messages with those of
them that have been written. `cur`: the message whose header lies below `next`, and `items`: what the message holds so far. -/
structure PathIn where
  next : Nat := 0
  seen : List Nat := []
  need : Tbl Nat := []
  waiting : List (Nat × Flit) := []
  busy : Bool := false
  placed : List Nat := []
  cur : Option MsgIn := none
  items : List (Nat × List Byte) := []
  deriving DecidableEq, Repr

/-- A store element, a bell operation or a read that waits for what comes back, with its first and last PATH_SEQ (R309). -/
structure AwaitAccept where
  core : BitVec 5
  dest : BitVec 12
  first : Nat
  pathSeq : Nat
  ack : Option (BitVec 5)
  elem : Option (BitVec 11 × Nat)
  rdest : Option Nat
  deriving DecidableEq, Repr

/-- A flit that crosses the die on the scheduled plane to its port: the cycle of its delivery and its launch queue (R45). -/
structure MeshFlit where
  cycle : Nat
  queue : Nat
  flit : Flit
  deriving DecidableEq, Repr

/-- What a range read from memory is for: a command bank (R87), the shadow tables (R295), a host read (R324), or a read request of the
fabric (R309). -/
inductive Want where
  | helmEntry (core : Fin 32)
  | helm (core : Fin 32) (words : Nat)
  | tables (set : Nat)
  | bar2
  | serve (f : Flit)
  deriving DecidableEq, Repr

/-- A range that is being read from memory: its length, the bytes still missing, and those that have come. -/
structure Job where
  id : Nat
  want : Want
  len : Nat
  need : Nat
  buf : Mem := []
  deriving DecidableEq, Repr

structure Fabric where
  moduleReg : U32 := 0
  c0Bound : U32 := 0x3C4
  drain : U32 := 0x400
  winPtr : U32 := 0
  c0Dup : U32 := 0
  winNacks : U32 := 0
  tablesLive : Bool := false
  shadowReady : Bool := false
  drainUntil : Option Nat := none
  active : Tbl U16 := []
  shadow : Tbl U16 := []
  previous : Tbl U16 := []
  activeSet : Nat := 0
  shadowSet : Nat := 0
  copying : Option Nat := none
  setBase : Tbl U64 := []
  legSet : Tbl Nat := []
  route : Tbl U32 := []
  windows : Tbl W256 := []
  remoteWins : List RemoteWin := []
  queues : Tbl (List Flit) := []
  onMesh : List MeshFlit := []
  queueOf : Tbl Nat := []
  seqOut : Tbl Nat := []
  sentAt : Tbl Nat := []
  pathsIn : Tbl PathIn := []
  landing : List Held := []
  awaiting : List AwaitAccept := []
  accepted : Tbl Nat := []
  expIn : Tbl Nat := []
  expWait : List (BitVec 4 × C0Msg) := []
  expBusy : List Nat := []
  routedSeen : Tbl (List Nat) := []
  statusSeen : Tbl (List Nat) := []
  haltSeen : List (BitVec 12) := []
  rootChangeSeen : Bool := false
  slipSeen : List (BitVec 12 × Nat × Nat) := []
  rseq : U16 := 0
  statusSeq : U16 := 0
  ports : Vector FabPort 16 := Vector.replicate 16 {}
  deriving DecidableEq, Repr

/-! ## Host link, ingress and harbor (12) -/

/-- A harbor region (R339). -/
structure HarborRegion where
  base : U64 := 0
  recSize : U32 := 0
  count : U64 := 0
  deriving DecidableEq, Repr

/-- A host request to the mooring table, as it waits in link order (R327, R365). -/
inductive MoorReq where
  | open_ (session : BitVec 18) (ring : U64) (size tag : U32)
  | close (session : BitVec 18)
  | bell (session : BitVec 18) (v : U32)
  | relayed (session : BitVec 18) (source : BitVec 12) (bytes : U32)
  deriving DecidableEq, Repr

/-- A mooring session as the ingress unit keeps it; CONSUMER alone is read from the table (R326). -/
structure Session where
  base : Nat := 0
  size : Nat := 0
  tag : U32 := 0
  producer : Nat := 0
  mustered : Nat := 0
  deriving DecidableEq, Repr

/-- One entry of a latched muster (R330). -/
structure MusterEntry where
  session : BitVec 18
  final : Bool
  tag : U32
  producer : U64
  deriving DecidableEq, Repr

structure Muster where
  mark : U64
  at_ : U64
  entries : List MusterEntry
  opened : Nat
  deriving DecidableEq, Repr

/-- A relay that waits for its bytes at the target, which lie from PRODUCER `at_` on (R338). -/
structure Relay where
  session : BitVec 18
  source : BitVec 12
  bytes : U32
  landed : U32 := 0
  since : U64
  at_ : U64 := 0
  deriving DecidableEq, Repr

/-- What happened to a W1C register's bits in one cycle of the time domain: those the hardware set and those a write cleared (R404). -/
structure W1c where
  at_ : U64 := 0
  set : U64 := 0
  cleared : U64 := 0
  deriving DecidableEq, Repr

/-- What the ingress unit has to do: a request of the host, accepted after the BAR2 writes below number `after` (R327), a muster to latch
(R330) or to write, or its bell (R332), or a relay of `n` bytes from `src` (R338). -/
inductive IngWork where
  | moor (r : MoorReq) (after : Nat)
  | latch (mark at_ : U64)
  | muster (m : Muster)
  | bell (mark : U64)
  | relay (dest : BitVec 12) (session : BitVec 18) (src n : Nat)
  deriving DecidableEq, Repr

/-- The blocks that the unit has asked for, by address and length, and those that have come (none: uncorrectable). -/
structure ReadBuf where
  wants : List (Nat × Nat) := []
  got : List (Nat × Option (List Byte)) := []
  deriving DecidableEq, Repr

/-- Work of the ingress unit that is under way: it goes on when every block it wants has come. -/
structure IngTask where
  id : Nat
  work : IngWork
  buf : ReadBuf := {}
  deriving DecidableEq, Repr

/-- The host link and the ingress unit. `tasks`: what the unit still has to do, and `buf` the blocks of the task it works on; `writeNo`
numbers the BAR2 writes, and `writing` holds those not written yet, with their pieces; `posted`: the pieces of the unit's own writes that are not written yet. `cfgSpace`: the words of the configuration space, with the BAR assignments and the AER
registers among them (R320, R321). -/
structure HostDom where
  linkUp : Bool := false
  cfgSpace : Tbl U32 := []
  speed : BitVec 4 := 0
  width : BitVec 5 := 0
  d3hot : Bool := false
  bar2Lo : U32 := 0
  bar2Hi : U32 := 0
  irqCause : BitVec 5 := 0
  irqNow : W1c := {}
  harbNow : W1c := {}
  msixTable : Tbl U32 := []
  msixPba : Byte := 0
  msixSent : List (Fin 8) := []
  ingCfg : U32 := 0
  gap : Bool := false
  replayEnd : Bool := false
  moorBaseLo : U32 := 0
  moorBaseHi : U32 := 0
  musterBaseLo : U32 := 0
  musterBaseHi : U32 := 0
  musterBellLo : U32 := 0
  musterBellHi : U32 := 0
  musterDepth : U32 := 2
  ilogBaseLo : U32 := 0
  ilogBaseHi : U32 := 0
  ilogSize : U32 := 0
  ilogWarn : U32 := 0x10
  ilogHead : U64 := 0
  ilogTailLo : U32 := 0
  ilogTail : U64 := 0
  moorSel : U32 := 0
  moorRingLo : U32 := 0
  moorRingHi : U32 := 0
  moorSize : U32 := 0
  moorTag : U32 := 0
  relModule : U32 := 0
  moorResult : U32 := 0
  harbReady : U64 := 0
  harbPtr : U32 := 0
  harbors : Tbl HarborRegion := []
  openSessions : List (BitVec 18) := []
  closing : List (BitVec 18) := []
  listedFinal : List (BitVec 18) := []
  openedSince : Nat := 0
  deferred : List MoorReq := []
  sessions : Tbl Session := []
  tasks : List IngTask := []
  buf : ReadBuf := {}
  writeNo : Nat := 0
  writing : List (Nat × Nat) := []
  posted : Nat := 0
  musters : List Muster := []
  gapMarks : List (U64 × U64) := []
  relaysIn : List Relay := []
  bar2Data : List Byte := []
  bar0Data : U32 := 0
  deriving DecidableEq, Repr

/-! ## Loader (13) -/

structure Loader where
  baseLo : U32 := 0
  baseHi : U32 := 0
  lenLo : U32 := 0
  lenHi : U32 := 0
  position : U32 := 0
  origin : U32 := 0
  firstMarkLo : U32 := 0
  firstMarkHi : U32 := 0
  faultOff : U64 := 0
  regionBaseLo : Vector U32 16 := Vector.replicate 16 0
  regionBaseHi : Vector U32 16 := Vector.replicate 16 0
  keyHash : Tbl U32 := []
  keyCfg : U32 := 0
  busy : Bool := false
  dirty : Bool := false
  keySlot : BitVec 2 := 0
  stepNo : Byte := 0
  pass : Bool := false
  result : Byte := 0
  stagedTouched : Bool := false
  regions : List (Nat × Nat × Nat) := []
  deriving DecidableEq, Repr

/-! ## Power and life cycle (14) -/

/-- PWR_STATUS.PHASE (Table 14.10). -/
inductive PwrPhase where
  | standby | ramp | stackInit | ports | sounding | locking | scrub | ready
  | parked | suspended | dieOff | standbyRelay | killed
  deriving DecidableEq, Repr

/-- The power block. `vinPin`: the level of the main input in mV; `below`: the samples in a row below the entry threshold of tiers 1
to 5; `above1`, `above2`: those at or above the leave levels of tiers 1 and 2; `stable`: those within 46.0 to 56.0 V (R361, R364).
`waitPowerOn`: POWER_OFF has switched the module off; `broughtUp`: the bring-up has reached READY since main power came (R369). -/
structure Power where
  standbyOn : Bool := true
  phase : PwrPhase := .standby
  tier : Fin 6 := 0
  fail : Bool := false
  mainOn : Bool := false
  dieOn : Bool := false
  retained : Bool := false
  zeroing : Bool := false
  cfg : U32 := 0x80000010
  event : BitVec 7 := 0
  eventNow : W1c := {}
  vin : U16 := 0
  vstandby : U16 := 0
  watts : U16 := 0
  svcRequest : Bool := false
  serviceCfg : U32 := 0x19
  debugFuse : Bool := true
  debugEnable : Bool := false
  tierCounts : Vector Byte 4 := Vector.replicate 4 0
  suspBaseLo : U32 := 0
  suspBaseHi : U32 := 0
  suspMarkLo : U32 := 0
  suspMarkHi : U32 := 0
  resumeLo : U32 := 0
  resumeHi : U32 := 0
  snapshot : Option (Nat × Nat) := none
  zeroRanges : List (Nat × Nat × Nat) := []
  saved : Bool := false
  closeAt : Option U64 := none
  killPending : Bool := false
  tripAt : Option U64 := none
  waitPowerOn : Bool := false
  vinPin : U16 := 0
  below : Vector Nat 5 := Vector.replicate 5 0
  above1 : Nat := 0
  above2 : Nat := 0
  stable : Nat := 0
  fastResume : Bool := false
  broughtUp : Bool := false
  fuses : U64 := 0xFFFFFFFFFFFFFFFF
  deriving DecidableEq, Repr

/-! ## Halts, error log, management (15, 16) -/

/-- The halt record (Table 15.1) with HALT_STATUS (Table 15.8). -/
structure HaltRec where
  valid : Bool := false
  extra : Byte := 0
  reason : Byte := 0
  engine : Byte := 0
  noCore : Bool := false
  core : BitVec 5 := 0
  module : BitVec 12 := 0
  cmdValid : Bool := false
  cmdIndex : BitVec 13 := 0
  leg : U16 := 0
  cycle : U32 := 0
  mark : U64 := 0
  time : U64 := 0
  detail0 : U64 := 0
  detail1 : U64 := 0
  deriving DecidableEq, Repr

/-- One entry of the error log (R389). -/
structure ErrEntry where
  time : U64
  code : U16
  core : BitVec 5
  noCore : Bool
  count : Byte
  detail0 : U64
  detail1 : U64
  deriving DecidableEq, Repr

/-- The JTAG instruction in the instruction register (R359). -/
inductive JtagInstr where
  | bypass | idcode | samplePreload | extest
  deriving DecidableEq, Repr

/-- What exists once for each path to the management controller (R403). -/
structure PathRegs where
  latch : Tbl (Option U32) := []
  dbgPtr : U32 := 0
  dbgData : W256 := 0
  data : U32 := 0
  deriving DecidableEq, Repr

structure Mgmt where
  halt : HaltRec := {}
  haltCount : U32 := 0
  errLog : List ErrEntry := []
  errTotal : Nat := 0
  bar0 : PathRegs := {}
  smbus : PathRegs := {}
  jtag : JtagInstr := .bypass
  jtagData : U64 := 0
  jtagPins : U64 := 0
  jtagDriving : Bool := false
  deriving DecidableEq, Repr

/-! ## The whole module -/

/-- The state of the module, and the queue of commands that wait, first in, first out. -/
structure State where
  time : TimeDom := {}
  seq : Sequencer := {}
  clk : ClkDom := {}
  cores : Vector Core 32 := Vector.replicate 32 {}
  groups : Tbl MGroup := []
  dram : Mem := []
  errs : Tbl ErrPat := []
  stks : Vector StackCtl 16 := Vector.replicate 16 {}
  stackThermal : U32 := 0x005F5552
  stackSpareCfg : U32 := 0x00003204
  stackCeLimit : U32 := 0x0E1003E8
  fab : Fabric := {}
  host : HostDom := {}
  loader : Loader := {}
  pwr : Power := {}
  mgmt : Mgmt := {}
  jobs : List Job := []
  jobNo : Nat := 0
  freeCount : Nat := 0
  pending : List Instr := []
  deriving DecidableEq, Repr

/-- Reset is standby power-on (Table 14.5): every field at the value its line of INVENTORY.md gives. -/
def State.reset : State := {}

/-- Why the module stops. Every halt the manual describes is a next state, so the one reason here is the sender's. -/
inductive Fault where
  /-- Raised by no command of the table: kept for a command whose operand names no place of the block. Safe. -/
  | noSuchUnit
  deriving DecidableEq, Repr

/-- Why the model has no next state for a command. -/
inductive Refusal where
  /-- Raised by Dispatch.lean's refused arms only: a row without a meaning yet. Safe. -/
  | notModelled (mnemonic : String)
  /-- Raised by an issue row or its lookout when the words given do not spell that row's opcode (R96). Safe. -/
  | illFormed (mnemonic : String)
  deriving DecidableEq, Repr

end Sys2Proof.Machine
end

