-- ==== Sys2Proof/Machine/Ops.lean ====
section
/-!
DEFINITION. The named operations every family shares: sparse tables and byte memories, the state's own update
functions, interrupts and events, the error log, class-0 sending and the halt of the die.
-/
namespace Sys2Proof.Machine

/-! ## Sparse tables and byte memories -/

/-- The value of key `k`, the default `d` where the table lists none. -/
def tget {α : Type} (d : α) : Tbl α → Nat → α
  | [], _ => d
  | (a, v) :: t, k => if a = k then v else tget d t k

/-- The table with key `k` at `v`; writing the default removes the entry, so equal tables are equal lists. -/
def tset {α : Type} [DecidableEq α] (d : α) : Tbl α → Nat → α → Tbl α
  | [], k, v => if v = d then [] else [(k, v)]
  | (a, w) :: t, k, v =>
    if k < a then (if v = d then (a, w) :: t else (k, v) :: (a, w) :: t)
    else if k = a then (if v = d then t else (k, v) :: t)
    else (a, w) :: tset d t k v

/-- The canonical form of a table: keys rise strictly and no entry equals the default. -/
def twf {α : Type} [DecidableEq α] (d : α) : Tbl α → Bool
  | [] => true
  | (a, v) :: t => decide (v ≠ d) && t.all (fun e => decide (a < e.1)) && twf d t

/-- The canonical form of a byte memory. -/
abbrev Memory.wf (m : Mem) : Bool := twf (0 : Byte) m

def mread (m : Mem) (a : Nat) : Byte := tget 0 m a

def mwrite (m : Mem) (a : Nat) (b : Byte) : Mem := tset 0 m a b

/-- The `n` bytes from `a` upward. -/
def mreads (m : Mem) (a n : Nat) : List Byte := (List.range n).map fun i => mread m (a + i)

/-- Writes the bytes at `a` upward. -/
def mwrites (m : Mem) (a : Nat) : List Byte → Mem
  | [] => m
  | b :: t => mwrites (mwrite m a b) (a + 1) t

/-- A little-endian number of a byte string (R9). -/
def ofBytes : List Byte → Nat
  | [] => 0
  | b :: t => b.toNat + 256 * ofBytes t

/-- The `n` little-endian bytes of a number (R9). -/
def toBytes : Nat → Nat → List Byte
  | 0, _ => []
  | n + 1, v => BitVec.ofNat 8 v :: toBytes n (v / 256)

def mreadLE (m : Mem) (a n : Nat) : Nat := ofBytes (mreads m a n)

/-- Drops every entry with a key in [lo, lo + n): those bytes read as zero. -/
def mzero (m : Mem) (lo n : Nat) : Mem := m.filter fun e => decide (e.1 < lo ∨ lo + n ≤ e.1)

/-! ## Bit fields -/

/-- Bits [hi:lo] of a word as a number (R9). -/
def bits {n : Nat} (w : BitVec n) (hi lo : Nat) : Nat := (w.extractLsb' lo (hi + 1 - lo)).toNat

def bit {n : Nat} (w : BitVec n) (i : Nat) : Bool := w.getLsbD i

/-- The word with bits [hi:lo] replaced by `v`. -/
def setBits {n : Nat} (w : BitVec n) (hi lo : Nat) (v : Nat) : BitVec n :=
  let len := hi + 1 - lo
  (w &&& ~~~(((BitVec.ofNat n (2 ^ len - 1))) <<< lo)) ||| ((BitVec.ofNat n (v % 2 ^ len)) <<< lo)

def setBit {n : Nat} (w : BitVec n) (i : Nat) (b : Bool) : BitVec n := setBits w i i (if b then 1 else 0)

def b2n (b : Bool) : Nat := if b then 1 else 0

/-- A saturating increment. -/
def satInc {n : Nat} (w : BitVec n) : BitVec n := if w = BitVec.allOnes n then w else w + 1

def satAdd {n : Nat} (w : BitVec n) (k : Nat) : BitVec n := BitVec.ofNat n (min (2 ^ n - 1) (w.toNat + k))

/-- A 64-bit value from its LO and HI registers. -/
def pair (lo hi : U32) : U64 := hi ++ lo

/-! ## Updates of the state's parts -/

def State.core (s : State) (c : Fin 32) : Core := s.cores.get c
def State.updCore (s : State) (c : Fin 32) (f : Core → Core) : State :=
  { s with cores := s.cores.set c (f (s.core c)) }
def State.port (s : State) (p : Fin 16) : FabPort := s.fab.ports.get p
def State.updPort (s : State) (p : Fin 16) (f : FabPort → FabPort) : State :=
  { s with fab := { s.fab with ports := s.fab.ports.set p (f (s.port p)) } }
def State.stack (s : State) (i : Fin 16) : StackCtl := s.stks.get i
def State.updStack (s : State) (i : Fin 16) (f : StackCtl → StackCtl) : State :=
  { s with stks := s.stks.set i (f (s.stack i)) }
def State.region (s : State) (r : Fin 8) : Region := s.clk.regions.get r
def State.updRegion (s : State) (r : Fin 8) (f : Region → Region) : State :=
  { s with clk := { s.clk with regions := s.clk.regions.set r (f (s.region r)) } }
def Core.arr (c : Core) (j : Fin 2) : ArrayUnit := c.arrays.get j
def Core.updArr (c : Core) (j : Fin 2) (f : ArrayUnit → ArrayUnit) : Core :=
  { c with arrays := c.arrays.set j (f (c.arr j)) }
def State.updArr (s : State) (c : Fin 32) (j : Fin 2) (f : ArrayUnit → ArrayUnit) : State :=
  s.updCore c fun k => k.updArr j f
def Core.eng (c : Core) (e : Fin 4) : StreamEng := c.engines.get e
def Core.updEng (c : Core) (e : Fin 4) (f : StreamEng → StreamEng) : Core :=
  { c with engines := c.engines.set e (f (c.eng e)) }
def Core.stream (c : Core) (d : BitVec 11) : Stream := tget {} c.streams d.toNat
def Core.updStream (c : Core) (d : BitVec 11) (f : Stream → Stream) : Core :=
  { c with streams := tset {} c.streams d.toNat (f (c.stream d)) }
def Core.buoy (c : Core) (b : BitVec 6) : Buoy := tget {} c.buoys b.toNat
def Core.updBuoy (c : Core) (b : BitVec 6) (f : Buoy → Buoy) : Core :=
  { c with buoys := tset {} c.buoys b.toNat (f (c.buoy b)) }
def Core.ep (c : Core) (e : BitVec 7) : Endpoint := tget {} c.eps e.toNat
def Core.updEp (c : Core) (e : BitVec 7) (f : Endpoint → Endpoint) : Core :=
  { c with eps := tset {} c.eps e.toNat (f (c.ep e)) }
def State.updMem (s : State) (f : Mem → Mem) : State := { s with dram := f s.dram }

/-- The core of a number, taken modulo 32. -/
def coreOf (n : Nat) : Fin 32 := ⟨n % 32, Nat.mod_lt _ (by decide)⟩
def portOf (n : Nat) : Fin 16 := ⟨n % 16, Nat.mod_lt _ (by decide)⟩
def stackOf (n : Nat) : Fin 16 := ⟨n % 16, Nat.mod_lt _ (by decide)⟩
def regionOf (n : Nat) : Fin 8 := ⟨n % 8, Nat.mod_lt _ (by decide)⟩
def arrayOf (n : Nat) : Fin 2 := ⟨n % 2, Nat.mod_lt _ (by decide)⟩
def engOf (n : Nat) : Fin 4 := ⟨n % 4, Nat.mod_lt _ (by decide)⟩
def allCores : List (Fin 32) := List.ofFn id
def allPorts : List (Fin 16) := List.ofFn id
def allStacks : List (Fin 16) := List.ofFn id

/-- Applies a state function once per list entry, first entry first. -/
def foldS {α : Type} (f : α → State → State) (l : List α) (s : State) : State := l.foldl (fun s a => f a s) s

/-! ## Small readings of the state -/

def State.now (s : State) : Nat := s.time.hallTime.toNat
/-- This module's number (FAB_MODULE.MODULE, Table 11.12). -/
def State.module (s : State) : BitVec 12 := s.fab.moduleReg.extractLsb' 0 12
/-- Whether array `a` = 2 c + j is enabled (R2, R5). -/
def State.arrayOn (s : State) (c : Fin 32) (j : Fin 2) : Bool := bit s.pwr.fuses (2 * c.val + j.val)
/-- The die counts cycles: RUNNING with no hold (R58, R30). -/
def State.running (s : State) : Bool := s.seq.state == .running && s.clk.hold.isNone
/-- The module holds an image: from a load's acceptance to the scrub that ends the job (R353). -/
def State.holdsImage (s : State) : Bool := s.seq.state != .empty || s.loader.busy
/-- The lock of RWL registers (R408, R409). -/
def State.unlocked (s : State) : Bool := s.seq.state == .empty && !s.loader.busy
/-- ID_SERIAL: never 0 and never all ones (R410). -/
def serial : U64 :=
  if Config.serialFuse = 0 ∨ Config.serialFuse = BitVec.allOnes 64 then 1 else Config.serialFuse
/-- A fresh free value, and the counter moved on (log entry 2). -/
def State.fresh (s : State) : U64 × State := (Config.freeValue s.freeCount, { s with freeCount := s.freeCount + 1 })
/-- The link carries cells: ALIGN, SOUND or UP (Table 11.2). -/
def FabPort.cells (p : FabPort) : Bool := p.state == .up || p.state == .sound || p.state == .align
/-- The next mark's slip-free index of the slot that starts at or contains a hall time (R287): 3.2 ns slots. -/
def slotAt (ns : Nat) : Nat := ns * 10 / 32
def State.slot (s : State) : Nat := slotAt s.now

/-! ## Interrupts, events, error log -/

/-- The record of a W1C register in the cycle `t` of the time domain. -/
def W1c.now (w : W1c) (t : U64) : W1c := if w.at_ = t then w else { at_ := t }
/-- The hardware sets bits in cycle `t`. -/
def W1c.noteSet (w : W1c) (t b : U64) : W1c := { w.now t with set := (w.now t).set ||| b }
/-- A write of 1 in cycle `t` clears the bits that the hardware does not set in that cycle (R404). -/
def W1c.clears (w : W1c) (t b : U64) : U64 := b &&& ~~~(w.now t).set
/-- A write of 1 to a register that holds `cur`: of the bits it clears, those that were set. -/
def W1c.noteCleared (w : W1c) (t b cur : U64) : W1c := { w.now t with cleared := (w.now t).cleared ||| (w.clears t b &&& cur) }

/-- Sets a bit of HOST_IRQ_CAUSE; a rising bit sends its MSI-X vector, or pends it where the table masks it (R325). Nothing is sent for
a bit that a write clears in this cycle (R404). -/
def setIrq (v : Fin 5) (s : State) : State :=
  let t := s.time.hallTime
  let h := { s.host with irqCause := setBit s.host.irqCause v.val true, irqNow := s.host.irqNow.noteSet t (1#64 <<< v.val) }
  if bit s.host.irqCause v.val || bit (s.host.irqNow.now t).cleared v.val then { s with host := h }
  else
    let masked := bit (tget 0 h.msixTable (4 * v.val + 3)) 0
    { s with host :=
        if masked then { h with msixPba := setBit h.msixPba v.val true }
        else { h with msixSent := h.msixSent ++ [⟨v.val, by omega⟩] } }

/-- Sets a bit of PWR_EVENT (Table 14.9); ALERT# is asserted while any bit is set (Table 14.2). -/
def setEvent (b : Nat) (s : State) : State :=
  { s with pwr := { s.pwr with
      event := setBit s.pwr.event b true, eventNow := s.pwr.eventNow.noteSet s.time.hallTime (1#64 <<< b) } }

def evHalt : Nat := 0
def evReplace : Nat := 1
def evTier : Nat := 2
def evThermal : Nat := 3
def evScrub : Nat := 4
def evSuspended : Nat := 5
def evBringup : Nat := 6

/-- The ALERT# pin (Table 14.2). -/
def State.alert (s : State) : Bool := s.pwr.event != 0

/-- Keeps the last `n` of a ring's entries (R406). -/
def ringPush {α : Type} (n : Nat) (l : List α) (a : α) : List α := (l ++ [a]).drop ((l.length + 1) - n)

/-- Writes an error-log entry, or adds to the COUNT of the newest one when CODE, core and DETAIL0 agree (R389). -/
def logErr (code : U16) (core : Option (Fin 32)) (d0 d1 : U64) (s : State) : State :=
  let cn : BitVec 5 := match core with | some c => BitVec.ofNat 5 c.val | none => 0
  let no := core.isNone
  match s.mgmt.errLog.getLast? with
  | some e =>
    if e.code = code ∧ e.core = cn ∧ e.noCore = no ∧ e.detail0 = d0 then
      { s with mgmt := { s.mgmt with errLog := s.mgmt.errLog.dropLast ++ [{ e with count := satInc e.count }] } }
    else
      { s with mgmt := { s.mgmt with
          errLog := ringPush 1024 s.mgmt.errLog ⟨s.time.hallTime, code, cn, no, 1, d0, d1⟩
          errTotal := s.mgmt.errTotal + 1 } }
  | none =>
    { s with mgmt := { s.mgmt with
        errLog := [⟨s.time.hallTime, code, cn, no, 1, d0, d1⟩], errTotal := s.mgmt.errTotal + 1 } }

def errReloadActive : U16 := 0x0001
def errClosedPeer : U16 := 0x0002
def errWindowNack : U16 := 0x0003
def errMarkPast : U16 := 0x0004
def errC1Lost : U16 := 0x0005
def errBar0Size : U16 := 0x0006
def errBar2Unmapped : U16 := 0x0007
def errIngressState : U16 := 0x0008
def errIngressOverrun : U16 := 0x0009
def errIngressReplay : U16 := 0x000A
def errIlogGap : U16 := 0x000B
def errRelayStall : U16 := 0x000C
def errUeHost : U16 := 0x000D
def errUeScrub : U16 := 0x000E
def errImageRefused : U16 := 0x000F
def errScrubPending : U16 := 0x0010
def errSuspendRefused : U16 := 0x0011
def errStateSealed : U16 := 0x0012
def errMarkAlign : U16 := 0x0013
def errUeIdle : U16 := 0x0014

/-! ## Class-0 messages (R297 to R301) -/

/-- A message from its bytes: (byte offset, width in bytes, value). -/
def c0msg (fields : List (Nat × Nat × Nat)) : C0Msg :=
  fields.foldl (fun m f => setBits m (8 * (f.1 + f.2.1) - 1) (8 * f.1) f.2.2) 0

/-- Bytes [a, a + n) of a message. -/
def c0get (m : C0Msg) (a n : Nat) : Nat := bits m (8 * (a + n) - 1) (8 * a)

def kindBeacon : Nat := 1
def kindSound : Nat := 2
def kindRootChange : Nat := 3
def kindSlip : Nat := 4
def kindHalt : Nat := 5
def kindStatus : Nat := 6
def kindCredit : Nat := 7
def kindCreditDrop : Nat := 8
def kindExpress : Nat := 9
def kindNack : Nat := 10
def kindAccept : Nat := 11

/-- Messages of 32 bytes fill both positions of a cell (Table 11.6). -/
def c0wide (m : C0Msg) : Bool :=
  c0get m 0 1 == kindCreditDrop || c0get m 0 1 == kindExpress

/-- The order in which a port fills its cells (R301). -/
def c0rank (m : C0Msg) : Nat :=
  let k := c0get m 0 1
  if k = kindBeacon ∨ k = kindSound then 0
  else if k = kindHalt then 1 else if k = kindSlip then 2
  else if k = kindRootChange then 3 else if k = kindStatus then 4 else 5

/-- Puts a message into a port's class-0 queue behind every message of its rank or a higher one (R301). -/
def c0insert (q : List C0Out) (m : C0Msg) (since : U64) : List C0Out :=
  q.takeWhile (fun o => decide (c0rank o.msg ≤ c0rank m)) ++ [⟨m, c0wide m, since⟩] ++
    q.dropWhile (fun o => decide (c0rank o.msg ≤ c0rank m))

/-- Queues a message on a port; queued SLIPs for one partition and mark merge into the largest k, in the place of the one that waits (R301). -/
def c0queue (p : Fin 16) (m : C0Msg) (s : State) : State :=
  s.updPort p fun f =>
    let same := fun (o : C0Out) =>
      c0get m 0 1 == kindSlip && c0get o.msg 0 1 == kindSlip && c0get o.msg 2 2 == c0get m 2 2 &&
        c0get o.msg 4 4 == c0get m 4 4
    if f.c0q.any same then
      { f with c0q := f.c0q.map fun o => if same o && decide (c0get o.msg 8 1 < c0get m 8 1) then { o with msg := m } else o }
    else { f with c0q := c0insert f.c0q m s.time.hallTime }

/-- A flood message goes out on every port in UP except the one it came by (R299). -/
def c0flood (from_ : Option (Fin 16)) (m : C0Msg) (s : State) : State :=
  foldS (fun p s => if (s.port p).state = .up ∧ from_ ≠ some p then c0queue p m s else s) allPorts s

/-- A routed message goes out on both the PORT and the ALT_PORT of its route entry (R300). -/
def c0route (dest : BitVec 12) (m : C0Msg) (s : State) : State :=
  let r := tget 0 s.fab.route dest.toNat
  if bit r 31 then
    let a := portOf (bits r 3 0)
    let b := portOf (bits r 7 4)
    if a = b then c0queue a m s else c0queue b m (c0queue a m s)
  else s

/-- Sends a routed message of this module: bytes 2-7 carry SRC, DEST and the next RSEQ (R297). -/
def c0send (dest : BitVec 12) (m : C0Msg) (s : State) : State :=
  let m1 := setBits (setBits (setBits m 31 16 s.module.toNat) 47 32 dest.toNat) 63 48 s.fab.rseq.toNat
  c0route dest m1 { s with fab := { s.fab with rseq := s.fab.rseq + 1 } }

/-! ## The halt (R381 to R384, R417) -/

/-- A halt cause: code of Table 15.3, the core it names, engine of Table 15.2, command index, detail words. -/
structure HaltCause where
  reason : Byte
  core : Option (Fin 32)
  engine : Byte
  cmd : Option Nat
  d0 : U64 := 0
  d1 : U64 := 0
  deriving DecidableEq, Repr

def hcOpcode : Byte := 0x01
def hcField : Byte := 0x02
def hcAbsent : Byte := 0x03
def hcBank : Byte := 0x04
def hcRange : Byte := 0x05
def hcBound : Byte := 0x06
def hcDoneWait : Byte := 0x07
def hcFormat : Byte := 0x08
def hcEcc : Byte := 0x09
def hcSlot : Byte := 0x0A
def hcHoldTimeout : Byte := 0x0B
def hcWindow : Byte := 0x0C
def hcDropStrict : Byte := 0x0D
def hcNonfinite : Byte := 0x0E
def hcRemote : Byte := 0x10
def hcKill : Byte := 0x11
def hcThermal : Byte := 0x13
def hcElastic : Byte := 0x14

def engHelm : Byte := 0x0B
def engStack : Byte := 0x10
def engFabric : Byte := 0x11
def engSeq : Byte := 0x12
def engPower : Byte := 0x13
def engMesh : Byte := 0x14

/-- The record of a cause at this moment. CYCLE is the cycle that was to run next: the one the die is in or holds at, or the one after a cycle
that is over; it is 0 unless a leg runs. LEG and MARK name the last leg (R417). -/
def haltRecord (c : HaltCause) (s : State) : HaltRec :=
  { valid := true, extra := 0, reason := c.reason, engine := c.engine
    noCore := c.core.isNone
    core := match c.core with | some k => BitVec.ofNat 5 k.val | none => 0
    module := s.module
    cmdValid := c.cmd.isSome
    cmdIndex := BitVec.ofNat 13 (c.cmd.getD 0)
    leg := if s.seq.begun then BitVec.ofNat 16 s.seq.cur.entry else 0
    cycle := if s.seq.state = .running then BitVec.ofNat 32 (s.seq.cycle + if s.clk.phase = .wait then 1 else 0) else 0
    mark := if s.seq.begun then s.seq.mark else 0
    time := s.time.hallTime
    detail0 := c.d0, detail1 := c.d1 }

/-- Whether a cause ranks before the recorded one when both arise in one cycle (R382). -/
def outranks (c : HaltCause) (h : HaltRec) : Bool :=
  match c.core with
  | some k =>
    if h.noCore then true
    else if k.val ≠ h.core.toNat then decide (k.val < h.core.toNat)
    else if c.engine ≠ h.engine then decide (c.engine.toNat < h.engine.toNat)
    else decide (c.reason.toNat < h.reason.toNat)
  | none =>
    if h.noCore then
      if c.engine ≠ h.engine then decide (c.engine.toNat < h.engine.toNat)
      else decide (c.reason.toNat < h.reason.toNat)
    else false

/-- The HALT message of a record of this module (Table 11.6, R383). -/
def haltMsgOf (h : HaltRec) (s : State) : C0Msg :=
  c0msg [(0, 1, kindHalt), (2, 2, s.seq.origin.toNat), (4, 2, s.module.toNat), (6, 1, h.reason.toNat),
    (7, 1, if h.noCore then 32 else h.core.toNat)]

/-- The HALT flood of a record. A die that a HALT message halts floods nothing of its own: it has forwarded that message, and a HALT is
forwarded only for the first halt of a partition (R299, R383). -/
def floodHalt (h : HaltRec) (s : State) : State := if h.reason = hcRemote then s else c0flood none (haltMsgOf h s) s

/-- The record that stays of the causes of one cycle. Where its message is another than the one that waits to go out, it takes that one's
place, so that the flood carries the recorded cause (R382, R383). -/
def keepHalt (h : HaltRec) (s : State) : State :=
  let t := { s with mgmt := { s.mgmt with halt := h } }
  let old := haltMsgOf s.mgmt.halt s
  if haltMsgOf h s = old then t
  else floodHalt h { t with fab := { t.fab with ports := t.fab.ports.map fun p => { p with c0q := p.c0q.filter fun o => o.msg != old } } }

/-- A cause that joins the recorded one in the same cycle: the higher rank is kept, EXTRA counts the other (R382). -/
def joinHalt (c : HaltCause) (s : State) : State :=
  let h := s.mgmt.halt
  let n := if outranks c h then
      { haltRecord c s with cycle := h.cycle, leg := h.leg, mark := h.mark, time := h.time, valid := h.valid }
    else h
  keepHalt { n with extra := satInc h.extra } s

/-- Whether a cause arises in the halt cycle itself, taken as the same ns of hall time (log entry 9). -/
def sameHaltCycle (s : State) : Bool :=
  s.seq.state == .halted && s.mgmt.halt.time == s.time.hallTime && s.mgmt.halt.reason != 0

/-- The halt of the die with a record: LEG_STATE HALTED, PWR_EVENT.HALT, HOST_IRQ_CAUSE bit 0, the HALT flood (R381 to R384). -/
def haltWith (h : HaltRec) (s : State) : State :=
  floodHalt h (setIrq 0 (setEvent evHalt { s with
    mgmt := { s.mgmt with halt := h, haltCount := satInc s.mgmt.haltCount }
    seq := { s.seq with state := .halted, parked := false, suspended := false, suspendReq := none }
    clk := { s.clk with hold := none }
    fab := { s.fab with haltSeen := s.seq.origin :: s.fab.haltSeen } }))

/-- A halt cause arises. A die that is EMPTY has nothing to halt; a halted die ignores the causes of later cycles (R382, Table 16.6). -/
def raiseHalt (c : HaltCause) (s : State) : State :=
  if s.seq.state = .empty then s
  else if s.seq.state = .halted then (if sameHaltCycle s then joinHalt c s else s)
  else haltWith (haltRecord c s) s

/-- What is left of work on a die that another cause has halted in this cycle: the causes that it meets (R381, R382). -/
def onlyCauses (work : State → State) (s : State) : State := keepHalt (work s).mgmt.halt s

/-! ## Hall addresses (R312, R264) -/

def stackBytes : Nat := 72 * 1024 * 1024 * 1024
def memBytes : Nat := 16 * stackBytes
def spadBytes : Nat := 24 * 1024 * 1024
def acbBytes : Nat := 1024 * 1024

/-- The linear place of a space-0 or space-4 offset in stack memory (R264). -/
def linearOf (space off : Nat) : Nat :=
  if space = 4 then
    let i := off / 4096
    stackBytes * (i % 16) + 4096 * (i / 16) + off % 4096
  else off

/-- A byte of the module as its hall address names it. -/
inductive Place where
  | dram (a : Nat)
  | spad (core : Fin 32) (a : Nat)
  | acb (core : Fin 32) (array : Fin 2) (a : Nat)
  | none
  deriving DecidableEq, Repr

/-- Where a space and offset of this module lie (Table 11.7); `none` for an address no space holds. -/
def placeOf (s : State) (space off : Nat) : Place :=
  if space = 0 ∨ space = 4 then (if off < memBytes then .dram (linearOf space off) else .none)
  else if space = 1 then
    (if off < 2 ^ 45 ∧ off / 2 ^ 25 % 2 ^ 15 = 0 ∧ off % 2 ^ 25 < spadBytes then .spad (coreOf (off / 2 ^ 40)) (off % 2 ^ 25)
     else .none)
  else if space = 2 then
    (let c := coreOf (off / 2 ^ 40)
     let j := arrayOf (off / 2 ^ 39)
     if off < 2 ^ 45 ∧ off / 2 ^ 20 % 2 ^ 19 = 0 ∧ s.arrayOn c j then .acb c j (off % 2 ^ 20) else .none)
  else .none

/-- A byte of stack memory; in a suspend area, whose layout no rule gives, bytes not written since are free (log entry 25). -/
def dramByte (s : State) (a : Nat) : Byte :=
  let b := mread s.dram a
  match s.pwr.snapshot with
  | some (base, seed) =>
    if b = 0 ∧ base ≤ a ∧ a < base + 1024 * 1024 * 1024 then (Config.freeValue (seed + (a - base))).setWidth 8 else b
  | none => b

def dramBytes (s : State) (a n : Nat) : List Byte := (List.range n).map fun i => dramByte s (a + i)

/-- The byte at a place. -/
def readPlace (s : State) : Place → Byte
  | .dram a => dramByte s a
  | .spad c a => mread (s.core c).spad a
  | .acb c j a => mread ((s.core c).arr j).acb a
  | .none => 0

/-- A cycle of the leg has begun whose drains and fills are still to come, be it held (R119). -/
def State.beforeWork (s : State) : Bool :=
  s.seq.state == .running && (s.clk.phase == .sample || s.clk.phase == .links || s.clk.phase == .work)

/-- Writes one byte at a place; nowhere for an address no space holds. An external write to an accumulator buffer is noted in a cycle
whose drains are still to come, since it applies after them (R119). -/
def writePlace (p : Place) (b : Byte) (s : State) : State :=
  match p with
  | .dram a => s.updMem fun m => mwrite m a b
  | .spad c a => s.updCore c fun k => { k with spad := mwrite k.spad a b }
  | .acb c j a => s.updArr c j fun u => { u with
      acb := mwrite u.acb a b
      extNow := if s.beforeWork then u.extNow ++ [(a, mread u.acb a, b)] else u.extNow }
  | .none => s

/-- Reads `n` bytes of this module's hall space upward from an offset. -/
def readHall (s : State) (space off n : Nat) : List Byte :=
  (List.range n).map fun i => readPlace s (placeOf s space (off + i))

/-- Writes bytes of this module's hall space upward from an offset. -/
def writeHall (space off : Nat) (bs : List Byte) (s : State) : State :=
  match bs with
  | [] => s
  | b :: t => writeHall space (off + 1) t (writePlace (placeOf s space off) b s)

/-- Every byte of a range lies at a place that exists. -/
def mapped (s : State) (space off n : Nat) : Bool :=
  n = 0 || (placeOf s space off != .none && placeOf s space (off + n - 1) != .none &&
    (if space = 1 ∨ space = 2 then decide (off / 2 ^ 25 = (off + n - 1) / 2 ^ 25) else true))

/-- The first offset after the unit of a space that holds offset `off`: the stacks, a core's scratchpad, an accumulator buffer. -/
def spaceEnd (space off : Nat) : Nat :=
  match space with
  | 0 | 4 => memBytes
  | 1 => off / 2 ^ 25 * 2 ^ 25 + spadBytes
  | 2 => off / 2 ^ 20 * 2 ^ 20 + 2 ^ 20
  | _ => 0

/-- `n` bytes from an offset have the layout of Table 11.7, on whatever module (R312, R313). -/
def offsetFits (space off n : Nat) : Bool :=
  (match space with
   | 1 => decide (off < 2 ^ 45) && decide (off / 2 ^ 25 % 2 ^ 15 = 0)
   | 2 => decide (off < 2 ^ 45) && decide (off / 2 ^ 20 % 2 ^ 19 = 0)
   | _ => true) && decide (off + n ≤ spaceEnd space off)

/-- The fields of a hall address (R312). -/
def haModule (a : U64) : BitVec 12 := a.extractLsb' 52 12
def haSpace (a : U64) : Nat := bits a 51 48
def haOff (a : U64) : Nat := bits a 47 0

end Sys2Proof.Machine
end

