-- ==== Sys2Proof/Machine/Rs.lean ====
section
/-!
DEFINITION. Reed-Solomon codes: the fathom code RS(72,64) over GF(2^8) with polynomial 0x11D (R274, R275), and the arithmetic that
the code of a fabric codeword, RS(544,514) over GF(2^10), shares with it (R286). A code is linear, so what its decoder finds depends
on the error pattern alone.
-/
namespace Sys2Proof.Machine

/-- A Reed-Solomon code whose generator has the roots α^0, α^1, … for α = 2: the bits of a symbol, the field polynomial, the symbols
of a codeword and its check symbols. -/
structure RsCode where
  width : Nat
  poly : Nat
  len : Nat
  checks : Nat
  deriving DecidableEq, Repr

/-- The fathom code (R274). -/
def fathomCode : RsCode := ⟨8, 0x11D, 72, 8⟩

/-- The symbol errors that the code corrects. -/
def RsCode.radius (g : RsCode) : Nat := g.checks / 2

/-! ## The field -/

/-- Product by shift and add, one step for each bit of a symbol. -/
def RsCode.mulAux (g : RsCode) : Nat → Nat → Nat → Nat → Nat
  | 0, _, _, acc => acc
  | n + 1, a, b, acc =>
    let acc := if b % 2 = 1 then acc ^^^ a else acc
    let a2 := 2 * a
    g.mulAux n (if a2 ≥ 2 ^ g.width then a2 ^^^ g.poly else a2) (b / 2) acc
def RsCode.mul (g : RsCode) (a b : Nat) : Nat := g.mulAux g.width a b 0

/-- A power, by squaring over the bits of the exponent. -/
def RsCode.pow (g : RsCode) (a n : Nat) : Nat :=
  (List.range g.width).foldr (fun k x => let y := g.mul x x; if n.testBit k then g.mul y a else y) 1

/-- The inverse of a symbol. -/
def RsCode.inv (g : RsCode) (a : Nat) : Nat := g.pow a (2 ^ g.width - 2)

/-- α^k for the root α = 2. -/
def RsCode.alpha (g : RsCode) (k : Nat) : Nat := g.pow 2 (k % (2 ^ g.width - 1))

/-- A polynomial as its coefficients, lowest first, at a point. -/
def RsCode.eval (g : RsCode) : List Nat → Nat → Nat
  | [], _ => 0
  | c :: t, x => c ^^^ g.mul x (g.eval t x)

def polyAdd : List Nat → List Nat → List Nat
  | [], b => b
  | a, [] => a
  | x :: a, y :: b => (x ^^^ y) :: polyAdd a b

def RsCode.scale (g : RsCode) (k : Nat) (p : List Nat) : List Nat := p.map (g.mul k)

/-! ## The decoder -/

/-- Syndromes of an error pattern: symbol i is the coefficient of x^(len - 1 - i) (R274). -/
def RsCode.syndromes (g : RsCode) (e : List (Nat × Nat)) : List Nat :=
  (List.range g.checks).map fun j => e.foldl (fun a p => a ^^^ g.mul p.2 (g.alpha (j * (g.len - 1 - p.1)))) 0

/-- The state of the locator search: locator, previous locator, length, gap, previous discrepancy. -/
structure Bm where
  c : List Nat
  b : List Nat
  l : Nat
  m : Nat
  d : Nat

/-- One step of the shortest-register search over the syndromes. -/
def RsCode.bmStep (g : RsCode) (syn : List Nat) (s : Bm) (n : Nat) : Bm :=
  let delta := (List.range (s.l + 1)).foldl (fun a i => a ^^^ g.mul (s.c.getD i 0) (syn.getD (n - i) 0)) 0
  if delta = 0 then { s with m := s.m + 1 }
  else
    let t := polyAdd s.c (List.replicate s.m 0 ++ g.scale (g.mul delta (g.inv s.d)) s.b)
    if 2 * s.l ≤ n then ⟨t, s.c, n + 1 - s.l, 1, delta⟩ else { s with c := t, m := s.m + 1 }

def RsCode.bmRun (g : RsCode) (syn : List Nat) : Bm := (List.range g.checks).foldl (g.bmStep syn) ⟨[1], [1], 0, 1, 1⟩

/-- Positions whose locator α^(len - 1 - i) is an inverse root of the locator polynomial. -/
def RsCode.roots (g : RsCode) (c : List Nat) : List Nat :=
  (List.range g.len).filter fun i => g.eval c (g.inv (g.alpha (g.len - 1 - i))) == 0

/-- The odd part of a polynomial divided by x: its formal derivative. -/
def deriv (c : List Nat) : List Nat :=
  (List.range (c.length - 1)).map fun i => if i % 2 = 0 then c.getD (i + 1) 0 else 0

/-- The error evaluator: the lowest terms of syndromes times locator. -/
def RsCode.omega (g : RsCode) (syn c : List Nat) : List Nat :=
  (List.range g.checks).map fun n => (List.range (n + 1)).foldl (fun a i => a ^^^ g.mul (c.getD i 0) (syn.getD (n - i) 0)) 0

/-- The value of the error at a position (first root α^0). -/
def RsCode.value (g : RsCode) (syn c : List Nat) (i : Nat) : Nat :=
  let x := g.alpha (g.len - 1 - i)
  let xi := g.inv x
  g.mul x (g.mul (g.eval (g.omega syn c) xi) (g.inv (g.eval (deriv c) xi)))

/-- The error pattern of at most `radius` symbols that has these syndromes, if there is one. -/
def RsCode.find (g : RsCode) (syn : List Nat) : Option (List (Nat × Nat)) :=
  if syn.all (· == 0) then some []
  else
    let r := g.bmRun syn
    let l := g.roots r.c
    let fix := l.map fun i => (i, g.value syn r.c i)
    if r.l ≤ g.radius ∧ l.length = r.l ∧ g.syndromes fix = syn then some fix else none

/-! ## The fathom code -/

/-- What a decode finds (R275): a codeword, a correction, or an uncorrectable block; the residual is what stays wrong. -/
inductive Fathom where
  | clean (residual : ErrPat)
  | corrected (residual : ErrPat)
  | uncorrectable
  deriving DecidableEq, Repr

/-- Adds two error patterns, byte by byte. -/
def errAdd (a b : ErrPat) : ErrPat :=
  (List.range 72).filterMap fun i =>
    let v := tget 0 a i ^^^ tget 0 b i
    if v = 0 then none else some (i, v)

/-- The decoder (R275): a pattern of up to 4 bytes is found and removed; any other is reported, or miscorrected when it lies
within 4 bytes of another codeword. -/
def fathomDecode (e : ErrPat) : Fathom :=
  match fathomCode.find (fathomCode.syndromes (e.map fun p => (p.1, p.2.toNat))) with
  | some [] => .clean e
  | some fix => .corrected (errAdd e (fix.map fun p => (p.1, BitVec.ofNat 8 p.2)))
  | none => .uncorrectable

end Sys2Proof.Machine
end

