-- ==== Sys2Proof/Machine/Time.lean ====
section
/-!
DEFINITION. Hall time, the beacon tree, sounding and the time domain's states (01_hall_time.md, R11 to R26).
-/
namespace Sys2Proof.Machine

/-! ## Readings of TIME_BEACON_CFG (Table 1.7) -/

/-- The role TIME_BEACON_CFG names; the reserved code acts as a member (log entry 10). -/
def roleOfCfg (w : U32) : BeaconRole :=
  match bits w 31 30 with
  | 1 => .root
  | 2 => .standbyRoot
  | _ => .member

def TimeDom.parentPort (t : TimeDom) : Fin 16 := portOf (bits t.beaconCfg 19 16)
def TimeDom.backupPort (t : TimeDom) : Fin 16 := portOf (bits t.beaconCfg 23 20)
/-- USE_PPS: phase from PPS_IN when present. -/
def TimeDom.usePps (t : TimeDom) : Bool := bit t.beaconCfg 0
/-- The port of the parent in use (R17, R19). A module on its backup stays on it until the next sounding, also when its primary
parent is heard again (log entry 59). -/
def TimeDom.portUsed (t : TimeDom) : Fin 16 := if t.onBackup then t.backupPort else t.parentPort

/-- No valid time cell for `n` ns from the parent (R17, R19). -/
def State.parentQuiet (s : State) (n : Nat) : Bool := decide (s.time.parentCellAt.toNat + n ≤ s.now)
def State.backupQuiet (s : State) (n : Nat) : Bool := decide (s.time.backupCellAt.toNat + n ≤ s.now)

/-- A usable parent or backup parent: heard within eight cells, over a path that sounding has not refused (R17, R21, R23). -/
def State.parentUp (s : State) : Bool := s.time.parentSeen && !s.parentQuiet 1024
def State.backupUp (s : State) : Bool := s.time.backupSeen && !s.backupQuiet 1024 && !s.time.backupLost

/-- Some parent that the module may follow is usable; after a root change it is the backup parent alone (R19, R21). -/
def State.someParent (s : State) : Bool := (s.parentUp && !s.time.rootChanged) || s.backupUp

/-- TIME_STATUS.BACKUP_LOST (Table 1.6): the path is unusable, or the backup parent is silent to a module that listens for it, which it
does once it has left sounding; the standby root has none (Table 1.1). -/
def State.backupLostBit (s : State) : Bool :=
  s.time.backupLost || (s.time.listening && roleOfCfg s.time.beaconCfg != .standbyRoot && s.backupQuiet 1024)

/-- The budget of the path in use, in ps (R23). -/
def TimeDom.budget (t : TimeDom) : Nat := if t.onBackup then bits t.pathBudget 31 16 else bits t.pathBudget 15 0

/-- The phase correction still to make lies within the path budget (Table 1.2). -/
def TimeDom.inPhase (t : TimeDom) : Bool := decide (t.slew.natAbs ≤ 10 * t.budget)

/-- Notes a phase beyond the path budget: the millisecond of Table 1.2 begins again. -/
def TimeDom.notePhase (t : TimeDom) : TimeDom := if t.inPhase then t else { t with phaseOutAt := t.hallTime }

/-- Sets the phase aim: the target in ps of hall time is reached by slewing (R12, R16). -/
def slewTo (ps : Int) (s : State) : State :=
  { s with time := TimeDom.notePhase { s.time with slew := ps * 10 - ((s.now : Int) * 10000 + s.time.frac) } }

/-- ACQUIRE is entered, from now on (Table 1.2). -/
def TimeDom.acquiring (t : TimeDom) : TimeDom := { t with osc := .acquire, phaseOutAt := t.hallTime }

/-- PPS_OUT at a moment at which the count begins or is set: high from a whole second on (R14). -/
def ppsAtCount (s : State) : State :=
  if s.now % 1000000000 = 0 then { s with time := { s.time with ppsOut := true } } else s

/-- The count is set once, before the module has a hall time (log entry 12); the listening times keep their distance. -/
def setCount (v : U64) (frac : Int) (s : State) : State :=
  let t := s.time
  ppsAtCount { s with time := { t with
    hallTime := v, frac := frac, slew := 0, epochSet := true
    parentCellAt := t.parentCellAt + (v - t.hallTime), backupCellAt := t.backupCellAt + (v - t.hallTime)
    holdoverAt := t.holdoverAt + (v - t.hallTime), phaseOutAt := t.phaseOutAt + (v - t.hallTime) } }

/-- The time domain follows its role from now on: the root enters LOCKED, its count having begun unless it waits for the first
PPS_IN edge after lock; another module enters ACQUIRE once a parent is usable, and counts on its own oscillator until then (Table 1.2). -/
def leaveSounding (s : State) : State :=
  let t := s.time
  if t.role = .root then
    { s with time := { t with osc := .locked, listening := true, epochSet := t.epochSet || !(t.usePps && t.ppsPin) } }
  else
    let u := if s.someParent then t.acquiring else { t with osc := .freeRun }
    { s with time := { u with listening := true, parentCellAt := t.hallTime, backupCellAt := t.hallTime } }

/-- Roles return to TIME_BEACON_CFG (R19, Table 1.1). The root is its own path: its primary budget is 20 ps (R23). -/
def takeRole (s : State) : State :=
  let role := roleOfCfg s.time.beaconCfg
  { s with
    time := { s.time with
      role := role, actingRoot := role == .root, onBackup := false, rootChanged := false
      pathBudget := if role = .root then setBits s.time.pathBudget 15 0 20 else s.time.pathBudget
      depth := if role = .root then 0 else s.time.depth
      portInUse := if role = .root then 0 else BitVec.ofNat 4 s.time.parentPort.val }
    fab := { s.fab with rootChangeSeen := false } }

/-- The status bits of BEACON_TIME byte 1 (Table 11.6). -/
def State.statusBits (s : State) : Nat :=
  b2n s.pwr.svcRequest + 2 * b2n s.time.outOfSpec + 4 * b2n s.time.onBackup + 8 * b2n s.time.actingRoot

/-- A STATUS flood of this module, hall-wide (R299, log entry 11). -/
def sendStatus (s : State) : State :=
  let m := c0msg [(0, 1, kindStatus), (2, 2, 0xFFF), (4, 2, s.module.toNat), (6, 2, s.fab.statusSeq.toNat), (8, 1, s.statusBits)]
  c0flood none m { s with fab := { s.fab with statusSeq := s.fab.statusSeq + 1 } }

/-- A dropped duplicate of a class-0 message (FAB_C0_DUP). -/
def c0drop (s : State) : State := { s with fab := { s.fab with c0Dup := s.fab.c0Dup + 1 } }

/-! ## Rows -/

/-- OSCILLATOR_STABLE (Table 1.2): RESET is left for FREE_RUN and the count runs, with PPS_OUT high where it begins at a whole
second (R14). -/
def execOscillatorStable (s : State) : Host.Outcome State Fault Refusal :=
  .next (if s.pwr.standbyOn ∧ s.time.osc = .reset then ppsAtCount { s with time := { s.time with osc := .freeRun } } else s)

/-- REF_OK: both references present and in use at the root (Table 1.6). -/
def refreshRefOk (s : State) : State :=
  { s with time := { s.time with
      refOk := s.time.actingRoot && s.time.refPin && s.time.ppsPin && s.time.usePps } }

/-- The nearest whole second to a hall time. -/
def nearestSecond (ns : Nat) : Nat := (ns + 500000000) / 1000000000 * 1000000000

/-- PPS_IN_EDGE: a root that locked with PPS_IN present begins its count at 0 at the first edge after lock; any later edge steers
the phase (R12, R20, log entry 12). -/
def execPpsInEdge (s : State) : Host.Outcome State Fault Refusal :=
  .next <|
    let s := refreshRefOk { s with time := { s.time with ppsPin := true } }
    if s.time.actingRoot ∧ s.time.usePps ∧ s.time.osc = .locked then
      if s.time.epochSet then slewTo ((nearestSecond s.now : Int) * 1000) s
      else setCount 0 0 s
    else s

/-- REF_LOSS (R20): the hall runs on the root's own oscillator, and its count has begun; REF_OK clears. -/
def execRefLoss (pps : Bool) (s : State) : Host.Outcome State Fault Refusal :=
  .next { s with time := { s.time with
    refPin := s.time.refPin && pps, ppsPin := s.time.ppsPin && !pps, refOk := false
    epochSet := s.time.epochSet || (pps && s.time.actingRoot) } }

/-- REF_RETURN (R20): the reference is back; steering back is by slewing at the PPS edges. -/
def execRefReturn (pps : Bool) (s : State) : Host.Outcome State Fault Refusal :=
  .next (refreshRefOk { s with time := { s.time with
    refPin := s.time.refPin || !pps, ppsPin := s.time.ppsPin || pps } })

/-- PPS_OUT_RISE (R14): at every multiple of 1,000,000,000 ns. -/
def execPpsOutRise (s : State) : Host.Outcome State Fault Refusal :=
  .next (if s.pwr.standbyOn ∧ s.now % 1000000000 = 0 then { s with time := { s.time with ppsOut := true } } else s)

/-- PPS_OUT_FALL (R14): 100 µs later. -/
def execPpsOutFall (s : State) : Host.Outcome State Fault Refusal :=
  .next (if s.now % 1000000000 ≥ 100000 then { s with time := { s.time with ppsOut := false } } else s)

/-- A time cell is heard on a parent's port (R17). -/
def hearCell (port : Fin 16) (t : TimeDom) : TimeDom :=
  let t := if port = t.parentPort ∧ roleOfCfg t.beaconCfg ≠ .root then { t with parentCellAt := t.hallTime, parentSeen := true } else t
  if port = t.backupPort ∧ roleOfCfg t.beaconCfg ≠ .standbyRoot then { t with backupCellAt := t.hallTime, backupSeen := true } else t

/-- BEACON_TIME (R16, R17, Table 1.2): a module that has no parent yet acquires from the first usable one; the parent in use sets the
phase to the stamped time plus the delay in force, which a link that has not been sounded does not have (R24); the first
cell of a module that has no hall time yet sets the count itself (log entry 12). -/
def execBeaconTime (port : Fin 16) (msg : C0Msg) (s : State) : Host.Outcome State Fault Refusal :=
  .next <|
    let p := s.port port
    if c0get msg 0 1 = kindBeacon ∧ p.cells then
      let s := { s with time := hearCell port s.time }
      let t := s.time
      if t.actingRoot ∨ p.beaconD = 0xFFFF then s
      else
        let s := if t.osc = .freeRun ∧ s.someParent then { s with time := { t.acquiring with
            onBackup := t.onBackup || !s.parentUp } } else s
        let t := s.time
        if port = t.portUsed ∧ (t.osc = .acquire ∨ t.osc = .locked) then
          let stamp := c0get msg 8 8
          let s := { s with time := { t with
            depth := BitVec.ofNat 8 (c0get msg 4 1 + 1), portInUse := BitVec.ofNat 4 port.val } }
          if t.epochSet then slewTo ((stamp : Int) * 1000 + p.beaconD.toNat) s
          else setCount (BitVec.ofNat 64 (stamp + p.beaconD.toNat / 1000)) (((p.beaconD.toNat % 1000 : Nat) : Int) * 10) s
        else s
    else s

/-- The switch of R17 is due: eight cells missed from the primary parent, and the backup parent is usable. -/
def State.switchDue (s : State) : Bool :=
  s.time.role == .member && !s.time.onBackup && s.parentQuiet 1024 && s.backupUp

/-- PARENT_SILENT (R17): eight cells missed; the module follows its backup parent, by slewing, from when that one is usable. -/
def execParentSilent (s : State) : Host.Outcome State Fault Refusal :=
  .next <|
    if s.switchDue then
      { s with time := { s.time with onBackup := true, portInUse := BitVec.ofNat 4 s.time.backupPort.val } }
    else s

/-- STANDBY_ROOT_TAKEOVER (R19): the standby root becomes the acting root and floods a root change. -/
def execStandbyRootTakeover (s : State) : Host.Outcome State Fault Refusal :=
  .next <|
    if s.time.role = .standbyRoot ∧ ¬ s.time.actingRoot ∧ s.parentQuiet 4096 then
      let s := { s with
        time := { s.time with role := .root, actingRoot := true, depth := 0, portInUse := 0, slew := 0, epochSet := true }
        fab := { s.fab with rootChangeSeen := true } }
      c0flood none (c0msg [(0, 1, kindRootChange), (2, 2, 0xFFF), (4, 2, s.module.toNat), (8, 8, s.now)]) s
    else s

/-- ROOT_CHANGE (R19, R299): the first one is followed and forwarded; later copies are dropped. -/
def execRootChange (port : Fin 16) (msg : C0Msg) (s : State) : Host.Outcome State Fault Refusal :=
  .next <|
    if s.fab.rootChangeSeen then c0drop s
    else
      c0flood (some port) msg { s with
        time := { s.time with
          role := .member, actingRoot := false, refOk := false, onBackup := true, rootChanged := true
          epochSet := true, portInUse := BitVec.ofNat 4 s.time.backupPort.val }
        fab := { s.fab with rootChangeSeen := true } }

/-- HOLDOVER (R21): a member without parent and backup parent. -/
def execHoldover (s : State) : Host.Outcome State Fault Refusal :=
  .next <|
    if s.time.osc = .locked ∧ s.time.role = .member ∧ ¬ s.someParent then
      { s with time := { s.time with osc := .holdover, holdoverAt := s.time.hallTime, slew := 0 } }
    else s

/-- HOLDOVER_LIMIT (R21): 20 ms of holdover; OUT_OF_SPEC and the class-0 status bit. -/
def execHoldoverLimit (s : State) : Host.Outcome State Fault Refusal :=
  .next <|
    if s.time.osc = .holdover ∧ s.time.holdoverAt.toNat + 20000000 ≤ s.now ∧ ¬ s.time.outOfSpec then
      sendStatus { s with time := { s.time with outOfSpec := true } }
    else s

/-- PARENT_RETURN (R21, Table 1.2): HOLDOVER is left for ACQUIRE, by slewing; OUT_OF_SPEC clears when that is done. After a root
change the module goes on following its backup parent, so only that one's return counts (R19). -/
def execParentReturn (backup : Bool) (s : State) : Host.Outcome State Fault Refusal :=
  .next <|
    if s.time.osc = .holdover ∧ (backup ∨ ¬ s.time.rootChanged) then
      let t := { s.time.acquiring with onBackup := backup }
      let t := if backup then { t with backupSeen := true, backupCellAt := t.hallTime }
        else { t with parentSeen := true, parentCellAt := t.hallTime }
      { s with time := { t with portInUse := BitVec.ofNat 4 t.portUsed.val } }
    else s

/-- Whether the phase has stayed within the path budget for 1 ms of ACQUIRE (Table 1.2). -/
def State.phaseHeld (s : State) : Bool := decide (s.time.phaseOutAt.toNat + 1000000 ≤ s.now) && s.time.inPhase

/-- ACQUIRE_COMPLETE (Table 1.2, R21): LOCKED, once the phase has been within its limit for 1 ms; that the frequency has been within
0.01 ppm comes with the command, as the model holds no frequency error (log entry 12). A set OUT_OF_SPEC clears. -/
def execAcquireComplete (s : State) : Host.Outcome State Fault Refusal :=
  .next <|
    if s.time.osc = .acquire ∧ s.phaseHeld then
      let s' := { s with time := { s.time with osc := .locked, outOfSpec := false } }
      if s.time.outOfSpec then sendStatus s' else s'
    else s

/-- A SOUND message of this module (Table 11.6). -/
def State.soundOf (s : State) (port : Fin 16) (isResponse : Bool) (round turnaround : Nat) : C0Msg :=
  c0msg [(0, 1, kindSound), (1, 1, b2n isResponse), (2, 2, s.module.toNat), (4, 1, port.val), (5, 3, round), (8, 8, turnaround)]

/-- When a message that is taken in this nanosecond has come in, in ps: inside it, at a place that no rule gives (log entry 53). -/
def State.arrivalPs (s : State) : Nat × State :=
  let (v, s) := s.fresh
  (s.now * 1000 + v.toNat % 1000, s)

/-- Sounding of a link is under way, or begins: neither end may hold an image; what this end knows is its own (R24, R362). -/
def State.mayRound (s : State) (port : Fin 16) : Bool := (s.port port).state == .sound && !s.holdsImage

/-- SOUND (R22, R290): the peer's identity is recorded in ALIGN. A request is answered, while this end holds no image (R24); its answer
carries the time at which it came in until it leaves, when the turnaround stands there. A response ends one round trip, whose length
less the turnaround is added up; sendFlit sends the requests. -/
def execSoundMsg (port : Fin 16) (msg : C0Msg) (s : State) : Host.Outcome State Fault Refusal :=
  .next <|
    let p := s.port port
    if c0get msg 0 1 = kindSound ∧ p.cells then
      let s := if p.state = .align then
          s.updPort port fun p => { p with
            identKnown := true, peerModule := BitVec.ofNat 12 (c0get msg 2 2), peerPort := BitVec.ofNat 4 (c0get msg 4 1) }
        else s
      if c0get msg 1 1 = 0 then
        if s.holdsImage then s
        else
          let (a, s) := s.arrivalPs
          c0queue port (s.soundOf port true (c0get msg 5 3) a) s
      else if s.mayRound port ∧ p.rounds < 4096 ∧ c0get msg 5 3 = p.rounds then
        let (a, s) := s.arrivalPs
        s.updPort port fun p => { p with
          rounds := p.rounds + 1, soundSum := p.soundSum + (a - p.soundAt - c0get msg 8 8) }
      else s
    else s

/-- Every link of the module is sounded: none is left in SOUND (Table 1.2). -/
def State.allSounded (s : State) : Bool := allPorts.all fun p => (s.port p).state != .sound

/-- A path budget of R23: 20 ps plus the sum of u on the path, read as 16 bits. -/
def budgetOf (sum : U16) : U16 := satAdd sum 20

/-- The one-way delay of a link in ps: half of the round trip less the turnaround, as the mean of the 4,096 rounds (R22).
R22 does not say how the rounds combine nor which whole ps a mean between two becomes: the mean is the model's DESIGN CHOICE, and up says
whether it is rounded up (log entry 64). -/
def FabPort.measuredD (p : FabPort) (up : Bool) : U16 := BitVec.ofNat 16 (min 0xFFFE ((p.soundSum + if up then 8191 else 0) / 8192))

/-- SOUNDING_COMPLETE (R22 to R24, R291): after 4,096 round trips, while this end holds no image, the link has its delay and its
uncertainty; a link out of bounds is refused (FAILED, log entry 13); the path budgets; roles return to TIME_BEACON_CFG (R19); the last
link ends SOUNDING. -/
def execSoundingComplete (port : Fin 16) (up : Bool) (u primarySum backupSum : U16) (s : State) : Host.Outcome State Fault Refusal :=
  .next <|
    if s.mayRound port ∧ (s.port port).rounds = 4096 then
      let d := (s.port port).measuredD up
      let long := decide (d.toNat > 32000)
      let bad := long || decide (u.toNat > 50)
      let s := s.updPort port fun p => { p with
        soundD := d, soundU := u, beaconD := d, rounds := 0, soundSum := 0, tooLong := long, state := if bad then .failed else .up }
      let s := { s with time := { s.time with
        pathBudget := budgetOf backupSum ++ budgetOf primarySum
        backupLost := decide ((budgetOf backupSum).toNat > 500) && roleOfCfg s.time.beaconCfg != .standbyRoot } }
      let s := refreshRefOk (takeRole s)
      if s.allSounded ∧ s.time.osc = .sounding then leaveSounding s else s
    else s

end Sys2Proof.Machine
end

