-- ==== Sys2Proof/Machine/Mem.lean ====
section
/-!
DEFINITION. Stack memory under the fathom code (R264, R270, R274 to R281), the replace-request (R378, R379), and reads and
writes of hall space that go through them.
-/
namespace Sys2Proof.Machine

/-! ## The replace-request -/

/-- The module has used more than MODULE_PCT percent of its 131,072 spare rows (R281). -/
def State.sparesShort (s : State) : Bool :=
  let used := allStacks.foldl (fun n i => n + (s.stack i).sparesUsed.foldl (fun n e => n + e.2) 0) 0
  decide (used * 100 > bits s.stackSpareCfg 15 8 * 131072)

/-- A condition of R281 for one stack. -/
def State.stackWorn (s : State) (i : Fin 16) : Bool :=
  let c := s.stack i
  let limit := bits s.stackCeLimit 15 0
  let win := bits s.stackCeLimit 31 16 * 1000000000
  (c.sparesUsed.any fun e => decide (16 - e.2 < bits s.stackSpareCfg 4 0)) || decide (16 < bits s.stackSpareCfg 4 0) ||
    s.sparesShort ||
    (decide (limit ≠ 0) && decide ((c.ceTimes.filter fun t => decide (s.now < t.toNat + win)).length > limit))

/-- PWR_SERVICE: a port has SPARE_IN_USE (R378). -/
def State.svcSpare (s : State) : Bool := allPorts.any fun p => (s.port p).spareInUse
/-- PWR_SERVICE: a stack has REPLACE. -/
def State.svcStack (s : State) : Bool := allStacks.any fun i => s.stackWorn i
/-- PWR_SERVICE: more than FLOOR_PCT percent of the last 4,096 legs began at the floor under droop or heat. -/
def State.svcFloor (s : State) : Bool :=
  decide (s.seq.floorLegs.countP id * 100 > bits s.pwr.serviceCfg 7 0 * 4096)
def State.svcAny (s : State) : Bool := s.svcSpare || s.svcStack || s.svcFloor

/-- Raises the replace-request when a condition holds and it is not raised yet (R379). -/
def checkService (s : State) : State :=
  if s.svcAny ∧ ¬ s.pwr.svcRequest then
    sendStatus (setIrq 1 (setEvent evReplace { s with pwr := { s.pwr with svcRequest := true } }))
  else s

/-! ## Where a stack byte lies (R264, R265) -/

def stackOfAddr (a : Nat) : Fin 16 := stackOf (a / stackBytes)
def stackAddrOf (a : Nat) : Nat := a % stackBytes
/-- PC of a stack address. -/
def pcOf (sa : Nat) : Fin 32 := ⟨sa / 256 % 32, Nat.mod_lt _ (by decide)⟩
/-- Byte address inside the PC. -/
def pcByte (sa : Nat) : Nat := sa / 8192 * 256 + sa % 256
def bankOf (sa : Nat) : BitVec 4 := BitVec.ofNat 4 (pcByte sa / 1024)
def rowOfAddr (sa : Nat) : BitVec 18 := BitVec.ofNat 18 (pcByte sa / 16384)
def rowRefOf (sa : Nat) : RowRef := ⟨pcOf sa, bankOf sa, rowOfAddr sa⟩
/-- The core at whose mesh node a stack attaches (R229). -/
def stackCore (i : Fin 16) : Fin 32 := coreOf (4 * (i.val / 2) + i.val % 2)

/-! ## Sparing candidates and corrected errors (R276, R279, R281) -/

def bankKey (r : RowRef) : Nat := 16 * r.pc.val + r.bank.toNat
/-- Free spare rows of a bank (R279). -/
def StackCtl.sparesFree (c : StackCtl) (key : Nat) : Nat := 16 - tget 0 c.sparesUsed key

/-- Adds a row to the stack's list of at most 256 candidates (R279). -/
def addCand (i : Fin 16) (r : RowRef) (s : State) : State :=
  s.updStack i fun c =>
    if c.cands.contains r then c
    else if c.cands.length < 256 then { c with cands := c.cands ++ [r] }
    else { c with candLost := true }

/-- A corrected block (R276); its row is a candidate when 3 distinct blocks of it have been corrected (R279). -/
def noteCorrected (a : Nat) (s : State) : State :=
  let i := stackOfAddr a
  let sa := stackAddrOf a
  let r := rowRefOf sa
  let s := s.updStack i fun c => { c with
    ceCount := satInc c.ceCount, ceLast := BitVec.ofNat 37 (sa / 64 * 64)
    ceTimes := (c.ceTimes ++ [s.time.hallTime]).drop (c.ceTimes.length + 1 - 65536)
    ceBlocks := if c.ceBlocks.contains (r, sa / 64) then c.ceBlocks else c.ceBlocks ++ [(r, sa / 64)] }
  let n := ((s.stack i).ceBlocks.filter fun e => e.1 == r).length
  checkService (if 3 ≤ n then addCand i r s else s)

/-! ## Uncorrectable blocks (R277, R278, R415) -/

/-- Requesters of R277. -/
def rqStream : Nat := 0
def rqTurn : Nat := 1
def rqHelm : Nat := 2
def rqBell : Nat := 3
def rqFabric : Nat := 4
def rqHost : Nat := 5
def rqIngress : Nat := 6

/-- LEG_STATE.STATE is one in which an uncorrectable block halts the die (R277). -/
def State.ueHalts (s : State) : Bool :=
  match s.seq.state with
  | .loaded | .armed | .running | .gated | .done => true
  | _ => false

/-- Detail word 1 of R277 and of STACK_UE_IDLE. -/
def ueDetail (i : Fin 16) (sa rq : Nat) : U64 :=
  BitVec.ofNat 64 (i.val + 16 * (pcOf sa).val + 512 * (bankOf sa).toNat + 8192 * (rowOfAddr sa).toNat + 2 ^ 32 * rq)

/-- The row of an uncorrectable block is a sparing candidate (R279), and its stack has met such a block. -/
def ueRow (a : Nat) (s : State) : State :=
  addCand (stackOfAddr a) (rowRefOf (stackAddrOf a)) (s.updStack (stackOfAddr a) fun c => { c with ueSeen := true })

/-- A block that proved uncorrectable for a requester: halt, or an entry in the error log; the row is a candidate. -/
def ueFound (rq a : Nat) (s : State) : State :=
  let i := stackOfAddr a
  let sa := stackAddrOf a
  let s := ueRow a s
  let blockAddr := BitVec.ofNat 64 (sa / 64 * 64)
  if rq = rqHost then logErr errUeHost none blockAddr (BitVec.ofNat 64 i.val) s
  else if s.ueHalts then
    raiseHalt ⟨hcEcc, some (stackCore i), engStack, none,
      BitVec.ofNat 64 (s.module.toNat * 2 ^ 52 + a / 64 * 64), ueDetail i sa rq⟩ s
  else logErr errUeIdle none blockAddr (BitVec.ofNat 64 (i.val + 2 ^ 32 * rq)) s

/-! ## Reads and writes of stack memory -/

/-- The stored error of the block that holds linear address `a`. -/
def errOf (s : State) (a : Nat) : ErrPat := tget [] s.errs (a / 64)

/-- Bytes of one block with what a decode leaves wrong. -/
def applyErr (e : ErrPat) (off : Nat) (bs : List Byte) : List Byte :=
  (bs.zip (List.range bs.length)).map fun p => p.1 ^^^ tget 0 e (off + p.2)

/-- Reads `n` bytes inside one block, with a new error `flip` on this read (R275). None: the block is uncorrectable. -/
def blockRead (rq a n : Nat) (flip : ErrPat) (s : State) : Option (List Byte) × State :=
  match fathomDecode (errAdd (errOf s a) flip) with
  | .clean e => (some (applyErr e (a % 64) (dramBytes s a n)), s)
  | .corrected e => (some (applyErr e (a % 64) (dramBytes s a n)), noteCorrected a s)
  | .uncorrectable => (none, ueFound rq a s)

/-- A block with fresh check bytes (R270). -/
def blockPut (a : Nat) (bs : List Byte) (s : State) : State :=
  { s with dram := mwrites s.dram a bs, errs := tset [] s.errs (a / 64) [] }

/-- The read-modify-write of a block (R270): one read of the block, corrected under the fathom code, the bytes `f` makes of the `n` old ones
at `a` merged, and the whole block written. The old bytes; none where the block is uncorrectable, and nothing is written. -/
def blockModify (rq a n : Nat) (f : List Byte → List Byte) (flip : ErrPat) (s : State) : Option (List Byte) × State :=
  let base := a / 64 * 64
  let put := fun (e : ErrPat) (s : State) =>
    let whole := applyErr e 0 (dramBytes s base 64)
    let old := (whole.drop (a - base)).take n
    (some old, blockPut a (f old) (blockPut base whole s))
  match fathomDecode (errAdd (errOf s a) flip) with
  | .clean e => put e s
  | .corrected e => put e (noteCorrected a s)
  | .uncorrectable => (none, ueFound rq a s)

/-- Writes bytes inside one block: a whole block as it is, a part as a read-modify-write. None: the block is uncorrectable. -/
def blockWrite (rq a : Nat) (bs : List Byte) (flip : ErrPat) (s : State) : Option (List Byte) × State :=
  if bs.length = 64 then (some [], blockPut a bs s) else blockModify rq a bs.length (fun _ => bs) flip s

/-- The pieces (address, length) of a range, cut at multiples of `k`. -/
def cutAt : Nat → Nat → Nat → Nat → List (Nat × Nat)
  | 0, _, _, _ => []
  | fuel + 1, k, a, n =>
    if n = 0 then []
    else
      let m := min n (k - a % k)
      (a, m) :: cutAt fuel k (a + m) (n - m)
def pieces (k a n : Nat) : List (Nat × Nat) := cutAt (n / k + 2) k a n

/-- Reads a range of stack memory block by block; none when a block is uncorrectable. -/
def dramReadAux (rq : Nat) : List (Nat × Nat) → State → Option (List Byte) × State
  | [], s => (some [], s)
  | p :: t, s =>
    let (b, s) := blockRead rq p.1 p.2 [] s
    let (r, s) := dramReadAux rq t s
    (match b, r with | some x, some y => some (x ++ y) | _, _ => none, s)
def dramRead (rq a n : Nat) (s : State) : Option (List Byte) × State := dramReadAux rq (pieces 64 a n) s

/-! ## Harbor regions (R339, R341) -/

/-- Bytes [a, a + n) of stack memory cover a byte of a sequence word of the region: the first slot that ends after `a` tells. -/
def HarborRegion.covers (r : HarborRegion) (a n : Nat) : Bool :=
  let b := r.base.toNat
  let k := r.recSize.toNat
  let j := (a - b) / k
  decide (0 < k) && decide (0 < n) && decide (j < r.count.toNat) && decide (b + k * (j + 1) - 8 < a + n)

/-- A write by the program to stack memory: HARB_READY, and its interrupt when a bit rises that no write clears in this cycle (R325, R341,
R404). -/
def harborNote (a n : Nat) (s : State) : State :=
  let hit := s.host.harbors.foldl (fun (w : U64) e => if e.2.covers a n then setBit w e.1 true else w) 0
  let s' := { s with host := { s.host with
    harbReady := s.host.harbReady ||| hit, harbNow := s.host.harbNow.noteSet s.time.hallTime hit } }
  if hit &&& ~~~(s.host.harbReady ||| (s.host.harbNow.now s.time.hallTime).cleared) = 0 then s' else setIrq 3 s'

/-- The same for a range of this module's hall space. -/
def harborHall (space off n : Nat) (s : State) : State :=
  if space = 0 ∨ space = 4 then foldS (fun p s => harborNote (linearOf space p.1) p.2 s) (pieces 4096 off n) s else s

end Sys2Proof.Machine
end

