-- ==== Sys2Proof/Machine/Clock.lean ====
section
/-!
DEFINITION. The die clock: stretches, die-wide frequency steps and caps, and the end of a hold (R49 to R56, R59, R61, R364).
-/
namespace Sys2Proof.Machine

/-! ## Readings of the clock registers (Tables 2.5, 2.7 and 2.8) -/

/-- CLK_CFG.STRETCH_STEP in units of 0.1 ns. -/
def ClkDom.stretchStep (k : ClkDom) : Nat := match bits k.cfg 2 0 with | 0 => 4 | n => n
def ClkDom.droopRate (k : ClkDom) : Nat := bits k.cfg 15 8
def ClkDom.throttleC (k : ClkDom) : Nat := bits k.thermal 15 8
def ClkDom.resumeC (k : ClkDom) : Nat := bits k.thermal 7 0
/-- HOLD_LIMIT in ns. -/
def ClkDom.holdLimit (k : ClkDom) : Nat := bits k.holdCfg 31 8 * 1000
def ClkDom.lateCounts (k : ClkDom) : Bool := bit k.holdCfg 7
def ClkDom.escLimit (k : ClkDom) : Nat := bits k.holdCfg 6 0

/-- The cap on f under a supply tier, and the CLK_STATUS.LIMIT code with it (Table 14.6, R364). -/
def tierCap (tier : Nat) : Nat := if tier = 0 then 1250 else if tier = 1 then 1150 else 1000
def tierLimit (tier : Nat) : BitVec 4 := if tier = 0 then 0 else if tier = 1 then 3 else 4

/-- f after one change: a step down stops at 1,000 MHz. -/
def FreqChange.from_ (f : Nat) : FreqChange → Nat
  | .down => max 1000 (f - 25)
  | .cap c => min f c.toNat
  | .up => f + 25

def FreqStep.up (t : FreqStep) : Bool := match t.change with | .up => true | _ => false

/-- The frequency after every decided change. -/
def ClkDom.target (k : ClkDom) : Nat := k.steps.foldl (fun f t => t.change.from_ f) k.freq.toNat

/-! ## Deciding and applying a change of f (R54 to R56) -/

/-- A change downward is decided: pending steps up are dropped (log entry 26). At the floor, and at or below a cap, nothing changes. -/
def stepDown (c : FreqChange) (limit : BitVec 4) (s : State) : State :=
  let k := { s.clk with steps := s.clk.steps.filter fun t => !t.up }
  if c.from_ k.target < k.target then
    { s with clk := { k with
        steps := k.steps ++ [⟨c, limit, if s.running then some (s.seq.cycle + 8) else none⟩]
        stepsDown := satInc k.stepsDown } }
  else { s with clk := k }

/-- One change takes effect. LIMIT keeps its cause until f is 1,250 MHz again (log entry 56). -/
def applyStep (t : FreqStep) (s : State) : State :=
  let f := t.change.from_ s.clk.freq.toNat
  { s with clk := { s.clk with
      freq := BitVec.ofNat 16 f, acc := s.clk.acc * (f : Int) / (s.clk.freq.toNat : Int)
      limit := if 1250 ≤ f then 0 else if t.up then s.clk.limit else t.limit } }

/-- The changes that take effect now, in the order in which they were decided; the others stay pending. -/
def applySteps (due : FreqStep → Bool) (s : State) : State :=
  foldS applyStep (s.clk.steps.filter due) { s with clk := { s.clk with steps := s.clk.steps.filter fun x => !due x } }

/-- A trigger of R54, a step up, or a cap that lifts restarts the quiet time of R55. -/
def noteTrigger (s : State) : State := { s with clk := { s.clk with lastTrigger := s.time.hallTime } }

/-- The cap of a new tier: a cap below f changes f in one change; a rising cap restarts R55's time (R364). -/
def setCap (old new : Nat) (s : State) : State :=
  let s := if tierCap new < s.clk.target then stepDown (.cap (BitVec.ofNat 16 (tierCap new))) (tierLimit new) s else s
  if tierCap old < tierCap new then noteTrigger s else s

/-- A heat trigger (R54, R273): one step per 100,000 ns. -/
def heatTrigger (s : State) : State :=
  let s := noteTrigger s
  let due := match s.clk.lastHeat with | some t => decide (t.toNat + 100000 ≤ s.now) | none => true
  if due then stepDown .down 2 { s with clk := { s.clk with lastHeat := some s.time.hallTime } } else s

/-- A droop trigger (R54): some region's requests of the last 10,000 ns exceed DROOP_RATE; one step per 10,000 ns. -/
def droopTrigger (r : Fin 8) (s : State) : State :=
  if s.clk.droopRate < (s.region r).reqTimes.length then
    let s := noteTrigger s
    let due := match s.clk.lastDroop with | some t => decide (t.toNat + 10000 ≤ s.now) | none => true
    if due then stepDown .down 1 { s with clk := { s.clk with lastDroop := some s.time.hallTime } } else s
  else s

/-! ## Stretches (R51, R52) -/

/-- A region is locked out in cycle d. -/
def Region.locked (r : Region) (d : Nat) : Bool := match r.lastStretch with | some l => decide (d ≤ l + 3) | none => false

/-- A request of another region two cycles ago. -/
def ClkDom.follows (k : ClkDom) (r : Fin 8) (d : Nat) : Bool := k.reqs.any fun q => q.1 != r.val && q.2 + 2 == d

/-- One stretched period of a region; the die's timeline is that of region 0 (log entry 27). -/
def stretchRegion (r : Fin 8) (s : State) : State :=
  let s := s.updRegion r fun x => { x with lastStretch := some s.seq.cycle, stretches := x.stretches + 1 }
  if r = 0 then { s with clk := { s.clk with acc := s.clk.acc - ((s.clk.stretchStep * s.clk.freq.toNat : Nat) : Int) } } else s

/-- A request goes on the stretch net: counted for the region and the die, and judged for droop (R51, R54). -/
def raiseRequest (r : Fin 8) (s : State) : State :=
  let s := s.updRegion r fun x => { x with
    requests := satInc x.requests
    reqTimes := (x.reqTimes.filter fun t => decide (s.now < t.toNat + 10000)) ++ [s.time.hallTime] }
  droopTrigger r { s with clk := { s.clk with
    stretchCount := satInc s.clk.stretchCount
    reqs := (s.clk.reqs.filter fun q => decide (s.seq.cycle < q.2 + 4)) ++ [(r.val, s.seq.cycle)] } }

/-- DROOP_TRIP (R51): the region stretches this cycle and raises a request, unless it follows one; a locked trip is absorbed. A
trip in a cycle in which the region stretches as a follower changes nothing more. The stretch logic is frozen in holds. Each trip of
a locked cycle counts as absorbed, several detectors of a region in one cycle too: DESIGN CHOICE (log entry 65). -/
def execDroopTrip (region : Fin 8) (s : State) : Host.Outcome State Fault Refusal :=
  .next <|
    if ¬ s.running then s
    else
      let x := s.region region
      if x.lastStretch = some s.seq.cycle then s
      else if x.locked s.seq.cycle then s.updRegion region fun x => { x with absorbed := satInc x.absorbed }
      else if s.clk.follows region s.seq.cycle then stretchRegion region s
      else raiseRequest region (stretchRegion region s)

/-- STRETCH_FOLLOW (R51): every unlocked region with a request of another region two cycles ago stretches. -/
def execStretchFollow (s : State) : Host.Outcome State Fault Refusal :=
  .next <|
    if ¬ s.running then s
    else foldS (fun r s => if s.clk.follows r s.seq.cycle ∧ ¬ (s.region r).locked s.seq.cycle then stretchRegion r s else s)
      (List.ofFn id) s

/-! ## Steps -/

/-- A step down that was decided in a cycle takes effect in this one (R56). -/
def State.stepDue (s : State) (t : FreqStep) : Bool :=
  !t.up && (match t.fromCycle with | some d => decide (d ≤ s.seq.cycle) | none => false)

/-- FREQ_STEP_APPLY (R56): a step down decided in cycle d takes effect from the first period of cycle d + 8; where the die holds at that
cycle, its first period comes after the release. -/
def execFreqStepApply (s : State) : Host.Outcome State Fault Refusal :=
  .next (if s.running then applySteps s.stepDue s else s)

/-- Every sensor's latest reading is below RESUME_C, and no stack is hot (R55, R273). -/
def State.cool (s : State) : Bool :=
  s.clk.regions.toList.all (fun r => (List.range 8).all fun i => decide (bits r.temps (8 * i + 7) (8 * i) < s.clk.resumeC)) &&
    allStacks.all fun i => !(s.stack i).hot

/-- The condition of R55 holds and f is below its cap. -/
def State.upDue (s : State) : Bool :=
  decide (s.clk.lastTrigger.toNat + 1000000 ≤ s.now) && s.cool && decide (s.clk.target + 25 ≤ tierCap s.pwr.tier.val)

/-- FREQ_STEP_UP (R55): f steps up by 25 MHz at the next cycle 0 of a leg. It is counted when it is decided (log entry 56). -/
def execFreqStepUp (s : State) : Host.Outcome State Fault Refusal :=
  .next <|
    if s.upDue then
      noteTrigger { s with clk := { s.clk with
        steps := s.clk.steps ++ [⟨.up, s.clk.limit, none⟩]
        stepsUp := satInc s.clk.stepsUp } }
    else s

/-! ## The end of a hold (R59, R61) -/

/-- 20 run-clock periods have passed since a hall time: 20 periods last 20,000 / f ns. -/
def State.restartDue (s : State) (t : U64) : Bool := decide (20000 ≤ (s.now - t.toNat) * s.clk.freq.toNat)

/-- CH_EP_STALL: the run-clock periods of a hold count for every endpoint whose credit condition was a cause (Table 9.10). -/
def stallEps (h : Hold) (periods : Nat) (s : State) : State :=
  foldS (fun x s => match x.what with
    | .hand (.credits ep _) => s.updCore x.core fun k => k.updEp ep fun e => { e with stall := satAdd e.stall periods }
    | _ => s) h.causes s

/-- The length of a hold that ends 20 periods after hall time `t`, in whole ns, from the freeze to the restart (R59, R61). -/
def heldNs (k : ClkDom) (h : Hold) (t : U64) : Nat :=
  let f := 10 * k.freq.toNat
  (((t - h.since).toNat * f + 200000 : Int) + h.acc).toNat / f

/-- LANTERN_RELEASE (R59): every failed wait has been satisfied for 20 periods; the hold ends and is counted, and steps decided
in it, or due from the cycle of the hold, take effect (R56). Cycle l starts 20 periods after the wait was satisfied, inside a nanosecond
where those end there. -/
def execLanternRelease (s : State) : Host.Outcome State Fault Refusal :=
  .next <|
    match s.clk.hold with
    | some h =>
      match h.metAt with
      | some t =>
        if s.restartDue t then
          let held := heldNs s.clk h t
          let s := stallEps h (held * s.clk.freq.toNat / 1000) s
          applySteps (fun t => s.stepDue t || (!t.up && t.fromCycle.isNone)) { s with clk := { s.clk with
            hold := none
            acc := ((s.now - t.toNat) * (10 * s.clk.freq.toNat) : Nat) - 200000
            holdTime := s.clk.holdTime + BitVec.ofNat 64 held
            holdMax := BitVec.ofNat 32 (max s.clk.holdMax.toNat (min held 0xFFFFFFFF)) } }
        else s
      | none => s
    | none => s

/-- Kind of a hand-over condition and what it names (R61). -/
def handCode : HandCond → Nat × Nat
  | .loadHand d _ => (1, d.toNat)
  | .storeHand d _ => (2, d.toNat)
  | .maskIn d => (3, d.toNat)
  | .maskOut d _ => (4, d.toNat)
  | .credits e _ => (5, e.toNat)
  | .release e _ => (6, e.toNat)
  | .turnQueue _ => (7, 0)
  | .buoyCopy b => (8, b.toNat)

/-- Detail word 1 of a hold's halt for one cause: the wait field, the hand-over form of R61, or the escalation form of R123. -/
def causeDetail (c : Fin 32) : WaitFor → U64
  | .field w => w.setWidth 64
  | .hand h => BitVec.ofNat 64 (2 ^ 62 + 2 ^ 32 * (handCode h).1 + (handCode h).2)
  | .slice a g => BitVec.ofNat 64 (2 ^ 63 + 256 * g.val + 2 * c.val + a.val)

/-- The causes of one core, wait fields first; of several commands that wait at one lookout cycle, the first in command order, which R61 does
not settle: DESIGN CHOICE (log entry 65). -/
def causesOf (h : Hold) (c : Fin 32) : List WaitFor :=
  let l := (h.causes.filter fun x => x.core == c).map (·.what)
  l.filter (fun w => match w with | .field _ => true | _ => false) ++
    l.filter (fun w => match w with | .field _ => false | _ => true)

/-- Bit c for every core whose wait had failed (HOLD_WAITING, R61). -/
def waitMask (h : Hold) : Nat := allCores.foldl (fun n c => if (h.causes.any fun x => x.core == c) then n + 2 ^ c.val else n) 0

/-- HOLD_TIMEOUT (R61, R123): the hold is longer than HOLD_LIMIT. The record names the lowest waiting core and the issue unit, or
the array whose escalation it is. -/
def execHoldTimeout (s : State) : Host.Outcome State Fault Refusal :=
  .next <|
    match s.clk.hold with
    | some h =>
      if s.clk.holdLimit < s.now - h.since.toNat then
        match allCores.find? fun c => h.causes.any fun x => x.core == c with
        | some c =>
          let w := (causesOf h c).headD (.field 0)
          let eng : Byte := match w with | .slice a _ => BitVec.ofNat 8 (1 + a.val) | _ => 0
          raiseHalt ⟨hcHoldTimeout, some c, eng, none, BitVec.ofNat 64 (waitMask h), causeDetail c w⟩ s
        | none => raiseHalt ⟨hcHoldTimeout, none, 0, none, 0, 0⟩ s
      else s
    | none => s

end Sys2Proof.Machine
end

