-- ==== Sys2Proof/Machine/Num.lean ====
section
/-!
DEFINITION. Number formats, rounding and exact arithmetic (05_number_formats.md, and the functions of R145 and R164).
A finite number is an exact dyadic m * 2^e with a sign; every operation is exact and rounds once at its end.
-/
namespace Sys2Proof.Machine

/-- An exact value: a NaN, an infinity, or a finite signed m * 2^e (m = 0 is a signed zero). -/
inductive Num where
  | nan
  | inf (neg : Bool)
  | fin (neg : Bool) (m : Nat) (e : Int)
  deriving DecidableEq, Repr

/-- Rounding modes of R134. -/
inductive RMode where
  | rne | rtz | sr
  deriving DecidableEq, Repr

/-- How a format spells its special values (Table 5.3). -/
inductive Specials where
  | ieee | e4m3 | noSpecial
  deriving DecidableEq, Repr

/-- A floating-point format of Table 5.2 with its largest finite value maxM * 2^maxE. -/
structure FFmt where
  eb : Nat
  mb : Nat
  bias : Int
  sp : Specials
  maxM : Nat
  maxE : Int
  deriving DecidableEq, Repr

def fE4M3 : FFmt := ⟨4, 3, 7, .e4m3, 14, 5⟩
def fE5M2 : FFmt := ⟨5, 2, 15, .ieee, 7, 13⟩
def fE3M2 : FFmt := ⟨3, 2, 3, .noSpecial, 7, 2⟩
def fE2M3 : FFmt := ⟨2, 3, 1, .noSpecial, 15, -1⟩
def fE2M1 : FFmt := ⟨2, 1, 1, .noSpecial, 3, 1⟩
def fBF16 : FFmt := ⟨8, 7, 127, .ieee, 255, 120⟩
def fFP16 : FFmt := ⟨5, 10, 15, .ieee, 2047, 5⟩
def fFP32 : FFmt := ⟨8, 23, 127, .ieee, 16777215, 104⟩

/-- Decodes an encoding (R127, with the special encodings of Table 5.3 first). -/
def decodeF (f : FFmt) (w : Nat) : Num :=
  let s := w / 2 ^ (f.eb + f.mb) % 2 == 1
  let e := w / 2 ^ f.mb % 2 ^ f.eb
  let m := w % 2 ^ f.mb
  let top := 2 ^ f.eb - 1
  if f.sp = .e4m3 ∧ e = top ∧ m = 2 ^ f.mb - 1 then .nan
  else if f.sp = .ieee ∧ e = top then (if m = 0 then .inf s else .nan)
  else if e = 0 then .fin s m (1 - f.bias - f.mb)
  else .fin s (2 ^ f.mb + m) ((e : Int) - f.bias - f.mb)

/-- The canonical NaN of a format (Table 5.3); formats without one never need it. -/
def nanOf (f : FFmt) : Nat :=
  match f.sp with
  | .ieee => (2 ^ f.eb - 1) * 2 ^ f.mb + (if f.mb = 2 then 3 else 2 ^ (f.mb - 1))
  | .e4m3 => 0x7F
  | .noSpecial => 0

def infOf (f : FFmt) (s : Bool) : Nat := b2n s * 2 ^ (f.eb + f.mb) + (2 ^ f.eb - 1) * 2 ^ f.mb
def maxOf (f : FFmt) (s : Bool) : Nat :=
  b2n s * 2 ^ (f.eb + f.mb) +
    (match f.sp with
     | .ieee => (2 ^ f.eb - 2) * 2 ^ f.mb + (2 ^ f.mb - 1)
     | .e4m3 => 0x7E
     | .noSpecial => 2 ^ (f.eb + f.mb) - 1)

/-- floor(log2 m) for m > 0. -/
def log2 (m : Nat) : Nat := Nat.log2 m

/-- m * 2^k for an integer k ≥ 0, as a Nat. -/
def shl (m : Nat) (k : Int) : Nat := m * 2 ^ k.toNat

/-- Compares m1 * 2^e1 ≤ m2 * 2^e2. -/
def dyLe (m1 : Nat) (e1 : Int) (m2 : Nat) (e2 : Int) : Bool :=
  let e := min e1 e2
  decide (shl m1 (e1 - e) ≤ shl m2 (e2 - e))

/-- Rounds m * 2^e to a multiple of 2^u (R134, R135); r holds the 16 random bits of SR. Gives the count of ulps. -/
def roundAt (mode : RMode) (r : U16) (m : Nat) (e u : Int) : Nat :=
  if u ≤ e then shl m (e - u)
  else
    let k := (u - e).toNat
    let n := m / 2 ^ k
    let rem := m % 2 ^ k
    match mode with
    | .rtz => n
    | .rne => if 2 * rem > 2 ^ k ∨ (2 * rem = 2 ^ k ∧ n % 2 = 1) then n + 1 else n
    | .sr => if rem * 65536 / 2 ^ k + r.toNat ≥ 65536 then n + 1 else n

/-- Encodes n * 2^u, n ≤ 2^(mb+1), in a format's grid; u is the ulp used by the rounding. -/
def encodeGrid (f : FFmt) (s : Bool) (n : Nat) (u : Int) : Nat :=
  let sg := b2n s * 2 ^ (f.eb + f.mb)
  if n < 2 ^ f.mb then sg + n
  else
    let n' := if n = 2 ^ (f.mb + 1) then n / 2 else n
    let u' := if n = 2 ^ (f.mb + 1) then u + 1 else u
    sg + (u' + f.mb + f.bias).toNat * 2 ^ f.mb + (n' - 2 ^ f.mb)

/-- Overflow under Table 5.6: SAT or RTZ keep the largest finite value; otherwise an infinity, or the NaN of E4M3. -/
def overflowOf (f : FFmt) (mode : RMode) (sat s : Bool) : Nat :=
  if sat ∨ mode = .rtz ∨ f.sp = .noSpecial then maxOf f s
  else if f.sp = .e4m3 then nanOf f else infOf f s

/-- An infinity converted under Table 5.6: only SAT replaces it by the largest finite value. -/
def infConv (f : FFmt) (sat s : Bool) : Nat :=
  if sat ∨ f.sp = .noSpecial then maxOf f s
  else if f.sp = .e4m3 then nanOf f else infOf f s

/-- One rounding of an exact value into a format (R137, R138, Table 5.6). -/
def roundF (f : FFmt) (mode : RMode) (sat : Bool) (r : U16) : Num → Nat
  | .nan => nanOf f
  | .inf s => infConv f sat s
  | .fin s m e =>
    if m = 0 then b2n s * 2 ^ (f.eb + f.mb)
    else
      let u := max ((log2 m : Int) + e - f.mb) (1 - f.bias - f.mb)
      let n := roundAt mode r m e u
      if dyLe n u f.maxM f.maxE then encodeGrid f s n u else overflowOf f mode sat s

def toF32 (x : Num) : U32 := BitVec.ofNat 32 (roundF fFP32 .rne false 0 x)
def toF32m (rtz : Bool) (x : Num) : U32 := BitVec.ofNat 32 (roundF fFP32 (if rtz then .rtz else .rne) false 0 x)
def ofF32 (w : U32) : Num := decodeF fFP32 w.toNat
def isNan32 (w : U32) : Bool := ofF32 w == .nan
def nonfinite32 (w : U32) : Bool := bits w 30 23 == 255

/-! ## Exact arithmetic (R140, R141, R145) -/

def Num.neg : Num → Num
  | .nan => .nan
  | .inf s => .inf !s
  | .fin s m e => .fin (!s) m e

def Num.abs : Num → Num
  | .nan => .nan
  | .inf _ => .inf false
  | .fin _ m e => .fin false m e

def Num.mul : Num → Num → Num
  | .nan, _ => .nan
  | _, .nan => .nan
  | .inf s, .inf t => .inf (s ^^ t)
  | .inf s, .fin t m _ => if m = 0 then .nan else .inf (s ^^ t)
  | .fin s m _, .inf t => if m = 0 then .nan else .inf (s ^^ t)
  | .fin s m e, .fin t n f => .fin (s ^^ t) (m * n) (e + f)

/-- The exact sum; opposite zeros and exact cancellation give +0 (R141). -/
def Num.add : Num → Num → Num
  | .nan, _ => .nan
  | _, .nan => .nan
  | .inf s, .inf t => if s = t then .inf s else .nan
  | .inf s, .fin _ _ _ => .inf s
  | .fin _ _ _, .inf t => .inf t
  | .fin s m e, .fin t n f =>
    if m = 0 ∧ n = 0 then .fin (s && t) 0 0
    else
      let k := min e f
      let a : Int := (if s then -1 else 1) * (shl m (e - k) : Int)
      let b : Int := (if t then -1 else 1) * (shl n (f - k) : Int)
      let c := a + b
      .fin (decide (c < 0)) c.natAbs k

/-- -1, 0 or 1 for the order of two values that are not NaN; both zeros are equal. -/
def Num.cmp : Num → Num → Int
  | .nan, _ => 0
  | _, .nan => 0
  | .inf s, .inf t => if s = t then 0 else if s then -1 else 1
  | .inf s, _ => if s then -1 else 1
  | _, .inf t => if t then 1 else -1
  | .fin s m e, .fin t n f =>
    let k := min e f
    let a : Int := (if s then -1 else 1) * (shl m (e - k) : Int)
    let b : Int := (if t then -1 else 1) * (shl n (f - k) : Int)
    if a < b then -1 else if a = b then 0 else 1

def f32add (rtz : Bool) (a b : U32) : U32 := toF32m rtz ((ofF32 a).add (ofF32 b))
def f32sub (a b : U32) : U32 := toF32 ((ofF32 a).add (ofF32 b).neg)
def f32mul (a b : U32) : U32 := toF32 ((ofF32 a).mul (ofF32 b))
def f32fma (a b c : U32) : U32 := toF32 (((ofF32 a).mul (ofF32 b)).add (ofF32 c))
def f32nan : U32 := 0x7FC00000

/-- Max and min of R145: a NaN wins, -0 is below +0. -/
def f32max (a b : U32) : U32 :=
  if isNan32 a || isNan32 b then f32nan
  else
    let c := (ofF32 a).cmp (ofF32 b)
    if c < 0 then b else if c > 0 then a else if bit a 31 then b else a
def f32min (a b : U32) : U32 :=
  if isNan32 a || isNan32 b then f32nan
  else
    let c := (ofF32 a).cmp (ofF32 b)
    if c < 0 then a else if c > 0 then b else if bit a 31 then a else b

/-- The CMP codes of Table 6.3 on an order; a NaN is unordered: only ≠ holds (R145). -/
def cmpCode (code : Nat) (unordered : Bool) (c : Int) : Bool :=
  if unordered then code == 1
  else match code with
    | 0 => c == 0
    | 1 => c != 0
    | 2 => decide (c < 0)
    | 3 => decide (c ≤ 0)
    | 4 => decide (c > 0)
    | 5 => decide (c ≥ 0)
    | _ => false

def f32cmp (code : Nat) (a b : U32) : Bool :=
  cmpCode code (isNan32 a || isNan32 b) ((ofF32 a).cmp (ofF32 b))

/-- The exact error of t = round(a + s) (R117, R144): +0 when t is not finite. -/
def twoSumErr (a s t : U32) : U32 :=
  if nonfinite32 t then 0 else toF32 (((ofF32 a).add (ofF32 s)).add (ofF32 t).neg)

/-! ## Quotients, roots and the functions of R164, to more bits than any rounding needs -/

/-- Working precision of the functions, in bits. -/
def fprec : Nat := 256

/-- num / den as m * 2^-p with a sticky lowest bit, p large. -/
def quotient (s : Bool) (num : Nat) (ne : Int) (den : Nat) (de : Int) : Num :=
  if den = 0 then .nan
  else
    let p := fprec + log2 (den + 1)
    let q := num * 2 ^ p / den
    let st := if num * 2 ^ p % den = 0 then 0 else 1
    .fin s (2 * q + st) (ne - de - p - 1)

/-- floor(sqrt n), bit by bit from the top. -/
def isqrtAux : Nat → Nat → Nat → Nat
  | 0, _, r => r
  | k + 1, n, r =>
    let r' := r + 2 ^ k
    isqrtAux k n (if r' * r' ≤ n then r' else r)
def isqrt (n : Nat) : Nat := isqrtAux (log2 n / 2 + 1) n 0

def numRcp : Num → Num
  | .nan => .nan
  | .inf s => .fin s 0 0
  | .fin s m e => if m = 0 then .inf s else quotient s 1 0 m e

def numRsqrt : Num → Num
  | .nan => .nan
  | .inf s => if s then .nan else .fin false 0 0
  | .fin s m e =>
    if m = 0 then .inf s
    else if s then .nan
    else
      let m' := if e % 2 = 0 then m else 2 * m
      let e' := if e % 2 = 0 then e else e - 1
      let p := fprec + log2 m'
      let r := isqrt (2 ^ (2 * p) / m')
      let st := if r * r * m' = 2 ^ (2 * p) then 0 else 1
      .fin false (2 * r + st) (-(e' / 2) - p - 1)

/-- ln 2 in fixed point: sum of 1 / (k 2^k). -/
def ln2Aux : Nat → Nat → Nat
  | 0, acc => acc
  | k + 1, acc => ln2Aux k (acc + 2 ^ (fprec + 16) / ((k + 1) * 2 ^ (k + 1)))
def ln2Fix : Nat := ln2Aux 300 0 / 2 ^ 16

/-- e^r for 0 ≤ r < 1 in fixed point, by its series. -/
def expAux : Nat → Nat → Nat → Nat → Nat → Nat
  | 0, _, _, _, acc => acc
  | n + 1, k, r, term, acc =>
    let t := term * r / 2 ^ fprec / k
    expAux n (k + 1) r t (acc + t)
def expFix (r : Nat) : Nat := expAux 80 1 r (2 ^ fprec) (2 ^ fprec)

/-- 2^x for x = a / 2^p - b with 0 ≤ a / 2^p < 1: inexact unless a = 0, so the lowest bit is sticky. -/
def exp2Frac (a p : Nat) (n : Int) : Num :=
  if a = 0 then .fin false 1 n
  else
    let r := a * ln2Fix / 2 ^ p
    .fin false (2 * expFix r + 1) (n - fprec - 1)

def numExp2 : Num → Num
  | .nan => .nan
  | .inf s => if s then .fin false 0 0 else .inf false
  | .fin s m e =>
    if m = 0 then .fin false 1 0
    else if (log2 m : Int) + e ≥ 8 then (if s then .fin false 1 (-400) else .fin false 1 400)
    else
      -- |x| < 256; in units of 2^-p
      let p := (max 0 (-e)).toNat
      let v : Int := (if s then -1 else 1) * (shl m (e + p) : Int)
      let n := v / (2 ^ p : Int)
      let a := (v % (2 ^ p : Int)).toNat
      exp2Frac a p n

/-- 2 atanh(z) in fixed point for a fixed-point z ≤ 1/3. -/
def atanhAux : Nat → Nat → Nat → Nat → Nat → Nat
  | 0, _, _, _, acc => acc
  | n + 1, k, z2, pw, acc => atanhAux n (k + 2) z2 (pw * z2 / 2 ^ fprec) (acc + pw / k)
def lnFix (num den : Nat) : Nat :=
  let z := (num - den) * 2 ^ fprec / (num + den)
  2 * atanhAux 100 1 (z * z / 2 ^ fprec) z 0

def numLog2 : Num → Num
  | .nan => .nan
  | .inf s => if s then .nan else .inf false
  | .fin s m e =>
    if m = 0 then .inf true
    else if s then .nan
    else
      let l := log2 m
      let k := e + l
      if m = 2 ^ l then (if k = 0 then .fin false 0 0 else .fin (decide (k < 0)) k.natAbs 0)
      else
        let f := lnFix m (2 ^ l) * 2 ^ fprec / ln2Fix
        let v : Int := k * (2 ^ fprec : Int) + f
        .fin (decide (v < 0)) (2 * v.natAbs + 1) (-(fprec : Int) - 1)

/-- e^-y for a fixed-point y ≥ 0, as (fixed-point significand, power of two). -/
def expNeg (y : Nat) : Nat × Int :=
  let n := y / ln2Fix + 1
  (expFix (n * ln2Fix - y), -(n : Int))

/-- |x| in fixed point. -/
def fixOf (m : Nat) (e : Int) : Nat :=
  let k := e + fprec
  if k ≥ 0 then shl m k else m / 2 ^ (-k).toNat

def numTanh : Num → Num
  | .nan => .nan
  | .inf s => .fin s 1 0
  | .fin s m e =>
    if m = 0 then .fin s 0 0
    else if (log2 m : Int) + e ≥ 5 then .fin s (2 ^ 80 - 1) (-80)
    else if (log2 m : Int) + e < -40 then .fin s (m * 2 ^ 80 - 1) (e - 80)
    else
      let (t, n) := expNeg (2 * fixOf m e)
      -- tanh = (1 - t 2^n) / (1 + t 2^n)
      let one := 2 ^ (fprec + (-n).toNat)
      quotient s (one - t) 0 (one + t) 0

def numSigmoid : Num → Num
  | .nan => .nan
  | .inf s => if s then .fin false 0 0 else .fin false 1 0
  | .fin s m e =>
    if m = 0 then .fin false 1 (-1)
    else if (log2 m : Int) + e ≥ 8 then (if s then .fin false 1 (-400) else .fin false (2 ^ 80 - 1) (-80))
    else if (log2 m : Int) + e < -60 then
      (if s then .fin false (2 ^ 80 - 1) (-81) else .fin false (2 ^ 80 + 1) (-81))
    else
      let (t, n) := expNeg (fixOf m e)
      let one := 2 ^ (fprec + (-n).toNat)
      if s then quotient false t 0 (one + t) 0 else quotient false one 0 (one + t) 0

/-! ## Stochastic rounding (R136) -/

def mix (z0 : U64) : U64 :=
  let z1 := (z0 ^^^ (z0 >>> 30)) * 0xBF58476D1CE4E5B9
  let z2 := (z1 ^^^ (z1 >>> 27)) * 0x94D049BB133111EB
  z2 ^^^ (z2 >>> 31)

def srBits (seed : U64) (stream : U32) (index : U64) (step : U32) : U16 :=
  ((mix (mix (seed ^^^ (stream ++ step)) ^^^ index)) >>> 48).setWidth 16

/-! ## Formats by code (Table 5.1) and conversions (R137, R138) -/

/-- The floating-point element format of a code; none for the integer formats and the reserved codes. -/
def fmtOf : Nat → Option FFmt
  | 0 | 2 | 10 => some fE4M3
  | 1 | 3 => some fE5M2
  | 4 => some fE3M2
  | 5 => some fE2M3
  | 6 => some fE2M1
  | 8 => some fBF16
  | 9 => some fFP16
  | 11 => some fFP32
  | _ => none

/-- Element width in bits (Table 5.1). -/
def fmtBits : Nat → Nat
  | 4 | 5 => 6
  | 6 => 4
  | 8 | 9 => 16
  | 11 | 12 => 32
  | _ => 8

def isMx (c : Nat) : Bool := 2 ≤ c && c ≤ 6

/-- The largest element exponent of an MX format (R132). -/
def mxEmax : Nat → Int
  | 2 => 8
  | 3 => 15
  | 4 => 4
  | _ => 2

/-- A two's-complement integer of n bits. -/
def signedOf (n w : Nat) : Int := if w < 2 ^ (n - 1) then w else (w : Int) - 2 ^ n

def numOfInt (v : Int) : Num := .fin (decide (v < 0)) v.natAbs 0

/-- Conversion to a two's-complement integer of n bits: rounds with an ulp of 1 and clamps; NaN gives 0 (Table 5.6). -/
def toInt (n : Nat) (mode : RMode) (r : U16) : Num → Nat
  | .nan => 0
  | .inf s => if s then 2 ^ (n - 1) else 2 ^ (n - 1) - 1
  | .fin s m e =>
    let k := roundAt mode r m e 0
    if s then (let c := min k (2 ^ (n - 1)); (2 ^ n - c) % 2 ^ n) else min k (2 ^ (n - 1) - 1)

/-- An element without block scale, converted under a control (format code, mode, SAT) (R137, R138). -/
def convPlain (code : Nat) (mode : RMode) (sat : Bool) (r : U16) (x : Num) : Nat :=
  match fmtOf code with
  | some f => roundF f mode sat r x
  | none => if code = 7 then toInt 8 mode r x else toInt 32 mode r x

/-- The exact value of an element's encoding, without its block scale (R127, R129). -/
def decodeElem (code w : Nat) : Num :=
  match fmtOf code with
  | some f => decodeF f w
  | none => if code = 7 then numOfInt (signedOf 8 w) else numOfInt (signedOf 32 w)

/-- An E8M0 scale as an exact factor: 0xFF is NaN (R129, Table 5.3). -/
def e8m0 (s : Byte) : Num := if s = 0xFF then .nan else .fin false 1 ((s.toNat : Int) - 127)

/-- The larger of two magnitudes among finite values, as (m, e). -/
def maxMag : List Num → Nat × Int
  | [] => (0, 0)
  | x :: t =>
    let (m, e) := maxMag t
    match x with
    | .fin _ n f => if dyLe n f m e then (m, e) else (n, f)
    | _ => (m, e)

def anyNonfinite (l : List Num) : Bool := l.any fun x => match x with | .fin _ _ _ => false | _ => true

/-- floor(log2 a) - e_max clamped, the exponent X of R132. -/
def mxExp (code : Nat) (l : List Num) : Int :=
  let (m, e) := maxMag l
  if m = 0 then -127 else max (-127) (min 127 ((log2 m : Int) + e - mxEmax code))

/-- An MX block quantised (R132): the scale byte and the elements; r gives each element's random bits. -/
def mxQuant (code : Nat) (mode : RMode) (l : List (Num × U16)) : Byte × List Nat :=
  let vs := l.map (·.1)
  if anyNonfinite vs then (0xFF, l.map fun _ => 0)
  else
    let x := mxExp code vs
    match fmtOf code with
    | some f => (BitVec.ofNat 8 (x + 127).toNat, l.map fun p => roundF f mode true p.2 (p.1.mul (.fin false 1 (-x))))
    | none => (0, [])

/-- The scale of an SB8 block as FP32 bits (R133). -/
def sb8Scale (vs : List Num) : U32 :=
  if anyNonfinite vs then f32nan
  else
    let (m, e) := maxMag vs
    if m = 0 then 0x3F800000
    else
      let s := toF32 (quotient false m e 448 0)
      if s = 0 then 1 else s

/-- An SB8 block quantised (R133): v / s exactly, rounded once to E4M3 with saturation. -/
def sb8Quant (mode : RMode) (l : List (Num × U16)) : U32 × List Nat :=
  let vs := l.map (·.1)
  let s := sb8Scale vs
  if anyNonfinite vs then (s, l.map fun _ => 0x7F)
  else
    match ofF32 s with
    | .fin _ sm se =>
      (s, l.map fun p => match p.1 with
        | .fin sg m e => roundF fE4M3 mode true p.2 (if m = 0 then .fin sg 0 0 else quotient sg m e sm se)
        | _ => 0x7F)
    | _ => (s, l.map fun _ => 0x7F)

/-- An element of a block-scaled format as FP32: the product with its scale, rounded once with RNE (R130, R133, R156). -/
def scaledF32 (code w : Nat) (scale : Num) : U32 := toF32 ((decodeElem code w).mul scale)

end Sys2Proof.Machine
end

