-- ==== Sys2Proof/Machine/Access.lean ====
section
/-!
DEFINITION. Accesses to memory from outside a core's schedule: fill accesses at the banks (R197, R200), block requests on their way to the
stack controllers (R263, R267), ranges read and written through both, and what a served access brings to whoever asked.
-/
namespace Sys2Proof.Machine

/-! ## Fill accesses (R197, R200) -/

/-- The bank of a scratchpad address (R196). -/
def spBank (a : Nat) : Nat := a / 256 % 32

/-- The bytes a fill access touches. -/
def FillAcc.size (f : FillAcc) : Nat := match f.op with | .write d => d.length | .read n => n | .bell _ _ => 8

/-- Puts a fill access behind those that wait. -/
def fillAdd (c : Fin 32) (f : FillAcc) (s : State) : State := s.updCore c fun k => { k with fills := k.fills ++ [f] }

/-- Fill writes of a byte range of a core's scratchpad, one for each line. -/
def fillAsk (c : Fin 32) (port a : Nat) (data : List Byte) (tag : Tag) (s : State) : State :=
  foldS (fun p s => fillAdd c { port := port, addr := p.1, op := .write ((data.drop (p.1 - a)).take p.2), tag := tag } s)
    (pieces 256 a data.length) s

/-- Fill reads of a byte range, one for each line; the tag of a piece names its offset in the range. -/
def fillRead (c : Fin 32) (port a n : Nat) (tag : Nat → Tag) (s : State) : State :=
  foldS (fun p s => fillAdd c { port := port, addr := p.1, op := .read p.2, tag := tag (p.1 - a) } s) (pieces 256 a n) s

/-- A bell operation that has read its word and not written it yet holds off other writes to the word (R229). -/
def wordHeld (l : List FillAcc) (f : FillAcc) : Bool :=
  match f.op with
  | .bell _ (some _) | .read _ => false
  | _ => l.any fun g => match g.op with
      | .bell _ (some _) => decide (g.addr < f.addr + f.size) && decide (f.addr < g.addr + 8)
      | _ => false

/-- The least of a list, 0 for none. -/
def minOf : List Nat → Nat
  | [] => 0
  | [x] => x
  | x :: t => min x (minOf t)

/-- The fill accesses of this nanosecond and cycle: the ports and the banks that have made one. -/
def Core.filled (k : Core) (t : U64 × Nat) : List Nat × List Nat := if k.fillAt = some t then (k.fillPorts, k.fillBanks) else ([], [])

/-- A port and a bank make their fill access of the cycle. -/
def Core.noteFill (k : Core) (t : U64 × Nat) (port bank : Nat) : Core :=
  { k with fillAt := some t, fillPorts := (k.filled t).1 ++ [port], fillBanks := (k.filled t).2 ++ [bank] }

/-- A fill writes bytes of a line; the old content that later reads may still see takes them too. -/
def Core.fillWrite (k : Core) (a : Nat) (bs : List Byte) : Core :=
  let patch := fun (l : List (Nat × List Byte)) => l.map fun x =>
    if x.1 = a / 256 then (x.1, x.2.take (a % 256) ++ bs ++ x.2.drop (a % 256 + bs.length)) else x
  { k with spad := mwrites k.spad a bs, prev := patch k.prev, older := patch k.older }

/-- The lines whose old content a read still returns in this cycle: those that the vector engine wrote in the cycle before (R93). In a hold
the cycle in question is the one that the die is held at. -/
def State.staleLines (s : State) (k : Core) : List (Nat × List Byte) :=
  if s.seq.state ≠ .running then []
  else if s.clk.hold.isNone ∧ (s.clk.phase = .issue ∨ s.clk.phase = .wait) then k.older else k.prev

/-- The bytes that a fill access reads inside a line. -/
def State.fillBytes (s : State) (k : Core) (a n : Nat) : List Byte :=
  match (s.staleLines k).find? fun x => x.1 == a / 256 with
  | some x => (x.2.drop (a % 256)).take n
  | none => mreads k.spad a n

/-- The fill access a free bank serves: lowest port first, then arrival order (R200). -/
def nextFill (l : List FillAcc) (bank : Nat) : Option FillAcc :=
  let here := l.filter fun f => spBank f.addr == bank && !wordHeld l f
  here.find? fun f => f.port == minOf (here.map (·.port))

/-! ## Block requests (R263, R267) -/

/-- Sources of block requests that are no core's node. -/
def srcFabric : Nat := 32
def srcHost : Nat := 33
def srcIngress : Nat := 34

/-- Puts the block requests of a stack range on the mesh toward their controllers, one for each 64-byte block. -/
def stackAsk (src space off n : Nat) (data : Option (List Byte)) (rq : Nat) (tag : Nat → Tag) (s : State) : State :=
  foldS (fun p s =>
    let a := linearOf space p.1
    s.updStack (stackOfAddr a) fun k => { k with meshq := k.meshq ++
      [{ addr := a, len := p.2, write := data.map fun l => (l.drop (p.1 - off)).take p.2
         requester := BitVec.ofNat 3 rq, tag := tag (p.1 - off), src := src }] }) (pieces 64 off n) s

/-! ## What a served access brings -/

/-- Updates the in-flight element of a position. -/
def updElem (p : Nat) (f : Elem → Elem) (st : Stream) : Stream :=
  { st with elems := st.elems.map fun e => if e.pos = p then f e else e }

/-- Bytes of an element have arrived. -/
def elemGot (c : Fin 32) (desc : BitVec 11) (pos n : Nat) (s : State) : State :=
  s.updCore c fun k => k.updStream desc fun st => updElem pos (fun e => { e with need := e.need - n }) st

/-- Updates the TURN that a command index names (R223, R224). -/
def updTurn (c : Fin 32) (idx : Nat) (f : TurnRec → TurnRec) (s : State) : State :=
  s.updCore c fun k => { k with turn := { k.turn with
    inFlight := k.turn.inFlight.map fun r => if r.idx = idx ∧ ¬ r.skipped then f r else r } }

def State.path (s : State) (k : Nat) : PathIn := tget {} s.fab.pathsIn k
def State.updPath (s : State) (k : Nat) (g : PathIn → PathIn) : State :=
  { s with fab := { s.fab with pathsIn := tset {} s.fab.pathsIn k (g (s.path k)) } }

/-- Updates the range read of a number. -/
def updJob (id : Nat) (f : Job → Job) (s : State) : State :=
  { s with jobs := s.jobs.map fun j => if j.id = id then f j else j }

/-- A block that a task of the ingress unit wants has come. -/
def ingressGot (id addr : Nat) (b : Option (List Byte)) (s : State) : State :=
  { s with host := { s.host with tasks := s.host.tasks.map fun t =>
    if t.id = id then { t with buf := { t.buf with got := t.buf.got ++ [(addr, b)] } } else t } }

/-- One piece of a BAR2 write is done; a write without pieces left is (R327). -/
def hostWrote (id : Nat) (s : State) : State :=
  { s with host := { s.host with writing :=
    (s.host.writing.map fun w => if w.1 = id then (w.1, w.2 - 1) else w).filter fun w => w.2 != 0 } }

/-- The bytes of a served read go where their tag says. -/
def deliver (tag : Tag) (bs : List Byte) (s : State) : State :=
  match tag with
  | .loadPiece c d p a => fillAsk c (8 + d.toNat / 512) a bs (.loadPiece c d p a) s
  | .bufPiece c d p o =>
    s.updCore c fun k => k.updStream d fun st => updElem p (fun e => { e with need := e.need - bs.length, buf := mwrites e.buf o bs }) st
  | .listEntry c d n p =>
    s.updCore c fun k => k.updStream d fun st =>
      if st.arms = n ∧ st.list.all fun e => e.1 ≠ p then { st with list := st.list ++ [(p, BitVec.ofNat 128 (ofBytes bs))] } else st
  | .turnPiece c i o => updTurn c i (fun r => { r with need := r.need - bs.length, buf := mwrites r.buf o bs }) s
  | .job i o => updJob i (fun j => { j with need := j.need - bs.length, buf := mwrites j.buf o bs }) s
  | .ingress i a => ingressGot i a (some bs) s
  | _ => s

/-- A write of `n` bytes has been made. -/
def accepted (tag : Tag) (n : Nat) (s : State) : State :=
  match tag with
  | .loadPiece c d p _ => elemGot c d p n s
  | .storePiece c d p => elemGot c d p n s
  | .turnWrite c i => updTurn c i (fun r => { r with need := r.need - n }) s
  | .item k i => s.updPath k fun p => { p with need := tset 0 p.need i (tget 0 p.need i - n) }
  | .message c => s.updCore c fun k => { k with pathNeed := k.pathNeed.map fun m => m - n }
  | .readValue c i => s.updCore c fun k => { k with readValues := k.readValues.map fun v =>
      if v.id = i then { v with need := v.need.map fun m => m - n } else v }
  | .hostWrite i => hostWrote i s
  | .posted => { s with host := { s.host with posted := s.host.posted - 1 } }
  | .relayed i m => { s with host := { s.host with relaysIn := s.host.relaysIn.map fun r =>
      if r.session = i ∧ r.source = m then { r with landed := r.landed + BitVec.ofNat 32 n } else r } }
  | _ => s

/-- A block proved uncorrectable (R277, R278): the host reads all ones there and its write is dropped; nobody else gets anything. -/
def undelivered (tag : Tag) (n : Nat) (s : State) : State :=
  match tag with
  | .job i o =>
    if s.jobs.any fun j => j.id == i && j.want == .bar2 then deliver (.job i o) (List.replicate n 0xFF) s
    else { s with jobs := s.jobs.filter fun j => j.id != i }
  | .ingress i a => ingressGot i a none s
  | .hostWrite _ | .posted => accepted tag n s
  | _ => s

/-! ## Ranges of this module's hall space -/

/-- Writes a range for a unit outside the core: fill accesses on a port, block requests, or the external port of an accumulator buffer. -/
def rangeWrite (port rq src space off : Nat) (bs : List Byte) (tag : Tag) (s : State) : State :=
  match space with
  | 1 => fillAsk (coreOf (off / 2 ^ 40)) port (off % 2 ^ 25) bs tag s
  | 2 => accepted tag bs.length (writeHall 2 off bs s)
  | _ => stackAsk src space off bs.length (some bs) rq (fun _ => tag) s

/-- Reads a range in the same ways; the tag of a piece names its offset in the range. -/
def rangeRead (port rq src space off n : Nat) (tag : Nat → Tag) (s : State) : State :=
  match space with
  | 1 => fillRead (coreOf (off / 2 ^ 40)) port (off % 2 ^ 25) n tag s
  | 2 => deliver (tag 0) (readHall s 2 off n) s
  | _ => stackAsk src space off n none rq tag s

/-- The pieces of a range write, as `rangeWrite` cuts it. -/
def rangePieces (space off n : Nat) : Nat :=
  match space with
  | 1 => (pieces 256 (off % 2 ^ 25) n).length
  | 2 => 1
  | _ => (pieces 64 off n).length

/-- A range read starts. -/
def startJob (want : Want) (port rq src space off n : Nat) (s : State) : State :=
  rangeRead port rq src space off n (fun o => .job s.jobNo o)
    { s with jobs := s.jobs ++ [⟨s.jobNo, want, n, n, []⟩], jobNo := s.jobNo + 1 }

def Job.bytes (j : Job) : List Byte := mreads j.buf 0 j.len

/-- The finished range read for a purpose, if there is one. -/
def State.jobDone (s : State) (want : Want) : Option Job := s.jobs.find? fun j => j.want == want && j.need == 0

/-- A range read is over. -/
def State.endJob (s : State) (j : Job) : State := { s with jobs := s.jobs.filter fun x => x.id != j.id }

end Sys2Proof.Machine
end

