-- ==== Sys2Proof/Machine/Crypto.lean ====
section
/-!
DEFINITION. CRC-32 of the flit trailer (Table 11.4), and SHA-384 and ECDSA P-384 of the image signature (R346 to R348).
-/
namespace Sys2Proof.Machine

/-! ## CRC-32, IEEE 802.3, bits least significant first -/

def crcBit (c : U32) : U32 := if bit c 0 then (c >>> 1) ^^^ 0xEDB88320 else c >>> 1
def crcByte (c : U32) (b : Byte) : U32 :=
  crcBit (crcBit (crcBit (crcBit (crcBit (crcBit (crcBit (crcBit (c ^^^ b.setWidth 32))))))))
def crc32 (bs : List Byte) : U32 := ~~~(bs.foldl crcByte 0xFFFFFFFF)

/-! ## SHA-384 (FIPS 180-4) -/

/-- The round constants of FIPS 180-4. -/
def shaK : List U64 :=
  [0x428A2F98D728AE22, 0x7137449123EF65CD, 0xB5C0FBCFEC4D3B2F, 0xE9B5DBA58189DBBC, 0x3956C25BF348B538,
   0x59F111F1B605D019, 0x923F82A4AF194F9B, 0xAB1C5ED5DA6D8118, 0xD807AA98A3030242, 0x12835B0145706FBE,
   0x243185BE4EE4B28C, 0x550C7DC3D5FFB4E2, 0x72BE5D74F27B896F, 0x80DEB1FE3B1696B1, 0x9BDC06A725C71235,
   0xC19BF174CF692694, 0xE49B69C19EF14AD2, 0xEFBE4786384F25E3, 0x0FC19DC68B8CD5B5, 0x240CA1CC77AC9C65] ++
  [0x2DE92C6F592B0275, 0x4A7484AA6EA6E483, 0x5CB0A9DCBD41FBD4, 0x76F988DA831153B5, 0x983E5152EE66DFAB,
   0xA831C66D2DB43210, 0xB00327C898FB213F, 0xBF597FC7BEEF0EE4, 0xC6E00BF33DA88FC2, 0xD5A79147930AA725,
   0x06CA6351E003826F, 0x142929670A0E6E70, 0x27B70A8546D22FFC, 0x2E1B21385C26C926, 0x4D2C6DFC5AC42AED,
   0x53380D139D95B3DF, 0x650A73548BAF63DE, 0x766A0ABB3C77B2A8, 0x81C2C92E47EDAEE6, 0x92722C851482353B] ++
  [0xA2BFE8A14CF10364, 0xA81A664BBC423001, 0xC24B8B70D0F89791, 0xC76C51A30654BE30, 0xD192E819D6EF5218,
   0xD69906245565A910, 0xF40E35855771202A, 0x106AA07032BBD1B8, 0x19A4C116B8D2D0C8, 0x1E376C085141AB53,
   0x2748774CDF8EEB99, 0x34B0BCB5E19B48A8, 0x391C0CB3C5C95A63, 0x4ED8AA4AE3418ACB, 0x5B9CCA4F7763E373,
   0x682E6FF3D6B2B8A3, 0x748F82EE5DEFB2FC, 0x78A5636F43172F60, 0x84C87814A1F0AB72, 0x8CC702081A6439EC] ++
  [0x90BEFFFA23631E28, 0xA4506CEBDE82BDE9, 0xBEF9A3F7B2C67915, 0xC67178F2E372532B, 0xCA273ECEEA26619C,
   0xD186B8C721C0C207, 0xEADA7DD6CDE0EB1E, 0xF57D4F7FEE6ED178, 0x06F067AA72176FBA, 0x0A637DC5A2C898A6,
   0x113F9804BEF90DAE, 0x1B710B35131C471B, 0x28DB77F523047D84, 0x32CAAB7B40C72493, 0x3C9EBE0A15C9BEBC,
   0x431D67C49C100D4C, 0x4CC5D4BECB3E42B6, 0x597F299CFC657E2A, 0x5FCB6FAB3AD6FAEC, 0x6C44198C4A475817]

/-- The initial hash value of SHA-384. -/
def shaInit : List U64 :=
  [0xCBBB9D5DC1059ED8, 0x629A292A367CD507, 0x9159015A3070DD17, 0x152FECD8F70E5939, 0x67332667FFC00B31,
   0x8EB44A8768581511, 0xDB0C2E0D64F98FA7, 0x47B5481DBEFA4FA4]

def shaCh (x y z : U64) : U64 := (x &&& y) ^^^ (~~~x &&& z)
def shaMaj (x y z : U64) : U64 := (x &&& y) ^^^ (x &&& z) ^^^ (y &&& z)
def shaS0 (x : U64) : U64 := x.rotateRight 28 ^^^ x.rotateRight 34 ^^^ x.rotateRight 39
def shaS1 (x : U64) : U64 := x.rotateRight 14 ^^^ x.rotateRight 18 ^^^ x.rotateRight 41
def shaG0 (x : U64) : U64 := x.rotateRight 1 ^^^ x.rotateRight 8 ^^^ (x >>> 7)
def shaG1 (x : U64) : U64 := x.rotateRight 19 ^^^ x.rotateRight 61 ^^^ (x >>> 6)

/-- A number of a byte string, most significant byte first. -/
def ofBytesBE (l : List Byte) : Nat := l.foldl (fun n b => n * 256 + b.toNat) 0
/-- `n` bytes of a number, most significant byte first. -/
def toBytesBE (n v : Nat) : List Byte := (toBytes n v).reverse

/-- The eight working values. -/
structure ShaState where
  a : U64
  b : U64
  c : U64
  d : U64
  e : U64
  f : U64
  g : U64
  h : U64

def ShaState.ofList (l : List U64) : ShaState :=
  ⟨l.getD 0 0, l.getD 1 0, l.getD 2 0, l.getD 3 0, l.getD 4 0, l.getD 5 0, l.getD 6 0, l.getD 7 0⟩

def ShaState.add (x y : ShaState) : ShaState :=
  ⟨x.a + y.a, x.b + y.b, x.c + y.c, x.d + y.d, x.e + y.e, x.f + y.f, x.g + y.g, x.h + y.h⟩

/-- One round, over a window of 16 schedule words; the window moves on by one word. -/
def shaRound (x : ShaState × List U64) (k : U64) : ShaState × List U64 :=
  let (q, w) := x
  let w0 := w.getD 0 0
  let t1 := q.h + shaS1 q.e + shaCh q.e q.f q.g + k + w0
  let t2 := shaS0 q.a + shaMaj q.a q.b q.c
  (⟨t1 + t2, q.a, q.b, q.c, q.d + t1, q.e, q.f, q.g⟩,
   w.drop 1 ++ [w0 + shaG0 (w.getD 1 0) + w.getD 9 0 + shaG1 (w.getD 14 0)])

/-- One block of 128 bytes. -/
def shaBlock (h : ShaState) (l : List Byte) : ShaState :=
  let w := (List.range 16).map fun i => (BitVec.ofNat 64 (ofBytesBE ((l.drop (8 * i)).take 8)))
  h.add (shaK.foldl shaRound (h, w)).1

def shaBlocks : Nat → ShaState → List Byte → ShaState
  | 0, h, _ => h
  | n + 1, h, l => shaBlocks n (shaBlock h (l.take 128)) (l.drop 128)

/-- The message with its padding and length. -/
def shaPad (l : List Byte) : List Byte :=
  l ++ [0x80] ++ List.replicate ((239 - l.length % 128) % 128) 0 ++ toBytesBE 16 (8 * l.length)

def sha384 (l : List Byte) : List Byte :=
  let m := shaPad l
  let h := shaBlocks (m.length / 128) (ShaState.ofList shaInit) m
  [h.a, h.b, h.c, h.d, h.e, h.f].flatMap fun x => toBytesBE 8 x.toNat

/-! ## ECDSA with curve P-384 (FIPS 186-5, log entry 44) -/

def p384 : Nat := 2 ^ 384 - 2 ^ 128 - 2 ^ 96 + 2 ^ 32 - 1
def p384B : Nat := 0xb3312fa7e23ee7e4988e056be3f82d19181d9c6efe8141120314088f5013875ac656398d8a2ed19d2a85c8edd3ec2aef
def p384N : Nat := 0xffffffffffffffffffffffffffffffffffffffffffffffffc7634d81f4372ddf581a0db248b0a77aecec196accc52973
def p384Gx : Nat := 0xaa87ca22be8b05378eb1c71ef320ad746e1d3b628ba79b9859f741e082542a385502f25dbf55296c3a545e3872760ab7
def p384Gy : Nat := 0x3617de4a96262c6f5d9e98bf9292dc29f8f41dbd289a147ce9da3113b5f0b8c00a60b1ce1d7e819d7a431d7c90ea0e5f

/-- x ^ e modulo m, for an e of `n` bits. -/
def powMod : Nat → Nat → Nat → Nat → Nat
  | 0, _, _, m => 1 % m
  | n + 1, x, e, m =>
    let r := powMod n (x * x % m) (e / 2) m
    if e % 2 = 1 then r * x % m else r

/-- The inverse modulo a prime. -/
def invMod (x m : Nat) : Nat := powMod 384 (x % m) (m - 2) m

/-- Points of the curve; none is the point at infinity. -/
def ecAdd (a b : Option (Nat × Nat)) : Option (Nat × Nat) :=
  match a, b with
  | none, q => q
  | q, none => q
  | some (x1, y1), some (x2, y2) =>
    if x1 = x2 ∧ (y1 + y2) % p384 = 0 then none
    else
      let l := if x1 = x2 then (3 * x1 * x1 + (p384 - 3)) * invMod (2 * y1) p384 % p384
        else (y2 + p384 - y1) * invMod (x2 + p384 - x1) p384 % p384
      let x := (l * l + 2 * p384 - x1 - x2) % p384
      some (x, (l * (x1 + p384 - x) + p384 - y1) % p384)

def ecMul : Nat → Nat → Option (Nat × Nat) → Option (Nat × Nat)
  | 0, _, _ => none
  | n + 1, k, q =>
    let r := ecMul n (k / 2) (ecAdd q q)
    if k % 2 = 1 then ecAdd r q else r

def onCurve (x y : Nat) : Bool :=
  decide (x < p384) && decide (y < p384) && decide (y * y % p384 = (x * x * x + (p384 - 3) * x + p384B) % p384)

/-- The verification of a signature (r, s) by the key (x, y) over a digest. -/
def ecdsaVerify (x y r s : Nat) (digest : List Byte) : Bool :=
  if onCurve x y && decide (0 < r) && decide (r < p384N) && decide (0 < s) && decide (s < p384N) then
    let w := invMod s p384N
    let u1 := ofBytesBE digest * w % p384N
    let u2 := r * w % p384N
    match ecAdd (ecMul 384 u1 (some (p384Gx, p384Gy))) (ecMul 384 u2 (some (x, y))) with
    | some (vx, _) => decide (vx % p384N = r)
    | none => false
  else false

end Sys2Proof.Machine
end

