-- ==== Sys2Proof/Machine/Fec.lean ====
section
/-!
DEFINITION. Flits and codewords as they go over the lanes of a port: the bytes of a flit, the 514 message symbols of a codeword, its
30 parity symbols and its lanes (R286, R287, Tables 11.3 and 11.4).
-/
namespace Sys2Proof.Machine

/-! ## Flits as bytes (Tables 11.3 and 11.4) -/

/-- The link header, bits [127:0]. -/
def flitHeader (f : Flit) : BitVec 128 :=
  let h : BitVec 128 := 0
  let h := setBits h 127 104 f.pathSeq.toNat
  let h := setBits h 103 59 f.offset.toNat
  let h := setBits h 58 55 f.space.toNat
  let h := setBits h 54 48 f.len4.toNat
  let h := setBits h 47 36 f.src.toNat
  let h := setBits h 35 31 f.srcCore.toNat
  let h := setBits h 30 28 f.ikind.toNat
  let h := setBit h 27 f.last
  let h := setBit h 26 f.retry
  let h := setBits h 25 15 f.epoch.toNat
  let h := setBits h 14 12 f.fkind.toNat
  setBits h 11 0 f.dest.toNat

/-- Header bits [63:0], as R388 and Table 15.4 record them. -/
def flitHeaderLow (f : Flit) : U64 := (flitHeader f).setWidth 64

/-- Flit bytes 0 to 303: header, class-0 cell, payload. -/
def wireBody (w : WireFlit) : List Byte :=
  toBytes 16 (flitHeader w.flit).toNat ++ toBytes 32 w.cell.toNat ++ (w.flit.payload ++ List.replicate 256 0).take 256

/-- Trailer bytes 4 to 15 (Table 11.4). -/
def wireTrailer (w : WireFlit) : List Byte :=
  toBytes 4 w.flit.key.toNat ++ toBytes 2 (w.slot.toNat + 8192 * w.linkCode.toNat) ++
    toBytes 2 (w.nack.toNat + 32768 * b2n w.nackValid) ++ toBytes 2 w.flit.c2Seq.toNat ++ toBytes 2 w.c2Ack.toNat

/-- The CRC of a flit, over flit bytes 0 to 303 and trailer bytes 4 to 15 (Table 11.4). -/
def wireCrc (w : WireFlit) : U32 := crc32 (wireBody w ++ wireTrailer w)

/-- The CRC of the trailer holds (R293). -/
def wireCrcOk (w : WireFlit) : Bool := wireCrc w == w.crc

/-- The 320 bytes of a flit. -/
def wireBytes (w : WireFlit) : List Byte := wireBody w ++ toBytes 4 w.crc.toNat ++ wireTrailer w

/-- The flit that 320 bytes hold; its payload data are the LEN4 × 4 first bytes of the payload. -/
def wireOf (b : List Byte) : WireFlit :=
  let g := fun a n => ofBytes ((b.drop a).take n)
  let h : BitVec 128 := BitVec.ofNat 128 (g 0 16)
  { flit := {
      fkind := BitVec.ofNat 3 (bits h 14 12), pathSeq := BitVec.ofNat 24 (bits h 127 104), offset := BitVec.ofNat 45 (bits h 103 59)
      space := BitVec.ofNat 4 (bits h 58 55), len4 := BitVec.ofNat 7 (bits h 54 48), src := BitVec.ofNat 12 (bits h 47 36)
      srcCore := BitVec.ofNat 5 (bits h 35 31), ikind := BitVec.ofNat 3 (bits h 30 28), last := bit h 27, retry := bit h 26
      epoch := BitVec.ofNat 11 (bits h 25 15), dest := BitVec.ofNat 12 (bits h 11 0), key := BitVec.ofNat 32 (g 308 4)
      c2Seq := BitVec.ofNat 16 (g 316 2), payload := (b.drop 48).take (min 256 (4 * bits h 54 48)) }
    cell := BitVec.ofNat 256 (g 16 32)
    slot := BitVec.ofNat 13 (g 312 2), linkCode := BitVec.ofNat 3 (g 312 2 / 8192)
    nackValid := bit (BitVec.ofNat 16 (g 314 2)) 15, nack := BitVec.ofNat 12 (g 314 2)
    c2Ack := BitVec.ofNat 16 (g 318 2), crc := BitVec.ofNat 32 (g 304 4) }

/-! ## The code of a codeword: RS(544,514) over GF(2^10) (R286) -/

/-- Field polynomial, root and symbol order of IEEE 802.3 (log entry 60). -/
def fecCode : RsCode := ⟨10, 0x409, 544, 30⟩

/-- The 30 low coefficients of the generator polynomial, 10 bits each from x^0 up, times 2^k for k = 0 to 9. -/
def genRows : List Nat :=
  [0x8fe282ece68a0011b235468f99448417ad07bd81eb9f7dcd69c5262305881fcb927880d0a0b,
   0x1dc595d9cc16402360638d1f22ad082f1a9f7b02d57eebbed2884cd60b103f9724f100a341f,
   0x3b8b2bb3982c8046c0c6187e455a105e352ed60da8fd575dad12d9ac12297f2e49e20044c3e,
   0x771647473959008d818c30bc1ab029bc2add8c1353fa3ebb5a25b348045bfe1c13e4098987c,
   0xee2c8e8a7bb2010b27186138b544527a553b3c26a7b4fd56bd4b26102cb6fe7827c812114f8,
   0xde599d34ff6642066e39c231fa88a4f4aa665c4c4d697a8d73960cb0596cfef0df9024229f0,
   0xbef32a4dfecc840cd87b8663753548eb545cb8989a92753ee62e5960b2d8ffe13f0448453e0,
   0x7fe6d4bffc9b480994f60ec67a6a90d4e8a955303764ea79c55cb2c161b9fdc2fe2c908a3c9,
   0xff8d397bf134d0030dec1d8ce4f529abd1d28e606e8954d78ab92512c372f9c5ec7d201679b,
   0xfd5a62d7eb69a0061bd83b19c9ea5255e3a518c9dd12a9ab1d704ab582edf1cbc8de402cb3f]

/-- A symbol times the 30 low coefficients of the generator. -/
def genTimes (f : Nat) : Nat :=
  (genRows.foldl (fun (a : Nat × Nat) r => (if a.2 % 2 = 1 then a.1 ^^^ r else a.1, a.2 / 2)) (0, f)).1

/-- One symbol more in the division by the generator; the remainder holds 30 symbols, x^29 at the top. -/
def genStep (rem sym : Nat) : Nat := (rem * 1024 % 2 ^ 300) ^^^ genTimes (sym ^^^ (rem / 2 ^ 290))

/-- The parity of message symbols, symbol 0 the highest coefficient; its symbol 514 + k is the coefficient of x^(29 - k). -/
def genParity (syms : List Nat) : Nat := syms.foldl genStep 0

/-- Symbol k of a number of 10-bit symbols, lowest first. -/
def symAt (n k : Nat) : Nat := n / 2 ^ (10 * k) % 1024

/-- Number of 10-bit symbols, lowest first. -/
def ofSyms : List Nat → Nat
  | [] => 0
  | a :: t => a + 1024 * ofSyms t

/-- The parity symbols 514 to 543 of a message. -/
def paritySyms (syms : List Nat) : List Nat :=
  let p := genParity syms
  (List.range 30).map fun k => symAt p (29 - k)

/-- The errors among 544 received symbols, if there are at most 15 of them (R286). -/
def wordErrors (rx : List Nat) : Option (List (Nat × Nat)) :=
  let r := genParity (rx.take 514) ^^^ ofSyms (rx.drop 514).reverse
  if r = 0 then some []
  else
    let coeffs := (List.range 30).map (symAt r)
    fecCode.find ((List.range 30).map fun j => fecCode.eval coeffs (fecCode.alpha j))

/-! ## Symbols and lanes (R287) -/

/-- The SYNC symbol of a slot: 0b10, then slot index [7:0]. -/
def syncSym (slot : Nat) : Nat := 512 + slot % 256

/-- The 514 message symbols of a codeword of two flits, as one number: each slot's SYNC symbol and the 256 symbols of its flit. -/
def messageNat (index : Nat) (a b : WireFlit) : Nat :=
  syncSym (2 * index) + 2 ^ 10 * ofBytes (wireBytes a) + 2 ^ 2570 * syncSym (2 * index + 1) + 2 ^ 2580 * ofBytes (wireBytes b)

/-- The flits of a message. -/
def firstFlit (m : Nat) : WireFlit := wireOf (toBytes 320 (m / 2 ^ 10))
def secondFlit (m : Nat) : WireFlit := wireOf (toBytes 320 (m / 2 ^ 2580))

/-- All 544 symbols of the codeword of a message. -/
def codeSyms (m : Nat) : List Nat :=
  let l := (List.range 514).map (symAt m)
  l ++ paritySyms l

/-- The 136 symbols of lane `i`, lowest first: symbol 4k + i of the codeword is its symbol k. -/
def laneNat (syms : List Nat) (i : Nat) : Nat :=
  ofSyms ((syms.zipIdx.filter fun x => x.2 % 4 == i).map (·.1))

/-- The symbols of a codeword from its four active lanes. -/
def symsOfLanes (lane : Nat → BitVec 1360) : List Nat :=
  ((List.range 136).flatMap fun k => (List.range 4).map fun i => symAt (lane i).toNat k)

/-- The lanes of the codeword of a message; `spare` names the lane that lane 4 carries as well or instead. -/
def lanesOf (m : Nat) (spare : Option (Fin 4)) : Vector (BitVec 1360) 5 :=
  let l := codeSyms m
  Vector.ofFn fun i =>
    if i.val < 4 then BitVec.ofNat 1360 (laneNat l i.val)
    else match spare with | some j => BitVec.ofNat 1360 (laneNat l j.val) | none => 0

/-- The symbols a receiver takes: those of lane i from lane 4 where the spare stands in for it (R292). -/
def wordSyms (w : Codeword) (spare : Option (Fin 4)) : List Nat :=
  symsOfLanes fun i => match spare with
    | some j => if i = j.val then w.lanes.get 4 else w.lanes.get (Fin.ofNat 5 i)
    | none => w.lanes.get (Fin.ofNat 5 i)

/-- What the FEC finds in a received codeword: the corrected symbols and the places corrected, or nothing where it is uncorrectable. -/
def wordDecode (w : Codeword) (spare : Option (Fin 4)) : Option (List Nat × List Nat) :=
  let rx := wordSyms w spare
  match wordErrors rx with
  | some [] => some (rx, [])
  | some e => some (rx.zipIdx.map fun x => x.1 ^^^ tget 0 e x.2, e.map (·.1))
  | none => none

/-- Lane 4 has carried lane `i` without an error in this codeword (R292 step 3). -/
def wordSpareClean (w : Codeword) (syms : List Nat) (i : Fin 4) : Bool := (w.lanes.get 4).toNat == laneNat syms i.val

end Sys2Proof.Machine
end

