-- ==== Sys2Proof/Machine/FabLink.lean ====
section
/-!
DEFINITION. Fabric ports: link states, lanes, codewords, slots, retry and class 2 on the link (R284 to R307, R311).
-/
namespace Sys2Proof.Machine

/-! ## Slot tables (R294 to R296) -/

/-- The entry of port `p` for slot `slot` in a table set; FREE where it lists none. -/
def slotEntry (t : Tbl U16) (p : Fin 16) (slot : Nat) : U16 := tget 0 t (8192 * p.val + slot % 8192)

/-- The entry in force: FREE until the first mark (R295). -/
def State.entryNow (s : State) (p : Fin 16) (slot : Nat) : U16 :=
  if s.fab.tablesLive then slotEntry s.fab.active p slot else 0

def entryType (e : U16) : Nat := bits e 15 14

/-- The previous set still serves old epochs (FAB_STATUS.DRAINING, R296). -/
def State.draining (s : State) : Bool := s.fab.drainUntil.isSome

/-- The set that a flit's TRANSIT match uses: the previous one for an earlier epoch while draining (R296). -/
def State.transitSet (s : State) (f : Flit) : Tbl U16 :=
  if s.draining ∧ f.epoch ≠ s.seq.mark.setWidth 11 then s.fab.previous
  else if s.fab.tablesLive then s.fab.active else []

/-- The epoch of a launch now: the low 11 bits of the current mark number (R310). -/
def State.epochNow (s : State) : BitVec 11 := s.seq.mark.setWidth 11

/-! ## Sending -/

def emptyFlit : Flit :=
  { fkind := 0, pathSeq := 0, offset := 0, space := 0, len4 := 0, src := 0, srcCore := 0, ikind := 0, last := false,
    retry := false, epoch := 0, dest := 0, key := 0, c2Seq := 0, payload := [] }

/-- The BEACON_TIME message that leaves in a slot that starts at a multiple of 128 ns (R298). -/
def State.beaconMsg (s : State) (slot : Nat) : C0Msg :=
  c0msg [(0, 1, kindBeacon), (1, 1, s.statusBits), (2, 2, s.module.toNat), (4, 1, s.time.depth.toNat), (8, 8, slot * 32 / 10)]

/-- Fills a class-0 cell from the port's queue: position A, then B (R301). `first` is a link message that stands in A, and `put` what
a message becomes as it leaves. Gives the cell and the queue's rest. -/
def fillCell (first : Option C0Msg) (put : C0Msg → C0Msg) (q : List C0Out) : C0Msg × List C0Out :=
  match first with
  | some b =>
    match q with
    | o :: t => if o.wide then (b, q) else (b ||| (put o.msg <<< 128), t)
    | [] => (b, [])
  | none =>
    match q with
    | [] => (0, [])
    | o :: t =>
      if o.wide then (o.msg, t)
      else match t with
        | o2 :: t2 => if o2.wide then (put o.msg, t) else (put o.msg ||| (put o2.msg <<< 128), t2)
        | [] => (put o.msg, [])

/-- The SOUND request that a port sends in a slot: its identity in ALIGN (R290), and in SOUND one round trip after another until 4,096
are made (R22). One leaves every 256 ns, in the first slot of a codeword (R298, log entry 62). -/
def State.soundAsk (s : State) (port : Fin 16) (slot : Nat) : Option C0Msg :=
  if slot % 80 ≠ 2 then none
  else if (s.port port).state = .align then some (s.soundOf port false 0 0)
  else if s.mayRound port ∧ (s.port port).rounds < 4096 then some (s.soundOf port false (s.port port).rounds 0)
  else none

/-- A SOUND response leaves with its turnaround, counted from the time that it was queued with to the start of its slot (R22). -/
def putSound (slot : Nat) (m : C0Msg) : C0Msg :=
  if c0get m 0 1 = kindSound ∧ c0get m 1 1 = 1 then
    setBits m 127 64 (slot * 3200 - c0get m 8 8)
  else m

/-- The flit on the wire: its trailer is made at each hop (Table 11.4, R293, R305, R311). -/
def FabPort.wire (p : FabPort) (slot : Nat) (f : Flit) (cell : C0Msg) : WireFlit :=
  let w : WireFlit := {
    flit := f, cell := cell, slot := BitVec.ofNat 13 slot, linkCode := p.linkCode
    nackValid := !p.nacks.isEmpty, nack := match p.nacks with | [] => 0 | (i, _) :: _ => i
    c2Ack := p.c2SeqIn, crc := 0 }
  { w with crc := wireCrc w }

/-- One repetition of the oldest NACK has left (R305). -/
def nackSent : List (BitVec 12 × Nat) → List (BitVec 12 × Nat)
  | [] => []
  | (i, n) :: t => if n ≤ 1 then t else (i, n - 1) :: t

/-- A waiting message may leave in a slot: it has been available for 0.8 ns at the slot's start (R301), and a SOUND message leaves only in the
first slot of a codeword (R298). -/
def mayLeave (slot : Nat) (o : C0Out) : Bool :=
  decide (10 * o.since.toNat + 8 ≤ 32 * slot) && (slot % 2 == 0 || c0get o.msg 0 1 != kindSound)

/-- A queue without the first `n` of its messages that may leave. -/
def withoutSent (slot : Nat) : Nat → List C0Out → List C0Out
  | _, [] => []
  | n, o :: t => if mayLeave slot o && decide (0 < n) then withoutSent slot (n - 1) t else o :: withoutSent slot n t

/-- What lane 4 carries in a codeword: the lane that has been stopped, or the one that is doubled from the boundary on (R292). -/
def FabPort.doubled (p : FabPort) (index : Nat) : Option (Fin 4) :=
  p.txStopped <|> (match p.txDup with | some (i, t) => if 10 * t ≤ 64 * index then some i else none | none => none)

/-- A codeword of two flits on the lanes: its 544 symbols, those of a stopped lane only on lane 4; a lane without codeword symbols carries
the training pattern, or nothing (R287, R292). -/
def FabPort.txWord (p : FabPort) (index : Nat) (a b : WireFlit) : TxWord :=
  let l := lanesOf (messageNat index a b) (p.doubled index)
  { index := BitVec.ofNat 64 index
    lanes := Vector.ofFn fun i =>
      if i.val = 4 then (if (p.doubled index).isSome then some (l.get i) else none)
      else if p.txStopped.any fun j => j.val == i.val then none else some (l.get i) }

/-- Sends a flit in the current slot: its class-0 cell, its trailer, and a kept copy of a class-1 flit for 4,096 slots; the second flit of a
codeword completes it (R287, R298, R301, R305). -/
def sendFlit (port : Fin 16) (f : Flit) (s : State) : State :=
  let slot := s.slot
  let ask := s.soundAsk port slot
  let first := if slot % 40 = 0 then some (s.beaconMsg slot) else ask
  s.updPort port fun p =>
    let now := p.c0q.filter (mayLeave slot)
    let (cell, q) := fillCell first (putSound slot) now
    let w := p.wire slot f cell
    { p with
      c0q := withoutSent slot (now.length - q.length) p.c0q, nacks := nackSent p.nacks
      soundAt := if ask.isSome then slot * 3200 else p.soundAt
      copies := if f.fkind = 1 then p.copies ++ [⟨slot, f⟩] else p.copies
      lastSent := some (slot, w)
      sentWord := if slot % 2 = 1 then
          some (p.txWord (slot / 2) (match p.lastSent with
            | some (k, v) => if k + 1 = slot then v else p.wire (slot - 1) emptyFlit 0
            | none => p.wire (slot - 1) emptyFlit 0) w)
        else p.sentWord }

/-- The next class-2 flit of a port: fault reports, IKIND 3, go before management messages, IKIND 2, and these before ingress relay; the
numbers are log entry 31's (R311). -/
def nextC2 (l : List Flit) : Option Flit := (l.find? fun f => f.ikind == 3) <|> (l.find? fun f => f.ikind == 2) <|> l.head?

/-- The class-2 flit a slot can carry: the next one to be sent again, under its own number, else the next waiting one while fewer than 64 are
unacknowledged (R311); class 2 is stopped at tier 2 and deeper (Table 14.6). -/
def sendClass2 (port : Fin 16) (s : State) : State :=
  let p := s.port port
  if 2 ≤ s.pwr.tier.val then sendFlit port emptyFlit s
  else match p.c2Again with
  | g :: t => sendFlit port g (s.updPort port fun p => { p with c2Again := t, c2Sent := p.c2Sent ++ [(s.time.hallTime, g)] })
  | [] =>
    match nextC2 p.c2Out with
    | some f =>
      if p.c2Sent.length < 64 then
        let g := { f with c2Seq := p.c2SeqOut + 1 }
        sendFlit port g (s.updPort port fun p => { p with
          c2Out := p.c2Out.erase f, c2SeqOut := p.c2SeqOut + 1, c2Sent := p.c2Sent ++ [(s.time.hallTime, g)] })
      else sendFlit port emptyFlit s
    | none => sendFlit port emptyFlit s

/-- C1_LOST: counted at the port and logged (R305, R306). -/
def c1Lost (port : Fin 16) (f : Flit) (s : State) : State :=
  logErr errC1Lost none (BitVec.ofNat 64 (port.val + 65536 * f.pathSeq.toNat)) (flitHeaderLow f)
    (s.updPort port fun p => { p with c1Lost := satInc p.c1Lost })

/-- Puts a flit into a retry buffer of 512; one that finds it full is lost (R306). -/
def toRetry (port : Fin 16) (f : Flit) (s : State) : State :=
  if (s.port port).retry.length < 512 then
    s.updPort port fun p => { p with retry := p.retry ++ [⟨s.slot, { f with retry := true }⟩] }
  else c1Lost port f s

/-- A fabric collision (R303, R388): cause, slot table index, input and output port, header bits. -/
def slotCollision (cause idx inp outp : Nat) (hdr : U64) (s : State) : State :=
  raiseHalt ⟨hcSlot, none, engFabric, none,
    BitVec.ofNat 64 (cause * 2 ^ 48 + idx % 8192 * 2 ^ 32 + inp * 2 ^ 8 + outp), hdr⟩ s

/-! ## Link states and lanes -/

/-- PEER_SIGNAL_DETECT (Table 11.2): at least 4 lanes; DOWN is left for TRAIN. -/
def execPeerSignalDetect (port : Fin 16) (lanes : BitVec 5) (s : State) : Host.Outcome State Fault Refusal :=
  .next <|
    let n := (List.range 5).countP fun i => bit lanes i
    if (s.port port).state = .down ∧ 4 ≤ n then s.updPort port fun p => { p with state := .train } else s

/-- Nothing of a takeover is under way on a port's lanes. -/
def freshLanes (p : FabPort) : FabPort :=
  { p with
    rxLaneBad := none, linkCode := 0, rxCode := 0, txDup := none, txStopped := none, laneFixes := Vector.replicate 5 [], cleanRun := 0 }

/-- ALIGN begins on the lanes that have been trained; the peer's identity and its SYNC symbols are yet to come (Table 11.2). -/
def startAlign (now : U64) (failed : Option Nat) (p : FabPort) : FabPort :=
  { freshLanes p with
    state := .align, alignAt := now, syncRun := 0, identKnown := false
    failedLane := match failed with | some i => BitVec.ofNat 3 i | none => 7
    spareInUse := match failed with | some i => decide (i < 4) | none => false
    txStopped := match failed with | some i => if h : i < 4 then some ⟨i, h⟩ else none | none => none }

/-- TRAIN_DONE (R289): one untrained lane is replaced by the spare, two fail the port. -/
def execTrainDone (port : Fin 16) (trained : BitVec 5) (s : State) : Host.Outcome State Fault Refusal :=
  .next <|
    if (s.port port).state = .train then
      checkService <| s.updPort port fun p =>
        match (List.range 5).filter fun i => !bit trained i with
        | [] => startAlign s.time.hallTime none p
        | [i] => startAlign s.time.hallTime (some i) p
        | _ => { freshLanes p with state := .failed }
    else s

/-- ALIGN_DONE (R288, R290): lock and the peer's identity lead to SOUND; the expired limit to FAILED (log entry 14). -/
def execAlignDone (port : Fin 16) (locked : Bool) (peerModule : BitVec 12) (peerPort : BitVec 4) (s : State) :
    Host.Outcome State Fault Refusal :=
  .next <|
    if (s.port port).state = .align then
      s.updPort port fun p =>
        if locked then { p with
          state := .sound, identKnown := true, peerModule := peerModule, peerPort := peerPort, rounds := 0, soundSum := 0 }
        else { p with state := .failed }
    else s

/-- LOCK_LOSS (Table 11.2): UP is left for DOWN (log entry 14). -/
def execLockLoss (port : Fin 16) (s : State) : Host.Outcome State Fault Refusal :=
  .next (if (s.port port).state = .up then s.updPort port fun p => { freshLanes p with state := .down } else s)

/-- RETRAIN (Table 11.12): FAILED or UP to DOWN, while the module holds no image. The delay that the beacon uses stays in force until
the link has been sounded again (R24). -/
def execRetrain (port : Fin 16) (s : State) : Host.Outcome State Fault Refusal :=
  .next <|
    if ¬ s.holdsImage ∧ ((s.port port).state = .failed ∨ (s.port port).state = .up) then
      s.updPort port fun p => { freshLanes p with
        state := .down, spareInUse := false, failedLane := 7, tooLong := false, identKnown := false
        soundD := 0xFFFF, soundU := 0xFFFF }
    else s

/-- LANE_FAIL (R292): the receiver asks for a takeover; a second failed lane fails the port. -/
def execLaneFail (port : Fin 16) (lane : Fin 5) (s : State) : Host.Outcome State Fault Refusal :=
  .next <|
    if (s.port port).state = .up then
      s.updPort port fun p =>
        let p := { p with laneFixes := p.laneFixes.set lane.val [] }
        if p.failedLane.toNat = lane.val ∨ p.rxLaneBad.any (fun i => i.val == lane.val) then p
        else if p.failedLane ≠ 7 ∨ p.rxLaneBad.isSome then { p with state := .failed }
        else if h : lane.val < 4 then
          { p with rxLaneBad := some ⟨lane.val, h⟩, linkCode := BitVec.ofNat 3 (1 + lane.val), cleanRun := 0 }
        else { p with failedLane := 4 }
    else s

/-- SPARE_TAKEOVER_REQUEST (R292): lane i is sent on lane 4 too, from the first 32 ns boundary at least 64 ns on. -/
def execSpareTakeoverRequest (port : Fin 16) (lane : Fin 4) (s : State) : Host.Outcome State Fault Refusal :=
  .next <|
    if (s.port port).state = .up then
      s.updPort port fun p => { p with txDup := some (lane, (s.now + 64 + 31) / 32 * 32) }
    else s

/-- Lane i can be taken from lane 4 now: 16 codewords in a row without an error on lane 4, at a 32 ns boundary (R292 step 3). -/
def State.switchReady (s : State) (p : FabPort) : Bool := p.rxLaneBad.isSome && decide (16 ≤ p.cleanRun) && s.now % 32 == 0

/-- SPARE_LANE_SWITCH (R292): the receiver takes lane i from lane 4 and sends LINK_CODE 5. -/
def execSpareLaneSwitch (port : Fin 16) (s : State) : Host.Outcome State Fault Refusal :=
  .next <|
    if s.switchReady (s.port port) then
      checkService <| s.updPort port fun p => match p.rxLaneBad with
        | some i => { p with
          rxLaneBad := none, linkCode := 5, spareInUse := true, failedLane := BitVec.ofNat 3 i.val, cleanRun := 0 }
        | none => p
    else s

/-- SPARE_TAKEOVER_ACK (R292): the transmitter stops lane i. -/
def execSpareTakeoverAck (port : Fin 16) (s : State) : Host.Outcome State Fault Refusal :=
  .next <|
    match (s.port port).txDup with
    | some (i, _) => s.updPort port fun p => { p with txDup := none, txStopped := some i }
    | none => s

/-! ## Codewords, NACKs and retry -/

/-- The messages of a class-0 cell: position A, then B; a 32-byte message fills both (R297). -/
def cellMsgs (c : C0Msg) : List C0Msg :=
  if c0wide c then [c]
  else
    let a := c.setWidth 128 |>.setWidth 256
    let b := c >>> 128
    (if c0get a 0 1 = 0 then [] else [a]) ++ (if c0get b 0 1 = 0 then [] else [b])

/-- A good flit of a codeword: its cell, its link-level trailer, and its class-1 or class-2 content. Class 1 is off while the die
is powered off (Table 14.6). -/
def takeFlit (port : Fin 16) (slot : Nat) (w : WireFlit) (s : State) : State :=
  let off := s.pwr.phase == .dieOff || s.pwr.phase == .standbyRelay
  s.updPort port fun p =>
    let p := { p with
      c0in := p.c0in ++ cellMsgs w.cell, rxCode := w.linkCode
      nackIn := if w.nackValid then p.nackIn ++ [w.nack] else p.nackIn
      c2Sent := p.c2Sent.filter fun e => !decide ((w.c2Ack - e.2.c2Seq).toNat < 64)
      c2Again := p.c2Again.filter fun f => !decide ((w.c2Ack - f.c2Seq).toNat < 64) }
    if w.flit.fkind = 1 ∧ p.state = .up ∧ ¬ off then
      { p with present := p.present ++ [⟨slot + bits p.cfg 21 16, w.flit⟩] }
    else if w.flit.fkind = 2 ∧ p.state = .up ∧ w.flit.c2Seq = p.c2SeqIn + 1 ∧ p.c2In.length < 64 then
      { p with c2SeqIn := w.flit.c2Seq, c2Arrived := p.c2Arrived ++ [w.flit], c2In := p.c2In ++ [w.flit] }
    else p

/-- A lost codeword goes into the NACK field of the next 4 trailers (R305). -/
def sendNack (port : Fin 16) (index : BitVec 64) (s : State) : State :=
  s.updPort port fun p => { p with nacks := p.nacks ++ [(index.setWidth 12, 4)] }

/-- The lane whose symbols lane 4 stands in for, at the receiver. -/
def FabPort.spareFor (p : FabPort) : Option (Fin 4) :=
  if h : p.spareInUse ∧ p.failedLane.toNat < 4 then some ⟨p.failedLane.toNat, h.2⟩ else none

/-- The lane on which symbol `i` of a codeword comes in. -/
def FabPort.laneOf (p : FabPort) (i : Nat) : Fin 5 :=
  match p.spareFor with
  | some j => if i % 4 = j.val then 4 else Fin.ofNat 5 (i % 4)
  | none => Fin.ofNat 5 (i % 4)

/-- The corrected symbols of a lane within the last 1,000,000 ns (R292). -/
def FabPort.laneSum (p : FabPort) (lane : Fin 5) : Nat := ((p.laneFixes.get lane).map (·.2)).sum

/-- Counts the symbols that the FEC has corrected, for each lane. -/
def noteFixes (now : U64) (places : List Nat) (p : FabPort) : FabPort :=
  { p with
    fecCorr := satAdd p.fecCorr places.length
    laneFixes := Vector.ofFn fun l =>
      let n := places.countP fun i => p.laneOf i == l
      (p.laneFixes.get l).filter (fun e => decide (now.toNat < e.1.toNat + 1000000)) ++ (if n = 0 then [] else [(now, n)]) }

/-- The run of codewords without an error on lane 4, while a takeover waits for it (R292 step 3). -/
def runClean (cw : Codeword) (syms : List Nat) (p : FabPort) : FabPort :=
  match p.rxLaneBad with
  | some i => { p with cleanRun := if wordSpareClean cw syms i then p.cleanRun + 1 else 0 }
  | none => p

/-- The SYNC symbols of a codeword, while the port looks for 8 of them in sequence (R287, R288). -/
def countSync (index : Nat) (syms : List Nat) (p : FabPort) : FabPort :=
  if p.state = .align then
    let a := syms.getD 0 0 == syncSym (2 * index)
    let b := syms.getD 257 0 == syncSym (2 * index + 1)
    { p with syncRun := if a && b then p.syncRun + 2 else if b then 1 else 0 }
  else p

/-- CODEWORD_RECEIVE (R286, R287, R292, R293, R305): the FEC corrects up to 15 symbols; lost flits are discarded and NACKed; a good
class-1 flit of slot t is held for its presentation in slot t + A (R303). -/
def execCodewordReceive (port : Fin 16) (cw : Codeword) (s : State) : Host.Outcome State Fault Refusal :=
  .next <|
    let p := s.port port
    if p.cells then
      match wordDecode cw p.spareFor with
      | some (syms, places) =>
        let s := s.updPort port fun p => countSync cw.index.toNat syms (runClean cw syms (noteFixes s.time.hallTime places p))
        let m := ofSyms (syms.take 514)
        let s := if wireCrcOk (firstFlit m) then takeFlit port (2 * cw.index.toNat) (firstFlit m) s else s
        let s := if wireCrcOk (secondFlit m) then takeFlit port (2 * cw.index.toNat + 1) (secondFlit m) s else s
        if wireCrcOk (firstFlit m) && wireCrcOk (secondFlit m) then s else sendNack port cw.index s
      | none =>
        sendNack port cw.index (s.updPort port fun p => { p with fecUncorr := satInc p.fecUncorr, cleanRun := 0, syncRun := 0 })
    else s

/-- Whether a slot belongs to the codeword of an index modulo 4,096 (R305). -/
def inCodeword (slot : Nat) (index : BitVec 12) : Bool := decide (slot / 2 % 4096 = index.toNat)

/-- Resends a port's unacknowledged class-2 flits in order from the first one, under the numbers they have (R311). -/
def c2Resend (port : Fin 16) (s : State) : State :=
  s.updPort port fun p => { p with
    c2Again := p.c2Sent.map (·.2) ++ p.c2Again, c2Sent := [], c2Resend := satAdd p.c2Resend p.c2Sent.length }

/-- NACK_RECEIVE (R305, R311): kept copies go to the retry buffer once; expired ones are lost; an unacknowledged class-2 flit
of that codeword starts a resend. -/
def execNackReceive (port : Fin 16) (index : BitVec 12) (s : State) : Host.Outcome State Fault Refusal :=
  .next <|
    let p := s.port port
    let mine := p.copies.filter fun h => inCodeword h.slot index
    let lost := p.gone.filter fun h => inCodeword h.slot index
    let s := s.updPort port fun p => { p with
      copies := p.copies.filter fun h => !inCodeword h.slot index
      gone := p.gone.filter fun h => !inCodeword h.slot index }
    let s := foldS (fun h s => toRetry port h.flit s) mine s
    let s := foldS (fun h s => c1Lost port h.flit s) lost s
    if p.c2Sent.any fun e => inCodeword (slotAt e.1.toNat) index then c2Resend port s else s

/-- FLIT_COPY_EXPIRE (R305): copies of 4,096 slots' age are dropped; their codewords are remembered for a late NACK. -/
def execFlitCopyExpire (port : Fin 16) (s : State) : Host.Outcome State Fault Refusal :=
  .next (s.updPort port fun p =>
    let old := p.copies.filter fun h => decide (h.slot + 4096 ≤ s.slot)
    { p with
      copies := p.copies.filter fun h => !decide (h.slot + 4096 ≤ s.slot)
      gone := (p.gone ++ old).filter fun h => decide (s.slot < h.slot + 8192) })

/-- RETRY_WAIT_EXPIRE (R306): a flit that has waited 8,192 slots is lost. -/
def execRetryWaitExpire (port : Fin 16) (s : State) : Host.Outcome State Fault Refusal :=
  .next <|
    let old := (s.port port).retry.filter fun h => decide (h.slot + 8192 ≤ s.slot)
    let s := s.updPort port fun p => { p with retry := p.retry.filter fun h => !decide (h.slot + 8192 ≤ s.slot) }
    foldS (fun h s => c1Lost port h.flit s) old s

/-! ## Slots -/

/-- The port sends in the current slot under an entry of this type. -/
def State.slotIs (s : State) (port : Fin 16) (ty : Nat) : Bool :=
  (s.port port).state == .up && entryType (s.entryNow port s.slot) == ty

/-- LAUNCH (R303, R381): the head flit of the named queue while the die is not halted, else class 2, else an empty flit. -/
def execLaunchSlot (port : Fin 16) (s : State) : Host.Outcome State Fault Refusal :=
  .next <|
    if s.slotIs port 1 then
      let q := bits (s.entryNow port s.slot) 11 0
      match tget [] s.fab.queues q with
      | f :: t =>
        if s.seq.state = .halted then sendClass2 port s
        else sendFlit port { f with epoch := s.epochNow } { s with fab := { s.fab with queues := tset [] s.fab.queues q t } }
      | [] => sendClass2 port s
    else s

/-- The class-1 flit that a port's own entry would send in this slot: the head of a launch queue or of the retry buffer. -/
def State.ownFlit (s : State) (port : Fin 16) : Option Flit :=
  if s.slotIs port 1 then
    if s.seq.state = .halted then none
    else (tget [] s.fab.queues (bits (s.entryNow port s.slot) 11 0)).head?.map fun f => { f with epoch := s.epochNow }
  else if s.slotIs port 3 then (s.port port).retry.head?.map (·.flit)
  else none

/-- TRANSIT (R303): the class-1 flit the input port presented for this slot, else an empty flit. A flit of another epoch that the table in
force would send in the same slot is a collision (cause EPOCH, R296). -/
def execTransitSlot (port : Fin 16) (s : State) : Host.Outcome State Fault Refusal :=
  .next <|
    if (s.port port).state = .up then
      match (s.port port).transit.find? fun h => h.slot == s.slot with
      | some h =>
        let clash := match s.ownFlit port with | some g => g.epoch != h.flit.epoch | none => false
        let s := if clash then slotCollision 4 s.slot h.inp.val port.val (flitHeaderLow h.flit) s else s
        sendFlit port h.flit (s.updPort port fun p => { p with transit := p.transit.erase h })
      | none => if s.slotIs port 2 then sendFlit port emptyFlit s else s
    else s

/-- RETRY (R306): the head of the retry buffer, else class 2, else an empty flit. -/
def execRetrySlot (port : Fin 16) (s : State) : Host.Outcome State Fault Refusal :=
  .next <|
    if s.slotIs port 3 then
      match (s.port port).retry with
      | h :: t => sendFlit port h.flit (s.updPort port fun p => { p with retry := t, c1Retry := satInc p.c1Retry })
      | [] => sendClass2 port s
    else s

/-- FREE (R311): class-2 traffic. -/
def execFreeSlot (port : Fin 16) (s : State) : Host.Outcome State Fault Refusal :=
  .next (if s.slotIs port 0 then sendClass2 port s else s)

/-- A TRANSIT entry of an output port in a set that names an input port for a slot (R303). -/
def claims (t : Tbl U16) (outp inp : Fin 16) (slot : Nat) : Bool :=
  let e := slotEntry t outp slot
  entryType e == 2 && bits e 3 0 == inp.val

/-- Gives a presented flit its output slot; two flits in one output slot are of two epochs (cause EPOCH, R296). -/
def toTransit (inp outp : Fin 16) (slot : Nat) (f : Flit) (s : State) : State :=
  if (s.port outp).transit.any fun h => h.slot == slot then slotCollision 4 slot inp.val outp.val (flitHeaderLow f) s
  else s.updPort outp fun p => { p with transit := p.transit ++ [⟨slot, f, inp⟩] }

/-- What becomes of a flit in its presentation slot (R303, R306). -/
def presentFlit (port : Fin 16) (h : Held) (s : State) : State :=
  let f := h.flit
  if f.dest = s.module then { s with fab := { s.fab with landing := s.fab.landing ++ [⟨h.slot + 1, f⟩] } }
  else
    let r := tget 0 s.fab.route f.dest.toNat
    if ¬ bit r 31 then slotCollision 3 (h.slot + 1) port.val 15 (flitHeaderLow f) s
    else
      let a := portOf (bits r 3 0)
      let b := portOf (bits r 7 4)
      if f.retry then toRetry a f s
      else
        let t := s.transitSet f
        let ca := claims t a port (h.slot + 1)
        let cb := claims t b port (h.slot + 1) && decide (a ≠ b)
        if ca && cb then slotCollision 2 (h.slot + 1) port.val 15 (flitHeaderLow f) s
        else if ca then toTransit port a (h.slot + 1) f s
        else if cb then toTransit port b (h.slot + 1) f s
        else slotCollision 1 (h.slot + 1) port.val 15 (flitHeaderLow f) s

/-- FLIT_PRESENT (R303): the flits whose presentation slot has come land, transit or collide. -/
def execFlitPresent (port : Fin 16) (s : State) : Host.Outcome State Fault Refusal :=
  .next <|
    let due := (s.port port).present.filter fun h => decide (h.slot ≤ s.slot)
    let s := s.updPort port fun p => { p with present := p.present.filter fun h => !decide (h.slot ≤ s.slot) }
    foldS (presentFlit port) due s

/-- C2_RESEND_TIMEOUT (R311): 2,000 ns without acknowledgement. -/
def execC2ResendTimeout (port : Fin 16) (s : State) : Host.Outcome State Fault Refusal :=
  .next <|
    match (s.port port).c2Sent with
    | e :: _ => if e.1.toNat + 2000 ≤ s.now then c2Resend port s else s
    | [] => s

end Sys2Proof.Machine
end

