-- ==== Sys2Proof/Machine/Mesh.lean ====
section
/-!
DEFINITION. The on-die mesh and its scheduled plane (R44 to R47; log entry 23 says which transfers use it).
-/
namespace Sys2Proof.Machine

/-- Mesh coordinates of a core (R44). -/
def coreX (c : Fin 32) : Nat := 2 * (c.val / 4 % 4) + c.val % 4 % 2
def coreY (c : Fin 32) : Nat := 2 * (c.val / 4 / 4) + c.val % 4 / 2

/-- The core at a mesh node (R44). -/
def nodeCore (x y : Nat) : Fin 32 := coreOf (4 * (4 * (y / 2) + x / 2) + 2 * (y % 2) + x % 2)

/-- The core at whose node a port attaches (R44). -/
def portCore (p : Fin 16) : Fin 32 := coreOf (4 * (p.val / 2) + 2 + p.val % 2)

/-- Hops and region boundaries between two nodes (R45). -/
def dist (a b : Nat) : Nat := (a - b) + (b - a)
def meshHops (x1 y1 x2 y2 : Nat) : Nat := dist x1 x2 + dist y1 y2
def meshBounds (x1 y1 x2 y2 : Nat) : Nat := dist (x1 / 2) (x2 / 2) + dist (y1 / 2) (y2 / 2)

/-- Delivery cycle of a transfer launched in cycle t (R45). -/
def meshDelivery (t x1 y1 x2 y2 : Nat) : Nat := t + 4 + meshHops x1 y1 x2 y2 + meshBounds x1 y1 x2 y2

/-- The links of the dimension-ordered path, x first, with the cycle in which each is entered (R46). -/
def meshPath : Nat → Nat → Nat → Nat → Nat → Nat → List MeshUse
  | 0, _, _, _, _, _ => []
  | fuel + 1, t, x1, y1, x2, y2 =>
    if x1 < x2 then ⟨t, x1, y1, 0⟩ :: meshPath fuel (t + 1 + dist ((x1 + 1) / 2) (x1 / 2)) (x1 + 1) y1 x2 y2
    else if x2 < x1 then ⟨t, x1, y1, 1⟩ :: meshPath fuel (t + 1 + dist ((x1 - 1) / 2) (x1 / 2)) (x1 - 1) y1 x2 y2
    else if y1 < y2 then ⟨t, x1, y1, 3⟩ :: meshPath fuel (t + 1 + dist ((y1 + 1) / 2) (y1 / 2)) x1 (y1 + 1) x2 y2
    else if y2 < y1 then ⟨t, x1, y1, 2⟩ :: meshPath fuel (t + 1 + dist ((y1 - 1) / 2) (y1 / 2)) x1 (y1 - 1) x2 y2
    else []

/-- A scheduled-plane transfer launched in cycle `t` from core `a` to core `b`'s node claims its links (R46). -/
def schedLaunch (t : Nat) (a b : Fin 32) (s : State) : State :=
  { s with clk := { s.clk with
      mesh := s.clk.mesh ++ meshPath 16 (t + 2) (coreX a) (coreY a) (coreX b) (coreY b) } }

/-- The claims that occur more than once, each one time. -/
def twice : List MeshUse → List MeshUse
  | [] => []
  | u :: t => if t.contains u then u :: (twice t).filter (· != u) else twice t

/-- Two transfers in one link direction in this cycle halt the die (R47); claims of past cycles are dropped. -/
def meshCheck (s : State) : State :=
  let here := s.clk.mesh.filter fun u => u.cycle == s.seq.cycle
  foldS (fun u s => raiseHalt ⟨hcSlot, some (nodeCore u.x u.y), engMesh, none,
      BitVec.ofNat 64 (2 ^ 63 + 256 * u.x + u.y), BitVec.ofNat 64 u.dir⟩ s) (twice here)
    { s with clk := { s.clk with mesh := s.clk.mesh.filter fun u => decide (s.seq.cycle < u.cycle) } }

end Sys2Proof.Machine
end

