-- ==== Sys2Proof/Machine/Operands.lean ====
section
/-!
DEFINITION. The fields of command words (Tables 3.2 to 3.5) and of bell and endpoint descriptors (Tables 9.2 and 9.4).
-/
namespace Sys2Proof.Machine

/-! ## Word 0 (Tables 3.2 and 3.3) -/

def opA (w : CmdWords) : U64 := w.w0.extractLsb' 192 64
def sig1Of (w : CmdWords) : U32 := w.w0.extractLsb' 160 32
def sig0Of (w : CmdWords) : U32 := w.w0.extractLsb' 128 32
def wait1Of (w : CmdWords) : U32 := w.w0.extractLsb' 96 32
def wait0Of (w : CmdWords) : U32 := w.w0.extractLsb' 64 32
def headerOf (w : CmdWords) : U64 := w.w0.extractLsb' 0 64
def sigsOf (w : CmdWords) : U64 := w.w0.extractLsb' 128 64
def deltaOf (w : CmdWords) : Nat := bits w.w0 47 36
def progOf (w : CmdWords) : Bool := bit w.w0 35
def pselOf (w : CmdWords) : Nat := bits w.w0 28 24
def psenseOf (w : CmdWords) : Bool := bit w.w0 23
def sosOf (w : CmdWords) : Bool := bit w.w0 22
def nwordsOf (w : CmdWords) : Nat := bits w.w0 17 16 + 1
def targetOf (w : CmdWords) : Nat := bits w.w0 11 8

/-! ## Wait and signal fields (Tables 3.4 and 3.5) -/

def waitKind (f : U32) : Nat := bits f 31 30
def waitIndex (f : U32) : Nat := bits f 29 24
def waitEq (f : U32) : Bool := bit f 23
def waitThresh (f : U32) : Nat := bits f 15 0
def sigOp (f : U32) : Nat := bits f 31 28
def sigIndex (f : U32) : Nat := bits f 27 20
def sigValue (f : U32) : Nat := bits f 15 0

/-- A wait field breaks R70. -/
def waitBad (f : U32) : Bool :=
  match waitKind f with
  | 0 => f != 0
  | 1 => decide (waitThresh f > 1)
  | 2 => decide (waitIndex f > 31)
  | _ => waitEq f || waitThresh f != 0

/-- A signal field breaks R70; reserved bits are RESERVED_NONZERO's unless OP is 0 (R416). -/
def sigBad (f : U32) : Bool :=
  match sigOp f with
  | 0 => f != 0
  | 1 => decide (sigIndex f > 63) || decide (sigValue f > 1)
  | 2 | 3 => decide (sigIndex f > 31)
  | 4 => false
  | _ => true

/-! ## Bell descriptors (Table 9.2) -/

def bdAddr (d : BitVec 128) : U64 := d.extractLsb' 0 64
def bdValid (d : BitVec 128) : Bool := bit d 71
def bdMcast (d : BitVec 128) : Bool := bit d 67
def bdExpress (d : BitVec 128) : Bool := bit d 66
def bdOp (d : BitVec 128) : BitVec 2 := d.extractLsb' 64 2

/-! ## Endpoint descriptors (Table 9.4) -/

def epGen (d : W256) : U16 := d.extractLsb' 16 16
def epArrEn (d : W256) : Bool := bit d 13
def epArrCounter (d : W256) : BitVec 5 := d.extractLsb' 8 5
def epStrict (d : W256) : Bool := bit d 4
def epRole (d : W256) : Nat := bits d 2 0
def epRing (d : W256) : Nat := bits d 56 32
def epUnits (d : W256) : Nat := bits d 80 64
def epMax (d : W256) : Nat := bits d 112 96
def epPeer (d : W256) : U64 := d.extractLsb' 128 64
def epPeerModule (d : W256) : BitVec 12 := haModule (epPeer d)
def epPeerCore (d : W256) : Fin 32 := coreOf (bits (epPeer d) 44 40)
def epPeerEp (d : W256) : BitVec 7 := BitVec.ofNat 7 (bits (epPeer d) 38 32)
def epGroup (d : W256) : Nat := bits (epPeer d) 7 0
def epIsSend (d : W256) : Bool := epRole d == 1 || epRole d == 3
def epIsRecv (d : W256) : Bool := epRole d == 2 || epRole d == 4

/-- Units of a message of LEN payload bytes (R246). -/
def msgUnits (len : Nat) : Nat := (16 + len + 255) / 256

end Sys2Proof.Machine
end

