-- ==== Sys2Proof/Machine/Launch.lean ====
section
/-!
DEFINITION. Launching on ordered paths (R235) and on class 1 (R303), and landing adds on counters (R78).
-/
namespace Sys2Proof.Machine

/-! ## Counters -/

/-- The die is inside a cycle whose completions and issue slot are still to come. -/
def State.midCycle (s : State) : Bool := s.running && s.clk.phase != .sample && s.clk.phase != .wait

/-- One more on a counter. -/
def addOne (n : BitVec 5) (k : Core) : Core := { k with counters := k.counters.set n.toFin (k.counters.get n.toFin + 1) }

/-- A landing add of 1 on counter `n` of core `c`; inside a cycle it applies after all its local writes (R78). -/
def landAdd (c : Fin 32) (n : BitVec 5) (s : State) : State :=
  s.updCore c (if s.midCycle then fun k => { k with lateAdds := k.lateAdds ++ [n] } else addOne n)

/-- The landing adds of the cycle apply. -/
def applyAdds (k : Core) : Core := k.lateAdds.foldl (fun k n => addOne n k) { k with lateAdds := [] }
def landLate (s : State) : State := { s with cores := s.cores.map applyAdds }

def ackAdd (c : BitVec 5) (a : Option (BitVec 5)) (s : State) : State :=
  match a with
  | some n => landAdd (coreOf c.toNat) n s
  | none => s

/-! ## Remote windows and class-1 items -/

/-- A remote-window entry covers `n` bytes from a hall address (R314). -/
def winCovers (w : RemoteWin) (m : BitVec 12) (space off n : Nat) : Bool :=
  w.module == m && bits w.base 51 48 == space && decide (bits w.base 47 0 ≤ off) &&
    decide (off + n ≤ bits w.base 47 0 + w.size.toNat)

/-- KEY for a remote range, from the entry that covers it (R314). -/
def remoteKey (s : State) (m : BitVec 12) (space off n : Nat) : Option U32 :=
  (s.fab.remoteWins.find? fun w => winCovers w m space off n).map (·.key)

/-- The launch queue of the ordered path of a core to a module (R303). -/
def pathQueueOf (s : State) (c : Fin 32) (dest : BitVec 12) : Nat := tget 0 s.fab.queueOf (4096 * c.val + dest.toNat)

/-- The queue on which the owner of a remote range answers a core of this module (R309, log entry 24). -/
def responseQueueOf (s : State) (c : Fin 32) (dest : BitVec 12) : Nat := tget 0 s.fab.queueOf (131072 + 4096 * c.val + dest.toNat)

/-- Cuts bytes at every 256-byte boundary of their destination address (R303). -/
def cut256 : Nat → Nat → List Byte → List (Nat × List Byte)
  | 0, _, _ => []
  | _ + 1, _, [] => []
  | fuel + 1, off, bs =>
    let n := 256 - off % 256
    (off, bs.take n) :: cut256 fuel (off + n) (bs.drop n)

/-- Where the source keeps the address of a flit or an express operation of a core to a module (R316). -/
def sentKey (c : Nat) (dest : BitVec 12) (express : Bool) (n : Nat) : Nat :=
  ((4096 * c + dest.toNat) * 2 + b2n express) * 2 ^ 24 + n % 2 ^ 24

/-- The port of the first hop to another module (R318). -/
def firstPort (s : State) (m : BitVec 12) : Option (Fin 16) :=
  let r := tget 0 s.fab.route m.toNat
  if bit r 31 && m != s.module then some (portOf (bits r 3 0)) else none

/-- Takes the next PATH_SEQ of a queue and puts a flit at its end (R303), or on the scheduled plane until it is delivered at the port's
node in cycle `at_` (R45). A flit behind one that is still on its way waits for that one. -/
def enqueueFlit (q : Nat) (at_ : Option Nat) (f : Flit) (s : State) : State :=
  let n := tget 0 s.fab.seqOut q
  let g := { f with pathSeq := BitVec.ofNat 24 n }
  let s := { s with fab := { s.fab with
      sentAt := if f.ikind = 3 then s.fab.sentAt
        else tset 0 s.fab.sentAt (sentKey f.srcCore.toNat f.dest false n) (f.space.toNat * 2 ^ 48 + f.offset.toNat)
      seqOut := tset 0 s.fab.seqOut q (n + 1) } }
  if at_.isSome ∨ s.fab.onMesh.any (fun e => e.queue == q) then
    { s with fab := { s.fab with onMesh := s.fab.onMesh ++ [⟨at_.getD 0, q, g⟩] } }
  else { s with fab := { s.fab with queues := tset [] s.fab.queues q (tget [] s.fab.queues q ++ [g]) } }

/-- The flits that have been delivered at their port by cycle `t` enter their queues, in order; with `t` none all of them. -/
def deliverFlits (t : Option Nat) : List MeshFlit → List Nat → State → State
  | [], _, s => s
  | e :: l, held, s =>
    let due := (match t with | some n => decide (e.cycle ≤ n) | none => true) && !held.contains e.queue
    if due then
      deliverFlits t l held { s with fab := { s.fab with
        onMesh := s.fab.onMesh.erase e
        queues := tset [] s.fab.queues e.queue (tget [] s.fab.queues e.queue ++ [e.flit]) } }
    else deliverFlits t l (e.queue :: held) s
def deliverMesh (t : Option Nat) (s : State) : State := deliverFlits t s.fab.onMesh [] s

/-- Delivery at a port's node of a word that core `c` launches in cycle `t` (R45); outside the cycles of the die, where nothing is launched on
the scheduled plane, there is none. -/
def deliveryAt (c : Fin 32) (port : Option (Fin 16)) (t : Nat) (s : State) : Option Nat :=
  if s.running then port.map fun p => meshDelivery t (coreX c) (coreY c) (coreX (portCore p)) (coreY (portCore p)) else none

/-- A class-1 flit of this module; EPOCH and PATH_SEQ are set at launch. -/
def c1flit (s : State) (c : BitVec 5) (dest : BitVec 12) (space off : Nat) (ikind : Nat) (last : Bool) (key : U32)
    (payload : List Byte) : Flit :=
  { fkind := 1, pathSeq := 0, offset := BitVec.ofNat 45 off, space := BitVec.ofNat 4 space
    len4 := BitVec.ofNat 7 ((payload.length + 3) / 4), src := s.module, srcCore := c, ikind := BitVec.ofNat 3 ikind
    last := last, retry := false, epoch := 0, dest := dest, key := key, c2Seq := 0, payload := payload }

/-- Cuts an item into flits and puts them into a queue, LAST on the final flit. `at_` gives the cycle in which the flit with the byte for an
address is at its port: the one of the flit's last byte counts. -/
def launchCut (q : Nat) (at_ : Nat → Option Nat) (c : BitVec 5) (dest : BitVec 12) (space ikind : Nat) (key : U32) :
    List (Nat × List Byte) → State → State
  | [], s => s
  | [p], s => enqueueFlit q (at_ (p.1 + p.2.length - 1)) (c1flit s c dest space p.1 ikind true key p.2) s
  | p :: t, s => launchCut q at_ c dest space ikind key t
      (enqueueFlit q (at_ (p.1 + p.2.length - 1)) (c1flit s c dest space p.1 ikind false key p.2) s)

/-- Launches a class-1 item of core `c` on its ordered path to a module (R235, R303). `port` is the port that its words cross the scheduled
plane to, and `read` the cycle in which the line with byte i of the item was read, and so launched to that port (R45, R46). -/
def launchItem (c : Fin 32) (dest : BitVec 12) (port : Option (Fin 16)) (read : Nat → Nat) (space off ikind : Nat) (bs : List Byte)
    (s : State) : State :=
  let key := (remoteKey s dest space off bs.length).getD 0
  launchCut (pathQueueOf s c dest) (fun a => deliveryAt c port (read (a - off)) s) (BitVec.ofNat 5 c.val) dest space ikind key
    (cut256 (bs.length + 1) off bs) s

/-- The PATH_SEQ the last launched flit of a path has, as a count from the image load. -/
def lastSeqOf (s : State) (c : Fin 32) (dest : BitVec 12) : Nat := tget 0 s.fab.seqOut (pathQueueOf s c dest) - 1

/-! ## Bell operations -/

/-- The payload of an ordered bell operation (R309); a READ carries its return address in bytes 0 to 7 and the owner's response queue in
bytes 12 and 13, as a read request does (log entry 19). -/
def bellPayload (s : State) (r : BellReq) : List Byte :=
  if r.op = 3 then
    toBytes 8 (s.module.toNat * 2 ^ 52 + 2 ^ 48 + r.srcCore.toNat * 2 ^ 40 + r.rdest) ++ [r.op.setWidth 8] ++ toBytes 2 r.cmd.toNat ++ [0] ++
      toBytes 2 (responseQueueOf s (coreOf r.srcCore.toNat) (haModule r.addr)) ++ [0, 0]
  else toBytes 8 r.operand.toNat ++ [r.op.setWidth 8] ++ toBytes 2 r.cmd.toNat ++ [0]

/-- The EXPRESS_BELL message (Table 11.6). -/
def expressMsg (r : BellReq) (seq : Nat) (key : U32) : C0Msg :=
  c0msg [(0, 1, kindExpress), (8, 1, r.srcCore.toNat + 32 * r.op.toNat), (9, 2, r.cmd.toNat), (11, 1, seq % 256),
    (12, 4, key.toNat), (16, 7, bits r.addr 51 0), (24, 8, r.operand.toNat)]

/-- An ordered bell operation leaves as one flit, under the KEY of its 8-byte word (R309, R314); its word crosses the scheduled plane to
the port when it is launched in a cycle (R46). Words that one core launches to one port in one cycle are all injected in that cycle, and
so collide (R47): DESIGN CHOICE (log entry 23). -/
def launchBellFlit (c : Fin 32) (m : BitVec 12) (r : BellReq) (s : State) : State :=
  let key := (remoteKey s m (haSpace r.addr) (haOff r.addr) 8).getD 0
  let f := c1flit s (BitVec.ofNat 5 c.val) m (haSpace r.addr) (haOff r.addr) 4 true key (bellPayload s r)
  let s' := match firstPort s m with
    | some p => if s.running then schedLaunch s.seq.cycle c (portCore p) s else s
    | none => s
  enqueueFlit (pathQueueOf s c m) (deliveryAt c (firstPort s m) s.seq.cycle s) f s'

/-- Launches one bell operation on one module (R233 to R236): the ordered path or the express path, on the die or the fabric.
An ACK of a remote express operation counts at launch; a remote ordered one waits for its ACCEPT (R234). -/
def launchBell1 (r : BellReq) (s : State) : State :=
  let c := coreOf r.srcCore.toNat
  let m := haModule r.addr
  if m = s.module then
    if r.express then s.updCore c fun k => { k with expPath := k.expPath ++ [{ r with origin := .express }] }
    else s.updCore c fun k => { k with path := k.path ++ [.bell { r with origin := .ordered }] }
  else if r.express then
    let n := tget 0 (s.core c).expSeqOut m.toNat
    let key := (remoteKey s m (haSpace r.addr) (haOff r.addr) 8).getD 0
    let s := { s.updCore c (fun k => { k with expSeqOut := tset 0 k.expSeqOut m.toNat (n + 1) }) with
      fab := { s.fab with sentAt := tset 0 s.fab.sentAt (sentKey c.val m true (n % 256)) (bits r.addr 51 0) } }
    ackAdd r.srcCore r.ack (c0send m (expressMsg r n key) s)
  else
    let s := launchBellFlit c m r s
    { s with fab := { s.fab with awaiting := s.fab.awaiting ++
      [⟨r.srcCore, m, lastSeqOf s c m, lastSeqOf s c m, if r.op = 3 then none else r.ack, none, none⟩] ++
      (if r.op = 3 then [⟨r.srcCore, m, lastSeqOf s c m, lastSeqOf s c m, r.ack, none, some r.rdest⟩] else []) } }

/-- Launches a bell operation; with MCAST once for every module of the group's module set (R234). -/
def launchBell (r : BellReq) (mcast : Bool) (s : State) : State :=
  if mcast then
    let g := tget {} s.groups (bits r.addr 63 56)
    foldS (fun m s => launchBell1 { r with addr := BitVec.ofNat 64 (m.1.toNat * 2 ^ 52 + bits r.addr 51 0) } s) g.modules s
  else launchBell1 r s

end Sys2Proof.Machine
end

