-- ==== Sys2Proof/Machine/Flags.lean ====
section
/-!
DEFINITION. Flags, counters and predicates: the compares, the waits (R70 to R75, R240) and the signals (R76 to R78, R232).
-/
namespace Sys2Proof.Machine

/-- Values a wait or a test reads: flags and counters of one core. -/
def flagOf (flags : U64) (i : Nat) : Nat := b2n (bit flags i)
def counterOf (cs : Vector U16 32) (i : Nat) : Nat := (cs.get (coreOf i)).toNat

/-- A wait field's compare (Table 3.4). -/
def waitCmp (eq : Bool) (v thresh : Nat) : Bool := if eq then decide (v = thresh) else decide (v ≥ thresh)

/-- TEST_SYNC's compare: 0 ≥, 1 =, 2 <, 3 ≠ (R82). -/
def testCmp (code v x : Nat) : Bool :=
  match code with
  | 0 => decide (v ≥ x)
  | 1 => decide (v = x)
  | 2 => decide (v < x)
  | _ => decide (v ≠ x)

/-- A buoy is satisfied: its copy is valid and compares true, unsigned (R239). -/
def Buoy.satisfied (b : Buoy) : Bool :=
  b.armed && b.valid && (if b.cmpEq then decide (b.copy = b.value) else decide (b.copy.toNat ≥ b.value.toNat))

/-- A wait field of core `c` passes now (R75, R240). -/
def waitPasses (k : Core) (f : U32) : Bool :=
  match waitKind f with
  | 0 => true
  | 1 => waitCmp (waitEq f) (flagOf k.flags (waitIndex f)) (waitThresh f)
  | 2 => waitCmp (waitEq f) (counterOf k.counters (waitIndex f)) (waitThresh f)
  | _ => (k.buoy (BitVec.ofNat 6 (waitIndex f))).satisfied

/-- The predicate skips the command (R80). -/
def skips (k : Core) (w : CmdWords) : Bool :=
  if pselOf w = 31 then false else (bit k.preds (pselOf w)) == psenseOf w

/-- A predicate write of an engine's completion (R168). -/
def writePred (c : Fin 32) (i : Nat) (v : Bool) (s : State) : State :=
  s.updCore c fun k => { k with preds := setBit k.preds (i % 16) v, predLate := setBit k.predLate (i % 16) true }

/-- The predicate writes of an issue-unit command come before those of this cycle's completions, which win (R168). -/
def issuePreds (c : Fin 32) (mask value : U16) (s : State) : State :=
  s.updCore c fun k =>
    let m := mask &&& ~~~k.predLate
    { k with preds := (k.preds &&& ~~~m) ||| (value &&& m) }

/-- The bell operation of a BELL signal: descriptor INDEX with VALUE as operand (R232). -/
def bellOfSignal (s : State) (c : Fin 32) (idx : Nat) (f : U32) : BellReq × Bool :=
  let d := tget 0 (s.core c).bellDescs (sigIndex f)
  ({ op := bdOp d, addr := bdAddr d, operand := BitVec.ofNat 64 (sigValue f), express := bdExpress d,
     srcModule := s.module, srcCore := BitVec.ofNat 5 c.val, cmd := BitVec.ofNat 13 idx }, bdMcast d)

/-- One signal field of a command of core `c` fires (R77). -/
def fireSignal (c : Fin 32) (idx : Nat) (f : U32) (s : State) : State :=
  match sigOp f with
  | 1 => s.updCore c fun k => { k with flags := setBit k.flags (sigIndex f % 64) (bit f 0) }
  | 2 => s.updCore c fun k =>
      { k with counters := k.counters.set (sigIndex f % 32) (k.counters.get (coreOf (sigIndex f)) + BitVec.ofNat 16 (sigValue f)) }
  | 3 => s.updCore c fun k => { k with counters := k.counters.set (sigIndex f % 32) (BitVec.ofNat 16 (sigValue f)) }
  | 4 => let b := bellOfSignal s c idx f
         launchBell b.1 b.2 s
  | _ => s

/-- Both signals of a command, SIG0 before SIG1 (R78); `sigs` is word 0 bits [191:128]. -/
def fireSignals (c : Fin 32) (idx : Nat) (sigs : U64) (s : State) : State :=
  fireSignal c idx (sigs.extractLsb' 32 32) (fireSignal c idx (sigs.extractLsb' 0 32) s)

end Sys2Proof.Machine
end

