-- ==== Sys2Proof/Machine/Bells.lean ====
section
/-!
DEFINITION. Bell words, their home units, and buoys (R228 to R243, R256).
-/
namespace Sys2Proof.Machine

/-- A bell word of this module: 8-byte aligned, in space 0, 1 or 4, at a place that exists (R228). -/
def bellWordHere (s : State) (a : U64) : Bool :=
  haModule a == s.module && decide (haOff a % 8 = 0) && (haSpace a == 0 || haSpace a == 1 || haSpace a == 4) &&
    mapped s (haSpace a) (haOff a) 8

/-- The place of a bell word, the same for its two names in stack memory (R266). -/
def bellPlace (s : State) (a : U64) : Place := placeOf s (haSpace a) (haOff a)

/-- The core of a word's home bell unit (R229). -/
def homeCore (s : State) (a : U64) : Fin 32 :=
  match bellPlace s a with
  | .spad c _ => c
  | .dram d => stackCore (stackOfAddr d)
  | _ => 0

/-- The new value of an operation (Table 9.1). -/
def bellNew (op : BitVec 2) (old x : U64) : U64 :=
  match op.toNat with
  | 0 => old + x
  | 1 => x
  | 2 => if old.toNat ≥ x.toNat then old else x
  | _ => old

/-- One operation reaches one buoy: its copy, or the values behind the one that is returning (R239), and the last signaller. -/
def buoySee (r : BellReq) (new : U64) (t : U64) (b : Buoy) : Buoy :=
  let b := match b.reg with
    | .idle => if b.valid then { b with copy := new } else b
    | .registering | .reading => b
    | .returning v later => { b with reg := .returning v (later ++ [new]) }
  if r.op = 3 then b
  else { b with lastTime := t, lastModule := r.srcModule, lastCore := r.srcCore, lastCmd := r.cmd }

/-- Every armed buoy of the die that watches the word sees the operation in the same cycle (R239, R243). -/
def updateBuoys (r : BellReq) (new : U64) (s : State) : State :=
  let pl := bellPlace s r.addr
  { s with cores := s.cores.map fun k =>
      { k with buoys := k.buoys.map fun e =>
        if e.2.armed && decide (bellPlace s e.2.addr = pl) then (e.1, buoySee r new s.time.hallTime e.2) else e } }

/-- The home unit's log and its rate count (R256, Table 9.10). -/
def logBell (home : Fin 32) (r : BellReq) (new : U64) (s : State) : State :=
  s.updCore home fun k =>
    let k := { k with bellTimes := (k.bellTimes.filter fun t => decide (s.now < t.toNat + 1000)) ++ [s.time.hallTime] }
    if r.op = 3 then k
    else { k with
      bellLog := ringPush 64 k.bellLog ⟨r.addr, new, s.time.hallTime, r.srcModule, r.srcCore, r.op, r.express, r.cmd⟩
      bellTotal := k.bellTotal + 1 }

/-- An ACCEPT for the items of a path up to number `n` (R309). -/
def acceptMsg (dest : BitVec 12) (core : BitVec 5) (n : Nat) (s : State) : State :=
  c0send dest (c0msg [(0, 1, kindAccept), (8, 1, core.toNat), (12, 3, n % 2 ^ 24)]) s

/-- Returns a READ's value (R234): on the die to RDEST, to another module as a read response (log entry 19). -/
def returnRead (r : BellReq) (v : U64) (s : State) : State :=
  if r.srcModule = s.module then
    s.updCore (coreOf r.srcCore.toNat) fun k => { k with
      readValues := k.readValues ++ [⟨k.readNo, r.rdest, v, r.ack, none⟩], readNo := k.readNo + 1 }
  else
    launchCut r.respQueue (fun _ => none) r.srcCore r.srcModule 1 3 0
      [(r.srcCore.toNat * 2 ^ 40 + r.rdest, toBytes 8 v.toNat)] s

/-- What the path of an applied operation does next: its front item is done, or the item of the fabric is accepted (R234, R235, R309). -/
def bellPassed (r : BellReq) (s : State) : State :=
  let src := coreOf r.srcCore.toNat
  match r.origin with
  | .ordered => s.updCore src fun k => { k with path := k.path.drop 1, pathNeed := none }
  | .express => s.updCore src fun k => { k with expPath := k.expPath.drop 1, expBusy := false }
  | .item key n => acceptMsg r.srcModule r.srcCore n (s.updPath key fun p => { p with busy := false })
  | .expressIn key => { s with fab := { s.fab with expBusy := s.fab.expBusy.filter fun x => x != key } }
  | _ => s

/-- The home unit has applied an operation to a word whose value was `old` (R229, R230): buoys, log, and what returns to the sender. The
registration of a buoy takes the value, in a cycle in which the unit applies nothing (R239). -/
def bellApplied (r : BellReq) (old : U64) (s : State) : State :=
  match r.origin with
  | .buoy c b =>
    let s := s.updCore (homeCore s r.addr) fun k => { k with regAt := some (s.time.hallTime, s.seq.cycle) }
    s.updCore c fun k => k.updBuoy b fun x => if x.reg = .reading ∧ x.addr = r.addr then { x with reg := .returning old [] } else x
  | _ =>
    let home := homeCore s r.addr
    let new := bellNew r.op old r.operand
    let s := s.updCore home fun k => { k with bellAt := some (s.time.hallTime, s.seq.cycle) }
    let s := bellPassed r (logBell home r new (updateBuoys r new s))
    if r.op = 3 then returnRead r old s
    else if r.srcModule = s.module then ackAdd r.srcCore r.ack s else s

/-- The operation only reads its word. -/
def BellReq.reads (r : BellReq) : Bool := r.op == 3

/-- The registration of a buoy, which applies nothing. -/
def BellReq.registers (r : BellReq) : Bool := match r.origin with | .buoy _ _ => true | _ => false

/-- The home unit cannot take this operation in this cycle: it has applied one already, or it has taken a registration (R229, R239). -/
def State.bellTaken (s : State) (r : BellReq) : Bool :=
  let k := s.core (homeCore s r.addr)
  k.bellAt == some (s.time.hallTime, s.seq.cycle) || (!r.registers && k.regAt == some (s.time.hallTime, s.seq.cycle))

/-- An operation reaches its home unit: a fill access of port 14 at the word's bank, or a request to the word's stack controller (R229). -/
def bellArrive (r : BellReq) (s : State) : State :=
  match bellPlace s r.addr with
  | .spad c a => fillAdd c { port := 14, addr := a, op := .bell r none, tag := .none } s
  | .dram a => s.updStack (stackOfAddr a) fun k => { k with meshq := k.meshq ++
      [{ addr := a, len := 8, write := none, bell := some r, requester := BitVec.ofNat 3 rqBell, tag := .none
         src := (stackCore (stackOfAddr a)).val }] }
  | _ => s

/-- The operation at the front of a core's ordered path on this die, or of its express path, that has not reached its home unit. -/
def Core.nextBell (k : Core) (op : BitVec 2) (express : Bool) : Option BellReq :=
  if express then
    match k.expPath with | e :: _ => if e.op = op ∧ ¬ k.expBusy then some e else none | [] => none
  else
    match k.path with | .bell r :: _ => if r.op = op ∧ k.pathNeed = none then some r else none | _ => none

/-- The next operation of source core `src` on one of its two paths, if it has this code, reaches its home unit. The later ones of the path
wait until it is applied (R235, R236). -/
def bellRow (op : BitVec 2) (src : Fin 32) (express : Bool) (s : State) : State :=
  match (s.core src).nextBell op express with
  | some r => bellArrive r (s.updCore src fun k => if express then { k with expBusy := true } else { k with pathNeed := some 8 })
  | none => s

/-- ADD (Table 9.1). -/
def execBellAdd (src : BellPath) (s : State) : Host.Outcome State Fault Refusal := .next (bellRow 0 src.core src.express s)
/-- SET (Table 9.1). -/
def execBellSet (src : BellPath) (s : State) : Host.Outcome State Fault Refusal := .next (bellRow 1 src.core src.express s)
/-- MAX (Table 9.1). -/
def execBellMax (src : BellPath) (s : State) : Host.Outcome State Fault Refusal := .next (bellRow 2 src.core src.express s)
/-- READ (Table 9.1): it travels on the ordered path. -/
def execBellRead (src : Fin 32) (s : State) : Host.Outcome State Fault Refusal := .next (bellRow 3 src false s)

/-- READ_VALUE_LANDING (R234): the oldest returned value reaches the scratchpad, as a fill write of port 14 at RDEST; once that is written it
has landed and ACK_COUNTER gains 1. -/
def execReadValueLanding (core : Fin 32) (s : State) : Host.Outcome State Fault Refusal :=
  .next <|
    let l := (s.core core).readValues
    match l.find? fun v => v.need == some 0 with
    | some v =>
      ackAdd (BitVec.ofNat 5 core.val) v.ack (s.updCore core fun k => { k with readValues := l.erase v })
    | none =>
      match l.find? fun v => v.need == none with
      | some v =>
        fillAsk core 14 v.rdest (toBytes 8 v.value.toNat) (.readValue core v.id)
          (s.updCore core fun k => { k with readValues := l.map fun x => if x = v then { v with need := some 8 } else x })
      | none => s

/-- BUOY_REGISTRATION (R239): the registration of a buoy reaches the home unit of its word, which takes it between two operations. -/
def execBuoyRegistration (core : Fin 32) (buoy : BitVec 6) (s : State) : Host.Outcome State Fault Refusal :=
  .next <|
    let b := (s.core core).buoy buoy
    if b.armed ∧ b.reg = .registering then
      bellArrive
        { op := 3, addr := b.addr, operand := 0, express := false, srcModule := s.module, srcCore := BitVec.ofNat 5 core.val, cmd := 0
          origin := .buoy core buoy }
        (s.updCore core fun k => k.updBuoy buoy fun b => { b with reg := .reading })
    else s

/-- BUOY_VALUE_ARRIVAL (R239): the copy becomes valid, with every later operation after the registered value. -/
def execBuoyValueArrival (core : Fin 32) (buoy : BitVec 6) (s : State) : Host.Outcome State Fault Refusal :=
  .next <|
    match ((s.core core).buoy buoy).reg with
    | .returning v later => s.updCore core fun k => k.updBuoy buoy fun b =>
        { b with copy := later.getLastD v, valid := true, reg := .idle }
    | _ => s

/-! ## The bell unit's commands (their issue effects) -/

/-- Arms a buoy: registration starts, the copy is invalid (R238, R239). -/
def armBuoy (cmpEq : Bool) (addr value : U64) (cycle : Nat) (_b : Buoy) : Buoy :=
  { armed := true, cmpEq := cmpEq, addr := addr, value := value, reg := .registering, armedAt := cycle }

/-- BELL_OP's operation, its address from the command or the descriptor (Table 9.3). -/
def bellOpReq (s : State) (c : Fin 32) (idx : Nat) (w : CmdWords) : BellReq × Bool :=
  let a := opA w
  let d := tget 0 (s.core c).bellDescs (bits a 47 40)
  let useDesc := bit a 59
  ({ op := a.extractLsb' 62 2
     addr := if useDesc then bdAddr d else w.w1.extractLsb' 0 64
     operand := w.w1.extractLsb' 64 64
     express := if useDesc then bdExpress d else bit a 61
     srcModule := s.module, srcCore := BitVec.ofNat 5 c.val, cmd := BitVec.ofNat 13 idx
     ack := if bit a 58 then some (a.extractLsb' 48 5) else none
     rdest := bits a 24 0 }, if useDesc then bdMcast d else bit a 60)

/-- BELL_OP: the operation is launched in the issue cycle (R234). -/
def effBellOp (c : Fin 32) (e : LookEntry) (s : State) : State :=
  let b := bellOpReq s c e.idx e.words
  launchBell b.1 b.2 s

/-- BUOY_ARM (R238). -/
def effBuoyArm (c : Fin 32) (e : LookEntry) (s : State) : State :=
  let a := opA e.words
  s.updCore c fun k => k.updBuoy (a.extractLsb' 0 6)
    (armBuoy (bit a 8) (e.words.w1.extractLsb' 0 64) (e.words.w1.extractLsb' 64 64) s.seq.cycle)

/-- BUOY_DISARM (R238): a disarmed buoy stays as it is; its record keeps the last signaller. -/
def effBuoyDisarm (c : Fin 32) (e : LookEntry) (s : State) : State :=
  s.updCore c fun k => k.updBuoy ((opA e.words).extractLsb' 0 6) fun b =>
    if b.armed then { b with armed := false, valid := false, reg := .idle } else b

/-- The compare of BELL_TEST, unsigned (R241, Table 6.3). -/
def bellCmp (code : Nat) (a b : U64) : Bool :=
  match code with
  | 0 => decide (a = b)
  | 1 => decide (a ≠ b)
  | 2 => decide (a.toNat < b.toNat)
  | 3 => decide (a.toNat ≤ b.toNat)
  | 4 => decide (a.toNat > b.toNat)
  | 5 => decide (a.toNat ≥ b.toNat)
  | _ => false

/-- BELL_TEST (R241): the copy at the start of the issue cycle; the result goes to the predicate at the end of it. -/
def effBellTest (c : Fin 32) (e : LookEntry) (s : State) : State :=
  let a := opA e.words
  let b := tget {} (s.core c).buoys0 (bits a 5 0)
  writePred c (bits a 19 16) (bellCmp (bits a 10 8) b.copy (e.words.w1.extractLsb' 0 64)) s

end Sys2Proof.Machine
end

