-- ==== Sys2Proof/Machine/Channels.lean ====
section
/-!
DEFINITION. Channels: rings, credits, drops, multicast groups and migration (R244 to R255).
-/
namespace Sys2Proof.Machine

/-! ## Ring and message format (R246, Table 9.5) -/

/-- The 16-byte ring header. -/
def ringHeader (kind : Nat) (gen : U16) (len : Nat) (seq : U32) (m : BitVec 12) (core : BitVec 5) (ep : BitVec 7) : List Byte :=
  [BitVec.ofNat 8 kind, 0] ++ toBytes 2 gen.toNat ++ toBytes 4 len ++ toBytes 4 seq.toNat ++ toBytes 2 m.toNat ++
    [core.setWidth 8, ep.setWidth 8]

/-- Units a send needs: the message, or the ring's tail and the message (R247). -/
def sendNeed (e : Endpoint) (len : Nat) : Nat :=
  let u := msgUnits len
  let tail := epUnits e.desc - e.wp
  if tail ≥ u then u else tail + u

/-! ## Credits at the sender -/

/-- Counts the messages whose units the returns cover (CH_EP_LANDED of a send endpoint). -/
def confirm : List Nat → Nat → U32 → List Nat × Nat × U32
  | [], r, n => ([], r, n)
  | d :: t, r, n => if d ≤ r then confirm t (r - d) (n + 1) else (d :: t, r, n)

/-- Units come back to a send endpoint (R250, R255). -/
def addCredits (u : Nat) (e : Endpoint) : Endpoint :=
  let (d, r, n) := confirm e.deducted (e.returned + u) e.landedCount
  { e with credits := e.credits + u, deducted := d, returned := r, landedCount := n }

/-- The child ports of a group (R251). -/
def MGroup.childPorts (g : MGroup) : List (Fin 16) := allPorts.filter fun p => bit g.ports p.val

/-- The module behind a child port of a group, and the core by which it is addressed (R251). -/
def childAt (s : State) (g : MGroup) (p : Fin 16) : BitVec 12 × BitVec 5 :=
  let m := (s.port p).peerModule
  (m, ((g.modules.find? fun x => x.1 == m).map fun x => x.2).getD 0)

def childModules (s : State) (g : MGroup) : List (BitVec 12 × BitVec 5) := g.childPorts.map (childAt s g)

/-- The ports by which the lines of a send leave the module: the child ports of its group, or the first port to its peer (R251, R318). -/
def sendPorts (s : State) (d : W256) : List (Fin 16) :=
  if epRole d = 3 then (tget {} s.groups (epGroup d)).childPorts else (firstPort s (epPeerModule d)).toList

/-- The keys of a group's receivers and child modules in a root's credit table. -/
def memberKeys (s : State) (g : MGroup) : List Nat :=
  g.members.map (fun m => 128 * m.1.val + m.2.toNat) ++ (childModules s g).map fun m => 4096 + m.1.toNat

/-- A multicast sender's credits are the smallest of its receivers' credits: the rise of the least total is taken (R251). -/
def refreshMcast (s : State) (e : Endpoint) : Endpoint :=
  let g := tget {} s.groups (epGroup e.desc)
  let least := minOf ((memberKeys s g).map (tget 0 e.memberCum))
  let rise := least - e.cumIn.toNat
  addCredits rise { e with cumIn := e.cumIn + BitVec.ofNat 32 rise }

/-- `units` more come back from receiver `member`. -/
def creditBack (c : Fin 32) (ep : BitVec 7) (member units : Nat) (s : State) : State :=
  s.updCore c fun k => k.updEp ep fun e =>
    if epRole e.desc = 3 then
      refreshMcast s { e with memberCum := tset 0 e.memberCum member (tget 0 e.memberCum member + units) }
    else addCredits units e

/-- A drop return reaches the sender (R255): STRICT halts the die, otherwise the credits come back and the drop is counted;
a closed peer is logged once in each leg. -/
def takeDrop (c : Fin 32) (ep : BitVec 7) (member units : Nat) (reason : BitVec 2) (seq : U32) (receiver : BitVec 12) (s : State) : State :=
  let e := (s.core c).ep ep
  if epStrict e.desc then
    raiseHalt ⟨hcDropStrict, some c, 9, none,
      BitVec.ofNat 64 (ep.toNat + 256 * c.val + 65536 * reason.toNat + 2 ^ 32 * seq.toNat), receiver.setWidth 64⟩ s
  else
    let s := creditBack c ep member units s
    if reason = 1 then s.updCore c fun k => k.updEp ep fun e => { e with dropGen := satInc e.dropGen }
    else
      let s := s.updCore c fun k => k.updEp ep fun e =>
        { e with dropClosed := satInc e.dropClosed, closedPeer := true, cpLogged := true }
      if e.cpLogged then s else logErr errClosedPeer (some c) (ep.setWidth 64) (receiver.setWidth 64) s

/-! ## Credit and drop returns from the receiver -/

/-- Where the credits of a receive endpoint go: its sender, or the parent of its group; module, core and endpoint (R251, Table 9.4). -/
def senderOf (s : State) (d : W256) : BitVec 12 × Fin 32 × BitVec 7 :=
  if epRole d = 4 then
    let g := tget {} s.groups (epGroup d)
    ((g.parentPort.map fun p => (s.port p).peerModule).getD s.module, g.parentCore, g.parentEp)
  else (epPeerModule d, epPeerCore d, epPeerEp d)

/-- A CREDIT message (Table 11.6). -/
def creditMsgOf (core : Fin 32) (ep : BitVec 7) (gen : U16) (cum : U32) : C0Msg :=
  c0msg [(0, 1, kindCredit), (8, 1, core.val), (9, 1, ep.toNat), (10, 2, gen.toNat), (12, 4, cum.toNat)]

/-- A CREDIT_DROP message (Table 11.6). -/
def dropMsgOf (core : BitVec 5) (ep : BitVec 7) (gen : U16) (reason : BitVec 2) (units : Nat) (seq : U32) : C0Msg :=
  c0msg [(0, 1, kindCreditDrop), (8, 1, core.toNat), (9, 1, ep.toNat), (10, 2, gen.toNat), (12, 1, reason.toNat),
    (16, 4, units), (20, 4, seq.toNat)]

/-- A module below a multicast root sends the rise of the least total of its receivers and children to its parent (R251). -/
def forwardCredit (gi : Nat) (gen : U16) (s : State) : State :=
  let g := tget {} s.groups gi
  let least := minOf (g.members.map (fun x => ((s.core x.1).ep x.2).released.toNat) ++
    (childModules s g).map fun m => tget 0 g.childIn m.1.toNat)
  match g.parentPort with
  | some p =>
    if least > g.sentUp then
      c0send (s.port p).peerModule (creditMsgOf g.parentCore g.parentEp gen (BitVec.ofNat 32 least))
        { s with groups := tset {} s.groups gi { g with sentUp := least } }
    else s
  | none => s

/-- A credit return starts at the receiver (R250): on the die to the sender's endpoint, else on class 0 as a total. -/
def returnCredit (c : Fin 32) (ep : BitVec 7) (units : Nat) (s : State) : State :=
  let e := (s.core c).ep ep
  let (m, sc, se) := senderOf s e.desc
  if m = s.module then
    s.updCore sc fun k => k.updEp se fun x =>
      { x with creditsIn := x.creditsIn ++ [⟨128 * c.val + ep.toNat, units, epGen e.desc, 0, 0, s.module⟩] }
  else if epRole e.desc = 4 then forwardCredit (epGroup e.desc) (epGen e.desc) s
  else c0send m (creditMsgOf sc se (epGen e.desc) e.released) s

/-- A dropped message's units go back with the reason (R255). -/
def returnDrop (c : Fin 32) (ep : BitVec 7) (m : ChMsg) (reason : BitVec 2) (s : State) : State :=
  let s := s.updCore c fun k => k.updEp ep fun e =>
    if reason = 1 then { e with dropGen := satInc e.dropGen } else { e with dropClosed := satInc e.dropClosed }
  if m.module = s.module then
    s.updCore (coreOf m.srcCore.toNat) fun k => k.updEp m.srcEp fun x =>
      { x with creditsIn := x.creditsIn ++ [⟨128 * c.val + ep.toNat, m.need, m.routeGen, reason, m.seq, s.module⟩] }
  else c0send m.module (dropMsgOf m.srcCore m.srcEp m.routeGen reason m.need m.seq) s

/-! ## Landing (R249, R252, R254) -/

/-- Why an endpoint drops a message: 0 takes it, 1 old generation, 2 closed, unused or of another role. -/
def dropReason (e : Endpoint) (gen : U16) : BitVec 2 :=
  if ¬ (e.open_ ∧ epIsRecv e.desc) then 2 else if epGen e.desc ≠ gen then 1 else 0

/-- The message is landed: it joins the unreleased list, and ARR_COUNTER gains 1 with ARR_EN (R249). -/
def markLanded (c : Fin 32) (ep : BitVec 7) (seq : U32) (start units need : Nat) (s : State) : State :=
  let d := ((s.core c).ep ep).desc
  let s := s.updCore c fun k => k.updEp ep fun e => { e with
    landed := e.landed ++ [⟨seq, start, need, (start + units) % (max 1 (epUnits d))⟩], landedCount := e.landedCount + 1 }
  if epArrEn d then landAdd c (epArrCounter d) s else s

/-- The skip marker before a message: its ring unit and its header (R246). -/
def skipMarker (m : ChMsg) : Option (Nat × List Byte) :=
  m.skipAt.map fun w => (w, ringHeader 2 m.routeGen (256 * (m.ring - w)) m.seq m.module m.srcCore m.srcEp)

/-- The front item of a core's ordered path is done. -/
def popPath (src : Fin 32) (s : State) : State := s.updCore src fun k => { k with path := k.path.drop 1, pathNeed := none }

/-- A message of this die reaches its ring: its bytes and its marker wait for their banks on port 14, or it is dropped (R249, R255). -/
def messageArrive (src c : Fin 32) (ep : BitVec 7) (m : ChMsg) (s : State) : State :=
  let e := (s.core c).ep ep
  let r := dropReason e m.routeGen
  if r ≠ 0 then returnDrop c ep m r (popPath src s)
  else
    let base := epRing e.desc
    let mark := ((skipMarker m).map fun x => x.2).getD []
    fillAsk c 14 (base + 256 * m.at_) m.bytes (.message src)
      (fillAsk c 14 (base + 256 * m.skipAt.getD 0) mark (.message src)
        (s.updCore src fun k => { k with pathNeed := some (mark.length + m.bytes.length) }))

/-- Whether the front item of a core's ordered path is a message for an endpoint of this die. -/
def headMessage (k : Core) (c : Fin 32) (ep : BitVec 7) : Option ChMsg :=
  match k.path with
  | .message m :: _ => if m.core.toNat = c.val ∧ m.ep = ep then some m else none
  | _ => none

/-- Whether the front message of a core for an endpoint stands at its ring with this many bytes left, or (none) has not reached it. -/
def messageAt (need : Option Nat) (c : Fin 32) (ep : BitVec 7) (k : Core) : Bool := (headMessage k c ep).isSome && k.pathNeed == need

/-- CHANNEL_MESSAGE_LANDED (R249): the message at the front of its sender's ordered path reaches the ring; when every byte of it and of its
marker is written, it is landed, unless its endpoint is now closed or of another generation (R252, R253). -/
def execChannelMessageLanded (core : Fin 32) (ep : BitVec 7) (s : State) : Host.Outcome State Fault Refusal :=
  .next <|
    match (allCores.find? fun c => messageAt (some 0) core ep (s.core c)) <|> allCores.find? fun c => messageAt none core ep (s.core c) with
    | some src =>
      match headMessage (s.core src) core ep with
      | some m =>
        if (s.core src).pathNeed = none then messageArrive src core ep m s
        else
          let r := dropReason ((s.core core).ep ep) m.routeGen
          if r = 0 then markLanded core ep m.seq m.at_ m.units m.need (popPath src s) else returnDrop core ep m r (popPath src s)
      | none => s
    | none => s

/-- CREDIT_RETURN_ARRIVAL (R250, R252, R255): the oldest return on the die reaches the send endpoint. -/
def execCreditReturnArrival (core : Fin 32) (ep : BitVec 7) (s : State) : Host.Outcome State Fault Refusal :=
  .next <|
    let e := (s.core core).ep ep
    match e.creditsIn with
    | r :: t =>
      let s := s.updCore core fun k => k.updEp ep fun e => { e with creditsIn := t }
      if r.routeGen ≠ epGen e.desc then s
      else if r.reason = 0 then creditBack core ep r.member r.units s
      else takeDrop core ep r.member r.units r.reason r.seq r.receiver s
    | [] => s

/-! ## The endpoint unit's commands -/

/-- The message a CH_SEND places (R246, R248): its header and the payload come with the source reads. -/
def placeMessage (s : State) (c : Fin 32) (ep : BitVec 7) (len : Nat) : ChMsg :=
  let e := (s.core c).ep ep
  let u := msgUnits len
  let fits := decide (epUnits e.desc - e.wp ≥ u)
  { module := s.module
    core := BitVec.ofNat 5 (epPeerCore e.desc).val, ep := epPeerEp e.desc
    routeGen := epGen e.desc, seq := e.seq, units := u, need := sendNeed e len, ring := epUnits e.desc
    at_ := if fits then e.wp else 0, skipAt := if fits then none else some e.wp
    srcCore := BitVec.ofNat 5 c.val, srcEp := ep
    bytes := ringHeader 1 (epGen e.desc) len e.seq s.module (BitVec.ofNat 5 c.val) ep }

/-- CH_SEND (R248): credits are deducted and the placement is set in the issue cycle; the source reads follow. -/
def effChSend (c : Fin 32) (e : LookEntry) (s : State) : State :=
  let a := opA e.words
  let ep : BitVec 7 := a.extractLsb' 0 7
  let len := bits a 31 8
  let m := placeMessage s c ep len
  s.updCore c fun k =>
    let k := k.updEp ep fun x => { x with
      credits := x.credits - m.need, deducted := x.deducted ++ [m.need], seq := x.seq + 1, sent := x.sent + 1
      wp := if m.skipAt.isSome then m.units % (max 1 m.ring) else (x.wp + m.units) % (max 1 m.ring) }
    { k with sends := k.sends ++ [⟨e.idx, e.issue, ep, bits e.words.w1 24 0, len, false, sigsOf e.words, some m, []⟩] }

/-- The last read cycle of a CH_SEND: its lines are read from cycle c + 2, one per cycle (R248). -/
def sendLines (src len : Nat) : Nat := (src + len - 1) / 256 - src / 256 + 1
def SendRec.lastRead (r : SendRec) : Nat := r.issue + 1 + sendLines r.src r.len

/-- The cycle in which the line with byte i of a sent message was read; the header comes with the first line. -/
def SendRec.readOf (r : SendRec) (i : Nat) : Nat := r.issue + 2 + ((r.src + (i - 16)) / 256 - r.src / 256)

/-- Launches a message on its sender's ordered path, once for every receiver on the die and every child module of a group (R235, R251). -/
def launchMessage (c : Fin 32) (role group : Nat) (peer : BitVec 12) (m : ChMsg) (ringBase : Nat) (read : Nat → Nat) (s : State) : State :=
  let remote := fun (dm : BitVec 12) (p : Option (Fin 16)) (dc : Nat) (s : State) =>
    let base := dc * 2 ^ 40 + ringBase
    let s := match skipMarker m with
      | some x => launchItem c dm p (fun _ => read 0) 1 (base + 256 * x.1) 5 x.2 s
      | none => s
    launchItem c dm p read 1 (base + 256 * m.at_) 5 m.bytes s
  let here := fun (rc : BitVec 5) (re : BitVec 7) (s : State) =>
    s.updCore c fun k => { k with path := k.path ++ [.message { m with core := rc, ep := re }] }
  if role = 3 then
    let g := tget {} s.groups group
    let s := foldS (fun x s => here (BitVec.ofNat 5 x.1.val) x.2 s) g.members s
    foldS (fun p s => remote (childAt s g p).1 (some p) (childAt s g p).2.toNat s) g.childPorts s
  else if peer = s.module then here m.core m.ep s
  else remote peer (firstPort s peer) m.core.toNat s

/-- CH_SEND_COMPLETE (R248): the last source read passes; the message is launched, then the signals fire (R235). -/
def execChSendComplete (core : Fin 32) (s : State) : Host.Outcome State Fault Refusal :=
  .next <|
    match (s.core core).sends.find? fun r => !r.skipped && decide (r.lastRead ≤ s.seq.cycle) with
    | some r =>
      let d := ((s.core core).ep r.ep).desc
      let s := s.updCore core fun k => { k with sends := k.sends.erase r }
      let s := match r.msg with
        | some m =>
          launchMessage core (epRole d) (epGroup d) (epPeerModule d)
            { m with bytes := m.bytes ++ mreads r.buf r.src r.len } (epRing d) r.readOf s
        | none => s
      fireSignals core r.idx r.sig s
    | none => s

/-- CH_RELEASE (R250): RP passes the messages and their markers; one credit return of the units freed is launched. -/
def effChRelease (c : Fin 32) (e : LookEntry) (s : State) : State :=
  let a := opA e.words
  let ep : BitVec 7 := a.extractLsb' 0 7
  let n := bits a 23 8
  let x := (s.core c).ep ep
  let gone := x.landed.take n
  let units := gone.foldl (fun u l => u + l.units) 0
  let s := s.updCore c fun k => k.updEp ep fun x => { x with
    landed := x.landed.drop n
    rp := match gone.getLast? with | some l => l.after | none => x.rp
    released := x.released + BitVec.ofNat 32 units }
  returnCredit c ep units s

/-- CH_CLOSE (R254). -/
def effChClose (c : Fin 32) (e : LookEntry) (s : State) : State :=
  s.updCore c fun k => k.updEp ((opA e.words).extractLsb' 0 7) fun x => { x with open_ := false }

/-- An endpoint as its descriptor sets it (R257). -/
def freshEp (d : W256) : Endpoint :=
  { desc := d, open_ := epRole d != 0, credits := if epIsSend d then epUnits d else 0 }

/-- A staged migration takes effect (R253): pointers, credits and the landed list start anew; counters stay. -/
def migrateEp (e : Endpoint) : Endpoint :=
  match e.staged with
  | some d => { freshEp d with
      seq := e.seq, sent := e.sent, landedCount := e.landedCount, stall := e.stall, dropGen := e.dropGen
      dropClosed := e.dropClosed, creditsIn := e.creditsIn, dropsTaken := e.dropsTaken, closedPeer := e.closedPeer }
  | none => e

/-- The credits of a group start anew with a migration of its receivers (R253). -/
def groupsAtLeg (s : State) : State :=
  { s with groups := s.groups.map fun g =>
    if g.2.members.any fun m => ((s.core m.1).ep m.2).staged.isSome then (g.1, { g.2 with sentUp := 0, childIn := [] }) else g }

/-- A message has as many flits as units; a marker has one (R246, R303). -/
def msgFlits (m : MsgIn) : Nat := if m.len = 0 then 1 else msgUnits m.len

/-- Cycle 0 of a leg at the endpoints: migrations, and a new leg for the CLOSED_PEER entries (R253, R255). -/
def epsAtLeg (k : Core) : Core :=
  { k with eps := (k.eps.map fun e => (e.1, { migrateEp e.2 with cpLogged := false })).filter fun e => decide (e.2 ≠ {}) }

end Sys2Proof.Machine
end

