-- ==== Sys2Proof/Machine/Streams.lean ====
section
/-!
DEFINITION. Scratchpad fill accesses, streams and the turn engine (R196 to R226).
-/
namespace Sys2Proof.Machine

/-! ## Descriptors (Tables 8.2 to 8.5) -/

def sdKind (d : BitVec 512) : Nat := bits d 2 0
def sdDepth (d : BitVec 512) : Nat := bits d 11 8 + 1
def sdArray (d : BitVec 512) : Nat := bits d 18 18
def sdPersist (d : BitVec 512) : Bool := bit d 19
def sdAck (d : BitVec 512) : Option (BitVec 5) := if bit d 20 then some (d.extractLsb' 21 5) else none
def sdListLen (d : BitVec 512) : Nat := bits d 63 32
def sdListBase (d : BitVec 512) : Nat := bits d 127 64
def sdRun (d : BitVec 512) : Nat := bits d 63 32
def sdStrided (d : BitVec 512) : Bool := decide (3 ≤ sdKind d)
def sdHallBase (d : BitVec 512) : U64 := if sdStrided d then d.extractLsb' 64 64 else d.extractLsb' 128 64
def sdHallSpan (d : BitVec 512) : Nat := if sdStrided d then bits d 191 128 else bits d 255 192
def sdSpBase (d : BitVec 512) : Nat := if sdStrided d then 0 else bits d 287 256
def sdSpSpan (d : BitVec 512) : Nat := bits d 319 288
def sdCount (d : BitVec 512) (i : Nat) : Nat := bits d (207 + 16 * i) (192 + 16 * i) + 1
def sdStride (d : BitVec 512) (i : Nat) : Int := (d.extractLsb' (256 + 32 * i) 32).toInt
/-- Elements per round, E. -/
def sdElems (d : BitVec 512) : Nat :=
  if sdStrided d then sdCount d 0 * sdCount d 1 * sdCount d 2 * sdCount d 3 else sdListLen d

/-- Offset of element j of the sweep (R206). -/
def sweepOff (d : BitVec 512) (j : Nat) : Int :=
  let n0 := sdCount d 0
  let n1 := sdCount d 1
  let n2 := sdCount d 2
  sdStride d 0 * (j % n0 : Nat) + sdStride d 1 * (j / n0 % n1 : Nat) + sdStride d 2 * (j / (n0 * n1) % n2 : Nat) +
    sdStride d 3 * (j / (n0 * n1 * n2) : Nat)

/-- The descriptor with new bases (R203). -/
def sdWithBase (d : BitVec 512) (hall : U64) (sp : Nat) : BitVec 512 :=
  if sdStrided d then setBits d 127 64 hall.toNat else setBits (setBits d 191 128 hall.toNat) 287 256 sp

/-- A block entry (Table 8.4). -/
structure Block where
  hallOff : Nat
  len : Nat
  spOff : Nat
  ok : Bool

def blockOf (b : BitVec 128) : Block :=
  let len := bits b 84 64
  let spo := bits b 120 96
  { hallOff := bits b 63 0, len := len, spOff := spo
    ok := decide (bits b 95 85 = 0) && decide (bits b 127 121 = 0) && decide (bits b 63 0 % 4 = 0) &&
      decide (len % 4 = 0) && decide (4 ≤ len) && decide (len ≤ 1048576) && decide (spo % 4 = 0) }

/-- The linear address of the block entry of position p (R205). -/
def listAddr (d : BitVec 512) (p : Nat) : Nat := sdListBase d + 16 * (p % (max 1 (sdElems d)))

/-- The block entry of position p, as it has been read. Only the hazard check of R202, which counts positions whose entry no one has read yet,
meets one that has not: it looks at the list itself, which is no access. -/
def blockAt (s : State) (d : BitVec 512) (st : Stream) (p : Nat) : Block :=
  match st.list.find? fun e => e.1 == p with
  | some e => blockOf e.2
  | none => blockOf (BitVec.ofNat 128 (mreadLE s.dram (listAddr d p) 16))

/-- The bases of a position's round, if staged (R217). -/
def roundOf (st : Stream) (d : BitVec 512) (p : Nat) : Option RoundBase := st.bases[p / (max 1 (sdElems d))]?

/-! ## What an element moves, and its bounds (R225, Table 8.9) -/

/-- An element: hall address, scratchpad address, length, and the first address outside its bounds with its side, if any. -/
structure Move where
  hall : U64
  sp : Nat
  len : Nat
  fault : Option U64

/-- How many bytes from a hall address on may move: as far as its unit reaches, a space that exists, an enabled array, or a module and
a window of the image (R225, R313). -/
def hallReach (s : State) (a : U64) : Nat :=
  let m := haModule a
  let sp := haSpace a
  let off := haOff a
  if m = s.module then
    (if placeOf s sp off = .none then 0 else spaceEnd sp off - off)
  else if bit (tget 0 s.fab.route m.toNat) 31 ∧ offsetFits sp off 1 then
    s.fab.remoteWins.foldl (fun n w =>
      if winCovers w m sp off 1 then max n (min (spaceEnd sp off) (bits w.base 47 0 + w.size.toNat) - off) else n) 0
  else 0

/-- The first hall address of a range, if any, that lies at or after the span's end or outside what may move (R226). -/
def firstOutside (s : State) (base : U64) (off n span : Nat) : Option U64 :=
  let a := base + BitVec.ofNat 64 off
  let ok := min (hallReach s a) (span - off)
  if n ≤ ok then none else some (a + BitVec.ofNat 64 ok)

/-- The move of position p under its round's bases (R205, R206, R225). -/
def moveOf (s : State) (d : BitVec 512) (st : Stream) (b : RoundBase) (p : Nat) : Move :=
  if sdStrided d then
    let off := sweepOff d (p % (max 1 (sdElems d)))
    let a := BitVec.ofInt 64 (b.hall.toNat + off)
    { hall := a, sp := 0, len := sdRun d
      fault := if off < 0 ∨ haModule a ≠ s.module ∨ ¬ (haSpace a = 0 ∨ haSpace a = 4) then some a
        else firstOutside s b.hall off.toNat (sdRun d) (sdHallSpan d) }
  else
    let e := blockAt s d st p
    let a := b.hall + BitVec.ofNat 64 e.hallOff
    let sp := b.sp + e.spOff
    { hall := a, sp := sp, len := e.len
      fault := if ¬ e.ok then some a
        else match firstOutside s b.hall e.hallOff e.len (sdHallSpan d) with
          | some x => some x
          | none => if e.spOff + e.len ≤ sdSpSpan d ∧ sp + e.len ≤ spadBytes then none
            else some (BitVec.ofNat 64 ((max sp (min (b.sp + sdSpSpan d) spadBytes)) % 2 ^ 25)) }

/-- Source code of a bound fault (R226). -/
def faultSource (d : BitVec 512) : Nat :=
  match sdKind d with
  | 1 => 0
  | 2 => 1
  | 3 => 2
  | _ => 3

/-- BOUND_FAULT of a stream element (R226): the halt names the engine and the command that staged the round. -/
def streamFault (c : Fin 32) (desc : BitVec 11) (d : BitVec 512) (b : RoundBase) (p : Nat) (x : U64) (s : State) : State :=
  let s := s.updCore c fun k => k.updStream desc fun st => { st with faulted := true }
  raiseHalt ⟨hcBound, some c, BitVec.ofNat 8 (4 + desc.toNat / 512), some b.cmd,
    BitVec.ofNat 64 (p % 2 ^ 32 + 2 ^ 32 * desc.toNat + 2 ^ 44 * faultSource d), x⟩ s

/-! ## Fill accesses -/

/-- STREAM_ENG_LANDED counts a line of a load element once, with the piece that holds its last byte (log entry 46). -/
def lineLanded (f : FillAcc) (s : State) : State :=
  match f.tag with
  | .loadPiece c desc pos _ =>
    let last := f.addr + f.size
    let whole := last % 256 = 0 ∨ (((s.core c).stream desc).elems.any fun e => e.pos == pos && e.sp + e.len == last)
    s.updCore c fun k => k.updEng (engOf (desc.toNat / 512)) fun e => { e with landed := e.landed + if whole then 1 else 0 }
  | _ => s

/-- Passes the value of a word that an operation has left on to the next operation that waits for it (R229). -/
def passValue (a : Nat) (v : U64) : List FillAcc → List FillAcc
  | [] => []
  | f :: t =>
    match f.op with
    | .bell r none => if f.addr = a then { f with op := .bell r (some v) } :: t else f :: passValue a v t
    | _ => f :: passValue a v t

/-- A bell operation takes its turn at the bank: its first access reads the word, its second one writes it. One that only reads is done with
the first, and one to which the word's value has been passed needs no read. A word of which a read still returns the old content (R93) is read
again for an operation that writes it. -/
def bellTurn (c : Fin 32) (f : FillAcc) (r : BellReq) (old : Option U64) (s : State) : State :=
  let v := old.getD (BitVec.ofNat 64 (ofBytes (s.fillBytes (s.core c) f.addr 8)))
  if s.bellTaken r ∧ (old.isSome ∨ r.reads) then s
  else if r.reads then
    bellApplied r v (s.updCore c fun k => { k with fills := passValue f.addr v (k.fills.erase f) })
  else if old.isNone then
    if (s.staleLines (s.core c)).any fun x => x.1 == f.addr / 256 then s
    else s.updCore c fun k => { k with fills := k.fills.map fun g => if g = f then { f with op := .bell r (some v) } else g }
  else
    let new := bellNew r.op v r.operand
    bellApplied r v (s.updCore c fun k =>
      { k with fills := passValue f.addr new (k.fills.erase f) }.fillWrite f.addr (toBytes 8 new.toNat))

/-- FILL_ACCESS (R200, R201): the waiting fill of a bank that no scheduled access uses takes place, unless its port or its bank has made a fill
access in this cycle. -/
def execFillAccess (core : Fin 32) (bank : BitVec 5) (s : State) : Host.Outcome State Fault Refusal :=
  .next <|
    let k := s.core core
    let t := (s.time.hallTime, s.seq.cycle)
    if s.running ∧ bit k.busyBanks bank.toNat then s
    else
      match nextFill k.fills bank.toNat with
      | some f =>
        if (k.filled t).1.contains f.port ∨ (k.filled t).2.contains bank.toNat then s
        else
          let s := s.updCore core fun k => k.noteFill t f.port bank.toNat
          (match f.op with
           | .write d =>
             accepted f.tag d.length (lineLanded f (s.updCore core fun k => { k with fills := k.fills.erase f }.fillWrite f.addr d))
           | .read n => deliver f.tag (s.fillBytes k f.addr n) (s.updCore core fun k => { k with fills := k.fills.erase f })
           | .bell r old => bellTurn core f r old s)
      | none => s

/-! ## Lead sides (R208) -/

/-- Loads, direct feed and mask-in fetch; a position is startable under R208. -/
def fetches (d : BitVec 512) : Bool := sdKind d == 1 || sdKind d == 3 || sdKind d == 4

def startableFetch (d : BitVec 512) (st : Stream) : Bool :=
  st.armed && !st.stopping && !st.faulted && decide (st.lead < st.freed + sdDepth d) && (roundOf st d st.lead).isSome &&
    (sdPersist d || decide (st.lead < sdElems d))

/-- The lead side reads the block list ahead: for a load the entries of the positions that its depth lets it start, for a store those of the
next `sdDepth` hand-overs (R205, log entry 46). -/
def listDue (d : BitVec 512) (st : Stream) : Bool :=
  (sdKind d == 1 || sdKind d == 2) && st.armed && !st.stopping && !st.faulted &&
    decide (st.asked < (if sdKind d = 1 then st.freed else st.handed) + sdDepth d) && (roundOf st d st.asked).isSome &&
    (sdPersist d || decide (st.asked < sdElems d))

/-- The lead side has the block entry of position p; a sweep needs none. -/
def haveEntry (d : BitVec 512) (st : Stream) (p : Nat) : Bool := sdStrided d || st.list.any fun e => e.1 == p

/-- A write-out that waits: the oldest unstarted element; a store to this die must be at the front of the ordered path. Positions that were
handed over before a STREAM_STOP are still written out: DESIGN CHOICE, as R218 stops the start of further positions and R216 keeps the leg
open for handed ones (log entry 46). -/
def waitingOut (k : Core) (desc : BitVec 11) (d : BitVec 512) (st : Stream) : Option Elem :=
  match st.elems.find? fun e => !e.started with
  | some e =>
    if sdKind d = 5 then some e
    else if sdKind d = 2 then
      (match k.path with | .store x p :: _ => if x = desc ∧ p = e.pos then some e else none | _ => none)
    else none
  | none => none

/-- In-flight elements of an engine's lead side: its fetches. R208 does not say whether write-outs count among the 8: DESIGN CHOICE, they do not
(log entry 46). -/
def inFlightOf (k : Core) (e : Fin 4) : Nat :=
  (k.streams.filter fun p => p.1 / 512 == e.val && fetches (tget 0 k.descs p.1)).foldl
    (fun n p => n + (p.2.elems.filter fun x => decide (0 < x.need)).length) 0

/-- The lowest-numbered descriptor of an engine that has something to start (R208). One whose next block entry has not come yet is passed over:
DESIGN CHOICE (log entry 46). -/
def leadPick (k : Core) (e : Fin 4) : Option (BitVec 11) :=
  (k.streams.find? fun p =>
    let d := tget 0 k.descs p.1
    p.1 / 512 == e.val && (listDue d p.2 ||
      (fetches d && startableFetch d p.2 && haveEntry d p.2 p.2.lead && decide (inFlightOf k e < 8)) ||
      (waitingOut k (BitVec.ofNat 11 p.1) d p.2).isSome)).map fun p => BitVec.ofNat 11 p.1

/-- A read request's payload: return hall address, LEN, response queue (R309). -/
def readPayload (s : State) (c : Fin 32) (sp len q : Nat) : List Byte :=
  toBytes 8 (s.module.toNat * 2 ^ 52 + 2 ^ 48 + c.val * 2 ^ 40 + sp) ++ toBytes 4 len ++ toBytes 2 q ++ [0, 0]

/-- Starts the fetch of one element. -/
def startFetch (c : Fin 32) (desc : BitVec 11) (d : BitVec 512) (p : Nat) (m : Move) (s : State) : State :=
  let remote := haModule m.hall != s.module
  let s := s.updCore c fun k => k.updStream desc fun st =>
    { st with
      lead := st.lead + 1
      elems := st.elems ++ [{ pos := p, need := m.len, hall := m.hall, sp := m.sp, len := m.len, remote := remote }] }
  if remote then
    let dm := haModule m.hall
    let key := (remoteKey s dm (haSpace m.hall) (haOff m.hall) m.len).getD 0
    enqueueFlit (pathQueueOf s c dm) none (c1flit s (BitVec.ofNat 5 c.val) dm (haSpace m.hall) (haOff m.hall) 2 true key
      (readPayload s c m.sp m.len (responseQueueOf s c dm))) s
  else if haSpace m.hall = 0 ∨ haSpace m.hall = 4 then
    stackAsk c.val (haSpace m.hall) (haOff m.hall) m.len none rqStream
      (fun o => if sdKind d = 1 then .loadPiece c desc p (m.sp + o) else .bufPiece c desc p o) s
  else
    rangeRead 14 rqStream c.val (haSpace m.hall) (haOff m.hall) m.len (fun o => .loadPiece c desc p (m.sp + o)) s

/-- Starts the write-out of one element to this module (R212). -/
def startOut (c : Fin 32) (desc : BitVec 11) (e : Elem) (m : Move) (s : State) : State :=
  let s := s.updCore c fun k => k.updStream desc fun st =>
    { updElem e.pos (fun e => { e with started := true, need := m.len, hall := m.hall }) st with lead := st.lead + 1 }
  rangeWrite 14 rqStream c.val (haSpace m.hall) (haOff m.hall) (mreads e.buf 0 m.len) (.storePiece c desc e.pos) s

/-- Asks for the next entry of a stream's block list (R205). -/
def askEntry (c : Fin 32) (desc : BitVec 11) (d : BitVec 512) (st : Stream) (s : State) : State :=
  stackAsk c.val 0 (listAddr d st.asked) 16 none rqStream (fun _ => .listEntry c desc st.arms st.asked)
    (s.updCore c fun k => k.updStream desc fun st => { st with asked := st.asked + 1 })

/-- LEAD_START (R205, R208, R225, R226, R381): the lead side of an engine reads the next entry of a block list, starts its next position, or
raises the bound fault. -/
def execLeadStart (core : Fin 32) (engine : Fin 4) (s : State) : Host.Outcome State Fault Refusal :=
  .next <|
    let k := s.core core
    if s.seq.state = .halted ∨ s.seq.state = .empty then s
    else
      match leadPick k engine with
      | some desc =>
        let d := tget 0 k.descs desc.toNat
        let st := k.stream desc
        if listDue d st then askEntry core desc d st s
        else if fetches d then
          match roundOf st d st.lead with
          | some b =>
            let m := moveOf s d st b st.lead
            match m.fault with
            | some x => streamFault core desc d b st.lead x s
            | none => startFetch core desc d st.lead m s
          | none => s
        else
          match waitingOut k desc d st with
          | some e =>
            (match roundOf st d e.pos with
             | some b =>
               let m : Move := if sdStrided d then moveOf s d st b e.pos else ⟨e.hall, e.sp, e.len, none⟩
               (match m.fault with
                | some x => streamFault core desc d b e.pos x s
                | none => startOut core desc e m s)
             | none => s)
          | none => s
      | none => s

/-- LOAD_ELEMENT_COMPLETE (R212): the oldest element whose bytes are all in place; a mask-in block stays in the buffer. -/
def execLoadElementComplete (core : Fin 32) (desc : BitVec 11) (s : State) : Host.Outcome State Fault Refusal :=
  .next <|
    let k := s.core core
    let d := tget 0 k.descs desc.toNat
    if sdKind d = 1 ∨ sdKind d = 4 then
      match (k.stream desc).elems.find? fun e => e.need == 0 && !e.done with
      | some e =>
        let s := s.updCore core fun k => k.updStream desc fun st =>
          if sdKind d = 1 then { st with elems := st.elems.erase e }
          else { st with elems := st.elems.map fun x => if x = e then { e with done := true } else x }
        ackAdd (BitVec.ofNat 5 core.val) (sdAck d) s
      | none => s
    else s

/-- The oldest store element whose bytes are all at their destination leaves the stream: FREED counts it, ACK_COUNTER may gain 1
(R212). -/
def storeComplete (core : Fin 32) (desc : BitVec 11) (s : State) : State :=
  let k := s.core core
  let d := tget 0 k.descs desc.toNat
  if sdKind d = 2 ∨ sdKind d = 5 then
    match (k.stream desc).elems.find? fun e => e.started && e.need == 0 with
    | some e =>
      let s := s.updCore core fun k =>
        let k := k.updStream desc fun st => { st with elems := st.elems.erase e, freed := st.freed + 1 }
        match k.path with
        | .store x p :: t => if x = desc ∧ p = e.pos then { k with path := t } else k
        | _ => k
      ackAdd (BitVec.ofNat 5 core.val) (sdAck d) s
    | none => s
  else s

/-- The bytes that a completed element wrote to this module's stack memory (R341). -/
def noteElem (s0 : State) (core : Fin 32) (desc : BitVec 11) (s : State) : State :=
  match ((s0.core core).stream desc).elems.find? fun e => e.started && e.need == 0 with
  | some e =>
    if haModule e.hall = s.module then harborHall (haSpace e.hall) (haOff e.hall) e.len s else s
  | none => s

/-- STORE_ELEMENT_COMPLETE (R212, R341). -/
def execStoreElementComplete (core : Fin 32) (desc : BitVec 11) (s : State) : Host.Outcome State Fault Refusal :=
  .next <|
    let k := (s.core core).descs
    if sdKind (tget 0 k desc.toNat) = 2 ∨ sdKind (tget 0 k desc.toNat) = 5 then noteElem s core desc (storeComplete core desc s) else s

/-! ## Stream commands -/

/-- The descriptor a stream command names. -/
def cmdDesc (w : CmdWords) : BitVec 11 := (opA w).extractLsb' 0 11

/-- What still comes for an element of a stream that is armed anew completes no element of the new arm; its ACK counts (R212). -/
def orphan (c : Fin 32) (desc : BitVec 11) (ack : Option (BitVec 5)) (w : AwaitAccept) : AwaitAccept :=
  match w.elem with
  | some (d, _) => if w.core.toNat = c.val ∧ d = desc then { w with elem := none, ack := ack } else w
  | none => w

/-- STREAM_ARM (R214). -/
def effStreamArm (c : Fin 32) (e : LookEntry) (s : State) : State :=
  let desc := cmdDesc e.words
  let d0 := tget 0 (s.core c).descs desc.toNat
  let d := if bit (opA e.words) 16 then sdWithBase d0 (e.words.w1.extractLsb' 0 64) (bits e.words.w1 88 64) else d0
  let s := { s with fab := { s.fab with awaiting := s.fab.awaiting.map (orphan c desc (sdAck d0)) } }
  s.updCore c fun k =>
    let k := if sdKind d = 3 then
        { k with arrays := k.arrays.set (Fin.ofNat 2 (sdArray d)) { k.arr (Fin.ofNat 2 (sdArray d)) with rows := [] } }
      else k
    { k.updStream desc (fun st => { armed := true, arms := st.arms + 1, bases := [⟨sdHallBase d, sdSpBase d, e.idx⟩] }) with
      descs := tset 0 k.descs desc.toNat d }

/-- STREAM_REARM (R217). -/
def effStreamRearm (c : Fin 32) (e : LookEntry) (s : State) : State :=
  let desc := cmdDesc e.words
  s.updCore c fun k =>
    let d := sdWithBase (tget 0 k.descs desc.toNat) (e.words.w1.extractLsb' 0 64) (bits e.words.w1 88 64)
    { k.updStream desc (fun st => { st with bases := st.bases ++ [⟨sdHallBase d, sdSpBase d, e.idx⟩] }) with
      descs := tset 0 k.descs desc.toNat d }

/-- STREAM_STOP (R218). -/
def effStreamStop (c : Fin 32) (e : LookEntry) (s : State) : State :=
  s.updCore c fun k => k.updStream (cmdDesc e.words) fun st => { st with stopping := true }

/-- The moves of the next `h` positions of a store stream, in position order. -/
def handMoves (s : State) (d : BitVec 512) (st : Stream) (first h : Nat) : List (Nat × RoundBase × Move) :=
  (List.range h).filterMap fun i => (roundOf st d (first + i)).map fun b => (first + i, b, moveOf s d st b (first + i))

/-- The lines of one block, lowest first (R211). -/
def blockLines (sp len : Nat) : List Nat := (List.range ((sp + len - 1) / 256 - sp / 256 + 1)).map fun i => sp / 256 + i

/-- The byte addresses of the reads of one block, one for each of its lines. -/
def blockReads (sp len : Nat) : List Nat := (blockLines sp len).map fun l => max (256 * l) sp

/-- STREAM_HAND (R209 to R211): a load's positions are handed and freed; a store's lines are read from cycle c + 2. A block
outside its bounds halts at once (R225, R226). -/
def effStreamHand (c : Fin 32) (e : LookEntry) (s : State) : State :=
  let a := opA e.words
  let desc := cmdDesc e.words
  let h := bits a 20 16
  let f := bits a 36 32
  let k := s.core c
  let d := tget 0 k.descs desc.toNat
  let st := k.stream desc
  if sdKind d = 2 then
    let ms := handMoves s d st st.handed h
    match ms.find? fun m => m.2.2.fault.isSome with
    | some m => streamFault c desc d m.2.1 m.1 (m.2.2.fault.getD 0) s
    | none =>
      let port := (ms.head?.map fun m => haModule m.2.2.hall).bind (firstPort s)
      s.updCore c fun k =>
        let k := k.updStream desc fun st =>
          { st with handed := st.handed + h, list := st.list.filter fun x => decide (st.handed + h ≤ x.1) }
        k.updEng (engOf (desc.toNat / 512)) fun g => { g with hands := g.hands ++
          [{ idx := e.idx, issue := e.issue, desc := desc, port := port, skipped := false
             moves := ms.map fun m => ⟨m.1, m.2.2.hall, m.2.2.sp, m.2.2.len⟩
             lines := ms.flatMap fun m => blockReads m.2.2.sp m.2.2.len, sig := sigsOf e.words }] }
  else
    s.updCore c fun k => k.updStream desc fun st =>
      { st with handed := st.handed + h, freed := st.freed + f, list := st.list.filter fun x => decide (st.freed + f ≤ x.1) }

/-- The last read cycle of a store hand-over; one without lines completes in its issue cycle. -/
def StoreHand.lastRead (r : StoreHand) : Nat := if r.lines.isEmpty then r.issue else r.issue + 1 + r.lines.length

/-- The cycle in which the line with byte i of a handed block is read (R211). -/
def StoreHand.readOf (r : StoreHand) (m : HandMove) (i : Nat) : Nat :=
  r.issue + 2 + ((r.moves.takeWhile fun x => x.pos != m.pos).flatMap fun x => blockReads x.sp x.len).length + ((m.sp + i) / 256 - m.sp / 256)

/-- One handed element leaves: to another module as write-with-accept flits, on this module behind its ordered path (R235). -/
def launchElem (c : Fin 32) (r : StoreHand) (m : HandMove) (s : State) : State :=
  let desc := r.desc
  let bytes := mreads r.buf m.sp m.len
  let dm := haModule m.hall
  if dm = s.module then
    s.updCore c fun k =>
      { k.updStream desc (fun st => { st with elems := st.elems ++
          [{ pos := m.pos, need := m.len, hall := m.hall, sp := m.sp, len := m.len, buf := mwrites [] 0 bytes, started := false }] }) with
        path := k.path ++ [.store desc m.pos] }
  else
    let first := tget 0 s.fab.seqOut (pathQueueOf s c dm)
    let s := launchItem c dm (firstPort s dm) (r.readOf m) (haSpace m.hall) (haOff m.hall) 1 bytes s
    let s := s.updCore c fun k => k.updStream desc fun st => { st with
      lead := st.lead + 1, elems := st.elems ++ [{ pos := m.pos, need := m.len, hall := m.hall, sp := m.sp, len := m.len, remote := true }] }
    { s with fab := { s.fab with awaiting := s.fab.awaiting ++
      [⟨BitVec.ofNat 5 c.val, dm, first, lastSeqOf s c dm, none, some (desc, m.pos), none⟩] } }

/-- STORE_HAND_COMPLETE (R211, R235): the last read cycle passes; the elements are launched, then the signals fire. -/
def execStoreHandComplete (core : Fin 32) (engine : Fin 4) (s : State) : Host.Outcome State Fault Refusal :=
  .next <|
    match ((s.core core).eng engine).hands.find? fun r => !r.skipped && decide (r.lastRead ≤ s.seq.cycle) with
    | some r =>
      let s := s.updCore core fun k => k.updEng engine fun g => { g with hands := g.hands.erase r }
      let s := foldS (launchElem core r) r.moves s
      fireSignals core r.idx r.sig s
    | none => s

/-! ## The turn engine (R221 to R226) -/

def tnDir (w : CmdWords) : Nat := bits (opA w) 63 63
def tnEs (w : CmdWords) : Nat := 2 ^ bits (opA w) 62 61
def tnTR (w : CmdWords) : Nat := bits (opA w) 55 48 + 1
def tnTC (w : CmdWords) : Nat := bits (opA w) 47 40 + 1
def tnSpPitch (w : CmdWords) : Nat := 32 * bits (opA w) 35 25
def tnSp (w : CmdWords) : Nat := bits (opA w) 24 0
def tnHall (w : CmdWords) : U64 := w.w1.extractLsb' 0 64
def tnSpan (w : CmdWords) : Nat := bits w.w1 127 64
def tnPitch (w : CmdWords) : Nat := bits w.w1 159 128
def tnAck (w : CmdWords) : Option (BitVec 5) := if bit w.w2 5 then some (w.w2.extractLsb' 0 5) else none
def tnTiles (w : CmdWords) : Nat := tnTR w * tnTC w
/-- The cycle up to which a TURN counts as held by the engine (R223, R224). -/
def TurnRec.spanEnd (r : TurnRec) : Nat := r.issue + 1 + 64 * tnTiles r.words

/-- Tile row and column of tile q of the source. -/
def tnTi (w : CmdWords) (q : Nat) : Nat := q / tnTC w
def tnTj (w : CmdWords) (q : Nat) : Nat := q % tnTC w

/-- Offset from HALL_ADDR of stack-side tile row r of tile q: a source row for DIR 0, a destination row for DIR 1. -/
def tnStackOff (w : CmdWords) (q r : Nat) : Nat :=
  if tnDir w = 0 then tnPitch w * (64 * tnTi w q + r) + tnEs w * 64 * tnTj w q
  else tnPitch w * (64 * tnTj w q + r) + tnEs w * 64 * tnTi w q

/-- Scratchpad address of scratchpad-side tile row r of tile q. -/
def tnSpadAddr (w : CmdWords) (q r : Nat) : Nat :=
  if tnDir w = 0 then tnSp w + tnSpPitch w * (64 * tnTj w q + r) + tnEs w * 64 * tnTi w q
  else tnSp w + tnSpPitch w * (64 * tnTi w q + r) + tnEs w * 64 * tnTj w q

/-- A stack-side tile row outside its bounds: the first hall address outside (R225). -/
def tnFault (s : State) (w : CmdWords) (q r : Nat) : Option U64 :=
  let off := tnStackOff w q r
  let a := tnHall w + BitVec.ofNat 64 off
  let n := 64 * tnEs w
  if ¬ (haModule a = s.module ∧ (haSpace a = 0 ∨ haSpace a = 4)) then some a else firstOutside s (tnHall w) off n (tnSpan w)

/-- BOUND_FAULT of a TURN (R226). -/
def turnFault (c : Fin 32) (idx q r : Nat) (x : U64) (s : State) : State :=
  raiseHalt ⟨hcBound, some c, 8, some idx, BitVec.ofNat 64 ((64 * q + r) % 2 ^ 32 + 2 ^ 32 * 0x7FF + 2 ^ 44 * 4), x⟩ s

/-- Element (i, j) of a tile held as rows of 64 elements of `es` bytes; the transposed tile's row i (R222). -/
def turnRow (es : Nat) (buf : Mem) (i : Nat) : List Byte :=
  (List.range 64).flatMap fun j => mreads buf ((64 * j + i) * es) es

/-- Starts the next tile of a TURN: for DIR 0 the stack requests of its 64 source rows, for DIR 1 those of its 64 destination
rows once the reads are done; the first row outside its bounds halts. -/
def turnStart (c : Fin 32) (r : TurnRec) (s : State) : State :=
  let w := r.words
  match (List.range 64).find? fun i => (tnFault s w r.tile i).isSome with
  | some i => turnFault c r.idx r.tile i ((tnFault s w r.tile i).getD 0) s
  | none =>
    let n := 64 * tnEs w
    let s := updTurn c r.idx (fun x => { x with busy := true, gathered := decide (tnDir w = 1), need := 64 * n }) s
    foldS (fun i s =>
      let a := tnHall w + BitVec.ofNat 64 (tnStackOff w r.tile i)
      if tnDir w = 0 then stackAsk c.val (haSpace a) (haOff a) n none rqTurn (fun o => .turnPiece c r.idx (i * n + o)) s
      else stackAsk c.val (haSpace a) (haOff a) n (some (turnRow (tnEs w) (r.buf.filterMap fun e =>
          if e.1 / (4096 * tnEs w) = r.tile then some (e.1 % (4096 * tnEs w), e.2) else none) i)) rqTurn
          (fun _ => .turnWrite c r.idx) s) (List.range 64) s

/-- The cycle in which the last row of tile q of a DIR 1 TURN, which crosses the scheduled plane to the stack of its destination row, is
delivered there (R45, R223). -/
def TurnRec.deliveredBy (r : TurnRec) (c : Fin 32) (q : Nat) : Nat :=
  ((List.range 64).map fun i =>
    let a := tnHall r.words + BitVec.ofNat 64 (tnStackOff r.words q i)
    let n := stackCore (stackOfAddr (linearOf (haSpace a) (haOff a)))
    meshDelivery (r.issue + 2 + 64 * q + i) (coreX c) (coreY c) (coreX n) (coreY n)).foldl max 0

/-- What the turn engine does next outside the schedule: start a tile, land a gathered tile, or finish one (R223, R224). The stack writes
of a DIR 1 tile follow the delivery of its rows. -/
def turnAdvance1 (c : Fin 32) (r : TurnRec) (s : State) : State :=
  let w := r.words
  if r.skipped ∨ tnTiles w ≤ r.tile then s
  else if ¬ r.busy then
    (if tnDir w = 0 ∨ (r.readDone ∧ r.deliveredBy c r.tile ≤ s.seq.cycle) then (if s.seq.state = .halted then s else turnStart c r s) else s)
  else if 0 < r.need then s
  else if r.gathered then
    ackAdd (BitVec.ofNat 5 c.val) (tnAck w)
      (updTurn c r.idx (fun x => { x with
        tile := x.tile + 1, busy := false, gathered := false, buf := if tnDir w = 0 then [] else x.buf }) s)
  else
    let s := updTurn c r.idx (fun x => { x with gathered := true, need := 4096 * tnEs w }) s
    foldS (fun i s => fillAsk c 12 (tnSpadAddr w r.tile i) (turnRow (tnEs w) r.buf i) (.turnWrite c r.idx) s) (List.range 64) s

/-- The oldest TURN that has work left outside the schedule. -/
def turnAdvance (c : Fin 32) (s : State) : State :=
  match (s.core c).turn.inFlight.find? fun r => !r.skipped && decide (r.tile < tnTiles r.words) &&
      (decide (tnDir r.words = 0) || r.readDone) with
  | some r => turnAdvance1 c r s
  | none => s

/-- TURN (R221): the command joins the engine; a skipped one stays for the overlap checks. -/
def effTurn (c : Fin 32) (e : LookEntry) (s : State) : State :=
  s.updCore c fun k => { k with turn := { k.turn with
    inFlight := k.turn.inFlight ++ [{ idx := e.idx, issue := e.issue, words := e.words }] } }

/-- TURN_COMPLETE (R223, R224): after the last scheduled read of DIR 1, or the last landed segment of DIR 0. A DIR 1 TURN
stays until its stack writes are made. -/
def execTurnComplete (core : Fin 32) (s : State) : Host.Outcome State Fault Refusal :=
  .next <|
    let l := (s.core core).turn.inFlight
    match l.find? fun r => !r.skipped && !r.readDone &&
        (if tnDir r.words = 1 then decide (r.spanEnd ≤ s.seq.cycle) else decide (tnTiles r.words ≤ r.tile)) with
    | some r =>
      let s := s.updCore core fun k => { k with turn := {
        inFlight := k.turn.inFlight.map fun x => if x = r then { x with readDone := true } else x
        count := k.turn.count + 1 } }
      fireSignals core r.idx (sigsOf r.words) s
    | none => s

/-- A TURN that has nothing left to do and whose held span is over leaves the engine. -/
def turnRetire (cycle : Nat) (u : TurnUnit) : TurnUnit :=
  { u with inFlight := u.inFlight.filter fun r =>
      !(decide (r.spanEnd < cycle) && (r.skipped || (r.readDone && decide (tnTiles r.words ≤ r.tile)))) }

end Sys2Proof.Machine
end

