-- ==== Sys2Proof/Machine/Arrays.lean ====
section
/-!
DEFINITION. The matrix arrays: geometry, stationary sets, passes, the drain, fills and elastic links (R99 to R124).
-/
namespace Sys2Proof.Machine

/-! ## Fields of the array commands (Tables 4.5 to 4.8) -/

/-- The array a command of TARGET 1 or 2 names. -/
def arrayOfTarget (t : Nat) : Fin 2 := arrayOf (t + 1)

def slFmt (w : CmdWords) : BitVec 4 := (opA w).extractLsb' 60 4
def slSparse (w : CmdWords) : Bool := bit (opA w) 59
def slTag (w : CmdWords) : U16 := (opA w).extractLsb' 0 16
def slAux (w : CmdWords) : Nat := bits w.w1 56 32
def slSrc (w : CmdWords) : Nat := bits w.w1 24 0
def psFmt (w : CmdWords) : BitVec 4 := (opA w).extractLsb' 60 4
def psMode (w : CmdWords) : BitVec 2 := (opA w).extractLsb' 58 2
def psRtz (w : CmdWords) : Bool := bit (opA w) 57
def psRows (w : CmdWords) : Nat := bits (opA w) 47 36 + 1
def psEntry (w : CmdWords) : Nat := bits (opA w) 26 16
def psPitch (w : CmdWords) : Nat := bits (opA w) 15 0
def psScale (w : CmdWords) : Nat := bits w.w1 56 32
def psSrc (w : CmdWords) : Nat := bits w.w1 24 0
def psEngine (w : CmdWords) : Fin 4 := engOf (bits w.w1 1 0)
def psTag (w : CmdWords) : U16 := w.w2.extractLsb' 0 16
def afCount (w : CmdWords) : Nat := bits (opA w) 22 12 + 1
def afEntry (w : CmdWords) : Nat := bits (opA w) 10 0
def afValue (w : CmdWords) : U32 := w.w1.extractLsb' 0 32

/-! ## Geometry and timing (Table 4.3) -/

def fmt16 (f : BitVec 4) : Bool := f == 8 || f == 9
def fmtMx86 (f : BitVec 4) : Bool := decide (2 ≤ f.toNat) && decide (f.toNat ≤ 5)

/-- Cycles between moving rows, R. -/
def rowCadence (f : BitVec 4) : Nat := if fmt16 f then 4 else 1
/-- Cycles per cell hop, s. -/
def cellHop (f : BitVec 4) : Nat := if fmt16 f then 2 else 1
/-- The pass latency Λ (R107). -/
def passLatency (f : BitVec 4) : Nat := 14 + 255 * cellHop f
/-- Bytes of a moving slot (Table 4.3). A combination that has no row there (SB8; MXFP4, or a sparse set, in T) takes the slot of its
format's size, 256 bytes in N and 128 in T, so that the checks of R106 can name it before FORMAT_MISMATCH does: DESIGN CHOICE (log entry
65). -/
def movingSlot (f : BitVec 4) (sparse tOrient : Bool) : Nat :=
  if fmt16 f then (if tOrient then 256 else 512) else if tOrient then 128 else if sparse then 512 else 256
/-- Bytes of moving scales of a row, nb (R106). -/
def movingScales (f : BitVec 4) (tOrient : Bool) : Nat :=
  if fmtMx86 f then (if tOrient then 4 else 8) else if f = 6 then 16 else 0
/-- Lines of a stationary tile's data block and of its aux block. -/
def statLines (f : BitVec 4) : Nat := if fmt16 f then 256 else 128
def auxLines (f : BitVec 4) (sparse : Bool) : Nat := if sparse then 32 else if f = 6 then 8 else if fmtMx86 f then 4 else 0
/-- n_load of a stationary load. -/
def loadCycles (f : BitVec 4) (sparse : Bool) : Nat := (statLines f + auxLines f sparse) / 2

/-- The legal combinations of Table 4.2: moving format, active-set format, SPARSE, orientation, feed. -/
def passLegal (m a : BitVec 4) (sparse tOrient direct : Bool) : Bool :=
  if decide (m.toNat ≤ 1) && decide (a.toNat ≤ 1) then (if sparse then !tOrient && !direct else true)
  else if sparse then false
  else if fmtMx86 m && fmtMx86 a then !direct
  else if m = 6 ∧ a = 6 then !tOrient && !direct
  else (m == 7 || m == 8 || m == 9) && m == a

/-! ## Cycles of a pass (R107, R108) -/

def PassRec.enter (p : PassRec) (m : Nat) : Nat := p.issue + 4 + m * rowCadence p.mfmt
def PassRec.lastEnter (p : PassRec) : Nat := p.enter (p.rows - 1)
def PassRec.valid (p : PassRec) (m : Nat) : Nat := p.issue + passLatency p.mfmt + m * rowCadence p.mfmt
def PassRec.done (p : PassRec) : Nat := p.valid (p.rows - 1)
/-- The row that a pass drains in cycle t: its ACB entry is written in V(m) − 1. -/
def PassRec.drainRow (p : PassRec) (t : Nat) : Option Nat :=
  let b := p.issue + passLatency p.mfmt
  let k := t + 1 - b
  if b ≤ t + 1 ∧ k % rowCadence p.mfmt = 0 ∧ k / rowCadence p.mfmt < p.rows then some (k / rowCadence p.mfmt) else none
/-- The row whose lines the feeder reads in cycle t. -/
def PassRec.feedRow (p : PassRec) (t : Nat) : Option Nat :=
  let k := t - (p.issue + 2)
  if p.direct.isNone ∧ p.issue + 2 ≤ t ∧ k % rowCadence p.mfmt = 0 ∧ k / rowCadence p.mfmt < p.rows then
    some (k / rowCadence p.mfmt)
  else none

/-! ## The feeder (R106, R107) -/

def linesOf (a n : Nat) : List Nat := if n = 0 then [] else (List.range ((a + n - 1) / 256 - a / 256 + 1)).map (a / 256 + ·)

/-- The lines that hold row m and its scales. -/
def feedLines (f : BitVec 4) (sparse tOrient : Bool) (src pitch scaleSrc m : Nat) : List Nat :=
  (linesOf (src + 128 * pitch * m) (movingSlot f sparse tOrient) ++
    linesOf (scaleSrc + movingScales f tOrient * m) (movingScales f tOrient)).eraseDups

/-- The lines the feeder reads for row m: those that hold nothing of row m − 1. -/
def feedNew (f : BitVec 4) (sparse tOrient : Bool) (src pitch scaleSrc m : Nat) : List Nat :=
  let l := feedLines f sparse tOrient src pitch scaleSrc m
  if m = 0 then l else l.filter fun x => !(feedLines f sparse tOrient src pitch scaleSrc (m - 1)).contains x

def ArrayUnit.setOf (u : ArrayUnit) (b : Bool) : StatSet := if b then u.setB else u.setA
def ArrayUnit.active (u : ArrayUnit) : StatSet := u.setOf u.activeB
def ArrayUnit.shadow (u : ArrayUnit) : StatSet := u.setOf (!u.activeB)
def ArrayUnit.updSet (u : ArrayUnit) (b : Bool) (f : StatSet → StatSet) : ArrayUnit :=
  if b then { u with setB := f u.setB } else { u with setA := f u.setA }

def PassRec.lines (p : PassRec) (sparse : Bool) (m : Nat) : List Nat := feedLines p.mfmt sparse p.tOrient p.src p.pitch p.scaleSrc m
def PassRec.newLines (p : PassRec) (sparse : Bool) (m : Nat) : List Nat := feedNew p.mfmt sparse p.tOrient p.src p.pitch p.scaleSrc m

/-- The byte address of the feeder's read of a line for row m: where the row's bytes in it begin, else its scales'. -/
def PassRec.readFrom (p : PassRec) (sparse : Bool) (m l : Nat) : Nat :=
  let row := p.src + 128 * p.pitch * m
  max (256 * l) (if (linesOf row (movingSlot p.mfmt sparse p.tOrient)).contains l then row
    else p.scaleSrc + movingScales p.mfmt p.tOrient * m)

/-- The feeder takes row m from the lines just read and the shared ones it still holds. -/
def feedTake (sparse : Bool) (m : Nat) (read : List (Nat × List Byte)) (p : PassRec) : PassRec :=
  let buf := read.foldl (fun b l => mwrites b (256 * l.1) l.2) p.buf
  let ls := p.lines sparse m
  { p with
    fed := p.fed ++ [⟨m, mreads buf (p.src + 128 * p.pitch * m) (movingSlot p.mfmt sparse p.tOrient),
      mreads buf (p.scaleSrc + movingScales p.mfmt p.tOrient * m) (movingScales p.mfmt p.tOrient)⟩]
    buf := buf.filter fun e => ls.contains (e.1 / 256) }

/-! ## Elements -/

/-- Element n of `b` bits of a packed row, LSB first (R104). -/
def packedAt (row : List Byte) (b n : Nat) : Nat :=
  let i := b * n / 8
  ((row.getD i 0).toNat + 256 * (row.getD (i + 1) 0).toNat) / 2 ^ (b * n % 8) % 2 ^ b

/-- The encoding of element k of a row of a format. -/
def elemAt (f : BitVec 4) (row : List Byte) (k : Nat) : Nat := packedAt row (fmtBits f.toNat) k

/-- Bytes from the start of one stationary K row to the next (Table 4.4). -/
def statPitch (f : BitVec 4) : Nat := if fmt16 f then 256 else if f = 6 then 64 else 128

/-- The stationary operand W[k, n] of a dense set, its scale included exactly (R131). -/
def statNum (u : StatSet) (k n : Nat) : Num :=
  let x := decodeElem u.fmt.toNat (elemAt u.fmt (mreads u.data (statPitch u.fmt * k) (statPitch u.fmt)) n)
  if isMx u.fmt.toNat then x.mul (e8m0 (mread u.aux (128 * (k / 32) + n))) else x

/-- The moving operand of element k of a row, its scale included exactly. -/
def moveNum (f : BitVec 4) (r : FedRow) (k : Nat) : Num :=
  let x := decodeElem f.toNat (elemAt f r.bytes k)
  if isMx f.toNat then x.mul (e8m0 (r.scales.getD (k / 32) 0)) else x

/-- The kept value and the K index it multiplies, for stored row q and column n of a 2:4 sparse set (R105). -/
def sparseNum (u : StatSet) (q n : Nat) : Num × Nat :=
  let i := q / 2
  let nib := (mread u.aux (64 * i + n / 2)).toNat / 2 ^ (4 * (n % 2)) % 16
  (decodeElem u.fmt.toNat (mread u.data (128 * q + n)).toNat, 4 * i + (if q % 2 = 0 then nib % 4 else nib / 4))

/-! ## Results of a row (R100, R101, R117) -/

/-- −0.0, the sum that enters the first cell. -/
def f32negZero : U32 := 0x80000000

/-- One cell step: the product is rounded, then the sum is rounded. -/
def cellAdd (rtz : Bool) (s : U32) (x w : Num) : U32 := f32add rtz s (toF32m rtz (x.mul w))

/-- One INT8 cell step, modulo 2^32 (R143). -/
def cellAddInt (s : U32) (x w : Nat) : U32 := s + BitVec.ofInt 32 (signedOf 8 x * signedOf 8 w)

/-- K indices of a tile. -/
def tileK (f : BitVec 4) (sparse : Bool) : Nat := if sparse ∨ f = 6 then 512 else 256

/-- Column n's result of an N row. -/
def colN (u : StatSet) (f : BitVec 4) (rtz : Bool) (r : FedRow) (n : Nat) : U32 :=
  if f = 7 then
    (List.range 256).foldl (fun s k => cellAddInt s (elemAt 7 r.bytes k) (mread u.data (128 * k + n)).toNat) 0
  else if u.sparse then
    (List.range 256).foldl (fun s q => let w := sparseNum u q n; cellAdd rtz s (moveNum f r w.2) w.1) f32negZero
  else (List.range (tileK f false)).foldl (fun s k => cellAdd rtz s (moveNum f r k) (statNum u k n)) f32negZero

/-- Result k of a T row. -/
def colT (u : StatSet) (f : BitVec 4) (rtz : Bool) (r : FedRow) (k : Nat) : U32 :=
  if f = 7 then
    (List.range 128).foldl (fun s n => cellAddInt s (elemAt 7 r.bytes n) (mread u.data (128 * k + n)).toNat) 0
  else (List.range 128).foldl (fun s n => cellAdd rtz s (moveNum f r n) (statNum u k n)) f32negZero

def rowResult (u : StatSet) (p : PassRec) (r : FedRow) : List U32 :=
  if p.tOrient then (List.range 256).map (colT u p.mfmt p.rtz r) else (List.range 128).map (colN u p.mfmt p.rtz r)

/-- A word of the ACB. -/
def acbWord (m : Mem) (a : Nat) : U32 := BitVec.ofNat 32 (mreadLE m a 4)
def acbPut (m : Mem) (a : Nat) (v : U32) : Mem := mwrites m a (toBytes 4 v.toNat)

/-- Bytes of a view's entry: 512 in N, 1,024 in T (R116). -/
def viewBytes (tOrient : Bool) : Nat := if tOrient then 1024 else 512

/-- The drain writes one column's result (R117, R144). -/
def drainWord (p : PassRec) (e j : Nat) (s : U32) (acb : Mem) : Mem :=
  let vb := viewBytes p.tOrient
  match p.mode.toNat with
  | 0 => acbPut acb (vb * e + 4 * j) s
  | 1 =>
    let a := acbWord acb (vb * e + 4 * j)
    acbPut acb (vb * e + 4 * j) (if p.mfmt = 7 then a + s else f32add p.rtz a s)
  | _ =>
    let a := acbWord acb (vb * (2 * e) + 4 * j)
    let t := f32add false a s
    let d := twoSumErr a s t
    let err := acbWord acb (vb * (2 * e + 1) + 4 * j)
    acbPut (acbPut acb (vb * (2 * e) + 4 * j) t) (vb * (2 * e + 1) + 4 * j) (f32add false err d)

/-- The drain writes row m: entry ACB_ENTRY + m. -/
def drainRowInto (p : PassRec) (m : Nat) (l : List U32) (acb : Mem) : Mem :=
  (l.zip (List.range l.length)).foldl (fun a x => drainWord p (p.entry + m) x.2 x.1 a) acb

/-- The drains of one array in cycle t, in issue order of the passes (log entry 35). -/
def ArrayUnit.drain (t : Nat) (u : ArrayUnit) : ArrayUnit :=
  u.passes.foldl (fun u p =>
    match p.drainRow t with
    | some m =>
      match p.fed.find? fun r => r.m == m with
      | some r => { u with
          acb := drainRowInto p m (rowResult (u.setOf p.useSetB) p r) u.acb
          passes := u.passes.map fun q => if q.issue = p.issue ∧ q.idx = p.idx then { q with fed := q.fed.filter fun x => x.m != m } else q }
      | none => u
    | none => u) u

/-- The ACB_FILL writes of one array in cycle t (R118). -/
def ArrayUnit.fillWrites (t : Nat) (u : ArrayUnit) : ArrayUnit :=
  u.fills.foldl (fun u f =>
    if f.issue + 2 ≤ t ∧ t < f.issue + 2 + f.count then
      { u with acb := (List.range 128).foldl (fun a n => acbPut a (512 * (f.entry + (t - f.issue - 2)) + 4 * n) f.value) u.acb }
    else u) u

/-! ## The stationary loader (R109) -/

/-- Lines of a sweep of nl lines in its j-th cycle, relative to its base. -/
def sweepPair (nl j : Nat) : List Nat :=
  if nl % 32 = 0 then [32 * (j / 16) + j % 16, 32 * (j / 16) + j % 16 + 16] else [2 * j, 2 * j + 1]

/-- What the loader reads in cycle t: (in the aux block, line of the block). -/
def LoadRec.reads (r : LoadRec) (t : Nat) : List (Bool × Nat) :=
  let j := t - (r.issue + 2)
  let nd := statLines r.fmt
  let na := auxLines r.fmt r.sparse
  if t < r.issue + 2 then []
  else if j < nd / 2 then (sweepPair nd j).map fun l => (false, l)
  else if j < nd / 2 + na / 2 then (sweepPair na (j - nd / 2)).map fun l => (true, l)
  else []

def LoadRec.lineAddr (r : LoadRec) (x : Bool × Nat) : Nat := (if x.1 then r.aux else r.src) / 256 + x.2
def LoadRec.complete (r : LoadRec) : Nat := r.issue + 4 + loadCycles r.fmt r.sparse

/-- Lines read by the loader go into the shadow set. -/
def loadTake (read : List ((Bool × Nat) × List Byte)) (u : ArrayUnit) : ArrayUnit :=
  u.updSet (!u.activeB) fun s => read.foldl (fun s l =>
    if l.1.1 then { s with aux := mwrites s.aux (256 * l.1.2) l.2 } else { s with data := mwrites s.data (256 * l.1.2) l.2 }) s

/-! ## Issue effects -/

/-- STAT_LOAD (R109, R110). The shadow set's data and aux lines are cleared as the load begins and fill as it reads: DESIGN CHOICE, since no rule
says what lines not read yet hold (log entry 61). -/
def effStatLoad (c : Fin 32) (j : Fin 2) (e : LookEntry) (s : State) : State :=
  s.updArr c j fun u =>
    { u.updSet (!u.activeB) (fun x => { x with data := [], aux := [] }) with
      shadowValid := false
      load := some ⟨e.idx, e.issue, slFmt e.words, slSparse e.words, slTag e.words, slSrc e.words, slAux e.words, sigsOf e.words⟩ }

/-- STAT_SWAP (R111). -/
def effStatSwap (c : Fin 32) (j : Fin 2) (e : LookEntry) (s : State) : State :=
  fireSignals c e.idx (sigsOf e.words)
    (s.updArr c j fun u => { u with activeB := !u.activeB, shadowValid := false, idleFrom := max u.idleFrom (e.issue + 1) })

/-- The direct-feed stream that is armed on an engine for an array (R120, R219). -/
def directStream (k : Core) (g : Fin 4) (j : Fin 2) : Option (BitVec 11) :=
  (k.streams.find? fun p =>
    let d := tget 0 k.descs p.1
    p.1 / 512 == g.val && p.2.armed && sdKind d == 3 && sdArray d == j.val).map fun p => BitVec.ofNat 11 p.1

/-- A pass (R107, R108): its active set stays the one of its issue cycle; a direct pass takes M positions (R219). -/
def effPass (tOrient direct : Bool) (c : Fin 32) (j : Fin 2) (e : LookEntry) (s : State) : State :=
  let w := e.words
  let k := s.core c
  let u := k.arr j
  let ds := if direct then directStream k (psEngine w) j else none
  let p : PassRec :=
    { idx := e.idx, issue := e.issue, rows := psRows w, tOrient := tOrient, direct := ds, mfmt := psFmt w, mode := psMode w
      rtz := psRtz w, entry := psEntry w, pitch := psPitch w, src := psSrc w, scaleSrc := psScale w
      first := match ds with | some d => (k.stream d).handed | none => 0
      useSetB := u.activeB, sig := sigsOf w }
  let s := s.updArr c j fun u =>
    { u.updSet u.activeB (fun x => { x with usedUntil := max x.usedUntil p.done }) with
      passes := u.passes ++ [p], passCount := u.passCount + 1, doneFlag := BitVec.ofNat 7 (sigIndex (sig0Of w)) }
  match ds with
  | some d => s.updCore c fun k => k.updStream d fun st => { st with handed := st.handed + psRows w }
  | none => s

/-- A command of the array has completed in this cycle (R115). -/
def ArrayUnit.over (u : ArrayUnit) (t : Nat) : ArrayUnit := { u with idleFrom := t + 1 }

/-- ACB_FILL (R118). -/
def effAcbFill (c : Fin 32) (j : Fin 2) (e : LookEntry) (s : State) : State :=
  s.updArr c j fun u => { u with
    fills := u.fills ++ [⟨e.idx, e.issue, afEntry e.words, afCount e.words, afValue e.words, sigsOf e.words⟩] }

/-! ## Completions -/

/-- STAT_LOAD_COMPLETE (R109): the set takes the format, SPARSE and TAG, awaits a swap, and the signals fire. -/
def execStatLoadComplete (core : Fin 32) (array : Fin 2) (s : State) : Host.Outcome State Fault Refusal :=
  .next <|
    match ((s.core core).arr array).load with
    | some r =>
      if r.complete ≤ s.seq.cycle then
        fireSignals core r.idx r.sig (s.updArr core array fun u =>
          { (u.updSet (!u.activeB) fun x => { x with fmt := r.fmt, sparse := r.sparse, tag := r.tag }).over s.seq.cycle with
            load := none, shadowValid := true })
      else s
    | none => s

/-- PASS_DONE (R108): the last row is valid; the signals fire, the done flag among them. -/
def execPassDone (core : Fin 32) (array : Fin 2) (s : State) : Host.Outcome State Fault Refusal :=
  .next <|
    match ((s.core core).arr array).passes.find? fun p => decide (p.done ≤ s.seq.cycle) with
    | some p => fireSignals core p.idx p.sig (s.updArr core array fun u => { u.over s.seq.cycle with passes := u.passes.erase p })
    | none => s

/-- ACB_FILL_COMPLETE (R118). -/
def execAcbFillComplete (core : Fin 32) (array : Fin 2) (s : State) : Host.Outcome State Fault Refusal :=
  .next <|
    match ((s.core core).arr array).fills.find? fun f => decide (f.issue + 2 + f.count ≤ s.seq.cycle) with
    | some f => fireSignals core f.idx f.sig (s.updArr core array fun u => { u.over s.seq.cycle with fills := u.fills.erase f })
    | none => s

/-! ## Elastic links (R121 to R124) -/

/-- The slice of a group that is due next: its pass and row. -/
def ArrayUnit.dueSlice (u : ArrayUnit) (g : Fin 8) (t : Nat) : Option (PassRec × Nat) :=
  (u.passes.find? fun p => decide (p.slices.get g < p.rows)).bind fun p =>
    let m := p.slices.get g
    if p.enter m + 16 * cellHop p.mfmt * g.val + u.late.get g ≤ t then some (p, m) else none

/-- Slice g of row m is present: always from scratchpad; of a direct row in group 0 once the row of that stream position is at the
links; in later groups with the row (R121, R219). -/
def ArrayUnit.slicePresent (u : ArrayUnit) (g : Fin 8) (p : PassRec) (m : Nat) : Bool :=
  p.direct.isNone || g.val != 0 || u.rows.any fun r => r.m == p.first + m

/-- Cycle t lies outside cycles c + 4 to c + 3 + M R of every pass. -/
def ArrayUnit.noFeed (u : ArrayUnit) (t : Nat) : Bool :=
  u.passes.all fun p => decide (t < p.issue + 4) || decide (p.issue + 3 + p.rows * rowCadence p.mfmt < t)

def lateFloor (u : ArrayUnit) (g : Fin 8) : Nat := if g.val = 0 then 0 else u.late.get ⟨g.val - 1, by omega⟩

/-- The first statement of R122's body for a group: sums from the group before arrive late. -/
def raiseLate (g : Fin 8) (u : ArrayUnit) : ArrayUnit :=
  if u.late.get g < lateFloor u g then { u with late := u.late.set g (lateFloor u g) } else u

/-- A slice enters; a direct row moves from the links into its pass with its first slice. -/
def enterSlice (g : Fin 8) (p : PassRec) (u : ArrayUnit) : ArrayUnit :=
  let q := { p with slices := p.slices.set g (p.slices.get g + 1) }
  if p.direct.isSome ∧ g.val = 0 then
    match u.rows.find? fun r => r.m == p.first + p.slices.get g with
    | some r => { u with
        rows := u.rows.erase r
        passes := u.passes.map fun x => if x = p then { q with fed := q.fed ++ [{ r with m := p.slices.get g }] } else x }
    | none => u
  else { u with passes := u.passes.map fun x => if x = p then q else x }

/-- The halt of too many escalations in a leg (R62, R123). -/
def escalationHalt (c : Fin 32) (j : Fin 2) (g : Fin 8) (m : Nat) (s : State) : State :=
  raiseHalt ⟨hcElastic, some c, BitVec.ofNat 8 (1 + j.val), none,
    BitVec.ofNat 64 (2 * c.val + j.val + 256 * g.val + 65536 * m), BitVec.ofNat 64 s.seq.esc⟩ s

/-- The stream engine whose hand-over condition a cause is. -/
def causeEngine : WaitFor → Option (Fin 4)
  | .hand (.loadHand d _) => some (engOf (d.toNat / 512))
  | .hand (.storeHand d _) => some (engOf (d.toNat / 512))
  | .hand (.maskIn d) => some (engOf (d.toNat / 512))
  | .hand (.maskOut d _) => some (engOf (d.toNat / 512))
  | _ => none

/-- STREAM_ENG_HOLDS: one more hold for an engine that is not a cause of it yet (Table 8.11). -/
def countEngHold (c : Fin 32) (w : WaitFor) (s : State) : State :=
  match causeEngine w with
  | some g =>
    let has := match s.clk.hold with
      | some h => h.causes.any fun x => x.core == c && causeEngine x.what == some g
      | none => false
    if has then s else s.updCore c fun k => k.updEng g fun e => { e with holds := satInc e.holds }
  | none => s

/-- The cause of a hold joins the hold of this cycle, or starts one (R58, R60). -/
def holdCause (c : Fin 32) (w : WaitFor) (s : State) : State :=
  let s := countEngHold c w s
  match s.clk.hold with
  | some h => { s with clk := { s.clk with hold := some { h with causes := h.causes ++ [{ core := c, what := w }] } } }
  | none => { s with clk := { s.clk with
      hold := some { cycle := s.seq.cycle, since := s.time.hallTime, acc := s.clk.acc, causes := [{ core := c, what := w }] }
      holdCount := s.clk.holdCount + 1 } }

/-- The hold in force already waits for this slice. -/
def State.waitsSlice (s : State) (c : Fin 32) (j : Fin 2) (g : Fin 8) : Bool :=
  match s.clk.hold with
  | some h => h.causes.any fun x => x.core == c && x.what == .slice j g
  | none => false

/-- An escalation (R123): it is counted, and halts the die over ESC_LIMIT, or holds it. -/
def escalate (c : Fin 32) (j : Fin 2) (g : Fin 8) (m : Nat) (s : State) : State :=
  if s.waitsSlice c j g then s else
  let s := { s.updArr c j (fun u => { u with escCount := satInc u.escCount, escLeg := satInc u.escLeg }) with
    seq := { s.seq with esc := s.seq.esc + 1 } }
  if s.clk.escLimit ≠ 0 ∧ s.clk.escLimit < s.seq.esc then escalationHalt c j g m s else holdCause c (.slice j g) s

/-- A direct row has entered its array: the element completes and its position is freed (R212, R219). -/
def freeRow (c : Fin 32) (p : PassRec) (m : Nat) (s : State) : State :=
  match p.direct with
  | some d =>
    ackAdd (BitVec.ofNat 5 c.val) (sdAck (tget 0 (s.core c).descs d.toNat)) (s.updCore c fun k => k.updStream d fun st =>
      { st with freed := st.freed + 1, elems := st.elems.filter fun e => e.pos != p.first + m })
  | none => s

/-- The body of R122 for one group in this cycle. -/
def groupStep (c : Fin 32) (j : Fin 2) (g : Fin 8) (s : State) : State :=
  let s := s.updArr c j (raiseLate g)
  let u := (s.core c).arr j
  match u.dueSlice g s.seq.cycle with
  | some (p, m) =>
    if u.slicePresent g p m then
      let s := s.updArr c j (enterSlice g p)
      if g.val = 0 then freeRow c p m s else s
    else if u.late.get g < 8 then s.updArr c j fun u => { u with late := u.late.set g (u.late.get g + 1) }
    else escalate c j g m s
  | none =>
    if u.noFeed s.seq.cycle ∧ lateFloor u g < u.late.get g then
      s.updArr c j fun u => { u with late := u.late.set g (u.late.get g - 1) }
    else s

/-- ELASTIC_SLICE_DUE (R122): the slice of a group that is due enters, is late, or escalates. On a die that another escalation has halted in this
cycle only its own halt counts (R382). -/
def execElasticSliceDue (core : Fin 32) (array : Fin 2) (group : Fin 8) (s : State) : Host.Outcome State Fault Refusal :=
  .next <|
    if (((s.core core).arr array).dueSlice group s.seq.cycle).isNone then s
    else if s.seq.state = .running then groupStep core array group s
    else if sameHaltCycle s then onlyCauses (groupStep core array group) s
    else s

/-- The oldest direct-feed element of an array whose bytes are all there and whose row is not at the links yet. -/
def arrivedRow (k : Core) (array : Fin 2) : Option (BitVec 11 × Elem) :=
  k.streams.findSome? fun p =>
    let d := tget 0 k.descs p.1
    if sdKind d = 3 ∧ sdArray d = array.val then
      (p.2.elems.find? fun e => e.need == 0 && !e.done).map fun e => (BitVec.ofNat 11 p.1, e)
    else none

/-- DIRECT_ROW_PRESENT (R121): the oldest row whose bytes have all arrived is present at the links for all eight groups, under its stream
position; its element completes when it enters the array. -/
def execDirectRowPresent (core : Fin 32) (array : Fin 2) (s : State) : Host.Outcome State Fault Refusal :=
  .next <|
    let k := s.core core
    match arrivedRow k array with
    | some (desc, e) =>
      s.updCore core fun k =>
        (k.updStream desc fun st => { st with elems := st.elems.map fun x => if x = e then { e with done := true, buf := [] } else x }).updArr
          array fun u => { u with rows := u.rows ++ [⟨e.pos, mreads e.buf 0 e.len, []⟩] }
    | none => s

end Sys2Proof.Machine
end

