-- ==== Sys2Proof/Machine/Vector.lean ====
section
/-!
DEFINITION. The vector engine: tile operands, slices, chain stages, reductions and masks (R150 to R175).
-/
namespace Sys2Proof.Machine

/-! ## Fields (Tables 6.1, 6.4 and 6.5) -/

abbrev TileDesc := BitVec 48

def vcSrc (w : CmdWords) : TileDesc := (opA w).extractLsb' 0 48
def vcDst (w : CmdWords) : TileDesc := w.w1.extractLsb' 0 48
def tdKind (d : TileDesc) : Nat := bits d 47 46
def tdFmt (d : TileDesc) : Nat := bits d 45 42
def tdRmode (d : TileDesc) : Nat := bits d 41 40
def tdSat (d : TileDesc) : Bool := bit d 39
def tdIndex (d : TileDesc) : Nat := bits d 3 0
def tdAddr (d : TileDesc) : Nat := bits d 35 11
def tdPitch (d : TileDesc) : Nat := bits d 10 0
def tdArray (d : TileDesc) : Fin 2 := arrayOf (bits d 37 37)
def tdView (d : TileDesc) : Bool := bit d 36
def tdRead (d : TileDesc) : Nat := bits d 35 34
def tdCol (d : TileDesc) : Nat := bits d 33 32
def tdEntry (d : TileDesc) : Nat := bits d 10 0

def chMout (w : CmdWords) : Option (Fin 4) := if bit (opA w) 63 then some (engOf (bits (opA w) 62 61)) else none
def chMin (w : CmdWords) : Option (Fin 4) := if bit (opA w) 60 then some (engOf (bits (opA w) 59 58)) else none
def chStages (w : CmdWords) : Nat := bits (opA w) 55 53 + 1
def chTb (w : CmdWords) : Option Nat := if bit (opA w) 52 then some (bits (opA w) 51 48) else none

abbrev Stage := BitVec 48
def stOp (g : Stage) : Nat := bits g 47 43
def stOpnd (g : Stage) : Nat := bits g 42 41
def stCmp (g : Stage) : Nat := bits g 40 38
def stCdest (g : Stage) : Nat := bits g 37 36
def stPdest (g : Stage) : Nat := bits g 35 32
def stImm (g : Stage) : U32 := g.extractLsb' 0 32

/-- Stage slot j: 0 to 3 in word 1, 4 to 7 in word 3 (R169). -/
def stageAt (w : CmdWords) (j : Nat) : Stage :=
  if j < 4 then w.w1.extractLsb' (48 * j + 48) 48 else w.w3.extractLsb' (48 * (j - 4) + 48) 48
def chainStages (w : CmdWords) : List Stage := (List.range (chStages w)).map (stageAt w)

def rdSrc (w : CmdWords) : Nat := bits (opA w) 59 56
def rdDst (w : CmdWords) : Nat := bits (opA w) 55 52
def rdWrite (w : CmdWords) : Bool := bit (opA w) 51
def rdSpread (w : CmdWords) : Bool := bit (opA w) 50
def rdAxis (w : CmdWords) : Nat := bits (opA w) 49 48
def rdRop (w : CmdWords) : Nat := bits (opA w) 47 44
def rdPen (w : CmdWords) : Bool := bit (opA w) 43
def rdPcmp (w : CmdWords) : Nat := bits (opA w) 42 40
def rdPmode (w : CmdWords) : Nat := bits (opA w) 39 38
def rdPdest (w : CmdWords) : Nat := bits (opA w) 35 32
def rdPimm (w : CmdWords) : U32 := w.w1.extractLsb' 0 32

def isChain (w : CmdWords) : Bool := w.opcode == 0x20
def isReduce (w : CmdWords) : Bool := w.opcode == 0x21
def isMove (w : CmdWords) : Bool := w.opcode == 0x22

/-- NFT, where the command has the field (R175). -/
def vecNft (w : CmdWords) : Bool := if isChain w then bit (opA w) 56 else if isMove w then bit (opA w) 49 else false

/-- STEP_MARK, where the command has the field. -/
def vecStepMark (w : CmdWords) : Bool := if isChain w then bit (opA w) 57 else if isMove w then bit (opA w) 48 else false

/-- The SR block: bits [255:48] of word 2 of a chain, of word 1 of a TILE_MOVE. -/
def srBlock (w : CmdWords) : W256 := if isChain w then w.w2 else w.w1

/-! ## Timing (R157, Table 6.2) -/

/-- Cycle of the first write, from the issue cycle; slice q is written q cycles later. -/
def vecWriteOff (w : CmdWords) : Nat := if isReduce w then 14 else if isMove w then 4 else 4 + 4 * chStages w
/-- Completion, from the issue cycle. -/
def vecDoneOff (w : CmdWords) : Nat := vecWriteOff w + 3
/-- The command has write cycles: a REDUCE with WRITE = 0 has none. -/
def vecWrites (w : CmdWords) : Bool := !isReduce w || rdWrite w
def VecRec.done (r : VecRec) : Nat := r.issue + vecDoneOff r.words

/-- The slice a command reads, or writes, in cycle t. -/
def VecRec.readSlice (r : VecRec) (t : Nat) : Option Nat := if r.issue + 2 ≤ t ∧ t < r.issue + 6 then some (t - r.issue - 2) else none
def VecRec.writeSlice (r : VecRec) (t : Nat) : Option Nat :=
  let b := r.issue + vecWriteOff r.words
  if b ≤ t ∧ t < b + 4 then some (t - b) else none

/-! ## Scratchpad tiles (R154, R161) -/

/-- Bytes of one tile row in scratchpad. -/
def tileRowBytes (fmt : Nat) : Nat := 8 * fmtBits fmt
def scaledFmt (fmt : Nat) : Bool := isMx fmt || fmt == 10
def tileRowAddr (d : TileDesc) (r : Nat) : Nat := tdAddr d + 32 * tdPitch d * r
def tileScaleAddr (d : TileDesc) : Nat := tdAddr d + 2048 * tdPitch d

/-- The distinct lines that one slice's access touches (R161). -/
def tileLines (d : TileDesc) (q : Nat) : List Nat :=
  (((List.range 16).map fun i => tileRowAddr d (16 * q + i) / 256) ++
    (if scaledFmt (tdFmt d) then [tileScaleAddr d / 256] else [])).eraseDups

/-- The lowest byte address that a slice's access names in a line: of its rows, and of its 32 bytes of the scale block (R154, R160). -/
def tileFrom (d : TileDesc) (q l : Nat) : Nat :=
  let a := ((List.range 16).map fun i => tileRowAddr d (16 * q + i)) ++ (if scaledFmt (tdFmt d) then [tileScaleAddr d + 32 * q] else [])
  (a.filter fun x => x / 256 == l).foldl min (256 * l + 255)

/-! ## Reading a slice as FP32 (R155, R156) -/

/-- Bytes as scheduled reads of this cycle see them. -/
abbrev Reader := Nat → Nat → List Byte

/-- The conversion of one stored element to FP32. -/
def widen (fmt rmode w : Nat) (scale : Num) : U32 :=
  if scaledFmt fmt then scaledF32 fmt w scale
  else if fmt = 12 then toF32m (rmode == 1) (decodeElem 12 w)
  else toF32 (decodeElem fmt w)

def spadElem (rd : Reader) (d : TileDesc) (r c : Nat) : U32 :=
  let fmt := tdFmt d
  let w := packedAt4 (rd (tileRowAddr d r) (tileRowBytes fmt)) (fmtBits fmt) c
  let scale : Num :=
    if isMx fmt then e8m0 ((rd (tileScaleAddr d + 2 * r + c / 32) 1).getD 0 0)
    else if fmt = 10 then ofF32 (BitVec.ofNat 32 (ofBytes (rd (tileScaleAddr d + 4 * (r / 2)) 4)))
    else .fin false 1 0
  widen fmt (tdRmode d) w scale
where
  packedAt4 (row : List Byte) (b n : Nat) : Nat := ofBytes ((row.drop (b * n / 8)).take (b / 8 + 2)) / 2 ^ (b * n % 8) % 2 ^ b

/-- The value of view entry ENTRY + r and column 64 COL + c under READ (R155). -/
def acbElem (acb : Mem) (d : TileDesc) (r c : Nat) : U32 :=
  let vb := if tdView d then 1024 else 512
  let word := fun (e : Nat) => mreadLE acb (vb * e + 4 * (64 * tdCol d + c)) 4
  let e := tdEntry d + r
  let conv := fun (w : Nat) => widen (tdFmt d) (tdRmode d) w (.fin false 1 0)
  match tdRead d with
  | 0 => conv (word e)
  | 1 => f32add false (conv (word (2 * e))) (conv (word (2 * e + 1)))
  | 2 => conv (word (2 * e))
  | _ => conv (word (2 * e + 1))

def tileWord (k : Core) (t r c : Nat) : U32 := tget 0 k.tiles (4096 * t + 64 * r + c)

/-- The 1,024 lanes of a slice. -/
def lanes (q : Nat) (f : Nat → Nat → U32) : List U32 := (List.range 1024).map fun i => f (16 * q + i / 64) (i % 64)

/-- Slice q of a source, converted to FP32. -/
def readTile (k : Core) (rd : Reader) (d : TileDesc) (q : Nat) : List U32 :=
  lanes q fun r c =>
    match tdKind d with
    | 0 => toF32 (ofF32 (tileWord k (tdIndex d) r c))
    | 1 => spadElem rd d r c
    | _ => acbElem (k.arr (tdArray d)).acb d r c

/-! ## Random bits (R166) -/

/-- SEED, STREAM, STEP in force, BASE_INDEX, ROW_STRIDE. -/
structure SrArgs where
  seed : U64
  stream : U32
  step : U32
  base : Nat
  stride : Nat

def srArgs (w : CmdWords) (mark : U64) : SrArgs :=
  let b := srBlock w
  { seed := b.extractLsb' 192 64, stream := b.extractLsb' 160 32
    step := if vecStepMark w then mark.setWidth 32 else b.extractLsb' 128 32
    base := bits b 127 80, stride := bits b 79 48 }

def rand16 (a : SrArgs) (flip : U32) (r c : Nat) : U16 :=
  srBits a.seed (a.stream ^^^ flip) (BitVec.ofNat 64 (a.base + a.stride * r + c)) a.step

def rmodeOf (n : Nat) : RMode := match n with | 0 => .rne | 1 => .rtz | _ => .sr

/-! ## Conversions of a slice (R132, R133, R138, R165) -/

/-- Cuts a list into blocks of n. -/
def blocksOf {α : Type} : Nat → Nat → List α → List (List α)
  | 0, _, _ => []
  | _ + 1, _, [] => []
  | fuel + 1, n, l => l.take n :: blocksOf fuel n (l.drop n)

/-- A converted slice: the encodings, the scales of its blocks (a byte for MX, FP32 bits for SB8), and the FP32 values. -/
structure Converted where
  words : List Nat
  scales : List Nat
  vals : List U32

/-- Converts the 1,024 lanes of a slice, with each lane's random bits, under a control (R137). -/
def convSlice (fmt : Nat) (mode : RMode) (sat : Bool) (l : List (U32 × U16)) : Converted :=
  if isMx fmt then
    let bs := (blocksOf 33 32 l).map fun b => mxQuant fmt mode (b.map fun p => (ofF32 p.1, p.2))
    { words := bs.flatMap (·.2), scales := bs.map (·.1.toNat)
      vals := bs.flatMap fun b => b.2.map fun w => scaledF32 fmt w (e8m0 b.1) }
  else if fmt = 10 then
    let bs := (blocksOf 9 128 l).map fun b => sb8Quant mode (b.map fun p => (ofF32 p.1, p.2))
    { words := bs.flatMap (·.2), scales := bs.map (·.1.toNat)
      vals := bs.flatMap fun b => b.2.map fun w => scaledF32 10 w (ofF32 b.1) }
  else
    let ws := l.map fun p => convPlain fmt mode sat p.2 (ofF32 p.1)
    { words := ws, scales := [], vals := ws.map fun w => toF32 (decodeElem fmt w) }

/-! ## Stages (R163, R164, Table 6.3) -/

/-- What runs through a chain for one slice. -/
structure ChainSt where
  x : List U32
  mask : List Bool
  emit : List Bool
  preds : List (Bool × Bool)

/-- Two-operand arithmetic of a lane. -/
def laneOp (op : Nat) (imm x y : U32) : U32 :=
  match op with
  | 0x01 => f32add false x y
  | 0x02 => f32sub x y
  | 0x03 => f32sub y x
  | 0x04 => f32mul x y
  | 0x05 => f32fma x imm y
  | 0x06 => f32max x y
  | 0x07 => f32min x y
  | 0x08 => toF32 (ofF32 x).abs
  | 0x09 => toF32 (ofF32 x).neg
  | 0x0C => toF32 (numExp2 (ofF32 x))
  | 0x0D => toF32 (numLog2 (ofF32 x))
  | 0x0E => toF32 (numRcp (ofF32 x))
  | 0x0F => toF32 (numRsqrt (ofF32 x))
  | 0x10 => toF32 (numTanh (ofF32 x))
  | 0x11 => toF32 (numSigmoid (ofF32 x))
  | _ => x

/-- The operand Y of each lane. A NaN that an IMM holds keeps its payload, and DETAIL1 of NONFINITE_TRAP shows it where SELECT or MASK_APPLY put it
into x: DESIGN CHOICE, R128 and R175 do not say (log entry 65). -/
def stageY (g : Stage) (tb x0 : List U32) : List U32 :=
  match stOpnd g with
  | 0 => x0.map fun _ => stImm g
  | 1 => tb
  | _ => x0

/-- Random bits of each lane of slice q. -/
def laneRand (a : SrArgs) (flip : U32) (q : Nat) : List U16 :=
  (List.range 1024).map fun i => rand16 a flip (16 * q + i / 64) (i % 64)

/-- One stage over a slice. `bits` is the mask-in block's slice. -/
def runStage (a : SrArgs) (q : Nat) (x0 tb : List U32) (minBits : List Bool) (g : Stage) (s : ChainSt) : ChainSt :=
  let y := stageY g tb x0
  match stOp g with
  | 0x0A =>
    let r := (s.x.zip y).map fun p => f32cmp (stCmp g) p.1 p.2
    if stCdest g = 0 then { s with mask := r, preds := s.preds ++ [(false, true)] }
    else { s with preds := s.preds ++ [(r.any id, r.all id)] }
  | 0x0B => { s with x := (s.mask.zip (s.x.zip y)).map fun p => if p.1 then p.2.1 else p.2.2 }
  | 0x12 =>
    let f := bits (stImm g) 7 4
    let c := convSlice f (rmodeOf (bits (stImm g) 3 2)) (bit (stImm g) 1) (s.x.zip (laneRand a 0 q))
    { s with x := c.vals }
  | 0x13 => { s with emit := s.mask }
  | 0x14 => { s with x := (minBits.zip (s.x.zip y)).map fun p => if p.1 then p.2.1 else p.2.2 }
  | 0x15 => { s with mask := (laneRand a 0x80000000 q).map fun r => decide (r.toNat < bits (stImm g) 15 0) }
  | op => { s with x := (s.x.zip y).map fun p => laneOp op (stImm g) p.1 p.2 }

/-- A chain over one slice; a TILE_MOVE runs no stage. -/
def runChain (w : CmdWords) (mark : U64) (q : Nat) (x tb : List U32) (minBits : List Bool) : ChainSt :=
  let init : ChainSt := { x := x, mask := x.map fun _ => true, emit := [], preds := [] }
  if isMove w then init
  else (chainStages w).foldl (fun s g => runStage (srArgs w mark) q x tb minBits g s) init

/-! ## Writing a slice -/

/-- The output conversion of slice q. -/
def outSlice (w : CmdWords) (mark : U64) (q : Nat) (x : List U32) : Converted :=
  let d := vcDst w
  convSlice (tdFmt d) (rmodeOf (tdRmode d)) (tdSat d) (x.zip (laneRand (srArgs w mark) 0 q))

/-- Lane of the first element that traps: NaN or infinite before or after its conversion (R175). -/
def trapLane (x : List U32) (c : Converted) : Option Nat :=
  ((x.zip c.vals).findIdx? fun p => nonfinite32 p.1 || nonfinite32 p.2)

/-- The bytes of a row of encodings. -/
def packRow (b : Nat) (ws : List Nat) : List Byte :=
  toBytes (8 * b) ((ws.zip (List.range ws.length)).foldl (fun n p => n + p.1 * 2 ^ (b * p.2)) 0)

/-- What a scratchpad destination writes for slice q: (address, bytes) of each row and of the scale block's share. -/
def spadWrites (d : TileDesc) (q : Nat) (c : Converted) : List (Nat × List Byte) :=
  let fmt := tdFmt d
  ((blocksOf 17 64 c.words).zip (List.range 16)).map (fun p => (tileRowAddr d (16 * q + p.2), packRow (fmtBits fmt) p.1)) ++
    (if isMx fmt then [(tileScaleAddr d + 32 * q, c.scales.map fun s => BitVec.ofNat 8 s)]
     else if fmt = 10 then [(tileScaleAddr d + 32 * q, c.scales.flatMap (toBytes 4))]
     else [])

def tilePut (t q : Nat) (vals : List U32) (k : Core) : Core :=
  { k with tiles := (vals.zip (List.range vals.length)).foldl (fun m p => tset 0 m (4096 * t + 1024 * q + p.2) p.1) k.tiles }

/-! ## Reductions (R171 to R173) -/

/-- The pairwise sum of a power-of-two list (R148). -/
def treeSum : Nat → List U32 → U32
  | 0, l => l.headD 0
  | n + 1, l => f32add false (treeSum n (l.take (2 ^ n))) (treeSum n (l.drop (2 ^ n)))

/-- One result over 2^n elements. -/
def reduceOne (rop n : Nat) (l : List U32) : U32 :=
  match rop with
  | 0 => treeSum n l
  | 1 => l.tail.foldl f32max (l.headD 0)
  | 2 => l.tail.foldl f32min (l.headD 0)
  | 3 => let a := l.map fun x => toF32 (ofF32 x).abs
         a.tail.foldl f32max (a.headD 0)
  | 4 => treeSum n (l.map fun x => f32mul x x)
  | _ => toF32 (numOfInt (l.countP nonfinite32))

/-- The results of a reduction over the 4,096 elements in row-major order: by row, by column, or one. -/
def reduceAll (w : CmdWords) (l : List U32) : List U32 :=
  match rdAxis w with
  | 0 => (List.range 64).map fun r => reduceOne (rdRop w) 6 ((l.drop (64 * r)).take 64)
  | 1 => (List.range 64).map fun c => reduceOne (rdRop w) 6 ((List.range 64).map fun r => l.getD (64 * r + c) 0)
  | _ => [reduceOne (rdRop w) 12 l]

/-- What element (r, c) of DST receives (R172). -/
def reduceElem (w : CmdWords) (res : List U32) (r c : Nat) : U32 :=
  match rdAxis w with
  | 0 => if rdSpread w || c == 0 then res.getD r 0 else 0
  | 1 => if rdSpread w || r == 0 then res.getD c 0 else 0
  | _ => if rdSpread w || (r == 0 && c == 0) then res.getD 0 0 else 0

/-- The predicate of a reduction (R173). -/
def reducePred (w : CmdWords) (res : List U32) : Bool :=
  let h := res.map fun x => f32cmp (rdPcmp w) x (rdPimm w)
  if rdPmode w = 0 then h.any id else h.all id

/-! ## The engine's cycles -/

/-- Slice q is read (R157). -/
def readSliceInto (k : Core) (rd : Reader) (q : Nat) (r : VecRec) : VecRec :=
  if isReduce r.words then { r with srcSlices := r.srcSlices ++ [lanes q fun a b => tileWord k (rdSrc r.words) a b] }
  else
    { r with
      srcSlices := r.srcSlices ++ [readTile k rd (vcSrc r.words) q]
      tbSlices := match chTb r.words with
        | some t => if isChain r.words then r.tbSlices ++ [lanes q fun a b => toF32 (ofF32 (tileWord k t a b))] else r.tbSlices
        | none => r.tbSlices }

/-- Predicate results of the slices so far: OR and AND by stage. -/
def joinPreds (a b : List (Bool × Bool)) : List (Bool × Bool) :=
  if a.isEmpty then b else (a.zip b).map fun p => (p.1.1 || p.2.1, p.1.2 && p.2.2)

/-- NONFINITE_TRAP (R175). -/
def trapHalt (c : Fin 32) (r : VecRec) (q lane : Nat) (x : U32) (s : State) : State :=
  let s := s.updCore c fun k => { k with vec := { k.vec with
    inFlight := k.vec.inFlight.map fun v => if v.idx = r.idx ∧ v.issue = r.issue then { v with trapped := true } else v } }
  raiseHalt ⟨hcNonfinite, some c, 3, some r.idx, BitVec.ofNat 64 (1024 * q + lane + 4096 * q), x.setWidth 64⟩ s

def updVec (c : Fin 32) (r : VecRec) (f : VecRec → VecRec) (s : State) : State :=
  s.updCore c fun k => { k with vec := { k.vec with
    inFlight := k.vec.inFlight.map fun v => if v.idx = r.idx ∧ v.issue = r.issue then f v else v } }

def countNf (c : Fin 32) (b : Bool) (s : State) : State :=
  if b then s.updCore c fun k => { k with vec := { k.vec with nfCount := satInc k.vec.nfCount } } else s

/-- Writes of a slice that the bank takes; `refused` are the lines that a bank conflict refused (R199). -/
def putSpad (refused : List Nat) (l : List (Nat × List Byte)) (k : Core) : Core :=
  { k with spad := l.foldl (fun m p => if refused.contains (p.1 / 256) then m else mwrites m p.1 p.2) k.spad }

/-- Slice q of a chain or a move is converted and written. -/
def writeChain (c : Fin 32) (r : VecRec) (q : Nat) (refused : List Nat) (s : State) : State :=
  let x := r.srcSlices.getD q []
  let st := runChain r.words s.seq.legMark q x (r.tbSlices.getD q []) ((r.maskIn.drop (1024 * q)).take 1024)
  let o := outSlice r.words s.seq.legMark q st.x
  let bad := trapLane st.x o
  match vecNft r.words, bad with
  | true, some lane => trapHalt c r q lane (st.x.getD lane 0) s
  | _, _ =>
    let s := countNf c bad.isSome s
    let s := updVec c r (fun v => { v with maskOut := v.maskOut ++ st.emit, preds := joinPreds v.preds st.preds }) s
    let d := vcDst r.words
    if tdKind d = 0 then s.updCore c (tilePut (tdIndex d) q o.vals)
    else s.updCore c (putSpad refused (spadWrites d q o))

/-- Slice q of a reduction is written. -/
def writeReduce (c : Fin 32) (r : VecRec) (q : Nat) (s : State) : State :=
  if rdWrite r.words then
    let res := reduceAll r.words r.srcSlices.flatten
    let l := lanes q (reduceElem r.words res)
    countNf c (l.any nonfinite32) (s.updCore c (tilePut (rdDst r.words) q l))
  else s

/-- The writes of one command in this cycle; a trapped command writes no more (R175). -/
def vecWrite (c : Fin 32) (refused : List Nat) (r : VecRec) (s : State) : State :=
  match r.writeSlice s.seq.cycle with
  | some q => if r.skipped || r.trapped then s else if isReduce r.words then writeReduce c r q s else writeChain c r q refused s
  | none => s

/-! ## Masks (R167, R220) -/

/-- The mask stream of a kind that is armed on an engine. -/
def maskStream (k : Core) (g : Fin 4) (kind : Nat) : Option (BitVec 11) :=
  (k.streams.find? fun p => p.1 / 512 == g.val && p.2.armed && sdKind (tget 0 k.descs p.1) == kind).map fun p => BitVec.ofNat 11 p.1

/-- The block that the next executed chain takes, once it is in the buffer. -/
def maskBlock (k : Core) (g : Fin 4) : Option (BitVec 11 × Elem) :=
  (maskStream k g 4).bind fun d =>
    let st := k.stream d
    (st.elems.find? fun e => e.pos == st.handed && e.done).map fun e => (d, e)

/-- 4,096 bits of a 512-byte block. -/
def blockBits (l : List Byte) : List Bool := l.flatMap fun b => (List.range 8).map fun i => bit b i
def bitsBlock (l : List Bool) : List Byte :=
  (blocksOf 513 8 l).map fun b => BitVec.ofNat 8 ((b.zip (List.range 8)).foldl (fun n p => n + b2n p.1 * 2 ^ p.2) 0)

/-- The chain's mask-in block is handed over in cycle c + 2 and freed after that read; STREAM_DESC_FREED shows the freed positions: DESIGN CHOICE,
R227 does not say whether it counts them or those completed under R212 (log entry 65). -/
def takeMask (c : Fin 32) (r : VecRec) (s : State) : State :=
  match (chMin r.words).bind fun g => maskBlock (s.core c) g with
  | some (d, e) =>
    let s := s.updCore c fun k => k.updStream d fun st =>
      { st with handed := st.handed + 1, freed := st.freed + 1, elems := st.elems.erase e }
    updVec c r (fun v => { v with maskIn := blockBits (mreads e.buf 0 512) }) s
  | none => s

/-- The chain's mask-out block goes to its stream in the completion cycle. -/
def giveMask (c : Fin 32) (r : VecRec) (s : State) : State :=
  match (chMout r.words).bind fun g => maskStream (s.core c) g 5 with
  | some d => s.updCore c fun k => k.updStream d fun st => { st with
      handed := st.handed + 1
      elems := st.elems ++ [{ pos := st.handed, need := 512, len := 512, buf := mwrites [] 0 (bitsBlock r.maskOut), started := false }] }
  | none => s

/-! ## Commands -/

/-- A vector command joins the engine (R157). -/
def effVec (c : Fin 32) (e : LookEntry) (s : State) : State :=
  s.updCore c fun k => { k with vec := { k.vec with
    inFlight := k.vec.inFlight ++ [{ idx := e.idx, issue := e.issue, words := e.words, skipped := false }]
    cmdCount := k.vec.cmdCount + 1 } }

/-- The predicate writes of a chain in stage order, or of a reduction (R168, R173). -/
def vecPreds (c : Fin 32) (r : VecRec) (s : State) : State :=
  if isChain r.words then
    let cmps := (chainStages r.words).filter fun g => stOp g == 0x0A
    (cmps.zip r.preds).foldl (fun s p =>
      match stCdest p.1 with
      | 1 => writePred c (stPdest p.1) p.2.1 s
      | 2 => writePred c (stPdest p.1) p.2.2 s
      | _ => s) s
  else if isReduce r.words ∧ rdPen r.words then
    writePred c (rdPdest r.words) (reducePred r.words (reduceAll r.words r.srcSlices.flatten)) s
  else s

/-- VECTOR_COMPLETE (R157, R167, R168): the mask-out block is handed over, the predicates are written, the signals fire. -/
def execVectorComplete (core : Fin 32) (s : State) : Host.Outcome State Fault Refusal :=
  .next <|
    match (s.core core).vec.inFlight.find? fun r => !r.skipped && !r.trapped && decide (r.done ≤ s.seq.cycle) with
    | some r =>
      let s := s.updCore core fun k => { k with vec := { k.vec with
        inFlight := k.vec.inFlight.erase r, lastDone := BitVec.ofNat 32 r.done } }
      let s := if isChain r.words then giveMask core r s else s
      fireSignals core r.idx (sigsOf r.words) (vecPreds core r s)
    | none => s

end Sys2Proof.Machine
end

