-- ==== Sys2Proof/Machine/Check.lean ====
section
/-!
DEFINITION. The validator (R65 to R73, R82, R90 to R92, R96, R103, R114, R152 to R176, R210 to R224, R232 to R260, R416): which
checks a command fails, and the halt cause that follows.
-/
namespace Sys2Proof.Machine

/-- A failing sub-code, where a condition holds. -/
def when_ (b : Bool) (code : Nat) : List Nat := if b then [code] else []

/-- Bits [hi:lo] of a word are not all zero. -/
def nz {n : Nat} (w : BitVec n) (hi lo : Nat) : Bool := decide (bits w hi lo ≠ 0)

/-! ## The header (Tables 3.2 to 3.5, R70) -/

def rsHeader (w : CmdWords) : Bool :=
  let h := headerOf w
  nz h 63 48 || nz h 34 29 || nz h 21 18 || nz h 15 12
def rsWait (f : U32) : Bool := waitKind f != 0 && nz f 22 16
def rsSig (f : U32) : Bool := sigOp f != 0 && nz f 19 16

/-- TARGET and word counts of an opcode (Table 3.11): lowest and highest target, lowest and highest count. -/
def opShape (op : Nat) : Option (Nat × Nat × Nat × Nat) :=
  if op ≤ 0x03 then some (0, 0, 1, 1)
  else if op = 0x10 ∨ op = 0x15 then some (1, 2, 2, 2)
  else if op = 0x11 then some (1, 2, 1, 1)
  else if 0x12 ≤ op ∧ op ≤ 0x14 then some (1, 2, 3, 3)
  else if op = 0x20 then some (3, 3, 2, 4)
  else if op = 0x21 ∨ op = 0x22 then some (3, 3, 2, 2)
  else if op = 0x30 ∨ op = 0x32 then some (4, 7, 2, 2)
  else if op = 0x31 ∨ op = 0x33 then some (4, 7, 1, 1)
  else if op = 0x40 then some (8, 8, 3, 3)
  else if op = 0x50 then some (9, 9, 2, 2)
  else if op = 0x51 ∨ op = 0x52 then some (9, 9, 1, 1)
  else if op = 0x60 ∨ op = 0x61 ∨ op = 0x63 then some (10, 10, 2, 2)
  else if op = 0x62 then some (10, 10, 1, 1)
  else none

/-- OPCODE_ILLEGAL: opcode undefined or not defined for TARGET, or TARGET reserved (R67, R96). -/
def opIllegal (w : CmdWords) : Bool :=
  match opShape w.opcode with
  | some (lo, hi, _, _) => !(decide (lo ≤ targetOf w) && decide (targetOf w ≤ hi))
  | none => true

/-- A chain uses SR (R169). -/
def chainSr (w : CmdWords) : Bool :=
  tdRmode (vcDst w) == 2 || vecStepMark w ||
    (chainStages w).any fun g => (stOp g == 0x12 && bits (stImm g) 3 2 == 2) || stOp g == 0x15

/-- The word count does not fit the opcode (R96, R169). -/
def badCount (w : CmdWords) : Bool :=
  let n := nwordsOf w
  if isChain w then
    (if 5 ≤ chStages w then n != 4 else if chainSr w then n != 3 else !(n == 2 || n == 3))
  else match opShape w.opcode with
    | some (_, _, lo, hi) => !(decide (lo ≤ n) && decide (n ≤ hi))
    | none => false

/-- Position of a core in CORE_START_ORDER, of an array in ARRAY_START_ORDER (R64). -/
def corePos (s : State) (c : Fin 32) : Nat := (s.clk.coreOrder.toList.findIdx? fun b => b.toNat == c.val).getD 0
def arrayPos (s : State) (a : Nat) : Nat := (s.clk.arrayOrder.toList.findIdx? fun b => b.toNat == a).getD 0

/-- The command issues before its core's or its array's start cycle (R65). -/
def beforeStart (s : State) (c : Fin 32) (e : LookEntry) : Bool :=
  decide (e.issue < 4 * corePos s c) ||
    ((targetOf e.words == 1 || targetOf e.words == 2) &&
      decide (e.issue < 8 * arrayPos s (2 * c.val + (arrayOfTarget (targetOf e.words)).val)))

/-- The command breaks the limits of one cycle (R72). -/
def overloads (k : Core) (e : LookEntry) : Bool :=
  k.slotCycle == e.issue && !k.slotTargets.isEmpty &&
    (decide (2 ≤ k.slotTargets.length) || decide (4 < k.slotWords + nwordsOf e.words) ||
      (targetOf e.words != 0 && k.slotTargets.contains (targetOf e.words)))

/-- The engine holds two commands (R68). -/
def engineFull (k : Core) (e : LookEntry) : Bool :=
  targetOf e.words != 0 && decide (2 ≤ (k.spans.filter fun x => x.1 == targetOf e.words && decide (e.issue ≤ x.2)).length)

/-- A bell word's address that a command or a descriptor may name (R228, R260). -/
def bellAddrOk (s : State) (a : U64) : Bool :=
  if haModule a = s.module then bellWordHere s a
  else decide (haOff a % 8 = 0) && (haSpace a == 0 || haSpace a == 1 || haSpace a == 4) && offsetFits (haSpace a) (haOff a) 8 &&
    bit (tget 0 s.fab.route (haModule a).toNat) 31 && (remoteKey s (haModule a) (haSpace a) (haOff a) 8).isSome

/-- The address field of an operation: a group, or one module. -/
def bellTargetOk (s : State) (a : U64) (mcast : Bool) : Bool :=
  if mcast then
    let g := tget {} s.groups (bits a 63 56)
    g.defined && bits a 55 52 == 0 &&
      g.modules.all fun m => bellAddrOk s (BitVec.ofNat 64 (m.1.toNat * 2 ^ 52 + bits a 51 0))
  else bellAddrOk s a

/-- A BELL signal names an unused descriptor (R232). -/
def sigBellBad (k : Core) (f : U32) : Bool := sigOp f == 4 && !bdValid (tget 0 k.bellDescs (sigIndex f))

/-- A BELL signal whose descriptor is used names no bell word (R260). -/
def sigAddrBad (s : State) (k : Core) (f : U32) : Bool :=
  let d := tget 0 k.bellDescs (sigIndex f)
  sigOp f == 4 && bdValid d && !bellTargetOk s (bdAddr d) (bdMcast d)

/-- A wait names a buoy that was not armed at the lookout (R242). -/
def waitUnarmed (e : LookEntry) : Bool :=
  (waitKind (wait0Of e.words) == 3 || waitKind (wait1Of e.words) == 3) && !e.buoysArmed

/-- The checks every command shares. -/
def commonChecks (s : State) (c : Fin 32) (e : LookEntry) : List Nat :=
  let k := s.core c
  let w := e.words
  when_ (rsHeader w || rsWait (wait0Of w) || rsWait (wait1Of w) || rsSig (sig0Of w) || rsSig (sig1Of w)) 0x01 ++
  when_ (badCount w || decide (k.blockWords < e.idx + nwordsOf w)) 0x02 ++
  when_ (decide (16 ≤ pselOf w) && decide (pselOf w ≤ 30)) 0x03 ++
  when_ (waitBad (wait0Of w) || waitBad (wait1Of w)) 0x04 ++
  when_ (sigBad (sig0Of w) || sigBad (sig1Of w)) 0x05 ++
  when_ (overloads k e) 0x06 ++
  when_ (!e.skip && engineFull k e) 0x07 ++
  when_ (beforeStart s c e) 0x08 ++
  when_ (decide (s.seq.cur.leg.l.toNat < e.issue)) 0x09 ++
  when_ (sigAddrBad s k (sig0Of w) || sigAddrBad s k (sig1Of w)) 0x50 ++
  when_ (sigBellBad k (sig0Of w) || sigBellBad k (sig1Of w)) 0x51 ++
  when_ (waitUnarmed e) 0x53

/-! ## Issue unit (Table 3.6, R82) -/

def issueUnitChecks (w : CmdWords) : List Nat :=
  let a := opA w
  match w.opcode with
  | 0x00 => when_ (a != 0) 0x01
  | 0x01 => when_ (nz a 63 32) 0x01
  | 0x02 => when_ (nz a 63 14) 0x01
  | _ => when_ (nz a 63 32 || nz a 5 4) 0x01 ++
      when_ (!(bits a 7 6 == 1 || (bits a 7 6 == 2 && decide (bits a 13 8 ≤ 31)))) 0x0A

/-! ## Arrays (R103, R106, R108, R110, R111, R114) -/

def statLoadChecks (u : ArrayUnit) (e : LookEntry) : List Nat :=
  let w := e.words
  let f := slFmt w
  let al := auxLines f (slSparse w)
  when_ (nz (opA w) 58 16 || nz w.w1 255 57 || nz w.w1 31 25) 0x01 ++
  when_ (decide (0xB ≤ f.toNat) || (slSparse w && decide (2 ≤ f.toNat)) || (al == 0 && slAux w != 0)) 0x0A ++
  when_ (slSrc w % 256 != 0 || slAux w % 256 != 0) 0x20 ++
  when_ (decide (spadBytes < slSrc w + 256 * statLines f) || (al != 0 && decide (spadBytes < slAux w + 256 * al))) 0x21 ++
  when_ (u.load.isSome || decide (e.issue < u.shadow.usedUntil)) 0x24

/-- Sub-codes whose condition is what the array holds or does. -/
def arrayStateCodes : List Nat := [0x23, 0x24, 0x25, 0x26, 0x28]

def statSwapChecks (u : ArrayUnit) (w : CmdWords) : List Nat := when_ (opA w != 0) 0x01 ++ when_ (!u.shadowValid) 0x25

/-- Entries of the view in a mode (R116). -/
def viewEntries (tOrient compensated : Bool) : Nat :=
  (if tOrient then 1024 else 2048) / (if compensated then 2 else 1)

/-- Drain cycles of a pass that fall in the write cycles of a fill. -/
def drainMeets (issue rows : Nat) (f : BitVec 4) (fillFrom fillTo : Nat) : Bool :=
  (List.range rows).any fun m =>
    let t := issue + passLatency f + m * rowCadence f - 1
    decide (fillFrom ≤ t) && decide (t < fillTo)

def passChecks (k : Core) (j : Fin 2) (tOrient direct : Bool) (e : LookEntry) : List Nat :=
  let w := e.words
  let u := k.arr j
  let f := psFmt w
  let act := u.active
  let slot := movingSlot f (act.sparse && passLegal f act.fmt act.sparse tOrient false) tOrient
  let nb := movingScales f tOrient
  let m := psRows w
  let comp := psMode w == 2
  when_ (nz (opA w) 56 48 || nz (opA w) 35 27 || nz w.w1 255 57 || nz w.w1 31 25 || nz w.w2 255 16) 0x01 ++
  when_ (sigOp (sig0Of w) != 1 || sigValue (sig0Of w) != 1) 0x05 ++
  when_ (decide (0xB ≤ f.toNat) || (nb == 0 && psScale w != 0) ||
    (direct && (psPitch w != 0 || psScale w != 0 || decide (4 ≤ psSrc w)))) 0x0A ++
  when_ (!e.skip && e.staleFlag) 0x0B ++
  when_ (!direct && (psSrc w % (if slot = 128 then 128 else 256) != 0 || (nb != 0 && psScale w % nb != 0) ||
    decide (128 * psPitch w < slot) || (decide (256 ≤ slot) && psPitch w % 2 != 0))) 0x20 ++
  when_ ((!direct && (decide (spadBytes < psSrc w + 128 * psPitch w * (m - 1) + slot) || decide (spadBytes < psScale w + nb * m))) ||
    decide (viewEntries tOrient comp < psEntry w + m)) 0x21 ++
  when_ (psMode w == 3 || (comp && (psRtz w || f == 7))) 0x22 ++
  when_ (match u.passes.getLast? with
    | some p => decide (e.issue + 4 < p.lastEnter + rowCadence p.mfmt)
    | none => false) 0x23 ++
  when_ (psTag w != act.tag) 0x26 ++
  when_ (direct && (match directStream k (psEngine w) j with
    | some d => sdRun (tget 0 k.descs d.toNat) != slot
    | none => true)) 0x27 ++
  when_ (u.fills.any fun q => drainMeets e.issue m f (q.issue + 2) (q.issue + 2 + q.count)) 0x28

def acbFillChecks (u : ArrayUnit) (e : LookEntry) : List Nat :=
  let w := e.words
  when_ (nz (opA w) 63 23 || nz (opA w) 11 11 || nz w.w1 255 32) 0x01 ++
  when_ (decide (2048 < afEntry w + afCount w)) 0x21 ++
  when_ (u.passes.any fun p => drainMeets p.issue p.rows p.mfmt (e.issue + 2) (e.issue + 2 + afCount w)) 0x28

/-! ## Vector engine (R152 to R163, R167, R169, R170) -/

/-- Reserved bits of a tile descriptor. -/
def rsTile (d : TileDesc) : Bool :=
  match tdKind d with
  | 0 => nz d 37 4
  | 1 => nz d 37 36
  | 2 => nz d 31 11
  | _ => false

/-- A control field that its place does not allow (R126, R137, R152, R153). -/
def badCtrl (src : Bool) (d : TileDesc) : Bool :=
  let f := tdFmt d
  let r := tdRmode d
  tdKind d == 3 || (!src && tdKind d == 2) || bit d 38 || decide (13 ≤ f) || r == 3 ||
    (tdKind d == 0 && (f != 11 || r != 0 || tdSat d)) ||
    (src && (tdSat d || (r != 0 && !(f == 12 && r == 1)))) ||
    (src && tdKind d == 2 && f != 11 && f != 12)

/-- R154. -/
def badAlign (d : TileDesc) : Bool :=
  let n := tileRowBytes (tdFmt d)
  tdKind d == 1 &&
    (tdAddr d % 32 != 0 || tdPitch d == 0 || (tdFmt d == 10 && tdPitch d != 2) ||
      ((List.range 64).any fun r => decide (256 < tileRowAddr d r % 256 + n)) ||
      (scaledFmt (tdFmt d) && decide (256 < tileScaleAddr d % 256 + 128)))

/-- R155. -/
def badRange (d : TileDesc) : Bool :=
  if tdKind d = 1 then
    decide (spadBytes < tileRowAddr d 63 + tileRowBytes (tdFmt d)) ||
      (scaledFmt (tdFmt d) && decide (spadBytes < tileScaleAddr d + 128))
  else if tdKind d = 2 then
    decide (viewEntries (tdView d) (tdRead d != 0) < tdEntry d + 64) || decide ((if tdView d then 3 else 1) < tdCol d)
  else false

/-- Two different lines of one slice's access in one bank (R161). -/
def selfBank (d : TileDesc) : Bool :=
  tdKind d == 1 && (List.range 4).any fun q =>
    let b := (tileLines d q).map (· % 32)
    decide (b.eraseDups.length < b.length)

/-- The tile registers a command reads and the one it writes. -/
def vecReads (w : CmdWords) : List Nat :=
  if isReduce w then [rdSrc w]
  else (if tdKind (vcSrc w) = 0 then [tdIndex (vcSrc w)] else []) ++
    (if isChain w then (match chTb w with | some t => [t] | none => []) else [])
def vecWritesReg (w : CmdWords) : Option Nat :=
  if isReduce w then (if rdWrite w then some (rdDst w) else none)
  else if tdKind (vcDst w) = 0 then some (tdIndex (vcDst w)) else none

/-- TILE_HAZARD against one earlier command (R159). -/
def tileHazard (c : Nat) (w : CmdWords) (r : VecRec) : Bool :=
  match vecWritesReg r.words with
  | some t =>
    let wr := r.issue + vecWriteOff r.words
    ((vecReads w).contains t && decide (c + 2 ≤ wr)) || (vecWritesReg w == some t && decide (c + vecWriteOff w ≤ wr))
  | none => false

/-- A stage breaks its row of Table 6.3. -/
def badStage (w : CmdWords) (g : Stage) : Bool :=
  let op := stOp g
  let imm := stImm g
  let opnd := stOpnd g
  let plain := [0x08, 0x09, 0x0C, 0x0D, 0x0E, 0x0F, 0x10, 0x11, 0x13].contains op
  op == 0 || decide (0x16 ≤ op) || opnd == 3 || (opnd == 1 && (chTb w).isNone) ||
    (op != 0x0A && (stCmp g != 0 || stCdest g != 0 || stPdest g != 0)) ||
    (op == 0x0A && (decide (6 ≤ stCmp g) || stCdest g == 3)) ||
    (op == 0x05 && opnd == 0) ||
    (plain && (opnd != 0 || imm != 0)) ||
    (op == 0x12 && (opnd != 0 || nz imm 31 8 || bits imm 7 4 == 11 || bits imm 7 4 == 12)) ||
    (op == 0x13 && (chMout w).isNone) || (op == 0x14 && (chMin w).isNone) ||
    (op == 0x15 && (opnd != 0 || nz imm 31 16))

/-- A CONVERT stage's control byte that R126 or R137 forbids. -/
def badConvert (g : Stage) : Bool :=
  stOp g == 0x12 && (decide (13 ≤ bits (stImm g) 7 4) || bits (stImm g) 3 2 == 3 || bit (stImm g) 0)

def countOp (w : CmdWords) (op : Nat) : Nat := (chainStages w).countP fun g => stOp g == op

/-- R163, Table 6.6: stages, unused slots, mask stages and their enables. -/
def stageFault (w : CmdWords) : Bool :=
  (chainStages w).any (badStage w) ||
    ((List.range 8).any fun j => decide (chStages w ≤ j) && (decide (j < 4) || decide (3 < nwordsOf w)) && stageAt w j != 0) ||
    decide (1 < countOp w 0x13) || decide (1 < countOp w 0x14) ||
    ((chMout w).isSome && countOp w 0x13 == 0) || ((chMin w).isSome && countOp w 0x14 == 0)

/-- Mask-out positions of issued chains whose block is not handed yet (log entry 36). -/
def maskOutPlanned (k : Core) (g : Fin 4) : Nat :=
  (k.vec.inFlight.filter fun r => !r.skipped && isChain r.words && chMout r.words == some g).length
def maskInPlanned (k : Core) (g : Fin 4) : Nat :=
  (k.vec.inFlight.filter fun r => !r.skipped && isChain r.words && chMin r.words == some g && r.maskIn.isEmpty).length

/-- MASK_STREAM (R167, R217). -/
def maskFault (k : Core) (w : CmdWords) : Bool :=
  (match chMin w with
   | some g => (maskStream k g 4).isNone
   | none => false) ||
  (match chMout w with
   | some g =>
     (match maskStream k g 5 with
      | some d =>
        let st := k.stream d
        (roundOf st (tget 0 k.descs d.toNat) (st.handed + maskOutPlanned k g)).isNone
      | none => true)
   | none => false)

/-- The checks against earlier vector commands, skipped ones included (R158, R159, R162). -/
def vecOverlaps (k : Core) (e : LookEntry) : List Nat :=
  let l := k.vec.inFlight
  let c := e.issue
  let w := e.words
  when_ (l.any fun r => decide (c < r.issue + 4)) 0x33 ++
  when_ (l.any fun r => vecWrites w && vecWrites r.words &&
    decide (c + vecWriteOff w < r.issue + vecWriteOff r.words + 4) && decide (r.issue + vecWriteOff r.words < c + vecWriteOff w + 4)) 0x34 ++
  when_ (l.any (tileHazard c w)) 0x35

def tileChecks (src dst : TileDesc) : List Nat :=
  when_ (rsTile src || rsTile dst) 0x01 ++
  when_ (badCtrl true src || badCtrl false dst) 0x0A ++
  when_ (badAlign src || badAlign dst) 0x30 ++
  when_ (badRange src || badRange dst) 0x31 ++
  when_ (selfBank src || selfBank dst) 0x32

def chainChecks (k : Core) (e : LookEntry) : List Nat :=
  let w := e.words
  when_ (nz w.w1 255 240 || (decide (3 ≤ nwordsOf w) && nz w.w2 47 0) ||
    (decide (4 ≤ nwordsOf w) && (nz w.w3 255 240 || nz w.w3 47 0))) 0x01 ++
  when_ ((chainStages w).any badConvert || (decide (5 ≤ chStages w) && !chainSr w && nz w.w2 255 48)) 0x0A ++
  tileChecks (vcSrc w) (vcDst w) ++ vecOverlaps k e ++ when_ (stageFault w) 0x36 ++ when_ (maskFault k w) 0x37

def tileMoveChecks (k : Core) (e : LookEntry) : List Nat :=
  let w := e.words
  when_ (nz (opA w) 63 50) 0x01 ++ tileChecks (vcSrc w) (vcDst w) ++ vecOverlaps k e

def reduceChecks (k : Core) (e : LookEntry) : List Nat :=
  let w := e.words
  let a := opA w
  when_ (nz a 63 60 || nz a 37 36 || nz a 31 0 || nz w.w1 255 32) 0x01 ++ vecOverlaps k e ++
  when_ (rdAxis w == 3 || decide (6 ≤ rdRop w) || decide (6 ≤ rdPcmp w) || decide (2 ≤ rdPmode w) || (!rdWrite w && !rdPen w)) 0x38

/-! ## Streams and the turn engine (Table 8.7) -/

def streamArmed (k : Core) (p : Nat × Stream → BitVec 512 → Bool) : Bool :=
  k.streams.any fun x => x.2.armed && p x (tget 0 k.descs x.1)

/-- A second direct-feed stream for an array or an engine, or a second mask stream of a kind on an engine. -/
def secondStream (k : Core) (desc : BitVec 11) (d : BitVec 512) : Bool :=
  streamArmed k fun x xd => sdKind xd == sdKind d &&
    ((sdKind d == 3 && (sdArray xd == sdArray d || x.1 / 512 == desc.toNat / 512)) ||
      ((sdKind d == 4 || sdKind d == 5) && x.1 / 512 == desc.toNat / 512))

/-- HANDED with the mask positions of chains that have issued. -/
def plannedHanded (k : Core) (desc : BitVec 11) : Nat :=
  let g := engOf (desc.toNat / 512)
  (k.stream desc).handed + (match sdKind (tget 0 k.descs desc.toNat) with
    | 4 => maskInPlanned k g
    | 5 => maskOutPlanned k g
    | _ => 0)

/-- The read cycles of a store hand-over meet those of an earlier one of the engine (R211). -/
def handOverlap (k : Core) (g : Fin 4) (issue lines : Nat) : Bool :=
  lines != 0 && (k.eng g).hands.any fun r => !r.lines.isEmpty && decide (issue + 2 ≤ r.issue + 1 + r.lines.length)

def streamChecks (s : State) (c : Fin 32) (e : LookEntry) : List Nat :=
  let w := e.words
  let a := opA w
  let k := s.core c
  let desc := cmdDesc w
  let d := tget 0 k.descs desc.toNat
  let st := k.stream desc
  let kind := sdKind d
  let outside := desc.toNat / 512 + 4 != targetOf w || kind == 0
  let live := st.armed && !st.stopping
  let spBase := bits w.w1 88 64
  match w.opcode with
  | 0x30 =>
    when_ (nz a 63 17 || nz a 15 11 || nz w.w1 255 89) 0x01 ++
    when_ (!bit a 16 && nz w.w1 88 0) 0x0A ++
    when_ (outside || (decide (3 ≤ kind) && bit a 16 && spBase != 0)) 0x40 ++
    when_ (st.armed || secondStream k desc d) 0x41
  | 0x31 =>
    let h := bits a 20 16
    let f := bits a 36 32
    let ms := handMoves s d st st.handed h
    when_ (nz a 63 37 || nz a 31 21 || nz a 15 11) 0x01 ++
    when_ (outside || decide (3 ≤ kind)) 0x40 ++
    when_ (!live || (kind == 2 && decide (ms.length < h))) 0x41 ++
    when_ (decide (16 < h) || decide (16 < f) ||
      (if kind = 2 then f != 0 else !(decide (st.handed + h ≤ st.freed + sdDepth d) && decide (st.freed + f ≤ st.handed + h)))) 0x42 ++
    when_ (kind == 2 && handOverlap k (engOf (desc.toNat / 512)) e.issue (ms.flatMap fun m => blockLines m.2.2.sp m.2.2.len).length) 0x43
  | 0x32 =>
    when_ (nz a 63 11 || nz w.w1 255 89) 0x01 ++
    when_ (outside || !sdPersist d || (decide (3 ≤ kind) && spBase != 0)) 0x40 ++
    when_ (!live || !decide ((st.bases.length - 1) * sdElems d < plannedHanded k desc)) 0x41
  | _ =>
    when_ (nz a 63 11) 0x01 ++ when_ outside 0x40 ++ when_ (!live) 0x41

/-- R222. -/
def turnFieldBad (w : CmdWords) : Bool :=
  let es := tnEs w
  let rowLen := 64 * (if tnDir w = 0 then tnTR w else tnTC w) * es
  let rows := 64 * (if tnDir w = 0 then tnTC w else tnTR w)
  bits (opA w) 62 61 == 3 || tnSp w % (64 * es) != 0 || (tnSpPitch w / 32) % (2 * es) != 0 || decide (tnSpPitch w < rowLen) ||
    decide (spadBytes < tnSp w + tnSpPitch w * (rows - 1) + rowLen) || (tnHall w).toNat % 32 != 0 || tnPitch w % 32 != 0

def turnChecks (k : Core) (e : LookEntry) : List Nat :=
  let w := e.words
  when_ (nz (opA w) 60 56 || nz (opA w) 39 36 || nz w.w1 255 160 || nz w.w2 255 6) 0x01 ++
  when_ (turnFieldBad w) 0x45 ++
  when_ (tnDir w == 1 && k.turn.inFlight.any fun r => tnDir r.words == 1 && decide (e.issue + 2 ≤ r.spanEnd)) 0x46

/-! ## Channels and bells (Table 9.9) -/

def chChecks (k : Core) (e : LookEntry) : List Nat :=
  let w := e.words
  let a := opA w
  let x := k.ep (a.extractLsb' 0 7)
  match w.opcode with
  | 0x50 =>
    let len := bits a 31 8
    let src := bits w.w1 24 0
    when_ (nz a 63 32 || nz a 7 7 || nz w.w1 255 25) 0x01 ++
    when_ (!epIsSend x.desc) 0x54 ++
    when_ (epIsSend x.desc && !x.open_) 0x55 ++
    when_ (len == 0 || len % 4 != 0 || decide (epMax x.desc < msgUnits len) || src % 4 != 0 || decide (spadBytes < src + len)) 0x56 ++
    when_ (k.sends.any fun r => decide (e.issue + 2 ≤ r.lastRead)) 0x57
  | 0x51 =>
    when_ (nz a 63 24 || nz a 7 7) 0x01 ++ when_ (!epIsRecv x.desc) 0x54 ++ when_ (bits a 23 8 == 0) 0x56
  | _ => when_ (nz a 63 7) 0x01 ++ when_ (epRole x.desc == 0) 0x54


def bellChecks (s : State) (c : Fin 32) (e : LookEntry) : List Nat :=
  let w := e.words
  let a := opA w
  let k := s.core c
  match w.opcode with
  | 0x60 =>
    let (r, mcast) := bellOpReq s c e.idx w
    let unused := bit a 59 && !bdValid (tget 0 k.bellDescs (bits a 47 40))
    when_ (nz a 57 53 || nz a 39 25 || nz w.w1 255 128) 0x01 ++
    when_ (r.op == 3 && r.operand != 0) 0x0A ++
    when_ (!unused && (!bellTargetOk s r.addr mcast ||
      (r.op == 3 && (mcast || r.express || r.rdest % 8 != 0 || decide (spadBytes < r.rdest + 8))))) 0x50 ++
    when_ unused 0x51
  | 0x61 =>
    when_ (nz a 63 9 || nz a 7 6 || nz w.w1 255 128) 0x01 ++
    when_ (!bellWordHere s (w.w1.extractLsb' 0 64)) 0x52 ++
    when_ (k.buoy (a.extractLsb' 0 6)).armed 0x53
  | 0x62 => when_ (nz a 63 6) 0x01
  | _ =>
    when_ (nz a 63 20 || nz a 15 11 || nz a 7 6 || nz w.w1 255 64) 0x01 ++
    when_ (decide (6 ≤ bits a 10 8)) 0x0A ++
    when_ (!e.buoysArmed) 0x53

/-! ## All checks of one command (R90, R416) -/

/-- Failing sub-codes of a command whose opcode is legal. An array that is fused off has no state to check (R5). -/
def fieldChecks (s : State) (c : Fin 32) (e : LookEntry) : List Nat :=
  let k := s.core c
  let w := e.words
  let j := arrayOfTarget (targetOf w)
  commonChecks s c e ++
    (match targetOf w with
     | 0 => issueUnitChecks w
     | 1 | 2 =>
       (match w.opcode with
        | 0x10 => statLoadChecks (k.arr j) e
        | 0x11 => statSwapChecks (k.arr j) w
        | 0x12 => passChecks k j false false e
        | 0x13 => passChecks k j true false e
        | 0x14 => passChecks k j false true e
        | _ => acbFillChecks (k.arr j) e).filter fun code => s.arrayOn c j || !arrayStateCodes.contains code
     | 3 => if isChain w then chainChecks k e else if isReduce w then reduceChecks k e else tileMoveChecks k e
     | 8 => turnChecks k e
     | 9 => chChecks k e
     | 10 => bellChecks s c e
     | _ => streamChecks s c e)

/-- The fused-off die array that TARGET or an operand names (R5, R155). -/
def absentArray (s : State) (c : Fin 32) (w : CmdWords) : Option Nat :=
  let here := fun (j : Fin 2) => if s.arrayOn c j then none else some (2 * c.val + j.val)
  if targetOf w = 1 ∨ targetOf w = 2 then here (arrayOfTarget (targetOf w))
  else if (isChain w || isMove w) && tdKind (vcSrc w) == 2 then here (tdArray (vcSrc w))
  else none

/-- A wait on the done flag of the array (R92). -/
def waitsDone (f : U32) (flag : BitVec 7) : Bool := waitKind f == 1 && waitIndex f == flag.toNat && waitThresh f == 1

/-- DONE_WAIT_MISSING (R92): the array and the flag it expects. -/
def doneMissing (s : State) (c : Fin 32) (w : CmdWords) : Option (Fin 2 × BitVec 7) :=
  if (isChain w || isMove w) && tdKind (vcSrc w) == 2 then
    let j := tdArray (vcSrc w)
    let flag := ((s.core c).arr j).doneFlag
    if flag = 0x7F ∨ waitsDone (wait0Of w) flag ∨ waitsDone (wait1Of w) flag then none else some (j, flag)
  else none

/-- FORMAT_MISMATCH detail word 0 (R103). -/
def formatMismatch (s : State) (c : Fin 32) (w : CmdWords) : Option U64 :=
  let u := (s.core c).arr (arrayOfTarget (targetOf w))
  match w.opcode with
  | 0x10 => if slFmt w = 10 then some (BitVec.ofNat 64 (16 * 10 + 256 * b2n (slSparse w) + 2048)) else none
  | 0x12 | 0x13 | 0x14 =>
    let t := w.opcode == 0x13
    let dir := w.opcode == 0x14
    if passLegal (psFmt w) u.active.fmt u.active.sparse t dir then none
    else some (BitVec.ofNat 64 ((psFmt w).toNat + 16 * u.active.fmt.toNat + 256 * b2n u.active.sparse + 512 * b2n t + 1024 * b2n dir))
  | _ => none

def minCode : List Nat → Option Nat
  | [] => none
  | x :: t => match minCode t with
    | some y => some (min x y)
    | none => some x

/-- The halt causes of a command that fails checks (Table 3.9, R386), lowest code first. An illegal opcode leaves no field to check;
of the failing field checks the lowest sub-code alone is a cause (R416); R382 keeps the first cause and counts the others. -/
def commandCauses (s : State) (c : Fin 32) (e : LookEntry) : List HaltCause :=
  let w := e.words
  let hdr := headerOf w
  let mk := fun (code : Byte) (eng : Nat) (d0 : U64) => [(⟨code, some c, BitVec.ofNat 8 eng, some e.idx, d0, hdr⟩ : HaltCause)]
  if opIllegal w then mk hcOpcode (if 11 ≤ targetOf w then 0 else targetOf w) 0
  else
    (match minCode (fieldChecks s c e) with
     | some code => mk hcField (targetOf w) (BitVec.ofNat 64 code)
     | none => []) ++
    match absentArray s c w with
    | some a => mk hcAbsent (targetOf w) (BitVec.ofNat 64 a)
    | none =>
      (match doneMissing s c w with
       | some (j, flag) => mk hcDoneWait (targetOf w) (BitVec.ofNat 64 (2 * c.val + j.val + 256 * flag.toNat))
       | none => []) ++
      match formatMismatch s c w with
      | some d => mk hcFormat (targetOf w) d
      | none => []

/-! ## Open streams at the last command (R216) -/

def streamOpen (k : Core) : Bool :=
  streamArmed k fun x d =>
    !x.2.stopping && !sdPersist d &&
      (plannedHanded k (BitVec.ofNat 11 x.1) != sdElems d || (sdKind d == 1 && x.2.freed != sdElems d))

end Sys2Proof.Machine
end

