-- ==== Sys2Proof/Machine/Stacks.lean ====
section
/-!
DEFINITION. The stack controllers: queues, service, tides, doubling, self-refresh and row sparing (R262 to R283).
-/
namespace Sys2Proof.Machine

def StackCtl.pc (c : StackCtl) (p : Fin 32) : PcQueue := c.pcs.get p
def StackCtl.updPc (c : StackCtl) (p : Fin 32) (f : PcQueue → PcQueue) : StackCtl := { c with pcs := c.pcs.set p (f (c.pc p)) }

/-- STACK_REQUEST_ARRIVAL (R48, R267): the next request of a source on the mesh enters its queue of 64, or is held back with those behind
it. The order of the arrivals of several sources, in one clock edge too, is that of the commands (log entry 15). -/
def execStackRequestArrival (way : MeshWay) (s : State) : Host.Outcome State Fault Refusal :=
  .next <|
    match (s.stack way.stack).meshq.find? fun r => r.src == way.src.val with
    | some r =>
      let p := pcOf (stackAddrOf r.addr)
      if ((s.stack way.stack).pc p).q.length < 64 then
        s.updStack way.stack fun c =>
          { c.updPc p (fun u => { u with q := u.q ++ [{ r with arrived := s.time.hallTime }] }) with meshq := c.meshq.erase r }
      else s
    | none => s

/-! ## Service times (Table 10.1), in 0.01 ns -/

/-- 0 page hit, 1 closed, 2 conflict. -/
def pageState (u : PcQueue) (r : StackReq) : Nat :=
  let sa := stackAddrOf r.addr
  match u.openRows.find? fun e => e.1 == (bankOf sa).toNat with
  | some e => if e.2 = (rowOfAddr sa).toNat then 0 else 2
  | none => 1

/-- A request that writes its block, and one that writes a part of it (R270). -/
def StackReq.writes (r : StackReq) : Bool := match r.bell with | some b => !b.reads | none => r.write.isSome
def StackReq.part (r : StackReq) : Bool := r.writes && (match r.write with | some l => l.length != 64 | none => true)

/-- Head to data out, or to the write accepted. -/
def serviceTime (r : StackReq) (page : Nat) : Nat :=
  let rd := match page with | 0 => 3270 | 1 => 4730 | _ => 6360
  let wr := match page with | 0 => 2180 | 1 => 3640 | _ => 5270
  if !r.writes then rd else if r.part then rd + 2180 else wr

/-- The first service cycle of the head: after the last service and its own arrival. One that falls inside a tide waits for its end. -/
def startAt (c : StackCtl) (u : PcQueue) (r : StackReq) : Nat :=
  let t := max u.freeAt (100 * r.arrived.toNat)
  match c.tideUntil with
  | some e => if t + 22000 < 100 * e.toNat then t else max t (100 * e.toNat)
  | none => t

/-- The head of a queue may be served: not in self-refresh, and on the way to it only while it is one of those that come before (R282). -/
def mayServe (c : StackCtl) (u : PcQueue) : Bool := !c.selfRefresh && (!c.toRefresh || decide (0 < u.drain))

/-- When the service of the head ends, if it can begin. A following block of the same open page and direction is done 1.82 ns after the one
before it; a change of direction adds 7.3 ns, after a tide too. -/
def serviceEnd (c : StackCtl) (u : PcQueue) : Option Nat :=
  match u.q with
  | r :: _ =>
    if ¬ mayServe c u then none
    else
      let page := pageState u r
      let turn := if u.lastWrite = some !r.writes then 730 else 0
      let follows := page == 0 && decide (turn = 0) && !r.part &&
        decide (u.lastRow = some ((bankOf (stackAddrOf r.addr)).toNat, (rowOfAddr (stackAddrOf r.addr)).toNat))
      some (if follows then max (u.freeAt + 182) (100 * r.arrived.toNat + serviceTime r 0)
        else startAt c u r + serviceTime r page + turn)
  | [] => none

/-- The service of the next head begins. -/
def beginNext (c : StackCtl) (u : PcQueue) : PcQueue :=
  if u.doing.isNone && !u.q.isEmpty then { u with doing := serviceEnd c u } else u

/-! ## Service -/

/-- A bell operation at the controller (R229, R270): one read of its block, and one write of it where the operation changes the word. -/
def serveBell (r : StackReq) (b : BellReq) (flip : ErrPat) (s : State) : State :=
  if b.reads then
    match blockRead rqBell r.addr 8 flip s with
    | (some l, s) => bellApplied b (BitVec.ofNat 64 (ofBytes l)) s
    | (none, s) => s
  else
    match blockModify rqBell r.addr 8
        (fun l => toBytes 8 (bellNew b.op (BitVec.ofNat 64 (ofBytes l)) b.operand).toNat) flip s with
    | (some l, s) =>
      bellApplied b (BitVec.ofNat 64 (ofBytes l)) (if b.origin = .muster then s else harborNote r.addr 8 s)
    | (none, s) => s

/-- A write by the program that the controller notes for the harbor regions; those of a store element are noted as it completes (R341). -/
def Tag.programWrite : Tag → Bool
  | .turnWrite _ _ | .item _ _ => true
  | _ => false

/-- One request takes effect: the block is decoded and delivered, or written; nothing of it on an uncorrectable block (R277, R278). -/
def serveReq (r : StackReq) (flip : ErrPat) (s : State) : State :=
  match r.bell, r.write with
  | some b, _ => serveBell r b flip s
  | none, none =>
    (match blockRead r.requester.toNat r.addr r.len flip s with
     | (some bs, s) => deliver r.tag bs s
     | (none, s) => undelivered r.tag r.len s)
  | none, some bs =>
    (match blockWrite r.requester.toNat r.addr bs flip s with
     | (some _, s) => accepted r.tag bs.length (if r.tag.programWrite then harborNote r.addr bs.length s else s)
     | (none, s) => undelivered r.tag bs.length s)

/-- The head of a queue is served: its page stays open unless a tide or self-refresh has closed every page (R268). The service of
the request behind it begins. -/
def serveHead (stack : Fin 16) (pc : Fin 32) (flip : ErrPat) (s : State) : State :=
  let u := (s.stack stack).pc pc
  match u.q with
  | r :: t =>
    let sa := stackAddrOf r.addr
    let row := ((bankOf sa).toNat, (rowOfAddr sa).toNat)
    let closed := (s.stack stack).tideUntil.isSome || (s.stack stack).selfRefresh
    serveReq r flip (s.updStack stack fun c => c.updPc pc fun u => beginNext c { u with
      q := t, doing := none, freeAt := u.doing.getD (100 * s.now), lastWrite := some r.writes, drain := u.drain - 1
      lastRow := if closed then none else some row
      openRows := if closed then [] else (u.openRows.filter fun e => e.1 != row.1) ++ [row] })
  | [] => s

/-- A latent error has come about in a stored block (R275). -/
def latent (a : Nat) (e : ErrPat) (s : State) : State :=
  { s with errs := tset [] s.errs (a / 64) (errAdd (errOf s a) e) }

/-- The service of the head of a queue is over (Table 10.1). -/
def State.serviceOver (s : State) (u : PcQueue) : Bool := u.doing.any fun e => decide (e ≤ 100 * s.now)

/-- A stack whose queues have served what came before self-refresh enters it, with every page closed (R282). -/
def settleRefresh (c : StackCtl) : StackCtl :=
  if c.toRefresh && c.pcs.toList.all (fun u => u.drain == 0) then
    { c with
      selfRefresh := true, toRefresh := false, tideUntil := none, doubling := false, doubleNext := false, singleNext := false
      pcs := c.pcs.map fun u => { u with openRows := [], lastRow := none, doing := none } }
  else c

/-- STACK_REQUEST_SERVICE (R269, R275): the service of the head of a queue is over, and it takes effect. `stored` is the error that has come
about in its block since the block was last accessed, and `flip` a new error on this read. -/
def execStackRequestService (stack : Fin 16) (pc : Fin 32) (errors : BlockErrors) (s : State) : Host.Outcome State Fault Refusal :=
  .next <|
    let u := (s.stack stack).pc pc
    if (s.stack stack).selfRefresh ∨ ¬ s.serviceOver u then s
    else
      match u.q with
      | r :: _ =>
        if (r.bell.any fun b => s.bellTaken b) then s
        else (serveHead stack pc errors.flip (if errors.stored = [] then s else latent r.addr errors.stored s)).updStack stack settleRefresh
      | [] => s

/-! ## Tides (R271, R272) -/

/-- A tide starts: every page of the stack closes for 220 ns. -/
def startTide (stack : Fin 16) (s : State) : State :=
  s.updStack stack fun c => { c with
    tideUntil := some (s.time.hallTime + 220)
    pcs := c.pcs.map fun u => { u with openRows := [], lastRow := none } }

/-- The stacks run: powered, initialised and not in self-refresh. -/
def State.stackRuns (s : State) (i : Fin 16) : Bool :=
  s.pwr.mainOn && s.pwr.phase != .ramp && s.pwr.phase != .stackInit && !(s.stack i).selfRefresh

/-- TIDE_START (R271): at t mod 3,904 = 244 s; doubling begins or ends here (R272). -/
def execTideStart (stack : Fin 16) (s : State) : Host.Outcome State Fault Refusal :=
  .next <|
    if s.stackRuns stack ∧ s.now % 3904 = 244 * stack.val then
      startTide stack (s.updStack stack fun c => { c with
        doubling := (c.doubling || c.doubleNext) && !c.singleNext, doubleNext := false, singleNext := false })
    else s

/-- TIDE_END (R271): 220 ns later. -/
def execTideEnd (stack : Fin 16) (s : State) : Host.Outcome State Fault Refusal :=
  .next <|
    match (s.stack stack).tideUntil with
    | some u => if u.toNat ≤ s.now then s.updStack stack fun c => { c with tideUntil := none } else s
    | none => s

/-- DOUBLING_TIDE_START (R272): 1,952 ns after a normal tide. -/
def execDoublingTideStart (stack : Fin 16) (s : State) : Host.Outcome State Fault Refusal :=
  .next <|
    if s.stackRuns stack ∧ (s.stack stack).doubling ∧ s.now % 3904 = (244 * stack.val + 1952) % 3904 then
      startTide stack (s.updStack stack fun c => { c with tideDouble := c.tideDouble + 1 })
    else s

/-- One reading of a stack's four sensors (R272, R273): the highest is kept; doubling is entered or left at the next normal tide; a
reading at or above HOT_C is a heat trigger. -/
def readStackTemp (stack : Fin 16) (temps : U32) (s : State) : State :=
  let m := (List.range 4).foldl (fun m i => max m (bits temps (8 * i + 7) (8 * i))) 0
  let hot := decide (bits s.stackThermal 23 16 ≤ m)
  let s := s.updStack stack fun c =>
    let c := { c with temp := BitVec.ofNat 8 m, hot := hot }
    if bits s.stackThermal 15 8 ≤ m then { c with doubleNext := !c.doubling, singleNext := false }
    else if m < bits s.stackThermal 7 0 then { c with doubleNext := false, singleNext := c.doubling }
    else c
  if hot then heatTrigger s else s

/-- STACK_TEMP_READING (R272): what the sensors show; they are read at a hall time that is a multiple of 1,000 ns, and a temperature reached
between two readings counts from the next one (log entry 63). -/
def execStackTempReading (stack : Fin 16) (temps : U32) (s : State) : Host.Outcome State Fault Refusal :=
  .next <|
    let s := s.updStack stack fun c => { c with sensors := temps }
    if s.pwr.mainOn ∧ s.now % 1000 = 0 then readStackTemp stack temps s else s

/-! ## Self-refresh (R282, R283) -/

/-- The requests of a queue up to its last write: they are served before self-refresh, later reads wait. -/
def untilLastWrite (q : List StackReq) : Nat := q.length - (q.reverse.takeWhile fun r => !r.writes).length

/-- Every stack completes the writes its queues hold, and then enters self-refresh with every page closed (R282). -/
def enterSelfRefresh (s : State) : State :=
  foldS (fun i s =>
    if (s.stack i).selfRefresh ∨ (s.stack i).toRefresh then s
    else s.updStack i fun c => settleRefresh { c with
      toRefresh := true, pcs := c.pcs.map fun u => { u with drain := untilLastWrite u.q } }) allStacks s

/-- Every stack leaves self-refresh and runs one tide at once; doubling resumes from the first sensor reading (R283). -/
def leaveSelfRefresh (s : State) : State :=
  foldS (fun i s =>
    if (s.stack i).selfRefresh then
      startTide i (s.updStack i fun c => { c with selfRefresh := false, doubleNext := false, singleNext := false })
    else s.updStack i fun c => { c with toRefresh := false, pcs := c.pcs.map fun u => { u with drain := 0 } }) allStacks s

/-! ## Row sparing (R279, R280) -/

/-- Linear addresses of the 16 blocks of a row. -/
def rowBlocks (i : Fin 16) (r : RowRef) : List Nat :=
  (List.range 16).map fun b =>
    let p := r.row.toNat * 16384 + r.bank.toNat * 1024 + 64 * b
    stackBytes * i.val + p / 256 * 8192 + r.pc.val * 256 + p % 256

/-- One block of the copy: corrected where it can be, zeros and a STACK_UE_IDLE entry where it cannot (R415); the requester
field of that entry, which names no management unit, is a free value. -/
def copyBlock (i : Fin 16) (a : Nat) (s : State) : State :=
  match fathomDecode (errOf s a) with
  | .clean e => { s with dram := mwrites s.dram a (applyErr e 0 (dramBytes s a 64)), errs := tset [] s.errs (a / 64) [] }
  | .corrected e =>
    noteCorrected a { s with dram := mwrites s.dram a (applyErr e 0 (dramBytes s a 64)), errs := tset [] s.errs (a / 64) [] }
  | .uncorrectable =>
    let (v, s) := s.fresh
    logErr errUeIdle none (BitVec.ofNat 64 (stackAddrOf a)) (BitVec.ofNat 64 (i.val + 2 ^ 32 * (v.toNat % 8)))
      (s.updStack i fun c => { c with ueSeen := true }) |> fun s =>
        { s with dram := mzero s.dram a 64, errs := tset [] s.errs (a / 64) [] }

/-- ROW_SPARING (R280): while no image is loaded, the first candidate in a bank with a free spare is copied and remapped. -/
def execRowSparing (stack : Fin 16) (s : State) : Host.Outcome State Fault Refusal :=
  .next <|
    if s.holdsImage then s
    else
      match (s.stack stack).cands.find? fun r => decide (0 < (s.stack stack).sparesFree (bankKey r)) with
      | some r =>
        let s := foldS (copyBlock stack) (rowBlocks stack r) s
        checkService (s.updStack stack fun c => { c with
          cands := c.cands.erase r, spared := c.spared ++ [r]
          sparesUsed := tset 0 c.sparesUsed (bankKey r) (tget 0 c.sparesUsed (bankKey r) + 1)
          ceBlocks := c.ceBlocks.filter fun e => e.1 != r })
      | none => s

end Sys2Proof.Machine
end

