-- ==== Sys2Proof/Machine/Life.lean ====
section
/-!
DEFINITION. What ends a job: the scrub engine, RWL reset, the closing of windows and the zeroing of a kill, and the loss of die
power (R363, R368 to R372, R377, R407, Table 16.3).
-/
namespace Sys2Proof.Machine

/-! ## Marks as the registers show them -/

/-- A first or next mark has a hall time (R31, R85, R375): armed or after the first mark, the walk not at its end, not withheld
by a suspension. -/
def Sequencer.timed (q : Sequencer) : Bool :=
  match q.state with
  | .armed | .running | .gated => !q.due.ended && !q.suspended
  | _ => false

/-- The number of the next mark (R28). -/
def Sequencer.nextNum (q : Sequencer) : Nat := if q.begun then q.mark.toNat + 1 else 0

/-! ## Windows (R314, R317, Table 11.8) -/

def winBase (w : W256) : Nat := bits w 63 0
def winSize (w : W256) : Nat := bits w 127 64
def winKey (w : W256) : U32 := w.extractLsb' 128 32
def winPerm (w : W256) : BitVec 4 := w.extractLsb' 160 4
def winOpen (w : W256) : Nat := bits w 223 192
def winClose (w : W256) : Nat := bits w 255 224

/-- Sets a window's CLOSE_MARK to the number of the next mark, unless it is already lower. -/
def closeWin (next : Nat) (w : W256) : W256 := setBits w 255 224 (min (winClose w) (next % 2 ^ 32))

def closeWindow (i : Nat) (s : State) : State :=
  let w := tget 0 s.fab.windows i
  if winSize w = 0 then s
  else { s with fab := { s.fab with windows := tset 0 s.fab.windows i (closeWin s.seq.nextNum w) } }

/-! ## Ranges of stack memory (R264, R371) -/

/-- A linear address as an offset of a space. -/
def offsetOf (space a : Nat) : Nat :=
  if space = 4 then
    let r := a % stackBytes
    4096 * (16 * (r / 4096) + a / stackBytes) + r % 4096
  else a

/-- A linear address lies in a range (space, offset, size). -/
def inRange (r : Nat × Nat × Nat) (a : Nat) : Bool :=
  let o := offsetOf r.1 a
  decide (r.2.1 ≤ o) && decide (o < r.2.1 + r.2.2)

/-- The stack ranges a kill zeroes: placement regions, window ranges, and a suspend area that a snapshot used. -/
def killRanges (s : State) : List (Nat × Nat × Nat) :=
  s.loader.regions ++
    (s.fab.windows.filterMap fun e =>
      let sp := bits e.2 51 48
      if sp = 0 ∨ sp = 4 then some (sp, bits e.2 47 0, winSize e.2) else none) ++
    (if s.pwr.saved then
      (match s.pwr.snapshot with | some (b, _) => [(0, b, 1024 * 1024 * 1024)] | none => [])
    else [])

/-- Zeroes ranges of stack memory; their blocks get fresh check bytes. -/
def zeroRanges (l : List (Nat × Nat × Nat)) (s : State) : State :=
  { s with
    dram := s.dram.filter fun e => !l.any fun r => inRange r e.1
    errs := s.errs.filter fun e => !l.any fun r => inRange r (64 * e.1)
    pwr := { s.pwr with snapshot := match s.pwr.snapshot with
      | some (b, n) => if l.any fun r => inRange r b then none else some (b, n)
      | none => none } }

/-! ## The die part of the scrub (R370, R407) -/

/-- RWL registers as Table 16.3 leaves them after a kill; TIME_BEACON_CFG keeps its value. -/
def rwlReset (s : State) : State :=
  { s with
    time := { s.time with slipCfg := ({} : TimeDom).slipCfg, legCfg := ({} : TimeDom).legCfg }
    seq := { s.seq with cfg := 0, tableBaseLo := 0, tableBaseHi := 0, tableLen := 0 }
    clk := { s.clk with
      holdCfg := ({} : ClkDom).holdCfg, coreOrder := ({} : ClkDom).coreOrder, arrayOrder := ({} : ClkDom).arrayOrder }
    fab := { s.fab with
      c0Bound := ({} : Fabric).c0Bound, drain := ({} : Fabric).drain, route := []
      ports := s.fab.ports.map fun p => { p with cfg := 0 } }
    host := { s.host with
      moorBaseLo := 0, moorBaseHi := 0, musterBaseLo := 0, musterBaseHi := 0, musterBellLo := 0, musterBellHi := 0
      musterDepth := ({} : HostDom).musterDepth }
    pwr := { s.pwr with suspBaseLo := 0, suspBaseHi := 0, suspMarkLo := 0, suspMarkHi := 0, resumeLo := 0, resumeHi := 0 } }

/-- A request whose job is gone: what it writes is written, and nobody hears of it. -/
def StackReq.orphan (r : StackReq) : StackReq :=
  if r.requester.toNat = rqHost then r
  else { r with tag := .none, bell := r.bell.map fun b => { b with origin := .muster, ack := none } }

/-- Only the host's requests stay in the queues of a stack, and those that it completes on its way to self-refresh (R282). -/
def hostRequests (c : StackCtl) : StackCtl :=
  let l := fun (q : List StackReq) => q.filter fun r => r.requester.toNat == rqHost
  { c with
    meshq := l c.meshq
    pcs := c.pcs.map fun u => { u with
      q := (u.q.take u.drain).map StackReq.orphan ++ l (u.q.drop u.drain)
      doing := if 0 < u.drain ∨ (u.q.head?.any fun r => r.requester.toNat == rqHost) then u.doing else none } }

/-- The requests that wait at the stacks. -/
def State.waiting (s : State) : List StackReq := s.stks.toList.flatMap fun c => c.meshq ++ c.pcs.toList.flatMap fun u => u.q

/-- What is left of a BAR2 read or write once the fill accesses of the die are gone: a scratchpad line reads as the scrub leaves it. -/
def hostLeft (s : State) : State :=
  { s with
    jobs := (s.jobs.filter fun j => j.want == .bar2).map fun j => { j with need := (s.waiting.map fun r =>
      match r.tag with | .job i _ => if i = j.id then r.len else 0 | _ => 0).foldl (· + ·) 0 }
    host := { s.host with writing := (s.host.writing.map fun w =>
      (w.1, s.waiting.countP fun r => r.tag == .hostWrite w.1)).filter fun w => w.2 != 0 } }

/-- Requests and records of the job outside the die state that nothing may complete any more (log entry 28). -/
def dropJob (s : State) : State :=
  hostLeft { s with
    stks := s.stks.map hostRequests
    fab := { s.fab with
      queues := [], onMesh := [], awaiting := [], landing := [], expWait := [], expBusy := [], copying := none
      pathsIn := s.fab.pathsIn.map fun p => (p.1, { p.2 with need := [], waiting := [], busy := false })
      remoteWins := [], setBase := [], legSet := [], queueOf := [] }
    host := { s.host with
      harbors := [], openSessions := [], closing := [], listedFinal := [], openedSince := 0, musters := [], gapMarks := []
      relaysIn := [], deferred := [], sessions := [], tasks := [], posted := 0 }
    clk := { s.clk with hold := none, mesh := [], reqs := [] } }

/-- The scrub engine: all die state of R370 becomes zero and every RWL register takes its value of Table 16.3. -/
def scrubDie (s : State) : State :=
  dropJob (rwlReset { s with cores := Vector.replicate 32 {}, groups := [] })

/-! ## Kill (R370 to R372) -/

/-- The load in progress stops (R355): as at an uncorrectable block, with RESULT MEMORY, and DIRTY in the write pass (log entry 29). -/
def stopLoad (s : State) : State :=
  if s.loader.busy then
    logErr errImageRefused none 0x0F 0 { s with loader := { s.loader with
      busy := false, result := 0x0F, faultOff := 0, dirty := s.loader.dirty || s.loader.pass } }
  else s

/-- The windows of the job close at the next mark, at the hall time TIME_MARK_TIME holds now (R371); with no window there is nothing to wait
for. -/
def closeWindows (s : State) : State :=
  let r := killRanges s
  let at_ := if s.fab.windows = [] then none else some s.seq.nextAt
  { s with
    fab := { s.fab with windows := s.fab.windows.map fun e => (e.1, closeWin s.seq.nextNum e.2) }
    pwr := { s.pwr with closeAt := at_, zeroRanges := r } }

/-- Nothing stands in the way of the zeroing: it ends a return after tier 4 (R369), and with the rails off there is nothing to zero. -/
def Power.canZero (p : Power) : Bool :=
  p.phase == .standby || p.phase == .standbyRelay || (p.dieOn && !p.fastResume && p.phase != .ramp && p.phase != .stackInit)

/-- Zeroing begins once the window table holds no window (R371). -/
def tryZeroing (s : State) : State :=
  if s.pwr.killPending ∧ ¬ s.pwr.retained ∧ s.pwr.closeAt = none ∧ s.pwr.canZero then { s with pwr := { s.pwr with zeroing := true } }
  else s

/-- The phase after a kill: KILLED until SCRUB_DONE (Table 14.10); a bring-up that is under way keeps its phase. -/
def killedPhase : PwrPhase → PwrPhase
  | .ready | .parked | .suspended | .killed => .killed
  | p => p

/-- A kill: the halt, the windows, and the scrub unless it is retained. A kill while a scrub is under way changes nothing more;
in EMPTY, bring-up and standby included, it runs the scrub only (R370). -/
def killDie (d0 d1 : U64) (retain : Bool) (s : State) : State :=
  let s := stopLoad s
  if s.pwr.killPending then
    (if s.pwr.retained ∧ ¬ retain then tryZeroing (scrubDie { s with pwr := { s.pwr with retained := false } }) else s)
  else
    let s := closeWindows s
    let s := raiseHalt ⟨hcKill, none, engPower, none, d0, d1⟩ s
    let s := { s with pwr := { s.pwr with phase := killedPhase s.pwr.phase, killPending := true } }
    if retain ∧ s.seq.state ≠ .empty then { s with pwr := { s.pwr with retained := true } }
    else tryZeroing (scrubDie s)

/-- DETAIL0 of a kill (R370). -/
def killCode : KillSource → U64
  | .bar0 => 0
  | .smbus => 1
  | .supply => 2

/-- KILL (R370, R372): RETAIN counts only while DEBUG_ENABLE is 1, and never for the supply. -/
def execKill (source : KillSource) (retain : Bool) (s : State) : Host.Outcome State Fault Refusal :=
  .next (killDie (killCode source) (if source = .supply then s.pwr.vin.setWidth 64 else 0)
    (retain && s.pwr.debugEnable && source != .supply) s)

/-- SCRUB (R372): ends a retained kill; the deferred scrub and zeroing start. -/
def execScrub (s : State) : Host.Outcome State Fault Refusal :=
  .next (if s.pwr.retained then tryZeroing (scrubDie { s with pwr := { s.pwr with retained := false } }) else s)

/-- WINDOW_TABLE_EMPTY (R371): 65,536 ns after the close mark. -/
def execWindowTableEmpty (s : State) : Host.Outcome State Fault Refusal :=
  .next <|
    match s.pwr.closeAt with
    | some t =>
      if t.toNat + 65536 ≤ s.now then
        tryZeroing { s with fab := { s.fab with windows := [] }, pwr := { s.pwr with closeAt := none } }
      else s
    | none => s

/-- SCRUB_DONE (R356, R371): the ranges are zero, LEG_STATE becomes EMPTY, DIRTY clears. -/
def execScrubDone (s : State) : Host.Outcome State Fault Refusal :=
  .next <|
    if s.pwr.zeroing then
      let s := zeroRanges s.pwr.zeroRanges s
      setEvent evScrub { s with
        seq := { s.seq with state := .empty, begun := false, parked := false, suspended := false, suspendReq := none }
        loader := { s.loader with dirty := false, regions := [] }
        pwr := { s.pwr with
          zeroing := false, killPending := false, zeroRanges := [], saved := false
          phase := if s.pwr.phase = .killed then .ready else s.pwr.phase } }
    else s

/-! ## Loss of die power (R368, R369, R377) -/

/-- The compute die loses power: its state is lost, which is the die part of the scrub; a retention ends; the stacks are kept in
self-refresh; class 1 is off. The zeroing of R371 follows after POWER_ON. -/
def dieOff (s : State) : State :=
  let s := stopLoad s
  let s := if s.pwr.killPending then s else closeWindows s
  let s := enterSelfRefresh s
  scrubDie { s with
    fab := { s.fab with ports := s.fab.ports.map fun p => { p with present := [], transit := [], retry := [], copies := [], gone := [] } }
    pwr := { s.pwr with
      phase := .dieOff, dieOn := false, retained := false, zeroing := false, killPending := true } }

/-- What a main power cycle clears: die, stacks and port tiles. The mark registers belong to the time domain and the legs behind
PWR_SERVICE.FLOOR to the power block, which keep theirs (R363, Table 16.3). -/
def mainReset (s : State) : State :=
  { s with
    seq := { mark := s.seq.mark, nextAt := s.seq.nextAt, floorLegs := s.seq.floorLegs }
    loader := { keyHash := s.loader.keyHash, keyCfg := s.loader.keyCfg }
    cores := Vector.replicate 32 {}
    groups := [], dram := [], errs := [], jobs := []
    stks := s.stks.map fun c =>
      { ceCount := c.ceCount, ceLast := c.ceLast, ceTimes := c.ceTimes, ceBlocks := c.ceBlocks, cands := c.cands
        spared := c.spared, sparesUsed := c.sparesUsed }
    fab := { moduleReg := s.fab.moduleReg }
    host := {}
    clk := {}
    pwr := { s.pwr with
      mainOn := false, dieOn := false, retained := false, zeroing := false, killPending := false, closeAt := none
      zeroRanges := [], snapshot := none, saved := false, fastResume := false, broughtUp := false } }

/-! ## Temperature (R50, R54, R377) -/

/-- The lowest region and sensor that read 105 °C or more. -/
def tripSensor (temps : BitVec 512) : Option Nat := (List.range 64).find? fun i => decide (105 ≤ bits temps (8 * i + 7) (8 * i))

/-- One reading of every sensor (R50): a region keeps its highest; 105 °C is THERMAL_TRIP and powers the die off (R377); a reading at
or above THROTTLE_C is a heat trigger (R54). -/
def readSensors (temps : BitVec 512) (s : State) : State :=
  let s := foldS (fun (r : Fin 8) s => s.updRegion r fun x =>
    let t : BitVec 64 := temps.extractLsb' (64 * r.val) 64
    { x with temps := t, tmax := BitVec.ofNat 8 ((List.range 8).foldl (fun m i => max m (bits t (8 * i + 7) (8 * i))) 0) })
    (List.ofFn id) s
  match tripSensor temps with
  | some i =>
    let s := raiseHalt ⟨hcThermal, none, engPower, none, BitVec.ofNat 64 (i / 8 + 8 * (i % 8)),
      BitVec.ofNat 64 (bits temps (8 * i + 7) (8 * i))⟩ s
    let s := dieOff (setEvent evThermal s)
    { s with pwr := { s.pwr with tripAt := some s.time.hallTime } }
  | none =>
    if (List.range 64).any fun i => decide (s.clk.throttleC ≤ bits temps (8 * i + 7) (8 * i)) then heatTrigger s else s

/-- REGION_TEMP_READING (R50): what the sensors show; it is read at a hall time that is a multiple of 1,000 ns, and a temperature reached
between two readings counts from the next one (log entry 63). -/
def execRegionTempReading (temps : BitVec 512) (s : State) : Host.Outcome State Fault Refusal :=
  .next <|
    let s := { s with clk := { s.clk with sensors := temps } }
    if s.pwr.dieOn ∧ s.now % 1000 = 0 then readSensors temps s else s

/-- TRIP_LOCKOUT_END (R377): 60 s after a thermal trip. -/
def execTripLockoutEnd (s : State) : Host.Outcome State Fault Refusal :=
  .next <|
    match s.pwr.tripAt with
    | some t => if t.toNat + 60000000000 ≤ s.now then { s with pwr := { s.pwr with tripAt := none } } else s
    | none => s

end Sys2Proof.Machine
end

