-- ==== Sys2Proof/Machine/Ingress.lean ====
section
/-!
DEFINITION. Ingress: the mooring table, musters, the ingress log, replay and relay (R326 to R338, R365).
-/
namespace Sys2Proof.Machine

/-! ## The mooring table (R326, Table 12.3) -/

def State.moorAddr (s : State) (i : BitVec 18) : Nat := (pair s.host.moorBaseLo s.host.moorBaseHi).toNat + 64 * i.toNat

/-! ### Reads and writes of the unit: it posts its writes, and reads through the blocks of the task it works on -/

/-- Posts a write of stack memory. -/
def ingWrite (a : Nat) (bs : List Byte) (s : State) : State :=
  stackAsk srcIngress 0 a bs.length (some bs) rqIngress (fun _ => .posted)
    { s with host := { s.host with posted := s.host.posted + (pieces 64 a bs.length).length } }

/-- One block of a read: as it has come, else it is wanted, and the task starts again when it comes. -/
def ingBlock (a n : Nat) (s : State) : Option (List Byte) × State :=
  match s.host.buf.got.find? fun g => g.1 == a && (g.2.all fun l => l.length == n) with
  | some g => (g.2, s)
  | none =>
    (some (List.replicate n 0), { s with host := { s.host with buf := { s.host.buf with wants := s.host.buf.wants ++ [(a, n)] } } })

def ingReadAux : List (Nat × Nat) → State → Option (List Byte) × State
  | [], s => (some [], s)
  | p :: t, s =>
    let (b, s) := ingBlock p.1 p.2 s
    let (r, s) := ingReadAux t s
    (match b, r with | some x, some y => some (x ++ y) | _, _ => none, s)
/-- Reads stack memory for the task; none when a block is uncorrectable. -/
def ingRead (a n : Nat) (s : State) : Option (List Byte) × State := ingReadAux (pieces 64 a n) s

def State.session (s : State) (i : BitVec 18) : Session := tget {} s.host.sessions i.toNat
def State.updSession (s : State) (i : BitVec 18) (f : Session → Session) : State :=
  { s with host := { s.host with sessions := tset {} s.host.sessions i.toNat (f (s.session i)) } }

/-- CONSUMER of an entry, which the program writes. -/
def consumerOf (i : BitVec 18) (s : State) : Option Nat × State :=
  let (b, s) := ingRead (s.moorAddr i + 24) 8 s
  (b.map ofBytes, s)

/-- Writes `n` little-endian bytes of a mooring entry at byte `off`. -/
def moorPut (i : BitVec 18) (off n v : Nat) (s : State) : State := ingWrite (s.moorAddr i + off) (toBytes n v) s

/-- A session number joins an ascending list. -/
def insertSession (i : BitVec 18) : List (BitVec 18) → List (BitVec 18)
  | [] => [i]
  | x :: t => if i.toNat < x.toNat then i :: x :: t else if i = x then x :: t else x :: insertSession i t

/-! ## Requests (R327, R329, R365) -/

def moorSession : MoorReq → BitVec 18
  | .open_ i _ _ _ => i
  | .close i => i
  | .bell i _ => i
  | .relayed i _ _ => i

/-- The request code of INGRESS_STATE (Table 15.5). -/
def moorCode : MoorReq → Nat
  | .open_ _ _ _ _ => 1
  | .close _ => 2
  | .bell _ _ => 0
  | .relayed _ _ _ => 0

/-- MOOR_RESULT of an OPEN or CLOSE. -/
def moorResult (r : MoorReq) (v : Nat) (s : State) : State :=
  match r with
  | .open_ _ _ _ _ | .close _ => { s with host := { s.host with moorResult := BitVec.ofNat 32 (2 ^ 31 + v) } }
  | _ => s

/-- INGRESS_STATE: nothing changes but the log and the result. -/
def moorRefuse (r : MoorReq) (v : Nat) (s : State) : State :=
  logErr errIngressState none ((moorSession r).setWidth 64) (BitVec.ofNat 64 (moorCode r)) (moorResult r v s)

/-- A ring that OPEN takes: 4 KiB aligned, 1 to 1,048,576 units, inside stack memory. -/
def ringOk (ring size : Nat) : Bool :=
  decide (ring % 4096 = 0) && decide (1 ≤ size) && decide (size ≤ 1048576) && decide (ring + 4096 * size ≤ memBytes)

/-- OPEN of a FREE entry. -/
def moorOpenEntry (i : BitVec 18) (ring : U64) (size tag : U32) (s : State) : State :=
  let s := moorPut i 0 8 ring.toNat (moorPut i 8 4 size.toNat (moorPut i 12 4 tag.toNat s))
  let s := (moorPut i 40 1 1 (moorPut i 16 24 0 s)).updSession i fun _ => ⟨ring.toNat, size.toNat, tag, 0, 0⟩
  { s with host := { s.host with
      openSessions := insertSession i s.host.openSessions, openedSince := s.host.openedSince + 1 } }

/-- CLOSE of an OPEN entry. -/
def moorCloseEntry (i : BitVec 18) (s : State) : State :=
  let s := moorPut i 40 1 2 s
  { s with host := { s.host with
      openSessions := s.host.openSessions.filter fun x => x != i, closing := insertSession i s.host.closing } }

/-- A doorbell that moves PRODUCER by `d` units of 64 bytes, `v` being what the log shows. -/
def moorAdvance (i : BitVec 18) (d v : Nat) (s : State) : State :=
  let e := s.session i
  let p := e.producer / 64
  if d = 0 then s
  else
    match consumerOf i s with
    | (some c, s) =>
      if p + d - c / 64 > 64 * e.size then logErr errIngressOverrun none (i.setWidth 64) (BitVec.ofNat 64 v) s
      else (moorPut i 16 8 (64 * (p + d)) s).updSession i fun e => { e with producer := 64 * (p + d) }
    | (none, s) => s

/-- The unit accepts a request (R327), or refuses it: replay mode, no image (log entry 30), a wrong state or a bad ring. -/
def acceptMoor (r : MoorReq) (s : State) : State :=
  let i := moorSession r
  if bit s.host.ingCfg 0 then
    logErr errIngressReplay none (i.setWidth 64) 0 (moorResult r 3 s)
  else if s.seq.state = .empty then moorRefuse r 1 s
  else
    match r with
    | .open_ _ ring size tag =>
      if s.host.openSessions.contains i ∨ s.host.closing.contains i then moorRefuse r 1 s
      else if ringOk ring.toNat size.toNat then moorResult r 0 (moorOpenEntry i ring size tag s)
      else moorRefuse r 2 s
    | .close _ => if s.host.openSessions.contains i then moorResult r 0 (moorCloseEntry i s) else moorRefuse r 1 s
    | .bell _ v =>
      if s.host.openSessions.contains i then
        moorAdvance i ((v - BitVec.ofNat 32 ((s.session i).producer / 64)).toNat) v.toNat s
      else moorRefuse r 1 s
    | .relayed _ _ n =>
      if s.host.openSessions.contains i then
        moorAdvance i (n.toNat / 64) (((s.session i).producer + n.toNat) / 64 % 2 ^ 32) s
      else moorRefuse r 1 s

/-- New work for the unit. -/
def addTask (w : IngWork) (s : State) : State :=
  { s with jobNo := s.jobNo + 1, host := { s.host with tasks := s.host.tasks ++ [⟨s.jobNo, w, {}⟩] } }

/-! ## Relay (R338; the flit forms are log entry 31) -/

/-- A class-2 flit of a relay: `ikind` 0 carries bytes of the relay from 256·index on, 1 is the doorbell with their number. -/
def relayFlit (s : State) (dest : BitVec 12) (session : BitVec 18) (ikind index : Nat) (bs : List Byte) : Flit :=
  { emptyFlit with
    fkind := 2, src := s.module, dest := dest, ikind := BitVec.ofNat 3 ikind, last := decide (ikind = 1)
    offset := BitVec.ofNat 45 (session.toNat + 2 ^ 18 * index), len4 := BitVec.ofNat 7 (bs.length / 4), payload := bs }

/-- A relay of this module to a session of `dest` still has flits on its way out. -/
def State.relaying (s : State) (dest : BitVec 12) (session : BitVec 18) : Bool :=
  let mine := fun (f : Flit) => f.src == s.module && f.dest == dest && f.offset.setWidth 18 == session
  (allPorts.any fun p => (s.port p).c2Out.any mine || (s.port p).c2Again.any mine || (s.port p).c2Sent.any fun e => mine e.2) ||
    s.host.tasks.any fun t => match t.work with | .relay d i _ _ => d == dest && i == session | _ => false

/-- Puts a class-2 flit on the route entry's PORT, or on its ALT_PORT while PORT is not UP (R311). -/
def c2Send (f : Flit) (s : State) : State :=
  let r := tget 0 s.fab.route f.dest.toNat
  let a := portOf (bits r 3 0)
  if bit r 31 then s.updPort (if (s.port a).state = .up then a else portOf (bits r 7 4)) fun p => { p with c2Out := p.c2Out ++ [f] } else s

/-- Pieces of 256 bytes with their numbers. -/
def relayPieces : Nat → Nat → List Byte → List (Nat × List Byte)
  | 0, _, _ => []
  | _ + 1, _, [] => []
  | fuel + 1, i, bs => (i, bs.take 256) :: relayPieces fuel (i + 1) (bs.drop 256)

/-- A relay: the local bytes and the doorbell go out as class 2. -/
def sendRelay (dest : BitVec 12) (session : BitVec 18) (src n : Nat) (s : State) : State :=
  match ingRead src n s with
  | (some bs, s) =>
    let s := foldS (fun p s => c2Send (relayFlit s dest session 0 p.1 p.2) s) (relayPieces (n / 256 + 2) 0 bs) s
    c2Send (relayFlit s dest session 1 0 (toBytes 4 n)) s
  | (none, s) => s

/-- Writes bytes into a ring from byte position `p` of its session on (R326). -/
def ringWrite (base size : Nat) (tag : Tag) (p : Nat) (bs : List Byte) (s : State) : State :=
  let sz := 4096 * size
  if sz = 0 then s
  else foldS (fun q s => stackAsk srcIngress 0 (base + q.1 % sz) q.2 (some ((bs.drop (q.1 - p)).take q.2)) rqIngress (fun _ => tag) s)
    (pieces 64 p bs.length) s

/-- Reads `n` ring bytes from position `p` on. -/
def ringReadAux (base size : Nat) : List (Nat × Nat) → State → List Byte × State
  | [], s => ([], s)
  | q :: t, s =>
    let (b, s) := ingRead (base + q.1 % (4096 * max 1 size)) q.2 s
    let (r, s) := ringReadAux base size t s
    (b.getD (List.replicate q.2 0) ++ r, s)
def ringRead (base size p n : Nat) (s : State) : List Byte × State := ringReadAux base size (pieces 64 p n) s

/-- A relay's class-2 flit arrives at its target: bytes go to the ring from the PRODUCER of the first one on, and have landed when they are
written. -/
def relayArrive (f : Flit) (s : State) : State :=
  let session : BitVec 18 := f.offset.setWidth 18
  let mine := fun (r : Relay) => r.session == session && r.source == f.src
  let e := s.session session
  let s := if s.host.relaysIn.any mine then s
    else { s with host := { s.host with relaysIn := s.host.relaysIn ++
      [{ session := session, source := f.src, bytes := 0, since := s.time.hallTime, at_ := BitVec.ofNat 64 e.producer }] } }
  let bell := fun (r : Relay) =>
    if mine r then { r with bytes := BitVec.ofNat 32 (ofBytes (f.payload.take 4)), since := s.time.hallTime } else r
  if f.ikind = 1 then { s with host := { s.host with relaysIn := s.host.relaysIn.map bell } }
  else if s.host.openSessions.contains session then
    let at_ := ((s.host.relaysIn.find? mine).map fun r => r.at_.toNat).getD 0
    ringWrite e.base e.size (.relayed session f.src) (at_ + 256 * (f.offset.toNat / 2 ^ 18)) f.payload s
  else accepted (.relayed session f.src) f.payload.length s

/-! ## Muster (R330 to R332) -/

/-- The entry of a session; FINAL for a CLOSING one. -/
def musterEntry (s : State) (i : BitVec 18) : MusterEntry :=
  ⟨i, s.host.closing.contains i, (s.session i).tag, BitVec.ofNat 64 (s.session i).producer⟩

/-- The sessions and their producer indices are frozen (R330); in replay mode the log gives them. -/
def latchNow (mark at_ : U64) (s : State) : State :=
  if bit s.host.ingCfg 0 then { s with host := { s.host with musters := s.host.musters ++ [⟨mark, at_, [], 0⟩] } }
  else
    let fresh := s.host.closing.filter fun i => !s.host.listedFinal.contains i
    let l := (fresh.foldl (fun l i => insertSession i l) s.host.openSessions).map (musterEntry s)
    { s with host := { s.host with
        musters := s.host.musters ++ [⟨mark, at_, l, s.host.openedSince⟩]
        openedSince := 0, listedFinal := s.host.listedFinal ++ fresh } }

/-- The bytes of a muster buffer (R331). -/
def musterBytes (m : Muster) : List Byte :=
  toBytes 8 m.mark.toNat ++ toBytes 8 m.at_.toNat ++ toBytes 4 m.entries.length ++ toBytes 4 m.opened ++
    toBytes 4 (m.entries.countP fun e => e.final) ++ List.replicate 36 0 ++
    m.entries.flatMap fun e =>
      toBytes 4 (e.session.toNat + 2 ^ 31 * b2n e.final) ++ toBytes 4 e.tag.toNat ++ toBytes 8 e.producer.toNat

/-- The address of the buffer of a mark (R331). -/
def State.musterAddr (s : State) (m : U64) : Nat :=
  (pair s.host.musterBaseLo s.host.musterBaseHi).toNat + 4198400 * (m.toNat % max 1 (bits s.host.musterDepth 4 0))

/-! ## The ingress log (R334 to R336) -/

def State.ilogBase (s : State) : Nat := (pair s.host.ilogBaseLo s.host.ilogBaseHi).toNat
def State.ilogBytes (s : State) : Nat := 65536 * bits s.host.ilogSize 19 0
def State.ilogFree (s : State) : Nat := s.ilogBytes - (s.host.ilogHead.toNat - s.host.ilogTail.toNat)

/-- Log records padded to a multiple of 64 bytes. -/
def pad64 (l : List Byte) : List Byte := l ++ List.replicate ((64 - l.length % 64) % 64) 0

/-- A record: its 32-byte header, the body, and padding (R335). -/
def logRecord (kind : Nat) (mark at_ : U64) (session : Nat) (body : List Byte) : List Byte :=
  let n := (32 + body.length + 63) / 64 * 64
  pad64 (toBytes 4 kind ++ toBytes 4 n ++ toBytes 8 mark.toNat ++ toBytes 8 at_.toNat ++ toBytes 4 session ++ toBytes 4 0 ++ body)

/-- Appends bytes at ILOG_HEAD; free space that falls below ILOG_WARN sets HOST_IRQ_CAUSE bit 4 (R336). -/
def ilogAppend (bs : List Byte) (s : State) : State :=
  let h := s.host.ilogHead.toNat
  let warn := 65536 * bits s.host.ilogWarn 19 0
  let was := s.ilogFree
  let s := foldS (fun p s => ingWrite (s.ilogBase + p.1 % max 1 s.ilogBytes) ((bs.drop (p.1 - h)).take p.2) s) (pieces 64 h bs.length) s
  let s := { s with host := { s.host with ilogHead := BitVec.ofNat 64 (h + bs.length) } }
  if warn ≤ was ∧ s.ilogFree < warn then setIrq 4 s else s

/-- GAP records go into the log as soon as they fit, oldest first. -/
def flushGaps : List (U64 × U64) → State → State
  | [], s => { s with host := { s.host with gapMarks := [] } }
  | g :: t, s =>
    if 64 ≤ s.ilogFree then flushGaps t (ilogAppend (logRecord 3 g.1 g.2 0 []) s)
    else { s with host := { s.host with gapMarks := g :: t } }

/-- The BYTES records of a muster, in ascending session order (R335). -/
def bytesRecords (m : Muster) : List MusterEntry → State → List Byte × State
  | [], s => ([], s)
  | e :: t, s =>
    let x := s.session e.session
    let n := e.producer.toNat - x.mustered
    let (b, s) := ringRead x.base x.size x.mustered n s
    let (r, s) := bytesRecords m t s
    ((if n = 0 then [] else logRecord 2 m.mark m.at_ e.session.toNat (toBytes 8 x.mustered ++ b)) ++ r, s)

/-- The log records of a muster, or a gap (R335, R336). -/
def logMuster (m : Muster) (s : State) : State :=
  let (b, s) := bytesRecords m m.entries s
  let rec_ := logRecord 1 m.mark m.at_ 0 (musterBytes m) ++ b
  let s := flushGaps s.host.gapMarks s
  if rec_.length ≤ s.ilogFree ∧ s.host.gapMarks = [] then ilogAppend rec_ s
  else
    let s := logErr errIlogGap none m.mark 0 { s with host := { s.host with gap := true } }
    flushGaps (s.host.gapMarks ++ [(m.mark, m.at_)]) s

/-! ## Writing a muster (R332) -/

/-- MUSTERED of each listed entry. -/
def setMustered (m : Muster) (s : State) : State :=
  foldS (fun e s => (moorPut e.session 32 8 e.producer.toNat s).updSession e.session fun x => { x with mustered := e.producer.toNat })
    m.entries s

/-- Frees one CLOSING entry that an earlier muster listed FINAL and whose CONSUMER equals MUSTERED. -/
def freeClosed (i : BitVec 18) (s : State) : State :=
  match consumerOf i s with
  | (some c, s) =>
    if c = (s.session i).mustered then
      let s := (moorPut i 40 1 0 s).updSession i fun x => { x with mustered := 0 }
      { s with host := { s.host with
          closing := s.host.closing.filter fun x => x != i, listedFinal := s.host.listedFinal.filter fun x => x != i } }
    else s
  | (none, s) => s

/-- The muster bell: MAX of m + 1, with a signaller that no rule names (log entry 32). -/
def musterBell (m : U64) (s : State) : State :=
  let (v, s) := s.fresh
  bellArrive { op := 2, addr := pair s.host.musterBellLo s.host.musterBellHi, operand := m + 1, express := false
               srcModule := s.module, srcCore := v.setWidth 5, cmd := v.extractLsb' 8 13, origin := .muster } s

/-- Work that comes before all the rest. -/
def addFirst (w : IngWork) (s : State) : State :=
  { s with jobNo := s.jobNo + 1, host := { s.host with tasks := ⟨s.jobNo, w, {}⟩ :: s.host.tasks } }

/-- The muster that a piece of work writes. -/
def IngWork.muster? : IngWork → Option Muster | .muster m => some m | _ => none

/-- The buffer, MUSTERED and the freed entries of one muster; its bell follows every write of it (R235). A session whose FINAL entry stands in
this muster or in one that is still to be written is freed by a later one. -/
def placeMuster (m : Muster) (s : State) : State :=
  let s := setMustered m (ingWrite (s.musterAddr m.mark) (musterBytes m) s)
  let later := m :: s.host.tasks.filterMap (fun t => t.work.muster?) ++ s.host.musters
  let s := foldS freeClosed (s.host.listedFinal.filter fun i => !later.any fun x => x.entries.any fun e => e.session == i) s
  addFirst (.bell m.mark) s

/-! ## Replay (R337) -/

/-- Log bytes at a byte count. -/
def ilogRead (p n : Nat) (s : State) : List Byte × State := ringRead s.ilogBase (s.ilogBytes / 4096) p n s

/-- The entries of a recorded muster buffer. -/
def parseEntries (l : List Byte) : Nat → List MusterEntry
  | 0 => []
  | n + 1 =>
    let w := ofBytes (l.take 4)
    ⟨BitVec.ofNat 18 w, decide (2 ^ 31 ≤ w), BitVec.ofNat 32 (ofBytes ((l.drop 4).take 4)), BitVec.ofNat 64 (ofBytes ((l.drop 8).take 8))⟩
      :: parseEntries (l.drop 16) n

/-- The BYTES records of mark `m` from log position `t` on: session, position and bytes of each, and where they end; none where ILOG_HEAD
cuts one. -/
def replayRecords (m : U64) (es : List MusterEntry) : Nat → Nat → State → Option (List (BitVec 18 × Nat × List Byte) × Nat) × State
  | 0, t, s => (some ([], t), s)
  | fuel + 1, t, s =>
    if s.host.ilogHead.toNat < t + 64 then (some ([], t), s)
    else
      let (h, s) := ilogRead t 64 s
      if ofBytes (h.take 4) = 2 ∧ ofBytes ((h.drop 8).take 8) = m.toNat then
        let n := max 64 (ofBytes ((h.drop 4).take 4))
        if s.host.ilogHead.toNat < t + n then (none, s)
        else
          let i : BitVec 18 := BitVec.ofNat 18 (ofBytes ((h.drop 24).take 4))
          let p := ofBytes ((h.drop 32).take 8)
          let len := min (n - 40) (((es.find? fun e => e.session == i).map fun e => e.producer.toNat - p).getD 0)
          let (b, s) := ilogRead (t + 40) len s
          let (r, s) := replayRecords m es fuel (t + n) s
          (r.map fun x => ((i, p, b) :: x.1, x.2), s)
      else (some ([], t), s)

/-- The bytes of a record go into its session's ring, which the mooring table gives, at the recorded position. -/
def replayBytes (x : BitVec 18 × Nat × List Byte) (s : State) : State :=
  match ingRead (s.moorAddr x.1) 16 s with
  | (some l, s) => ringWrite (ofBytes (l.take 8)) (ofBytes ((l.drop 8).take 4)) .none x.2.1 x.2.2 s
  | (none, s) => s

/-- The mooring entries a recorded muster sets (R337). -/
def replayEntry (e : MusterEntry) (s : State) : State :=
  let s := moorPut e.session 12 4 e.tag.toNat (moorPut e.session 16 8 e.producer.toNat (moorPut e.session 40 1 (if e.final then 2 else 1) s))
  let s := s.updSession e.session fun x => { x with tag := e.tag, producer := e.producer.toNat }
  { s with host :=
      if e.final then { s.host with
        openSessions := s.host.openSessions.filter fun x => x != e.session
        closing := insertSession e.session s.host.closing, listedFinal := s.host.listedFinal ++ [e.session] }
      else { s.host with openSessions := insertSession e.session s.host.openSessions } }

/-- Every session of a recorded muster that has new bytes has them among the records that were found (R335, R337). -/
def replayWhole (es : List MusterEntry) (rs : List (BitVec 18 × Nat × List Byte)) (s : State) : Bool :=
  es.all fun e => decide (e.producer.toNat ≤ (s.session e.session).mustered) ||
    rs.any fun x => x.1 == e.session && decide (x.2.1 + x.2.2.length = e.producer.toNat)

/-- REPLAY_MUSTER: the next record must be the MUSTER record of the mark, and it and its BYTES records must be in the log whole, or replay
ends and nothing is written. -/
def replayMuster (m : Muster) (s : State) : State :=
  let t := s.host.ilogTail.toNat
  let ended := fun (s : State) => { s with host := { s.host with replayEnd := true } }
  if s.host.ilogHead.toNat < t + 128 then ended s
  else
    let (h, s) := ilogRead t 128 s
    let n := max 128 (ofBytes ((h.drop 4).take 4))
    let count := ofBytes ((h.drop 48).take 4)
    if ofBytes (h.take 4) = 1 ∧ ofBytes ((h.drop 8).take 8) = m.mark.toNat ∧ t + n ≤ s.host.ilogHead.toNat ∧ 96 + 16 * count ≤ n then
      let (l, s) := ilogRead (t + 96) (16 * count) s
      let es := parseEntries l count
      match replayRecords m.mark es (es.length + 1) (t + n) s with
      | (some (rs, e), s) =>
        if replayWhole es rs s then
          let s := foldS replayBytes rs { s with host := { s.host with ilogTail := BitVec.ofNat 64 e, ilogTailLo := BitVec.ofNat 32 e } }
          placeMuster { m with
            at_ := BitVec.ofNat 64 (ofBytes ((h.drop 40).take 8)), entries := es, opened := ofBytes ((h.drop 52).take 4) } (foldS replayEntry es s)
        else ended s
      | (none, s) => ended s
    else ended s

/-! ## The unit at work -/

/-- What a piece of work does; where it wants a block that has not come, nothing of it counts. -/
def ingStep (w : IngWork) (s : State) : State :=
  match w with
  | .moor r _ => acceptMoor r s
  | .latch m a => latchNow m a s
  | .muster m => if bit s.host.ingCfg 0 then replayMuster m s else placeMuster m (logMuster m s)
  | .bell m => musterBell m s
  | .relay d i a n => sendRelay d i a n s

def IngWork.isMoor : IngWork → Bool | .moor _ _ | .latch _ _ => true | _ => false
def IngWork.isMuster : IngWork → Bool | .muster _ | .bell _ => true | _ => false

/-- A task can go on: every block it wants has come; requests and latches one at a time in their order, a request once the BAR2 writes before
it are written and below tier 2 (R327, R365); musters one at a time in order, and a bell after the writes of its muster. -/
def taskReady (s : State) (t : IngTask) : Bool :=
  (t.buf.wants.all fun w => t.buf.got.any fun g => g.1 == w.1) &&
    (!t.work.isMoor || (s.host.tasks.find? fun x => x.work.isMoor).any fun x => x.id == t.id) &&
    (!t.work.isMuster || (s.host.tasks.find? fun x => x.work.isMuster).any fun x => x.id == t.id) &&
    (match t.work with
     | .moor _ after => decide (s.pwr.tier.val < 2) && s.host.writing.all fun w => decide (after ≤ w.1)
     | .bell _ => s.host.posted == 0
     | _ => true)

/-- One task goes on: it is done, or the blocks it still wants are asked for. -/
def runTask (t : IngTask) (s : State) : State :=
  let r := ingStep t.work { s with host := { s.host with
    tasks := s.host.tasks.filter fun x => x.id != t.id, buf := { wants := [], got := t.buf.got } } }
  if r.host.buf.wants = [] then { r with host := { r.host with buf := {} } }
  else
    foldS (fun w s => stackAsk srcIngress 0 w.1 w.2 none rqIngress (fun _ => .ingress t.id w.1) s) r.host.buf.wants
      { s with host := { s.host with tasks := s.host.tasks.map fun x =>
        if x.id = t.id then { x with buf := { x.buf with wants := r.host.buf.wants } } else x } }

/-- The unit goes on with what it can. -/
def ingWork : Nat → State → State
  | 0, s => s
  | fuel + 1, s => match s.host.tasks.find? (taskReady s) with | some t => ingWork fuel (runTask t s) | none => s
def ingressWork (s : State) : State := ingWork (s.host.tasks.length + 1) s

/-! ## Requests as they come in (R327, R338, R365) -/

/-- A request of the host: at tier 2 and deeper it waits, or finds the queue of 4,096 full (R365). -/
def moorRequest (r : MoorReq) (s : State) : State :=
  if ¬ s.pwr.dieOn then s
  else if 2 ≤ s.pwr.tier.val then
    if s.host.deferred.length < 4096 then
      { s with host := { s.host with deferred := s.host.deferred ++ [r], moorResult :=
          match r with | .open_ _ _ _ _ | .close _ => 0 | _ => s.host.moorResult } }
    else moorRefuse r 1 s
  else ingressWork (addTask (.moor r s.host.writeNo) s)

/-- The deferred requests are accepted in link order when the tier leaves (R365). -/
def moorRelease (s : State) : State :=
  if s.pwr.tier.val < 2 then
    ingressWork (foldS (fun r s => addTask (.moor r s.host.writeNo) s) s.host.deferred { s with host := { s.host with deferred := [] } })
  else s

/-- OPEN (R327): the session and ring that MOOR_SEL, MOOR_RING, MOOR_SIZE and MOOR_TAG name. -/
def execMoorOpen (s : State) : Host.Outcome State Fault Refusal :=
  .next (moorRequest (.open_ (s.host.moorSel.setWidth 18) (pair s.host.moorRingLo s.host.moorRingHi) s.host.moorSize s.host.moorTag) s)

/-- CLOSE (R327). -/
def execMoorClose (s : State) : Host.Outcome State Fault Refusal := .next (moorRequest (.close (s.host.moorSel.setWidth 18)) s)

/-- DOORBELL (R327): a write of `v` to MOOR_DOORBELL of a session. -/
def execDoorbell (session : BitVec 18) (v : U32) (s : State) : Host.Outcome State Fault Refusal :=
  .next (moorRequest (.bell session v) s)

/-- RELAYED_DOORBELL (R338): all its bytes have landed, and it is accepted. -/
def execRelayedDoorbell (session : BitVec 18) (source : BitVec 12) (bytes : U32) (s : State) : Host.Outcome State Fault Refusal :=
  .next <|
    match s.host.relaysIn.find? fun r => r.session == session && r.source == source with
    | some r =>
      if r.bytes = bytes ∧ r.bytes ≠ 0 ∧ r.bytes.toNat ≤ r.landed.toNat then
        moorRequest (.relayed session source bytes) { s with host := { s.host with relaysIn := s.host.relaysIn.erase r } }
      else s
    | none => s

/-- RELAY_STALL (R338): 1,000,000 ns after the doorbell some bytes are missing. -/
def execRelayStall (session : BitVec 18) (source : BitVec 12) (s : State) : Host.Outcome State Fault Refusal :=
  .next <|
    match s.host.relaysIn.find? fun r => r.session == session && r.source == source with
    | some r =>
      if r.bytes ≠ 0 ∧ r.landed.toNat < r.bytes.toNat ∧ r.since.toNat + 1000000 ≤ s.now then
        logErr errRelayStall none (session.setWidth 64) (source.setWidth 64)
          { s with host := { s.host with relaysIn := s.host.relaysIn.erase r } }
      else s
    | none => s

/-- RELAY (R338): the local bytes and the doorbell go out as class 2; a second relay of a session, a bad length or source, or a
target that no route reaches is refused. -/
def execMoorRelay (s : State) : Host.Outcome State Fault Refusal :=
  .next <|
    let session : BitVec 18 := s.host.moorSel.setWidth 18
    let dest : BitVec 12 := s.host.relModule.setWidth 12
    let src := (pair s.host.moorRingLo s.host.moorRingHi).toNat
    let n := s.host.moorSize.toNat
    if ¬ s.pwr.dieOn then s
    else if s.seq.state = .empty ∨ s.relaying dest session ∨ n % 64 ≠ 0 ∨ n = 0 ∨ 1048576 < n ∨ memBytes < src + n ∨ dest = s.module ∨
        bit (tget 0 s.fab.route dest.toNat) 31 = false then
      logErr errIngressState none (session.setWidth 64) 3 s
    else ingressWork (addTask (.relay dest session src n) s)

/-! ## Musters in time (R330, R332) -/

/-- MUSTER_LATCH (R330): a request that the unit has accepted, and whose CONSUMER is still on its way, comes before the latch; those not
accepted yet come after it. -/
def latchMuster (s : State) : State :=
  let t : IngTask := ⟨s.jobNo, .latch s.seq.mark s.seq.markAt, {}⟩
  let l := s.host.tasks
  let s := { s with jobNo := s.jobNo + 1, host := { s.host with tasks := match l.find? fun x => x.work.isMoor with
    | some x => if x.buf.wants = [] then l.takeWhile (· != x) ++ t :: l.dropWhile (· != x)
                else l.takeWhile (· != x) ++ x :: t :: (l.dropWhile (· != x)).drop 1
    | none => l ++ [t] } }
  ingressWork s

/-- The leg of mark m − 1 is complete (R332). -/
def State.legBefore (s : State) (m : U64) : Bool :=
  decide (m = 0) || decide (m.toNat ≤ s.seq.legMark.toNat) ||
    (decide (m.toNat = s.seq.legMark.toNat + 1) && (s.seq.state == .gated || s.seq.state == .done))

/-- MUSTER_WRITE (R332): the oldest latched muster is logged and written once the leg before it is complete. -/
def execMusterWrite (s : State) : Host.Outcome State Fault Refusal :=
  .next <|
    match s.host.musters with
    | m :: t =>
      if s.seq.begun ∧ s.legBefore m.mark then
        ingressWork (addTask (.muster m) { s with host := { s.host with musters := t } })
      else s
    | [] => s

/-- ILOG_TAIL_HI_WRITE (R405): the pair takes effect; a waiting GAP record may fit now. -/
def execIlogTailHiWrite (v : U32) (s : State) : Host.Outcome State Fault Refusal :=
  .next <|
    if s.pwr.mainOn then
      let s := { s with host := { s.host with ilogTail := pair s.host.ilogTailLo v } }
      flushGaps s.host.gapMarks s
    else s

/-- ILOG_HEAD_SET_WRITE (R337): the length of a recorded log, in replay mode. -/
def execIlogHeadSetWrite (v : U32) (s : State) : Host.Outcome State Fault Refusal :=
  .next <|
    if s.pwr.mainOn ∧ bit s.host.ingCfg 0 then
      { s with host := { s.host with ilogHead := BitVec.ofNat 64 (64 * v.toNat) } }
    else s

end Sys2Proof.Machine
end

