-- ==== Sys2Proof/Machine/Sequencer.lean ====
section
/-!
DEFINITION. The leg sequencer: the walk of the leg table, marks, leg starts and completions, helm loads, progress checks and
slips (R27 to R38, R64, R84 to R88, R97, R295, R296, R366).
-/
namespace Sys2Proof.Machine

/-! ## The leg table (Tables 3.7 and 3.8) and its walk (R85) -/

def legOf (l : List Byte) : LegEntry :=
  let f := fun a n => ofBytes ((l.drop a).take n)
  let flags := f 12 4
  { w16 := BitVec.ofNat 32 (f 0 4), l := BitVec.ofNat 32 (f 4 4), reps := BitVec.ofNat 32 (f 8 4)
    isEnd := decide (flags % 2 = 1), clearSync := decide (flags / 2 % 2 = 1), coreTable := BitVec.ofNat 64 (f 16 8)
    loopTo := BitVec.ofNat 16 (f 24 2), loopCount := BitVec.ofNat 32 (f 28 4) }

def State.legTable (s : State) : Nat := (pair s.seq.tableBaseLo s.seq.tableBaseHi).toNat

/-- Leg entry `e`, as the load has read it. -/
def State.legEntry (s : State) (e : Nat) : LegEntry := s.seq.legs.getD e {}

/-- The leg after a place of the walk (R85). -/
def walkNext (s : State) (w : Walk) : Walk :=
  if w.ended then w
  else if w.rep + 1 < w.leg.reps.toNat then { w with rep := w.rep + 1 }
  else if w.leg.loopCount ≠ 0 ∧ tget 0 w.left w.entry ≠ 0 then
    let e := w.leg.loopTo.toNat
    { entry := e, rep := 0, leg := s.legEntry e, left := tset 0 w.left w.entry (tget 0 w.left w.entry - 1), ended := false }
  else
    let left := tset 0 w.left w.entry w.leg.loopCount.toNat
    if w.leg.isEnd then { w with left := left, ended := true }
    else { entry := w.entry + 1, rep := 0, leg := s.legEntry (w.entry + 1), left := left, ended := false }

def coreBlockOf (l : List Byte) : CoreBlock :=
  let f := fun a n => ofBytes ((l.drop a).take n)
  { block := f 0 8, words := f 8 2, predInit := BitVec.ofNat 16 (f 10 2), predMask := BitVec.ofNat 16 (f 12 2) }

/-! ## Slips (R33 to R37, R42) -/

/-- Q and H in ns (Table 1.8). -/
def TimeDom.quantum (t : TimeDom) : Nat := 16 * bits t.slipCfg 31 16
def TimeDom.horizon (t : TimeDom) : Nat := 256 * bits t.slipCfg 15 4
/-- SLIP_IRQ (R37). -/
def TimeDom.slipIrq (t : TimeDom) : Nat := bits t.legCfg 31 16

/-- The shift of the next mark follows its k_max (R33). -/
def reshift (s : State) : State :=
  { s with seq := { s.seq with
      nextAt := s.seq.nextBase + BitVec.ofNat 64 (tget 0 s.seq.kMax s.seq.nextNum * s.time.quantum) } }

/-- The hall time of a mark that is the next one or a later one, as it is known now (log entry 33). -/
def State.markTime (s : State) (m : Nat) : U64 :=
  if m ≤ s.seq.nextNum then s.seq.nextAt
  else s.seq.nextAt + BitVec.ofNat 64 (16 * s.seq.due.leg.w16.toNat + tget 0 s.seq.kMax m * s.time.quantum)

/-- An entry in the slip log, a ring of 256 (R42). -/
def logSlip (e : SlipEntry) (s : State) : State :=
  { s with time := { s.time with slipLog := ringPush 256 s.time.slipLog e, slipTotal := s.time.slipTotal + 1 } }

/-- TIME_SLIP_COUNT and, once per job, the slip-threshold vector (R37). -/
def countSlip (s : State) : State :=
  let s := { s with time := { s.time with slipCount := s.time.slipCount + 1 } }
  if s.time.slipIrq ≠ 0 ∧ s.time.slipIrq ≤ s.time.slipCount.toNat ∧ ¬ s.time.slipIrqSent then
    setIrq 2 { s with time := { s.time with slipIrqSent := true } }
  else s

/-- Applies k quanta to mark m: k_max, the mark's time, the log and the count (R33, R37). -/
def applySlip (m k : Nat) (raiser : BitVec 12) (core : BitVec 5) (seq : Bool) (reason : Byte) (s : State) : State :=
  let s := reshift { s with seq := { s.seq with kMax := tset 0 s.seq.kMax m (max k (tget 0 s.seq.kMax m)) } }
  countSlip (logSlip
    { appliedAt := s.time.hallTime, mark := BitVec.ofNat 64 m, newTime := s.markTime m, raiser := raiser, core := core
      seq := seq, k := BitVec.ofNat 4 k, kMax := BitVec.ofNat 4 (tget 0 s.seq.kMax m), reason := reason, late := false } s)

/-- The SLIP flood (Table 11.6). -/
def slipMsgOf (s : State) (m k : Nat) (core : BitVec 5) (seq : Bool) (reason : Byte) : C0Msg :=
  c0msg [(0, 1, kindSlip), (2, 2, s.seq.origin.toNat), (4, 4, m % 2 ^ 32), (8, 1, k), (9, 1, reason.toNat),
    (10, 2, s.module.toNat), (12, 1, core.toNat + 32 * b2n seq)]

def slipProgress : Byte := 0
def slipHorizon : Byte := 1
def slipLate : Byte := 2
def slipPark : Byte := 3

/-- This module raises a slip of `k` quanta naming mark `m`; `core` none: the leg sequencer raises it. None is raised while
marks have no hall time (R375). -/
def raiseSlip (m k : Nat) (core : Option (Fin 32)) (reason : Byte) (s : State) : State :=
  if ¬ (s.seq.state = .running ∨ s.seq.state = .gated) ∨ s.seq.suspended then s
  else
    let c : BitVec 5 := match core with | some c => BitVec.ofNat 5 c.val | none => 0
    c0flood none (slipMsgOf s m k c core.isNone reason) (applySlip m k s.module c core.isNone reason s)

/-- Quanta for an overrun of `d` ns, 1 to 15 (R35). -/
def slipQuanta (q d : Nat) : Nat := max 1 (min 15 ((d + q - 1) / q))

/-- The predicted completion from cycle c on (R35). Past the scheduled length no cycle remains (log entry 61). -/
def State.predict (s : State) (c : Nat) : Nat :=
  let f := s.clk.freq.toNat
  s.now + ((s.seq.cur.leg.l.toNat - c) * 1000 + f - 1) / f

/-- The mark a slip raised now names (R34). -/
def State.slipTarget (s : State) : Nat :=
  if s.now + s.time.horizon < s.seq.nextBase.toNat then s.seq.nextNum else s.seq.nextNum + 1

/-- A progress or horizon check at cycle c (R35, R36). In the last leg before END there is no next mark, and no slip is raised
(log entry 61). -/
def checkProgress (c : Nat) (core : Option (Fin 32)) (reason : Byte) (s : State) : State :=
  let pred := s.predict c
  if s.seq.timed ∧ s.seq.nextAt.toNat < pred then
    raiseSlip s.slipTarget (slipQuanta s.time.quantum (pred - s.seq.nextAt.toNat)) core reason s
  else s

/-- HORIZON_CHECK (R36): once for each mark, at h(n), while the current leg is incomplete. -/
def execHorizonCheck (s : State) : Host.Outcome State Fault Refusal :=
  .next <|
    if s.seq.timed ∧ s.seq.begun ∧ ¬ s.seq.horizonDone ∧ s.seq.nextBase.toNat ≤ s.now + s.time.horizon then
      let s := { s with seq := { s.seq with horizonDone := true } }
      if s.seq.state = .running then checkProgress s.seq.cycle none slipHorizon s else s
    else s

/-- The full number of a mark from its low 32 bits, nearest to the next mark. -/
def fullMark (next low : Nat) : Nat :=
  let d := (2 ^ 32 - next % 2 ^ 32 + low) % 2 ^ 32
  if d < 2 ^ 31 then next + d else next + d - 2 ^ 32

/-- A slip of this partition that came late (R33): logged on its first arrival, neither applied, counted nor forwarded. -/
def lateSlip (m k : Nat) (raiser : BitVec 12) (core : BitVec 5) (seq : Bool) (reason : Byte) (s : State) : State :=
  if s.time.slipLog.any fun e => e.mark.toNat == m && e.raiser == raiser && e.core == core && e.seq == seq &&
      e.k.toNat == k && e.reason == reason then c0drop s
  else
    logSlip { appliedAt := s.time.hallTime, mark := BitVec.ofNat 64 m, newTime := tget 0 s.seq.markTimes m, raiser := raiser
              core := core, seq := seq, k := BitVec.ofNat 4 k, kMax := BitVec.ofNat 4 (tget 0 s.seq.kMax m), reason := reason
              late := true } s

/-- SLIP (R33, R299): a slip of this partition, or a hall-wide one, that raises k_max is applied and forwarded; one of another partition is
forwarded when it raises the k_max seen for that partition and mark. -/
def execSlipMsg (port : Fin 16) (msg : C0Msg) (s : State) : Host.Outcome State Fault Refusal :=
  .next <|
    let origin : BitVec 12 := BitVec.ofNat 12 (c0get msg 2 2)
    let low := c0get msg 4 4
    let k := c0get msg 8 1
    if (origin = s.seq.origin ∨ origin = 0xFFF) ∧ (s.seq.state = .armed ∨ s.seq.state = .running ∨ s.seq.state = .gated ∨ s.seq.state = .done) then
      let raiser : BitVec 12 := BitVec.ofNat 12 (c0get msg 10 2)
      let core : BitVec 5 := BitVec.ofNat 5 (c0get msg 12 1)
      let seq := decide (c0get msg 12 1 / 32 % 2 = 1)
      let reason : Byte := BitVec.ofNat 8 (c0get msg 9 1)
      let m := fullMark s.seq.nextNum low
      if m < s.seq.nextNum then lateSlip m k raiser core seq reason s
      else if tget 0 s.seq.kMax m < k then c0flood (some port) msg (applySlip m k raiser core seq reason s)
      else c0drop s
    else
      match s.fab.slipSeen.find? fun e => e.1 == origin && e.2.1 == low with
      | some e =>
        if e.2.2 < k then
          c0flood (some port) msg { s with fab := { s.fab with slipSeen := s.fab.slipSeen.map fun x => if x = e then (origin, low, k) else x } }
        else c0drop s
      | none => c0flood (some port) msg { s with fab := { s.fab with slipSeen := s.fab.slipSeen ++ [(origin, low, k)] } }

/-! ## Arming (R31, R97) -/

/-- LEG_ARM_HI_WRITE: accepted only in LOADED; an early or misaligned first mark is logged and ignored. -/
def execLegArmHiWrite (v : U32) (s : State) : Host.Outcome State Fault Refusal :=
  .next <|
    if s.seq.state = .loaded then
      let t := pair s.seq.armLo v
      let early := decide (t.toNat < s.now + 10000)
      let off := decide (t.toNat % 16 ≠ 0)
      let s := if early then logErr errMarkPast none t s.time.hallTime s else s
      let s := if off then logErr errMarkAlign none t s.time.hallTime s else s
      if early || off then s else { s with seq := { s.seq with state := .armed, nextAt := t, nextBase := t } }
    else s

/-! ## The fabric's tables at a mark (R295, R296) -/

/-- The table set that a leg entry names. -/
def State.setOfLeg (s : State) (e : Nat) : Nat := tget 0 s.fab.legSet e

/-- FABRIC_TABLE_SWITCH: the shadow set becomes active, or stays where it is the one already active; a copy that has not finished
halts the die with cause TABLE_LATE. -/
def switchTables (entry : Nat) (s : State) : State :=
  let need := s.setOfLeg entry
  let f := s.fab
  let until_ := some (s.slot + bits f.drain 12 0)
  if f.tablesLive ∧ f.activeSet = need then
    { s with fab := { f with previous := f.active, drainUntil := until_ } }
  else if f.shadowReady ∧ f.shadowSet = need then
    { s with fab := { f with
        previous := if f.tablesLive then f.active else [], active := f.shadow, activeSet := need, tablesLive := true
        shadowReady := false, drainUntil := until_ } }
  else slotCollision 5 s.slot 15 15 0 s

/-! ## Leg start -/

/-- A core at cycle 0 of a leg (R86, R87, R253): CLEAR_SYNC, predicates, its block, a fresh command pointer, and the helm stream that goes for
the next leg's block. -/
def coreAtLeg (clear noHelm : Bool) (k : Core) : Core :=
  let b := k.helmEntry.getD {}
  epsAtLeg { k with
    flags := if clear then 0 else k.flags
    counters := if clear then Vector.replicate 32 0 else k.counters
    preds := (k.preds &&& ~~~b.predMask) ||| (b.predInit &&& b.predMask)
    blockWords := b.words, blockDone := decide (b.words = 0), cmdIdx := 0, prevIssue := 0, lookIdx := 0, lookPrev := 0, ahead := []
    slotCycle := 0, slotTargets := [], slotWords := 0, spans := [], prev := [], older := [], accs := [], scoreboard := [], busyBanks := 0
    helmBusy := !noHelm, helmDone := false, helmEntry := none
    arrays := k.arrays.map fun a => { a with
      late := Vector.replicate 8 0, escLeg := 0, idleFrom := 0, extNow := [], setA := { a.setA with usedUntil := 0 }, setB := { a.setB with usedUntil := 0 } }
    vec := { k.vec with inFlight := [] }, sends := []
    engines := k.engines.map fun g => { g with hands := [] }
    turn := { k.turn with inFlight := [] } }

/-- The floor record of R378: f is 1,000 MHz with LIMIT 1 or 2 at cycle 0. -/
def noteFloor (s : State) : State :=
  let low := s.clk.freq == 1000 && (s.clk.limit == 1 || s.clk.limit == 2)
  checkService { s with seq := { s.seq with floorLegs := ringPush 4096 s.seq.floorLegs low } }

/-- ELASTIC_ESCALATION_LIMIT for a late start (R62). -/
def lateEscalation (s : State) : State :=
  let s := { s with seq := { s.seq with esc := s.seq.esc + 1 } }
  if s.clk.escLimit ≠ 0 ∧ s.clk.escLimit < s.seq.esc then
    raiseHalt ⟨hcElastic, none, engSeq, none, BitVec.ofNat 64 (2 ^ 63), BitVec.ofNat 64 s.seq.esc⟩ s
  else s

/-- Cycle 0 of the next leg (R28, R30, R56, R86, R87). -/
def startLeg (late : Bool) (s : State) : State :=
  let first := s.seq.state == .armed
  let cur := s.seq.next
  let nx := walkNext s cur
  let s := applySteps (fun _ => true) { s with
    seq := { s.seq with
      state := .running, cur := cur, next := nx, legMark := if first then 0 else s.seq.legMark + 1, cycle := 0, esc := 0
      parked := false }
    clk := { s.clk with
      regions := s.clk.regions.map fun r => { r with lastStretch := none }, reqs := [], mesh := [], acc := 0, phase := .sample } }
  let s := groupsAtLeg s
  let s := noteFloor { s with cores := s.cores.map (coreAtLeg cur.leg.clearSync nx.ended) }
  if late && s.clk.lateCounts then lateEscalation s else s

/-! ## Park (R366) -/

/-- PARK: the next leg is withheld, the die stays gated, the stacks enter self-refresh; it counts as a hold. -/
def park (s : State) : State :=
  let s := enterSelfRefresh { s with
    seq := { s.seq with parked := true }
    clk := { s.clk with holdCount := s.clk.holdCount + 1 } }
  { s with pwr := { s.pwr with phase := if s.pwr.phase = .ready then .parked else s.pwr.phase } }

/-! ## Marks (R28, R32, R36, R296, R330) -/

/-- What a mark does to the leg that runs, is due, or is withheld. The overrun of SLIP_LATE is the one beyond M(n) + W(n), which is the
next mark before its own slips (R36); a leg that will end before that raises it with k = 1 (log entry 33). -/
def markLeg (s : State) : State :=
  match s.seq.state with
  | .armed => startLeg false s
  | .running =>
    raiseSlip (s.seq.mark.toNat + 1) (slipQuanta s.time.quantum (s.predict s.seq.cycle - s.seq.nextBase.toNat)) none slipLate s
  | .gated => if s.seq.parked then raiseSlip s.slipTarget 1 none slipPark s else startLeg false s
  | _ => s

/-- Mark n is reached: the next mark's time follows from W(n) and its own slips. -/
def reachMark (s : State) : State :=
  let entry := s.seq.due.entry
  let w := 16 * s.seq.due.leg.w16.toNat
  let due := walkNext s s.seq.due
  let at_ := s.seq.nextAt
  let s := reshift { s with seq := { s.seq with
    mark := BitVec.ofNat 64 s.seq.nextNum, markAt := at_, markTimes := tset 0 s.seq.markTimes s.seq.nextNum at_
    nextBase := at_ + BitVec.ofNat 64 w, due := due, begun := true, horizonDone := false } }
  let s := latchMuster (switchTables entry s)
  markLeg s

/-- The next mark is withheld by a suspension (R375). -/
def State.withheld (s : State) : Bool :=
  match s.seq.suspendReq with
  | some m => decide (m.toNat ≤ s.seq.nextNum)
  | none => false

/-- MARK (R28): in its hall time. -/
def execMark (s : State) : Host.Outcome State Fault Refusal :=
  .next (if s.seq.timed ∧ s.seq.nextAt.toNat ≤ s.now ∧ ¬ s.withheld then reachMark s else s)

/-! ## Helm loads (R87, R88) -/

/-- The 32-byte words of a command block. -/
def blockWords : Nat → List Byte → List W256
  | 0, _ => []
  | n + 1, l => BitVec.ofNat 256 (ofBytes (l.take 32)) :: blockWords n (l.drop 32)

/-- A core's bank of a number. -/
def Core.bank (k : Core) (n : Nat) : Tbl W256 := if n % 2 = 0 then k.bank0 else k.bank1
def Core.setBank (k : Core) (n : Nat) (t : Tbl W256) : Core := if n % 2 = 0 then { k with bank0 := t } else { k with bank1 := t }

/-- Words placed from index `i` on. -/
def putWords (t : Tbl W256) (i : Nat) : List W256 → Tbl W256
  | [] => t
  | w :: l => putWords (tset 0 t i w) (i + 1) l

/-- The helm job of a core. -/
def State.helmJob (s : State) (c : Fin 32) : Option Job := s.jobs.find? fun j => match j.want with | .helm d _ => d == c | _ => false

/-- The read of a core's block entry, and the entry once it has come. -/
def State.entryJob (s : State) (c : Fin 32) : Option Job := s.jobs.find? fun j => j.want == .helmEntry c
def State.helmEntryOf (s : State) (c : Fin 32) : Option CoreBlock :=
  (s.core c).helmEntry <|> ((s.entryJob c).bind fun j => if j.need = 0 then some (coreBlockOf j.bytes) else none)

/-- A helm stream reads its core's block entry of the next leg from stack memory, and then the block; an entry without words leaves it
nothing to copy. -/
def startHelm (c : Fin 32) (s : State) : State :=
  if (s.core c).helmBusy ∧ s.seq.state ≠ .halted ∧ (s.helmJob c).isNone then
    match s.helmEntryOf c with
    | none =>
      if (s.entryJob c).isSome then s
      else startJob (.helmEntry c) 14 rqHelm c.val 0 (s.seq.next.leg.coreTable.toNat + 16 * c.val) 16 s
    | some b =>
      let s := (match s.entryJob c with | some j => s.endJob j | none => s).updCore c fun k => { k with
        helmEntry := some b, helmBusy := decide (b.words ≠ 0), helmDone := decide (b.words = 0) }
      if b.words = 0 then s else startJob (.helm c b.words) 14 rqHelm c.val 0 b.block (32 * b.words) s
  else s

/-- HELM_LOAD_DONE: every block of the next leg's command block has come, and it is in the idle bank of its core. -/
def execHelmLoadDone (core : Fin 32) (s : State) : Host.Outcome State Fault Refusal :=
  .next <|
    match s.helmJob core with
    | some j =>
      if (s.core core).helmBusy ∧ s.seq.state ≠ .halted ∧ j.need = 0 then
        (s.endJob j).updCore core fun k =>
          { k.setBank (s.seq.legMark.toNat + 1)
              (putWords (k.bank (s.seq.legMark.toNat + 1)) 0 (blockWords (j.len / 32) j.bytes)) with
            helmBusy := false, helmDone := true }
      else s
    | none => s

/-! ## Leg completion (R30, R216 to R218, R366) -/

/-- A stream keeps no leg open (R216, R217); the started elements of a stopping one complete first (R218). -/
def streamIdle (d : BitVec 512) (st : Stream) : Bool :=
  let out := sdKind d == 2 || sdKind d == 5
  (if out then st.elems.all fun e => e.remote
   else (st.armed && sdPersist d && !st.stopping) || st.elems.all fun e => e.need == 0) &&
  (!st.armed || sdPersist d || st.stopping ||
    (if out then decide (sdElems d ≤ st.handed) else decide (sdElems d ≤ st.freed)))

/-- In cycle `t` every engine of a core is idle and its block is done: an array from the cycle after its last completion (R115), every other
engine from its completion cycle itself, which no rule says (DESIGN CHOICE, log entry 65). -/
def coreIdle (t : Nat) (k : Core) : Bool :=
  k.blockDone && !k.helmBusy &&
    (k.arrays.toList.all fun a => a.load.isNone && a.passes.isEmpty && a.fills.isEmpty && decide (a.idleFrom ≤ t)) &&
    (k.vec.inFlight.all fun r => r.skipped) && (k.sends.all fun r => r.skipped) &&
    (k.engines.toList.all fun g => g.hands.all fun r => r.skipped) &&
    (k.turn.inFlight.all fun r => r.skipped || (r.readDone && decide (tnTiles r.words ≤ r.tile))) &&
    (k.streams.all fun e => streamIdle (tget 0 k.descs e.1) e.2)

/-- Every core is idle in this cycle (R30). -/
def State.coresIdle (s : State) : Bool := allCores.all fun c => coreIdle s.seq.cycle (s.core c)

/-- Streams at leg completion: non-persistent and stopping ones become unarmed (R216, R218). -/
def unarmStreams (k : Core) : Core :=
  { k with streams := k.streams.map fun e =>
      if e.2.armed && (e.2.stopping || !sdPersist (tget 0 k.descs e.1)) then (e.1, { e.2 with armed := false, stopping := false }) else e }

/-- LEG_COMPLETE (R30): the die gates its clocks; END is DONE; a suspension withholds the next leg, tier 3 parks it, and one
whose mark has passed starts late. -/
def execLegComplete (s : State) : Host.Outcome State Fault Refusal :=
  .next <|
    if s.running ∧ s.coresIdle then
      let s := deliverMesh none { s with
        cores := s.cores.map unarmStreams
        seq := { s.seq with state := if s.seq.next.ended then .done else .gated, lastCycle := BitVec.ofNat 32 s.seq.cycle } }
      if s.seq.next.ended then s
      else if s.seq.suspendReq = some (s.seq.legMark + 1) then s
      else if 3 ≤ s.pwr.tier.val then park s
      else if s.seq.legMark.toNat < s.seq.mark.toNat then startLeg true s
      else s
    else s

end Sys2Proof.Machine
end

