-- ==== Sys2Proof/Machine/Issue.lean ====
section
/-!
DEFINITION. The issue unit: lookouts and their hand-over conditions (R57 to R60, R74, R80, R83, R209 to R250), and the issue of
every command of a stream (R71 to R82, R90, R214, R216).
-/
namespace Sys2Proof.Machine

/-! ## The command at a word of a bank (R69, R71) -/

/-- The words a command has; the others are zero. -/
def normWords (w : CmdWords) : CmdWords :=
  let n := nwordsOf w
  ⟨w.w0, if 2 ≤ n then w.w1 else 0, if 3 ≤ n then w.w2 else 0, if 4 ≤ n then w.w3 else 0⟩

def cmdAt (t : Tbl W256) (i : Nat) : CmdWords :=
  normWords ⟨tget 0 t i, tget 0 t (i + 1), tget 0 t (i + 2), tget 0 t (i + 3)⟩

/-- The next command of a core to be looked out: its words and issue cycle. -/
def nextLook (s : State) (c : Fin 32) : Option (CmdWords × Nat) :=
  let k := s.core c
  if k.lookIdx < k.blockWords then
    let w := cmdAt (k.bank s.seq.legMark.toNat) k.lookIdx
    some (w, k.lookPrev + deltaOf w)
  else none

/-- The lookout cycle of an issue cycle (R57, R58). -/
def lookCycle (issue : Nat) : Nat := issue - 8

/-! ## Hand-over conditions (R209, R211, R220, R224, R241, R247, R250) -/

/-- What an executed command that is looked out but not issued yet will leave of the counts that conditions use. -/
def planCmd (k : Core) (e : LookEntry) : Core :=
  if e.skip then k
  else
    let w := e.words
    let a := opA w
    let desc := cmdDesc w
    match w.opcode with
    | 0x20 =>
      (match (chMout w).bind fun g => maskStream k g 5 with
       | some d => k.updStream d fun st => { st with handed := st.handed + 1 }
       | none => k)
    | 0x30 => k.updStream desc fun st => { armed := true, bases := [⟨0, 0, 0⟩], elems := st.elems }
    | 0x31 => k.updStream desc fun st => { st with handed := st.handed + bits a 20 16, freed := st.freed + bits a 36 32 }
    | 0x32 => k.updStream desc fun st => { st with bases := st.bases ++ [⟨0, 0, 0⟩] }
    | 0x33 => k.updStream desc fun st => { st with stopping := true }
    | 0x50 =>
      k.updEp (a.extractLsb' 0 7) fun x =>
        let u := msgUnits (bits a 31 8)
        { x with
          deducted := x.deducted ++ [sendNeed x (bits a 31 8)]
          wp := if u ≤ epUnits x.desc - x.wp then (x.wp + u) % (max 1 (epUnits x.desc)) else u % (max 1 (epUnits x.desc)) }
    | 0x51 => k.updEp (a.extractLsb' 0 7) fun x => { x with released := x.released + BitVec.ofNat 32 (bits a 23 8) }
    | 0x52 => k.updEp (a.extractLsb' 0 7) fun x => { x with open_ := false }
    | _ => k

/-- DIR 0 TURNs that are not finished, and those looked out before this command. -/
def turnsAhead (k : Core) : Nat :=
  (k.ahead.filter fun e => !e.skip && e.words.opcode == 0x40 && tnDir e.words == 0).length
def turnsOpen (k : Core) : Nat := (k.turn.inFlight.filter fun r => !r.skipped && !r.readDone && tnDir r.words == 0).length

/-- The condition of a STREAM_HAND: none where its counts or its stream's state refuse it anyway (R90). -/
def handOfStream (k : Core) (w : CmdWords) : Option HandCond :=
  let desc := cmdDesc w
  let d := tget 0 k.descs desc.toNat
  let st := k.stream desc
  let h := bits (opA w) 20 16
  let f := bits (opA w) 36 32
  if desc.toNat / 512 + 4 ≠ targetOf w ∨ st.armed = false ∨ st.stopping = true ∨ 16 < h ∨ 16 < f ∨ h = 0 then none
  else if sdKind d = 1 then
    (if st.handed + h ≤ st.freed + sdDepth d ∧ st.freed + f ≤ st.handed + h then some (.loadHand desc (st.handed + h)) else none)
  else if sdKind d = 2 then
    (if f = 0 ∧ (roundOf st d (st.handed + h - 1)).isSome then some (.storeHand desc (st.handed + h)) else none)
  else none

/-- The hand-over condition that a command's lookout carries, for a core `k0` with the plan `k` of the commands before it. -/
def handOf (k0 k : Core) (w : CmdWords) : Option HandCond :=
  let a := opA w
  let ep : BitVec 7 := a.extractLsb' 0 7
  let x := k.ep ep
  if opIllegal w then none
  else match w.opcode with
  | 0x20 => ((chMout w).bind fun g => (maskStream k g 5).map fun d => (g, d)).map fun p =>
      .maskOut p.2 ((k.stream p.2).handed + maskOutPlanned k0 p.1)
  | 0x31 => handOfStream k w
  | 0x40 => if tnDir w = 0 ∧ ¬ turnFieldBad w then some (.turnQueue (turnsAhead k0)) else none
  | 0x50 =>
    if epIsSend x.desc ∧ x.open_ ∧ bits a 31 8 ≠ 0 ∧ msgUnits (bits a 31 8) ≤ epMax x.desc then
      some (.credits ep (((x.deducted.drop (k0.ep ep).deducted.length).foldl (· + ·) 0) + sendNeed x (bits a 31 8)))
    else none
  | 0x51 =>
    if epIsRecv x.desc ∧ bits a 23 8 ≠ 0 then
      some (.release ep ((x.released - (k0.ep ep).released).toNat + bits a 23 8))
    else none
  | 0x63 => if bits a 10 8 < 6 ∧ (k0.buoy (a.extractLsb' 0 6)).armed then some (.buoyCopy (a.extractLsb' 0 6)) else none
  | _ => none

/-- A hand-over condition holds now. A store stream that is armed reads no lines of a block whose entry it has not read (log entry 46). -/
def handOk (k : Core) : HandCond → Bool
  | .loadHand d upto =>
    let st := k.stream d
    st.armed && decide (upto ≤ st.lead) && st.elems.all fun e => decide (upto ≤ e.pos) || e.need == 0
  | .storeHand d upto =>
    let st := k.stream d
    decide (upto ≤ (if st.armed then st.freed else 0) + sdDepth (tget 0 k.descs d.toNat)) &&
      (!st.armed || (List.range (upto - st.handed)).all fun i => haveEntry (tget 0 k.descs d.toNat) st (st.handed + i))
  | .maskIn d => let st := k.stream d
                 st.elems.any fun e => e.pos == st.handed && e.done
  | .maskOut d taken =>
    let st := k.stream d
    decide (taken < (if st.armed then st.freed else 0) + sdDepth (tget 0 k.descs d.toNat))
  | .credits ep n => decide (n ≤ (k.ep ep).credits)
  | .release ep n => decide (n ≤ (k.ep ep).landed.length)
  | .turnQueue before => decide (turnsOpen k + before < 4)
  | .buoyCopy b => (k.buoy b).valid

/-- What a core waits for holds now (R59, R75, R123). -/
def waitMet (s : State) (c : Fin 32) : WaitFor → Bool
  | .field f => waitPasses (s.core c) f
  | .hand h => handOk (s.core c) h
  | .slice j g =>
    let u := (s.core c).arr j
    match u.dueSlice g s.seq.cycle with
    | some (p, m) => u.slicePresent g p m
    | none => true

/-! ## The lookout -/

/-- A wait field that is sampled: a well-formed one, and a buoy's only while it is armed (R242). -/
def fieldWait (k : Core) (f : U32) : List WaitFor :=
  if waitKind f = 0 ∨ waitBad f then []
  else if waitKind f = 3 ∧ ¬ (k.buoy (BitVec.ofNat 6 (waitIndex f))).armed then []
  else [.field f]

/-- Everything a command's lookout samples: WAIT0, WAIT1, its hand-over condition. -/
def looksAt (k : Core) (w : CmdWords) : List WaitFor :=
  fieldWait k (wait0Of w) ++ fieldWait k (wait1Of w) ++
    (match handOf k (k.ahead.foldl planCmd k) w with | some h => [.hand h] | none => [])

/-- The buoys that a command waits on or tests are armed (R242). -/
def buoysUp (k : Core) (w : CmdWords) : Bool :=
  let up := fun (f : U32) => waitKind f != 3 || (k.buoy (BitVec.ofNat 6 (waitIndex f))).armed
  up (wait0Of w) && up (wait1Of w) && (w.opcode != 0x63 || (k.buoy ((opA w).extractLsb' 0 6)).armed)

/-- A command as its lookout leaves it: the skip decision is final (R80, R91). -/
def lookEntry (k : Core) (w : CmdWords) (issue : Nat) : LookEntry :=
  { words := w, idx := k.lookIdx, issue := issue, skip := skips k w
    staleFlag := sigOp (sig0Of w) == 1 && bit k.flags (sigIndex (sig0Of w) % 64)
    buoysArmed := buoysUp k w }

/-- One lookout: the progress check, then the samples; each that fails holds the die (R58, R74, R83). -/
def lookout (c : Fin 32) (w : CmdWords) (issue : Nat) (s : State) : State :=
  let k := s.core c
  let fails := (looksAt k w).filter fun x => !waitMet s c x
  let s := s.updCore c fun k => { k with
    ahead := k.ahead ++ [lookEntry k w issue], lookIdx := k.lookIdx + nwordsOf w, lookPrev := issue }
  let s := if progOf w then checkProgress issue (some c) slipProgress s else s
  foldS (fun x s => holdCause c x s) fails s

/-- This is the core's next lookout, in its cycle. -/
def lookDue (s : State) (c : Fin 32) (w : CmdWords) (issue : Nat) : Bool :=
  s.seq.state == .running && decide (nextLook s c = some (normWords w, issue)) && lookCycle issue == s.seq.cycle

/-- LOOKOUT (R57): the samples of a command's lookout at the start of its lookout cycle. -/
def execLookout (core : Fin 32) (w : CmdWords) (issue : U32) (s : State) : Host.Outcome State Fault Refusal :=
  .next (if lookDue s core w issue.toNat then lookout core (normWords w) issue.toNat s else s)

/-! ## Issue -/

/-- The lines of a store hand-over's blocks, as they would be handed now (R211). -/
def handLines (s : State) (c : Fin 32) (w : CmdWords) : List Nat :=
  let d := tget 0 (s.core c).descs (cmdDesc w).toNat
  let st := (s.core c).stream (cmdDesc w)
  if sdKind d = 2 then (handMoves s d st st.handed (bits (opA w) 20 16)).flatMap fun m => blockLines m.2.2.sp m.2.2.len else []

/-- The last cycle in which a command counts as held by its engine (R68, R115, R158, R211, R224, R248). -/
def heldUntil (s : State) (c : Fin 32) (e : LookEntry) : Nat :=
  let w := e.words
  match w.opcode with
  | 0x10 => e.issue + 4 + loadCycles (slFmt w) (slSparse w)
  | 0x12 | 0x13 | 0x14 => e.issue + 4 + (psRows w - 1) * rowCadence (psFmt w)
  | 0x15 => e.issue + 1 + afCount w
  | 0x20 | 0x21 | 0x22 => e.issue + 5
  | 0x31 => let n := (handLines s c w).length
            if n = 0 then e.issue else e.issue + 1 + n
  | 0x40 => e.issue + 1 + 64 * tnTiles w
  | 0x50 => e.issue + 1 + sendLines (bits w.w1 24 0) (bits (opA w) 31 8)
  | _ => e.issue

/-- The lines a command's scheduled or TURN writes make pending, with their write cycles (R93, R94, R160, R202); a TURN's have no
fixed cycle. -/
def pendingLines (e : LookEntry) : Option (Nat × List (Nat × Nat)) :=
  let w := e.words
  if (isChain w || isMove w) && tdKind (vcDst w) == 1 then
    some (7, (List.range 4).foldl (fun l q =>
      (tileLines (vcDst w) q).foldl (fun l x => (l.filter fun p => p.1 != x) ++ [(x, e.issue + vecWriteOff w + q)]) l) [])
  else if w.opcode = 0x40 ∧ tnDir w = 0 then
    some (12, ((List.range (64 * tnTC w)).flatMap fun r =>
      (linesOf (tnSp w + tnSpPitch w * r) (64 * tnTR w * tnEs w)).map fun x => (x, 0xFFFFFFFF)).eraseDups)
  else none

/-- Checked mode opens a scoreboard entry, or counts the command as untracked (R94). -/
def trackWrites (checked : Bool) (e : LookEntry) (k : Core) : Core :=
  if checked then
    match pendingLines e with
    | some (port, l) =>
      if k.scoreboard.length < 16 then { k with scoreboard := k.scoreboard ++ [⟨e.idx, port, l⟩] }
      else { k with untracked := satInc k.untracked }
    | none => k
  else k

/-- A skipped command whose cycles later checks still use stays with its engine (R162, R211, R223, R248). -/
def keepSkipped (lines : List Nat) (e : LookEntry) (k : Core) : Core :=
  let w := e.words
  match w.opcode with
  | 0x20 | 0x21 | 0x22 => { k with vec := { k.vec with
      inFlight := k.vec.inFlight ++ [{ idx := e.idx, issue := e.issue, words := w, skipped := true }] } }
  | 0x31 =>
    if sdKind (tget 0 k.descs (cmdDesc w).toNat) = 2 then
      k.updEng (engOf ((cmdDesc w).toNat / 512)) fun g => { g with hands := g.hands ++
        [{ idx := e.idx, issue := e.issue, desc := cmdDesc w, moves := [], lines := lines, port := none, skipped := true
           sig := 0 }] }
    else k
  | 0x40 => { k with turn := { k.turn with
      inFlight := k.turn.inFlight ++ [{ idx := e.idx, issue := e.issue, words := w, skipped := true }] } }
  | 0x50 => { k with sends := k.sends ++
      [⟨e.idx, e.issue, (opA w).extractLsb' 0 7, bits w.w1 24 0, bits (opA w) 31 8, true, 0, none, []⟩] }
  | _ => k

/-- A skipped command: no effect; its signals fire in its issue cycle with SOS = 1 (R76, R81). -/
def skipCmd (c : Fin 32) (e : LookEntry) (s : State) : State :=
  let lines := handLines s c e.words
  let s := s.updCore c fun k => keepSkipped lines e { k with skipCount := k.skipCount + 1 }
  if sosOf e.words then fireSignals c e.idx (sigsOf e.words) s else s

/-- The command leaves the looked-out ones and takes its part of the issue slot (R72). -/
def slotUsed (e : LookEntry) (k : Core) : Core :=
  let same := k.slotCycle == e.issue && !k.slotTargets.isEmpty
  { k with
    ahead := k.ahead.drop 1, slotCycle := e.issue
    slotTargets := if same then k.slotTargets ++ [targetOf e.words] else [targetOf e.words]
    slotWords := if same then k.slotWords + nwordsOf e.words else nwordsOf e.words }

/-- The issue slot, the engine's occupancy and the command pointer after a command (R68, R71, R72). -/
def slotTaken (held : Nat) (e : LookEntry) (k : Core) : Core :=
  let live := k.spans.filter fun x => decide (e.issue ≤ x.2)
  { slotUsed e k with
    cmdIdx := e.idx + nwordsOf e.words, prevIssue := e.issue
    spans := if e.skip || targetOf e.words == 0 then live else live ++ [(targetOf e.words, held)]
    blockDone := decide (k.blockWords ≤ e.idx + nwordsOf e.words) }

/-- STREAM_OPEN after the effect of a core's last command of the leg (R216). -/
def lastCommand (c : Fin 32) (e : LookEntry) (s : State) : State :=
  let k := s.core c
  if k.blockDone && streamOpen k then
    raiseHalt ⟨hcField, some c, BitVec.ofNat 8 (targetOf e.words), some e.idx, 0x44, headerOf e.words⟩ s
  else s

/-- The positions of a store hand-over whose block entries the lead side has not read yet (R205). -/
def missingEntries (k : Core) (w : CmdWords) : List Nat :=
  let d := tget 0 k.descs (cmdDesc w).toNat
  let st := k.stream (cmdDesc w)
  if w.opcode = 0x31 ∧ sdKind d = 2 ∧ st.armed then
    ((List.range (bits (opA w) 20 16)).map fun i => st.handed + i).filter fun p => !haveEntry d st p
  else []

/-- Reads one entry of a block list at once, as its requester under the fathom code (R205, R275 to R277). -/
def readEntry (c : Fin 32) (desc : BitVec 11) (p : Nat) (s : State) : State :=
  match dramRead rqStream (listAddr (tget 0 (s.core c).descs desc.toNat) p) 16 s with
  | (some bs, s) => s.updCore c fun k => k.updStream desc fun st => { st with list := st.list ++ [(p, BitVec.ofNat 128 (ofBytes bs))] }
  | (none, s) => s

/-- A command that passes its checks is skipped (R81) or has its effect, and takes its part of the slot. -/
def takeCmd (eff : Fin 32 → LookEntry → State → State) (c : Fin 32) (e : LookEntry) (s : State) : State :=
  let held := heldUntil s c e
  let s := if e.skip then skipCmd c e s else (eff c e s).updCore c (trackWrites (bit s.seq.cfg 0) e)
  lastCommand c e (s.updCore c (slotTaken held e))

/-- A command whose operands are known issues: it fails a check and halts (R90), is skipped, or has its effect. On a die that another cause
has halted in this cycle only its causes count (R381, R382), but a last command that leaves a stream open has its effect (R216). -/
def judgeCmd (eff : Fin 32 → LookEntry → State → State) (c : Fin 32) (e : LookEntry) (s : State) : State :=
  match commandCauses s c e with
  | h :: t => (foldS raiseHalt (h :: t) s).updCore c (slotUsed e)
  | [] =>
    let t := takeCmd eff c e s
    if s.seq.state = .halted ∧ ¬ ((t.core c).blockDone ∧ streamOpen (t.core c)) then
      (onlyCauses (takeCmd eff c e) s).updCore c (slotUsed e)
    else t

/-- A command issues. The entries of a store hand-over that are still missing are read first; one in an uncorrectable block halts the die
instead (R277, log entry 46). -/
def issueCmd (eff : Fin 32 → LookEntry → State → State) (c : Fin 32) (e : LookEntry) (s : State) : State :=
  let s := foldS (readEntry c (cmdDesc e.words)) (missingEntries (s.core c) e.words) s
  if missingEntries (s.core c) e.words = [] then judgeCmd eff c e s else s.updCore c (slotUsed e)

/-- The issue cycle of a looked-out command is now: the die runs, or another cause has halted it in this very cycle (R382). -/
def State.issuing (s : State) (e : LookEntry) : Bool :=
  e.issue == s.seq.cycle && (s.running || sameHaltCycle s)

/-- An issue row: the head of the looked-out commands of a core, if it is this one and due. -/
def issueRow (name : String) (op : Nat) (eff : Fin 32 → LookEntry → State → State) (c : Fin 32) (w : CmdWords) (s : State) :
    Host.Outcome State Fault Refusal :=
  if w.opcode = op then
    match (s.core c).ahead with
    | e :: _ => if e.words = normWords w ∧ s.issuing e then .next (issueCmd eff c e s) else .next s
    | [] => .next s
  else .refused (.illFormed name)

/-- An effect whose command completes in its issue cycle (R76). -/
def andSignals (eff : Fin 32 → LookEntry → State → State) (c : Fin 32) (e : LookEntry) (s : State) : State :=
  fireSignals c e.idx (sigsOf e.words) (eff c e s)

/-! ## Issue unit (Table 3.6) -/

def effPredSet (c : Fin 32) (e : LookEntry) (s : State) : State :=
  issuePreds c ((opA e.words).extractLsb' 0 16) ((opA e.words).extractLsb' 16 16) s

/-- PRED_LOGIC's operation: 0 AND, 1 OR, 2 XOR, 3 A AND NOT B. -/
def predOp (op : Nat) (a b : Bool) : Bool :=
  match op with
  | 0 => a && b
  | 1 => a || b
  | 2 => a != b
  | _ => a && !b

/-- One predicate of an issue-unit command. -/
def issuePred (c : Fin 32) (i : Nat) (v : Bool) (s : State) : State :=
  issuePreds c (BitVec.ofNat 16 (2 ^ i)) (if v then BitVec.ofNat 16 (2 ^ i) else 0) s

def effPredLogic (c : Fin 32) (e : LookEntry) (s : State) : State :=
  let a := opA e.words
  let p := (s.core c).preds0
  issuePred c (bits a 3 0) (predOp (bits a 13 12) (bit p (bits a 7 4)) (bit p (bits a 11 8))) s

def effTestSync (c : Fin 32) (e : LookEntry) (s : State) : State :=
  let a := opA e.words
  let k := s.core c
  let v := if bits a 7 6 = 1 then flagOf k.flags0 (bits a 13 8) else counterOf k.counters0 (bits a 13 8)
  issuePred c (bits a 3 0) (testCmp (bits a 15 14) v (bits a 31 16)) s

/-- NOP (Table 3.6): its signals alone. -/
def execNop (core : Fin 32) (w : CmdWords) (s : State) : Host.Outcome State Fault Refusal :=
  issueRow "NOP" 0x00 (andSignals fun _ _ s => s) core w s
/-- PRED_SET (Table 3.6). -/
def execPredSet (core : Fin 32) (w : CmdWords) (s : State) : Host.Outcome State Fault Refusal :=
  issueRow "PRED_SET" 0x01 (andSignals effPredSet) core w s
/-- PRED_LOGIC (Table 3.6). -/
def execPredLogic (core : Fin 32) (w : CmdWords) (s : State) : Host.Outcome State Fault Refusal :=
  issueRow "PRED_LOGIC" 0x02 (andSignals effPredLogic) core w s
/-- TEST_SYNC (R82). -/
def execTestSync (core : Fin 32) (w : CmdWords) (s : State) : Host.Outcome State Fault Refusal :=
  issueRow "TEST_SYNC" 0x03 (andSignals effTestSync) core w s

/-! ## Arrays -/

/-- An effect on the array that TARGET names. -/
def onArray (eff : Fin 32 → Fin 2 → LookEntry → State → State) (c : Fin 32) (e : LookEntry) (s : State) : State :=
  eff c (arrayOfTarget (targetOf e.words)) e s

/-- STAT_LOAD (R109). -/
def execStatLoad (core : Fin 32) (w : CmdWords) (s : State) : Host.Outcome State Fault Refusal :=
  issueRow "STAT_LOAD" 0x10 (onArray effStatLoad) core w s
/-- STAT_SWAP (R111). -/
def execStatSwap (core : Fin 32) (w : CmdWords) (s : State) : Host.Outcome State Fault Refusal :=
  issueRow "STAT_SWAP" 0x11 (onArray effStatSwap) core w s
/-- PASS_N (R107). -/
def execPassN (core : Fin 32) (w : CmdWords) (s : State) : Host.Outcome State Fault Refusal :=
  issueRow "PASS_N" 0x12 (onArray (effPass false false)) core w s
/-- PASS_T (R107). -/
def execPassT (core : Fin 32) (w : CmdWords) (s : State) : Host.Outcome State Fault Refusal :=
  issueRow "PASS_T" 0x13 (onArray (effPass true false)) core w s
/-- PASS_N_DIRECT (R120). -/
def execPassNDirect (core : Fin 32) (w : CmdWords) (s : State) : Host.Outcome State Fault Refusal :=
  issueRow "PASS_N_DIRECT" 0x14 (onArray (effPass false true)) core w s
/-- ACB_FILL (R118). -/
def execAcbFill (core : Fin 32) (w : CmdWords) (s : State) : Host.Outcome State Fault Refusal :=
  issueRow "ACB_FILL" 0x15 (onArray effAcbFill) core w s

/-! ## Vector engine -/

/-- CHAIN (R157, R169). -/
def execChain (core : Fin 32) (w : CmdWords) (s : State) : Host.Outcome State Fault Refusal :=
  issueRow "CHAIN" 0x20 effVec core w s
/-- REDUCE (R157, R170). -/
def execReduce (core : Fin 32) (w : CmdWords) (s : State) : Host.Outcome State Fault Refusal :=
  issueRow "REDUCE" 0x21 effVec core w s
/-- TILE_MOVE (R157, R169). -/
def execTileMove (core : Fin 32) (w : CmdWords) (s : State) : Host.Outcome State Fault Refusal :=
  issueRow "TILE_MOVE" 0x22 effVec core w s

/-! ## Streams and the turn engine -/

/-- STREAM_HAND: a store hand-over that has lines to read fires its signals in its last read cycle, every other one now. -/
def effHand (c : Fin 32) (e : LookEntry) (s : State) : State :=
  if sdKind (tget 0 (s.core c).descs (cmdDesc e.words).toNat) = 2 ∧ bits (opA e.words) 20 16 ≠ 0 then effStreamHand c e s
  else if sdKind (tget 0 (s.core c).descs (cmdDesc e.words).toNat) = 2 then fireSignals c e.idx (sigsOf e.words) s
  else andSignals effStreamHand c e s

/-- STREAM_ARM (R214). -/
def execStreamArm (core : Fin 32) (w : CmdWords) (s : State) : Host.Outcome State Fault Refusal :=
  issueRow "STREAM_ARM" 0x30 (andSignals effStreamArm) core w s
/-- STREAM_HAND (R209 to R211). -/
def execStreamHand (core : Fin 32) (w : CmdWords) (s : State) : Host.Outcome State Fault Refusal :=
  issueRow "STREAM_HAND" 0x31 effHand core w s
/-- STREAM_REARM (R217). -/
def execStreamRearm (core : Fin 32) (w : CmdWords) (s : State) : Host.Outcome State Fault Refusal :=
  issueRow "STREAM_REARM" 0x32 (andSignals effStreamRearm) core w s
/-- STREAM_STOP (R218). -/
def execStreamStop (core : Fin 32) (w : CmdWords) (s : State) : Host.Outcome State Fault Refusal :=
  issueRow "STREAM_STOP" 0x33 (andSignals effStreamStop) core w s
/-- TURN (R221). -/
def execTurn (core : Fin 32) (w : CmdWords) (s : State) : Host.Outcome State Fault Refusal :=
  issueRow "TURN" 0x40 effTurn core w s

/-! ## Channels and bells -/

/-- CH_SEND (R248). -/
def execChSend (core : Fin 32) (w : CmdWords) (s : State) : Host.Outcome State Fault Refusal :=
  issueRow "CH_SEND" 0x50 effChSend core w s
/-- CH_RELEASE (R250). -/
def execChRelease (core : Fin 32) (w : CmdWords) (s : State) : Host.Outcome State Fault Refusal :=
  issueRow "CH_RELEASE" 0x51 (andSignals effChRelease) core w s
/-- CH_CLOSE (R254). -/
def execChClose (core : Fin 32) (w : CmdWords) (s : State) : Host.Outcome State Fault Refusal :=
  issueRow "CH_CLOSE" 0x52 (andSignals effChClose) core w s
/-- BELL_OP (R233, R234). -/
def execBellOp (core : Fin 32) (w : CmdWords) (s : State) : Host.Outcome State Fault Refusal :=
  issueRow "BELL_OP" 0x60 (andSignals effBellOp) core w s
/-- BUOY_ARM (R238). -/
def execBuoyArm (core : Fin 32) (w : CmdWords) (s : State) : Host.Outcome State Fault Refusal :=
  issueRow "BUOY_ARM" 0x61 (andSignals effBuoyArm) core w s
/-- BUOY_DISARM (R238). -/
def execBuoyDisarm (core : Fin 32) (w : CmdWords) (s : State) : Host.Outcome State Fault Refusal :=
  issueRow "BUOY_DISARM" 0x62 (andSignals effBuoyDisarm) core w s
/-- BELL_TEST (R241). -/
def execBellTest (core : Fin 32) (w : CmdWords) (s : State) : Host.Outcome State Fault Refusal :=
  issueRow "BELL_TEST" 0x63 (andSignals effBellTest) core w s

end Sys2Proof.Machine
end

