-- ==== Sys2Proof/Machine/Sched.lean ====
section
/-!
DEFINITION. The scheduled work of one cycle: scratchpad accesses in fixed cycles, bank conflicts, checked mode, and what the
engines take and write (R93 to R95, R107, R109, R118, R157, R160, R167, R197 to R202, R211, R223, R248).
-/
namespace Sys2Proof.Machine

/-! ## The accesses of a cycle (R198, Table 8.1) -/

/-- One scheduled access to one line: the lowest byte address it names there. -/
structure Access where
  port : Nat
  idx : Nat
  addr : Nat
  deriving DecidableEq, Repr

def Access.line (a : Access) : Nat := a.addr / 256
def Access.bank (a : Access) : Nat := a.line % 32

/-- The lowest byte of a line at or above the start of what is read. -/
def lineFrom (l start : Nat) : Nat := max (256 * l) start

/-- TARGET of the commands that use a port. -/
def portEngine (p : Nat) : Nat :=
  if p ≤ 1 then 1 else if p ≤ 3 then 2 else if p = 4 then 1 else if p = 5 then 2 else if p ≤ 7 then 3
  else if p ≤ 11 then p - 4 else if p = 12 then 8 else 9

def feedAccesses (t : Nat) (j : Fin 2) (u : ArrayUnit) : List Access :=
  u.passes.flatMap fun p =>
    match p.feedRow t with
    | some m =>
      let sparse := (u.setOf p.useSetB).sparse
      (p.newLines sparse m).map fun l => ⟨2 * j.val + b2n p.tOrient, p.idx, p.readFrom sparse m l⟩
    | none => []

def loadAccesses (t : Nat) (j : Fin 2) (u : ArrayUnit) : List Access :=
  match u.load with
  | some r => (r.reads t).map fun x => ⟨4 + j.val, r.idx, 256 * r.lineAddr x⟩
  | none => []

/-- The vector engine's reads (port 6) or writes (port 7). -/
def vecAccesses (t : Nat) (write : Bool) (k : Core) : List Access :=
  k.vec.inFlight.flatMap fun r =>
    let d := if write then vcDst r.words else vcSrc r.words
    let q := if write then r.writeSlice t else r.readSlice t
    if r.skipped || isReduce r.words || tdKind d != 1 || (write && r.trapped) then []
    else match q with
      | some q => (tileLines d q).map fun l => ⟨if write then 7 else 6, r.idx, tileFrom d q l⟩
      | none => []

/-- The line a store hand-over reads in cycle t (R211). -/
def StoreHand.readLine (r : StoreHand) (t : Nat) : Option Nat :=
  if r.skipped || decide (t < r.issue + 2) then none else r.lines[t - (r.issue + 2)]?.map (· / 256)
/-- The byte address of that read: where the block's bytes in the line begin. -/
def StoreHand.readAddr (r : StoreHand) (t : Nat) : Option Nat :=
  if r.skipped || decide (t < r.issue + 2) then none else r.lines[t - (r.issue + 2)]?

def handAccesses (t : Nat) (e : Fin 4) (g : StreamEng) : List Access :=
  g.hands.flatMap fun r => match r.readAddr t with | some a => [⟨8 + e.val, r.idx, a⟩] | none => []

/-- The tile and row a DIR 1 TURN reads in cycle t (R223). -/
def TurnRec.readRow (r : TurnRec) (t : Nat) : Option (Nat × Nat) :=
  let n := t - (r.issue + 2)
  if r.skipped || tnDir r.words != 1 || decide (t < r.issue + 2) || decide (64 * tnTiles r.words ≤ n) then none
  else some (n / 64, n % 64)

def turnAccesses (t : Nat) (u : TurnUnit) : List Access :=
  u.inFlight.flatMap fun r => match r.readRow t with
    | some (q, i) => [⟨12, r.idx, tnSpadAddr r.words q i⟩]
    | none => []

/-- The line a CH_SEND reads in cycle t (R248). -/
def SendRec.readLine (r : SendRec) (t : Nat) : Option Nat :=
  if r.skipped || decide (t < r.issue + 2) || decide (r.lastRead < t) then none else some (r.src / 256 + (t - (r.issue + 2)))

def sendAccesses (t : Nat) (l : List SendRec) : List Access :=
  l.flatMap fun r => match r.readLine t with | some x => [⟨13, r.idx, lineFrom x r.src⟩] | none => []

/-- Every scheduled access of a core in cycle t, lowest port first. -/
def accesses (k : Core) (t : Nat) : List Access :=
  feedAccesses t 0 (k.arr 0) ++ feedAccesses t 1 (k.arr 1) ++ loadAccesses t 0 (k.arr 0) ++ loadAccesses t 1 (k.arr 1) ++
    vecAccesses t false k ++ vecAccesses t true k ++ (List.ofFn (n := 4) fun e => handAccesses t e (k.eng e)).flatten ++
    turnAccesses t k.turn ++ sendAccesses t k.sends

/-! ## Bank conflicts (R199) -/

/-- Stable insertion by port, and the sort of the accesses of one bank. -/
def insertAccess (a : Access) : List Access → List Access
  | [] => [a]
  | b :: t => if a.port < b.port then a :: b :: t else b :: insertAccess a t
def byPort (l : List Access) : List Access := l.foldl (fun t a => insertAccess a t) []

/-- The accesses of each bank, banks in order. -/
def perBank (l : List Access) : List (List Access) :=
  (List.range 32).map fun b => byPort (l.filter fun a => a.bank == b)

/-- The accesses that their bank refuses. -/
def refusedOf (l : List Access) : List Access := (perBank l).flatMap fun x => x.drop 1

/-- BANK_CONFLICT of one bank: the served access and the first refused one. -/
def bankConflict (c : Fin 32) (l : List Access) (s : State) : State :=
  match l with
  | a :: b :: _ =>
    raiseHalt ⟨hcBank, some c, BitVec.ofNat 8 (portEngine b.port), some b.idx,
      BitVec.ofNat 64 (a.port + 256 * b.port + 65536 * a.bank), BitVec.ofNat 64 (256 * a.line + 2 ^ 32 * (256 * b.line))⟩ s
  | _ => s

/-! ## Checked mode (R94, R95, R202) -/

/-- RANGE_HAZARD of an access: the writing port, the writing command and the cycle s of the line. -/
def rangeHazard (c : Fin 32) (a : Access) (wport widx sc : Nat) (s : State) : State :=
  raiseHalt ⟨hcRange, some c, BitVec.ofNat 8 (portEngine a.port), some a.idx,
    BitVec.ofNat 64 (a.addr + 2 ^ 32 * a.port + 2 ^ 40 * wport), BitVec.ofNat 64 (widx % 65536 + 2 ^ 32 * sc)⟩ s

/-- A load-stream block that is not handed over and that the commands have made startable covers the line: port and arming command.
What the lead side has started does not matter, nor does a STREAM_STOP (R202). -/
def stagedBlock (s : State) (c : Fin 32) (line : Nat) : Option (Nat × Nat) :=
  let k := s.core c
  k.streams.findSome? fun x =>
    let d := tget 0 k.descs x.1
    let st := x.2
    if sdKind d = 1 ∧ st.armed then
      (List.range (st.freed + sdDepth d - st.handed)).findSome? fun i =>
        let p := st.handed + i
        if sdPersist d ∨ p < sdElems d then
          (roundOf st d p).bind fun b =>
            let m := moveOf s d st b p
            if m.fault.isNone && (blockLines m.sp m.len).contains line then some (8 + x.1 / 512, b.cmd) else none
        else none
    else none

/-- The first access of each command that meets a staged block halts. -/
def streamHazards (c : Fin 32) : List Access → List (Nat × Nat) → State → State
  | [], _, s => s
  | a :: t, seen, s =>
    if seen.contains (a.port, a.idx) then streamHazards c t seen s
    else match stagedBlock s c a.line with
      | some (p, i) => streamHazards c t ((a.port, a.idx) :: seen) (rangeHazard c a p i 0xFFFFFFFF s)
      | none => streamHazards c t seen s

/-- The scoreboard entry that has a line pending in cycle t for an access that is not its own write. -/
def sbHit (t : Nat) (l : List SbEntry) (a : Access) : Option (SbEntry × Nat) :=
  l.findSome? fun e =>
    if e.port = 7 ∧ a.port = 7 ∧ e.idx = a.idx then none
    else (e.lines.find? fun x => x.1 == a.line && decide (t ≤ x.2 + 1)).map fun x => (e, x.2)

/-- The scoreboard check over the accesses of this cycle, once its commands have issued (R94). -/
def sbHazards (c : Fin 32) : List Access → List (Nat × Nat) → State → State
  | [], _, s => s
  | a :: t, seen, s =>
    if seen.contains (a.port, a.idx) then sbHazards c t seen s
    else match sbHit s.seq.cycle (s.core c).scoreboard a with
      | some (e, x) => sbHazards c t ((a.port, a.idx) :: seen) (rangeHazard c a e.port e.idx x s)
      | none => sbHazards c t seen s

def checkAfterIssue (c : Fin 32) (s : State) : State :=
  let s' := if bit s.seq.cfg 0 then sbHazards c ((s.core c).accs.map fun a => ⟨a.1, a.2.1, a.2.2⟩) [] s else s
  s'.updCore c fun k => { k with accs := [] }

/-- Entries whose lines have all stopped being pending before cycle t retire; a TURN's when it is complete (R94, R202). -/
def retireEntries (t : Nat) (k : Core) : Core :=
  { k with scoreboard := k.scoreboard.filter fun e =>
      if e.port = 12 then k.turn.inFlight.any fun r => r.idx == e.idx && !r.skipped && !r.readDone
      else e.lines.any fun x => decide (t ≤ x.2 + 1) }

/-! ## What a read returns (R93) -/

/-- A line as a scheduled read of this cycle sees it: a line written in the cycle before still shows its old content. -/
def lineNow (k : Core) (l : Nat) : List Byte :=
  match k.prev.find? fun p => p.1 == l with
  | some p => p.2
  | none => mreads k.spad (256 * l) 256

/-- Bytes inside one line. -/
def readNow (k : Core) : Reader := fun a n => ((lineNow k (a / 256)).drop (a % 256)).take n

/-! ## The reads of each engine -/

/-- Whether the bank serves a port's access to a line. -/
def served (ref : List Access) (port line : Nat) : Bool := !ref.any fun a => a.port == port && a.line == line

def feedWork (t : Nat) (ref : List Access) (k : Core) (j : Fin 2) (u : ArrayUnit) : ArrayUnit :=
  { u with passes := u.passes.map fun p =>
      match p.feedRow t with
      | some m =>
        let sp := (u.setOf p.useSetB).sparse
        feedTake sp m (((p.newLines sp m).filter (served ref (2 * j.val + b2n p.tOrient))).map fun l => (l, lineNow k l)) p
      | none => p }

def loadWork (t : Nat) (ref : List Access) (k : Core) (j : Fin 2) (u : ArrayUnit) : ArrayUnit :=
  match u.load with
  | some r => loadTake (((r.reads t).filter fun x => served ref (4 + j.val) (r.lineAddr x)).map fun x => (x, lineNow k (r.lineAddr x))) u
  | none => u

/-- Feeder, loader, drain and fill writes of one array in cycle t. -/
def arrayWork (t : Nat) (ref : List Access) (k : Core) (j : Fin 2) (u : ArrayUnit) : ArrayUnit :=
  ((loadWork t ref k j (feedWork t ref k j u)).drain t).fillWrites t

/-- A slice whose lines are all served is read. -/
def vecReads_ (t : Nat) (ref : List Access) (k : Core) (u : VecUnit) : VecUnit :=
  let lines := fun (r : VecRec) (q : Nat) => if isReduce r.words || tdKind (vcSrc r.words) != 1 then [] else tileLines (vcSrc r.words) q
  { u with inFlight := u.inFlight.map fun r =>
      if r.skipped then r
      else match r.readSlice t with
        | some q => if (lines r q).all (served ref 6) then readSliceInto k (readNow k) q r else r
        | none => r }

def handWork (t : Nat) (ref : List Access) (k : Core) (e : Fin 4) (g : StreamEng) : StreamEng :=
  { g with
    sent := g.sent + BitVec.ofNat 32 ((handAccesses t e g).countP fun a => served ref (8 + e.val) a.line)
    hands := g.hands.map fun r =>
      match r.readLine t with
      | some l => if served ref (8 + e.val) l then { r with buf := mwrites r.buf (256 * l) (lineNow k l) } else r
      | none => r }

def turnWork (t : Nat) (ref : List Access) (k : Core) (u : TurnUnit) : TurnUnit :=
  { u with inFlight := u.inFlight.map fun r =>
      match r.readRow t with
      | some (q, i) =>
        let n := 64 * tnEs r.words
        if served ref 12 (tnSpadAddr r.words q i / 256) then
          { r with buf := mwrites r.buf (64 * n * q + n * i) (readNow k (tnSpadAddr r.words q i) n) }
        else r
      | none => r }

def sendWork (t : Nat) (ref : List Access) (k : Core) (l : List SendRec) : List SendRec :=
  l.map fun r =>
    match r.readLine t with
    | some x => if served ref 13 x then { r with buf := mwrites r.buf (256 * x) (lineNow k x) } else r
    | none => r

/-- An accumulator buffer without the external writes of this cycle, and with them again after its drains and fills (R119). -/
def ArrayUnit.beforeExt (u : ArrayUnit) : ArrayUnit := { u with acb := u.extNow.reverse.foldl (fun m x => mwrite m x.1 x.2.1) u.acb }
def ArrayUnit.afterExt (u : ArrayUnit) : ArrayUnit :=
  { u with acb := u.extNow.foldl (fun m x => mwrite m x.1 x.2.2) u.acb, extNow := [] }

/-- Everything a core reads in cycle t, and what its arrays write to their accumulator buffers. -/
def readWork (t : Nat) (ref : List Access) (k : Core) : Core :=
  let k := { k with arrays := k.arrays.map ArrayUnit.beforeExt }
  { k with
    arrays := Vector.ofFn fun j => (arrayWork t ref k j (k.arr j)).afterExt
    vec := vecReads_ t ref k k.vec
    engines := Vector.ofFn fun e => handWork t ref k e (k.eng e)
    turn := turnWork t ref k k.turn
    sends := sendWork t ref k k.sends }

/-! ## The scheduled plane (R45 to R47, log entry 23) -/

/-- The nodes to which a core launches a scheduled-plane word in cycle t. -/
def launchesOf (s : State) (c : Fin 32) (t : Nat) : List (Fin 32) :=
  let k := s.core c
  let hands := (List.ofFn (n := 4) fun e => (k.eng e).hands.filterMap fun r =>
    if (r.readLine t).isSome then r.port.map portCore else none).flatten
  let sends := (k.sends.filter fun r => (r.readLine t).isSome).flatMap fun r => (sendPorts s (k.ep r.ep).desc).map portCore
  let turns := k.turn.inFlight.filterMap fun r => (r.readRow t).map fun x =>
    let a := tnHall r.words + BitVec.ofNat 64 (tnStackOff r.words x.1 x.2)
    stackCore (stackOfAddr (linearOf (haSpace a) (haOff a)))
  hands ++ sends ++ turns

/-! ## One core's cycle -/

/-- The chains whose mask-in block is handed over in this cycle (R167). -/
def masksNow (k : Core) (t : Nat) : List VecRec :=
  k.vec.inFlight.filter fun r => !r.skipped && isChain r.words && (chMin r.words).isSome && r.issue + 2 == t

/-- A bell operation that has read a word of a line which is now written reads it again: nothing else is written to the word between its
read and its write (R229). -/
def rereadBells (lines : List Nat) (k : Core) : Core :=
  { k with fills := k.fills.map fun f => match f.op with
      | .bell r (some _) => if lines.contains (f.addr / 256) then { f with op := .bell r none } else f
      | _ => f }

/-- The writes of the vector engine in this cycle; the old content of their lines stays readable for one more cycle (R93). -/
def writeWork (c : Fin 32) (t : Nat) (ref : List Access) (s : State) : State :=
  let k := s.core c
  let lines := ((vecAccesses t true k).filter fun a => served ref 7 a.line).map (·.line)
  let old := lines.map fun l => (l, mreads k.spad (256 * l) 256)
  let gone := (ref.filter fun a => a.port == 7).map (·.line)
  let s := foldS (fun r s => vecWrite c gone r s) (k.vec.inFlight.filter fun r => (r.writeSlice t).isSome) s
  s.updCore c fun k => rereadBells lines { k with prev := old, older := k.prev }

/-- All scheduled work of one core in the cycle: reads, then writes; conflicts and hazards halt the die in it. -/
def coreWork (c : Fin 32) (s : State) : State :=
  let t := s.seq.cycle
  let s := foldS (takeMask c) (masksNow (s.core c) t) s
  let acc := accesses (s.core c) t
  let ref := refusedOf acc
  let s := foldS (fun b s => schedLaunch t c b s) (launchesOf s c t) s
  let s := s.updCore c (readWork t ref)
  let s := writeWork c t ref s
  let s := foldS (bankConflict c) (perBank acc) s
  let s := if bit s.seq.cfg 0 then streamHazards c acc [] s else s
  s.updCore c fun k => { k with
    accs := acc.map fun a => (a.port, a.idx, a.addr)
    busyBanks := acc.foldl (fun m a => setBit m a.bank true) 0 }

end Sys2Proof.Machine
end

