-- ==== Sys2Proof/Machine/FabItems.lean ====
section
/-!
DEFINITION. What arrives by the fabric: class-1 items and their windows, class-0 floods and routed messages, class 2, and the
fabric's tables (R295, R296, R299, R300, R308 to R318, R381, R383).
-/
namespace Sys2Proof.Machine

/-! ## Windows (R313 to R317) -/

/-- The current mark number, 0 before the first mark (R310, R315). -/
def State.markNow (s : State) : Nat := if s.seq.begun then s.seq.mark.toNat else 0

/-- The launch mark that an EPOCH names, if one exists (R310). -/
def State.launchMark (s : State) (epoch : BitVec 11) : Option Nat :=
  let d := (s.markNow + 2048 - epoch.toNat) % 2048
  if d ≤ s.markNow then some (s.markNow - d) else none

/-- A window covers a range of a space. -/
def winHas (w : W256) (space off n : Nat) : Bool :=
  decide (winSize w ≠ 0) && bits w 51 48 == space && decide (bits w 47 0 ≤ off) && decide (off + n ≤ bits w 47 0 + winSize w)

/-- The first check of R315 that a covering window fails, as its reason code; none when it passes them all. -/
def winFails (w : W256) (perm : Nat) (key : U32) (m : Option Nat) : Option Nat :=
  if ¬ bit (winPerm w) perm then some 2
  else if winKey w ≠ key then some 1
  else match m with
    | some m => if winOpen w ≤ m % 2 ^ 32 ∧ m % 2 ^ 32 < winClose w then none else some 0
    | none => some 0

/-- A rejection: reason, window index, STRICT (R316). -/
structure Reject where
  reason : Nat
  window : Nat
  strict : Bool
  deriving DecidableEq, Repr

/-- A range lies in a space that other modules may name, and is mapped there (R313). -/
def mappedSpace (s : State) (space off n : Nat) : Bool :=
  (space == 0 || space == 1 || space == 2 || space == 4) && mapped s space off n

/-- The window check of a range (R315, R316): none when some window accepts it. -/
def windowCheck (s : State) (space off n perm : Nat) (key : U32) (m : Option Nat) : Option Reject :=
  let ok := mappedSpace s space off n && (perm != 2 || (space != 2 && off % 8 == 0))
  let l := if ok then s.fab.windows.filter fun e => winHas e.2 space off n else []
  if l.any fun e => (winFails e.2 perm key m).isNone then none
  else match l with
    | e :: _ => some ⟨(winFails e.2 perm key m).getD 0, e.1, bit (winPerm e.2) 3⟩
    | [] => some ⟨2, 0xFFFF, true⟩

/-- FAB_WIN_CLOSE (R317). -/
def execFabWinCloseWrite (v : U32) (s : State) : Host.Outcome State Fault Refusal :=
  .next (if s.pwr.mainOn then closeWindow (bits v 13 0) s else s)

/-- A WINDOW_NACK to the source of a rejected flit or express operation (Table 11.6). -/
def sendNack_ (dest : BitVec 12) (core : BitVec 5) (express : Bool) (seq : Nat) (r : Reject) (s : State) : State :=
  c0send dest
    (c0msg [(0, 1, kindNack), (8, 1, core.toNat), (9, 1, r.reason + 4 * b2n r.strict + 8 * b2n express), (10, 3, seq % 2 ^ 24),
      (14, 2, r.window)])
    { s with fab := { s.fab with winNacks := satInc s.fab.winNacks } }

/-! ## Paths into the module (R308) -/

def pathKey (f : Flit) : Nat := 64 * f.src.toNat + 2 * f.srcCore.toNat + b2n (f.ikind == 3)

/-- The full number of a PATH_SEQ at or above the next one expected; none: it lies below, a duplicate. -/
def fullSeq (next low : Nat) : Option Nat :=
  let d := (2 ^ 24 - next % 2 ^ 24 + low) % 2 ^ 24
  if d < 2 ^ 23 then some (next + d) else none

/-! ## Channel messages (R246, R249, R251, R255, R309) -/

/-- The receive endpoint of a core whose ring holds a scratchpad address. -/
def ringOwner (k : Core) (a : Nat) : Option (BitVec 7) :=
  (k.eps.find? fun e => epIsRecv e.2.desc && decide (epRing e.2.desc ≤ a) && decide (a < epRing e.2.desc + 256 * epUnits e.2.desc)).map
    fun e => BitVec.ofNat 7 e.1

/-- The endpoint of a core whose PEER is the sender of a message (R244, R255). -/
def peerOwner (k : Core) (m : BitVec 12) (c : BitVec 5) (ep : BitVec 7) : Option (BitVec 7) :=
  (k.eps.find? fun e => epRole e.2.desc != 3 && epRole e.2.desc != 4 && epPeerModule e.2.desc == m &&
    epPeerCore e.2.desc == coreOf c.toNat && epPeerEp e.2.desc == ep).map fun e => BitVec.ofNat 7 e.1

/-- The group on whose tree a message runs: that of the multicast receiver whose ring holds the address, else the one whose root sent the
message and whose parent is behind a port (R251). -/
def messageGroup (s : State) (owner : Option Endpoint) (m : BitVec 12) (c : BitVec 5) (ep : BitVec 7) : Option Nat :=
  match owner.map fun e => e.desc with
  | some d => if epRole d = 4 then some (epGroup d) else none
  | none => (s.groups.find? fun g => g.2.parentPort.isSome && g.2.rootModule == m && g.2.rootCore == coreOf c.toNat &&
      g.2.rootEp == ep).map fun g => g.1

/-- What a header flit says (Table 9.5): `skip` units of a marker lie before it, and `first` is its number on the path. A multicast message is
for every receiver of its group; any other one for the endpoint whose PEER sent it, else for the one whose ring holds the address, and `lost`
where the core has neither. -/
def messageOf (s : State) (first : Nat) (f : Flit) (skip : Nat) : MsgIn :=
  let g := fun a n => ofBytes ((f.payload.drop a).take n)
  let c := coreOf (f.offset.toNat / 2 ^ 40)
  let a := f.offset.toNat % 2 ^ 25
  let gen : U16 := BitVec.ofNat 16 (g 2 2)
  let sm : BitVec 12 := BitVec.ofNat 12 (g 12 2)
  let sc : BitVec 5 := BitVec.ofNat 5 (g 14 1)
  let se : BitVec 7 := BitVec.ofNat 7 (g 15 1)
  let owner := peerOwner (s.core c) sm sc se <|> ringOwner (s.core c) a
  let group := messageGroup s (owner.map (s.core c).ep) sm sc se
  let recvs := match group, owner with
    | some i, _ => (tget ({} : MGroup) s.groups i).members
    | none, some ep => [(c, ep)]
    | none, none => []
  { recvs := recvs.map fun x => (x.1, x.2, dropReason ((s.core x.1).ep x.2) gen)
    seq := BitVec.ofNat 32 (g 8 4), len := if g 0 1 = 2 then 0 else max 1 (g 4 4), gen := gen
    skip := if g 0 1 = 2 then g 4 4 / 256 else skip
    start := (a - epRing ((s.core c).ep (owner.getD 0)).desc) / 256, srcModule := sm, srcCore := sc, srcEp := se, core := c, group := group
    lost := group.isNone && owner.isNone, first := first }

/-- A dropped message counts at its endpoint, and its units go back to the sender; in a group they also count as returned by this receiver,
where they are of its generation (R251, R252, R255). -/
def dropIn (m : MsgIn) (x : Fin 32 × BitVec 7) (reason : BitVec 2) (s : State) : State :=
  let n := msgUnits m.len + m.skip
  let mine := m.group.isSome && epGen ((s.core x.1).ep x.2).desc == m.gen
  let s := s.updCore x.1 fun k => k.updEp x.2 fun e => { e with
      dropGen := if reason = 1 then satInc e.dropGen else e.dropGen
      dropClosed := if reason = 1 then e.dropClosed else satInc e.dropClosed
      released := if mine then e.released + BitVec.ofNat 32 n else e.released }
  let s := c0send m.srcModule (dropMsgOf m.srcCore m.srcEp m.gen reason n m.seq) s
  match m.group with | some i => if mine then forwardCredit i m.gen s else s | none => s

/-- Copies of a multicast message go on to the child modules, each with its marker (R251). -/
def forwardMessage (m : MsgIn) (items : List (Nat × List Byte)) (s : State) : State :=
  match m.group with
  | some i =>
    foldS (fun ch s =>
      foldS (fun it s => launchItem m.core ch.1 none (fun _ => 0) 1 (ch.2.toNat * 2 ^ 40 + it.1) 5 it.2 s) items s)
      (childModules s (tget {} s.groups i)) s
  | none => s

/-- A message ends: at each receiver it is landed, or its drop goes back. A message that its header let in is judged again as it lands, by the
endpoint as it then is (R252 to R254). -/
def endMessage (m : MsgIn) (items : List (Nat × List Byte)) (s : State) : State :=
  let units := msgUnits m.len
  let land := fun (x : Fin 32 × BitVec 7 × BitVec 2) (s : State) =>
    let r := if x.2.2 = 0 then dropReason ((s.core x.1).ep x.2.1) m.gen else x.2.2
    if r = 0 then markLanded x.1 x.2.1 m.seq m.start units (units + m.skip) s else dropIn m (x.1, x.2.1) r s
  let s := foldS land m.recvs s
  let s := if m.lost then c0send m.srcModule (dropMsgOf m.srcCore m.srcEp m.gen 2 (units + m.skip) m.seq) s else s
  forwardMessage m items s

/-- The flit of a message with number `n` on a path, if it has landed. -/
def PathIn.flit (p : PathIn) (n : Nat) : Option Flit :=
  (p.waiting.find? fun w => w.1 == n && w.2.ikind == 5).map fun w => w.2

/-- Flit `n` has landed and ends an item, or is of no message, so that a message may begin behind it. -/
def PathIn.endsAt (p : PathIn) (n : Nat) : Bool := p.seen.contains n && (match p.flit n with | some f => f.last | none => true)

/-- The message to which flit `n` belongs, from a number where an item begins: a message has one flit for each of its units (R246, R303). -/
def headerWalk (s : State) (p : PathIn) (n : Nat) : Nat → Nat → Option MsgIn
  | 0, _ => none
  | fuel + 1, at_ =>
    if n < at_ then none
    else match p.flit at_ with
      | some f =>
        if f.payload = [] ∧ ¬ f.last then none
        else if f.payload = [] then headerWalk s p n fuel (at_ + 1)
        else
          let m := messageOf s at_ f 0
          if n < at_ + msgFlits m then some m else headerWalk s p n fuel (at_ + msgFlits m)
      | none => if p.seen.contains at_ then headerWalk s p n fuel (at_ + 1) else none

/-- What the header that flit `n` belongs to says, where that header has landed and is known to be one: no other flit of the message need have
landed (R308, log entry 22). -/
def headerFor (s : State) (p : PathIn) (n : Nat) : Option MsgIn :=
  let start : Option Nat := match p.cur with
    | some m => if m.broken then none else if m.len = 0 then some p.next else some (m.first + msgFlits m)
    | none => some p.next
  let seenStart := p.seen.foldl (fun (a : Option Nat) k =>
    if p.endsAt k ∧ k < n ∧ a.getD 0 ≤ k + 1 then some (k + 1) else a) start
  match p.cur with
  | some m => if ¬ m.broken ∧ m.len ≠ 0 ∧ n < m.first + msgFlits m then some m else seenStart.bind (headerWalk s p n (p.seen.length + 1))
  | none => seenStart.bind (headerWalk s p n (p.seen.length + 1))

/-- The bytes of a flit of a message go to the ring of each receiver that takes the message. -/
def placeFlit (key n : Nat) (f : Flit) (m : MsgIn) (s : State) : State :=
  let takers := m.recvs.filter fun x => x.2.2 == 0
  let s := s.updPath key fun p => { p with placed := p.placed ++ [n], need := tset 0 p.need n (takers.length * f.payload.length) }
  foldS (fun x s => fillAsk x.1 14 (f.offset.toNat % 2 ^ 25) f.payload (.item key n) s) takers s

/-- Writes the flits of messages that have landed and whose header is known. -/
def placeFlits (key : Nat) (s : State) : State :=
  foldS (fun w s =>
    let p := s.path key
    if w.2.ikind ≠ (5 : BitVec 3) ∨ w.2.payload = [] ∨ p.placed.contains w.1 then s
    else match headerFor s p w.1 with
      | some m => placeFlit key w.1 w.2 m s
      | none => s) (s.path key).waiting s

/-- What stands for a message of which a flit was rejected: it is for no receiver and never lands. -/
def brokenMsg : MsgIn :=
  { recvs := [], seq := 0, len := 1, gen := 0, skip := 0, start := 0, srcModule := 0, srcCore := 0, srcEp := 0, broken := true }

/-- Flit `n` of a message takes its turn on its path; one without payload was rejected, and its message never lands. -/
def messageFlit (key n : Nat) (f : Flit) (s : State) : State :=
  let p := s.path key
  if f.payload = [] then
    s.updPath key fun p => { p with cur := if f.last then none else some brokenMsg, items := [] }
  else
    let starts : Bool := match p.cur with | some m => m.len == 0 | none => true
    let m := if starts then messageOf s n f ((p.cur.map fun m => m.skip).getD 0) else p.cur.getD brokenMsg
    let items := if starts then p.items ++ [(f.offset.toNat % 2 ^ 40, f.payload)]
      else match p.items.getLast? with
        | some x => p.items.dropLast ++ [(x.1, x.2 ++ f.payload)]
        | none => []
    if f.last ∧ m.len ≠ 0 then endMessage m items (s.updPath key fun p => { p with cur := none, items := [] })
    else s.updPath key fun p => { p with cur := some m, items := items }

/-! ## Effects in path order (R308, R309) -/

/-- The operation that an ordered bell flit carries (R309). -/
def bellOfFlit (s : State) (key n : Nat) (f : Flit) : BellReq :=
  let g := fun a n => ofBytes ((f.payload.drop a).take n)
  { op := BitVec.ofNat 2 (g 8 1), addr := BitVec.ofNat 64 (s.module.toNat * 2 ^ 52 + f.space.toNat * 2 ^ 48 + f.offset.toNat)
    operand := BitVec.ofNat 64 (g 0 8), express := false, srcModule := f.src, srcCore := f.srcCore, cmd := BitVec.ofNat 13 (g 9 2)
    rdest := g 0 8 % 2 ^ 25, respQueue := g 12 2, origin := .item key n }

/-- What takes effect only once every lower PATH_SEQ has landed or been rejected. The items behind a bell operation wait until it is
applied. -/
def itemEffect (key n : Nat) (f : Flit) (s : State) : State :=
  match f.ikind.toNat with
  | 1 => acceptMsg f.src f.srcCore n s
  | 4 => bellArrive (bellOfFlit s key n f) (s.updPath key fun p => { p with busy := true })
  | 5 => messageFlit key n f s
  | _ => s

/-- Takes every number that is next in its path and whose bytes are written. -/
def advancePath (key : Nat) : Nat → State → State
  | 0, s => s
  | fuel + 1, s =>
    let p := s.path key
    let n := p.next
    if p.seen.contains n ∧ tget 0 p.need n = 0 ∧ ¬ p.busy then
      let w := p.waiting.find? fun x => x.1 == n
      let s := s.updPath key fun p => { p with
        next := n + 1, seen := p.seen.filter fun x => x != n, waiting := p.waiting.filter fun x => x.1 != n
        placed := p.placed.filter fun x => x != n }
      advancePath key fuel (match w with | some x => itemEffect key n x.2 s | none => s)
    else s

/-- A path goes on as far as it can. -/
def settlePath (key : Nat) (s : State) : State :=
  let s := placeFlits key s
  advancePath key ((s.path key).seen.length + 1) s

/-- A flit has landed or been rejected. -/
def settle (key n : Nat) (f : Flit) (rejected : Bool) (s : State) : State :=
  let held := if f.ikind = 5 then [(n, if rejected then { f with payload := [] } else f)]
    else if rejected then [] else if f.ikind = 4 ∨ (f.ikind = 1 ∧ f.last) then [(n, f)] else []
  settlePath key (s.updPath key fun p => { p with seen := p.seen ++ [n], waiting := p.waiting ++ held })

/-! ## What is done as a flit lands (R308, R309) -/

/-- A read request: the owner reads the range; a length that is no multiple of 4 from 4 to 1,048,576 is malformed and served by nothing. -/
def serveRead (f : Flit) (s : State) : State :=
  let n := ofBytes ((f.payload.drop 8).take 4)
  if n % 4 ≠ 0 ∨ n < 4 ∨ 1048576 < n then s
  else startJob (.serve f) 14 rqFabric srcFabric f.space.toNat f.offset.toNat n s

/-- The range of a read request has been read: the response leaves for the return address on the queue that the request names. -/
def sendResponse (f : Flit) (bs : List Byte) (s : State) : State :=
  let g := fun a n => ofBytes ((f.payload.drop a).take n)
  let ret : U64 := BitVec.ofNat 64 (g 0 8)
  launchCut (g 12 2) (fun _ => none) f.srcCore (haModule ret) (haSpace ret) 3 0 (cut256 (bs.length + 1) (haOff ret) bs) s

/-- The remote load element whose lines a response fills. -/
def remoteElem (s : State) (c : Fin 32) (src : BitVec 12) (a : Nat) : Option (BitVec 11 × Nat) :=
  let k := s.core c
  k.streams.findSome? fun x =>
    if sdKind (tget 0 k.descs x.1) = 1 then
      (x.2.elems.find? fun e => e.remote && decide (0 < e.need) && decide (e.sp ≤ a) && decide (a < e.sp + e.len) &&
        haModule e.hall == src).map fun e => (BitVec.ofNat 11 x.1, e.pos)
    else none

/-- Data that a flit brings are written where it names, and hold its number on the path until they are (R235, R308). -/
def writeFlit (key n : Nat) (f : Flit) (s : State) : State :=
  rangeWrite 14 rqFabric srcFabric f.space.toNat f.offset.toNat f.payload (.item key n)
    (s.updPath key fun p => { p with need := tset 0 p.need n f.payload.length })

/-- A read response: a READ's value, the data of a load element, or bytes at the return address. -/
def takeResponse (key n : Nat) (f : Flit) (s : State) : State :=
  let c := coreOf (f.offset.toNat / 2 ^ 40)
  let a := f.offset.toNat % 2 ^ 25
  let mine := fun (w : AwaitAccept) => w.rdest == some a && w.dest == f.src && w.core.toNat == c.val
  if f.space ≠ 1 then writeFlit key n f s
  else match s.fab.awaiting.find? mine with
    | some w =>
      fillAsk c 14 a f.payload (.readValue c (s.core c).readNo)
        { s.updCore c (fun k => { k with readNo := k.readNo + 1, readValues := k.readValues ++
            [⟨k.readNo, a, BitVec.ofNat 64 (ofBytes f.payload), w.ack, some f.payload.length⟩] }) with
          fab := { s.fab with awaiting := s.fab.awaiting.erase w } }
    | none =>
      match remoteElem s c f.src a with
      | some (d, p) => fillAsk c (8 + d.toNat / 512) a f.payload (.loadPiece c d p a) s
      | none => writeFlit key n f s

/-- What a landing flit does at once. -/
def landNow (key n : Nat) (f : Flit) (s : State) : State :=
  match f.ikind.toNat with
  | 0 | 1 => writeFlit key n f s
  | 2 => serveRead f s
  | 3 => takeResponse key n f s
  | _ => s

/-- The window check of a flit; a read response has none (R315), and is rejected only where its range names no memory of the module (R313). -/
def flitReject (s : State) (f : Flit) : Option Reject :=
  let m := s.launchMark f.epoch
  match f.ikind.toNat with
  | 0 | 1 | 5 => windowCheck s f.space.toNat f.offset.toNat f.payload.length 1 f.key m
  | 2 => windowCheck s f.space.toNat f.offset.toNat (ofBytes ((f.payload.drop 8).take 4)) 0 f.key m
  | 3 => if mappedSpace s f.space.toNat f.offset.toNat f.payload.length then none else some ⟨2, 0xFFFF, true⟩
  | 4 => windowCheck s f.space.toNat f.offset.toNat 8 2 f.key m
  | _ => none

/-- A flit that a halted die discards (R381): all but the writes that a window takes while a kill waits for its windows to close, which R371
has accepted (DEDUCED, log entry 65). -/
def State.discards (s : State) (f : Flit) : Bool :=
  s.seq.state == .halted && !(s.pwr.killPending && (f.ikind == 0 || f.ikind == 1) && (flitReject s f).isNone)

/-- A class-1 flit lands: discarded on a halted die and as a duplicate, checked against the windows, and settled. -/
def landFlit (f : Flit) (s : State) : State :=
  let s := { s with fab := { s.fab with landing := match s.fab.landing.find? fun h => h.flit == f with
    | some h => s.fab.landing.erase h
    | none => s.fab.landing } }
  if s.discards f then s
  else
    let key := pathKey f
    match fullSeq (s.path key).next f.pathSeq.toNat with
    | none => s
    | some n =>
      if (s.path key).seen.contains n then s
      else match flitReject s f with
        | some r => settle key n f true (sendNack_ f.src f.srcCore false f.pathSeq.toNat r s)
        | none => settle key n f false (landNow key n f s)

/-- A row of one IKIND. -/
def c1Row (ikind : BitVec 3) (f : Flit) (s : State) : State := if f.ikind = ikind then landFlit f s else s

/-- C1_WRITE (R308, R309). -/
def execC1Write (f : Flit) (s : State) : Host.Outcome State Fault Refusal := .next (c1Row 0 f s)
/-- C1_WRITE_WITH_ACCEPT (R309). -/
def execC1WriteWithAccept (f : Flit) (s : State) : Host.Outcome State Fault Refusal := .next (c1Row 1 f s)
/-- C1_READ_REQUEST (R309). -/
def execC1ReadRequest (f : Flit) (s : State) : Host.Outcome State Fault Refusal := .next (c1Row 2 f s)
/-- C1_READ_RESPONSE (R309). -/
def execC1ReadResponse (f : Flit) (s : State) : Host.Outcome State Fault Refusal := .next (c1Row 3 f s)
/-- C1_BELL_OPERATION (R309). -/
def execC1BellOperation (f : Flit) (s : State) : Host.Outcome State Fault Refusal := .next (c1Row 4 f s)
/-- C1_CHANNEL_MESSAGE (R309). -/
def execC1ChannelMessage (f : Flit) (s : State) : Host.Outcome State Fault Refusal := .next (c1Row 5 f s)

/-! ## Flood messages (R299, R383) -/

/-- HALT (R299, R383, R388): the first halt of a partition is forwarded; one of this module's own partition, or a hall-wide one,
halts it with REMOTE_HALT. -/
def execHaltMsg (port : Fin 16) (msg : C0Msg) (s : State) : Host.Outcome State Fault Refusal :=
  .next <|
    let origin : BitVec 12 := BitVec.ofNat 12 (c0get msg 2 2)
    if c0get msg 0 1 ≠ kindHalt then s
    else if s.fab.haltSeen.contains origin then c0drop s
    else
      let s := c0flood (some port) msg { s with fab := { s.fab with haltSeen := origin :: s.fab.haltSeen } }
      if s.holdsImage ∧ (origin = s.seq.origin ∨ origin = 0xFFF) then
        let c := c0get msg 7 1
        raiseHalt ⟨hcRemote, none, engFabric, none,
          BitVec.ofNat 64 (c0get msg 4 2 % 4096 + 65536 * c0get msg 6 1 +
            (if c / 32 % 2 = 1 then 2 ^ 29 else 2 ^ 24 * (c % 32))), BitVec.ofNat 64 port.val⟩ s
      else s

/-- A sequence number joins a window of the last 64 (R299, R300). -/
def seenPush (l : List Nat) (n : Nat) : List Nat := ringPush 64 l n

/-- STATUS (R299): forwarded when its (origin, STATUS_SEQ) is new. -/
def execStatusMsg (port : Fin 16) (msg : C0Msg) (s : State) : Host.Outcome State Fault Refusal :=
  .next <|
    let o := c0get msg 4 2 % 4096
    let n := c0get msg 6 2
    if c0get msg 0 1 ≠ kindStatus then s
    else if (tget [] s.fab.statusSeen o).contains n ∨ o = s.module.toNat then c0drop s
    else c0flood (some port) msg
      { s with fab := { s.fab with statusSeen := tset [] s.fab.statusSeen o (seenPush (tget [] s.fab.statusSeen o) n) } }

/-! ## Routed messages (R300) -/

/-- A routed message: later copies are dropped, one for another module is forwarded, one for this module is acted on. -/
def routed (kind : Nat) (msg : C0Msg) (act : BitVec 12 → State → State) (s : State) : State :=
  let src := c0get msg 2 2 % 4096
  let dest : BitVec 12 := BitVec.ofNat 12 (c0get msg 4 2)
  let n := c0get msg 6 2
  if c0get msg 0 1 ≠ kind then s
  else if (tget [] s.fab.routedSeen src).contains n then c0drop s
  else
    let s := { s with fab := { s.fab with routedSeen := tset [] s.fab.routedSeen src (seenPush (tget [] s.fab.routedSeen src) n) } }
    if dest = s.module then act (BitVec.ofNat 12 src) s else c0route dest msg s

/-- The rise of a 32-bit total; none for an older one. -/
def rise32 (old new : Nat) : Nat := let d := (2 ^ 32 - old % 2 ^ 32 + new) % 2 ^ 32
                                    if d < 2 ^ 31 then d else 0

/-- The total of child module `src` in a group rises, and with it what goes to the parent (R251). -/
def childCredit (i : Nat) (gen : U16) (src : BitVec 12) (cum : Nat) (s : State) : State :=
  let g := tget {} s.groups i
  let t := tget 0 g.childIn src.toNat
  forwardCredit i gen { s with groups := tset {} s.groups i { g with childIn := tset 0 g.childIn src.toNat (t + rise32 t cum) } }

/-- The group without a receiver here to which child module `src` addresses its credits by a core and an endpoint (log entry 18). -/
def passGroup (s : State) (c : Fin 32) (ep : BitVec 7) (src : BitVec 12) : Option (Nat × MGroup) :=
  s.groups.find? fun g => g.2.members.isEmpty && g.2.parentPort.isSome && g.2.selfCore == c && g.2.selfEp == ep &&
    (childModules s g.2).any fun m => m.1 == src

/-- A credit of a child where the module has no receiver: a younger generation begins the totals anew, and an older one is discarded. -/
def passCredit (i : Nat) (g : MGroup) (gen : U16) (src : BitVec 12) (cum : Nat) (s : State) : State :=
  if gen = g.gen then childCredit i gen src cum s
  else if (gen - g.gen).toNat < 32768 then
    childCredit i gen src cum { s with groups := tset {} s.groups i { g with gen := gen, childIn := [], sentUp := 0 } }
  else s

/-- CREDIT (R250 to R252, R300): the larger total counts; one of another generation is discarded. One that names a receive endpoint of a group,
or what stands for it where the module has no receiver, comes from a child module (R251). -/
def takeCredit (msg : C0Msg) (src : BitVec 12) (s : State) : State :=
  let c := coreOf (c0get msg 8 1)
  let ep : BitVec 7 := BitVec.ofNat 7 (c0get msg 9 1)
  let gen : U16 := BitVec.ofNat 16 (c0get msg 10 2)
  let cum := c0get msg 12 4
  let e := (s.core c).ep ep
  match passGroup s c ep src with
  | some (i, g) => passCredit i g gen src cum s
  | none =>
    if gen ≠ epGen e.desc then s
    else if epRole e.desc = 3 then
      let d := rise32 (tget 0 e.memberIn src.toNat) cum
      creditBack c ep (4096 + src.toNat) d (s.updCore c fun k => k.updEp ep fun e =>
        { e with memberIn := tset 0 e.memberIn src.toNat (tget 0 e.memberIn src.toNat + d) })
    else if epRole e.desc = 4 then childCredit (epGroup e.desc) gen src cum s
    else
      let d := rise32 e.cumIn.toNat cum
      creditBack c ep 0 d (s.updCore c fun k => k.updEp ep fun e => { e with cumIn := e.cumIn + BitVec.ofNat 32 d })

def execCreditMsg (_port : Fin 16) (msg : C0Msg) (s : State) : Host.Outcome State Fault Refusal :=
  .next (routed kindCredit msg (takeCredit msg) s)

/-- CREDIT_DROP (R255, R300): once for each endpoint and SEQ; the units of a closed receiver of a group come back through the totals of its
tree. -/
def takeCreditDrop (msg : C0Msg) (src : BitVec 12) (s : State) : State :=
  let c := coreOf (c0get msg 8 1)
  let ep : BitVec 7 := BitVec.ofNat 7 (c0get msg 9 1)
  let e := (s.core c).ep ep
  let seq : U32 := BitVec.ofNat 32 (c0get msg 20 4)
  if BitVec.ofNat 16 (c0get msg 10 2) ≠ epGen e.desc ∨ e.dropsTaken.contains seq then s
  else
    let reason : BitVec 2 := BitVec.ofNat 2 (c0get msg 12 1)
    takeDrop c ep (4096 + src.toNat) (if epRole e.desc = 3 ∧ reason = 2 then 0 else c0get msg 16 4) reason seq src
      (s.updCore c fun k => k.updEp ep fun e => { e with dropsTaken := e.dropsTaken ++ [seq] })

def execCreditDrop (_port : Fin 16) (msg : C0Msg) (s : State) : Host.Outcome State Fault Refusal :=
  .next (routed kindCreditDrop msg (takeCreditDrop msg) s)

/-- One express operation in EXP_SEQ order: discarded on a halted die, checked against the windows, and brought to its home unit; the next
one of its source waits until it is applied (R236, R315). -/
def applyExpress (src : BitVec 12) (msg : C0Msg) (s : State) : State :=
  let core : BitVec 5 := BitVec.ofNat 5 (c0get msg 8 1)
  let op := c0get msg 8 1 / 32 % 4
  let so := c0get msg 16 7
  let space := so / 2 ^ 48 % 16
  let off := so % 2 ^ 48
  if s.seq.state = .halted then s
  else
    let r := if op = 3 then some ⟨2, 0xFFFF, true⟩
      else windowCheck s space off 8 2 (BitVec.ofNat 32 (c0get msg 12 4)) (some s.markNow)
    match r with
    | some r => sendNack_ src core true (c0get msg 11 1) r s
    | none =>
      let key := 32 * src.toNat + core.toNat
      bellArrive { op := BitVec.ofNat 2 op, addr := BitVec.ofNat 64 (s.module.toNat * 2 ^ 52 + so % 2 ^ 52)
                   operand := BitVec.ofNat 64 (c0get msg 24 8), express := true, srcModule := src, srcCore := core
                   cmd := BitVec.ofNat 13 (c0get msg 9 2), origin := .expressIn key }
        { s with fab := { s.fab with expBusy := key :: s.fab.expBusy } }

/-- Takes the waiting express operations of a source that are next in order. -/
def drainExpress (src : BitVec 12) (core : Nat) : Nat → State → State
  | 0, s => s
  | fuel + 1, s =>
    let key := 32 * src.toNat + core
    let n := tget 0 s.fab.expIn key
    if s.fab.expBusy.contains key then s
    else match s.fab.expWait.find? fun x =>
      c0get x.2 2 2 % 4096 == src.toNat && c0get x.2 8 1 % 32 == core && c0get x.2 11 1 == n % 256 with
    | some x => drainExpress src core fuel (applyExpress src x.2
        { s with fab := { s.fab with expWait := s.fab.expWait.erase x, expIn := tset 0 s.fab.expIn key (n + 1) } })
    | none => s

/-- EXPRESS_BELL (R236, R300): it waits for the earlier ones of its source core. -/
def takeExpress (port : Fin 16) (msg : C0Msg) (src : BitVec 12) (s : State) : State :=
  let core := c0get msg 8 1 % 32
  let n := tget 0 s.fab.expIn (32 * src.toNat + core)
  if (c0get msg 11 1 + 256 - n % 256) % 256 < 128 then
    let s := { s with fab := { s.fab with expWait := s.fab.expWait ++ [(BitVec.ofNat 4 port.val, msg)] } }
    drainExpress src core (s.fab.expWait.length + 1) s
  else s

/-- Express operations that waited for an earlier one of their source. -/
def nextExpress (s : State) : State :=
  foldS (fun x s => drainExpress (BitVec.ofNat 12 (c0get x.2 2 2)) (c0get x.2 8 1 % 32) (s.fab.expWait.length + 1) s) s.fab.expWait s

/-- Read requests whose range has been read are answered, in the order in which they landed (R309). -/
def answerRequests : Nat → State → State
  | 0, s => s
  | fuel + 1, s =>
    match s.jobs.findSome? fun j => match j.want with | .serve f => some (f, j) | _ => none with
    | some (f, j) => if j.need = 0 then answerRequests fuel (sendResponse f j.bytes (s.endJob j)) else s
    | none => s

/-- What the fabric's items wait for may have come: bytes written, operations applied, ranges read. -/
def fabricWork (s : State) : State :=
  let s := foldS (fun x s => settlePath x.1 s) s.fab.pathsIn s
  answerRequests (s.jobs.length + 1) (nextExpress s)

def execExpressBell (port : Fin 16) (msg : C0Msg) (s : State) : Host.Outcome State Fault Refusal :=
  .next (routed kindExpress msg (takeExpress port msg) s)

/-- WINDOW_NACK at the source (R316): the element of the rejected flit never completes; the log, and with STRICT the halt. -/
def takeNack (msg : C0Msg) (src : BitVec 12) (s : State) : State :=
  let core := c0get msg 8 1 % 32
  let b := c0get msg 9 1
  let express := decide (b / 8 % 2 = 1)
  let seq := c0get msg 10 3
  let win := c0get msg 14 2
  let at_ := tget 0 s.fab.sentAt (sentKey core src express seq)
  let d0 : U64 := BitVec.ofNat 64 (seq + 2 ^ 24 * (b % 4) + (if win = 0xFFFF then 2 ^ 52 else 2 ^ 26 * (win % 16384)) +
    2 ^ 40 * src.toNat + 2 ^ 53 * b2n express)
  let s := if express then s else { s with fab := { s.fab with awaiting := s.fab.awaiting.filter fun w =>
    !(w.core.toNat == core && w.dest == src && decide ((2 ^ 24 - w.first % 2 ^ 24 + seq) % 2 ^ 24 ≤ w.pathSeq - w.first)) } }
  let s := logErr errWindowNack (some (coreOf core)) d0 (BitVec.ofNat 64 at_) s
  if b / 4 % 2 = 1 then raiseHalt ⟨hcWindow, some (coreOf core), engFabric, none, d0, BitVec.ofNat 64 at_⟩ s else s

def execWindowNack (_port : Fin 16) (msg : C0Msg) (s : State) : Host.Outcome State Fault Refusal :=
  .next (routed kindNack msg (takeNack msg) s)

/-- What an accepted item completes: its store element, or its ACK. -/
def completeAccepted (w : AwaitAccept) (s : State) : State :=
  let s := match w.elem with
    | some (d, p) => s.updCore (coreOf w.core.toNat) fun k => k.updStream d (updElem p fun e => { e with need := 0 })
    | none => s
  ackAdd w.core w.ack s

/-- ACCEPT (R300, R309): the larger cumulative PATH_SEQ counts. -/
def takeAccept (msg : C0Msg) (src : BitVec 12) (s : State) : State :=
  let core := c0get msg 8 1 % 32
  let key := 4096 * core + src.toNat
  let have_ := tget 0 s.fab.accepted key
  match fullSeq have_ (c0get msg 12 3) with
  | none => s
  | some n =>
    let done := fun (w : AwaitAccept) => w.core.toNat == core && w.dest == src && w.rdest.isNone && decide (w.pathSeq ≤ n)
    let l := s.fab.awaiting.filter done
    foldS completeAccepted l { s with fab := { s.fab with
      accepted := tset 0 s.fab.accepted key (n + 1), awaiting := s.fab.awaiting.filter fun w => !done w } }

def execAcceptMsg (_port : Fin 16) (msg : C0Msg) (s : State) : Host.Outcome State Fault Refusal :=
  .next (routed kindAccept msg (takeAccept msg) s)

/-! ## Class 2 (R311) -/

/-- C2_FLIT_RECEIVE: one for another module goes on; of those for this module a relay's is taken, and a management message or a fault report,
of which no rule gives the content, ends here (R311, log entry 31). -/
def execC2FlitReceive (port : Fin 16) (f : Flit) (s : State) : Host.Outcome State Fault Refusal :=
  .next <|
    let s := s.updPort port fun p => { p with c2In := p.c2In.erase f, c2Arrived := p.c2Arrived.erase f }
    if f.fkind ≠ 2 then s
    else if f.dest ≠ s.module then c2Send f s
    else if f.ikind.toNat ≤ 1 then relayArrive f s else s

/-! ## Slot tables (R294 to R296) -/

/-- The entries of a table set: 16 tables of 8,192 16-bit entries, port 0 first. -/
def tableEntries : Nat → List Byte → Tbl U16
  | _, [] => []
  | i, [b] => if b = 0 then [] else [(i, b.setWidth 16)]
  | i, a :: b :: t => if a = 0 ∧ b = 0 then tableEntries (i + 1) t else (i, (b ++ a : BitVec 16)) :: tableEntries (i + 1) t

/-- DRAIN_END (R296): the previous set is gone; the next leg's set is copied unless it is the active one. -/
def execDrainEnd (s : State) : Host.Outcome State Fault Refusal :=
  .next <|
    match s.fab.drainUntil with
    | some t =>
      if t ≤ s.slot then
        let need := s.setOfLeg s.seq.due.entry
        { s with fab := { s.fab with
            drainUntil := none, previous := []
            copying := if s.seq.due.ended ∨ need = s.fab.activeSet then none else some need } }
      else s
    | none => s

/-- The set that is being copied is read from memory once (R295). -/
def startCopy (s : State) : State :=
  match s.fab.copying with
  | some n =>
    if (s.jobs.any fun j => j.want == .tables n) ∨ s.seq.state = .halted then s
    else startJob (.tables n) 14 rqFabric srcFabric 0 (tget 0 s.fab.setBase n).toNat 262144 s
  | none => s

/-- The set that is being copied has been read. -/
def State.copyRead (s : State) : Option (Nat × Job) :=
  s.fab.copying.bind fun n => (s.jobDone (.tables n)).map fun j => (n, j)

/-- TABLE_COPY_DONE (R295): the set is in the shadow tables. -/
def execTableCopyDone (s : State) : Host.Outcome State Fault Refusal :=
  .next <|
    match s.copyRead with
    | some (n, j) =>
      let s := s.endJob j
      { s with fab := { s.fab with
          shadow := tableEntries 0 j.bytes, shadowSet := n, shadowReady := true, copying := none } }
    | none => s

end Sys2Proof.Machine
end

