-- ==== Sys2Proof/Machine/Power.lean ====
section
/-!
DEFINITION. Power and life cycle: bring-up, supply tiers, park, suspend and resume, service (R361 to R379).
-/
namespace Sys2Proof.Machine

/-! ## Resets (R363, Table 14.5, Table 16.3) -/

/-- Standby power-on: everything is at reset but fuses, sparing remaps and candidates, and what is outside the module. -/
def standbyClear (on : Bool) (s : State) : State :=
  { State.reset with
    time := { State.reset.time with refPin := s.time.refPin, ppsPin := s.time.ppsPin }
    stks := s.stks.map fun c => { cands := c.cands, spared := c.spared, sparesUsed := c.sparesUsed }
    pwr := { State.reset.pwr with standbyOn := on, fuses := s.pwr.fuses, debugFuse := s.pwr.debugFuse }
    freeCount := s.freeCount
    pending := s.pending }

/-- STANDBY_POWER_ON (R361): bring-up phase 0 begins; a condition of PWR_SERVICE that the kept sparing remaps meet is raised. -/
def execStandbyPowerOn (s : State) : Host.Outcome State Fault Refusal := .next (checkService (standbyClear true s))

/-- STANDBY_POWER_LOSS (R363, R372). -/
def execStandbyPowerLoss (s : State) : Host.Outcome State Fault Refusal := .next (standbyClear false s)

/-- MAIN_INPUT_LOSS (R363): die, stacks and port tiles lose state; bring-up restarts from step 2 when the input returns. -/
def execMainInputLoss (s : State) : Host.Outcome State Fault Refusal :=
  .next <|
    let s := mainReset s
    { s with pwr := { s.pwr with phase := .standby, waitPowerOn := false, vinPin := 0, above1 := 0, above2 := 0, stable := 0 } }

/-- POWER_OFF (R363): only in EMPTY. -/
def execPowerOff (s : State) : Host.Outcome State Fault Refusal :=
  .next <|
    if s.seq.state = .empty ∧ s.pwr.phase ≠ .standby then
      let s := mainReset s
      { s with pwr := { s.pwr with phase := .standby, waitPowerOn := true } }
    else s

/-! ## The main input (R361, R364, Table 14.6) -/

/-- Entry thresholds of tiers 1 to 5 and leave levels of tiers 1 and 2, in mV. -/
def entryMv (tier : Nat) : Nat := match tier with | 1 => 46000 | 2 => 44000 | 3 => 42000 | 4 => 40000 | _ => 36000
def leaveMv (tier : Nat) : Nat := if tier = 1 then 47000 else 45000

/-- One sample more in a row, or none. -/
def runOn (p : Bool) (n : Nat) : Nat := if p then n + 1 else 0

/-- One sample of the main input (R364). -/
def samplePin (p : Power) : Power :=
  let v := p.vinPin.toNat
  { p with
    vin := p.vinPin
    below := Vector.ofFn fun i => runOn (decide (v < entryMv (i.val + 1))) (p.below.get i)
    above1 := runOn (decide (47000 ≤ v)) p.above1
    above2 := runOn (decide (45000 ≤ v)) p.above2
    stable := runOn (decide (46000 ≤ v) && decide (v ≤ 56000)) p.stable }

/-- A report from outside names the level that the input has from now on; the next sample after it is the first to see it (R364). -/
def reportLevel (mv : U16) (s : State) : State := { s with pwr := { s.pwr with vinPin := mv } }

/-- The input has been at or above 47.0 V for 1,000 µs (R367, R369). -/
def Power.resumeOk (p : Power) : Bool := decide (1000 ≤ p.above1)

/-- The deepest tier whose entry has been below its threshold for 20 samples. -/
def Power.deepest (p : Power) : Nat := (List.range 5).foldl (fun m i => if 20 ≤ p.below.toList.getD i 0 then i + 1 else m) 0

/-! ## Bring-up (R361, R362, Table 14.4) -/

/-- The rails are off, the time domain runs, and the input has been within 46.0 to 56.0 V for 10 ms: bring-up may go on with step 2. -/
def State.inputReady (s : State) : Bool :=
  s.pwr.standbyOn && (s.pwr.phase == .standby || s.pwr.phase == .standbyRelay) && s.time.osc != .reset && decide (10000 ≤ s.pwr.stable)

/-- It goes on by itself, as AUTO_ON is 1 and no POWER_OFF keeps the module off (R361, R363). -/
def State.rampDue (s : State) : Bool := s.inputReady && !s.pwr.waitPowerOn && bit s.pwr.cfg 31

/-- Step 2 begins; `fast`: the return after tier 4, which keeps the stacks (R369). A bring-up that begins has not failed (log entry 34). -/
def startRamp (fast : Bool) (s : State) : State :=
  { s with pwr := { s.pwr with phase := .ramp, waitPowerOn := false, fail := false, fastResume := fast } }

/-- MAIN_INPUT_STABLE (R361): the main input has been within 46.0 to 56.0 V for 10 ms. A module whose rails are off starts RAMP when
AUTO_ON is 1; step 1 ends first (Table 14.4). -/
def execMainInputStable (mv : U16) (s : State) : Host.Outcome State Fault Refusal :=
  .next <|
    let s := reportLevel mv s
    let s := if 46000 ≤ mv.toNat ∧ mv.toNat ≤ 56000 then { s with pwr := { s.pwr with stable := max 10000 s.pwr.stable } } else s
    if s.rampDue then startRamp false { s with pwr := { s.pwr with tier := 0 } } else s

/-- A tier leaves: its cap lifts, and below tier 2 the deferred mooring requests are accepted (R364, R365). -/
def leaveTier (new : Fin 6) (s : State) : State :=
  let old := s.pwr.tier.val
  setEvent evTier (moorRelease (setCap old new.val { s with pwr := { s.pwr with tier := new } }))

/-- POWER_ON (R361, R369, R377): a module whose rails are off starts RAMP once its input is stable; after tier 4 or a thermal trip the die
returns once the input is back, without losing the stacks where the bring-up had been complete. For 60 s after a trip it is ignored. -/
def execPowerOn (s : State) : Host.Outcome State Fault Refusal :=
  .next <|
    if s.pwr.tripAt.isSome then s
    else if s.inputReady then startRamp false { s with pwr := { s.pwr with tier := 0 } }
    else if s.pwr.phase = .dieOff ∧ s.pwr.resumeOk then
      startRamp s.pwr.broughtUp (if s.pwr.tier.val = 0 then s else leaveTier 0 s)
    else s

/-- BRINGUP_FAIL (R362): the main rails switch off. -/
def bringupFail (s : State) : State :=
  let ph := s.pwr.phase
  let s := mainReset s
  setEvent evBringup { s with pwr := { s.pwr with phase := ph, fail := true } }

/-- One block that the full scrub meets with an error (R276, R278). -/
def scrubBlock (block : Nat) (e : ErrPat) (s : State) : State :=
  let a := 64 * block
  match fathomDecode e with
  | .uncorrectable => logErr errUeScrub none (BitVec.ofNat 64 (stackAddrOf a)) (BitVec.ofNat 64 (stackOfAddr a).val) (ueRow a s)
  | .corrected _ => noteCorrected a s
  | .clean _ => s

/-- The scrub of bring-up: die state and all stack memory are zero (R361); the RWL registers of the standby domain are kept (Table 16.3). -/
def fullScrub (met : List (Nat × ErrPat)) (s : State) : State :=
  let s := foldS (fun e s => scrubBlock e.1 e.2 s) (s.errs ++ met) s
  dropJob { s with cores := Vector.replicate 32 {}, groups := [], dram := [], errs := [], pwr := { s.pwr with snapshot := none } }

/-- Ports of a return after tier 4: the links that stayed UP go on, the others train again (R369). -/
def retrainDown (s : State) : State :=
  { s with fab := { s.fab with ports := s.fab.ports.map fun p => if p.state = .up then p else { p with state := .train } } }

/-- Sounding ends: the time domain follows its role (Table 1.2). -/
def soundingDone (s : State) : State :=
  let s := if s.time.osc = .sounding then leaveSounding s else s
  { s with pwr := { s.pwr with phase := .locking } }

/-- BRINGUP_PHASE_DONE (R361, R362, R369): a bring-up that has failed goes no further. -/
def execBringupPhaseDone (done : PhaseEnd) (s : State) : Host.Outcome State Fault Refusal :=
  .next <|
    if s.pwr.fail then s
    else match s.pwr.phase with
    | .ramp =>
      if done.failed then bringupFail s
      else { s with pwr := { s.pwr with phase := .stackInit, mainOn := true, dieOn := true } }
    | .stackInit =>
      if done.failed then bringupFail s
      else
        let s := leaveSelfRefresh s
        if s.pwr.fastResume then
          let s := retrainDown s
          tryZeroing { s with pwr := { s.pwr with phase := .killed, fastResume := false } }
        else { s with
          fab := { s.fab with ports := s.fab.ports.map fun p => { p with state := .train } }
          pwr := { s.pwr with phase := .ports } }
    | .ports =>
      let s := { s with
        time := { s.time with osc := if s.time.osc = .reset then .reset else .sounding, listening := false }
        pwr := { s.pwr with phase := .sounding } }
      refreshRefOk (takeRole s)
    | .sounding => if s.allSounded then soundingDone s else s
    | .locking => if s.time.osc = .locked then { s with pwr := { s.pwr with phase := .scrub } } else s
    | .scrub =>
      let s := fullScrub done.errors s
      tryZeroing { s with pwr := { s.pwr with phase := .ready, broughtUp := true } }
    | _ => s

/-! ## Supply tiers (R364 to R368) -/

/-- Counts a tier's entry; tiers 4 and 5 share a count (PWR_TIER_COUNT). -/
def countTier (t : Nat) (s : State) : State :=
  let i : Fin 4 := ⟨min (t - 1) 3, by omega⟩
  { s with pwr := { s.pwr with tierCounts := s.pwr.tierCounts.set i (satInc (s.pwr.tierCounts.get i)) } }

/-- The stacks are left without self-refresh, and their contents are lost (R369). -/
def loseStacks (s : State) : State :=
  { s with
    dram := [], errs := []
    stks := s.stks.map fun c => { c with selfRefresh := false, toRefresh := false, pcs := c.pcs.map fun u => { u with drain := 0 } }
    pwr := { s.pwr with snapshot := none } }

/-- The ports that relay class 0 on standby (Table 14.6). -/
def relayPorts (s : State) : Vector FabPort 16 :=
  Vector.ofFn fun p =>
    if p.val = bits s.pwr.cfg 3 0 ∨ p.val = bits s.pwr.cfg 7 4 then
      { s.port p with retry := [], copies := [], gone := [], present := [], transit := [], c2Arrived := [], c2In := [], c2Out := [], c2Sent := [], c2Again := [] }
    else {}

/-- The actions of one tier (Table 14.6). -/
def tierAction (t : Nat) (mv : U16) (s : State) : State :=
  let s := countTier t s
  match t with
  | 1 => setCap 0 1 s
  | 2 => setCap 1 2 s
  | 3 =>
    if s.seq.suspended then enterSelfRefresh s
    else if s.seq.state = .gated ∧ ¬ s.seq.parked ∧ ¬ s.withheld then park s
    else s
  | 4 =>
    if s.pwr.dieOn ∨ s.pwr.phase = .ramp then dieOff (raiseHalt ⟨hcKill, none, engPower, none, 2, mv.setWidth 64⟩ s) else s
  | _ =>
    let ports := relayPorts s
    let s := mainReset s
    { s with fab := { s.fab with ports := ports }, pwr := { s.pwr with phase := .standbyRelay } }

def tierActions (mv : U16) (last : Nat) : List Nat → State → State
  | [], s => s
  | t :: l, s => tierActions mv last l (if t ≤ last then tierAction t mv { s with pwr := { s.pwr with tier := ⟨t % 6, by omega⟩ } } else s)

/-- TIER_ENTRY (R364 to R369): the input has been below the tier's threshold for 20 samples; the actions of every tier from the one
after the tier in force apply, in ascending order. A level that is not below the threshold is a change of the input and no entry.
`fast`: the fall to 36.0 V was too quick for self-refresh. -/
def execTierEntry (tier : Fin 6) (mv : U16) (fast : Bool) (s : State) : Host.Outcome State Fault Refusal :=
  .next <|
    let s := reportLevel mv s
    if s.pwr.tier.val < tier.val ∧ s.pwr.standbyOn ∧ mv.toNat < entryMv tier.val then
      let s := { s with pwr := { s.pwr with
        below := Vector.ofFn fun i => if i.val < tier.val then max 20 (s.pwr.below.get i) else s.pwr.below.get i } }
      let s := tierActions mv tier.val ((List.range 6).filter fun t => decide (s.pwr.tier.val < t)) s
      setEvent evTier (if fast ∧ 4 ≤ tier.val then loseStacks s else s)
    else s

/-- TIER_LEAVE (R364): the leave condition of tier 1 or 2 has held for 1,000 µs; tier 2 leaves to 0 when tier 1's own condition holds
too, else to 1; tier 1 leaves to 0. A level below the leave level is a change of the input only. -/
def execTierLeave (tier : Fin 6) (mv : U16) (s : State) : Host.Outcome State Fault Refusal :=
  .next <|
    let s := reportLevel mv s
    if s.pwr.tier = tier ∧ (tier.val = 1 ∨ tier.val = 2) ∧ leaveMv tier.val ≤ mv.toNat then
      let s := { s with pwr := { s.pwr with
        above1 := if tier.val = 1 then max 1000 s.pwr.above1 else s.pwr.above1, above2 := max 1000 s.pwr.above2 } }
      leaveTier (if tier.val = 1 ∨ s.pwr.resumeOk then 0 else 1) s
    else s

/-! ## Suspend and resume (R258, R367, R374 to R376) -/

/-- The hall time of a mark `n` legs after the next one, as the table and the slips give it now (R27). -/
def aheadTime (s : State) : Nat → Nat → Walk → Nat → Nat
  | 0, _, _, t => t
  | n + 1, m, w, t =>
    if w.ended then t
    else aheadTime s n (m + 1) (walkNext s w) (t + 16 * w.leg.w16.toNat + tget 0 s.seq.kMax (m + 1) * s.time.quantum)

/-- Part of a placement region that lies in one stack, as a linear range (R264). -/
def stackPart (o n k : Nat) : Nat × Nat :=
  let i0 := o / 4096
  let i1 := (o + n - 1) / 4096
  let f := i0 + (k + 16 - i0 % 16) % 16
  let l := i1 - (i1 % 16 + 16 - k) % 16
  if i1 < f then (0, 0)
  else
    (stackBytes * k + 4096 * (f / 16) + (if f = i0 then o % 4096 else 0),
     stackBytes * k + 4096 * (l / 16) + (if l = i1 then (o + n - 1) % 4096 + 1 else 4096))

/-- A placement region meets the linear range [b, b + n). -/
def regionMeets (r : Nat × Nat × Nat) (b n : Nat) : Bool :=
  if r.2.2 = 0 then false
  else if r.1 = 4 then (List.range 16).any fun k =>
    let p := stackPart r.2.1 r.2.2 k
    decide (p.1 < p.2) && decide (p.1 < b + n) && decide (b < p.2)
  else decide (r.2.1 < b + n) && decide (b < r.2.1 + r.2.2)

def suspendBytes : Nat := 1024 * 1024 * 1024
def Power.suspBase (p : Power) : Nat := (pair p.suspBaseLo p.suspBaseHi).toNat

/-- The suspend area is valid (R374). -/
def State.suspendAreaOk (s : State) : Bool :=
  let b := s.pwr.suspBase
  decide (b % 65536 = 0) && decide (b + suspendBytes ≤ memBytes) && !(s.loader.regions.any fun r => regionMeets r b suspendBytes)

/-- SUSPEND_REFUSED with its code (Table 15.4). -/
def suspendRefused (code : Nat) (s : State) : State := logErr errSuspendRefused none (BitVec.ofNat 64 code) 0 s

/-- SUSPEND (R374): refused for the size, the state, the mark or the range; else the marks from s on are withheld. -/
def execSuspend (s : State) : Host.Outcome State Fault Refusal :=
  .next <|
    let m := pair s.pwr.suspMarkLo s.pwr.suspMarkHi
    if 4 < s.seq.partSize.toNat then suspendRefused 0 s
    else if ¬ (s.seq.state = .running ∨ s.seq.state = .gated) then suspendRefused 1 s
    else if m.toNat ≤ s.seq.mark.toNat then suspendRefused 2 s
    else if ¬ s.suspendAreaOk then suspendRefused 3 s
    else { s with seq := { s.seq with
      suspendReq := some m
      suspendAt := BitVec.ofNat 64 (aheadTime s (m.toNat - s.seq.nextNum) s.seq.nextNum s.seq.due s.seq.nextAt.toNat) } }

/-- Every lead side is idle: nothing in flight and nothing to start (R375). -/
def leadIdle (k : Core) : Bool :=
  (k.streams.all fun e => e.2.elems.all fun x => x.started && x.need == 0) &&
    (List.ofFn (n := 4) id).all fun e => (leadPick k e).isNone

/-- The conditions of the snapshot (R375). -/
def State.snapshotReady (s : State) : Bool :=
  (match s.seq.suspendReq with | some m => m == s.seq.legMark + 1 | none => false) &&
    s.seq.state == .gated && !s.seq.suspended && s.fab.queues.isEmpty && (allPorts.all fun p => (s.port p).retry.isEmpty) &&
    (allCores.all fun c => leadIdle (s.core c)) && decide (s.seq.suspendAt.toNat + 65536 ≤ s.now)

/-- SUSPEND_SNAPSHOT (R375): the context goes to the suspend area, whose layout no rule gives (log entry 25). At tier 3 and deeper the
stacks then enter self-refresh (R282). -/
def execSuspendSnapshot (s : State) : Host.Outcome State Fault Refusal :=
  .next <|
    if s.snapshotReady then
      let b := s.pwr.suspBase
      let s := setEvent evSuspended { s with
        dram := mzero s.dram b suspendBytes
        errs := s.errs.filter fun e => decide (64 * e.1 < b ∨ b + suspendBytes ≤ 64 * e.1)
        pwr := { s.pwr with snapshot := some (b, s.freeCount), saved := true, phase := .suspended }
        freeCount := s.freeCount + suspendBytes
        seq := { s.seq with suspended := true } }
      if 3 ≤ s.pwr.tier.val then enterSelfRefresh s else s
    else s

/-- Buoys re-register with an invalid copy (R258). -/
def reregister (k : Core) : Core :=
  { k with buoys := k.buoys.map fun e => if e.2.armed then (e.1, { e.2 with valid := false, reg := .registering }) else e }

/-- The end of a suspension: mark s falls at the resume time (R376). -/
def resumeSuspended (t : U64) (s : State) : State :=
  { s with
    cores := s.cores.map reregister
    seq := { s.seq with
      suspended := false, suspendReq := none, nextAt := t, nextBase := t, kMax := tset 0 s.seq.kMax s.seq.nextNum 0
      horizonDone := false }
    pwr := { s.pwr with phase := .ready } }

/-- The end of tier 3 (R283, R367). -/
def endTier3 (s : State) : State := leaveTier 0 (leaveSelfRefresh s)

/-- The withheld leg of a park starts at once when its mark has passed (R36, R367). -/
def unpark (s : State) : State :=
  if s.seq.parked then
    let s := { s with seq := { s.seq with parked := false }, pwr := { s.pwr with phase := .ready } }
    if s.seq.state = .gated ∧ s.seq.legMark.toNat < s.seq.mark.toNat then startLeg true s else s
  else s

/-- RESUME (R367, R376): ends a suspension at a hall time that is 20,000,000 ns away and a multiple of 16 ns, or a park once the
input is back. -/
def execResume (s : State) : Host.Outcome State Fault Refusal :=
  .next <|
    let sagged := s.pwr.tier.val = 3
    if sagged ∧ ¬ s.pwr.resumeOk then s
    else if s.seq.suspended then
      let t := pair s.pwr.resumeLo s.pwr.resumeHi
      let early := decide (t.toNat < s.now + 20000000)
      let off := decide (t.toNat % 16 ≠ 0)
      let s := if early then logErr errMarkPast none t s.time.hallTime s else s
      let s := if off then logErr errMarkAlign none t s.time.hallTime s else s
      if early || off then s else resumeSuspended t (if sagged then endTier3 s else leaveSelfRefresh s)
    else if sagged then unpark (endTier3 s)
    else s

/-! ## Service and debug (R373, R379) -/

/-- SERVICE_CLEAR (R379): while no condition holds. -/
def execServiceClear (s : State) : Host.Outcome State Fault Refusal :=
  .next (if s.svcAny then s else { s with pwr := { s.pwr with svcRequest := false } })

/-- DEBUG_ENABLE (R373): set only while the fuse is intact and the state is EMPTY. -/
def execDebugEnable (on : Bool) (s : State) : Host.Outcome State Fault Refusal :=
  .next <|
    if ¬ on then { s with pwr := { s.pwr with debugEnable := false } }
    else if s.pwr.debugFuse ∧ s.seq.state = .empty then { s with pwr := { s.pwr with debugEnable := true } }
    else s

/-- BLOW (R373): in EMPTY the debug fuse blows for good. -/
def execBlowFuse (s : State) : Host.Outcome State Fault Refusal :=
  .next (if s.seq.state = .empty then { s with pwr := { s.pwr with debugFuse := false, debugEnable := false } } else s)

end Sys2Proof.Machine
end

