-- ==== Sys2Proof/Machine/Image.lean ====
section
/-!
DEFINITION. The Quimar image: its layout, its relocation and its structure records, with the loader's checks of them (R342 to R352,
R355, Tables 13.1 to 13.4). The bodies of the records have the layout of log entry 20.
-/
namespace Sys2Proof.Machine

/-! ## Refusals and fields -/

/-- A refusal: the code of Table 13.4 and the image byte offset of the failing item (R355). -/
abbrev Refuse := Nat × Nat

def refuseIf (bad : Bool) (code off : Nat) : Option Refuse := if bad then some (code, off) else none

def imChecksum : Nat := 0x02
def imHeader : Nat := 0x03
def imKey : Nat := 0x04
def imSignature : Nat := 0x05
def imArrayMap : Nat := 0x06
def imPosition : Nat := 0x07
def imRegion : Nat := 0x08
def imRelocation : Nat := 0x09
def imStructure : Nat := 0x0A
def imLeg : Nat := 0x0B
def imCommand : Nat := 0x0C
def imFabric : Nat := 0x0D
def imParameter : Nat := 0x0E
def imMemory : Nat := 0x0F

/-- The little-endian field of `n` bytes at byte `a` of an image. -/
def fld (l : List Byte) (a n : Nat) : Nat := ofBytes ((l.drop a).take n)
def part (l : List Byte) (a n : Nat) : List Byte := (l.drop a).take n
/-- Reserved bytes must be zero; the first one that is not is the failing item. -/
def reserved (l : List Byte) (code a n : Nat) : Option Refuse := ((part l a n).findIdx? (· != 0)).map fun i => (code, a + i)
/-- The view with bytes replaced. -/
def putBytes (l : List Byte) (a : Nat) (bs : List Byte) : List Byte := l.take a ++ bs ++ l.drop (a + bs.length)

/-! ## Header, directory, sections (R345, R346) -/

def imDir (l : List Byte) : Nat := fld l 64 8
def imCount (l : List Byte) : Nat := fld l 72 4
def imPart (l : List Byte) : Nat := fld l 56 2
def regSize (l : List Byte) (r : Nat) : Nat := fld l (256 + 16 * r) 8
def regSpace (l : List Byte) (r : Nat) : Nat := fld l (264 + 16 * r) 1

/-- A directory entry, and where it stands. -/
structure Section_ where
  entry : Nat
  typ : Nat
  pos : Nat
  off : Nat
  len : Nat
  region : Nat

def sectionAt (l : List Byte) (i : Nat) : Section_ :=
  let a := imDir l + 32 * i
  ⟨a, fld l a 2, fld l (a + 2) 2, fld l (a + 8) 8, fld l (a + 16) 8, fld l (a + 24) 1⟩
def sections (l : List Byte) : List Section_ := (List.range (imCount l)).map (sectionAt l)
/-- LEG_TABLE, COMMANDS, CONSTANT and ZERO are placed. -/
def Section_.placed (x : Section_) : Bool := decide (3 ≤ x.typ) && decide (x.typ ≤ 6)
/-- A module uses the sections of its own position and of every position. -/
def Section_.usedAt (p : Nat) (x : Section_) : Bool := x.pos == 0xFFFF || x.pos == p
def Section_.destOff (l : List Byte) (x : Section_) : Nat := fld l x.off 8
/-- Bytes a placed section takes in its region. -/
def Section_.span (l : List Byte) (x : Section_) : Nat := if x.typ = 6 then fld l (x.off + 8) 8 else x.len - 8

/-- The header of Table 13.1 against the length `n` of IMG_LEN. -/
def headerFault (l : List Byte) (n : Nat) : Option Refuse :=
  refuseIf (part l 0 8 != [0x51, 0x55, 0x49, 0x4D, 0x41, 0x52, 0x30, 0x31]) imHeader 0 <|>
  refuseIf (fld l 8 4 != 0x00010000) imHeader 8 <|>
  refuseIf (fld l 12 4 != 512) imHeader 12 <|>
  refuseIf (fld l 16 8 != n || n % 16 != 0 || decide (32 * 1024 * 1024 * 1024 < n)) imHeader 16 <|>
  refuseIf (!([64, 56, 48].contains (fld l 40 1))) imHeader 40 <|>
  reserved l imHeader 41 7 <|>
  refuseIf (decide (imPart l = 0) || decide (4096 < imPart l)) imHeader 56 <|>
  refuseIf (decide (4096 ≤ fld l 58 2)) imHeader 58 <|>
  reserved l imHeader 62 2 <|>
  refuseIf (imDir l % 32 != 0 || decide (imDir l < 768) || decide (n < imDir l + 32 * imCount l + 16)) imHeader 64 <|>
  refuseIf (decide (imCount l = 0) || decide (65536 < imCount l)) imHeader 72 <|>
  reserved l imHeader 76 180 <|>
  (List.range 16).findSome? fun r =>
    refuseIf (regSize l r % 65536 != 0 || !(regSpace l r == 0 || regSpace l r == 4)) imHeader (256 + 16 * r) <|>
    reserved l imHeader (265 + 16 * r) 7

/-- A directory entry against the end of the section before it and its type. -/
def entryFault (l : List Byte) (n prevEnd prevTyp : Nat) (x : Section_) : Option Refuse :=
  let dirEnd := imDir l + 32 * imCount l
  refuseIf (decide (x.typ = 0) || decide (7 < x.typ) || decide (x.typ < prevTyp)) imHeader x.entry <|>
  refuseIf (x.pos != 0xFFFF && decide (imPart l ≤ x.pos)) imHeader x.entry <|>
  reserved l imHeader (x.entry + 4) 4 <|>
  reserved l imHeader (x.entry + 25) 7 <|>
  refuseIf (x.off % 32 != 0 || decide (x.off < max 768 prevEnd) || decide (n < x.off + x.len + 16) ||
    (decide (x.off < dirEnd) && decide (imDir l < x.off + x.len))) imHeader x.entry <|>
  refuseIf (x.typ == 1 && x.len != 4 * imPart l) imHeader x.entry <|>
  (if x.placed then
    refuseIf (decide (16 ≤ x.region) || regSize l x.region == 0 || decide (x.len < 8) || (x.typ == 6 && x.len != 16) ||
      decide (regSize l x.region < x.destOff l + x.span l)) imHeader x.entry
  else refuseIf (x.region != 0) imHeader x.entry) <|>
  (if x.typ = 1 then
    ((List.range (imPart l)).find? fun i => decide (4096 ≤ fld l (x.off + 4 * i) 4)).map fun i => (imHeader, x.off + 4 * i)
  else none)

def directoryFault (l : List Byte) (n : Nat) : List Section_ → Nat → Nat → Option Refuse
  | [], _, _ => none
  | x :: t, e, y => entryFault l n e y x <|> directoryFault l n t (x.off + x.len) x.typ

/-- The directory and the sections as byte ranges in ascending order. -/
def occupied (l : List Byte) : List (Nat × Nat) :=
  let d := (imDir l, 32 * imCount l)
  let r := (sections l).map fun x => (x.off, x.len)
  r.takeWhile (fun x => decide (x.1 < d.1)) ++ [d] ++ r.dropWhile fun x => decide (x.1 < d.1)

/-- Bytes between sections are 0. -/
def gapFault (l : List Byte) (n : Nat) : List (Nat × Nat) → Nat → Option Refuse
  | [], e => reserved l imHeader e (n - 16 - e)
  | x :: t, e => reserved l imHeader e (x.1 - e) <|> gapFault l n t (x.1 + x.2)

def layoutFault (l : List Byte) (n : Nat) : Option Refuse :=
  headerFault l n <|> directoryFault l n (sections l) 0 0 <|> gapFault l n (occupied l) 768

/-! ## Trailer, key, signature, fuses (R347 to R349, R348) -/

/-- The trailer and the CRC. -/
def trailerFault (l : List Byte) (n : Nat) : Option Refuse :=
  refuseIf (decide (n < 784) || fld l (n - 16) 4 != (crc32 (l.take (n - 16))).toNat ||
    part l (n - 12) 4 != [0x51, 0x45, 0x4E, 0x44] || fld l (n - 8) 8 != n) imChecksum (n - 16)

/-- The 48 bytes of a key slot. -/
def keyDigest (s : State) (k : Nat) : List Byte :=
  (List.range 12).flatMap fun i => toBytes 4 (tget 0 s.loader.keyHash (12 * k + i)).toNat

/-- The lowest enabled slot that holds the digest of the image's key. -/
def keySlotOf (l : List Byte) (s : State) : Option Nat :=
  (List.range 4).find? fun k => bit s.loader.keyCfg k && keyDigest s k == sha384 (part l 512 97)

/-- The signature over the header and everything after the signature section but the trailer. -/
def signed (l : List Byte) (n : Nat) : Bool :=
  l.getD 512 0 == 4 && ecdsaVerify (ofBytesBE (part l 513 48)) (ofBytesBE (part l 561 48)) (ofBytesBE (part l 616 48))
    (ofBytesBE (part l 664 48)) (sha384 (part l 0 512 ++ part l 768 (n - 784)))

def signatureFault (l : List Byte) (n : Nat) : Option Refuse :=
  reserved l imSignature 609 7 <|> reserved l imSignature 712 56 <|> refuseIf (!signed l n) imSignature 616

def fuseFault (l : List Byte) (s : State) : Option Refuse :=
  refuseIf (fld l 40 1 != (List.range 64).countP fun i => bit s.pwr.fuses i) imArrayMap 40 <|>
  refuseIf (fld l 48 8 != s.pwr.fuses.toNat) imArrayMap 48

/-! ## Position, shift and regions (R351) -/

def State.imgPosition (s : State) : Nat := bits s.loader.position 11 0
def State.imgOrigin (s : State) : Nat := bits s.loader.origin 11 0
/-- The shift of the partition. -/
def shiftOf (l : List Byte) (s : State) : Nat := (s.imgOrigin + 4096 - fld l 58 2 % 4096) % 4096
/-- The base of a region as the host wrote it. -/
def regBase (s : State) (r : Nat) : Nat := (pair (s.loader.regionBaseLo.get (portOf r)) (s.loader.regionBaseHi.get (portOf r))).toNat
/-- The placement regions: space, base, size. -/
def regionsOf (l : List Byte) (s : State) : List (Nat × (Nat × Nat × Nat)) :=
  (List.range 16).filterMap fun r => if regSize l r = 0 then none else some (r, regSpace l r, regBase s r, regSize l r)

/-- A region's bytes as linear ranges (R264). -/
def linearParts (r : Nat × Nat × Nat) : List (Nat × Nat) :=
  if r.1 = 4 then (List.range 16).map (stackPart r.2.1 r.2.2) else [(r.2.1, r.2.1 + r.2.2)]
/-- Two regions share a stack byte. -/
def regionsMeet (a b : Nat × Nat × Nat) : Bool := (linearParts b).any fun p => decide (p.1 < p.2) && regionMeets a p.1 (p.2 - p.1)
/-- A linear range lies wholly inside a region. -/
def insideRegion (r : Nat × Nat × Nat) (b n : Nat) : Bool :=
  (pieces stackBytes b n).all fun p => (linearParts r).any fun q => decide (q.1 ≤ p.1) && decide (p.1 + p.2 ≤ q.2)

/-- The POSITIONS entry of this module's position. -/
def positionEntry (l : List Byte) (s : State) : Option Nat :=
  ((sections l).find? fun x => x.typ == 1 && x.usedAt s.imgPosition).map fun x => x.off + 4 * s.imgPosition

def positionFault (l : List Byte) (s : State) : Option Refuse :=
  let step := fld l 60 2
  let d := shiftOf l s
  refuseIf (if step = 0 then d != 0 else d % step != 0) imPosition 60 <|>
  refuseIf (decide (imPart l ≤ s.imgPosition)) imPosition 56 <|>
  match positionEntry l s with
  | some a => refuseIf (s.module.toNat != (fld l a 4 + d) % 4096) imPosition a
  | none => some (imPosition, 0)

/-- The staged image and the ingress log as linear ranges. -/
def State.stageBase (s : State) : Nat := (pair s.loader.baseLo s.loader.baseHi).toNat
def State.stageLen (s : State) : Nat := (pair s.loader.lenLo s.loader.lenHi).toNat

def regionFault (l : List Byte) (s : State) : Option Refuse :=
  let rs := regionsOf l s
  rs.findSome? fun x =>
    refuseIf (decide (memBytes < x.2.2.1 + x.2.2.2) || (rs.any fun y => decide (y.1 < x.1) && regionsMeet y.2 x.2) ||
      regionMeets x.2 s.stageBase s.stageLen || (s.ilogBytes != 0 && regionMeets x.2 s.ilogBase s.ilogBytes)) imRegion (256 + 16 * x.1)

/-! ## Relocation (R352) -/

/-- The entries of the relocation sections that the module uses, as image offsets. -/
def relocEntries (l : List Byte) (s : State) : List Nat :=
  (sections l).flatMap fun x =>
    if x.typ = 7 ∧ x.usedAt s.imgPosition then (List.range ((x.len + 15) / 16)).map fun i => x.off + 16 * i else []

/-- One relocation entry against the image: its form and its target. -/
def relocBad (l : List Byte) (a : Nat) : Bool :=
  let t := fld l a 8
  let kind := fld l (a + 8) 1
  let b := fld l (a + 9) 1
  let w := fld l (a + 10) 1
  !((sections l).any fun x => x.typ != 7 && decide (x.off ≤ t) && decide (t + 8 ≤ x.off + x.len)) ||
    !((sections l).any fun x => x.typ == 7 && decide (x.off ≤ a) && decide (a + 16 ≤ x.off + x.len)) ||
    !(kind == 1 || kind == 2) || w == 0 || decide (64 < b + w) || (kind == 1 && w != 12) ||
    (kind == 2 && (decide (16 ≤ fld l (a + 11) 1) || regSize l (fld l (a + 11) 1) == 0)) || fld l (a + 12) 4 != 0

/-- The loader's view with the entries applied in list order; the entries themselves are read from the image. -/
def relocate (im : List Byte) (s : State) : List Nat → List Byte → Except Refuse (List Byte)
  | [], v => .ok v
  | a :: t, v =>
    let w := fld im (a + 10) 1
    let b := fld im (a + 9) 1
    let at_ := fld im a 8
    let word : U64 := BitVec.ofNat 64 (fld v at_ 8)
    let f := bits word (b + w - 1) b
    let g := if fld im (a + 8) 1 = 1 then (f + shiftOf im s) % 4096 else f + regBase s (fld im (a + 11) 1)
    if relocBad im a ∨ 2 ^ w ≤ g then .error (imRelocation, a)
    else relocate im s t (putBytes v at_ (toBytes 8 (setBits word (b + w - 1) b g).toNat))

/-! ## Where the image's bytes go (R346) -/

/-- The space and offset of a placed section's first byte. -/
def Section_.home (l : List Byte) (s : State) (x : Section_) : Nat × Nat := (regSpace l x.region, regBase s x.region + x.destOff l)

/-- The placed sections of a type that the module uses. -/
def usedOf (l : List Byte) (s : State) (typ : Nat) : List Section_ :=
  (sections l).filter fun x => x.typ == typ && x.usedAt s.imgPosition

/-- The image offset from which the linear range [a, a + n) is placed; of two sections, the one written later. -/
def imageOff (l : List Byte) (s : State) (a n : Nat) : Option Nat :=
  ((usedOf l s 5 ++ usedOf l s 3 ++ usedOf l s 4).reverse).findSome? fun x =>
    let h := x.home l s
    let o := offsetOf h.1 a
    if h.2 ≤ o ∧ o + n ≤ h.2 + x.span l ∧ linearOf h.1 (o + n - 1) + 1 = a + n then some (x.off + 8 + (o - h.2)) else none

/-! ## Structure records (R350, Table 13.3, log entry 20) -/

/-- A record: its type, its core, the offset of its head and its body length. -/
structure Rec where
  typ : Nat
  core : Nat
  off : Nat
  len : Nat

def Rec.body (r : Rec) : Nat := r.off + 8

/-- The records from offset `a` to `e`, or the head of the first one that runs past the end. -/
def recsFrom (l : List Byte) : Nat → Nat → Nat → Except Nat (List Rec)
  | 0, a, _ => .error a
  | fuel + 1, a, e =>
    if a = e then .ok []
    else
      let n := fld l (a + 4) 4
      let next := a + 8 + (n + 7) / 8 * 8
      if e < next then .error a
      else (recsFrom l fuel next e).map fun t => ⟨fld l a 2, fld l (a + 2) 2, a, n⟩ :: t

/-- The records of sections in their order. -/
def recsIn (l : List Byte) : List Section_ → Except Nat (List Rec)
  | [] => .ok []
  | x :: t =>
    match recsFrom l (x.len / 8 + 1) x.off (x.off + x.len), recsIn l t with
    | .ok y, .ok z => .ok (y ++ z)
    | .error a, _ => .error a
    | _, .error a => .error a

/-- All records of the sections that position `p` uses, or the offset of the first malformed one. -/
def recsAt (l : List Byte) (p : Nat) : Except Nat (List Rec) :=
  recsIn l ((sections l).filter fun x => x.typ == 2 && x.usedAt p)

/-- Record types that stand once for each core. -/
def perCore (typ : Nat) : Bool := decide (4 ≤ typ) && decide (typ ≤ 7)

/-- Records stand in the order of the table, each once, or once for each core; padding is zero. -/
def recOrderFault (l : List Byte) (rs : List Rec) : Option Refuse :=
  (rs.findSome? fun r =>
    refuseIf (r.typ == 0 || decide (17 < r.typ) || (if perCore r.typ then decide (32 ≤ r.core) else r.core != 0xFFFF) ||
      decide (1 < rs.countP fun x => x.typ == r.typ && x.core == r.core) || (rs.any fun x => decide (x.off < r.off) && decide (r.typ < x.typ)))
      imStructure r.off <|> reserved l imStructure (r.body + r.len) ((8 - r.len % 8) % 8)) <|>
  refuseIf (rs.length != 13 + 4 * 32) imStructure 0

def recOf (rs : List Rec) (typ core : Nat) : Rec := (rs.find? fun r => r.typ == typ && r.core == core).getD ⟨typ, core, 0, 0⟩
def dieRec (rs : List Rec) (typ : Nat) : Rec := recOf rs typ 0xFFFF

/-- The entries of `k` bytes that a record's body holds from byte `b` on, `n` of them. -/
def entriesAt (b k n : Nat) : List Nat := (List.range n).map fun i => b + k * i
def Rec.entries (r : Rec) (k : Nat) : List Nat := entriesAt r.body k (r.len / k)

/-! ### Core roles and partitions (record 4) -/

def idleCore (l : List Byte) (rs : List Rec) (c : Nat) : Bool := fld l (recOf rs 4 c).body 1 == 1

/-- A range lies in a scratchpad range of a class. -/
def inClass (l : List Byte) (rs : List Rec) (c cls lo n : Nat) : Bool :=
  let r := recOf rs 4 c
  (entriesAt (r.body + 8) 16 (fld l (r.body + 1) 1)).any fun a =>
    fld l (a + 8) 1 == cls && decide (fld l a 4 ≤ lo) && decide (lo + n ≤ fld l a 4 + fld l (a + 4) 4)

def roleFault (l : List Byte) (r : Rec) : Option Refuse :=
  let n := fld l (r.body + 1) 1
  refuseIf (r.len != 8 + 16 * n || decide (16 < n) || decide (1 < fld l r.body 1)) imStructure r.off <|>
  reserved l imStructure (r.body + 2) 6 <|>
  (entriesAt (r.body + 8) 16 n).findSome? fun a =>
    refuseIf (decide (spadBytes < fld l a 4 + fld l (a + 4) 4) || decide (2 < fld l (a + 8) 1)) imStructure a <|>
    reserved l imStructure (a + 9) 7

/-! ### Descriptors, endpoints, groups (records 5 to 8) -/

/-- A local stack address: this module, space 0 or 4, below 1,152 GiB (Table 8.5). -/
def localStack (s : State) (a : U64) : Bool :=
  haModule a == s.module && (haSpace a == 0 || haSpace a == 4) && decide (haOff a < memBytes)

/-- A stream descriptor breaks Tables 8.2 to 8.5 or R207. -/
def descBad (s : State) (d : BitVec 512) : Bool :=
  let k := sdKind d
  bits d 31 26 != 0 || bits d 17 12 != 0 || bits d 7 3 != 0 || decide (5 < k) ||
    (if k = 0 then false
     else if k ≤ 2 then
       sdListLen d == 0 || decide (65536 < sdListLen d) || sdListBase d % 16 != 0 || decide (memBytes < sdListBase d + 16 * sdListLen d) ||
         bits d 287 281 != 0 || decide (spadBytes < sdSpBase d + sdSpSpan d) || bits d 511 320 != 0
     else
       sdRun d % 32 != 0 || (if k = 3 then !(sdRun d == 256 || sdRun d == 512) || sdDepth d != 8 else sdRun d != 512) ||
         (sdHallBase d).toNat % 32 != 0 || !localStack s (sdHallBase d) || ((List.range 4).any fun i => sdStride d i % 32 != 0) || bits d 511 384 != 0)

def descFault (l : List Byte) (rs : List Rec) (s : State) (r : Rec) : Option Refuse :=
  refuseIf (r.len % 72 != 0) imStructure r.off <|>
  (r.entries 72).findSome? fun a =>
    let d : BitVec 512 := BitVec.ofNat 512 (fld l (a + 8) 64)
    refuseIf (decide (2048 ≤ fld l a 8) || ((r.entries 72).any fun b => decide (b < a) && fld l b 8 == fld l a 8) || descBad s d ||
      (sdKind d != 0 && idleCore l rs r.core) ||
      ((sdKind d == 1 || sdKind d == 2) && sdSpSpan d != 0 && !inClass l rs r.core 1 (sdSpBase d) (sdSpSpan d))) imStructure a

/-- A bell descriptor breaks Table 9.2, or names no word that R228 allows. -/
def bellDescBad (d : BitVec 128) : Bool :=
  let a := bdAddr d
  bits d 127 72 != 0 || bits d 70 68 != 0 || bdOp d == 3 || (bdMcast d && bits d 55 52 != 0) ||
    (bdValid d && !((haSpace a == 0 || haSpace a == 1 || haSpace a == 4) && decide (haOff a % 8 = 0) && offsetFits (haSpace a) (haOff a) 8))

def bellDescFault (l : List Byte) (r : Rec) : Option Refuse :=
  refuseIf (r.len % 24 != 0) imStructure r.off <|>
  (r.entries 24).findSome? fun a =>
    refuseIf (decide (256 ≤ fld l a 8) || ((r.entries 24).any fun b => decide (b < a) && fld l b 8 == fld l a 8) ||
      bellDescBad (BitVec.ofNat 128 (fld l (a + 8) 16))) imStructure a

/-- An endpoint descriptor breaks Table 9.4 or R245's limits. -/
def epBad (d : W256) : Bool :=
  bits d 15 14 != 0 || bits d 7 5 != 0 || bit d 3 || decide (4 < epRole d) || bits d 63 57 != 0 || bits d 95 81 != 0 ||
    bits d 127 113 != 0 || bits d 255 192 != 0 ||
    (epRole d != 0 && (epRing d % 256 != 0 || decide (epUnits d < 2) || decide (98304 < epUnits d) || epMax d == 0 ||
      decide (epUnits d / 2 < epMax d) || decide (spadBytes < epRing d + 256 * epUnits d))) ||
    ((epRole d == 1 || epRole d == 2) && (bits d 179 173 != 0 || bit d 167 || bits d 159 128 != 0)) ||
    ((epRole d == 3 || epRole d == 4) && bits d 191 136 != 0)

/-- A send endpoint agrees with a receive endpoint in geometry, ROUTE_GEN and STRICT. -/
def epAgree (a b : W256) : Bool :=
  epRing a == epRing b && epUnits a == epUnits b && epMax a == epMax b && epGen a == epGen b && epStrict a == epStrict b

/-- The module that a position of the partition stands for (R351). -/
def positionModule (l : List Byte) (s : State) (p : Nat) : Option (BitVec 12) :=
  ((sections l).find? fun x => x.typ == 1 && x.usedAt p).map fun x =>
    BitVec.ofNat 12 ((fld l (x.off + 4 * p) 4 + shiftOf l s) % 4096)

/-- The records that the image holds for another module of the partition, whose number stands for its position (R351). -/
def peerRecs (l : List Byte) (s : State) (m : BitVec 12) : Option (List Rec) :=
  ((List.range (imPart l)).find? fun p =>
    ((sections l).any fun x => x.typ == 2 && x.usedAt p) && positionModule l s p == some m).bind fun p => (recsAt l p).toOption

/-- The records that the image holds for every other module of the partition. -/
def otherRecs (l : List Byte) (s : State) : List (BitVec 12 × List Rec) :=
  (List.range (imPart l)).filterMap fun p => (positionModule l s p).bind fun m =>
    if m = s.module then none else ((recsAt l p).toOption).map fun rs => (m, rs)

/-- The descriptor of an endpoint in a list of records; 0, an unused one, where no entry gives it. -/
def epDescIn (l : List Byte) (rs : List Rec) (c : Fin 32) (ep : BitVec 7) : W256 :=
  (((recOf rs 7 c.val).entries 40).find? fun a => fld l a 8 == ep.toNat).elim 0 fun a => BitVec.ofNat 256 (fld l (a + 8) 32)

/-- A receive endpoint of module `m` disagrees with a send endpoint; one whose records the image does not hold is taken as it is. -/
def epRecvBad (l : List Byte) (v : State) (role : Nat) (d : W256) (m : BitVec 12) (c : Fin 32) (ep : BitVec 7) : Bool :=
  let bad := fun x => epRole x != role || !epAgree d x
  if m = v.module then bad ((v.core c).ep ep).desc
  else (peerRecs l v m).any fun rs => bad (epDescIn l rs c ep)

/-- The multicast groups of record 8, one after the other: head of 24 bytes, members, modules. -/
def groupsFrom (l : List Byte) : Nat → Nat → Nat → List Nat
  | 0, _, _ => []
  | fuel + 1, a, e =>
    if e < a + 24 then []
    else a :: groupsFrom l fuel (a + 24 + (2 * fld l (a + 1) 1 + 7) / 8 * 8 + (4 * fld l (a + 4) 2 + 7) / 8 * 8) e

def groupEnd (l : List Byte) (a : Nat) : Nat := a + 24 + (2 * fld l (a + 1) 1 + 7) / 8 * 8 + (4 * fld l (a + 4) 2 + 7) / 8 * 8

def groupOf (l : List Byte) (a : Nat) : MGroup :=
  let m := a + 24
  let d := m + (2 * fld l (a + 1) 1 + 7) / 8 * 8
  { defined := true
    members := (entriesAt m 2 (fld l (a + 1) 1)).map fun b => (coreOf (fld l b 1), BitVec.ofNat 7 (fld l (b + 1) 1))
    ports := BitVec.ofNat 16 (fld l (a + 2) 2)
    modules := (entriesAt d 4 (fld l (a + 4) 2)).map fun b => (BitVec.ofNat 12 (fld l b 2), BitVec.ofNat 5 (fld l (b + 2) 1))
    parentPort := if fld l (a + 6) 2 < 16 then some (portOf (fld l (a + 6) 2)) else none
    parentCore := coreOf (fld l (a + 8) 1), parentEp := BitVec.ofNat 7 (fld l (a + 9) 1)
    rootModule := BitVec.ofNat 12 (fld l (a + 10) 2), rootCore := coreOf (fld l (a + 12) 1), rootEp := BitVec.ofNat 7 (fld l (a + 13) 1)
    selfCore := coreOf (fld l (a + 14) 1), selfEp := BitVec.ofNat 7 (fld l (a + 15) 1), gen := BitVec.ofNat 16 (fld l (a + 16) 2) }

/-- The receivers of a group on a module: from the module as the records leave it, or from the image's records for it. -/
def membersOn (l : List Byte) (v : State) (g : Nat) (m : BitVec 12) : List (Fin 32 × BitVec 7) :=
  if m = v.module then (tget {} v.groups g).members
  else match peerRecs l v m with
    | some rs =>
      let r := dieRec rs 8
      ((groupsFrom l (r.len / 16 + 1) r.body (r.body + r.len)).find? fun a => fld l a 1 == g).elim [] fun a => (groupOf l a).members
    | none => []

/-- A send endpoint `e` on another module, with its records, has this receive endpoint as its own or in its group, and disagrees with it. -/
def epSendBad (l : List Byte) (v : State) (c : Fin 32) (ep : BitVec 7) (d : W256) (rs : List Rec) (e : W256) : Bool :=
  let r := dieRec rs 8
  let here := (groupsFrom l (r.len / 16 + 1) r.body (r.body + r.len)).any fun a =>
    fld l a 1 == epGroup e && (groupOf l a).modules.any fun m => m.1 == v.module
  !epAgree e d &&
    ((epRole e == 1 && epRole d == 2 && epPeerModule e == v.module && epPeerCore e == c && epPeerEp e == ep) ||
      (epRole e == 3 && epRole d == 4 && epGroup e == epGroup d && here))

/-- The two ends of a channel disagree: a receiver of a send endpoint, or a sender of a receive endpoint, on any module whose records the image
holds (R245). -/
def epPairBad (l : List Byte) (v : State) (c : Fin 32) (ep : BitVec 7) (d : W256) : Bool :=
  if epRole d = 1 then epRecvBad l v 2 d (epPeerModule d) (epPeerCore d) (epPeerEp d)
  else if epRole d = 3 then
    (v.module :: (tget {} v.groups (epGroup d)).modules.map fun m => m.1).any fun m =>
      (membersOn l v (epGroup d) m).any fun x => epRecvBad l v 4 d m x.1 x.2
  else epIsRecv d && (otherRecs l v).any fun x => allCores.any fun sc => ((recOf x.2 7 sc.val).entries 40).any fun a =>
    epSendBad l v c ep d x.2 (BitVec.ofNat 256 (fld l (a + 8) 32))

/-- Two receive rings of one core overlap. -/
def ringsMeet (a b : W256) : Bool :=
  epIsRecv a && epIsRecv b && decide (epRing a < epRing b + 256 * epUnits b) && decide (epRing b < epRing a + 256 * epUnits a)

def epFault (l : List Byte) (rs : List Rec) (v : State) (r : Rec) : Option Refuse :=
  let desc := fun a => (BitVec.ofNat 256 (fld l (a + 8) 32) : W256)
  refuseIf (r.len % 40 != 0) imStructure r.off <|>
  (r.entries 40).findSome? fun a =>
    let d := desc a
    refuseIf (decide (128 ≤ fld l a 8) || ((r.entries 40).any fun b => decide (b < a) && (fld l b 8 == fld l a 8 || ringsMeet (desc b) d)) ||
      epBad d || (epRole d != 0 && idleCore l rs r.core) || epPairBad l v (coreOf r.core) (BitVec.ofNat 7 (fld l a 8)) d ||
      (epIsRecv d && !inClass l rs r.core 1 (epRing d) (256 * epUnits d))) imStructure a

def groupFault (l : List Byte) (r : Rec) : Option Refuse :=
  let gs := groupsFrom l (r.len / 16 + 1) r.body (r.body + r.len)
  refuseIf (match gs.getLast? with | some a => groupEnd l a != r.body + r.len | none => r.len != 0) imStructure r.off <|>
  gs.findSome? fun a =>
    let n := fld l (a + 1) 1
    refuseIf (decide (64 < n) || (gs.any fun b => decide (b < a) && fld l b 1 == fld l a 1) || !(decide (fld l (a + 6) 2 < 16) || fld l (a + 6) 2 == 0xFFFF) ||
      decide (32 ≤ fld l (a + 8) 1) || decide (128 ≤ fld l (a + 9) 1) ||
      decide (4096 ≤ fld l (a + 10) 2) || decide (32 ≤ fld l (a + 12) 1) || decide (128 ≤ fld l (a + 13) 1) ||
      decide (32 ≤ fld l (a + 14) 1) || decide (128 ≤ fld l (a + 15) 1) ||
      ((entriesAt (a + 24) 2 n).any fun b => decide (32 ≤ fld l b 1) || decide (128 ≤ fld l (b + 1) 1)) ||
      ((entriesAt (a + 24 + (2 * n + 7) / 8 * 8) 4 (fld l (a + 4) 2)).any fun b =>
        decide (4096 ≤ fld l b 2) || decide (32 ≤ fld l (b + 2) 1) || fld l (b + 3) 1 != 0)) imStructure a <|>
    reserved l imStructure (a + 18) 6

/-! ### Fabric (records 9 to 12) -/

def portFault (l : List Byte) (v : State) (r : Rec) : Option Refuse :=
  refuseIf (r.len != 128) imFabric r.off <|>
  (r.entries 8).findSome? fun a =>
    let p := v.port (portOf ((a - r.body) / 8))
    let cfg : U32 := BitVec.ofNat 32 (fld l a 4)
    let peer : U32 := BitVec.ofNat 32 (fld l (a + 4) 4)
    let age := bits cfg 21 16
    refuseIf (bits cfg 30 22 != 0 || bits cfg 15 0 != 0 || bits peer 31 20 != 0 || bits peer 15 12 != 0 ||
      (if bit cfg 31 then decide (age < 2) || decide (32 < age) || !p.identKnown || p.peerModule.toNat != bits peer 11 0 ||
          p.peerPort.toNat != bits peer 19 16 || decide (3200 * age < p.soundD.toNat + p.soundU.toNat + 1600)
       else false)) imFabric a

def routeFault (l : List Byte) (v : State) (shift : Nat) (r : Rec) : Option Refuse :=
  refuseIf (r.len != 16384) imFabric r.off <|>
  (r.entries 4).findSome? fun a =>
    let e : U32 := BitVec.ofNat 32 (fld l a 4)
    let me := ((a - r.body) / 4 + shift) % 4096 == v.module.toNat
    refuseIf (bits e 23 8 != 0 || (me && (!bit e 31 || bits e 29 24 != 0))) imFabric a

/-- The largest HOPS of the route entries of the partition (R302). -/
def hopsMax (l : List Byte) (r : Rec) : Nat :=
  (r.entries 4).foldl (fun m a =>
    let e : U32 := BitVec.ofNat 32 (fld l a 4)
    if bit e 31 && bit e 30 then max m (bits e 29 24) else m) 0

def boundFault (l : List Byte) (rs : List Rec) (r : Rec) : Option Refuse :=
  let c := fld l r.body 4
  let d := fld l (r.body + 4) 4
  refuseIf (r.len != 8 || decide (65536 ≤ c) || decide (c < 36 * hopsMax l (dieRec rs 10) + 100) || d == 0 || decide (4096 < d)) imFabric r.off

/-- A slot table entry has a bit that Table 11.5 does not list. -/
def slotBad (e : Nat) : Bool :=
  match e / 2 ^ 14 with
  | 1 => e / 2 ^ 12 % 4 != 0
  | 2 => e / 16 % 1024 != 0
  | _ => e % 2 ^ 14 != 0

/-- The entries of a table as they follow each other. -/
def slotWords : List Byte → List Nat
  | a :: b :: t => (a.toNat + 256 * b.toNat) :: slotWords t
  | _ => []

/-- The longest run of entries without a RETRY, and the count of RETRY entries. -/
def retryRun : List Nat → Nat → Nat → Nat → Nat × Nat
  | [], run, best, n => (max run best, n)
  | e :: t, run, best, n => if e / 2 ^ 14 = 3 then retryRun t 0 (max run best) (n + 1) else retryRun t (run + 1) best n

/-- One port's table breaks R295 or Table 11.5. -/
def tableBad (w : List Nat) : Bool :=
  w.any slotBad || decide ((retryRun w 0 0 0).2 < 246) || decide (64 ≤ (retryRun (w ++ w.take 64) 0 0 0).1)

def cutTables : Nat → List Nat → List (List Nat)
  | 0, _ => []
  | n + 1, l => l.take 8192 :: cutTables n (l.drop 8192)

/-- Record 12: where the set numbers of the leg entries, the launch queues and the table sets begin. -/
def legSetsAt (r : Rec) : Nat := r.body + 16
def queuesAt (l : List Byte) (r : Rec) : Nat := legSetsAt r + (4 * fld l (r.body + 4) 4 + 7) / 8 * 8
def setsAt (l : List Byte) (r : Rec) : Nat := queuesAt l r + 8 * fld l (r.body + 8) 4

def setFault (l : List Byte) (rs : List Rec) (r : Rec) : Option Refuse :=
  let n := fld l r.body 4
  let legs := fld l (r.body + 4) 4
  let queues := fld l (r.body + 8) 4
  refuseIf (n == 0 || legs != fld l ((dieRec rs 1).body + 4) 4 || fld l (r.body + 12) 4 != 0 || decide (4096 < queues) ||
    r.body + r.len != setsAt l r + n * 262152) imFabric r.off <|>
  ((entriesAt (legSetsAt r) 4 legs).findSome? fun a => refuseIf (decide (n ≤ fld l a 4)) imFabric a) <|>
  ((entriesAt (queuesAt l r) 8 queues).findSome? fun a =>
    refuseIf (decide (2 ^ 18 ≤ fld l a 4) || decide (4096 ≤ fld l (a + 4) 2) || fld l (a + 6) 2 != 0) imFabric a) <|>
  (entriesAt (setsAt l r) 262152 n).findSome? fun a =>
    refuseIf (decide (memBytes < fld l a 8 + 262144) || (cutTables 16 (slotWords (part l (a + 8) 262144))).any tableBad) imFabric a

/-! ### Windows, ingress and harbor (records 13 to 15) -/

def windowFault (l : List Byte) (rs : List Rec) (r : Rec) : Option Refuse :=
  let n := fld l r.body 4
  let m := fld l (r.body + 4) 4
  let ws := entriesAt (r.body + 8) 40 n
  refuseIf (r.len != 8 + 40 * n + 32 * m || decide (16384 < m)) imStructure r.off <|>
  (ws.findSome? fun a =>
    let w : W256 := BitVec.ofNat 256 (fld l (a + 8) 32)
    let sp := bits w 51 48
    let off := bits w 47 0
    refuseIf (decide (16384 ≤ fld l a 8) || (ws.any fun b => decide (b < a) && fld l b 8 == fld l a 8) || bits w 63 52 != 0 ||
      !([0, 1, 2, 4].contains sp) || decide (winSize w < 8) || decide (2 ^ 41 < winSize w) || bits w 191 164 != 0 ||
      (sp == 1 && !inClass l rs (off / 2 ^ 40) 2 (off % 2 ^ 40) (winSize w))) imStructure a) <|>
  (entriesAt (r.body + 8 + 40 * n) 32 m).findSome? fun a =>
    refuseIf (decide (4096 ≤ fld l a 2) || !([0, 1, 2, 4].contains (fld l (a + 8) 8 / 2 ^ 48)) || fld l (a + 28) 4 != 0) imStructure a <|>
      reserved l imStructure (a + 2) 6

/-- A harbor region of record 14. -/
def harborAt (l : List Byte) (a : Nat) : HarborRegion :=
  ⟨BitVec.ofNat 64 (fld l (a + 8) 8), BitVec.ofNat 32 (fld l (a + 16) 4), BitVec.ofNat 64 (fld l (a + 24) 8)⟩

def ingressFault (l : List Byte) (s : State) (r : Rec) : Option Refuse :=
  let d := fld l (r.body + 24) 4
  let n := fld l (r.body + 28) 4
  let hs := entriesAt (r.body + 32) 32 n
  let bell : U64 := BitVec.ofNat 64 (fld l (r.body + 16) 8)
  refuseIf (r.len != 32 + 32 * n || decide (64 < n) || d == 0 || decide (16 < d) || fld l r.body 8 % 65536 != 0 ||
    decide (memBytes < fld l r.body 8 + 2 ^ 24) || fld l (r.body + 8) 8 % 4096 != 0 ||
    decide (memBytes < fld l (r.body + 8) 8 + 4198400 * d) || haModule bell != s.module || !bellWordHere s bell) imStructure r.off <|>
  hs.findSome? fun a =>
    let h := harborAt l a
    let k := h.recSize.toNat
    let c := h.count.toNat
    refuseIf (decide (64 ≤ fld l a 8) || (hs.any fun b => decide (b < a) && fld l b 8 == fld l a 8) || h.base.toNat % 64 != 0 ||
      k % 64 != 0 || decide (k < 64) || decide (1048576 < k) || decide (c < 2) || decide (2 ^ 32 < c) || fld l (a + 20) 4 != 0 ||
      !((regionsOf l s).any fun x => insideRegion x.2 h.base.toNat (k * c))) imStructure a

/-! ### Time, holds, beacon, buoys (records 1 to 3, 16, 17) -/

def legRecFault (l : List Byte) (r : Rec) : Option Refuse :=
  let n := fld l (r.body + 4) 4
  let b := fld l (r.body + 8) 8
  refuseIf (r.len != 16 || decide (1 < fld l r.body 4) || n == 0 || decide (65536 < n) || b % 64 != 0 || decide (memBytes < b + 64 * n))
    imStructure r.off

/-- RESERVE_PERMILLE of record 2. -/
def imReserve (l : List Byte) (rs : List Rec) : Nat := fld l ((dieRec rs 2).body + 4) 1

def slipRecFault (l : List Byte) (rs : List Rec) (r : Rec) : Option Refuse :=
  let c : U32 := BitVec.ofNat 32 (fld l r.body 4)
  let g : U32 := BitVec.ofNat 32 (fld l (r.body + 4) 4)
  refuseIf (r.len != 8 || decide (bits c 31 16 < 0x80) || bits c 3 0 != 0 || bits g 15 8 != 0 || decide (bits g 7 0 < 30) ||
    decide (200 < bits g 7 0) || decide (256 * bits c 15 4 < fld l (dieRec rs 11).body 4 + 32)) imStructure r.off

def holdRecFault (l : List Byte) (s : State) (r : Rec) : Option Refuse :=
  let cores := (List.range 32).map fun i => fld l (r.body + 8 + i) 1
  let arrs := ((List.range 64).map fun i => fld l (r.body + 40 + i) 1).filter (· != 0xFF)
  refuseIf (r.len != 104 || fld l (r.body + 1) 3 == 0 || fld l (r.body + 4) 4 != 0 || (cores.any fun c => decide (32 ≤ c)) ||
    cores.eraseDups.length != 32 || arrs.eraseDups.length != arrs.length ||
    (List.range 64).any (fun a => bit s.pwr.fuses a != arrs.contains a) || (arrs.any fun a => decide (64 ≤ a))) imStructure r.off

def beaconFault (l : List Byte) (s : State) (r : Rec) : Option Refuse :=
  refuseIf (r.len != 8 || fld l r.body 4 != s.time.beaconCfg.toNat || fld l (r.body + 4) 4 != 0) imFabric r.off

def buoyFault (l : List Byte) (s : State) (r : Rec) : Option Refuse :=
  refuseIf (r.len % 32 != 0) imStructure r.off <|>
  (r.entries 32).findSome? fun a =>
    let addr : U64 := BitVec.ofNat 64 (fld l (a + 8) 8)
    refuseIf (decide (32 ≤ fld l a 1) || decide (64 ≤ fld l (a + 1) 1) || decide (1 < fld l (a + 2) 1) || fld l (a + 24) 8 != 0 ||
      ((r.entries 32).any fun b => decide (b < a) && fld l b 2 == fld l a 2) || !bellWordHere s addr) imStructure a <|>
    reserved l imStructure (a + 3) 5

/-- One record against the rules Table 13.3 names; `v` is the module as the records would leave it. -/
def recFault (l : List Byte) (rs : List Rec) (s v : State) (shift : Nat) (r : Rec) : Option Refuse :=
  match r.typ with
  | 1 => legRecFault l r
  | 2 => slipRecFault l rs r
  | 3 => holdRecFault l s r
  | 4 => roleFault l r
  | 5 => descFault l rs v r
  | 6 => bellDescFault l r
  | 7 => epFault l rs v r
  | 8 => groupFault l r
  | 9 => portFault l s r
  | 10 => routeFault l s shift r
  | 11 => boundFault l rs r
  | 12 => setFault l rs r
  | 13 => windowFault l rs r
  | 14 => ingressFault l s r
  | 15 => refuseIf (r.len != 0 && r.len != 8) imStructure r.off
  | 16 => beaconFault l s r
  | _ => buoyFault l s r

/-! ## The records written to the module (R350, R354) -/

/-- A write of the loader into stack memory; a part of an uncorrectable block is not written, and its row is a sparing candidate (R279, log
entry 45). -/
def stageWrite (p : Nat × List Byte) (s : State) : State :=
  match fathomDecode (errOf s p.1) with
  | .uncorrectable => if p.2.length = 64 then (blockWrite rqFabric p.1 p.2 [] s).2 else ueRow p.1 s
  | _ => (blockWrite rqFabric p.1 p.2 [] s).2

/-- Bytes with the pieces they are cut into. -/
def cutBytes : List (Nat × Nat) → List Byte → List (Nat × List Byte)
  | [], _ => []
  | p :: t, bs => (p.1, bs.take p.2) :: cutBytes t (bs.drop p.2)

/-- A write of the loader at an offset of space 0 or 4. -/
def placeBytes (space off : Nat) (bs : List Byte) (s : State) : State :=
  foldS (fun p s => stageWrite (linearOf space p.1, p.2) s) (cutBytes (pieces 64 off bs.length) bs) s

def writeCoreRec (l : List Byte) (r : Rec) (k : Core) : Core :=
  match r.typ with
  | 5 => { k with descs := (r.entries 72).foldl (fun t a => tset 0 t (fld l a 8) (BitVec.ofNat 512 (fld l (a + 8) 64))) [], streams := [] }
  | 6 => { k with bellDescs := (r.entries 24).foldl (fun t a => tset 0 t (fld l a 8) (BitVec.ofNat 128 (fld l (a + 8) 16))) [] }
  | 7 => { k with eps := (r.entries 40).foldl (fun t a =>
      let d : W256 := BitVec.ofNat 256 (fld l (a + 8) 32)
      tset {} t (fld l a 8) (if epRole d = 0 then {} else freshEp d)) [] }
  | _ => k

def writeTimeRec (l : List Byte) (r : Rec) (s : State) : State :=
  let f := fun a => (BitVec.ofNat 32 (fld l (r.body + a) 4) : U32)
  match r.typ with
  | 1 => { s with seq := { s.seq with cfg := f 0, tableLen := f 4, tableBaseLo := f 8, tableBaseHi := f 12 } }
  | 2 => { s with time := { s.time with slipCfg := f 0, legCfg := f 4 } }
  | 3 => { s with clk := { s.clk with
      holdCfg := f 0
      coreOrder := Vector.ofFn fun i => BitVec.ofNat 8 (fld l (r.body + 8 + i.val) 1)
      arrayOrder := Vector.ofFn fun i => BitVec.ofNat 8 (fld l (r.body + 40 + i.val) 1) } }
  | _ => s

def writeFabRec (l : List Byte) (shift : Nat) (r : Rec) (s : State) : State :=
  match r.typ with
  | 8 => { s with groups := (groupsFrom l (r.len / 16 + 1) r.body (r.body + r.len)).foldl (fun t a => tset {} t (fld l a 1) (groupOf l a)) [] }
  | 9 => foldS (fun a s => s.updPort (portOf ((a - r.body) / 8)) fun p => { p with cfg := BitVec.ofNat 32 (fld l a 4) }) (r.entries 8) s
  | 10 => { s with fab := { s.fab with
      route := (r.entries 4).foldl (fun t a => tset 0 t (((a - r.body) / 4 + shift) % 4096) (BitVec.ofNat 32 (fld l a 4))) [] } }
  | 11 => { s with fab := { s.fab with c0Bound := BitVec.ofNat 32 (fld l r.body 4), drain := BitVec.ofNat 32 (fld l (r.body + 4) 4) } }
  | 12 =>
    let sets := entriesAt (setsAt l r) 262152 (fld l r.body 4)
    let legs := entriesAt (legSetsAt r) 4 (fld l (r.body + 4) 4)
    let s := foldS (fun a s => placeBytes 0 (fld l a 8) (part l (a + 8) 262144) s) sets s
    { s with fab := { s.fab with
        setBase := sets.foldl (fun t a => tset 0 t ((a - setsAt l r) / 262152) (BitVec.ofNat 64 (fld l a 8))) []
        legSet := legs.foldl (fun t a => tset 0 t ((a - legSetsAt r) / 4) (fld l a 4)) []
        queueOf := (entriesAt (queuesAt l r) 8 (fld l (r.body + 8) 4)).foldl (fun t a => tset 0 t (fld l a 4) (fld l (a + 4) 2)) [] } }
  | 13 =>
    let n := fld l r.body 4
    { s with fab := { s.fab with
        windows := (entriesAt (r.body + 8) 40 n).foldl (fun t a => tset 0 t (fld l a 8) (BitVec.ofNat 256 (fld l (a + 8) 32))) []
        remoteWins := (entriesAt (r.body + 8 + 40 * n) 32 (fld l (r.body + 4) 4)).map fun a =>
          ⟨BitVec.ofNat 12 (fld l a 2), BitVec.ofNat 52 (fld l (a + 8) 8), BitVec.ofNat 64 (fld l (a + 16) 8), BitVec.ofNat 32 (fld l (a + 24) 4)⟩ } }
  | _ => s

def writeHostRec (l : List Byte) (r : Rec) (s : State) : State :=
  let f := fun a => (BitVec.ofNat 32 (fld l (r.body + a) 4) : U32)
  { s with host := { s.host with
      moorBaseLo := f 0, moorBaseHi := f 4, musterBaseLo := f 8, musterBaseHi := f 12, musterBellLo := f 16, musterBellHi := f 20
      musterDepth := f 24
      harbors := (entriesAt (r.body + 32) 32 (fld l (r.body + 28) 4)).foldl (fun t a => tset {} t (fld l a 8) (harborAt l a)) [] } }

/-- One record written to its destination. -/
def writeRec (l : List Byte) (shift : Nat) (r : Rec) (s : State) : State :=
  if r.typ ≤ 3 then writeTimeRec l r s
  else if perCore r.typ then s.updCore (coreOf r.core) (writeCoreRec l r)
  else if r.typ = 14 then writeHostRec l r s
  else writeFabRec l shift r s

end Sys2Proof.Machine
end

