-- ==== Sys2Proof/Machine/Static.lean ====
section
/-!
DEFINITION. The loader's checks of the leg table, of every command block and of the parameter group table (R84, R90, R186, R187, R354
steps 9 to 11). A block is walked once over the module as the structure records leave it, every engine idle at cycle 0.
-/
namespace Sys2Proof.Machine

/-! ## Leg table and core block tables (R27, R29, R84) -/

/-- The cycle budget of a leg (R29). -/
def legBudget (w16 reserve : Nat) : Nat := 16 * w16 * 1250 * (1000 - reserve) / 1000000

/-- A core block entry; an idle core has no words. -/
def coreEntryFault (l : List Byte) (rs : List Rec) (a c : Nat) : Option Refuse :=
  let b := fld l a 8
  refuseIf (b % 32 != 0 || decide (2 ^ 41 ≤ b) || decide (8192 < fld l (a + 8) 2) || fld l (a + 14) 2 != 0) imLeg a <|>
  refuseIf (idleCore l rs c && fld l (a + 8) 2 != 0) imStructure (recOf rs 4 c).off

/-- A leg entry and its core block table. -/
def legFault (l : List Byte) (s : State) (rs : List Rec) (e : Nat) : Option Refuse :=
  let r := dieRec rs 1
  let n := fld l (r.body + 4) 4
  match imageOff l s (fld l (r.body + 8) 8 + 64 * e) 64 with
  | none => some (imLeg, r.off)
  | some a =>
    let w := fld l a 4
    let ct := fld l (a + 16) 8
    refuseIf (decide (w < 128) || decide (1048576 < w) || decide (legBudget w (imReserve l rs) < fld l (a + 4) 4) || fld l (a + 8) 4 == 0 ||
      decide (4 ≤ fld l (a + 12) 4) || decide (e < fld l (a + 24) 2) || ct % 512 != 0 || (e + 1 == n && fld l (a + 12) 4 % 2 == 0)) imLeg a <|>
    reserved l imLeg (a + 26) 2 <|> reserved l imLeg (a + 32) 32 <|>
    match imageOff l s ct 512 with
    | none => some (imLeg, a)
    | some b => (List.range 32).findSome? fun c => coreEntryFault l rs (b + 16 * c) c

/-! ## The static validator (R90) -/

/-- A finding that never depends on what flags, counters, landings or earlier legs carry in. DIRECT_STREAM (0x27) and MASK_STREAM (0x37) are
judged by the descriptors of the image. -/
def staticCode (code : Nat) : Bool :=
  code != 0x0B && code != 0x27 && code != 0x37 && code != 0x53 && code != 0x55 && !(decide (0x41 ≤ code) && decide (code ≤ 0x44))

/-- The walk of one block: the module, for each array whether its active and its shadow set were loaded in this block, and the descriptors
that the block has armed so far. -/
structure Scan where
  s : State
  known : Vector (Bool × Bool) 2
  arms : List (BitVec 11) := []

/-- A stationary load of this block that completes before a cycle. -/
def settleLoad (issue : Nat) (u : ArrayUnit) : ArrayUnit :=
  match u.load with
  | some r => if r.complete ≤ issue then
      { u.updSet (!u.activeB) (fun x => { x with fmt := r.fmt, sparse := r.sparse, tag := r.tag }) with load := none, shadowValid := true }
    else u
  | none => u

def settle2 (c : Fin 32) (issue : Nat) (x : Scan) : Scan :=
  { x with
    s := x.s.updCore c fun k => { k with arrays := k.arrays.map (settleLoad issue) }
    known := Vector.ofFn fun j =>
      match ((x.s.core c).arr j).load with
      | some r => if r.complete ≤ issue then ((x.known.get j).1, true) else x.known.get j
      | none => x.known.get j }

/-- The active set of an array as dense or as sparse. -/
def asSparse (c : Fin 32) (j : Fin 2) (b : Bool) (s : State) : State :=
  s.updArr c j fun u => u.updSet u.activeB fun x => { x with sparse := b }

/-- The operand formats of a pass fit no active set at all (R103). -/
def neverLegal (w : CmdWords) : Bool :=
  (w.opcode == 0x12 || w.opcode == 0x13 || w.opcode == 0x14) &&
    !((List.range 16).any fun f => [false, true].any fun sp =>
      passLegal (psFmt w) (BitVec.ofNat 4 f) sp (w.opcode == 0x13) (w.opcode == 0x14))

/-- An engine may hold an armed stream of a kind when the block comes to a command: one that the block has armed, or a persistent one that an
earlier leg may have armed (R214, R217). -/
def mayHold (k : Core) (x : Scan) (g : Fin 4) (p : BitVec 512 → Bool) : Bool :=
  k.descs.any fun d => d.1 / 512 == g.val && p d.2 && (sdPersist d.2 || x.arms.contains (BitVec.ofNat 11 d.1))

/-- No stream of the image can feed a direct pass: none of its array's with rows of its slot (R114, R219). -/
def neverFed (c : Fin 32) (w : CmdWords) (x : Scan) : Bool :=
  let j := arrayOfTarget (targetOf w)
  let u := (x.s.core c).arr j
  let slots := if (x.known.get j).1 then [movingSlot (psFmt w) (u.active.sparse && passLegal (psFmt w) u.active.fmt true false false) false]
    else [movingSlot (psFmt w) false false, movingSlot (psFmt w) true false]
  w.opcode == 0x14 && !mayHold (x.s.core c) x (psEngine w) fun d => sdKind d == 3 && sdArray d == j.val && slots.contains (sdRun d)

/-- No mask stream of the image can serve a chain (R167). -/
def neverMasked (c : Fin 32) (w : CmdWords) (x : Scan) : Bool :=
  let none_ := fun (g : Option (Fin 4)) (kind : Nat) => match g with
    | some g => !mayHold (x.s.core c) x g fun d => sdKind d == kind
    | none => false
  w.opcode == 0x20 && (none_ (chMin w) 4 || none_ (chMout w) 5)

/-- The findings on a command: those that hold whatever an unknown active set is. -/
def staticCodes (c : Fin 32) (e : LookEntry) (x : Scan) : List Nat :=
  let j := arrayOfTarget (targetOf e.words)
  let onSet := (targetOf e.words == 1 || targetOf e.words == 2) && !(x.known.get j).1
  let l := (fieldChecks x.s c e).filter staticCode
  if onSet then
    let y := fieldChecks (asSparse c j true x.s) c e
    l.filter fun code => y.contains code && code != 0x26
  else l

/-- The least read cycles of a store hand-over: one for each block that it hands over. -/
def leastReads (w : CmdWords) : List Nat := if w.opcode = 0x31 then List.replicate (bits (opA w) 20 16) 0 else []

/-- Two store hand-overs of the block read at the same time, however short their blocks are (R211). -/
def handsMeet (c : Fin 32) (e : LookEntry) (s : State) : Bool :=
  e.words.opcode == 0x31 && sdKind (tget 0 (s.core c).descs (cmdDesc e.words).toNat) == 2 &&
    handOverlap (s.core c) (engOf ((cmdDesc e.words).toNat / 512)) e.issue (leastReads e.words).length

def staticBad (c : Fin 32) (e : LookEntry) (x : Scan) : Bool :=
  let j := arrayOfTarget (targetOf e.words)
  opIllegal e.words || !(staticCodes c e x).isEmpty || (absentArray x.s c e.words).isSome || neverLegal e.words ||
    (e.words.opcode == 0x10 && (formatMismatch x.s c e.words).isSome) || handsMeet c e x.s || neverFed c e.words x || neverMasked c e.words x ||
    (decide (e.words.opcode ≠ 0x10) && (x.known.get j).1 && (formatMismatch x.s c e.words).isSome)

/-- A command's effect on what later commands of its block are checked against; `e.skip`: its predicate decides at run time. -/
def staticEffect (c : Fin 32) (e : LookEntry) (x : Scan) : Scan :=
  let w := e.words
  let j := arrayOfTarget (targetOf w)
  let held := if w.opcode = 0x31 then e.issue else heldUntil x.s c e
  let s := x.s.updCore c (keepSkipped (leastReads w) e)
  let y : Scan :=
    match w.opcode, e.skip with
    | 0x10, false => { x with s := effStatLoad c j e s, known := x.known.set j ((x.known.get j).1, false) }
    | 0x10, true => { x with s := s.updArr c j fun u => { u with shadowValid := true }, known := x.known.set j ((x.known.get j).1, false) }
    | 0x11, false => { x with
        s := s.updArr c j fun u => { u with activeB := !u.activeB, shadowValid := false }
        known := x.known.set j ((x.known.get j).2, (x.known.get j).1) }
    | 0x11, true => { x with s := s.updArr c j fun u => { u with shadowValid := true }, known := x.known.set j (false, false) }
    | 0x12, false => { x with s := effPass false false c j e s }
    | 0x13, false => { x with s := effPass true false c j e s }
    | 0x14, false => { x with s := effPass false true c j e s }
    | 0x15, false => { x with s := effAcbFill c j e s }
    | 0x30, _ => { x with s := s, arms := cmdDesc w :: x.arms }
    | _, _ => { x with s := s }
  { y with s := y.s.updCore c fun k => { slotTaken held e k with ahead := [] } }

/-- A TURN into scratchpad whose destination is not in a class-1 range (R350). -/
def turnOutside (l : List Byte) (rs : List Rec) (c : Fin 32) (w : CmdWords) : Bool :=
  w.opcode == 0x40 && tnDir w == 0 &&
    (List.range (64 * tnTC w)).any fun r => !inClass l rs c.val 1 (tnSp w + tnSpPitch w * r) (64 * tnTR w * tnEs w)

/-- The commands of a block from word `i` on; `off` gives a word's image offset. -/
def blockFault (l : List Byte) (rs : List Rec) (c : Fin 32) (t : Tbl W256) (off : Nat → Nat) : Nat → Nat → Nat → Scan → Option Refuse
  | 0, _, _, _ => none
  | fuel + 1, i, prev, x =>
    if (x.s.core c).blockWords ≤ i then none
    else
      let w := cmdAt t i
      let issue := prev + deltaOf w
      let e : LookEntry :=
        { words := w, idx := i, issue := issue, skip := decide (pselOf w ≠ 31), staleFlag := false, buoysArmed := true }
      let x := settle2 c issue x
      refuseIf (staticBad c e x) imCommand (off i) <|>
      refuseIf (turnOutside l rs c w) imStructure (off i) <|>
      blockFault l rs c t off fuel (i + nwordsOf w) issue (staticEffect c e x)

/-- The core before a block's first command: idle engines, stationary sets that an earlier leg may have left. -/
def scanStart (leg : LegEntry) (c : Fin 32) (words : Nat) (v : State) : Scan :=
  { s := { v.updCore c (fun k => { k with blockWords := words, arrays := Vector.replicate 2 { shadowValid := true } }) with
           seq := { v.seq with cur := { leg := leg } } }
    known := Vector.replicate 2 (false, false) }

/-- A core's block as a core block entry names it: its words, their image offsets and their number; none where no section holds it. -/
def imageBlock (l : List Byte) (s : State) (entry : Nat) : Option (Tbl W256 × List Nat × Nat) :=
  let n := fld l (entry + 8) 2
  ((List.range n).mapM fun i => imageOff l s (fld l entry 8 + 32 * i) 32).map fun offs =>
    (putWords [] 0 (offs.map fun o => (BitVec.ofNat 256 (fld l o 32) : W256)), offs, n)

/-- A core's block of a leg entry. -/
def coreBlockFault (l : List Byte) (s v : State) (rs : List Rec) (leg : LegEntry) (entry : Nat) (c : Fin 32) : Option Refuse :=
  match imageBlock l s entry with
  | none => some (imCommand, entry)
  | some (t, offs, n) => blockFault l rs c t (fun i => offs.getD i 0) (n + 1) 0 0 (scanStart leg c n v)

/-- Every block of a leg entry. -/
def commandFaults (l : List Byte) (s v : State) (rs : List Rec) (e : Nat) : Option Refuse :=
  match imageOff l s (fld l ((dieRec rs 1).body + 8) 8 + 64 * e) 64 with
  | none => none
  | some a =>
    match imageOff l s (fld l (a + 16) 8) 512 with
    | none => none
    | some b => allCores.findSome? fun c => coreBlockFault l s v rs (legOf (part l a 64)) (b + 16 * c.val) c

/-! ## Guarding waits (R38, R354; the rules by which one is told are log entry 20) -/

/-- The commands of a block from word `i` on, with their word indices. -/
def blockCmds (t : Tbl W256) (n : Nat) : Nat → Nat → List (Nat × CmdWords)
  | 0, _ => []
  | fuel + 1, i => if n ≤ i then [] else (i, cmdAt t i) :: blockCmds t n fuel (i + nwordsOf (cmdAt t i))

/-- The commands of all blocks of a core, with their image offsets. -/
def coreCmds (l : List Byte) (s : State) (rs : List Rec) (c : Fin 32) : List (Nat × CmdWords) :=
  let r := dieRec rs 1
  (List.range (fld l (r.body + 4) 4)).flatMap fun e =>
    match imageOff l s (fld l (r.body + 8) 8 + 64 * e) 64 with
    | none => []
    | some a =>
      match (imageOff l s (fld l (a + 16) 8) 512).bind fun b => imageBlock l s (b + 16 * c.val) with
      | some (t, offs, n) => (blockCmds t n (n + 1) 0).map fun x => (offs.getD x.1 0, x.2)
      | none => []

/-- The counters and buoys on which commands wait: kind and index (Table 3.3). -/
def waitsOf (l : List (Nat × CmdWords)) : List (Nat × Nat) :=
  l.flatMap fun x => [wait0Of x.2, wait1Of x.2].filterMap fun f =>
    if waitKind f = 2 ∨ waitKind f = 3 then some (waitKind f, waitIndex f) else none

/-- The sender of a receive endpoint is on another module. -/
def epRemote (v : State) (d : W256) : Bool := epIsRecv d && (senderOf v d).1 != v.module

/-- A wait that can guard a landing: on the counter that tells of it, or on a bell word, which a buoy watches (R38). -/
def guards (counter : Option (BitVec 5)) (waits : List (Nat × Nat)) : Bool :=
  waits.any fun f => f.1 == 3 || (match counter with | some n => f == (2, n.toNat) | none => false)

/-- The counter that tells of landings in the ring of a receive endpoint. -/
def arrivalOf (d : W256) : Option (BitVec 5) := if epArrEn d then some (epArrCounter d) else none

/-- A command that takes what lands from another module without a guarding wait: a release of messages that no wait of its core, in the order of
the legs, precedes or carries, and a READ on whose value no command of its core waits. -/
def unguarded (v : State) (c : Fin 32) (before all : List (Nat × Nat)) (w : CmdWords) : Bool :=
  match w.opcode with
  | 0x51 =>
    let d := ((v.core c).ep ((opA w).extractLsb' 0 7)).desc
    epRemote v d && !guards (arrivalOf d) before
  | 0x60 =>
    let r := (bellOpReq v c 0 w).1
    r.op == 3 && haModule r.addr != v.module && !guards r.ack all
  | _ => false

/-- The first command of a core without its guarding wait; `before` gathers the waits so far. -/
def firstUnguarded (v : State) (c : Fin 32) (all : List (Nat × Nat)) : List (Nat × Nat) → List (Nat × CmdWords) → Option Nat
  | _, [] => none
  | before, x :: t =>
    let before := before ++ waitsOf [x]
    if unguarded v c before all x.2 then some x.1 else firstUnguarded v c all before t

/-- The first endpoint of a core whose ring another module fills and on which no command of the core waits. -/
def ringUnguarded (l : List Byte) (v : State) (rs : List Rec) (c : Fin 32) (all : List (Nat × Nat)) : Option Nat :=
  ((recOf rs 7 c).entries 40).find? fun a =>
    let d := ((v.core c).ep (BitVec.ofNat 7 (fld l a 8))).desc
    epRemote v d && !guards (arrivalOf d) all

/-- A window takes writes of other modules, and no core that it can concern waits on a counter or a buoy. -/
def windowUnguarded (waits : List (Fin 32 × Nat × Nat)) (w : W256) : Bool :=
  bit (winPerm w) 1 && decide (winSize w ≠ 0) &&
    !(waits.any fun x => bits w 51 48 != 1 || x.1 == coreOf (bits w 47 0 / 2 ^ 40))

/-- A landing without a guarding wait. -/
def guardFault (l : List Byte) (s v : State) (rs : List Rec) : Option Refuse :=
  let all := allCores.map fun c => (c, coreCmds l s rs c)
  (all.findSome? fun x => (firstUnguarded v x.1 (waitsOf x.2) [] x.2).map fun a => (imCommand, a)) <|>
  (all.findSome? fun x => (ringUnguarded l v rs x.1 (waitsOf x.2)).map fun a => (imCommand, a)) <|>
    refuseIf (v.fab.windows.any fun w => windowUnguarded (all.flatMap fun x => (waitsOf x.2).map fun y => (x.1, y)) w.2)
      imCommand (dieRec rs 13).off

/-! ## The parameter group table (R186, R187, Tables 7.2 to 7.4) -/

/-- A RULE_CFG word that Table 7.3 or Table 7.4 does not allow. -/
def ruleBad (w : U32) : Bool :=
  let rule := bits w 7 0
  let work := bits w 23 20
  let ns := bits w 27 24
  bits w 31 28 != 0 || bits w 11 9 != 0 || decide (5 < rule) || (if rule = 4 then ns == 0 else ns != 0) ||
    !([0x0, 0x1, 0x8, 0x9, 0xA].contains work) || (rule == 5) != (work == 0xA) || bits w 19 16 != 0xB ||
    !(bits w 15 12 == 0x8 || bits w 15 12 == 0xB)

/-- A word of the table as the image sets it: 0 in a ZERO range, none where no section holds it. -/
def paramWord (l : List Byte) (s : State) (a : Nat) : Option (Nat × Nat) :=
  match imageOff l s a 4 with
  | some o => some (fld l o 4, o)
  | none =>
    ((usedOf l s 6).find? fun x =>
      let h := x.home l s
      let o := offsetOf h.1 a
      decide (h.2 ≤ o) && decide (o + 4 ≤ h.2 + x.span l)).map fun x => (0, x.off)

def paramFault (l : List Byte) (s : State) (rs : List Rec) : Option Refuse :=
  let r := dieRec rs 15
  if r.len = 0 then none
  else
    let base := fld l r.body 8
    (List.range 4096).findSome? fun g =>
      match paramWord l s (base + 4 * g), paramWord l s (base + 16384 * 15 + 4 * g) with
      | some x, some y => refuseIf (ruleBad (BitVec.ofNat 32 x.1)) imParameter x.2 <|> refuseIf (y.1 != 0) imParameter y.2
      | _, _ => some (imParameter, r.off)

end Sys2Proof.Machine
end

