-- ==== Sys2Proof/Machine/Loader.lean ====
section
/-!
DEFINITION. Loading an image (R349, R353 to R356): the two passes of the loader, the state a load leaves (R79, R112, R151, R257, R407)
and the key lock.
-/
namespace Sys2Proof.Machine

/-! ## Acceptance (R353) -/

/-- The end of a load that was refused or stopped: its result, the failing item, one IMAGE_REFUSED entry. -/
def endLoad (r : Refuse) (s : State) : State :=
  logErr errImageRefused none (BitVec.ofNat 64 r.1) (BitVec.ofNat 64 r.2)
    { s with loader := { s.loader with busy := false, result := BitVec.ofNat 8 r.1, faultOff := BitVec.ofNat 64 r.2 } }

/-- The loader takes a LOAD: EMPTY, hall time LOCKED, the primary path budget at most 500 ps (R23), no scrub outstanding, not DIRTY, and
no load under way. -/
def State.loadable (s : State) : Bool :=
  s.unlocked && s.time.osc == .locked && decide (bits s.time.pathBudget 15 0 ≤ 500) && s.pwr.phase == .ready &&
    !s.pwr.killPending && !s.loader.dirty

/-- LOAD (R353): refused with STATE, or accepted. A LOAD during a load leaves that load alone: IMG_CMD is not writable then. -/
def execImageLoad (s : State) : Host.Outcome State Fault Refusal :=
  .next <|
    if s.loader.busy then s
    else if s.loadable then
      { s with loader := { s.loader with busy := true, stepNo := 0, pass := false, stagedTouched := false } }
    else endLoad (0x01, 0) s

/-! ## The staged image -/

/-- One block of the staged image: corrected where it can be; an uncorrectable one makes its row a sparing candidate. -/
def stageBlock (a n : Nat) (s : State) : Option (List Byte) × State :=
  match fathomDecode (errOf s a) with
  | .clean e => (some (applyErr e (a % 64) (dramBytes s a n)), s)
  | .corrected e => (some (applyErr e (a % 64) (dramBytes s a n)), noteCorrected a s)
  | .uncorrectable => (none, ueRow a s)

/-- The image, or the image offset of its first uncorrectable block. -/
def stageRead (base : Nat) : List (Nat × Nat) → State → Except Nat (List Byte) × State
  | [], s => (.ok [], s)
  | p :: t, s =>
    match stageBlock p.1 p.2 s with
    | (none, s) => (.error (p.1 / 64 * 64 - base), s)
    | (some x, s) =>
      let (r, s) := stageRead base t s
      (match r with | .ok y => .ok (x ++ y) | .error o => .error o, s)

/-- The bytes this load reads: free ones where the host has written the staged image since its acceptance (R355). -/
def stagedImage (s : State) : Except Nat (List Byte) × State :=
  let (r, s) := stageRead s.stageBase (pieces 64 s.stageBase s.stageLen) s
  (match r with
   | .ok l => .ok (if s.loader.stagedTouched then (List.range l.length).map Config.stagedByte else l)
   | .error o => .error o, s)

/-! ## The check pass (R354) -/

/-- Checks 7 to 11 on the image `l`: the patched view and its records, or the refusal. -/
def checkRecords (l : List Byte) (s : State) : Except Refuse (List Byte × List Rec) :=
  match relocate l s (relocEntries l s) l with
  | .error r => .error r
  | .ok v =>
    match recsAt v s.imgPosition with
    | .error a => .error (imStructure, a)
    | .ok rs =>
      let d := shiftOf l s
      let m := foldS (fun r s => if r.typ = 12 then s else writeRec v d r s) rs s
      let n := fld v ((dieRec rs 1).body + 4) 4
      match recOrderFault v rs <|> rs.findSome? (recFault v rs s m d) <|> (List.range n).findSome? (legFault v s rs) <|>
          (List.range n).findSome? (commandFaults v s m rs) <|> guardFault v s m rs <|> paramFault v s rs with
      | some r => .error r
      | none => .ok (v, rs)

/-- The check pass in its order. -/
def checkImage (l : List Byte) (n : Nat) (s : State) : Except Refuse (List Byte × List Rec) :=
  match trailerFault l n <|> layoutFault l n <|> refuseIf (keySlotOf l s).isNone imKey 512 <|> signatureFault l n <|>
      fuseFault l s <|> positionFault l s <|> regionFault l s with
  | some r => .error r
  | none => checkRecords l s

/-! ## The write pass (R354) -/

/-- The placed sections of a type, patched. -/
def writePlaced (v : List Byte) (typ : Nat) (s : State) : State :=
  foldS (fun x s => placeBytes (x.home v s).1 (x.home v s).2 (part v (x.off + 8) (x.len - 8)) s) (usedOf v s typ) s

/-- ZERO ranges, then CONSTANT, LEG_TABLE and COMMANDS; the mooring table and the harbor regions. -/
def writeSections (v : List Byte) (s : State) : State :=
  let s := zeroRanges ((usedOf v s 6).map fun x => ((x.home v s).1, (x.home v s).2, x.span v)) s
  let s := writePlaced v 4 (writePlaced v 3 (writePlaced v 5 s))
  zeroRanges ((0, (pair s.host.moorBaseLo s.host.moorBaseHi).toNat, 2 ^ 24) ::
    s.host.harbors.map fun e => (0, e.2.base.toNat, e.2.recSize.toNat * e.2.count.toNat)) s

/-- A core as a load leaves it (R79, R112, R151, R257): scratchpad, ACBs, command bank 1 and the data windows keep what they hold. -/
def loadedCore (b : CoreBlock) (words : List W256) (k : Core) : Core :=
  { helmEntry := some b, bank0 := putWords k.bank0 0 words, bank1 := k.bank1, bankPtr := k.bankPtr, bankData := k.bankData
    descs := k.descs, descPtr := k.descPtr, descData := k.descData, descState := k.descState, descLead := k.descLead
    descHanded := k.descHanded, descFreed := k.descFreed
    bellDescs := k.bellDescs, buoyPtr := k.buoyPtr, buoyData := k.buoyData
    queryLo := k.queryLo, queryHi := k.queryHi, queryMask := k.queryMask
    eps := k.eps, epPtr := k.epPtr, epData := k.epData, epLatch := k.epLatch
    spad := k.spad, arrays := k.arrays.map fun u => { acb := u.acb } }

/-- Each core's block entry of the first leg, and its block, which goes into command bank 0 (R87). -/
def loadBanks (leg : LegEntry) (s : State) : State :=
  foldS (fun c s =>
    let (e, s) := dramRead rqHelm (leg.coreTable.toNat + 16 * c.val) 16 s
    let b := coreBlockOf (e.getD [])
    let (w, s) := dramRead rqHelm b.block (32 * b.words) s
    s.updCore c (loadedCore b (blockWords b.words (w.getD [])))) allCores s

/-- The table set of leg entry 0 goes into the shadow tables (R295). -/
def loadTables (s : State) : State :=
  let n := s.setOfLeg 0
  let (b, s) := dramRead rqFabric (tget 0 s.fab.setBase n).toNat 262144 s
  { s with fab := { s.fab with
      shadow := tableEntries 0 (b.getD []), shadowSet := n, shadowReady := true, tablesLive := false, drainUntil := none
      active := [], previous := [], activeSet := 0, copying := none } }

/-- The buoys of record 17 (R238, R257). -/
def armBuoys (v : List Byte) (rs : List Rec) (s : State) : State :=
  foldS (fun a s => s.updCore (coreOf (fld v a 1)) fun k => k.updBuoy (BitVec.ofNat 6 (fld v (a + 1) 1))
    (armBuoy (fld v (a + 2) 1 == 1) (BitVec.ofNat 64 (fld v (a + 8) 8)) (BitVec.ofNat 64 (fld v (a + 16) 8)) 0))
    ((dieRec rs 17).entries 32) s

/-- Fabric state and counters of a job start anew; what belongs to the hall or to other partitions stays. -/
def freshFabric (s : State) : State :=
  { s with fab := { s.fab with
      c0Dup := 0, winNacks := 0, queues := [], onMesh := [], seqOut := [], sentAt := [], pathsIn := [], landing := [], awaiting := []
      accepted := [], expIn := [], expWait := [], expBusy := [], haltSeen := [] } }

/-- Counters whose meaning says "since load" become 0 (R407), with the slip log, the regions' counts and the ingress unit's lists. -/
def freshCounters (s : State) : State :=
  { s with
    time := { s.time with slipCount := 0, slipLog := [], slipTotal := 0, slipIrqSent := false }
    clk := { s.clk with
      stretchCount := 0, stepsUp := 0, stepsDown := 0, holdCount := 0, holdTime := 0, holdMax := 0, hold := none, mesh := [], reqs := []
      regions := s.clk.regions.map fun r => { r with requests := 0, absorbed := 0, stretches := 0, lastStretch := none } }
    stks := s.stks.map fun c => { c with tideDouble := 0 }
    host := { s.host with
      openSessions := [], closing := [], listedFinal := [], openedSince := 0, musters := [], gapMarks := [], relaysIn := []
      sessions := [], tasks := s.host.tasks.filter fun t => match t.work with | .moor _ _ => true | _ => false } }

/-- The leg entries of a load, in order (R85). -/
def loadLegs : List Nat → State → List LegEntry × State
  | [], s => ([], s)
  | e :: t, s =>
    let r := dramRead rqHelm (s.legTable + 64 * e) 64 s
    let l := loadLegs t r.2
    (legOf (r.1.getD []) :: l.1, l.2)

/-- The leg sequencer before its first leg: it has read the leg table, the walk stands before the first entry, and every loop_left is at its
LOOP_COUNT (R85). -/
def loadSequencer (l : List Byte) (s : State) : State :=
  let (legs, s) := loadLegs (List.range s.seq.tableLen.toNat) s
  let first : Walk :=
    { entry := 0, rep := 0, leg := legs.getD 0 {}
      left := legs.zipIdx.foldl (fun t x => tset 0 t x.2 x.1.loopCount.toNat) [], ended := false }
  { s with seq :=
      { state := s.seq.state, cfg := s.seq.cfg, tableBaseLo := s.seq.tableBaseLo, tableBaseHi := s.seq.tableBaseHi, tableLen := s.seq.tableLen
        armLo := s.seq.armLo, next := first, due := first, legs := legs, floorLegs := s.seq.floorLegs
        programId := BitVec.ofNat 64 (fld l 24 8), partSize := BitVec.ofNat 16 (imPart l), origin := BitVec.ofNat 12 s.imgOrigin } }

/-- The first mark of IMG_FIRST_MARK, as a write of LEG_ARM_HI would arm it (R354); LEG_ARM_LO stays as the host left it. -/
def armFirst (s : State) : State :=
  if pair s.loader.firstMarkLo s.loader.firstMarkHi = 0 then s
  else
    match execLegArmHiWrite s.loader.firstMarkHi { s with seq := { s.seq with armLo := s.loader.firstMarkLo } } with
    | .next t => { t with seq := { t.seq with armLo := s.seq.armLo } }
    | _ => s

/-- The write pass over the image `l`, its patched view `v` and its records, in the order of R354: LOADED comes last, and with it the lock of
every RWL register. -/
def writeImage (l v : List Byte) (rs : List Rec) (s : State) : State :=
  let s := foldS (fun r s => writeRec v (shiftOf l s) r s) rs s
  let s := writeSections v (freshCounters (freshFabric s))
  let s := loadSequencer l s
  let s := armBuoys v rs (loadTables (loadBanks s.seq.next.leg s))
  armFirst { s with
    seq := { s.seq with state := .loaded }
    loader := { s.loader with
      busy := false, stepNo := 0x12, result := 0, faultOff := 0, keySlot := BitVec.ofNat 2 ((keySlotOf l s).getD 0) } }

/-- A write pass that met an uncorrectable block when it had reached a step (R355): the records before that step are written, and
after the last of them the sections too. The block's row is a sparing candidate (R279). -/
def stopWrite (l v : List Byte) (rs : List Rec) (stepNo : Byte) (off : U64) (s : State) : State :=
  let s1 := foldS (fun r s => if r.typ < stepNo.toNat then writeRec v (shiftOf l s) r s else s) rs s
  let s2 := if 0x11 ≤ stepNo.toNat then writeSections v s1 else s1
  let s3 := ueRow (s2.stageBase + off.toNat) s2
  endLoad (imMemory, off.toNat) { s3 with loader := { s3.loader with dirty := true, stepNo := stepNo } }

/-- The check pass is over: the load is refused, or the write pass begins. -/
def endCheck (s : State) : State :=
  match stagedImage s with
  | (.error o, s) => endLoad (imMemory, o) s
  | (.ok l, s) =>
    match checkImage l s.stageLen s with
    | .error r => endLoad r s
    | .ok _ => { s with loader := { s.loader with pass := true, regions := (regionsOf l s).map fun x => x.2 } }

/-- The write pass is over, or has stopped at an uncorrectable block of the staged image. -/
def endWrite (stop : Option (Byte × U64)) (s : State) : State :=
  let dirty := fun (s : State) => { s with loader := { s.loader with dirty := true } }
  match stagedImage s with
  | (.error o, s) => endLoad (imMemory, o) (dirty s)
  | (.ok l, s) =>
    match checkImage l s.stageLen s with
    | .error r => endLoad (imMemory, r.2) (dirty s)
    | .ok (v, rs) =>
      match stop with
      | some (k, o) => if k.toNat ≤ 0x12 ∧ o.toNat < s.stageLen then stopWrite l v rs k o s else s
      | none => writeImage l v rs s

/-- LOAD_COMPLETE (R354, R355): the pass that is under way ends: the check pass in a refusal or in the write pass, the write pass in the end of
the load (log entry 29). `stop` is an uncorrectable block that the write pass meets: the step it has reached and the block's image
offset. -/
def execLoadComplete (stop : Option (Byte × U64)) (s : State) : Host.Outcome State Fault Refusal :=
  .next (if ¬ s.loader.busy then s else if s.loader.pass then endWrite stop s else endCheck s)

/-- KEY_LOCK (R349): LOCK stays 1 until standby power is removed. -/
def execKeyLock (s : State) : Host.Outcome State Fault Refusal :=
  .next (if s.unlocked then { s with loader := { s.loader with keyCfg := setBit s.loader.keyCfg 31 true } } else s)

end Sys2Proof.Machine
end

