-- ==== Sys2Proof/Machine/Regs.lean ====
section
/-!
DEFINITION. What each register of BAR0 reads (R400 to R414, Tables 1.5 to 16.7), and the copies that the data windows take.
-/
namespace Sys2Proof.Machine

/-! ## Small parts -/

/-- Low 32 bits of a number. -/
def w32 (n : Nat) : U32 := BitVec.ofNat 32 n
/-- 32-bit word `i` of a wide register. -/
def wordAt {n : Nat} (w : BitVec n) (i : Nat) : U32 := w.extractLsb' (32 * i) 32
/-- A wide register with 32-bit word `i` replaced. -/
def setWord {n : Nat} (w : BitVec n) (i : Nat) (v : U32) : BitVec n := setBits w (32 * i + 31) (32 * i) v.toNat
/-- 32-bit word `i` of a byte string. -/
def wordOf (l : List Byte) (i : Nat) : U32 := w32 (ofBytes ((l.drop (4 * i)).take 4))
/-- The entry a ring of `n` holds at an index, oldest entry first in the list (R406). -/
def ringAt {α : Type} (n : Nat) (l : List α) (total i : Nat) : Option α := l[(i + n - (total - l.length) % n) % n]?
/-- A ring pointer: entries written above, next index below (R406). -/
def ringPtr (k total : Nat) : U32 := w32 (total * 2 ^ k + total % 2 ^ k)
def flagBit (b : Bool) (i : Nat) : Nat := b2n b * 2 ^ i

def timeCode : TimeState → Nat
  | .reset => 0 | .freeRun => 1 | .sounding => 2 | .acquire => 3 | .locked => 4 | .holdover => 5
def legCode : LegState → Nat
  | .empty => 0 | .loaded => 1 | .armed => 2 | .running => 3 | .gated => 4 | .done => 5 | .halted => 6
def portCode : PortState → Nat
  | .down => 0 | .train => 1 | .align => 2 | .sound => 3 | .up => 4 | .failed => 5
def phaseCode : PwrPhase → Nat
  | .standby => 0 | .ramp => 1 | .stackInit => 2 | .ports => 3 | .sounding => 4 | .locking => 5 | .scrub => 6 | .ready => 7
  | .parked => 8 | .suspended => 9 | .dieOff => 10 | .standbyRelay => 11 | .killed => 12

/-- LEG_STATE.STATE as SYS_STATUS shows it: 0 while the main rails are off (Table 16.5). -/
def State.legCodeNow (s : State) : Nat := if s.pwr.mainOn then legCode s.seq.state else 0

/-! ## Identity and status (Tables 16.4, 16.5) -/

/-- ID_GRADE: the bits set in the enabled-array map (R410). -/
def State.grade (s : State) : Nat := (List.range 64).countP fun i => bit s.pwr.fuses i

/-- SYS_STATUS (R411). -/
def sysStatus (s : State) : U32 :=
  w32 (flagBit s.mgmt.halt.valid 31 + flagBit s.pwr.svcRequest 30 + flagBit s.pwr.retained 29 + flagBit s.loader.busy 28 +
    s.pwr.tier.val * 2 ^ 25 + flagBit s.pwr.mainOn 24 + phaseCode s.pwr.phase * 2 ^ 20 + flagBit s.time.outOfSpec 19 +
    timeCode s.time.osc * 2 ^ 16 + s.legCodeNow * 2 ^ 12 + s.module.toNat)

def idRead (s : State) (o : Nat) : U32 :=
  match o with
  | 0x00 => 0x53584731
  | 0x04 => Config.idVersion
  | 0x08 => w32 s.grade
  | 0x0C => wordAt serial 0
  | 0x10 => wordAt serial 1
  | 0x14 => wordAt s.pwr.fuses 0
  | 0x18 => wordAt s.pwr.fuses 1
  | 0x20 => sysStatus s
  | _ => 0

/-! ## Time domain and beacon (Tables 1.5 to 1.9) -/

/-- TIME_STATUS (Table 1.6). -/
def timeStatus (s : State) : U32 :=
  let t := s.time
  w32 (t.depth.toNat * 2 ^ 20 + t.portInUse.toNat * 2 ^ 12 + flagBit t.outOfSpec 8 + flagBit t.actingRoot 7 +
    flagBit s.backupLostBit 6 + flagBit t.onBackup 5 + flagBit t.rootChanged 4 + flagBit t.refOk 3 + timeCode t.osc)

/-- A slip log entry's 32 bytes (Table 1.9). -/
def slipBytes (e : SlipEntry) : List Byte :=
  toBytes 8 e.appliedAt.toNat ++ toBytes 8 e.mark.toNat ++ toBytes 8 e.newTime.toNat ++ toBytes 2 e.raiser.toNat ++
    toBytes 1 (e.core.toNat + flagBit e.seq 5) ++ toBytes 1 (e.k.toNat + 16 * e.kMax.toNat) ++ [e.reason] ++
    toBytes 1 (b2n e.late) ++ [0, 0]

def timeRead (s : State) (o : Nat) : U32 :=
  let t := s.time
  match o with
  | 0x00 => wordAt t.hallTime 0
  | 0x04 => wordAt t.hallTime 1
  | 0x08 => timeStatus s
  | 0x0C => t.beaconCfg
  | 0x10 => t.pathBudget
  | 0x14 => t.slipCfg
  | 0x18 => t.legCfg
  | 0x1C => t.slipCount
  | 0x20 => wordAt s.seq.mark 0
  | 0x24 => wordAt s.seq.mark 1
  | 0x28 => wordAt s.seq.nextAt 0
  | 0x2C => wordAt s.seq.nextAt 1
  | 0x30 => ringPtr 8 t.slipTotal
  | _ =>
    if 0x1000 ≤ o ∧ o < 0x3000 then
      ((ringAt 256 t.slipLog t.slipTotal ((o - 0x1000) / 32)).map fun e => wordOf (slipBytes e) (o % 32 / 4)).getD 0
    else 0

/-! ## Leg sequencer and loader (Tables 3.13, 13.5, 13.6) -/

/-- A bit for every core with a property. -/
def coreMask (s : State) (p : Core → Bool) : U32 :=
  w32 (allCores.foldl (fun n c => n + flagBit (p (s.core c)) c.val) 0)

/-- IMG_STATUS (Table 13.6). -/
def imgStatus (l : Loader) : U32 :=
  w32 (flagBit l.busy 31 + flagBit l.dirty 30 + l.keySlot.toNat * 2 ^ 24 + l.stepNo.toNat * 2 ^ 16 + flagBit l.pass 15 +
    l.result.toNat)

def seqRead (s : State) (o : Nat) : U32 :=
  let q := s.seq
  let l := s.loader
  match o with
  | 0x00 => w32 (legCode q.state)
  | 0x04 => q.cfg
  | 0x08 => q.tableBaseLo
  | 0x0C => q.tableBaseHi
  | 0x10 => q.tableLen
  | 0x14 => w32 q.cur.entry
  | 0x18 => w32 (q.cur.leg.reps.toNat - 1 - q.cur.rep)
  | 0x1C => coreMask s fun k => k.blockDone
  | 0x28 => coreMask s fun k => k.helmDone
  | 0x2C => q.lastCycle
  | 0x104 => imgStatus l
  | 0x108 => l.baseLo
  | 0x10C => l.baseHi
  | 0x110 => l.lenLo
  | 0x114 => l.lenHi
  | 0x118 => l.position
  | 0x11C => l.origin
  | 0x120 => l.firstMarkLo
  | 0x124 => l.firstMarkHi
  | 0x128 => wordAt l.faultOff 0
  | 0x12C => wordAt l.faultOff 1
  | 0x130 => wordAt q.programId 0
  | 0x134 => wordAt q.programId 1
  | 0x2C0 => l.keyCfg
  | _ =>
    if 0x140 ≤ o ∧ o < 0x1C0 then
      (if o % 8 = 0 then l.regionBaseLo.get (portOf ((o - 0x140) / 8)) else l.regionBaseHi.get (portOf ((o - 0x140) / 8)))
    else if 0x200 ≤ o ∧ o < 0x2C0 then tget 0 l.keyHash ((o - 0x200) / 4)
    else 0

/-! ## Core blocks (Tables 3.13 to 3.16, 4.12, 4.13, 6.8, 6.9, 8.11 to 8.14, 9.7 to 9.10) -/

/-- The halt record names this core, and the die is halted (R413). -/
def State.haltHere (s : State) (c : Fin 32) : Bool :=
  s.seq.state == .halted && !s.mgmt.halt.noCore && s.mgmt.halt.core.toNat == c.val

/-- R414: the registers show a command of the current block. -/
def State.blockShown (s : State) : Bool :=
  match s.seq.state with
  | .empty | .loaded | .armed => false
  | _ => s.seq.begun

/-- CORE_CMD_INDEX (R414). -/
def coreCmdIndex (s : State) (c : Fin 32) : Nat :=
  let k := s.core c
  if !s.blockShown then 0 else if k.blockDone then k.blockWords else k.cmdIdx

/-- CORE_ISSUE_CYCLE: the issue cycle of the command that CORE_CMD_INDEX shows (R414). -/
def coreIssueCycle (s : State) (c : Fin 32) : Nat :=
  let k := s.core c
  if !s.blockShown || k.blockDone then 0
  else k.prevIssue + deltaOf (cmdAt (k.bank s.seq.legMark.toNat) k.cmdIdx)

/-- CORE_STATUS (Table 3.14). -/
def coreStatus (s : State) (c : Fin 32) : U32 :=
  let k := s.core c
  w32 (flagBit (s.seq.state == .halted) 31 + flagBit (s.haltHere c && s.mgmt.halt.cmdValid) 30 + flagBit k.blockDone 29 +
    (s.seq.legMark.toNat % 2) * 2 ^ 28 + flagBit k.helmDone 27 + flagBit (bit s.seq.cfg 0) 26)

/-- ARR_STATUS of an enabled array (Table 4.13). -/
def arrStatus (a : ArrayUnit) : U32 :=
  let act := if a.activeB then a.setB else a.setA
  let sh := if a.activeB then a.setA else a.setB
  w32 (flagBit (!a.passes.isEmpty) 30 + flagBit a.load.isSome 29 + flagBit (a.shadowValid && a.load.isNone) 28 +
    flagBit act.sparse 27 + flagBit sh.sparse 26 + act.fmt.toNat * 2 ^ 20 + sh.fmt.toNat * 2 ^ 16 +
    a.late.toList.foldl max 0)

def arrRead (s : State) (c : Fin 32) (j : Fin 2) (o : Nat) : U32 :=
  let a := (s.core c).arr j
  if !s.arrayOn c j then (if o = 0 then 0x80000000 else 0)
  else
    match o with
    | 0x00 => arrStatus a
    | 0x04 => (if a.activeB then a.setA else a.setB).tag ++ (if a.activeB then a.setB else a.setA).tag
    | 0x08 => a.passCount
    | 0x0C => a.escCount
    | 0x10 => w32 a.escLeg.toNat
    | _ => 0

/-- VEC_STATUS (Table 6.9). -/
def vecStatus (s : State) (c : Fin 32) : U32 :=
  let l := (s.core c).vec.inFlight.filter fun r => !r.skipped
  let t := s.seq.cycle
  let span := l.filter fun r => decide (r.issue ≤ t) && decide (t ≤ r.issue + 5)
  w32 (flagBit (l.any fun r => decide (r.issue + 2 ≤ t) && decide (t ≤ r.issue + 5)) 31 +
    flagBit (decide (2 ≤ span.length)) 30 + (min 10 l.length) * 2 ^ 16)

/-- STREAM_ENG_STATUS (Table 8.12). -/
def engStatus (s : State) (c : Fin 32) (e : Fin 4) : U32 :=
  let k := s.core c
  let armed := k.streams.filter fun p => p.1 / 512 == e.val && p.2.armed
  let kindOn := fun n => armed.find? fun p => sdKind (tget 0 k.descs p.1) == n
  let t := s.seq.cycle
  w32 (flagBit (decide (0 < inFlightOf k e)) 31 +
    flagBit ((k.eng e).hands.any fun r => !r.skipped && decide (r.issue + 2 ≤ t) && decide (t ≤ r.lastRead)) 30 +
    flagBit (kindOn 3).isSome 29 + (match kindOn 3 with | some p => sdArray (tget 0 k.descs p.1) | none => 0) * 2 ^ 28 +
    flagBit (kindOn 4).isSome 27 + flagBit (kindOn 5).isSome 26 + armed.length)

/-- TURN_STATUS (Table 8.13). -/
def turnStatus (s : State) (c : Fin 32) : U32 :=
  let l := (s.core c).turn.inFlight.filter fun r => !r.skipped
  let t := s.seq.cycle
  let inward := l.filter fun r => tnDir r.words == 0 && !r.readDone
  w32 (flagBit (l.any fun r => tnDir r.words == 1 && decide (r.issue + 2 ≤ t) && decide (t ≤ r.spanEnd)) 31 +
    flagBit (!inward.isEmpty) 30 + min 4 inward.length)

/-- Rounds that the lead side has started (Table 8.14). -/
def roundsOf (d : BitVec 512) (st : Stream) : Nat := (st.lead + sdElems d - 1) / max 1 (sdElems d)

/-- STREAM_DESC_STATE (Table 8.14). -/
def descState (k : Core) (i : BitVec 11) : U32 :=
  let d := tget 0 k.descs i.toNat
  let st := k.stream i
  w32 (flagBit st.armed 31 + flagBit st.stopping 30 + flagBit (decide (max 1 (roundsOf d st) < st.bases.length)) 29 +
    flagBit st.faulted 28 + sdKind d * 2 ^ 16 + roundsOf d st % 65536)

/-- BELL_STATUS (Table 9.10): operations of the last 1,000 ns and armed buoys. -/
def bellStatus (s : State) (c : Fin 32) : U32 :=
  let k := s.core c
  w32 (min 255 (k.bellTimes.filter fun t => decide (s.now < t.toNat + 1000)).length * 256 +
    (k.buoys.filter fun e => e.2.armed).length)

/-- A buoy's record (Table 9.7); no rule gives a record to a buoy that was never armed, and it reads zero. -/
def buoyBytes (b : Buoy) : List Byte :=
  toBytes 8 b.addr.toNat ++ toBytes 8 b.value.toNat ++ toBytes 8 b.copy.toNat ++ toBytes 8 b.lastTime.toNat ++
    toBytes 2 b.lastModule.toNat ++ toBytes 1 b.lastCore.toNat ++
    toBytes 1 (b2n b.armed + 2 * b2n b.cmpEq + 4 * b2n b.valid + 8 * b2n b.satisfied) ++ toBytes 2 b.lastCmd.toNat ++
    List.replicate 10 0

/-- A bell log entry's 32 bytes (Table 9.8). -/
def bellLogBytes (e : BellLogEntry) : List Byte :=
  toBytes 8 e.addr.toNat ++ toBytes 8 e.newValue.toNat ++ toBytes 8 e.time.toNat ++ toBytes 2 e.module.toNat ++
    toBytes 1 e.core.toNat ++ toBytes 1 (e.op.toNat + 4 * b2n e.express) ++ toBytes 2 e.cmd.toNat ++ [0, 0]

/-- The buoys of a core that watch an address (R261). -/
def queryMask (k : Core) : U64 :=
  let a := pair k.queryLo k.queryHi
  k.buoys.foldl (fun m e => if e.2.armed && e.2.addr == a then setBit m e.1 true else m) 0

/-- CH_STATUS (Table 9.10). -/
def chStatus (k : Core) : U32 :=
  let on := k.eps.filter fun e => e.2.open_
  w32 (flagBit (k.eps.any fun e => e.2.closedPeer) 31 + (on.filter fun e => epIsRecv e.2.desc).length * 256 +
    (on.filter fun e => epIsSend e.2.desc).length)

/-- A register of the endpoint latch that a read of CH_EP_DATA0 takes (R261). -/
def epLatchRead (e : Endpoint) (o : Nat) : U32 :=
  let send := epIsSend e.desc
  match o with
  | 0x608 => w32 (flagBit e.open_ 31 + flagBit (!e.open_ && epRole e.desc != 0) 30 + flagBit e.closedPeer 29 +
      flagBit e.staged.isSome 28 + epRole e.desc)
  | 0x60C => w32 (if send then e.wp else e.rp)
  | 0x610 => w32 (if send then e.credits else e.landed.length)
  | 0x614 => e.sent
  | 0x618 => e.landedCount
  | 0x61C => e.stall
  | 0x620 => e.dropGen
  | 0x624 => e.dropClosed
  | _ => 0

/-- A core block register by its offset in the block. -/
def coreRead (s : State) (c : Fin 32) (o : Nat) : U32 :=
  let k := s.core c
  if o < 0x60 then
    match o with
    | 0x00 => coreStatus s c
    | 0x04 => if s.haltHere c then w32 s.mgmt.halt.reason.toNat else 0
    | 0x08 => w32 (coreCmdIndex s c % 16384)
    | 0x0C => w32 (coreIssueCycle s c)
    | 0x10 => w32 k.preds.toNat
    | 0x14 => wordAt k.flags 0
    | 0x18 => wordAt k.flags 1
    | 0x1C => w32 ((k.arr 1).doneFlag.toNat * 256 + (k.arr 0).doneFlag.toNat)
    | 0x20 => w32 (k.untracked.toNat * 65536 + k.scoreboard.length)
    | 0x24 => k.skipCount
    | 0x28 => k.bankPtr
    | _ => if 0x40 ≤ o then wordAt k.bankData ((o - 0x40) / 4) else 0
  else if 0x100 ≤ o ∧ o < 0x180 then w32 (k.counters.get (coreOf ((o - 0x100) / 4))).toNat
  else if 0x200 ≤ o ∧ o < 0x220 then arrRead s c 0 (o - 0x200)
  else if 0x220 ≤ o ∧ o < 0x234 then arrRead s c 1 (o - 0x220)
  else if 0x300 ≤ o ∧ o < 0x310 then
    match o with
    | 0x300 => vecStatus s c
    | 0x304 => k.vec.cmdCount
    | 0x308 => k.vec.nfCount
    | _ => k.vec.lastDone
  else if 0x400 ≤ o ∧ o < 0x440 then
    let e := engOf ((o - 0x400) / 16)
    match o % 16 with
    | 0 => engStatus s c e
    | 4 => (k.eng e).landed
    | 8 => (k.eng e).sent
    | _ => (k.eng e).holds
  else if 0x440 ≤ o ∧ o < 0x4C0 then
    match o with
    | 0x440 => turnStatus s c
    | 0x444 => k.turn.count
    | 0x448 => k.fillDefer
    | 0x480 => k.descPtr
    | 0x484 => k.descState
    | 0x488 => k.descLead
    | 0x48C => k.descHanded
    | 0x490 => k.descFreed
    | _ => 0
  else if 0x4C0 ≤ o ∧ o < 0x500 then wordAt k.descData ((o - 0x4C0) / 4)
  else if 0x500 ≤ o ∧ o < 0x540 then
    match o with
    | 0x500 => bellStatus s c
    | 0x504 => k.buoyPtr
    | 0x508 => k.queryLo
    | 0x50C => k.queryHi
    | 0x510 => wordAt (queryMask k) 0
    | 0x514 => wordAt k.queryMask 1
    | 0x518 => ringPtr 6 k.bellTotal
    | _ => 0
  else if 0x540 ≤ o ∧ o < 0x570 then wordAt k.buoyData ((o - 0x540) / 4)
  else if o = 0x600 then chStatus k
  else if o = 0x604 then k.epPtr
  else if 0x608 ≤ o ∧ o < 0x628 then epLatchRead k.epLatch o
  else if 0x640 ≤ o ∧ o < 0x660 then wordAt k.epData ((o - 0x640) / 4)
  else if 0x800 ≤ o ∧ o < 0x1000 then
    ((ringAt 64 k.bellLog k.bellTotal ((o - 0x800) / 32)).map fun e => wordOf (bellLogBytes e) (o % 32 / 4)).getD 0
  else if 0x1000 ≤ o ∧ o < 0x2000 then wordAt (tget 0 k.bellDescs ((o - 0x1000) / 16)) (o % 16 / 4)
  else 0

/-! ## Stack controllers (Tables 10.2, 10.3) -/

def stackStatus (s : State) (i : Fin 16) : U32 :=
  let c := s.stack i
  w32 (flagBit (s.stackWorn i) 31 + flagBit c.selfRefresh 30 + flagBit c.doubling 29 + flagBit c.hot 28 +
    flagBit c.candLost 27 + flagBit c.ueSeen 26 + c.temp.toNat)

/-- STACK_SPARES_MIN: the bank with the fewest free spare rows, the lowest on a tie. -/
def sparesMin (c : StackCtl) : U32 :=
  let m := (List.range 512).foldl (fun b k => if c.sparesFree k < c.sparesFree b then k else b) 0
  w32 (m * 32 + c.sparesFree m)

def stackRead (s : State) (o : Nat) : U32 :=
  if o < 0x1000 then
    let i := stackOf (o / 256)
    let c := s.stack i
    match o % 256 with
    | 0x00 => stackStatus s i
    | 0x04 => c.ceCount
    | 0x08 => w32 (c.ceLast.toNat % 2 ^ 32)
    | 0x0C => w32 (c.ceLast.toNat / 2 ^ 32)
    | 0x10 => w32 (8192 - c.sparesUsed.foldl (fun n e => n + e.2) 0)
    | 0x14 => sparesMin c
    | 0x18 => w32 c.cands.length
    | 0x1C => c.tideDouble
    | _ => 0
  else
    match o with
    | 0xF000 => s.stackThermal
    | 0xF004 => s.stackSpareCfg
    | 0xF008 => s.stackCeLimit
    | _ => 0

/-! ## Fabric (Tables 11.12 to 11.14) -/

def portStatus (p : FabPort) : U32 :=
  w32 (portCode p.state * 2 ^ 29 + flagBit p.spareInUse 28 + p.failedLane.toNat * 2 ^ 25 + flagBit p.tooLong 24 +
    flagBit p.identKnown 23 + p.peerPort.toNat * 2 ^ 16 + p.peerModule.toNat)

def fabRead (s : State) (o : Nat) : U32 :=
  let f := s.fab
  if o < 0x1000 then
    match o with
    | 0x00 => w32 (flagBit f.tablesLive 31 + flagBit f.shadowReady 30 + flagBit f.drainUntil.isSome 29 +
        allPorts.foldl (fun n p => n + flagBit ((s.port p).state == .up) p.val) 0)
    | 0x04 => setBits f.moduleReg 15 14 Config.pos.toNat
    | 0x08 => f.c0Bound
    | 0x0C => f.drain
    | 0x10 => f.winPtr
    | 0x18 => f.c0Dup
    | 0x1C => f.winNacks
    | _ => if 0x40 ≤ o ∧ o < 0x60 then wordAt (tget 0 f.windows f.winPtr.toNat) ((o - 0x40) / 4) else 0
  else if o < 0x2000 then
    let p := s.port (portOf ((o - 0x1000) / 256))
    match o % 256 with
    | 0x00 => portStatus p
    | 0x04 => p.cfg
    | 0x08 => p.soundU ++ p.soundD
    | 0x10 => p.fecCorr
    | 0x14 => p.fecUncorr
    | 0x18 => p.c1Retry
    | 0x1C => p.c1Lost
    | 0x20 => p.c2Resend
    | _ => 0
  else if 0x4000 ≤ o ∧ o < 0x8000 then tget 0 f.route ((o - 0x4000) / 4)
  else 0

/-! ## Host and ingress (Table 12.5) -/

/-- ING_STATUS: MUSTER_BUSY while a latched muster is due for writing (R332). -/
def ingStatus (s : State) : U32 :=
  let busy := match s.host.musters with | m :: _ => s.seq.begun && s.legBefore m.mark | [] => false
  w32 (flagBit s.host.gap 31 + flagBit s.host.replayEnd 30 + flagBit busy 29 + s.host.openSessions.length)

def hostRead (s : State) (o : Nat) : U32 :=
  let h := s.host
  let reg := tget {} h.harbors (bits h.harbPtr 5 0)
  match o with
  | 0x00 => w32 (flagBit h.linkUp 31 + h.speed.toNat * 2 ^ 24 + h.width.toNat * 2 ^ 16 + b2n h.d3hot)
  | 0x04 => h.bar2Lo
  | 0x08 => h.bar2Hi
  | 0x0C => w32 h.irqCause.toNat
  | 0x10 => h.ingCfg
  | 0x14 => ingStatus s
  | 0x18 => h.moorBaseLo
  | 0x1C => h.moorBaseHi
  | 0x20 => h.musterBaseLo
  | 0x24 => h.musterBaseHi
  | 0x28 => h.musterBellLo
  | 0x2C => h.musterBellHi
  | 0x30 => h.musterDepth
  | 0x34 => h.ilogBaseLo
  | 0x38 => h.ilogBaseHi
  | 0x3C => h.ilogSize
  | 0x40 => h.ilogWarn
  | 0x44 => wordAt h.ilogHead 0
  | 0x48 => wordAt h.ilogHead 1
  | 0x4C => h.ilogTailLo
  | 0x50 => wordAt h.ilogTail 1
  | 0x58 => h.moorSel
  | 0x5C => h.moorRingLo
  | 0x60 => h.moorRingHi
  | 0x64 => h.moorSize
  | 0x68 => h.moorTag
  | 0x6C => h.relModule
  | 0x74 => h.moorResult
  | 0x80 => wordAt h.harbReady 0
  | 0x84 => wordAt h.harbReady 1
  | 0x88 => h.harbPtr
  | 0x90 => wordAt reg.base 0
  | 0x94 => wordAt reg.base 1
  | 0x98 => reg.recSize
  | 0x9C => w32 ((reg.count.toNat + 2 ^ 32 - 1) % 2 ^ 32 * b2n (reg.count != 0))
  | 0xF800 => w32 h.msixPba.toNat
  | _ => if 0xF000 ≤ o ∧ o < 0xF080 then tget 0 h.msixTable ((o - 0xF000) / 4) else 0

/-! ## Power, die clock (Tables 14.9 to 14.12, 2.5 to 2.9) -/

def pwrRead (s : State) (o : Nat) : U32 :=
  let p := s.pwr
  match o with
  | 0x00 => w32 (phaseCode p.phase * 2 ^ 28 + p.tier.val * 2 ^ 25 + flagBit p.fail 24 + flagBit p.mainOn 23 +
      flagBit p.retained 22 + flagBit p.zeroing 21)
  | 0x04 => p.cfg
  | 0x0C => w32 p.event.toNat
  | 0x10 => p.vstandby ++ p.vin
  | 0x14 => w32 p.watts.toNat
  | 0x18 => w32 (flagBit p.svcRequest 31 + 4 * b2n s.svcFloor + 2 * b2n s.svcStack + b2n s.svcSpare)
  | 0x1C => p.serviceCfg
  | 0x20 => w32 (2 * b2n p.debugEnable + b2n p.debugFuse)
  | 0x24 => p.tierCounts.get 3 ++ p.tierCounts.get 2 ++ p.tierCounts.get 1 ++ p.tierCounts.get 0
  | 0x28 => p.suspBaseLo
  | 0x2C => p.suspBaseHi
  | 0x30 => p.suspMarkLo
  | 0x34 => p.suspMarkHi
  | 0x38 => p.resumeLo
  | 0x3C => p.resumeHi
  | _ => 0

def clkRead (s : State) (o : Nat) : U32 :=
  let k := s.clk
  if o < 0x100 then
    match o with
    | 0x00 => w32 (flagBit k.hold.isSome 31 + flagBit (s.seq.state == .gated) 30 + k.limit.toNat * 2 ^ 20 + k.freq.toNat)
    | 0x04 => k.cfg
    | 0x08 => k.thermal
    | 0x0C => k.holdCfg
    | 0x10 => k.stretchCount
    | 0x14 => k.stepsUp ++ k.stepsDown
    | 0x18 => k.holdCount
    | 0x1C => match k.hold with | some h => w32 (waitMask h) | none => 0
    | 0x20 => wordAt k.holdTime 0
    | 0x24 => wordAt k.holdTime 1
    | 0x28 => k.holdMax
    | _ => 0
  else if o < 0x120 then
    let r := s.region (regionOf ((o - 0x100) / 4))
    w32 (r.requests.toNat * 65536 + r.absorbed.toNat * 256 + r.tmax.toNat)
  else if 0x200 ≤ o ∧ o < 0x220 then wordOf (k.coreOrder.toList.drop (o - 0x200)) 0
  else if 0x220 ≤ o ∧ o < 0x260 then wordOf (k.arrayOrder.toList.drop (o - 0x220)) 0
  else 0

/-! ## Error log, halt record, debug window (Tables 15.1, 15.7, 15.8) -/

/-- An error log entry's 32 bytes (R389). -/
def errBytes (e : ErrEntry) : List Byte :=
  toBytes 8 e.time.toNat ++ toBytes 2 e.code.toNat ++ toBytes 1 (e.core.toNat + flagBit e.noCore 5) ++ [e.count] ++
    [0, 0, 0, 0] ++ toBytes 8 e.detail0.toNat ++ toBytes 8 e.detail1.toNat

/-- The registers of one path (R403). -/
def State.pathRegs (s : State) : Path → PathRegs
  | .bar0 => s.mgmt.bar0
  | .smbus => s.mgmt.smbus

def State.updRegs (s : State) (p : Path) (f : PathRegs → PathRegs) : State :=
  match p with
  | .bar0 => { s with mgmt := { s.mgmt with bar0 := f s.mgmt.bar0 } }
  | .smbus => { s with mgmt := { s.mgmt with smbus := f s.mgmt.smbus } }

def errRead (s : State) (p : Path) (o : Nat) : U32 :=
  let h := s.mgmt.halt
  let r := s.pathRegs p
  match o with
  | 0x00 => w32 (flagBit h.valid 31 + h.extra.toNat * 256 + h.reason.toNat)
  | 0x04 => w32 (h.engine.toNat * 2 ^ 24 + flagBit h.noCore 21 + h.core.toNat * 2 ^ 16 + h.module.toNat)
  | 0x08 => w32 (flagBit h.cmdValid 31 + h.cmdIndex.toNat)
  | 0x0C => w32 h.leg.toNat
  | 0x10 => h.cycle
  | 0x14 => wordAt h.mark 0
  | 0x18 => wordAt h.mark 1
  | 0x1C => wordAt h.time 0
  | 0x20 => wordAt h.time 1
  | 0x24 => wordAt h.detail0 0
  | 0x28 => wordAt h.detail0 1
  | 0x2C => wordAt h.detail1 0
  | 0x30 => wordAt h.detail1 1
  | 0x34 => s.mgmt.haltCount
  | 0x40 => ringPtr 10 s.mgmt.errTotal
  | 0x100 => r.dbgPtr
  | _ =>
    if 0x120 ≤ o ∧ o < 0x140 then wordAt r.dbgData ((o - 0x120) / 4)
    else if 0x1000 ≤ o ∧ o < 0x9000 then
      ((ringAt 1024 s.mgmt.errLog s.mgmt.errTotal ((o - 0x1000) / 32)).map fun e => wordOf (errBytes e) (o % 32 / 4)).getD 0
    else 0

/-! ## The map (Table 16.1) -/

/-- An offset of a block in the standby domain, which SMBus reaches too. -/
def standbyBlock (o : Nat) : Bool :=
  decide (o < 0x1000) || (decide (0x10000 ≤ o) && decide (o < 0x13000)) || (decide (0xA00000 ≤ o) && decide (o < 0xA00040)) ||
    (decide (0xC00000 ≤ o) && decide (o < 0xC09000))

/-- The offsets of a core block that registers occupy (Table 16.6). -/
def inCoreMap (r : Nat) : Bool :=
  decide (r < 0x2C) || (decide (0x40 ≤ r) && decide (r < 0x60)) || (decide (0x100 ≤ r) && decide (r < 0x180)) ||
    (decide (0x200 ≤ r) && decide (r < 0x240) && decide (r % 32 < 0x14)) || (decide (0x300 ≤ r) && decide (r < 0x310)) ||
    (decide (0x400 ≤ r) && decide (r < 0x44C)) || (decide (0x480 ≤ r) && decide (r < 0x494)) ||
    (decide (0x4C0 ≤ r) && decide (r < 0x51C)) || (decide (0x540 ≤ r) && decide (r < 0x570)) ||
    (decide (0x600 ≤ r) && decide (r < 0x628)) || (decide (0x640 ≤ r) && decide (r < 0x660)) ||
    (decide (0x800 ≤ r) && decide (r < 0x2000))

/-- The offsets of the host and ingress block that registers occupy (Table 12.5). -/
def inHostMap (r : Nat) : Bool :=
  decide (r < 0x78) || (decide (0x80 ≤ r) && decide (r < 0x8C)) || (decide (0x90 ≤ r) && decide (r < 0xA0)) ||
    (decide (0xF000 ≤ r) && decide (r < 0xF080)) || r == 0xF800

/-- An offset that a register of a block in the die domain occupies (Table 16.1). -/
def inDieMap (o : Nat) : Bool :=
  if o < 0x100000 then
    let r := o - 0x20000
    decide (0x20000 ≤ o) && (decide (r < 0x30) || (decide (0x100 ≤ r) && decide (r < 0x138)) ||
      (decide (0x140 ≤ r) && decide (r < 0x1C0)) || (decide (0x200 ≤ r) && decide (r < 0x2C4)))
  else if o < 0x300000 then inCoreMap (o % 65536)
  else if o < 0x600000 then
    let r := o - 0x400000
    decide (0x400000 ≤ o) && ((decide (r < 0x1000) && decide (r % 256 < 0x20)) || (decide (0xF000 ≤ r) && decide (r < 0xF00C)))
  else if o < 0x800000 then
    let r := o - 0x600000
    decide (r < 0x20) || (decide (0x40 ≤ r) && decide (r < 0x60)) || (decide (0x1000 ≤ r) && decide (r < 0x2000) && decide (r % 256 < 0x24)) ||
      (decide (0x4000 ≤ r) && decide (r < 0x8000))
  else if o < 0x900000 then inHostMap (o - 0x800000)
  else if o < 0xA00000 then true
  else
    let r := o - 0xA01000
    decide (0xA01000 ≤ o) && (decide (r < 0x2C) || (decide (0x100 ≤ r) && decide (r < 0x120)) || (decide (0x200 ≤ r) && decide (r < 0x260)))

/-- The current value of the register at an offset. -/
def regValue (s : State) (p : Path) (o : Nat) : U32 :=
  if o < 0x1000 then idRead s o
  else if 0x10000 ≤ o ∧ o < 0x13000 then timeRead s (o - 0x10000)
  else if 0x20000 ≤ o ∧ o < 0x202C4 then seqRead s (o - 0x20000)
  else if 0x100000 ≤ o ∧ o < 0x300000 then coreRead s (coreOf ((o - 0x100000) / 65536)) (o % 65536)
  else if 0x400000 ≤ o ∧ o < 0x40F00C then stackRead s (o - 0x400000)
  else if 0x600000 ≤ o ∧ o < 0x608000 then fabRead s (o - 0x600000)
  else if 0x800000 ≤ o ∧ o < 0x80F804 then hostRead s (o - 0x800000)
  else if 0xA00000 ≤ o ∧ o < 0xA00040 then pwrRead s (o - 0xA00000)
  else if 0xA01000 ≤ o ∧ o < 0xA01260 then clkRead s (o - 0xA01000)
  else if 0xC00000 ≤ o ∧ o < 0xC09000 then errRead s p (o - 0xC00000)
  else 0

/-- The LO half of a 64-bit value of a core block: flags, query address, the fields of a buoy's record, of a bell log entry and of a bell
descriptor. -/
def coreLo (r : Nat) : Bool :=
  r == 0x14 || r == 0x508 || r == 0x510 || [0x540, 0x548, 0x550, 0x558].contains r ||
    (decide (0x800 ≤ r) && decide (r < 0x1000) && [0, 8, 16].contains (r % 32)) ||
    (decide (0x1000 ≤ r) && decide (r < 0x2000) && r % 16 == 0)

/-- The LO half of a 64-bit value, in a register pair, a window or an entry of a log (R40, R405). -/
def isLo (o : Nat) : Bool :=
  [0x0C, 0x14, 0x10000, 0x10020, 0x10028, 0x20008, 0x20108, 0x20110, 0x20120, 0x20128, 0x20130, 0x800004, 0x800018, 0x800020,
    0x800028, 0x800034, 0x800044, 0x80004C, 0x80005C, 0x800080, 0x800090, 0xA00028, 0xA00030, 0xA00038, 0xA01020, 0xC00014,
    0xC0001C, 0xC00024, 0xC0002C, 0x600040, 0x600048].contains o ||
  (decide (0x11000 ≤ o) && decide (o < 0x13000) && [0, 8, 16].contains (o % 32)) ||
  (decide (0x20140 ≤ o) && decide (o < 0x201C0) && o % 8 == 0) ||
  (decide (0x100000 ≤ o) && decide (o < 0x300000) && coreLo (o % 65536)) ||
  (decide (0x400000 ≤ o) && decide (o < 0x401000) && o % 256 == 8) ||
  (decide (0x80F000 ≤ o) && decide (o < 0x80F080) && o % 16 == 0) ||
  (decide (0xC01000 ≤ o) && decide (o < 0xC09000) && [0, 16, 24].contains (o % 32))

/-- The state of R398 is sealed: from a halt until the scrub is done, unless a retained kill unseals it (R399). -/
def State.isSealed (s : State) : Bool := s.seq.state == .halted && !s.pwr.retained

/-- A register whose read R398 seals. -/
def sealedReg (o : Nat) : Bool :=
  let r := o % 65536
  (decide (0x100000 ≤ o) && decide (o < 0x300000) &&
    (r == 0x10 || r == 0x14 || r == 0x18 || (decide (0x40 ≤ r) && decide (r < 0x60)) ||
      (decide (0x100 ≤ r) && decide (r < 0x180)) || (decide (0x4C0 ≤ r) && decide (r < 0x500)) ||
      (decide (0x540 ≤ r) && decide (r < 0x570)) || (decide (0x640 ≤ r) && decide (r < 0x660)))) ||
    (decide (0xC00120 ≤ o) && decide (o < 0xC00140))

/-- The 32-byte word `i` of a debug unit (R399): a tile register, or a stationary set, whose aux bytes follow its data (log
entry 41). -/
def dbgWord (s : State) (ptr : U32) : W256 :=
  let k := s.core (coreOf (bits ptr 29 25))
  let a := k.arr (arrayOf (bits ptr 24 24))
  let w := bits ptr 19 0
  let tileWord := fun (i : Nat) => (tget 0 k.tiles (bits ptr 23 20 * 4096 + 8 * w + i)).toNat
  let setBytes := fun (x : StatSet) => if w < 2048 then mreadLE x.data (32 * w) 32 else mreadLE x.aux (32 * (w - 2048)) 32
  match bits ptr 31 30 with
  | 0 => if w < 512 then BitVec.ofNat 256 ((List.range 8).foldl (fun n i => n + tileWord i * 2 ^ (32 * i)) 0) else 0
  | 1 => BitVec.ofNat 256 (setBytes (if a.activeB then a.setB else a.setA))
  | 2 => BitVec.ofNat 256 (setBytes (if a.activeB then a.setA else a.setB))
  | _ => 0

/-! ## Reads with their effects (R40, R401, R403, R398, R399, R98, R227, R261) -/

/-- The debug window, DATA0 and DATA7, on one path (R398, R399). -/
def dbgRead (p : Path) (i : Nat) (s : State) : U32 × State :=
  if s.isSealed then (0xFFFFFFFF, logErr errStateSealed none (BitVec.ofNat 64 (0xC00120 + 4 * i)) 0 s)
  else if ¬ s.pwr.retained then (0xFFFFFFFF, s)
  else
    let s := if i = 0 then s.updRegs p fun r => { r with dbgData := dbgWord s r.dbgPtr } else s
    let v := wordAt (s.pathRegs p).dbgData i
    (v, if i = 7 then s.updRegs p fun r => { r with dbgPtr := setBits r.dbgPtr 19 0 (bits r.dbgPtr 19 0 + 1) } else s)

/-- CORE_BANK_PTR.WORD moves on, from 8,191 to 0 (R98). -/
def bankStep (k : Core) : Core := { k with bankPtr := setBits k.bankPtr 12 0 (bits k.bankPtr 12 0 + 1) }

/-- What a read of a data window's first register copies, before the value is read. -/
def windowCopy (c : Fin 32) (r : Nat) (s : State) : State :=
  match r with
  | 0x40 => s.updCore c fun k => { k with bankData := tget 0 (k.bank (bits k.bankPtr 13 13)) (bits k.bankPtr 12 0) }
  | 0x4C0 => s.updCore c fun k =>
      let i : BitVec 11 := BitVec.ofNat 11 (bits k.descPtr 10 0)
      let st := k.stream i
      { k with
        descData := tget 0 k.descs i.toNat, descState := descState k i, descLead := w32 st.lead, descHanded := w32 st.handed
        descFreed := w32 st.freed }
  | 0x540 => s.updCore c fun k =>
      { k with buoyData := BitVec.ofNat 384 (ofBytes (buoyBytes (k.buoy (BitVec.ofNat 6 (bits k.buoyPtr 5 0))))) }
  | 0x510 => s.updCore c fun k => { k with queryMask := queryMask k }
  | 0x640 => s.updCore c fun k =>
      let e := k.ep (BitVec.ofNat 7 (bits k.epPtr 6 0))
      { k with epData := e.desc, epLatch := e }
  | _ => s

/-- The host link is powered: from RAMP on (Table 14.4). -/
def State.linkPowered (s : State) : Bool := s.pwr.phase != .standby && s.pwr.phase != .standbyRelay

/-- What a read does after the value is read: CORE_BANK_DATA7 moves the pointer on (R98). -/
def windowStep (c : Fin 32) (r : Nat) (s : State) : State := if r = 0x5C then s.updCore c bankStep else s

/-- A path reaches an offset: SMBus on standby power, BAR0 from RAMP on (R361), and a register of the die while the main rails are up. An
offset that no register occupies reads 0 all the same (R401). -/
def State.reaches (s : State) (p : Path) (o : Nat) : Bool :=
  s.pwr.standbyOn && (p != .bar0 || s.linkPowered) && (!inDieMap o || s.pwr.mainOn)

/-- One aligned 32-bit read on a path: its value and what it leaves. -/
def regRead (p : Path) (o : Nat) (s : State) : U32 × State :=
  let inCore := decide (0x100000 ≤ o) && decide (o < 0x300000)
  let c := coreOf ((o - 0x100000) / 65536)
  if ¬ s.reaches p o then (0xFFFFFFFF, s)
  else if 0xC00120 ≤ o ∧ o < 0xC00140 then dbgRead p ((o - 0xC00120) / 4) s
  else if sealedReg o ∧ s.isSealed then
    (0xFFFFFFFF, logErr errStateSealed none (BitVec.ofNat 64 o) 0 (if inCore then windowStep c (o % 65536) s else s))
  else
    let s := if inCore then windowCopy c (o % 65536) s else s
    let held := tget none (s.pathRegs p).latch o
    let v := held.getD (regValue s p o)
    let s := if held.isSome then s.updRegs p fun r => { r with latch := tset none r.latch o none } else s
    let s := if isLo o then s.updRegs p fun r => { r with latch := tset none r.latch (o + 4) (some (regValue s p (o + 4))) } else s
    (v, if inCore then windowStep c (o % 65536) s else s)

end Sys2Proof.Machine
end

