-- ==== Sys2Proof/Machine/Host.lean ====
section
/-!
DEFINITION. The host link (R320 to R325) and every register write (R400 to R409): each register's condition, its range, what it
does, the data windows (R89, R98, R227, R253, R261), and BAR2 (R323, R324, R371, R398).
-/
namespace Sys2Proof.Machine

/-! ## Link resets and power states (R320, R321) -/

/-- A reset of the host link: the configuration space with its BAR assignments, HOST_BAR2_BASE and the MSI-X table. -/
def linkReset (d3 : Bool) (s : State) : State :=
  if s.linkPowered then
    { s with host := { s.host with cfgSpace := [], bar2Lo := 0, bar2Hi := 0, msixTable := [], d3hot := d3 } }
  else s

def execPerst (s : State) : Host.Outcome State Fault Refusal := .next (linkReset false s)
def execHotReset (s : State) : Host.Outcome State Fault Refusal := .next (linkReset false s)
def execFunctionLevelReset (s : State) : Host.Outcome State Fault Refusal := .next (linkReset false s)
def execPmD3hot (s : State) : Host.Outcome State Fault Refusal := .next (linkReset true s)

/-- D0 (R321): the function leaves D3hot. -/
def execPmD0 (s : State) : Host.Outcome State Fault Refusal :=
  .next (if s.linkPowered then { s with host := { s.host with d3hot := false } } else s)

/-- LINK_UP (R320, R361, Table 12.5): the link, powered with region 0, may train from RAMP on. -/
def execLinkUp (speed : BitVec 4) (width : BitVec 5) (s : State) : Host.Outcome State Fault Refusal :=
  .next (if s.linkPowered then { s with host := { s.host with linkUp := true, speed := speed, width := width } } else s)

/-! ## The data windows (R89, R98, R227, R253, R261) -/

/-- A bank write is accepted (R89): not to the active bank of a leg that runs, nor to an idle bank before its helm load is done; a
retained state takes no write (R399). -/
def bankWritable (s : State) (c : Fin 32) : Bool :=
  let k := s.core c
  !s.pwr.retained &&
    (match s.seq.state with
     | .running | .gated => bits k.bankPtr 13 13 != s.seq.legMark.toNat % 2 && k.helmDone
     | _ => true)

/-- CORE_BANK_DATA7_WRITE (R89, R98): the eight data registers go to the addressed word, or RELOAD_ACTIVE is logged; WORD moves on
either way. -/
def execCoreBankData7Write (core : Fin 32) (v : U32) (s : State) : Host.Outcome State Fault Refusal :=
  .next <|
    if ¬ s.pwr.mainOn then s
    else
      let s := s.updCore core fun k => { k with bankData := setWord k.bankData 7 v }
      let k := s.core core
      let n := bits k.bankPtr 13 13
      let s := if bankWritable s core then
          s.updCore core fun k => k.setBank n (tset 0 (k.bank n) (bits k.bankPtr 12 0) k.bankData)
        else if s.pwr.retained then s
        else logErr errReloadActive (some core) (BitVec.ofNat 64 (bits k.bankPtr 13 0)) 0 s
      s.updCore core bankStep

/-- STREAM_DESC_DATA15_WRITE (R227): the commit is accepted only in EMPTY. -/
def execStreamDescData15Write (core : Fin 32) (v : U32) (s : State) : Host.Outcome State Fault Refusal :=
  .next <|
    if ¬ s.pwr.mainOn then s
    else s.updCore core fun k =>
      let k := { k with descData := setWord k.descData 15 v }
      if s.seq.state = .empty then { k with descs := tset 0 k.descs (bits k.descPtr 10 0) k.descData } else k

/-- CH_EP_DATA7_WRITE (R253, R261): the migration is staged for the next leg boundary; ignored while HALTED. -/
def execChEpData7Write (core : Fin 32) (v : U32) (s : State) : Host.Outcome State Fault Refusal :=
  .next <|
    if ¬ s.pwr.mainOn ∨ s.seq.state = .halted then s
    else s.updCore core fun k =>
      let k := { k with epData := setWord k.epData 7 v }
      k.updEp (BitVec.ofNat 7 (bits k.epPtr 6 0)) fun e => { e with staged := some k.epData }

/-- A read that has a row of its own: the register's value goes to the host's read data. -/
def hostRead_ (o : Nat) (s : State) : State :=
  let (v, s) := regRead .bar0 o s
  { s with host := { s.host with bar0Data := v } }

/-- The offset of a core's register. -/
def coreReg (c : Fin 32) (r : Nat) : Nat := 0x100000 + 65536 * c.val + r

def execCoreBankData0Read (core : Fin 32) (s : State) : Host.Outcome State Fault Refusal := .next (hostRead_ (coreReg core 0x40) s)
def execCoreBankData7Read (core : Fin 32) (s : State) : Host.Outcome State Fault Refusal := .next (hostRead_ (coreReg core 0x5C) s)
def execStreamDescData0Read (core : Fin 32) (s : State) : Host.Outcome State Fault Refusal := .next (hostRead_ (coreReg core 0x4C0) s)
def execBuoyData0Read (core : Fin 32) (s : State) : Host.Outcome State Fault Refusal := .next (hostRead_ (coreReg core 0x540) s)
def execBellQueryMaskLoRead (core : Fin 32) (s : State) : Host.Outcome State Fault Refusal := .next (hostRead_ (coreReg core 0x510) s)
def execChEpData0Read (core : Fin 32) (s : State) : Host.Outcome State Fault Refusal := .next (hostRead_ (coreReg core 0x640) s)

/-- The value of a read on a path: in the host's read data, or in the process call's. -/
def pathRead (p : Path) (o : Nat) (s : State) : State :=
  match p with
  | .bar0 => hostRead_ o s
  | .smbus =>
    let (v, s) := regRead .smbus o s
    s.updRegs .smbus fun r => { r with data := v }

/-- DBG_DATA0_READ, DBG_DATA7_READ (R399). -/
def execDbgData0Read (path : Path) (s : State) : Host.Outcome State Fault Refusal := .next (pathRead path 0xC00120 s)
def execDbgData7Read (path : Path) (s : State) : Host.Outcome State Fault Refusal := .next (pathRead path 0xC0013C s)

/-- A BAR0 access that is not one aligned 32-bit access is logged (R322). -/
def bar0Bad (offset : BitVec 24) (size : Nat) (s : State) : State :=
  if s.pwr.standbyOn ∧ s.linkPowered then logErr errBar0Size none (offset.setWidth 64) (BitVec.ofNat 64 size) s else s

/-- LO_PAIR_READ (R40, R405): a read of the LO half of a pair latches the HI half for the next read of HI. A register without a row of its
own is read by this one too; a read of another size or alignment returns all ones (R322). -/
def execLoPairRead (read : RegRead) (s : State) : Host.Outcome State Fault Refusal :=
  .next <|
    if read.size = 4 ∧ read.offset.toNat % 4 = 0 then hostRead_ read.offset.toNat s
    else
      let s := bar0Bad read.offset read.size s
      { s with host := { s.host with bar0Data := 0xFFFFFFFF } }

/-! ## Register writes (R402, R405, R408, R409) -/

/-- The state a command with its own row leaves. -/
def after (o : Host.Outcome State Fault Refusal) (s : State) : State :=
  match o with
  | .next t => t
  | _ => s

/-- HI registers of stack offsets keep nine bits. -/
def hi9 (v : U32) : U32 := v &&& 0x1FF

/-- A value in a range. -/
def within (v lo hi : Nat) : Bool := decide (lo ≤ v) && decide (v ≤ hi)

/-- The four bytes of a start-order register each pass a test. -/
def bytesOk (v : U32) (ok : Nat → Bool) : Bool := (List.range 4).all fun i => ok (bits v (8 * i + 7) (8 * i))

/-- Bytes of a start order replaced by a register's word. -/
def setOrder {n : Nat} (w : Vector Byte n) (a : Nat) (v : U32) : Vector Byte n :=
  Vector.ofFn fun i => if a ≤ i.val ∧ i.val < a + 4 then v.extractLsb' (8 * (i.val - a)) 8 else w.get i

/-- Time domain and beacon (Table 1.5). -/
def timeWrite (o : Nat) (v : U32) (s : State) : State :=
  match o with
  | 0x0C =>
    if s.unlocked ∧ s.time.osc ≠ .sounding ∧ bits v 31 30 ≠ 3 then
      { s with time := { s.time with beaconCfg := v &&& 0xC0FF0001 } }
    else s
  | 0x14 => if s.unlocked ∧ 0x80 ≤ bits v 31 16 then { s with time := { s.time with slipCfg := v &&& 0xFFFFFFF0 } } else s
  | 0x18 => if s.unlocked ∧ within (bits v 7 0) 30 200 then { s with time := { s.time with legCfg := v &&& 0xFFFF00FF } } else s
  | _ => s

/-- The loader's registers of Table 13.5 but IMG_CMD and the keys: writable in EMPTY without a load. -/
def loaderWrite (o : Nat) (v : U32) (l : Loader) : Loader :=
  match o with
  | 0x108 => { l with baseLo := v }
  | 0x10C => { l with baseHi := hi9 v }
  | 0x110 => { l with lenLo := v }
  | 0x114 => { l with lenHi := v &&& 0xF }
  | 0x118 => { l with position := v &&& 0xFFF }
  | 0x11C => { l with origin := v &&& 0xFFF }
  | 0x120 => { l with firstMarkLo := v }
  | 0x124 => { l with firstMarkHi := v }
  | _ =>
    if 0x140 ≤ o ∧ o < 0x1C0 then
      (if o % 8 = 0 then { l with regionBaseLo := l.regionBaseLo.set (portOf ((o - 0x140) / 8)) (v &&& 0xFFFF0000) }
       else { l with regionBaseHi := l.regionBaseHi.set (portOf ((o - 0x140) / 8)) (hi9 v) })
    else if bit l.keyCfg 31 then l
    else if 0x200 ≤ o ∧ o < 0x2C0 then { l with keyHash := tset 0 l.keyHash ((o - 0x200) / 4) v }
    else if o = 0x2C0 then { l with keyCfg := (v &&& 0xF) ||| (l.keyCfg &&& 0x80000000) }
    else l

/-- Leg sequencer and loader (Tables 3.13 and 13.5). -/
def seqWrite (o : Nat) (v : U32) (s : State) : State :=
  match o with
  | 0x04 => if s.unlocked then { s with seq := { s.seq with cfg := v &&& 1 } } else s
  | 0x08 => if s.unlocked then { s with seq := { s.seq with tableBaseLo := v } } else s
  | 0x0C => if s.unlocked then { s with seq := { s.seq with tableBaseHi := hi9 v } } else s
  | 0x10 =>
    if s.unlocked ∧ within (bits v 16 0) 1 65536 then { s with seq := { s.seq with tableLen := v &&& 0x1FFFF } } else s
  | 0x20 => { s with seq := { s.seq with armLo := v } }
  | 0x24 => after (execLegArmHiWrite v s) s
  | 0x100 => if bit v 0 then after (execImageLoad s) s else s
  | _ =>
    if s.unlocked then
      let lock := decide (o = 0x2C0) && bit v 31
      let s := { s with loader := loaderWrite o v s.loader }
      if lock then after (execKeyLock s) s else s
    else s

/-- A core block (Tables 3.13, 8.11, 9.10). -/
def coreWrite (c : Fin 32) (o : Nat) (v : U32) (s : State) : State :=
  if o = 0x5C then after (execCoreBankData7Write c v s) s
  else if o = 0x4FC then after (execStreamDescData15Write c v s) s
  else if o = 0x65C then after (execChEpData7Write c v s) s
  else s.updCore c fun k =>
    match o with
    | 0x28 => { k with bankPtr := v &&& 0x3FFF }
    | 0x480 => { k with descPtr := v &&& 0x7FF }
    | 0x504 => { k with buoyPtr := v &&& 0x3F }
    | 0x508 => { k with queryLo := v }
    | 0x50C => { k with queryHi := v }
    | 0x604 => { k with epPtr := v &&& 0x7F }
    | _ =>
      if 0x40 ≤ o ∧ o < 0x60 then { k with bankData := setWord k.bankData ((o - 0x40) / 4) v }
      else if 0x4C0 ≤ o ∧ o < 0x500 then { k with descData := setWord k.descData ((o - 0x4C0) / 4) v }
      else if 0x640 ≤ o ∧ o < 0x660 then { k with epData := setWord k.epData ((o - 0x640) / 4) v }
      else k

/-- Stack controllers (Table 10.2); a lower limit may raise the replace-request (R281). -/
def stackWrite (o : Nat) (v : U32) (s : State) : State :=
  if ¬ s.unlocked then s
  else
    match o with
    | 0xF000 => { s with stackThermal := v &&& 0xFFFFFF }
    | 0xF004 =>
      if within (bits v 15 8) 1 100 ∧ bits v 4 0 ≤ 16 then checkService { s with stackSpareCfg := v &&& 0xFF1F } else s
    | 0xF008 => checkService { s with stackCeLimit := v }
    | _ => s

/-- Fabric (Tables 11.12 to 11.14). -/
def fabWrite (o : Nat) (v : U32) (s : State) : State :=
  if o < 0x1000 then
    match o with
    | 0x04 => if s.unlocked then { s with fab := { s.fab with moduleReg := v &&& 0xFFF } } else s
    | 0x08 => if s.unlocked then { s with fab := { s.fab with c0Bound := v &&& 0xFFFF } } else s
    | 0x0C => if s.unlocked ∧ within (bits v 12 0) 1 4096 then { s with fab := { s.fab with drain := v &&& 0x1FFF } } else s
    | 0x10 => { s with fab := { s.fab with winPtr := v &&& 0x3FFF } }
    | 0x14 => after (execFabWinCloseWrite v s) s
    | _ => s
  else if o < 0x2000 then
    let p := portOf ((o - 0x1000) / 256)
    if o % 256 = 4 then
      (if s.unlocked ∧ within (bits v 21 16) 2 32 then
        s.updPort p fun x => { x with cfg := v &&& 0x803F0000 }
       else s)
    else if o % 256 = 0xC ∧ bit v 0 then after (execRetrain p s) s
    else s
  else if 0x4000 ≤ o ∧ o < 0x8000 ∧ s.unlocked then
    { s with fab := { s.fab with route := tset 0 s.fab.route ((o - 0x4000) / 4) (v &&& 0xFF0000FF) } }
  else s

/-- A word of the MSI-X table; a vector that is pending is sent when its mask bit is cleared (log entry 43). -/
def msixWrite (i : Nat) (v : U32) (h : HostDom) : HostDom :=
  let h := { h with msixTable := tset 0 h.msixTable i (if i % 4 = 3 then v &&& 1 else v) }
  if i % 4 = 3 ∧ ¬ bit v 0 ∧ bit h.msixPba (i / 4) then
    { h with msixPba := setBit h.msixPba (i / 4) false, msixSent := h.msixSent ++ [regionOf (i / 4)] }
  else h

/-- A write of 1 to bits of HARB_READY (R402, R404). -/
def clearReady (t b : U64) (h : HostDom) : HostDom :=
  { h with harbReady := h.harbReady &&& ~~~(h.harbNow.clears t b), harbNow := h.harbNow.noteCleared t b h.harbReady }

/-- The host registers of Table 12.5 that are plain values, with their conditions. -/
def hostPlain (t : U64) (unlocked : Bool) (o : Nat) (v : U32) (h : HostDom) : HostDom :=
  let locked := fun (x : HostDom) => if unlocked then x else h
  match o with
  | 0x08 => if [0, 1, 2, 4].contains (bits v 19 16) then { h with bar2Hi := v &&& 0xF0FFF } else h
  | 0x0C => { h with
      irqCause := h.irqCause &&& ~~~((h.irqNow.clears t (v.setWidth 64)).extractLsb' 0 5)
      irqNow := h.irqNow.noteCleared t (v.setWidth 64) (h.irqCause.setWidth 64) }
  | 0x10 => locked { h with ingCfg := v &&& 1 }
  | 0x18 => locked { h with moorBaseLo := v }
  | 0x1C => locked { h with moorBaseHi := hi9 v }
  | 0x20 => locked { h with musterBaseLo := v }
  | 0x24 => locked { h with musterBaseHi := hi9 v }
  | 0x28 => locked { h with musterBellLo := v }
  | 0x2C => locked { h with musterBellHi := v }
  | 0x30 => if within (bits v 4 0) 1 16 then locked { h with musterDepth := v &&& 0x1F } else h
  | 0x34 => locked { h with ilogBaseLo := v }
  | 0x38 => locked { h with ilogBaseHi := hi9 v }
  | 0x3C => locked { h with ilogSize := v &&& 0xFFFFF }
  | 0x40 => locked { h with ilogWarn := v &&& 0xFFFFF }
  | 0x4C => { h with ilogTailLo := v }
  | 0x58 => { h with moorSel := v &&& 0x3FFFF }
  | 0x5C => { h with moorRingLo := v }
  | 0x60 => { h with moorRingHi := hi9 v }
  | 0x64 => { h with moorSize := v }
  | 0x68 => { h with moorTag := v }
  | 0x6C => { h with relModule := v &&& 0xFFF }
  | 0x80 => clearReady t (v.setWidth 64) h
  | 0x84 => clearReady t (v ++ (0 : U32)) h
  | 0x88 => { h with harbPtr := v &&& 0x3F }
  | _ => if 0xF000 ≤ o ∧ o < 0xF080 then msixWrite ((o - 0xF000) / 4) v h else h

/-- Host and ingress (Table 12.5). -/
def hostWrite (o : Nat) (v : U32) (s : State) : State :=
  match o with
  | 0x50 => after (execIlogTailHiWrite v s) s
  | 0x54 => after (execIlogHeadSetWrite v s) s
  | 0x70 =>
    match bits v 1 0 with
    | 1 => after (execMoorOpen s) s
    | 2 => after (execMoorClose s) s
    | 3 => after (execMoorRelay s) s
    | _ => s
  | _ => { s with host := hostPlain s.time.hallTime s.unlocked o v s.host }

/-- PWR_CTRL (Table 14.11). -/
def pwrCtrl (p : Path) (v : U32) (s : State) : State :=
  match bits v 3 0 with
  | 1 => after (execKill (match p with | .bar0 => .bar0 | .smbus => .smbus) (bit v 4) s) s
  | 2 => after (execScrub s) s
  | 3 => after (execSuspend s) s
  | 4 => after (execResume s) s
  | 5 => after (execPowerOn s) s
  | 6 => after (execPowerOff s) s
  | 7 => after (execServiceClear s) s
  | _ => s

/-- Power and life cycle (Table 14.9). -/
def pwrWrite (p : Path) (o : Nat) (v : U32) (s : State) : State :=
  match o with
  | 0x04 => if s.unlocked then { s with pwr := { s.pwr with cfg := v &&& 0x800000FF } } else s
  | 0x08 => pwrCtrl p v s
  | 0x0C => { s with pwr := { s.pwr with
      event := s.pwr.event &&& ~~~((s.pwr.eventNow.clears s.time.hallTime (v.setWidth 64)).extractLsb' 0 7) } }
  | 0x1C => if within (bits v 7 0) 1 100 then checkService { s with pwr := { s.pwr with serviceCfg := v &&& 0xFF } } else s
  | 0x20 =>
    let s := after (execDebugEnable (bit v 1) s) s
    if bit v 2 then after (execBlowFuse s) s else s
  | 0x28 => { s with pwr := { s.pwr with suspBaseLo := v } }
  | 0x2C => { s with pwr := { s.pwr with suspBaseHi := hi9 v } }
  | 0x30 => { s with pwr := { s.pwr with suspMarkLo := v } }
  | 0x34 => { s with pwr := { s.pwr with suspMarkHi := v } }
  | 0x38 => { s with pwr := { s.pwr with resumeLo := v } }
  | 0x3C => { s with pwr := { s.pwr with resumeHi := v } }
  | _ => s

/-- Die clock and hold (Table 2.5). -/
def clkWrite (o : Nat) (v : U32) (s : State) : State :=
  if ¬ s.unlocked then s
  else
    match o with
    | 0x04 => if bits v 2 0 ≤ 3 ∧ within (bits v 7 3) 2 10 then { s with clk := { s.clk with cfg := v &&& 0xFFFF } } else s
    | 0x08 => if bits v 15 8 ≤ 100 then { s with clk := { s.clk with thermal := v &&& 0xFFFF } } else s
    | 0x0C => if 1 ≤ bits v 31 8 then { s with clk := { s.clk with holdCfg := v } } else s
    | _ =>
      if 0x200 ≤ o ∧ o < 0x220 then
        (if bytesOk v fun b => decide (b ≤ 31) then { s with clk := { s.clk with coreOrder := setOrder s.clk.coreOrder (o - 0x200) v } }
         else s)
      else if 0x220 ≤ o ∧ o < 0x260 then
        (if bytesOk v fun b => decide (b ≤ 63) || b == 0xFF then
          { s with clk := { s.clk with arrayOrder := setOrder s.clk.arrayOrder (o - 0x220) v } }
         else s)
      else s

/-- Error log, halt record, debug window (Tables 15.7 and 15.8). -/
def errWrite (p : Path) (o : Nat) (v : U32) (s : State) : State :=
  match o with
  | 0x00 =>
    if bit v 31 ∧ s.mgmt.halt.time ≠ s.time.hallTime then
      { s with mgmt := { s.mgmt with halt := { s.mgmt.halt with valid := false } } }
    else s
  | 0x100 => if bits v 31 30 = 3 then s else s.updRegs p fun r => { r with dbgPtr := v }
  | _ => s

/-- One aligned 32-bit write on a path. -/
def regWrite (p : Path) (o : Nat) (v : U32) (s : State) : State :=
  if ¬ s.reaches p o then s
  else if 0x10000 ≤ o ∧ o < 0x13000 then timeWrite (o - 0x10000) v s
  else if 0x20000 ≤ o ∧ o < 0x202C4 then seqWrite (o - 0x20000) v s
  else if 0x100000 ≤ o ∧ o < 0x300000 then coreWrite (coreOf ((o - 0x100000) / 65536)) (o % 65536) v s
  else if 0x400000 ≤ o ∧ o < 0x40F00C then stackWrite (o - 0x400000) v s
  else if 0x600000 ≤ o ∧ o < 0x608000 then fabWrite (o - 0x600000) v s
  else if 0x800000 ≤ o ∧ o < 0x80F804 then hostWrite (o - 0x800000) v s
  else if 0x900000 ≤ o ∧ o < 0xA00000 then after (execDoorbell (BitVec.ofNat 18 ((o - 0x900000) / 4)) v s) s
  else if 0xA00000 ≤ o ∧ o < 0xA00040 then pwrWrite p (o - 0xA00000) v s
  else if 0xA01000 ≤ o ∧ o < 0xA01260 then clkWrite (o - 0xA01000) v s
  else if 0xC00000 ≤ o ∧ o < 0xC09000 then errWrite p (o - 0xC00000) v s
  else s

/-- REGISTER_WRITE (R322, R402): BAR0 takes aligned 32-bit writes; any other is dropped and logged as BAR0_SIZE. -/
def execRegisterWrite (offset : BitVec 24) (size : Nat) (v : U32) (s : State) : Host.Outcome State Fault Refusal :=
  .next <|
    if size = 4 ∧ offset.toNat % 4 = 0 then regWrite .bar0 offset.toNat v s
    else bar0Bad offset size s

/-! ## BAR2 (R323, R324) -/

/-- The space and offset that a BAR2 offset names. -/
def bar2Space (s : State) : Nat := bits s.host.bar2Hi 19 16
def bar2Off (s : State) (offset : BitVec 36) : Nat := bits s.host.bar2Hi 11 0 * 2 ^ 36 + offset.toNat
/-- The hall address as the log shows it. -/
def bar2Addr (s : State) (off : Nat) : U64 := BitVec.ofNat 64 (s.module.toNat * 2 ^ 52 + bar2Space s * 2 ^ 48 + off)

/-- How a BAR2 access is answered. -/
inductive Bar2 where
  | served
  | silent
  | logged (code : U16)
  deriving DecidableEq, Repr

/-- Die memory: scratchpad or ACB. -/
def dieSpace (space : Nat) : Bool := space == 1 || space == 2

/-- The stack bytes of an access meet a range that a kill has still to zero (R371). -/
def zeroPending (s : State) (space off n : Nat) : Bool :=
  (pieces 4096 off n).any fun p => s.pwr.zeroRanges.any fun r => regionMeets r (linearOf space p.1) p.2

/-- The answer to an access of `n` bytes (R323, R371, R398, R399; before READY log entry 42). -/
def bar2Answer (s : State) (off n : Nat) (write : Bool) : Bar2 :=
  let sp := bar2Space s
  let up := match s.pwr.phase with
    | .ready | .parked | .suspended | .killed | .dieOff => s.pwr.mainOn
    | _ => false
  if !up || n == 0 || decide (4096 < n) then .silent
  else if (List.range n).any fun i => placeOf s sp (off + i) == .none then .logged errBar2Unmapped
  else if s.pwr.retained then (if write && dieSpace sp then .silent else .served)
  else if s.pwr.killPending then (if dieSpace sp || zeroPending s sp off n then .logged errScrubPending else .served)
  else if dieSpace sp && s.isSealed then .logged errStateSealed
  else .served

/-- The host reads that are finished are answered, in link order (R324). -/
def answerReads : Nat → State → State
  | 0, s => s
  | fuel + 1, s =>
    match s.jobs.find? fun j => j.want == .bar2 with
    | some j =>
      if j.need = 0 then
        let t := s.endJob j
        answerReads fuel { t with host := { t.host with bar2Data := j.bytes } }
      else s
    | none => s
def hostReads (s : State) : State := answerReads (s.jobs.length + 1) s

/-- A host read that is all ones. -/
def onesRead (n : Nat) (s : State) : State :=
  { s with jobs := s.jobs ++ [⟨s.jobNo, .bar2, n, 0, mwrites [] 0 (List.replicate n 0xFF)⟩], jobNo := s.jobNo + 1 }

/-- BAR2_READ (R324): the bytes as their blocks and lines are read, in the order of the reads, or all ones. -/
def execBar2Read (offset : BitVec 36) (len : Nat) (s : State) : Host.Outcome State Fault Refusal :=
  .next <|
    let off := bar2Off s offset
    hostReads <|
      match bar2Answer s off len false with
      | .served => startJob .bar2 15 rqHost srcHost (bar2Space s) off len s
      | .silent => onesRead (min len 4096) s
      | .logged code => logErr code none (bar2Addr s off) 0 (onesRead len s)

/-- The staged image of a load in progress is written (R355). -/
def touchStaged (space off n : Nat) (s : State) : State :=
  if s.loader.busy ∧ (pieces 4096 off n).any fun p =>
      decide (linearOf space p.1 < s.stageBase + s.stageLen) && decide (s.stageBase < linearOf space p.1 + p.2) then
    { s with loader := { s.loader with stagedTouched := true } }
  else s

/-- BAR2_WRITE (R323): fill accesses on port 15, requests to the stack controllers, or an ACB's external port. The ingress unit waits for
what is not written yet (R327). -/
def execBar2Write (offset : BitVec 36) (data : List Byte) (s : State) : Host.Outcome State Fault Refusal :=
  .next <|
    let off := bar2Off s offset
    let sp := bar2Space s
    match bar2Answer s off data.length true with
    | .served =>
      let n := s.host.writeNo
      let s := if sp = 1 ∨ sp = 2 then s else touchStaged sp off data.length s
      ingressWork (rangeWrite 15 rqHost srcHost sp off data (.hostWrite n) { s with host := { s.host with
        writeNo := n + 1, writing := s.host.writing ++ [(n, rangePieces sp off data.length)] } })
    | .silent => s
    | .logged code => logErr code none (bar2Addr s off) 0 s

end Sys2Proof.Machine
end

