-- ==== Sys2Proof/Machine/Mgmt.lean ====
section
/-!
DEFINITION. Management beside BAR0: SMBus (R358, R403) and JTAG (R359).
-/
namespace Sys2Proof.Machine

/-- The 7-bit address at which the controller answers on the SMBus (R358). -/
def smbusAddress : BitVec 7 := 0x58 + Config.pos.setWidth 7

/-- The PWR_GOOD pin (Table 14.2): the main rails are in regulation. -/
def State.pwrGood (s : State) : Bool := s.pwr.mainOn

/-- The SERVICE pin (Table 14.2, R379): the replace-request. -/
def State.servicePin (s : State) : Bool := s.pwr.svcRequest

/-- SMBUS_BLOCK_WRITE (R358): a register of a standby block; any other is not performed. -/
def execSmbusBlockWrite (offset : BitVec 24) (v : U32) (s : State) : Host.Outcome State Fault Refusal :=
  .next (if standbyBlock offset.toNat ∧ offset.toNat % 4 = 0 then regWrite .smbus offset.toNat v s else s)

/-- SMBUS_PROCESS_CALL (R358): the register's value; all ones for any other block. -/
def execSmbusProcessCall (offset : BitVec 24) (s : State) : Host.Outcome State Fault Refusal :=
  .next <|
    if standbyBlock offset.toNat ∧ offset.toNat % 4 = 0 then pathRead .smbus offset.toNat s
    else s.updRegs .smbus fun r => { r with data := 0xFFFFFFFF }

/-- BYPASS (R359). -/
def execJtagBypass (s : State) : Host.Outcome State Fault Refusal :=
  .next { s with mgmt := { s.mgmt with jtag := .bypass, jtagDriving := false, jtagData := 0 } }

/-- IDCODE (R359): the device identity. -/
def execJtagIdcode (s : State) : Host.Outcome State Fault Refusal :=
  .next { s with mgmt := { s.mgmt with jtag := .idcode, jtagDriving := false, jtagData := Config.jtagIdcode.setWidth 64 } }

/-- SAMPLE/PRELOAD (R359): the boundary register takes the pins, and holds what was loaded for the next EXTEST. -/
def execJtagSamplePreload (pins : U64) (s : State) : Host.Outcome State Fault Refusal :=
  .next { s with mgmt := { s.mgmt with jtag := .samplePreload, jtagDriving := false, jtagData := pins } }

/-- EXTEST (R359): the pins it drives while it is obeyed. -/
def execJtagExtest (pins : U64) (s : State) : Host.Outcome State Fault Refusal :=
  .next { s with mgmt := { s.mgmt with jtag := .extest, jtagDriving := true, jtagPins := pins, jtagData := 0 } }

/-- EXTEST is obeyed only while LEG_STATE.STATE is EMPTY and no load is in progress: the instruction that acts (R359). -/
def State.jtagActs (s : State) : JtagInstr := if s.mgmt.jtag = .extest ∧ ¬ s.unlocked then .bypass else s.mgmt.jtag

/-- The boundary pins are driven (R359). -/
def State.pinsDriven (s : State) : Bool := s.mgmt.jtagDriving && s.unlocked

end Sys2Proof.Machine
end

