-- ==== Sys2Proof/Machine/Dispatch.lean ====
section
/-!
DEFINITION. One arm for each constructor of Instr: a direct call of the row's meaning, or a refusal by name.
-/
namespace Sys2Proof.Machine

def exec (i : Instr) (s : State) : Host.Outcome State Fault Refusal :=
  match i with
  | .standbyPowerOn => Sys2Proof.Machine.execStandbyPowerOn s
  | .standbyPowerLoss => Sys2Proof.Machine.execStandbyPowerLoss s
  | .oscillatorStable => Sys2Proof.Machine.execOscillatorStable s
  | .mainInputStable mv => Sys2Proof.Machine.execMainInputStable mv s
  | .bringupPhaseDone failed => Sys2Proof.Machine.execBringupPhaseDone failed s
  | .mainInputLoss => Sys2Proof.Machine.execMainInputLoss s
  | .tierEntry tier mv fast => Sys2Proof.Machine.execTierEntry tier mv fast s
  | .tierLeave tier leave1 => Sys2Proof.Machine.execTierLeave tier leave1 s
  | .ppsInEdge => Sys2Proof.Machine.execPpsInEdge s
  | .refLoss pps => Sys2Proof.Machine.execRefLoss pps s
  | .refReturn pps => Sys2Proof.Machine.execRefReturn pps s
  | .ppsOutRise => Sys2Proof.Machine.execPpsOutRise s
  | .ppsOutFall => Sys2Proof.Machine.execPpsOutFall s
  | .beaconTime port msg => Sys2Proof.Machine.execBeaconTime port msg s
  | .parentSilent => Sys2Proof.Machine.execParentSilent s
  | .standbyRootTakeover => Sys2Proof.Machine.execStandbyRootTakeover s
  | .rootChange port msg => Sys2Proof.Machine.execRootChange port msg s
  | .holdover => Sys2Proof.Machine.execHoldover s
  | .holdoverLimit => Sys2Proof.Machine.execHoldoverLimit s
  | .parentReturn backup => Sys2Proof.Machine.execParentReturn backup s
  | .soundMsg port msg => Sys2Proof.Machine.execSoundMsg port msg s
  | .soundingComplete port up u primarySum backupSum => Sys2Proof.Machine.execSoundingComplete port up u primarySum backupSum s
  | .acquireComplete => Sys2Proof.Machine.execAcquireComplete s
  | .legArmHiWrite v => Sys2Proof.Machine.execLegArmHiWrite v s
  | .mark => Sys2Proof.Machine.execMark s
  | .helmLoadDone core => Sys2Proof.Machine.execHelmLoadDone core s
  | .legComplete => Sys2Proof.Machine.execLegComplete s
  | .horizonCheck => Sys2Proof.Machine.execHorizonCheck s
  | .slipMsg port msg => Sys2Proof.Machine.execSlipMsg port msg s
  | .droopTrip region => Sys2Proof.Machine.execDroopTrip region s
  | .stretchFollow => Sys2Proof.Machine.execStretchFollow s
  | .freqStepApply => Sys2Proof.Machine.execFreqStepApply s
  | .freqStepUp => Sys2Proof.Machine.execFreqStepUp s
  | .regionTempReading temps => Sys2Proof.Machine.execRegionTempReading temps s
  | .tripLockoutEnd => Sys2Proof.Machine.execTripLockoutEnd s
  | .lookout core w issue => Sys2Proof.Machine.execLookout core w issue s
  | .lanternRelease => Sys2Proof.Machine.execLanternRelease s
  | .holdTimeout => Sys2Proof.Machine.execHoldTimeout s
  | .nop core w => Sys2Proof.Machine.execNop core w s
  | .predSet core w => Sys2Proof.Machine.execPredSet core w s
  | .predLogic core w => Sys2Proof.Machine.execPredLogic core w s
  | .testSync core w => Sys2Proof.Machine.execTestSync core w s
  | .statLoad core w => Sys2Proof.Machine.execStatLoad core w s
  | .statLoadComplete core array => Sys2Proof.Machine.execStatLoadComplete core array s
  | .statSwap core w => Sys2Proof.Machine.execStatSwap core w s
  | .passN core w => Sys2Proof.Machine.execPassN core w s
  | .passT core w => Sys2Proof.Machine.execPassT core w s
  | .passNDirect core w => Sys2Proof.Machine.execPassNDirect core w s
  | .passDone core array => Sys2Proof.Machine.execPassDone core array s
  | .acbFill core w => Sys2Proof.Machine.execAcbFill core w s
  | .acbFillComplete core array => Sys2Proof.Machine.execAcbFillComplete core array s
  | .elasticSliceDue core array group => Sys2Proof.Machine.execElasticSliceDue core array group s
  | .directRowPresent core array => Sys2Proof.Machine.execDirectRowPresent core array s
  | .chain core w => Sys2Proof.Machine.execChain core w s
  | .reduce core w => Sys2Proof.Machine.execReduce core w s
  | .tileMove core w => Sys2Proof.Machine.execTileMove core w s
  | .vectorComplete core => Sys2Proof.Machine.execVectorComplete core s
  | .streamArm core w => Sys2Proof.Machine.execStreamArm core w s
  | .streamHand core w => Sys2Proof.Machine.execStreamHand core w s
  | .storeHandComplete core engine => Sys2Proof.Machine.execStoreHandComplete core engine s
  | .streamRearm core w => Sys2Proof.Machine.execStreamRearm core w s
  | .streamStop core w => Sys2Proof.Machine.execStreamStop core w s
  | .leadStart core engine => Sys2Proof.Machine.execLeadStart core engine s
  | .fillAccess core bank => Sys2Proof.Machine.execFillAccess core bank s
  | .loadElementComplete core desc => Sys2Proof.Machine.execLoadElementComplete core desc s
  | .storeElementComplete core desc => Sys2Proof.Machine.execStoreElementComplete core desc s
  | .turn core w => Sys2Proof.Machine.execTurn core w s
  | .turnComplete core => Sys2Proof.Machine.execTurnComplete core s
  | .chSend core w => Sys2Proof.Machine.execChSend core w s
  | .chSendComplete core => Sys2Proof.Machine.execChSendComplete core s
  | .chRelease core w => Sys2Proof.Machine.execChRelease core w s
  | .chClose core w => Sys2Proof.Machine.execChClose core w s
  | .bellOp core w => Sys2Proof.Machine.execBellOp core w s
  | .buoyArm core w => Sys2Proof.Machine.execBuoyArm core w s
  | .buoyDisarm core w => Sys2Proof.Machine.execBuoyDisarm core w s
  | .bellTest core w => Sys2Proof.Machine.execBellTest core w s
  | .bellAdd src => Sys2Proof.Machine.execBellAdd src s
  | .bellSet src => Sys2Proof.Machine.execBellSet src s
  | .bellMax src => Sys2Proof.Machine.execBellMax src s
  | .bellRead src => Sys2Proof.Machine.execBellRead src s
  | .readValueLanding core => Sys2Proof.Machine.execReadValueLanding core s
  | .buoyRegistration core buoy => Sys2Proof.Machine.execBuoyRegistration core buoy s
  | .buoyValueArrival core buoy => Sys2Proof.Machine.execBuoyValueArrival core buoy s
  | .channelMessageLanded core ep => Sys2Proof.Machine.execChannelMessageLanded core ep s
  | .creditReturnArrival core ep => Sys2Proof.Machine.execCreditReturnArrival core ep s
  | .stackRequestArrival way => Sys2Proof.Machine.execStackRequestArrival way s
  | .stackRequestService stack pc errors => Sys2Proof.Machine.execStackRequestService stack pc errors s
  | .tideStart stack => Sys2Proof.Machine.execTideStart stack s
  | .tideEnd stack => Sys2Proof.Machine.execTideEnd stack s
  | .doublingTideStart stack => Sys2Proof.Machine.execDoublingTideStart stack s
  | .stackTempReading stack temps => Sys2Proof.Machine.execStackTempReading stack temps s
  | .rowSparing stack => Sys2Proof.Machine.execRowSparing stack s
  | .peerSignalDetect port lanes => Sys2Proof.Machine.execPeerSignalDetect port lanes s
  | .trainDone port trained => Sys2Proof.Machine.execTrainDone port trained s
  | .alignDone port locked peerModule peerPort => Sys2Proof.Machine.execAlignDone port locked peerModule peerPort s
  | .lockLoss port => Sys2Proof.Machine.execLockLoss port s
  | .retrain port => Sys2Proof.Machine.execRetrain port s
  | .laneFail port lane => Sys2Proof.Machine.execLaneFail port lane s
  | .spareTakeoverRequest port lane => Sys2Proof.Machine.execSpareTakeoverRequest port lane s
  | .spareLaneSwitch port => Sys2Proof.Machine.execSpareLaneSwitch port s
  | .spareTakeoverAck port => Sys2Proof.Machine.execSpareTakeoverAck port s
  | .codewordReceive port cw => Sys2Proof.Machine.execCodewordReceive port cw s
  | .nackReceive port index => Sys2Proof.Machine.execNackReceive port index s
  | .flitCopyExpire port => Sys2Proof.Machine.execFlitCopyExpire port s
  | .retryWaitExpire port => Sys2Proof.Machine.execRetryWaitExpire port s
  | .launchSlot port => Sys2Proof.Machine.execLaunchSlot port s
  | .transitSlot port => Sys2Proof.Machine.execTransitSlot port s
  | .retrySlot port => Sys2Proof.Machine.execRetrySlot port s
  | .freeSlot port => Sys2Proof.Machine.execFreeSlot port s
  | .flitPresent port => Sys2Proof.Machine.execFlitPresent port s
  | .c1Write f => Sys2Proof.Machine.execC1Write f s
  | .c1WriteWithAccept f => Sys2Proof.Machine.execC1WriteWithAccept f s
  | .c1ReadRequest f => Sys2Proof.Machine.execC1ReadRequest f s
  | .c1ReadResponse f => Sys2Proof.Machine.execC1ReadResponse f s
  | .c1BellOperation f => Sys2Proof.Machine.execC1BellOperation f s
  | .c1ChannelMessage f => Sys2Proof.Machine.execC1ChannelMessage f s
  | .haltMsg port msg => Sys2Proof.Machine.execHaltMsg port msg s
  | .statusMsg port msg => Sys2Proof.Machine.execStatusMsg port msg s
  | .creditMsg port msg => Sys2Proof.Machine.execCreditMsg port msg s
  | .creditDrop port msg => Sys2Proof.Machine.execCreditDrop port msg s
  | .expressBell port msg => Sys2Proof.Machine.execExpressBell port msg s
  | .windowNack port msg => Sys2Proof.Machine.execWindowNack port msg s
  | .acceptMsg port msg => Sys2Proof.Machine.execAcceptMsg port msg s
  | .c2FlitReceive port f => Sys2Proof.Machine.execC2FlitReceive port f s
  | .c2ResendTimeout port => Sys2Proof.Machine.execC2ResendTimeout port s
  | .drainEnd => Sys2Proof.Machine.execDrainEnd s
  | .tableCopyDone => Sys2Proof.Machine.execTableCopyDone s
  | .fabWinCloseWrite v => Sys2Proof.Machine.execFabWinCloseWrite v s
  | .perst => Sys2Proof.Machine.execPerst s
  | .hotReset => Sys2Proof.Machine.execHotReset s
  | .functionLevelReset => Sys2Proof.Machine.execFunctionLevelReset s
  | .pmD3hot => Sys2Proof.Machine.execPmD3hot s
  | .registerWrite offset size v => Sys2Proof.Machine.execRegisterWrite offset size v s
  | .loPairRead read => Sys2Proof.Machine.execLoPairRead read s
  | .bar2Read offset len => Sys2Proof.Machine.execBar2Read offset len s
  | .bar2Write offset data => Sys2Proof.Machine.execBar2Write offset data s
  | .moorOpen => Sys2Proof.Machine.execMoorOpen s
  | .moorClose => Sys2Proof.Machine.execMoorClose s
  | .doorbell session v => Sys2Proof.Machine.execDoorbell session v s
  | .moorRelay => Sys2Proof.Machine.execMoorRelay s
  | .relayedDoorbell session source bytes => Sys2Proof.Machine.execRelayedDoorbell session source bytes s
  | .relayStall session source => Sys2Proof.Machine.execRelayStall session source s
  | .musterWrite => Sys2Proof.Machine.execMusterWrite s
  | .ilogTailHiWrite v => Sys2Proof.Machine.execIlogTailHiWrite v s
  | .ilogHeadSetWrite v => Sys2Proof.Machine.execIlogHeadSetWrite v s
  | .coreBankData0Read core => Sys2Proof.Machine.execCoreBankData0Read core s
  | .coreBankData7Read core => Sys2Proof.Machine.execCoreBankData7Read core s
  | .coreBankData7Write core v => Sys2Proof.Machine.execCoreBankData7Write core v s
  | .streamDescData0Read core => Sys2Proof.Machine.execStreamDescData0Read core s
  | .streamDescData15Write core v => Sys2Proof.Machine.execStreamDescData15Write core v s
  | .buoyData0Read core => Sys2Proof.Machine.execBuoyData0Read core s
  | .bellQueryMaskLoRead core => Sys2Proof.Machine.execBellQueryMaskLoRead core s
  | .chEpData0Read core => Sys2Proof.Machine.execChEpData0Read core s
  | .chEpData7Write core v => Sys2Proof.Machine.execChEpData7Write core v s
  | .dbgData0Read path => Sys2Proof.Machine.execDbgData0Read path s
  | .dbgData7Read path => Sys2Proof.Machine.execDbgData7Read path s
  | .imageLoad => Sys2Proof.Machine.execImageLoad s
  | .loadComplete stop => Sys2Proof.Machine.execLoadComplete stop s
  | .keyLock => Sys2Proof.Machine.execKeyLock s
  | .kill source retain => Sys2Proof.Machine.execKill source retain s
  | .scrub => Sys2Proof.Machine.execScrub s
  | .windowTableEmpty => Sys2Proof.Machine.execWindowTableEmpty s
  | .scrubDone => Sys2Proof.Machine.execScrubDone s
  | .suspend => Sys2Proof.Machine.execSuspend s
  | .suspendSnapshot => Sys2Proof.Machine.execSuspendSnapshot s
  | .resume => Sys2Proof.Machine.execResume s
  | .powerOn => Sys2Proof.Machine.execPowerOn s
  | .powerOff => Sys2Proof.Machine.execPowerOff s
  | .serviceClear => Sys2Proof.Machine.execServiceClear s
  | .debugEnable on => Sys2Proof.Machine.execDebugEnable on s
  | .blowFuse => Sys2Proof.Machine.execBlowFuse s
  | .smbusBlockWrite offset v => Sys2Proof.Machine.execSmbusBlockWrite offset v s
  | .smbusProcessCall offset => Sys2Proof.Machine.execSmbusProcessCall offset s
  | .jtagBypass => Sys2Proof.Machine.execJtagBypass s
  | .jtagIdcode => Sys2Proof.Machine.execJtagIdcode s
  | .jtagSamplePreload pins => Sys2Proof.Machine.execJtagSamplePreload pins s
  | .jtagExtest pins => Sys2Proof.Machine.execJtagExtest pins s
  | .linkUp speed width => Sys2Proof.Machine.execLinkUp speed width s
  | .pmD0 => Sys2Proof.Machine.execPmD0 s

end Sys2Proof.Machine
end

