-- ==== Sys2Proof/Machine/Tick.lean ====
section
/-!
DEFINITION. One tick of the module's own clocks (log entry 1): what a step does on an empty queue. A tick is one nanosecond of
hall time, or one part of a cycle of the die; the steps whose moment the spec fixes are put into the queue as their commands.
-/
namespace Sys2Proof.Machine

/-- A command where a condition holds. -/
def onlyIf (p : Prop) [Decidable p] (i : Instr) : List Instr := if p then [i] else []

/-- Commands that the tick puts into the queue. -/
def enqueue (l : List Instr) (s : State) : State := { s with pending := s.pending ++ l }

/-! ## Inside a cycle: lookouts and holds (R57, R58, R60, R123) -/

/-- The rest of a core's lookouts of this cycle, first command first. -/
def looksDue (s : State) (c : Fin 32) : Nat → Nat → Nat → List Instr
  | 0, _, _ => []
  | fuel + 1, i, prev =>
    let k := s.core c
    if k.blockWords ≤ i then []
    else
      let w := cmdAt (k.bank s.seq.legMark.toNat) i
      let issue := prev + deltaOf w
      if lookCycle issue = s.seq.cycle then
        .lookout c w (BitVec.ofNat 32 issue) :: looksDue s c fuel (i + nwordsOf w) issue
      else []

/-- A core at the start of a cycle: the values that this cycle's commands compare, entries and records that are over. -/
def coreSample (t : Nat) (k : Core) : Core :=
  let k := retireEntries t k
  { k with
    preds0 := k.preds, flags0 := k.flags, counters0 := k.counters, buoys0 := k.buoys, predLate := 0, busyBanks := 0 }

/-- The mask blocks that chains take in this cycle and that have not arrived hold the die (R60, R167). -/
def maskHolds (c : Fin 32) (s : State) : State :=
  foldS (fun r s =>
    match (chMin r.words).bind fun g => maskStream (s.core c) g 4 with
    | some d => if waitMet s c (.hand (.maskIn d)) then s else holdCause c (.hand (.maskIn d)) s
    | none => s) (masksNow (s.core c) s.seq.cycle) s

/-- A store hand-over that issues in this cycle and whose block entries have not come yet holds the die, as a late follow-side hand-over
(R60, R205: DEDUCED, log entry 46). -/
def entryHolds (c : Fin 32) (s : State) : State :=
  foldS (fun e s =>
    let desc := cmdDesc e.words
    if missingEntries (s.core c) e.words = [] then s
    else holdCause c (.hand (.storeHand desc (((s.core c).stream desc).handed + bits (opA e.words) 20 16))) s)
    ((s.core c).ahead.takeWhile fun e => e.issue == s.seq.cycle) s

/-- Whether the slice of group 0 of an array is due at lateness 8 and absent (R123). -/
def escalates (s : State) (c : Fin 32) (j : Fin 2) : Bool :=
  let u := (s.core c).arr j
  match u.dueSlice 0 s.seq.cycle with
  | some (p, m) => !u.slicePresent 0 p m && u.late.get 0 == 8
  | none => false

def bothArrays : List (Fin 2) := [0, 1]

/-- The units that wait for memory go on: helm loads and copies start, what has been read or written is taken (R87, R295, R308, R324,
R327). -/
def unitsGoOn (s : State) : State := ingressWork (hostReads (fabricWork (startCopy (foldS startHelm allCores s))))

/-- The start of a cycle: words delivered at their ports, samples, lookouts, late follow-side hand-overs and escalations. -/
def samplePhase (s : State) : State :=
  let s := unitsGoOn (deliverMesh (some s.seq.cycle) s)
  let s := { s with cores := s.cores.map (coreSample s.seq.cycle), clk := { s.clk with phase := .links } }
  let s := foldS (fun c s => entryHolds c (maskHolds c s)) allCores s
  let step := s.clk.steps.any s.stepDue
  enqueue ((allCores.flatMap fun c => looksDue s c 8192 (s.core c).lookIdx (s.core c).lookPrev) ++
    (allCores.flatMap fun c => (bothArrays.filter (escalates s c)).map fun j => .elasticSliceDue c j 0) ++
    onlyIf (step) (.freqStepApply)) s

/-! ## Inside a cycle: elastic links, data work, issue -/

/-- An array whose links have something to do. -/
def linksLive (u : ArrayUnit) : Bool := !u.passes.isEmpty || u.late.toList.any fun n => n != 0

/-- Group 0 of every array (R122), and the follower stretches of this cycle (R51). -/
def linksPhase (s : State) : State :=
  let due := fun (s : State) (c : Fin 32) (j : Fin 2) => (((s.core c).arr j).dueSlice 0 s.seq.cycle).isSome
  let l := allCores.flatMap fun c => (bothArrays.filter fun j => linksLive ((s.core c).arr j)).map fun j => (c, j)
  let follow := (List.ofFn (n := 8) id).any fun r => s.clk.follows r s.seq.cycle && !(s.region r).locked s.seq.cycle
  let q := l.filterMap fun x => if due s x.1 x.2 then some (.elasticSliceDue x.1 x.2 0) else none
  enqueue (onlyIf (follow) (.stretchFollow) ++ q)
    (foldS (fun x s => if due s x.1 x.2 then s else groupStep x.1 x.2 0 s) l { s with clk := { s.clk with phase := .work } })

/-- Groups 1 to 7 of an array in order: the floor of R122, then a command for the group whose slice is due. -/
def laterGroups (c : Fin 32) (j : Fin 2) (s : State) : State :=
  foldS (fun (g : Fin 8) s =>
    if g = 0 then s
    else
      let t := s.updArr c j (raiseLate g)
      if (((t.core c).arr j).dueSlice g s.seq.cycle).isSome then enqueue [.elasticSliceDue c j g] t else groupStep c j g s)
    (List.ofFn id) s

/-- Insertion by issue cycle and command index, and the sort of the completions of a core (R168). -/
def insertDone (x : Nat × Nat × Instr) : List (Nat × Nat × Instr) → List (Nat × Nat × Instr)
  | [] => [x]
  | y :: t => if x.1 < y.1 ∨ (x.1 = y.1 ∧ x.2.1 < y.2.1) then x :: y :: t else y :: insertDone x t

/-- The completions of a core in this cycle, in command order. -/
def completions (s : State) (c : Fin 32) : List Instr :=
  let k := s.core c
  let t := s.seq.cycle
  let arr := bothArrays.flatMap fun j =>
    let u := k.arr j
    (match u.load with
      | some r => if r.complete ≤ t then [(r.issue, r.idx, Instr.statLoadComplete c j)] else []
      | none => []) ++
    ((u.passes.filter fun p => decide (p.done ≤ t)).map fun p => (p.issue, p.idx, Instr.passDone c j)) ++
    ((u.fills.filter fun f => decide (f.issue + 2 + f.count ≤ t)).map fun f => (f.issue, f.idx, Instr.acbFillComplete c j))
  let vec := (k.vec.inFlight.filter fun r => !r.skipped && !r.trapped && decide (r.done ≤ t)).map fun r =>
    (r.issue, r.idx, Instr.vectorComplete c)
  let hands := (List.ofFn (n := 4) fun e => ((k.eng e).hands.filter fun r => !r.skipped && decide (r.lastRead ≤ t)).map fun r =>
    (r.issue, r.idx, Instr.storeHandComplete c e)).flatten
  let turns := (k.turn.inFlight.filter fun r => !r.skipped && !r.readDone && tnDir r.words == 1 && decide (r.spanEnd ≤ t)).map fun r =>
    (r.issue, r.idx, Instr.turnComplete c)
  let sends := (k.sends.filter fun r => !r.skipped && decide (r.lastRead ≤ t)).map fun r => (r.issue, r.idx, Instr.chSendComplete c)
  ((arr ++ vec ++ hands ++ turns ++ sends).foldl (fun l x => insertDone x l) []).map fun x => x.2.2

/-- Records of skipped commands and of finished TURNs that no later check uses. -/
def retireSkipped (t : Nat) (k : Core) : Core :=
  { k with
    vec := { k.vec with inFlight := k.vec.inFlight.filter fun r => !(r.skipped && decide (r.done ≤ t)) }
    engines := k.engines.map fun g => { g with hands := g.hands.filter fun r => !(r.skipped && decide (r.lastRead ≤ t)) }
    sends := k.sends.filter fun r => !(r.skipped && decide (r.lastRead ≤ t))
    turn := turnRetire t k.turn }

/-- The banks of a core that serve a waiting fill now: one fill for each port (R200). A free bank whose first fill belongs to a port that makes
one at another bank in this cycle stays idle: DESIGN CHOICE (log entry 65). -/
def fillBanks (busy : U32) (l : List FillAcc) : List (BitVec 5) :=
  (l.foldl (fun (acc : List (BitVec 5) × List Nat) f =>
    let b := spBank f.addr
    if bit busy b || acc.1.contains (BitVec.ofNat 5 b) || acc.2.contains f.port || nextFill l b != some f then acc
    else (acc.1 ++ [BitVec.ofNat 5 b], acc.2 ++ [f.port])) ([], [])).1

/-- SPAD_FILL_DEFER counts each fill that a scheduled access makes wait. -/
def deferFills (k : Core) : Core :=
  let wait := fun (f : FillAcc) => bit k.busyBanks (spBank f.addr) && !f.deferred
  { k with
    fillDefer := satAdd k.fillDefer (k.fills.countP wait)
    fills := k.fills.map fun f => if wait f then { f with deferred := true } else f }

/-- The fill accesses of a core; the banks' scheduled accesses bind only while the die runs. -/
def fillEvents (s : State) (c : Fin 32) : List Instr :=
  let k := s.core c
  (fillBanks (if s.running then k.busyBanks else 0) k.fills).map fun b => .fillAccess c b

/-- The data work of a cycle, the fills of its free banks, and its completions. -/
def workPhase (s : State) : State :=
  let s := foldS (fun c s => foldS (fun j s => if linksLive ((s.core c).arr j) then laterGroups c j s else s) bothArrays s) allCores
    { s with clk := { s.clk with phase := .issue } }
  let s := meshCheck (foldS coreWork allCores s)
  let s := { s with cores := s.cores.map fun k => deferFills (retireSkipped s.seq.cycle k) }
  enqueue (allCores.flatMap (fillEvents s) ++ allCores.flatMap (completions s)) s

/-- The row of an opcode (Table 3.11). -/
def rowOf (c : Fin 32) (w : CmdWords) : Option Instr :=
  match w.opcode with
  | 0x00 => some (.nop c w)
  | 0x01 => some (.predSet c w)
  | 0x02 => some (.predLogic c w)
  | 0x03 => some (.testSync c w)
  | 0x10 => some (.statLoad c w)
  | 0x11 => some (.statSwap c w)
  | 0x12 => some (.passN c w)
  | 0x13 => some (.passT c w)
  | 0x14 => some (.passNDirect c w)
  | 0x15 => some (.acbFill c w)
  | 0x20 => some (.chain c w)
  | 0x21 => some (.reduce c w)
  | 0x22 => some (.tileMove c w)
  | 0x30 => some (.streamArm c w)
  | 0x31 => some (.streamHand c w)
  | 0x32 => some (.streamRearm c w)
  | 0x33 => some (.streamStop c w)
  | 0x40 => some (.turn c w)
  | 0x50 => some (.chSend c w)
  | 0x51 => some (.chRelease c w)
  | 0x52 => some (.chClose c w)
  | 0x60 => some (.bellOp c w)
  | 0x61 => some (.buoyArm c w)
  | 0x62 => some (.buoyDisarm c w)
  | 0x63 => some (.bellTest c w)
  | _ => none

/-- The looked-out command of a core that issues next in this cycle. -/
def issueNow (s : State) (c : Fin 32) : Option LookEntry :=
  match (s.core c).ahead with
  | e :: _ => if s.issuing e then some e else none
  | [] => none

/-- A command whose opcode has no row halts the die with OPCODE_ILLEGAL (R96). -/
def illegalNow (c : Fin 32) (s : State) : State :=
  match issueNow s c with
  | some e => if (rowOf c e.words).isNone then issueCmd (fun _ _ s => s) c e s else s
  | none => s

/-- The checks over the accesses of a cycle, once its commands have issued (R94). -/
def endCycle (s : State) : State :=
  foldS (fun c s => if (s.core c).accs.isEmpty then s else checkAfterIssue c s) allCores s

/-- The cycle is over. -/
def cycleOver (s : State) : State := { s with clk := { s.clk with phase := .wait } }

/-- The next command of every core in the issue slot of the cycle; where none is left the cycle ends with its checks. -/
def issuePhase (s : State) : State :=
  if allCores.all fun c => (issueNow s c).isNone then cycleOver (landLate (endCycle s))
  else
    let s := foldS illegalNow allCores s
    enqueue (allCores.filterMap fun c => (issueNow s c).bind fun e => rowOf c e.words) s

/-! ## The cycle of a halt (R381, R382) -/

/-- The next part of a cycle after its elastic links. A halt in the middle of a cycle leaves the checks of its issue slot (R382). -/
def midCycle (s : State) : Option State :=
  if s.running ∧ s.clk.phase = .work then some (workPhase s)
  else if s.clk.phase = .issue ∧ (s.running ∨ sameHaltCycle s) then some (issuePhase s)
  else none

/-- The effect of a command that the block itself has due; one that stops the run leaves the state, and the step reports it. -/
def runOne (s : State) (i : Instr) : State := match exec i s with | .next t => t | _ => s

/-- The effects of the commands that wait. -/
def runQueue (s : State) : State := s.pending.foldl runOne { s with pending := [] }

/-- The rest of a cycle, part after part. -/
def finishCycle : Nat → State → State
  | 0, s => s
  | n + 1, s => match midCycle s with | some t => finishCycle n (runQueue t) | none => s

/-- Slices that a bank serves in a conflict are written although the die freezes in this cycle (R199). -/
def servedWrites (c : Fin 32) (s : State) : State :=
  let k := s.core c
  let met := (perBank (accesses k s.seq.cycle)).filter fun l => 2 ≤ l.length
  let takes := fun (a : Access) => met.any fun l => l.head? == some a
  let gone := ((vecAccesses s.seq.cycle true k).filter fun a => !takes a).map (·.line)
  let t := foldS (fun r s => vecWrite c gone r s) (k.vec.inFlight.filter fun r => (r.writeSlice s.seq.cycle).isSome) s
  s.updCore c fun k => { k with spad := (t.core c).spad }

/-- A command of a core comes to the front of its looked-out ones. -/
def toFront (e : LookEntry) (k : Core) : Core := { k with ahead := k.ahead.dropWhile fun x => x != e }

/-- The effect of a last command that leaves a stream open takes place, although the die freezes in this cycle (R216). -/
def lastEffect (c : Fin 32) (s : State) : State :=
  let k := s.core c
  match k.ahead.find? fun e => e.issue == s.seq.cycle && decide (k.blockWords ≤ e.idx + nwordsOf e.words) with
  | some e =>
    match rowOf c e.words with
    | some i =>
      let t := runOne (s.updCore c (toFront e)) i
      if (t.core c).blockDone then { t with mgmt := s.mgmt } else s
    | none => s
  | none => s

/-- The elastic links of a cycle. Where a halt cause arises in the work or the commands of the cycle, no unit performs any of it (R58, R381):
the die freezes as the cycle before left it, with the record of the causes that the cycle meets (R382). -/
def runCycle (s : State) : State :=
  let t := finishCycle 8192 (runQueue (linksPhase s))
  if t.seq.state = .halted then
    cycleOver (foldS lastEffect allCores (haltWith t.mgmt.halt (foldS servedWrites allCores s)))
  else linksPhase s

/-! ## Between cycles -/

/-- The next cycle of the leg. A cycle that starts inside a nanosecond is run at the hall time of that nanosecond's start, so TIME_NOW
reads the whole nanoseconds that have passed at it. -/
def nextCycle (s : State) : State :=
  { s with
    seq := { s.seq with cycle := s.seq.cycle + 1 }
    clk := { s.clk with acc := s.clk.acc - 10000, phase := .sample } }

/-- One period of the oscillator: the count gains 1 ns and, while a phase correction is under way, 0.1 ps more or less, which is
100 ppm (R12). -/
def TimeDom.gain (t : TimeDom) : TimeDom :=
  let d : Int := if 0 < t.slew then 1 else if t.slew < 0 then -1 else 0
  { t with frac := t.frac + 10000 + d, slew := t.slew - d }

/-- The phase that the count has gained and not shown yet, after this oscillator period, or before it where a whole ns is left over. -/
def TimeDom.counted (t : TimeDom) : TimeDom := if 10000 ≤ t.frac then t else t.gain

/-- One step of the time domain: TIME_NOW counts one ns where the phase has gained one. A period that only slows the count shows none,
so the count never moves by more than 1 and never back. The run clock is locked to the count (R49, log entry 27). -/
def advance (s : State) : State :=
  let t := s.time.counted
  if 10000 ≤ t.frac then
    { s with
      time := TimeDom.notePhase { t with hallTime := t.hallTime + 1, frac := t.frac - 10000 }
      clk := if s.running then { s.clk with acc := s.clk.acc + 10 * (s.clk.freq.toNat : Int) } else s.clk }
  else { s with time := t }

/-- Waits of a hold that are satisfied now; the last one starts the 20 periods of R59. -/
def holdMet (s : State) : State :=
  match s.clk.hold with
  | some h =>
    let l := h.causes.map fun x => { x with met := x.met || waitMet s x.core x.what }
    let at_ := if h.metAt.isNone && l.all (·.met) then some s.time.hallTime else h.metAt
    { s with clk := { s.clk with hold := some { h with causes := l, metAt := at_ } } }
  | none => s

/-! ## Time domain, leg sequencer and clock -/

def timeEvents (s : State) : List Instr :=
  onlyIf (s.now % 1000000000 = 0) (.ppsOutRise) ++
  onlyIf (s.time.ppsOut ∧ 100000 ≤ s.now % 1000000000) (.ppsOutFall) ++
  onlyIf (s.switchDue) (.parentSilent) ++
  onlyIf (s.time.role = .standbyRoot ∧ ¬ s.time.actingRoot ∧ s.parentQuiet 4096) (.standbyRootTakeover) ++
  onlyIf (s.time.osc = .locked ∧ s.time.role = .member ∧ ¬ s.someParent) (.holdover) ++
  onlyIf (s.time.osc = .holdover ∧ s.time.holdoverAt.toNat + 20000000 ≤ s.now ∧ ¬ s.time.outOfSpec) (.holdoverLimit)

/-- The wait of a hold is over, or too long. -/
def holdEvents (s : State) : List Instr :=
  match s.clk.hold with
  | some h =>
    (match h.metAt with | some t => onlyIf (s.restartDue t) (.lanternRelease) | none => []) ++
    onlyIf (s.clk.holdLimit < s.now - h.since.toNat) (.holdTimeout)
  | none => []

def legEvents (s : State) : List Instr :=
  onlyIf (s.running ∧ s.clk.phase = .wait ∧ s.coresIdle) (.legComplete) ++
  onlyIf (s.seq.timed ∧ s.seq.begun ∧ ¬ s.seq.horizonDone ∧ s.seq.nextBase.toNat ≤ s.now + s.time.horizon) (.horizonCheck) ++
  holdEvents s ++
  onlyIf (s.pwr.dieOn ∧ s.upDue) (.freqStepUp) ++
  (match s.host.musters with
    | m :: _ => if s.seq.begun ∧ s.legBefore m.mark then [.musterWrite] else []
    | [] => []) ++
  onlyIf (s.snapshotReady) (.suspendSnapshot)

def lifeEvents (s : State) : List Instr :=
  (match s.pwr.closeAt with | some t => onlyIf (t.toNat + 65536 ≤ s.now) (.windowTableEmpty) | none => []) ++
  (match s.pwr.tripAt with | some t => onlyIf (t.toNat + 60000000000 ≤ s.now) (.tripLockoutEnd) | none => []) ++
  s.host.relaysIn.flatMap fun r =>
    if r.bytes ≠ 0 ∧ r.bytes.toNat ≤ r.landed.toNat then [.relayedDoorbell r.session r.source r.bytes]
    else if r.bytes ≠ 0 ∧ r.since.toNat + 1000000 ≤ s.now then [.relayStall r.session r.source] else []

/-! ## Stacks -/

/-- The services of a stack that end now, and its tides. -/
def stackEvents (s : State) (i : Fin 16) : List Instr :=
  let c := s.stack i
  ((List.ofFn (n := 32) id).flatMap fun p =>
    match (c.pc p).doing with | some e => if e ≤ 100 * s.now then [.stackRequestService i p ⟨[], []⟩] else [] | none => []) ++
  (match c.tideUntil with | some u => onlyIf (u.toNat ≤ s.now) (.tideEnd i) | none => []) ++
  onlyIf (s.stackRuns i ∧ s.now % 3904 = 244 * i.val) (.tideStart i) ++
  onlyIf (s.stackRuns i ∧ c.doubling ∧ s.now % 3904 = (244 * i.val + 1952) % 3904) (.doublingTideStart i)

/-- Services that can begin. -/
def beginServices (c : StackCtl) : StackCtl := { c with pcs := c.pcs.map (beginNext c) }

/-- The readings of every temperature sensor, at every multiple of 1,000 ns (R50, R272). -/
def readings (s : State) : List Instr :=
  if s.now % 1000 = 0 then
    onlyIf (s.pwr.dieOn) (.regionTempReading s.clk.sensors) ++
      (if s.pwr.mainOn then allStacks.map fun i => .stackTempReading i (s.stack i).sensors else [])
  else []

/-- Tiers that the samples of the main input make due, and the end of the wait for it (R361, R364). -/
def supplyEvents (s : State) : State :=
  let p := s.pwr
  if s.now % 1000 ≠ 0 ∨ ¬ p.standbyOn then s
  else
    let on := p.phase != .standby && p.phase != .standbyRelay
    if on ∧ p.tier.val < p.deepest then
      let quick := decide (p.deepest = 5) && decide ((p.below.get 2) < 220)
      let (v, s) := if quick then s.fresh else (0, s)
      enqueue [.tierEntry (Fin.ofNat 6 p.deepest) p.vinPin (bit v 0)] s
    else
      enqueue (onlyIf (on ∧ p.tier.val = 1 ∧ 1000 ≤ p.above1) (.tierLeave 1 p.vinPin) ++
        onlyIf (on ∧ p.tier.val = 2 ∧ 1000 ≤ p.above2) (.tierLeave 2 p.vinPin) ++
        onlyIf (s.rampDue) (.mainInputStable p.vinPin)) s

/-! ## Elements and TURNs (R212, R223, R224) -/

/-- Elements that are complete, direct rows that are at the links, DIR 0 TURNs and messages that have landed, values of READs that are written,
and helm loads that are done. -/
def elemEvents (s : State) (c : Fin 32) : List Instr :=
  let k := s.core c
  (k.streams.flatMap fun x =>
    let d := sdKind (tget 0 k.descs x.1)
    let desc : BitVec 11 := BitVec.ofNat 11 x.1
    if d = 1 ∨ d = 4 then List.replicate (x.2.elems.countP fun e => e.need == 0 && !e.done) (.loadElementComplete c desc)
    else if d = 2 ∨ d = 5 then List.replicate (x.2.elems.countP fun e => e.started && e.need == 0) (.storeElementComplete c desc)
    else []) ++
  (bothArrays.filter fun j => (arrivedRow k j).isSome).map (.directRowPresent c) ++
  ((k.turn.inFlight.filter fun r => !r.skipped && !r.readDone && tnDir r.words == 0 && decide (tnTiles r.words ≤ r.tile)).map fun _ =>
    .turnComplete c) ++
  (match k.path with
    | .message m :: _ => onlyIf (k.pathNeed = some 0) (.channelMessageLanded (coreOf m.core.toNat) m.ep)
    | _ => []) ++
  List.replicate (k.readValues.countP fun v => v.need == some 0) (.readValueLanding c) ++
  onlyIf ((s.helmJob c).any fun j => j.need == 0) (.helmLoadDone c)

/-! ## Fabric -/

/-- The row of a class-1 flit. -/
def c1Event (f : Flit) : List Instr :=
  match f.ikind.toNat with
  | 0 => [.c1Write f]
  | 1 => [.c1WriteWithAccept f]
  | 2 => [.c1ReadRequest f]
  | 3 => [.c1ReadResponse f]
  | 4 => [.c1BellOperation f]
  | 5 => [.c1ChannelMessage f]
  | _ => []

/-- The row of a class-0 message (Table 11.6). -/
def c0Event (p : Fin 16) (m : C0Msg) : List Instr :=
  match c0get m 0 1 with
  | 1 => [.beaconTime p m]
  | 2 => [.soundMsg p m]
  | 3 => [.rootChange p m]
  | 4 => [.slipMsg p m]
  | 5 => [.haltMsg p m]
  | 6 => [.statusMsg p m]
  | 7 => [.creditMsg p m]
  | 8 => [.creditDrop p m]
  | 9 => [.expressBell p m]
  | 10 => [.windowNack p m]
  | 11 => [.acceptMsg p m]
  | _ => []

def allLanes : List (Fin 5) := List.ofFn id

/-- What has come in on a port since the last tick, and what it makes due. -/
def portEvents (s : State) (p : Fin 16) : List Instr :=
  let f := s.port p
  f.c0in.flatMap (c0Event p) ++ f.c2Arrived.map (.c2FlitReceive p) ++ f.nackIn.map (.nackReceive p) ++
  (if h : 1 ≤ f.rxCode.toNat ∧ f.rxCode.toNat ≤ 4 then
      let lane : Fin 4 := ⟨f.rxCode.toNat - 1, by omega⟩
      if f.txDup.isNone ∧ f.txStopped ≠ some lane then [.spareTakeoverRequest p lane] else []
    else if f.rxCode = 5 ∧ f.txDup.isSome then [.spareTakeoverAck p] else []) ++
  ((allLanes.filter fun l => f.state == .up && decide (10000 < f.laneSum l)).map fun l => .laneFail p l) ++
  onlyIf (s.switchReady f) (.spareLaneSwitch p) ++
  (if f.state ≠ .align then []
   else if 8 ≤ f.syncRun ∧ f.identKnown then [.alignDone p true f.peerModule f.peerPort]
   else if f.alignAt.toNat + 1000000 ≤ s.now then [.alignDone p false 0 0] else []) ++
  (match f.c2Sent with | e :: _ => onlyIf (e.1.toNat + 2000 ≤ s.now) (.c2ResendTimeout p) | [] => [])

def portTaken (f : FabPort) : FabPort := { f with c0in := [], nackIn := [], rxCode := 0 }

/-- The rows of a port at the start of a slot (R303 to R306, R311). -/
def slotEvents (s : State) (p : Fin 16) : List Instr :=
  let f := s.port p
  onlyIf (f.present.any fun h => decide (h.slot ≤ s.slot)) (.flitPresent p) ++
  onlyIf (f.copies.any fun h => decide (h.slot + 4096 ≤ s.slot)) (.flitCopyExpire p) ++
  onlyIf (f.retry.any fun h => decide (h.slot + 8192 ≤ s.slot)) (.retryWaitExpire p) ++
  (if f.state ≠ .up then []
   else if f.transit.any fun h => h.slot == s.slot then [.transitSlot p]
   else match entryType (s.entryNow p s.slot) with
    | 0 => [.freeSlot p]
    | 1 => [.launchSlot p]
    | 2 => [.transitSlot p]
    | _ => [.retrySlot p])

/-- Ports in ALIGN and SOUND carry cells in empty flits (Table 11.2). -/
def idleCells (s : State) : State :=
  foldS (fun p s => if (s.port p).state = .align ∨ (s.port p).state = .sound then sendFlit p emptyFlit s else s) allPorts s

/-- A slot of 3.2 ns starts in this nanosecond. -/
def State.slotStart (s : State) : Bool := s.slot != slotAt (s.now - 1)

def fabricEvents (s : State) : List Instr :=
  allPorts.flatMap (portEvents s) ++ (if s.slotStart then allPorts.flatMap (slotEvents s) else []) ++
  (s.fab.landing.filter fun h => decide (h.slot ≤ s.slot)).flatMap (fun h => c1Event h.flit)

/-! ## The tick -/

/-- The supply readings at their sampling times (R364, Table 14.9): the main input at its level, the standby input and the power, which no
rule gives, as free values. -/
def supplyReadings (s : State) : State :=
  let s := if s.now % 1000 = 0 then
      let (v, s) := s.fresh
      { s with pwr := samplePin { s.pwr with vstandby := v.setWidth 16 } }
    else s
  if s.now % 1000000 = 0 ∧ s.pwr.tier.val = 0 then
    let (v, s) := s.fresh
    { s with pwr := { s.pwr with watts := v.setWidth 16 } }
  else s

/-- What a nanosecond begins with: the end of a drain and the mark, which everything else of the nanosecond follows (R32, R296). -/
def markEvents (s : State) : List Instr :=
  (match s.fab.drainUntil with | some t => onlyIf (t ≤ s.slot) (.drainEnd) | none => []) ++
  onlyIf (s.copyRead.isSome) (.tableCopyDone) ++
  onlyIf (s.seq.timed ∧ s.seq.nextAt.toNat ≤ s.now ∧ ¬ s.withheld) (.mark)

/-- Everything that comes about in a nanosecond after its mark, outside the cycles of the die. -/
def afterMark (s : State) : State :=
  let s := supplyReadings (unitsGoOn { s with clk := { s.clk with rest := false } })
  let s := { s with stks := s.stks.map beginServices }
  let s := foldS (fun c s => if (s.core c).turn.inFlight.isEmpty then s else turnAdvance c s) allCores s
  let s := if s.slotStart then idleCells s else s
  let l := timeEvents s ++ fabricEvents s ++ allStacks.flatMap (stackEvents s) ++ readings s ++
    (if s.running then [] else allCores.flatMap (fillEvents s)) ++ allCores.flatMap (elemEvents s) ++ legEvents s ++ lifeEvents s
  supplyEvents (enqueue l { s with fab := { s.fab with ports := s.fab.ports.map portTaken } })

/-- One period of the oscillator: where the count moves, the nanosecond begins. -/
def nanosecond (s : State) : State :=
  let t := advance (holdMet s)
  if t.time.hallTime = s.time.hallTime then t
  else if markEvents t = [] then afterMark t
  else enqueue (markEvents t) { t with clk := { t.clk with rest := true } }

/-- A tick outside the parts of a cycle: the next cycle, or a nanosecond. A module without standby power, or whose oscillator is not stable
yet, waits. -/
def betweenCycles (s : State) : State :=
  if s.running ∧ s.clk.phase = .wait ∧ 10000 < s.clk.acc + 10 * (s.clk.freq.toNat : Int) ∧ ¬ s.coresIdle then nextCycle s
  else if s.pwr.standbyOn ∧ s.time.osc ≠ .reset then nanosecond s
  else s

/-- One tick: the rest of a nanosecond that began with a mark, the next part of the cycle the die is in, the next cycle, or a nanosecond. -/
def tick (s : State) : State :=
  if s.clk.rest then afterMark s
  else if s.running ∧ s.clk.phase = .sample then samplePhase s
  else if s.running ∧ s.clk.phase = .links then runCycle s
  else match midCycle s with
    | some t => t
    | none => betweenCycles (landLate s)

end Sys2Proof.Machine
end

