-- ==== Sys2Proof/Certificates/Slice0/Obligations.lean ====
section
/-!
DEFINITION. The statements for the provers, in the order of OBLIGATIONS.json. A statement about a command gives the state it leaves, or
what that state holds and what it leaves unchanged, under hypotheses on the state and the operands alone; helpers stand under
Sys2Proof.Claims. A hypothesis that a table holds no entry at a key, or that stack memory holds no stored error, picks the ordinary case
and is met by the states of Sys2Proof/Tests/Slice0.lean.
-/
open Sys2Proof Sys2Proof.Machine

/-- The whole-module invariant: stack memory is in canonical form, and DEBUG_ENABLE is 1 only while the debug fuse is intact
(R373). -/
def Sys2Proof.Claims.Inv (s : State) : Prop :=
  Memory.wf s.dram = true ∧ (s.pwr.debugEnable = true → s.pwr.debugFuse = true)

/-- A step takes the command at the front of the queue and runs it on the state with the queue's rest; an empty queue gives one
tick of the module's own clocks (the tick is the model's choice, log entry 1). -/
def Obligations.StepRunsTheFrontCommand : Prop :=
  (∀ (c : Instr) (rest : List Instr) (s : State), step { s with pending := c :: rest } = exec c { s with pending := rest }) ∧
  (∀ s : State, s.pending = [] → step s = .next (tick s))

/-- What reset leaves: the registers' reset values of the manual and an empty queue; the invariant holds there. -/
def Obligations.ResetState : Prop :=
  Claims.Inv State.reset ∧ State.reset.pending = [] ∧ State.reset.dram = [] ∧
  State.reset.time.osc = .reset ∧ State.reset.time.pathBudget = 0xFFFFFFFF ∧ State.reset.time.slipCfg = 0x00800040 ∧
  State.reset.time.legCfg = 0x0000003C ∧ State.reset.seq.state = .empty ∧ State.reset.clk.freq = 1250 ∧
  State.reset.clk.cfg = 0x00004028 ∧ State.reset.clk.thermal = 0x00005F5A ∧ State.reset.clk.holdCfg = 0x00271010 ∧
  State.reset.pwr.phase = .standby ∧ State.reset.pwr.cfg = 0x80000010 ∧ State.reset.pwr.serviceCfg = 0x19 ∧
  State.reset.fab.c0Bound = 0x3C4 ∧ State.reset.fab.drain = 0x400 ∧ State.reset.host.musterDepth = 2 ∧
  State.reset.host.ilogWarn = 0x10 ∧ State.reset.mgmt.errLog = [] ∧ State.reset.mgmt.halt.valid = false ∧
  (∀ p, (State.reset.port p).state = .down ∧ (State.reset.port p).soundU = 0xFFFF ∧ (State.reset.port p).soundD = 0xFFFF) ∧
  (∀ c, (State.reset.core c).flags = 0 ∧ (State.reset.core c).preds = 0 ∧ (State.reset.core c).counters = Vector.replicate 32 0)

/-- Every step, of any command or of the tick, keeps the invariant (R373). -/
def Obligations.EveryStepKeepsTheInvariant : Prop :=
  ∀ s t : State, Claims.Inv s → step s = .next t → Claims.Inv t

/-- The debug fuse (R373): DEBUG_FUSE reads 1 while the fuse is intact; DEBUG_ENABLE is set only while the fuse is intact and the state
is EMPTY, and any write of 0 clears it; BLOW in EMPTY blows the fuse and clears DEBUG_ENABLE, and does nothing in any other state; no
step of the module makes a blown fuse intact. -/
def Obligations.DebugFuseFollowsR373 : Prop :=
  ∀ s : State,
    (∀ p : Path, (regValue s p 0xA00020).getLsbD 0 = s.pwr.debugFuse ∧ (regValue s p 0xA00020).getLsbD 1 = s.pwr.debugEnable) ∧
    exec (.debugEnable true) s = .next (if s.pwr.debugFuse = true ∧ s.seq.state = .empty then
      { s with pwr := { s.pwr with debugEnable := true } } else s) ∧
    exec (.debugEnable false) s = .next { s with pwr := { s.pwr with debugEnable := false } } ∧
    exec .blowFuse s = .next (if s.seq.state = .empty then
      { s with pwr := { s.pwr with debugFuse := false, debugEnable := false } } else s) ∧
    (∀ v : U32, s.pwr.standbyOn = true → s.pwr.phase ≠ .standby → s.pwr.phase ≠ .standbyRelay → v.getLsbD 2 = true → s.seq.state = .empty →
      exec (.registerWrite 0xA00020 4 v) s = .next { s with pwr := { s.pwr with debugFuse := false, debugEnable := false } }) ∧
    (∀ t : State, step s = .next t → (s.pwr.debugFuse = false → t.pwr.debugFuse = false) ∧
      (s.pwr.debugEnable = false → t.pwr.debugEnable = true → s.pwr.debugFuse = true ∧ s.seq.state = .empty))

/-- While LOCK is set, no step changes a key slot or clears LOCK but the loss and the return of standby power (R349, R363). -/
def Obligations.LockedKeySlotsAreFrozen : Prop :=
  ∀ s t : State, s.loader.keyCfg.getLsbD 31 = true →
    s.pending.head? ≠ some .standbyPowerOn → s.pending.head? ≠ some .standbyPowerLoss → step s = .next t →
    t.loader.keyHash = s.loader.keyHash ∧ t.loader.keyCfg = s.loader.keyCfg

/-- STANDBY_POWER_ON and STANDBY_POWER_LOSS (R361, R363, Table 14.5): everything is cleared but the fuses, the sparing remaps and
candidates, and what is outside the module (its input pins and the queue of commands). After power-on a stack whose kept remaps
meet a condition of PWR_SERVICE raises the replace-request and nothing else is different. -/
def Obligations.StandbyPowerClearsTheModule : Prop :=
  ∀ s : State,
    exec .standbyPowerLoss s = .next { State.reset with
      time := { refPin := s.time.refPin, ppsPin := s.time.ppsPin }
      stks := s.stks.map fun c => { cands := c.cands, spared := c.spared, sparesUsed := c.sparesUsed }
      pwr := { standbyOn := false, fuses := s.pwr.fuses, debugFuse := s.pwr.debugFuse }
      freeCount := s.freeCount, pending := s.pending } ∧
    ∃ t : State, exec .standbyPowerOn s = .next t ∧
      (t.pwr.svcRequest = true ↔ ∃ i, t.stackWorn i = true) ∧
      t = { State.reset with
        time := { refPin := s.time.refPin, ppsPin := s.time.ppsPin }
        stks := s.stks.map fun c => { cands := c.cands, spared := c.spared, sparesUsed := c.sparesUsed }
        pwr := { standbyOn := true, fuses := s.pwr.fuses, debugFuse := s.pwr.debugFuse
                 svcRequest := t.pwr.svcRequest, event := if t.pwr.svcRequest then 2 else 0
                 eventNow := if t.pwr.svcRequest then { set := 2 } else {} }
        host := { irqCause := if t.pwr.svcRequest then 2 else 0, irqNow := if t.pwr.svcRequest then { set := 2 } else {}, msixSent := if t.pwr.svcRequest then [1] else [] }
        fab := { statusSeq := if t.pwr.svcRequest then 1 else 0 }
        freeCount := s.freeCount, pending := s.pending }

/-- The main rails going off (POWER_OFF in EMPTY, MAIN_INPUT_LOSS in any state; R363, Table 14.5): die, stacks and port tiles are
cleared; the time domain with its mark registers, the management controller's registers, the error log and the halt record are kept. POWER_OFF in another
state is ignored. -/
def Obligations.MainPowerCycleClearsAndKeeps : Prop :=
  ∀ (s : State) (i : Instr),
    (i = .mainInputLoss ∨ i = .powerOff ∧ s.seq.state = .empty ∧ s.pwr.phase ≠ .standby →
      ∃ t : State, exec i s = .next t ∧
        t.time = s.time ∧ t.mgmt = s.mgmt ∧ t.loader.keyHash = s.loader.keyHash ∧ t.loader.keyCfg = s.loader.keyCfg ∧
        t.pwr.cfg = s.pwr.cfg ∧ t.pwr.event = s.pwr.event ∧ t.pwr.debugEnable = s.pwr.debugEnable ∧ t.pwr.fuses = s.pwr.fuses ∧
        t.pwr.debugFuse = s.pwr.debugFuse ∧ t.pwr.svcRequest = s.pwr.svcRequest ∧ t.pwr.tierCounts = s.pwr.tierCounts ∧
        (∀ k, (t.stack k).cands = (s.stack k).cands ∧ (t.stack k).spared = (s.stack k).spared ∧
          (t.stack k).sparesUsed = (s.stack k).sparesUsed ∧ (t.stack k).meshq = [] ∧ (t.stack k).selfRefresh = false) ∧
        t.seq = { mark := s.seq.mark, nextAt := s.seq.nextAt, floorLegs := s.seq.floorLegs } ∧ t.jobs = [] ∧ t.clk = {} ∧ t.cores = Vector.replicate 32 {} ∧ t.groups = [] ∧ t.dram = [] ∧ t.errs = [] ∧ t.host = {} ∧
        t.fab = { moduleReg := s.fab.moduleReg } ∧ t.pwr.phase = .standby ∧ t.pwr.mainOn = false ∧ t.pwr.dieOn = false ∧
        t.pwr.retained = false ∧ t.pwr.killPending = false ∧ t.pwr.waitPowerOn = decide (i = .powerOff) ∧ t.pending = s.pending) ∧
    (s.seq.state ≠ .empty → exec .powerOff s = .next s)

/-- MAIN_INPUT_STABLE and POWER_ON (R361, R369, R377): a module whose rails are off, its time domain running, its input within 46.0 to
56.0 V for 10,000 samples of 1 µs, starts phase 1 by itself when AUTO_ON is 1 and no POWER_OFF keeps it off, and else at POWER_ON; the
report changes no count of samples at 47.0 V or more. After tier 4 or a trip POWER_ON starts it once the input has been at 47.0 V or more
for 1,000 samples, and the stacks are kept where the bring-up had been complete. While a trip lockout runs POWER_ON is ignored. The
sample period of 1 µs and the restart at tier 0 with FAIL cleared are the model's choice (log entry 34). -/
def Obligations.PowerOnStartsBringup : Prop :=
  ∀ (s : State) (mv : U16),
    (∀ stable : Nat, stable = (if 46000 ≤ mv.toNat ∧ mv.toNat ≤ 56000 then max 10000 s.pwr.stable else s.pwr.stable) →
      (s.pwr.standbyOn = true → s.pwr.phase = .standby ∨ s.pwr.phase = .standbyRelay → s.time.osc ≠ .reset → 10000 ≤ stable →
        s.pwr.waitPowerOn = false → s.pwr.cfg.getLsbD 31 = true →
        exec (.mainInputStable mv) s = .next { s with pwr := { s.pwr with
          vinPin := mv, stable := stable, tier := 0, phase := .ramp, waitPowerOn := false, fail := false, fastResume := false } }) ∧
      (¬ (s.pwr.standbyOn = true ∧ (s.pwr.phase = .standby ∨ s.pwr.phase = .standbyRelay) ∧ s.time.osc ≠ .reset ∧ 10000 ≤ stable ∧
          s.pwr.waitPowerOn = false ∧ s.pwr.cfg.getLsbD 31 = true) →
        exec (.mainInputStable mv) s = .next { s with pwr := { s.pwr with vinPin := mv, stable := stable } })) ∧
    (s.pwr.tripAt ≠ none → exec .powerOn s = .next s) ∧
    (s.pwr.tripAt = none → s.pwr.standbyOn = true → s.pwr.phase = .standby ∨ s.pwr.phase = .standbyRelay → s.time.osc ≠ .reset →
      exec .powerOn s = .next (if 10000 ≤ s.pwr.stable then
        { s with pwr := { s.pwr with phase := .ramp, tier := 0, waitPowerOn := false, fail := false, fastResume := false } } else s)) ∧
    (s.pwr.phase = .dieOff → 1000 ≤ s.pwr.above1 → s.pwr.tripAt = none → s.host.deferred = [] → s.host.tasks = [] →
      ∃ t : State, exec .powerOn s = .next t ∧ t = { s with clk := t.clk, pwr := { s.pwr with
        phase := .ramp, waitPowerOn := false, fail := false, fastResume := s.pwr.broughtUp, tier := 0
        event := if s.pwr.tier = 0 then s.pwr.event else setBit s.pwr.event 2 true
        eventNow := t.pwr.eventNow } } ∧ t.dram = s.dram ∧ (s.pwr.tier = 0 → t.clk = s.clk)) ∧
    (s.pwr.phase = .dieOff → s.pwr.above1 < 1000 → exec .powerOn s = .next s)

/-- BRINGUP_PHASE_DONE (R361, R362, R369, Table 14.4): the phases follow in order while none has failed; the scrub of step 7 leaves die
state and all stack memory zero and the registers of the standby domain as they were (Table 16.3); on a return after tier 4 the stacks leave
self-refresh at the end of step 3, the ports that are not UP train again and zeroing begins last; a failed RAMP or STACKS phase sets FAIL and
PWR_EVENT.BRINGUP_FAIL with the main rails off, and the bring-up goes no further. -/
def Obligations.BringupPhasesFollowTable14_4 : Prop :=
  ∀ (s : State) (met : List (Nat × ErrPat)), s.pwr.fail = false →
    (s.pwr.phase = .ramp → exec (.bringupPhaseDone ⟨false, met⟩) s =
      .next { s with pwr := { s.pwr with phase := .stackInit, mainOn := true, dieOn := true } }) ∧
    (s.pwr.phase = .stackInit → s.pwr.fastResume = false → ∃ t : State, exec (.bringupPhaseDone ⟨false, met⟩) s = .next t ∧
      (∀ k, (t.stack k).selfRefresh = false) ∧
      t = { s with stks := t.stks, pwr := { s.pwr with phase := .ports }
                   fab := { s.fab with ports := s.fab.ports.map fun p => { p with state := .train } } }) ∧
    (s.pwr.phase = .stackInit → s.pwr.fastResume = true → ∃ t : State, exec (.bringupPhaseDone ⟨false, met⟩) s = .next t ∧
      (∀ k, (t.stack k).selfRefresh = false) ∧
      t = { s with
        stks := t.stks
        fab := { s.fab with ports := s.fab.ports.map fun p => if p.state = .up then p else { p with state := .train } }
        pwr := { s.pwr with phase := .killed, fastResume := false, zeroing := t.pwr.zeroing } } ∧
      (t.pwr.zeroing = true ↔ s.pwr.zeroing = true ∨
        s.pwr.killPending = true ∧ s.pwr.retained = false ∧ s.pwr.closeAt = none ∧ s.pwr.dieOn = true)) ∧
    (s.pwr.phase = .ports → s.time.osc ≠ .reset → ∃ t : State, exec (.bringupPhaseDone ⟨false, met⟩) s = .next t ∧
      t = { s with pwr := { s.pwr with phase := .sounding }, time := t.time, fab := { s.fab with rootChangeSeen := false } } ∧
      t.time.osc = .sounding ∧ t.time.hallTime = s.time.hallTime ∧ t.time.role = roleOfCfg s.time.beaconCfg ∧
      (t.time.actingRoot = true ↔ roleOfCfg s.time.beaconCfg = .root)) ∧
    (s.pwr.phase = .sounding → s.time.osc = .sounding → (∀ p, (s.port p).state ≠ .sound) →
      ∃ t : State, exec (.bringupPhaseDone ⟨false, met⟩) s = .next t ∧
        t = { s with pwr := { s.pwr with phase := .locking }, time := t.time } ∧ t.time.hallTime = s.time.hallTime ∧
        t.time.osc = (if s.time.role = .root then .locked else if s.someParent then .acquire else .freeRun)) ∧
    (s.pwr.phase = .sounding → (∃ p, (s.port p).state = .sound) → exec (.bringupPhaseDone ⟨false, met⟩) s = .next s) ∧
    (s.pwr.phase = .locking → exec (.bringupPhaseDone ⟨false, met⟩) s =
      .next (if s.time.osc = .locked then { s with pwr := { s.pwr with phase := .scrub } } else s)) ∧
    (s.pwr.phase = .scrub → ∃ t : State, exec (.bringupPhaseDone ⟨false, met⟩) s = .next t ∧ t.pwr.phase = .ready ∧
      t.cores = Vector.replicate 32 {} ∧ t.groups = [] ∧ t.dram = [] ∧ t.errs = []) ∧
    (s.pwr.phase = .scrub → s.errs = [] → met = [] → ∃ t : State, exec (.bringupPhaseDone ⟨false, met⟩) s = .next t ∧
      t.time = s.time ∧ t.mgmt = s.mgmt ∧ t.seq = s.seq ∧ t.clk = { s.clk with hold := none, mesh := [], reqs := [] } ∧ t.pwr.suspMarkLo = s.pwr.suspMarkLo ∧
      t.pwr.suspMarkHi = s.pwr.suspMarkHi ∧ t.pwr.suspBaseLo = s.pwr.suspBaseLo ∧ t.pwr.suspBaseHi = s.pwr.suspBaseHi ∧
      t.pwr.resumeLo = s.pwr.resumeLo ∧ t.pwr.resumeHi = s.pwr.resumeHi) ∧
    (s.pwr.phase = .ramp ∨ s.pwr.phase = .stackInit → ∃ t : State, exec (.bringupPhaseDone ⟨true, met⟩) s = .next t ∧
      t.pwr.fail = true ∧ t.pwr.mainOn = false ∧ t.pwr.dieOn = false ∧ t.pwr.phase = s.pwr.phase ∧
      t.pwr.event.getLsbD 6 = true ∧ t.dram = [] ∧ t.time = s.time ∧ t.mgmt = s.mgmt ∧
      ∀ again : PhaseEnd, exec (.bringupPhaseDone again) t = .next t)

/-- TIER_ENTRY 1 and 2, and TIER_LEAVE (R364, Table 14.6): below 46.0 or 44.0 V, entering caps f at 1,150 or 1,000 MHz in one change, counts
the entry and sets PWR_EVENT.TIER_CHANGE; leaving tier 2 at 45.0 V goes to 0 when tier 1's own condition holds, else to 1; a cap that
lifts restarts the time of R55. A report whose level or tier neither enters nor leaves a tier changes the level of the input alone. That
a run of 1,000 samples of 1 µs judges a leave condition is log entry 34. The leaves are stated for a module without mooring requests in
work. -/
def Obligations.ShedTiersOneAndTwo : Prop :=
  ∀ (s : State) (mv : U16) (fast : Bool) (n : Fin 6), s.pwr.standbyOn = true →
    (n = 1 ∧ s.pwr.tier = 0 ∧ mv.toNat < 46000 ∨ n = 2 ∧ s.pwr.tier = 1 ∧ mv.toNat < 44000 →
      ∃ t : State, exec (.tierEntry n mv fast) s = .next t ∧
        t = { s with clk := t.clk, pwr := { s.pwr with
          tier := n, vinPin := mv
          below := Vector.ofFn fun i => if i.val < n.val then max 20 (s.pwr.below.get i) else s.pwr.below.get i
          event := setBit s.pwr.event 2 true, eventNow := t.pwr.eventNow
          tierCounts := s.pwr.tierCounts.set (if n = 1 then 0 else 1) (satInc (s.pwr.tierCounts.get (if n = 1 then 0 else 1))) (by split <;> decide) } } ∧
        t.clk.freq = s.clk.freq ∧ t.clk.target ≤ (if n = 1 then 1150 else 1000) ∧
        (s.clk.steps = [] → (if n = 1 then 1150 else 1000) < s.clk.freq.toNat → t.clk.steps =
          [⟨.cap (if n = 1 then 1150 else 1000), if n = 1 then 3 else 4, if s.running then some (s.seq.cycle + 8) else none⟩]) ∧
        (s.clk.steps = [] → s.clk.freq.toNat ≤ (if n = 1 then 1150 else 1000) → t.clk = s.clk)) ∧
    (s.pwr.tier = 2 → 45000 ≤ mv.toNat → s.host.deferred = [] → s.host.tasks = [] → s.clk.target ≤ 1000 →
      ∃ t : State, exec (.tierLeave 2 mv) s = .next t ∧ t = { s with
        pwr := { s.pwr with
          tier := if 1000 ≤ s.pwr.above1 then 0 else 1, vinPin := mv, above2 := max 1000 s.pwr.above2
          event := setBit s.pwr.event 2 true, eventNow := t.pwr.eventNow }
        clk := { s.clk with lastTrigger := s.time.hallTime } }) ∧
    (s.pwr.tier = 1 → 47000 ≤ mv.toNat → s.host.deferred = [] → s.host.tasks = [] → s.clk.target ≤ 1150 →
      ∃ t : State, exec (.tierLeave 1 mv) s = .next t ∧ t = { s with
        pwr := { s.pwr with
          tier := 0, vinPin := mv, above1 := max 1000 s.pwr.above1, above2 := max 1000 s.pwr.above2
          event := setBit s.pwr.event 2 true, eventNow := t.pwr.eventNow }
        clk := { s.clk with lastTrigger := s.time.hallTime } }) ∧
    (∀ i : Instr,
      i = .tierEntry n mv fast ∧ (n ≤ s.pwr.tier ∨ n = 1 ∧ 46000 ≤ mv.toNat ∨ n = 2 ∧ 44000 ≤ mv.toNat ∨ n = 3 ∧ 42000 ≤ mv.toNat ∨
        n = 4 ∧ 40000 ≤ mv.toNat ∨ n = 5 ∧ 36000 ≤ mv.toNat) ∨
      i = .tierLeave n mv ∧ (n ≠ s.pwr.tier ∨ n ≠ 1 ∧ n ≠ 2 ∨ n = 1 ∧ mv.toNat < 47000 ∨ n = 2 ∧ mv.toNat < 45000) →
      exec i s = .next { s with pwr := { s.pwr with vinPin := mv } })

/-- TIER_ENTRY 3 and 4 (R366, R368, R369, Table 14.6), for a module whose stack queues are empty: tier 3 parks a gated die, as a hold that is
counted, with every stack in self-refresh; tier 4 halts the die with KILL, detail words 2 and the input in mV, then its power is off, its
state is gone, and the stacks are in self-refresh with their memory kept; a fall from 42.0 to 36.0 V in less than 200 µs, which the
operand `fast` names (log entry 34), leaves them without self-refresh and their contents lost. -/
def Obligations.DeepTiersParkAndPowerOff : Prop :=
  ∀ (s : State) (mv : U16) (fast : Bool), s.pwr.standbyOn = true →
    (∀ i, (s.stack i).toRefresh = false ∧ ∀ p, ((s.stack i).pc p).q = []) →
    (s.pwr.tier = 2 → mv.toNat < 42000 → s.seq.state = .gated → s.seq.parked = false → s.seq.suspended = false → s.seq.suspendReq = none →
      s.pwr.phase = .ready → ∃ t : State, exec (.tierEntry 3 mv fast) s = .next t ∧
        t.seq = { s.seq with parked := true } ∧ t.clk = { s.clk with holdCount := s.clk.holdCount + 1 } ∧
        (∀ i, (t.stack i).selfRefresh = true) ∧ t.cores = s.cores ∧ t.dram = s.dram ∧ t.mgmt = s.mgmt ∧ t.time = s.time ∧
        t.pwr.phase = .parked ∧ t.pwr.tier = 3 ∧ t.pwr.event = setBit s.pwr.event 2 true) ∧
    (s.pwr.tier = 3 → mv.toNat < 40000 → s.pwr.dieOn = true → s.seq.state ≠ .empty → s.seq.state ≠ .halted → s.loader.busy = false →
      ∃ t : State, exec (.tierEntry 4 mv fast) s = .next t ∧
        t.seq.state = .halted ∧ t.mgmt.halt.valid = true ∧ t.mgmt.halt.reason = 0x11 ∧ t.mgmt.halt.engine = 0x13 ∧
        t.mgmt.halt.noCore = true ∧ t.mgmt.halt.detail0 = 2 ∧ t.mgmt.halt.detail1 = mv.setWidth 64 ∧
        t.mgmt.halt.time = s.time.hallTime ∧ t.pwr.event.getLsbD 0 = true ∧ t.pwr.event.getLsbD 2 = true ∧
        t.cores = Vector.replicate 32 {} ∧ t.groups = [] ∧ t.pwr.dieOn = false ∧ t.pwr.phase = .dieOff ∧ t.pwr.tier = 4 ∧
        (∀ i, (t.stack i).selfRefresh = !fast) ∧ t.dram = (if fast then [] else s.dram) ∧ t.time.hallTime = s.time.hallTime)

/-- A class-0 flood (R299): every UP port but the one it came by queues the message (R301), and nothing else changes. -/
def Sys2Proof.Claims.Flooded (came : Option (Fin 16)) (m : C0Msg) (s t : State) : Prop :=
  t = { s with fab := { s.fab with ports := t.fab.ports } } ∧
  ∀ p, t.port p = if (s.port p).state = .up ∧ came ≠ some p then (c0queue p m s).port p else s.port p

/-- A STATUS flood of this module to the whole hall (R21, R299, Table 11.6): its next sequence number and its status bits. -/
def Sys2Proof.Claims.StatusSent (s t : State) : Prop :=
  Claims.Flooded none
    (c0msg [(0, 1, 6), (2, 2, 0xFFF), (4, 2, s.module.toNat), (6, 2, s.fab.statusSeq.toNat), (8, 1, s.statusBits)])
    { s with fab := { s.fab with statusSeq := s.fab.statusSeq + 1 } } t

/-- The time domain's states (R14, R19, R21, R26, Table 1.2): OSCILLATOR_STABLE leaves RESET for FREE_RUN, with PPS_OUT high where the count
begins at a whole second; ACQUIRE_COMPLETE enters LOCKED once the phase has been within the budget of the path in use for 1 ms, and clears
OUT_OF_SPEC; HOLDOVER needs the loss of both parents at a member in LOCKED; 20 ms later HOLDOVER_LIMIT sets OUT_OF_SPEC; and
PARENT_RETURN acquires again, after a root change from the backup parent only. A change of OUT_OF_SPEC floods a STATUS message, which
is log entry 11; that the frequency is within its limit comes with ACQUIRE_COMPLETE, which is log entry 12. -/
def Obligations.TimeDomainStatesFollowTable1_2 : Prop :=
  ∀ s : State,
    (s.pwr.standbyOn = true → s.time.osc = .reset →
      exec .oscillatorStable s = .next { s with time := { s.time with
        osc := .freeRun, ppsOut := if s.now % 1000000000 = 0 then true else s.time.ppsOut } }) ∧
    (s.time.osc ≠ .reset → exec .oscillatorStable s = .next s) ∧
    (∀ budget : Nat, budget = (if s.time.onBackup then s.time.pathBudget.extractLsb' 16 16 else s.time.pathBudget.extractLsb' 0 16).toNat →
      (s.time.osc = .acquire → s.time.phaseOutAt.toNat + 1000000 ≤ s.now → s.time.slew.natAbs ≤ 10 * budget →
        ∃ t : State, exec .acquireComplete s = .next t ∧
          (s.time.outOfSpec = false → t = { s with time := { s.time with osc := .locked } }) ∧
          (s.time.outOfSpec = true → Claims.StatusSent { s with time := { s.time with osc := .locked, outOfSpec := false } } t)) ∧
      (s.time.osc ≠ .acquire ∨ s.now < s.time.phaseOutAt.toNat + 1000000 ∨ 10 * budget < s.time.slew.natAbs →
        exec .acquireComplete s = .next s)) ∧
    (s.time.osc = .locked → s.time.role = .member →
      s.time.parentSeen = false ∨ s.time.parentCellAt.toNat + 1024 ≤ s.now ∨ s.time.rootChanged = true →
      s.time.backupSeen = false ∨ s.time.backupCellAt.toNat + 1024 ≤ s.now ∨ s.time.backupLost = true →
      exec .holdover s = .next { s with time := { s.time with osc := .holdover, holdoverAt := s.time.hallTime, slew := 0 } }) ∧
    (s.time.rootChanged = false → s.time.parentSeen = true → s.now < s.time.parentCellAt.toNat + 1024 → exec .holdover s = .next s) ∧
    (s.time.backupSeen = true → s.time.backupLost = false → s.now < s.time.backupCellAt.toNat + 1024 → exec .holdover s = .next s) ∧
    (s.time.osc = .holdover → s.time.holdoverAt.toNat + 20000000 ≤ s.now → s.time.outOfSpec = false →
      ∃ t : State, exec .holdoverLimit s = .next t ∧ Claims.StatusSent { s with time := { s.time with outOfSpec := true } } t) ∧
    (s.now < s.time.holdoverAt.toNat + 20000000 → exec .holdoverLimit s = .next s) ∧
    (∀ backup : Bool, s.time.osc = .holdover → backup = true ∨ s.time.rootChanged = false →
      ∃ t : State, exec (.parentReturn backup) s = .next t ∧
      t = { s with time := t.time } ∧ t.time.osc = .acquire ∧ t.time.onBackup = backup ∧ t.time.hallTime = s.time.hallTime ∧
      t.time.frac = s.time.frac ∧ t.time.outOfSpec = s.time.outOfSpec ∧ t.time.phaseOutAt = s.time.hallTime ∧
      t.time.portInUse = (if backup then s.time.beaconCfg.extractLsb' 20 4 else s.time.beaconCfg.extractLsb' 16 4)) ∧
    (s.time.rootChanged = true → exec (.parentReturn false) s = .next s)

/-- The root's references and PPS_OUT (R12, R14, R20): the first PPS_IN edge after lock starts the count of a root whose count has not begun,
at 0, with PPS_OUT high; later edges aim the phase at the nearest whole second, by slewing, and never step hall time; losing a
reference clears REF_OK and leaves hall time alone; PPS_OUT rises at each whole second and falls 100 µs later. That the first edge sets
the count is log entry 12. -/
def Obligations.ReferencesAndPpsOut : Prop :=
  ∀ s : State,
    (s.time.actingRoot = true → s.time.beaconCfg.getLsbD 0 = true → s.time.osc = .locked → s.time.epochSet = false →
      ∃ t : State, exec .ppsInEdge s = .next t ∧ t = { s with time := t.time } ∧
        t.time.hallTime = 0 ∧ t.time.frac = 0 ∧ t.time.slew = 0 ∧ t.time.epochSet = true ∧ t.time.ppsOut = true ∧
        t.time.ppsPin = true ∧ t.time.refOk = s.time.refPin ∧ t.time.osc = .locked ∧ t.time.actingRoot = true) ∧
    (s.time.epochSet = true ∨ s.time.actingRoot = false ∨ s.time.osc ≠ .locked → ∃ t : State, exec .ppsInEdge s = .next t ∧
      t = { s with time := { s.time with
        ppsPin := true, refOk := s.time.actingRoot && s.time.refPin && s.time.beaconCfg.getLsbD 0
        slew := t.time.slew, phaseOutAt := t.time.phaseOutAt } } ∧
      t.time.slew = (if s.time.actingRoot = true ∧ s.time.beaconCfg.getLsbD 0 = true ∧ s.time.osc = .locked then
        (((s.now + 500000000) / 1000000000 * 1000000000 : Nat) : Int) * 10000 - ((s.now : Int) * 10000 + s.time.frac) else s.time.slew)) ∧
    (∀ pps : Bool, exec (.refLoss pps) s = .next { s with time := { s.time with
      refPin := s.time.refPin && pps, ppsPin := s.time.ppsPin && !pps, refOk := false
      epochSet := s.time.epochSet || (pps && s.time.actingRoot) } }) ∧
    (∀ pps : Bool, exec (.refReturn pps) s = .next { s with time := { s.time with
      refPin := s.time.refPin || !pps, ppsPin := s.time.ppsPin || pps
      refOk := s.time.actingRoot && (s.time.refPin || !pps) && (s.time.ppsPin || pps) && s.time.beaconCfg.getLsbD 0 } }) ∧
    (s.pwr.standbyOn = true → s.now % 1000000000 = 0 →
      exec .ppsOutRise s = .next { s with time := { s.time with ppsOut := true } }) ∧
    (s.now % 1000000000 ≠ 0 → exec .ppsOutRise s = .next s) ∧
    (100000 ≤ s.now % 1000000000 → exec .ppsOutFall s = .next { s with time := { s.time with ppsOut := false } }) ∧
    (s.now % 1000000000 < 100000 → exec .ppsOutFall s = .next s)

/-- The beacon tree (R16, R17, R19, R24): a time cell on the port in use aims the phase at the stamped time plus the delay in force, by
slewing, and not at all while the link has no delay yet; eight missed cells move a member to its backup parent from when that one is
usable; the standby root becomes the acting root after 4,096 ns of silence and floods a root change, which the first receipt follows
and forwards and later copies do not. That the takeover does not wait for a state of the time domain is log entry 59. -/
def Obligations.BeaconTreeFollowsItsRules : Prop :=
  ∀ (s : State) (p : Fin 16) (m : C0Msg),
    (c0get m 0 1 = 1 → (s.port p).cells = true → p = s.time.portUsed → s.time.actingRoot = false → s.time.osc = .locked →
      s.time.epochSet = true → (s.port p).beaconD ≠ 0xFFFF → ∃ t : State, exec (.beaconTime p m) s = .next t ∧
        t = { s with time := { s.time with
          depth := BitVec.ofNat 8 (c0get m 4 1 + 1), portInUse := BitVec.ofNat 4 p.val
          slew := ((c0get m 8 8 : Int) * 1000 + (s.port p).beaconD.toNat) * 10 - ((s.now : Int) * 10000 + s.time.frac)
          phaseOutAt := t.time.phaseOutAt, parentCellAt := t.time.parentCellAt, parentSeen := t.time.parentSeen
          backupCellAt := t.time.backupCellAt, backupSeen := t.time.backupSeen } }) ∧
    (c0get m 0 1 = 1 → (s.port p).cells = true → (s.port p).beaconD = 0xFFFF → ∃ t : State, exec (.beaconTime p m) s = .next t ∧
      t = { s with time := { s.time with
        parentCellAt := t.time.parentCellAt, parentSeen := t.time.parentSeen
        backupCellAt := t.time.backupCellAt, backupSeen := t.time.backupSeen } }) ∧
    (c0get m 0 1 ≠ 1 ∨ (s.port p).cells = false → exec (.beaconTime p m) s = .next s) ∧
    (s.time.parentCellAt.toNat + 1024 ≤ s.now → s.time.role = .member → s.time.onBackup = false →
      s.time.backupSeen = true → s.now < s.time.backupCellAt.toNat + 1024 → s.time.backupLost = false →
      exec .parentSilent s = .next { s with time := { s.time with
        onBackup := true, portInUse := s.time.beaconCfg.extractLsb' 20 4 } }) ∧
    (s.now < s.time.parentCellAt.toNat + 1024 ∨ s.time.backupCellAt.toNat + 1024 ≤ s.now → exec .parentSilent s = .next s) ∧
    (s.time.role = .standbyRoot → s.time.actingRoot = false → s.time.parentCellAt.toNat + 4096 ≤ s.now →
      ∃ t : State, exec .standbyRootTakeover s = .next t ∧
        Claims.Flooded none (c0msg [(0, 1, 3), (2, 2, 0xFFF), (4, 2, s.module.toNat), (8, 8, s.now)]) { s with
          time := { s.time with role := .root, actingRoot := true, depth := 0, portInUse := 0, slew := 0, epochSet := true }
          fab := { s.fab with rootChangeSeen := true } } t) ∧
    (s.now < s.time.parentCellAt.toNat + 4096 → exec .standbyRootTakeover s = .next s) ∧
    (s.fab.rootChangeSeen = false → ∃ t : State, exec (.rootChange p m) s = .next t ∧
      Claims.Flooded (some p) m { s with
        time := { s.time with
          role := .member, actingRoot := false, refOk := false, onBackup := true, rootChanged := true, epochSet := true
          portInUse := s.time.beaconCfg.extractLsb' 20 4 }
        fab := { s.fab with rootChangeSeen := true } } t) ∧
    (s.fab.rootChangeSeen = true → exec (.rootChange p m) s = .next { s with fab := { s.fab with c0Dup := s.fab.c0Dup + 1 } })

/-- Sounding (R22, R23, R24, R290, R291), at an end that holds no image: a SOUND message that comes in ALIGN gives the port its peer's
identity; a SOUND request is answered on its port and changes nothing else but that port; the answer carries the time at which the
request came in, in ps, a free value inside its nanosecond, until it leaves (log entry 53). A response ends one round trip, whose length
less the turnaround is added up. After 4,096 of them SOUNDING_COMPLETE sets the link's delay, half of their mean (the mean and its
rounding are the model's choice, log entry 64), and its uncertainty, refuses a link above 32 ns or above 50 ps (that the refusal is the
state FAILED is log entry 13), and sets the path budgets, the backup path being refused above 500 ps. -/
def Obligations.SoundingSetsDelaysAndBudgets : Prop :=
  ∀ (s : State) (p : Fin 16) (m : C0Msg) (u a b : U16), s.seq.state = .empty → s.loader.busy = false →
    (∀ (up : Bool) (d : Nat), (s.port p).state = .sound → (s.port p).rounds = 4096 →
      d = min 0xFFFE (((s.port p).soundSum + if up then 8191 else 0) / 8192) → ∃ t : State, exec (.soundingComplete p up u a b) s = .next t ∧
      t = { s with time := t.time, fab := { s.fab with rootChangeSeen := false, ports := s.fab.ports.set p (t.port p) } } ∧
      t.port p = { s.port p with
        soundD := BitVec.ofNat 16 d, soundU := u, beaconD := BitVec.ofNat 16 d, rounds := 0, soundSum := 0
        tooLong := decide (32000 < d), state := if 32000 < d ∨ 50 < u.toNat then .failed else .up } ∧
      t.time.hallTime = s.time.hallTime ∧
      (a.toNat + 20 < 65536 → b.toNat + 20 < 65536 → t.time.pathBudget.toNat = (b.toNat + 20) * 65536 +
        (if s.time.beaconCfg.extractLsb' 30 2 = 1 then 20 else a.toNat + 20)) ∧
      (s.time.beaconCfg.extractLsb' 30 2 ≠ 2 → (t.time.backupLost = true ↔ 480 < b.toNat))) ∧
    (∀ up, (s.port p).state ≠ .sound ∨ (s.port p).rounds ≠ 4096 → exec (.soundingComplete p up u a b) s = .next s) ∧
    (c0get m 0 1 = 2 → c0get m 1 1 = 0 → (s.port p).state = .up → ∃ t : State, exec (.soundMsg p m) s = .next t ∧
      t = { s with freeCount := s.freeCount + 1, fab := { s.fab with ports := s.fab.ports.set p (t.port p) } } ∧
      t.port p = { s.port p with c0q := (t.port p).c0q } ∧
      t.port p = (c0queue p (c0msg [(0, 1, 2), (1, 1, 1), (2, 2, s.module.toNat), (4, 1, p.val), (5, 3, c0get m 5 3),
          (8, 8, s.now * 1000 + (Config.freeValue s.freeCount).toNat % 1000)]) s).port p) ∧
    (c0get m 0 1 = 2 → c0get m 1 1 = 1 → (s.port p).state = .sound → (s.port p).rounds < 4096 → c0get m 5 3 = (s.port p).rounds →
      exec (.soundMsg p m) s = .next { s with
        freeCount := s.freeCount + 1
        fab := { s.fab with ports := s.fab.ports.set p { s.port p with
          rounds := (s.port p).rounds + 1
          soundSum := (s.port p).soundSum +
            (s.now * 1000 + (Config.freeValue s.freeCount).toNat % 1000 - (s.port p).soundAt - c0get m 8 8) } } }) ∧
    (c0get m 0 1 = 2 → c0get m 1 1 ≠ 0 → (s.port p).state = .align →
      exec (.soundMsg p m) s = .next { s with fab := { s.fab with ports := s.fab.ports.set p { s.port p with
        identKnown := true, peerModule := BitVec.ofNat 12 (c0get m 2 2), peerPort := BitVec.ofNat 4 (c0get m 4 1) } } })

/-- LEG_ARM_HI_WRITE (R31, R97): in LOADED a first mark that is 10,000 ns away and a multiple of 16 ns arms the sequencer; one that is
not is logged, MARK_PAST before MARK_ALIGN, and ignored; in every other state the write is ignored. -/
def Obligations.ArmingTheFirstMark : Prop :=
  ∀ (s : State) (v : U32),
    (s.seq.state = .loaded → s.now + 10000 ≤ (pair s.seq.armLo v).toNat → (pair s.seq.armLo v).toNat % 16 = 0 →
      exec (.legArmHiWrite v) s = .next { s with seq := { s.seq with
        state := .armed, nextAt := pair s.seq.armLo v, nextBase := pair s.seq.armLo v } }) ∧
    (s.seq.state = .loaded → (pair s.seq.armLo v).toNat < s.now + 10000 → (pair s.seq.armLo v).toNat % 16 = 0 →
      exec (.legArmHiWrite v) s = .next (logErr 0x0004 none (pair s.seq.armLo v) s.time.hallTime s)) ∧
    (s.seq.state = .loaded → s.now + 10000 ≤ (pair s.seq.armLo v).toNat → (pair s.seq.armLo v).toNat % 16 ≠ 0 →
      exec (.legArmHiWrite v) s = .next (logErr 0x0013 none (pair s.seq.armLo v) s.time.hallTime s)) ∧
    (s.seq.state = .loaded → (pair s.seq.armLo v).toNat < s.now + 10000 → (pair s.seq.armLo v).toNat % 16 ≠ 0 →
      exec (.legArmHiWrite v) s = .next (logErr 0x0013 none (pair s.seq.armLo v) s.time.hallTime
        (logErr 0x0004 none (pair s.seq.armLo v) s.time.hallTime s))) ∧
    (s.seq.state ≠ .loaded → exec (.legArmHiWrite v) s = .next s)

/-- LEG_COMPLETE (R30, R38, R97): once every core is idle in a cycle, the leg ends with that cycle as its last, the die gates its clocks,
DONE after END; a next leg whose mark is still to come waits; a suspension withholds it. Words that still cross the die reach their
queues. An incomplete leg is left running. -/
def Obligations.LegCompleteGatesTheDie : Prop :=
  ∀ s : State,
    (s.seq.state = .running → s.clk.hold = none → (∀ c, coreIdle s.seq.cycle (s.core c) = true) →
      (s.seq.next.ended = true ∨ s.seq.suspendReq = some (s.seq.legMark + 1) ∨
        s.pwr.tier.val < 3 ∧ s.seq.mark.toNat ≤ s.seq.legMark.toNat) →
      ∃ t : State, exec .legComplete s = .next t ∧ t = { s with
        cores := s.cores.map unarmStreams
        seq := { s.seq with
          state := if s.seq.next.ended then .done else .gated, lastCycle := BitVec.ofNat 32 s.seq.cycle }
        fab := { s.fab with onMesh := t.fab.onMesh, queues := t.fab.queues } } ∧
        (s.fab.onMesh = [] → t.fab = s.fab)) ∧
    (s.seq.state = .running → s.clk.hold ≠ none → exec .legComplete s = .next s) ∧
    (∀ c, coreIdle s.seq.cycle (s.core c) = false → exec .legComplete s = .next s)

/-- A slip of `k` quanta that names mark `m` is applied (R33, R37, R42): k_max of m becomes the larger of the two, the next mark's time follows,
the slip is logged and counted, and TIME_LEG_CFG.SLIP_IRQ raises its vector once a job. What the log shows of a mark after the next one is
log entry 33. -/
def Sys2Proof.Claims.SlipApplied (m k : Nat) (raiser : BitVec 12) (core : BitVec 5) (seq : Bool) (reason : Byte) (s t : State) : Prop :=
  let irq := (s.time.legCfg.extractLsb' 16 16).toNat
  let due := irq ≠ 0 ∧ irq ≤ (s.time.slipCount + 1).toNat ∧ s.time.slipIrqSent = false
  t = { s with
    seq := { s.seq with
      kMax := t.seq.kMax, nextAt := s.seq.nextBase + BitVec.ofNat 64 (tget 0 t.seq.kMax s.seq.nextNum * s.time.quantum) }
    time := { s.time with
      slipCount := s.time.slipCount + 1, slipTotal := s.time.slipTotal + 1
      slipIrqSent := s.time.slipIrqSent || decide due, slipLog := ringPush 256 s.time.slipLog
        { appliedAt := s.time.hallTime, mark := BitVec.ofNat 64 m, newTime := t.markTime m, raiser := raiser, core := core, seq := seq
          k := BitVec.ofNat 4 k, kMax := BitVec.ofNat 4 (tget 0 t.seq.kMax m), reason := reason, late := false } }
    host := if due then (setIrq 2 s).host else s.host } ∧
  tget 0 t.seq.kMax m = max k (tget 0 s.seq.kMax m) ∧ ∀ j, j ≠ m → tget 0 t.seq.kMax j = tget 0 s.seq.kMax j

/-- HORIZON_CHECK (R35, R36): at h(n), once for each mark, a leg predicted to overrun raises a slip that names mark n + 1, with k = 1
to 15 quanta covering the overrun where 15 suffice, and floods it; a leg in time raises none. -/
def Obligations.HorizonCheckPredictsOverruns : Prop :=
  ∀ s : State, s.seq.state = .running → s.seq.due.ended = false → s.seq.suspended = false → s.seq.begun = true → s.seq.horizonDone = false →
    s.seq.nextBase.toNat ≤ s.now + s.time.horizon →
    (s.predict s.seq.cycle ≤ s.seq.nextAt.toNat →
      exec .horizonCheck s = .next { s with seq := { s.seq with horizonDone := true } }) ∧
    (s.seq.nextAt.toNat < s.predict s.seq.cycle → ∃ (k : Nat) (u t : State), exec .horizonCheck s = .next t ∧
      k = max 1 (min 15 ((s.predict s.seq.cycle - s.seq.nextAt.toNat + s.time.quantum - 1) / s.time.quantum)) ∧
      Claims.SlipApplied (s.seq.mark.toNat + 2) k s.module 0 true 1 { s with seq := { s.seq with horizonDone := true } } u ∧
      Claims.Flooded none
        (c0msg [(0, 1, 4), (2, 2, s.seq.origin.toNat), (4, 4, (s.seq.mark.toNat + 2) % 2 ^ 32), (8, 1, k), (9, 1, 1),
          (10, 2, s.module.toNat), (12, 1, 32)]) u t ∧
      1 ≤ tget 0 t.seq.kMax (s.seq.mark.toNat + 2) ∧
      (s.time.quantum ≠ 0 → s.predict s.seq.cycle - s.seq.nextAt.toNat ≤ 15 * s.time.quantum →
        s.predict s.seq.cycle ≤ s.seq.nextAt.toNat + tget 0 t.seq.kMax (s.seq.mark.toNat + 2) * s.time.quantum))

/-- SLIP (R33, R299): a slip of this partition, or a hall-wide one, that raises k_max of a mark still to come is applied, counted, logged and
flooded on; one that does not raise it is dropped as a duplicate (that it is not counted as a slip is log entry 33). One that comes late, for
a mark already past, is logged with LATE on its first arrival and otherwise changes nothing. A slip of another partition, or of an end
without marks, is flooded on when it raises the largest k seen for its partition and mark, and dropped otherwise. -/
def Obligations.SlipsRaiseKMax : Prop :=
  ∀ (s : State) (p : Fin 16) (msg : C0Msg) (origin : BitVec 12) (m k : Nat), origin = BitVec.ofNat 12 (c0get msg 2 2) →
    m = fullMark s.seq.nextNum (c0get msg 4 4) → k = c0get msg 8 1 →
    (s.seq.state = .armed ∨ s.seq.state = .running ∨ s.seq.state = .gated ∨ s.seq.state = .done → origin = s.seq.origin ∨ origin = 0xFFF →
      (s.seq.nextNum ≤ m → tget 0 s.seq.kMax m < k → ∃ u t : State, exec (.slipMsg p msg) s = .next t ∧
        Claims.SlipApplied m k (BitVec.ofNat 12 (c0get msg 10 2)) (BitVec.ofNat 5 (c0get msg 12 1)) (decide (c0get msg 12 1 / 32 % 2 = 1))
          (BitVec.ofNat 8 (c0get msg 9 1)) s u ∧
        Claims.Flooded (some p) msg u t) ∧
      (s.seq.nextNum ≤ m → k ≤ tget 0 s.seq.kMax m →
        exec (.slipMsg p msg) s = .next { s with fab := { s.fab with c0Dup := s.fab.c0Dup + 1 } }) ∧
      (∀ e : SlipEntry, m < s.seq.nextNum →
        e = { appliedAt := s.time.hallTime, mark := BitVec.ofNat 64 m, newTime := tget 0 s.seq.markTimes m
              raiser := BitVec.ofNat 12 (c0get msg 10 2), core := BitVec.ofNat 5 (c0get msg 12 1)
              seq := decide (c0get msg 12 1 / 32 % 2 = 1), k := BitVec.ofNat 4 k, kMax := BitVec.ofNat 4 (tget 0 s.seq.kMax m)
              reason := BitVec.ofNat 8 (c0get msg 9 1), late := true } →
        exec (.slipMsg p msg) s = .next (if s.time.slipLog.any (fun x => x.mark.toNat == m && x.raiser == e.raiser && x.core == e.core &&
            x.seq == e.seq && x.k.toNat == k && x.reason == e.reason) then
          { s with fab := { s.fab with c0Dup := s.fab.c0Dup + 1 } }
        else { s with time := { s.time with slipLog := ringPush 256 s.time.slipLog e, slipTotal := s.time.slipTotal + 1 } }))) ∧
    (s.seq.state = .empty ∨ s.seq.state = .loaded ∨ s.seq.state = .halted ∨ origin ≠ s.seq.origin ∧ origin ≠ 0xFFF →
      (s.fab.slipSeen.find? (fun e => e.1 == origin && e.2.1 == c0get msg 4 4) = none → ∃ t : State, exec (.slipMsg p msg) s = .next t ∧
        Claims.Flooded (some p) msg { s with fab := { s.fab with slipSeen := s.fab.slipSeen ++ [(origin, c0get msg 4 4, k)] } } t) ∧
      (∀ e, s.fab.slipSeen.find? (fun e => e.1 == origin && e.2.1 == c0get msg 4 4) = some e → e.2.2 < k →
        ∃ t : State, exec (.slipMsg p msg) s = .next t ∧ Claims.Flooded (some p) msg { s with fab := { s.fab with
          slipSeen := s.fab.slipSeen.map fun x => if x = e then (origin, c0get msg 4 4, k) else x } } t) ∧
      (∀ e, s.fab.slipSeen.find? (fun e => e.1 == origin && e.2.1 == c0get msg 4 4) = some e → k ≤ e.2.2 →
        exec (.slipMsg p msg) s = .next { s with fab := { s.fab with c0Dup := s.fab.c0Dup + 1 } }))

/-- MARK and HELM_LOAD_DONE (R27, R28, R87, R88): a mark that is due becomes the last mark, the next one's slip-free time is W(n) later;
an early, a withheld or an absent mark is left. A helm load whose last block has come puts the next leg's block into the idle bank, and
nowhere else; until then it goes on. -/
def Obligations.MarksAndHelmLoads : Prop :=
  ∀ s : State,
    ((s.seq.state = .armed ∨ s.seq.state = .running ∨ s.seq.state = .gated) → s.seq.due.ended = false → s.seq.suspended = false →
      s.seq.suspendReq = none → s.seq.nextAt.toNat ≤ s.now → ∃ t : State, exec .mark s = .next t ∧
        t.seq.mark = BitVec.ofNat 64 s.seq.nextNum ∧ t.seq.markAt = s.seq.nextAt ∧ t.seq.begun = true ∧
        t.seq.nextBase = s.seq.nextAt + BitVec.ofNat 64 (16 * s.seq.due.leg.w16.toNat) ∧ t.seq.horizonDone = false ∧
        t.time.hallTime = s.time.hallTime) ∧
    (s.now < s.seq.nextAt.toNat → exec .mark s = .next s) ∧
    (s.seq.due.ended = true ∨ s.seq.suspended = true ∨ s.seq.state ≠ .armed ∧ s.seq.state ≠ .running ∧ s.seq.state ≠ .gated →
      exec .mark s = .next s) ∧
    (s.seq.suspendReq = some (BitVec.ofNat 64 s.seq.nextNum) → s.seq.nextNum < 2 ^ 64 → exec .mark s = .next s) ∧
    (∀ (c : Fin 32) (j : Job), s.helmJob c = some j →
      ((s.core c).helmBusy = true → s.seq.state ≠ .halted → j.need = 0 →
        ∃ t : State, exec (.helmLoadDone c) s = .next t ∧
          t = { s with jobs := s.jobs.filter fun x => x.id != j.id, cores := s.cores.set c (t.core c) } ∧
          (t.core c).helmBusy = false ∧ (t.core c).helmDone = true ∧
          t.core c = { s.core c with
            helmBusy := false, helmDone := true, bank0 := (t.core c).bank0, bank1 := (t.core c).bank1 } ∧
          (if s.seq.legMark.toNat % 2 = 1 then (t.core c).bank1 = (s.core c).bank1 else (t.core c).bank0 = (s.core c).bank0)) ∧
      (j.need ≠ 0 → exec (.helmLoadDone c) s = .next s)) ∧
    (∀ c : Fin 32, (s.core c).helmBusy = false ∨ s.helmJob c = none → exec (.helmLoadDone c) s = .next s)

/-- What a mark does to the legs (R28, R36, R86, R87, R296, R366): the first mark, and each later one that finds the die gated and not parked,
starts the leg that is next at cycle 0: CLEAR_SYNC clears flags and counters, each core's predicates take the bits of its block entry
under their mask, and every command pointer is at word 0. A mark that finds the leg still running leaves it as it is and raises a slip
for the mark after it; one that finds the die parked does so too. The table set that the leg entry names becomes active, from the shadow
where it is not yet. Stated for a module whose ingress unit has no work. -/
def Obligations.TheFirstMarkStartsTheFirstLeg : Prop :=
  ∀ s : State, s.seq.due.ended = false → s.seq.suspended = false → s.seq.suspendReq = none →
    s.seq.nextAt.toNat ≤ s.now → s.host.tasks = [] →
    s.fab.tablesLive = true ∧ s.fab.activeSet = tget 0 s.fab.legSet s.seq.due.entry ∨
      s.fab.shadowReady = true ∧ s.fab.shadowSet = tget 0 s.fab.legSet s.seq.due.entry →
    (s.seq.state = .armed ∨ s.seq.state = .running ∨ s.seq.state = .gated → ∃ t : State, exec .mark s = .next t ∧
      t.seq.mark = BitVec.ofNat 64 s.seq.nextNum ∧ t.fab.tablesLive = true ∧
      t.fab.activeSet = tget 0 s.fab.legSet s.seq.due.entry ∧ t.dram = s.dram ∧
      (s.fab.tablesLive = true → s.fab.activeSet = tget 0 s.fab.legSet s.seq.due.entry → t.fab.active = s.fab.active) ∧
      (s.fab.tablesLive = false ∨ s.fab.activeSet ≠ tget 0 s.fab.legSet s.seq.due.entry →
        t.fab.active = s.fab.shadow ∧ t.fab.shadowReady = false)) ∧
    (s.seq.state = .armed ∨ s.seq.state = .gated ∧ s.seq.parked = false → ∃ t : State, exec .mark s = .next t ∧
      t.seq.state = .running ∧ t.seq.cycle = 0 ∧ t.seq.cur = s.seq.next ∧
      t.seq.legMark = (if s.seq.state = .armed then 0 else s.seq.legMark + 1) ∧
      ∀ c, (t.core c).flags = (if s.seq.next.leg.clearSync then 0 else (s.core c).flags) ∧
        (t.core c).counters = (if s.seq.next.leg.clearSync then Vector.replicate 32 0 else (s.core c).counters) ∧
        (t.core c).preds = ((s.core c).preds &&& ~~~((s.core c).helmEntry.getD {}).predMask) |||
          (((s.core c).helmEntry.getD {}).predInit &&& ((s.core c).helmEntry.getD {}).predMask) ∧
        (t.core c).blockWords = ((s.core c).helmEntry.getD {}).words ∧
        (t.core c).cmdIdx = 0 ∧ (t.core c).lookIdx = 0 ∧ (t.core c).ahead = [] ∧ (t.core c).spad = (s.core c).spad) ∧
    (s.seq.state = .running ∨ s.seq.state = .gated ∧ s.seq.parked = true → ∃ t : State, exec .mark s = .next t ∧
      t.seq.state = s.seq.state ∧ t.seq.cycle = s.seq.cycle ∧ t.seq.cur = s.seq.cur ∧ t.seq.next = s.seq.next ∧
      t.seq.legMark = s.seq.legMark ∧ t.seq.parked = s.seq.parked ∧ t.cores = s.cores ∧ t.clk = s.clk ∧
      t.time.slipCount = s.time.slipCount + 1 ∧
      (s.seq.state = .running → 1 ≤ tget 0 t.seq.kMax ((BitVec.ofNat 64 s.seq.nextNum).toNat + 1)))

/-- Droop (R51, Table 2.9): in a running cycle a trip of an unlocked region that follows no request stretches it and raises a request,
counted for the region and the die; a locked trip is absorbed; one in a cycle in which the region already stretches, or while the die
does not count cycles, changes nothing. Two cycles after another region's request every unlocked region stretches. -/
def Obligations.DroopTripsAndFollowers : Prop :=
  ∀ (s : State) (r : Fin 8),
    (s.running = true → (s.region r).lastStretch = none → (∀ q ∈ s.clk.reqs, q.2 + 2 ≠ s.seq.cycle) →
      ∃ t : State, exec (.droopTrip r) s = .next t ∧ t = { s with clk := t.clk } ∧
        (t.region r).lastStretch = some s.seq.cycle ∧ (t.region r).stretches = (s.region r).stretches + 1 ∧
        (t.region r).requests = satInc (s.region r).requests ∧ (t.region r).absorbed = (s.region r).absorbed ∧
        t.clk.stretchCount = satInc s.clk.stretchCount ∧ t.clk.freq = s.clk.freq ∧ (r.val, s.seq.cycle) ∈ t.clk.reqs ∧
        ∀ q, q ≠ r → t.region q = s.region q) ∧
    (∀ l, s.running = true → (s.region r).lastStretch = some l → l ≠ s.seq.cycle → s.seq.cycle ≤ l + 3 →
      exec (.droopTrip r) s = .next (s.updRegion r fun x => { x with absorbed := satInc x.absorbed })) ∧
    ((s.region r).lastStretch = some s.seq.cycle → exec (.droopTrip r) s = .next s) ∧
    (s.running = false → exec (.droopTrip r) s = .next s ∧ exec .stretchFollow s = .next s) ∧
    (s.running = true → ∃ t : State, exec .stretchFollow s = .next t ∧ t = { s with clk := t.clk } ∧
      ∀ q, t.region q = if s.clk.follows q s.seq.cycle && !(s.region q).locked s.seq.cycle then
        { s.region q with lastStretch := some s.seq.cycle, stretches := (s.region q).stretches + 1 } else s.region q)

/-- Frequency steps (R54 to R56): a change downward decided in cycle d applies from d + 8 on, and not before: 25 MHz less than f at that
time and never below 1,000 MHz (that the 25 MHz count from f at that time, steps that take effect together one after the other, is log
entry 26, and the rescaled rest of a period in acc is log entry 27), or the cap of a supply tier at once; not while the die holds. A step up of 25 MHz is decided once 1,000,000 ns without a trigger
have passed, every sensor is below RESUME_C, no stack is hot and f is below its cap. That LIMIT keeps the cause of a step up, and that a
step up is counted when it is decided, are the model's choices (log entry 56). -/
def Obligations.FrequencySteps : Prop :=
  ∀ s : State,
    (∀ (f : FreqStep) (d : Nat), s.seq.state = .running → s.clk.hold = none → s.clk.steps = [f] → f.fromCycle = some d → d ≤ s.seq.cycle →
      (f.change = .down → exec .freqStepApply s = .next { s with clk := { s.clk with
        freq := BitVec.ofNat 16 (max 1000 (s.clk.freq.toNat - 25))
        acc := s.clk.acc * ((max 1000 (s.clk.freq.toNat - 25) : Nat) : Int) / (s.clk.freq.toNat : Int)
        limit := if 1250 ≤ max 1000 (s.clk.freq.toNat - 25) then 0 else f.limit, steps := [] } }) ∧
      ∀ c : U16, f.change = .cap c → exec .freqStepApply s = .next { s with clk := { s.clk with
        freq := BitVec.ofNat 16 (min s.clk.freq.toNat c.toNat)
        acc := s.clk.acc * ((min s.clk.freq.toNat c.toNat : Nat) : Int) / (s.clk.freq.toNat : Int)
        limit := if 1250 ≤ min s.clk.freq.toNat c.toNat then 0 else f.limit, steps := [] } }) ∧
    (∀ (f g : FreqStep) (d e : Nat), s.seq.state = .running → s.clk.hold = none → s.clk.steps = [f, g] → f.change = .down → g.change = .down →
      f.fromCycle = some d → d ≤ s.seq.cycle → g.fromCycle = some e → e ≤ s.seq.cycle → ∃ t : State, exec .freqStepApply s = .next t ∧
        t = { s with clk := { s.clk with
          freq := BitVec.ofNat 16 (max 1000 (max 1000 (s.clk.freq.toNat - 25) - 25)), acc := t.clk.acc, limit := t.clk.limit, steps := [] } }) ∧
    ((∀ f ∈ s.clk.steps, f.up = true ∨ ∀ d, f.fromCycle = some d → s.seq.cycle < d) → exec .freqStepApply s = .next s) ∧
    (s.seq.state ≠ .running ∨ s.clk.hold ≠ none → exec .freqStepApply s = .next s) ∧
    (s.clk.lastTrigger.toNat + 1000000 ≤ s.now → s.clk.target + 25 ≤ tierCap s.pwr.tier.val →
      (∀ (r : Fin 8) (i : Fin 8), ((s.region r).temps.extractLsb' (8 * i.val) 8).toNat < (s.clk.thermal.extractLsb' 0 8).toNat) →
      (∀ i, (s.stack i).hot = false) →
      exec .freqStepUp s = .next { s with clk := { s.clk with
        steps := s.clk.steps ++ [⟨.up, s.clk.limit, none⟩]
        stepsUp := satInc s.clk.stepsUp, lastTrigger := s.time.hallTime } }) ∧
    (s.now < s.clk.lastTrigger.toNat + 1000000 → exec .freqStepUp s = .next s)

/-- Region temperatures (R50, R54, R377): at a hall time that is a multiple of 1,000 ns, a reading below THROTTLE_C only records the
sensors and the highest of each region, and 105 °C or more halts the die with THERMAL_TRIP naming region, sensor and reading and powers
it off; at another hall time, or with the die off, no register changes. 60 s after a trip the lockout ends. The frame of the trip is
stated for a die that runs with empty stack queues and no load in progress. -/
def Obligations.ThermalReadingsAndTrips : Prop :=
  ∀ (s : State) (temps : BitVec 512),
    (s.pwr.dieOn = false ∨ s.now % 1000 ≠ 0 →
      exec (.regionTempReading temps) s = .next { s with clk := { s.clk with sensors := temps } }) ∧
    ((∀ i : Fin 64, (temps.extractLsb' (8 * i.val) 8).toNat < 105 ∧
        (temps.extractLsb' (8 * i.val) 8).toNat < (s.clk.thermal.extractLsb' 8 8).toNat) →
      s.pwr.dieOn = true → s.now % 1000 = 0 →
      ∃ t : State, exec (.regionTempReading temps) s = .next t ∧
        t = { s with clk := { s.clk with sensors := temps, regions := t.clk.regions } } ∧
        ∀ r : Fin 8, t.region r = { s.region r with temps := temps.extractLsb' (64 * r.val) 64, tmax := (t.region r).tmax } ∧
          (∀ i : Fin 8, (temps.extractLsb' (64 * r.val + 8 * i.val) 8).toNat ≤ (t.region r).tmax.toNat) ∧
          ∃ i : Fin 8, (temps.extractLsb' (64 * r.val + 8 * i.val) 8).toNat = (t.region r).tmax.toNat) ∧
    (∀ i : Fin 64, s.pwr.dieOn = true → s.now % 1000 = 0 → 105 ≤ (temps.extractLsb' (8 * i.val) 8).toNat →
      (∀ j : Fin 64, j < i → (temps.extractLsb' (8 * j.val) 8).toNat < 105) →
      s.seq.state ≠ .empty → s.seq.state ≠ .halted → s.loader.busy = false → (∀ k, (s.stack k).toRefresh = false ∧ ∀ p, ((s.stack k).pc p).q = []) →
      ∃ t : State, exec (.regionTempReading temps) s = .next t ∧ t.seq.state = .halted ∧ t.mgmt.halt.reason = 0x13 ∧
        t.mgmt.halt.engine = 0x13 ∧ t.mgmt.halt.detail0 = BitVec.ofNat 64 (i.val / 8 + 8 * (i.val % 8)) ∧
        t.mgmt.halt.detail1 = (temps.extractLsb' (8 * i.val) 8).setWidth 64 ∧ t.pwr.event.getLsbD 3 = true ∧
        t.pwr.event.getLsbD 0 = true ∧ t.pwr.dieOn = false ∧ t.pwr.phase = .dieOff ∧ t.pwr.tripAt = some s.time.hallTime ∧
        (∀ k, (t.stack k).selfRefresh = true) ∧ t.dram = s.dram ∧ t.cores = Vector.replicate 32 {}) ∧
    (∀ u : U64, s.pwr.tripAt = some u →
      exec .tripLockoutEnd s = .next (if u.toNat + 60000000000 ≤ s.now then { s with pwr := { s.pwr with tripAt := none } } else s))

/-- The end of a hold (R56, R59, R61, Table 9.10): 20 periods after every failed wait was met the die runs again, cycle l starting exactly
there, and the held time is counted, in whole ns from the freeze to the restart, and for an endpoint whose credits were waited for; a
pending step down takes effect then; not before. A hold longer than HOLD_LIMIT halts the die with HOLD_TIMEOUT, naming the waiting
cores. That whole ns are counted is log entry 53, and the phase acc of the restart inside its nanosecond log entry 27. -/
def Obligations.HoldsEndByReleaseOrTimeout : Prop :=
  ∀ (s : State) (h : Hold), s.clk.hold = some h →
    (∀ m : U64, h.metAt = some m → 20000 ≤ (s.now - m.toNat) * s.clk.freq.toNat → (∀ x ∈ h.causes, ∀ e n, x.what ≠ .hand (.credits e n)) →
      s.clk.steps = [] →
      exec .lanternRelease s = .next { s with clk := { s.clk with
        hold := none
        acc := ((s.now - m.toNat) * (10 * s.clk.freq.toNat) : Nat) - 200000
        holdTime := s.clk.holdTime + BitVec.ofNat 64 (heldNs s.clk h m)
        holdMax := BitVec.ofNat 32 (max s.clk.holdMax.toNat (min (heldNs s.clk h m) 0xFFFFFFFF)) } }) ∧
    (∀ (m : U64) (c : Fin 32) (ep : BitVec 7) (n : Nat) (met : Bool), h.metAt = some m → 20000 ≤ (s.now - m.toNat) * s.clk.freq.toNat →
      h.causes = [⟨c, .hand (.credits ep n), met⟩] → s.clk.steps = [] → ∃ t : State, exec .lanternRelease s = .next t ∧
        t = { s with clk := t.clk, cores := t.cores } ∧ t.clk.hold = none ∧ (∀ d, d ≠ c → t.core d = s.core d) ∧
        t.core c = (s.core c).updEp ep fun e => { e with stall := satAdd e.stall (heldNs s.clk h m * s.clk.freq.toNat / 1000) }) ∧
    (∀ (m : U64) (f : FreqStep), h.metAt = some m → 20000 ≤ (s.now - m.toNat) * s.clk.freq.toNat →
      (∀ x ∈ h.causes, ∀ e n, x.what ≠ .hand (.credits e n)) → s.clk.steps = [f] → f.change = .down →
      f.fromCycle = none ∨ f.fromCycle = some s.seq.cycle → ∃ t : State, exec .lanternRelease s = .next t ∧
        t = { s with clk := { s.clk with
          hold := none, acc := t.clk.acc, holdTime := s.clk.holdTime + BitVec.ofNat 64 (heldNs s.clk h m)
          holdMax := BitVec.ofNat 32 (max s.clk.holdMax.toNat (min (heldNs s.clk h m) 0xFFFFFFFF)), steps := []
          freq := BitVec.ofNat 16 (max 1000 (s.clk.freq.toNat - 25)), limit := t.clk.limit } }) ∧
    (∀ m : U64, h.metAt = some m → (s.now - m.toNat) * s.clk.freq.toNat < 20000 → exec .lanternRelease s = .next s) ∧
    (h.metAt = none → exec .lanternRelease s = .next s) ∧
    (bits s.clk.holdCfg 31 8 * 1000 < s.now - h.since.toNat → s.seq.state = .running → s.clk.phase ≠ .wait →
      ∃ t : State, exec .holdTimeout s = .next t ∧
        t = { s with mgmt := t.mgmt, seq := { s.seq with state := .halted, parked := false, suspended := false, suspendReq := none }
                     clk := { s.clk with hold := none }
                     pwr := { s.pwr with event := setBit s.pwr.event 0 true, eventNow := t.pwr.eventNow }
                     fab := t.fab, host := t.host } ∧
        t.mgmt.halt.valid = true ∧ t.mgmt.halt.reason = 0x0B ∧ t.mgmt.halt.cycle = BitVec.ofNat 32 s.seq.cycle ∧
        t.mgmt.halt.time = s.time.hallTime ∧ t.mgmt.haltCount = satInc s.mgmt.haltCount ∧
        (h.causes ≠ [] → t.mgmt.halt.noCore = false ∧ t.mgmt.halt.detail0 = BitVec.ofNat 64 (waitMask h))) ∧
    (s.now - h.since.toNat ≤ bits s.clk.holdCfg 31 8 * 1000 → exec .holdTimeout s = .next s)

/-! ## What the issue statements share -/

/-- A flag after a signal field, and the counters after it (R77); SIG0 applies before SIG1 (R78). -/
def Sys2Proof.Claims.sigFlags (f : U32) (x : U64) : U64 :=
  if bits f 31 28 = 1 then setBit x (bits f 27 20 % 64) (f.getLsbD 0) else x
def Sys2Proof.Claims.sigCounters (f : U32) (v : Vector U16 32) : Vector U16 32 :=
  let i := coreOf (bits f 27 20)
  if bits f 31 28 = 2 then v.set i.val (v.get i + f.extractLsb' 0 16) i.isLt
  else if bits f 31 28 = 3 then v.set i.val (f.extractLsb' 0 16) i.isLt
  else v

/-- One of the two signals `sigs` (SIG0 in the low half) sends a bell operation. -/
def Sys2Proof.Claims.rings (sigs : U64) : Bool := bits sigs 31 28 == 4 || bits sigs 63 60 == 4

/-- Core `k` after the two signals `sigs` have fired: flags and counters change as they say, and only a BELL signal changes the core's
bell paths. -/
def Sys2Proof.Claims.Signalled (t : State) (c : Fin 32) (sigs : U64) (k : Core) : Core :=
  { k with
    flags := Claims.sigFlags (sigs.extractLsb' 32 32) (Claims.sigFlags (sigs.extractLsb' 0 32) k.flags)
    counters := Claims.sigCounters (sigs.extractLsb' 32 32) (Claims.sigCounters (sigs.extractLsb' 0 32) k.counters)
    path := if Claims.rings sigs then (t.core c).path else k.path
    expPath := if Claims.rings sigs then (t.core c).expPath else k.expPath
    expSeqOut := if Claims.rings sigs then (t.core c).expSeqOut else k.expSeqOut }

/-- The command of `w` heads core `c`'s looked-out commands, is due in this cycle of a die that counts cycles, passes every check, is not
skipped, and is not the last of its block; the block entries of a store hand-over have been read (R205). -/
def Sys2Proof.Claims.Ready (op : Nat) (s : State) (c : Fin 32) (w : CmdWords) (e : LookEntry) (rest : List LookEntry) : Prop :=
  w.opcode = op ∧ (s.core c).ahead = e :: rest ∧ e.words = normWords w ∧ s.running = true ∧ e.issue = s.seq.cycle ∧
  commandCauses s c e = [] ∧ e.skip = false ∧ e.idx + nwordsOf e.words < (s.core c).blockWords ∧ missingEntries (s.core c) e.words = []

/-- Core `k` after the issue slot of `e` is taken (R71, R72, R94): the command pointer has passed it. -/
def Sys2Proof.Claims.Issued (t : State) (c : Fin 32) (e : LookEntry) (rest : List LookEntry) (k : Core) : Core :=
  { k with
    ahead := rest, cmdIdx := e.idx + nwordsOf e.words, prevIssue := e.issue, slotCycle := e.issue, blockDone := false
    slotTargets := (t.core c).slotTargets, slotWords := (t.core c).slotWords, spans := (t.core c).spans
    scoreboard := (t.core c).scoreboard, untracked := (t.core c).untracked }

/-- The issue of a command that changes core `c` to `k` and the fabric as `sends` says, and nothing else of the module but the flits a BELL
signal sends, with their places on the mesh: without such a signal the fabric is as `sends` says and the mesh as before. -/
def Sys2Proof.Claims.IssuesSending (sends : Fabric → Prop) (i : Instr) (s : State) (c : Fin 32) (e : LookEntry) (rest : List LookEntry)
    (k : State → Core) : Prop :=
  ∃ t : State, exec i s = .next t ∧
    t = { s with cores := s.cores.set c (t.core c), fab := t.fab, clk := { s.clk with mesh := t.clk.mesh } } ∧
    t.core c = Claims.Issued t c e rest (k t) ∧ (Claims.rings (sigsOf e.words) = false → t.clk = s.clk ∧ sends t.fab)

/-- The issue of a command that changes core `c` to `k` and sends nothing itself. -/
def Sys2Proof.Claims.IssuesTo (i : Instr) (s : State) (c : Fin 32) (e : LookEntry) (rest : List LookEntry) (k : State → Core) : Prop :=
  Claims.IssuesSending (· = s.fab) i s c e rest k

/-- Message `m` of this module to module `dest` with sequence number `rseq`: bytes 2-7 are SRC, DEST and RSEQ (R297). -/
def Sys2Proof.Claims.routedMsg (dest : BitVec 12) (m : C0Msg) (rseq : U16) (s : State) : C0Msg :=
  setBits (setBits (setBits m 31 16 s.module.toNat) 47 32 dest.toNat) 63 48 rseq.toNat

/-- Port `p` is one of the two that the route entry to `dest` names, if it is valid (R300). -/
def Sys2Proof.Claims.RoutePort (dest : BitVec 12) (s : State) (p : Fin 16) : Prop :=
  (tget 0 s.fab.route dest.toNat).getLsbD 31 = true ∧
    (p.val = bits (tget 0 s.fab.route dest.toNat) 3 0 ∨ p.val = bits (tget 0 s.fab.route dest.toNat) 7 4)

/-- The fabric `f` after message `m` was sent to `dest` under the next RSEQ: it waits at both ports of its route entry, and every other port
stands (R297, R300, R301). -/
def Sys2Proof.Claims.Routed (dest : BitVec 12) (m : C0Msg) (s : State) (f : Fabric) : Prop :=
  f = { s.fab with rseq := s.fab.rseq + 1, ports := f.ports } ∧
  ∀ p : Fin 16, (Claims.RoutePort dest s p → f.ports.get p = (c0queue p (Claims.routedMsg dest m s.fab.rseq s) s).port p) ∧
    (¬ Claims.RoutePort dest s p → f.ports.get p = s.port p)

/-- `n` landing adds of 1 on the counter that `ack` names: inside a cycle they apply after all its local writes (R78). -/
def Sys2Proof.Claims.acked (s : State) (ack : Option (BitVec 5)) (n : Nat) (k : Core) : Core :=
  match ack with
  | none => k
  | some a =>
    if s.midCycle then { k with lateAdds := k.lateAdds ++ List.replicate n a }
    else { k with counters := k.counters.set a.toNat (k.counters.get a.toFin + BitVec.ofNat 16 n) a.isLt }

/-- The predicates after an issue-unit command writes `value` under `mask` (R82, R168): a predicate that a completion wrote in this
cycle keeps the completion's value. -/
def Sys2Proof.Claims.predsAfter (k : Core) (mask value : U16) : U16 :=
  (k.preds &&& ~~~(mask &&& ~~~k.predLate)) ||| (value &&& (mask &&& ~~~k.predLate))

/-! ## The issue unit -/

/-- NOP, PRED_SET, PRED_LOGIC and TEST_SYNC (R76, R77, R82, Table 3.6): the predicates written, the signals fired in the issue cycle,
the pointer past the command, and nothing else; the fabric and the mesh too stand as they are unless a signal is BELL. -/
def Obligations.IssueUnitCommands : Prop :=
  ∀ (s : State) (c : Fin 32) (w : CmdWords) (e : LookEntry) (rest : List LookEntry),
    (Claims.Ready 0x00 s c w e rest → Claims.IssuesTo (.nop c w) s c e rest fun t => Claims.Signalled t c (sigsOf w) (s.core c)) ∧
    (Claims.Ready 0x01 s c w e rest → Claims.IssuesTo (.predSet c w) s c e rest fun t =>
      Claims.Signalled t c (sigsOf w)
        { s.core c with preds := Claims.predsAfter (s.core c) ((opA w).extractLsb' 0 16) ((opA w).extractLsb' 16 16) }) ∧
    (Claims.Ready 0x02 s c w e rest → Claims.IssuesTo (.predLogic c w) s c e rest fun t =>
      let a := (s.core c).preds0.getLsbD (bits (opA w) 7 4)
      let b := (s.core c).preds0.getLsbD (bits (opA w) 11 8)
      let r := if bits (opA w) 13 12 = 0 then a && b else if bits (opA w) 13 12 = 1 then a || b
        else if bits (opA w) 13 12 = 2 then a != b else a && !b
      Claims.Signalled t c (sigsOf w) { s.core c with
        preds := Claims.predsAfter (s.core c) (BitVec.ofNat 16 (2 ^ bits (opA w) 3 0)) (if r then BitVec.ofNat 16 (2 ^ bits (opA w) 3 0) else 0) }) ∧
    (Claims.Ready 0x03 s c w e rest → Claims.IssuesTo (.testSync c w) s c e rest fun t =>
      let v := if bits (opA w) 7 6 = 1 then (if (s.core c).flags0.getLsbD (bits (opA w) 13 8) then 1 else 0)
        else ((s.core c).counters0.get (coreOf (bits (opA w) 13 8))).toNat
      let x := bits (opA w) 31 16
      let r := if bits (opA w) 15 14 = 0 then decide (x ≤ v) else if bits (opA w) 15 14 = 1 then decide (v = x)
        else if bits (opA w) 15 14 = 2 then decide (v < x) else decide (v ≠ x)
      Claims.Signalled t c (sigsOf w) { s.core c with
        preds := Claims.predsAfter (s.core c) (BitVec.ofNat 16 (2 ^ bits (opA w) 3 0)) (if r then BitVec.ofNat 16 (2 ^ bits (opA w) 3 0) else 0) })

/-! ## The arrays -/

/-- Core `k` with array `j` changed. -/
def Sys2Proof.Claims.withArray (k : Core) (j : Fin 2) (u : ArrayUnit) : Core := { k with arrays := k.arrays.set j u }

/-- STAT_LOAD, STAT_SWAP and ACB_FILL (R109, R111, R118): the load takes the shadow set, which cannot be swapped in until it is
complete; the swap exchanges the sets and fires its signals; the fill joins the array. That the set's lines are cleared at issue while its
format and tag stay the old ones is the model's choice (log entry 61). -/
def Obligations.StationaryLoadsSwapsAndFills : Prop :=
  ∀ (s : State) (c : Fin 32) (w : CmdWords) (e : LookEntry) (rest : List LookEntry) (j : Fin 2), j = arrayOf (targetOf w + 1) →
    (Claims.Ready 0x10 s c w e rest → Claims.IssuesTo (.statLoad c w) s c e rest fun _ =>
      Claims.withArray (s.core c) j { (s.core c).arr j with
        setA := if ((s.core c).arr j).activeB then { ((s.core c).arr j).setA with data := [], aux := [] } else ((s.core c).arr j).setA
        setB := if ((s.core c).arr j).activeB then ((s.core c).arr j).setB else { ((s.core c).arr j).setB with data := [], aux := [] }
        shadowValid := false
        load := some { idx := e.idx, issue := e.issue, fmt := (opA w).extractLsb' 60 4, sparse := (opA w).getLsbD 59
                       tag := (opA w).extractLsb' 0 16, src := bits e.words.w1 24 0, aux := bits e.words.w1 56 32, sig := sigsOf w } }) ∧
    (Claims.Ready 0x11 s c w e rest → Claims.IssuesTo (.statSwap c w) s c e rest fun t =>
      Claims.Signalled t c (sigsOf w) (Claims.withArray (s.core c) j { (s.core c).arr j with
        activeB := !((s.core c).arr j).activeB, shadowValid := false, idleFrom := max ((s.core c).arr j).idleFrom (e.issue + 1) })) ∧
    (Claims.Ready 0x15 s c w e rest → Claims.IssuesTo (.acbFill c w) s c e rest fun _ =>
      Claims.withArray (s.core c) j { (s.core c).arr j with fills := ((s.core c).arr j).fills ++
        [{ idx := e.idx, issue := e.issue, entry := bits (opA w) 10 0, count := bits (opA w) 22 12 + 1
           value := e.words.w1.extractLsb' 0 32, sig := sigsOf w }] })

/-- The record of a pass that issues now (Table 4.6, R107); a direct pass's rows begin at position `first` of its stream. -/
def Sys2Proof.Claims.passOf (tOrient : Bool) (direct : Option (BitVec 11)) (first : Nat) (u : ArrayUnit) (e : LookEntry) : PassRec :=
  { idx := e.idx, issue := e.issue, rows := bits (opA e.words) 47 36 + 1, tOrient := tOrient, direct := direct, first := first
    mfmt := (opA e.words).extractLsb' 60 4, mode := (opA e.words).extractLsb' 58 2, rtz := (opA e.words).getLsbD 57
    entry := bits (opA e.words) 26 16, pitch := bits (opA e.words) 15 0, src := bits e.words.w1 24 0
    scaleSrc := bits e.words.w1 56 32, useSetB := u.activeB, sig := sigsOf e.words }

/-- An array that a pass has joined: it is counted, its done flag is SIG0's, and its active set stays in use until the pass is done. -/
def Sys2Proof.Claims.passJoined (p : PassRec) (u : ArrayUnit) : ArrayUnit :=
  { u with
    setA := if u.activeB then u.setA else { u.setA with usedUntil := max u.setA.usedUntil p.done }
    setB := if u.activeB then { u.setB with usedUntil := max u.setB.usedUntil p.done } else u.setB
    passes := u.passes ++ [p], passCount := u.passCount + 1, doneFlag := BitVec.ofNat 7 (bits p.sig 27 20) }

/-- PASS_N, PASS_T and PASS_N_DIRECT (R107, R108, R120, R219): the pass joins its array with the set that is active in its issue cycle;
a direct pass takes the next M positions of the direct-feed stream. -/
def Obligations.PassesJoinTheirArray : Prop :=
  ∀ (s : State) (c : Fin 32) (w : CmdWords) (e : LookEntry) (rest : List LookEntry) (j : Fin 2), j = arrayOf (targetOf w + 1) →
    (Claims.Ready 0x12 s c w e rest → Claims.IssuesTo (.passN c w) s c e rest fun _ =>
      Claims.withArray (s.core c) j (Claims.passJoined (Claims.passOf false none 0 ((s.core c).arr j) e) ((s.core c).arr j))) ∧
    (Claims.Ready 0x13 s c w e rest → Claims.IssuesTo (.passT c w) s c e rest fun _ =>
      Claims.withArray (s.core c) j (Claims.passJoined (Claims.passOf true none 0 ((s.core c).arr j) e) ((s.core c).arr j))) ∧
    (∀ d : BitVec 11, directStream (s.core c) (engOf (bits e.words.w1 1 0)) j = some d →
      Claims.Ready 0x14 s c w e rest → Claims.IssuesTo (.passNDirect c w) s c e rest fun _ =>
      Claims.withArray { s.core c with streams := tset {} (s.core c).streams d.toNat { (s.core c).stream d with
          handed := ((s.core c).stream d).handed + (bits (opA w) 47 36 + 1) } } j
        (Claims.passJoined (Claims.passOf false (some d) ((s.core c).stream d).handed ((s.core c).arr j) e) ((s.core c).arr j)))

/-! ## Engines that take a command and work on it -/

/-- CHAIN, REDUCE, TILE_MOVE and TURN (R157, R221): the command joins its engine; its reads, writes and signals follow in later cycles. -/
def Obligations.VectorAndTurnCommandsJoinTheirEngine : Prop :=
  ∀ (s : State) (c : Fin 32) (w : CmdWords) (e : LookEntry) (rest : List LookEntry),
    (∀ i op, (i = .chain c w ∧ op = 0x20 ∨ i = .reduce c w ∧ op = 0x21 ∨ i = .tileMove c w ∧ op = 0x22) →
      Claims.Ready op s c w e rest → Claims.IssuesTo i s c e rest fun _ => { s.core c with vec := { (s.core c).vec with
        inFlight := (s.core c).vec.inFlight ++ [{ idx := e.idx, issue := e.issue, words := e.words, skipped := false }]
        cmdCount := (s.core c).vec.cmdCount + 1 } }) ∧
    (Claims.Ready 0x40 s c w e rest → Claims.IssuesTo (.turn c w) s c e rest fun _ => { s.core c with turn := { (s.core c).turn with
        inFlight := (s.core c).turn.inFlight ++ [{ idx := e.idx, issue := e.issue, words := e.words }] } })

/-- An array whose elastic links hold no row, where a direct-feed stream of it is armed anew (R214, R219). -/
def Sys2Proof.Claims.linksEmptied (desc : BitVec 512) (k : Core) : Core :=
  if bits desc 2 0 = 3 then Claims.withArray k (arrayOf (bits desc 18 18)) { k.arr (arrayOf (bits desc 18 18)) with rows := [] } else k

/-- STREAM_ARM, STREAM_REARM, STREAM_STOP and STREAM_HAND (R209 to R211, R214, R217, R218, R226): the descriptor's stream is armed with its
totals at 0 (an ACCEPT still to come for an earlier arm then completes no element of it), gets the bases of a next round, or stops; a load
hands over H positions and frees F; a store's blocks join its engine, which reads their lines from then on, and its H positions are handed,
unless a block lies outside its bounds, which halts the die with BOUND_FAULT. A store hand-over whose block entries are not all read reads
them first and issues from there; one that cannot be read leaves it without effect (R205, R277; log entry 46). -/
def Obligations.StreamCommands : Prop :=
  ∀ (s : State) (c : Fin 32) (w : CmdWords) (e : LookEntry) (rest : List LookEntry) (d : BitVec 11) (desc : BitVec 512) (st : Stream),
    d = (opA w).extractLsb' 0 11 → desc = tget 0 (s.core c).descs d.toNat → st = (s.core c).stream d →
    (∀ desc' : BitVec 512, desc' = (if (opA w).getLsbD 16 then sdWithBase desc (e.words.w1.extractLsb' 0 64) (bits e.words.w1 88 64) else desc) →
      Claims.Ready 0x30 s c w e rest →
      Claims.IssuesSending (· = { s.fab with awaiting := s.fab.awaiting.map (orphan c d (sdAck desc)) })
        (.streamArm c w) s c e rest fun t => Claims.Signalled t c (sigsOf w) { Claims.linksEmptied desc' (s.core c) with
        streams := tset {} (s.core c).streams d.toNat { armed := true, arms := st.arms + 1, bases := [⟨sdHallBase desc', sdSpBase desc', e.idx⟩] }
        descs := tset 0 (s.core c).descs d.toNat desc' }) ∧
    (∀ desc' : BitVec 512, desc' = sdWithBase desc (e.words.w1.extractLsb' 0 64) (bits e.words.w1 88 64) → Claims.Ready 0x32 s c w e rest →
      Claims.IssuesTo (.streamRearm c w) s c e rest fun t => Claims.Signalled t c (sigsOf w) { s.core c with
        streams := tset {} (s.core c).streams d.toNat { st with bases := st.bases ++ [⟨sdHallBase desc', sdSpBase desc', e.idx⟩] }
        descs := tset 0 (s.core c).descs d.toNat desc' }) ∧
    (Claims.Ready 0x33 s c w e rest →
      Claims.IssuesTo (.streamStop c w) s c e rest fun t => Claims.Signalled t c (sigsOf w) { s.core c with
        streams := tset {} (s.core c).streams d.toNat { st with stopping := true } }) ∧
    (Claims.Ready 0x31 s c w e rest → bits desc 2 0 ≠ 2 →
      Claims.IssuesTo (.streamHand c w) s c e rest fun t => Claims.Signalled t c (sigsOf w) { s.core c with
        streams := tset {} (s.core c).streams d.toNat { st with
          handed := st.handed + bits (opA w) 20 16, freed := st.freed + bits (opA w) 36 32
          list := st.list.filter fun x => decide (st.freed + bits (opA w) 36 32 ≤ x.1) } }) ∧
    (Claims.Ready 0x31 s c w e rest → bits desc 2 0 = 2 → bits (opA w) 20 16 = 0 →
      Claims.IssuesTo (.streamHand c w) s c e rest fun t => Claims.Signalled t c (sigsOf w) (s.core c)) ∧
    (Claims.Ready 0x31 s c w e rest → bits desc 2 0 = 2 → bits (opA w) 20 16 ≠ 0 →
      ∀ ms, ms = handMoves s desc st st.handed (bits (opA w) 20 16) → (∀ m ∈ ms, m.2.2.fault = none) →
      ∃ h : StoreHand, h.idx = e.idx ∧ h.issue = e.issue ∧ h.desc = d ∧ h.skipped = false ∧ h.sig = sigsOf w ∧ h.buf = [] ∧
        h.moves = ms.map (fun m => ⟨m.1, m.2.2.hall, m.2.2.sp, m.2.2.len⟩) ∧ h.lines = ms.flatMap (fun m => blockReads m.2.2.sp m.2.2.len) ∧
      Claims.IssuesTo (.streamHand c w) s c e rest fun _ => { s.core c with
        streams := tset {} (s.core c).streams d.toNat { st with
          handed := st.handed + bits (opA w) 20 16
          list := st.list.filter fun x => decide (st.handed + bits (opA w) 20 16 ≤ x.1) }
        engines := (s.core c).engines.set (engOf (d.toNat / 512)) { (s.core c).eng (engOf (d.toNat / 512)) with
          hands := ((s.core c).eng (engOf (d.toNat / 512))).hands ++ [h] } }) ∧
    (Claims.Ready 0x31 s c w e rest → bits desc 2 0 = 2 → bits (opA w) 20 16 ≠ 0 →
      ∀ m, (handMoves s desc st st.handed (bits (opA w) 20 16)).find? (fun m => m.2.2.fault.isSome) = some m →
      ∃ t : State, exec (.streamHand c w) s = .next t ∧ t.seq.state = .halted ∧ t.mgmt.halt.valid = true ∧ t.mgmt.halt.reason = hcBound ∧
        t.mgmt.halt.core = BitVec.ofNat 5 c.val ∧ t.mgmt.halt.cmdIndex = BitVec.ofNat 13 m.2.1.cmd ∧
        t.mgmt.halt.detail1 = m.2.2.fault.getD 0 ∧ ((t.core c).stream d).faulted = true ∧ ((t.core c).stream d).handed = st.handed) ∧
    (w.opcode = 0x31 → (s.core c).ahead = e :: rest → e.words = normWords w → s.running = true → e.issue = s.seq.cycle →
      ∀ s' : State, s' = foldS (readEntry c d) (missingEntries (s.core c) e.words) s →
      (missingEntries (s'.core c) e.words = [] → exec (.streamHand c w) s = exec (.streamHand c w) s') ∧
      (missingEntries (s'.core c) e.words ≠ [] → ∃ t : State, exec (.streamHand c w) s = .next t ∧
        t = { s' with cores := s'.cores.set c (t.core c) } ∧
        t.core c = { s'.core c with ahead := (s'.core c).ahead.drop 1, slotCycle := e.issue
                                    slotTargets := (t.core c).slotTargets, slotWords := (t.core c).slotWords }))

/-- CH_SEND, CH_CLOSE and CH_RELEASE (R246 to R250, R254): the send deducts the units it needs, numbers the message and places it at WP or,
after a skip marker, at unit 0; the close ends the endpoint's opening; the release drops the oldest messages, moves RP past them, and sends
the units they free back: as one credit return to a sender on this die, on class 0 to one on another module. -/
def Obligations.ChannelCommands : Prop :=
  ∀ (s : State) (c : Fin 32) (w : CmdWords) (e : LookEntry) (rest : List LookEntry) (ep : BitVec 7) (x : Endpoint),
    ep = (opA w).extractLsb' 0 7 → x = (s.core c).ep ep →
    (Claims.Ready 0x50 s c w e rest → ∃ r : SendRec, r.ep = ep ∧ r.len = bits (opA w) 31 8 ∧ r.src = bits e.words.w1 24 0 ∧ r.skipped = false ∧
      r.idx = e.idx ∧ r.issue = e.issue ∧ r.sig = sigsOf w ∧
      Claims.IssuesTo (.chSend c w) s c e rest fun _ =>
        let u := msgUnits (bits (opA w) 31 8)
        let tail := bits x.desc 80 64 - x.wp
        { s.core c with
          sends := (s.core c).sends ++ [r]
          eps := tset {} (s.core c).eps ep.toNat { x with
            credits := x.credits - (if u ≤ tail then u else tail + u)
            deducted := x.deducted ++ [if u ≤ tail then u else tail + u], seq := x.seq + 1, sent := x.sent + 1
            wp := (if u ≤ tail then x.wp + u else u) % max 1 (bits x.desc 80 64) } }) ∧
    (Claims.Ready 0x52 s c w e rest → Claims.IssuesTo (.chClose c w) s c e rest fun t =>
      Claims.Signalled t c (sigsOf w) { s.core c with eps := tset {} (s.core c).eps ep.toNat { x with open_ := false } }) ∧
    (∀ units, units = (((x.landed.take (bits (opA w) 23 8)).map (·.units)).sum) → ∀ k : Core, k = { s.core c with
        eps := tset {} (s.core c).eps ep.toNat { x with
          landed := x.landed.drop (bits (opA w) 23 8)
          rp := match (x.landed.take (bits (opA w) 23 8)).getLast? with | some l => l.after | none => x.rp
          released := x.released + BitVec.ofNat 32 units } } →
      Claims.Ready 0x51 s c w e rest →
      (epRole x.desc = 2 → epPeerModule x.desc ≠ s.module →
        Claims.IssuesSending (Claims.Routed (epPeerModule x.desc)
            (c0msg [(0, 1, 7), (8, 1, (epPeerCore x.desc).val), (9, 1, (epPeerEp x.desc).toNat), (10, 2, (epGen x.desc).toNat),
              (12, 4, (x.released + BitVec.ofNat 32 units).toNat)]) s)
          (.chRelease c w) s c e rest fun t => Claims.Signalled t c (sigsOf w) k) ∧
      (epRole x.desc = 2 → epPeerModule x.desc = s.module → epPeerCore x.desc ≠ c → Claims.rings (sigsOf w) = false →
        ∃ t : State, exec (.chRelease c w) s = .next t ∧
          t = { s with cores := (s.cores.set c (t.core c)).set (epPeerCore x.desc) (t.core (epPeerCore x.desc)) } ∧
          t.core c = Claims.Issued t c e rest (Claims.Signalled t c (sigsOf w) k) ∧
          t.core (epPeerCore x.desc) = { s.core (epPeerCore x.desc) with
            eps := tset {} (s.core (epPeerCore x.desc)).eps (epPeerEp x.desc).toNat { (s.core (epPeerCore x.desc)).ep (epPeerEp x.desc) with
              creditsIn := ((s.core (epPeerCore x.desc)).ep (epPeerEp x.desc)).creditsIn ++
                [⟨128 * c.val + ep.toNat, units, epGen x.desc, 0, 0, s.module⟩] } }) ∧
      ∃ t : State, exec (.chRelease c w) s = .next t ∧ ((t.core c).ep ep).landed = x.landed.drop (bits (opA w) 23 8) ∧
        ((t.core c).ep ep).released = x.released + BitVec.ofNat 32 units)

/-- The operation of a BELL_OP on the word at `addr` (Table 9.3). -/
def Sys2Proof.Claims.opReq (s : State) (c : Fin 32) (w : CmdWords) (e : LookEntry) (addr : U64) (express : Bool) : BellReq :=
  { op := (opA w).extractLsb' 62 2, addr := addr, operand := e.words.w1.extractLsb' 64 64, express := express
    srcModule := s.module, srcCore := BitVec.ofNat 5 c.val, cmd := BitVec.ofNat 13 e.idx
    ack := if (opA w).getLsbD 58 then some ((opA w).extractLsb' 48 5) else none, rdest := bits (opA w) 24 0 }

/-- The EXPRESS_BELL message of operation `r` with path number `n` (Table 11.6). -/
def Sys2Proof.Claims.expressOf (s : State) (r : BellReq) (n : Nat) : C0Msg :=
  c0msg [(0, 1, 9), (8, 1, r.srcCore.toNat + 32 * r.op.toNat), (9, 2, r.cmd.toNat), (11, 1, n % 256),
    (12, 4, ((remoteKey s (haModule r.addr) (haSpace r.addr) (haOff r.addr) 8).getD 0).toNat), (16, 7, bits r.addr 51 0), (24, 8, r.operand.toNat)]

/-- The fabric `f` after core `c` sent an ordered operation to module `m` with number `n` of path queue `q`: the flit waits in the queue, or
on the scheduled plane on its way there, and the path waits for the ACCEPT of that number, which counts on ACK_COUNTER unless the operation
is a READ, whose value counts instead (R234, R235, R303, R309). -/
def Sys2Proof.Claims.OrderedSent (s : State) (c : Fin 32) (m : BitVec 12) (q n : Nat) (r : BellReq) (f : Fabric) : Prop :=
  ⟨BitVec.ofNat 5 c.val, m, n, n, if r.op = 3 then none else r.ack, none, none⟩ ∈ f.awaiting ∧
  (r.op = 3 → ⟨BitVec.ofNat 5 c.val, m, n, n, r.ack, none, some r.rdest⟩ ∈ f.awaiting) ∧
  ∃ x : Flit, (x ∈ tget [] f.queues q ∨ ∃ t, ⟨t, q, x⟩ ∈ f.onMesh) ∧ x.ikind = 4 ∧ x.dest = m ∧ x.last = true ∧
    x.pathSeq = BitVec.ofNat 24 n ∧ x.space = BitVec.ofNat 4 (haSpace r.addr) ∧ x.offset = BitVec.ofNat 45 (haOff r.addr) ∧
    x.payload = bellPayload s r

/-- BELL_OP, BUOY_ARM, BUOY_DISARM and BELL_TEST (R233 to R236, R238, R241): an operation on a word of this module, named by the command or
by a descriptor, joins the ordered or the express path of its core; one on another module leaves as an EXPRESS_BELL message, which counts on
its ACK_COUNTER at once, or as the next item of the core's ordered path there, whose ACCEPT counts; with MCAST one is launched for every
module of the group. Arming starts a registration with an invalid copy; the test writes one predicate from the copy at the start of the
cycle. The fields of a READ's flit are the model's choice (log entry 19). -/
def Obligations.BellCommands : Prop :=
  ∀ (s : State) (c : Fin 32) (w : CmdWords) (e : LookEntry) (rest : List LookEntry),
    (∀ (addr : U64) (express mcast : Bool) (desc : BitVec 128), desc = tget 0 (s.core c).bellDescs (bits (opA w) 47 40) →
      addr = (if (opA w).getLsbD 59 then bdAddr desc else e.words.w1.extractLsb' 0 64) →
      express = (if (opA w).getLsbD 59 then bdExpress desc else (opA w).getLsbD 61) →
      mcast = (if (opA w).getLsbD 59 then bdMcast desc else (opA w).getLsbD 60) →
      Claims.Ready 0x60 s c w e rest →
      (mcast = false → haModule addr = s.module →
        Claims.IssuesTo (.bellOp c w) s c e rest fun t => Claims.Signalled t c (sigsOf w) { s.core c with
          path := if express then (s.core c).path else (s.core c).path ++ [.bell (Claims.opReq s c w e addr false)]
          expPath := if express then (s.core c).expPath ++ [{ Claims.opReq s c w e addr true with origin := .express }] else (s.core c).expPath }) ∧
      (mcast = false → haModule addr ≠ s.module → express = true → ∀ n, n = tget 0 (s.core c).expSeqOut (haModule addr).toNat →
        Claims.IssuesSending
          (Claims.Routed (haModule addr) (Claims.expressOf s (Claims.opReq s c w e addr true) n) { s with fab := { s.fab with
            sentAt := tset 0 s.fab.sentAt (sentKey c.val (haModule addr) true (n % 256)) (bits addr 51 0) } })
          (.bellOp c w) s c e rest fun t => Claims.Signalled t c (sigsOf w)
            (Claims.acked s (Claims.opReq s c w e addr true).ack 1
              { s.core c with expSeqOut := tset 0 (s.core c).expSeqOut (haModule addr).toNat (n + 1) })) ∧
      (mcast = false → haModule addr ≠ s.module → express = false → Claims.rings (sigsOf w) = false →
        ∃ t : State, exec (.bellOp c w) s = .next t ∧
          t = { s with
            cores := s.cores.set c (t.core c), clk := { s.clk with mesh := t.clk.mesh }
            fab := { s.fab with
              sentAt := t.fab.sentAt, seqOut := t.fab.seqOut, onMesh := t.fab.onMesh, queues := t.fab.queues, awaiting := t.fab.awaiting } } ∧
          t.core c = Claims.Issued t c e rest (Claims.Signalled t c (sigsOf w) (s.core c)) ∧
          ∀ q, q = pathQueueOf s c (haModule addr) →
            t.fab.seqOut = tset 0 s.fab.seqOut q (tget 0 s.fab.seqOut q + 1) ∧
            Claims.OrderedSent s c (haModule addr) q (tget 0 s.fab.seqOut q) (Claims.opReq s c w e addr false) t.fab) ∧
      (mcast = true → Claims.rings (sigsOf w) = false → ∀ mods, mods = (tget {} s.groups (bits addr 63 56)).modules →
        ∀ at_ : BitVec 12 × BitVec 5 → U64, at_ = (fun m => BitVec.ofNat 64 (m.1.toNat * 2 ^ 52 + bits addr 51 0)) →
        (express = false → ∃ t : State, exec (.bellOp c w) s = .next t ∧
          t = { s with
            cores := s.cores.set c (t.core c), clk := { s.clk with mesh := t.clk.mesh }
            fab := { s.fab with
              sentAt := t.fab.sentAt, seqOut := t.fab.seqOut, onMesh := t.fab.onMesh, queues := t.fab.queues, awaiting := t.fab.awaiting } } ∧
          t.core c = Claims.Issued t c e rest (Claims.Signalled t c (sigsOf w) { s.core c with
            path := (s.core c).path ++ (mods.filter fun m => m.1 == s.module).map fun m => .bell (Claims.opReq s c w e (at_ m) false) }) ∧
          ∀ (before after : List (BitVec 12 × BitVec 5)) (m : BitVec 12 × BitVec 5), mods = before ++ m :: after → m.1 ≠ s.module →
            ∀ q, q = pathQueueOf s c m.1 →
              Claims.OrderedSent s c m.1 q
                (tget 0 s.fab.seqOut q + (before.filter fun x => x.1 != s.module && pathQueueOf s c x.1 == q).length)
                (Claims.opReq s c w e (at_ m) false) t.fab) ∧
        (express = true → ∃ t : State, exec (.bellOp c w) s = .next t ∧
          t = { s with
            cores := s.cores.set c (t.core c)
            fab := { s.fab with
              rseq := s.fab.rseq + BitVec.ofNat 16 (mods.filter fun m => m.1 != s.module).length
              sentAt := t.fab.sentAt, ports := t.fab.ports } } ∧
          t.core c = Claims.Issued t c e rest (Claims.Signalled t c (sigsOf w)
            (Claims.acked s (Claims.opReq s c w e addr true).ack (mods.filter fun m => m.1 != s.module).length { s.core c with
              expSeqOut := (t.core c).expSeqOut
              expPath := (s.core c).expPath ++ (mods.filter fun m => m.1 == s.module).map
                fun m => { Claims.opReq s c w e (at_ m) true with origin := .express } })) ∧
          ∀ (before after : List (BitVec 12 × BitVec 5)) (m : BitVec 12 × BitVec 5), mods = before ++ m :: after → m.1 ≠ s.module →
            ∀ p : Fin 16, Claims.RoutePort m.1 s p → ∃ o ∈ (t.fab.ports.get p).c0q, o.msg =
              Claims.routedMsg m.1
                (Claims.expressOf s (Claims.opReq s c w e (at_ m) true)
                  (tget 0 (s.core c).expSeqOut m.1.toNat + (before.filter fun x => x.1 == m.1).length))
                (s.fab.rseq + BitVec.ofNat 16 (before.filter fun x => x.1 != s.module).length) s))) ∧
    (Claims.Ready 0x61 s c w e rest → Claims.IssuesTo (.buoyArm c w) s c e rest fun t => Claims.Signalled t c (sigsOf w) { s.core c with
      buoys := tset {} (s.core c).buoys ((opA w).extractLsb' 0 6).toNat
        { armed := true, cmpEq := (opA w).getLsbD 8, addr := e.words.w1.extractLsb' 0 64, value := e.words.w1.extractLsb' 64 64
          valid := false, reg := .registering, armedAt := s.seq.cycle } }) ∧
    (Claims.Ready 0x62 s c w e rest → ((s.core c).buoy ((opA w).extractLsb' 0 6)).armed = true →
      Claims.IssuesTo (.buoyDisarm c w) s c e rest fun t => Claims.Signalled t c (sigsOf w) { s.core c with
        buoys := tset {} (s.core c).buoys ((opA w).extractLsb' 0 6).toNat
          { (s.core c).buoy ((opA w).extractLsb' 0 6) with armed := false, valid := false, reg := .idle } }) ∧
    (Claims.Ready 0x63 s c w e rest → Claims.IssuesTo (.bellTest c w) s c e rest fun t =>
      let v := (tget {} (s.core c).buoys0 (bits (opA w) 5 0)).copy.toNat
      let x := (e.words.w1.extractLsb' 0 64).toNat
      let r := [decide (v = x), decide (v ≠ x), decide (v < x), decide (v ≤ x), decide (x < v), decide (x ≤ v)].getD (bits (opA w) 10 8) false
      Claims.Signalled t c (sigsOf w) { s.core c with
        preds := setBit (s.core c).preds (bits (opA w) 19 16) r
        predLate := setBit (s.core c).predLate (bits (opA w) 19 16) true })

/-- The core a command of the stream is given for. -/
def Sys2Proof.Claims.rowCore : Instr → Option (Fin 32)
  | .nop c _ | .predSet c _ | .predLogic c _ | .testSync c _ | .statLoad c _ | .statSwap c _ | .passN c _ | .passT c _
  | .passNDirect c _ | .acbFill c _ | .chain c _ | .reduce c _ | .tileMove c _ | .streamArm c _ | .streamHand c _ | .streamRearm c _
  | .streamStop c _ | .turn c _ | .chSend c _ | .chRelease c _ | .chClose c _ | .bellOp c _ | .buoyArm c _ | .buoyDisarm c _
  | .bellTest c _ => some c
  | _ => none

/-- Every command of the stream (R90, R96): words that do not spell the row's opcode are refused; a command while its core has none
looked out, or while the die does not run, changes nothing; one that fails a check halts the die in its issue cycle and has no effect. -/
def Obligations.EveryStreamCommandIsGuarded : Prop :=
  ∀ (s : State) (i : Instr) (op : Nat) (w : CmdWords) (c : Fin 32), i.spelt = some (op, w) → Claims.rowCore i = some c →
    (w.opcode ≠ op → ∃ name, exec i s = .refused (.illFormed name)) ∧
    (w.opcode = op → (s.core c).ahead = [] → exec i s = .next s) ∧
    (w.opcode = op → s.seq.state ≠ .running → s.seq.state ≠ .halted → exec i s = .next s) ∧
    (∀ (e : LookEntry) (rest : List LookEntry), w.opcode = op → (s.core c).ahead = e :: rest → e.words = normWords w →
      s.running = true → e.issue = s.seq.cycle → missingEntries (s.core c) e.words = [] → commandCauses s c e ≠ [] →
      ∃ t : State, exec i s = .next t ∧
        t = { s with mgmt := t.mgmt, seq := { s.seq with state := .halted, parked := false, suspended := false, suspendReq := none }
                     clk := { s.clk with hold := none }
                     pwr := { s.pwr with event := setBit s.pwr.event 0 true, eventNow := t.pwr.eventNow }
                     fab := t.fab, host := t.host, cores := s.cores.set c (t.core c) } ∧
        t.core c = { s.core c with ahead := rest, slotCycle := e.issue, slotTargets := (t.core c).slotTargets, slotWords := (t.core c).slotWords } ∧
        t.mgmt.halt.valid = true ∧ t.mgmt.halt.noCore = false ∧ t.mgmt.halt.core = BitVec.ofNat 5 c.val ∧
        t.mgmt.halt.cmdValid = true ∧ t.mgmt.halt.cmdIndex = BitVec.ofNat 13 e.idx ∧
        (s.clk.phase ≠ .wait → t.mgmt.halt.cycle = BitVec.ofNat 32 s.seq.cycle) ∧ t.mgmt.haltCount = satInc s.mgmt.haltCount)

/-- A skipped command of any row (R76, R81): it counts in SKIP_COUNT, its pointer moves on, and its signals fire only with SOS; a vector
command, a store hand-over, a TURN and a CH_SEND stay with their engine for the overlap checks alone (R162, R211, R223, R248); nothing else
changes, the fabric and the mesh only when a BELL signal fires. -/
def Obligations.SkippedCommandsHaveNoEffect : Prop :=
  ∀ (s : State) (c : Fin 32) (w : CmdWords) (e : LookEntry) (rest : List LookEntry) (i : Instr) (op : Nat),
    i.spelt = some (op, w) → Claims.rowCore i = some c → w.opcode = op →
    (s.core c).ahead = e :: rest → e.words = normWords w → s.running = true → e.issue = s.seq.cycle → commandCauses s c e = [] →
    e.skip = true → e.idx + nwordsOf e.words < (s.core c).blockWords → missingEntries (s.core c) e.words = [] →
    ∃ t : State, exec i s = .next t ∧
      t = { s with cores := s.cores.set c (t.core c), fab := t.fab, clk := { s.clk with mesh := t.clk.mesh } } ∧
      (w.w0.getLsbD 22 = false ∨ Claims.rings (sigsOf w) = false → t.fab = s.fab ∧ t.clk = s.clk) ∧
      ∀ k, k = keepSkipped (handLines s c e.words) e { s.core c with skipCount := (s.core c).skipCount + 1 } →
        t.core c = Claims.Issued t c e rest (if w.w0.getLsbD 22 then Claims.Signalled t c (sigsOf w) k else k)

/-! ## Lookouts and completions -/

/-- A completion of core `c` that changes it to `k` and then fires `sigs`; nothing else of the module changes but the flits a BELL
signal sends, with their places on the mesh. -/
def Sys2Proof.Claims.SignalsTo (i : Instr) (s : State) (c : Fin 32) (sigs : U64) (k : Core) : Prop :=
  ∃ t : State, exec i s = .next t ∧
    t = { s with cores := s.cores.set c (t.core c), fab := t.fab, clk := { s.clk with mesh := t.clk.mesh } } ∧
    t.core c = Claims.Signalled t c sigs k ∧ (Claims.rings sigs = false → t.fab = s.fab ∧ t.clk = s.clk)

/-- LOOKOUT (R35, R57, R58, R60, R74, R80): in its lookout cycle the next command of the core is looked out with its final skip decision;
with PROG = 1 a leg predicted to overrun its mark raises a slip in that cycle, and floods it; each condition that the lookout samples and
that is not met joins the hold of this cycle, or starts one. Nothing else happens, and another command or another cycle changes nothing. -/
def Obligations.LookoutsSampleTheNextCommand : Prop :=
  ∀ (s : State) (c : Fin 32) (w : CmdWords) (issue : U32),
    (¬ (s.seq.state = .running ∧ nextLook s c = some (normWords w, issue.toNat) ∧ issue.toNat - 8 = s.seq.cycle) →
      exec (.lookout c w issue) s = .next s) ∧
    (s.seq.state = .running → nextLook s c = some (normWords w, issue.toNat) → issue.toNat - 8 = s.seq.cycle →
      ∀ (late : Prop) (fails : List WaitFor) (s1 : State),
      late = (w.w0.getLsbD 35 = true ∧ s.seq.timed = true ∧ s.seq.suspended = false ∧ s.seq.nextAt.toNat < s.predict issue.toNat) →
      fails = (looksAt (s.core c) (normWords w)).filter (fun x => !waitMet s c x) →
      s1 = { s with cores := s.cores.set c { s.core c with
        ahead := (s.core c).ahead ++ [{ lookEntry (s.core c) (normWords w) issue.toNat with
          idx := (s.core c).lookIdx, issue := issue.toNat
          skip := if bits w.w0 28 24 = 31 then false else (s.core c).preds.getLsbD (bits w.w0 28 24) == w.w0.getLsbD 23 }]
        lookIdx := (s.core c).lookIdx + nwordsOf w, lookPrev := issue.toNat } } →
      ∃ u t : State, exec (.lookout c w issue) s = .next t ∧
        (¬ late → u = s1) ∧
        (late → ∃ (k : Nat) (v : State),
          k = max 1 (min 15 ((s.predict issue.toNat - s.seq.nextAt.toNat + s.time.quantum - 1) / s.time.quantum)) ∧
          Claims.SlipApplied s.slipTarget k s.module (BitVec.ofNat 5 c.val) false 0 s1 v ∧
          Claims.Flooded none
            (c0msg [(0, 1, 4), (2, 2, s.seq.origin.toNat), (4, 4, s.slipTarget % 2 ^ 32), (8, 1, k), (9, 1, 0),
              (10, 2, s.module.toNat), (12, 1, c.val)]) v u) ∧
        (fails = [] → t = u) ∧
        (fails ≠ [] →
          (∃ g, t = { u with
            cores := u.cores.set c { u.core c with engines := g }
            clk := { u.clk with hold := t.clk.hold, holdCount := t.clk.holdCount } } ∧
            ∀ i : Fin 4, g.get i = { (u.core c).eng i with holds := (g.get i).holds }) ∧
          (∀ h, s.clk.hold = some h → t.clk.holdCount = s.clk.holdCount ∧
            t.clk.hold = some { h with causes := h.causes ++ fails.map fun x => { core := c, what := x } }) ∧
          (s.clk.hold = none → t.clk.holdCount = s.clk.holdCount + 1 ∧
            t.clk.hold = some { cycle := s.seq.cycle, since := s.time.hallTime, acc := s.clk.acc
                                causes := fails.map fun x => { core := c, what := x } })))

/-- STAT_LOAD_COMPLETE, PASS_DONE and ACB_FILL_COMPLETE (R108, R109, R118): in the completion cycle the shadow set takes the load's
format, SPARSE and TAG and may be swapped in; the first pass or fill that is done leaves the array, which counts as idle from the next
cycle on (R115); the signals fire. -/
def Obligations.ArrayCompletionsFireTheirSignals : Prop :=
  ∀ (s : State) (c : Fin 32) (j : Fin 2) (u : ArrayUnit), u = (s.core c).arr j →
    (∀ r : LoadRec, u.load = some r → r.issue + 4 + loadCycles r.fmt r.sparse ≤ s.seq.cycle →
      Claims.SignalsTo (.statLoadComplete c j) s c r.sig (Claims.withArray (s.core c) j { u with
        load := none, shadowValid := true, idleFrom := s.seq.cycle + 1
        setA := if u.activeB then { u.setA with fmt := r.fmt, sparse := r.sparse, tag := r.tag } else u.setA
        setB := if u.activeB then u.setB else { u.setB with fmt := r.fmt, sparse := r.sparse, tag := r.tag } })) ∧
    (∀ (pre post : List PassRec) (p : PassRec), u.passes = pre ++ p :: post → (∀ q ∈ pre, s.seq.cycle < q.done) → p.done ≤ s.seq.cycle →
      Claims.SignalsTo (.passDone c j) s c p.sig (Claims.withArray (s.core c) j { u with passes := pre ++ post, idleFrom := s.seq.cycle + 1 })) ∧
    (∀ (pre post : List FillRec) (f : FillRec), u.fills = pre ++ f :: post → (∀ q ∈ pre, s.seq.cycle < q.issue + 2 + q.count) →
      f.issue + 2 + f.count ≤ s.seq.cycle →
      Claims.SignalsTo (.acbFillComplete c j) s c f.sig (Claims.withArray (s.core c) j { u with fills := pre ++ post, idleFrom := s.seq.cycle + 1 }))

/-- The predicates a chain's completion writes: one write for each compare stage, in stage order, of OR or AND over the tile (R168). -/
def Sys2Proof.Claims.stagePreds (l : List (Stage × (Bool × Bool))) (k : Core) : Core :=
  l.foldl (fun k g =>
    if stCdest g.1 = 1 then { k with preds := setBit k.preds (stPdest g.1 % 16) g.2.1, predLate := setBit k.predLate (stPdest g.1 % 16) true }
    else if stCdest g.1 = 2 then { k with preds := setBit k.preds (stPdest g.1 % 16) g.2.2, predLate := setBit k.predLate (stPdest g.1 % 16) true }
    else k) k

/-- VECTOR_COMPLETE (R157, R167, R168, R173): the first command that is done leaves the engine, its predicates are written, a chain's
mask-out block joins the stream that takes it, and the signals fire. -/
def Obligations.VectorCompletionWritesPredicates : Prop :=
  ∀ (s : State) (c : Fin 32) (pre post : List VecRec) (r : VecRec), (s.core c).vec.inFlight = pre ++ r :: post →
    (∀ q ∈ pre, q.skipped = true ∨ q.trapped = true ∨ s.seq.cycle < q.done) →
    r.skipped = false → r.trapped = false → r.done ≤ s.seq.cycle →
    ∀ k : Core, k = { s.core c with vec := { (s.core c).vec with inFlight := pre ++ post, lastDone := BitVec.ofNat 32 r.done } } →
      (r.words.opcode = 0x22 → Claims.SignalsTo (.vectorComplete c) s c (sigsOf r.words) k) ∧
      (r.words.opcode = 0x21 → rdPen r.words = false → Claims.SignalsTo (.vectorComplete c) s c (sigsOf r.words) k) ∧
      (r.words.opcode = 0x21 → rdPen r.words = true → Claims.SignalsTo (.vectorComplete c) s c (sigsOf r.words) { k with
        preds := setBit k.preds (rdPdest r.words) (reducePred r.words (reduceAll r.words r.srcSlices.flatten))
        predLate := setBit k.predLate (rdPdest r.words) true }) ∧
      (r.words.opcode = 0x20 → ∀ l, l = ((chainStages r.words).filter fun g => stOp g == 0x0A).zip r.preds →
        ((chMout r.words).bind fun g => maskStream (s.core c) g 5) = none →
        Claims.SignalsTo (.vectorComplete c) s c (sigsOf r.words) (Claims.stagePreds l k)) ∧
      (r.words.opcode = 0x20 → ∀ l, l = ((chainStages r.words).filter fun g => stOp g == 0x0A).zip r.preds →
        ∀ d, ((chMout r.words).bind fun g => maskStream (s.core c) g 5) = some d →
        Claims.SignalsTo (.vectorComplete c) s c (sigsOf r.words) (Claims.stagePreds l { k with
          streams := tset {} (s.core c).streams d.toNat { (s.core c).stream d with
            handed := ((s.core c).stream d).handed + 1
            elems := ((s.core c).stream d).elems ++ [{ pos := ((s.core c).stream d).handed, need := 512, len := 512, started := false
                                                       buf := mwrites [] 0 (bitsBlock r.maskOut) }] } }))

/-- The fabric `f` after the pieces `l` of one item, each an address and its bytes, left for module `m` with the numbers from `n` on of path
queue `q`: each waits there, or on the scheduled plane on its way, LAST on the final one (R235, R303). -/
def Sys2Proof.Claims.ItemSent (m : BitVec 12) (q n ikind space : Nat) (l : List (Nat × List Byte)) (f : Fabric) : Prop :=
  ∀ (i : Nat) (x : Nat × List Byte), l[i]? = some x → ∃ y : Flit, (y ∈ tget [] f.queues q ∨ ∃ t, ⟨t, q, y⟩ ∈ f.onMesh) ∧
    y.ikind = BitVec.ofNat 3 ikind ∧ y.dest = m ∧ y.pathSeq = BitVec.ofNat 24 (n + i) ∧ y.space = BitVec.ofNat 4 space ∧
    y.offset = BitVec.ofNat 45 x.1 ∧ y.payload = x.2 ∧ y.last = decide (i + 1 = l.length)

/-- The parts of module `t` that launches on ordered paths may change, beside `cores`. -/
def Sys2Proof.Claims.launched (s t : State) : Fabric :=
  { s.fab with sentAt := t.fab.sentAt, seqOut := t.fab.seqOut, onMesh := t.fab.onMesh, queues := t.fab.queues, awaiting := t.fab.awaiting }

/-- STORE_HAND_COMPLETE, TURN_COMPLETE and CH_SEND_COMPLETE (R211, R223, R224, R235, R246, R248, R251, R303): the first hand-over, TURN or
send that is through leaves its engine and fires its signals; what it sends within the module joins the ordered path of its core, in order,
and what it sends to another module, or to every child module of its group, leaves as the next items of its ordered path there, cut at the
256-byte boundaries; the position of a handed block waits for the ACCEPT of its last flit. -/
def Obligations.TransfersCompleteInOrder : Prop :=
  ∀ (s : State) (c : Fin 32),
    (∀ (e : Fin 4) (pre post : List StoreHand) (r : StoreHand), ((s.core c).eng e).hands = pre ++ r :: post →
      (∀ q ∈ pre, q.skipped = true ∨ s.seq.cycle < q.lastRead) → r.skipped = false → r.lastRead ≤ s.seq.cycle →
      ∃ t : State, exec (.storeHandComplete c e) s = .next t ∧
        t = { s with cores := s.cores.set c (t.core c), fab := t.fab, clk := { s.clk with mesh := t.clk.mesh } } ∧
        t.core c = Claims.Signalled t c r.sig { s.core c with
          engines := (s.core c).engines.set e { (s.core c).eng e with hands := pre ++ post }, streams := (t.core c).streams
          path := (s.core c).path ++ (r.moves.filter fun m => haModule m.hall == s.module).map fun m => .store r.desc m.pos } ∧
        ((t.core c).stream r.desc).elems = ((s.core c).stream r.desc).elems ++ r.moves.map (fun m =>
          if haModule m.hall = s.module then
            { pos := m.pos, need := m.len, hall := m.hall, sp := m.sp, len := m.len, started := false
              buf := mwrites [] 0 (mreads r.buf m.sp m.len) }
          else { pos := m.pos, need := m.len, hall := m.hall, sp := m.sp, len := m.len, remote := true }) ∧
        (Claims.rings r.sig = false → t.fab = Claims.launched s t ∧ t.clk = s.clk) ∧
        ((∀ m ∈ r.moves, haModule m.hall = s.module) → Claims.rings r.sig = false → t.fab = s.fab) ∧
        ∀ cut : HandMove → List (Nat × List Byte), cut = (fun m => cut256 (m.len + 1) (haOff m.hall) (mreads r.buf m.sp m.len)) →
        ∀ (before after : List HandMove) (m : HandMove), r.moves = before ++ m :: after → haModule m.hall ≠ s.module → 0 < m.len →
        ∀ q n, q = pathQueueOf s c (haModule m.hall) →
          n = tget 0 s.fab.seqOut q + ((before.filter fun x =>
            haModule x.hall != s.module && pathQueueOf s c (haModule x.hall) == q).map fun x => (cut x).length).sum →
          Claims.ItemSent (haModule m.hall) q n 1 (haSpace m.hall) (cut m) t.fab ∧
          ⟨BitVec.ofNat 5 c.val, haModule m.hall, n, n + (cut m).length - 1, none, some (r.desc, m.pos), none⟩ ∈ t.fab.awaiting) ∧
    (∀ (pre post : List TurnRec) (r : TurnRec), (s.core c).turn.inFlight = pre ++ r :: post → r ∉ post →
      (∀ q ∈ pre, q.skipped = true ∨ q.readDone = true ∨
        (if tnDir q.words = 1 then s.seq.cycle < q.spanEnd else q.tile < tnTiles q.words)) →
      r.skipped = false → r.readDone = false →
      (if tnDir r.words = 1 then r.spanEnd ≤ s.seq.cycle else tnTiles r.words ≤ r.tile) →
      Claims.SignalsTo (.turnComplete c) s c (sigsOf r.words) { s.core c with turn :=
        { inFlight := pre ++ { r with readDone := true } :: post, count := (s.core c).turn.count + 1 } }) ∧
    (∀ (pre post : List SendRec) (r : SendRec) (m : ChMsg), (s.core c).sends = pre ++ r :: post → r.msg = some m →
      (∀ q ∈ pre, q.skipped = true ∨ s.seq.cycle < q.lastRead) → r.skipped = false → r.lastRead ≤ s.seq.cycle →
      ∃ t : State, exec (.chSendComplete c) s = .next t ∧
        t = { s with cores := s.cores.set c (t.core c), fab := t.fab, clk := { s.clk with mesh := t.clk.mesh } } ∧
        ∀ b, b = m.bytes ++ mreads r.buf r.src r.len → ∀ d, d = ((s.core c).ep r.ep).desc →
        t.core c = Claims.Signalled t c r.sig { s.core c with
          sends := pre ++ post
          path := (s.core c).path ++
            (if epRole d = 3 then (tget {} s.groups (epGroup d)).members.map fun x => .message { m with bytes := b, core := BitVec.ofNat 5 x.1.val, ep := x.2 }
             else if epPeerModule d = s.module then [.message { m with bytes := b }] else []) } ∧
        (Claims.rings r.sig = false → t.fab = Claims.launched s t ∧ t.clk = s.clk) ∧
        (epRole d ≠ 3 → epPeerModule d = s.module → Claims.rings r.sig = false → t.fab = s.fab) ∧
        ∀ dests : List (BitVec 12 × BitVec 5), dests = (if epRole d = 3 then childModules s (tget {} s.groups (epGroup d))
          else if epPeerModule d = s.module then [] else [(epPeerModule d, m.core)]) →
        ∀ mark item : BitVec 5 → List (Nat × List Byte),
          mark = (fun k => match skipMarker m with
            | some x => cut256 (x.2.length + 1) (k.toNat * 2 ^ 40 + epRing d + 256 * x.1) x.2
            | none => []) →
          item = (fun k => cut256 (b.length + 1) (k.toNat * 2 ^ 40 + epRing d + 256 * m.at_) b) →
        ∀ (before after : List (BitVec 12 × BitVec 5)) (x : BitVec 12 × BitVec 5), dests = before ++ x :: after →
        ∀ q n, q = pathQueueOf s c x.1 →
          n = tget 0 s.fab.seqOut q + ((before.filter fun y => pathQueueOf s c y.1 == q).map
            fun y => (mark y.2).length + (item y.2).length).sum →
          Claims.ItemSent x.1 q n 5 1 (mark x.2) t.fab ∧ Claims.ItemSent x.1 q (n + (mark x.2).length) 5 1 (item x.2) t.fab)

/-- ELASTIC_SLICE_DUE (R121 to R123, R219): a slice that is present enters its group, a direct row's by its stream position, which frees it
and counts on the stream's ACK_COUNTER (R78, R212); one that is absent is late by one more cycle, up to 8; past that it is an escalation,
which holds the die, or halts it where the leg has more of them than the limit. On a die halted in this very cycle only such a halt still
counts, in EXTRA or as the recorded one (R382; log entry 9 for what this very cycle is). -/
def Obligations.SlicesEnterOrComeLate : Prop :=
  ∀ (s : State) (c : Fin 32) (j : Fin 2) (g : Fin 8) (u : ArrayUnit) (p : PassRec) (m : Nat),
    (((s.core c).arr j).dueSlice g s.seq.cycle).isSome = true → u = raiseLate g ((s.core c).arr j) → u.dueSlice g s.seq.cycle = some (p, m) →
    (s.seq.state = .running →
    (p.direct = none →
      exec (.elasticSliceDue c j g) s = .next { s with cores := s.cores.set c (Claims.withArray (s.core c) j { u with
        passes := u.passes.map fun x => if x = p then { p with slices := p.slices.set g.val (p.slices.get g + 1) g.isLt } else x }) }) ∧
    (∀ (d : BitVec 11) (row : FedRow), p.direct = some d → g = 0 → (u.rows.find? fun r => r.m == p.first + m) = some row →
      ∀ k : Core, k = { Claims.withArray (s.core c) j { u with
          rows := u.rows.erase row
          passes := u.passes.map fun x => if x = p then { p with slices := p.slices.set g.val (p.slices.get g + 1) g.isLt
                                                                 fed := p.fed ++ [{ row with m := m }] } else x }
        with
          streams := tset {} (s.core c).streams d.toNat { (s.core c).stream d with
            freed := ((s.core c).stream d).freed + 1
            elems := ((s.core c).stream d).elems.filter fun e => e.pos != p.first + m } } →
      exec (.elasticSliceDue c j g) s = .next { s with
        cores := s.cores.set c (Claims.acked s (sdAck (tget 0 (s.core c).descs d.toNat)) 1 k) }) ∧
    (∀ d : BitVec 11, p.direct = some d → g ≠ 0 →
      exec (.elasticSliceDue c j g) s = .next { s with cores := s.cores.set c (Claims.withArray (s.core c) j { u with
        passes := u.passes.map fun x => if x = p then { p with slices := p.slices.set g.val (p.slices.get g + 1) g.isLt } else x }) }) ∧
    (u.slicePresent g p m = false ↔ g = 0 ∧ p.direct ≠ none ∧ ∀ r ∈ u.rows, r.m ≠ p.first + m) ∧
    (u.slicePresent g p m = false → u.late.get g < 8 →
      exec (.elasticSliceDue c j g) s = .next { s with cores := s.cores.set c (Claims.withArray (s.core c) j
        { u with late := u.late.set g (u.late.get g + 1) g.isLt }) }) ∧
    (u.slicePresent g p m = false → 8 ≤ u.late.get g → s.waitsSlice c j g = false → s.clk.escLimit = 0 ∨ s.seq.esc < s.clk.escLimit →
      ∃ t : State, exec (.elasticSliceDue c j g) s = .next t ∧ t = { s with
        cores := s.cores.set c (Claims.withArray (s.core c) j { u with escCount := satInc u.escCount, escLeg := satInc u.escLeg })
        seq := { s.seq with esc := s.seq.esc + 1 }
        clk := { s.clk with holdCount := t.clk.holdCount, hold := t.clk.hold } } ∧
        (∀ h, s.clk.hold = some h → t.clk.holdCount = s.clk.holdCount ∧
          t.clk.hold = some { h with causes := h.causes ++ [{ core := c, what := .slice j g }] }) ∧
        (s.clk.hold = none → t.clk.holdCount = s.clk.holdCount + 1 ∧
          t.clk.hold = some { cycle := s.seq.cycle, since := s.time.hallTime, acc := s.clk.acc, causes := [{ core := c, what := .slice j g }] })) ∧
    (u.slicePresent g p m = false → 8 ≤ u.late.get g → s.waitsSlice c j g = false → s.clk.escLimit ≠ 0 → s.clk.escLimit ≤ s.seq.esc →
      ∃ t : State, exec (.elasticSliceDue c j g) s = .next t ∧ t.seq.state = .halted ∧ t.mgmt.halt.valid = true ∧
        t.mgmt.halt.reason = hcElastic ∧ t.mgmt.halt.noCore = false ∧ t.mgmt.halt.core = BitVec.ofNat 5 c.val ∧
        t.mgmt.haltCount = satInc s.mgmt.haltCount)) ∧
    (s.seq.state ≠ .running → sameHaltCycle s = false → exec (.elasticSliceDue c j g) s = .next s) ∧
    (sameHaltCycle s = true →
      (u.slicePresent g p m = true ∨ u.late.get g < 8 ∨ s.clk.escLimit = 0 ∨ s.seq.esc < s.clk.escLimit →
        exec (.elasticSliceDue c j g) s = .next s) ∧
      (u.slicePresent g p m = false → 8 ≤ u.late.get g → s.clk.hold = none → s.clk.escLimit ≠ 0 → s.clk.escLimit ≤ s.seq.esc →
        ∃ t : State, exec (.elasticSliceDue c j g) s = .next t ∧
          t = { s with mgmt := { s.mgmt with halt := t.mgmt.halt }, fab := { s.fab with ports := t.fab.ports } } ∧
          t.mgmt.halt.extra = satInc s.mgmt.halt.extra))

/-- DIRECT_ROW_PRESENT (R121, R219): the oldest row whose bytes have all arrived joins the array's links under its stream position; its
element stays in flight until the row enters the array (R212). -/
def Obligations.DirectRowsReachTheLinks : Prop :=
  ∀ (s : State) (c : Fin 32) (j : Fin 2),
    (∀ (d : BitVec 11) (e : Elem), arrivedRow (s.core c) j = some (d, e) →
      exec (.directRowPresent c j) s = .next { s with cores := s.cores.set c { Claims.withArray (s.core c) j
          { (s.core c).arr j with rows := ((s.core c).arr j).rows ++ [⟨e.pos, mreads e.buf 0 e.len, []⟩] } with
        streams := tset {} (s.core c).streams d.toNat { (s.core c).stream d with
          elems := ((s.core c).stream d).elems.map fun x => if x = e then { e with done := true, buf := [] } else x } } }) ∧
    (arrivedRow (s.core c) j = none → exec (.directRowPresent c j) s = .next s)

/-! ## Streams at work, bells and channels -/

/-- LEAD_START (R205, R208, R212, R225, R226): the lead side of an engine asks a stack for the next entry of a block list it reads ahead, or
starts the fetch of its next position, or the write-out of the oldest element that waits, unless the move lies outside its bounds, which halts
the die with BOUND_FAULT and leaves the stream faulted. Which entries are read ahead is the model's choice (log entry 46). -/
def Obligations.LeadSidesStartElements : Prop :=
  ∀ (s : State) (c : Fin 32) (e : Fin 4) (n : BitVec 11) (d : BitVec 512) (st : Stream),
    s.seq.state ≠ .halted → s.seq.state ≠ .empty → leadPick (s.core c) e = some n →
    d = tget 0 (s.core c).descs n.toNat → st = (s.core c).stream n →
    (listDue d st = true → listAddr d st.asked % 16 = 0 → ∀ i : Fin 16, i = stackOfAddr (listAddr d st.asked) →
      exec (.leadStart c e) s = .next { s with
        cores := s.cores.set c { s.core c with streams := tset {} (s.core c).streams n.toNat { st with asked := st.asked + 1 } }
        stks := s.stks.set i { s.stack i with meshq := (s.stack i).meshq ++
          [{ addr := listAddr d st.asked, len := 16, write := none, requester := 0, tag := .listEntry c n st.arms st.asked, src := c.val }] } }) ∧
    (∀ (b : RoundBase) (m : Move), listDue d st = false → fetches d = true → roundOf st d st.lead = some b → m = moveOf s d st b st.lead →
      (m.fault = none →
        ∃ t : State, exec (.leadStart c e) s = .next t ∧ t.dram = s.dram ∧ t.seq = s.seq ∧ t.mgmt = s.mgmt ∧ t.clk = s.clk ∧
          (∀ k, (t.core k).spad = (s.core k).spad ∧ (t.core k).flags = (s.core k).flags ∧ (t.core k).counters = (s.core k).counters) ∧
          (∀ k i, k ≠ c ∨ i ≠ n → (t.core k).stream i = (s.core k).stream i) ∧
          (t.core c).stream n = { st with lead := st.lead + 1, elems := st.elems ++
            [{ pos := st.lead, need := m.len, hall := m.hall, sp := m.sp, len := m.len, remote := haModule m.hall != s.module }] } ∧
          (haModule m.hall = s.module → haSpace m.hall = 0 ∨ haSpace m.hall = 4 → t.fab = s.fab) ∧
          (haModule m.hall ≠ s.module → t.stks = s.stks ∧ ∀ q, q = pathQueueOf s c (haModule m.hall) →
            Claims.ItemSent (haModule m.hall) q (tget 0 s.fab.seqOut q) 2 (haSpace m.hall)
              [(haOff m.hall, readPayload s c m.sp m.len (responseQueueOf s c (haModule m.hall)))] t.fab)) ∧
      (∀ x, m.fault = some x →
        ∃ t : State, exec (.leadStart c e) s = .next t ∧ (t.core c).stream n = { st with faulted := true } ∧ t.seq.state = .halted ∧
          t.mgmt.halt.valid = true ∧ t.mgmt.halt.reason = hcBound ∧ t.mgmt.halt.core = BitVec.ofNat 5 c.val ∧
          t.mgmt.halt.cmdIndex = BitVec.ofNat 13 b.cmd ∧ t.mgmt.halt.detail1 = x)) ∧
    (∀ (b : RoundBase) (el : Elem) (m : Move), listDue d st = false → fetches d = false → waitingOut (s.core c) n d st = some el →
      roundOf st d el.pos = some b → m = (if sdStrided d then moveOf s d st b el.pos else ⟨el.hall, el.sp, el.len, none⟩) →
      m.fault = none → haSpace m.hall = 0 ∨ haSpace m.hall = 4 →
        ∃ t : State, exec (.leadStart c e) s = .next t ∧
          t = { s with cores := s.cores.set c (t.core c), stks := t.stks } ∧
          t.core c = { s.core c with streams := tset {} (s.core c).streams n.toNat { st with lead := st.lead + 1, elems := st.elems.map fun x =>
            if x.pos = el.pos then { x with started := true, need := m.len, hall := m.hall } else x } })

/-- Fill `f` takes its turn at `bank` of core `c` in this cycle: no scheduled access uses the bank, the fill is next there, and neither its port
nor the bank has made a fill access in this cycle (R200, R201). -/
def Sys2Proof.Claims.FillTurn (s : State) (c : Fin 32) (bank : BitVec 5) (f : FillAcc) : Prop :=
  ¬ (s.running = true ∧ (s.core c).busyBanks.getLsbD bank.toNat = true) ∧ nextFill (s.core c).fills bank.toNat = some f ∧
  f.port ∉ ((s.core c).filled (s.time.hallTime, s.seq.cycle)).1 ∧ bank.toNat ∉ ((s.core c).filled (s.time.hallTime, s.seq.cycle)).2

/-- Core `c` with the access of fill `f` at `bank` noted for this cycle. -/
def Sys2Proof.Claims.noted (s : State) (c : Fin 32) (bank : BitVec 5) (f : FillAcc) : Core :=
  { s.core c with
    fillAt := some (s.time.hallTime, s.seq.cycle)
    fillPorts := ((s.core c).filled (s.time.hallTime, s.seq.cycle)).1 ++ [f.port]
    fillBanks := ((s.core c).filled (s.time.hallTime, s.seq.cycle)).2 ++ [bank.toNat] }

/-- FILL_ACCESS (R93, R197, R200, R201): while a running die uses the bank in this cycle the fills wait, and a port or a bank that has made a
fill access makes no second one; else the one that is next takes place: a write changes its bytes of the scratchpad and a read changes none
(it returns the old content of a line that the vector engine wrote in the cycle before), and both leave the queue and bring what their tag
says. That a bank stays idle while the fill that is next there waits for its port is the model's choice (log entry 46). -/
def Obligations.FillsAreWrittenInFreeBanks : Prop :=
  ∀ (s : State) (c : Fin 32) (bank : BitVec 5),
    (s.running = true → (s.core c).busyBanks.getLsbD bank.toNat = true → exec (.fillAccess c bank) s = .next s) ∧
    (nextFill (s.core c).fills bank.toNat = none → exec (.fillAccess c bank) s = .next s) ∧
    (∀ f, nextFill (s.core c).fills bank.toNat = some f → f.port ∈ ((s.core c).filled (s.time.hallTime, s.seq.cycle)).1 ∨
      bank.toNat ∈ ((s.core c).filled (s.time.hallTime, s.seq.cycle)).2 → exec (.fillAccess c bank) s = .next s) ∧
    (∀ f, Claims.FillTurn s c bank f →
      (∀ l, f.op = .write l → f.tag = .none → exec (.fillAccess c bank) s = .next { s with
        cores := s.cores.set c (Core.fillWrite { Claims.noted s c bank f with fills := (s.core c).fills.erase f } f.addr l) }) ∧
      (∀ l, f.op = .write l → ∃ t : State, exec (.fillAccess c bank) s = .next t ∧ t = { s with cores := t.cores, fab := t.fab, host := t.host } ∧
        (t.core c).fills = (s.core c).fills.erase f ∧ (t.core c).spad = mwrites (s.core c).spad f.addr l ∧
        (∀ k, k ≠ c → (t.core k).spad = (s.core k).spad ∧ (t.core k).fills = (s.core k).fills) ∧
        (∀ n p a, f.tag = .loadPiece c n p a → (t.core c).streams = tset {} (s.core c).streams n.toNat { (s.core c).stream n with
          elems := ((s.core c).stream n).elems.map fun x => if x.pos = p then { x with need := x.need - l.length } else x }) ∧
        (∀ k n p, f.tag = .storePiece k n p → (t.core k).streams = tset {} (s.core k).streams n.toNat { (s.core k).stream n with
          elems := ((s.core k).stream n).elems.map fun x => if x.pos = p then { x with need := x.need - l.length } else x }) ∧
        (∀ k, f.tag = .message k → (t.core k).pathNeed = (s.core k).pathNeed.map fun m => m - l.length)) ∧
      (∀ n i o b, f.op = .read n → f.tag = .job i o → b = s.fillBytes (s.core c) f.addr n → exec (.fillAccess c bank) s = .next { s with
        cores := s.cores.set c { Claims.noted s c bank f with fills := (s.core c).fills.erase f }
        jobs := s.jobs.map fun j => if j.id = i then { j with need := j.need - b.length, buf := mwrites j.buf o b } else j }) ∧
      (∀ n, (s.staleLines (s.core c)).find? (fun x => x.1 == f.addr / 256) = none →
        s.fillBytes (s.core c) f.addr n = mreads (s.core c).spad f.addr n))

/-- LOAD_ELEMENT_COMPLETE and STORE_ELEMENT_COMPLETE (R212, R341): the first element whose bytes are all in place leaves its stream (a
mask-in block becomes takeable), a stored one also frees its position and leaves the ordered path, and ACK_COUNTER gains 1 (R78). What a
stored element covers of a harbor's sequence words shows in HARB_READY alone. -/
def Obligations.ElementsCompleteInOrder : Prop :=
  ∀ (s : State) (c : Fin 32) (n : BitVec 11) (d : BitVec 512) (st : Stream) (pre post : List Elem) (e : Elem),
    d = tget 0 (s.core c).descs n.toNat → st = (s.core c).stream n → st.elems = pre ++ e :: post → e.need = 0 →
    (sdKind d = 1 → e.done = false → (∀ x ∈ pre, x.need ≠ 0 ∨ x.done = true) →
      exec (.loadElementComplete c n) s = .next { s with cores := s.cores.set c (Claims.acked s (sdAck d) 1 { s.core c with
        streams := tset {} (s.core c).streams n.toNat { st with elems := pre ++ post } }) }) ∧
    (sdKind d = 4 → e.done = false → (∀ x ∈ pre, x.need ≠ 0 ∨ x.done = true) → e ∉ post →
      exec (.loadElementComplete c n) s = .next { s with cores := s.cores.set c (Claims.acked s (sdAck d) 1 { s.core c with
        streams := tset {} (s.core c).streams n.toNat { st with elems := pre ++ { e with done := true } :: post } }) }) ∧
    (sdKind d ≠ 1 → sdKind d ≠ 4 → exec (.loadElementComplete c n) s = .next s) ∧
    (sdKind d = 2 ∨ sdKind d = 5 → e.started = true → (∀ x ∈ pre, x.started = false ∨ x.need ≠ 0) →
      ∃ t : State, exec (.storeElementComplete c n) s = .next t ∧ t = { s with cores := s.cores.set c (t.core c), host := t.host } ∧
        t.core c = Claims.acked s (sdAck d) 1 { s.core c with
          streams := tset {} (s.core c).streams n.toNat { st with elems := pre ++ post, freed := st.freed + 1 }
          path := if (s.core c).path.head? = some (.store n e.pos) then (s.core c).path.drop 1 else (s.core c).path } ∧
        t.host = { s.host with harbReady := t.host.harbReady, harbNow := t.host.harbNow, irqNow := t.host.irqNow, irqCause := t.host.irqCause, msixPba := t.host.msixPba, msixSent := t.host.msixSent } ∧
        s.host.harbReady &&& ~~~t.host.harbReady = 0) ∧
    (sdKind d ≠ 2 → sdKind d ≠ 5 → exec (.storeElementComplete c n) s = .next s)

/-- The place of a bell word where an operation waits at its home: as a fill access of port 14, or as a request of the word's stack
controller, behind those that wait there (R229). -/
def Sys2Proof.Claims.atHome (r : BellReq) (s t : State) : Prop :=
  (∀ h a, placeOf s (haSpace r.addr) (haOff r.addr) = .spad h a →
    t = { s with cores := s.cores.set h { s.core h with
      fills := (s.core h).fills ++ [{ port := 14, addr := a, op := .bell r none, tag := .none }] } }) ∧
  (∀ a, placeOf s (haSpace r.addr) (haOff r.addr) = .dram a → ∀ i : Fin 16, i = stackOfAddr a →
    t = { s with stks := s.stks.set i { s.stack i with meshq := (s.stack i).meshq ++
      [{ addr := a, len := 8, write := none, bell := some r, requester := 3, tag := .none, src := (stackCore i).val }] } })

/-- ADD, SET, MAX and READ (R229, R230, R234 to R236, R239, R243, R256): the next operation of one of its source core's paths reaches the home of
its word, and the later ones of that path wait. There its first access to a scratchpad word reads the word and, for ADD, SET and MAX, a
second one writes the sum, the operand or the larger of both; then the operation is applied: the home logs it, every armed buoy that watches
the word and holds a valid copy shows the new value, the path goes on, and the source's ACK_COUNTER gains 1; a READ changes no memory and
sends the word's value back. An operation waits while its home has applied one in this cycle, and one that writes reads its word again while a
read still returns what it held before the vector engine's write (R93). -/
def Obligations.BellOperationsAtTheirHome : Prop :=
  (∀ (s : State) (src : Fin 32) (op : BitVec 2) (x : Bool) (i : Instr),
    (i = .bellAdd ⟨src, x⟩ ∧ op = 0 ∨ i = .bellSet ⟨src, x⟩ ∧ op = 1 ∨ i = .bellMax ⟨src, x⟩ ∧ op = 2 ∨ i = .bellRead src ∧ op = 3 ∧ x = false) →
    ((s.core src).nextBell op x = none → exec i s = .next s) ∧
    (∀ r : BellReq, (s.core src).nextBell op x = some r → ∃ t : State, exec i s = .next t ∧
      Claims.atHome r { s with cores := s.cores.set src (if x then { s.core src with expBusy := true } else { s.core src with pathNeed := some 8 }) } t)) ∧
  (∀ (s : State) (h : Fin 32) (bank : BitVec 5) (f : FillAcc) (r : BellReq),
    Claims.FillTurn s h bank f →
    (r.op ≠ 3 → f.op = .bell r none →
      exec (.fillAccess h bank) s = .next { s with cores := s.cores.set h (
        if (s.staleLines (s.core h)).any (fun x => x.1 == f.addr / 256) then Claims.noted s h bank f
        else { Claims.noted s h bank f with fills := (s.core h).fills.map fun g =>
          if g = f then { f with op := .bell r (some (BitVec.ofNat 64 (ofBytes (mreads (s.core h).spad f.addr 8)))) } else g }) }) ∧
    (∀ old new : U64, r.op ≠ 3 → f.op = .bell r (some old) → s.bellTaken r = false → (∀ k b, r.origin ≠ .buoy k b) →
      new = (if r.op = 0 then old + r.operand else if r.op = 1 then r.operand
        else if r.operand.toNat ≤ old.toNat then old else r.operand) →
      ∃ t : State, exec (.fillAccess h bank) s = .next t ∧ t = { s with cores := t.cores, fab := t.fab } ∧
        (t.core h).spad = mwrites (s.core h).spad f.addr (toBytes 8 new.toNat) ∧ (∀ k, k ≠ h → (t.core k).spad = (s.core k).spad) ∧
        (∀ k, (t.core k).flags = (s.core k).flags ∧ (t.core k).preds = (s.core k).preds ∧ (t.core k).streams = (s.core k).streams) ∧
        (t.core (homeCore s r.addr)).bellAt = some (s.time.hallTime, s.seq.cycle) ∧
        (t.core (homeCore s r.addr)).bellTotal = (s.core (homeCore s r.addr)).bellTotal + 1 ∧
        (t.core (homeCore s r.addr)).bellLog = ringPush 64 (s.core (homeCore s r.addr)).bellLog
          ⟨r.addr, new, s.time.hallTime, r.srcModule, r.srcCore, r.op, r.express, r.cmd⟩ ∧
        (∀ k (n : BitVec 6), ((s.core k).buoy n).armed = true → ((s.core k).buoy n).valid = true → ((s.core k).buoy n).reg = .idle →
          bellPlace s ((s.core k).buoy n).addr = bellPlace s r.addr →
          (t.core k).buoy n = { (s.core k).buoy n with
            copy := new, lastTime := s.time.hallTime, lastModule := r.srcModule, lastCore := r.srcCore, lastCmd := r.cmd }) ∧
        (∀ k, k = coreOf r.srcCore.toNat → r.srcModule = s.module →
          (t.core k).counters = (Claims.acked s r.ack 1 (s.core k)).counters ∧ (t.core k).lateAdds = (Claims.acked s r.ack 1 (s.core k)).lateAdds) ∧
        (∀ k, k ≠ coreOf r.srcCore.toNat ∨ r.srcModule ≠ s.module →
          (t.core k).counters = (s.core k).counters ∧ (t.core k).lateAdds = (s.core k).lateAdds) ∧
        (∀ k, k = coreOf r.srcCore.toNat → r.origin = .ordered → t.fab = s.fab ∧ (t.core k).path = (s.core k).path.drop 1 ∧ (t.core k).pathNeed = none) ∧
        (∀ k, k = coreOf r.srcCore.toNat → r.origin = .express → t.fab = s.fab ∧ (t.core k).expPath = (s.core k).expPath.drop 1 ∧ (t.core k).expBusy = false)) ∧
    (∀ (k : Fin 32) (old : U64), r.op = 3 → f.op = .bell r none → s.bellTaken r = false → r.origin = .ordered → r.srcModule = s.module →
      k = coreOf r.srcCore.toNat → old = BitVec.ofNat 64 (ofBytes (s.fillBytes (s.core h) f.addr 8)) →
      ∃ t : State, exec (.fillAccess h bank) s = .next t ∧ t = { s with cores := t.cores } ∧
        (∀ q, (t.core q).spad = (s.core q).spad ∧ (t.core q).bellLog = (s.core q).bellLog ∧ (t.core q).counters = (s.core q).counters) ∧
        (t.core k).path = (s.core k).path.drop 1 ∧ (t.core k).pathNeed = none ∧
        (t.core k).readValues = (s.core k).readValues ++ [⟨(s.core k).readNo, r.rdest, old, r.ack, none⟩] ∧
        (t.core k).readNo = (s.core k).readNo + 1) ∧
    (s.bellTaken r = true → (∃ old, f.op = .bell r (some old)) ∨ (r.op = 3 ∧ f.op = .bell r none) →
      exec (.fillAccess h bank) s = .next { s with cores := s.cores.set h (Claims.noted s h bank f) }))

/-- BUOY_REGISTRATION, BUOY_VALUE_ARRIVAL and READ_VALUE_LANDING (R234, R239): the registration of a buoy goes to the home of its word, which
takes it in a cycle in which it applies no operation and sends the word's value; on its arrival the copy is valid and holds that value or the
last operation behind it. A READ's value is written at RDEST by a fill access of port 14; once it is written, its ACK_COUNTER gains 1. -/
def Obligations.BuoyAndReadValuesArrive : Prop :=
  ∀ (s : State) (c : Fin 32),
    (∀ (n : BitVec 6) (b : Buoy), b = (s.core c).buoy n → b.armed = true → b.reg = .registering →
      ∃ t : State, exec (.buoyRegistration c n) s = .next t ∧
        Claims.atHome { op := 3, addr := b.addr, operand := 0, express := false, srcModule := s.module, srcCore := BitVec.ofNat 5 c.val, cmd := 0
                        origin := .buoy c n }
          { s with cores := s.cores.set c { s.core c with buoys := tset {} (s.core c).buoys n.toNat { b with reg := .reading } } } t) ∧
    (∀ n : BitVec 6, ((s.core c).buoy n).reg ≠ .registering → exec (.buoyRegistration c n) s = .next s) ∧
    (∀ (n : BitVec 6) (b : Buoy) (h : Fin 32) (bank : BitVec 5) (f : FillAcc) (r : BellReq),
      Claims.FillTurn s h bank f →
      f.op = .bell r none → r.op = 3 → r.origin = .buoy c n →
      (s.core (homeCore s r.addr)).bellAt ≠ some (s.time.hallTime, s.seq.cycle) → b = (s.core c).buoy n → b.reg = .reading →
      b.addr = r.addr →
      ∃ t : State, exec (.fillAccess h bank) s = .next t ∧ t = { s with cores := t.cores } ∧
        (t.core c).buoy n = { b with reg := .returning (BitVec.ofNat 64 (ofBytes (s.fillBytes (s.core h) f.addr 8))) [] } ∧
        (∀ x : BellReq, x.addr = r.addr → x.registers = false → t.bellTaken x = true) ∧
        ∀ k, (t.core k).spad = (s.core k).spad ∧ (t.core k).bellLog = (s.core k).bellLog) ∧
    (∀ (n : BitVec 6) (v : U64) (later : List U64), ((s.core c).buoy n).reg = .returning v later →
      exec (.buoyValueArrival c n) s = .next { s with cores := s.cores.set c { s.core c with
        buoys := tset {} (s.core c).buoys n.toNat { (s.core c).buoy n with copy := later.getLastD v, valid := true, reg := .idle } } }) ∧
    (∀ (v : ReadValue) (l : List ReadValue), (s.core c).readValues = v :: l → (∀ x ∈ v :: l, x.need ≠ some 0) → v ∉ l → v.need = none →
      v.rdest % 8 = 0 →
      exec (.readValueLanding c) s = .next { s with cores := s.cores.set c { s.core c with
        readValues := { v with need := some 8 } :: l
        fills := (s.core c).fills ++ [{ port := 14, addr := v.rdest, op := .write (toBytes 8 v.value.toNat), tag := .readValue c v.id }] } }) ∧
    (∀ (pre post : List ReadValue) (v : ReadValue), (s.core c).readValues = pre ++ v :: post → (∀ x ∈ pre, x.need ≠ some 0) →
      v.need = some 0 →
      exec (.readValueLanding c) s = .next { s with cores := s.cores.set c (Claims.acked s v.ack 1 { s.core c with readValues := pre ++ post }) }) ∧
    ((∀ x ∈ (s.core c).readValues, x.need ≠ none ∧ x.need ≠ some 0) → exec (.readValueLanding c) s = .next s)

/-- CHANNEL_MESSAGE_LANDED and CREDIT_RETURN_ARRIVAL (R246, R249, R250, R251, R254, R255): a message for an open receive endpoint of its
generation reaches its ring, where its bytes and those of a skip marker wait for their banks on port 14; once they are written, it is landed
and counts. One for a closed endpoint or of an old generation, as the endpoint is when the message reaches the ring or when it lands (R252,
R253), is dropped, counted by its reason, and its units start back; that one which is both counts as a closed peer's is log entry 22. Units that reach
the sender's generation are credits again, those of a group as far as the least total of its receivers rises; those of a drop are counted there
too, or halt the die with STRICT. -/
def Obligations.MessagesLandAndCreditsReturn : Prop :=
  (∀ (s : State) (c src : Fin 32) (n : BitVec 7) (m : ChMsg) (x : Endpoint), x = (s.core c).ep n →
    headMessage (s.core src) c n = some m → (∀ k, k ≠ src → headMessage (s.core k) c n = none) →
    ((s.core src).pathNeed = none → x.open_ = true → epIsRecv x.desc = true → epGen x.desc = m.routeGen →
      (m.skipAt = none → exec (.channelMessageLanded c n) s = .next (fillAsk c 14 (epRing x.desc + 256 * m.at_) m.bytes (.message src)
        { s with cores := s.cores.set src { s.core src with pathNeed := some m.bytes.length } })) ∧
      (∀ k h, m.skipAt = some k → h = ringHeader 2 m.routeGen (256 * (m.ring - k)) m.seq m.module m.srcCore m.srcEp →
        exec (.channelMessageLanded c n) s = .next (fillAsk c 14 (epRing x.desc + 256 * m.at_) m.bytes (.message src)
          (fillAsk c 14 (epRing x.desc + 256 * k) h (.message src)
            { s with cores := s.cores.set src { s.core src with pathNeed := some (h.length + m.bytes.length) } })))) ∧
    (∀ k, (s.core src).pathNeed = some (k + 1) → exec (.channelMessageLanded c n) s = .next s) ∧
    ((s.core src).pathNeed = some 0 → x.open_ = true → epIsRecv x.desc = true → epGen x.desc = m.routeGen →
      ∃ t : State, exec (.channelMessageLanded c n) s = .next t ∧ t = { s with cores := t.cores } ∧
        (t.core src).path = (s.core src).path.drop 1 ∧ (t.core src).pathNeed = none ∧ (∀ k, (t.core k).spad = (s.core k).spad) ∧
        (t.core c).ep n = { x with landed := x.landed ++ [⟨m.seq, m.at_, m.need, (m.at_ + m.units) % (max 1 (epUnits x.desc))⟩]
                                   landedCount := x.landedCount + 1 } ∧
        (∀ k : Core, k = Claims.acked s (if epArrEn x.desc then some (epArrCounter x.desc) else none) 1 (s.core c) →
          (t.core c).counters = k.counters ∧ (t.core c).lateAdds = k.lateAdds)) ∧
    ((s.core src).pathNeed = none ∨ (s.core src).pathNeed = some 0 → x.open_ = false ∨ epIsRecv x.desc = false ∨ epGen x.desc ≠ m.routeGen → m.module = s.module →
      ∃ t : State, exec (.channelMessageLanded c n) s = .next t ∧ t = { s with cores := t.cores } ∧
        (t.core src).path = (s.core src).path.drop 1 ∧ (t.core c).spad = (s.core c).spad ∧ ((t.core c).ep n).landed = x.landed ∧
        (x.open_ = false ∨ epIsRecv x.desc = false → ((t.core c).ep n).dropClosed = satInc x.dropClosed ∧ ((t.core c).ep n).dropGen = x.dropGen) ∧
        (x.open_ = true → epIsRecv x.desc = true →
          ((t.core c).ep n).dropGen = satInc x.dropGen ∧ ((t.core c).ep n).dropClosed = x.dropClosed) ∧
        ((t.core (coreOf m.srcCore.toNat)).ep m.srcEp).creditsIn = ((s.core (coreOf m.srcCore.toNat)).ep m.srcEp).creditsIn ++
          [⟨128 * c.val + n.toNat, m.need, m.routeGen, if x.open_ && epIsRecv x.desc then 1 else 2, m.seq, s.module⟩])) ∧
  (∀ (s : State) (c : Fin 32) (n : BitVec 7) (x : Endpoint) (r : CreditRet) (l : List CreditRet), x = (s.core c).ep n →
    x.creditsIn = r :: l →
    (r.routeGen ≠ epGen x.desc → exec (.creditReturnArrival c n) s = .next { s with cores := s.cores.set c { s.core c with
      eps := tset {} (s.core c).eps n.toNat { x with creditsIn := l } } }) ∧
    (r.routeGen = epGen x.desc → epRole x.desc ≠ 3 → r.reason = 0 ∨ epStrict x.desc = false →
      ∃ t : State, exec (.creditReturnArrival c n) s = .next t ∧ t = { s with cores := s.cores.set c (t.core c), mgmt := t.mgmt } ∧
        (t.core c) = { s.core c with eps := (t.core c).eps } ∧ (∀ k, k ≠ n → (t.core c).ep k = (s.core c).ep k) ∧
        ((t.core c).ep n).credits = x.credits + r.units ∧ ((t.core c).ep n).creditsIn = l ∧ ((t.core c).ep n).wp = x.wp ∧
        ((t.core c).ep n).dropGen = (if r.reason = 1 then satInc x.dropGen else x.dropGen) ∧
        ((t.core c).ep n).dropClosed = (if r.reason = 0 ∨ r.reason = 1 then x.dropClosed else satInc x.dropClosed)) ∧
    (r.routeGen = epGen x.desc → epRole x.desc = 3 → r.reason = 0 →
      ∀ y : Endpoint, y = { x with creditsIn := l, memberCum := tset 0 x.memberCum r.member (tget 0 x.memberCum r.member + r.units) } →
      exec (.creditReturnArrival c n) s = .next { s with cores := s.cores.set c { s.core c with
        eps := tset {} (s.core c).eps n.toNat (refreshMcast s y) } }) ∧
    (r.routeGen = epGen x.desc → r.reason ≠ 0 → epStrict x.desc = true → s.seq.state ≠ .halted → s.seq.state ≠ .empty →
      ∃ t : State, exec (.creditReturnArrival c n) s = .next t ∧ t.seq.state = .halted ∧ t.mgmt.halt.valid = true ∧
        t.mgmt.halt.reason = hcDropStrict ∧ t.mgmt.halt.core = BitVec.ofNat 5 c.val))

/-! ## Stack memory -/

/-- State `s` with stack `i`'s controller changed. -/
def Sys2Proof.Claims.withStack (s : State) (i : Fin 16) (c : StackCtl) : State := { s with stks := s.stks.set i c }

/-- STACK_REQUEST_ARRIVAL and STACK_REQUEST_SERVICE (R229, R267 to R270, R275 to R277): the next request of a source on the mesh enters its
pseudo-channel's queue of 64, or waits at a full one; the head of a queue is served outside self-refresh, once its service time is over, and
the service of the one behind it begins: its row becomes the open one of its bank, a whole-block write replaces the block, and a read leaves
memory; a corrected block is counted, and an uncorrectable one delivers nothing. A bell operation reads its word and writes it in one service.
The last of the requests that come before self-refresh lets the stack enter it, with every page closed (R282). -/
def Obligations.StackQueuesServeInOrder : Prop :=
  ∀ (s : State) (i : Fin 16),
    (∀ (n : Fin 64) (pre post : List StackReq) (r : StackReq), (s.stack i).meshq = pre ++ r :: post → (∀ x ∈ pre, x.src ≠ n.val) → r.src = n.val →
      (((s.stack i).pc (pcOf (stackAddrOf r.addr))).q.length < 64 →
        exec (.stackRequestArrival ⟨i, n⟩) s = .next (Claims.withStack s i { s.stack i with
          meshq := pre ++ post
          pcs := (s.stack i).pcs.set (pcOf (stackAddrOf r.addr)) { (s.stack i).pc (pcOf (stackAddrOf r.addr)) with
            q := ((s.stack i).pc (pcOf (stackAddrOf r.addr))).q ++ [{ r with arrived := s.time.hallTime }] } })) ∧
      (64 ≤ ((s.stack i).pc (pcOf (stackAddrOf r.addr))).q.length → exec (.stackRequestArrival ⟨i, n⟩) s = .next s)) ∧
    (∀ n : Fin 64, (∀ x ∈ (s.stack i).meshq, x.src ≠ n.val) → exec (.stackRequestArrival ⟨i, n⟩) s = .next s) ∧
    (∀ (p : Fin 32) (flip stored : ErrPat), (s.stack i).selfRefresh = true ∨ ((s.stack i).pc p).doing = none ∨
        (∃ x, ((s.stack i).pc p).doing = some x ∧ 100 * s.now < x) →
      exec (.stackRequestService i p ⟨flip, stored⟩) s = .next s) ∧
    (∀ (p : Fin 32) (flip stored : ErrPat) (r : StackReq) (l : List StackReq) (x : Nat), (s.stack i).selfRefresh = false →
      (s.stack i).toRefresh = true → (∀ k, ((s.stack i).pc k).drain = if k = p then 1 else 0) →
      ((s.stack i).pc p).q = r :: l → ((s.stack i).pc p).doing = some x → x ≤ 100 * s.now → (∀ b, r.bell = some b → s.bellTaken b = false) →
      ∃ t : State, exec (.stackRequestService i p ⟨flip, stored⟩) s = .next t ∧ (t.stack i).selfRefresh = true ∧ (t.stack i).toRefresh = false ∧
        (t.stack i).tideUntil = none ∧ ((t.stack i).pc p).q = l ∧
        ∀ k, ((t.stack i).pc k).openRows = [] ∧ ((t.stack i).pc k).lastRow = none ∧ ((t.stack i).pc k).doing = none) ∧
    (∀ (p : Fin 32) (flip stored : ErrPat) (r : StackReq) (l : List StackReq) (x : Nat), (s.stack i).selfRefresh = false →
      (s.stack i).toRefresh = false → (s.stack i).tideUntil = none → ((s.stack i).pc p).q = r :: l →
      ((s.stack i).pc p).doing = some x → x ≤ 100 * s.now → (∀ b, r.bell = some b → s.bellTaken b = false) →
      ∃ t : State, exec (.stackRequestService i p ⟨flip, stored⟩) s = .next t ∧ t.time = s.time ∧ t.clk.freq = s.clk.freq ∧ t.pending = s.pending ∧
        ((t.stack i).pc p).q = l ∧ (((t.stack i).pc p).doing = none ↔ l = []) ∧ ((t.stack i).pc p).lastWrite = some r.writes ∧
        ((t.stack i).pc p).freeAt = x ∧
        ((t.stack i).pc p).lastRow = some ((bankOf (stackAddrOf r.addr)).toNat, (rowOfAddr (stackAddrOf r.addr)).toNat) ∧
        ((t.stack i).pc p).openRows = (((s.stack i).pc p).openRows.filter fun e => e.1 != (bankOf (stackAddrOf r.addr)).toNat) ++
          [((bankOf (stackAddrOf r.addr)).toNat, (rowOfAddr (stackAddrOf r.addr)).toNat)] ∧
        (∀ bs, stored = [] → r.bell = none → r.write = some bs → bs.length = 64 →
          t.dram = mwrites s.dram r.addr bs ∧ t.errs = tset [] s.errs (r.addr / 64) []) ∧
        (r.bell = none → r.write = none → t.dram = s.dram ∧
          t.errs = if stored = [] then s.errs else tset [] s.errs (r.addr / 64) (errAdd (errOf s r.addr) stored)) ∧
        (stored = [] → r.bell = none → r.write = none → fathomDecode (errAdd (errOf s r.addr) flip) = .uncorrectable → t.cores = s.cores) ∧
        (∀ e, stored = [] → r.bell = none → r.write = none → fathomDecode (errAdd (errOf s r.addr) flip) = .corrected e →
          (t.stack (stackOfAddr r.addr)).ceCount = satInc (s.stack (stackOfAddr r.addr)).ceCount) ∧
        (∀ e c d q o, stored = [] → r.bell = none → r.write = none → fathomDecode (errAdd (errOf s r.addr) flip) = .clean e →
          r.tag = .bufPiece c d q o →
          t.seq = s.seq ∧ t.cores = s.cores.set c { s.core c with streams := tset {} (s.core c).streams d.toNat { (s.core c).stream d with
            elems := ((s.core c).stream d).elems.map fun x => if x.pos = q then { x with
              need := x.need - (applyErr e (r.addr % 64) (dramBytes s r.addr r.len)).length
              buf := mwrites x.buf o (applyErr e (r.addr % 64) (dramBytes s r.addr r.len)) } else x } }) ∧
        (∀ (b : BellReq) (old new : U64), stored = [] → flip = [] → errOf s r.addr = [] → s.pwr.snapshot = none → r.bell = some b →
          (∀ k n, b.origin ≠ .buoy k n) → r.addr % 64 ≤ 56 → Memory.wf s.dram = true →
          old = BitVec.ofNat 64 (mreadLE s.dram r.addr 8) →
          new = (if b.op = 0 then old + b.operand else if b.op = 1 then b.operand
            else if b.op = 2 then (if b.operand.toNat ≤ old.toNat then old else b.operand) else old) →
          mreadLE t.dram r.addr 8 = new.toNat ∧ (∀ a, a < r.addr ∨ r.addr + 8 ≤ a → mread t.dram a = mread s.dram a) ∧
          (b.op ≠ 3 → (t.core (homeCore s b.addr)).bellTotal = (s.core (homeCore s b.addr)).bellTotal + 1) ∧
          (b.op = 3 → b.srcModule = s.module → (t.core (coreOf b.srcCore.toNat)).readValues =
            (s.core (coreOf b.srcCore.toNat)).readValues ++ [⟨(s.core (coreOf b.srcCore.toNat)).readNo, b.rdest, old, b.ack, none⟩])))

/-- A stack's controller as a tide starts: every page closes for 220 ns (R271). -/
def Sys2Proof.Claims.inTide (s : State) (c : StackCtl) : StackCtl :=
  { c with tideUntil := some (s.time.hallTime + 220), pcs := c.pcs.map fun u => { u with openRows := [], lastRow := none } }

/-- TIDE_START, DOUBLING_TIDE_START, TIDE_END and STACK_TEMP_READING (R271 to R273): tides start at t mod 3,904 = 244 s, with doubling also
1,952 ns later, and close every page for 220 ns; at a multiple of 1,000 ns a reading at or above DOUBLE_C asks for doubling, one below
SINGLE_C for its end, at the next normal tide, and HOT_C also triggers a step down of f; at another time no register changes. -/
def Obligations.TidesAndTemperatures : Prop :=
  ∀ (s : State) (i : Fin 16),
    (s.stackRuns i = true → s.now % 3904 = 244 * i.val →
      exec (.tideStart i) s = .next (Claims.withStack s i (Claims.inTide s { s.stack i with
        doubling := ((s.stack i).doubling || (s.stack i).doubleNext) && !(s.stack i).singleNext, doubleNext := false, singleNext := false }))) ∧
    (s.stackRuns i = false ∨ s.now % 3904 ≠ 244 * i.val → exec (.tideStart i) s = .next s) ∧
    (s.stackRuns i = true → (s.stack i).doubling = true → s.now % 3904 = (244 * i.val + 1952) % 3904 →
      exec (.doublingTideStart i) s = .next (Claims.withStack s i (Claims.inTide s
        { s.stack i with tideDouble := (s.stack i).tideDouble + 1 }))) ∧
    ((s.stack i).doubling = false → exec (.doublingTideStart i) s = .next s) ∧
    (∀ u, (s.stack i).tideUntil = some u →
      (u.toNat ≤ s.now → exec (.tideEnd i) s = .next (Claims.withStack s i { s.stack i with tideUntil := none })) ∧
      (s.now < u.toNat → exec (.tideEnd i) s = .next s)) ∧
    (∀ temps : U32, s.pwr.mainOn = false ∨ s.now % 1000 ≠ 0 →
      exec (.stackTempReading i temps) s = .next (Claims.withStack s i { s.stack i with sensors := temps })) ∧
    (∀ (temps : U32) (m : Nat), m = max (max (bits temps 7 0) (bits temps 15 8)) (max (bits temps 23 16) (bits temps 31 24)) →
      s.pwr.mainOn = true → s.now % 1000 = 0 →
      ∃ t : State, exec (.stackTempReading i temps) s = .next t ∧
        t = { Claims.withStack s i { s.stack i with
          sensors := temps, temp := BitVec.ofNat 8 m, hot := decide (bits s.stackThermal 23 16 ≤ m)
          doubleNext := if bits s.stackThermal 15 8 ≤ m then !(s.stack i).doubling
            else if m < bits s.stackThermal 7 0 then false else (s.stack i).doubleNext
          singleNext := if bits s.stackThermal 15 8 ≤ m then false
            else if m < bits s.stackThermal 7 0 then (s.stack i).doubling else (s.stack i).singleNext } with clk := t.clk } ∧
        (m < bits s.stackThermal 23 16 → t.clk = s.clk) ∧
        (bits s.stackThermal 23 16 ≤ m → t.clk.lastTrigger = s.time.hallTime ∧ t.clk.freq = s.clk.freq ∧
          (s.clk.lastHeat = none → s.clk.steps = [] → 1000 < s.clk.freq.toNat →
            t.clk.lastHeat = some s.time.hallTime ∧ t.clk.stepsDown = satInc s.clk.stepsDown ∧
            t.clk.steps = [⟨.down, 2, if s.running then some (s.seq.cycle + 8) else none⟩]) ∧
          (∀ u : U64, s.clk.lastHeat = some u → s.now < u.toNat + 100000 → t.clk.steps = s.clk.steps)))

/-- ROW_SPARING (R279, R280): while no image is loaded the first candidate whose bank has a free spare row is copied and remapped to it;
rows without a stored error keep their bytes. -/
def Obligations.RowsAreSparedWhileEmpty : Prop :=
  ∀ (s : State) (i : Fin 16),
    (s.holdsImage = true → exec (.rowSparing i) s = .next s) ∧
    ((∀ r ∈ (s.stack i).cands, 16 ≤ tget 0 (s.stack i).sparesUsed (bankKey r)) → exec (.rowSparing i) s = .next s) ∧
    (∀ (pre post : List RowRef) (r : RowRef), s.holdsImage = false → (s.stack i).cands = pre ++ r :: post →
      (∀ x ∈ pre, 16 ≤ tget 0 (s.stack i).sparesUsed (bankKey x)) → tget 0 (s.stack i).sparesUsed (bankKey r) < 16 →
      ∃ t : State, exec (.rowSparing i) s = .next t ∧ t.cores = s.cores ∧ t.seq = s.seq ∧ t.time = s.time ∧
        (t.stack i).spared = (s.stack i).spared ++ [r] ∧
        (t.stack i).sparesUsed = tset 0 (s.stack i).sparesUsed (bankKey r) (tget 0 (s.stack i).sparesUsed (bankKey r) + 1) ∧
        (s.errs = [] → s.pwr.snapshot = none → Memory.wf s.dram = true → ∀ a, mread t.dram a = mread s.dram a))

/-! ## The fabric -/

/-- State `s` with port `p` changed. -/
def Sys2Proof.Claims.withPort (s : State) (p : Fin 16) (f : FabPort) : State :=
  { s with fab := { s.fab with ports := s.fab.ports.set p f } }

/-- The lanes of a training that have not trained. -/
def Sys2Proof.Claims.untrained (trained : BitVec 5) : List Nat := [0, 1, 2, 3, 4].filter fun i => !trained.getLsbD i

/-- Port `x` with nothing of a takeover on its lanes. -/
def Sys2Proof.Claims.lanesFresh (x : FabPort) : FabPort :=
  { x with
    rxLaneBad := none, linkCode := 0, rxCode := 0, txDup := none, txStopped := none, laneFixes := Vector.replicate 5 [], cleanRun := 0 }

/-- Port `x` as ALIGN begins: nothing is known of the peer yet. -/
def Sys2Proof.Claims.aligns (s : State) (x : FabPort) : FabPort :=
  { Claims.lanesFresh x with state := .align, alignAt := s.time.hallTime, syncRun := 0, identKnown := false }

/-- `t` is `u`, unless `u` meets a condition of PWR_SERVICE and no replace-request stands: then that goes out. -/
def Sys2Proof.Claims.Served (u t : State) : Prop :=
  (u.svcAny = false ∨ u.pwr.svcRequest = true → t = u) ∧ t = { u with pwr := t.pwr, host := t.host, fab := t.fab }

/-- The link's events (R288 to R292, Table 11.2): each moves the port's state as the table says, one untrained or failing lane brings
the spare in, after 16 codewords without an error on it at a 32 ns boundary, and a second one fails the port; an event in another state
changes nothing. That an expired ALIGN limit gives FAILED and that an UP port which loses lock goes to DOWN is log entry 14. -/
def Obligations.LinkStatesFollowTable11_2 : Prop :=
  ∀ (s : State) (p : Fin 16) (x : FabPort), x = s.port p →
    (∀ lanes : BitVec 5, x.state = .down → (Claims.untrained lanes).length ≤ 1 →
      exec (.peerSignalDetect p lanes) s = .next (Claims.withPort s p { x with state := .train })) ∧
    (∀ lanes : BitVec 5, x.state ≠ .down ∨ 1 < (Claims.untrained lanes).length → exec (.peerSignalDetect p lanes) s = .next s) ∧
    (∀ tr : BitVec 5, x.state = .train →
      ∃ (y : FabPort) (t : State), exec (.trainDone p tr) s = .next t ∧ Claims.Served (Claims.withPort s p y) t ∧ t.port p = y ∧
        (Claims.untrained tr = [] → y = { Claims.aligns s x with failedLane := 7, spareInUse := false }) ∧
        (∀ i : Fin 4, Claims.untrained tr = [i.val] →
          y = { Claims.aligns s x with failedLane := BitVec.ofNat 3 i.val, spareInUse := true, txStopped := some i }) ∧
        (Claims.untrained tr = [4] → y = { Claims.aligns s x with failedLane := 4, spareInUse := false }) ∧
        (1 < (Claims.untrained tr).length → y = { Claims.lanesFresh x with state := .failed })) ∧
    (∀ tr : BitVec 5, x.state ≠ .train → exec (.trainDone p tr) s = .next s) ∧
    (∀ m q, x.state = .align →
      exec (.alignDone p true m q) s = .next (Claims.withPort s p { x with
        state := .sound, identKnown := true, peerModule := m, peerPort := q, rounds := 0, soundSum := 0 }) ∧
      exec (.alignDone p false m q) s = .next (Claims.withPort s p { x with state := .failed })) ∧
    (∀ b m q, x.state ≠ .align → exec (.alignDone p b m q) s = .next s) ∧
    (x.state = .up → exec (.lockLoss p) s = .next (Claims.withPort s p { Claims.lanesFresh x with state := .down })) ∧
    (x.state ≠ .up → exec (.lockLoss p) s = .next s) ∧
    (s.holdsImage = false → x.state = .failed ∨ x.state = .up →
      exec (.retrain p) s = .next (Claims.withPort s p { Claims.lanesFresh x with
        state := .down, spareInUse := false, failedLane := 7, tooLong := false, identKnown := false
        soundD := 0xFFFF, soundU := 0xFFFF })) ∧
    (s.holdsImage = true ∨ (x.state ≠ .failed ∧ x.state ≠ .up) → exec (.retrain p) s = .next s) ∧
    (∀ i : Fin 4, x.state = .up → x.failedLane = 7 → x.rxLaneBad = none →
      exec (.laneFail p ⟨i.val, by omega⟩) s = .next (Claims.withPort s p { x with
        rxLaneBad := some i, linkCode := BitVec.ofNat 3 (1 + i.val), cleanRun := 0, laneFixes := x.laneFixes.set i.val [] })) ∧
    (x.state = .up → x.failedLane = 7 → x.rxLaneBad = none →
      exec (.laneFail p 4) s = .next (Claims.withPort s p { x with failedLane := 4, laneFixes := x.laneFixes.set 4 [] })) ∧
    (∀ i : Fin 5, x.state = .up → x.failedLane ≠ 7 ∨ x.rxLaneBad ≠ none → x.failedLane.toNat ≠ i.val →
      (∀ j, x.rxLaneBad = some j → j.val ≠ i.val) →
      exec (.laneFail p i) s = .next (Claims.withPort s p { x with state := .failed, laneFixes := x.laneFixes.set i.val [] })) ∧
    (∀ i : Fin 5, x.state = .up → x.failedLane.toNat = i.val ∨ (∃ j, x.rxLaneBad = some j ∧ j.val = i.val) →
      exec (.laneFail p i) s = .next (Claims.withPort s p { x with laneFixes := x.laneFixes.set i.val [] })) ∧
    (∀ i : Fin 5, x.state ≠ .up → exec (.laneFail p i) s = .next s) ∧
    (∀ i : Fin 4, x.state ≠ .up → exec (.spareTakeoverRequest p i) s = .next s) ∧
    (x.rxLaneBad = none → exec (.spareLaneSwitch p) s = .next s) ∧
    (x.txDup = none → exec (.spareTakeoverAck p) s = .next s) ∧
    (∀ i : Fin 4, x.state = .up → ∃ b, s.now + 64 ≤ b ∧ b < s.now + 96 ∧ b % 32 = 0 ∧
      exec (.spareTakeoverRequest p i) s = .next (Claims.withPort s p { x with txDup := some (i, b) })) ∧
    (∀ i : Fin 4, x.rxLaneBad = some i →
      (16 ≤ x.cleanRun → s.now % 32 = 0 →
        ∃ (y : FabPort) (t : State), exec (.spareLaneSwitch p) s = .next t ∧ Claims.Served (Claims.withPort s p y) t ∧
          y = { x with rxLaneBad := none, linkCode := 5, spareInUse := true, failedLane := BitVec.ofNat 3 i.val, cleanRun := 0 } ∧
          t.port p = { y with c0q := (t.port p).c0q }) ∧
      (x.cleanRun < 16 ∨ s.now % 32 ≠ 0 → exec (.spareLaneSwitch p) s = .next s)) ∧
    (∀ (i : Fin 4) (b : Nat), x.txDup = some (i, b) →
      exec (.spareTakeoverAck p) s = .next (Claims.withPort s p { x with txDup := none, txStopped := some i }))

/-- What a good class-1 flit of slot `n` adds to a port's flits that await presentation (R303). -/
def Sys2Proof.Claims.presents (x : FabPort) (n : Nat) (w : WireFlit) : List Held :=
  if w.flit.fkind = 1 then [⟨n + bits x.cfg 21 16, w.flit⟩] else []

/-- CODEWORD_RECEIVE, NACK_RECEIVE, FLIT_COPY_EXPIRE, RETRY_WAIT_EXPIRE and C2_RESEND_TIMEOUT (R287, R293, R303, R305, R306, R311):
an uncorrectable codeword loses both flits, a wrong CRC one of them, and its number goes into the next 4 trailers; a good one presents its
class-1 flits A slots later and takes the next class-2 flit; a NACK moves the kept copies of its codeword to the retry buffer while it has
room; copies are kept for 4,096 slots and retries wait at most 8,192; class 2 is resent in order, under the numbers it has, after 2,000 ns. -/
def Obligations.LostFlitsAreResent : Prop :=
  ∀ (s : State) (p : Fin 16) (x : FabPort), x = s.port p →
    (∀ cw : Codeword, x.cells = true → wordDecode cw x.spareFor = none →
      exec (.codewordReceive p cw) s = .next (Claims.withPort s p { x with
        fecUncorr := satInc x.fecUncorr, cleanRun := 0, syncRun := 0, nacks := x.nacks ++ [(cw.index.setWidth 12, 4)] })) ∧
    (∀ cw : Codeword, x.cells = false → exec (.codewordReceive p cw) s = .next s) ∧
    (∀ (cw : Codeword) (syms places : List Nat) (m : Nat) (y : FabPort), x.cells = true → wordDecode cw x.spareFor = some (syms, places) →
      m = ofSyms (syms.take 514) → y = countSync cw.index.toNat syms (runClean cw syms (noteFixes s.time.hallTime places x)) →
      y.fecCorr = satAdd x.fecCorr places.length ∧
      (wireCrcOk (firstFlit m) = false ∨ wireCrcOk (secondFlit m) = false → ∃ t : State, exec (.codewordReceive p cw) s = .next t ∧
        t = Claims.withPort s p (t.port p) ∧ (t.port p).nacks = x.nacks ++ [(cw.index.setWidth 12, 4)]) ∧
      (x.state = .up → wireCrcOk (firstFlit m) = true → wireCrcOk (secondFlit m) = true →
        s.pwr.phase ≠ .dieOff → s.pwr.phase ≠ .standbyRelay → (firstFlit m).flit.fkind ≠ 2 → (secondFlit m).flit.fkind ≠ 2 →
        ∃ t : State, exec (.codewordReceive p cw) s = .next t ∧ t = Claims.withPort s p { y with
          rxCode := (secondFlit m).linkCode, nackIn := (t.port p).nackIn, c2Sent := (t.port p).c2Sent, c2Again := (t.port p).c2Again
          c0in := x.c0in ++ cellMsgs (firstFlit m).cell ++ cellMsgs (secondFlit m).cell
          present := x.present ++ Claims.presents x (2 * cw.index.toNat) (firstFlit m) ++
            Claims.presents x (2 * cw.index.toNat + 1) (secondFlit m) }) ∧
      (x.state = .up → wireCrcOk (firstFlit m) = true → (firstFlit m).flit.fkind = 2 → (secondFlit m).flit.fkind ≠ 2 →
        (firstFlit m).flit.c2Seq = x.c2SeqIn + 1 → x.c2In.length < 64 →
        ∃ t : State, exec (.codewordReceive p cw) s = .next t ∧ (t.port p).c2In = x.c2In ++ [(firstFlit m).flit] ∧
          (t.port p).c2SeqIn = x.c2SeqIn + 1)) ∧
    (∀ idx : BitVec 12, x.gone = [] → (∀ e ∈ x.c2Sent, inCodeword (slotAt e.1.toNat) idx = false) →
      x.retry.length + (x.copies.filter fun h => inCodeword h.slot idx).length ≤ 512 →
      exec (.nackReceive p idx) s = .next (Claims.withPort s p { x with
        copies := x.copies.filter fun h => !inCodeword h.slot idx
        retry := x.retry ++ (x.copies.filter fun h => inCodeword h.slot idx).map fun h => ⟨s.slot, { h.flit with retry := true }⟩ })) ∧
    (exec (.flitCopyExpire p) s = .next (Claims.withPort s p { x with
      copies := x.copies.filter fun h => decide (s.slot < h.slot + 4096)
      gone := (x.gone ++ x.copies.filter fun h => decide (h.slot + 4096 ≤ s.slot)).filter fun h => decide (s.slot < h.slot + 8192) })) ∧
    (∃ t : State, exec (.retryWaitExpire p) s = .next t ∧ t = { s with mgmt := t.mgmt, fab := t.fab } ∧
      t.port p = { x with retry := x.retry.filter fun h => decide (s.slot < h.slot + 8192), c1Lost := (t.port p).c1Lost } ∧
      ((∀ h ∈ x.retry, s.slot < h.slot + 8192) → t = s) ∧
      (∀ h, (x.retry.filter fun h => decide (h.slot + 8192 ≤ s.slot)) = [h] → (t.port p).c1Lost = satInc x.c1Lost)) ∧
    (∀ (a : U64) (f : Flit) (l : List (U64 × Flit)), x.c2Sent = (a, f) :: l →
      (a.toNat + 2000 ≤ s.now → exec (.c2ResendTimeout p) s = .next (Claims.withPort s p { x with
        c2Again := f :: l.map (·.2) ++ x.c2Again, c2Sent := [], c2Resend := satAdd x.c2Resend (l.length + 1) })) ∧
      (s.now < a.toNat + 2000 → exec (.c2ResendTimeout p) s = .next s))

/-- Port `p` of `t` has sent `f` in the current slot, with a trailer of its own whose CRC holds (R293): it is the last flit sent, a class-1
flit's copy is kept (R305), and the second flit of a codeword completes the word on the lanes (R287). -/
def Sys2Proof.Claims.HasSent (s t : State) (p : Fin 16) (f : Flit) : Prop :=
  (∃ w : WireFlit, (t.port p).lastSent = some (s.slot, w) ∧ w.flit = f ∧ w.slot = BitVec.ofNat 13 s.slot ∧ w.linkCode = (s.port p).linkCode ∧
    w.c2Ack = (s.port p).c2SeqIn ∧ w.nackValid = !(s.port p).nacks.isEmpty ∧ (∀ i n l, (s.port p).nacks = (i, n) :: l → w.nack = i) ∧
    wireCrcOk w = true) ∧
    (t.port p).copies = (s.port p).copies ++ (if f.fkind = 1 then [⟨s.slot, f⟩] else []) ∧
    (s.slot % 2 = 1 → ∃ v w : WireFlit, w.flit = f ∧ (t.port p).sentWord = some ((s.port p).txWord (s.slot / 2) v w)) ∧
    ∀ q, q ≠ p → t.port q = s.port q

/-- The slots (R301, R303, R306, R311, R381): LAUNCH sends the head of its queue with the current epoch unless the die is halted, TRANSIT the
flit presented for it, RETRY the head of the retry buffer, FREE the class-2 flits that are sent again, in order, and then the next one that
waits, fault reports first; a flit that reaches its presentation slot lands, takes the one TRANSIT slot that claims it, waits for a retry
slot, or is a collision that halts the die: without a valid route, without a slot that claims it or with two, and where a flit of another
epoch meets it in its output slot (R296). That a fault report is IKIND 3 of class 2 is log entry 31. -/
def Obligations.SlotsSendWhatTheTableSays : Prop :=
  ∀ (s : State) (p : Fin 16) (x : FabPort), x = s.port p →
    (∀ (q : Nat) (f : Flit) (l : List Flit), s.slotIs p 1 = true → q = bits (s.entryNow p s.slot) 11 0 → tget [] s.fab.queues q = f :: l →
      s.seq.state ≠ .halted →
      ∃ t : State, exec (.launchSlot p) s = .next t ∧ t = { s with fab := t.fab } ∧ t.fab.queues = tset [] s.fab.queues q l ∧
        Claims.HasSent s t p { f with epoch := s.seq.mark.setWidth 11 }) ∧
    (s.slotIs p 1 = true → s.seq.state = .halted → ∃ t : State, exec (.launchSlot p) s = .next t ∧ t.fab.queues = s.fab.queues) ∧
    (s.slotIs p 1 = false → exec (.launchSlot p) s = .next s) ∧
    (∀ (pre post : List Crossing) (h : Crossing), x.state = .up → x.transit = pre ++ h :: post → h.slot = s.slot →
      (∀ y ∈ pre, y.slot ≠ s.slot) → (∀ g, s.ownFlit p = some g → g.epoch = h.flit.epoch) →
      ∃ t : State, exec (.transitSlot p) s = .next t ∧ t = { s with fab := t.fab } ∧ (t.port p).transit = pre ++ post ∧
        Claims.HasSent s t p h.flit) ∧
    (∀ (pre post : List Crossing) (h : Crossing) (g : Flit), x.state = .up → x.transit = pre ++ h :: post → h.slot = s.slot →
      (∀ y ∈ pre, y.slot ≠ s.slot) → s.ownFlit p = some g → g.epoch ≠ h.flit.epoch → s.seq.state ≠ .empty → s.seq.state ≠ .halted →
      ∃ t : State, exec (.transitSlot p) s = .next t ∧ t.seq.state = .halted ∧ t.mgmt.halt.valid = true ∧ t.mgmt.halt.reason = hcSlot) ∧
    (s.slotIs p 2 = true → (∀ y ∈ x.transit, y.slot ≠ s.slot) →
      ∃ t : State, exec (.transitSlot p) s = .next t ∧ t = { s with fab := t.fab } ∧ Claims.HasSent s t p emptyFlit) ∧
    (∀ (h : Held) (l : List Held), s.slotIs p 3 = true → x.retry = h :: l →
      ∃ t : State, exec (.retrySlot p) s = .next t ∧ t = { s with fab := t.fab } ∧ (t.port p).retry = l ∧
        (t.port p).c1Retry = satInc x.c1Retry ∧ Claims.HasSent s t p h.flit) ∧
    (∀ (g : Flit) (l : List Flit), s.slotIs p 0 = true → x.c2Again = g :: l → s.pwr.tier.val < 2 →
      ∃ t : State, exec (.freeSlot p) s = .next t ∧ t = { s with fab := t.fab } ∧ (t.port p).c2Again = l ∧
        (t.port p).c2Out = x.c2Out ∧ (t.port p).c2SeqOut = x.c2SeqOut ∧ (t.port p).c2Sent = x.c2Sent ++ [(s.time.hallTime, g)] ∧
        Claims.HasSent s t p g) ∧
    (s.slotIs p 0 = true → x.c2Out = [] → x.c2Again = [] → ∃ t : State, exec (.freeSlot p) s = .next t ∧ t = { s with fab := t.fab } ∧
      Claims.HasSent s t p emptyFlit) ∧
    (s.slotIs p 0 = true → 2 ≤ s.pwr.tier.val → ∃ t : State, exec (.freeSlot p) s = .next t ∧ t = { s with fab := t.fab } ∧
      (t.port p).c2Out = x.c2Out ∧ (t.port p).c2Again = x.c2Again ∧ Claims.HasSent s t p emptyFlit) ∧
    (s.slotIs p 0 = false → exec (.freeSlot p) s = .next s) ∧
    (∀ f : Flit, s.slotIs p 0 = true → x.c2Again = [] → nextC2 x.c2Out = some f → x.c2Sent.length < 64 → s.pwr.tier.val < 2 →
      (∀ g ∈ x.c2Out, g.ikind = 3 → f.ikind = 3) ∧
      ∃ t : State, exec (.freeSlot p) s = .next t ∧ t = { s with fab := t.fab } ∧ (t.port p).c2Out = x.c2Out.erase f ∧
        (t.port p).c2SeqOut = x.c2SeqOut + 1 ∧ (t.port p).c2Sent = x.c2Sent ++ [(s.time.hallTime, { f with c2Seq := x.c2SeqOut + 1 })] ∧
        Claims.HasSent s t p { f with c2Seq := x.c2SeqOut + 1 }) ∧
    (∀ h : Held, (x.present.filter fun h => decide (h.slot ≤ s.slot)) = [h] →
      (h.flit.dest = s.module → exec (.flitPresent p) s = .next { s with fab := { s.fab with
        ports := s.fab.ports.set p { x with present := x.present.filter fun h => decide (s.slot < h.slot) }
        landing := s.fab.landing ++ [⟨h.slot + 1, h.flit⟩] } }) ∧
      (∀ r a b, h.flit.dest ≠ s.module → r = tget 0 s.fab.route h.flit.dest.toNat → r.getLsbD 31 = true → a = portOf (bits r 3 0) →
        b = portOf (bits r 7 4) → h.flit.retry = false → claims (s.transitSet h.flit) a p (h.slot + 1) = true →
        claims (s.transitSet h.flit) b p (h.slot + 1) = false ∨ a = b → (∀ y ∈ (s.port a).transit, y.slot ≠ h.slot + 1) →
        ∃ t : State, exec (.flitPresent p) s = .next t ∧ t = { s with fab := t.fab } ∧
          (t.port a).transit = (s.port a).transit ++ [⟨h.slot + 1, h.flit, p⟩]) ∧
      (∀ r a, h.flit.dest ≠ s.module → r = tget 0 s.fab.route h.flit.dest.toNat → r.getLsbD 31 = true → h.flit.retry = true →
        a = portOf (bits r 3 0) → (s.port a).retry.length < 512 →
        ∃ t : State, exec (.flitPresent p) s = .next t ∧ t = { s with fab := t.fab } ∧
          (t.port a).retry = (s.port a).retry ++ [⟨s.slot, h.flit⟩]) ∧
      (∀ r a b, h.flit.dest ≠ s.module → r = tget 0 s.fab.route h.flit.dest.toNat → a = portOf (bits r 3 0) → b = portOf (bits r 7 4) →
        r.getLsbD 31 = false ∨ h.flit.retry = false ∧ (
          claims (s.transitSet h.flit) a p (h.slot + 1) = false ∧ claims (s.transitSet h.flit) b p (h.slot + 1) = false ∨
          claims (s.transitSet h.flit) a p (h.slot + 1) = true ∧ claims (s.transitSet h.flit) b p (h.slot + 1) = true ∧ a ≠ b) →
        s.seq.state ≠ .empty → s.seq.state ≠ .halted →
        ∃ t : State, exec (.flitPresent p) s = .next t ∧ t.seq.state = .halted ∧ t.mgmt.halt.valid = true ∧ t.mgmt.halt.reason = hcSlot))

/-- The row of a class-1 flit of an IKIND (Table 11.4). -/
def Sys2Proof.Claims.c1Item (k : Nat) (f : Flit) : Instr :=
  if k = 0 then .c1Write f else if k = 1 then .c1WriteWithAccept f else if k = 2 then .c1ReadRequest f
  else if k = 3 then .c1ReadResponse f else if k = 4 then .c1BellOperation f else .c1ChannelMessage f

/-- The endpoint of core `k` that a message is for by its header flit: the one whose PEER sent it, else the one whose ring holds its address
(R244, R255, Table 9.5). -/
def Sys2Proof.Claims.ownerOf (k : Core) (f : Flit) : Option (BitVec 7) :=
  peerOwner k (BitVec.ofNat 12 (ofBytes ((f.payload.drop 12).take 2))) (BitVec.ofNat 5 (ofBytes ((f.payload.drop 14).take 1)))
      (BitVec.ofNat 7 (ofBytes ((f.payload.drop 15).take 1))) <|>
    ringOwner k (f.offset.toNat % 2 ^ 25)

/-- The six class-1 rows (R235, R308, R309, R315, R316, R371, R381): a flit lands on a die that is not halted (a write also while a kill waits
for its open window); a rejected one changes no memory and is NACKed, a duplicate changes nothing. The bytes of a write are written by the
accesses of their home, and its path goes on once they are (those to an accumulator buffer are there at once: log entry 49); a read request
changes no memory, has its range read, and passes; a response brings its bytes to the READ or the load element that waits for it, else it is
written where it names (that a remote READ is answered so is log entry 19); a bell operation goes to its word's home and holds up its path
there; a channel message is written to its receiver's ring. The item that lands behind a written one finds the path past it: the accepted
write is acknowledged, the message has landed, or its drop is counted where the endpoint no longer takes it (R252 to R254, log entry 22). -/
def Obligations.Class1ItemsLandInPathOrder : Prop :=
  ∀ (s : State) (k : Nat) (f : Flit), k < 6 →
    (f.ikind.toNat ≠ k → exec (Claims.c1Item k f) s = .next s) ∧
    (f.ikind.toNat = k → ∃ t : State, exec (Claims.c1Item k f) s = .next t ∧
      (s.seq.state = .halted ∧ (s.pwr.killPending = false ∨ 2 ≤ k ∨ flitReject s f ≠ none) ∨
          fullSeq (s.path (pathKey f)).next f.pathSeq.toNat = none →
        t = { s with fab := { s.fab with landing := t.fab.landing } }) ∧
      (∀ key n p a, key = pathKey f → p = s.path key → n = p.next → a = f.offset.toNat % 2 ^ 25 →
        s.discards f = false → f.pathSeq.toNat = n % 2 ^ 24 → p = { next := n, cur := p.cur, items := p.items } →
        (∀ r, flitReject s f = some r → (t.path key).next = n + 1 ∧ t = { s with fab := t.fab } ∧ t.fab.winNacks = satInc s.fab.winNacks) ∧
        (flitReject s f = none → f.payload ≠ [] → ∀ c, c = coreOf (f.offset.toNat / 2 ^ 40) →
          (k ≤ 1 → t = { rangeWrite 14 rqFabric srcFabric f.space.toNat f.offset.toNat f.payload (.item key n) s with fab := t.fab } ∧
            (f.space ≠ 2 → t.path key = { p with seen := [n], need := [(n, f.payload.length)]
                                                 waiting := if k = 1 ∧ f.last = true then [(n, f)] else [] }) ∧
            (f.space = 2 → 0 < n → t.path key = { p with next := n + 1 })) ∧
          (k = 2 → ∀ len, len = ofBytes ((f.payload.drop 8).take 4) → t.path key = { p with next := n + 1 } ∧
            (len % 4 = 0 → 4 ≤ len → len ≤ 1048576 →
              t = { startJob (.serve f) 14 rqFabric srcFabric f.space.toNat f.offset.toNat len s with fab := t.fab }) ∧
            (len % 4 ≠ 0 ∨ len < 4 ∨ 1048576 < len → t = { s with fab := t.fab })) ∧
          (k = 3 → f.space = 1 →
            (∀ w, s.fab.awaiting = [w] → w.rdest = some a → w.dest = f.src → w.core.toNat = c.val →
              t.fab.awaiting = [] ∧ t.path key = { p with next := n + 1 } ∧ t = { s with
                cores := (fillAsk c 14 a f.payload (.readValue c (s.core c).readNo) { s with cores := s.cores.set c { s.core c with
                  readNo := (s.core c).readNo + 1
                  readValues := (s.core c).readValues ++
                    [⟨(s.core c).readNo, a, BitVec.ofNat 64 (ofBytes f.payload), w.ack, some f.payload.length⟩] } }).cores
                fab := t.fab }) ∧
            (∀ d q, s.fab.awaiting = [] → remoteElem s c f.src a = some (d, q) → t.path key = { p with next := n + 1 } ∧
              t = { fillAsk c (8 + d.toNat / 512) a f.payload (.loadPiece c d q a) s with fab := t.fab }) ∧
            (s.fab.awaiting = [] → remoteElem s c f.src a = none →
              t = { fillAsk c 14 a f.payload (.item key n) s with fab := t.fab } ∧
              t.path key = { p with seen := [n], need := [(n, f.payload.length)] })) ∧
          (k = 4 → t.path key = { p with next := n + 1, busy := true } ∧
            Claims.atHome (bellOfFlit s key n f) { s with fab := t.fab } t) ∧
          (∀ x, k = 5 → f.last = true → p.cur = none → f.space = 1 → Claims.ownerOf (s.core c) f = some x →
            ofBytes ((f.payload.drop 0).take 1) = 1 → ((s.core c).ep x).open_ = true → epRole ((s.core c).ep x).desc = 2 →
            epGen ((s.core c).ep x).desc = BitVec.ofNat 16 (ofBytes ((f.payload.drop 2).take 2)) →
            t = { fillAsk c 14 a f.payload (.item key n) s with fab := t.fab } ∧
            t.path key = { p with seen := [n], need := [(n, f.payload.length)], waiting := [(n, f)], placed := [n] }))) ∧
      (∀ key n p (g : Flit), key = pathKey f → p = s.path key → n = p.next → s.discards f = false → f.pathSeq.toNat = (n + 1) % 2 ^ 24 →
        k = 0 → f.payload ≠ [] → f.space ≠ 2 → flitReject s f = none → g.payload ≠ [] →
        p = { next := n, seen := [n], waiting := [(n, g)], placed := p.placed, cur := none, items := [] } → (g.ikind = 5 → p.placed = [n]) →
        (t.path key).next = n + 1 ∧ (t.path key).seen = [n + 1] ∧ (t.path key).waiting = [] ∧
        (g.ikind = 1 → g.last = true → t.fab.ports = (acceptMsg g.src g.srcCore n s).fab.ports) ∧
        (∀ c x e, p.placed = [n] → g.ikind = 5 → g.last = true → g.space = 1 → c = coreOf (g.offset.toNat / 2 ^ 40) →
          Claims.ownerOf (s.core c) g = some x → ofBytes ((g.payload.drop 0).take 1) = 1 → e = (s.core c).ep x → epRole e.desc = 2 →
          (e.open_ = true → epGen e.desc = BitVec.ofNat 16 (ofBytes ((g.payload.drop 2).take 2)) →
            ((t.core c).ep x).landedCount = e.landedCount + 1 ∧ ((t.core c).ep x).landed.length = e.landed.length + 1) ∧
          (e.open_ = true → epGen e.desc ≠ BitVec.ofNat 16 (ofBytes ((g.payload.drop 2).take 2)) →
            (t.core c).ep x = { e with dropGen := satInc e.dropGen }) ∧
          (e.open_ = false → (t.core c).ep x = { e with dropClosed := satInc e.dropClosed }))))

/-- A routed class-0 message of a kind that this module sees for the first time, and that is for it (R300). -/
def Sys2Proof.Claims.ForThisModule (s : State) (kind : Nat) (msg : C0Msg) (src : BitVec 12) : Prop :=
  c0get msg 0 1 = kind ∧ src = BitVec.ofNat 12 (c0get msg 2 2) ∧ BitVec.ofNat 12 (c0get msg 4 2) = s.module ∧
    (tget [] s.fab.routedSeen (c0get msg 2 2 % 4096)).contains (c0get msg 6 2) = false

/-- HALT, STATUS and the routed messages (R250, R251, R255, R299, R300, R309, R316, R383, R388): a copy that was seen before is dropped and
counted; a flood goes on by every other UP port, and a message for another module by the ports of its route; HALT of this module's partition
halts its die, which floods none of its own (a HALT for 0xFFF acts on every module: log entry 56); CREDIT and CREDIT_DROP bring units back to
their endpoint, a multicast sender's by the least of its receivers and child modules, and a CREDIT for a receiver of a group, or for what
stands for it where the module has none, counts as its child module's (log entry 18); EXPRESS_BELL goes to its word's home in order, one of
its source at a time, or is rejected; WINDOW_NACK is logged, and halts the die with STRICT; ACCEPT completes what waits for it. -/
def Obligations.Class0MessagesAreActedOnOnce : Prop :=
  ∀ (s : State) (p : Fin 16) (msg : C0Msg),
    (∀ o : BitVec 12, o = BitVec.ofNat 12 (c0get msg 2 2) → c0get msg 0 1 = kindHalt →
      (o ∈ s.fab.haltSeen → exec (.haltMsg p msg) s = .next { s with fab := { s.fab with c0Dup := s.fab.c0Dup + 1 } }) ∧
      (o ∉ s.fab.haltSeen → o ≠ s.seq.origin → o ≠ 0xFFF → ∃ t : State, exec (.haltMsg p msg) s = .next t ∧
        Claims.Flooded (some p) msg { s with fab := { s.fab with haltSeen := o :: s.fab.haltSeen } } t) ∧
      (o ∉ s.fab.haltSeen → o = s.seq.origin ∨ o = 0xFFF → s.holdsImage = true → s.seq.state ≠ .halted → s.seq.state ≠ .empty →
        ∃ t : State, exec (.haltMsg p msg) s = .next t ∧ t.seq.state = .halted ∧ t.mgmt.halt.valid = true ∧
          t.mgmt.halt.reason = hcRemote ∧ t.mgmt.halt.noCore = true ∧ t.cores = s.cores ∧
          Claims.Flooded (some p) msg s { s with fab := { s.fab with ports := t.fab.ports } })) ∧
    (c0get msg 0 1 = kindStatus → ∀ o n, o = c0get msg 4 2 % 4096 → n = c0get msg 6 2 → o ≠ s.module.toNat →
      (n ∈ tget [] s.fab.statusSeen o → exec (.statusMsg p msg) s = .next { s with fab := { s.fab with c0Dup := s.fab.c0Dup + 1 } }) ∧
      (n ∉ tget [] s.fab.statusSeen o → ∃ t : State, exec (.statusMsg p msg) s = .next t ∧ Claims.Flooded (some p) msg
        { s with fab := { s.fab with statusSeen := tset [] s.fab.statusSeen o (ringPush 64 (tget [] s.fab.statusSeen o) n) } } t)) ∧
    (∀ (i : Instr) (kind : Nat), (i = .creditMsg p msg ∧ kind = kindCredit ∨ i = .creditDrop p msg ∧ kind = kindCreditDrop ∨
        i = .expressBell p msg ∧ kind = kindExpress ∨ i = .windowNack p msg ∧ kind = kindNack ∨ i = .acceptMsg p msg ∧ kind = kindAccept) →
      (c0get msg 0 1 ≠ kind → exec i s = .next s) ∧
      (c0get msg 0 1 = kind → c0get msg 6 2 ∈ tget [] s.fab.routedSeen (c0get msg 2 2 % 4096) →
        exec i s = .next { s with fab := { s.fab with c0Dup := s.fab.c0Dup + 1 } }) ∧
      (c0get msg 0 1 = kind → c0get msg 6 2 ∉ tget [] s.fab.routedSeen (c0get msg 2 2 % 4096) → BitVec.ofNat 12 (c0get msg 4 2) ≠ s.module →
        ∃ t : State, exec i s = .next t ∧ t = { s with fab := { s.fab with
          ports := t.fab.ports
          routedSeen := tset [] s.fab.routedSeen (c0get msg 2 2 % 4096)
            (ringPush 64 (tget [] s.fab.routedSeen (c0get msg 2 2 % 4096)) (c0get msg 6 2)) } } ∧
        ∀ q : Fin 16, (Claims.RoutePort (BitVec.ofNat 12 (c0get msg 4 2)) s q → t.port q = (c0queue q msg s).port q) ∧
          (¬ Claims.RoutePort (BitVec.ofNat 12 (c0get msg 4 2)) s q → t.port q = s.port q))) ∧
    (∀ (src : BitVec 12) (c : Fin 32) (n : BitVec 7) (x : Endpoint), c = coreOf (c0get msg 8 1) → n = BitVec.ofNat 7 (c0get msg 9 1) →
      x = (s.core c).ep n → epGen x.desc = BitVec.ofNat 16 (c0get msg 10 2) →
      (Claims.ForThisModule s kindCredit msg src → passGroup s c n src = none → ∃ t : State, exec (.creditMsg p msg) s = .next t ∧
        (epRole x.desc = 1 ∨ epRole x.desc = 3 →
          t = { s with cores := s.cores.set c { s.core c with eps := (t.core c).eps }, fab := { s.fab with routedSeen := t.fab.routedSeen } }) ∧
        (epRole x.desc = 1 → ((t.core c).ep n).credits = x.credits + rise32 x.cumIn.toNat (c0get msg 12 4)) ∧
        (∀ d, epRole x.desc = 3 → d = rise32 (tget 0 x.memberIn src.toNat) (c0get msg 12 4) →
          (t.core c).ep n = refreshMcast s { x with memberIn := tset 0 x.memberIn src.toNat (tget 0 x.memberIn src.toNat + d)
                                                    memberCum := tset 0 x.memberCum (4096 + src.toNat) (tget 0 x.memberCum (4096 + src.toNat) + d) }) ∧
        (∀ g, epRole x.desc = 4 → g = tget {} s.groups (epGroup x.desc) → g.members ≠ [] →
          t = { s with groups := t.groups, fab := t.fab } ∧
          (tget {} t.groups (epGroup x.desc)).childIn = tset 0 g.childIn src.toNat
            (tget 0 g.childIn src.toNat + rise32 (tget 0 g.childIn src.toNat) (c0get msg 12 4)))) ∧
      (Claims.ForThisModule s kindCreditDrop msg src → x.dropsTaken.contains (BitVec.ofNat 32 (c0get msg 20 4)) = false → epStrict x.desc = false →
        epRole x.desc = 1 ∨ epRole x.desc = 3 →
        ∃ t : State, exec (.creditDrop p msg) s = .next t ∧ t = { s with cores := s.cores.set c { s.core c with eps := (t.core c).eps }
                                                                         mgmt := t.mgmt, fab := { s.fab with routedSeen := t.fab.routedSeen } } ∧
        (epRole x.desc = 1 → ((t.core c).ep n).credits = x.credits + c0get msg 16 4) ∧
        ((t.core c).ep n).dropsTaken = x.dropsTaken ++ [BitVec.ofNat 32 (c0get msg 20 4)])) ∧
    (∀ (src : BitVec 12) (i : Nat) (g : MGroup), Claims.ForThisModule s kindCredit msg src →
      passGroup s (coreOf (c0get msg 8 1)) (BitVec.ofNat 7 (c0get msg 9 1)) src = some (i, g) → tget {} s.groups i = g →
      g.gen = BitVec.ofNat 16 (c0get msg 10 2) → ∃ t : State, exec (.creditMsg p msg) s = .next t ∧ t = { s with groups := t.groups, fab := t.fab } ∧
        (tget {} t.groups i).childIn = tset 0 g.childIn src.toNat
          (tget 0 g.childIn src.toNat + rise32 (tget 0 g.childIn src.toNat) (c0get msg 12 4))) ∧
    (∀ (src : BitVec 12) (key n : Nat), Claims.ForThisModule s kindExpress msg src → key = 32 * src.toNat + c0get msg 8 1 % 32 →
      n = tget 0 s.fab.expIn key → c0get msg 11 1 = n % 256 → s.fab.expWait = [] →
      (key ∈ s.fab.expBusy → ∃ t : State, exec (.expressBell p msg) s = .next t ∧
        t = { s with fab := { s.fab with expWait := [(BitVec.ofNat 4 p.val, msg)], routedSeen := t.fab.routedSeen } }) ∧
      (key ∉ s.fab.expBusy → ∃ t : State, exec (.expressBell p msg) s = .next t ∧ tget 0 t.fab.expIn key = n + 1 ∧ t.fab.expWait = [] ∧
        (s.seq.state = .halted → t = { s with fab := t.fab } ∧ t.fab.expBusy = s.fab.expBusy) ∧
        (∀ op rejects, s.seq.state ≠ .halted → op = c0get msg 8 1 / 32 % 4 →
          rejects = windowCheck s (c0get msg 16 7 / 2 ^ 48 % 16) (c0get msg 16 7 % 2 ^ 48) 8 2 (BitVec.ofNat 32 (c0get msg 12 4)) (some s.markNow) →
          (op ≠ 3 → rejects = none → t.fab.expBusy = key :: s.fab.expBusy ∧
            Claims.atHome { op := BitVec.ofNat 2 op, addr := BitVec.ofNat 64 (s.module.toNat * 2 ^ 52 + c0get msg 16 7 % 2 ^ 52)
                            operand := BitVec.ofNat 64 (c0get msg 24 8), express := true, srcModule := src
                            srcCore := BitVec.ofNat 5 (c0get msg 8 1), cmd := BitVec.ofNat 13 (c0get msg 9 2), origin := .expressIn key }
              { s with fab := t.fab } t) ∧
          (op = 3 ∨ rejects ≠ none → t = { s with fab := t.fab } ∧ t.fab.winNacks = satInc s.fab.winNacks)))) ∧
    (∀ src : BitVec 12, Claims.ForThisModule s kindNack msg src → ∃ t : State, exec (.windowNack p msg) s = .next t ∧ t.cores = s.cores ∧
      (c0get msg 9 1 / 4 % 2 = 0 → t = { s with mgmt := t.mgmt, fab := { s.fab with routedSeen := t.fab.routedSeen, awaiting := t.fab.awaiting } } ∧
        ∃ e, t.mgmt.errLog.getLast? = some e ∧ e.code = errWindowNack) ∧
      (c0get msg 9 1 / 4 % 2 = 1 → s.seq.state ≠ .empty → s.seq.state ≠ .halted →
        t.seq.state = .halted ∧ t.mgmt.halt.valid = true ∧ t.mgmt.halt.reason = hcWindow)) ∧
    (∀ (src : BitVec 12) (key n : Nat), Claims.ForThisModule s kindAccept msg src → key = 4096 * (c0get msg 8 1 % 32) + src.toNat →
      fullSeq (tget 0 s.fab.accepted key) (c0get msg 12 3) = some n →
      ∃ t : State, exec (.acceptMsg p msg) s = .next t ∧ tget 0 t.fab.accepted key = n + 1 ∧
        t.fab.awaiting = s.fab.awaiting.filter (fun w => !(w.core.toNat == c0get msg 8 1 % 32 && w.dest == src && w.rdest.isNone &&
          decide (w.pathSeq ≤ n))) ∧
        (∀ w d q, s.fab.awaiting = [w] → w.core.toNat = c0get msg 8 1 % 32 → w.dest = src → w.rdest = none → w.pathSeq ≤ n →
          w.elem = some (d, q) →
          t.cores = s.cores.set (coreOf w.core.toNat) (Claims.acked s w.ack 1 { s.core (coreOf w.core.toNat) with
            streams := tset {} (s.core (coreOf w.core.toNat)).streams d.toNat { (s.core (coreOf w.core.toNat)).stream d with
              elems := ((s.core (coreOf w.core.toNat)).stream d).elems.map fun x => if x.pos = q then { x with need := 0 } else x } })) ∧
        (∀ w, s.fab.awaiting = [w] → w.core.toNat = c0get msg 8 1 % 32 → w.dest = src → w.rdest = none → w.pathSeq ≤ n → w.elem = none →
          t.cores = s.cores.set (coreOf w.core.toNat) (Claims.acked s w.ack 1 (s.core (coreOf w.core.toNat)))))

/-- C2_FLIT_RECEIVE, DRAIN_END, TABLE_COPY_DONE and FAB_WIN_CLOSE (R295, R296, R311, R317): a class-2 flit for another module goes on by its
route, and for this one only relays have an effect (that IKIND 2 and above are management messages and fault reports, which end here, is log
entry 31); the previous slot tables are gone once draining ends, and the next leg's set is copied unless it is active; a set whose range has
been read stands in the shadow tables; a closed window's CLOSE_MARK is the next mark's number, or stays where it is lower. -/
def Obligations.TablesWindowsAndClass2Transit : Prop :=
  (∀ (s : State) (p : Fin 16) (f : Flit), f.fkind = 2 → f.dest ≠ s.module → (tget 0 s.fab.route f.dest.toNat).getLsbD 31 = true →
    (s.port (portOf (bits (tget 0 s.fab.route f.dest.toNat) 3 0))).state = .up →
    ∃ t : State, exec (.c2FlitReceive p f) s = .next t ∧ t = { s with fab := { s.fab with ports := t.fab.ports } } ∧
      (t.port p).c2In = (s.port p).c2In.erase f ∧
      (t.port (portOf (bits (tget 0 s.fab.route f.dest.toNat) 3 0))).c2Out =
        (s.port (portOf (bits (tget 0 s.fab.route f.dest.toNat) 3 0))).c2Out ++ [f]) ∧
  (∀ (s : State) (p : Fin 16) (f : Flit), f.fkind ≠ 2 → exec (.c2FlitReceive p f) s = .next { s with fab := { s.fab with
    ports := s.fab.ports.set p { s.port p with c2In := (s.port p).c2In.erase f, c2Arrived := (s.port p).c2Arrived.erase f } } }) ∧
  (∀ (s : State) (n : Nat), s.fab.drainUntil = some n →
    (n ≤ s.slot → s.seq.due.ended = false → tget 0 s.fab.legSet s.seq.due.entry ≠ s.fab.activeSet →
      exec .drainEnd s = .next { s with fab := { s.fab with
        drainUntil := none, previous := [], copying := some (tget 0 s.fab.legSet s.seq.due.entry) } }) ∧
    (n ≤ s.slot → s.seq.due.ended = true ∨ tget 0 s.fab.legSet s.seq.due.entry = s.fab.activeSet →
      exec .drainEnd s = .next { s with fab := { s.fab with drainUntil := none, previous := [], copying := none } }) ∧
    (s.slot < n → exec .drainEnd s = .next s)) ∧
  (∀ (s : State) (p : Fin 16) (f : Flit), f.fkind = 2 → f.dest = s.module → 2 ≤ f.ikind.toNat →
    exec (.c2FlitReceive p f) s = .next { s with fab := { s.fab with
      ports := s.fab.ports.set p { s.port p with c2In := (s.port p).c2In.erase f, c2Arrived := (s.port p).c2Arrived.erase f } } }) ∧
  (∀ s : State,
    (∀ (n : Nat) (j : Job), s.fab.copying = some n → s.jobDone (.tables n) = some j →
      exec .tableCopyDone s = .next { s with
        jobs := s.jobs.filter fun x => x.id != j.id
        fab := { s.fab with shadow := tableEntries 0 (mreads j.buf 0 j.len), shadowSet := n, shadowReady := true, copying := none } }) ∧
    (∀ n : Nat, s.fab.copying = none ∨ s.fab.copying = some n ∧ s.jobDone (.tables n) = none → exec .tableCopyDone s = .next s)) ∧
  (∀ (s : State) (v : U32), s.pwr.mainOn = true → winSize (tget 0 s.fab.windows (bits v 13 0)) ≠ 0 →
    ∃ t : State, exec (.fabWinCloseWrite v) s = .next t ∧ t = { s with fab := { s.fab with windows := t.fab.windows } } ∧
      bits (tget 0 t.fab.windows (bits v 13 0)) 255 224 =
        min (bits (tget 0 s.fab.windows (bits v 13 0)) 255 224) (s.seq.nextNum % 2 ^ 32) ∧
      bits (tget 0 t.fab.windows (bits v 13 0)) 223 0 = bits (tget 0 s.fab.windows (bits v 13 0)) 223 0 ∧
      ∀ j, j ≠ bits v 13 0 → tget 0 t.fab.windows j = tget 0 s.fab.windows j)

/-- The bits that a write of `v` to a W1C register clears: not those that the hardware sets in the same cycle of the time domain (R404). -/
def Sys2Proof.Claims.w1c (w : W1c) (t v : U64) : U64 := if w.at_ = t then v &&& ~~~w.set else v

/-- The host link's resets and power states act on the link alone (R320, R321); JTAG (R359); SMBus reaches the standby blocks alone
(R358); BAR0 takes aligned 32-bit accesses and logs any other, whose read is all ones (R322); a write acts by its
register's type (R402, Table 16.2), and one to a W1C register leaves what is set in its cycle (R404); the LO half of a pair latches HI for
its path (R40, R405; that the latch is used up by the next read of HI is log entry 39). That a link reset and D3hot keep the MSI-X
pending bits, as nothing in the spec clears them there, is log entry 43 (PRESUMED). -/
def Obligations.LinkManagementAndRegisterCommands : Prop :=
  ∀ s : State,
    (s.pwr.phase ≠ .standby → s.pwr.phase ≠ .standbyRelay →
      (∀ c ∈ [Instr.perst, Instr.hotReset, Instr.functionLevelReset], exec c s = .next { s with host := { s.host with
        cfgSpace := [], bar2Lo := 0, bar2Hi := 0, msixTable := [], d3hot := false } }) ∧
      exec .pmD3hot s = .next { s with host := { s.host with
        cfgSpace := [], bar2Lo := 0, bar2Hi := 0, msixTable := [], d3hot := true } } ∧
      exec .pmD0 s = .next { s with host := { s.host with d3hot := false } } ∧
      ∀ speed width, exec (.linkUp speed width) s = .next { s with host := { s.host with
        linkUp := true, speed := speed, width := width } }) ∧
    exec .jtagBypass s = .next { s with mgmt := { s.mgmt with jtag := .bypass, jtagDriving := false, jtagData := 0 } } ∧
    exec .jtagIdcode s = .next { s with mgmt := { s.mgmt with
      jtag := .idcode, jtagDriving := false, jtagData := Config.jtagIdcode.setWidth 64 } } ∧
    (∀ pins, exec (.jtagSamplePreload pins) s = .next { s with mgmt := { s.mgmt with
      jtag := .samplePreload, jtagDriving := false, jtagData := pins } }) ∧
    (∀ pins, ∃ t : State, exec (.jtagExtest pins) s = .next t ∧
      t = { s with mgmt := { s.mgmt with jtag := .extest, jtagDriving := true, jtagPins := pins, jtagData := 0 } } ∧
      (s.seq.state = .empty → s.loader.busy = false → t.jtagActs = .extest ∧ t.pinsDriven = true) ∧
      (s.seq.state ≠ .empty ∨ s.loader.busy = true → t.jtagActs = .bypass ∧ t.pinsDriven = false)) ∧
    (∀ (o : BitVec 24) (v : U32), standbyBlock o.toNat = false →
      exec (.smbusBlockWrite o v) s = .next s ∧
      exec (.smbusProcessCall o) s = .next { s with mgmt := { s.mgmt with smbus := { s.mgmt.smbus with data := 0xFFFFFFFF } } }) ∧
    (s.pwr.standbyOn = true →
      (∀ v : U32, exec (.smbusBlockWrite 0xA0000C v) s =
        .next { s with pwr := { s.pwr with
          event := s.pwr.event &&& ~~~((Claims.w1c s.pwr.eventNow s.time.hallTime (v.setWidth 64)).extractLsb' 0 7) } }) ∧
      (∀ o : BitVec 24, standbyBlock o.toNat = true → o.toNat % 4 = 0 → o.toNat < 0xC00120 ∨ 0xC00140 ≤ o.toNat → isLo o.toNat = false →
        tget none s.mgmt.smbus.latch o.toNat = none →
        exec (.smbusProcessCall o) s = .next { s with mgmt := { s.mgmt with
          smbus := { s.mgmt.smbus with data := regValue s .smbus o.toNat } } }) ∧
      (s.pwr.phase ≠ .standby → s.pwr.phase ≠ .standbyRelay →
        (∀ (o : BitVec 24) (size : Nat) (v : U32), size ≠ 4 ∨ o.toNat % 4 ≠ 0 → ∃ t : State,
          t = logErr errBar0Size none (o.setWidth 64) (BitVec.ofNat 64 size) s ∧ exec (.registerWrite o size v) s = .next t ∧
          exec (.loPairRead ⟨o, size⟩) s = .next { t with host := { t.host with bar0Data := 0xFFFFFFFF } }) ∧
        (∀ (o : BitVec 24) (v : U32), o.toNat < 0x1000 → o.toNat % 4 = 0 → exec (.registerWrite o 4 v) s = .next s) ∧
        (∀ o : BitVec 24, o.toNat < 0xC00000 → sealedReg o.toNat = false → o.toNat < 0x100000 ∨ 0x300000 ≤ o.toNat → o.toNat % 4 = 0 →
          (inDieMap o.toNat = true → s.pwr.mainOn = true) →
          (isLo o.toNat = true → tget none s.mgmt.bar0.latch o.toNat = none → exec (.loPairRead ⟨o, 4⟩) s = .next { s with
            host := { s.host with bar0Data := regValue s .bar0 o.toNat },
            mgmt := { s.mgmt with bar0 := { s.mgmt.bar0 with
              latch := tset none s.mgmt.bar0.latch (o.toNat + 4) (some (regValue s .bar0 (o.toNat + 4))) } } }) ∧
          (∀ v, isLo o.toNat = false → tget none s.mgmt.bar0.latch o.toNat = some v → exec (.loPairRead ⟨o, 4⟩) s = .next { s with
            host := { s.host with bar0Data := v },
            mgmt := { s.mgmt with bar0 := { s.mgmt.bar0 with latch := tset none s.mgmt.bar0.latch o.toNat none } } })) ∧
        (s.pwr.mainOn = true → ∀ v : U32,
          (∃ t : State, exec (.registerWrite 0x80000C 4 v) s = .next t ∧ t = { s with host := { s.host with
            irqCause := s.host.irqCause &&& ~~~((Claims.w1c s.host.irqNow s.time.hallTime (v.setWidth 64)).extractLsb' 0 5)
            irqNow := t.host.irqNow } }) ∧
          (∃ t : State, exec (.registerWrite 0x800080 4 v) s = .next t ∧ t = { s with host := { s.host with
            harbReady := s.host.harbReady &&& ~~~(Claims.w1c s.host.harbNow s.time.hallTime (v.setWidth 64))
            harbNow := t.host.harbNow } }) ∧
          exec (.registerWrite 0x20020 4 v) s = .next { s with seq := { s.seq with armLo := v } } ∧
          exec (.registerWrite 0xA01004 4 v) s = .next (if (s.seq.state = .empty ∧ s.loader.busy = false) ∧
              (v.extractLsb' 0 3).toNat ≤ 3 ∧ 2 ≤ (v.extractLsb' 3 5).toNat ∧ (v.extractLsb' 3 5).toNat ≤ 10 then
            { s with clk := { s.clk with cfg := v &&& 0xFFFF } } else s))))

/-- The LO half of a pair has been read on BAR0, and `v` is latched for the next read of its HI half at offset `o` (R40, R405). -/
def Sys2Proof.Claims.latched (o : Nat) (v : U32) (s : State) : State :=
  { s with mgmt := { s.mgmt with bar0 := { s.mgmt.bar0 with latch := tset none s.mgmt.bar0.latch o (some v) } } }

/-- The window on a command bank (R98, with R89's condition for a write), and the other windows: descriptor memory (R227), buoys and
bells (R261), channel endpoints (R253, R261), the debug window (R399); a sealed state reads all ones and is logged, and the bank's pointer
moves on all the same (R398). A BAR2 read asks for its blocks or lines and is answered, behind the earlier ones, when all have come; a BAR2
write queues its own (R323, R324); an unmapped byte makes the whole access all ones, or a dropped write, and logs BAR2_UNMAPPED. The model's
choices: what a read answers is kept in records of what leaves the module (log entry 5), and the pieces that an access asks for, an accumulator
line being taken at once (log entry 49). -/
def Obligations.DataWindowsAndBar2 : Prop :=
  ∀ s : State, s.pwr.standbyOn = true → s.pwr.mainOn = true → s.pwr.phase ≠ .standby → s.pwr.phase ≠ .standbyRelay →
    (∀ c : Fin 32, s.isSealed = false → (∀ o < 0x660, tget none s.mgmt.bar0.latch (0x100000 + 65536 * c.val + o) = none) →
      (exec (.coreBankData0Read c) s =
        let w := tget 0 ((s.core c).bank ((s.core c).bankPtr.extractLsb' 13 1).toNat) ((s.core c).bankPtr.extractLsb' 0 13).toNat
        let t := s.updCore c fun k => { k with bankData := w }
        .next { t with host := { t.host with bar0Data := w.extractLsb' 0 32 } }) ∧
      (exec (.coreBankData7Read c) s =
        let t := s.updCore c fun k => { k with bankPtr := k.bankPtr.extractLsb' 13 19 ++ (k.bankPtr.extractLsb' 0 13 + 1) }
        .next { t with host := { t.host with bar0Data := (s.core c).bankData.extractLsb' 224 32 } }) ∧
      (exec (.streamDescData0Read c) s =
        let i : BitVec 11 := (s.core c).descPtr.extractLsb' 0 11
        let st := (s.core c).stream i
        let t := s.updCore c fun k => { k with
          descData := tget 0 k.descs i.toNat, descState := Machine.descState k i, descLead := BitVec.ofNat 32 st.lead
          descHanded := BitVec.ofNat 32 st.handed, descFreed := BitVec.ofNat 32 st.freed }
        .next { t with host := { t.host with bar0Data := (tget 0 (s.core c).descs i.toNat).extractLsb' 0 32 } }) ∧
      (∃ t : State, exec (.buoyData0Read c) s = .next t ∧
        t = { Claims.latched (0x100544 + 65536 * c.val) ((t.core c).buoyData.extractLsb' 32 32) s with
          host := { s.host with bar0Data := t.host.bar0Data }, cores := t.cores } ∧
        t.core c = { s.core c with buoyData := (t.core c).buoyData } ∧ (∀ d, d ≠ c → t.core d = s.core d) ∧
        (t.core c).buoyData.extractLsb' 0 64 = ((s.core c).buoy ((s.core c).buoyPtr.extractLsb' 0 6)).addr ∧
        (t.core c).buoyData.extractLsb' 64 64 = ((s.core c).buoy ((s.core c).buoyPtr.extractLsb' 0 6)).value ∧
        t.host.bar0Data = (t.core c).buoyData.extractLsb' 0 32) ∧
      (exec (.bellQueryMaskLoRead c) s =
        let m := queryMask (s.core c)
        let t := Claims.latched (0x100514 + 65536 * c.val) (m.extractLsb' 32 32) (s.updCore c fun k => { k with queryMask := m })
        .next { t with host := { t.host with bar0Data := m.extractLsb' 0 32 } }) ∧
      (exec (.chEpData0Read c) s =
        let e := (s.core c).ep ((s.core c).epPtr.extractLsb' 0 7)
        let t := s.updCore c fun k => { k with epData := e.desc, epLatch := e }
        .next { t with host := { t.host with bar0Data := e.desc.extractLsb' 0 32 } })) ∧
    (∀ (c : Fin 32) (v : U32),
      (exec (.coreBankData7Write c v) s =
        let word := v ++ (s.core c).bankData.extractLsb' 0 224
        let n := ((s.core c).bankPtr.extractLsb' 13 1).toNat
        let w := ((s.core c).bankPtr.extractLsb' 0 13).toNat
        let next := (s.core c).bankPtr.extractLsb' 13 19 ++ ((s.core c).bankPtr.extractLsb' 0 13 + 1)
        let put := s.updCore c fun k => { (k.setBank n (tset 0 (k.bank n) w word)) with bankData := word, bankPtr := next }
        let drop := s.updCore c fun k => { k with bankData := word, bankPtr := next }
        let legRuns := s.seq.state = .running ∨ s.seq.state = .gated
        .next (if s.pwr.retained = true then drop
          else if legRuns ∧ (n = s.seq.legMark.toNat % 2 ∨ (s.core c).helmDone = false) then
            logErr errReloadActive (some c) (BitVec.ofNat 64 (8192 * n + w)) 0 drop
          else put)) ∧
      (exec (.streamDescData15Write c v) s =
        let d := v ++ (s.core c).descData.extractLsb' 0 480
        .next (s.updCore c fun k => { k with
          descData := d
          descs := if s.seq.state = .empty then tset 0 k.descs (k.descPtr.extractLsb' 0 11).toNat d else k.descs })) ∧
      (exec (.chEpData7Write c v) s =
        let d := v ++ (s.core c).epData.extractLsb' 0 224
        .next (if s.seq.state = .halted then s else s.updCore c fun k =>
          { (k.updEp (k.epPtr.extractLsb' 0 7) fun e => { e with staged := some d }) with epData := d }))) ∧
    (∀ p : Path, s.isSealed = false → s.pwr.retained = true →
      (∃ t : State, exec (.dbgData0Read p) s = .next t ∧ (t.pathRegs p).dbgData = dbgWord s (s.pathRegs p).dbgPtr ∧
        (t.pathRegs p).dbgPtr = (s.pathRegs p).dbgPtr ∧ t.cores = s.cores ∧ t.dram = s.dram ∧ t.seq = s.seq ∧
        (match p with | .bar0 => t.host.bar0Data | .smbus => t.mgmt.smbus.data) = (dbgWord s (s.pathRegs p).dbgPtr).extractLsb' 0 32) ∧
      (∃ t : State, exec (.dbgData7Read p) s = .next t ∧ (t.pathRegs p).dbgData = (s.pathRegs p).dbgData ∧
        (t.pathRegs p).dbgPtr = (s.pathRegs p).dbgPtr.extractLsb' 20 12 ++ ((s.pathRegs p).dbgPtr.extractLsb' 0 20 + 1) ∧
        t.cores = s.cores ∧ t.dram = s.dram ∧ t.seq = s.seq)) ∧
    (s.isSealed = false → s.pwr.retained = false → ∀ c ∈ [Instr.dbgData0Read .bar0, Instr.dbgData7Read .bar0],
      exec c s = .next { s with host := { s.host with bar0Data := 0xFFFFFFFF } }) ∧
    (s.isSealed = true → ∀ c : Fin 32, exec (.coreBankData0Read c) s =
      .next (let t := logErr errStateSealed none (BitVec.ofNat 64 (0x100040 + 65536 * c.val)) 0 s
        { t with host := { t.host with bar0Data := 0xFFFFFFFF } }) ∧
      exec (.coreBankData7Read c) s =
        .next { logErr errStateSealed none (BitVec.ofNat 64 (0x10005C + 65536 * c.val)) 0
          (s.updCore c fun k => { k with bankPtr := k.bankPtr.extractLsb' 13 19 ++ (k.bankPtr.extractLsb' 0 13 + 1) }) with
          host := { s.host with bar0Data := 0xFFFFFFFF } }) ∧
    (s.pwr.phase = .ready → s.pwr.retained = false → s.pwr.killPending = false → s.loader.busy = false → s.isSealed = false →
      s.host.tasks = [] → (∀ j ∈ s.jobs, j.id ≠ s.jobNo) →
      ∀ (o : BitVec 36) (sp off : Nat), sp = (s.host.bar2Hi.extractLsb' 16 4).toNat →
      off = (s.host.bar2Hi.extractLsb' 0 12).toNat * 2 ^ 36 + o.toNat →
      (∀ n, 1 ≤ n → n ≤ 4096 → (∀ i, i < n → placeOf s sp (off + i) ≠ .none) → sp ≠ 2 →
        ((∀ j ∈ s.jobs, j.want ≠ .bar2) → exec (.bar2Read o n) s = .next { rangeRead 15 rqHost srcHost sp off n (fun i => .job s.jobNo i) s with
          jobs := s.jobs ++ [⟨s.jobNo, .bar2, n, n, []⟩], jobNo := s.jobNo + 1 }) ∧
        (∀ j, s.jobs = [j] → j.want = .bar2 → j.need = 0 → exec (.bar2Read o n) s = .next {
          rangeRead 15 rqHost srcHost sp off n (fun i => .job s.jobNo i) s with
          jobs := [⟨s.jobNo, .bar2, n, n, []⟩], jobNo := s.jobNo + 1, host := { s.host with bar2Data := mreads j.buf 0 j.len } })) ∧
      (∀ n, 1 ≤ n → n ≤ 4096 → (∃ i, i < n ∧ placeOf s sp (off + i) = .none) → (∀ j ∈ s.jobs, j.want ≠ .bar2) →
        exec (.bar2Read o n) s = .next (logErr errBar2Unmapped none (BitVec.ofNat 64 (s.module.toNat * 2 ^ 52 + sp * 2 ^ 48 + off)) 0
          { s with jobNo := s.jobNo + 1, host := { s.host with bar2Data := List.replicate n 0xFF } })) ∧
      (∀ l : List Byte, 1 ≤ l.length → l.length ≤ 4096 → (∃ i, i < l.length ∧ placeOf s sp (off + i) = .none) →
        exec (.bar2Write o l) s = .next (logErr errBar2Unmapped none (BitVec.ofNat 64 (s.module.toNat * 2 ^ 52 + sp * 2 ^ 48 + off)) 0 s)) ∧
      (∀ l : List Byte, 1 ≤ l.length → l.length ≤ 4096 → (∀ i, i < l.length → placeOf s sp (off + i) ≠ .none) →
        (sp ≠ 2 → exec (.bar2Write o l) s = .next { rangeWrite 15 rqHost srcHost sp off l (.hostWrite s.host.writeNo) s with
          host := { s.host with writeNo := s.host.writeNo + 1
                                writing := s.host.writing ++ [(s.host.writeNo, rangePieces sp off l.length)] } }) ∧
        (sp = 2 → s.host.writing = [] → exec (.bar2Write o l) s = .next { writeHall 2 off l s with
          host := { s.host with writeNo := s.host.writeNo + 1 } })))

/-- The writes of the ingress unit on their way to the stacks: each as its blocks' requests, in the order given. -/
def Sys2Proof.Claims.posts (l : List (Nat × List Byte)) (s : State) : State :=
  l.foldl (fun s w => stackAsk srcIngress 0 w.1 w.2.length (some w.2) rqIngress (fun _ => .posted) s) s

/-- What the statements on the mooring table ask of a state: the unit accepts (R327, R365), no BAR2 write is on its way, and the table is
64-byte aligned. -/
def Sys2Proof.Claims.MooringReady (s : State) : Prop :=
  s.pwr.dieOn = true ∧ s.pwr.tier.val < 2 ∧ s.host.ingCfg.getLsbD 0 = false ∧ s.seq.state ≠ .empty ∧
  s.host.writing = [] ∧ s.host.moorBaseLo.toNat % 64 = 0

/-- The work of the unit that a doorbell by `d` units of 64 bytes, shown in the log as `v`, leaves behind: the host's own or a relayed one. -/
def Sys2Proof.Claims.bellOf (s : State) (i : BitVec 18) (d v : Nat) (q : MoorReq) : Prop :=
  (∃ w : U32, q = .bell i w ∧ d = (w - BitVec.ofNat 32 ((s.session i).producer / 64)).toNat ∧ v = w.toNat) ∨
  (∃ (m : BitVec 12) (n : U32), q = .relayed i m n ∧ d = n.toNat / 64 ∧ v = ((s.session i).producer + n.toNat) / 64 % 2 ^ 32)

/-- OPEN, CLOSE, doorbells and their refusals (R326, R327, R329, R365); a relay and the relayed doorbell (R338, its flits being log
entry 31); the muster that is written (R331, R332), with no session listed, its log record (R335) or the gap (R336), and its bell; ILOG_TAIL
(R405) and ILOG_HEAD_SET (R337). Work of the unit that needs a block of memory goes on, before any later request is accepted, when the block
has come: stated for a request of a session that is not open as the later one. The model's choices: the gap of a log of ILOG_SIZE 0 (log entry
48), the free signaller of the muster bell (log entry 32), and how work waits for its blocks (log entry 49). -/
def Obligations.IngressCommands : Prop :=
  ∀ s : State,
    (Claims.MooringReady s → s.host.tasks = [] → ∀ one : State → HostDom → State, (∀ x h, one x h = { x with jobNo := s.jobNo + 1, host := h }) →
      (∀ (i : BitVec 18) (ring size : Nat), i = s.host.moorSel.setWidth 18 → ring = (s.host.moorRingHi ++ s.host.moorRingLo).toNat →
        size = s.host.moorSize.toNat →
        (i ∉ s.host.openSessions → i ∉ s.host.closing → ring % 4096 = 0 → 1 ≤ size → size ≤ 1048576 →
          ring + 4096 * size ≤ 1236950581248 →
          ∃ t : State, exec .moorOpen s = .next t ∧
            t = one (Claims.posts [(s.moorAddr i + 12, toBytes 4 s.host.moorTag.toNat), (s.moorAddr i + 8, toBytes 4 size),
                (s.moorAddr i, toBytes 8 ring), (s.moorAddr i + 16, toBytes 24 0), (s.moorAddr i + 40, toBytes 1 1)] s)
              { s.host with openSessions := insertSession i s.host.openSessions, openedSince := s.host.openedSince + 1
                            sessions := tset {} s.host.sessions i.toNat ⟨ring, size, s.host.moorTag, 0, 0⟩
                            moorResult := 0x80000000, posted := s.host.posted + 5, buf := {} }) ∧
        (i ∈ s.host.openSessions ∨ i ∈ s.host.closing → exec .moorOpen s = .next (logErr errIngressState none (i.setWidth 64) 1
            (one s { s.host with moorResult := 0x80000001, buf := {} }))) ∧
        (i ∉ s.host.openSessions → i ∉ s.host.closing → ring % 4096 ≠ 0 ∨ size = 0 ∨ 1048576 < size →
          exec .moorOpen s = .next (logErr errIngressState none (i.setWidth 64) 1
            (one s { s.host with moorResult := 0x80000002, buf := {} }))) ∧
        (i ∈ s.host.openSessions → exec .moorClose s = .next (one (Claims.posts [(s.moorAddr i + 40, toBytes 1 2)] s)
          { s.host with openSessions := s.host.openSessions.filter (· != i), closing := insertSession i s.host.closing
                        moorResult := 0x80000000, posted := s.host.posted + 1, buf := {} })) ∧
        (i ∉ s.host.openSessions → exec .moorClose s = .next (logErr errIngressState none (i.setWidth 64) 2
          (one s { s.host with moorResult := 0x80000001, buf := {} })))) ∧
      (∀ (i : BitVec 18) (v : U32), i ∉ s.host.openSessions →
        exec (.doorbell i v) s = .next (logErr errIngressState none (i.setWidth 64) 0 (one s { s.host with buf := {} }))) ∧
      (∀ (i : BitVec 18) (asks : MoorReq → State), i ∈ s.host.openSessions →
        (∀ q, asks q = one (stackAsk srcIngress 0 (s.moorAddr i + 24) 8 none rqIngress (fun _ => .ingress s.jobNo (s.moorAddr i + 24)) s)
          { s.host with tasks := [⟨s.jobNo, .moor q s.host.writeNo, ⟨[(s.moorAddr i + 24, 8)], []⟩⟩] }) →
        (∀ v : U32, v = BitVec.ofNat 32 ((s.session i).producer / 64) → exec (.doorbell i v) s = .next (one s { s.host with buf := {} })) ∧
        (∀ v : U32, v ≠ BitVec.ofNat 32 ((s.session i).producer / 64) → exec (.doorbell i v) s = .next (asks (.bell i v))) ∧
        (∀ (m : BitVec 12) (r : Relay), s.host.relaysIn = [r] → r.session = i → r.source = m → r.bytes.toNat % 64 = 0 → r.bytes ≠ 0 →
          (r.bytes.toNat ≤ r.landed.toNat → exec (.relayedDoorbell i m r.bytes) s = .next { asks (.relayed i m r.bytes) with
            host := { (asks (.relayed i m r.bytes)).host with relaysIn := [] } }) ∧
          (r.landed.toNat < r.bytes.toNat → exec (.relayedDoorbell i m r.bytes) s = .next s ∧
            (r.since.toNat + 1000000 ≤ s.now → exec (.relayStall i m) s = .next (logErr errRelayStall none (i.setWidth 64)
              (m.setWidth 64) { s with host := { s.host with relaysIn := [] } })) ∧
            (s.now < r.since.toNat + 1000000 → exec (.relayStall i m) s = .next s))))) ∧
    (Claims.MooringReady s → ∀ (x : IngTask) (later : Instr) (j : BitVec 18) (z : U32) (after : State → HostDom → State),
      s.host.tasks = [x] → x.id ≠ s.jobNo → later = .doorbell j z → j ∉ s.host.openSessions →
      (∀ t h, after t h = logErr errIngressState none (j.setWidth 64) 0 { t with jobNo := s.jobNo + 1, host := { h with tasks := [], buf := {} } }) →
      (∀ (i : BitVec 18) (q : MoorReq) (d v n C : Nat) (bs : List Byte), i ∈ s.host.openSessions → Claims.bellOf s i d v q → 0 < d →
        x.work = .moor q n → x.buf = ⟨[(s.moorAddr i + 24, 8)], [(s.moorAddr i + 24, some bs)]⟩ → bs.length = 8 → C = ofBytes bs / 64 →
        (C + 64 * (s.session i).size < (s.session i).producer / 64 + d →
          exec later s = .next (after (logErr errIngressOverrun none (i.setWidth 64) (BitVec.ofNat 64 v) s) s.host)) ∧
        ((s.session i).producer / 64 + d ≤ C + 64 * (s.session i).size →
          exec later s = .next (after (Claims.posts [(s.moorAddr i + 16, toBytes 8 (64 * ((s.session i).producer / 64 + d)))] s)
            { s.host with
              posted := s.host.posted + 1
              sessions := tset {} s.host.sessions i.toNat { s.session i with producer := 64 * ((s.session i).producer / 64 + d) } }))) ∧
      (∀ (dest : BitVec 12) (session : BitVec 18) (src : Nat) (l : List Byte) (a : Fin 16), x.work = .relay dest session src l.length →
        x.buf = ⟨pieces 64 src l.length, (pieces 64 src l.length).map fun w => (w.1, some ((l.drop (w.1 - src)).take w.2))⟩ →
        a = portOf ((tget 0 s.fab.route dest.toNat).extractLsb' 0 4).toNat → 0 < l.length →
        (tget 0 s.fab.route dest.toNat).getLsbD 31 = true → (s.port a).state = .up →
        ∃ (t : State) (fs : List Flit), exec later s = .next t ∧ t = after { s with fab := t.fab } s.host ∧
          t.fab = { s.fab with ports := s.fab.ports.set a { s.port a with
            c2Out := (s.port a).c2Out ++ fs ++ [relayFlit s dest session 1 0 (toBytes 4 l.length)] } } ∧
          (fs.flatMap fun f => f.payload) = l ∧
          ∀ f ∈ fs, f.fkind = 2 ∧ f.src = s.module ∧ f.dest = dest ∧ f.ikind = 0 ∧ f.payload.length ≤ 256) ∧
      (∀ (mark : U64), x.work = .bell mark → x.buf = {} → s.host.posted = 0 → ∃ (r : BellReq) (t : State), exec later s = .next t ∧
        r = { op := 2, addr := s.host.musterBellHi ++ s.host.musterBellLo, operand := mark + 1, express := false, srcModule := s.module
              srcCore := r.srcCore, cmd := r.cmd, origin := .muster } ∧
        Claims.atHome r (after { s with freeCount := s.freeCount + 1 } s.host) t)) ∧
    (∀ (i : BitVec 18) (v : U32), s.pwr.dieOn = true → 2 ≤ s.pwr.tier.val →
      exec (.doorbell i v) s = .next (if s.host.deferred.length < 4096 then
        { s with host := { s.host with deferred := s.host.deferred ++ [.bell i v] } }
      else logErr errIngressState none (i.setWidth 64) 0 s)) ∧
    (∀ (dest : BitVec 12) (session : BitVec 18) (src n : Nat), dest = s.host.relModule.setWidth 12 → session = s.host.moorSel.setWidth 18 →
      src = (s.host.moorRingHi ++ s.host.moorRingLo).toNat → n = s.host.moorSize.toNat →
      s.pwr.dieOn = true → s.seq.state ≠ .empty → n % 64 = 0 → 1 ≤ n → n ≤ 1048576 → src + n ≤ 1236950581248 → dest ≠ s.module →
      (tget 0 s.fab.route dest.toNat).getLsbD 31 = true →
      (s.relaying dest session = false → s.host.tasks = [] → exec .moorRelay s = .next {
        (pieces 64 src n).foldl (fun t w => stackAsk srcIngress 0 w.1 w.2 none rqIngress (fun _ => .ingress s.jobNo w.1) t) s with
        jobNo := s.jobNo + 1, host := { s.host with tasks := [⟨s.jobNo, .relay dest session src n, ⟨pieces 64 src n, []⟩⟩] } }) ∧
      (s.relaying dest session = true → exec .moorRelay s = .next (logErr errIngressState none (session.setWidth 64) 3 s))) ∧
    (∀ (m : Muster) (l : List Muster), s.host.musters = m :: l →
      (s.seq.begun = true → s.legBefore m.mark = false → exec .musterWrite s = .next s) ∧
      (∀ (B h : Nat) (rec_ : List Byte), B = s.musterAddr m.mark → h = s.host.ilogHead.toNat → rec_ = logRecord 1 m.mark m.at_ 0 (musterBytes m) →
        s.seq.begun = true → s.legBefore m.mark = true → s.host.ingCfg.getLsbD 0 = false → m.entries = [] → s.host.gapMarks = [] →
        s.host.listedFinal = [] → s.host.tasks = [] → B % 64 = 0 →
        (s.ilogFree < 64 → exec .musterWrite s = .next (logErr errIlogGap none m.mark 0
          { Claims.posts [(B, musterBytes m)] s with
            jobNo := s.jobNo + 2
            host := { s.host with musters := l, gap := true, gapMarks := [(m.mark, m.at_)], posted := s.host.posted + 1, buf := {}
                                  tasks := [⟨s.jobNo + 1, .bell m.mark, {}⟩] } })) ∧
        (64 ≤ s.ilogFree → s.ilogFree < 128 → h + 64 < 2 ^ 64 → ∃ (t : State) (gap : List Byte), exec .musterWrite s = .next t ∧
          gap = logRecord 3 m.mark m.at_ 0 [] ∧ t = {
            Claims.posts (((pieces 64 h 64).map fun p => (s.ilogBase + p.1 % s.ilogBytes, (gap.drop (p.1 - h)).take p.2)) ++ [(B, musterBytes m)])
              (logErr errIlogGap none m.mark 0 s) with
            jobNo := s.jobNo + 2, host := t.host } ∧
          t.host.musters = l ∧ t.host.gap = true ∧ t.host.gapMarks = [] ∧ t.host.ilogHead.toNat = h + 64 ∧
          t.host.ilogTail = s.host.ilogTail ∧ t.host.tasks = [⟨s.jobNo + 1, .bell m.mark, {}⟩]) ∧
        (128 ≤ s.ilogFree → h + 128 < 2 ^ 64 → ∃ t : State, exec .musterWrite s = .next t ∧ t = {
            Claims.posts (((pieces 64 h 128).map fun p => (s.ilogBase + p.1 % s.ilogBytes, (rec_.drop (p.1 - h)).take p.2)) ++ [(B, musterBytes m)]) s with
            jobNo := s.jobNo + 2, host := t.host } ∧
          t.host.musters = l ∧ t.host.gap = s.host.gap ∧ t.host.gapMarks = [] ∧ t.host.ilogHead.toNat = h + 128 ∧
          t.host.ilogTail = s.host.ilogTail ∧ t.host.tasks = [⟨s.jobNo + 1, .bell m.mark, {}⟩]))) ∧
    (s.host.musters = [] → exec .musterWrite s = .next s) ∧
    (∀ v : U32, s.pwr.mainOn = true →
      (s.host.gapMarks = [] →
        exec (.ilogTailHiWrite v) s = .next { s with host := { s.host with ilogTail := v ++ s.host.ilogTailLo } }) ∧
      exec (.ilogHeadSetWrite v) s = .next (if s.host.ingCfg.getLsbD 0 = true then
        { s with host := { s.host with ilogHead := BitVec.ofNat 64 (64 * v.toNat) } } else s))

/-- What a kill has to zero can be zeroed: the rails are off, or the die is up and neither a bring-up nor a return after tier 4 is under way (R369,
R371). -/
def Sys2Proof.Claims.mayZero (p : Power) : Prop :=
  p.phase = .standby ∨ p.phase = .standbyRelay ∨ (p.dieOn = true ∧ p.fastResume = false ∧ p.phase ≠ .ramp ∧ p.phase ≠ .stackInit)

/-- Loads (R23, R353 to R355): LOAD is accepted in EMPTY with hall time LOCKED over a primary path of at most 500 ps, the scrub done and DIRTY 0,
else refused with STATE; the check pass over a staged image that can be read ends as the checks say, in the refusal with its code, item and
log entry and nothing written, or in the write pass; the write pass ends in a loaded image, or stops with DIRTY; LOCK freezes the key slots
(R349). That the two passes end by commands, the second with the uncorrectable block as its operand, is log entry 29, and the record
layout behind the checks log entry 20. Kills (R370 to R372): the halt record, the scrubbed die, RWL registers at
their values of Table 16.3 and TIME_BEACON_CFG kept, in any phase; a retained kill keeps the die until SCRUB; windows close at
the next mark, the table is empty 65,536 ns after it, and SCRUB_DONE zeroes the ranges and leaves EMPTY (R356). The zeroing waits for the
rails and the stacks to be up where a bring-up or a return after tier 4 is under way (R369). -/
def Obligations.LoadsKillsAndScrubs : Prop :=
  ∀ s : State,
    (s.loader.busy = false →
      (s.seq.state = .empty → s.time.osc = .locked → bits s.time.pathBudget 15 0 ≤ 500 → s.pwr.phase = .ready → s.pwr.killPending = false →
        s.loader.dirty = false →
        exec .imageLoad s = .next { s with loader := { s.loader with busy := true, stepNo := 0, pass := false, stagedTouched := false } }) ∧
      (s.seq.state ≠ .empty ∨ s.time.osc ≠ .locked ∨ 500 < bits s.time.pathBudget 15 0 ∨ s.pwr.phase ≠ .ready ∨ s.pwr.killPending = true ∨
          s.loader.dirty = true →
        exec .imageLoad s = .next (logErr errImageRefused none 1 0 { s with loader := { s.loader with
          busy := false, result := 1, faultOff := 0 } })) ∧
      (∀ stop, exec (.loadComplete stop) s = .next s) ∧
      exec .keyLock s = .next (if s.seq.state = .empty then
        { s with loader := { s.loader with keyCfg := s.loader.keyCfg ||| 0x80000000 } } else s)) ∧
    (s.loader.busy = true → exec .imageLoad s = .next s) ∧
    (s.loader.busy = true → s.loader.stagedTouched = false → s.errs = [] → s.pwr.snapshot = none →
      ∀ l, l = mreads s.dram s.stageBase s.stageLen →
      (s.loader.pass = false → ∀ stop,
        (∀ r, checkImage l s.stageLen s = .error r → exec (.loadComplete stop) s = .next (
          logErr errImageRefused none (BitVec.ofNat 64 r.1) (BitVec.ofNat 64 r.2) { s with loader := { s.loader with
            busy := false, result := BitVec.ofNat 8 r.1, faultOff := BitVec.ofNat 64 r.2 } })) ∧
        (∀ v, checkImage l s.stageLen s = .ok v → exec (.loadComplete stop) s = .next { s with loader := { s.loader with
          pass := true, regions := (regionsOf l s).map fun x => x.2 } })) ∧
      (∀ v, s.loader.pass = true → checkImage l s.stageLen s = .ok v →
        (∃ t : State, exec (.loadComplete none) s = .next t ∧ t.loader.busy = false ∧ t.loader.result = 0 ∧ t.loader.faultOff = 0 ∧
          t.seq.state ≠ .empty ∧ t.seq.programId.toNat = ofBytes ((l.drop 24).take 8)) ∧
        (∀ (k : Byte) (o : U64), k.toNat ≤ 0x12 → o.toNat < s.stageLen → ∃ t : State, exec (.loadComplete (some (k, o))) s = .next t ∧
          t.loader.busy = false ∧ t.loader.dirty = true ∧ t.loader.stepNo = k ∧ t.loader.result = 0x0F ∧ t.loader.faultOff = o) ∧
        (∀ (k : Byte) (o : U64), 0x12 < k.toNat ∨ s.stageLen ≤ o.toNat → exec (.loadComplete (some (k, o))) s = .next s))) ∧
    (s.loader.busy = false → s.pwr.killPending = true → s.pwr.retained = false →
      ∀ source retain, exec (.kill source retain) s = .next s) ∧
    (s.loader.busy = false → s.pwr.killPending = false → s.seq.state ≠ .halted →
      ∀ source retain, ∃ t : State, exec (.kill source retain) s = .next t ∧ t.pwr.killPending = true ∧
        t.pwr.phase = (if s.pwr.phase ∈ [.ready, .parked, .suspended, .killed] then .killed else s.pwr.phase) ∧
        t.time.beaconCfg = s.time.beaconCfg ∧ t.time.hallTime = s.time.hallTime ∧ t.dram = s.dram ∧
        t.fab.windows = s.fab.windows.map (fun e => (e.1, closeWin s.seq.nextNum e.2)) ∧
        t.pwr.zeroRanges = killRanges s ∧ t.pwr.closeAt = (if s.fab.windows = [] then none else some s.seq.nextAt) ∧
        (s.seq.state = .empty → t.seq.state = .empty ∧ t.mgmt = s.mgmt) ∧
        (s.seq.state ≠ .empty → t.seq.state = .halted ∧ t.mgmt.halt.valid = true ∧ t.mgmt.halt.reason = 0x11 ∧
          t.mgmt.halt.engine = 0x13 ∧ t.mgmt.halt.noCore = true ∧
          t.mgmt.halt.detail0 = (match source with | .bar0 => 0 | .smbus => 1 | .supply => 2)) ∧
        (if retain = true ∧ s.pwr.debugEnable = true ∧ source ≠ .supply ∧ s.seq.state ≠ .empty then
          t.pwr.retained = true ∧ t.cores = s.cores ∧ t.fab.c0Bound = s.fab.c0Bound
        else t.pwr.retained = s.pwr.retained ∧ t.cores = Vector.replicate 32 {} ∧ t.groups = [] ∧
          t.seq.cfg = 0 ∧ t.seq.tableLen = 0 ∧
          t.time.slipCfg = 0x00800040 ∧ t.time.legCfg = 0x0000003C ∧ t.clk.holdCfg = 0x00271010 ∧ t.fab.c0Bound = 0x3C4 ∧
          t.fab.drain = 0x400 ∧ t.host.musterDepth = 2 ∧ t.fab.route = [] ∧ t.pwr.suspBaseLo = 0 ∧ t.pwr.resumeLo = 0 ∧
          (s.pwr.retained = false → (t.pwr.zeroing = true ↔ s.fab.windows = [] ∧ Claims.mayZero s.pwr ∨ s.pwr.zeroing = true)))) ∧
    (s.pwr.retained = true → s.pwr.killPending = true →
      ∃ t : State, exec .scrub s = .next t ∧ t.pwr.retained = false ∧ t.cores = Vector.replicate 32 {} ∧ t.groups = [] ∧
        t.dram = s.dram ∧ t.seq = { s.seq with cfg := 0, tableBaseLo := 0, tableBaseHi := 0, tableLen := 0 } ∧ t.mgmt = s.mgmt ∧
        (t.pwr.zeroing = true ↔ s.pwr.closeAt = none ∧ Claims.mayZero s.pwr ∨ s.pwr.zeroing = true)) ∧
    (s.pwr.retained = false → exec .scrub s = .next s) ∧
    (∀ u : U64, s.pwr.closeAt = some u →
      (s.now < u.toNat + 65536 → exec .windowTableEmpty s = .next s) ∧
      (u.toNat + 65536 ≤ s.now → ∃ t : State, exec .windowTableEmpty s = .next t ∧
        t = { s with fab := { s.fab with windows := [] }, pwr := { s.pwr with closeAt := none, zeroing := t.pwr.zeroing } } ∧
        (t.pwr.zeroing = true ↔ s.pwr.killPending = true ∧ s.pwr.retained = false ∧ Claims.mayZero s.pwr ∨ s.pwr.zeroing = true))) ∧
    (s.pwr.closeAt = none → exec .windowTableEmpty s = .next s) ∧
    (s.pwr.zeroing = false → exec .scrubDone s = .next s) ∧
    (s.pwr.zeroing = true → ∃ t : State, exec .scrubDone s = .next t ∧ t.seq.state = .empty ∧
      t.pwr.phase = (if s.pwr.phase = .killed then .ready else s.pwr.phase) ∧
      t.pwr.killPending = false ∧ t.pwr.zeroing = false ∧ t.loader = { s.loader with dirty := false, regions := [] } ∧
      t.pwr.event = setBit s.pwr.event 4 true ∧ t.cores = s.cores ∧ t.mgmt = s.mgmt ∧ t.time = s.time ∧
      (∀ a, (∃ r ∈ s.pwr.zeroRanges, inRange r a = true) → mread t.dram a = 0) ∧
      ∀ a, (∀ r ∈ s.pwr.zeroRanges, inRange r a = false) → mread t.dram a = mread s.dram a)

/-- Every stack is out of self-refresh, with one tide at once where it was in it (R283). -/
def Sys2Proof.Claims.awake (s t : State) : Prop :=
  ∀ i, (t.stack i).selfRefresh = false ∧ ((s.stack i).selfRefresh = true → (t.stack i).tideUntil = some (s.time.hallTime + 220))

/-- SUSPEND and its four refusals (R374, Table 15.4); the snapshot once R375's conditions hold, and not while the leg, a launch queue
or the 65,536 ns are outstanding (the layout of the suspend area is open, log entry 25), after which at tier 3 and deeper the stacks serve the writes
that wait and enter self-refresh (R282); RESUME of a suspension (R376), with MARK_PAST and MARK_ALIGN for a time that is too early or not a
multiple of 16 ns, and at tier 3 (R367), once the input is back (1,000 samples at or above 47.0 V, log entry 34), of a
suspension or of a park, whose leg starts at once where its mark has passed (R36); the stacks leave self-refresh with one tide (R283);
SERVICE_CLEAR while no condition holds (R379). -/
def Obligations.SuspensionResumeAndService : Prop :=
  ∀ s : State,
    let m := (s.pwr.suspMarkHi ++ s.pwr.suspMarkLo).toNat
    (4 < s.seq.partSize.toNat → exec .suspend s = .next (logErr errSuspendRefused none 0 0 s)) ∧
    (s.seq.partSize.toNat ≤ 4 → s.seq.state ≠ .running → s.seq.state ≠ .gated →
      exec .suspend s = .next (logErr errSuspendRefused none 1 0 s)) ∧
    (s.seq.partSize.toNat ≤ 4 → s.seq.state = .running ∨ s.seq.state = .gated →
      (m ≤ s.seq.mark.toNat → exec .suspend s = .next (logErr errSuspendRefused none 2 0 s)) ∧
      (s.seq.mark.toNat < m → s.suspendAreaOk = false → exec .suspend s = .next (logErr errSuspendRefused none 3 0 s)) ∧
      (s.seq.mark.toNat < m → s.suspendAreaOk = true → ∃ t : State, exec .suspend s = .next t ∧
        t = { s with seq := { s.seq with suspendReq := some (BitVec.ofNat 64 m), suspendAt := t.seq.suspendAt } } ∧
        (m = s.seq.nextNum → t.seq.suspendAt = s.seq.nextAt))) ∧
    (s.snapshotReady = true → ∃ t : State, exec .suspendSnapshot s = .next t ∧ t.seq = { s.seq with suspended := true } ∧
      t.pwr.phase = .suspended ∧ t.pwr.event = setBit s.pwr.event 5 true ∧ t.pwr.saved = true ∧
      (s.pwr.tier.val < 3 → t.cores = s.cores ∧ t.mgmt = s.mgmt ∧ t.fab = s.fab ∧ t.stks = s.stks ∧
        ∀ a, a < s.pwr.suspBase ∨ s.pwr.suspBase + 1073741824 ≤ a → mread t.dram a = mread s.dram a) ∧
      (3 ≤ s.pwr.tier.val → ∀ i, ((t.stack i).selfRefresh = true ∨ (t.stack i).toRefresh = true) ∧
        ((s.stack i).toRefresh = false → (∀ u ∈ (s.stack i).pcs.toList, ∀ r ∈ u.q, r.writes = false) → (t.stack i).selfRefresh = true))) ∧
    (s.seq.suspendReq ≠ some (s.seq.legMark + 1) ∨ s.seq.state ≠ .gated ∨ s.fab.queues ≠ [] ∨ (∃ p, (s.port p).retry ≠ []) ∨
        s.now < s.seq.suspendAt.toNat + 65536 → exec .suspendSnapshot s = .next s) ∧
    (let r := s.pwr.resumeHi ++ s.pwr.resumeLo;
      s.seq.suspended = true → s.pwr.tier ≠ 3 ∨ s.pwr.resumeOk = true →
      (s.now + 20000000 ≤ r.toNat → r.toNat % 16 = 0 → s.pwr.tier ≠ 3 ∨ s.host.deferred = [] ∧ s.host.tasks = [] →
        ∃ t : State, exec .resume s = .next t ∧
        t.seq = { s.seq with
          suspended := false, suspendReq := none, nextAt := r, nextBase := r, kMax := tset 0 s.seq.kMax s.seq.nextNum 0
          horizonDone := false } ∧
        t.pwr.tier = (if s.pwr.tier = 3 then 0 else s.pwr.tier) ∧
        t.pwr.phase = .ready ∧ t.cores = s.cores.map reregister ∧ Claims.awake s t ∧ t.dram = s.dram) ∧
      (r.toNat < s.now + 20000000 → r.toNat % 16 = 0 → exec .resume s = .next (logErr errMarkPast none r s.time.hallTime s)) ∧
      (s.now + 20000000 ≤ r.toNat → r.toNat % 16 ≠ 0 → exec .resume s = .next (logErr errMarkAlign none r s.time.hallTime s)) ∧
      (r.toNat < s.now + 20000000 → r.toNat % 16 ≠ 0 →
        exec .resume s = .next (logErr errMarkAlign none r s.time.hallTime (logErr errMarkPast none r s.time.hallTime s)))) ∧
    (s.pwr.tier = 3 → s.pwr.resumeOk = false → exec .resume s = .next s) ∧
    (s.pwr.tier = 3 → s.pwr.resumeOk = true → s.host.deferred = [] → s.host.tasks = [] → s.seq.suspended = false → s.seq.parked = true →
      s.seq.state = .gated →
      (s.seq.mark = s.seq.legMark → ∃ t : State, exec .resume s = .next t ∧ t.seq = { s.seq with parked := false } ∧
        t.pwr.tier = 0 ∧ t.pwr.phase = .ready ∧ Claims.awake s t ∧ t.cores = s.cores ∧ t.dram = s.dram) ∧
      (s.seq.legMark.toNat < s.seq.mark.toNat → ∃ t : State, exec .resume s = .next t ∧ t.seq.parked = false ∧
        t.seq.state = .running ∧ t.seq.cycle = 0 ∧ t.seq.legMark = s.seq.legMark + 1 ∧ t.seq.cur = s.seq.next ∧
        t.seq.esc = (if s.clk.lateCounts = true then 1 else 0) ∧
        t.pwr.tier = 0 ∧ t.pwr.phase = .ready ∧ Claims.awake s t ∧ t.dram = s.dram ∧
        ∀ c, (t.core c).cmdIdx = 0 ∧ (t.core c).spad = (s.core c).spad)) ∧
    (s.seq.suspended = false → s.pwr.tier ≠ 3 → exec .resume s = .next s) ∧
    exec .serviceClear s = .next (if s.svcAny = true then s else { s with pwr := { s.pwr with svcRequest := false } })
end

