-- ==== Sys2Proof/Laws/Memory.lean ====
section
/-!
SUPPORT. Sparse tables and byte memories: read after write, the canonical form, and that every operation keeps it.
-/
namespace Sys2Proof.Machine

/-! ## Read after write -/

theorem tget_tset_same {α : Type} [DecidableEq α] (d : α) (m : Tbl α) (k : Nat) (v : α) (h : twf d m = true) :
    tget d (tset d m k v) k = v := by
  induction m with
  | nil => by_cases hv : v = d <;> simp [tset, tget, hv]
  | cons e t ih =>
    obtain ⟨a, w⟩ := e
    simp only [twf, Bool.and_eq_true, List.all_eq_true, decide_eq_true_eq] at h
    obtain ⟨⟨-, hlt⟩, ht⟩ := h
    have out : ∀ l : Tbl α, (∀ e ∈ l, k < e.1) → tget d l k = d := by
      intro l hl
      induction l with
      | nil => rfl
      | cons e t ih =>
        have := hl e (by simp)
        simp only [tget]
        rw [if_neg (by omega)]
        exact ih fun e he => hl e (by simp [he])
    unfold tset
    split
    · split
      · subst v
        exact out _ (by simp only [List.mem_cons, forall_eq_or_imp]; exact ⟨by omega, fun e he => by have := hlt e he; omega⟩)
      · simp [tget]
    · split
      · split
        · subst v; subst k; exact out _ hlt
        · simp [tget]
      · simp only [tget]
        rw [if_neg (by omega)]
        exact ih ht

theorem tget_tset_other {α : Type} [DecidableEq α] (d : α) (m : Tbl α) (k j : Nat) (v : α) (h : j ≠ k) :
    tget d (tset d m k v) j = tget d m j := by
  induction m with
  | nil => by_cases hv : v = d <;> simp [tset, tget, hv, h.symm]
  | cons e t ih =>
    obtain ⟨a, w⟩ := e
    unfold tset
    split
    · split
      · rfl
      · simp [tget, h.symm]
    · split
      · subst k
        split <;> simp [tget, h.symm]
      · simp only [tget, ih]

/-! ## The canonical form -/

theorem twf_tset {α : Type} [DecidableEq α] (d : α) (m : Tbl α) (k : Nat) (v : α) (h : twf d m = true) :
    twf d (tset d m k v) = true := by
  have key : ∀ (m : Tbl α) (b : Nat), b < k → (m.all fun e => decide (b < e.1)) = true →
      ((tset d m k v).all fun e => decide (b < e.1)) = true := by
    intro m b hb hm
    induction m with
    | nil => by_cases hv : v = d <;> simp [tset, hv, hb]
    | cons e t ih =>
      obtain ⟨a, w⟩ := e
      simp only [List.all_cons, Bool.and_eq_true, decide_eq_true_eq] at hm
      unfold tset
      split
      · split
        · simp only [List.all_cons, Bool.and_eq_true, decide_eq_true_eq]; exact hm
        · simp only [List.all_cons, Bool.and_eq_true, decide_eq_true_eq]; exact ⟨hb, hm⟩
      · split
        · split
          · exact hm.2
          · simp only [List.all_cons, Bool.and_eq_true, decide_eq_true_eq]; exact ⟨hb, hm.2⟩
        · simp only [List.all_cons, Bool.and_eq_true, decide_eq_true_eq]
          exact ⟨hm.1, ih hm.2⟩
  induction m with
  | nil => by_cases hv : v = d <;> simp [tset, twf, hv]
  | cons e t ih =>
    obtain ⟨a, w⟩ := e
    have h0 := h
    simp only [twf, Bool.and_eq_true, decide_eq_true_eq] at h
    obtain ⟨⟨hw, hlt⟩, ht⟩ := h
    unfold tset
    split
    · split
      · exact h0
      · rename_i hk hv
        simp only [twf, Bool.and_eq_true, decide_eq_true_eq, List.all_cons]
        refine ⟨⟨hv, hk, ?_⟩, ⟨hw, hlt⟩, ht⟩
        rw [List.all_eq_true] at hlt ⊢
        intro e he
        have := hlt e he
        simp only [decide_eq_true_eq] at this ⊢
        omega
    · split
      · split
        · exact ht
        · subst k
          simp only [twf, Bool.and_eq_true, decide_eq_true_eq]
          exact ⟨⟨‹_›, hlt⟩, ht⟩
      · simp only [twf, Bool.and_eq_true, decide_eq_true_eq]
        exact ⟨⟨hw, key t a (by omega) hlt⟩, ih ht⟩

theorem twf_filter {α : Type} [DecidableEq α] (d : α) (m : Tbl α) (p : Nat × α → Bool) (h : twf d m = true) :
    twf d (m.filter p) = true := by
  induction m with
  | nil => rfl
  | cons e t ih =>
    obtain ⟨a, w⟩ := e
    simp only [twf, Bool.and_eq_true, decide_eq_true_eq] at h
    obtain ⟨⟨hw, hlt⟩, ht⟩ := h
    by_cases hp : p (a, w) = true
    · rw [List.filter_cons_of_pos hp]
      simp only [twf, Bool.and_eq_true, decide_eq_true_eq]
      refine ⟨⟨hw, ?_⟩, ih ht⟩
      rw [List.all_eq_true] at hlt ⊢
      exact fun e he => hlt e (List.mem_filter.mp he).1
    · rw [List.filter_cons_of_neg hp]
      exact ih ht

theorem mwrite_wf (m : Mem) (a : Nat) (b : Byte) (h : Memory.wf m = true) : Memory.wf (mwrite m a b) = true :=
  twf_tset 0 m a b h

theorem mwrites_wf (bs : List Byte) (m : Mem) (a : Nat) (h : Memory.wf m = true) : Memory.wf (mwrites m a bs) = true := by
  induction bs generalizing m a with
  | nil => exact h
  | cons b t ih => exact ih _ _ (mwrite_wf m a b h)

theorem mzero_wf (m : Mem) (lo n : Nat) (h : Memory.wf m = true) : Memory.wf (mzero m lo n) = true :=
  twf_filter 0 m _ h

/-! ## Bytes after a write -/

theorem mread_mwrite (m : Mem) (a x : Nat) (b : Byte) (h : Memory.wf m = true) :
    mread (mwrite m a b) x = if x = a then b else mread m x := by
  split
  · subst x; exact tget_tset_same 0 m a b h
  · exact tget_tset_other 0 m a x b ‹_›

theorem mread_mwrites_other (bs : List Byte) (m : Mem) (a x : Nat) (h : x < a ∨ a + bs.length ≤ x) :
    mread (mwrites m a bs) x = mread m x := by
  induction bs generalizing m a with
  | nil => rfl
  | cons b t ih =>
    simp only [List.length_cons] at h
    rw [mwrites, ih _ _ (by omega)]
    exact tget_tset_other 0 m a x b (by omega)

theorem mread_mwrites (bs : List Byte) (m : Mem) (a i : Nat) (h : Memory.wf m = true) (hi : i < bs.length) :
    mread (mwrites m a bs) (a + i) = bs[i] := by
  induction bs generalizing m a i with
  | nil => simp at hi
  | cons b t ih =>
    cases i with
    | zero =>
      rw [mwrites, mread_mwrites_other _ _ _ _ (by omega)]
      simp [mread_mwrite _ _ _ _ h]
    | succ i =>
      have := ih (mwrite m a b) (a + 1) i (mwrite_wf m a b h) (by simpa using hi)
      rw [show a + (i + 1) = a + 1 + i by omega]
      simpa [mwrites] using this

theorem mreads_mwrites (bs : List Byte) (m : Mem) (a : Nat) (h : Memory.wf m = true) :
    mreads (mwrites m a bs) a bs.length = bs := by
  apply List.ext_getElem
  · simp [mreads]
  · intro i h1 h2
    simp only [mreads, List.getElem_map, List.getElem_range]
    exact mread_mwrites bs m a i h h2

theorem ofBytes_toBytes (n v : Nat) : ofBytes (toBytes n v) = v % 256 ^ n := by
  induction n generalizing v with
  | zero => simp [toBytes, ofBytes, Nat.mod_one]
  | succ n ih =>
    have : (BitVec.ofNat 8 v).toNat = v % 256 := by simp
    rw [toBytes, ofBytes, ih, this, Nat.pow_succ', Nat.mod_mul]

@[simp] theorem toBytes_length (n v : Nat) : (toBytes n v).length = n := by
  induction n generalizing v with
  | zero => rfl
  | succ n ih => simp [toBytes, ih]

end Sys2Proof.Machine
end

