-- ==== Sys2Proof/Laws/State.lean ====
section
/-!
SUPPORT. What an update of one place of the state leaves at every place, and what each shared operation can change at all.
-/
namespace Sys2Proof.Machine

/-! ## Reading after an update -/

@[simp] theorem vector_get_set {α : Type} {n : Nat} (v : Vector α n) (i k : Fin n) (x : α) :
    (v.set i.val x i.isLt).get k = if k = i then x else v.get k := by
  have h : ∀ (w : Vector α n) (j : Fin n), w.get j = w[j.val] := fun _ _ => rfl
  rw [h, h, Vector.getElem_set]
  by_cases e : k = i
  · subst e; simp
  · rw [if_neg e, if_neg (fun q => e (Fin.ext q.symm))]

@[simp] theorem vector_get_map {α β : Type} {n : Nat} (v : Vector α n) (f : α → β) (k : Fin n) : (v.map f).get k = f (v.get k) := by
  have h : ∀ {γ : Type} (w : Vector γ n) (j : Fin n), w.get j = w[j.val] := fun _ _ => rfl
  rw [h, h, Vector.getElem_map]

@[simp] theorem vector_get_replicate {α : Type} {n : Nat} (x : α) (k : Fin n) : (Vector.replicate n x).get k = x := by
  have h : ∀ (w : Vector α n) (j : Fin n), w.get j = w[j.val] := fun _ _ => rfl
  rw [h, Vector.getElem_replicate]

@[simp] theorem updCore_core (s : State) (c k : Fin 32) (f : Core → Core) :
    (s.updCore c f).core k = if k = c then f (s.core c) else s.core k := vector_get_set _ _ _ _
@[simp] theorem updPort_port (s : State) (p k : Fin 16) (f : FabPort → FabPort) :
    (s.updPort p f).port k = if k = p then f (s.port p) else s.port k := vector_get_set _ _ _ _
@[simp] theorem updStack_stack (s : State) (i k : Fin 16) (f : StackCtl → StackCtl) :
    (s.updStack i f).stack k = if k = i then f (s.stack i) else s.stack k := vector_get_set _ _ _ _
@[simp] theorem updRegion_region (s : State) (r k : Fin 8) (f : Region → Region) :
    (s.updRegion r f).region k = if k = r then f (s.region r) else s.region k := vector_get_set _ _ _ _
@[simp] theorem updArr_arr (k : Core) (i j : Fin 2) (f : ArrayUnit → ArrayUnit) :
    (k.updArr i f).arr j = if j = i then f (k.arr i) else k.arr j := vector_get_set _ _ _ _
@[simp] theorem updEng_eng (k : Core) (i j : Fin 4) (f : StreamEng → StreamEng) :
    (k.updEng i f).eng j = if j = i then f (k.eng i) else k.eng j := vector_get_set _ _ _ _
@[simp] theorem updPc_pc (c : StackCtl) (i j : Fin 32) (f : PcQueue → PcQueue) :
    (c.updPc i f).pc j = if j = i then f (c.pc i) else c.pc j := vector_get_set _ _ _ _

/-! ## Tables -/

/-- Any table reads a value other than the default after it was written. -/
theorem tget_tset_new {α : Type} [DecidableEq α] (d : α) (t : Tbl α) (k : Nat) (v : α) (n : v ≠ d) : tget d (tset d t k v) k = v := by
  induction t with
  | nil => simp [tset, n, tget]
  | cons e t ih =>
    obtain ⟨a, w⟩ := e
    simp only [tset]
    split
    · simp [n, tget]
    · split
      · rename_i eq; subst eq; simp [n, tget]
      · rename_i h g
        simp only [tget]
        rw [if_neg (fun q => g q.symm)]
        exact ih

/-! ## What the shared operations can change -/

theorem setEvent_frame (b : Nat) (s : State) :
    setEvent b s = { s with pwr := { s.pwr with event := setBit s.pwr.event b true, eventNow := (setEvent b s).pwr.eventNow } } := rfl

theorem setIrq_frame (v : Fin 5) (s : State) : setIrq v s = { s with host := (setIrq v s).host } := by
  unfold setIrq; dsimp only; split <;> rfl

theorem logErr_frame (code : U16) (core : Option (Fin 32)) (d0 d1 : U64) (s : State) :
    logErr code core d0 d1 s = { s with mgmt := (logErr code core d0 d1 s).mgmt } := by
  cases h : s.mgmt.errLog.getLast? with
  | none => simp only [logErr, h]
  | some e => cases core <;> (simp only [logErr, h]; split <;> rfl)

/-- Logging leaves the halt record and the data windows of the management block. -/
theorem logErr_halt (code : U16) (core : Option (Fin 32)) (d0 d1 : U64) (s : State) :
    (logErr code core d0 d1 s).mgmt.halt = s.mgmt.halt := by
  cases h : s.mgmt.errLog.getLast? with
  | none => simp only [logErr, h]
  | some e => cases core <;> (simp only [logErr, h]; split <;> rfl)

theorem c0queue_frame (p : Fin 16) (m : C0Msg) (s : State) : c0queue p m s = { s with fab := (c0queue p m s).fab } := rfl

/-- Folding steps that change the fabric alone changes the fabric alone. -/
theorem foldS_fab {α : Type} (f : α → State → State) (h : ∀ a s, f a s = { s with fab := (f a s).fab }) :
    ∀ (l : List α) (s : State), foldS f l s = { s with fab := (foldS f l s).fab }
  | [], _ => rfl
  | a :: l, s => by
    have e : foldS f (a :: l) s = foldS f l (f a s) := rfl
    have ih := foldS_fab f h l (f a s)
    rw [e, ih]
    generalize (foldS f l (f a s)).fab = x
    have q := h a s
    generalize (f a s).fab = y at q
    rw [q]

theorem c0flood_frame (p : Option (Fin 16)) (m : C0Msg) (s : State) : c0flood p m s = { s with fab := (c0flood p m s).fab } :=
  foldS_fab _ (fun a s => by split <;> rfl) _ _

theorem c0route_frame (d : BitVec 12) (m : C0Msg) (s : State) : c0route d m s = { s with fab := (c0route d m s).fab } := by
  unfold c0route; simp only []; split <;> (try split) <;> rfl

theorem c0send_frame (d : BitVec 12) (m : C0Msg) (s : State) : c0send d m s = { s with fab := (c0send d m s).fab } := by
  unfold c0send; simp only []; rw [c0route_frame]

theorem sendStatus_frame (s : State) : sendStatus s = { s with fab := (sendStatus s).fab } := by
  unfold sendStatus; simp only []; rw [c0flood_frame]

/-- The floods of a message queue it on ports alone: the rest of the fabric is as it was. -/
theorem c0flood_ports (p : Option (Fin 16)) (m : C0Msg) (s : State) :
    (c0flood p m s).fab = { s.fab with ports := (c0flood p m s).fab.ports } := by
  have one : ∀ (l : List (Fin 16)) (s : State),
      ∃ x, (foldS (fun q s => if (s.port q).state = .up ∧ p ≠ some q then c0queue q m s else s) l s).fab = { s.fab with ports := x } := by
    intro l
    induction l with
    | nil => intro s; exact ⟨s.fab.ports, rfl⟩
    | cons a l ih =>
      intro s
      obtain ⟨x, e⟩ := ih (if (s.port a).state = .up ∧ p ≠ some a then c0queue a m s else s)
      refine ⟨x, ?_⟩
      have e' : (foldS (fun q s => if (s.port q).state = .up ∧ p ≠ some q then c0queue q m s else s) (a :: l) s).fab = _ := e
      rw [e']
      split <;> rfl
  obtain ⟨x, e⟩ := one allPorts s
  have e' : (c0flood p m s).fab = { s.fab with ports := x } := e
  rw [e']

/-- A flood changes the ports alone. -/
theorem c0flood_eq (p : Option (Fin 16)) (m : C0Msg) (s : State) :
    ∃ x, c0flood p m s = { s with fab := { s.fab with ports := x } } := by
  refine ⟨(c0flood p m s).fab.ports, ?_⟩
  have a := c0flood_frame p m s
  have b := c0flood_ports p m s
  rw [b] at a; exact a

/-- The port a flood came by does not get it. -/
theorem c0flood_from (p : Fin 16) (m : C0Msg) (s : State) : (c0flood (some p) m s).port p = s.port p := by
  have one : ∀ (l : List (Fin 16)) (s : State),
      (foldS (fun q s => if (s.port q).state = .up ∧ some p ≠ some q then c0queue q m s else s) l s).port p = s.port p := by
    intro l
    induction l with
    | nil => intro s; rfl
    | cons a l ih =>
      intro s
      refine (ih _).trans ?_
      show (if (s.port a).state = .up ∧ some p ≠ some a then c0queue a m s else s).port p = s.port p
      split
      · rename_i h
        unfold c0queue
        rw [updPort_port, if_neg (fun e => h.2 (congrArg some e))]
      · rfl
  exact one _ _

/-- A queued message changes its own port alone. -/
theorem c0queue_port (q p : Fin 16) (m : C0Msg) (s : State) : (c0queue q m s).port p = if p = q then (c0queue p m s).port p else s.port p := by
  split
  · rename_i h; rw [h]
  · rename_i h; unfold c0queue; rw [updPort_port, if_neg h]

/-- What a port queues depends on that port and the time alone. -/
theorem c0queue_same (p : Fin 16) (m : C0Msg) (s t : State) (h : t.port p = s.port p) (k : t.time = s.time) :
    (c0queue p m t).port p = (c0queue p m s).port p := by
  unfold c0queue; rw [updPort_port, updPort_port, if_pos rfl, if_pos rfl, h, k]

/-- A flood queues its message on every UP port but the one it came by (R299). -/
theorem c0flood_port (from_ : Option (Fin 16)) (m : C0Msg) (s : State) (p : Fin 16) :
    (c0flood from_ m s).port p = if (s.port p).state = .up ∧ from_ ≠ some p then (c0queue p m s).port p else s.port p := by
  have one : ∀ (l : List (Fin 16)) (u : State), l.Nodup → u.time = s.time → (p ∈ l → u.port p = s.port p) →
      (foldS (fun q s => if (s.port q).state = .up ∧ from_ ≠ some q then c0queue q m s else s) l u).port p =
        if p ∈ l ∧ (s.port p).state = .up ∧ from_ ≠ some p then (c0queue p m s).port p else u.port p := by
    intro l
    induction l with
    | nil => intro u _ _ _; simp [foldS]
    | cons a l ih =>
      intro u hn ht hp
      obtain ⟨na, nl⟩ := List.nodup_cons.mp hn
      show (foldS _ l (if (u.port a).state = .up ∧ from_ ≠ some a then c0queue a m u else u)).port p = _
      have step : (if (u.port a).state = .up ∧ from_ ≠ some a then c0queue a m u else u).port p =
          if p = a ∧ (s.port p).state = .up ∧ from_ ≠ some p then (c0queue p m s).port p else u.port p := by
        by_cases e : p = a
        · subst e
          have := hp (List.mem_cons_self ..)
          rw [this]
          by_cases c : (s.port p).state = .up ∧ from_ ≠ some p
          · rw [if_pos c, if_pos ⟨rfl, c⟩, c0queue_same p m s u this ht]
          · rw [if_neg c, if_neg (fun q => c q.2), this]
        · have n : ¬ (p = a ∧ (s.port p).state = .up ∧ from_ ≠ some p) := fun q => e q.1
          rw [if_neg n]
          split
          · rw [c0queue_port, if_neg e]
          · rfl
      rw [ih _ nl (by split <;> exact ht) ?_]
      · by_cases e : p = a
        · subst e
          rw [if_neg (fun q => na q.1), step]
          by_cases c : (s.port p).state = .up ∧ from_ ≠ some p
          · rw [if_pos ⟨rfl, c⟩, if_pos ⟨List.mem_cons_self .., c⟩]
          · rw [if_neg (fun q => c q.2), if_neg (fun q => c q.2)]
        · have n : ¬ (p = a ∧ (s.port p).state = .up ∧ from_ ≠ some p) := fun q => e q.1
          rw [step, if_neg n]
          simp [e]
      · intro h
        have e : p ≠ a := fun q => na (q ▸ h)
        have n : ¬ (p = a ∧ (s.port p).state = .up ∧ from_ ≠ some p) := fun q => e q.1
        rw [step, if_neg n]
        exact hp (List.mem_cons_of_mem _ h)
  have := one allPorts s (by decide) rfl (fun _ => rfl)
  have mem : p ∈ allPorts := List.mem_ofFn.mpr ⟨p, rfl⟩
  simp only [mem, true_and] at this
  exact this

/-- A routed message waits at both ports of its destination's route entry, if that is valid, and nowhere else (R300). -/
theorem c0route_port (d : BitVec 12) (m : C0Msg) (s : State) (p : Fin 16) :
    (c0route d m s).port p =
      if bit (tget 0 s.fab.route d.toNat) 31 = true ∧
        (p = portOf (bits (tget 0 s.fab.route d.toNat) 3 0) ∨ p = portOf (bits (tget 0 s.fab.route d.toNat) 7 4))
      then (c0queue p m s).port p else s.port p := by
  unfold c0route
  dsimp only
  generalize tget 0 s.fab.route d.toNat = r
  generalize portOf (bits r 3 0) = a
  generalize portOf (bits r 7 4) = b
  by_cases v : bit r 31 = true
  · rw [if_pos v]
    by_cases e : a = b
    · rw [if_pos e, c0queue_port a p]
      by_cases q : p = a
      · rw [if_pos q, if_pos ⟨v, .inl q⟩]
      · rw [if_neg q, if_neg (fun h => h.2.elim q (fun x => q (x.trans e.symm)))]
    · rw [if_neg e, c0queue_port b p, c0queue_port a p]
      by_cases q : p = b
      · have n : p ≠ a := fun h => e (h.symm.trans q)
        rw [if_pos q, if_pos ⟨v, .inr q⟩]
        exact c0queue_same p m s _ (by rw [c0queue_port, if_neg n]) rfl
      · rw [if_neg q]
        by_cases n : p = a
        · rw [if_pos n, if_pos ⟨v, .inl n⟩]
        · rw [if_neg n, if_neg (fun h => h.2.elim n q)]
  · rw [if_neg v, if_neg (fun h => v h.1)]

/-- A routed message reaches the ports of the fabric alone. -/
theorem c0route_eq (d : BitVec 12) (m : C0Msg) (s : State) : ∃ x, c0route d m s = { s with fab := { s.fab with ports := x } } := by
  unfold c0route
  dsimp only
  split
  · split <;> exact ⟨_, rfl⟩
  · exact ⟨s.fab.ports, rfl⟩

/-- What a message of this module to another changes: the ports and the next RSEQ (R297). -/
theorem c0send_eq (d : BitVec 12) (m : C0Msg) (s : State) :
    ∃ x, c0send d m s = { s with fab := { s.fab with rseq := s.fab.rseq + 1, ports := x } } := by
  unfold c0send
  dsimp only
  obtain ⟨x, e⟩ := c0route_eq d (setBits (setBits (setBits m 31 16 s.module.toNat) 47 32 d.toNat) 63 48 s.fab.rseq.toNat)
    { s with fab := { s.fab with rseq := s.fab.rseq + 1 } }
  exact ⟨x, e⟩

/-- Where a message of this module to another waits (R300). -/
theorem c0send_port (d : BitVec 12) (m : C0Msg) (s : State) (p : Fin 16) :
    (c0send d m s).port p =
      if bit (tget 0 s.fab.route d.toNat) 31 = true ∧
        (p = portOf (bits (tget 0 s.fab.route d.toNat) 3 0) ∨ p = portOf (bits (tget 0 s.fab.route d.toNat) 7 4))
      then (c0queue p (setBits (setBits (setBits m 31 16 s.module.toNat) 47 32 d.toNat) 63 48 s.fab.rseq.toNat) s).port p
      else s.port p := by
  unfold c0send
  dsimp only
  rw [c0route_port]
  split
  · exact c0queue_same p _ s _ rfl rfl
  · rfl

/-- A flood to ports of which none is UP does nothing. -/
theorem c0flood_none (p : Option (Fin 16)) (m : C0Msg) (s : State) (h : ∀ q, (s.port q).state ≠ .up) : c0flood p m s = s := by
  have one : ∀ l : List (Fin 16), foldS (fun q s => if (s.port q).state = .up ∧ p ≠ some q then c0queue q m s else s) l s = s := by
    intro l
    induction l with
    | nil => rfl
    | cons a l ih =>
      show foldS _ l (if (s.port a).state = .up ∧ p ≠ some a then c0queue a m s else s) = s
      rw [if_neg (fun q => h a q.1)]; exact ih
  exact one _

/-- The flood of a halt reaches the fabric alone. -/
theorem floodHalt_frame (h : HaltRec) (s : State) : floodHalt h s = { s with fab := (floodHalt h s).fab } := by
  unfold floodHalt
  split
  · rfl
  · exact c0flood_frame ..

/-- A halt of a die that runs: the record, HALTED, the event, the interrupt and the flood, and nothing else (R381 to R384). -/
theorem raiseHalt_running (c : HaltCause) (s : State) (h : s.seq.state ≠ .empty) (g : s.seq.state ≠ .halted) :
    raiseHalt c s = { s with
      mgmt := { s.mgmt with halt := haltRecord c s, haltCount := satInc s.mgmt.haltCount }
      seq := { s.seq with state := .halted, parked := false, suspended := false, suspendReq := none }
      clk := { s.clk with hold := none }
      pwr := (setEvent evHalt s).pwr
      fab := (raiseHalt c s).fab, host := (setIrq 0 s).host } := by
  have e : raiseHalt c s = floodHalt (haltRecord c s) (setIrq 0 (setEvent evHalt { s with
      mgmt := { s.mgmt with halt := haltRecord c s, haltCount := satInc s.mgmt.haltCount }
      seq := { s.seq with state := .halted, parked := false, suspended := false, suspendReq := none }
      clk := { s.clk with hold := none }
      fab := { s.fab with haltSeen := s.seq.origin :: s.fab.haltSeen } })) := by
    unfold raiseHalt; rw [if_neg h, if_neg g]; rfl
  have hh : ∀ v : State, v.host = s.host → v.time = s.time → (setIrq 0 v).host = (setIrq 0 s).host := by
    intro v q r; unfold setIrq; dsimp only; rw [q, r]; split <;> rfl
  rw [e]
  generalize hv : setEvent evHalt _ = v
  have a := floodHalt_frame (haltRecord c s) (setIrq 0 v)
  generalize (floodHalt (haltRecord c s) (setIrq 0 v)).fab = x at a ⊢
  have b := setIrq_frame 0 v
  rw [hh v (by rw [← hv]; rfl) (by rw [← hv]; rfl)] at b
  rw [a, b, ← hv]
  rfl

/-- A halt cause at a die that holds no image changes nothing. -/
theorem raiseHalt_empty (c : HaltCause) (s : State) (h : s.seq.state = .empty) : raiseHalt c s = s := by
  unfold raiseHalt; rw [if_pos h]

/-- A later cause leaves a halted die as it is. -/
theorem raiseHalt_halted (c : HaltCause) (s : State) (h : s.seq.state = .halted) (g : s.mgmt.halt.time ≠ s.time.hallTime) :
    raiseHalt c s = s := by
  unfold raiseHalt
  rw [if_neg (by rw [h]; decide), if_pos h, if_neg (by simp [sameHaltCycle, g])]

/-- An unneeded step, or a check that finds no condition of PWR_SERVICE, changes nothing. -/
theorem checkService_none (s : State) (h : s.svcAny = false) : checkService s = s := by
  unfold checkService; rw [if_neg (by simp [h])]

/-- The replace-request reaches power, host and fabric alone. -/
theorem checkService_frame (s : State) :
    checkService s = { s with pwr := (checkService s).pwr, host := (checkService s).host, fab := (checkService s).fab } := by
  by_cases h : s.svcAny ∧ ¬ s.pwr.svcRequest
  · have e : checkService s = sendStatus (setIrq 1 (setEvent evReplace { s with pwr := { s.pwr with svcRequest := true } })) := by
      unfold checkService; rw [if_pos h]
    rw [e]
    generalize hv : setEvent evReplace _ = v
    have a := sendStatus_frame (setIrq 1 v)
    generalize (sendStatus (setIrq 1 v)) = u at a ⊢
    have b := setIrq_frame 1 v
    generalize setIrq 1 v = w at a b
    rw [a, b, ← hv]
    rfl
  · have e : checkService s = s := by unfold checkService; rw [if_neg h]
    rw [e]

/-- A predicate write reaches one core (R168). -/
theorem issuePreds_frame (c : Fin 32) (m v : U16) (s : State) :
    issuePreds c m v s = { s with cores := (issuePreds c m v s).cores } := rfl

theorem landAdd_frame (c : Fin 32) (n : BitVec 5) (s : State) : landAdd c n s = { s with cores := (landAdd c n s).cores } := rfl

end Sys2Proof.Machine
end

