-- ==== Sys2Proof/Laws/Issue.lean ====
section
/-!
SUPPORT. What launching bell operations and firing signals can change, and what the issue of a command leaves (R71, R77, R78, R90).
-/
namespace Sys2Proof.Machine

theorem vector_set_get {α : Type} {n : Nat} (v : Vector α n) (i : Fin n) : v.set i.val (v.get i) i.isLt = v := by
  apply Vector.ext; intro j hj
  rw [Vector.getElem_set]; split
  · rename_i h; subst h; rfl
  · rfl

/-- Writing a core back as it is changes nothing. -/
theorem cores_set_core (s : State) (c : Fin 32) : s.cores.set c.val (s.core c) c.isLt = s.cores := vector_set_get _ _

theorem coreOf_ofNat (c : Fin 32) : coreOf (BitVec.ofNat 5 c.val).toNat = c := by
  apply Fin.ext; simp [coreOf]

theorem extract16_ofNat (f : U32) : f.extractLsb' 0 16 = BitVec.ofNat 16 (bits f 15 0) := by
  apply BitVec.eq_of_toNat_eq; simp [bits]

/-! ## Ordered and express paths -/

/-- `t` differs from `s` at most in core `c`'s bell paths, the fabric, and the claims on the mesh. -/
def PathsOnly (c : Fin 32) (s t : State) : Prop :=
  ∃ p e q f m, t = { s with
    cores := s.cores.set c { s.core c with path := p, expPath := e, expSeqOut := q }, fab := f, clk := { s.clk with mesh := m } }

theorem pathsOnly_fab (c : Fin 32) (s : State) (f : Fabric) (m : List MeshUse) :
    PathsOnly c s { s with fab := f, clk := { s.clk with mesh := m } } :=
  ⟨(s.core c).path, (s.core c).expPath, (s.core c).expSeqOut, f, m, by
    show _ = { s with cores := s.cores.set c (s.core c), fab := f, clk := { s.clk with mesh := m } }
    rw [cores_set_core]⟩

theorem pathsOnly_refl (c : Fin 32) (s : State) : PathsOnly c s s := pathsOnly_fab c s s.fab s.clk.mesh

theorem pathsOnly_trans {c : Fin 32} {s t u : State} (a : PathsOnly c s t) (b : PathsOnly c t u) : PathsOnly c s u := by
  obtain ⟨p, e, q, f, m, rfl⟩ := a
  obtain ⟨p', e', q', f', m', rfl⟩ := b
  exact ⟨p', e', q', f', m', by simp [State.core]⟩

theorem pathsOnly_fold {α : Type} (f : α → State → State) (c : Fin 32) (h : ∀ a s, PathsOnly c s (f a s)) :
    ∀ (l : List α) (s : State), PathsOnly c s (foldS f l s)
  | [], s => pathsOnly_refl c s
  | a :: l, s => pathsOnly_trans (h a s) (pathsOnly_fold f c h l _)

/-- A flit that is put into a queue changes the fabric alone. -/
theorem enqueueFlit_frame (q : Nat) (a : Option Nat) (f : Flit) (s : State) :
    enqueueFlit q a f s = { s with fab := (enqueueFlit q a f s).fab } := by
  unfold enqueueFlit; dsimp only; split <;> rfl

theorem enqueueFlit_paths (c : Fin 32) (q : Nat) (a : Option Nat) (f : Flit) (s : State) : PathsOnly c s (enqueueFlit q a f s) := by
  rw [enqueueFlit_frame]; exact pathsOnly_fab c s _ s.clk.mesh

theorem launchCut_paths (c : Fin 32) (q : Nat) (a : Nat → Option Nat) (k : BitVec 5) (dest : BitVec 12) (space ikind : Nat) (key : U32) :
    ∀ (l : List (Nat × List Byte)) (s : State), PathsOnly c s (launchCut q a k dest space ikind key l s)
  | [], s => pathsOnly_refl c s
  | [_], s => enqueueFlit_paths c q _ _ s
  | _ :: p :: t, s => pathsOnly_trans (enqueueFlit_paths c q _ _ s) (launchCut_paths c q a k dest space ikind key (p :: t) _)

theorem c0send_paths (c : Fin 32) (d : BitVec 12) (m : C0Msg) (s : State) : PathsOnly c s (c0send d m s) := by
  rw [c0send_frame]; exact pathsOnly_fab c s _ s.clk.mesh

theorem launchBellFlit_paths (c : Fin 32) (m : BitVec 12) (r : BellReq) (s : State) : PathsOnly c s (launchBellFlit c m r s) := by
  unfold launchBellFlit
  dsimp only
  refine pathsOnly_trans ?_ (enqueueFlit_paths c _ _ _ _)
  split
  · split
    · exact pathsOnly_fab c s s.fab _
    · exact pathsOnly_refl c s
  · exact pathsOnly_refl c s

/-- A bell operation without an ACK_COUNTER reaches its source's paths, the fabric and the mesh alone (R233, R235). -/
theorem launchBell1_paths (c : Fin 32) (r : BellReq) (s : State) (hc : coreOf r.srcCore.toNat = c) (ha : r.ack = none) :
    PathsOnly c s (launchBell1 r s) := by
  unfold launchBell1
  simp only [hc, ha, ackAdd]
  split
  · split
    · exact ⟨(s.core c).path, (s.core c).expPath ++ [{ r with origin := .express }], (s.core c).expSeqOut, s.fab, s.clk.mesh, by
        rw [← ha]; rfl⟩
    · exact ⟨(s.core c).path ++ [.bell { r with origin := .ordered }], (s.core c).expPath, (s.core c).expSeqOut, s.fab, s.clk.mesh, by
        rw [← ha]; rfl⟩
  · split
    · exact pathsOnly_trans ⟨(s.core c).path, (s.core c).expPath, _, _, s.clk.mesh, rfl⟩ (c0send_paths c _ _ _)
    · exact pathsOnly_trans (launchBellFlit_paths c _ r s) (pathsOnly_fab c _ _ _)

theorem launchBell_paths (c : Fin 32) (r : BellReq) (m : Bool) (s : State) (hc : coreOf r.srcCore.toNat = c) (ha : r.ack = none) :
    PathsOnly c s (launchBell r m s) := by
  unfold launchBell
  cases m with
  | true =>
    exact pathsOnly_fold (fun (m : BitVec 12 × BitVec 5) s =>
      launchBell1 { r with addr := BitVec.ofNat 64 (m.1.toNat * 2 ^ 52 + bits r.addr 51 0) } s) c
      (fun _ s => launchBell1_paths c _ s hc ha) _ s
  | false => exact launchBell1_paths c r s hc ha

/-! ## Signals -/

/-- One signal: a flag set or cleared, a counter added to or set, or a bell operation launched (R77). -/
theorem fireSignal_eq (c : Fin 32) (idx : Nat) (f : U32) (s : State) :
    ∃ p e q x m, fireSignal c idx f s = { s with
      cores := s.cores.set c { s.core c with
        flags := if bits f 31 28 = 1 then setBit (s.core c).flags (bits f 27 20 % 64) (f.getLsbD 0) else (s.core c).flags
        counters := if bits f 31 28 = 2 then (s.core c).counters.set (coreOf (bits f 27 20)).val
            ((s.core c).counters.get (coreOf (bits f 27 20)) + f.extractLsb' 0 16) (coreOf (bits f 27 20)).isLt
          else if bits f 31 28 = 3 then (s.core c).counters.set (coreOf (bits f 27 20)).val (f.extractLsb' 0 16) (coreOf (bits f 27 20)).isLt
          else (s.core c).counters
        path := p, expPath := e, expSeqOut := q }
      fab := x, clk := { s.clk with mesh := m } } := by
  rw [extract16_ofNat]
  unfold fireSignal sigOp sigIndex sigValue
  split <;> rename_i h
  · rw [h]
    exact ⟨(s.core c).path, (s.core c).expPath, (s.core c).expSeqOut, s.fab, s.clk.mesh, rfl⟩
  · rw [h]
    exact ⟨(s.core c).path, (s.core c).expPath, (s.core c).expSeqOut, s.fab, s.clk.mesh, rfl⟩
  · rw [h]
    exact ⟨(s.core c).path, (s.core c).expPath, (s.core c).expSeqOut, s.fab, s.clk.mesh, rfl⟩
  · obtain ⟨p, e, q, x, m, hx⟩ := launchBell_paths c (bellOfSignal s c idx f).1 (bellOfSignal s c idx f).2 s (coreOf_ofNat c) rfl
    rw [h]
    exact ⟨p, e, q, x, m, hx⟩
  · rename_i h1 h2 h3
    rw [if_neg h1, if_neg h2, if_neg h3]
    exact pathsOnly_refl c s

/-- A signal that is no bell operation changes a flag or a counter of its core alone. -/
theorem fireSignal_plain (c : Fin 32) (idx : Nat) (f : U32) (s : State) (h : bits f 31 28 ≠ 4) :
    fireSignal c idx f s = { s with
      cores := s.cores.set c { s.core c with
        flags := if bits f 31 28 = 1 then setBit (s.core c).flags (bits f 27 20 % 64) (f.getLsbD 0) else (s.core c).flags
        counters := if bits f 31 28 = 2 then (s.core c).counters.set (coreOf (bits f 27 20)).val
            ((s.core c).counters.get (coreOf (bits f 27 20)) + f.extractLsb' 0 16) (coreOf (bits f 27 20)).isLt
          else if bits f 31 28 = 3 then (s.core c).counters.set (coreOf (bits f 27 20)).val (f.extractLsb' 0 16) (coreOf (bits f 27 20)).isLt
          else (s.core c).counters } } := by
  rw [extract16_ofNat]
  unfold fireSignal sigOp sigIndex sigValue
  split <;> rename_i g
  · rw [g]; rfl
  · rw [g]; rfl
  · rw [g]; rfl
  · exact absurd g h
  · rename_i h1 h2 h3
    rw [if_neg h1, if_neg h2, if_neg h3]
    show s = { s with cores := s.cores.set c (s.core c) }
    rw [cores_set_core]

end Sys2Proof.Machine
end

