-- ==== Sys2Proof/Laws/KeepsA.lean ====
section
/-! SUPPORT. What every operation of the model keeps: the fuses, the key slots and the canonical form of memory (the named operations, memory, links and bells). -/

namespace Sys2Proof.Machine

/-- What only a few commands change: the debug fuse and enable, the array fuses and the key slots (R349, R373). -/
def keep (s : State) : Bool × Bool × U64 × Tbl U32 × U32 :=
  (s.pwr.debugFuse, s.pwr.debugEnable, s.pwr.fuses, s.loader.keyHash, s.loader.keyCfg)

/-- `t` has the fuses, the enable and the keys of `s`, and its stack memory is in canonical form if that of `s` is. -/
def Keeps (s t : State) : Prop := keep t = keep s ∧ (Memory.wf s.dram = true → Memory.wf t.dram = true)

theorem Keeps.refl (s : State) : Keeps s s := ⟨rfl, id⟩
theorem Keeps.trans {s t u : State} (h : Keeps s t) (k : Keeps t u) : Keeps s u := ⟨k.1.trans h.1, k.2 ∘ h.2⟩

section
variable (s : State) {u : State} {t : TimeDom} {q : Sequencer} {k : ClkDom} {cs : Vector Core 32} {g : Tbl MGroup} {d : Mem} {e : Tbl ErrPat}
  {st : Vector StackCtl 16} {a b c : U32} {f : Fabric} {h : HostDom} {l : Loader} {p : Power} {m : Mgmt} {js : List Job} {jn n : Nat} {x : List Instr}

theorem Keeps.mk0 : Keeps s ⟨t, q, k, cs, g, u.dram, e, st, a, b, c, f, h, u.loader, u.pwr, m, js, jn, n, x⟩ ↔ Keeps s u := ⟨fun h => h, fun h => h⟩
theorem Keeps.mkp {p0 : Bool} {p1 : PwrPhase} {p2 : Fin 6} {p3 : Bool} {p4 : Bool} {p5 : Bool} {p6 : Bool} {p7 : Bool} {p8 : U32} {p9 : BitVec 7} {p10 : W1c} {p11 : U16} {p12 : U16} {p13 : U16} {p14 : Bool} {p15 : U32} {p18 : Vector Byte 4} {p19 : U32} {p20 : U32} {p21 : U32} {p22 : U32} {p23 : U32} {p24 : U32} {p25 : Option (Nat × Nat)} {p26 : List (Nat × Nat × Nat)} {p27 : Bool} {p28 : Option U64} {p29 : Bool} {p30 : Option U64} {p31 : Bool} {p32 : U16} {p33 : Vector Nat 5} {p34 : Nat} {p35 : Nat} {p36 : Nat} {p37 : Bool} {p38 : Bool} :
    Keeps s ⟨t, q, k, cs, g, u.dram, e, st, a, b, c, f, h, u.loader, ⟨p0, p1, p2, p3, p4, p5, p6, p7, p8, p9, p10, p11, p12, p13, p14, p15, u.pwr.debugFuse, u.pwr.debugEnable, p18, p19, p20, p21, p22, p23, p24, p25, p26, p27, p28, p29, p30, p31, p32, p33, p34, p35, p36, p37, p38, u.pwr.fuses⟩, m, js, jn, n, x⟩ ↔ Keeps s u := ⟨fun h => h, fun h => h⟩
theorem Keeps.mkl {l0 : U32} {l1 : U32} {l2 : U32} {l3 : U32} {l4 : U32} {l5 : U32} {l6 : U32} {l7 : U32} {l8 : U64} {l9 : Vector U32 16} {l10 : Vector U32 16} {l13 : Bool} {l14 : Bool} {l15 : BitVec 2} {l16 : Byte} {l17 : Bool} {l18 : Byte} {l19 : Bool} {l20 : List (Nat × Nat × Nat)} :
    Keeps s ⟨t, q, k, cs, g, u.dram, e, st, a, b, c, f, h, ⟨l0, l1, l2, l3, l4, l5, l6, l7, l8, l9, l10, u.loader.keyHash, u.loader.keyCfg, l13, l14, l15, l16, l17, l18, l19, l20⟩, u.pwr, m, js, jn, n, x⟩ ↔ Keeps s u := ⟨fun h => h, fun h => h⟩
theorem Keeps.mkb {p0 : Bool} {p1 : PwrPhase} {p2 : Fin 6} {p3 : Bool} {p4 : Bool} {p5 : Bool} {p6 : Bool} {p7 : Bool} {p8 : U32} {p9 : BitVec 7} {p10 : W1c} {p11 : U16} {p12 : U16} {p13 : U16} {p14 : Bool} {p15 : U32} {p18 : Vector Byte 4} {p19 : U32} {p20 : U32} {p21 : U32} {p22 : U32} {p23 : U32} {p24 : U32} {p25 : Option (Nat × Nat)} {p26 : List (Nat × Nat × Nat)} {p27 : Bool} {p28 : Option U64} {p29 : Bool} {p30 : Option U64} {p31 : Bool} {p32 : U16} {p33 : Vector Nat 5} {p34 : Nat} {p35 : Nat} {p36 : Nat} {p37 : Bool} {p38 : Bool}
    {l0 : U32} {l1 : U32} {l2 : U32} {l3 : U32} {l4 : U32} {l5 : U32} {l6 : U32} {l7 : U32} {l8 : U64} {l9 : Vector U32 16} {l10 : Vector U32 16} {l13 : Bool} {l14 : Bool} {l15 : BitVec 2} {l16 : Byte} {l17 : Bool} {l18 : Byte} {l19 : Bool} {l20 : List (Nat × Nat × Nat)} :
    Keeps s ⟨t, q, k, cs, g, u.dram, e, st, a, b, c, f, h, ⟨l0, l1, l2, l3, l4, l5, l6, l7, l8, l9, l10, u.loader.keyHash, u.loader.keyCfg, l13, l14, l15, l16, l17, l18, l19, l20⟩, ⟨p0, p1, p2, p3, p4, p5, p6, p7, p8, p9, p10, p11, p12, p13, p14, p15, u.pwr.debugFuse, u.pwr.debugEnable, p18, p19, p20, p21, p22, p23, p24, p25, p26, p27, p28, p29, p30, p31, p32, p33, p34, p35, p36, p37, p38, u.pwr.fuses⟩, m, js, jn, n, x⟩ ↔ Keeps s u := ⟨fun h => h, fun h => h⟩
theorem Keeps.dram (hu : Keeps s u) (hd : Memory.wf u.dram = true → Memory.wf d = true) :
    Keeps s ⟨t, q, k, cs, g, d, e, st, a, b, c, f, h, u.loader, u.pwr, m, js, jn, n, x⟩ := ⟨hu.1, hd ∘ hu.2⟩
end

theorem Keeps.ite {s : State} {P : Prop} [Decidable P] {a b : State} (ha : Keeps s a) (hb : Keeps s b) :
    Keeps s (if P then a else b) := by
  split <;> assumption

theorem Keeps.snd {α : Type} {s t : State} {a : α} {p : α × State} (h : p = (a, t)) (hp : Keeps s p.2) : Keeps s t := by
  subst h; exact hp

theorem Keeps.fst {s t : State} {α : Type} {a : α} {p : State × α} (h : p = (t, a)) (hp : Keeps s p.1) : Keeps s t := by
  subst h; exact hp

theorem Keeps.iteSnd {α : Type} {s : State} {P : Prop} [Decidable P] {a b : α × State} (ha : Keeps s a.2) (hb : Keeps s b.2) :
    Keeps s (if P then a else b).2 := by
  split <;> assumption

theorem Keeps.foldS {α : Type} {f : α → State → State} {l : List α} {s t : State} (ht : Keeps s t) (h : ∀ a s, Keeps s (f a s)) :
    Keeps s (foldS f l t) := by
  unfold Machine.foldS
  induction l generalizing t with
  | nil => exact ht
  | cons a l ih => exact ih (ht.trans (h a t))

/-- What an outcome that is a next state keeps. -/
def OutKeeps (s : State) (o : Host.Outcome State Fault Refusal) : Prop := ∀ t, o = .next t → Keeps s t

theorem OutKeeps.next {s t : State} (h : Keeps s t) : OutKeeps s (.next t) := by
  intro u e; cases e; exact h
theorem OutKeeps.refused {s : State} {r : Refusal} : OutKeeps s (.refused r) := by
  intro u e; cases e
theorem OutKeeps.ite {s : State} {P : Prop} [Decidable P] {a b : Host.Outcome State Fault Refusal} (ha : OutKeeps s a)
    (hb : OutKeeps s b) : OutKeeps s (if P then a else b) := by
  split <;> assumption

theorem Keeps.updMem {s t : State} {f : Mem → Mem} (ht : Keeps s t) (hf : ∀ m, Memory.wf m = true → Memory.wf (f m) = true) :
    Keeps s (t.updMem f) := ⟨ht.1, fun h => hf _ (ht.2 h)⟩

theorem updCore_kept (s : State) (c : Fin 32) (f : Core → Core) : Keeps s (State.updCore s c f) := by
  unfold State.updCore
  try dsimp only
  repeat' first
    | with_reducible apply Keeps.refl
    | simp only [↓Keeps.mk0]

theorem updPort_kept (s : State) (p : Fin 16) (f : FabPort → FabPort) : Keeps s (State.updPort s p f) := by
  unfold State.updPort
  try dsimp only
  repeat' first
    | with_reducible apply Keeps.refl
    | simp only [↓Keeps.mk0]

theorem updStack_kept (s : State) (i : Fin 16) (f : StackCtl → StackCtl) : Keeps s (State.updStack s i f) := by
  unfold State.updStack
  try dsimp only
  repeat' first
    | with_reducible apply Keeps.refl
    | simp only [↓Keeps.mk0]

theorem updRegion_kept (s : State) (r : Fin 8) (f : Region → Region) : Keeps s (State.updRegion s r f) := by
  unfold State.updRegion
  try dsimp only
  repeat' first
    | with_reducible apply Keeps.refl
    | simp only [↓Keeps.mk0]

theorem updArr_kept (s : State) (c : Fin 32) (j : Fin 2) (f : ArrayUnit → ArrayUnit) : Keeps s (State.updArr s c j f) := by
  unfold State.updArr
  try dsimp only
  repeat' first
    | with_reducible apply Keeps.refl
    | simp only [↓Keeps.mk0, ↓Keeps.mkp, ↓Keeps.mkl, ↓Keeps.mkb]
    | with_reducible apply Keeps.ite
    | with_reducible apply Keeps.iteSnd
    | with_reducible apply Keeps.trans ?_ (updCore_kept ..)

theorem fresh_kept (s : State) : Keeps s (State.fresh s).2 := by
  unfold State.fresh
  try dsimp only
  repeat' first
    | with_reducible apply Keeps.refl
    | simp only [↓Keeps.mk0]

theorem setIrq_kept (v : Fin 5) (s : State) : Keeps s (setIrq v s) := by
  unfold setIrq
  try dsimp only
  repeat' first
    | with_reducible apply Keeps.refl
    | simp only [↓Keeps.mk0]
    | with_reducible apply Keeps.ite

theorem setEvent_kept (b : Nat) (s : State) : Keeps s (setEvent b s) := by
  unfold setEvent
  try dsimp only
  repeat' first
    | with_reducible apply Keeps.refl
    | simp only [↓Keeps.mkp]

theorem logErr_kept (code : U16) (core : Option (Fin 32)) (d0 d1 : U64) (s : State) : Keeps s (logErr code core d0 d1 s) := by
  unfold logErr
  try dsimp only
  repeat' first
    | with_reducible apply Keeps.refl
    | simp only [↓Keeps.mk0]
    | with_reducible apply Keeps.ite
    | with_reducible apply Keeps.iteSnd
    | with_reducible apply mwrite_wf
    | with_reducible apply mwrites_wf
    | with_reducible apply mzero_wf
    | assumption
    | split

theorem c0queue_kept (p : Fin 16) (m : C0Msg) (s : State) : Keeps s (c0queue p m s) := by
  unfold c0queue
  try dsimp only
  repeat' first
    | with_reducible apply Keeps.refl
    | simp only [↓Keeps.mk0, ↓Keeps.mkp, ↓Keeps.mkl, ↓Keeps.mkb]
    | with_reducible apply Keeps.ite
    | with_reducible apply Keeps.iteSnd
    | with_reducible apply Keeps.trans ?_ (updPort_kept ..)

theorem c0flood_kept (from_ : Option (Fin 16)) (m : C0Msg) (s : State) : Keeps s (c0flood from_ m s) := by
  unfold c0flood
  try dsimp only
  repeat' first
    | with_reducible apply Keeps.refl
    | simp only [↓Keeps.mk0, ↓Keeps.mkp, ↓Keeps.mkl, ↓Keeps.mkb]
    | with_reducible apply Keeps.ite
    | with_reducible apply Keeps.iteSnd
    | with_reducible apply Keeps.trans ?_ (c0queue_kept ..)
    | (with_reducible apply Keeps.foldS; rotate_left; intro _ _)

theorem c0route_kept (dest : BitVec 12) (m : C0Msg) (s : State) : Keeps s (c0route dest m s) := by
  unfold c0route
  try dsimp only
  repeat' first
    | with_reducible apply Keeps.refl
    | simp only [↓Keeps.mk0, ↓Keeps.mkp, ↓Keeps.mkl, ↓Keeps.mkb]
    | with_reducible apply Keeps.ite
    | with_reducible apply Keeps.iteSnd
    | with_reducible apply Keeps.trans ?_ (c0queue_kept ..)

theorem c0send_kept (dest : BitVec 12) (m : C0Msg) (s : State) : Keeps s (c0send dest m s) := by
  unfold c0send
  try dsimp only
  repeat' first
    | with_reducible apply Keeps.refl
    | simp only [↓Keeps.mk0]
    | with_reducible apply Keeps.ite
    | with_reducible apply Keeps.iteSnd
    | with_reducible apply Keeps.trans ?_ (c0route_kept ..)

theorem floodHalt_kept (h : HaltRec) (s : State) : Keeps s (floodHalt h s) := by
  unfold floodHalt
  try dsimp only
  repeat' first
    | with_reducible apply Keeps.refl
    | simp only [↓Keeps.mk0, ↓Keeps.mkp, ↓Keeps.mkl, ↓Keeps.mkb]
    | with_reducible apply Keeps.ite
    | with_reducible apply Keeps.iteSnd
    | with_reducible apply Keeps.trans ?_ (c0flood_kept ..)

theorem keepHalt_kept (h : HaltRec) (s : State) : Keeps s (keepHalt h s) := by
  unfold keepHalt
  try dsimp only
  repeat' first
    | with_reducible apply Keeps.refl
    | simp only [↓Keeps.mk0]
    | with_reducible apply Keeps.ite
    | with_reducible apply Keeps.iteSnd
    | with_reducible apply Keeps.trans ?_ (floodHalt_kept ..)

theorem joinHalt_kept (c : HaltCause) (s : State) : Keeps s (joinHalt c s) := by
  unfold joinHalt
  try dsimp only
  repeat' first
    | with_reducible apply Keeps.refl
    | simp only [↓Keeps.mk0, ↓Keeps.mkp, ↓Keeps.mkl, ↓Keeps.mkb]
    | with_reducible apply Keeps.ite
    | with_reducible apply Keeps.iteSnd
    | with_reducible apply Keeps.trans ?_ (keepHalt_kept ..)

theorem haltWith_kept (h : HaltRec) (s : State) : Keeps s (haltWith h s) := by
  unfold haltWith
  try dsimp only
  repeat' first
    | with_reducible apply Keeps.refl
    | simp only [↓Keeps.mk0]
    | with_reducible apply Keeps.ite
    | with_reducible apply Keeps.iteSnd
    | with_reducible apply Keeps.trans ?_ (setIrq_kept ..)
    | with_reducible apply Keeps.trans ?_ (setEvent_kept ..)
    | with_reducible apply Keeps.trans ?_ (floodHalt_kept ..)

theorem raiseHalt_kept (c : HaltCause) (s : State) : Keeps s (raiseHalt c s) := by
  unfold raiseHalt
  try dsimp only
  repeat' first
    | with_reducible apply Keeps.refl
    | simp only [↓Keeps.mk0, ↓Keeps.mkp, ↓Keeps.mkl, ↓Keeps.mkb]
    | with_reducible apply Keeps.ite
    | with_reducible apply Keeps.iteSnd
    | with_reducible apply Keeps.trans ?_ (joinHalt_kept ..)
    | with_reducible apply Keeps.trans ?_ (haltWith_kept ..)

theorem onlyCauses_kept (work : State → State) (s : State) : Keeps s (onlyCauses work s) := by
  unfold onlyCauses
  try dsimp only
  repeat' first
    | with_reducible apply Keeps.refl
    | simp only [↓Keeps.mk0, ↓Keeps.mkp, ↓Keeps.mkl, ↓Keeps.mkb]
    | with_reducible apply Keeps.ite
    | with_reducible apply Keeps.iteSnd
    | with_reducible apply Keeps.trans ?_ (keepHalt_kept ..)

theorem writePlace_kept (p : Place) (b : Byte) (s : State) : Keeps s (writePlace p b s) := by
  unfold writePlace
  try dsimp only
  repeat' first
    | with_reducible apply Keeps.refl
    | simp only [↓Keeps.mk0, ↓Keeps.mkp, ↓Keeps.mkl, ↓Keeps.mkb]
    | with_reducible apply Keeps.ite
    | with_reducible apply Keeps.iteSnd
    | with_reducible apply Keeps.trans ?_ (updCore_kept ..)
    | with_reducible apply Keeps.trans ?_ (updArr_kept ..)
    | (with_reducible apply Keeps.updMem; rotate_left; intro _ _)
    | with_reducible apply mwrite_wf
    | with_reducible apply mwrites_wf
    | with_reducible apply mzero_wf
    | assumption
    | split

theorem writeHall_kept (space off : Nat) (bs : List Byte) (s : State) : Keeps s (writeHall space off bs s) := by
  induction bs generalizing off s with
  | nil => exact Keeps.refl _
  | cons b t ih => exact (writePlace_kept (placeOf s space off) b s).trans (ih (off + 1) _)

theorem slewTo_kept (ps : Int) (s : State) : Keeps s (slewTo ps s) := by
  unfold slewTo
  try dsimp only
  repeat' first
    | with_reducible apply Keeps.refl
    | simp only [↓Keeps.mk0]

theorem ppsAtCount_kept (s : State) : Keeps s (ppsAtCount s) := by
  unfold ppsAtCount
  try dsimp only
  repeat' first
    | with_reducible apply Keeps.refl
    | simp only [↓Keeps.mk0]
    | with_reducible apply Keeps.ite

theorem setCount_kept (v : U64) (frac : Int) (s : State) : Keeps s (setCount v frac s) := by
  unfold setCount
  try dsimp only
  repeat' first
    | with_reducible apply Keeps.refl
    | simp only [↓Keeps.mk0]
    | with_reducible apply Keeps.ite
    | with_reducible apply Keeps.iteSnd
    | with_reducible apply Keeps.trans ?_ (ppsAtCount_kept ..)

theorem leaveSounding_kept (s : State) : Keeps s (leaveSounding s) := by
  unfold leaveSounding
  try dsimp only
  repeat' first
    | with_reducible apply Keeps.refl
    | simp only [↓Keeps.mk0]
    | with_reducible apply Keeps.ite

theorem takeRole_kept (s : State) : Keeps s (takeRole s) := by
  unfold takeRole
  try dsimp only
  repeat' first
    | with_reducible apply Keeps.refl
    | simp only [↓Keeps.mk0]

theorem sendStatus_kept (s : State) : Keeps s (sendStatus s) := by
  unfold sendStatus
  try dsimp only
  repeat' first
    | with_reducible apply Keeps.refl
    | simp only [↓Keeps.mk0]
    | with_reducible apply Keeps.ite
    | with_reducible apply Keeps.iteSnd
    | with_reducible apply Keeps.trans ?_ (c0flood_kept ..)

theorem c0drop_kept (s : State) : Keeps s (c0drop s) := by
  unfold c0drop
  try dsimp only
  repeat' first
    | with_reducible apply Keeps.refl
    | simp only [↓Keeps.mk0]

theorem execOscillatorStable_kept (s : State) : OutKeeps s (execOscillatorStable s) := by
  unfold execOscillatorStable
  try dsimp only
  repeat' first
    | with_reducible apply Keeps.refl
    | with_reducible apply OutKeeps.next
    | with_reducible apply OutKeeps.refused
    | with_reducible apply OutKeeps.ite
    | simp only [↓Keeps.mk0]
    | with_reducible apply Keeps.ite
    | with_reducible apply Keeps.iteSnd
    | with_reducible apply Keeps.trans ?_ (ppsAtCount_kept ..)

theorem refreshRefOk_kept (s : State) : Keeps s (refreshRefOk s) := by
  unfold refreshRefOk
  try dsimp only
  repeat' first
    | with_reducible apply Keeps.refl
    | simp only [↓Keeps.mk0]

theorem execPpsInEdge_kept (s : State) : OutKeeps s (execPpsInEdge s) := by
  unfold execPpsInEdge
  try dsimp only
  repeat' first
    | with_reducible apply Keeps.refl
    | with_reducible apply OutKeeps.next
    | with_reducible apply OutKeeps.refused
    | with_reducible apply OutKeeps.ite
    | simp only [↓Keeps.mk0]
    | with_reducible apply Keeps.ite
    | with_reducible apply Keeps.iteSnd
    | with_reducible apply Keeps.trans ?_ (slewTo_kept ..)
    | with_reducible apply Keeps.trans ?_ (setCount_kept ..)
    | with_reducible apply Keeps.trans ?_ (refreshRefOk_kept ..)

theorem execRefLoss_kept (pps : Bool) (s : State) : OutKeeps s (execRefLoss pps s) := by
  unfold execRefLoss
  try dsimp only
  repeat' first
    | with_reducible apply Keeps.refl
    | with_reducible apply OutKeeps.next
    | with_reducible apply OutKeeps.refused
    | with_reducible apply OutKeeps.ite
    | simp only [↓Keeps.mk0]

theorem execRefReturn_kept (pps : Bool) (s : State) : OutKeeps s (execRefReturn pps s) := by
  unfold execRefReturn
  try dsimp only
  repeat' first
    | with_reducible apply Keeps.refl
    | with_reducible apply OutKeeps.next
    | with_reducible apply OutKeeps.refused
    | with_reducible apply OutKeeps.ite
    | simp only [↓Keeps.mk0]
    | with_reducible apply Keeps.ite
    | with_reducible apply Keeps.iteSnd
    | with_reducible apply Keeps.trans ?_ (refreshRefOk_kept ..)

theorem execPpsOutRise_kept (s : State) : OutKeeps s (execPpsOutRise s) := by
  unfold execPpsOutRise
  try dsimp only
  repeat' first
    | with_reducible apply Keeps.refl
    | with_reducible apply OutKeeps.next
    | with_reducible apply OutKeeps.refused
    | with_reducible apply OutKeeps.ite
    | simp only [↓Keeps.mk0]
    | with_reducible apply Keeps.ite

theorem execPpsOutFall_kept (s : State) : OutKeeps s (execPpsOutFall s) := by
  unfold execPpsOutFall
  try dsimp only
  repeat' first
    | with_reducible apply Keeps.refl
    | with_reducible apply OutKeeps.next
    | with_reducible apply OutKeeps.refused
    | with_reducible apply OutKeeps.ite
    | simp only [↓Keeps.mk0]
    | with_reducible apply Keeps.ite

theorem execBeaconTime_kept (port : Fin 16) (msg : C0Msg) (s : State) : OutKeeps s (execBeaconTime port msg s) := by
  unfold execBeaconTime
  try dsimp only
  repeat' first
    | with_reducible apply Keeps.refl
    | with_reducible apply OutKeeps.next
    | with_reducible apply OutKeeps.refused
    | with_reducible apply OutKeeps.ite
    | simp only [↓Keeps.mk0]
    | with_reducible apply Keeps.ite
    | with_reducible apply Keeps.iteSnd
    | with_reducible apply Keeps.trans ?_ (slewTo_kept ..)
    | with_reducible apply Keeps.trans ?_ (setCount_kept ..)

theorem execParentSilent_kept (s : State) : OutKeeps s (execParentSilent s) := by
  unfold execParentSilent
  try dsimp only
  repeat' first
    | with_reducible apply Keeps.refl
    | with_reducible apply OutKeeps.next
    | with_reducible apply OutKeeps.refused
    | with_reducible apply OutKeeps.ite
    | simp only [↓Keeps.mk0]
    | with_reducible apply Keeps.ite

theorem execStandbyRootTakeover_kept (s : State) : OutKeeps s (execStandbyRootTakeover s) := by
  unfold execStandbyRootTakeover
  try dsimp only
  repeat' first
    | with_reducible apply Keeps.refl
    | with_reducible apply OutKeeps.next
    | with_reducible apply OutKeeps.refused
    | with_reducible apply OutKeeps.ite
    | simp only [↓Keeps.mk0]
    | with_reducible apply Keeps.ite
    | with_reducible apply Keeps.iteSnd
    | with_reducible apply Keeps.trans ?_ (c0flood_kept ..)

theorem execRootChange_kept (port : Fin 16) (msg : C0Msg) (s : State) : OutKeeps s (execRootChange port msg s) := by
  unfold execRootChange
  try dsimp only
  repeat' first
    | with_reducible apply Keeps.refl
    | with_reducible apply OutKeeps.next
    | with_reducible apply OutKeeps.refused
    | with_reducible apply OutKeeps.ite
    | simp only [↓Keeps.mk0]
    | with_reducible apply Keeps.ite
    | with_reducible apply Keeps.iteSnd
    | with_reducible apply Keeps.trans ?_ (c0flood_kept ..)
    | with_reducible apply Keeps.trans ?_ (c0drop_kept ..)

theorem execHoldover_kept (s : State) : OutKeeps s (execHoldover s) := by
  unfold execHoldover
  try dsimp only
  repeat' first
    | with_reducible apply Keeps.refl
    | with_reducible apply OutKeeps.next
    | with_reducible apply OutKeeps.refused
    | with_reducible apply OutKeeps.ite
    | simp only [↓Keeps.mk0]
    | with_reducible apply Keeps.ite

theorem execHoldoverLimit_kept (s : State) : OutKeeps s (execHoldoverLimit s) := by
  unfold execHoldoverLimit
  try dsimp only
  repeat' first
    | with_reducible apply Keeps.refl
    | with_reducible apply OutKeeps.next
    | with_reducible apply OutKeeps.refused
    | with_reducible apply OutKeeps.ite
    | simp only [↓Keeps.mk0]
    | with_reducible apply Keeps.ite
    | with_reducible apply Keeps.iteSnd
    | with_reducible apply Keeps.trans ?_ (sendStatus_kept ..)

theorem execParentReturn_kept (backup : Bool) (s : State) : OutKeeps s (execParentReturn backup s) := by
  unfold execParentReturn
  try dsimp only
  repeat' first
    | with_reducible apply Keeps.refl
    | with_reducible apply OutKeeps.next
    | with_reducible apply OutKeeps.refused
    | with_reducible apply OutKeeps.ite
    | simp only [↓Keeps.mk0]
    | with_reducible apply Keeps.ite

theorem execAcquireComplete_kept (s : State) : OutKeeps s (execAcquireComplete s) := by
  unfold execAcquireComplete
  try dsimp only
  repeat' first
    | with_reducible apply Keeps.refl
    | with_reducible apply OutKeeps.next
    | with_reducible apply OutKeeps.refused
    | with_reducible apply OutKeeps.ite
    | simp only [↓Keeps.mk0]
    | with_reducible apply Keeps.ite
    | with_reducible apply Keeps.iteSnd
    | with_reducible apply Keeps.trans ?_ (sendStatus_kept ..)

theorem arrivalPs_kept (s : State) : Keeps s (State.arrivalPs s).2 := by
  unfold State.arrivalPs
  try dsimp only
  repeat' first
    | with_reducible apply Keeps.refl
    | simp only [↓Keeps.mk0, ↓Keeps.mkp, ↓Keeps.mkl, ↓Keeps.mkb]
    | with_reducible apply Keeps.ite
    | with_reducible apply Keeps.iteSnd
    | with_reducible apply Keeps.trans ?_ (fresh_kept ..)

theorem execSoundMsg_kept (port : Fin 16) (msg : C0Msg) (s : State) : OutKeeps s (execSoundMsg port msg s) := by
  unfold execSoundMsg
  try dsimp only
  repeat' first
    | with_reducible apply Keeps.refl
    | with_reducible apply OutKeeps.next
    | with_reducible apply OutKeeps.refused
    | with_reducible apply OutKeeps.ite
    | simp only [↓Keeps.mk0, ↓Keeps.mkp, ↓Keeps.mkl, ↓Keeps.mkb]
    | with_reducible apply Keeps.ite
    | with_reducible apply Keeps.iteSnd
    | with_reducible apply Keeps.trans ?_ (updPort_kept ..)
    | with_reducible apply Keeps.trans ?_ (c0queue_kept ..)
    | with_reducible apply Keeps.trans ?_ (arrivalPs_kept ..)

theorem execSoundingComplete_kept (port : Fin 16) (up : Bool) (u primarySum backupSum : U16) (s : State) : OutKeeps s (execSoundingComplete port up u primarySum backupSum s) := by
  unfold execSoundingComplete
  try dsimp only
  repeat' first
    | with_reducible apply Keeps.refl
    | with_reducible apply OutKeeps.next
    | with_reducible apply OutKeeps.refused
    | with_reducible apply OutKeeps.ite
    | simp only [↓Keeps.mk0]
    | with_reducible apply Keeps.ite
    | with_reducible apply Keeps.iteSnd
    | with_reducible apply Keeps.trans ?_ (updPort_kept ..)
    | with_reducible apply Keeps.trans ?_ (leaveSounding_kept ..)
    | with_reducible apply Keeps.trans ?_ (takeRole_kept ..)
    | with_reducible apply Keeps.trans ?_ (refreshRefOk_kept ..)

theorem checkService_kept (s : State) : Keeps s (checkService s) := by
  unfold checkService
  try dsimp only
  repeat' first
    | with_reducible apply Keeps.refl
    | simp only [↓Keeps.mkp]
    | with_reducible apply Keeps.ite
    | with_reducible apply Keeps.iteSnd
    | with_reducible apply Keeps.trans ?_ (setIrq_kept ..)
    | with_reducible apply Keeps.trans ?_ (setEvent_kept ..)
    | with_reducible apply Keeps.trans ?_ (sendStatus_kept ..)

theorem addCand_kept (i : Fin 16) (r : RowRef) (s : State) : Keeps s (addCand i r s) := by
  unfold addCand
  try dsimp only
  repeat' first
    | with_reducible apply Keeps.refl
    | simp only [↓Keeps.mk0, ↓Keeps.mkp, ↓Keeps.mkl, ↓Keeps.mkb]
    | with_reducible apply Keeps.ite
    | with_reducible apply Keeps.iteSnd
    | with_reducible apply Keeps.trans ?_ (updStack_kept ..)

theorem noteCorrected_kept (a : Nat) (s : State) : Keeps s (noteCorrected a s) := by
  unfold noteCorrected
  try dsimp only
  repeat' first
    | with_reducible apply Keeps.refl
    | simp only [↓Keeps.mk0, ↓Keeps.mkp, ↓Keeps.mkl, ↓Keeps.mkb]
    | with_reducible apply Keeps.ite
    | with_reducible apply Keeps.iteSnd
    | with_reducible apply Keeps.trans ?_ (updStack_kept ..)
    | with_reducible apply Keeps.trans ?_ (checkService_kept ..)
    | with_reducible apply Keeps.trans ?_ (addCand_kept ..)

theorem ueRow_kept (a : Nat) (s : State) : Keeps s (ueRow a s) := by
  unfold ueRow
  try dsimp only
  repeat' first
    | with_reducible apply Keeps.refl
    | simp only [↓Keeps.mk0, ↓Keeps.mkp, ↓Keeps.mkl, ↓Keeps.mkb]
    | with_reducible apply Keeps.ite
    | with_reducible apply Keeps.iteSnd
    | with_reducible apply Keeps.trans ?_ (updStack_kept ..)
    | with_reducible apply Keeps.trans ?_ (addCand_kept ..)

theorem ueFound_kept (rq a : Nat) (s : State) : Keeps s (ueFound rq a s) := by
  unfold ueFound
  try dsimp only
  repeat' first
    | with_reducible apply Keeps.refl
    | simp only [↓Keeps.mk0, ↓Keeps.mkp, ↓Keeps.mkl, ↓Keeps.mkb]
    | with_reducible apply Keeps.ite
    | with_reducible apply Keeps.iteSnd
    | with_reducible apply Keeps.trans ?_ (logErr_kept ..)
    | with_reducible apply Keeps.trans ?_ (raiseHalt_kept ..)
    | with_reducible apply Keeps.trans ?_ (ueRow_kept ..)

theorem blockRead_kept (rq a n : Nat) (flip : ErrPat) (s : State) : Keeps s (blockRead rq a n flip s).2 := by
  unfold blockRead
  try dsimp only
  repeat' first
    | with_reducible apply Keeps.refl
    | simp only []
    | with_reducible apply Keeps.ite
    | with_reducible apply Keeps.iteSnd
    | with_reducible apply Keeps.trans ?_ (noteCorrected_kept ..)
    | with_reducible apply Keeps.trans ?_ (ueFound_kept ..)
    | with_reducible apply mwrite_wf
    | with_reducible apply mwrites_wf
    | with_reducible apply mzero_wf
    | assumption
    | split

theorem blockPut_kept (a : Nat) (bs : List Byte) (s : State) : Keeps s (blockPut a bs s) := by
  unfold blockPut
  try dsimp only
  repeat' first
    | with_reducible apply Keeps.refl
    | simp only [↓Keeps.mk0, ↓Keeps.mkp, ↓Keeps.mkl, ↓Keeps.mkb]
    | with_reducible apply Keeps.ite
    | with_reducible apply Keeps.iteSnd
    | with_reducible apply mwrite_wf
    | with_reducible apply mwrites_wf
    | with_reducible apply mzero_wf
    | assumption
    | (apply Keeps.dram; rotate_left; intro hd; first | (apply mwrites_wf; exact hd) | (apply mzero_wf; exact hd) | (apply twf_filter; exact hd) | rfl)

theorem blockModify_kept (rq a n : Nat) (f : List Byte → List Byte) (flip : ErrPat) (s : State) : Keeps s (blockModify rq a n f flip s).2 := by
  unfold blockModify
  try dsimp only
  repeat' first
    | with_reducible apply Keeps.refl
    | simp only []
    | with_reducible apply Keeps.ite
    | with_reducible apply Keeps.iteSnd
    | with_reducible apply Keeps.trans ?_ (noteCorrected_kept ..)
    | with_reducible apply Keeps.trans ?_ (ueFound_kept ..)
    | with_reducible apply Keeps.trans ?_ (blockPut_kept ..)
    | with_reducible apply mwrite_wf
    | with_reducible apply mwrites_wf
    | with_reducible apply mzero_wf
    | assumption
    | split

theorem blockWrite_kept (rq a : Nat) (bs : List Byte) (flip : ErrPat) (s : State) : Keeps s (blockWrite rq a bs flip s).2 := by
  unfold blockWrite
  try dsimp only
  repeat' first
    | with_reducible apply Keeps.refl
    | simp only []
    | with_reducible apply Keeps.ite
    | with_reducible apply Keeps.iteSnd
    | with_reducible apply Keeps.trans ?_ (blockPut_kept ..)
    | with_reducible apply Keeps.trans ?_ (blockModify_kept ..)

theorem dramReadAux_kept (rq : Nat) (l : List (Nat × Nat)) (s : State) : Keeps s (dramReadAux rq l s).2 := by
  induction l generalizing s with
  | nil => unfold dramReadAux; exact Keeps.refl _
  | cons p t ih =>
    unfold dramReadAux
    try dsimp only
    repeat' first
      | with_reducible apply Keeps.refl
      | simp only [↓Keeps.mk0, ↓Keeps.mkp, ↓Keeps.mkl, ↓Keeps.mkb]
      | with_reducible apply Keeps.ite
      | with_reducible apply Keeps.iteSnd
      | with_reducible apply Keeps.trans ?_ (ih ..)
      | with_reducible apply Keeps.trans ?_ (blockRead_kept ..)

theorem dramRead_kept (rq a n : Nat) (s : State) : Keeps s (dramRead rq a n s).2 := by
  unfold dramRead
  try dsimp only
  repeat' first
    | with_reducible apply Keeps.refl
    | simp only [↓Keeps.mk0, ↓Keeps.mkp, ↓Keeps.mkl, ↓Keeps.mkb]
    | with_reducible apply Keeps.ite
    | with_reducible apply Keeps.iteSnd
    | with_reducible apply Keeps.trans ?_ (dramReadAux_kept ..)

theorem harborNote_kept (a n : Nat) (s : State) : Keeps s (harborNote a n s) := by
  unfold harborNote
  try dsimp only
  repeat' first
    | with_reducible apply Keeps.refl
    | simp only [↓Keeps.mk0]
    | with_reducible apply Keeps.ite
    | with_reducible apply Keeps.iteSnd
    | with_reducible apply Keeps.trans ?_ (setIrq_kept ..)

theorem harborHall_kept (space off n : Nat) (s : State) : Keeps s (harborHall space off n s) := by
  unfold harborHall
  try dsimp only
  repeat' first
    | with_reducible apply Keeps.refl
    | simp only [↓Keeps.mk0, ↓Keeps.mkp, ↓Keeps.mkl, ↓Keeps.mkb]
    | with_reducible apply Keeps.ite
    | with_reducible apply Keeps.iteSnd
    | with_reducible apply Keeps.trans ?_ (harborNote_kept ..)
    | (with_reducible apply Keeps.foldS; rotate_left; intro _ _)

theorem fillAdd_kept (c : Fin 32) (f : FillAcc) (s : State) : Keeps s (fillAdd c f s) := by
  unfold fillAdd
  try dsimp only
  repeat' first
    | with_reducible apply Keeps.refl
    | simp only [↓Keeps.mk0, ↓Keeps.mkp, ↓Keeps.mkl, ↓Keeps.mkb]
    | with_reducible apply Keeps.ite
    | with_reducible apply Keeps.iteSnd
    | with_reducible apply Keeps.trans ?_ (updCore_kept ..)

theorem fillAsk_kept (c : Fin 32) (port a : Nat) (data : List Byte) (tag : Tag) (s : State) : Keeps s (fillAsk c port a data tag s) := by
  unfold fillAsk
  try dsimp only
  repeat' first
    | with_reducible apply Keeps.refl
    | simp only [↓Keeps.mk0, ↓Keeps.mkp, ↓Keeps.mkl, ↓Keeps.mkb]
    | with_reducible apply Keeps.ite
    | with_reducible apply Keeps.iteSnd
    | with_reducible apply Keeps.trans ?_ (fillAdd_kept ..)
    | (with_reducible apply Keeps.foldS; rotate_left; intro _ _)

theorem fillRead_kept (c : Fin 32) (port a n : Nat) (tag : Nat → Tag) (s : State) : Keeps s (fillRead c port a n tag s) := by
  unfold fillRead
  try dsimp only
  repeat' first
    | with_reducible apply Keeps.refl
    | simp only [↓Keeps.mk0, ↓Keeps.mkp, ↓Keeps.mkl, ↓Keeps.mkb]
    | with_reducible apply Keeps.ite
    | with_reducible apply Keeps.iteSnd
    | with_reducible apply Keeps.trans ?_ (fillAdd_kept ..)
    | (with_reducible apply Keeps.foldS; rotate_left; intro _ _)

theorem stackAsk_kept (src space off n : Nat) (data : Option (List Byte)) (rq : Nat) (tag : Nat → Tag) (s : State) : Keeps s (stackAsk src space off n data rq tag s) := by
  unfold stackAsk
  try dsimp only
  repeat' first
    | with_reducible apply Keeps.refl
    | simp only [↓Keeps.mk0, ↓Keeps.mkp, ↓Keeps.mkl, ↓Keeps.mkb]
    | with_reducible apply Keeps.ite
    | with_reducible apply Keeps.iteSnd
    | with_reducible apply Keeps.trans ?_ (updStack_kept ..)
    | (with_reducible apply Keeps.foldS; rotate_left; intro _ _)

theorem elemGot_kept (c : Fin 32) (desc : BitVec 11) (pos n : Nat) (s : State) : Keeps s (elemGot c desc pos n s) := by
  unfold elemGot
  try dsimp only
  repeat' first
    | with_reducible apply Keeps.refl
    | simp only [↓Keeps.mk0, ↓Keeps.mkp, ↓Keeps.mkl, ↓Keeps.mkb]
    | with_reducible apply Keeps.ite
    | with_reducible apply Keeps.iteSnd
    | with_reducible apply Keeps.trans ?_ (updCore_kept ..)

theorem updTurn_kept (c : Fin 32) (idx : Nat) (f : TurnRec → TurnRec) (s : State) : Keeps s (updTurn c idx f s) := by
  unfold updTurn
  try dsimp only
  repeat' first
    | with_reducible apply Keeps.refl
    | simp only [↓Keeps.mk0, ↓Keeps.mkp, ↓Keeps.mkl, ↓Keeps.mkb]
    | with_reducible apply Keeps.ite
    | with_reducible apply Keeps.iteSnd
    | with_reducible apply Keeps.trans ?_ (updCore_kept ..)

theorem updPath_kept (s : State) (k : Nat) (g : PathIn → PathIn) : Keeps s (State.updPath s k g) := by
  unfold State.updPath
  try dsimp only
  repeat' first
    | with_reducible apply Keeps.refl
    | simp only [↓Keeps.mk0]

theorem updJob_kept (id : Nat) (f : Job → Job) (s : State) : Keeps s (updJob id f s) := by
  unfold updJob
  try dsimp only
  repeat' first
    | with_reducible apply Keeps.refl
    | simp only [↓Keeps.mk0]

theorem ingressGot_kept (id addr : Nat) (b : Option (List Byte)) (s : State) : Keeps s (ingressGot id addr b s) := by
  unfold ingressGot
  try dsimp only
  repeat' first
    | with_reducible apply Keeps.refl
    | simp only [↓Keeps.mk0]

theorem hostWrote_kept (id : Nat) (s : State) : Keeps s (hostWrote id s) := by
  unfold hostWrote
  try dsimp only
  repeat' first
    | with_reducible apply Keeps.refl
    | simp only [↓Keeps.mk0]

theorem deliver_kept (tag : Tag) (bs : List Byte) (s : State) : Keeps s (deliver tag bs s) := by
  unfold deliver
  try dsimp only
  repeat' first
    | with_reducible apply Keeps.refl
    | simp only [↓Keeps.mk0, ↓Keeps.mkp, ↓Keeps.mkl, ↓Keeps.mkb]
    | with_reducible apply Keeps.ite
    | with_reducible apply Keeps.iteSnd
    | with_reducible apply Keeps.trans ?_ (updCore_kept ..)
    | with_reducible apply Keeps.trans ?_ (fillAsk_kept ..)
    | with_reducible apply Keeps.trans ?_ (updTurn_kept ..)
    | with_reducible apply Keeps.trans ?_ (updJob_kept ..)
    | with_reducible apply Keeps.trans ?_ (ingressGot_kept ..)
    | with_reducible apply mwrite_wf
    | with_reducible apply mwrites_wf
    | with_reducible apply mzero_wf
    | assumption
    | split

theorem accepted_kept (tag : Tag) (n : Nat) (s : State) : Keeps s (accepted tag n s) := by
  unfold accepted
  try dsimp only
  repeat' first
    | with_reducible apply Keeps.refl
    | simp only [↓Keeps.mk0]
    | with_reducible apply Keeps.ite
    | with_reducible apply Keeps.iteSnd
    | with_reducible apply Keeps.trans ?_ (updCore_kept ..)
    | with_reducible apply Keeps.trans ?_ (elemGot_kept ..)
    | with_reducible apply Keeps.trans ?_ (updTurn_kept ..)
    | with_reducible apply Keeps.trans ?_ (updPath_kept ..)
    | with_reducible apply Keeps.trans ?_ (hostWrote_kept ..)
    | with_reducible apply mwrite_wf
    | with_reducible apply mwrites_wf
    | with_reducible apply mzero_wf
    | assumption
    | split

theorem undelivered_kept (tag : Tag) (n : Nat) (s : State) : Keeps s (undelivered tag n s) := by
  unfold undelivered
  try dsimp only
  repeat' first
    | with_reducible apply Keeps.refl
    | simp only [↓Keeps.mk0]
    | with_reducible apply Keeps.ite
    | with_reducible apply Keeps.iteSnd
    | with_reducible apply Keeps.trans ?_ (ingressGot_kept ..)
    | with_reducible apply Keeps.trans ?_ (deliver_kept ..)
    | with_reducible apply Keeps.trans ?_ (accepted_kept ..)
    | with_reducible apply mwrite_wf
    | with_reducible apply mwrites_wf
    | with_reducible apply mzero_wf
    | assumption
    | split

theorem rangeWrite_kept (port rq src space off : Nat) (bs : List Byte) (tag : Tag) (s : State) : Keeps s (rangeWrite port rq src space off bs tag s) := by
  unfold rangeWrite
  try dsimp only
  repeat' first
    | with_reducible apply Keeps.refl
    | simp only [↓Keeps.mk0, ↓Keeps.mkp, ↓Keeps.mkl, ↓Keeps.mkb]
    | with_reducible apply Keeps.ite
    | with_reducible apply Keeps.iteSnd
    | with_reducible apply Keeps.trans ?_ (writeHall_kept ..)
    | with_reducible apply Keeps.trans ?_ (fillAsk_kept ..)
    | with_reducible apply Keeps.trans ?_ (stackAsk_kept ..)
    | with_reducible apply Keeps.trans ?_ (accepted_kept ..)
    | with_reducible apply mwrite_wf
    | with_reducible apply mwrites_wf
    | with_reducible apply mzero_wf
    | assumption
    | split

theorem rangeRead_kept (port rq src space off n : Nat) (tag : Nat → Tag) (s : State) : Keeps s (rangeRead port rq src space off n tag s) := by
  unfold rangeRead
  try dsimp only
  repeat' first
    | with_reducible apply Keeps.refl
    | simp only [↓Keeps.mk0, ↓Keeps.mkp, ↓Keeps.mkl, ↓Keeps.mkb]
    | with_reducible apply Keeps.ite
    | with_reducible apply Keeps.iteSnd
    | with_reducible apply Keeps.trans ?_ (fillRead_kept ..)
    | with_reducible apply Keeps.trans ?_ (stackAsk_kept ..)
    | with_reducible apply Keeps.trans ?_ (deliver_kept ..)
    | with_reducible apply mwrite_wf
    | with_reducible apply mwrites_wf
    | with_reducible apply mzero_wf
    | assumption
    | split

theorem startJob_kept (want : Want) (port rq src space off n : Nat) (s : State) : Keeps s (startJob want port rq src space off n s) := by
  unfold startJob
  try dsimp only
  repeat' first
    | with_reducible apply Keeps.refl
    | simp only [↓Keeps.mk0]
    | with_reducible apply Keeps.ite
    | with_reducible apply Keeps.iteSnd
    | with_reducible apply Keeps.trans ?_ (rangeRead_kept ..)

theorem endJob_kept (s : State) (j : Job) : Keeps s (State.endJob s j) := by
  unfold State.endJob
  try dsimp only
  repeat' first
    | with_reducible apply Keeps.refl
    | simp only [↓Keeps.mk0]

theorem sendFlit_kept (port : Fin 16) (f : Flit) (s : State) : Keeps s (sendFlit port f s) := by
  unfold sendFlit
  try dsimp only
  repeat' first
    | with_reducible apply Keeps.refl
    | simp only [↓Keeps.mk0, ↓Keeps.mkp, ↓Keeps.mkl, ↓Keeps.mkb]
    | with_reducible apply Keeps.ite
    | with_reducible apply Keeps.iteSnd
    | with_reducible apply Keeps.trans ?_ (updPort_kept ..)

theorem sendClass2_kept (port : Fin 16) (s : State) : Keeps s (sendClass2 port s) := by
  unfold sendClass2
  try dsimp only
  repeat' first
    | with_reducible apply Keeps.refl
    | simp only [↓Keeps.mk0, ↓Keeps.mkp, ↓Keeps.mkl, ↓Keeps.mkb]
    | with_reducible apply Keeps.ite
    | with_reducible apply Keeps.iteSnd
    | with_reducible apply Keeps.trans ?_ (updPort_kept ..)
    | with_reducible apply Keeps.trans ?_ (sendFlit_kept ..)
    | with_reducible apply mwrite_wf
    | with_reducible apply mwrites_wf
    | with_reducible apply mzero_wf
    | assumption
    | split

theorem c1Lost_kept (port : Fin 16) (f : Flit) (s : State) : Keeps s (c1Lost port f s) := by
  unfold c1Lost
  try dsimp only
  repeat' first
    | with_reducible apply Keeps.refl
    | simp only [↓Keeps.mk0, ↓Keeps.mkp, ↓Keeps.mkl, ↓Keeps.mkb]
    | with_reducible apply Keeps.ite
    | with_reducible apply Keeps.iteSnd
    | with_reducible apply Keeps.trans ?_ (updPort_kept ..)
    | with_reducible apply Keeps.trans ?_ (logErr_kept ..)

theorem toRetry_kept (port : Fin 16) (f : Flit) (s : State) : Keeps s (toRetry port f s) := by
  unfold toRetry
  try dsimp only
  repeat' first
    | with_reducible apply Keeps.refl
    | simp only [↓Keeps.mk0, ↓Keeps.mkp, ↓Keeps.mkl, ↓Keeps.mkb]
    | with_reducible apply Keeps.ite
    | with_reducible apply Keeps.iteSnd
    | with_reducible apply Keeps.trans ?_ (updPort_kept ..)
    | with_reducible apply Keeps.trans ?_ (c1Lost_kept ..)

theorem slotCollision_kept (cause idx inp outp : Nat) (hdr : U64) (s : State) : Keeps s (slotCollision cause idx inp outp hdr s) := by
  unfold slotCollision
  try dsimp only
  repeat' first
    | with_reducible apply Keeps.refl
    | simp only [↓Keeps.mk0, ↓Keeps.mkp, ↓Keeps.mkl, ↓Keeps.mkb]
    | with_reducible apply Keeps.ite
    | with_reducible apply Keeps.iteSnd
    | with_reducible apply Keeps.trans ?_ (raiseHalt_kept ..)

theorem execPeerSignalDetect_kept (port : Fin 16) (lanes : BitVec 5) (s : State) : OutKeeps s (execPeerSignalDetect port lanes s) := by
  unfold execPeerSignalDetect
  try dsimp only
  repeat' first
    | with_reducible apply Keeps.refl
    | with_reducible apply OutKeeps.next
    | with_reducible apply OutKeeps.refused
    | with_reducible apply OutKeeps.ite
    | simp only [↓Keeps.mk0, ↓Keeps.mkp, ↓Keeps.mkl, ↓Keeps.mkb]
    | with_reducible apply Keeps.ite
    | with_reducible apply Keeps.iteSnd
    | with_reducible apply Keeps.trans ?_ (updPort_kept ..)

theorem execTrainDone_kept (port : Fin 16) (trained : BitVec 5) (s : State) : OutKeeps s (execTrainDone port trained s) := by
  unfold execTrainDone
  try dsimp only
  repeat' first
    | with_reducible apply Keeps.refl
    | with_reducible apply OutKeeps.next
    | with_reducible apply OutKeeps.refused
    | with_reducible apply OutKeeps.ite
    | simp only [↓Keeps.mk0, ↓Keeps.mkp, ↓Keeps.mkl, ↓Keeps.mkb]
    | with_reducible apply Keeps.ite
    | with_reducible apply Keeps.iteSnd
    | with_reducible apply Keeps.trans ?_ (updPort_kept ..)
    | with_reducible apply Keeps.trans ?_ (checkService_kept ..)

theorem execAlignDone_kept (port : Fin 16) (locked : Bool) (peerModule : BitVec 12) (peerPort : BitVec 4) (s : State) : OutKeeps s (execAlignDone port locked peerModule peerPort s) := by
  unfold execAlignDone
  try dsimp only
  repeat' first
    | with_reducible apply Keeps.refl
    | with_reducible apply OutKeeps.next
    | with_reducible apply OutKeeps.refused
    | with_reducible apply OutKeeps.ite
    | simp only [↓Keeps.mk0, ↓Keeps.mkp, ↓Keeps.mkl, ↓Keeps.mkb]
    | with_reducible apply Keeps.ite
    | with_reducible apply Keeps.iteSnd
    | with_reducible apply Keeps.trans ?_ (updPort_kept ..)

theorem execLockLoss_kept (port : Fin 16) (s : State) : OutKeeps s (execLockLoss port s) := by
  unfold execLockLoss
  try dsimp only
  repeat' first
    | with_reducible apply Keeps.refl
    | with_reducible apply OutKeeps.next
    | with_reducible apply OutKeeps.refused
    | with_reducible apply OutKeeps.ite
    | simp only [↓Keeps.mk0, ↓Keeps.mkp, ↓Keeps.mkl, ↓Keeps.mkb]
    | with_reducible apply Keeps.ite
    | with_reducible apply Keeps.iteSnd
    | with_reducible apply Keeps.trans ?_ (updPort_kept ..)

theorem execRetrain_kept (port : Fin 16) (s : State) : OutKeeps s (execRetrain port s) := by
  unfold execRetrain
  try dsimp only
  repeat' first
    | with_reducible apply Keeps.refl
    | with_reducible apply OutKeeps.next
    | with_reducible apply OutKeeps.refused
    | with_reducible apply OutKeeps.ite
    | simp only [↓Keeps.mk0, ↓Keeps.mkp, ↓Keeps.mkl, ↓Keeps.mkb]
    | with_reducible apply Keeps.ite
    | with_reducible apply Keeps.iteSnd
    | with_reducible apply Keeps.trans ?_ (updPort_kept ..)

theorem execLaneFail_kept (port : Fin 16) (lane : Fin 5) (s : State) : OutKeeps s (execLaneFail port lane s) := by
  unfold execLaneFail
  try dsimp only
  repeat' first
    | with_reducible apply Keeps.refl
    | with_reducible apply OutKeeps.next
    | with_reducible apply OutKeeps.refused
    | with_reducible apply OutKeeps.ite
    | simp only [↓Keeps.mk0, ↓Keeps.mkp, ↓Keeps.mkl, ↓Keeps.mkb]
    | with_reducible apply Keeps.ite
    | with_reducible apply Keeps.iteSnd
    | with_reducible apply Keeps.trans ?_ (updPort_kept ..)

theorem execSpareTakeoverRequest_kept (port : Fin 16) (lane : Fin 4) (s : State) : OutKeeps s (execSpareTakeoverRequest port lane s) := by
  unfold execSpareTakeoverRequest
  try dsimp only
  repeat' first
    | with_reducible apply Keeps.refl
    | with_reducible apply OutKeeps.next
    | with_reducible apply OutKeeps.refused
    | with_reducible apply OutKeeps.ite
    | simp only [↓Keeps.mk0, ↓Keeps.mkp, ↓Keeps.mkl, ↓Keeps.mkb]
    | with_reducible apply Keeps.ite
    | with_reducible apply Keeps.iteSnd
    | with_reducible apply Keeps.trans ?_ (updPort_kept ..)

theorem execSpareLaneSwitch_kept (port : Fin 16) (s : State) : OutKeeps s (execSpareLaneSwitch port s) := by
  unfold execSpareLaneSwitch
  try dsimp only
  repeat' first
    | with_reducible apply Keeps.refl
    | with_reducible apply OutKeeps.next
    | with_reducible apply OutKeeps.refused
    | with_reducible apply OutKeeps.ite
    | simp only [↓Keeps.mk0, ↓Keeps.mkp, ↓Keeps.mkl, ↓Keeps.mkb]
    | with_reducible apply Keeps.ite
    | with_reducible apply Keeps.iteSnd
    | with_reducible apply Keeps.trans ?_ (updPort_kept ..)
    | with_reducible apply Keeps.trans ?_ (checkService_kept ..)

theorem execSpareTakeoverAck_kept (port : Fin 16) (s : State) : OutKeeps s (execSpareTakeoverAck port s) := by
  unfold execSpareTakeoverAck
  try dsimp only
  repeat' first
    | with_reducible apply Keeps.refl
    | with_reducible apply OutKeeps.next
    | with_reducible apply OutKeeps.refused
    | with_reducible apply OutKeeps.ite
    | simp only [↓Keeps.mk0, ↓Keeps.mkp, ↓Keeps.mkl, ↓Keeps.mkb]
    | with_reducible apply Keeps.ite
    | with_reducible apply Keeps.iteSnd
    | with_reducible apply Keeps.trans ?_ (updPort_kept ..)
    | with_reducible apply mwrite_wf
    | with_reducible apply mwrites_wf
    | with_reducible apply mzero_wf
    | assumption
    | split

theorem takeFlit_kept (port : Fin 16) (slot : Nat) (w : WireFlit) (s : State) : Keeps s (takeFlit port slot w s) := by
  unfold takeFlit
  try dsimp only
  repeat' first
    | with_reducible apply Keeps.refl
    | simp only [↓Keeps.mk0, ↓Keeps.mkp, ↓Keeps.mkl, ↓Keeps.mkb]
    | with_reducible apply Keeps.ite
    | with_reducible apply Keeps.iteSnd
    | with_reducible apply Keeps.trans ?_ (updPort_kept ..)

theorem sendNack_kept (port : Fin 16) (index : BitVec 64) (s : State) : Keeps s (sendNack port index s) := by
  unfold sendNack
  try dsimp only
  repeat' first
    | with_reducible apply Keeps.refl
    | simp only [↓Keeps.mk0, ↓Keeps.mkp, ↓Keeps.mkl, ↓Keeps.mkb]
    | with_reducible apply Keeps.ite
    | with_reducible apply Keeps.iteSnd
    | with_reducible apply Keeps.trans ?_ (updPort_kept ..)

theorem execCodewordReceive_kept (port : Fin 16) (cw : Codeword) (s : State) : OutKeeps s (execCodewordReceive port cw s) := by
  unfold execCodewordReceive
  try dsimp only
  repeat' first
    | with_reducible apply Keeps.refl
    | with_reducible apply OutKeeps.next
    | with_reducible apply OutKeeps.refused
    | with_reducible apply OutKeeps.ite
    | simp only [↓Keeps.mk0, ↓Keeps.mkp, ↓Keeps.mkl, ↓Keeps.mkb]
    | with_reducible apply Keeps.ite
    | with_reducible apply Keeps.iteSnd
    | with_reducible apply Keeps.trans ?_ (updPort_kept ..)
    | with_reducible apply Keeps.trans ?_ (takeFlit_kept ..)
    | with_reducible apply Keeps.trans ?_ (sendNack_kept ..)
    | with_reducible apply mwrite_wf
    | with_reducible apply mwrites_wf
    | with_reducible apply mzero_wf
    | assumption
    | split

theorem c2Resend_kept (port : Fin 16) (s : State) : Keeps s (c2Resend port s) := by
  unfold c2Resend
  try dsimp only
  repeat' first
    | with_reducible apply Keeps.refl
    | simp only [↓Keeps.mk0, ↓Keeps.mkp, ↓Keeps.mkl, ↓Keeps.mkb]
    | with_reducible apply Keeps.ite
    | with_reducible apply Keeps.iteSnd
    | with_reducible apply Keeps.trans ?_ (updPort_kept ..)

theorem execNackReceive_kept (port : Fin 16) (index : BitVec 12) (s : State) : OutKeeps s (execNackReceive port index s) := by
  unfold execNackReceive
  try dsimp only
  repeat' first
    | with_reducible apply Keeps.refl
    | with_reducible apply OutKeeps.next
    | with_reducible apply OutKeeps.refused
    | with_reducible apply OutKeeps.ite
    | simp only [↓Keeps.mk0, ↓Keeps.mkp, ↓Keeps.mkl, ↓Keeps.mkb]
    | with_reducible apply Keeps.ite
    | with_reducible apply Keeps.iteSnd
    | with_reducible apply Keeps.trans ?_ (updPort_kept ..)
    | with_reducible apply Keeps.trans ?_ (c1Lost_kept ..)
    | with_reducible apply Keeps.trans ?_ (toRetry_kept ..)
    | with_reducible apply Keeps.trans ?_ (c2Resend_kept ..)
    | (with_reducible apply Keeps.foldS; rotate_left; intro _ _)

theorem execFlitCopyExpire_kept (port : Fin 16) (s : State) : OutKeeps s (execFlitCopyExpire port s) := by
  unfold execFlitCopyExpire
  try dsimp only
  repeat' first
    | with_reducible apply Keeps.refl
    | with_reducible apply OutKeeps.next
    | with_reducible apply OutKeeps.refused
    | with_reducible apply OutKeeps.ite
    | simp only [↓Keeps.mk0, ↓Keeps.mkp, ↓Keeps.mkl, ↓Keeps.mkb]
    | with_reducible apply Keeps.ite
    | with_reducible apply Keeps.iteSnd
    | with_reducible apply Keeps.trans ?_ (updPort_kept ..)

theorem execRetryWaitExpire_kept (port : Fin 16) (s : State) : OutKeeps s (execRetryWaitExpire port s) := by
  unfold execRetryWaitExpire
  try dsimp only
  repeat' first
    | with_reducible apply Keeps.refl
    | with_reducible apply OutKeeps.next
    | with_reducible apply OutKeeps.refused
    | with_reducible apply OutKeeps.ite
    | simp only [↓Keeps.mk0, ↓Keeps.mkp, ↓Keeps.mkl, ↓Keeps.mkb]
    | with_reducible apply Keeps.ite
    | with_reducible apply Keeps.iteSnd
    | with_reducible apply Keeps.trans ?_ (updPort_kept ..)
    | with_reducible apply Keeps.trans ?_ (c1Lost_kept ..)
    | (with_reducible apply Keeps.foldS; rotate_left; intro _ _)

theorem execLaunchSlot_kept (port : Fin 16) (s : State) : OutKeeps s (execLaunchSlot port s) := by
  unfold execLaunchSlot
  try dsimp only
  repeat' first
    | with_reducible apply Keeps.refl
    | with_reducible apply OutKeeps.next
    | with_reducible apply OutKeeps.refused
    | with_reducible apply OutKeeps.ite
    | simp only [↓Keeps.mk0]
    | with_reducible apply Keeps.ite
    | with_reducible apply Keeps.iteSnd
    | with_reducible apply Keeps.trans ?_ (sendFlit_kept ..)
    | with_reducible apply Keeps.trans ?_ (sendClass2_kept ..)
    | with_reducible apply mwrite_wf
    | with_reducible apply mwrites_wf
    | with_reducible apply mzero_wf
    | assumption
    | split

theorem execTransitSlot_kept (port : Fin 16) (s : State) : OutKeeps s (execTransitSlot port s) := by
  unfold execTransitSlot
  try dsimp only
  repeat' first
    | with_reducible apply Keeps.refl
    | with_reducible apply OutKeeps.next
    | with_reducible apply OutKeeps.refused
    | with_reducible apply OutKeeps.ite
    | simp only [↓Keeps.mk0, ↓Keeps.mkp, ↓Keeps.mkl, ↓Keeps.mkb]
    | with_reducible apply Keeps.ite
    | with_reducible apply Keeps.iteSnd
    | with_reducible apply Keeps.trans ?_ (updPort_kept ..)
    | with_reducible apply Keeps.trans ?_ (sendFlit_kept ..)
    | with_reducible apply Keeps.trans ?_ (slotCollision_kept ..)
    | with_reducible apply mwrite_wf
    | with_reducible apply mwrites_wf
    | with_reducible apply mzero_wf
    | assumption
    | split

theorem execRetrySlot_kept (port : Fin 16) (s : State) : OutKeeps s (execRetrySlot port s) := by
  unfold execRetrySlot
  try dsimp only
  repeat' first
    | with_reducible apply Keeps.refl
    | with_reducible apply OutKeeps.next
    | with_reducible apply OutKeeps.refused
    | with_reducible apply OutKeeps.ite
    | simp only [↓Keeps.mk0, ↓Keeps.mkp, ↓Keeps.mkl, ↓Keeps.mkb]
    | with_reducible apply Keeps.ite
    | with_reducible apply Keeps.iteSnd
    | with_reducible apply Keeps.trans ?_ (updPort_kept ..)
    | with_reducible apply Keeps.trans ?_ (sendFlit_kept ..)
    | with_reducible apply Keeps.trans ?_ (sendClass2_kept ..)
    | with_reducible apply mwrite_wf
    | with_reducible apply mwrites_wf
    | with_reducible apply mzero_wf
    | assumption
    | split

theorem execFreeSlot_kept (port : Fin 16) (s : State) : OutKeeps s (execFreeSlot port s) := by
  unfold execFreeSlot
  try dsimp only
  repeat' first
    | with_reducible apply Keeps.refl
    | with_reducible apply OutKeeps.next
    | with_reducible apply OutKeeps.refused
    | with_reducible apply OutKeeps.ite
    | simp only [↓Keeps.mk0, ↓Keeps.mkp, ↓Keeps.mkl, ↓Keeps.mkb]
    | with_reducible apply Keeps.ite
    | with_reducible apply Keeps.iteSnd
    | with_reducible apply Keeps.trans ?_ (sendClass2_kept ..)

theorem toTransit_kept (inp outp : Fin 16) (slot : Nat) (f : Flit) (s : State) : Keeps s (toTransit inp outp slot f s) := by
  unfold toTransit
  try dsimp only
  repeat' first
    | with_reducible apply Keeps.refl
    | simp only [↓Keeps.mk0, ↓Keeps.mkp, ↓Keeps.mkl, ↓Keeps.mkb]
    | with_reducible apply Keeps.ite
    | with_reducible apply Keeps.iteSnd
    | with_reducible apply Keeps.trans ?_ (updPort_kept ..)
    | with_reducible apply Keeps.trans ?_ (slotCollision_kept ..)

theorem presentFlit_kept (port : Fin 16) (h : Held) (s : State) : Keeps s (presentFlit port h s) := by
  unfold presentFlit
  try dsimp only
  repeat' first
    | with_reducible apply Keeps.refl
    | simp only [↓Keeps.mk0]
    | with_reducible apply Keeps.ite
    | with_reducible apply Keeps.iteSnd
    | with_reducible apply Keeps.trans ?_ (toRetry_kept ..)
    | with_reducible apply Keeps.trans ?_ (slotCollision_kept ..)
    | with_reducible apply Keeps.trans ?_ (toTransit_kept ..)

theorem execFlitPresent_kept (port : Fin 16) (s : State) : OutKeeps s (execFlitPresent port s) := by
  unfold execFlitPresent
  try dsimp only
  repeat' first
    | with_reducible apply Keeps.refl
    | with_reducible apply OutKeeps.next
    | with_reducible apply OutKeeps.refused
    | with_reducible apply OutKeeps.ite
    | simp only [↓Keeps.mk0, ↓Keeps.mkp, ↓Keeps.mkl, ↓Keeps.mkb]
    | with_reducible apply Keeps.ite
    | with_reducible apply Keeps.iteSnd
    | with_reducible apply Keeps.trans ?_ (updPort_kept ..)
    | with_reducible apply Keeps.trans ?_ (presentFlit_kept ..)
    | (with_reducible apply Keeps.foldS; rotate_left; intro _ _)

theorem execC2ResendTimeout_kept (port : Fin 16) (s : State) : OutKeeps s (execC2ResendTimeout port s) := by
  unfold execC2ResendTimeout
  try dsimp only
  repeat' first
    | with_reducible apply Keeps.refl
    | with_reducible apply OutKeeps.next
    | with_reducible apply OutKeeps.refused
    | with_reducible apply OutKeeps.ite
    | simp only [↓Keeps.mk0, ↓Keeps.mkp, ↓Keeps.mkl, ↓Keeps.mkb]
    | with_reducible apply Keeps.ite
    | with_reducible apply Keeps.iteSnd
    | with_reducible apply Keeps.trans ?_ (c2Resend_kept ..)
    | with_reducible apply mwrite_wf
    | with_reducible apply mwrites_wf
    | with_reducible apply mzero_wf
    | assumption
    | split

theorem schedLaunch_kept (t : Nat) (a b : Fin 32) (s : State) : Keeps s (schedLaunch t a b s) := by
  unfold schedLaunch
  try dsimp only
  repeat' first
    | with_reducible apply Keeps.refl
    | simp only [↓Keeps.mk0]

theorem meshCheck_kept (s : State) : Keeps s (meshCheck s) := by
  unfold meshCheck
  try dsimp only
  repeat' first
    | with_reducible apply Keeps.refl
    | simp only [↓Keeps.mk0]
    | with_reducible apply Keeps.ite
    | with_reducible apply Keeps.iteSnd
    | with_reducible apply Keeps.trans ?_ (raiseHalt_kept ..)
    | (with_reducible apply Keeps.foldS; rotate_left; intro _ _)

theorem landAdd_kept (c : Fin 32) (n : BitVec 5) (s : State) : Keeps s (landAdd c n s) := by
  unfold landAdd
  try dsimp only
  repeat' first
    | with_reducible apply Keeps.refl
    | simp only [↓Keeps.mk0, ↓Keeps.mkp, ↓Keeps.mkl, ↓Keeps.mkb]
    | with_reducible apply Keeps.ite
    | with_reducible apply Keeps.iteSnd
    | with_reducible apply Keeps.trans ?_ (updCore_kept ..)

theorem landLate_kept (s : State) : Keeps s (landLate s) := by
  unfold landLate
  try dsimp only
  repeat' first
    | with_reducible apply Keeps.refl
    | simp only [↓Keeps.mk0]

theorem ackAdd_kept (c : BitVec 5) (a : Option (BitVec 5)) (s : State) : Keeps s (ackAdd c a s) := by
  unfold ackAdd
  try dsimp only
  repeat' first
    | with_reducible apply Keeps.refl
    | simp only [↓Keeps.mk0, ↓Keeps.mkp, ↓Keeps.mkl, ↓Keeps.mkb]
    | with_reducible apply Keeps.ite
    | with_reducible apply Keeps.iteSnd
    | with_reducible apply Keeps.trans ?_ (landAdd_kept ..)
    | with_reducible apply mwrite_wf
    | with_reducible apply mwrites_wf
    | with_reducible apply mzero_wf
    | assumption
    | split

theorem enqueueFlit_kept (q : Nat) (at_ : Option Nat) (f : Flit) (s : State) : Keeps s (enqueueFlit q at_ f s) := by
  unfold enqueueFlit
  try dsimp only
  repeat' first
    | with_reducible apply Keeps.refl
    | simp only [↓Keeps.mk0]
    | with_reducible apply Keeps.ite

theorem deliverFlits_kept (n : Option Nat) (l : List MeshFlit) (held : List Nat) (s : State) : Keeps s (deliverFlits n l held s) := by
  induction l generalizing held s with
  | nil => exact Keeps.refl s
  | cons e l ih =>
    unfold deliverFlits
    dsimp only
    refine Keeps.ite (Keeps.trans ?_ (ih ..)) (ih ..)
    exact ⟨rfl, id⟩

theorem deliverMesh_kept (t : Option Nat) (s : State) : Keeps s (deliverMesh t s) := by
  unfold deliverMesh
  try dsimp only
  repeat' first
    | with_reducible apply Keeps.refl
    | simp only [↓Keeps.mk0, ↓Keeps.mkp, ↓Keeps.mkl, ↓Keeps.mkb]
    | with_reducible apply Keeps.ite
    | with_reducible apply Keeps.iteSnd
    | with_reducible apply Keeps.trans ?_ (deliverFlits_kept ..)

theorem launchCut_kept (q : Nat) (at_ : Nat → Option Nat) (c : BitVec 5) (dest : BitVec 12) (space ikind : Nat) (key : U32)
    (l : List (Nat × List Byte)) (s : State) : Keeps s (launchCut q at_ c dest space ikind key l s) := by
  induction l generalizing s with
  | nil => exact Keeps.refl s
  | cons p t ih =>
    cases t with
    | nil => exact enqueueFlit_kept q _ _ s
    | cons p2 t => exact (enqueueFlit_kept q _ (c1flit s c dest space p.1 ikind false key p.2) s).trans (ih _)

theorem launchItem_kept (c : Fin 32) (dest : BitVec 12) (port : Option (Fin 16)) (read : Nat → Nat) (space off ikind : Nat) (bs : List Byte) (s : State) : Keeps s (launchItem c dest port read space off ikind bs s) := by
  unfold launchItem
  try dsimp only
  repeat' first
    | with_reducible apply Keeps.refl
    | simp only [↓Keeps.mk0, ↓Keeps.mkp, ↓Keeps.mkl, ↓Keeps.mkb]
    | with_reducible apply Keeps.ite
    | with_reducible apply Keeps.iteSnd
    | with_reducible apply Keeps.trans ?_ (launchCut_kept ..)

theorem launchBellFlit_kept (c : Fin 32) (m : BitVec 12) (r : BellReq) (s : State) : Keeps s (launchBellFlit c m r s) := by
  unfold launchBellFlit
  try dsimp only
  repeat' first
    | with_reducible apply Keeps.refl
    | simp only [↓Keeps.mk0, ↓Keeps.mkp, ↓Keeps.mkl, ↓Keeps.mkb]
    | with_reducible apply Keeps.ite
    | with_reducible apply Keeps.iteSnd
    | with_reducible apply Keeps.trans ?_ (schedLaunch_kept ..)
    | with_reducible apply Keeps.trans ?_ (enqueueFlit_kept ..)
    | with_reducible apply mwrite_wf
    | with_reducible apply mwrites_wf
    | with_reducible apply mzero_wf
    | assumption
    | split

theorem launchBell1_kept (r : BellReq) (s : State) : Keeps s (launchBell1 r s) := by
  unfold launchBell1
  try dsimp only
  repeat' first
    | with_reducible apply Keeps.refl
    | simp only [↓Keeps.mk0]
    | with_reducible apply Keeps.ite
    | with_reducible apply Keeps.iteSnd
    | with_reducible apply Keeps.trans ?_ (updCore_kept ..)
    | with_reducible apply Keeps.trans ?_ (c0send_kept ..)
    | with_reducible apply Keeps.trans ?_ (ackAdd_kept ..)
    | with_reducible apply Keeps.trans ?_ (launchBellFlit_kept ..)

theorem launchBell_kept (r : BellReq) (mcast : Bool) (s : State) : Keeps s (launchBell r mcast s) := by
  unfold launchBell
  try dsimp only
  repeat' first
    | with_reducible apply Keeps.refl
    | simp only [↓Keeps.mk0, ↓Keeps.mkp, ↓Keeps.mkl, ↓Keeps.mkb]
    | with_reducible apply Keeps.ite
    | with_reducible apply Keeps.iteSnd
    | with_reducible apply Keeps.trans ?_ (launchBell1_kept ..)
    | (with_reducible apply Keeps.foldS; rotate_left; intro _ _)

theorem writePred_kept (c : Fin 32) (i : Nat) (v : Bool) (s : State) : Keeps s (writePred c i v s) := by
  unfold writePred
  try dsimp only
  repeat' first
    | with_reducible apply Keeps.refl
    | simp only [↓Keeps.mk0, ↓Keeps.mkp, ↓Keeps.mkl, ↓Keeps.mkb]
    | with_reducible apply Keeps.ite
    | with_reducible apply Keeps.iteSnd
    | with_reducible apply Keeps.trans ?_ (updCore_kept ..)

theorem issuePreds_kept (c : Fin 32) (mask value : U16) (s : State) : Keeps s (issuePreds c mask value s) := by
  unfold issuePreds
  try dsimp only
  repeat' first
    | with_reducible apply Keeps.refl
    | simp only [↓Keeps.mk0, ↓Keeps.mkp, ↓Keeps.mkl, ↓Keeps.mkb]
    | with_reducible apply Keeps.ite
    | with_reducible apply Keeps.iteSnd
    | with_reducible apply Keeps.trans ?_ (updCore_kept ..)

theorem fireSignal_kept (c : Fin 32) (idx : Nat) (f : U32) (s : State) : Keeps s (fireSignal c idx f s) := by
  unfold fireSignal
  try dsimp only
  repeat' first
    | with_reducible apply Keeps.refl
    | simp only [↓Keeps.mk0, ↓Keeps.mkp, ↓Keeps.mkl, ↓Keeps.mkb]
    | with_reducible apply Keeps.ite
    | with_reducible apply Keeps.iteSnd
    | with_reducible apply Keeps.trans ?_ (updCore_kept ..)
    | with_reducible apply Keeps.trans ?_ (launchBell_kept ..)
    | with_reducible apply mwrite_wf
    | with_reducible apply mwrites_wf
    | with_reducible apply mzero_wf
    | assumption
    | split

theorem fireSignals_kept (c : Fin 32) (idx : Nat) (sigs : U64) (s : State) : Keeps s (fireSignals c idx sigs s) := by
  unfold fireSignals
  try dsimp only
  repeat' first
    | with_reducible apply Keeps.refl
    | simp only [↓Keeps.mk0, ↓Keeps.mkp, ↓Keeps.mkl, ↓Keeps.mkb]
    | with_reducible apply Keeps.ite
    | with_reducible apply Keeps.iteSnd
    | with_reducible apply Keeps.trans ?_ (fireSignal_kept ..)

theorem updateBuoys_kept (r : BellReq) (new : U64) (s : State) : Keeps s (updateBuoys r new s) := by
  unfold updateBuoys
  try dsimp only
  repeat' first
    | with_reducible apply Keeps.refl
    | simp only [↓Keeps.mk0]

theorem logBell_kept (home : Fin 32) (r : BellReq) (new : U64) (s : State) : Keeps s (logBell home r new s) := by
  unfold logBell
  try dsimp only
  repeat' first
    | with_reducible apply Keeps.refl
    | simp only [↓Keeps.mk0, ↓Keeps.mkp, ↓Keeps.mkl, ↓Keeps.mkb]
    | with_reducible apply Keeps.ite
    | with_reducible apply Keeps.iteSnd
    | with_reducible apply Keeps.trans ?_ (updCore_kept ..)

theorem acceptMsg_kept (dest : BitVec 12) (core : BitVec 5) (n : Nat) (s : State) : Keeps s (acceptMsg dest core n s) := by
  unfold acceptMsg
  try dsimp only
  repeat' first
    | with_reducible apply Keeps.refl
    | simp only [↓Keeps.mk0, ↓Keeps.mkp, ↓Keeps.mkl, ↓Keeps.mkb]
    | with_reducible apply Keeps.ite
    | with_reducible apply Keeps.iteSnd
    | with_reducible apply Keeps.trans ?_ (c0send_kept ..)

theorem returnRead_kept (r : BellReq) (v : U64) (s : State) : Keeps s (returnRead r v s) := by
  unfold returnRead
  try dsimp only
  repeat' first
    | with_reducible apply Keeps.refl
    | simp only [↓Keeps.mk0, ↓Keeps.mkp, ↓Keeps.mkl, ↓Keeps.mkb]
    | with_reducible apply Keeps.ite
    | with_reducible apply Keeps.iteSnd
    | with_reducible apply Keeps.trans ?_ (updCore_kept ..)
    | with_reducible apply Keeps.trans ?_ (launchCut_kept ..)

theorem bellPassed_kept (r : BellReq) (s : State) : Keeps s (bellPassed r s) := by
  unfold bellPassed
  try dsimp only
  repeat' first
    | with_reducible apply Keeps.refl
    | simp only [↓Keeps.mk0]
    | with_reducible apply Keeps.ite
    | with_reducible apply Keeps.iteSnd
    | with_reducible apply Keeps.trans ?_ (updCore_kept ..)
    | with_reducible apply Keeps.trans ?_ (updPath_kept ..)
    | with_reducible apply Keeps.trans ?_ (acceptMsg_kept ..)
    | with_reducible apply mwrite_wf
    | with_reducible apply mwrites_wf
    | with_reducible apply mzero_wf
    | assumption
    | split

theorem bellApplied_kept (r : BellReq) (old : U64) (s : State) : Keeps s (bellApplied r old s) := by
  unfold bellApplied
  try dsimp only
  repeat' first
    | with_reducible apply Keeps.refl
    | simp only [↓Keeps.mk0, ↓Keeps.mkp, ↓Keeps.mkl, ↓Keeps.mkb]
    | with_reducible apply Keeps.ite
    | with_reducible apply Keeps.iteSnd
    | with_reducible apply Keeps.trans ?_ (updCore_kept ..)
    | with_reducible apply Keeps.trans ?_ (ackAdd_kept ..)
    | with_reducible apply Keeps.trans ?_ (updateBuoys_kept ..)
    | with_reducible apply Keeps.trans ?_ (logBell_kept ..)
    | with_reducible apply Keeps.trans ?_ (returnRead_kept ..)
    | with_reducible apply Keeps.trans ?_ (bellPassed_kept ..)
    | with_reducible apply mwrite_wf
    | with_reducible apply mwrites_wf
    | with_reducible apply mzero_wf
    | assumption
    | split

theorem bellArrive_kept (r : BellReq) (s : State) : Keeps s (bellArrive r s) := by
  unfold bellArrive
  try dsimp only
  repeat' first
    | with_reducible apply Keeps.refl
    | simp only [↓Keeps.mk0, ↓Keeps.mkp, ↓Keeps.mkl, ↓Keeps.mkb]
    | with_reducible apply Keeps.ite
    | with_reducible apply Keeps.iteSnd
    | with_reducible apply Keeps.trans ?_ (updStack_kept ..)
    | with_reducible apply Keeps.trans ?_ (fillAdd_kept ..)
    | with_reducible apply mwrite_wf
    | with_reducible apply mwrites_wf
    | with_reducible apply mzero_wf
    | assumption
    | split

theorem bellRow_kept (op : BitVec 2) (src : Fin 32) (express : Bool) (s : State) : Keeps s (bellRow op src express s) := by
  unfold bellRow
  try dsimp only
  repeat' first
    | with_reducible apply Keeps.refl
    | simp only [↓Keeps.mk0, ↓Keeps.mkp, ↓Keeps.mkl, ↓Keeps.mkb]
    | with_reducible apply Keeps.ite
    | with_reducible apply Keeps.iteSnd
    | with_reducible apply Keeps.trans ?_ (updCore_kept ..)
    | with_reducible apply Keeps.trans ?_ (bellArrive_kept ..)
    | with_reducible apply mwrite_wf
    | with_reducible apply mwrites_wf
    | with_reducible apply mzero_wf
    | assumption
    | split

theorem execBellAdd_kept (src : BellPath) (s : State) : OutKeeps s (execBellAdd src s) := by
  unfold execBellAdd
  try dsimp only
  repeat' first
    | with_reducible apply Keeps.refl
    | with_reducible apply OutKeeps.next
    | with_reducible apply OutKeeps.refused
    | with_reducible apply OutKeeps.ite
    | simp only [↓Keeps.mk0, ↓Keeps.mkp, ↓Keeps.mkl, ↓Keeps.mkb]
    | with_reducible apply Keeps.ite
    | with_reducible apply Keeps.iteSnd
    | with_reducible apply Keeps.trans ?_ (bellRow_kept ..)

theorem execBellSet_kept (src : BellPath) (s : State) : OutKeeps s (execBellSet src s) := by
  unfold execBellSet
  try dsimp only
  repeat' first
    | with_reducible apply Keeps.refl
    | with_reducible apply OutKeeps.next
    | with_reducible apply OutKeeps.refused
    | with_reducible apply OutKeeps.ite
    | simp only [↓Keeps.mk0, ↓Keeps.mkp, ↓Keeps.mkl, ↓Keeps.mkb]
    | with_reducible apply Keeps.ite
    | with_reducible apply Keeps.iteSnd
    | with_reducible apply Keeps.trans ?_ (bellRow_kept ..)

theorem execBellMax_kept (src : BellPath) (s : State) : OutKeeps s (execBellMax src s) := by
  unfold execBellMax
  try dsimp only
  repeat' first
    | with_reducible apply Keeps.refl
    | with_reducible apply OutKeeps.next
    | with_reducible apply OutKeeps.refused
    | with_reducible apply OutKeeps.ite
    | simp only [↓Keeps.mk0, ↓Keeps.mkp, ↓Keeps.mkl, ↓Keeps.mkb]
    | with_reducible apply Keeps.ite
    | with_reducible apply Keeps.iteSnd
    | with_reducible apply Keeps.trans ?_ (bellRow_kept ..)

theorem execBellRead_kept (src : Fin 32) (s : State) : OutKeeps s (execBellRead src s) := by
  unfold execBellRead
  try dsimp only
  repeat' first
    | with_reducible apply Keeps.refl
    | with_reducible apply OutKeeps.next
    | with_reducible apply OutKeeps.refused
    | with_reducible apply OutKeeps.ite
    | simp only [↓Keeps.mk0, ↓Keeps.mkp, ↓Keeps.mkl, ↓Keeps.mkb]
    | with_reducible apply Keeps.ite
    | with_reducible apply Keeps.iteSnd
    | with_reducible apply Keeps.trans ?_ (bellRow_kept ..)

theorem execReadValueLanding_kept (core : Fin 32) (s : State) : OutKeeps s (execReadValueLanding core s) := by
  unfold execReadValueLanding
  try dsimp only
  repeat' first
    | with_reducible apply Keeps.refl
    | with_reducible apply OutKeeps.next
    | with_reducible apply OutKeeps.refused
    | with_reducible apply OutKeeps.ite
    | simp only [↓Keeps.mk0, ↓Keeps.mkp, ↓Keeps.mkl, ↓Keeps.mkb]
    | with_reducible apply Keeps.ite
    | with_reducible apply Keeps.iteSnd
    | with_reducible apply Keeps.trans ?_ (updCore_kept ..)
    | with_reducible apply Keeps.trans ?_ (fillAsk_kept ..)
    | with_reducible apply Keeps.trans ?_ (ackAdd_kept ..)
    | with_reducible apply mwrite_wf
    | with_reducible apply mwrites_wf
    | with_reducible apply mzero_wf
    | assumption
    | split

theorem execBuoyRegistration_kept (core : Fin 32) (buoy : BitVec 6) (s : State) : OutKeeps s (execBuoyRegistration core buoy s) := by
  unfold execBuoyRegistration
  try dsimp only
  repeat' first
    | with_reducible apply Keeps.refl
    | with_reducible apply OutKeeps.next
    | with_reducible apply OutKeeps.refused
    | with_reducible apply OutKeeps.ite
    | simp only [↓Keeps.mk0, ↓Keeps.mkp, ↓Keeps.mkl, ↓Keeps.mkb]
    | with_reducible apply Keeps.ite
    | with_reducible apply Keeps.iteSnd
    | with_reducible apply Keeps.trans ?_ (updCore_kept ..)
    | with_reducible apply Keeps.trans ?_ (bellArrive_kept ..)

theorem execBuoyValueArrival_kept (core : Fin 32) (buoy : BitVec 6) (s : State) : OutKeeps s (execBuoyValueArrival core buoy s) := by
  unfold execBuoyValueArrival
  try dsimp only
  repeat' first
    | with_reducible apply Keeps.refl
    | with_reducible apply OutKeeps.next
    | with_reducible apply OutKeeps.refused
    | with_reducible apply OutKeeps.ite
    | simp only [↓Keeps.mk0, ↓Keeps.mkp, ↓Keeps.mkl, ↓Keeps.mkb]
    | with_reducible apply Keeps.ite
    | with_reducible apply Keeps.iteSnd
    | with_reducible apply Keeps.trans ?_ (updCore_kept ..)
    | with_reducible apply mwrite_wf
    | with_reducible apply mwrites_wf
    | with_reducible apply mzero_wf
    | assumption
    | split

theorem effBellOp_kept (c : Fin 32) (e : LookEntry) (s : State) : Keeps s (effBellOp c e s) := by
  unfold effBellOp
  try dsimp only
  repeat' first
    | with_reducible apply Keeps.refl
    | simp only [↓Keeps.mk0, ↓Keeps.mkp, ↓Keeps.mkl, ↓Keeps.mkb]
    | with_reducible apply Keeps.ite
    | with_reducible apply Keeps.iteSnd
    | with_reducible apply Keeps.trans ?_ (launchBell_kept ..)

theorem effBuoyArm_kept (c : Fin 32) (e : LookEntry) (s : State) : Keeps s (effBuoyArm c e s) := by
  unfold effBuoyArm
  try dsimp only
  repeat' first
    | with_reducible apply Keeps.refl
    | simp only [↓Keeps.mk0, ↓Keeps.mkp, ↓Keeps.mkl, ↓Keeps.mkb]
    | with_reducible apply Keeps.ite
    | with_reducible apply Keeps.iteSnd
    | with_reducible apply Keeps.trans ?_ (updCore_kept ..)

theorem effBuoyDisarm_kept (c : Fin 32) (e : LookEntry) (s : State) : Keeps s (effBuoyDisarm c e s) := by
  unfold effBuoyDisarm
  try dsimp only
  repeat' first
    | with_reducible apply Keeps.refl
    | simp only [↓Keeps.mk0, ↓Keeps.mkp, ↓Keeps.mkl, ↓Keeps.mkb]
    | with_reducible apply Keeps.ite
    | with_reducible apply Keeps.iteSnd
    | with_reducible apply Keeps.trans ?_ (updCore_kept ..)

theorem effBellTest_kept (c : Fin 32) (e : LookEntry) (s : State) : Keeps s (effBellTest c e s) := by
  unfold effBellTest
  try dsimp only
  repeat' first
    | with_reducible apply Keeps.refl
    | simp only [↓Keeps.mk0, ↓Keeps.mkp, ↓Keeps.mkl, ↓Keeps.mkb]
    | with_reducible apply Keeps.ite
    | with_reducible apply Keeps.iteSnd
    | with_reducible apply Keeps.trans ?_ (writePred_kept ..)

theorem creditBack_kept (c : Fin 32) (ep : BitVec 7) (member units : Nat) (s : State) : Keeps s (creditBack c ep member units s) := by
  unfold creditBack
  try dsimp only
  repeat' first
    | with_reducible apply Keeps.refl
    | simp only [↓Keeps.mk0, ↓Keeps.mkp, ↓Keeps.mkl, ↓Keeps.mkb]
    | with_reducible apply Keeps.ite
    | with_reducible apply Keeps.iteSnd
    | with_reducible apply Keeps.trans ?_ (updCore_kept ..)

theorem takeDrop_kept (c : Fin 32) (ep : BitVec 7) (member units : Nat) (reason : BitVec 2) (seq : U32) (receiver : BitVec 12) (s : State) : Keeps s (takeDrop c ep member units reason seq receiver s) := by
  unfold takeDrop
  try dsimp only
  repeat' first
    | with_reducible apply Keeps.refl
    | simp only [↓Keeps.mk0, ↓Keeps.mkp, ↓Keeps.mkl, ↓Keeps.mkb]
    | with_reducible apply Keeps.ite
    | with_reducible apply Keeps.iteSnd
    | with_reducible apply Keeps.trans ?_ (updCore_kept ..)
    | with_reducible apply Keeps.trans ?_ (logErr_kept ..)
    | with_reducible apply Keeps.trans ?_ (raiseHalt_kept ..)
    | with_reducible apply Keeps.trans ?_ (creditBack_kept ..)

theorem forwardCredit_kept (gi : Nat) (gen : U16) (s : State) : Keeps s (forwardCredit gi gen s) := by
  unfold forwardCredit
  try dsimp only
  repeat' first
    | with_reducible apply Keeps.refl
    | simp only [↓Keeps.mk0]
    | with_reducible apply Keeps.ite
    | with_reducible apply Keeps.iteSnd
    | with_reducible apply Keeps.trans ?_ (c0send_kept ..)
    | with_reducible apply mwrite_wf
    | with_reducible apply mwrites_wf
    | with_reducible apply mzero_wf
    | assumption
    | split

theorem returnCredit_kept (c : Fin 32) (ep : BitVec 7) (units : Nat) (s : State) : Keeps s (returnCredit c ep units s) := by
  unfold returnCredit
  try dsimp only
  repeat' first
    | with_reducible apply Keeps.refl
    | simp only [↓Keeps.mk0, ↓Keeps.mkp, ↓Keeps.mkl, ↓Keeps.mkb]
    | with_reducible apply Keeps.ite
    | with_reducible apply Keeps.iteSnd
    | with_reducible apply Keeps.trans ?_ (updCore_kept ..)
    | with_reducible apply Keeps.trans ?_ (c0send_kept ..)
    | with_reducible apply Keeps.trans ?_ (forwardCredit_kept ..)

theorem returnDrop_kept (c : Fin 32) (ep : BitVec 7) (m : ChMsg) (reason : BitVec 2) (s : State) : Keeps s (returnDrop c ep m reason s) := by
  unfold returnDrop
  try dsimp only
  repeat' first
    | with_reducible apply Keeps.refl
    | simp only [↓Keeps.mk0, ↓Keeps.mkp, ↓Keeps.mkl, ↓Keeps.mkb]
    | with_reducible apply Keeps.ite
    | with_reducible apply Keeps.iteSnd
    | with_reducible apply Keeps.trans ?_ (updCore_kept ..)
    | with_reducible apply Keeps.trans ?_ (c0send_kept ..)

theorem markLanded_kept (c : Fin 32) (ep : BitVec 7) (seq : U32) (start units need : Nat) (s : State) : Keeps s (markLanded c ep seq start units need s) := by
  unfold markLanded
  try dsimp only
  repeat' first
    | with_reducible apply Keeps.refl
    | simp only [↓Keeps.mk0, ↓Keeps.mkp, ↓Keeps.mkl, ↓Keeps.mkb]
    | with_reducible apply Keeps.ite
    | with_reducible apply Keeps.iteSnd
    | with_reducible apply Keeps.trans ?_ (updCore_kept ..)
    | with_reducible apply Keeps.trans ?_ (landAdd_kept ..)

theorem popPath_kept (src : Fin 32) (s : State) : Keeps s (popPath src s) := by
  unfold popPath
  try dsimp only
  repeat' first
    | with_reducible apply Keeps.refl
    | simp only [↓Keeps.mk0, ↓Keeps.mkp, ↓Keeps.mkl, ↓Keeps.mkb]
    | with_reducible apply Keeps.ite
    | with_reducible apply Keeps.iteSnd
    | with_reducible apply Keeps.trans ?_ (updCore_kept ..)

theorem messageArrive_kept (src c : Fin 32) (ep : BitVec 7) (m : ChMsg) (s : State) : Keeps s (messageArrive src c ep m s) := by
  unfold messageArrive
  try dsimp only
  repeat' first
    | with_reducible apply Keeps.refl
    | simp only [↓Keeps.mk0, ↓Keeps.mkp, ↓Keeps.mkl, ↓Keeps.mkb]
    | with_reducible apply Keeps.ite
    | with_reducible apply Keeps.iteSnd
    | with_reducible apply Keeps.trans ?_ (updCore_kept ..)
    | with_reducible apply Keeps.trans ?_ (fillAsk_kept ..)
    | with_reducible apply Keeps.trans ?_ (returnDrop_kept ..)
    | with_reducible apply Keeps.trans ?_ (popPath_kept ..)

theorem execChannelMessageLanded_kept (core : Fin 32) (ep : BitVec 7) (s : State) : OutKeeps s (execChannelMessageLanded core ep s) := by
  unfold execChannelMessageLanded
  try dsimp only
  repeat' first
    | with_reducible apply Keeps.refl
    | with_reducible apply OutKeeps.next
    | with_reducible apply OutKeeps.refused
    | with_reducible apply OutKeeps.ite
    | simp only [↓Keeps.mk0, ↓Keeps.mkp, ↓Keeps.mkl, ↓Keeps.mkb]
    | with_reducible apply Keeps.ite
    | with_reducible apply Keeps.iteSnd
    | with_reducible apply Keeps.trans ?_ (returnDrop_kept ..)
    | with_reducible apply Keeps.trans ?_ (markLanded_kept ..)
    | with_reducible apply Keeps.trans ?_ (popPath_kept ..)
    | with_reducible apply Keeps.trans ?_ (messageArrive_kept ..)
    | with_reducible apply mwrite_wf
    | with_reducible apply mwrites_wf
    | with_reducible apply mzero_wf
    | assumption
    | split

theorem execCreditReturnArrival_kept (core : Fin 32) (ep : BitVec 7) (s : State) : OutKeeps s (execCreditReturnArrival core ep s) := by
  unfold execCreditReturnArrival
  try dsimp only
  repeat' first
    | with_reducible apply Keeps.refl
    | with_reducible apply OutKeeps.next
    | with_reducible apply OutKeeps.refused
    | with_reducible apply OutKeeps.ite
    | simp only [↓Keeps.mk0, ↓Keeps.mkp, ↓Keeps.mkl, ↓Keeps.mkb]
    | with_reducible apply Keeps.ite
    | with_reducible apply Keeps.iteSnd
    | with_reducible apply Keeps.trans ?_ (updCore_kept ..)
    | with_reducible apply Keeps.trans ?_ (creditBack_kept ..)
    | with_reducible apply Keeps.trans ?_ (takeDrop_kept ..)
    | with_reducible apply mwrite_wf
    | with_reducible apply mwrites_wf
    | with_reducible apply mzero_wf
    | assumption
    | split

theorem effChSend_kept (c : Fin 32) (e : LookEntry) (s : State) : Keeps s (effChSend c e s) := by
  unfold effChSend
  try dsimp only
  repeat' first
    | with_reducible apply Keeps.refl
    | simp only [↓Keeps.mk0, ↓Keeps.mkp, ↓Keeps.mkl, ↓Keeps.mkb]
    | with_reducible apply Keeps.ite
    | with_reducible apply Keeps.iteSnd
    | with_reducible apply Keeps.trans ?_ (updCore_kept ..)

theorem launchMessage_kept (c : Fin 32) (role group : Nat) (peer : BitVec 12) (m : ChMsg) (ringBase : Nat) (read : Nat → Nat) (s : State) : Keeps s (launchMessage c role group peer m ringBase read s) := by
  unfold launchMessage
  try dsimp only
  repeat' first
    | with_reducible apply Keeps.refl
    | simp only [↓Keeps.mk0, ↓Keeps.mkp, ↓Keeps.mkl, ↓Keeps.mkb]
    | with_reducible apply Keeps.ite
    | with_reducible apply Keeps.iteSnd
    | with_reducible apply Keeps.trans ?_ (updCore_kept ..)
    | with_reducible apply Keeps.trans ?_ (launchItem_kept ..)
    | (with_reducible apply Keeps.foldS; rotate_left; intro _ _)
    | with_reducible apply mwrite_wf
    | with_reducible apply mwrites_wf
    | with_reducible apply mzero_wf
    | assumption
    | split

theorem execChSendComplete_kept (core : Fin 32) (s : State) : OutKeeps s (execChSendComplete core s) := by
  unfold execChSendComplete
  try dsimp only
  repeat' first
    | with_reducible apply Keeps.refl
    | with_reducible apply OutKeeps.next
    | with_reducible apply OutKeeps.refused
    | with_reducible apply OutKeeps.ite
    | simp only [↓Keeps.mk0, ↓Keeps.mkp, ↓Keeps.mkl, ↓Keeps.mkb]
    | with_reducible apply Keeps.ite
    | with_reducible apply Keeps.iteSnd
    | with_reducible apply Keeps.trans ?_ (updCore_kept ..)
    | with_reducible apply Keeps.trans ?_ (fireSignals_kept ..)
    | with_reducible apply Keeps.trans ?_ (launchMessage_kept ..)
    | with_reducible apply mwrite_wf
    | with_reducible apply mwrites_wf
    | with_reducible apply mzero_wf
    | assumption
    | split

theorem effChRelease_kept (c : Fin 32) (e : LookEntry) (s : State) : Keeps s (effChRelease c e s) := by
  unfold effChRelease
  try dsimp only
  repeat' first
    | with_reducible apply Keeps.refl
    | simp only [↓Keeps.mk0, ↓Keeps.mkp, ↓Keeps.mkl, ↓Keeps.mkb]
    | with_reducible apply Keeps.ite
    | with_reducible apply Keeps.iteSnd
    | with_reducible apply Keeps.trans ?_ (updCore_kept ..)
    | with_reducible apply Keeps.trans ?_ (returnCredit_kept ..)

theorem effChClose_kept (c : Fin 32) (e : LookEntry) (s : State) : Keeps s (effChClose c e s) := by
  unfold effChClose
  try dsimp only
  repeat' first
    | with_reducible apply Keeps.refl
    | simp only [↓Keeps.mk0, ↓Keeps.mkp, ↓Keeps.mkl, ↓Keeps.mkb]
    | with_reducible apply Keeps.ite
    | with_reducible apply Keeps.iteSnd
    | with_reducible apply Keeps.trans ?_ (updCore_kept ..)

theorem groupsAtLeg_kept (s : State) : Keeps s (groupsAtLeg s) := by
  unfold groupsAtLeg
  try dsimp only
  repeat' first
    | with_reducible apply Keeps.refl
    | simp only [↓Keeps.mk0]

end Sys2Proof.Machine
end

