-- ==== Sys2Proof/Laws/KeepsB.lean ====
section
/-! SUPPORT. What every operation of the model keeps: the fuses, the key slots and the canonical form of memory (streams, clock, stacks, life cycle, ingress, sequencer and power). -/

namespace Sys2Proof.Machine

theorem streamFault_kept (c : Fin 32) (desc : BitVec 11) (d : BitVec 512) (b : RoundBase) (p : Nat) (x : U64) (s : State) : Keeps s (streamFault c desc d b p x s) := by
  unfold streamFault
  try dsimp only
  repeat' first
    | with_reducible apply Keeps.refl
    | simp only [↓Keeps.mk0, ↓Keeps.mkp, ↓Keeps.mkl, ↓Keeps.mkb]
    | with_reducible apply Keeps.ite
    | with_reducible apply Keeps.iteSnd
    | with_reducible apply Keeps.trans ?_ (updCore_kept ..)
    | with_reducible apply Keeps.trans ?_ (raiseHalt_kept ..)

theorem lineLanded_kept (f : FillAcc) (s : State) : Keeps s (lineLanded f s) := by
  unfold lineLanded
  try dsimp only
  repeat' first
    | with_reducible apply Keeps.refl
    | simp only [↓Keeps.mk0, ↓Keeps.mkp, ↓Keeps.mkl, ↓Keeps.mkb]
    | with_reducible apply Keeps.ite
    | with_reducible apply Keeps.iteSnd
    | with_reducible apply Keeps.trans ?_ (updCore_kept ..)
    | with_reducible apply mwrite_wf
    | with_reducible apply mwrites_wf
    | with_reducible apply mzero_wf
    | assumption
    | split

theorem bellTurn_kept (c : Fin 32) (f : FillAcc) (r : BellReq) (old : Option U64) (s : State) : Keeps s (bellTurn c f r old s) := by
  unfold bellTurn
  try dsimp only
  repeat' first
    | with_reducible apply Keeps.refl
    | simp only [↓Keeps.mk0, ↓Keeps.mkp, ↓Keeps.mkl, ↓Keeps.mkb]
    | with_reducible apply Keeps.ite
    | with_reducible apply Keeps.iteSnd
    | with_reducible apply Keeps.trans ?_ (updCore_kept ..)
    | with_reducible apply Keeps.trans ?_ (bellApplied_kept ..)

theorem execFillAccess_kept (core : Fin 32) (bank : BitVec 5) (s : State) : OutKeeps s (execFillAccess core bank s) := by
  unfold execFillAccess
  try dsimp only
  repeat' first
    | with_reducible apply Keeps.refl
    | with_reducible apply OutKeeps.next
    | with_reducible apply OutKeeps.refused
    | with_reducible apply OutKeeps.ite
    | simp only [↓Keeps.mk0, ↓Keeps.mkp, ↓Keeps.mkl, ↓Keeps.mkb]
    | with_reducible apply Keeps.ite
    | with_reducible apply Keeps.iteSnd
    | with_reducible apply Keeps.trans ?_ (updCore_kept ..)
    | with_reducible apply Keeps.trans ?_ (deliver_kept ..)
    | with_reducible apply Keeps.trans ?_ (accepted_kept ..)
    | with_reducible apply Keeps.trans ?_ (lineLanded_kept ..)
    | with_reducible apply Keeps.trans ?_ (bellTurn_kept ..)
    | with_reducible apply mwrite_wf
    | with_reducible apply mwrites_wf
    | with_reducible apply mzero_wf
    | assumption
    | split

theorem startFetch_kept (c : Fin 32) (desc : BitVec 11) (d : BitVec 512) (p : Nat) (m : Move) (s : State) : Keeps s (startFetch c desc d p m s) := by
  unfold startFetch
  try dsimp only
  repeat' first
    | with_reducible apply Keeps.refl
    | simp only [↓Keeps.mk0, ↓Keeps.mkp, ↓Keeps.mkl, ↓Keeps.mkb]
    | with_reducible apply Keeps.ite
    | with_reducible apply Keeps.iteSnd
    | with_reducible apply Keeps.trans ?_ (updCore_kept ..)
    | with_reducible apply Keeps.trans ?_ (stackAsk_kept ..)
    | with_reducible apply Keeps.trans ?_ (rangeRead_kept ..)
    | with_reducible apply Keeps.trans ?_ (enqueueFlit_kept ..)

theorem startOut_kept (c : Fin 32) (desc : BitVec 11) (e : Elem) (m : Move) (s : State) : Keeps s (startOut c desc e m s) := by
  unfold startOut
  try dsimp only
  repeat' first
    | with_reducible apply Keeps.refl
    | simp only [↓Keeps.mk0, ↓Keeps.mkp, ↓Keeps.mkl, ↓Keeps.mkb]
    | with_reducible apply Keeps.ite
    | with_reducible apply Keeps.iteSnd
    | with_reducible apply Keeps.trans ?_ (updCore_kept ..)
    | with_reducible apply Keeps.trans ?_ (rangeWrite_kept ..)

theorem askEntry_kept (c : Fin 32) (desc : BitVec 11) (d : BitVec 512) (st : Stream) (s : State) : Keeps s (askEntry c desc d st s) := by
  unfold askEntry
  try dsimp only
  repeat' first
    | with_reducible apply Keeps.refl
    | simp only [↓Keeps.mk0, ↓Keeps.mkp, ↓Keeps.mkl, ↓Keeps.mkb]
    | with_reducible apply Keeps.ite
    | with_reducible apply Keeps.iteSnd
    | with_reducible apply Keeps.trans ?_ (updCore_kept ..)
    | with_reducible apply Keeps.trans ?_ (stackAsk_kept ..)

theorem execLeadStart_kept (core : Fin 32) (engine : Fin 4) (s : State) : OutKeeps s (execLeadStart core engine s) := by
  unfold execLeadStart
  try dsimp only
  repeat' first
    | with_reducible apply Keeps.refl
    | with_reducible apply OutKeeps.next
    | with_reducible apply OutKeeps.refused
    | with_reducible apply OutKeeps.ite
    | simp only [↓Keeps.mk0, ↓Keeps.mkp, ↓Keeps.mkl, ↓Keeps.mkb]
    | with_reducible apply Keeps.ite
    | with_reducible apply Keeps.iteSnd
    | with_reducible apply Keeps.trans ?_ (streamFault_kept ..)
    | with_reducible apply Keeps.trans ?_ (startFetch_kept ..)
    | with_reducible apply Keeps.trans ?_ (startOut_kept ..)
    | with_reducible apply Keeps.trans ?_ (askEntry_kept ..)
    | with_reducible apply mwrite_wf
    | with_reducible apply mwrites_wf
    | with_reducible apply mzero_wf
    | assumption
    | split

theorem execLoadElementComplete_kept (core : Fin 32) (desc : BitVec 11) (s : State) : OutKeeps s (execLoadElementComplete core desc s) := by
  unfold execLoadElementComplete
  try dsimp only
  repeat' first
    | with_reducible apply Keeps.refl
    | with_reducible apply OutKeeps.next
    | with_reducible apply OutKeeps.refused
    | with_reducible apply OutKeeps.ite
    | simp only [↓Keeps.mk0, ↓Keeps.mkp, ↓Keeps.mkl, ↓Keeps.mkb]
    | with_reducible apply Keeps.ite
    | with_reducible apply Keeps.iteSnd
    | with_reducible apply Keeps.trans ?_ (updCore_kept ..)
    | with_reducible apply Keeps.trans ?_ (ackAdd_kept ..)
    | with_reducible apply mwrite_wf
    | with_reducible apply mwrites_wf
    | with_reducible apply mzero_wf
    | assumption
    | split

theorem storeComplete_kept (core : Fin 32) (desc : BitVec 11) (s : State) : Keeps s (storeComplete core desc s) := by
  unfold storeComplete
  try dsimp only
  repeat' first
    | with_reducible apply Keeps.refl
    | simp only [↓Keeps.mk0, ↓Keeps.mkp, ↓Keeps.mkl, ↓Keeps.mkb]
    | with_reducible apply Keeps.ite
    | with_reducible apply Keeps.iteSnd
    | with_reducible apply Keeps.trans ?_ (updCore_kept ..)
    | with_reducible apply Keeps.trans ?_ (ackAdd_kept ..)
    | with_reducible apply mwrite_wf
    | with_reducible apply mwrites_wf
    | with_reducible apply mzero_wf
    | assumption
    | split

theorem noteElem_kept (s0 : State) (core : Fin 32) (desc : BitVec 11) (s : State) : Keeps s (noteElem s0 core desc s) := by
  unfold noteElem
  try dsimp only
  repeat' first
    | with_reducible apply Keeps.refl
    | simp only [↓Keeps.mk0, ↓Keeps.mkp, ↓Keeps.mkl, ↓Keeps.mkb]
    | with_reducible apply Keeps.ite
    | with_reducible apply Keeps.iteSnd
    | with_reducible apply Keeps.trans ?_ (harborHall_kept ..)
    | with_reducible apply mwrite_wf
    | with_reducible apply mwrites_wf
    | with_reducible apply mzero_wf
    | assumption
    | split

theorem execStoreElementComplete_kept (core : Fin 32) (desc : BitVec 11) (s : State) : OutKeeps s (execStoreElementComplete core desc s) := by
  unfold execStoreElementComplete
  try dsimp only
  repeat' first
    | with_reducible apply Keeps.refl
    | with_reducible apply OutKeeps.next
    | with_reducible apply OutKeeps.refused
    | with_reducible apply OutKeeps.ite
    | simp only [↓Keeps.mk0, ↓Keeps.mkp, ↓Keeps.mkl, ↓Keeps.mkb]
    | with_reducible apply Keeps.ite
    | with_reducible apply Keeps.iteSnd
    | with_reducible apply Keeps.trans ?_ (storeComplete_kept ..)
    | with_reducible apply Keeps.trans ?_ (noteElem_kept ..)

theorem effStreamArm_kept (c : Fin 32) (e : LookEntry) (s : State) : Keeps s (effStreamArm c e s) := by
  unfold effStreamArm
  try dsimp only
  repeat' first
    | with_reducible apply Keeps.refl
    | simp only [↓Keeps.mk0]
    | with_reducible apply Keeps.ite
    | with_reducible apply Keeps.iteSnd
    | with_reducible apply Keeps.trans ?_ (updCore_kept ..)

theorem effStreamRearm_kept (c : Fin 32) (e : LookEntry) (s : State) : Keeps s (effStreamRearm c e s) := by
  unfold effStreamRearm
  try dsimp only
  repeat' first
    | with_reducible apply Keeps.refl
    | simp only [↓Keeps.mk0, ↓Keeps.mkp, ↓Keeps.mkl, ↓Keeps.mkb]
    | with_reducible apply Keeps.ite
    | with_reducible apply Keeps.iteSnd
    | with_reducible apply Keeps.trans ?_ (updCore_kept ..)

theorem effStreamStop_kept (c : Fin 32) (e : LookEntry) (s : State) : Keeps s (effStreamStop c e s) := by
  unfold effStreamStop
  try dsimp only
  repeat' first
    | with_reducible apply Keeps.refl
    | simp only [↓Keeps.mk0, ↓Keeps.mkp, ↓Keeps.mkl, ↓Keeps.mkb]
    | with_reducible apply Keeps.ite
    | with_reducible apply Keeps.iteSnd
    | with_reducible apply Keeps.trans ?_ (updCore_kept ..)

theorem effStreamHand_kept (c : Fin 32) (e : LookEntry) (s : State) : Keeps s (effStreamHand c e s) := by
  unfold effStreamHand
  try dsimp only
  repeat' first
    | with_reducible apply Keeps.refl
    | simp only [↓Keeps.mk0, ↓Keeps.mkp, ↓Keeps.mkl, ↓Keeps.mkb]
    | with_reducible apply Keeps.ite
    | with_reducible apply Keeps.iteSnd
    | with_reducible apply Keeps.trans ?_ (updCore_kept ..)
    | with_reducible apply Keeps.trans ?_ (streamFault_kept ..)
    | with_reducible apply mwrite_wf
    | with_reducible apply mwrites_wf
    | with_reducible apply mzero_wf
    | assumption
    | split

theorem launchElem_kept (c : Fin 32) (r : StoreHand) (m : HandMove) (s : State) : Keeps s (launchElem c r m s) := by
  unfold launchElem
  try dsimp only
  repeat' first
    | with_reducible apply Keeps.refl
    | simp only [↓Keeps.mk0]
    | with_reducible apply Keeps.ite
    | with_reducible apply Keeps.iteSnd
    | with_reducible apply Keeps.trans ?_ (updCore_kept ..)
    | with_reducible apply Keeps.trans ?_ (launchItem_kept ..)

theorem execStoreHandComplete_kept (core : Fin 32) (engine : Fin 4) (s : State) : OutKeeps s (execStoreHandComplete core engine s) := by
  unfold execStoreHandComplete
  try dsimp only
  repeat' first
    | with_reducible apply Keeps.refl
    | with_reducible apply OutKeeps.next
    | with_reducible apply OutKeeps.refused
    | with_reducible apply OutKeeps.ite
    | simp only [↓Keeps.mk0, ↓Keeps.mkp, ↓Keeps.mkl, ↓Keeps.mkb]
    | with_reducible apply Keeps.ite
    | with_reducible apply Keeps.iteSnd
    | with_reducible apply Keeps.trans ?_ (updCore_kept ..)
    | with_reducible apply Keeps.trans ?_ (fireSignals_kept ..)
    | with_reducible apply Keeps.trans ?_ (launchElem_kept ..)
    | (with_reducible apply Keeps.foldS; rotate_left; intro _ _)
    | with_reducible apply mwrite_wf
    | with_reducible apply mwrites_wf
    | with_reducible apply mzero_wf
    | assumption
    | split

theorem turnFault_kept (c : Fin 32) (idx q r : Nat) (x : U64) (s : State) : Keeps s (turnFault c idx q r x s) := by
  unfold turnFault
  try dsimp only
  repeat' first
    | with_reducible apply Keeps.refl
    | simp only [↓Keeps.mk0, ↓Keeps.mkp, ↓Keeps.mkl, ↓Keeps.mkb]
    | with_reducible apply Keeps.ite
    | with_reducible apply Keeps.iteSnd
    | with_reducible apply Keeps.trans ?_ (raiseHalt_kept ..)

theorem turnStart_kept (c : Fin 32) (r : TurnRec) (s : State) : Keeps s (turnStart c r s) := by
  unfold turnStart
  try dsimp only
  repeat' first
    | with_reducible apply Keeps.refl
    | simp only [↓Keeps.mk0, ↓Keeps.mkp, ↓Keeps.mkl, ↓Keeps.mkb]
    | with_reducible apply Keeps.ite
    | with_reducible apply Keeps.iteSnd
    | with_reducible apply Keeps.trans ?_ (stackAsk_kept ..)
    | with_reducible apply Keeps.trans ?_ (updTurn_kept ..)
    | with_reducible apply Keeps.trans ?_ (turnFault_kept ..)
    | (with_reducible apply Keeps.foldS; rotate_left; intro _ _)
    | with_reducible apply mwrite_wf
    | with_reducible apply mwrites_wf
    | with_reducible apply mzero_wf
    | assumption
    | split

theorem turnAdvance1_kept (c : Fin 32) (r : TurnRec) (s : State) : Keeps s (turnAdvance1 c r s) := by
  unfold turnAdvance1
  try dsimp only
  repeat' first
    | with_reducible apply Keeps.refl
    | simp only [↓Keeps.mk0, ↓Keeps.mkp, ↓Keeps.mkl, ↓Keeps.mkb]
    | with_reducible apply Keeps.ite
    | with_reducible apply Keeps.iteSnd
    | with_reducible apply Keeps.trans ?_ (fillAsk_kept ..)
    | with_reducible apply Keeps.trans ?_ (updTurn_kept ..)
    | with_reducible apply Keeps.trans ?_ (ackAdd_kept ..)
    | with_reducible apply Keeps.trans ?_ (turnStart_kept ..)
    | (with_reducible apply Keeps.foldS; rotate_left; intro _ _)

theorem turnAdvance_kept (c : Fin 32) (s : State) : Keeps s (turnAdvance c s) := by
  unfold turnAdvance
  try dsimp only
  repeat' first
    | with_reducible apply Keeps.refl
    | simp only [↓Keeps.mk0, ↓Keeps.mkp, ↓Keeps.mkl, ↓Keeps.mkb]
    | with_reducible apply Keeps.ite
    | with_reducible apply Keeps.iteSnd
    | with_reducible apply Keeps.trans ?_ (turnAdvance1_kept ..)
    | with_reducible apply mwrite_wf
    | with_reducible apply mwrites_wf
    | with_reducible apply mzero_wf
    | assumption
    | split

theorem effTurn_kept (c : Fin 32) (e : LookEntry) (s : State) : Keeps s (effTurn c e s) := by
  unfold effTurn
  try dsimp only
  repeat' first
    | with_reducible apply Keeps.refl
    | simp only [↓Keeps.mk0, ↓Keeps.mkp, ↓Keeps.mkl, ↓Keeps.mkb]
    | with_reducible apply Keeps.ite
    | with_reducible apply Keeps.iteSnd
    | with_reducible apply Keeps.trans ?_ (updCore_kept ..)

theorem execTurnComplete_kept (core : Fin 32) (s : State) : OutKeeps s (execTurnComplete core s) := by
  unfold execTurnComplete
  try dsimp only
  repeat' first
    | with_reducible apply Keeps.refl
    | with_reducible apply OutKeeps.next
    | with_reducible apply OutKeeps.refused
    | with_reducible apply OutKeeps.ite
    | simp only [↓Keeps.mk0, ↓Keeps.mkp, ↓Keeps.mkl, ↓Keeps.mkb]
    | with_reducible apply Keeps.ite
    | with_reducible apply Keeps.iteSnd
    | with_reducible apply Keeps.trans ?_ (updCore_kept ..)
    | with_reducible apply Keeps.trans ?_ (fireSignals_kept ..)
    | with_reducible apply mwrite_wf
    | with_reducible apply mwrites_wf
    | with_reducible apply mzero_wf
    | assumption
    | split

theorem stepDown_kept (c : FreqChange) (limit : BitVec 4) (s : State) : Keeps s (stepDown c limit s) := by
  unfold stepDown
  try dsimp only
  repeat' first
    | with_reducible apply Keeps.refl
    | simp only [↓Keeps.mk0]
    | with_reducible apply Keeps.ite

theorem applyStep_kept (t : FreqStep) (s : State) : Keeps s (applyStep t s) := by
  unfold applyStep
  try dsimp only
  repeat' first
    | with_reducible apply Keeps.refl
    | simp only [↓Keeps.mk0]

theorem applySteps_kept (due : FreqStep → Bool) (s : State) : Keeps s (applySteps due s) := by
  unfold applySteps
  try dsimp only
  repeat' first
    | with_reducible apply Keeps.refl
    | simp only [↓Keeps.mk0]
    | with_reducible apply Keeps.ite
    | with_reducible apply Keeps.iteSnd
    | with_reducible apply Keeps.trans ?_ (applyStep_kept ..)
    | (with_reducible apply Keeps.foldS; rotate_left; intro _ _)

theorem noteTrigger_kept (s : State) : Keeps s (noteTrigger s) := by
  unfold noteTrigger
  try dsimp only
  repeat' first
    | with_reducible apply Keeps.refl
    | simp only [↓Keeps.mk0]

theorem setCap_kept (old new : Nat) (s : State) : Keeps s (setCap old new s) := by
  unfold setCap
  try dsimp only
  repeat' first
    | with_reducible apply Keeps.refl
    | simp only [↓Keeps.mk0, ↓Keeps.mkp, ↓Keeps.mkl, ↓Keeps.mkb]
    | with_reducible apply Keeps.ite
    | with_reducible apply Keeps.iteSnd
    | with_reducible apply Keeps.trans ?_ (stepDown_kept ..)
    | with_reducible apply Keeps.trans ?_ (noteTrigger_kept ..)

theorem heatTrigger_kept (s : State) : Keeps s (heatTrigger s) := by
  unfold heatTrigger
  try dsimp only
  repeat' first
    | with_reducible apply Keeps.refl
    | simp only [↓Keeps.mk0]
    | with_reducible apply Keeps.ite
    | with_reducible apply Keeps.iteSnd
    | with_reducible apply Keeps.trans ?_ (stepDown_kept ..)
    | with_reducible apply Keeps.trans ?_ (noteTrigger_kept ..)

theorem droopTrigger_kept (r : Fin 8) (s : State) : Keeps s (droopTrigger r s) := by
  unfold droopTrigger
  try dsimp only
  repeat' first
    | with_reducible apply Keeps.refl
    | simp only [↓Keeps.mk0]
    | with_reducible apply Keeps.ite
    | with_reducible apply Keeps.iteSnd
    | with_reducible apply Keeps.trans ?_ (stepDown_kept ..)
    | with_reducible apply Keeps.trans ?_ (noteTrigger_kept ..)

theorem stretchRegion_kept (r : Fin 8) (s : State) : Keeps s (stretchRegion r s) := by
  unfold stretchRegion
  try dsimp only
  repeat' first
    | with_reducible apply Keeps.refl
    | simp only [↓Keeps.mk0]
    | with_reducible apply Keeps.ite
    | with_reducible apply Keeps.iteSnd
    | with_reducible apply Keeps.trans ?_ (updRegion_kept ..)

theorem raiseRequest_kept (r : Fin 8) (s : State) : Keeps s (raiseRequest r s) := by
  unfold raiseRequest
  try dsimp only
  repeat' first
    | with_reducible apply Keeps.refl
    | simp only [↓Keeps.mk0]
    | with_reducible apply Keeps.ite
    | with_reducible apply Keeps.iteSnd
    | with_reducible apply Keeps.trans ?_ (updRegion_kept ..)
    | with_reducible apply Keeps.trans ?_ (droopTrigger_kept ..)

theorem execDroopTrip_kept (region : Fin 8) (s : State) : OutKeeps s (execDroopTrip region s) := by
  unfold execDroopTrip
  try dsimp only
  repeat' first
    | with_reducible apply Keeps.refl
    | with_reducible apply OutKeeps.next
    | with_reducible apply OutKeeps.refused
    | with_reducible apply OutKeeps.ite
    | simp only [↓Keeps.mk0, ↓Keeps.mkp, ↓Keeps.mkl, ↓Keeps.mkb]
    | with_reducible apply Keeps.ite
    | with_reducible apply Keeps.iteSnd
    | with_reducible apply Keeps.trans ?_ (updRegion_kept ..)
    | with_reducible apply Keeps.trans ?_ (stretchRegion_kept ..)
    | with_reducible apply Keeps.trans ?_ (raiseRequest_kept ..)

theorem execStretchFollow_kept (s : State) : OutKeeps s (execStretchFollow s) := by
  unfold execStretchFollow
  try dsimp only
  repeat' first
    | with_reducible apply Keeps.refl
    | with_reducible apply OutKeeps.next
    | with_reducible apply OutKeeps.refused
    | with_reducible apply OutKeeps.ite
    | simp only [↓Keeps.mk0, ↓Keeps.mkp, ↓Keeps.mkl, ↓Keeps.mkb]
    | with_reducible apply Keeps.ite
    | with_reducible apply Keeps.iteSnd
    | with_reducible apply Keeps.trans ?_ (stretchRegion_kept ..)
    | (with_reducible apply Keeps.foldS; rotate_left; intro _ _)

theorem execFreqStepApply_kept (s : State) : OutKeeps s (execFreqStepApply s) := by
  unfold execFreqStepApply
  try dsimp only
  repeat' first
    | with_reducible apply Keeps.refl
    | with_reducible apply OutKeeps.next
    | with_reducible apply OutKeeps.refused
    | with_reducible apply OutKeeps.ite
    | simp only [↓Keeps.mk0, ↓Keeps.mkp, ↓Keeps.mkl, ↓Keeps.mkb]
    | with_reducible apply Keeps.ite
    | with_reducible apply Keeps.iteSnd
    | with_reducible apply Keeps.trans ?_ (applySteps_kept ..)

theorem execFreqStepUp_kept (s : State) : OutKeeps s (execFreqStepUp s) := by
  unfold execFreqStepUp
  try dsimp only
  repeat' first
    | with_reducible apply Keeps.refl
    | with_reducible apply OutKeeps.next
    | with_reducible apply OutKeeps.refused
    | with_reducible apply OutKeeps.ite
    | simp only [↓Keeps.mk0]
    | with_reducible apply Keeps.ite
    | with_reducible apply Keeps.iteSnd
    | with_reducible apply Keeps.trans ?_ (noteTrigger_kept ..)

theorem stallEps_kept (h : Hold) (periods : Nat) (s : State) : Keeps s (stallEps h periods s) := by
  unfold stallEps
  try dsimp only
  repeat' first
    | with_reducible apply Keeps.refl
    | simp only [↓Keeps.mk0, ↓Keeps.mkp, ↓Keeps.mkl, ↓Keeps.mkb]
    | with_reducible apply Keeps.ite
    | with_reducible apply Keeps.iteSnd
    | with_reducible apply Keeps.trans ?_ (updCore_kept ..)
    | (with_reducible apply Keeps.foldS; rotate_left; intro _ _)
    | with_reducible apply mwrite_wf
    | with_reducible apply mwrites_wf
    | with_reducible apply mzero_wf
    | assumption
    | split

theorem execLanternRelease_kept (s : State) : OutKeeps s (execLanternRelease s) := by
  unfold execLanternRelease
  try dsimp only
  repeat' first
    | with_reducible apply Keeps.refl
    | with_reducible apply OutKeeps.next
    | with_reducible apply OutKeeps.refused
    | with_reducible apply OutKeeps.ite
    | simp only [↓Keeps.mk0]
    | with_reducible apply Keeps.ite
    | with_reducible apply Keeps.iteSnd
    | with_reducible apply Keeps.trans ?_ (applySteps_kept ..)
    | with_reducible apply Keeps.trans ?_ (stallEps_kept ..)
    | with_reducible apply mwrite_wf
    | with_reducible apply mwrites_wf
    | with_reducible apply mzero_wf
    | assumption
    | split

theorem execHoldTimeout_kept (s : State) : OutKeeps s (execHoldTimeout s) := by
  unfold execHoldTimeout
  try dsimp only
  repeat' first
    | with_reducible apply Keeps.refl
    | with_reducible apply OutKeeps.next
    | with_reducible apply OutKeeps.refused
    | with_reducible apply OutKeeps.ite
    | simp only [↓Keeps.mk0, ↓Keeps.mkp, ↓Keeps.mkl, ↓Keeps.mkb]
    | with_reducible apply Keeps.ite
    | with_reducible apply Keeps.iteSnd
    | with_reducible apply Keeps.trans ?_ (raiseHalt_kept ..)
    | with_reducible apply mwrite_wf
    | with_reducible apply mwrites_wf
    | with_reducible apply mzero_wf
    | assumption
    | split

theorem execStackRequestArrival_kept (way : MeshWay) (s : State) : OutKeeps s (execStackRequestArrival way s) := by
  unfold execStackRequestArrival
  try dsimp only
  repeat' first
    | with_reducible apply Keeps.refl
    | with_reducible apply OutKeeps.next
    | with_reducible apply OutKeeps.refused
    | with_reducible apply OutKeeps.ite
    | simp only [↓Keeps.mk0, ↓Keeps.mkp, ↓Keeps.mkl, ↓Keeps.mkb]
    | with_reducible apply Keeps.ite
    | with_reducible apply Keeps.iteSnd
    | with_reducible apply Keeps.trans ?_ (updStack_kept ..)
    | with_reducible apply mwrite_wf
    | with_reducible apply mwrites_wf
    | with_reducible apply mzero_wf
    | assumption
    | split

theorem serveBell_kept (r : StackReq) (b : BellReq) (flip : ErrPat) (s : State) : Keeps s (serveBell r b flip s) := by
  unfold serveBell
  try dsimp only
  repeat' first
    | with_reducible apply Keeps.refl
    | simp only [↓Keeps.mk0, ↓Keeps.mkp, ↓Keeps.mkl, ↓Keeps.mkb]
    | with_reducible apply Keeps.ite
    | with_reducible apply Keeps.iteSnd
    | with_reducible apply Keeps.trans ?_ (blockRead_kept ..)
    | with_reducible apply Keeps.trans ?_ (blockModify_kept ..)
    | with_reducible apply Keeps.trans ?_ (harborNote_kept ..)
    | with_reducible apply Keeps.trans ?_ (bellApplied_kept ..)
    | with_reducible apply mwrite_wf
    | with_reducible apply mwrites_wf
    | with_reducible apply mzero_wf
    | assumption
    | split
    | (apply Keeps.snd; with_reducible assumption)

theorem serveReq_kept (r : StackReq) (flip : ErrPat) (s : State) : Keeps s (serveReq r flip s) := by
  unfold serveReq
  try dsimp only
  repeat' first
    | with_reducible apply Keeps.refl
    | simp only [↓Keeps.mk0, ↓Keeps.mkp, ↓Keeps.mkl, ↓Keeps.mkb]
    | with_reducible apply Keeps.ite
    | with_reducible apply Keeps.iteSnd
    | with_reducible apply Keeps.trans ?_ (blockRead_kept ..)
    | with_reducible apply Keeps.trans ?_ (blockWrite_kept ..)
    | with_reducible apply Keeps.trans ?_ (harborNote_kept ..)
    | with_reducible apply Keeps.trans ?_ (deliver_kept ..)
    | with_reducible apply Keeps.trans ?_ (accepted_kept ..)
    | with_reducible apply Keeps.trans ?_ (undelivered_kept ..)
    | with_reducible apply Keeps.trans ?_ (serveBell_kept ..)
    | with_reducible apply mwrite_wf
    | with_reducible apply mwrites_wf
    | with_reducible apply mzero_wf
    | assumption
    | split
    | (apply Keeps.snd; with_reducible assumption)

theorem serveHead_kept (stack : Fin 16) (pc : Fin 32) (flip : ErrPat) (s : State) : Keeps s (serveHead stack pc flip s) := by
  unfold serveHead
  try dsimp only
  repeat' first
    | with_reducible apply Keeps.refl
    | simp only [↓Keeps.mk0, ↓Keeps.mkp, ↓Keeps.mkl, ↓Keeps.mkb]
    | with_reducible apply Keeps.ite
    | with_reducible apply Keeps.iteSnd
    | with_reducible apply Keeps.trans ?_ (updStack_kept ..)
    | with_reducible apply Keeps.trans ?_ (serveReq_kept ..)
    | with_reducible apply mwrite_wf
    | with_reducible apply mwrites_wf
    | with_reducible apply mzero_wf
    | assumption
    | split

theorem latent_kept (a : Nat) (e : ErrPat) (s : State) : Keeps s (latent a e s) := by
  unfold latent
  try dsimp only
  repeat' first
    | with_reducible apply Keeps.refl
    | simp only [↓Keeps.mk0]

theorem execStackRequestService_kept (stack : Fin 16) (pc : Fin 32) (errors : BlockErrors) (s : State) : OutKeeps s (execStackRequestService stack pc errors s) := by
  unfold execStackRequestService
  try dsimp only
  repeat' first
    | with_reducible apply Keeps.refl
    | with_reducible apply OutKeeps.next
    | with_reducible apply OutKeeps.refused
    | with_reducible apply OutKeeps.ite
    | simp only [↓Keeps.mk0, ↓Keeps.mkp, ↓Keeps.mkl, ↓Keeps.mkb]
    | with_reducible apply Keeps.ite
    | with_reducible apply Keeps.iteSnd
    | with_reducible apply Keeps.trans ?_ (updStack_kept ..)
    | with_reducible apply Keeps.trans ?_ (serveHead_kept ..)
    | with_reducible apply Keeps.trans ?_ (latent_kept ..)
    | with_reducible apply mwrite_wf
    | with_reducible apply mwrites_wf
    | with_reducible apply mzero_wf
    | assumption
    | split

theorem startTide_kept (stack : Fin 16) (s : State) : Keeps s (startTide stack s) := by
  unfold startTide
  try dsimp only
  repeat' first
    | with_reducible apply Keeps.refl
    | simp only [↓Keeps.mk0, ↓Keeps.mkp, ↓Keeps.mkl, ↓Keeps.mkb]
    | with_reducible apply Keeps.ite
    | with_reducible apply Keeps.iteSnd
    | with_reducible apply Keeps.trans ?_ (updStack_kept ..)

theorem execTideStart_kept (stack : Fin 16) (s : State) : OutKeeps s (execTideStart stack s) := by
  unfold execTideStart
  try dsimp only
  repeat' first
    | with_reducible apply Keeps.refl
    | with_reducible apply OutKeeps.next
    | with_reducible apply OutKeeps.refused
    | with_reducible apply OutKeeps.ite
    | simp only [↓Keeps.mk0, ↓Keeps.mkp, ↓Keeps.mkl, ↓Keeps.mkb]
    | with_reducible apply Keeps.ite
    | with_reducible apply Keeps.iteSnd
    | with_reducible apply Keeps.trans ?_ (updStack_kept ..)
    | with_reducible apply Keeps.trans ?_ (startTide_kept ..)

theorem execTideEnd_kept (stack : Fin 16) (s : State) : OutKeeps s (execTideEnd stack s) := by
  unfold execTideEnd
  try dsimp only
  repeat' first
    | with_reducible apply Keeps.refl
    | with_reducible apply OutKeeps.next
    | with_reducible apply OutKeeps.refused
    | with_reducible apply OutKeeps.ite
    | simp only [↓Keeps.mk0, ↓Keeps.mkp, ↓Keeps.mkl, ↓Keeps.mkb]
    | with_reducible apply Keeps.ite
    | with_reducible apply Keeps.iteSnd
    | with_reducible apply Keeps.trans ?_ (updStack_kept ..)
    | with_reducible apply mwrite_wf
    | with_reducible apply mwrites_wf
    | with_reducible apply mzero_wf
    | assumption
    | split

theorem execDoublingTideStart_kept (stack : Fin 16) (s : State) : OutKeeps s (execDoublingTideStart stack s) := by
  unfold execDoublingTideStart
  try dsimp only
  repeat' first
    | with_reducible apply Keeps.refl
    | with_reducible apply OutKeeps.next
    | with_reducible apply OutKeeps.refused
    | with_reducible apply OutKeeps.ite
    | simp only [↓Keeps.mk0, ↓Keeps.mkp, ↓Keeps.mkl, ↓Keeps.mkb]
    | with_reducible apply Keeps.ite
    | with_reducible apply Keeps.iteSnd
    | with_reducible apply Keeps.trans ?_ (updStack_kept ..)
    | with_reducible apply Keeps.trans ?_ (startTide_kept ..)

theorem readStackTemp_kept (stack : Fin 16) (temps : U32) (s : State) : Keeps s (readStackTemp stack temps s) := by
  unfold readStackTemp
  try dsimp only
  repeat' first
    | with_reducible apply Keeps.refl
    | simp only [↓Keeps.mk0, ↓Keeps.mkp, ↓Keeps.mkl, ↓Keeps.mkb]
    | with_reducible apply Keeps.ite
    | with_reducible apply Keeps.iteSnd
    | with_reducible apply Keeps.trans ?_ (updStack_kept ..)
    | with_reducible apply Keeps.trans ?_ (heatTrigger_kept ..)

theorem execStackTempReading_kept (stack : Fin 16) (temps : U32) (s : State) : OutKeeps s (execStackTempReading stack temps s) := by
  unfold execStackTempReading
  try dsimp only
  repeat' first
    | with_reducible apply Keeps.refl
    | with_reducible apply OutKeeps.next
    | with_reducible apply OutKeeps.refused
    | with_reducible apply OutKeeps.ite
    | simp only [↓Keeps.mk0, ↓Keeps.mkp, ↓Keeps.mkl, ↓Keeps.mkb]
    | with_reducible apply Keeps.ite
    | with_reducible apply Keeps.iteSnd
    | with_reducible apply Keeps.trans ?_ (updStack_kept ..)
    | with_reducible apply Keeps.trans ?_ (readStackTemp_kept ..)

theorem enterSelfRefresh_kept (s : State) : Keeps s (enterSelfRefresh s) := by
  unfold enterSelfRefresh
  try dsimp only
  repeat' first
    | with_reducible apply Keeps.refl
    | simp only [↓Keeps.mk0, ↓Keeps.mkp, ↓Keeps.mkl, ↓Keeps.mkb]
    | with_reducible apply Keeps.ite
    | with_reducible apply Keeps.iteSnd
    | with_reducible apply Keeps.trans ?_ (updStack_kept ..)
    | (with_reducible apply Keeps.foldS; rotate_left; intro _ _)

theorem leaveSelfRefresh_kept (s : State) : Keeps s (leaveSelfRefresh s) := by
  unfold leaveSelfRefresh
  try dsimp only
  repeat' first
    | with_reducible apply Keeps.refl
    | simp only [↓Keeps.mk0, ↓Keeps.mkp, ↓Keeps.mkl, ↓Keeps.mkb]
    | with_reducible apply Keeps.ite
    | with_reducible apply Keeps.iteSnd
    | with_reducible apply Keeps.trans ?_ (updStack_kept ..)
    | with_reducible apply Keeps.trans ?_ (startTide_kept ..)
    | (with_reducible apply Keeps.foldS; rotate_left; intro _ _)

theorem copyBlock_kept (i : Fin 16) (a : Nat) (s : State) : Keeps s (copyBlock i a s) := by
  unfold copyBlock
  try dsimp only
  repeat' first
    | with_reducible apply Keeps.refl
    | simp only [↓Keeps.mk0, ↓Keeps.mkp, ↓Keeps.mkl, ↓Keeps.mkb]
    | with_reducible apply Keeps.ite
    | with_reducible apply Keeps.iteSnd
    | with_reducible apply Keeps.trans ?_ (updStack_kept ..)
    | with_reducible apply Keeps.trans ?_ (fresh_kept ..)
    | with_reducible apply Keeps.trans ?_ (logErr_kept ..)
    | with_reducible apply Keeps.trans ?_ (noteCorrected_kept ..)
    | with_reducible apply mwrite_wf
    | with_reducible apply mwrites_wf
    | with_reducible apply mzero_wf
    | assumption
    | (apply Keeps.dram; rotate_left; intro hd; first | (apply mwrites_wf; exact hd) | (apply mzero_wf; exact hd) | (apply twf_filter; exact hd) | rfl)
    | split

theorem execRowSparing_kept (stack : Fin 16) (s : State) : OutKeeps s (execRowSparing stack s) := by
  unfold execRowSparing
  try dsimp only
  repeat' first
    | with_reducible apply Keeps.refl
    | with_reducible apply OutKeeps.next
    | with_reducible apply OutKeeps.refused
    | with_reducible apply OutKeeps.ite
    | simp only [↓Keeps.mk0, ↓Keeps.mkp, ↓Keeps.mkl, ↓Keeps.mkb]
    | with_reducible apply Keeps.ite
    | with_reducible apply Keeps.iteSnd
    | with_reducible apply Keeps.trans ?_ (updStack_kept ..)
    | with_reducible apply Keeps.trans ?_ (checkService_kept ..)
    | with_reducible apply Keeps.trans ?_ (copyBlock_kept ..)
    | (with_reducible apply Keeps.foldS; rotate_left; intro _ _)
    | with_reducible apply mwrite_wf
    | with_reducible apply mwrites_wf
    | with_reducible apply mzero_wf
    | assumption
    | split

theorem closeWindow_kept (i : Nat) (s : State) : Keeps s (closeWindow i s) := by
  unfold closeWindow
  try dsimp only
  repeat' first
    | with_reducible apply Keeps.refl
    | simp only [↓Keeps.mk0]
    | with_reducible apply Keeps.ite

theorem zeroRanges_kept (l : List (Nat × Nat × Nat)) (s : State) : Keeps s (zeroRanges l s) := ⟨rfl, twf_filter _ _ _⟩

theorem rwlReset_kept (s : State) : Keeps s (rwlReset s) := by
  unfold rwlReset
  try dsimp only
  repeat' first
    | with_reducible apply Keeps.refl
    | simp only [↓Keeps.mkp]

theorem hostLeft_kept (s : State) : Keeps s (hostLeft s) := by
  unfold hostLeft
  try dsimp only
  repeat' first
    | with_reducible apply Keeps.refl
    | simp only [↓Keeps.mk0]

theorem dropJob_kept (s : State) : Keeps s (dropJob s) := by
  unfold dropJob
  try dsimp only
  repeat' first
    | with_reducible apply Keeps.refl
    | simp only [↓Keeps.mk0]
    | with_reducible apply Keeps.ite
    | with_reducible apply Keeps.iteSnd
    | with_reducible apply Keeps.trans ?_ (hostLeft_kept ..)

theorem scrubDie_kept (s : State) : Keeps s (scrubDie s) := by
  unfold scrubDie
  try dsimp only
  repeat' first
    | with_reducible apply Keeps.refl
    | simp only [↓Keeps.mk0]
    | with_reducible apply Keeps.ite
    | with_reducible apply Keeps.iteSnd
    | with_reducible apply Keeps.trans ?_ (rwlReset_kept ..)
    | with_reducible apply Keeps.trans ?_ (dropJob_kept ..)

theorem stopLoad_kept (s : State) : Keeps s (stopLoad s) := by
  unfold stopLoad
  try dsimp only
  repeat' first
    | with_reducible apply Keeps.refl
    | simp only [↓Keeps.mkl]
    | with_reducible apply Keeps.ite
    | with_reducible apply Keeps.iteSnd
    | with_reducible apply Keeps.trans ?_ (logErr_kept ..)

theorem closeWindows_kept (s : State) : Keeps s (closeWindows s) := by
  unfold closeWindows
  try dsimp only
  repeat' first
    | with_reducible apply Keeps.refl
    | simp only [↓Keeps.mkp]

theorem tryZeroing_kept (s : State) : Keeps s (tryZeroing s) := by
  unfold tryZeroing
  try dsimp only
  repeat' first
    | with_reducible apply Keeps.refl
    | simp only [↓Keeps.mkp]
    | with_reducible apply Keeps.ite

theorem killDie_kept (d0 d1 : U64) (retain : Bool) (s : State) : Keeps s (killDie d0 d1 retain s) := by
  unfold killDie
  try dsimp only
  repeat' first
    | with_reducible apply Keeps.refl
    | simp only [↓Keeps.mkp]
    | with_reducible apply Keeps.ite
    | with_reducible apply Keeps.iteSnd
    | with_reducible apply Keeps.trans ?_ (raiseHalt_kept ..)
    | with_reducible apply Keeps.trans ?_ (scrubDie_kept ..)
    | with_reducible apply Keeps.trans ?_ (stopLoad_kept ..)
    | with_reducible apply Keeps.trans ?_ (closeWindows_kept ..)
    | with_reducible apply Keeps.trans ?_ (tryZeroing_kept ..)

theorem execKill_kept (source : KillSource) (retain : Bool) (s : State) : OutKeeps s (execKill source retain s) := by
  unfold execKill
  try dsimp only
  repeat' first
    | with_reducible apply Keeps.refl
    | with_reducible apply OutKeeps.next
    | with_reducible apply OutKeeps.refused
    | with_reducible apply OutKeeps.ite
    | simp only [↓Keeps.mk0, ↓Keeps.mkp, ↓Keeps.mkl, ↓Keeps.mkb]
    | with_reducible apply Keeps.ite
    | with_reducible apply Keeps.iteSnd
    | with_reducible apply Keeps.trans ?_ (killDie_kept ..)

theorem execScrub_kept (s : State) : OutKeeps s (execScrub s) := by
  unfold execScrub
  try dsimp only
  repeat' first
    | with_reducible apply Keeps.refl
    | with_reducible apply OutKeeps.next
    | with_reducible apply OutKeeps.refused
    | with_reducible apply OutKeeps.ite
    | simp only [↓Keeps.mkp]
    | with_reducible apply Keeps.ite
    | with_reducible apply Keeps.iteSnd
    | with_reducible apply Keeps.trans ?_ (scrubDie_kept ..)
    | with_reducible apply Keeps.trans ?_ (tryZeroing_kept ..)

theorem execWindowTableEmpty_kept (s : State) : OutKeeps s (execWindowTableEmpty s) := by
  unfold execWindowTableEmpty
  try dsimp only
  repeat' first
    | with_reducible apply Keeps.refl
    | with_reducible apply OutKeeps.next
    | with_reducible apply OutKeeps.refused
    | with_reducible apply OutKeeps.ite
    | simp only [↓Keeps.mkp]
    | with_reducible apply Keeps.ite
    | with_reducible apply Keeps.iteSnd
    | with_reducible apply Keeps.trans ?_ (tryZeroing_kept ..)
    | with_reducible apply mwrite_wf
    | with_reducible apply mwrites_wf
    | with_reducible apply mzero_wf
    | assumption
    | split

theorem execScrubDone_kept (s : State) : OutKeeps s (execScrubDone s) := by
  unfold execScrubDone
  try dsimp only
  repeat' first
    | with_reducible apply Keeps.refl
    | with_reducible apply OutKeeps.next
    | with_reducible apply OutKeeps.refused
    | with_reducible apply OutKeeps.ite
    | simp only [↓Keeps.mkb]
    | with_reducible apply Keeps.ite
    | with_reducible apply Keeps.iteSnd
    | with_reducible apply Keeps.trans ?_ (setEvent_kept ..)
    | with_reducible apply Keeps.trans ?_ (zeroRanges_kept ..)

theorem dieOff_kept (s : State) : Keeps s (dieOff s) := by
  unfold dieOff
  try dsimp only
  repeat' first
    | with_reducible apply Keeps.refl
    | simp only [↓Keeps.mkp]
    | with_reducible apply Keeps.ite
    | with_reducible apply Keeps.iteSnd
    | with_reducible apply Keeps.trans ?_ (enterSelfRefresh_kept ..)
    | with_reducible apply Keeps.trans ?_ (scrubDie_kept ..)
    | with_reducible apply Keeps.trans ?_ (stopLoad_kept ..)
    | with_reducible apply Keeps.trans ?_ (closeWindows_kept ..)

theorem mainReset_kept (s : State) : Keeps s (mainReset s) := ⟨rfl, fun _ => rfl⟩

theorem readSensors_kept (temps : BitVec 512) (s : State) : Keeps s (readSensors temps s) := by
  unfold readSensors
  try dsimp only
  repeat' first
    | with_reducible apply Keeps.refl
    | simp only [↓Keeps.mkp]
    | with_reducible apply Keeps.ite
    | with_reducible apply Keeps.iteSnd
    | with_reducible apply Keeps.trans ?_ (updRegion_kept ..)
    | with_reducible apply Keeps.trans ?_ (setEvent_kept ..)
    | with_reducible apply Keeps.trans ?_ (raiseHalt_kept ..)
    | with_reducible apply Keeps.trans ?_ (heatTrigger_kept ..)
    | with_reducible apply Keeps.trans ?_ (dieOff_kept ..)
    | (with_reducible apply Keeps.foldS; rotate_left; intro _ _)
    | with_reducible apply mwrite_wf
    | with_reducible apply mwrites_wf
    | with_reducible apply mzero_wf
    | assumption
    | split

theorem execRegionTempReading_kept (temps : BitVec 512) (s : State) : OutKeeps s (execRegionTempReading temps s) := by
  unfold execRegionTempReading
  try dsimp only
  repeat' first
    | with_reducible apply Keeps.refl
    | with_reducible apply OutKeeps.next
    | with_reducible apply OutKeeps.refused
    | with_reducible apply OutKeeps.ite
    | simp only [↓Keeps.mk0]
    | with_reducible apply Keeps.ite
    | with_reducible apply Keeps.iteSnd
    | with_reducible apply Keeps.trans ?_ (readSensors_kept ..)

theorem execTripLockoutEnd_kept (s : State) : OutKeeps s (execTripLockoutEnd s) := by
  unfold execTripLockoutEnd
  try dsimp only
  repeat' first
    | with_reducible apply Keeps.refl
    | with_reducible apply OutKeeps.next
    | with_reducible apply OutKeeps.refused
    | with_reducible apply OutKeeps.ite
    | simp only [↓Keeps.mkp]
    | with_reducible apply Keeps.ite
    | with_reducible apply Keeps.iteSnd
    | with_reducible apply mwrite_wf
    | with_reducible apply mwrites_wf
    | with_reducible apply mzero_wf
    | assumption
    | split

theorem ingWrite_kept (a : Nat) (bs : List Byte) (s : State) : Keeps s (ingWrite a bs s) := by
  unfold ingWrite
  try dsimp only
  repeat' first
    | with_reducible apply Keeps.refl
    | simp only [↓Keeps.mk0]
    | with_reducible apply Keeps.ite
    | with_reducible apply Keeps.iteSnd
    | with_reducible apply Keeps.trans ?_ (stackAsk_kept ..)

theorem ingBlock_kept (a n : Nat) (s : State) : Keeps s (ingBlock a n s).2 := by
  unfold ingBlock
  try dsimp only
  repeat' first
    | with_reducible apply Keeps.refl
    | simp only [↓Keeps.mk0]
    | with_reducible apply Keeps.ite
    | with_reducible apply Keeps.iteSnd
    | with_reducible apply mwrite_wf
    | with_reducible apply mwrites_wf
    | with_reducible apply mzero_wf
    | assumption
    | split

theorem ingReadAux_kept (l : List (Nat × Nat)) (s : State) : Keeps s (ingReadAux l s).2 := by
  induction l generalizing s with
  | nil => exact Keeps.refl s
  | cons p t ih => exact (ingBlock_kept p.1 p.2 s).trans (ih _)

theorem ingRead_kept (a n : Nat) (s : State) : Keeps s (ingRead a n s).2 := by
  unfold ingRead
  try dsimp only
  repeat' first
    | with_reducible apply Keeps.refl
    | simp only [↓Keeps.mk0, ↓Keeps.mkp, ↓Keeps.mkl, ↓Keeps.mkb]
    | with_reducible apply Keeps.ite
    | with_reducible apply Keeps.iteSnd
    | with_reducible apply Keeps.trans ?_ (ingReadAux_kept ..)

theorem updSession_kept (s : State) (i : BitVec 18) (f : Session → Session) : Keeps s (State.updSession s i f) := by
  unfold State.updSession
  try dsimp only
  repeat' first
    | with_reducible apply Keeps.refl
    | simp only [↓Keeps.mk0]

theorem consumerOf_kept (i : BitVec 18) (s : State) : Keeps s (consumerOf i s).2 := by
  unfold consumerOf
  try dsimp only
  repeat' first
    | with_reducible apply Keeps.refl
    | simp only [↓Keeps.mk0, ↓Keeps.mkp, ↓Keeps.mkl, ↓Keeps.mkb]
    | with_reducible apply Keeps.ite
    | with_reducible apply Keeps.iteSnd
    | with_reducible apply Keeps.trans ?_ (ingRead_kept ..)

theorem moorPut_kept (i : BitVec 18) (off n v : Nat) (s : State) : Keeps s (moorPut i off n v s) := by
  unfold moorPut
  try dsimp only
  repeat' first
    | with_reducible apply Keeps.refl
    | simp only [↓Keeps.mk0, ↓Keeps.mkp, ↓Keeps.mkl, ↓Keeps.mkb]
    | with_reducible apply Keeps.ite
    | with_reducible apply Keeps.iteSnd
    | with_reducible apply Keeps.trans ?_ (ingWrite_kept ..)

theorem moorResult_kept (r : MoorReq) (v : Nat) (s : State) : Keeps s (moorResult r v s) := by
  unfold moorResult
  try dsimp only
  repeat' first
    | with_reducible apply Keeps.refl
    | simp only [↓Keeps.mk0]
    | with_reducible apply Keeps.ite
    | with_reducible apply Keeps.iteSnd
    | with_reducible apply mwrite_wf
    | with_reducible apply mwrites_wf
    | with_reducible apply mzero_wf
    | assumption
    | split

theorem moorRefuse_kept (r : MoorReq) (v : Nat) (s : State) : Keeps s (moorRefuse r v s) := by
  unfold moorRefuse
  try dsimp only
  repeat' first
    | with_reducible apply Keeps.refl
    | simp only [↓Keeps.mk0, ↓Keeps.mkp, ↓Keeps.mkl, ↓Keeps.mkb]
    | with_reducible apply Keeps.ite
    | with_reducible apply Keeps.iteSnd
    | with_reducible apply Keeps.trans ?_ (logErr_kept ..)
    | with_reducible apply Keeps.trans ?_ (moorResult_kept ..)

theorem moorOpenEntry_kept (i : BitVec 18) (ring : U64) (size tag : U32) (s : State) : Keeps s (moorOpenEntry i ring size tag s) := by
  unfold moorOpenEntry
  try dsimp only
  repeat' first
    | with_reducible apply Keeps.refl
    | simp only [↓Keeps.mk0]
    | with_reducible apply Keeps.ite
    | with_reducible apply Keeps.iteSnd
    | with_reducible apply Keeps.trans ?_ (updSession_kept ..)
    | with_reducible apply Keeps.trans ?_ (moorPut_kept ..)

theorem moorCloseEntry_kept (i : BitVec 18) (s : State) : Keeps s (moorCloseEntry i s) := by
  unfold moorCloseEntry
  try dsimp only
  repeat' first
    | with_reducible apply Keeps.refl
    | simp only [↓Keeps.mk0]
    | with_reducible apply Keeps.ite
    | with_reducible apply Keeps.iteSnd
    | with_reducible apply Keeps.trans ?_ (moorPut_kept ..)

theorem moorAdvance_kept (i : BitVec 18) (d v : Nat) (s : State) : Keeps s (moorAdvance i d v s) := by
  unfold moorAdvance
  try dsimp only
  repeat' first
    | with_reducible apply Keeps.refl
    | simp only [↓Keeps.mk0, ↓Keeps.mkp, ↓Keeps.mkl, ↓Keeps.mkb]
    | with_reducible apply Keeps.ite
    | with_reducible apply Keeps.iteSnd
    | with_reducible apply Keeps.trans ?_ (logErr_kept ..)
    | with_reducible apply Keeps.trans ?_ (updSession_kept ..)
    | with_reducible apply Keeps.trans ?_ (consumerOf_kept ..)
    | with_reducible apply Keeps.trans ?_ (moorPut_kept ..)
    | with_reducible apply mwrite_wf
    | with_reducible apply mwrites_wf
    | with_reducible apply mzero_wf
    | assumption
    | split
    | (apply Keeps.snd; with_reducible assumption)

theorem acceptMoor_kept (r : MoorReq) (s : State) : Keeps s (acceptMoor r s) := by
  unfold acceptMoor
  try dsimp only
  repeat' first
    | with_reducible apply Keeps.refl
    | simp only [↓Keeps.mk0, ↓Keeps.mkp, ↓Keeps.mkl, ↓Keeps.mkb]
    | with_reducible apply Keeps.ite
    | with_reducible apply Keeps.iteSnd
    | with_reducible apply Keeps.trans ?_ (logErr_kept ..)
    | with_reducible apply Keeps.trans ?_ (moorResult_kept ..)
    | with_reducible apply Keeps.trans ?_ (moorRefuse_kept ..)
    | with_reducible apply Keeps.trans ?_ (moorOpenEntry_kept ..)
    | with_reducible apply Keeps.trans ?_ (moorCloseEntry_kept ..)
    | with_reducible apply Keeps.trans ?_ (moorAdvance_kept ..)
    | with_reducible apply mwrite_wf
    | with_reducible apply mwrites_wf
    | with_reducible apply mzero_wf
    | assumption
    | split

theorem addTask_kept (w : IngWork) (s : State) : Keeps s (addTask w s) := by
  unfold addTask
  try dsimp only
  repeat' first
    | with_reducible apply Keeps.refl
    | simp only [↓Keeps.mk0]

theorem c2Send_kept (f : Flit) (s : State) : Keeps s (c2Send f s) := by
  unfold c2Send
  try dsimp only
  repeat' first
    | with_reducible apply Keeps.refl
    | simp only [↓Keeps.mk0, ↓Keeps.mkp, ↓Keeps.mkl, ↓Keeps.mkb]
    | with_reducible apply Keeps.ite
    | with_reducible apply Keeps.iteSnd
    | with_reducible apply Keeps.trans ?_ (updPort_kept ..)

theorem sendRelay_kept (dest : BitVec 12) (session : BitVec 18) (src n : Nat) (s : State) : Keeps s (sendRelay dest session src n s) := by
  unfold sendRelay
  try dsimp only
  repeat' first
    | with_reducible apply Keeps.refl
    | simp only [↓Keeps.mk0, ↓Keeps.mkp, ↓Keeps.mkl, ↓Keeps.mkb]
    | with_reducible apply Keeps.ite
    | with_reducible apply Keeps.iteSnd
    | with_reducible apply Keeps.trans ?_ (ingRead_kept ..)
    | with_reducible apply Keeps.trans ?_ (c2Send_kept ..)
    | (with_reducible apply Keeps.foldS; rotate_left; intro _ _)
    | with_reducible apply mwrite_wf
    | with_reducible apply mwrites_wf
    | with_reducible apply mzero_wf
    | assumption
    | split
    | (apply Keeps.snd; with_reducible assumption)

theorem ringWrite_kept (base size : Nat) (tag : Tag) (p : Nat) (bs : List Byte) (s : State) : Keeps s (ringWrite base size tag p bs s) := by
  unfold ringWrite
  try dsimp only
  repeat' first
    | with_reducible apply Keeps.refl
    | simp only [↓Keeps.mk0, ↓Keeps.mkp, ↓Keeps.mkl, ↓Keeps.mkb]
    | with_reducible apply Keeps.ite
    | with_reducible apply Keeps.iteSnd
    | with_reducible apply Keeps.trans ?_ (stackAsk_kept ..)
    | (with_reducible apply Keeps.foldS; rotate_left; intro _ _)

theorem ringReadAux_kept (base size : Nat) (l : List (Nat × Nat)) (s : State) : Keeps s (ringReadAux base size l s).2 := by
  induction l generalizing s with
  | nil => unfold ringReadAux; exact Keeps.refl _
  | cons p t ih =>
    unfold ringReadAux
    try dsimp only
    repeat' first
      | with_reducible apply Keeps.refl
      | simp only [↓Keeps.mk0, ↓Keeps.mkp, ↓Keeps.mkl, ↓Keeps.mkb]
      | with_reducible apply Keeps.ite
      | with_reducible apply Keeps.iteSnd
      | with_reducible apply Keeps.trans ?_ (ih ..)
      | with_reducible apply Keeps.trans ?_ (ingRead_kept ..)

theorem ringRead_kept (base size p n : Nat) (s : State) : Keeps s (ringRead base size p n s).2 := by
  unfold ringRead
  try dsimp only
  repeat' first
    | with_reducible apply Keeps.refl
    | simp only [↓Keeps.mk0, ↓Keeps.mkp, ↓Keeps.mkl, ↓Keeps.mkb]
    | with_reducible apply Keeps.ite
    | with_reducible apply Keeps.iteSnd
    | with_reducible apply Keeps.trans ?_ (ringReadAux_kept ..)

theorem relayArrive_kept (f : Flit) (s : State) : Keeps s (relayArrive f s) := by
  unfold relayArrive
  try dsimp only
  repeat' first
    | with_reducible apply Keeps.refl
    | simp only [↓Keeps.mk0]
    | with_reducible apply Keeps.ite
    | with_reducible apply Keeps.iteSnd
    | with_reducible apply Keeps.trans ?_ (accepted_kept ..)
    | with_reducible apply Keeps.trans ?_ (ringWrite_kept ..)

theorem latchNow_kept (mark at_ : U64) (s : State) : Keeps s (latchNow mark at_ s) := by
  unfold latchNow
  try dsimp only
  repeat' first
    | with_reducible apply Keeps.refl
    | simp only [↓Keeps.mk0]
    | with_reducible apply Keeps.ite

theorem ilogAppend_kept (bs : List Byte) (s : State) : Keeps s (ilogAppend bs s) := by
  unfold ilogAppend
  try dsimp only
  repeat' first
    | with_reducible apply Keeps.refl
    | simp only [↓Keeps.mk0]
    | with_reducible apply Keeps.ite
    | with_reducible apply Keeps.iteSnd
    | with_reducible apply Keeps.trans ?_ (setIrq_kept ..)
    | with_reducible apply Keeps.trans ?_ (ingWrite_kept ..)
    | (with_reducible apply Keeps.foldS; rotate_left; intro _ _)

theorem flushGaps_kept (l : List (U64 × U64)) (s : State) : Keeps s (flushGaps l s) := by
  induction l generalizing s with
  | nil => unfold flushGaps; exact Keeps.refl _
  | cons p t ih =>
    unfold flushGaps
    try dsimp only
    repeat' first
      | with_reducible apply Keeps.refl
      | simp only [↓Keeps.mk0]
      | with_reducible apply Keeps.ite
      | with_reducible apply Keeps.iteSnd
      | with_reducible apply Keeps.trans ?_ (ih ..)
      | with_reducible apply Keeps.trans ?_ (ilogAppend_kept ..)

theorem bytesRecords_kept (m : Muster) (l : List MusterEntry) (s : State) : Keeps s (bytesRecords m l s).2 := by
  induction l generalizing s with
  | nil => unfold bytesRecords; exact Keeps.refl _
  | cons p t ih =>
    unfold bytesRecords
    try dsimp only
    repeat' first
      | with_reducible apply Keeps.refl
      | simp only [↓Keeps.mk0, ↓Keeps.mkp, ↓Keeps.mkl, ↓Keeps.mkb]
      | with_reducible apply Keeps.ite
      | with_reducible apply Keeps.iteSnd
      | with_reducible apply Keeps.trans ?_ (ih ..)
      | with_reducible apply Keeps.trans ?_ (ringRead_kept ..)

theorem logMuster_kept (m : Muster) (s : State) : Keeps s (logMuster m s) := by
  unfold logMuster
  try dsimp only
  repeat' first
    | with_reducible apply Keeps.refl
    | simp only [↓Keeps.mk0]
    | with_reducible apply Keeps.ite
    | with_reducible apply Keeps.iteSnd
    | with_reducible apply Keeps.trans ?_ (logErr_kept ..)
    | with_reducible apply Keeps.trans ?_ (ilogAppend_kept ..)
    | with_reducible apply Keeps.trans ?_ (flushGaps_kept ..)
    | with_reducible apply Keeps.trans ?_ (bytesRecords_kept ..)

theorem setMustered_kept (m : Muster) (s : State) : Keeps s (setMustered m s) := by
  unfold setMustered
  try dsimp only
  repeat' first
    | with_reducible apply Keeps.refl
    | simp only [↓Keeps.mk0, ↓Keeps.mkp, ↓Keeps.mkl, ↓Keeps.mkb]
    | with_reducible apply Keeps.ite
    | with_reducible apply Keeps.iteSnd
    | with_reducible apply Keeps.trans ?_ (updSession_kept ..)
    | with_reducible apply Keeps.trans ?_ (moorPut_kept ..)
    | (with_reducible apply Keeps.foldS; rotate_left; intro _ _)

theorem freeClosed_kept (i : BitVec 18) (s : State) : Keeps s (freeClosed i s) := by
  unfold freeClosed
  try dsimp only
  repeat' first
    | with_reducible apply Keeps.refl
    | simp only [↓Keeps.mk0]
    | with_reducible apply Keeps.ite
    | with_reducible apply Keeps.iteSnd
    | with_reducible apply Keeps.trans ?_ (updSession_kept ..)
    | with_reducible apply Keeps.trans ?_ (consumerOf_kept ..)
    | with_reducible apply Keeps.trans ?_ (moorPut_kept ..)
    | with_reducible apply mwrite_wf
    | with_reducible apply mwrites_wf
    | with_reducible apply mzero_wf
    | assumption
    | split
    | (apply Keeps.snd; with_reducible assumption)

theorem musterBell_kept (m : U64) (s : State) : Keeps s (musterBell m s) := by
  unfold musterBell
  try dsimp only
  repeat' first
    | with_reducible apply Keeps.refl
    | simp only [↓Keeps.mk0, ↓Keeps.mkp, ↓Keeps.mkl, ↓Keeps.mkb]
    | with_reducible apply Keeps.ite
    | with_reducible apply Keeps.iteSnd
    | with_reducible apply Keeps.trans ?_ (fresh_kept ..)
    | with_reducible apply Keeps.trans ?_ (bellArrive_kept ..)

theorem addFirst_kept (w : IngWork) (s : State) : Keeps s (addFirst w s) := by
  unfold addFirst
  try dsimp only
  repeat' first
    | with_reducible apply Keeps.refl
    | simp only [↓Keeps.mk0]

theorem placeMuster_kept (m : Muster) (s : State) : Keeps s (placeMuster m s) := by
  unfold placeMuster
  try dsimp only
  repeat' first
    | with_reducible apply Keeps.refl
    | simp only [↓Keeps.mk0, ↓Keeps.mkp, ↓Keeps.mkl, ↓Keeps.mkb]
    | with_reducible apply Keeps.ite
    | with_reducible apply Keeps.iteSnd
    | with_reducible apply Keeps.trans ?_ (ingWrite_kept ..)
    | with_reducible apply Keeps.trans ?_ (setMustered_kept ..)
    | with_reducible apply Keeps.trans ?_ (freeClosed_kept ..)
    | with_reducible apply Keeps.trans ?_ (addFirst_kept ..)
    | (with_reducible apply Keeps.foldS; rotate_left; intro _ _)

theorem ilogRead_kept (p n : Nat) (s : State) : Keeps s (ilogRead p n s).2 := by
  unfold ilogRead
  try dsimp only
  repeat' first
    | with_reducible apply Keeps.refl
    | simp only [↓Keeps.mk0, ↓Keeps.mkp, ↓Keeps.mkl, ↓Keeps.mkb]
    | with_reducible apply Keeps.ite
    | with_reducible apply Keeps.iteSnd
    | with_reducible apply Keeps.trans ?_ (ringRead_kept ..)

theorem replayRecords_kept (m : U64) (es : List MusterEntry) (n t : Nat) (s : State) : Keeps s (replayRecords m es n t s).2 := by
  induction n generalizing t s with
  | zero => exact Keeps.refl s
  | succ n ih =>
    unfold replayRecords
    dsimp only
    refine Keeps.iteSnd (Keeps.refl s) (Keeps.iteSnd (Keeps.iteSnd ?_ ?_) ?_)
    · exact ilogRead_kept ..
    · exact ((ilogRead_kept t 64 s).trans (ilogRead_kept ..)).trans (ih ..)
    · exact ilogRead_kept ..

theorem replayBytes_kept (x : BitVec 18 × Nat × List Byte) (s : State) : Keeps s (replayBytes x s) := by
  unfold replayBytes
  try dsimp only
  repeat' first
    | with_reducible apply Keeps.refl
    | simp only [↓Keeps.mk0, ↓Keeps.mkp, ↓Keeps.mkl, ↓Keeps.mkb]
    | with_reducible apply Keeps.ite
    | with_reducible apply Keeps.iteSnd
    | with_reducible apply Keeps.trans ?_ (ingRead_kept ..)
    | with_reducible apply Keeps.trans ?_ (ringWrite_kept ..)
    | with_reducible apply mwrite_wf
    | with_reducible apply mwrites_wf
    | with_reducible apply mzero_wf
    | assumption
    | split
    | (apply Keeps.snd; with_reducible assumption)

theorem replayEntry_kept (e : MusterEntry) (s : State) : Keeps s (replayEntry e s) := by
  unfold replayEntry
  try dsimp only
  repeat' first
    | with_reducible apply Keeps.refl
    | simp only [↓Keeps.mk0]
    | with_reducible apply Keeps.ite
    | with_reducible apply Keeps.iteSnd
    | with_reducible apply Keeps.trans ?_ (updSession_kept ..)
    | with_reducible apply Keeps.trans ?_ (moorPut_kept ..)

theorem replayMuster_kept (m : Muster) (s : State) : Keeps s (replayMuster m s) := by
  unfold replayMuster
  try dsimp only
  repeat' first
    | with_reducible apply Keeps.refl
    | simp only [↓Keeps.mk0]
    | with_reducible apply Keeps.ite
    | with_reducible apply Keeps.iteSnd
    | with_reducible apply Keeps.trans ?_ (placeMuster_kept ..)
    | with_reducible apply Keeps.trans ?_ (ilogRead_kept ..)
    | with_reducible apply Keeps.trans ?_ (replayRecords_kept ..)
    | with_reducible apply Keeps.trans ?_ (replayBytes_kept ..)
    | with_reducible apply Keeps.trans ?_ (replayEntry_kept ..)
    | (with_reducible apply Keeps.foldS; rotate_left; intro _ _)
    | with_reducible apply mwrite_wf
    | with_reducible apply mwrites_wf
    | with_reducible apply mzero_wf
    | assumption
    | split
    | (apply Keeps.snd; with_reducible assumption)

theorem ingStep_kept (w : IngWork) (s : State) : Keeps s (ingStep w s) := by
  unfold ingStep
  try dsimp only
  repeat' first
    | with_reducible apply Keeps.refl
    | simp only [↓Keeps.mk0, ↓Keeps.mkp, ↓Keeps.mkl, ↓Keeps.mkb]
    | with_reducible apply Keeps.ite
    | with_reducible apply Keeps.iteSnd
    | with_reducible apply Keeps.trans ?_ (acceptMoor_kept ..)
    | with_reducible apply Keeps.trans ?_ (sendRelay_kept ..)
    | with_reducible apply Keeps.trans ?_ (latchNow_kept ..)
    | with_reducible apply Keeps.trans ?_ (logMuster_kept ..)
    | with_reducible apply Keeps.trans ?_ (musterBell_kept ..)
    | with_reducible apply Keeps.trans ?_ (placeMuster_kept ..)
    | with_reducible apply Keeps.trans ?_ (replayMuster_kept ..)
    | with_reducible apply mwrite_wf
    | with_reducible apply mwrites_wf
    | with_reducible apply mzero_wf
    | assumption
    | split

theorem runTask_kept (t : IngTask) (s : State) : Keeps s (runTask t s) := by
  unfold runTask
  try dsimp only
  repeat' first
    | with_reducible apply Keeps.refl
    | simp only [↓Keeps.mk0]
    | with_reducible apply Keeps.ite
    | with_reducible apply Keeps.iteSnd
    | with_reducible apply Keeps.trans ?_ (stackAsk_kept ..)
    | with_reducible apply Keeps.trans ?_ (ingStep_kept ..)
    | (with_reducible apply Keeps.foldS; rotate_left; intro _ _)

theorem ingWork_kept (n : Nat) (s : State) : Keeps s (ingWork n s) := by
  induction n generalizing s with
  | zero => exact Keeps.refl s
  | succ n ih =>
    unfold ingWork
    split
    · exact (runTask_kept _ s).trans (ih _)
    · exact Keeps.refl s

theorem ingressWork_kept (s : State) : Keeps s (ingressWork s) := by
  unfold ingressWork
  try dsimp only
  repeat' first
    | with_reducible apply Keeps.refl
    | simp only [↓Keeps.mk0, ↓Keeps.mkp, ↓Keeps.mkl, ↓Keeps.mkb]
    | with_reducible apply Keeps.ite
    | with_reducible apply Keeps.iteSnd
    | with_reducible apply Keeps.trans ?_ (ingWork_kept ..)

theorem moorRequest_kept (r : MoorReq) (s : State) : Keeps s (moorRequest r s) := by
  unfold moorRequest
  try dsimp only
  repeat' first
    | with_reducible apply Keeps.refl
    | simp only [↓Keeps.mk0]
    | with_reducible apply Keeps.ite
    | with_reducible apply Keeps.iteSnd
    | with_reducible apply Keeps.trans ?_ (moorResult_kept ..)
    | with_reducible apply Keeps.trans ?_ (moorRefuse_kept ..)
    | with_reducible apply Keeps.trans ?_ (addTask_kept ..)
    | with_reducible apply Keeps.trans ?_ (ingressWork_kept ..)

theorem moorRelease_kept (s : State) : Keeps s (moorRelease s) := by
  unfold moorRelease
  try dsimp only
  repeat' first
    | with_reducible apply Keeps.refl
    | simp only [↓Keeps.mk0]
    | with_reducible apply Keeps.ite
    | with_reducible apply Keeps.iteSnd
    | with_reducible apply Keeps.trans ?_ (addTask_kept ..)
    | with_reducible apply Keeps.trans ?_ (ingressWork_kept ..)
    | (with_reducible apply Keeps.foldS; rotate_left; intro _ _)

theorem execMoorOpen_kept (s : State) : OutKeeps s (execMoorOpen s) := by
  unfold execMoorOpen
  try dsimp only
  repeat' first
    | with_reducible apply Keeps.refl
    | with_reducible apply OutKeeps.next
    | with_reducible apply OutKeeps.refused
    | with_reducible apply OutKeeps.ite
    | simp only [↓Keeps.mk0, ↓Keeps.mkp, ↓Keeps.mkl, ↓Keeps.mkb]
    | with_reducible apply Keeps.ite
    | with_reducible apply Keeps.iteSnd
    | with_reducible apply Keeps.trans ?_ (moorRequest_kept ..)

theorem execMoorClose_kept (s : State) : OutKeeps s (execMoorClose s) := by
  unfold execMoorClose
  try dsimp only
  repeat' first
    | with_reducible apply Keeps.refl
    | with_reducible apply OutKeeps.next
    | with_reducible apply OutKeeps.refused
    | with_reducible apply OutKeeps.ite
    | simp only [↓Keeps.mk0, ↓Keeps.mkp, ↓Keeps.mkl, ↓Keeps.mkb]
    | with_reducible apply Keeps.ite
    | with_reducible apply Keeps.iteSnd
    | with_reducible apply Keeps.trans ?_ (moorRequest_kept ..)

theorem execDoorbell_kept (session : BitVec 18) (v : U32) (s : State) : OutKeeps s (execDoorbell session v s) := by
  unfold execDoorbell
  try dsimp only
  repeat' first
    | with_reducible apply Keeps.refl
    | with_reducible apply OutKeeps.next
    | with_reducible apply OutKeeps.refused
    | with_reducible apply OutKeeps.ite
    | simp only [↓Keeps.mk0, ↓Keeps.mkp, ↓Keeps.mkl, ↓Keeps.mkb]
    | with_reducible apply Keeps.ite
    | with_reducible apply Keeps.iteSnd
    | with_reducible apply Keeps.trans ?_ (moorRequest_kept ..)

theorem execRelayedDoorbell_kept (session : BitVec 18) (source : BitVec 12) (bytes : U32) (s : State) : OutKeeps s (execRelayedDoorbell session source bytes s) := by
  unfold execRelayedDoorbell
  try dsimp only
  repeat' first
    | with_reducible apply Keeps.refl
    | with_reducible apply OutKeeps.next
    | with_reducible apply OutKeeps.refused
    | with_reducible apply OutKeeps.ite
    | simp only [↓Keeps.mk0]
    | with_reducible apply Keeps.ite
    | with_reducible apply Keeps.iteSnd
    | with_reducible apply Keeps.trans ?_ (moorRequest_kept ..)
    | with_reducible apply mwrite_wf
    | with_reducible apply mwrites_wf
    | with_reducible apply mzero_wf
    | assumption
    | split

theorem execRelayStall_kept (session : BitVec 18) (source : BitVec 12) (s : State) : OutKeeps s (execRelayStall session source s) := by
  unfold execRelayStall
  try dsimp only
  repeat' first
    | with_reducible apply Keeps.refl
    | with_reducible apply OutKeeps.next
    | with_reducible apply OutKeeps.refused
    | with_reducible apply OutKeeps.ite
    | simp only [↓Keeps.mk0]
    | with_reducible apply Keeps.ite
    | with_reducible apply Keeps.iteSnd
    | with_reducible apply Keeps.trans ?_ (logErr_kept ..)
    | with_reducible apply mwrite_wf
    | with_reducible apply mwrites_wf
    | with_reducible apply mzero_wf
    | assumption
    | split

theorem execMoorRelay_kept (s : State) : OutKeeps s (execMoorRelay s) := by
  unfold execMoorRelay
  try dsimp only
  repeat' first
    | with_reducible apply Keeps.refl
    | with_reducible apply OutKeeps.next
    | with_reducible apply OutKeeps.refused
    | with_reducible apply OutKeeps.ite
    | simp only [↓Keeps.mk0, ↓Keeps.mkp, ↓Keeps.mkl, ↓Keeps.mkb]
    | with_reducible apply Keeps.ite
    | with_reducible apply Keeps.iteSnd
    | with_reducible apply Keeps.trans ?_ (logErr_kept ..)
    | with_reducible apply Keeps.trans ?_ (addTask_kept ..)
    | with_reducible apply Keeps.trans ?_ (ingressWork_kept ..)

theorem latchMuster_kept (s : State) : Keeps s (latchMuster s) := by
  unfold latchMuster
  try dsimp only
  repeat' first
    | with_reducible apply Keeps.refl
    | simp only [↓Keeps.mk0]
    | with_reducible apply Keeps.ite
    | with_reducible apply Keeps.iteSnd
    | with_reducible apply Keeps.trans ?_ (ingressWork_kept ..)

theorem execMusterWrite_kept (s : State) : OutKeeps s (execMusterWrite s) := by
  unfold execMusterWrite
  try dsimp only
  repeat' first
    | with_reducible apply Keeps.refl
    | with_reducible apply OutKeeps.next
    | with_reducible apply OutKeeps.refused
    | with_reducible apply OutKeeps.ite
    | simp only [↓Keeps.mk0]
    | with_reducible apply Keeps.ite
    | with_reducible apply Keeps.iteSnd
    | with_reducible apply Keeps.trans ?_ (addTask_kept ..)
    | with_reducible apply Keeps.trans ?_ (ingressWork_kept ..)
    | with_reducible apply mwrite_wf
    | with_reducible apply mwrites_wf
    | with_reducible apply mzero_wf
    | assumption
    | split

theorem execIlogTailHiWrite_kept (v : U32) (s : State) : OutKeeps s (execIlogTailHiWrite v s) := by
  unfold execIlogTailHiWrite
  try dsimp only
  repeat' first
    | with_reducible apply Keeps.refl
    | with_reducible apply OutKeeps.next
    | with_reducible apply OutKeeps.refused
    | with_reducible apply OutKeeps.ite
    | simp only [↓Keeps.mk0]
    | with_reducible apply Keeps.ite
    | with_reducible apply Keeps.iteSnd
    | with_reducible apply Keeps.trans ?_ (flushGaps_kept ..)

theorem execIlogHeadSetWrite_kept (v : U32) (s : State) : OutKeeps s (execIlogHeadSetWrite v s) := by
  unfold execIlogHeadSetWrite
  try dsimp only
  repeat' first
    | with_reducible apply Keeps.refl
    | with_reducible apply OutKeeps.next
    | with_reducible apply OutKeeps.refused
    | with_reducible apply OutKeeps.ite
    | simp only [↓Keeps.mk0]
    | with_reducible apply Keeps.ite

theorem reshift_kept (s : State) : Keeps s (reshift s) := by
  unfold reshift
  try dsimp only
  repeat' first
    | with_reducible apply Keeps.refl
    | simp only [↓Keeps.mk0]

theorem logSlip_kept (e : SlipEntry) (s : State) : Keeps s (logSlip e s) := by
  unfold logSlip
  try dsimp only
  repeat' first
    | with_reducible apply Keeps.refl
    | simp only [↓Keeps.mk0]

theorem countSlip_kept (s : State) : Keeps s (countSlip s) := by
  unfold countSlip
  try dsimp only
  repeat' first
    | with_reducible apply Keeps.refl
    | simp only [↓Keeps.mk0]
    | with_reducible apply Keeps.ite
    | with_reducible apply Keeps.iteSnd
    | with_reducible apply Keeps.trans ?_ (setIrq_kept ..)

theorem applySlip_kept (m k : Nat) (raiser : BitVec 12) (core : BitVec 5) (seq : Bool) (reason : Byte) (s : State) : Keeps s (applySlip m k raiser core seq reason s) := by
  unfold applySlip
  try dsimp only
  repeat' first
    | with_reducible apply Keeps.refl
    | simp only [↓Keeps.mk0]
    | with_reducible apply Keeps.ite
    | with_reducible apply Keeps.iteSnd
    | with_reducible apply Keeps.trans ?_ (reshift_kept ..)
    | with_reducible apply Keeps.trans ?_ (logSlip_kept ..)
    | with_reducible apply Keeps.trans ?_ (countSlip_kept ..)

theorem raiseSlip_kept (m k : Nat) (core : Option (Fin 32)) (reason : Byte) (s : State) : Keeps s (raiseSlip m k core reason s) := by
  unfold raiseSlip
  try dsimp only
  repeat' first
    | with_reducible apply Keeps.refl
    | simp only [↓Keeps.mk0, ↓Keeps.mkp, ↓Keeps.mkl, ↓Keeps.mkb]
    | with_reducible apply Keeps.ite
    | with_reducible apply Keeps.iteSnd
    | with_reducible apply Keeps.trans ?_ (c0flood_kept ..)
    | with_reducible apply Keeps.trans ?_ (applySlip_kept ..)

theorem checkProgress_kept (c : Nat) (core : Option (Fin 32)) (reason : Byte) (s : State) : Keeps s (checkProgress c core reason s) := by
  unfold checkProgress
  try dsimp only
  repeat' first
    | with_reducible apply Keeps.refl
    | simp only [↓Keeps.mk0, ↓Keeps.mkp, ↓Keeps.mkl, ↓Keeps.mkb]
    | with_reducible apply Keeps.ite
    | with_reducible apply Keeps.iteSnd
    | with_reducible apply Keeps.trans ?_ (raiseSlip_kept ..)

theorem execHorizonCheck_kept (s : State) : OutKeeps s (execHorizonCheck s) := by
  unfold execHorizonCheck
  try dsimp only
  repeat' first
    | with_reducible apply Keeps.refl
    | with_reducible apply OutKeeps.next
    | with_reducible apply OutKeeps.refused
    | with_reducible apply OutKeeps.ite
    | simp only [↓Keeps.mk0]
    | with_reducible apply Keeps.ite
    | with_reducible apply Keeps.iteSnd
    | with_reducible apply Keeps.trans ?_ (checkProgress_kept ..)

theorem lateSlip_kept (m k : Nat) (raiser : BitVec 12) (core : BitVec 5) (seq : Bool) (reason : Byte) (s : State) : Keeps s (lateSlip m k raiser core seq reason s) := by
  unfold lateSlip
  try dsimp only
  repeat' first
    | with_reducible apply Keeps.refl
    | simp only [↓Keeps.mk0, ↓Keeps.mkp, ↓Keeps.mkl, ↓Keeps.mkb]
    | with_reducible apply Keeps.ite
    | with_reducible apply Keeps.iteSnd
    | with_reducible apply Keeps.trans ?_ (c0drop_kept ..)
    | with_reducible apply Keeps.trans ?_ (logSlip_kept ..)

theorem execSlipMsg_kept (port : Fin 16) (msg : C0Msg) (s : State) : OutKeeps s (execSlipMsg port msg s) := by
  unfold execSlipMsg
  try dsimp only
  repeat' first
    | with_reducible apply Keeps.refl
    | with_reducible apply OutKeeps.next
    | with_reducible apply OutKeeps.refused
    | with_reducible apply OutKeeps.ite
    | simp only [↓Keeps.mk0]
    | with_reducible apply Keeps.ite
    | with_reducible apply Keeps.iteSnd
    | with_reducible apply Keeps.trans ?_ (c0flood_kept ..)
    | with_reducible apply Keeps.trans ?_ (c0drop_kept ..)
    | with_reducible apply Keeps.trans ?_ (applySlip_kept ..)
    | with_reducible apply Keeps.trans ?_ (lateSlip_kept ..)
    | with_reducible apply mwrite_wf
    | with_reducible apply mwrites_wf
    | with_reducible apply mzero_wf
    | assumption
    | split

theorem execLegArmHiWrite_kept (v : U32) (s : State) : OutKeeps s (execLegArmHiWrite v s) := by
  unfold execLegArmHiWrite
  try dsimp only
  repeat' first
    | with_reducible apply Keeps.refl
    | with_reducible apply OutKeeps.next
    | with_reducible apply OutKeeps.refused
    | with_reducible apply OutKeeps.ite
    | simp only [↓Keeps.mk0]
    | with_reducible apply Keeps.ite
    | with_reducible apply Keeps.iteSnd
    | with_reducible apply Keeps.trans ?_ (logErr_kept ..)

theorem switchTables_kept (entry : Nat) (s : State) : Keeps s (switchTables entry s) := by
  unfold switchTables
  try dsimp only
  repeat' first
    | with_reducible apply Keeps.refl
    | simp only [↓Keeps.mk0]
    | with_reducible apply Keeps.ite
    | with_reducible apply Keeps.iteSnd
    | with_reducible apply Keeps.trans ?_ (slotCollision_kept ..)

theorem noteFloor_kept (s : State) : Keeps s (noteFloor s) := by
  unfold noteFloor
  try dsimp only
  repeat' first
    | with_reducible apply Keeps.refl
    | simp only [↓Keeps.mk0]
    | with_reducible apply Keeps.ite
    | with_reducible apply Keeps.iteSnd
    | with_reducible apply Keeps.trans ?_ (checkService_kept ..)

theorem lateEscalation_kept (s : State) : Keeps s (lateEscalation s) := by
  unfold lateEscalation
  try dsimp only
  repeat' first
    | with_reducible apply Keeps.refl
    | simp only [↓Keeps.mk0]
    | with_reducible apply Keeps.ite
    | with_reducible apply Keeps.iteSnd
    | with_reducible apply Keeps.trans ?_ (raiseHalt_kept ..)

theorem startLeg_kept (late : Bool) (s : State) : Keeps s (startLeg late s) := by
  unfold startLeg
  try dsimp only
  repeat' first
    | with_reducible apply Keeps.refl
    | simp only [↓Keeps.mk0]
    | with_reducible apply Keeps.ite
    | with_reducible apply Keeps.iteSnd
    | with_reducible apply Keeps.trans ?_ (groupsAtLeg_kept ..)
    | with_reducible apply Keeps.trans ?_ (applySteps_kept ..)
    | with_reducible apply Keeps.trans ?_ (noteFloor_kept ..)
    | with_reducible apply Keeps.trans ?_ (lateEscalation_kept ..)

theorem park_kept (s : State) : Keeps s (park s) := by
  unfold park
  try dsimp only
  repeat' first
    | with_reducible apply Keeps.refl
    | simp only [↓Keeps.mk0, ↓Keeps.mkp]
    | with_reducible apply Keeps.ite
    | with_reducible apply Keeps.iteSnd
    | with_reducible apply Keeps.trans ?_ (enterSelfRefresh_kept ..)

theorem markLeg_kept (s : State) : Keeps s (markLeg s) := by
  unfold markLeg
  try dsimp only
  repeat' first
    | with_reducible apply Keeps.refl
    | simp only [↓Keeps.mk0, ↓Keeps.mkp, ↓Keeps.mkl, ↓Keeps.mkb]
    | with_reducible apply Keeps.ite
    | with_reducible apply Keeps.iteSnd
    | with_reducible apply Keeps.trans ?_ (raiseSlip_kept ..)
    | with_reducible apply Keeps.trans ?_ (startLeg_kept ..)
    | with_reducible apply mwrite_wf
    | with_reducible apply mwrites_wf
    | with_reducible apply mzero_wf
    | assumption
    | split

theorem reachMark_kept (s : State) : Keeps s (reachMark s) := by
  unfold reachMark
  try dsimp only
  repeat' first
    | with_reducible apply Keeps.refl
    | simp only [↓Keeps.mk0]
    | with_reducible apply Keeps.ite
    | with_reducible apply Keeps.iteSnd
    | with_reducible apply Keeps.trans ?_ (latchMuster_kept ..)
    | with_reducible apply Keeps.trans ?_ (reshift_kept ..)
    | with_reducible apply Keeps.trans ?_ (switchTables_kept ..)
    | with_reducible apply Keeps.trans ?_ (markLeg_kept ..)

theorem execMark_kept (s : State) : OutKeeps s (execMark s) := by
  unfold execMark
  try dsimp only
  repeat' first
    | with_reducible apply Keeps.refl
    | with_reducible apply OutKeeps.next
    | with_reducible apply OutKeeps.refused
    | with_reducible apply OutKeeps.ite
    | simp only [↓Keeps.mk0, ↓Keeps.mkp, ↓Keeps.mkl, ↓Keeps.mkb]
    | with_reducible apply Keeps.ite
    | with_reducible apply Keeps.iteSnd
    | with_reducible apply Keeps.trans ?_ (reachMark_kept ..)

theorem startHelm_kept (c : Fin 32) (s : State) : Keeps s (startHelm c s) := by
  unfold startHelm
  try dsimp only
  repeat' first
    | with_reducible apply Keeps.refl
    | simp only [↓Keeps.mk0, ↓Keeps.mkp, ↓Keeps.mkl, ↓Keeps.mkb]
    | with_reducible apply Keeps.ite
    | with_reducible apply Keeps.iteSnd
    | with_reducible apply Keeps.trans ?_ (updCore_kept ..)
    | with_reducible apply Keeps.trans ?_ (startJob_kept ..)
    | with_reducible apply Keeps.trans ?_ (endJob_kept ..)
    | with_reducible apply mwrite_wf
    | with_reducible apply mwrites_wf
    | with_reducible apply mzero_wf
    | assumption
    | split

theorem execHelmLoadDone_kept (core : Fin 32) (s : State) : OutKeeps s (execHelmLoadDone core s) := by
  unfold execHelmLoadDone
  try dsimp only
  repeat' first
    | with_reducible apply Keeps.refl
    | with_reducible apply OutKeeps.next
    | with_reducible apply OutKeeps.refused
    | with_reducible apply OutKeeps.ite
    | simp only [↓Keeps.mk0, ↓Keeps.mkp, ↓Keeps.mkl, ↓Keeps.mkb]
    | with_reducible apply Keeps.ite
    | with_reducible apply Keeps.iteSnd
    | with_reducible apply Keeps.trans ?_ (updCore_kept ..)
    | with_reducible apply Keeps.trans ?_ (endJob_kept ..)
    | with_reducible apply mwrite_wf
    | with_reducible apply mwrites_wf
    | with_reducible apply mzero_wf
    | assumption
    | split

theorem execLegComplete_kept (s : State) : OutKeeps s (execLegComplete s) := by
  unfold execLegComplete
  try dsimp only
  repeat' first
    | with_reducible apply Keeps.refl
    | with_reducible apply OutKeeps.next
    | with_reducible apply OutKeeps.refused
    | with_reducible apply OutKeeps.ite
    | simp only [↓Keeps.mk0]
    | with_reducible apply Keeps.ite
    | with_reducible apply Keeps.iteSnd
    | with_reducible apply Keeps.trans ?_ (deliverMesh_kept ..)
    | with_reducible apply Keeps.trans ?_ (startLeg_kept ..)
    | with_reducible apply Keeps.trans ?_ (park_kept ..)

/-- Standby power-on or loss clears DEBUG_ENABLE and the key slots; the fuses stay (R349, R373). -/
theorem standbyClear_fuses (on : Bool) (s : State) :
    (standbyClear on s).pwr.debugFuse = s.pwr.debugFuse ∧ (standbyClear on s).pwr.fuses = s.pwr.fuses ∧
      (standbyClear on s).pwr.debugEnable = false ∧ Memory.wf (standbyClear on s).dram = true := ⟨rfl, rfl, rfl, rfl⟩

theorem execStandbyPowerOn_fuses {s t : State} (h : execStandbyPowerOn s = .next t) :
    t.pwr.debugFuse = s.pwr.debugFuse ∧ t.pwr.fuses = s.pwr.fuses ∧ t.pwr.debugEnable = false ∧ Memory.wf t.dram = true := by
  cases h
  have k := checkService_kept (standbyClear true s)
  obtain ⟨a, b, c, d⟩ := standbyClear_fuses true s
  have e := k.1
  simp only [keep, Prod.mk.injEq] at e
  exact ⟨e.1.trans a, e.2.2.1.trans b, e.2.1.trans c, k.2 d⟩

theorem execStandbyPowerLoss_fuses {s t : State} (h : execStandbyPowerLoss s = .next t) :
    t.pwr.debugFuse = s.pwr.debugFuse ∧ t.pwr.fuses = s.pwr.fuses ∧ t.pwr.debugEnable = false ∧ Memory.wf t.dram = true := by
  cases h
  exact standbyClear_fuses false s

theorem execMainInputLoss_kept (s : State) : OutKeeps s (execMainInputLoss s) := by
  unfold execMainInputLoss
  try dsimp only
  repeat' first
    | with_reducible apply Keeps.refl
    | with_reducible apply OutKeeps.next
    | with_reducible apply OutKeeps.refused
    | with_reducible apply OutKeeps.ite
    | simp only [↓Keeps.mkp]
    | with_reducible apply Keeps.ite
    | with_reducible apply Keeps.iteSnd
    | with_reducible apply Keeps.trans ?_ (mainReset_kept ..)

theorem execPowerOff_kept (s : State) : OutKeeps s (execPowerOff s) := by
  unfold execPowerOff
  try dsimp only
  repeat' first
    | with_reducible apply Keeps.refl
    | with_reducible apply OutKeeps.next
    | with_reducible apply OutKeeps.refused
    | with_reducible apply OutKeeps.ite
    | simp only [↓Keeps.mkp]
    | with_reducible apply Keeps.ite
    | with_reducible apply Keeps.iteSnd
    | with_reducible apply Keeps.trans ?_ (mainReset_kept ..)

theorem reportLevel_kept (mv : U16) (s : State) : Keeps s (reportLevel mv s) := by
  unfold reportLevel
  try dsimp only
  repeat' first
    | with_reducible apply Keeps.refl
    | simp only [↓Keeps.mkp]

theorem startRamp_kept (fast : Bool) (s : State) : Keeps s (startRamp fast s) := by
  unfold startRamp
  try dsimp only
  repeat' first
    | with_reducible apply Keeps.refl
    | simp only [↓Keeps.mkp]

theorem execMainInputStable_kept (mv : U16) (s : State) : OutKeeps s (execMainInputStable mv s) := by
  unfold execMainInputStable
  try dsimp only
  repeat' first
    | with_reducible apply Keeps.refl
    | with_reducible apply OutKeeps.next
    | with_reducible apply OutKeeps.refused
    | with_reducible apply OutKeeps.ite
    | simp only [↓Keeps.mkp]
    | with_reducible apply Keeps.ite
    | with_reducible apply Keeps.iteSnd
    | with_reducible apply Keeps.trans ?_ (reportLevel_kept ..)
    | with_reducible apply Keeps.trans ?_ (startRamp_kept ..)

theorem leaveTier_kept (new : Fin 6) (s : State) : Keeps s (leaveTier new s) := by
  unfold leaveTier
  try dsimp only
  repeat' first
    | with_reducible apply Keeps.refl
    | simp only [↓Keeps.mkp]
    | with_reducible apply Keeps.ite
    | with_reducible apply Keeps.iteSnd
    | with_reducible apply Keeps.trans ?_ (setEvent_kept ..)
    | with_reducible apply Keeps.trans ?_ (setCap_kept ..)
    | with_reducible apply Keeps.trans ?_ (moorRelease_kept ..)

theorem execPowerOn_kept (s : State) : OutKeeps s (execPowerOn s) := by
  unfold execPowerOn
  try dsimp only
  repeat' first
    | with_reducible apply Keeps.refl
    | with_reducible apply OutKeeps.next
    | with_reducible apply OutKeeps.refused
    | with_reducible apply OutKeeps.ite
    | simp only [↓Keeps.mkp]
    | with_reducible apply Keeps.ite
    | with_reducible apply Keeps.iteSnd
    | with_reducible apply Keeps.trans ?_ (dieOff_kept ..)
    | with_reducible apply Keeps.trans ?_ (startRamp_kept ..)
    | with_reducible apply Keeps.trans ?_ (leaveTier_kept ..)

theorem bringupFail_kept (s : State) : Keeps s (bringupFail s) := by
  unfold bringupFail
  try dsimp only
  repeat' first
    | with_reducible apply Keeps.refl
    | simp only [↓Keeps.mkp]
    | with_reducible apply Keeps.ite
    | with_reducible apply Keeps.iteSnd
    | with_reducible apply Keeps.trans ?_ (setEvent_kept ..)
    | with_reducible apply Keeps.trans ?_ (mainReset_kept ..)

theorem scrubBlock_kept (block : Nat) (e : ErrPat) (s : State) : Keeps s (scrubBlock block e s) := by
  unfold scrubBlock
  try dsimp only
  repeat' first
    | with_reducible apply Keeps.refl
    | simp only [↓Keeps.mk0, ↓Keeps.mkp, ↓Keeps.mkl, ↓Keeps.mkb]
    | with_reducible apply Keeps.ite
    | with_reducible apply Keeps.iteSnd
    | with_reducible apply Keeps.trans ?_ (logErr_kept ..)
    | with_reducible apply Keeps.trans ?_ (noteCorrected_kept ..)
    | with_reducible apply Keeps.trans ?_ (ueRow_kept ..)
    | with_reducible apply mwrite_wf
    | with_reducible apply mwrites_wf
    | with_reducible apply mzero_wf
    | assumption
    | split

theorem fullScrub_kept (met : List (Nat × ErrPat)) (s : State) : Keeps s (fullScrub met s) := by
  have h : Keeps s (foldS (fun e s => scrubBlock e.1 e.2 s) (s.errs ++ met) s) :=
    Keeps.foldS (Keeps.refl s) fun e s => scrubBlock_kept e.1 e.2 s
  unfold fullScrub
  generalize foldS (fun e s => scrubBlock e.1 e.2 s) (s.errs ++ met) s = u at h
  have k : Keeps u { u with
      cores := Vector.replicate 32 {}, groups := [], dram := [], errs := [], pwr := { u.pwr with snapshot := none } } := ⟨rfl, fun _ => rfl⟩
  exact (h.trans k).trans (dropJob_kept _)

theorem retrainDown_kept (s : State) : Keeps s (retrainDown s) := by
  unfold retrainDown
  try dsimp only
  repeat' first
    | with_reducible apply Keeps.refl
    | simp only [↓Keeps.mk0]

theorem soundingDone_kept (s : State) : Keeps s (soundingDone s) := by
  unfold soundingDone
  try dsimp only
  repeat' first
    | with_reducible apply Keeps.refl
    | simp only [↓Keeps.mkp]
    | with_reducible apply Keeps.ite
    | with_reducible apply Keeps.iteSnd
    | with_reducible apply Keeps.trans ?_ (leaveSounding_kept ..)

theorem execBringupPhaseDone_kept (done : PhaseEnd) (s : State) : OutKeeps s (execBringupPhaseDone done s) := by
  unfold execBringupPhaseDone
  try dsimp only
  repeat' first
    | with_reducible apply Keeps.refl
    | with_reducible apply OutKeeps.next
    | with_reducible apply OutKeeps.refused
    | with_reducible apply OutKeeps.ite
    | simp only [↓Keeps.mkp]
    | with_reducible apply Keeps.ite
    | with_reducible apply Keeps.iteSnd
    | with_reducible apply Keeps.trans ?_ (takeRole_kept ..)
    | with_reducible apply Keeps.trans ?_ (refreshRefOk_kept ..)
    | with_reducible apply Keeps.trans ?_ (leaveSelfRefresh_kept ..)
    | with_reducible apply Keeps.trans ?_ (tryZeroing_kept ..)
    | with_reducible apply Keeps.trans ?_ (bringupFail_kept ..)
    | with_reducible apply Keeps.trans ?_ (fullScrub_kept ..)
    | with_reducible apply Keeps.trans ?_ (retrainDown_kept ..)
    | with_reducible apply Keeps.trans ?_ (soundingDone_kept ..)
    | with_reducible apply mwrite_wf
    | with_reducible apply mwrites_wf
    | with_reducible apply mzero_wf
    | assumption
    | split

theorem countTier_kept (t : Nat) (s : State) : Keeps s (countTier t s) := by
  unfold countTier
  try dsimp only
  repeat' first
    | with_reducible apply Keeps.refl
    | simp only [↓Keeps.mkp]

theorem loseStacks_kept (s : State) : Keeps s (loseStacks s) := ⟨rfl, fun _ => rfl⟩

theorem tierAction_kept (t : Nat) (mv : U16) (s : State) : Keeps s (tierAction t mv s) := by
  unfold tierAction
  try dsimp only
  repeat' first
    | with_reducible apply Keeps.refl
    | simp only [↓Keeps.mkp]
    | with_reducible apply Keeps.ite
    | with_reducible apply Keeps.iteSnd
    | with_reducible apply Keeps.trans ?_ (raiseHalt_kept ..)
    | with_reducible apply Keeps.trans ?_ (setCap_kept ..)
    | with_reducible apply Keeps.trans ?_ (enterSelfRefresh_kept ..)
    | with_reducible apply Keeps.trans ?_ (dieOff_kept ..)
    | with_reducible apply Keeps.trans ?_ (mainReset_kept ..)
    | with_reducible apply Keeps.trans ?_ (park_kept ..)
    | with_reducible apply Keeps.trans ?_ (countTier_kept ..)
    | with_reducible apply mwrite_wf
    | with_reducible apply mwrites_wf
    | with_reducible apply mzero_wf
    | assumption
    | split

theorem tierActions_kept (mv : U16) (last : Nat) (l : List Nat) (s : State) : Keeps s (tierActions mv last l s) := by
  induction l generalizing s with
  | nil => unfold tierActions; exact Keeps.refl _
  | cons p t ih =>
    unfold tierActions
    try dsimp only
    repeat' first
      | with_reducible apply Keeps.refl
      | simp only [↓Keeps.mkp]
      | with_reducible apply Keeps.ite
      | with_reducible apply Keeps.iteSnd
      | with_reducible apply Keeps.trans ?_ (ih ..)
      | with_reducible apply Keeps.trans ?_ (tierAction_kept ..)

theorem execTierEntry_kept (tier : Fin 6) (mv : U16) (fast : Bool) (s : State) : OutKeeps s (execTierEntry tier mv fast s) := by
  unfold execTierEntry
  try dsimp only
  repeat' first
    | with_reducible apply Keeps.refl
    | with_reducible apply OutKeeps.next
    | with_reducible apply OutKeeps.refused
    | with_reducible apply OutKeeps.ite
    | simp only [↓Keeps.mkp]
    | with_reducible apply Keeps.ite
    | with_reducible apply Keeps.iteSnd
    | with_reducible apply Keeps.trans ?_ (setEvent_kept ..)
    | with_reducible apply Keeps.trans ?_ (reportLevel_kept ..)
    | with_reducible apply Keeps.trans ?_ (loseStacks_kept ..)
    | with_reducible apply Keeps.trans ?_ (tierActions_kept ..)

theorem execTierLeave_kept (tier : Fin 6) (mv : U16) (s : State) : OutKeeps s (execTierLeave tier mv s) := by
  unfold execTierLeave
  try dsimp only
  repeat' first
    | with_reducible apply Keeps.refl
    | with_reducible apply OutKeeps.next
    | with_reducible apply OutKeeps.refused
    | with_reducible apply OutKeeps.ite
    | simp only [↓Keeps.mkp]
    | with_reducible apply Keeps.ite
    | with_reducible apply Keeps.iteSnd
    | with_reducible apply Keeps.trans ?_ (reportLevel_kept ..)
    | with_reducible apply Keeps.trans ?_ (leaveTier_kept ..)

theorem suspendRefused_kept (code : Nat) (s : State) : Keeps s (suspendRefused code s) := by
  unfold suspendRefused
  try dsimp only
  repeat' first
    | with_reducible apply Keeps.refl
    | simp only [↓Keeps.mk0, ↓Keeps.mkp, ↓Keeps.mkl, ↓Keeps.mkb]
    | with_reducible apply Keeps.ite
    | with_reducible apply Keeps.iteSnd
    | with_reducible apply Keeps.trans ?_ (logErr_kept ..)

theorem execSuspend_kept (s : State) : OutKeeps s (execSuspend s) := by
  unfold execSuspend
  try dsimp only
  repeat' first
    | with_reducible apply Keeps.refl
    | with_reducible apply OutKeeps.next
    | with_reducible apply OutKeeps.refused
    | with_reducible apply OutKeeps.ite
    | simp only [↓Keeps.mk0]
    | with_reducible apply Keeps.ite
    | with_reducible apply Keeps.iteSnd
    | with_reducible apply Keeps.trans ?_ (suspendRefused_kept ..)

theorem execSuspendSnapshot_kept (s : State) : OutKeeps s (execSuspendSnapshot s) := by
  have put : ∀ (e : Tbl ErrPat) (p : Power) (n : Nat) (q : Sequencer),
      (p.debugFuse, p.debugEnable, p.fuses) = (s.pwr.debugFuse, s.pwr.debugEnable, s.pwr.fuses) →
      Keeps s { s with dram := mzero s.dram s.pwr.suspBase suspendBytes, errs := e, pwr := p, freeCount := n, seq := q } := by
    intro e p n q h
    simp only [Prod.mk.injEq] at h
    exact ⟨by simp only [keep, h], mzero_wf _ _ _⟩
  unfold execSuspendSnapshot
  refine OutKeeps.next (Keeps.ite ?_ (Keeps.refl s))
  dsimp only
  have k := (put (s.errs.filter fun e => decide (64 * e.1 < s.pwr.suspBase ∨ s.pwr.suspBase + suspendBytes ≤ 64 * e.1))
    { s.pwr with snapshot := some (s.pwr.suspBase, s.freeCount), saved := true, phase := .suspended } (s.freeCount + suspendBytes)
    { s.seq with suspended := true } rfl).trans (setEvent_kept evSuspended _)
  exact Keeps.ite (k.trans (enterSelfRefresh_kept _)) k

theorem resumeSuspended_kept (t : U64) (s : State) : Keeps s (resumeSuspended t s) := by
  unfold resumeSuspended
  try dsimp only
  repeat' first
    | with_reducible apply Keeps.refl
    | simp only [↓Keeps.mkp]

theorem endTier3_kept (s : State) : Keeps s (endTier3 s) := by
  unfold endTier3
  try dsimp only
  repeat' first
    | with_reducible apply Keeps.refl
    | simp only [↓Keeps.mk0, ↓Keeps.mkp, ↓Keeps.mkl, ↓Keeps.mkb]
    | with_reducible apply Keeps.ite
    | with_reducible apply Keeps.iteSnd
    | with_reducible apply Keeps.trans ?_ (leaveSelfRefresh_kept ..)
    | with_reducible apply Keeps.trans ?_ (leaveTier_kept ..)

theorem unpark_kept (s : State) : Keeps s (unpark s) := by
  unfold unpark
  try dsimp only
  repeat' first
    | with_reducible apply Keeps.refl
    | simp only [↓Keeps.mkp]
    | with_reducible apply Keeps.ite
    | with_reducible apply Keeps.iteSnd
    | with_reducible apply Keeps.trans ?_ (startLeg_kept ..)

theorem execResume_kept (s : State) : OutKeeps s (execResume s) := by
  unfold execResume
  try dsimp only
  repeat' first
    | with_reducible apply Keeps.refl
    | with_reducible apply OutKeeps.next
    | with_reducible apply OutKeeps.refused
    | with_reducible apply OutKeeps.ite
    | simp only [↓Keeps.mk0, ↓Keeps.mkp, ↓Keeps.mkl, ↓Keeps.mkb]
    | with_reducible apply Keeps.ite
    | with_reducible apply Keeps.iteSnd
    | with_reducible apply Keeps.trans ?_ (logErr_kept ..)
    | with_reducible apply Keeps.trans ?_ (leaveSelfRefresh_kept ..)
    | with_reducible apply Keeps.trans ?_ (resumeSuspended_kept ..)
    | with_reducible apply Keeps.trans ?_ (endTier3_kept ..)
    | with_reducible apply Keeps.trans ?_ (unpark_kept ..)

theorem execServiceClear_kept (s : State) : OutKeeps s (execServiceClear s) := by
  unfold execServiceClear
  try dsimp only
  repeat' first
    | with_reducible apply Keeps.refl
    | with_reducible apply OutKeeps.next
    | with_reducible apply OutKeeps.refused
    | with_reducible apply OutKeeps.ite
    | simp only [↓Keeps.mkp]
    | with_reducible apply Keeps.ite





end Sys2Proof.Machine
end

