-- ==== Sys2Proof/Laws/KeepsC.lean ====
section
/-! SUPPORT. What every operation of the model keeps: the fuses, the key slots and the canonical form of memory (arrays, the vector unit, command issue and fabric items). -/

namespace Sys2Proof.Machine

theorem effStatLoad_kept (c : Fin 32) (j : Fin 2) (e : LookEntry) (s : State) : Keeps s (effStatLoad c j e s) := by
  unfold effStatLoad
  try dsimp only
  repeat' first
    | with_reducible apply Keeps.refl
    | simp only [↓Keeps.mk0, ↓Keeps.mkp, ↓Keeps.mkl, ↓Keeps.mkb]
    | with_reducible apply Keeps.ite
    | with_reducible apply Keeps.iteSnd
    | with_reducible apply Keeps.trans ?_ (updArr_kept ..)

theorem effStatSwap_kept (c : Fin 32) (j : Fin 2) (e : LookEntry) (s : State) : Keeps s (effStatSwap c j e s) := by
  unfold effStatSwap
  try dsimp only
  repeat' first
    | with_reducible apply Keeps.refl
    | simp only [↓Keeps.mk0, ↓Keeps.mkp, ↓Keeps.mkl, ↓Keeps.mkb]
    | with_reducible apply Keeps.ite
    | with_reducible apply Keeps.iteSnd
    | with_reducible apply Keeps.trans ?_ (updArr_kept ..)
    | with_reducible apply Keeps.trans ?_ (fireSignals_kept ..)

theorem effPass_kept (tOrient direct : Bool) (c : Fin 32) (j : Fin 2) (e : LookEntry) (s : State) : Keeps s (effPass tOrient direct c j e s) := by
  unfold effPass
  try dsimp only
  repeat' first
    | with_reducible apply Keeps.refl
    | simp only []
    | with_reducible apply Keeps.ite
    | with_reducible apply Keeps.iteSnd
    | with_reducible apply Keeps.trans ?_ (updCore_kept ..)
    | with_reducible apply Keeps.trans ?_ (updArr_kept ..)
    | with_reducible apply mwrite_wf
    | with_reducible apply mwrites_wf
    | with_reducible apply mzero_wf
    | assumption
    | split

theorem effAcbFill_kept (c : Fin 32) (j : Fin 2) (e : LookEntry) (s : State) : Keeps s (effAcbFill c j e s) := by
  unfold effAcbFill
  try dsimp only
  repeat' first
    | with_reducible apply Keeps.refl
    | simp only [↓Keeps.mk0, ↓Keeps.mkp, ↓Keeps.mkl, ↓Keeps.mkb]
    | with_reducible apply Keeps.ite
    | with_reducible apply Keeps.iteSnd
    | with_reducible apply Keeps.trans ?_ (updArr_kept ..)

theorem execStatLoadComplete_kept (core : Fin 32) (array : Fin 2) (s : State) : OutKeeps s (execStatLoadComplete core array s) := by
  unfold execStatLoadComplete
  try dsimp only
  repeat' first
    | with_reducible apply Keeps.refl
    | with_reducible apply OutKeeps.next
    | with_reducible apply OutKeeps.refused
    | with_reducible apply OutKeeps.ite
    | simp only [↓Keeps.mk0, ↓Keeps.mkp, ↓Keeps.mkl, ↓Keeps.mkb]
    | with_reducible apply Keeps.ite
    | with_reducible apply Keeps.iteSnd
    | with_reducible apply Keeps.trans ?_ (updArr_kept ..)
    | with_reducible apply Keeps.trans ?_ (fireSignals_kept ..)
    | with_reducible apply mwrite_wf
    | with_reducible apply mwrites_wf
    | with_reducible apply mzero_wf
    | assumption
    | split

theorem execPassDone_kept (core : Fin 32) (array : Fin 2) (s : State) : OutKeeps s (execPassDone core array s) := by
  unfold execPassDone
  try dsimp only
  repeat' first
    | with_reducible apply Keeps.refl
    | with_reducible apply OutKeeps.next
    | with_reducible apply OutKeeps.refused
    | with_reducible apply OutKeeps.ite
    | simp only [↓Keeps.mk0, ↓Keeps.mkp, ↓Keeps.mkl, ↓Keeps.mkb]
    | with_reducible apply Keeps.ite
    | with_reducible apply Keeps.iteSnd
    | with_reducible apply Keeps.trans ?_ (updArr_kept ..)
    | with_reducible apply Keeps.trans ?_ (fireSignals_kept ..)
    | with_reducible apply mwrite_wf
    | with_reducible apply mwrites_wf
    | with_reducible apply mzero_wf
    | assumption
    | split

theorem execAcbFillComplete_kept (core : Fin 32) (array : Fin 2) (s : State) : OutKeeps s (execAcbFillComplete core array s) := by
  unfold execAcbFillComplete
  try dsimp only
  repeat' first
    | with_reducible apply Keeps.refl
    | with_reducible apply OutKeeps.next
    | with_reducible apply OutKeeps.refused
    | with_reducible apply OutKeeps.ite
    | simp only [↓Keeps.mk0, ↓Keeps.mkp, ↓Keeps.mkl, ↓Keeps.mkb]
    | with_reducible apply Keeps.ite
    | with_reducible apply Keeps.iteSnd
    | with_reducible apply Keeps.trans ?_ (updArr_kept ..)
    | with_reducible apply Keeps.trans ?_ (fireSignals_kept ..)
    | with_reducible apply mwrite_wf
    | with_reducible apply mwrites_wf
    | with_reducible apply mzero_wf
    | assumption
    | split

theorem escalationHalt_kept (c : Fin 32) (j : Fin 2) (g : Fin 8) (m : Nat) (s : State) : Keeps s (escalationHalt c j g m s) := by
  unfold escalationHalt
  try dsimp only
  repeat' first
    | with_reducible apply Keeps.refl
    | simp only [↓Keeps.mk0, ↓Keeps.mkp, ↓Keeps.mkl, ↓Keeps.mkb]
    | with_reducible apply Keeps.ite
    | with_reducible apply Keeps.iteSnd
    | with_reducible apply Keeps.trans ?_ (raiseHalt_kept ..)

theorem countEngHold_kept (c : Fin 32) (w : WaitFor) (s : State) : Keeps s (countEngHold c w s) := by
  unfold countEngHold
  try dsimp only
  repeat' first
    | with_reducible apply Keeps.refl
    | simp only [↓Keeps.mk0, ↓Keeps.mkp, ↓Keeps.mkl, ↓Keeps.mkb]
    | with_reducible apply Keeps.ite
    | with_reducible apply Keeps.iteSnd
    | with_reducible apply Keeps.trans ?_ (updCore_kept ..)
    | with_reducible apply mwrite_wf
    | with_reducible apply mwrites_wf
    | with_reducible apply mzero_wf
    | assumption
    | split

theorem holdCause_kept (c : Fin 32) (w : WaitFor) (s : State) : Keeps s (holdCause c w s) := by
  unfold holdCause
  try dsimp only
  repeat' first
    | with_reducible apply Keeps.refl
    | simp only [↓Keeps.mk0]
    | with_reducible apply Keeps.ite
    | with_reducible apply Keeps.iteSnd
    | with_reducible apply Keeps.trans ?_ (countEngHold_kept ..)
    | with_reducible apply mwrite_wf
    | with_reducible apply mwrites_wf
    | with_reducible apply mzero_wf
    | assumption
    | split

theorem escalate_kept (c : Fin 32) (j : Fin 2) (g : Fin 8) (m : Nat) (s : State) : Keeps s (escalate c j g m s) := by
  unfold escalate
  try dsimp only
  repeat' first
    | with_reducible apply Keeps.refl
    | simp only [↓Keeps.mk0]
    | with_reducible apply Keeps.ite
    | with_reducible apply Keeps.iteSnd
    | with_reducible apply Keeps.trans ?_ (updArr_kept ..)
    | with_reducible apply Keeps.trans ?_ (escalationHalt_kept ..)
    | with_reducible apply Keeps.trans ?_ (holdCause_kept ..)

theorem freeRow_kept (c : Fin 32) (p : PassRec) (m : Nat) (s : State) : Keeps s (freeRow c p m s) := by
  unfold freeRow
  try dsimp only
  repeat' first
    | with_reducible apply Keeps.refl
    | simp only [↓Keeps.mk0, ↓Keeps.mkp, ↓Keeps.mkl, ↓Keeps.mkb]
    | with_reducible apply Keeps.ite
    | with_reducible apply Keeps.iteSnd
    | with_reducible apply Keeps.trans ?_ (updCore_kept ..)
    | with_reducible apply Keeps.trans ?_ (ackAdd_kept ..)
    | with_reducible apply mwrite_wf
    | with_reducible apply mwrites_wf
    | with_reducible apply mzero_wf
    | assumption
    | split

theorem groupStep_kept (c : Fin 32) (j : Fin 2) (g : Fin 8) (s : State) : Keeps s (groupStep c j g s) := by
  unfold groupStep
  try dsimp only
  repeat' first
    | with_reducible apply Keeps.refl
    | simp only [↓Keeps.mk0, ↓Keeps.mkp, ↓Keeps.mkl, ↓Keeps.mkb]
    | with_reducible apply Keeps.ite
    | with_reducible apply Keeps.iteSnd
    | with_reducible apply Keeps.trans ?_ (updArr_kept ..)
    | with_reducible apply Keeps.trans ?_ (escalate_kept ..)
    | with_reducible apply Keeps.trans ?_ (freeRow_kept ..)
    | with_reducible apply mwrite_wf
    | with_reducible apply mwrites_wf
    | with_reducible apply mzero_wf
    | assumption
    | split

theorem execElasticSliceDue_kept (core : Fin 32) (array : Fin 2) (group : Fin 8) (s : State) : OutKeeps s (execElasticSliceDue core array group s) := by
  unfold execElasticSliceDue
  try dsimp only
  repeat' first
    | with_reducible apply Keeps.refl
    | with_reducible apply OutKeeps.next
    | with_reducible apply OutKeeps.refused
    | with_reducible apply OutKeeps.ite
    | simp only [↓Keeps.mk0, ↓Keeps.mkp, ↓Keeps.mkl, ↓Keeps.mkb]
    | with_reducible apply Keeps.ite
    | with_reducible apply Keeps.iteSnd
    | with_reducible apply Keeps.trans ?_ (onlyCauses_kept ..)
    | with_reducible apply Keeps.trans ?_ (groupStep_kept ..)

theorem execDirectRowPresent_kept (core : Fin 32) (array : Fin 2) (s : State) : OutKeeps s (execDirectRowPresent core array s) := by
  unfold execDirectRowPresent
  try dsimp only
  repeat' first
    | with_reducible apply Keeps.refl
    | with_reducible apply OutKeeps.next
    | with_reducible apply OutKeeps.refused
    | with_reducible apply OutKeeps.ite
    | simp only [↓Keeps.mk0, ↓Keeps.mkp, ↓Keeps.mkl, ↓Keeps.mkb]
    | with_reducible apply Keeps.ite
    | with_reducible apply Keeps.iteSnd
    | with_reducible apply Keeps.trans ?_ (updCore_kept ..)
    | with_reducible apply Keeps.trans ?_ (updArr_kept ..)
    | with_reducible apply mwrite_wf
    | with_reducible apply mwrites_wf
    | with_reducible apply mzero_wf
    | assumption
    | split

theorem trapHalt_kept (c : Fin 32) (r : VecRec) (q lane : Nat) (x : U32) (s : State) : Keeps s (trapHalt c r q lane x s) := by
  unfold trapHalt
  try dsimp only
  repeat' first
    | with_reducible apply Keeps.refl
    | simp only [↓Keeps.mk0, ↓Keeps.mkp, ↓Keeps.mkl, ↓Keeps.mkb]
    | with_reducible apply Keeps.ite
    | with_reducible apply Keeps.iteSnd
    | with_reducible apply Keeps.trans ?_ (updCore_kept ..)
    | with_reducible apply Keeps.trans ?_ (raiseHalt_kept ..)

theorem updVec_kept (c : Fin 32) (r : VecRec) (f : VecRec → VecRec) (s : State) : Keeps s (updVec c r f s) := by
  unfold updVec
  try dsimp only
  repeat' first
    | with_reducible apply Keeps.refl
    | simp only [↓Keeps.mk0, ↓Keeps.mkp, ↓Keeps.mkl, ↓Keeps.mkb]
    | with_reducible apply Keeps.ite
    | with_reducible apply Keeps.iteSnd
    | with_reducible apply Keeps.trans ?_ (updCore_kept ..)

theorem countNf_kept (c : Fin 32) (b : Bool) (s : State) : Keeps s (countNf c b s) := by
  unfold countNf
  try dsimp only
  repeat' first
    | with_reducible apply Keeps.refl
    | simp only [↓Keeps.mk0, ↓Keeps.mkp, ↓Keeps.mkl, ↓Keeps.mkb]
    | with_reducible apply Keeps.ite
    | with_reducible apply Keeps.iteSnd
    | with_reducible apply Keeps.trans ?_ (updCore_kept ..)

theorem writeChain_kept (c : Fin 32) (r : VecRec) (q : Nat) (refused : List Nat) (s : State) : Keeps s (writeChain c r q refused s) := by
  unfold writeChain
  try dsimp only
  repeat' first
    | with_reducible apply Keeps.refl
    | simp only [↓Keeps.mk0, ↓Keeps.mkp, ↓Keeps.mkl, ↓Keeps.mkb]
    | with_reducible apply Keeps.ite
    | with_reducible apply Keeps.iteSnd
    | with_reducible apply Keeps.trans ?_ (updCore_kept ..)
    | with_reducible apply Keeps.trans ?_ (trapHalt_kept ..)
    | with_reducible apply Keeps.trans ?_ (updVec_kept ..)
    | with_reducible apply Keeps.trans ?_ (countNf_kept ..)
    | with_reducible apply mwrite_wf
    | with_reducible apply mwrites_wf
    | with_reducible apply mzero_wf
    | assumption
    | split

theorem writeReduce_kept (c : Fin 32) (r : VecRec) (q : Nat) (s : State) : Keeps s (writeReduce c r q s) := by
  unfold writeReduce
  try dsimp only
  repeat' first
    | with_reducible apply Keeps.refl
    | simp only [↓Keeps.mk0, ↓Keeps.mkp, ↓Keeps.mkl, ↓Keeps.mkb]
    | with_reducible apply Keeps.ite
    | with_reducible apply Keeps.iteSnd
    | with_reducible apply Keeps.trans ?_ (updCore_kept ..)
    | with_reducible apply Keeps.trans ?_ (countNf_kept ..)

theorem vecWrite_kept (c : Fin 32) (refused : List Nat) (r : VecRec) (s : State) : Keeps s (vecWrite c refused r s) := by
  unfold vecWrite
  try dsimp only
  repeat' first
    | with_reducible apply Keeps.refl
    | simp only [↓Keeps.mk0, ↓Keeps.mkp, ↓Keeps.mkl, ↓Keeps.mkb]
    | with_reducible apply Keeps.ite
    | with_reducible apply Keeps.iteSnd
    | with_reducible apply Keeps.trans ?_ (writeChain_kept ..)
    | with_reducible apply Keeps.trans ?_ (writeReduce_kept ..)
    | with_reducible apply mwrite_wf
    | with_reducible apply mwrites_wf
    | with_reducible apply mzero_wf
    | assumption
    | split

theorem takeMask_kept (c : Fin 32) (r : VecRec) (s : State) : Keeps s (takeMask c r s) := by
  unfold takeMask
  try dsimp only
  repeat' first
    | with_reducible apply Keeps.refl
    | simp only [↓Keeps.mk0, ↓Keeps.mkp, ↓Keeps.mkl, ↓Keeps.mkb]
    | with_reducible apply Keeps.ite
    | with_reducible apply Keeps.iteSnd
    | with_reducible apply Keeps.trans ?_ (updCore_kept ..)
    | with_reducible apply Keeps.trans ?_ (updVec_kept ..)
    | with_reducible apply mwrite_wf
    | with_reducible apply mwrites_wf
    | with_reducible apply mzero_wf
    | assumption
    | split

theorem giveMask_kept (c : Fin 32) (r : VecRec) (s : State) : Keeps s (giveMask c r s) := by
  unfold giveMask
  try dsimp only
  repeat' first
    | with_reducible apply Keeps.refl
    | simp only [↓Keeps.mk0, ↓Keeps.mkp, ↓Keeps.mkl, ↓Keeps.mkb]
    | with_reducible apply Keeps.ite
    | with_reducible apply Keeps.iteSnd
    | with_reducible apply Keeps.trans ?_ (updCore_kept ..)
    | with_reducible apply mwrite_wf
    | with_reducible apply mwrites_wf
    | with_reducible apply mzero_wf
    | assumption
    | split

theorem effVec_kept (c : Fin 32) (e : LookEntry) (s : State) : Keeps s (effVec c e s) := by
  unfold effVec
  try dsimp only
  repeat' first
    | with_reducible apply Keeps.refl
    | simp only [↓Keeps.mk0, ↓Keeps.mkp, ↓Keeps.mkl, ↓Keeps.mkb]
    | with_reducible apply Keeps.ite
    | with_reducible apply Keeps.iteSnd
    | with_reducible apply Keeps.trans ?_ (updCore_kept ..)

theorem vecPreds_kept (c : Fin 32) (r : VecRec) (s : State) : Keeps s (vecPreds c r s) := by
  unfold vecPreds
  split
  · refine Keeps.foldS (f := fun p s => _) (Keeps.refl s) fun p s => ?_
    split
    · exact writePred_kept ..
    · exact writePred_kept ..
    · exact Keeps.refl _
  · split
    · exact writePred_kept ..
    · exact Keeps.refl _

theorem execVectorComplete_kept (core : Fin 32) (s : State) : OutKeeps s (execVectorComplete core s) := by
  unfold execVectorComplete
  try dsimp only
  repeat' first
    | with_reducible apply Keeps.refl
    | with_reducible apply OutKeeps.next
    | with_reducible apply OutKeeps.refused
    | with_reducible apply OutKeeps.ite
    | simp only [↓Keeps.mk0, ↓Keeps.mkp, ↓Keeps.mkl, ↓Keeps.mkb]
    | with_reducible apply Keeps.ite
    | with_reducible apply Keeps.iteSnd
    | with_reducible apply Keeps.trans ?_ (updCore_kept ..)
    | with_reducible apply Keeps.trans ?_ (fireSignals_kept ..)
    | with_reducible apply Keeps.trans ?_ (giveMask_kept ..)
    | with_reducible apply Keeps.trans ?_ (vecPreds_kept ..)
    | with_reducible apply mwrite_wf
    | with_reducible apply mwrites_wf
    | with_reducible apply mzero_wf
    | assumption
    | split

theorem lookout_kept (c : Fin 32) (w : CmdWords) (issue : Nat) (s : State) : Keeps s (lookout c w issue s) := by
  unfold lookout
  try dsimp only
  repeat' first
    | with_reducible apply Keeps.refl
    | simp only [↓Keeps.mk0, ↓Keeps.mkp, ↓Keeps.mkl, ↓Keeps.mkb]
    | with_reducible apply Keeps.ite
    | with_reducible apply Keeps.iteSnd
    | with_reducible apply Keeps.trans ?_ (updCore_kept ..)
    | with_reducible apply Keeps.trans ?_ (checkProgress_kept ..)
    | with_reducible apply Keeps.trans ?_ (holdCause_kept ..)
    | (with_reducible apply Keeps.foldS; rotate_left; intro _ _)

theorem execLookout_kept (core : Fin 32) (w : CmdWords) (issue : U32) (s : State) : OutKeeps s (execLookout core w issue s) := by
  unfold execLookout
  try dsimp only
  repeat' first
    | with_reducible apply Keeps.refl
    | with_reducible apply OutKeeps.next
    | with_reducible apply OutKeeps.refused
    | with_reducible apply OutKeeps.ite
    | simp only [↓Keeps.mk0, ↓Keeps.mkp, ↓Keeps.mkl, ↓Keeps.mkb]
    | with_reducible apply Keeps.ite
    | with_reducible apply Keeps.iteSnd
    | with_reducible apply Keeps.trans ?_ (lookout_kept ..)

theorem skipCmd_kept (c : Fin 32) (e : LookEntry) (s : State) : Keeps s (skipCmd c e s) := by
  unfold skipCmd
  try dsimp only
  repeat' first
    | with_reducible apply Keeps.refl
    | simp only [↓Keeps.mk0, ↓Keeps.mkp, ↓Keeps.mkl, ↓Keeps.mkb]
    | with_reducible apply Keeps.ite
    | with_reducible apply Keeps.iteSnd
    | with_reducible apply Keeps.trans ?_ (updCore_kept ..)
    | with_reducible apply Keeps.trans ?_ (fireSignals_kept ..)

theorem lastCommand_kept (c : Fin 32) (e : LookEntry) (s : State) : Keeps s (lastCommand c e s) := by
  unfold lastCommand
  try dsimp only
  repeat' first
    | with_reducible apply Keeps.refl
    | simp only [↓Keeps.mk0, ↓Keeps.mkp, ↓Keeps.mkl, ↓Keeps.mkb]
    | with_reducible apply Keeps.ite
    | with_reducible apply Keeps.iteSnd
    | with_reducible apply Keeps.trans ?_ (raiseHalt_kept ..)

theorem readEntry_kept (c : Fin 32) (desc : BitVec 11) (p : Nat) (s : State) : Keeps s (readEntry c desc p s) := by
  unfold readEntry
  try dsimp only
  repeat' first
    | with_reducible apply Keeps.refl
    | simp only [↓Keeps.mk0, ↓Keeps.mkp, ↓Keeps.mkl, ↓Keeps.mkb]
    | with_reducible apply Keeps.ite
    | with_reducible apply Keeps.iteSnd
    | with_reducible apply Keeps.trans ?_ (updCore_kept ..)
    | with_reducible apply Keeps.trans ?_ (dramRead_kept ..)
    | with_reducible apply mwrite_wf
    | with_reducible apply mwrites_wf
    | with_reducible apply mzero_wf
    | assumption
    | split
    | (apply Keeps.snd; with_reducible assumption)

theorem takeCmd_kept {eff : Fin 32 → LookEntry → State → State} (he : ∀ c e s, Keeps s (eff c e s)) (c : Fin 32) (e : LookEntry)
    (s : State) : Keeps s (takeCmd eff c e s) := by
  have hn : ∀ (h : Nat) (u : State), Keeps s u → Keeps s (lastCommand c e (u.updCore c (slotTaken h e))) := fun h u hu =>
    (hu.trans (updCore_kept ..)).trans (lastCommand_kept ..)
  unfold takeCmd
  exact hn _ _ (Keeps.ite (skipCmd_kept ..) ((he c e s).trans (updCore_kept ..)))

theorem judgeCmd_kept {eff : Fin 32 → LookEntry → State → State} (he : ∀ c e s, Keeps s (eff c e s)) (c : Fin 32) (e : LookEntry)
    (s : State) : Keeps s (judgeCmd eff c e s) := by
  unfold judgeCmd
  split
  · exact (Keeps.foldS (Keeps.refl s) fun h s => raiseHalt_kept h s).trans (updCore_kept ..)
  · exact Keeps.ite ((onlyCauses_kept _ s).trans (updCore_kept ..)) (takeCmd_kept he ..)

theorem issueCmd_kept {eff : Fin 32 → LookEntry → State → State} (he : ∀ c e s, Keeps s (eff c e s)) (c : Fin 32) (e : LookEntry)
    (s : State) : Keeps s (issueCmd eff c e s) := by
  have h : Keeps s (foldS (readEntry c (cmdDesc e.words)) (missingEntries (s.core c) e.words) s) :=
    Keeps.foldS (Keeps.refl s) fun p s => readEntry_kept ..
  exact Keeps.ite (h.trans (judgeCmd_kept he ..)) (h.trans (updCore_kept ..))

theorem issueRow_kept {mn : String} {op : Nat} {eff : Fin 32 → LookEntry → State → State} (c : Fin 32) (w : CmdWords) (s : State)
    (he : ∀ c e s, Keeps s (eff c e s)) : OutKeeps s (issueRow mn op eff c w s) := by
  unfold issueRow
  repeat' split
  all_goals first
    | exact OutKeeps.refused
    | exact OutKeeps.next (issueCmd_kept he ..)
    | exact OutKeeps.next (Keeps.refl s)

theorem andSignals_kept {eff : Fin 32 → LookEntry → State → State} (he : ∀ c e s, Keeps s (eff c e s)) (c : Fin 32) (e : LookEntry)
    (s : State) : Keeps s (andSignals eff c e s) := (he c e s).trans (fireSignals_kept ..)

theorem effPredSet_kept (c : Fin 32) (e : LookEntry) (s : State) : Keeps s (effPredSet c e s) := by
  unfold effPredSet
  try dsimp only
  repeat' first
    | with_reducible apply Keeps.refl
    | simp only [↓Keeps.mk0, ↓Keeps.mkp, ↓Keeps.mkl, ↓Keeps.mkb]
    | with_reducible apply Keeps.ite
    | with_reducible apply Keeps.iteSnd
    | with_reducible apply Keeps.trans ?_ (issuePreds_kept ..)

theorem issuePred_kept (c : Fin 32) (i : Nat) (v : Bool) (s : State) : Keeps s (issuePred c i v s) := by
  unfold issuePred
  try dsimp only
  repeat' first
    | with_reducible apply Keeps.refl
    | simp only [↓Keeps.mk0, ↓Keeps.mkp, ↓Keeps.mkl, ↓Keeps.mkb]
    | with_reducible apply Keeps.ite
    | with_reducible apply Keeps.iteSnd
    | with_reducible apply Keeps.trans ?_ (issuePreds_kept ..)

theorem effPredLogic_kept (c : Fin 32) (e : LookEntry) (s : State) : Keeps s (effPredLogic c e s) := by
  unfold effPredLogic
  try dsimp only
  repeat' first
    | with_reducible apply Keeps.refl
    | simp only [↓Keeps.mk0, ↓Keeps.mkp, ↓Keeps.mkl, ↓Keeps.mkb]
    | with_reducible apply Keeps.ite
    | with_reducible apply Keeps.iteSnd
    | with_reducible apply Keeps.trans ?_ (issuePred_kept ..)

theorem effTestSync_kept (c : Fin 32) (e : LookEntry) (s : State) : Keeps s (effTestSync c e s) := by
  unfold effTestSync
  try dsimp only
  repeat' first
    | with_reducible apply Keeps.refl
    | simp only [↓Keeps.mk0, ↓Keeps.mkp, ↓Keeps.mkl, ↓Keeps.mkb]
    | with_reducible apply Keeps.ite
    | with_reducible apply Keeps.iteSnd
    | with_reducible apply Keeps.trans ?_ (issuePred_kept ..)

theorem execNop_kept (core : Fin 32) (w : CmdWords) (s : State) : OutKeeps s (execNop core w s) := by
  unfold execNop
  try dsimp only
  repeat' first
    | with_reducible apply Keeps.refl
    | with_reducible apply OutKeeps.next
    | with_reducible apply OutKeeps.refused
    | with_reducible apply OutKeeps.ite
    | simp only [↓Keeps.mk0, ↓Keeps.mkp, ↓Keeps.mkl, ↓Keeps.mkb]
    | with_reducible apply Keeps.ite
    | with_reducible apply Keeps.iteSnd
    | (with_reducible apply issueRow_kept; intro _ _ _)
    | (with_reducible apply andSignals_kept; intro _ _ _)

theorem execPredSet_kept (core : Fin 32) (w : CmdWords) (s : State) : OutKeeps s (execPredSet core w s) := by
  unfold execPredSet
  try dsimp only
  repeat' first
    | with_reducible apply Keeps.refl
    | with_reducible apply OutKeeps.next
    | with_reducible apply OutKeeps.refused
    | with_reducible apply OutKeeps.ite
    | simp only [↓Keeps.mk0, ↓Keeps.mkp, ↓Keeps.mkl, ↓Keeps.mkb]
    | with_reducible apply Keeps.ite
    | with_reducible apply Keeps.iteSnd
    | (with_reducible apply issueRow_kept; intro _ _ _)
    | (with_reducible apply andSignals_kept; intro _ _ _)
    | with_reducible apply Keeps.trans ?_ (effPredSet_kept ..)

theorem execPredLogic_kept (core : Fin 32) (w : CmdWords) (s : State) : OutKeeps s (execPredLogic core w s) := by
  unfold execPredLogic
  try dsimp only
  repeat' first
    | with_reducible apply Keeps.refl
    | with_reducible apply OutKeeps.next
    | with_reducible apply OutKeeps.refused
    | with_reducible apply OutKeeps.ite
    | simp only [↓Keeps.mk0, ↓Keeps.mkp, ↓Keeps.mkl, ↓Keeps.mkb]
    | with_reducible apply Keeps.ite
    | with_reducible apply Keeps.iteSnd
    | (with_reducible apply issueRow_kept; intro _ _ _)
    | (with_reducible apply andSignals_kept; intro _ _ _)
    | with_reducible apply Keeps.trans ?_ (effPredLogic_kept ..)

theorem execTestSync_kept (core : Fin 32) (w : CmdWords) (s : State) : OutKeeps s (execTestSync core w s) := by
  unfold execTestSync
  try dsimp only
  repeat' first
    | with_reducible apply Keeps.refl
    | with_reducible apply OutKeeps.next
    | with_reducible apply OutKeeps.refused
    | with_reducible apply OutKeeps.ite
    | simp only [↓Keeps.mk0, ↓Keeps.mkp, ↓Keeps.mkl, ↓Keeps.mkb]
    | with_reducible apply Keeps.ite
    | with_reducible apply Keeps.iteSnd
    | (with_reducible apply issueRow_kept; intro _ _ _)
    | (with_reducible apply andSignals_kept; intro _ _ _)
    | with_reducible apply Keeps.trans ?_ (effTestSync_kept ..)

theorem onArray_kept {eff : Fin 32 → Fin 2 → LookEntry → State → State} (he : ∀ c j e s, Keeps s (eff c j e s)) (c : Fin 32)
    (e : LookEntry) (s : State) : Keeps s (onArray eff c e s) := he ..

theorem execStatLoad_kept (core : Fin 32) (w : CmdWords) (s : State) : OutKeeps s (execStatLoad core w s) := by
  unfold execStatLoad
  try dsimp only
  repeat' first
    | with_reducible apply Keeps.refl
    | with_reducible apply OutKeeps.next
    | with_reducible apply OutKeeps.refused
    | with_reducible apply OutKeeps.ite
    | simp only [↓Keeps.mk0, ↓Keeps.mkp, ↓Keeps.mkl, ↓Keeps.mkb]
    | with_reducible apply Keeps.ite
    | with_reducible apply Keeps.iteSnd
    | (with_reducible apply issueRow_kept; intro _ _ _)
    | (with_reducible apply onArray_kept; intro _ _ _ _)
    | with_reducible apply Keeps.trans ?_ (effStatLoad_kept ..)

theorem execStatSwap_kept (core : Fin 32) (w : CmdWords) (s : State) : OutKeeps s (execStatSwap core w s) := by
  unfold execStatSwap
  try dsimp only
  repeat' first
    | with_reducible apply Keeps.refl
    | with_reducible apply OutKeeps.next
    | with_reducible apply OutKeeps.refused
    | with_reducible apply OutKeeps.ite
    | simp only [↓Keeps.mk0, ↓Keeps.mkp, ↓Keeps.mkl, ↓Keeps.mkb]
    | with_reducible apply Keeps.ite
    | with_reducible apply Keeps.iteSnd
    | (with_reducible apply issueRow_kept; intro _ _ _)
    | (with_reducible apply onArray_kept; intro _ _ _ _)
    | with_reducible apply Keeps.trans ?_ (effStatSwap_kept ..)

theorem execPassN_kept (core : Fin 32) (w : CmdWords) (s : State) : OutKeeps s (execPassN core w s) := by
  unfold execPassN
  try dsimp only
  repeat' first
    | with_reducible apply Keeps.refl
    | with_reducible apply OutKeeps.next
    | with_reducible apply OutKeeps.refused
    | with_reducible apply OutKeeps.ite
    | simp only [↓Keeps.mk0, ↓Keeps.mkp, ↓Keeps.mkl, ↓Keeps.mkb]
    | with_reducible apply Keeps.ite
    | with_reducible apply Keeps.iteSnd
    | (with_reducible apply issueRow_kept; intro _ _ _)
    | (with_reducible apply onArray_kept; intro _ _ _ _)
    | with_reducible apply Keeps.trans ?_ (effPass_kept ..)

theorem execPassT_kept (core : Fin 32) (w : CmdWords) (s : State) : OutKeeps s (execPassT core w s) := by
  unfold execPassT
  try dsimp only
  repeat' first
    | with_reducible apply Keeps.refl
    | with_reducible apply OutKeeps.next
    | with_reducible apply OutKeeps.refused
    | with_reducible apply OutKeeps.ite
    | simp only [↓Keeps.mk0, ↓Keeps.mkp, ↓Keeps.mkl, ↓Keeps.mkb]
    | with_reducible apply Keeps.ite
    | with_reducible apply Keeps.iteSnd
    | (with_reducible apply issueRow_kept; intro _ _ _)
    | (with_reducible apply onArray_kept; intro _ _ _ _)
    | with_reducible apply Keeps.trans ?_ (effPass_kept ..)

theorem execPassNDirect_kept (core : Fin 32) (w : CmdWords) (s : State) : OutKeeps s (execPassNDirect core w s) := by
  unfold execPassNDirect
  try dsimp only
  repeat' first
    | with_reducible apply Keeps.refl
    | with_reducible apply OutKeeps.next
    | with_reducible apply OutKeeps.refused
    | with_reducible apply OutKeeps.ite
    | simp only [↓Keeps.mk0, ↓Keeps.mkp, ↓Keeps.mkl, ↓Keeps.mkb]
    | with_reducible apply Keeps.ite
    | with_reducible apply Keeps.iteSnd
    | (with_reducible apply issueRow_kept; intro _ _ _)
    | (with_reducible apply onArray_kept; intro _ _ _ _)
    | with_reducible apply Keeps.trans ?_ (effPass_kept ..)

theorem execAcbFill_kept (core : Fin 32) (w : CmdWords) (s : State) : OutKeeps s (execAcbFill core w s) := by
  unfold execAcbFill
  try dsimp only
  repeat' first
    | with_reducible apply Keeps.refl
    | with_reducible apply OutKeeps.next
    | with_reducible apply OutKeeps.refused
    | with_reducible apply OutKeeps.ite
    | simp only [↓Keeps.mk0, ↓Keeps.mkp, ↓Keeps.mkl, ↓Keeps.mkb]
    | with_reducible apply Keeps.ite
    | with_reducible apply Keeps.iteSnd
    | (with_reducible apply issueRow_kept; intro _ _ _)
    | (with_reducible apply onArray_kept; intro _ _ _ _)
    | with_reducible apply Keeps.trans ?_ (effAcbFill_kept ..)

theorem execChain_kept (core : Fin 32) (w : CmdWords) (s : State) : OutKeeps s (execChain core w s) := by
  unfold execChain
  try dsimp only
  repeat' first
    | with_reducible apply Keeps.refl
    | with_reducible apply OutKeeps.next
    | with_reducible apply OutKeeps.refused
    | with_reducible apply OutKeeps.ite
    | simp only [↓Keeps.mk0, ↓Keeps.mkp, ↓Keeps.mkl, ↓Keeps.mkb]
    | with_reducible apply Keeps.ite
    | with_reducible apply Keeps.iteSnd
    | (with_reducible apply issueRow_kept; intro _ _ _)
    | with_reducible apply Keeps.trans ?_ (effVec_kept ..)

theorem execReduce_kept (core : Fin 32) (w : CmdWords) (s : State) : OutKeeps s (execReduce core w s) := by
  unfold execReduce
  try dsimp only
  repeat' first
    | with_reducible apply Keeps.refl
    | with_reducible apply OutKeeps.next
    | with_reducible apply OutKeeps.refused
    | with_reducible apply OutKeeps.ite
    | simp only [↓Keeps.mk0, ↓Keeps.mkp, ↓Keeps.mkl, ↓Keeps.mkb]
    | with_reducible apply Keeps.ite
    | with_reducible apply Keeps.iteSnd
    | (with_reducible apply issueRow_kept; intro _ _ _)
    | with_reducible apply Keeps.trans ?_ (effVec_kept ..)

theorem execTileMove_kept (core : Fin 32) (w : CmdWords) (s : State) : OutKeeps s (execTileMove core w s) := by
  unfold execTileMove
  try dsimp only
  repeat' first
    | with_reducible apply Keeps.refl
    | with_reducible apply OutKeeps.next
    | with_reducible apply OutKeeps.refused
    | with_reducible apply OutKeeps.ite
    | simp only [↓Keeps.mk0, ↓Keeps.mkp, ↓Keeps.mkl, ↓Keeps.mkb]
    | with_reducible apply Keeps.ite
    | with_reducible apply Keeps.iteSnd
    | (with_reducible apply issueRow_kept; intro _ _ _)
    | with_reducible apply Keeps.trans ?_ (effVec_kept ..)

theorem effHand_kept (c : Fin 32) (e : LookEntry) (s : State) : Keeps s (effHand c e s) := by
  unfold effHand
  try dsimp only
  repeat' first
    | with_reducible apply Keeps.refl
    | simp only [↓Keeps.mk0, ↓Keeps.mkp, ↓Keeps.mkl, ↓Keeps.mkb]
    | with_reducible apply Keeps.ite
    | with_reducible apply Keeps.iteSnd
    | (with_reducible apply andSignals_kept; intro _ _ _)
    | with_reducible apply Keeps.trans ?_ (fireSignals_kept ..)
    | with_reducible apply Keeps.trans ?_ (effStreamHand_kept ..)

theorem execStreamArm_kept (core : Fin 32) (w : CmdWords) (s : State) : OutKeeps s (execStreamArm core w s) := by
  unfold execStreamArm
  try dsimp only
  repeat' first
    | with_reducible apply Keeps.refl
    | with_reducible apply OutKeeps.next
    | with_reducible apply OutKeeps.refused
    | with_reducible apply OutKeeps.ite
    | simp only [↓Keeps.mk0, ↓Keeps.mkp, ↓Keeps.mkl, ↓Keeps.mkb]
    | with_reducible apply Keeps.ite
    | with_reducible apply Keeps.iteSnd
    | (with_reducible apply issueRow_kept; intro _ _ _)
    | (with_reducible apply andSignals_kept; intro _ _ _)
    | with_reducible apply Keeps.trans ?_ (effStreamArm_kept ..)

theorem execStreamHand_kept (core : Fin 32) (w : CmdWords) (s : State) : OutKeeps s (execStreamHand core w s) := by
  unfold execStreamHand
  try dsimp only
  repeat' first
    | with_reducible apply Keeps.refl
    | with_reducible apply OutKeeps.next
    | with_reducible apply OutKeeps.refused
    | with_reducible apply OutKeeps.ite
    | simp only [↓Keeps.mk0, ↓Keeps.mkp, ↓Keeps.mkl, ↓Keeps.mkb]
    | with_reducible apply Keeps.ite
    | with_reducible apply Keeps.iteSnd
    | (with_reducible apply issueRow_kept; intro _ _ _)
    | with_reducible apply Keeps.trans ?_ (effHand_kept ..)

theorem execStreamRearm_kept (core : Fin 32) (w : CmdWords) (s : State) : OutKeeps s (execStreamRearm core w s) := by
  unfold execStreamRearm
  try dsimp only
  repeat' first
    | with_reducible apply Keeps.refl
    | with_reducible apply OutKeeps.next
    | with_reducible apply OutKeeps.refused
    | with_reducible apply OutKeeps.ite
    | simp only [↓Keeps.mk0, ↓Keeps.mkp, ↓Keeps.mkl, ↓Keeps.mkb]
    | with_reducible apply Keeps.ite
    | with_reducible apply Keeps.iteSnd
    | (with_reducible apply issueRow_kept; intro _ _ _)
    | (with_reducible apply andSignals_kept; intro _ _ _)
    | with_reducible apply Keeps.trans ?_ (effStreamRearm_kept ..)

theorem execStreamStop_kept (core : Fin 32) (w : CmdWords) (s : State) : OutKeeps s (execStreamStop core w s) := by
  unfold execStreamStop
  try dsimp only
  repeat' first
    | with_reducible apply Keeps.refl
    | with_reducible apply OutKeeps.next
    | with_reducible apply OutKeeps.refused
    | with_reducible apply OutKeeps.ite
    | simp only [↓Keeps.mk0, ↓Keeps.mkp, ↓Keeps.mkl, ↓Keeps.mkb]
    | with_reducible apply Keeps.ite
    | with_reducible apply Keeps.iteSnd
    | (with_reducible apply issueRow_kept; intro _ _ _)
    | (with_reducible apply andSignals_kept; intro _ _ _)
    | with_reducible apply Keeps.trans ?_ (effStreamStop_kept ..)

theorem execTurn_kept (core : Fin 32) (w : CmdWords) (s : State) : OutKeeps s (execTurn core w s) := by
  unfold execTurn
  try dsimp only
  repeat' first
    | with_reducible apply Keeps.refl
    | with_reducible apply OutKeeps.next
    | with_reducible apply OutKeeps.refused
    | with_reducible apply OutKeeps.ite
    | simp only [↓Keeps.mk0, ↓Keeps.mkp, ↓Keeps.mkl, ↓Keeps.mkb]
    | with_reducible apply Keeps.ite
    | with_reducible apply Keeps.iteSnd
    | (with_reducible apply issueRow_kept; intro _ _ _)
    | with_reducible apply Keeps.trans ?_ (effTurn_kept ..)

theorem execChSend_kept (core : Fin 32) (w : CmdWords) (s : State) : OutKeeps s (execChSend core w s) := by
  unfold execChSend
  try dsimp only
  repeat' first
    | with_reducible apply Keeps.refl
    | with_reducible apply OutKeeps.next
    | with_reducible apply OutKeeps.refused
    | with_reducible apply OutKeeps.ite
    | simp only [↓Keeps.mk0, ↓Keeps.mkp, ↓Keeps.mkl, ↓Keeps.mkb]
    | with_reducible apply Keeps.ite
    | with_reducible apply Keeps.iteSnd
    | (with_reducible apply issueRow_kept; intro _ _ _)
    | with_reducible apply Keeps.trans ?_ (effChSend_kept ..)

theorem execChRelease_kept (core : Fin 32) (w : CmdWords) (s : State) : OutKeeps s (execChRelease core w s) := by
  unfold execChRelease
  try dsimp only
  repeat' first
    | with_reducible apply Keeps.refl
    | with_reducible apply OutKeeps.next
    | with_reducible apply OutKeeps.refused
    | with_reducible apply OutKeeps.ite
    | simp only [↓Keeps.mk0, ↓Keeps.mkp, ↓Keeps.mkl, ↓Keeps.mkb]
    | with_reducible apply Keeps.ite
    | with_reducible apply Keeps.iteSnd
    | (with_reducible apply issueRow_kept; intro _ _ _)
    | (with_reducible apply andSignals_kept; intro _ _ _)
    | with_reducible apply Keeps.trans ?_ (effChRelease_kept ..)

theorem execChClose_kept (core : Fin 32) (w : CmdWords) (s : State) : OutKeeps s (execChClose core w s) := by
  unfold execChClose
  try dsimp only
  repeat' first
    | with_reducible apply Keeps.refl
    | with_reducible apply OutKeeps.next
    | with_reducible apply OutKeeps.refused
    | with_reducible apply OutKeeps.ite
    | simp only [↓Keeps.mk0, ↓Keeps.mkp, ↓Keeps.mkl, ↓Keeps.mkb]
    | with_reducible apply Keeps.ite
    | with_reducible apply Keeps.iteSnd
    | (with_reducible apply issueRow_kept; intro _ _ _)
    | (with_reducible apply andSignals_kept; intro _ _ _)
    | with_reducible apply Keeps.trans ?_ (effChClose_kept ..)

theorem execBellOp_kept (core : Fin 32) (w : CmdWords) (s : State) : OutKeeps s (execBellOp core w s) := by
  unfold execBellOp
  try dsimp only
  repeat' first
    | with_reducible apply Keeps.refl
    | with_reducible apply OutKeeps.next
    | with_reducible apply OutKeeps.refused
    | with_reducible apply OutKeeps.ite
    | simp only [↓Keeps.mk0, ↓Keeps.mkp, ↓Keeps.mkl, ↓Keeps.mkb]
    | with_reducible apply Keeps.ite
    | with_reducible apply Keeps.iteSnd
    | (with_reducible apply issueRow_kept; intro _ _ _)
    | (with_reducible apply andSignals_kept; intro _ _ _)
    | with_reducible apply Keeps.trans ?_ (effBellOp_kept ..)

theorem execBuoyArm_kept (core : Fin 32) (w : CmdWords) (s : State) : OutKeeps s (execBuoyArm core w s) := by
  unfold execBuoyArm
  try dsimp only
  repeat' first
    | with_reducible apply Keeps.refl
    | with_reducible apply OutKeeps.next
    | with_reducible apply OutKeeps.refused
    | with_reducible apply OutKeeps.ite
    | simp only [↓Keeps.mk0, ↓Keeps.mkp, ↓Keeps.mkl, ↓Keeps.mkb]
    | with_reducible apply Keeps.ite
    | with_reducible apply Keeps.iteSnd
    | (with_reducible apply issueRow_kept; intro _ _ _)
    | (with_reducible apply andSignals_kept; intro _ _ _)
    | with_reducible apply Keeps.trans ?_ (effBuoyArm_kept ..)

theorem execBuoyDisarm_kept (core : Fin 32) (w : CmdWords) (s : State) : OutKeeps s (execBuoyDisarm core w s) := by
  unfold execBuoyDisarm
  try dsimp only
  repeat' first
    | with_reducible apply Keeps.refl
    | with_reducible apply OutKeeps.next
    | with_reducible apply OutKeeps.refused
    | with_reducible apply OutKeeps.ite
    | simp only [↓Keeps.mk0, ↓Keeps.mkp, ↓Keeps.mkl, ↓Keeps.mkb]
    | with_reducible apply Keeps.ite
    | with_reducible apply Keeps.iteSnd
    | (with_reducible apply issueRow_kept; intro _ _ _)
    | (with_reducible apply andSignals_kept; intro _ _ _)
    | with_reducible apply Keeps.trans ?_ (effBuoyDisarm_kept ..)

theorem execBellTest_kept (core : Fin 32) (w : CmdWords) (s : State) : OutKeeps s (execBellTest core w s) := by
  unfold execBellTest
  try dsimp only
  repeat' first
    | with_reducible apply Keeps.refl
    | with_reducible apply OutKeeps.next
    | with_reducible apply OutKeeps.refused
    | with_reducible apply OutKeeps.ite
    | simp only [↓Keeps.mk0, ↓Keeps.mkp, ↓Keeps.mkl, ↓Keeps.mkb]
    | with_reducible apply Keeps.ite
    | with_reducible apply Keeps.iteSnd
    | (with_reducible apply issueRow_kept; intro _ _ _)
    | (with_reducible apply andSignals_kept; intro _ _ _)
    | with_reducible apply Keeps.trans ?_ (effBellTest_kept ..)

theorem bankConflict_kept (c : Fin 32) (l : List Access) (s : State) : Keeps s (bankConflict c l s) := by
  unfold bankConflict
  try dsimp only
  repeat' first
    | with_reducible apply Keeps.refl
    | simp only [↓Keeps.mk0, ↓Keeps.mkp, ↓Keeps.mkl, ↓Keeps.mkb]
    | with_reducible apply Keeps.ite
    | with_reducible apply Keeps.iteSnd
    | with_reducible apply Keeps.trans ?_ (raiseHalt_kept ..)
    | with_reducible apply mwrite_wf
    | with_reducible apply mwrites_wf
    | with_reducible apply mzero_wf
    | assumption
    | split

theorem rangeHazard_kept (c : Fin 32) (a : Access) (wport widx sc : Nat) (s : State) : Keeps s (rangeHazard c a wport widx sc s) := by
  unfold rangeHazard
  try dsimp only
  repeat' first
    | with_reducible apply Keeps.refl
    | simp only [↓Keeps.mk0, ↓Keeps.mkp, ↓Keeps.mkl, ↓Keeps.mkb]
    | with_reducible apply Keeps.ite
    | with_reducible apply Keeps.iteSnd
    | with_reducible apply Keeps.trans ?_ (raiseHalt_kept ..)

theorem streamHazards_kept (c : Fin 32) (l : List Access) (seen : List (Nat × Nat)) (s : State) : Keeps s (streamHazards c l seen s) := by
  induction l generalizing seen s with
  | nil => unfold streamHazards; exact Keeps.refl _
  | cons p t ih =>
    unfold streamHazards
    try dsimp only
    repeat' first
      | with_reducible apply Keeps.refl
      | simp only [↓Keeps.mk0, ↓Keeps.mkp, ↓Keeps.mkl, ↓Keeps.mkb]
      | with_reducible apply Keeps.ite
      | with_reducible apply Keeps.iteSnd
      | with_reducible apply Keeps.trans ?_ (ih ..)
      | with_reducible apply Keeps.trans ?_ (rangeHazard_kept ..)
      | with_reducible apply mwrite_wf
      | with_reducible apply mwrites_wf
      | with_reducible apply mzero_wf
      | assumption
      | split

theorem sbHazards_kept (c : Fin 32) (l : List Access) (seen : List (Nat × Nat)) (s : State) : Keeps s (sbHazards c l seen s) := by
  induction l generalizing seen s with
  | nil => unfold sbHazards; exact Keeps.refl _
  | cons p t ih =>
    unfold sbHazards
    try dsimp only
    repeat' first
      | with_reducible apply Keeps.refl
      | simp only [↓Keeps.mk0, ↓Keeps.mkp, ↓Keeps.mkl, ↓Keeps.mkb]
      | with_reducible apply Keeps.ite
      | with_reducible apply Keeps.iteSnd
      | with_reducible apply Keeps.trans ?_ (ih ..)
      | with_reducible apply Keeps.trans ?_ (rangeHazard_kept ..)
      | with_reducible apply mwrite_wf
      | with_reducible apply mwrites_wf
      | with_reducible apply mzero_wf
      | assumption
      | split

theorem checkAfterIssue_kept (c : Fin 32) (s : State) : Keeps s (checkAfterIssue c s) := by
  unfold checkAfterIssue
  try dsimp only
  repeat' first
    | with_reducible apply Keeps.refl
    | simp only [↓Keeps.mk0, ↓Keeps.mkp, ↓Keeps.mkl, ↓Keeps.mkb]
    | with_reducible apply Keeps.ite
    | with_reducible apply Keeps.iteSnd
    | with_reducible apply Keeps.trans ?_ (updCore_kept ..)
    | with_reducible apply Keeps.trans ?_ (sbHazards_kept ..)

theorem writeWork_kept (c : Fin 32) (t : Nat) (ref : List Access) (s : State) : Keeps s (writeWork c t ref s) := by
  unfold writeWork
  try dsimp only
  repeat' first
    | with_reducible apply Keeps.refl
    | simp only [↓Keeps.mk0, ↓Keeps.mkp, ↓Keeps.mkl, ↓Keeps.mkb]
    | with_reducible apply Keeps.ite
    | with_reducible apply Keeps.iteSnd
    | with_reducible apply Keeps.trans ?_ (updCore_kept ..)
    | with_reducible apply Keeps.trans ?_ (vecWrite_kept ..)
    | (with_reducible apply Keeps.foldS; rotate_left; intro _ _)

theorem coreWork_kept (c : Fin 32) (s : State) : Keeps s (coreWork c s) := by
  unfold coreWork
  try dsimp only
  repeat' first
    | with_reducible apply Keeps.refl
    | simp only [↓Keeps.mk0, ↓Keeps.mkp, ↓Keeps.mkl, ↓Keeps.mkb]
    | with_reducible apply Keeps.ite
    | with_reducible apply Keeps.iteSnd
    | with_reducible apply Keeps.trans ?_ (updCore_kept ..)
    | with_reducible apply Keeps.trans ?_ (schedLaunch_kept ..)
    | with_reducible apply Keeps.trans ?_ (takeMask_kept ..)
    | with_reducible apply Keeps.trans ?_ (bankConflict_kept ..)
    | with_reducible apply Keeps.trans ?_ (streamHazards_kept ..)
    | with_reducible apply Keeps.trans ?_ (writeWork_kept ..)
    | (with_reducible apply Keeps.foldS; rotate_left; intro _ _)

theorem execFabWinCloseWrite_kept (v : U32) (s : State) : OutKeeps s (execFabWinCloseWrite v s) := by
  unfold execFabWinCloseWrite
  try dsimp only
  repeat' first
    | with_reducible apply Keeps.refl
    | with_reducible apply OutKeeps.next
    | with_reducible apply OutKeeps.refused
    | with_reducible apply OutKeeps.ite
    | simp only [↓Keeps.mk0, ↓Keeps.mkp, ↓Keeps.mkl, ↓Keeps.mkb]
    | with_reducible apply Keeps.ite
    | with_reducible apply Keeps.iteSnd
    | with_reducible apply Keeps.trans ?_ (closeWindow_kept ..)

theorem sendNack__kept (dest : BitVec 12) (core : BitVec 5) (express : Bool) (seq : Nat) (r : Reject) (s : State) : Keeps s (sendNack_ dest core express seq r s) := by
  unfold sendNack_
  try dsimp only
  repeat' first
    | with_reducible apply Keeps.refl
    | simp only [↓Keeps.mk0]
    | with_reducible apply Keeps.ite
    | with_reducible apply Keeps.iteSnd
    | with_reducible apply Keeps.trans ?_ (c0send_kept ..)

theorem dropIn_kept (m : MsgIn) (x : Fin 32 × BitVec 7) (reason : BitVec 2) (s : State) : Keeps s (dropIn m x reason s) := by
  unfold dropIn
  try dsimp only
  repeat' first
    | with_reducible apply Keeps.refl
    | simp only [↓Keeps.mk0, ↓Keeps.mkp, ↓Keeps.mkl, ↓Keeps.mkb]
    | with_reducible apply Keeps.ite
    | with_reducible apply Keeps.iteSnd
    | with_reducible apply Keeps.trans ?_ (updCore_kept ..)
    | with_reducible apply Keeps.trans ?_ (c0send_kept ..)
    | with_reducible apply Keeps.trans ?_ (forwardCredit_kept ..)
    | with_reducible apply mwrite_wf
    | with_reducible apply mwrites_wf
    | with_reducible apply mzero_wf
    | assumption
    | split

theorem forwardMessage_kept (m : MsgIn) (items : List (Nat × List Byte)) (s : State) : Keeps s (forwardMessage m items s) := by
  unfold forwardMessage
  try dsimp only
  repeat' first
    | with_reducible apply Keeps.refl
    | simp only [↓Keeps.mk0, ↓Keeps.mkp, ↓Keeps.mkl, ↓Keeps.mkb]
    | with_reducible apply Keeps.ite
    | with_reducible apply Keeps.iteSnd
    | with_reducible apply Keeps.trans ?_ (launchItem_kept ..)
    | (with_reducible apply Keeps.foldS; rotate_left; intro _ _)
    | with_reducible apply mwrite_wf
    | with_reducible apply mwrites_wf
    | with_reducible apply mzero_wf
    | assumption
    | split

theorem endMessage_kept (m : MsgIn) (items : List (Nat × List Byte)) (s : State) : Keeps s (endMessage m items s) := by
  unfold endMessage
  try dsimp only
  repeat' first
    | with_reducible apply Keeps.refl
    | simp only [↓Keeps.mk0, ↓Keeps.mkp, ↓Keeps.mkl, ↓Keeps.mkb]
    | with_reducible apply Keeps.ite
    | with_reducible apply Keeps.iteSnd
    | with_reducible apply Keeps.trans ?_ (c0send_kept ..)
    | with_reducible apply Keeps.trans ?_ (markLanded_kept ..)
    | with_reducible apply Keeps.trans ?_ (dropIn_kept ..)
    | with_reducible apply Keeps.trans ?_ (forwardMessage_kept ..)
    | (with_reducible apply Keeps.foldS; rotate_left; intro _ _)

theorem placeFlit_kept (key n : Nat) (f : Flit) (m : MsgIn) (s : State) : Keeps s (placeFlit key n f m s) := by
  unfold placeFlit
  try dsimp only
  repeat' first
    | with_reducible apply Keeps.refl
    | simp only [↓Keeps.mk0, ↓Keeps.mkp, ↓Keeps.mkl, ↓Keeps.mkb]
    | with_reducible apply Keeps.ite
    | with_reducible apply Keeps.iteSnd
    | with_reducible apply Keeps.trans ?_ (fillAsk_kept ..)
    | with_reducible apply Keeps.trans ?_ (updPath_kept ..)
    | (with_reducible apply Keeps.foldS; rotate_left; intro _ _)

theorem placeFlits_kept (key : Nat) (s : State) : Keeps s (placeFlits key s) := by
  unfold placeFlits
  try dsimp only
  repeat' first
    | with_reducible apply Keeps.refl
    | simp only [↓Keeps.mk0, ↓Keeps.mkp, ↓Keeps.mkl, ↓Keeps.mkb]
    | with_reducible apply Keeps.ite
    | with_reducible apply Keeps.iteSnd
    | with_reducible apply Keeps.trans ?_ (placeFlit_kept ..)
    | (with_reducible apply Keeps.foldS; rotate_left; intro _ _)
    | with_reducible apply mwrite_wf
    | with_reducible apply mwrites_wf
    | with_reducible apply mzero_wf
    | assumption
    | split

theorem messageFlit_kept (key n : Nat) (f : Flit) (s : State) : Keeps s (messageFlit key n f s) := by
  unfold messageFlit
  try dsimp only
  repeat' first
    | with_reducible apply Keeps.refl
    | simp only [↓Keeps.mk0, ↓Keeps.mkp, ↓Keeps.mkl, ↓Keeps.mkb]
    | with_reducible apply Keeps.ite
    | with_reducible apply Keeps.iteSnd
    | with_reducible apply Keeps.trans ?_ (updPath_kept ..)
    | with_reducible apply Keeps.trans ?_ (endMessage_kept ..)

theorem itemEffect_kept (key n : Nat) (f : Flit) (s : State) : Keeps s (itemEffect key n f s) := by
  unfold itemEffect
  try dsimp only
  repeat' first
    | with_reducible apply Keeps.refl
    | simp only [↓Keeps.mk0, ↓Keeps.mkp, ↓Keeps.mkl, ↓Keeps.mkb]
    | with_reducible apply Keeps.ite
    | with_reducible apply Keeps.iteSnd
    | with_reducible apply Keeps.trans ?_ (updPath_kept ..)
    | with_reducible apply Keeps.trans ?_ (acceptMsg_kept ..)
    | with_reducible apply Keeps.trans ?_ (bellArrive_kept ..)
    | with_reducible apply Keeps.trans ?_ (messageFlit_kept ..)
    | with_reducible apply mwrite_wf
    | with_reducible apply mwrites_wf
    | with_reducible apply mzero_wf
    | assumption
    | split

theorem advancePath_kept (key : Nat) (n : Nat) (s : State) : Keeps s (advancePath key n s) := by
  induction n generalizing s with
  | zero => unfold advancePath; exact Keeps.refl _
  | succ n ih =>
    unfold advancePath
    try dsimp only
    repeat' first
      | with_reducible apply Keeps.refl
      | simp only [↓Keeps.mk0, ↓Keeps.mkp, ↓Keeps.mkl, ↓Keeps.mkb]
      | with_reducible apply Keeps.ite
      | with_reducible apply Keeps.iteSnd
      | with_reducible apply Keeps.trans ?_ (ih ..)
      | with_reducible apply Keeps.trans ?_ (updPath_kept ..)
      | with_reducible apply Keeps.trans ?_ (itemEffect_kept ..)
      | with_reducible apply mwrite_wf
      | with_reducible apply mwrites_wf
      | with_reducible apply mzero_wf
      | assumption
      | split

theorem settlePath_kept (key : Nat) (s : State) : Keeps s (settlePath key s) := by
  unfold settlePath
  try dsimp only
  repeat' first
    | with_reducible apply Keeps.refl
    | simp only [↓Keeps.mk0, ↓Keeps.mkp, ↓Keeps.mkl, ↓Keeps.mkb]
    | with_reducible apply Keeps.ite
    | with_reducible apply Keeps.iteSnd
    | with_reducible apply Keeps.trans ?_ (placeFlits_kept ..)
    | with_reducible apply Keeps.trans ?_ (advancePath_kept ..)

theorem settle_kept (key n : Nat) (f : Flit) (rejected : Bool) (s : State) : Keeps s (settle key n f rejected s) := by
  unfold settle
  try dsimp only
  repeat' first
    | with_reducible apply Keeps.refl
    | simp only [↓Keeps.mk0, ↓Keeps.mkp, ↓Keeps.mkl, ↓Keeps.mkb]
    | with_reducible apply Keeps.ite
    | with_reducible apply Keeps.iteSnd
    | with_reducible apply Keeps.trans ?_ (updPath_kept ..)
    | with_reducible apply Keeps.trans ?_ (settlePath_kept ..)

theorem serveRead_kept (f : Flit) (s : State) : Keeps s (serveRead f s) := by
  unfold serveRead
  try dsimp only
  repeat' first
    | with_reducible apply Keeps.refl
    | simp only [↓Keeps.mk0, ↓Keeps.mkp, ↓Keeps.mkl, ↓Keeps.mkb]
    | with_reducible apply Keeps.ite
    | with_reducible apply Keeps.iteSnd
    | with_reducible apply Keeps.trans ?_ (startJob_kept ..)

theorem sendResponse_kept (f : Flit) (bs : List Byte) (s : State) : Keeps s (sendResponse f bs s) := by
  unfold sendResponse
  try dsimp only
  repeat' first
    | with_reducible apply Keeps.refl
    | simp only [↓Keeps.mk0, ↓Keeps.mkp, ↓Keeps.mkl, ↓Keeps.mkb]
    | with_reducible apply Keeps.ite
    | with_reducible apply Keeps.iteSnd
    | with_reducible apply Keeps.trans ?_ (launchCut_kept ..)

theorem writeFlit_kept (key n : Nat) (f : Flit) (s : State) : Keeps s (writeFlit key n f s) := by
  unfold writeFlit
  try dsimp only
  repeat' first
    | with_reducible apply Keeps.refl
    | simp only [↓Keeps.mk0, ↓Keeps.mkp, ↓Keeps.mkl, ↓Keeps.mkb]
    | with_reducible apply Keeps.ite
    | with_reducible apply Keeps.iteSnd
    | with_reducible apply Keeps.trans ?_ (updPath_kept ..)
    | with_reducible apply Keeps.trans ?_ (rangeWrite_kept ..)

theorem takeResponse_kept (key n : Nat) (f : Flit) (s : State) : Keeps s (takeResponse key n f s) := by
  unfold takeResponse
  try dsimp only
  repeat' first
    | with_reducible apply Keeps.refl
    | simp only [↓Keeps.mk0]
    | with_reducible apply Keeps.ite
    | with_reducible apply Keeps.iteSnd
    | with_reducible apply Keeps.trans ?_ (updCore_kept ..)
    | with_reducible apply Keeps.trans ?_ (fillAsk_kept ..)
    | with_reducible apply Keeps.trans ?_ (writeFlit_kept ..)
    | with_reducible apply mwrite_wf
    | with_reducible apply mwrites_wf
    | with_reducible apply mzero_wf
    | assumption
    | split

theorem landNow_kept (key n : Nat) (f : Flit) (s : State) : Keeps s (landNow key n f s) := by
  unfold landNow
  try dsimp only
  repeat' first
    | with_reducible apply Keeps.refl
    | simp only [↓Keeps.mk0, ↓Keeps.mkp, ↓Keeps.mkl, ↓Keeps.mkb]
    | with_reducible apply Keeps.ite
    | with_reducible apply Keeps.iteSnd
    | with_reducible apply Keeps.trans ?_ (serveRead_kept ..)
    | with_reducible apply Keeps.trans ?_ (writeFlit_kept ..)
    | with_reducible apply Keeps.trans ?_ (takeResponse_kept ..)
    | with_reducible apply mwrite_wf
    | with_reducible apply mwrites_wf
    | with_reducible apply mzero_wf
    | assumption
    | split

theorem landFlit_kept (f : Flit) (s : State) : Keeps s (landFlit f s) := by
  unfold landFlit
  try dsimp only
  repeat' first
    | with_reducible apply Keeps.refl
    | simp only [↓Keeps.mk0]
    | with_reducible apply Keeps.ite
    | with_reducible apply Keeps.iteSnd
    | with_reducible apply Keeps.trans ?_ (sendNack__kept ..)
    | with_reducible apply Keeps.trans ?_ (settle_kept ..)
    | with_reducible apply Keeps.trans ?_ (landNow_kept ..)
    | with_reducible apply mwrite_wf
    | with_reducible apply mwrites_wf
    | with_reducible apply mzero_wf
    | assumption
    | split

theorem c1Row_kept (ikind : BitVec 3) (f : Flit) (s : State) : Keeps s (c1Row ikind f s) := by
  unfold c1Row
  try dsimp only
  repeat' first
    | with_reducible apply Keeps.refl
    | simp only [↓Keeps.mk0, ↓Keeps.mkp, ↓Keeps.mkl, ↓Keeps.mkb]
    | with_reducible apply Keeps.ite
    | with_reducible apply Keeps.iteSnd
    | with_reducible apply Keeps.trans ?_ (landFlit_kept ..)

theorem execC1Write_kept (f : Flit) (s : State) : OutKeeps s (execC1Write f s) := by
  unfold execC1Write
  try dsimp only
  repeat' first
    | with_reducible apply Keeps.refl
    | with_reducible apply OutKeeps.next
    | with_reducible apply OutKeeps.refused
    | with_reducible apply OutKeeps.ite
    | simp only [↓Keeps.mk0, ↓Keeps.mkp, ↓Keeps.mkl, ↓Keeps.mkb]
    | with_reducible apply Keeps.ite
    | with_reducible apply Keeps.iteSnd
    | with_reducible apply Keeps.trans ?_ (c1Row_kept ..)

theorem execC1WriteWithAccept_kept (f : Flit) (s : State) : OutKeeps s (execC1WriteWithAccept f s) := by
  unfold execC1WriteWithAccept
  try dsimp only
  repeat' first
    | with_reducible apply Keeps.refl
    | with_reducible apply OutKeeps.next
    | with_reducible apply OutKeeps.refused
    | with_reducible apply OutKeeps.ite
    | simp only [↓Keeps.mk0, ↓Keeps.mkp, ↓Keeps.mkl, ↓Keeps.mkb]
    | with_reducible apply Keeps.ite
    | with_reducible apply Keeps.iteSnd
    | with_reducible apply Keeps.trans ?_ (c1Row_kept ..)

theorem execC1ReadRequest_kept (f : Flit) (s : State) : OutKeeps s (execC1ReadRequest f s) := by
  unfold execC1ReadRequest
  try dsimp only
  repeat' first
    | with_reducible apply Keeps.refl
    | with_reducible apply OutKeeps.next
    | with_reducible apply OutKeeps.refused
    | with_reducible apply OutKeeps.ite
    | simp only [↓Keeps.mk0, ↓Keeps.mkp, ↓Keeps.mkl, ↓Keeps.mkb]
    | with_reducible apply Keeps.ite
    | with_reducible apply Keeps.iteSnd
    | with_reducible apply Keeps.trans ?_ (c1Row_kept ..)

theorem execC1ReadResponse_kept (f : Flit) (s : State) : OutKeeps s (execC1ReadResponse f s) := by
  unfold execC1ReadResponse
  try dsimp only
  repeat' first
    | with_reducible apply Keeps.refl
    | with_reducible apply OutKeeps.next
    | with_reducible apply OutKeeps.refused
    | with_reducible apply OutKeeps.ite
    | simp only [↓Keeps.mk0, ↓Keeps.mkp, ↓Keeps.mkl, ↓Keeps.mkb]
    | with_reducible apply Keeps.ite
    | with_reducible apply Keeps.iteSnd
    | with_reducible apply Keeps.trans ?_ (c1Row_kept ..)

theorem execC1BellOperation_kept (f : Flit) (s : State) : OutKeeps s (execC1BellOperation f s) := by
  unfold execC1BellOperation
  try dsimp only
  repeat' first
    | with_reducible apply Keeps.refl
    | with_reducible apply OutKeeps.next
    | with_reducible apply OutKeeps.refused
    | with_reducible apply OutKeeps.ite
    | simp only [↓Keeps.mk0, ↓Keeps.mkp, ↓Keeps.mkl, ↓Keeps.mkb]
    | with_reducible apply Keeps.ite
    | with_reducible apply Keeps.iteSnd
    | with_reducible apply Keeps.trans ?_ (c1Row_kept ..)

theorem execC1ChannelMessage_kept (f : Flit) (s : State) : OutKeeps s (execC1ChannelMessage f s) := by
  unfold execC1ChannelMessage
  try dsimp only
  repeat' first
    | with_reducible apply Keeps.refl
    | with_reducible apply OutKeeps.next
    | with_reducible apply OutKeeps.refused
    | with_reducible apply OutKeeps.ite
    | simp only [↓Keeps.mk0, ↓Keeps.mkp, ↓Keeps.mkl, ↓Keeps.mkb]
    | with_reducible apply Keeps.ite
    | with_reducible apply Keeps.iteSnd
    | with_reducible apply Keeps.trans ?_ (c1Row_kept ..)

theorem execHaltMsg_kept (port : Fin 16) (msg : C0Msg) (s : State) : OutKeeps s (execHaltMsg port msg s) := by
  unfold execHaltMsg
  try dsimp only
  repeat' first
    | with_reducible apply Keeps.refl
    | with_reducible apply OutKeeps.next
    | with_reducible apply OutKeeps.refused
    | with_reducible apply OutKeeps.ite
    | simp only [↓Keeps.mk0]
    | with_reducible apply Keeps.ite
    | with_reducible apply Keeps.iteSnd
    | with_reducible apply Keeps.trans ?_ (c0flood_kept ..)
    | with_reducible apply Keeps.trans ?_ (raiseHalt_kept ..)
    | with_reducible apply Keeps.trans ?_ (c0drop_kept ..)

theorem execStatusMsg_kept (port : Fin 16) (msg : C0Msg) (s : State) : OutKeeps s (execStatusMsg port msg s) := by
  unfold execStatusMsg
  try dsimp only
  repeat' first
    | with_reducible apply Keeps.refl
    | with_reducible apply OutKeeps.next
    | with_reducible apply OutKeeps.refused
    | with_reducible apply OutKeeps.ite
    | simp only [↓Keeps.mk0]
    | with_reducible apply Keeps.ite
    | with_reducible apply Keeps.iteSnd
    | with_reducible apply Keeps.trans ?_ (c0flood_kept ..)
    | with_reducible apply Keeps.trans ?_ (c0drop_kept ..)

theorem routed_kept (kind : Nat) (msg : C0Msg) (act : BitVec 12 → State → State) (s : State) (ha : ∀ x s, Keeps s (act x s)) :
    Keeps s (routed kind msg act s) := by
  have hu : ∀ f : Fabric, Keeps s { s with fab := f } := fun f => ⟨rfl, id⟩
  unfold routed
  dsimp only
  refine Keeps.ite (Keeps.refl s) (Keeps.ite (c0drop_kept s) (Keeps.ite ((hu _).trans (ha ..)) ((hu _).trans (c0route_kept ..))))

theorem childCredit_kept (i : Nat) (gen : U16) (src : BitVec 12) (cum : Nat) (s : State) : Keeps s (childCredit i gen src cum s) := by
  unfold childCredit
  try dsimp only
  repeat' first
    | with_reducible apply Keeps.refl
    | simp only [↓Keeps.mk0]
    | with_reducible apply Keeps.ite
    | with_reducible apply Keeps.iteSnd
    | with_reducible apply Keeps.trans ?_ (forwardCredit_kept ..)

theorem passCredit_kept (i : Nat) (g : MGroup) (gen : U16) (src : BitVec 12) (cum : Nat) (s : State) : Keeps s (passCredit i g gen src cum s) := by
  unfold passCredit
  try dsimp only
  repeat' first
    | with_reducible apply Keeps.refl
    | simp only [↓Keeps.mk0]
    | with_reducible apply Keeps.ite
    | with_reducible apply Keeps.iteSnd
    | with_reducible apply Keeps.trans ?_ (childCredit_kept ..)

theorem takeCredit_kept (msg : C0Msg) (src : BitVec 12) (s : State) : Keeps s (takeCredit msg src s) := by
  unfold takeCredit
  try dsimp only
  repeat' first
    | with_reducible apply Keeps.refl
    | simp only [↓Keeps.mk0, ↓Keeps.mkp, ↓Keeps.mkl, ↓Keeps.mkb]
    | with_reducible apply Keeps.ite
    | with_reducible apply Keeps.iteSnd
    | with_reducible apply Keeps.trans ?_ (updCore_kept ..)
    | with_reducible apply Keeps.trans ?_ (creditBack_kept ..)
    | with_reducible apply Keeps.trans ?_ (childCredit_kept ..)
    | with_reducible apply Keeps.trans ?_ (passCredit_kept ..)
    | with_reducible apply mwrite_wf
    | with_reducible apply mwrites_wf
    | with_reducible apply mzero_wf
    | assumption
    | split

theorem execCreditMsg_kept (_port : Fin 16) (msg : C0Msg) (s : State) : OutKeeps s (execCreditMsg _port msg s) := by
  unfold execCreditMsg
  try dsimp only
  repeat' first
    | with_reducible apply Keeps.refl
    | with_reducible apply OutKeeps.next
    | with_reducible apply OutKeeps.refused
    | with_reducible apply OutKeeps.ite
    | simp only [↓Keeps.mk0, ↓Keeps.mkp, ↓Keeps.mkl, ↓Keeps.mkb]
    | with_reducible apply Keeps.ite
    | with_reducible apply Keeps.iteSnd
    | (with_reducible apply routed_kept; intro _ _)
    | with_reducible apply Keeps.trans ?_ (takeCredit_kept ..)

theorem takeCreditDrop_kept (msg : C0Msg) (src : BitVec 12) (s : State) : Keeps s (takeCreditDrop msg src s) := by
  unfold takeCreditDrop
  try dsimp only
  repeat' first
    | with_reducible apply Keeps.refl
    | simp only [↓Keeps.mk0, ↓Keeps.mkp, ↓Keeps.mkl, ↓Keeps.mkb]
    | with_reducible apply Keeps.ite
    | with_reducible apply Keeps.iteSnd
    | with_reducible apply Keeps.trans ?_ (updCore_kept ..)
    | with_reducible apply Keeps.trans ?_ (takeDrop_kept ..)

theorem execCreditDrop_kept (_port : Fin 16) (msg : C0Msg) (s : State) : OutKeeps s (execCreditDrop _port msg s) := by
  unfold execCreditDrop
  try dsimp only
  repeat' first
    | with_reducible apply Keeps.refl
    | with_reducible apply OutKeeps.next
    | with_reducible apply OutKeeps.refused
    | with_reducible apply OutKeeps.ite
    | simp only [↓Keeps.mk0, ↓Keeps.mkp, ↓Keeps.mkl, ↓Keeps.mkb]
    | with_reducible apply Keeps.ite
    | with_reducible apply Keeps.iteSnd
    | (with_reducible apply routed_kept; intro _ _)
    | with_reducible apply Keeps.trans ?_ (takeCreditDrop_kept ..)

theorem applyExpress_kept (src : BitVec 12) (msg : C0Msg) (s : State) : Keeps s (applyExpress src msg s) := by
  unfold applyExpress
  try dsimp only
  repeat' first
    | with_reducible apply Keeps.refl
    | simp only [↓Keeps.mk0]
    | with_reducible apply Keeps.ite
    | with_reducible apply Keeps.iteSnd
    | with_reducible apply Keeps.trans ?_ (bellArrive_kept ..)
    | with_reducible apply Keeps.trans ?_ (sendNack__kept ..)
    | with_reducible apply mwrite_wf
    | with_reducible apply mwrites_wf
    | with_reducible apply mzero_wf
    | assumption
    | split

theorem drainExpress_kept (src : BitVec 12) (core : Nat) (n : Nat) (s : State) : Keeps s (drainExpress src core n s) := by
  induction n generalizing s with
  | zero => unfold drainExpress; exact Keeps.refl _
  | succ n ih =>
    unfold drainExpress
    try dsimp only
    repeat' first
      | with_reducible apply Keeps.refl
      | simp only [↓Keeps.mk0]
      | with_reducible apply Keeps.ite
      | with_reducible apply Keeps.iteSnd
      | with_reducible apply Keeps.trans ?_ (ih ..)
      | with_reducible apply Keeps.trans ?_ (applyExpress_kept ..)
      | with_reducible apply mwrite_wf
      | with_reducible apply mwrites_wf
      | with_reducible apply mzero_wf
      | assumption
      | split

theorem takeExpress_kept (port : Fin 16) (msg : C0Msg) (src : BitVec 12) (s : State) : Keeps s (takeExpress port msg src s) := by
  unfold takeExpress
  try dsimp only
  repeat' first
    | with_reducible apply Keeps.refl
    | simp only [↓Keeps.mk0]
    | with_reducible apply Keeps.ite
    | with_reducible apply Keeps.iteSnd
    | with_reducible apply Keeps.trans ?_ (drainExpress_kept ..)

theorem nextExpress_kept (s : State) : Keeps s (nextExpress s) := by
  unfold nextExpress
  try dsimp only
  repeat' first
    | with_reducible apply Keeps.refl
    | simp only [↓Keeps.mk0, ↓Keeps.mkp, ↓Keeps.mkl, ↓Keeps.mkb]
    | with_reducible apply Keeps.ite
    | with_reducible apply Keeps.iteSnd
    | with_reducible apply Keeps.trans ?_ (drainExpress_kept ..)
    | (with_reducible apply Keeps.foldS; rotate_left; intro _ _)

theorem answerRequests_kept (n : Nat) (s : State) : Keeps s (answerRequests n s) := by
  induction n generalizing s with
  | zero => exact Keeps.refl s
  | succ n ih =>
    unfold answerRequests
    split
    · exact Keeps.ite (((endJob_kept ..).trans (sendResponse_kept ..)).trans (ih _)) (Keeps.refl s)
    · exact Keeps.refl s

theorem fabricWork_kept (s : State) : Keeps s (fabricWork s) := by
  unfold fabricWork
  try dsimp only
  repeat' first
    | with_reducible apply Keeps.refl
    | simp only [↓Keeps.mk0, ↓Keeps.mkp, ↓Keeps.mkl, ↓Keeps.mkb]
    | with_reducible apply Keeps.ite
    | with_reducible apply Keeps.iteSnd
    | with_reducible apply Keeps.trans ?_ (settlePath_kept ..)
    | with_reducible apply Keeps.trans ?_ (nextExpress_kept ..)
    | with_reducible apply Keeps.trans ?_ (answerRequests_kept ..)
    | (with_reducible apply Keeps.foldS; rotate_left; intro _ _)

theorem execExpressBell_kept (port : Fin 16) (msg : C0Msg) (s : State) : OutKeeps s (execExpressBell port msg s) := by
  unfold execExpressBell
  try dsimp only
  repeat' first
    | with_reducible apply Keeps.refl
    | with_reducible apply OutKeeps.next
    | with_reducible apply OutKeeps.refused
    | with_reducible apply OutKeeps.ite
    | simp only [↓Keeps.mk0, ↓Keeps.mkp, ↓Keeps.mkl, ↓Keeps.mkb]
    | with_reducible apply Keeps.ite
    | with_reducible apply Keeps.iteSnd
    | (with_reducible apply routed_kept; intro _ _)
    | with_reducible apply Keeps.trans ?_ (takeExpress_kept ..)

theorem takeNack_kept (msg : C0Msg) (src : BitVec 12) (s : State) : Keeps s (takeNack msg src s) := by
  unfold takeNack
  try dsimp only
  repeat' first
    | with_reducible apply Keeps.refl
    | simp only [↓Keeps.mk0]
    | with_reducible apply Keeps.ite
    | with_reducible apply Keeps.iteSnd
    | with_reducible apply Keeps.trans ?_ (logErr_kept ..)
    | with_reducible apply Keeps.trans ?_ (raiseHalt_kept ..)

theorem execWindowNack_kept (_port : Fin 16) (msg : C0Msg) (s : State) : OutKeeps s (execWindowNack _port msg s) := by
  unfold execWindowNack
  try dsimp only
  repeat' first
    | with_reducible apply Keeps.refl
    | with_reducible apply OutKeeps.next
    | with_reducible apply OutKeeps.refused
    | with_reducible apply OutKeeps.ite
    | simp only [↓Keeps.mk0, ↓Keeps.mkp, ↓Keeps.mkl, ↓Keeps.mkb]
    | with_reducible apply Keeps.ite
    | with_reducible apply Keeps.iteSnd
    | (with_reducible apply routed_kept; intro _ _)
    | with_reducible apply Keeps.trans ?_ (takeNack_kept ..)

theorem completeAccepted_kept (w : AwaitAccept) (s : State) : Keeps s (completeAccepted w s) := by
  unfold completeAccepted
  try dsimp only
  repeat' first
    | with_reducible apply Keeps.refl
    | simp only [↓Keeps.mk0, ↓Keeps.mkp, ↓Keeps.mkl, ↓Keeps.mkb]
    | with_reducible apply Keeps.ite
    | with_reducible apply Keeps.iteSnd
    | with_reducible apply Keeps.trans ?_ (updCore_kept ..)
    | with_reducible apply Keeps.trans ?_ (ackAdd_kept ..)
    | with_reducible apply mwrite_wf
    | with_reducible apply mwrites_wf
    | with_reducible apply mzero_wf
    | assumption
    | split

theorem takeAccept_kept (msg : C0Msg) (src : BitVec 12) (s : State) : Keeps s (takeAccept msg src s) := by
  unfold takeAccept
  try dsimp only
  repeat' first
    | with_reducible apply Keeps.refl
    | simp only [↓Keeps.mk0]
    | with_reducible apply Keeps.ite
    | with_reducible apply Keeps.iteSnd
    | with_reducible apply Keeps.trans ?_ (accepted_kept ..)
    | with_reducible apply Keeps.trans ?_ (completeAccepted_kept ..)
    | (with_reducible apply Keeps.foldS; rotate_left; intro _ _)
    | with_reducible apply mwrite_wf
    | with_reducible apply mwrites_wf
    | with_reducible apply mzero_wf
    | assumption
    | split

theorem execAcceptMsg_kept (_port : Fin 16) (msg : C0Msg) (s : State) : OutKeeps s (execAcceptMsg _port msg s) := by
  unfold execAcceptMsg
  try dsimp only
  repeat' first
    | with_reducible apply Keeps.refl
    | with_reducible apply OutKeeps.next
    | with_reducible apply OutKeeps.refused
    | with_reducible apply OutKeeps.ite
    | simp only [↓Keeps.mk0, ↓Keeps.mkp, ↓Keeps.mkl, ↓Keeps.mkb]
    | with_reducible apply Keeps.ite
    | with_reducible apply Keeps.iteSnd
    | (with_reducible apply routed_kept; intro _ _)
    | with_reducible apply Keeps.trans ?_ (takeAccept_kept ..)

theorem execC2FlitReceive_kept (port : Fin 16) (f : Flit) (s : State) : OutKeeps s (execC2FlitReceive port f s) := by
  unfold execC2FlitReceive
  try dsimp only
  repeat' first
    | with_reducible apply Keeps.refl
    | with_reducible apply OutKeeps.next
    | with_reducible apply OutKeeps.refused
    | with_reducible apply OutKeeps.ite
    | simp only [↓Keeps.mk0, ↓Keeps.mkp, ↓Keeps.mkl, ↓Keeps.mkb]
    | with_reducible apply Keeps.ite
    | with_reducible apply Keeps.iteSnd
    | with_reducible apply Keeps.trans ?_ (updPort_kept ..)
    | with_reducible apply Keeps.trans ?_ (c2Send_kept ..)
    | with_reducible apply Keeps.trans ?_ (relayArrive_kept ..)

theorem execDrainEnd_kept (s : State) : OutKeeps s (execDrainEnd s) := by
  unfold execDrainEnd
  try dsimp only
  repeat' first
    | with_reducible apply Keeps.refl
    | with_reducible apply OutKeeps.next
    | with_reducible apply OutKeeps.refused
    | with_reducible apply OutKeeps.ite
    | simp only [↓Keeps.mk0]
    | with_reducible apply Keeps.ite
    | with_reducible apply Keeps.iteSnd
    | with_reducible apply mwrite_wf
    | with_reducible apply mwrites_wf
    | with_reducible apply mzero_wf
    | assumption
    | split

theorem startCopy_kept (s : State) : Keeps s (startCopy s) := by
  unfold startCopy
  try dsimp only
  repeat' first
    | with_reducible apply Keeps.refl
    | simp only [↓Keeps.mk0, ↓Keeps.mkp, ↓Keeps.mkl, ↓Keeps.mkb]
    | with_reducible apply Keeps.ite
    | with_reducible apply Keeps.iteSnd
    | with_reducible apply Keeps.trans ?_ (startJob_kept ..)
    | with_reducible apply mwrite_wf
    | with_reducible apply mwrites_wf
    | with_reducible apply mzero_wf
    | assumption
    | split

theorem execTableCopyDone_kept (s : State) : OutKeeps s (execTableCopyDone s) := by
  unfold execTableCopyDone
  try dsimp only
  repeat' first
    | with_reducible apply Keeps.refl
    | with_reducible apply OutKeeps.next
    | with_reducible apply OutKeeps.refused
    | with_reducible apply OutKeeps.ite
    | simp only [↓Keeps.mk0]
    | with_reducible apply Keeps.ite
    | with_reducible apply Keeps.iteSnd
    | with_reducible apply Keeps.trans ?_ (endJob_kept ..)
    | with_reducible apply mwrite_wf
    | with_reducible apply mwrites_wf
    | with_reducible apply mzero_wf
    | assumption
    | split

end Sys2Proof.Machine
end

