-- ==== Sys2Proof/Laws/KeepsD.lean ====
section
/-! SUPPORT. What every operation of the model keeps: the fuses, the key slots and the canonical form of memory (the loader, registers, host and every command). -/

namespace Sys2Proof.Machine

theorem stageWrite_kept (p : Nat × List Byte) (s : State) : Keeps s (stageWrite p s) := by
  unfold stageWrite
  try dsimp only
  repeat' first
    | with_reducible apply Keeps.refl
    | simp only [↓Keeps.mk0, ↓Keeps.mkp, ↓Keeps.mkl, ↓Keeps.mkb]
    | with_reducible apply Keeps.ite
    | with_reducible apply Keeps.iteSnd
    | with_reducible apply Keeps.trans ?_ (ueRow_kept ..)
    | with_reducible apply Keeps.trans ?_ (blockWrite_kept ..)
    | with_reducible apply mwrite_wf
    | with_reducible apply mwrites_wf
    | with_reducible apply mzero_wf
    | assumption
    | split

theorem placeBytes_kept (space off : Nat) (bs : List Byte) (s : State) : Keeps s (placeBytes space off bs s) := by
  unfold placeBytes
  try dsimp only
  repeat' first
    | with_reducible apply Keeps.refl
    | simp only [↓Keeps.mk0, ↓Keeps.mkp, ↓Keeps.mkl, ↓Keeps.mkb]
    | with_reducible apply Keeps.ite
    | with_reducible apply Keeps.iteSnd
    | with_reducible apply Keeps.trans ?_ (stageWrite_kept ..)
    | (with_reducible apply Keeps.foldS; rotate_left; intro _ _)

theorem writeTimeRec_kept (l : List Byte) (r : Rec) (s : State) : Keeps s (writeTimeRec l r s) := by
  unfold writeTimeRec
  try dsimp only
  repeat' first
    | with_reducible apply Keeps.refl
    | simp only [↓Keeps.mk0]
    | with_reducible apply Keeps.ite
    | with_reducible apply Keeps.iteSnd
    | with_reducible apply mwrite_wf
    | with_reducible apply mwrites_wf
    | with_reducible apply mzero_wf
    | assumption
    | split

theorem writeFabRec_kept (l : List Byte) (shift : Nat) (r : Rec) (s : State) : Keeps s (writeFabRec l shift r s) := by
  unfold writeFabRec
  try dsimp only
  repeat' first
    | with_reducible apply Keeps.refl
    | simp only [↓Keeps.mk0]
    | with_reducible apply Keeps.ite
    | with_reducible apply Keeps.iteSnd
    | with_reducible apply Keeps.trans ?_ (updPort_kept ..)
    | with_reducible apply Keeps.trans ?_ (placeBytes_kept ..)
    | (with_reducible apply Keeps.foldS; rotate_left; intro _ _)
    | with_reducible apply mwrite_wf
    | with_reducible apply mwrites_wf
    | with_reducible apply mzero_wf
    | assumption
    | split

theorem writeHostRec_kept (l : List Byte) (r : Rec) (s : State) : Keeps s (writeHostRec l r s) := by
  unfold writeHostRec
  try dsimp only
  repeat' first
    | with_reducible apply Keeps.refl
    | simp only [↓Keeps.mk0]

theorem writeRec_kept (l : List Byte) (shift : Nat) (r : Rec) (s : State) : Keeps s (writeRec l shift r s) := by
  unfold writeRec
  try dsimp only
  repeat' first
    | with_reducible apply Keeps.refl
    | simp only [↓Keeps.mk0, ↓Keeps.mkp, ↓Keeps.mkl, ↓Keeps.mkb]
    | with_reducible apply Keeps.ite
    | with_reducible apply Keeps.iteSnd
    | with_reducible apply Keeps.trans ?_ (updCore_kept ..)
    | with_reducible apply Keeps.trans ?_ (writeTimeRec_kept ..)
    | with_reducible apply Keeps.trans ?_ (writeFabRec_kept ..)
    | with_reducible apply Keeps.trans ?_ (writeHostRec_kept ..)

theorem asSparse_kept (c : Fin 32) (j : Fin 2) (b : Bool) (s : State) : Keeps s (asSparse c j b s) := by
  unfold asSparse
  try dsimp only
  repeat' first
    | with_reducible apply Keeps.refl
    | simp only [↓Keeps.mk0, ↓Keeps.mkp, ↓Keeps.mkl, ↓Keeps.mkb]
    | with_reducible apply Keeps.ite
    | with_reducible apply Keeps.iteSnd
    | with_reducible apply Keeps.trans ?_ (updArr_kept ..)

theorem endLoad_kept (r : Refuse) (s : State) : Keeps s (endLoad r s) := by
  unfold endLoad
  try dsimp only
  repeat' first
    | with_reducible apply Keeps.refl
    | simp only [↓Keeps.mkl]
    | with_reducible apply Keeps.ite
    | with_reducible apply Keeps.iteSnd
    | with_reducible apply Keeps.trans ?_ (logErr_kept ..)

theorem execImageLoad_kept (s : State) : OutKeeps s (execImageLoad s) := by
  unfold execImageLoad
  try dsimp only
  repeat' first
    | with_reducible apply Keeps.refl
    | with_reducible apply OutKeeps.next
    | with_reducible apply OutKeeps.refused
    | with_reducible apply OutKeeps.ite
    | simp only [↓Keeps.mkl]
    | with_reducible apply Keeps.ite
    | with_reducible apply Keeps.iteSnd
    | with_reducible apply Keeps.trans ?_ (endLoad_kept ..)

theorem stageBlock_kept (a n : Nat) (s : State) : Keeps s (stageBlock a n s).2 := by
  unfold stageBlock
  try dsimp only
  repeat' first
    | with_reducible apply Keeps.refl
    | simp only []
    | with_reducible apply Keeps.ite
    | with_reducible apply Keeps.iteSnd
    | with_reducible apply Keeps.trans ?_ (noteCorrected_kept ..)
    | with_reducible apply Keeps.trans ?_ (ueRow_kept ..)
    | with_reducible apply mwrite_wf
    | with_reducible apply mwrites_wf
    | with_reducible apply mzero_wf
    | assumption
    | split

theorem stageRead_kept (base : Nat) (l : List (Nat × Nat)) (s : State) : Keeps s (stageRead base l s).2 := by
  induction l generalizing s with
  | nil => unfold stageRead; exact Keeps.refl _
  | cons p t ih =>
    unfold stageRead
    try dsimp only
    repeat' first
      | with_reducible apply Keeps.refl
      | simp only []
      | with_reducible apply Keeps.ite
      | with_reducible apply Keeps.iteSnd
      | with_reducible apply Keeps.trans ?_ (ih ..)
      | with_reducible apply Keeps.trans ?_ (stageBlock_kept ..)
      | with_reducible apply mwrite_wf
      | with_reducible apply mwrites_wf
      | with_reducible apply mzero_wf
      | assumption
      | split
      | (apply Keeps.snd; with_reducible assumption)

theorem stagedImage_kept (s : State) : Keeps s (stagedImage s).2 := by
  unfold stagedImage
  try dsimp only
  repeat' first
    | with_reducible apply Keeps.refl
    | simp only [↓Keeps.mk0, ↓Keeps.mkp, ↓Keeps.mkl, ↓Keeps.mkb]
    | with_reducible apply Keeps.ite
    | with_reducible apply Keeps.iteSnd
    | with_reducible apply Keeps.trans ?_ (stageRead_kept ..)

theorem writePlaced_kept (v : List Byte) (typ : Nat) (s : State) : Keeps s (writePlaced v typ s) := by
  unfold writePlaced
  try dsimp only
  repeat' first
    | with_reducible apply Keeps.refl
    | simp only [↓Keeps.mk0, ↓Keeps.mkp, ↓Keeps.mkl, ↓Keeps.mkb]
    | with_reducible apply Keeps.ite
    | with_reducible apply Keeps.iteSnd
    | with_reducible apply Keeps.trans ?_ (placeBytes_kept ..)
    | (with_reducible apply Keeps.foldS; rotate_left; intro _ _)

theorem writeSections_kept (v : List Byte) (s : State) : Keeps s (writeSections v s) := by
  unfold writeSections
  try dsimp only
  repeat' first
    | with_reducible apply Keeps.refl
    | simp only [↓Keeps.mk0, ↓Keeps.mkp, ↓Keeps.mkl, ↓Keeps.mkb]
    | with_reducible apply Keeps.ite
    | with_reducible apply Keeps.iteSnd
    | with_reducible apply Keeps.trans ?_ (zeroRanges_kept ..)
    | with_reducible apply Keeps.trans ?_ (writePlaced_kept ..)

theorem loadBanks_kept (leg : LegEntry) (s : State) : Keeps s (loadBanks leg s) := by
  unfold loadBanks
  try dsimp only
  repeat' first
    | with_reducible apply Keeps.refl
    | simp only [↓Keeps.mk0, ↓Keeps.mkp, ↓Keeps.mkl, ↓Keeps.mkb]
    | with_reducible apply Keeps.ite
    | with_reducible apply Keeps.iteSnd
    | with_reducible apply Keeps.trans ?_ (updCore_kept ..)
    | with_reducible apply Keeps.trans ?_ (dramRead_kept ..)
    | (with_reducible apply Keeps.foldS; rotate_left; intro _ _)

theorem loadTables_kept (s : State) : Keeps s (loadTables s) := by
  unfold loadTables
  try dsimp only
  repeat' first
    | with_reducible apply Keeps.refl
    | simp only [↓Keeps.mk0]
    | with_reducible apply Keeps.ite
    | with_reducible apply Keeps.iteSnd
    | with_reducible apply Keeps.trans ?_ (dramRead_kept ..)

theorem armBuoys_kept (v : List Byte) (rs : List Rec) (s : State) : Keeps s (armBuoys v rs s) := by
  unfold armBuoys
  try dsimp only
  repeat' first
    | with_reducible apply Keeps.refl
    | simp only [↓Keeps.mk0, ↓Keeps.mkp, ↓Keeps.mkl, ↓Keeps.mkb]
    | with_reducible apply Keeps.ite
    | with_reducible apply Keeps.iteSnd
    | with_reducible apply Keeps.trans ?_ (updCore_kept ..)
    | (with_reducible apply Keeps.foldS; rotate_left; intro _ _)

theorem freshFabric_kept (s : State) : Keeps s (freshFabric s) := by
  unfold freshFabric
  try dsimp only
  repeat' first
    | with_reducible apply Keeps.refl
    | simp only [↓Keeps.mk0]

theorem freshCounters_kept (s : State) : Keeps s (freshCounters s) := by
  unfold freshCounters
  try dsimp only
  repeat' first
    | with_reducible apply Keeps.refl
    | simp only [↓Keeps.mk0]

theorem loadLegs_kept (l : List Nat) (s : State) : Keeps s (loadLegs l s).2 := by
  induction l generalizing s with
  | nil => exact Keeps.refl s
  | cons e t ih =>
    unfold loadLegs
    exact (dramRead_kept ..).trans (ih _)

theorem loadSequencer_kept (l : List Byte) (s : State) : Keeps s (loadSequencer l s) := by
  unfold loadSequencer
  try dsimp only
  repeat' first
    | with_reducible apply Keeps.refl
    | simp only [↓Keeps.mk0]
    | with_reducible apply Keeps.ite
    | with_reducible apply Keeps.iteSnd
    | with_reducible apply Keeps.trans ?_ (loadLegs_kept ..)

theorem armFirst_kept (s : State) : Keeps s (armFirst s) := by
  unfold armFirst
  refine Keeps.ite (Keeps.refl s) ?_
  split
  · rename_i t e
    have h := execLegArmHiWrite_kept s.loader.firstMarkHi { s with seq := { s.seq with armLo := s.loader.firstMarkLo } } t e
    exact ⟨h.1, h.2⟩
  · exact Keeps.refl s

theorem writeImage_kept (l v : List Byte) (rs : List Rec) (s : State) : Keeps s (writeImage l v rs s) := by
  unfold writeImage
  try dsimp only
  repeat' first
    | with_reducible apply Keeps.refl
    | simp only [↓Keeps.mkl]
    | with_reducible apply Keeps.ite
    | with_reducible apply Keeps.iteSnd
    | with_reducible apply Keeps.trans ?_ (writeRec_kept ..)
    | with_reducible apply Keeps.trans ?_ (writeSections_kept ..)
    | with_reducible apply Keeps.trans ?_ (loadBanks_kept ..)
    | with_reducible apply Keeps.trans ?_ (loadTables_kept ..)
    | with_reducible apply Keeps.trans ?_ (armBuoys_kept ..)
    | with_reducible apply Keeps.trans ?_ (freshFabric_kept ..)
    | with_reducible apply Keeps.trans ?_ (freshCounters_kept ..)
    | with_reducible apply Keeps.trans ?_ (loadSequencer_kept ..)
    | with_reducible apply Keeps.trans ?_ (armFirst_kept ..)
    | (with_reducible apply Keeps.foldS; rotate_left; intro _ _)

theorem stopWrite_kept (l v : List Byte) (rs : List Rec) (stepNo : Byte) (off : U64) (s : State) : Keeps s (stopWrite l v rs stepNo off s) := by
  unfold stopWrite
  try dsimp only
  repeat' first
    | with_reducible apply Keeps.refl
    | simp only [↓Keeps.mkl]
    | with_reducible apply Keeps.ite
    | with_reducible apply Keeps.iteSnd
    | with_reducible apply Keeps.trans ?_ (ueRow_kept ..)
    | with_reducible apply Keeps.trans ?_ (writeRec_kept ..)
    | with_reducible apply Keeps.trans ?_ (endLoad_kept ..)
    | with_reducible apply Keeps.trans ?_ (writeSections_kept ..)
    | (with_reducible apply Keeps.foldS; rotate_left; intro _ _)

theorem endCheck_kept (s : State) : Keeps s (endCheck s) := by
  unfold endCheck
  try dsimp only
  repeat' first
    | with_reducible apply Keeps.refl
    | simp only [↓Keeps.mkl]
    | with_reducible apply Keeps.ite
    | with_reducible apply Keeps.iteSnd
    | with_reducible apply Keeps.trans ?_ (endLoad_kept ..)
    | with_reducible apply Keeps.trans ?_ (stagedImage_kept ..)
    | with_reducible apply mwrite_wf
    | with_reducible apply mwrites_wf
    | with_reducible apply mzero_wf
    | assumption
    | split
    | (apply Keeps.snd; with_reducible assumption)

theorem endWrite_kept (stop : Option (Byte × U64)) (s : State) : Keeps s (endWrite stop s) := by
  unfold endWrite
  try dsimp only
  repeat' first
    | with_reducible apply Keeps.refl
    | simp only [↓Keeps.mkl]
    | with_reducible apply Keeps.ite
    | with_reducible apply Keeps.iteSnd
    | with_reducible apply Keeps.trans ?_ (endLoad_kept ..)
    | with_reducible apply Keeps.trans ?_ (stagedImage_kept ..)
    | with_reducible apply Keeps.trans ?_ (writeImage_kept ..)
    | with_reducible apply Keeps.trans ?_ (stopWrite_kept ..)
    | with_reducible apply mwrite_wf
    | with_reducible apply mwrites_wf
    | with_reducible apply mzero_wf
    | assumption
    | split
    | (apply Keeps.snd; with_reducible assumption)

theorem execLoadComplete_kept (stop : Option (Byte × U64)) (s : State) : OutKeeps s (execLoadComplete stop s) := by
  unfold execLoadComplete
  try dsimp only
  repeat' first
    | with_reducible apply Keeps.refl
    | with_reducible apply OutKeeps.next
    | with_reducible apply OutKeeps.refused
    | with_reducible apply OutKeeps.ite
    | simp only [↓Keeps.mk0, ↓Keeps.mkp, ↓Keeps.mkl, ↓Keeps.mkb]
    | with_reducible apply Keeps.ite
    | with_reducible apply Keeps.iteSnd
    | with_reducible apply Keeps.trans ?_ (endCheck_kept ..)
    | with_reducible apply Keeps.trans ?_ (endWrite_kept ..)



theorem updRegs_kept (s : State) (p : Path) (f : PathRegs → PathRegs) : Keeps s (State.updRegs s p f) := by
  unfold State.updRegs
  try dsimp only
  repeat' first
    | with_reducible apply Keeps.refl
    | simp only [↓Keeps.mk0]
    | with_reducible apply Keeps.ite
    | with_reducible apply Keeps.iteSnd
    | with_reducible apply mwrite_wf
    | with_reducible apply mwrites_wf
    | with_reducible apply mzero_wf
    | assumption
    | split

theorem dbgRead_kept (p : Path) (i : Nat) (s : State) : Keeps s (dbgRead p i s).2 := by
  unfold dbgRead
  try dsimp only
  repeat' first
    | with_reducible apply Keeps.refl
    | simp only []
    | with_reducible apply Keeps.ite
    | with_reducible apply Keeps.iteSnd
    | with_reducible apply Keeps.trans ?_ (logErr_kept ..)
    | with_reducible apply Keeps.trans ?_ (updRegs_kept ..)

theorem windowCopy_kept (c : Fin 32) (r : Nat) (s : State) : Keeps s (windowCopy c r s) := by
  unfold windowCopy
  try dsimp only
  repeat' first
    | with_reducible apply Keeps.refl
    | simp only [↓Keeps.mk0, ↓Keeps.mkp, ↓Keeps.mkl, ↓Keeps.mkb]
    | with_reducible apply Keeps.ite
    | with_reducible apply Keeps.iteSnd
    | with_reducible apply Keeps.trans ?_ (updCore_kept ..)
    | with_reducible apply mwrite_wf
    | with_reducible apply mwrites_wf
    | with_reducible apply mzero_wf
    | assumption
    | split

theorem windowStep_kept (c : Fin 32) (r : Nat) (s : State) : Keeps s (windowStep c r s) := by
  unfold windowStep
  try dsimp only
  repeat' first
    | with_reducible apply Keeps.refl
    | simp only [↓Keeps.mk0, ↓Keeps.mkp, ↓Keeps.mkl, ↓Keeps.mkb]
    | with_reducible apply Keeps.ite
    | with_reducible apply Keeps.iteSnd
    | with_reducible apply Keeps.trans ?_ (updCore_kept ..)

theorem regRead_kept (p : Path) (o : Nat) (s : State) : Keeps s (regRead p o s).2 := by
  unfold regRead
  try dsimp only
  repeat' first
    | with_reducible apply Keeps.refl
    | simp only []
    | with_reducible apply Keeps.ite
    | with_reducible apply Keeps.iteSnd
    | with_reducible apply Keeps.trans ?_ (logErr_kept ..)
    | with_reducible apply Keeps.trans ?_ (updRegs_kept ..)
    | with_reducible apply Keeps.trans ?_ (dbgRead_kept ..)
    | with_reducible apply Keeps.trans ?_ (windowCopy_kept ..)
    | with_reducible apply Keeps.trans ?_ (windowStep_kept ..)

theorem linkReset_kept (d3 : Bool) (s : State) : Keeps s (linkReset d3 s) := by
  unfold linkReset
  try dsimp only
  repeat' first
    | with_reducible apply Keeps.refl
    | simp only [↓Keeps.mk0]
    | with_reducible apply Keeps.ite

theorem execPerst_kept (s : State) : OutKeeps s (execPerst s) := by
  unfold execPerst
  try dsimp only
  repeat' first
    | with_reducible apply Keeps.refl
    | with_reducible apply OutKeeps.next
    | with_reducible apply OutKeeps.refused
    | with_reducible apply OutKeeps.ite
    | simp only [↓Keeps.mk0, ↓Keeps.mkp, ↓Keeps.mkl, ↓Keeps.mkb]
    | with_reducible apply Keeps.ite
    | with_reducible apply Keeps.iteSnd
    | with_reducible apply Keeps.trans ?_ (linkReset_kept ..)

theorem execHotReset_kept (s : State) : OutKeeps s (execHotReset s) := by
  unfold execHotReset
  try dsimp only
  repeat' first
    | with_reducible apply Keeps.refl
    | with_reducible apply OutKeeps.next
    | with_reducible apply OutKeeps.refused
    | with_reducible apply OutKeeps.ite
    | simp only [↓Keeps.mk0, ↓Keeps.mkp, ↓Keeps.mkl, ↓Keeps.mkb]
    | with_reducible apply Keeps.ite
    | with_reducible apply Keeps.iteSnd
    | with_reducible apply Keeps.trans ?_ (linkReset_kept ..)

theorem execFunctionLevelReset_kept (s : State) : OutKeeps s (execFunctionLevelReset s) := by
  unfold execFunctionLevelReset
  try dsimp only
  repeat' first
    | with_reducible apply Keeps.refl
    | with_reducible apply OutKeeps.next
    | with_reducible apply OutKeeps.refused
    | with_reducible apply OutKeeps.ite
    | simp only [↓Keeps.mk0, ↓Keeps.mkp, ↓Keeps.mkl, ↓Keeps.mkb]
    | with_reducible apply Keeps.ite
    | with_reducible apply Keeps.iteSnd
    | with_reducible apply Keeps.trans ?_ (linkReset_kept ..)

theorem execPmD3hot_kept (s : State) : OutKeeps s (execPmD3hot s) := by
  unfold execPmD3hot
  try dsimp only
  repeat' first
    | with_reducible apply Keeps.refl
    | with_reducible apply OutKeeps.next
    | with_reducible apply OutKeeps.refused
    | with_reducible apply OutKeeps.ite
    | simp only [↓Keeps.mk0, ↓Keeps.mkp, ↓Keeps.mkl, ↓Keeps.mkb]
    | with_reducible apply Keeps.ite
    | with_reducible apply Keeps.iteSnd
    | with_reducible apply Keeps.trans ?_ (linkReset_kept ..)

theorem execPmD0_kept (s : State) : OutKeeps s (execPmD0 s) := by
  unfold execPmD0
  try dsimp only
  repeat' first
    | with_reducible apply Keeps.refl
    | with_reducible apply OutKeeps.next
    | with_reducible apply OutKeeps.refused
    | with_reducible apply OutKeeps.ite
    | simp only [↓Keeps.mk0]
    | with_reducible apply Keeps.ite

theorem execLinkUp_kept (speed : BitVec 4) (width : BitVec 5) (s : State) : OutKeeps s (execLinkUp speed width s) := by
  unfold execLinkUp
  try dsimp only
  repeat' first
    | with_reducible apply Keeps.refl
    | with_reducible apply OutKeeps.next
    | with_reducible apply OutKeeps.refused
    | with_reducible apply OutKeeps.ite
    | simp only [↓Keeps.mk0]
    | with_reducible apply Keeps.ite

theorem execCoreBankData7Write_kept (core : Fin 32) (v : U32) (s : State) : OutKeeps s (execCoreBankData7Write core v s) := by
  unfold execCoreBankData7Write
  try dsimp only
  repeat' first
    | with_reducible apply Keeps.refl
    | with_reducible apply OutKeeps.next
    | with_reducible apply OutKeeps.refused
    | with_reducible apply OutKeeps.ite
    | simp only [↓Keeps.mk0, ↓Keeps.mkp, ↓Keeps.mkl, ↓Keeps.mkb]
    | with_reducible apply Keeps.ite
    | with_reducible apply Keeps.iteSnd
    | with_reducible apply Keeps.trans ?_ (updCore_kept ..)
    | with_reducible apply Keeps.trans ?_ (logErr_kept ..)

theorem execStreamDescData15Write_kept (core : Fin 32) (v : U32) (s : State) : OutKeeps s (execStreamDescData15Write core v s) := by
  unfold execStreamDescData15Write
  try dsimp only
  repeat' first
    | with_reducible apply Keeps.refl
    | with_reducible apply OutKeeps.next
    | with_reducible apply OutKeeps.refused
    | with_reducible apply OutKeeps.ite
    | simp only [↓Keeps.mk0, ↓Keeps.mkp, ↓Keeps.mkl, ↓Keeps.mkb]
    | with_reducible apply Keeps.ite
    | with_reducible apply Keeps.iteSnd
    | with_reducible apply Keeps.trans ?_ (updCore_kept ..)

theorem execChEpData7Write_kept (core : Fin 32) (v : U32) (s : State) : OutKeeps s (execChEpData7Write core v s) := by
  unfold execChEpData7Write
  try dsimp only
  repeat' first
    | with_reducible apply Keeps.refl
    | with_reducible apply OutKeeps.next
    | with_reducible apply OutKeeps.refused
    | with_reducible apply OutKeeps.ite
    | simp only [↓Keeps.mk0, ↓Keeps.mkp, ↓Keeps.mkl, ↓Keeps.mkb]
    | with_reducible apply Keeps.ite
    | with_reducible apply Keeps.iteSnd
    | with_reducible apply Keeps.trans ?_ (updCore_kept ..)

theorem hostRead__kept (o : Nat) (s : State) : Keeps s (hostRead_ o s) := by
  unfold hostRead_
  try dsimp only
  repeat' first
    | with_reducible apply Keeps.refl
    | simp only [↓Keeps.mk0]
    | with_reducible apply Keeps.ite
    | with_reducible apply Keeps.iteSnd
    | with_reducible apply Keeps.trans ?_ (regRead_kept ..)

theorem execCoreBankData0Read_kept (core : Fin 32) (s : State) : OutKeeps s (execCoreBankData0Read core s) := by
  unfold execCoreBankData0Read
  try dsimp only
  repeat' first
    | with_reducible apply Keeps.refl
    | with_reducible apply OutKeeps.next
    | with_reducible apply OutKeeps.refused
    | with_reducible apply OutKeeps.ite
    | simp only [↓Keeps.mk0, ↓Keeps.mkp, ↓Keeps.mkl, ↓Keeps.mkb]
    | with_reducible apply Keeps.ite
    | with_reducible apply Keeps.iteSnd
    | with_reducible apply Keeps.trans ?_ (hostRead__kept ..)

theorem execCoreBankData7Read_kept (core : Fin 32) (s : State) : OutKeeps s (execCoreBankData7Read core s) := by
  unfold execCoreBankData7Read
  try dsimp only
  repeat' first
    | with_reducible apply Keeps.refl
    | with_reducible apply OutKeeps.next
    | with_reducible apply OutKeeps.refused
    | with_reducible apply OutKeeps.ite
    | simp only [↓Keeps.mk0, ↓Keeps.mkp, ↓Keeps.mkl, ↓Keeps.mkb]
    | with_reducible apply Keeps.ite
    | with_reducible apply Keeps.iteSnd
    | with_reducible apply Keeps.trans ?_ (hostRead__kept ..)

theorem execStreamDescData0Read_kept (core : Fin 32) (s : State) : OutKeeps s (execStreamDescData0Read core s) := by
  unfold execStreamDescData0Read
  try dsimp only
  repeat' first
    | with_reducible apply Keeps.refl
    | with_reducible apply OutKeeps.next
    | with_reducible apply OutKeeps.refused
    | with_reducible apply OutKeeps.ite
    | simp only [↓Keeps.mk0, ↓Keeps.mkp, ↓Keeps.mkl, ↓Keeps.mkb]
    | with_reducible apply Keeps.ite
    | with_reducible apply Keeps.iteSnd
    | with_reducible apply Keeps.trans ?_ (hostRead__kept ..)

theorem execBuoyData0Read_kept (core : Fin 32) (s : State) : OutKeeps s (execBuoyData0Read core s) := by
  unfold execBuoyData0Read
  try dsimp only
  repeat' first
    | with_reducible apply Keeps.refl
    | with_reducible apply OutKeeps.next
    | with_reducible apply OutKeeps.refused
    | with_reducible apply OutKeeps.ite
    | simp only [↓Keeps.mk0, ↓Keeps.mkp, ↓Keeps.mkl, ↓Keeps.mkb]
    | with_reducible apply Keeps.ite
    | with_reducible apply Keeps.iteSnd
    | with_reducible apply Keeps.trans ?_ (hostRead__kept ..)

theorem execBellQueryMaskLoRead_kept (core : Fin 32) (s : State) : OutKeeps s (execBellQueryMaskLoRead core s) := by
  unfold execBellQueryMaskLoRead
  try dsimp only
  repeat' first
    | with_reducible apply Keeps.refl
    | with_reducible apply OutKeeps.next
    | with_reducible apply OutKeeps.refused
    | with_reducible apply OutKeeps.ite
    | simp only [↓Keeps.mk0, ↓Keeps.mkp, ↓Keeps.mkl, ↓Keeps.mkb]
    | with_reducible apply Keeps.ite
    | with_reducible apply Keeps.iteSnd
    | with_reducible apply Keeps.trans ?_ (hostRead__kept ..)

theorem execChEpData0Read_kept (core : Fin 32) (s : State) : OutKeeps s (execChEpData0Read core s) := by
  unfold execChEpData0Read
  try dsimp only
  repeat' first
    | with_reducible apply Keeps.refl
    | with_reducible apply OutKeeps.next
    | with_reducible apply OutKeeps.refused
    | with_reducible apply OutKeeps.ite
    | simp only [↓Keeps.mk0, ↓Keeps.mkp, ↓Keeps.mkl, ↓Keeps.mkb]
    | with_reducible apply Keeps.ite
    | with_reducible apply Keeps.iteSnd
    | with_reducible apply Keeps.trans ?_ (hostRead__kept ..)

theorem pathRead_kept (p : Path) (o : Nat) (s : State) : Keeps s (pathRead p o s) := by
  unfold pathRead
  try dsimp only
  repeat' first
    | with_reducible apply Keeps.refl
    | simp only [↓Keeps.mk0, ↓Keeps.mkp, ↓Keeps.mkl, ↓Keeps.mkb]
    | with_reducible apply Keeps.ite
    | with_reducible apply Keeps.iteSnd
    | with_reducible apply Keeps.trans ?_ (updRegs_kept ..)
    | with_reducible apply Keeps.trans ?_ (regRead_kept ..)
    | with_reducible apply Keeps.trans ?_ (hostRead__kept ..)
    | with_reducible apply mwrite_wf
    | with_reducible apply mwrites_wf
    | with_reducible apply mzero_wf
    | assumption
    | split

theorem execDbgData0Read_kept (path : Path) (s : State) : OutKeeps s (execDbgData0Read path s) := by
  unfold execDbgData0Read
  try dsimp only
  repeat' first
    | with_reducible apply Keeps.refl
    | with_reducible apply OutKeeps.next
    | with_reducible apply OutKeeps.refused
    | with_reducible apply OutKeeps.ite
    | simp only [↓Keeps.mk0, ↓Keeps.mkp, ↓Keeps.mkl, ↓Keeps.mkb]
    | with_reducible apply Keeps.ite
    | with_reducible apply Keeps.iteSnd
    | with_reducible apply Keeps.trans ?_ (pathRead_kept ..)

theorem execDbgData7Read_kept (path : Path) (s : State) : OutKeeps s (execDbgData7Read path s) := by
  unfold execDbgData7Read
  try dsimp only
  repeat' first
    | with_reducible apply Keeps.refl
    | with_reducible apply OutKeeps.next
    | with_reducible apply OutKeeps.refused
    | with_reducible apply OutKeeps.ite
    | simp only [↓Keeps.mk0, ↓Keeps.mkp, ↓Keeps.mkl, ↓Keeps.mkb]
    | with_reducible apply Keeps.ite
    | with_reducible apply Keeps.iteSnd
    | with_reducible apply Keeps.trans ?_ (pathRead_kept ..)

theorem bar0Bad_kept (offset : BitVec 24) (size : Nat) (s : State) : Keeps s (bar0Bad offset size s) := by
  unfold bar0Bad
  try dsimp only
  repeat' first
    | with_reducible apply Keeps.refl
    | simp only [↓Keeps.mk0, ↓Keeps.mkp, ↓Keeps.mkl, ↓Keeps.mkb]
    | with_reducible apply Keeps.ite
    | with_reducible apply Keeps.iteSnd
    | with_reducible apply Keeps.trans ?_ (logErr_kept ..)

theorem execLoPairRead_kept (read : RegRead) (s : State) : OutKeeps s (execLoPairRead read s) := by
  unfold execLoPairRead
  try dsimp only
  repeat' first
    | with_reducible apply Keeps.refl
    | with_reducible apply OutKeeps.next
    | with_reducible apply OutKeeps.refused
    | with_reducible apply OutKeeps.ite
    | simp only [↓Keeps.mk0]
    | with_reducible apply Keeps.ite
    | with_reducible apply Keeps.iteSnd
    | with_reducible apply Keeps.trans ?_ (hostRead__kept ..)
    | with_reducible apply Keeps.trans ?_ (bar0Bad_kept ..)

theorem after_kept {s t : State} {o : Host.Outcome State Fault Refusal} (ho : OutKeeps t o) (ht : Keeps s t) : Keeps s (after o t) := by
  unfold after
  split
  · rename_i u; exact ht.trans (ho u rfl)
  · exact ht

theorem timeWrite_kept (o : Nat) (v : U32) (s : State) : Keeps s (timeWrite o v s) := by
  unfold timeWrite
  try dsimp only
  repeat' first
    | with_reducible apply Keeps.refl
    | simp only [↓Keeps.mk0]
    | with_reducible apply Keeps.ite
    | with_reducible apply Keeps.iteSnd
    | with_reducible apply mwrite_wf
    | with_reducible apply mwrites_wf
    | with_reducible apply mzero_wf
    | assumption
    | split

/-- What every command but the power of the standby supply does to what `keep` lists: the array fuses stay, a blown debug fuse stays
blown, DEBUG_ENABLE is set with an intact fuse only, locked key slots stay, and stack memory stays in canonical form. -/
structure Moves (s t : State) : Prop where
  fuses : t.pwr.fuses = s.pwr.fuses
  blown : t.pwr.debugFuse = true → s.pwr.debugFuse = true
  enable : (s.pwr.debugEnable = true → s.pwr.debugFuse = true) → t.pwr.debugEnable = true → t.pwr.debugFuse = true
  locked : bit s.loader.keyCfg 31 = true → t.loader.keyHash = s.loader.keyHash ∧ t.loader.keyCfg = s.loader.keyCfg
  mem : Memory.wf s.dram = true → Memory.wf t.dram = true

theorem Keeps.moves {s t : State} (h : Keeps s t) : Moves s t := by
  obtain ⟨k, m⟩ := h
  simp only [keep, Prod.mk.injEq] at k
  obtain ⟨a, b, c, d, e⟩ := k
  exact ⟨c, fun h => a ▸ h, fun h g => a.trans (h (b ▸ g)), fun _ => ⟨d, e⟩, m⟩

theorem Keeps.seq (s : State) (q : Sequencer) : Keeps s { s with seq := q } := ⟨rfl, id⟩

theorem Keeps.pwr (s : State) (p : Power) (h : (p.debugFuse, p.debugEnable, p.fuses) = (s.pwr.debugFuse, s.pwr.debugEnable, s.pwr.fuses)) :
    Keeps s { s with pwr := p } := by
  simp only [Prod.mk.injEq] at h
  refine ⟨?_, id⟩
  simp only [keep, h]

theorem Moves.refl (s : State) : Moves s s := (Keeps.refl s).moves

theorem Moves.trans {s t u : State} (h : Moves s t) (k : Moves t u) : Moves s u :=
  ⟨k.fuses.trans h.fuses, fun a => h.blown (k.blown a), fun a => k.enable (h.enable a),
    fun a => by
      obtain ⟨b, c⟩ := h.locked a
      obtain ⟨d, e⟩ := k.locked (c ▸ a)
      exact ⟨d.trans b, e.trans c⟩,
    fun a => k.mem (h.mem a)⟩

theorem Moves.ite {s : State} {P : Prop} [Decidable P] {a b : State} (ha : Moves s a) (hb : Moves s b) :
    Moves s (if P then a else b) := by
  split <;> assumption

theorem Moves.after {s t : State} {o : Host.Outcome State Fault Refusal} (ho : ∀ u, o = .next u → Moves t u) (ht : Moves s t) :
    Moves s (after o t) := by
  unfold Machine.after
  split
  · rename_i u; exact ht.trans (ho u rfl)
  · exact ht

theorem setBit_same {n : Nat} (w : BitVec n) (i : Nat) (h : bit w i = true) : setBit w i true = w := by
  apply BitVec.eq_of_getLsbD_eq
  intro j hj
  simp only [bit] at h
  have hi : i < n := BitVec.lt_of_getLsbD h
  rcases Nat.lt_trichotomy j i with hji | rfl | hji
  · simp [setBit, setBits, hj, hji]
  · simp [setBit, setBits, hj, h]
  · have h3 : ¬ j < i := by omega
    have h4 : j - i ≠ 0 := by omega
    simp [setBit, setBits, hj, h3, h4]

theorem execKeyLock_moves {s t : State} (h : execKeyLock s = .next t) : Moves s t := by
  unfold execKeyLock at h
  split at h <;> cases h
  · exact ⟨rfl, id, id, fun a => ⟨rfl, setBit_same _ _ a⟩, id⟩
  · exact Moves.refl _

theorem execDebugEnable_moves {on : Bool} {s t : State} (h : execDebugEnable on s = .next t) : Moves s t := by
  unfold execDebugEnable at h
  repeat' split at h
  all_goals cases h
  · exact ⟨rfl, id, fun _ a => (nomatch a), fun _ => ⟨rfl, rfl⟩, id⟩
  · rename_i a
    exact ⟨rfl, id, fun _ _ => a.1, fun _ => ⟨rfl, rfl⟩, id⟩
  · exact Moves.refl _

theorem execBlowFuse_moves {s t : State} (h : execBlowFuse s = .next t) : Moves s t := by
  unfold execBlowFuse at h
  split at h <;> cases h
  · exact ⟨rfl, fun a => (nomatch a), fun _ a => (nomatch a), fun _ => ⟨rfl, rfl⟩, id⟩
  · exact Moves.refl _

theorem loaderWrite_locked (o : Nat) (v : U32) (l : Loader) (h : bit l.keyCfg 31 = true) :
    (loaderWrite o v l).keyHash = l.keyHash ∧ (loaderWrite o v l).keyCfg = l.keyCfg := by
  unfold loaderWrite
  repeat' split
  all_goals first
    | exact ⟨rfl, rfl⟩

theorem seqWrite_moves (o : Nat) (v : U32) (s : State) : Moves s (seqWrite o v s) := by
  have hq : ∀ q, Moves s { s with seq := q } := fun q => (Keeps.seq s q).moves
  have hl : Moves s { s with loader := loaderWrite o v s.loader } :=
    ⟨rfl, id, id, fun a => loaderWrite_locked o v s.loader a, id⟩
  unfold seqWrite
  split
  · exact Moves.ite (hq _) (Moves.refl s)
  · exact Moves.ite (hq _) (Moves.refl s)
  · exact Moves.ite (hq _) (Moves.refl s)
  · exact Moves.ite (hq _) (Moves.refl s)
  · exact hq _
  · exact (after_kept (execLegArmHiWrite_kept _ _) (Keeps.refl s)).moves
  · exact Moves.ite (after_kept (execImageLoad_kept s) (Keeps.refl s)).moves (Moves.refl s)
  · exact Moves.ite (Moves.ite (Moves.after (fun u e => execKeyLock_moves e) hl) hl) (Moves.refl s)

theorem coreWrite_kept (c : Fin 32) (o : Nat) (v : U32) (s : State) : Keeps s (coreWrite c o v s) := by
  unfold coreWrite
  try dsimp only
  repeat' first
    | with_reducible apply Keeps.refl
    | simp only [↓Keeps.mk0, ↓Keeps.mkp, ↓Keeps.mkl, ↓Keeps.mkb]
    | with_reducible apply Keeps.ite
    | with_reducible apply Keeps.iteSnd
    | with_reducible apply after_kept
    | with_reducible apply Keeps.trans ?_ (updCore_kept ..)
    | with_reducible apply execCoreBankData7Write_kept
    | with_reducible apply execStreamDescData15Write_kept
    | with_reducible apply execChEpData7Write_kept

theorem stackWrite_kept (o : Nat) (v : U32) (s : State) : Keeps s (stackWrite o v s) := by
  unfold stackWrite
  try dsimp only
  repeat' first
    | with_reducible apply Keeps.refl
    | simp only [↓Keeps.mk0]
    | with_reducible apply Keeps.ite
    | with_reducible apply Keeps.iteSnd
    | with_reducible apply Keeps.trans ?_ (checkService_kept ..)
    | with_reducible apply mwrite_wf
    | with_reducible apply mwrites_wf
    | with_reducible apply mzero_wf
    | assumption
    | split

theorem fabWrite_kept (o : Nat) (v : U32) (s : State) : Keeps s (fabWrite o v s) := by
  unfold fabWrite
  try dsimp only
  repeat' first
    | with_reducible apply Keeps.refl
    | simp only [↓Keeps.mk0]
    | with_reducible apply Keeps.ite
    | with_reducible apply Keeps.iteSnd
    | with_reducible apply after_kept
    | with_reducible apply Keeps.trans ?_ (updPort_kept ..)
    | with_reducible apply execRetrain_kept
    | with_reducible apply execFabWinCloseWrite_kept
    | with_reducible apply mwrite_wf
    | with_reducible apply mwrites_wf
    | with_reducible apply mzero_wf
    | assumption
    | split

theorem hostWrite_kept (o : Nat) (v : U32) (s : State) : Keeps s (hostWrite o v s) := by
  unfold hostWrite
  try dsimp only
  repeat' first
    | with_reducible apply Keeps.refl
    | simp only [↓Keeps.mk0]
    | with_reducible apply Keeps.ite
    | with_reducible apply Keeps.iteSnd
    | with_reducible apply after_kept
    | with_reducible apply execMoorOpen_kept
    | with_reducible apply execMoorClose_kept
    | with_reducible apply execMoorRelay_kept
    | with_reducible apply execIlogTailHiWrite_kept
    | with_reducible apply execIlogHeadSetWrite_kept
    | with_reducible apply mwrite_wf
    | with_reducible apply mwrites_wf
    | with_reducible apply mzero_wf
    | assumption
    | split

theorem pwrCtrl_kept (p : Path) (v : U32) (s : State) : Keeps s (pwrCtrl p v s) := by
  unfold pwrCtrl
  try dsimp only
  repeat' first
    | with_reducible apply Keeps.refl
    | simp only [↓Keeps.mk0, ↓Keeps.mkp, ↓Keeps.mkl, ↓Keeps.mkb]
    | with_reducible apply Keeps.ite
    | with_reducible apply Keeps.iteSnd
    | with_reducible apply after_kept
    | with_reducible apply execKill_kept
    | with_reducible apply execScrub_kept
    | with_reducible apply execPowerOff_kept
    | with_reducible apply execPowerOn_kept
    | with_reducible apply execSuspend_kept
    | with_reducible apply execResume_kept
    | with_reducible apply execServiceClear_kept
    | with_reducible apply mwrite_wf
    | with_reducible apply mwrites_wf
    | with_reducible apply mzero_wf
    | assumption
    | split

theorem pwrWrite_moves (p : Path) (o : Nat) (v : U32) (s : State) : Moves s (pwrWrite p o v s) := by
  have hd : Moves s (after (execDebugEnable (bit v 1) s) s) := Moves.after (fun u e => execDebugEnable_moves e) (Moves.refl s)
  unfold pwrWrite
  split
  · refine Moves.ite (Keeps.moves (Keeps.pwr s _ (by rfl))) (Moves.refl s)
  · exact (pwrCtrl_kept ..).moves
  · exact Keeps.moves (Keeps.pwr s _ (by rfl))
  · refine Moves.ite (Keeps.moves (Keeps.trans (Keeps.pwr s _ (by rfl)) (checkService_kept _))) (Moves.refl s)
  · exact Moves.ite (Moves.after (fun u e => execBlowFuse_moves e) hd) hd
  all_goals exact Keeps.moves (Keeps.pwr s _ (by rfl))

theorem clkWrite_kept (o : Nat) (v : U32) (s : State) : Keeps s (clkWrite o v s) := by
  unfold clkWrite
  try dsimp only
  repeat' first
    | with_reducible apply Keeps.refl
    | simp only [↓Keeps.mk0]
    | with_reducible apply Keeps.ite
    | with_reducible apply Keeps.iteSnd
    | with_reducible apply mwrite_wf
    | with_reducible apply mwrites_wf
    | with_reducible apply mzero_wf
    | assumption
    | split

theorem errWrite_kept (p : Path) (o : Nat) (v : U32) (s : State) : Keeps s (errWrite p o v s) := by
  unfold errWrite
  try dsimp only
  repeat' first
    | with_reducible apply Keeps.refl
    | simp only [↓Keeps.mk0]
    | with_reducible apply Keeps.ite
    | with_reducible apply Keeps.iteSnd
    | with_reducible apply Keeps.trans ?_ (updRegs_kept ..)
    | with_reducible apply mwrite_wf
    | with_reducible apply mwrites_wf
    | with_reducible apply mzero_wf
    | assumption
    | split

theorem regWrite_moves (p : Path) (o : Nat) (v : U32) (s : State) : Moves s (regWrite p o v s) := by
  unfold regWrite
  refine Moves.ite (Moves.refl s) (Moves.ite (timeWrite_kept ..).moves (Moves.ite (seqWrite_moves ..) (Moves.ite (coreWrite_kept ..).moves
    (Moves.ite (stackWrite_kept ..).moves (Moves.ite (fabWrite_kept ..).moves (Moves.ite (hostWrite_kept ..).moves
    (Moves.ite (after_kept (execDoorbell_kept _ _ _) (Keeps.refl s)).moves (Moves.ite (pwrWrite_moves ..) (Moves.ite (clkWrite_kept ..).moves
    (Moves.ite (errWrite_kept ..).moves (Moves.refl s)))))))))))

theorem execRegisterWrite_moves {offset : BitVec 24} {size : Nat} {v : U32} {s t : State} (h : execRegisterWrite offset size v s = .next t) :
    Moves s t := by
  cases h
  exact Moves.ite (regWrite_moves ..) (Moves.ite (logErr_kept ..).moves (Moves.refl s))

theorem answerReads_kept (n : Nat) (s : State) : Keeps s (answerReads n s) := by
  induction n generalizing s with
  | zero => exact Keeps.refl s
  | succ n ih =>
    unfold answerReads
    split
    · refine Keeps.ite (Keeps.trans ?_ (ih _)) (Keeps.refl s)
      exact ⟨rfl, id⟩
    · exact Keeps.refl s

theorem hostReads_kept (s : State) : Keeps s (hostReads s) := by
  unfold hostReads
  try dsimp only
  repeat' first
    | with_reducible apply Keeps.refl
    | simp only [↓Keeps.mk0, ↓Keeps.mkp, ↓Keeps.mkl, ↓Keeps.mkb]
    | with_reducible apply Keeps.ite
    | with_reducible apply Keeps.iteSnd
    | with_reducible apply Keeps.trans ?_ (answerReads_kept ..)

theorem onesRead_kept (n : Nat) (s : State) : Keeps s (onesRead n s) := by
  unfold onesRead
  try dsimp only
  repeat' first
    | with_reducible apply Keeps.refl
    | simp only [↓Keeps.mk0]

theorem execBar2Read_kept (offset : BitVec 36) (len : Nat) (s : State) : OutKeeps s (execBar2Read offset len s) := by
  unfold execBar2Read
  try dsimp only
  repeat' first
    | with_reducible apply Keeps.refl
    | with_reducible apply OutKeeps.next
    | with_reducible apply OutKeeps.refused
    | with_reducible apply OutKeeps.ite
    | simp only [↓Keeps.mk0, ↓Keeps.mkp, ↓Keeps.mkl, ↓Keeps.mkb]
    | with_reducible apply Keeps.ite
    | with_reducible apply Keeps.iteSnd
    | with_reducible apply Keeps.trans ?_ (logErr_kept ..)
    | with_reducible apply Keeps.trans ?_ (startJob_kept ..)
    | with_reducible apply Keeps.trans ?_ (hostReads_kept ..)
    | with_reducible apply Keeps.trans ?_ (onesRead_kept ..)
    | with_reducible apply mwrite_wf
    | with_reducible apply mwrites_wf
    | with_reducible apply mzero_wf
    | assumption
    | split

theorem touchStaged_kept (space off n : Nat) (s : State) : Keeps s (touchStaged space off n s) := by
  unfold touchStaged
  try dsimp only
  repeat' first
    | with_reducible apply Keeps.refl
    | simp only [↓Keeps.mkl]
    | with_reducible apply Keeps.ite

theorem execBar2Write_kept (offset : BitVec 36) (data : List Byte) (s : State) : OutKeeps s (execBar2Write offset data s) := by
  unfold execBar2Write
  try dsimp only
  repeat' first
    | with_reducible apply Keeps.refl
    | with_reducible apply OutKeeps.next
    | with_reducible apply OutKeeps.refused
    | with_reducible apply OutKeeps.ite
    | simp only [↓Keeps.mk0]
    | with_reducible apply Keeps.ite
    | with_reducible apply Keeps.iteSnd
    | with_reducible apply Keeps.trans ?_ (logErr_kept ..)
    | with_reducible apply Keeps.trans ?_ (rangeWrite_kept ..)
    | with_reducible apply Keeps.trans ?_ (ingressWork_kept ..)
    | with_reducible apply Keeps.trans ?_ (hostWrite_kept ..)
    | with_reducible apply Keeps.trans ?_ (touchStaged_kept ..)
    | with_reducible apply mwrite_wf
    | with_reducible apply mwrites_wf
    | with_reducible apply mzero_wf
    | assumption
    | split

theorem execSmbusBlockWrite_moves {offset : BitVec 24} {v : U32} {s t : State} (h : execSmbusBlockWrite offset v s = .next t) :
    Moves s t := by
  cases h
  exact Moves.ite (regWrite_moves ..) (Moves.refl s)

theorem execSmbusProcessCall_kept (offset : BitVec 24) (s : State) : OutKeeps s (execSmbusProcessCall offset s) := by
  unfold execSmbusProcessCall
  try dsimp only
  repeat' first
    | with_reducible apply Keeps.refl
    | with_reducible apply OutKeeps.next
    | with_reducible apply OutKeeps.refused
    | with_reducible apply OutKeeps.ite
    | simp only [↓Keeps.mk0, ↓Keeps.mkp, ↓Keeps.mkl, ↓Keeps.mkb]
    | with_reducible apply Keeps.ite
    | with_reducible apply Keeps.iteSnd
    | with_reducible apply Keeps.trans ?_ (updRegs_kept ..)
    | with_reducible apply Keeps.trans ?_ (pathRead_kept ..)

theorem execJtagBypass_kept (s : State) : OutKeeps s (execJtagBypass s) := by
  unfold execJtagBypass
  try dsimp only
  repeat' first
    | with_reducible apply Keeps.refl
    | with_reducible apply OutKeeps.next
    | with_reducible apply OutKeeps.refused
    | with_reducible apply OutKeeps.ite
    | simp only [↓Keeps.mk0]

theorem execJtagIdcode_kept (s : State) : OutKeeps s (execJtagIdcode s) := by
  unfold execJtagIdcode
  try dsimp only
  repeat' first
    | with_reducible apply Keeps.refl
    | with_reducible apply OutKeeps.next
    | with_reducible apply OutKeeps.refused
    | with_reducible apply OutKeeps.ite
    | simp only [↓Keeps.mk0]

theorem execJtagSamplePreload_kept (pins : U64) (s : State) : OutKeeps s (execJtagSamplePreload pins s) := by
  unfold execJtagSamplePreload
  try dsimp only
  repeat' first
    | with_reducible apply Keeps.refl
    | with_reducible apply OutKeeps.next
    | with_reducible apply OutKeeps.refused
    | with_reducible apply OutKeeps.ite
    | simp only [↓Keeps.mk0]

theorem execJtagExtest_kept (pins : U64) (s : State) : OutKeeps s (execJtagExtest pins s) := by
  unfold execJtagExtest
  try dsimp only
  repeat' first
    | with_reducible apply Keeps.refl
    | with_reducible apply OutKeeps.next
    | with_reducible apply OutKeeps.refused
    | with_reducible apply OutKeeps.ite
    | simp only [↓Keeps.mk0]

/-- A command but the standby supply's coming or going. -/
def Instr.notStandby (i : Instr) : Prop := i ≠ .standbyPowerOn ∧ i ≠ .standbyPowerLoss

/-- A command that can move none of the kept fields: not the standby supply's, no register write, no lock, fuse or debug command. -/
def Instr.plain (i : Instr) : Bool :=
  match i with
  | .standbyPowerOn | .standbyPowerLoss | .registerWrite _ _ _ | .keyLock | .debugEnable _ | .blowFuse | .smbusBlockWrite _ _ => false
  | _ => true

theorem exec_keeps {i : Instr} {s t : State} (h : Instr.plain i = true) (e : exec i s = .next t) : Keeps s t := by
  cases i with
  | standbyPowerOn => cases h
  | standbyPowerLoss => cases h
  | oscillatorStable => exact execOscillatorStable_kept s t e
  | mainInputStable mv => exact execMainInputStable_kept mv s t e
  | bringupPhaseDone failed => exact execBringupPhaseDone_kept failed s t e
  | mainInputLoss => exact execMainInputLoss_kept s t e
  | tierEntry tier mv fast => exact execTierEntry_kept tier mv fast s t e
  | tierLeave tier leave1 => exact execTierLeave_kept tier leave1 s t e
  | ppsInEdge => exact execPpsInEdge_kept s t e
  | refLoss pps => exact execRefLoss_kept pps s t e
  | refReturn pps => exact execRefReturn_kept pps s t e
  | ppsOutRise => exact execPpsOutRise_kept s t e
  | ppsOutFall => exact execPpsOutFall_kept s t e
  | beaconTime port msg => exact execBeaconTime_kept port msg s t e
  | parentSilent => exact execParentSilent_kept s t e
  | standbyRootTakeover => exact execStandbyRootTakeover_kept s t e
  | rootChange port msg => exact execRootChange_kept port msg s t e
  | holdover => exact execHoldover_kept s t e
  | holdoverLimit => exact execHoldoverLimit_kept s t e
  | parentReturn backup => exact execParentReturn_kept backup s t e
  | soundMsg port msg => exact execSoundMsg_kept port msg s t e
  | soundingComplete port up u primarySum backupSum => exact execSoundingComplete_kept port up u primarySum backupSum s t e
  | acquireComplete => exact execAcquireComplete_kept s t e
  | legArmHiWrite v => exact execLegArmHiWrite_kept v s t e
  | mark => exact execMark_kept s t e
  | helmLoadDone core => exact execHelmLoadDone_kept core s t e
  | legComplete => exact execLegComplete_kept s t e
  | horizonCheck => exact execHorizonCheck_kept s t e
  | slipMsg port msg => exact execSlipMsg_kept port msg s t e
  | droopTrip region => exact execDroopTrip_kept region s t e
  | stretchFollow => exact execStretchFollow_kept s t e
  | freqStepApply => exact execFreqStepApply_kept s t e
  | freqStepUp => exact execFreqStepUp_kept s t e
  | regionTempReading temps => exact execRegionTempReading_kept temps s t e
  | tripLockoutEnd => exact execTripLockoutEnd_kept s t e
  | lookout core w issue => exact execLookout_kept core w issue s t e
  | lanternRelease => exact execLanternRelease_kept s t e
  | holdTimeout => exact execHoldTimeout_kept s t e
  | nop core w => exact execNop_kept core w s t e
  | predSet core w => exact execPredSet_kept core w s t e
  | predLogic core w => exact execPredLogic_kept core w s t e
  | testSync core w => exact execTestSync_kept core w s t e
  | statLoad core w => exact execStatLoad_kept core w s t e
  | statLoadComplete core array => exact execStatLoadComplete_kept core array s t e
  | statSwap core w => exact execStatSwap_kept core w s t e
  | passN core w => exact execPassN_kept core w s t e
  | passT core w => exact execPassT_kept core w s t e
  | passNDirect core w => exact execPassNDirect_kept core w s t e
  | passDone core array => exact execPassDone_kept core array s t e
  | acbFill core w => exact execAcbFill_kept core w s t e
  | acbFillComplete core array => exact execAcbFillComplete_kept core array s t e
  | elasticSliceDue core array group => exact execElasticSliceDue_kept core array group s t e
  | directRowPresent core array => exact execDirectRowPresent_kept core array s t e
  | chain core w => exact execChain_kept core w s t e
  | reduce core w => exact execReduce_kept core w s t e
  | tileMove core w => exact execTileMove_kept core w s t e
  | vectorComplete core => exact execVectorComplete_kept core s t e
  | streamArm core w => exact execStreamArm_kept core w s t e
  | streamHand core w => exact execStreamHand_kept core w s t e
  | storeHandComplete core engine => exact execStoreHandComplete_kept core engine s t e
  | streamRearm core w => exact execStreamRearm_kept core w s t e
  | streamStop core w => exact execStreamStop_kept core w s t e
  | leadStart core engine => exact execLeadStart_kept core engine s t e
  | fillAccess core bank => exact execFillAccess_kept core bank s t e
  | loadElementComplete core desc => exact execLoadElementComplete_kept core desc s t e
  | storeElementComplete core desc => exact execStoreElementComplete_kept core desc s t e
  | turn core w => exact execTurn_kept core w s t e
  | turnComplete core => exact execTurnComplete_kept core s t e
  | chSend core w => exact execChSend_kept core w s t e
  | chSendComplete core => exact execChSendComplete_kept core s t e
  | chRelease core w => exact execChRelease_kept core w s t e
  | chClose core w => exact execChClose_kept core w s t e
  | bellOp core w => exact execBellOp_kept core w s t e
  | buoyArm core w => exact execBuoyArm_kept core w s t e
  | buoyDisarm core w => exact execBuoyDisarm_kept core w s t e
  | bellTest core w => exact execBellTest_kept core w s t e
  | bellAdd src => exact execBellAdd_kept src s t e
  | bellSet src => exact execBellSet_kept src s t e
  | bellMax src => exact execBellMax_kept src s t e
  | bellRead src => exact execBellRead_kept src s t e
  | readValueLanding core => exact execReadValueLanding_kept core s t e
  | buoyRegistration core buoy => exact execBuoyRegistration_kept core buoy s t e
  | buoyValueArrival core buoy => exact execBuoyValueArrival_kept core buoy s t e
  | channelMessageLanded core ep => exact execChannelMessageLanded_kept core ep s t e
  | creditReturnArrival core ep => exact execCreditReturnArrival_kept core ep s t e
  | stackRequestArrival way => exact execStackRequestArrival_kept way s t e
  | stackRequestService stack pc errors => exact execStackRequestService_kept stack pc errors s t e
  | tideStart stack => exact execTideStart_kept stack s t e
  | tideEnd stack => exact execTideEnd_kept stack s t e
  | doublingTideStart stack => exact execDoublingTideStart_kept stack s t e
  | stackTempReading stack temps => exact execStackTempReading_kept stack temps s t e
  | rowSparing stack => exact execRowSparing_kept stack s t e
  | peerSignalDetect port lanes => exact execPeerSignalDetect_kept port lanes s t e
  | trainDone port trained => exact execTrainDone_kept port trained s t e
  | alignDone port locked peerModule peerPort => exact execAlignDone_kept port locked peerModule peerPort s t e
  | lockLoss port => exact execLockLoss_kept port s t e
  | retrain port => exact execRetrain_kept port s t e
  | laneFail port lane => exact execLaneFail_kept port lane s t e
  | spareTakeoverRequest port lane => exact execSpareTakeoverRequest_kept port lane s t e
  | spareLaneSwitch port => exact execSpareLaneSwitch_kept port s t e
  | spareTakeoverAck port => exact execSpareTakeoverAck_kept port s t e
  | codewordReceive port cw => exact execCodewordReceive_kept port cw s t e
  | nackReceive port index => exact execNackReceive_kept port index s t e
  | flitCopyExpire port => exact execFlitCopyExpire_kept port s t e
  | retryWaitExpire port => exact execRetryWaitExpire_kept port s t e
  | launchSlot port => exact execLaunchSlot_kept port s t e
  | transitSlot port => exact execTransitSlot_kept port s t e
  | retrySlot port => exact execRetrySlot_kept port s t e
  | freeSlot port => exact execFreeSlot_kept port s t e
  | flitPresent port => exact execFlitPresent_kept port s t e
  | c1Write f => exact execC1Write_kept f s t e
  | c1WriteWithAccept f => exact execC1WriteWithAccept_kept f s t e
  | c1ReadRequest f => exact execC1ReadRequest_kept f s t e
  | c1ReadResponse f => exact execC1ReadResponse_kept f s t e
  | c1BellOperation f => exact execC1BellOperation_kept f s t e
  | c1ChannelMessage f => exact execC1ChannelMessage_kept f s t e
  | haltMsg port msg => exact execHaltMsg_kept port msg s t e
  | statusMsg port msg => exact execStatusMsg_kept port msg s t e
  | creditMsg port msg => exact execCreditMsg_kept port msg s t e
  | creditDrop port msg => exact execCreditDrop_kept port msg s t e
  | expressBell port msg => exact execExpressBell_kept port msg s t e
  | windowNack port msg => exact execWindowNack_kept port msg s t e
  | acceptMsg port msg => exact execAcceptMsg_kept port msg s t e
  | c2FlitReceive port f => exact execC2FlitReceive_kept port f s t e
  | c2ResendTimeout port => exact execC2ResendTimeout_kept port s t e
  | drainEnd => exact execDrainEnd_kept s t e
  | tableCopyDone => exact execTableCopyDone_kept s t e
  | fabWinCloseWrite v => exact execFabWinCloseWrite_kept v s t e
  | perst => exact execPerst_kept s t e
  | hotReset => exact execHotReset_kept s t e
  | functionLevelReset => exact execFunctionLevelReset_kept s t e
  | pmD3hot => exact execPmD3hot_kept s t e
  | registerWrite => cases h
  | loPairRead read => exact execLoPairRead_kept read s t e
  | bar2Read offset len => exact execBar2Read_kept offset len s t e
  | bar2Write offset data => exact execBar2Write_kept offset data s t e
  | moorOpen => exact execMoorOpen_kept s t e
  | moorClose => exact execMoorClose_kept s t e
  | doorbell session v => exact execDoorbell_kept session v s t e
  | moorRelay => exact execMoorRelay_kept s t e
  | relayedDoorbell session source bytes => exact execRelayedDoorbell_kept session source bytes s t e
  | relayStall session source => exact execRelayStall_kept session source s t e
  | musterWrite => exact execMusterWrite_kept s t e
  | ilogTailHiWrite v => exact execIlogTailHiWrite_kept v s t e
  | ilogHeadSetWrite v => exact execIlogHeadSetWrite_kept v s t e
  | coreBankData0Read core => exact execCoreBankData0Read_kept core s t e
  | coreBankData7Read core => exact execCoreBankData7Read_kept core s t e
  | coreBankData7Write core v => exact execCoreBankData7Write_kept core v s t e
  | streamDescData0Read core => exact execStreamDescData0Read_kept core s t e
  | streamDescData15Write core v => exact execStreamDescData15Write_kept core v s t e
  | buoyData0Read core => exact execBuoyData0Read_kept core s t e
  | bellQueryMaskLoRead core => exact execBellQueryMaskLoRead_kept core s t e
  | chEpData0Read core => exact execChEpData0Read_kept core s t e
  | chEpData7Write core v => exact execChEpData7Write_kept core v s t e
  | dbgData0Read path => exact execDbgData0Read_kept path s t e
  | dbgData7Read path => exact execDbgData7Read_kept path s t e
  | imageLoad => exact execImageLoad_kept s t e
  | loadComplete stop => exact execLoadComplete_kept stop s t e
  | keyLock => cases h
  | kill source retain => exact execKill_kept source retain s t e
  | scrub => exact execScrub_kept s t e
  | windowTableEmpty => exact execWindowTableEmpty_kept s t e
  | scrubDone => exact execScrubDone_kept s t e
  | suspend => exact execSuspend_kept s t e
  | suspendSnapshot => exact execSuspendSnapshot_kept s t e
  | resume => exact execResume_kept s t e
  | powerOn => exact execPowerOn_kept s t e
  | powerOff => exact execPowerOff_kept s t e
  | serviceClear => exact execServiceClear_kept s t e
  | debugEnable => cases h
  | blowFuse => cases h
  | smbusBlockWrite => cases h
  | smbusProcessCall offset => exact execSmbusProcessCall_kept offset s t e
  | jtagBypass => exact execJtagBypass_kept s t e
  | jtagIdcode => exact execJtagIdcode_kept s t e
  | jtagSamplePreload pins => exact execJtagSamplePreload_kept pins s t e
  | jtagExtest pins => exact execJtagExtest_kept pins s t e
  | linkUp speed width => exact execLinkUp_kept speed width s t e
  | pmD0 => exact execPmD0_kept s t e

theorem exec_moves {i : Instr} {s t : State} (h : Instr.notStandby i) (e : exec i s = .next t) : Moves s t := by
  by_cases p : Instr.plain i = true
  · exact (exec_keeps p e).moves
  · cases i with
    | standbyPowerOn => exact absurd rfl h.1
    | standbyPowerLoss => exact absurd rfl h.2
    | registerWrite => exact execRegisterWrite_moves e
    | keyLock => exact execKeyLock_moves e
    | debugEnable => exact execDebugEnable_moves e
    | blowFuse => exact execBlowFuse_moves e
    | smbusBlockWrite => exact execSmbusBlockWrite_moves e
    | _ => exact absurd rfl p

end Sys2Proof.Machine
end

