-- ==== Sys2Proof/Laws/KeepsE.lean ====
section
/-! SUPPORT. What every operation of the model keeps: the fuses, the key slots and the canonical form of memory (the tick and the step). -/

namespace Sys2Proof.Machine

theorem enqueue_kept (l : List Instr) (s : State) : Keeps s (enqueue l s) := by
  unfold enqueue
  try dsimp only
  repeat' first
    | with_reducible apply Keeps.refl
    | simp only [↓Keeps.mk0]

theorem maskHolds_kept (c : Fin 32) (s : State) : Keeps s (maskHolds c s) := by
  unfold maskHolds
  try dsimp only
  repeat' first
    | with_reducible apply Keeps.refl
    | simp only [↓Keeps.mk0, ↓Keeps.mkp, ↓Keeps.mkl, ↓Keeps.mkb]
    | with_reducible apply Keeps.ite
    | with_reducible apply Keeps.iteSnd
    | with_reducible apply Keeps.trans ?_ (holdCause_kept ..)
    | (with_reducible apply Keeps.foldS; rotate_left; intro _ _)
    | with_reducible apply mwrite_wf
    | with_reducible apply mwrites_wf
    | with_reducible apply mzero_wf
    | assumption
    | split

theorem entryHolds_kept (c : Fin 32) (s : State) : Keeps s (entryHolds c s) := by
  unfold entryHolds
  try dsimp only
  repeat' first
    | with_reducible apply Keeps.refl
    | simp only [↓Keeps.mk0, ↓Keeps.mkp, ↓Keeps.mkl, ↓Keeps.mkb]
    | with_reducible apply Keeps.ite
    | with_reducible apply Keeps.iteSnd
    | with_reducible apply Keeps.trans ?_ (holdCause_kept ..)
    | (with_reducible apply Keeps.foldS; rotate_left; intro _ _)

theorem unitsGoOn_kept (s : State) : Keeps s (unitsGoOn s) := by
  unfold unitsGoOn
  try dsimp only
  repeat' first
    | with_reducible apply Keeps.refl
    | simp only [↓Keeps.mk0, ↓Keeps.mkp, ↓Keeps.mkl, ↓Keeps.mkb]
    | with_reducible apply Keeps.ite
    | with_reducible apply Keeps.iteSnd
    | with_reducible apply Keeps.trans ?_ (ingressWork_kept ..)
    | with_reducible apply Keeps.trans ?_ (startHelm_kept ..)
    | with_reducible apply Keeps.trans ?_ (fabricWork_kept ..)
    | with_reducible apply Keeps.trans ?_ (startCopy_kept ..)
    | with_reducible apply Keeps.trans ?_ (hostReads_kept ..)
    | (with_reducible apply Keeps.foldS; rotate_left; intro _ _)

theorem samplePhase_kept (s : State) : Keeps s (samplePhase s) := by
  unfold samplePhase
  try dsimp only
  repeat' first
    | with_reducible apply Keeps.refl
    | simp only [↓Keeps.mk0]
    | with_reducible apply Keeps.ite
    | with_reducible apply Keeps.iteSnd
    | with_reducible apply Keeps.trans ?_ (deliverMesh_kept ..)
    | with_reducible apply Keeps.trans ?_ (enqueue_kept ..)
    | with_reducible apply Keeps.trans ?_ (maskHolds_kept ..)
    | with_reducible apply Keeps.trans ?_ (entryHolds_kept ..)
    | with_reducible apply Keeps.trans ?_ (unitsGoOn_kept ..)
    | (with_reducible apply Keeps.foldS; rotate_left; intro _ _)

theorem linksPhase_kept (s : State) : Keeps s (linksPhase s) := by
  unfold linksPhase
  try dsimp only
  repeat' first
    | with_reducible apply Keeps.refl
    | simp only [↓Keeps.mk0]
    | with_reducible apply Keeps.ite
    | with_reducible apply Keeps.iteSnd
    | with_reducible apply Keeps.trans ?_ (groupStep_kept ..)
    | with_reducible apply Keeps.trans ?_ (enqueue_kept ..)
    | (with_reducible apply Keeps.foldS; rotate_left; intro _ _)

theorem laterGroups_kept (c : Fin 32) (j : Fin 2) (s : State) : Keeps s (laterGroups c j s) := by
  unfold laterGroups
  try dsimp only
  repeat' first
    | with_reducible apply Keeps.refl
    | simp only [↓Keeps.mk0, ↓Keeps.mkp, ↓Keeps.mkl, ↓Keeps.mkb]
    | with_reducible apply Keeps.ite
    | with_reducible apply Keeps.iteSnd
    | with_reducible apply Keeps.trans ?_ (updArr_kept ..)
    | with_reducible apply Keeps.trans ?_ (groupStep_kept ..)
    | with_reducible apply Keeps.trans ?_ (enqueue_kept ..)
    | (with_reducible apply Keeps.foldS; rotate_left; intro _ _)

theorem workPhase_kept (s : State) : Keeps s (workPhase s) := by
  unfold workPhase
  try dsimp only
  repeat' first
    | with_reducible apply Keeps.refl
    | simp only [↓Keeps.mk0]
    | with_reducible apply Keeps.ite
    | with_reducible apply Keeps.iteSnd
    | with_reducible apply Keeps.trans ?_ (meshCheck_kept ..)
    | with_reducible apply Keeps.trans ?_ (coreWork_kept ..)
    | with_reducible apply Keeps.trans ?_ (enqueue_kept ..)
    | with_reducible apply Keeps.trans ?_ (laterGroups_kept ..)
    | (with_reducible apply Keeps.foldS; rotate_left; intro _ _)

theorem illegalNow_kept (c : Fin 32) (s : State) : Keeps s (illegalNow c s) := by
  unfold illegalNow
  split
  · exact Keeps.ite (issueCmd_kept (fun _ _ s => Keeps.refl s) ..) (Keeps.refl s)
  · exact Keeps.refl s

theorem endCycle_kept (s : State) : Keeps s (endCycle s) := by
  unfold endCycle
  try dsimp only
  repeat' first
    | with_reducible apply Keeps.refl
    | simp only [↓Keeps.mk0, ↓Keeps.mkp, ↓Keeps.mkl, ↓Keeps.mkb]
    | with_reducible apply Keeps.ite
    | with_reducible apply Keeps.iteSnd
    | with_reducible apply Keeps.trans ?_ (checkAfterIssue_kept ..)
    | (with_reducible apply Keeps.foldS; rotate_left; intro _ _)

theorem cycleOver_kept (s : State) : Keeps s (cycleOver s) := by
  unfold cycleOver
  try dsimp only
  repeat' first
    | with_reducible apply Keeps.refl
    | simp only [↓Keeps.mk0]

theorem issuePhase_kept (s : State) : Keeps s (issuePhase s) := by
  unfold issuePhase
  try dsimp only
  repeat' first
    | with_reducible apply Keeps.refl
    | simp only [↓Keeps.mk0, ↓Keeps.mkp, ↓Keeps.mkl, ↓Keeps.mkb]
    | with_reducible apply Keeps.ite
    | with_reducible apply Keeps.iteSnd
    | with_reducible apply Keeps.trans ?_ (landLate_kept ..)
    | with_reducible apply Keeps.trans ?_ (enqueue_kept ..)
    | with_reducible apply Keeps.trans ?_ (illegalNow_kept ..)
    | with_reducible apply Keeps.trans ?_ (endCycle_kept ..)
    | with_reducible apply Keeps.trans ?_ (cycleOver_kept ..)
    | (with_reducible apply Keeps.foldS; rotate_left; intro _ _)

theorem midCycle_kept {s t : State} (h : midCycle s = some t) : Keeps s t := by
  unfold midCycle at h
  split at h
  · cases h; exact workPhase_kept s
  · split at h
    · cases h; exact issuePhase_kept s
    · cases h

theorem servedWrites_kept (c : Fin 32) (s : State) : Keeps s (servedWrites c s) := by
  unfold servedWrites
  try dsimp only
  repeat' first
    | with_reducible apply Keeps.refl
    | simp only [↓Keeps.mk0, ↓Keeps.mkp, ↓Keeps.mkl, ↓Keeps.mkb]
    | with_reducible apply Keeps.ite
    | with_reducible apply Keeps.iteSnd
    | with_reducible apply Keeps.trans ?_ (updCore_kept ..)

theorem rowOf_plain {c : Fin 32} {w : CmdWords} {i : Instr} (h : rowOf c w = some i) : Instr.plain i = true := by
  unfold rowOf at h
  split at h <;> cases h <;> rfl

theorem runOne_kept {i : Instr} (h : Instr.plain i = true) (s : State) : Keeps s (runOne s i) := by
  unfold runOne
  split
  · rename_i t e; exact exec_keeps h e
  · exact Keeps.refl s

theorem lastEffect_kept (c : Fin 32) (s : State) : Keeps s (lastEffect c s) := by
  unfold lastEffect
  dsimp only
  split
  · rename_i x _
    split
    · rename_i i e
      have k := (updCore_kept s c (toFront x)).trans (runOne_kept (rowOf_plain e) _)
      exact Keeps.ite ⟨k.1, k.2⟩ (Keeps.refl s)
    · exact Keeps.refl s
  · exact Keeps.refl s

theorem runCycle_kept (s : State) : Keeps s (runCycle s) := by
  unfold runCycle
  try dsimp only
  repeat' first
    | with_reducible apply Keeps.refl
    | simp only [↓Keeps.mk0, ↓Keeps.mkp, ↓Keeps.mkl, ↓Keeps.mkb]
    | with_reducible apply Keeps.ite
    | with_reducible apply Keeps.iteSnd
    | with_reducible apply Keeps.trans ?_ (haltWith_kept ..)
    | with_reducible apply Keeps.trans ?_ (linksPhase_kept ..)
    | with_reducible apply Keeps.trans ?_ (cycleOver_kept ..)
    | with_reducible apply Keeps.trans ?_ (servedWrites_kept ..)
    | with_reducible apply Keeps.trans ?_ (lastEffect_kept ..)
    | (with_reducible apply Keeps.foldS; rotate_left; intro _ _)

theorem nextCycle_kept (s : State) : Keeps s (nextCycle s) := by
  unfold nextCycle
  try dsimp only
  repeat' first
    | with_reducible apply Keeps.refl
    | simp only [↓Keeps.mk0]

theorem advance_kept (s : State) : Keeps s (advance s) := by
  unfold advance
  try dsimp only
  repeat' first
    | with_reducible apply Keeps.refl
    | simp only [↓Keeps.mk0]
    | with_reducible apply Keeps.ite

theorem holdMet_kept (s : State) : Keeps s (holdMet s) := by
  unfold holdMet
  try dsimp only
  repeat' first
    | with_reducible apply Keeps.refl
    | simp only [↓Keeps.mk0]
    | with_reducible apply Keeps.ite
    | with_reducible apply Keeps.iteSnd
    | with_reducible apply mwrite_wf
    | with_reducible apply mwrites_wf
    | with_reducible apply mzero_wf
    | assumption
    | split

theorem supplyEvents_kept (s : State) : Keeps s (supplyEvents s) := by
  unfold supplyEvents
  try dsimp only
  repeat' first
    | with_reducible apply Keeps.refl
    | simp only [↓Keeps.mk0, ↓Keeps.mkp, ↓Keeps.mkl, ↓Keeps.mkb]
    | with_reducible apply Keeps.ite
    | with_reducible apply Keeps.iteSnd
    | with_reducible apply Keeps.trans ?_ (fresh_kept ..)
    | with_reducible apply Keeps.trans ?_ (enqueue_kept ..)

theorem idleCells_kept (s : State) : Keeps s (idleCells s) := by
  unfold idleCells
  try dsimp only
  repeat' first
    | with_reducible apply Keeps.refl
    | simp only [↓Keeps.mk0, ↓Keeps.mkp, ↓Keeps.mkl, ↓Keeps.mkb]
    | with_reducible apply Keeps.ite
    | with_reducible apply Keeps.iteSnd
    | with_reducible apply Keeps.trans ?_ (sendFlit_kept ..)
    | (with_reducible apply Keeps.foldS; rotate_left; intro _ _)

theorem supplyReadings_kept (s : State) : Keeps s (supplyReadings s) := by
  unfold supplyReadings
  try dsimp only
  repeat' first
    | with_reducible apply Keeps.refl
    | simp only [↓Keeps.mkp]
    | with_reducible apply Keeps.ite
    | with_reducible apply Keeps.iteSnd
    | with_reducible apply Keeps.trans ?_ (fresh_kept ..)
    | with_reducible apply mwrite_wf
    | with_reducible apply mwrites_wf
    | with_reducible apply mzero_wf
    | assumption
    | split
    | exact ⟨rfl, id⟩

theorem afterMark_kept (s : State) : Keeps s (afterMark s) := by
  unfold afterMark
  try dsimp only
  repeat' first
    | with_reducible apply Keeps.refl
    | simp only [↓Keeps.mk0]
    | with_reducible apply Keeps.ite
    | with_reducible apply Keeps.iteSnd
    | with_reducible apply Keeps.trans ?_ (turnAdvance_kept ..)
    | with_reducible apply Keeps.trans ?_ (enqueue_kept ..)
    | with_reducible apply Keeps.trans ?_ (unitsGoOn_kept ..)
    | with_reducible apply Keeps.trans ?_ (supplyEvents_kept ..)
    | with_reducible apply Keeps.trans ?_ (idleCells_kept ..)
    | with_reducible apply Keeps.trans ?_ (supplyReadings_kept ..)
    | (with_reducible apply Keeps.foldS; rotate_left; intro _ _)

theorem nanosecond_kept (s : State) : Keeps s (nanosecond s) := by
  unfold nanosecond
  try dsimp only
  repeat' first
    | with_reducible apply Keeps.refl
    | simp only [↓Keeps.mk0]
    | with_reducible apply Keeps.ite
    | with_reducible apply Keeps.iteSnd
    | with_reducible apply Keeps.trans ?_ (enqueue_kept ..)
    | with_reducible apply Keeps.trans ?_ (advance_kept ..)
    | with_reducible apply Keeps.trans ?_ (holdMet_kept ..)
    | with_reducible apply Keeps.trans ?_ (afterMark_kept ..)

theorem betweenCycles_kept (s : State) : Keeps s (betweenCycles s) := by
  unfold betweenCycles
  try dsimp only
  repeat' first
    | with_reducible apply Keeps.refl
    | simp only [↓Keeps.mk0, ↓Keeps.mkp, ↓Keeps.mkl, ↓Keeps.mkb]
    | with_reducible apply Keeps.ite
    | with_reducible apply Keeps.iteSnd
    | with_reducible apply Keeps.trans ?_ (nextCycle_kept ..)
    | with_reducible apply Keeps.trans ?_ (nanosecond_kept ..)

theorem tick_kept (s : State) : Keeps s (tick s) := by
  unfold tick
  refine Keeps.ite (afterMark_kept s) (Keeps.ite (samplePhase_kept s) (Keeps.ite (runCycle_kept s) ?_))
  split
  · rename_i t e; exact midCycle_kept e
  · exact (landLate_kept s).trans (betweenCycles_kept _)

/-- One step, a tick or any command but the standby supply's. -/
theorem step_moves {s t : State} (h : ∀ i ∈ s.pending.head?, Instr.notStandby i) (e : step s = .next t) : Moves s t := by
  unfold step at e
  split at e
  · cases e; exact (tick_kept s).moves
  · rename_i c rest hp
    have hq : Keeps s { s with pending := rest } := ⟨rfl, id⟩
    exact hq.moves.trans (exec_moves (h c (by rw [hp]; rfl)) e)

/-- Standby power coming or going takes the key slots and DEBUG_ENABLE away and leaves the fuses. -/
theorem step_standby {s t : State} {i : Instr} {rest : List Instr} (hp : s.pending = i :: rest) (h : ¬ Instr.notStandby i)
    (e : step s = .next t) :
    t.pwr.debugFuse = s.pwr.debugFuse ∧ t.pwr.fuses = s.pwr.fuses ∧ t.pwr.debugEnable = false ∧ Memory.wf t.dram = true := by
  unfold step at e
  rw [hp] at e
  simp only [Instr.notStandby, ne_eq, not_and_or, not_not] at h
  rcases h with rfl | rfl
  · exact execStandbyPowerOn_fuses (s := { s with pending := rest }) e
  · exact execStandbyPowerLoss_fuses (s := { s with pending := rest }) e

end Sys2Proof.Machine
end

