-- ==== Sys2Proof/Laws/PerInstr.lean ====
section
/-!
SUPPORT. The per-instruction family Opcode: what a row's words spell, and what its well-formedness asks of them.
-/
namespace Sys2Proof.Laws.Opcode

/-- The opcodes of Table 3.11. -/
def all : List Nat :=
  [0x00, 0x01, 0x02, 0x03, 0x10, 0x11, 0x12, 0x13, 0x14, 0x15, 0x20, 0x21, 0x22, 0x30, 0x31, 0x32, 0x33, 0x40, 0x50, 0x51, 0x52,
    0x60, 0x61, 0x62, 0x63]

/-- A row of a command stream spells an opcode of Table 3.11, and is well-formed exactly when its words' OPCODE is that one; a row that
is no command of a stream is well-formed with every operand. -/
def Statement (i : Instr) : Prop :=
  match i.spelt with
  | some (op, w) => op ∈ all ∧ (i.wellFormed = true ↔ w.w0.toNat % 256 = op)
  | none => i.wellFormed = true

theorem spelt_iff (w : CmdWords) (op : Nat) : decide (w.opcode = op) = true ↔ w.w0.toNat % 256 = op := by
  rw [decide_eq_true_iff]; simp [CmdWords.opcode]

theorem standbyPowerOn : Statement (.standbyPowerOn) := rfl
theorem standbyPowerLoss : Statement (.standbyPowerLoss) := rfl
theorem oscillatorStable : Statement (.oscillatorStable) := rfl
theorem mainInputStable (mv : U16) : Statement (.mainInputStable mv) := rfl
theorem bringupPhaseDone (done : PhaseEnd) : Statement (.bringupPhaseDone done) := rfl
theorem mainInputLoss : Statement (.mainInputLoss) := rfl
theorem tierEntry (tier : Fin 6) (mv : U16) (fast : Bool) : Statement (.tierEntry tier mv fast) := rfl
theorem tierLeave (tier : Fin 6) (mv : U16) : Statement (.tierLeave tier mv) := rfl
theorem ppsInEdge : Statement (.ppsInEdge) := rfl
theorem refLoss (pps : Bool) : Statement (.refLoss pps) := rfl
theorem refReturn (pps : Bool) : Statement (.refReturn pps) := rfl
theorem ppsOutRise : Statement (.ppsOutRise) := rfl
theorem ppsOutFall : Statement (.ppsOutFall) := rfl
theorem beaconTime (port : Fin 16) (msg : C0Msg) : Statement (.beaconTime port msg) := rfl
theorem parentSilent : Statement (.parentSilent) := rfl
theorem standbyRootTakeover : Statement (.standbyRootTakeover) := rfl
theorem rootChange (port : Fin 16) (msg : C0Msg) : Statement (.rootChange port msg) := rfl
theorem holdover : Statement (.holdover) := rfl
theorem holdoverLimit : Statement (.holdoverLimit) := rfl
theorem parentReturn (backup : Bool) : Statement (.parentReturn backup) := rfl
theorem soundMsg (port : Fin 16) (msg : C0Msg) : Statement (.soundMsg port msg) := rfl
theorem soundingComplete (port : Fin 16) (up : Bool) (u primarySum backupSum : U16) : Statement (.soundingComplete port up u primarySum backupSum) := rfl
theorem acquireComplete : Statement (.acquireComplete) := rfl
theorem legArmHiWrite (v : U32) : Statement (.legArmHiWrite v) := rfl
theorem mark : Statement (.mark) := rfl
theorem helmLoadDone (core : Fin 32) : Statement (.helmLoadDone core) := rfl
theorem legComplete : Statement (.legComplete) := rfl
theorem horizonCheck : Statement (.horizonCheck) := rfl
theorem slipMsg (port : Fin 16) (msg : C0Msg) : Statement (.slipMsg port msg) := rfl
theorem droopTrip (region : Fin 8) : Statement (.droopTrip region) := rfl
theorem stretchFollow : Statement (.stretchFollow) := rfl
theorem freqStepApply : Statement (.freqStepApply) := rfl
theorem freqStepUp : Statement (.freqStepUp) := rfl
theorem regionTempReading (temps : BitVec 512) : Statement (.regionTempReading temps) := rfl
theorem tripLockoutEnd : Statement (.tripLockoutEnd) := rfl
theorem lookout (core : Fin 32) (w : CmdWords) (issue : U32) : Statement (.lookout core w issue) := rfl
theorem lanternRelease : Statement (.lanternRelease) := rfl
theorem holdTimeout : Statement (.holdTimeout) := rfl
theorem nop (core : Fin 32) (w : CmdWords) : Statement (.nop core w) := ⟨by decide, spelt_iff w _⟩
theorem predSet (core : Fin 32) (w : CmdWords) : Statement (.predSet core w) := ⟨by decide, spelt_iff w _⟩
theorem predLogic (core : Fin 32) (w : CmdWords) : Statement (.predLogic core w) := ⟨by decide, spelt_iff w _⟩
theorem testSync (core : Fin 32) (w : CmdWords) : Statement (.testSync core w) := ⟨by decide, spelt_iff w _⟩
theorem statLoad (core : Fin 32) (w : CmdWords) : Statement (.statLoad core w) := ⟨by decide, spelt_iff w _⟩
theorem statLoadComplete (core : Fin 32) (array : Fin 2) : Statement (.statLoadComplete core array) := rfl
theorem statSwap (core : Fin 32) (w : CmdWords) : Statement (.statSwap core w) := ⟨by decide, spelt_iff w _⟩
theorem passN (core : Fin 32) (w : CmdWords) : Statement (.passN core w) := ⟨by decide, spelt_iff w _⟩
theorem passT (core : Fin 32) (w : CmdWords) : Statement (.passT core w) := ⟨by decide, spelt_iff w _⟩
theorem passNDirect (core : Fin 32) (w : CmdWords) : Statement (.passNDirect core w) := ⟨by decide, spelt_iff w _⟩
theorem passDone (core : Fin 32) (array : Fin 2) : Statement (.passDone core array) := rfl
theorem acbFill (core : Fin 32) (w : CmdWords) : Statement (.acbFill core w) := ⟨by decide, spelt_iff w _⟩
theorem acbFillComplete (core : Fin 32) (array : Fin 2) : Statement (.acbFillComplete core array) := rfl
theorem elasticSliceDue (core : Fin 32) (array : Fin 2) (group : Fin 8) : Statement (.elasticSliceDue core array group) := rfl
theorem directRowPresent (core : Fin 32) (array : Fin 2) : Statement (.directRowPresent core array) := rfl
theorem chain (core : Fin 32) (w : CmdWords) : Statement (.chain core w) := ⟨by decide, spelt_iff w _⟩
theorem reduce (core : Fin 32) (w : CmdWords) : Statement (.reduce core w) := ⟨by decide, spelt_iff w _⟩
theorem tileMove (core : Fin 32) (w : CmdWords) : Statement (.tileMove core w) := ⟨by decide, spelt_iff w _⟩
theorem vectorComplete (core : Fin 32) : Statement (.vectorComplete core) := rfl
theorem streamArm (core : Fin 32) (w : CmdWords) : Statement (.streamArm core w) := ⟨by decide, spelt_iff w _⟩
theorem streamHand (core : Fin 32) (w : CmdWords) : Statement (.streamHand core w) := ⟨by decide, spelt_iff w _⟩
theorem storeHandComplete (core : Fin 32) (engine : Fin 4) : Statement (.storeHandComplete core engine) := rfl
theorem streamRearm (core : Fin 32) (w : CmdWords) : Statement (.streamRearm core w) := ⟨by decide, spelt_iff w _⟩
theorem streamStop (core : Fin 32) (w : CmdWords) : Statement (.streamStop core w) := ⟨by decide, spelt_iff w _⟩
theorem leadStart (core : Fin 32) (engine : Fin 4) : Statement (.leadStart core engine) := rfl
theorem fillAccess (core : Fin 32) (bank : BitVec 5) : Statement (.fillAccess core bank) := rfl
theorem loadElementComplete (core : Fin 32) (desc : BitVec 11) : Statement (.loadElementComplete core desc) := rfl
theorem storeElementComplete (core : Fin 32) (desc : BitVec 11) : Statement (.storeElementComplete core desc) := rfl
theorem turn (core : Fin 32) (w : CmdWords) : Statement (.turn core w) := ⟨by decide, spelt_iff w _⟩
theorem turnComplete (core : Fin 32) : Statement (.turnComplete core) := rfl
theorem chSend (core : Fin 32) (w : CmdWords) : Statement (.chSend core w) := ⟨by decide, spelt_iff w _⟩
theorem chSendComplete (core : Fin 32) : Statement (.chSendComplete core) := rfl
theorem chRelease (core : Fin 32) (w : CmdWords) : Statement (.chRelease core w) := ⟨by decide, spelt_iff w _⟩
theorem chClose (core : Fin 32) (w : CmdWords) : Statement (.chClose core w) := ⟨by decide, spelt_iff w _⟩
theorem bellOp (core : Fin 32) (w : CmdWords) : Statement (.bellOp core w) := ⟨by decide, spelt_iff w _⟩
theorem buoyArm (core : Fin 32) (w : CmdWords) : Statement (.buoyArm core w) := ⟨by decide, spelt_iff w _⟩
theorem buoyDisarm (core : Fin 32) (w : CmdWords) : Statement (.buoyDisarm core w) := ⟨by decide, spelt_iff w _⟩
theorem bellTest (core : Fin 32) (w : CmdWords) : Statement (.bellTest core w) := ⟨by decide, spelt_iff w _⟩
theorem bellAdd (src : BellPath) : Statement (.bellAdd src) := rfl
theorem bellSet (src : BellPath) : Statement (.bellSet src) := rfl
theorem bellMax (src : BellPath) : Statement (.bellMax src) := rfl
theorem bellRead (src : Fin 32) : Statement (.bellRead src) := rfl
theorem readValueLanding (core : Fin 32) : Statement (.readValueLanding core) := rfl
theorem buoyRegistration (core : Fin 32) (buoy : BitVec 6) : Statement (.buoyRegistration core buoy) := rfl
theorem buoyValueArrival (core : Fin 32) (buoy : BitVec 6) : Statement (.buoyValueArrival core buoy) := rfl
theorem channelMessageLanded (core : Fin 32) (ep : BitVec 7) : Statement (.channelMessageLanded core ep) := rfl
theorem creditReturnArrival (core : Fin 32) (ep : BitVec 7) : Statement (.creditReturnArrival core ep) := rfl
theorem stackRequestArrival (way : MeshWay) : Statement (.stackRequestArrival way) := rfl
theorem stackRequestService (stack : Fin 16) (pc : Fin 32) (errors : BlockErrors) : Statement (.stackRequestService stack pc errors) := rfl
theorem tideStart (stack : Fin 16) : Statement (.tideStart stack) := rfl
theorem tideEnd (stack : Fin 16) : Statement (.tideEnd stack) := rfl
theorem doublingTideStart (stack : Fin 16) : Statement (.doublingTideStart stack) := rfl
theorem stackTempReading (stack : Fin 16) (temps : U32) : Statement (.stackTempReading stack temps) := rfl
theorem rowSparing (stack : Fin 16) : Statement (.rowSparing stack) := rfl
theorem peerSignalDetect (port : Fin 16) (lanes : BitVec 5) : Statement (.peerSignalDetect port lanes) := rfl
theorem trainDone (port : Fin 16) (trained : BitVec 5) : Statement (.trainDone port trained) := rfl
theorem alignDone (port : Fin 16) (locked : Bool) (peerModule : BitVec 12) (peerPort : BitVec 4) : Statement (.alignDone port locked peerModule peerPort) := rfl
theorem lockLoss (port : Fin 16) : Statement (.lockLoss port) := rfl
theorem retrain (port : Fin 16) : Statement (.retrain port) := rfl
theorem laneFail (port : Fin 16) (lane : Fin 5) : Statement (.laneFail port lane) := rfl
theorem spareTakeoverRequest (port : Fin 16) (lane : Fin 4) : Statement (.spareTakeoverRequest port lane) := rfl
theorem spareLaneSwitch (port : Fin 16) : Statement (.spareLaneSwitch port) := rfl
theorem spareTakeoverAck (port : Fin 16) : Statement (.spareTakeoverAck port) := rfl
theorem codewordReceive (port : Fin 16) (cw : Codeword) : Statement (.codewordReceive port cw) := rfl
theorem nackReceive (port : Fin 16) (index : BitVec 12) : Statement (.nackReceive port index) := rfl
theorem flitCopyExpire (port : Fin 16) : Statement (.flitCopyExpire port) := rfl
theorem retryWaitExpire (port : Fin 16) : Statement (.retryWaitExpire port) := rfl
theorem launchSlot (port : Fin 16) : Statement (.launchSlot port) := rfl
theorem transitSlot (port : Fin 16) : Statement (.transitSlot port) := rfl
theorem retrySlot (port : Fin 16) : Statement (.retrySlot port) := rfl
theorem freeSlot (port : Fin 16) : Statement (.freeSlot port) := rfl
theorem flitPresent (port : Fin 16) : Statement (.flitPresent port) := rfl
theorem c1Write (f : Flit) : Statement (.c1Write f) := rfl
theorem c1WriteWithAccept (f : Flit) : Statement (.c1WriteWithAccept f) := rfl
theorem c1ReadRequest (f : Flit) : Statement (.c1ReadRequest f) := rfl
theorem c1ReadResponse (f : Flit) : Statement (.c1ReadResponse f) := rfl
theorem c1BellOperation (f : Flit) : Statement (.c1BellOperation f) := rfl
theorem c1ChannelMessage (f : Flit) : Statement (.c1ChannelMessage f) := rfl
theorem haltMsg (port : Fin 16) (msg : C0Msg) : Statement (.haltMsg port msg) := rfl
theorem statusMsg (port : Fin 16) (msg : C0Msg) : Statement (.statusMsg port msg) := rfl
theorem creditMsg (port : Fin 16) (msg : C0Msg) : Statement (.creditMsg port msg) := rfl
theorem creditDrop (port : Fin 16) (msg : C0Msg) : Statement (.creditDrop port msg) := rfl
theorem expressBell (port : Fin 16) (msg : C0Msg) : Statement (.expressBell port msg) := rfl
theorem windowNack (port : Fin 16) (msg : C0Msg) : Statement (.windowNack port msg) := rfl
theorem acceptMsg (port : Fin 16) (msg : C0Msg) : Statement (.acceptMsg port msg) := rfl
theorem c2FlitReceive (port : Fin 16) (f : Flit) : Statement (.c2FlitReceive port f) := rfl
theorem c2ResendTimeout (port : Fin 16) : Statement (.c2ResendTimeout port) := rfl
theorem drainEnd : Statement (.drainEnd) := rfl
theorem tableCopyDone : Statement (.tableCopyDone) := rfl
theorem fabWinCloseWrite (v : U32) : Statement (.fabWinCloseWrite v) := rfl
theorem perst : Statement (.perst) := rfl
theorem hotReset : Statement (.hotReset) := rfl
theorem functionLevelReset : Statement (.functionLevelReset) := rfl
theorem pmD3hot : Statement (.pmD3hot) := rfl
theorem registerWrite (offset : BitVec 24) (size : Nat) (v : U32) : Statement (.registerWrite offset size v) := rfl
theorem loPairRead (read : RegRead) : Statement (.loPairRead read) := rfl
theorem bar2Read (offset : BitVec 36) (len : Nat) : Statement (.bar2Read offset len) := rfl
theorem bar2Write (offset : BitVec 36) (data : List Byte) : Statement (.bar2Write offset data) := rfl
theorem moorOpen : Statement (.moorOpen) := rfl
theorem moorClose : Statement (.moorClose) := rfl
theorem doorbell (session : BitVec 18) (v : U32) : Statement (.doorbell session v) := rfl
theorem moorRelay : Statement (.moorRelay) := rfl
theorem relayedDoorbell (session : BitVec 18) (source : BitVec 12) (bytes : U32) : Statement (.relayedDoorbell session source bytes) := rfl
theorem relayStall (session : BitVec 18) (source : BitVec 12) : Statement (.relayStall session source) := rfl
theorem musterWrite : Statement (.musterWrite) := rfl
theorem ilogTailHiWrite (v : U32) : Statement (.ilogTailHiWrite v) := rfl
theorem ilogHeadSetWrite (v : U32) : Statement (.ilogHeadSetWrite v) := rfl
theorem coreBankData0Read (core : Fin 32) : Statement (.coreBankData0Read core) := rfl
theorem coreBankData7Read (core : Fin 32) : Statement (.coreBankData7Read core) := rfl
theorem coreBankData7Write (core : Fin 32) (v : U32) : Statement (.coreBankData7Write core v) := rfl
theorem streamDescData0Read (core : Fin 32) : Statement (.streamDescData0Read core) := rfl
theorem streamDescData15Write (core : Fin 32) (v : U32) : Statement (.streamDescData15Write core v) := rfl
theorem buoyData0Read (core : Fin 32) : Statement (.buoyData0Read core) := rfl
theorem bellQueryMaskLoRead (core : Fin 32) : Statement (.bellQueryMaskLoRead core) := rfl
theorem chEpData0Read (core : Fin 32) : Statement (.chEpData0Read core) := rfl
theorem chEpData7Write (core : Fin 32) (v : U32) : Statement (.chEpData7Write core v) := rfl
theorem dbgData0Read (path : Path) : Statement (.dbgData0Read path) := rfl
theorem dbgData7Read (path : Path) : Statement (.dbgData7Read path) := rfl
theorem imageLoad : Statement (.imageLoad) := rfl
theorem loadComplete (stop : Option (Byte × U64)) : Statement (.loadComplete stop) := rfl
theorem keyLock : Statement (.keyLock) := rfl
theorem kill (source : KillSource) (retain : Bool) : Statement (.kill source retain) := rfl
theorem scrub : Statement (.scrub) := rfl
theorem windowTableEmpty : Statement (.windowTableEmpty) := rfl
theorem scrubDone : Statement (.scrubDone) := rfl
theorem suspend : Statement (.suspend) := rfl
theorem suspendSnapshot : Statement (.suspendSnapshot) := rfl
theorem resume : Statement (.resume) := rfl
theorem powerOn : Statement (.powerOn) := rfl
theorem powerOff : Statement (.powerOff) := rfl
theorem serviceClear : Statement (.serviceClear) := rfl
theorem debugEnable (on : Bool) : Statement (.debugEnable on) := rfl
theorem blowFuse : Statement (.blowFuse) := rfl
theorem smbusBlockWrite (offset : BitVec 24) (v : U32) : Statement (.smbusBlockWrite offset v) := rfl
theorem smbusProcessCall (offset : BitVec 24) : Statement (.smbusProcessCall offset) := rfl
theorem jtagBypass : Statement (.jtagBypass) := rfl
theorem jtagIdcode : Statement (.jtagIdcode) := rfl
theorem jtagSamplePreload (pins : U64) : Statement (.jtagSamplePreload pins) := rfl
theorem jtagExtest (pins : U64) : Statement (.jtagExtest pins) := rfl
theorem linkUp (speed : BitVec 4) (width : BitVec 5) : Statement (.linkUp speed width) := rfl
theorem pmD0 : Statement (.pmD0) := rfl

end Sys2Proof.Laws.Opcode
end

