-- ==== Sys2Proof/Safety.lean ====
section
/-!
DEFINITION. What counts as a safe outcome: a next state. A halted die is a next state; whether it halted is a question of state.
-/
namespace Sys2Proof.Machine

/-- The outcome is a next state. -/
def Completes (o : Host.Outcome State Fault Refusal) : Prop := ∃ t, o = .next t

/-- The die is halted (R384). -/
def State.isHalted (s : State) : Bool := s.seq.state == .halted

end Sys2Proof.Machine
end

