-- ==== Sys2Proof/Tests/Slice0.lean ====
section
/-!
SUPPORT. Tests of single commands with their expected values from the manual, and for every statement states and operands that meet its
hypotheses, clause by clause, at the ends of their ranges.
-/
set_option Elab.async false

namespace Sys2Proof.Tests
open Sys2Proof.Machine

/-! ## States the witnesses use -/

/-- Every rail on, standby state over, hall time locked at 123,456 ns. -/
def up (s : State) : State :=
  { s with pwr := { s.pwr with standbyOn := true, mainOn := true, dieOn := true, phase := .ready }
           time := { s.time with osc := .locked, hallTime := 123456 } }

/-- The module up, nothing else changed since reset. -/
def base : State := up State.reset

/-- The module up with its first leg running in cycle 100. -/
def run : State :=
  { base with seq := { base.seq with
      state := .running, begun := true, cycle := 100, nextAt := 200000, nextBase := 200000, cur := { leg := { l := 5000 } } } }

/-- A command: opcode, TARGET, word count, OPA, SIG0, and words 1 and 2; DELTA 10, no predicate, no wait. -/
def cw (op target n opa sig0 w1 w2 : Nat) : CmdWords :=
  ⟨BitVec.ofNat 256 (opa * 2 ^ 192 + sig0 * 2 ^ 128 + 10 * 2 ^ 36 + 31 * 2 ^ 24 + (n - 1) * 2 ^ 16 + target * 2 ^ 8 + op),
    BitVec.ofNat 256 w1, BitVec.ofNat 256 w2, 0⟩

/-- The looked-out command `w`, due in cycle 100. -/
def entry (w : CmdWords) : LookEntry := ⟨w, 0, 100, false, false, true⟩

/-- Core 3 of the running module, as `f` sets it up, about to issue `w` from a block of 8 words. -/
def issuing (w : CmdWords) (f : Core → Core) : State :=
  run.updCore 3 fun k => { f k with ahead := [entry w], blockWords := 8 }

/-! ## The words the witnesses issue -/

def wNop := cw 0x00 0 1 0 0 0 0
def wPredSet := cw 0x01 0 1 (0x0005 * 2 ^ 16 + 0x000F) 0 0 0
def wPredLogic := cw 0x02 0 1 0x3213 0 0 0
def wTestSync := cw 0x03 0 1 (0x20000 + 0x0500 + 0x40 + 3) 0 0 0
def wStatLoad := cw 0x10 1 2 7 0 256 0
def wStatSwap := cw 0x11 1 1 0 0 0 0
def wPassN := cw 0x12 1 3 (3 * 2 ^ 36 + 2) 0x10500001 0 0
def wPassT := cw 0x13 1 3 (3 * 2 ^ 36 + 1) 0x10500001 0 0
def wPassD := cw 0x14 1 3 (3 * 2 ^ 36) 0x10500001 2 0
def wAcbFill := cw 0x15 1 2 (9 * 2 ^ 12 + 5) 0 77 0
/-- A chain of one ADD stage with an immediate from tile 1 to tile 2. -/
def wChain := cw 0x20 3 2 (11 * 2 ^ 42 + 1) 0 ((1 * 2 ^ 43 + 5) * 2 ^ 48 + 11 * 2 ^ 42 + 2) 0
def wReduce := cw 0x21 3 2 (1 * 2 ^ 56 + 2 * 2 ^ 52 + 2 ^ 51) 0 0 0
def wMove := cw 0x22 3 2 (11 * 2 ^ 42 + 1) 0 (11 * 2 ^ 42 + 2) 0
def wArm := cw 0x30 4 2 5 0 0 0
def wArmBase := cw 0x30 4 2 (2 ^ 16 + 5) 0 (64 * 2 ^ 64 + 4096) 0
def wHand := cw 0x31 4 1 (2 * 2 ^ 16 + 5) 0 0 0
def wHand0 := cw 0x31 4 1 5 0 0 0
def wRearm := cw 0x32 4 2 5 0 (64 * 2 ^ 64 + 4096) 0
def wStop := cw 0x33 4 1 5 0 0 0
def wTurn := cw 0x40 8 3 (4 * 2 ^ 25) 0 4096 0
def wSend := cw 0x50 9 2 (500 * 2 ^ 8 + 6) 0 0 0
def wRelease := cw 0x51 9 1 (1 * 2 ^ 8 + 6) 0 0 0
def wClose := cw 0x52 9 1 6 0 0 0
def wBell := cw 0x60 10 2 0 0 (7 * 2 ^ 64 + 4096) 0
def wBellFar := cw 0x60 10 2 0 0 (7 * 2 ^ 64 + 9 * 2 ^ 52 + 4096) 0
def wBellFarX := cw 0x60 10 2 (2 ^ 61) 0 (7 * 2 ^ 64 + 9 * 2 ^ 52 + 4096) 0
def wBellMc := cw 0x60 10 2 (2 ^ 60) 0 (7 * 2 ^ 64 + 4096) 0
def wBellMcX := cw 0x60 10 2 (2 ^ 60 + 2 ^ 61) 0 (7 * 2 ^ 64 + 4096) 0
def wBuoyArm := cw 0x61 10 2 2 0 4096 0
def wBuoyDisarm := cw 0x62 10 1 2 0 0 0
def wBellTest := cw 0x63 10 2 (4 * 2 ^ 16 + 1 * 2 ^ 8 + 2) 0 9 0

/-! ## What a command finds on its core -/

/-- A load descriptor (kind 1, depth 4) in slot 5, with its stream armed and two positions fetched. -/
def withLoad (k : Core) : Core :=
  { k with descs := [(5, BitVec.ofNat 512 (2 ^ 128 * 4096 + 2 ^ 32 * 4 + 3 * 2 ^ 8 + 1))]
           streams := [(5, { armed := true, bases := [⟨4096, 0, 0⟩], lead := 2 })] }
def withDesc (k : Core) : Core := { withLoad k with streams := [] }
/-- The same with PERSIST, a hand-over done and a second round to come. -/
def withPersist (k : Core) : Core :=
  { k with descs := [(5, BitVec.ofNat 512 (2 ^ 128 * 4096 + 2 ^ 32 * 4 + 2 ^ 19 + 3 * 2 ^ 8 + 1))]
           streams := [(5, { armed := true, bases := [⟨4096, 0, 0⟩], lead := 2, handed := 1 })] }
/-- A store descriptor whose blocks lie in blocks, with its stream armed. -/
def withStore (k : Core) : Core :=
  { k with descs := [(5, BitVec.ofNat 512 (2 ^ 288 * 4096 + 2 ^ 192 * 4096 + 2 ^ 128 * 65536 + 2 ^ 64 * 8192 + 2 ^ 32 * 4 + 3 * 2 ^ 8 + 2))]
           streams := [(5, { armed := true, bases := [⟨65536, 0, 0⟩] })] }
/-- Four block entries of 64 bytes, all at offset 0. -/
def blocks (s : State) : State :=
  { s with dram := mwrites [] 8192 ((List.range 64).map fun i => if i % 16 = 8 then 64 else 0) }
/-- A direct-feed stream of 256-byte rows on engine 2, for array 0. -/
def withFeed (k : Core) : Core :=
  { k with descs := [(1027, BitVec.ofNat 512 (256 * 2 ^ 32 + 3))], streams := [(1027, { armed := true })] }
def withShadow (k : Core) : Core := { k with arrays := k.arrays.set 0 { k.arr 0 with shadowValid := true } }
def withSender (k : Core) : Core :=
  { k with eps := [(6, { desc := BitVec.ofNat 256 (2 ^ 96 * 16 + 2 ^ 64 * 64 + 1), open_ := true, credits := 10 })] }
/-- A receive endpoint whose sender is on module 9, with one message landed. -/
def withReceiver (k : Core) : Core :=
  { k with eps := [(6, { desc := BitVec.ofNat 256 (2 ^ 128 * 2 ^ 52 * 9 + 2 ^ 96 * 16 + 2 ^ 64 * 64 + 2), open_ := true
                         landed := [⟨0, 0, 2, 2⟩] })] }
def withBuoy (k : Core) : Core := { k with buoys := [(2, { armed := true, addr := 4096 })] }
/-- A receive endpoint whose sender is endpoint 2 of core 5 of this module. -/
def withLocalSender (k : Core) : Core :=
  { k with eps := [(6, { desc := BitVec.ofNat 256 (2 ^ 128 * (2 ^ 40 * 5 + 2 ^ 32 * 2) + 2 ^ 96 * 16 + 2 ^ 64 * 64 + 2), open_ := true
                         landed := [⟨0, 0, 2, 2⟩] })] }
/-- Module 9 with a route over port 5 and a remote window on its stack memory, and group 0 of this module and module 9. -/
def withFar (s : State) : State :=
  { s.updPort 5 fun p => { p with state := .up } with
    fab := { (s.updPort 5 fun p => { p with state := .up }).fab with
      route := [(9, 0x80000005)], remoteWins := [{ module := 9, base := 0, size := 65536, key := 77 }] }
    groups := [(0, { defined := true, modules := [(0, 3), (9, 4)] })] }

/-! ## Tests of single commands -/

/-- An ill-formed command: OPCODE 0x01 given as NOP (R96). -/
theorem test_wellFormed_refuses : (Instr.nop 3 wPredSet).wellFormed = false := by decide
theorem test_wellFormed_accepts : (Instr.predSet 3 wPredSet).wellFormed = true := by decide
theorem test_exec_refuses_ill_formed : exec (.nop 3 wPredSet) base = .refused (.illFormed "NOP") := rfl
/-- The table gives no bits, so a word spells no command and is put nowhere. -/
theorem test_no_word_decodes : decodeTableWord 256 0 = none ∧ base.withFetchWord 256 0 = base := ⟨rfl, rfl⟩

/-- What a command leaves, for the tests below. -/
def left (i : Instr) (s : State) : State :=
  match exec i s with
  | .next t => t
  | _ => s

/-- PRED_SET with mask 0x000F and value 0x0005 (Table 3.6). -/
theorem test_predSet : ((left (.predSet 3 wPredSet) (issuing wPredSet fun k => { k with preds := 0xFF })).core 3).preds = 0xF5 := by
  decide +kernel
/-- Decoded by hand: OPA 0x3213 is A AND NOT B of predicates 1 and 2 into predicate 3 (Table 3.6). -/
theorem test_predLogic :
    ((left (.predLogic 3 wPredLogic) (issuing wPredLogic fun k => { k with preds := 2, preds0 := 2 })).core 3).preds = 0xA := by
  decide +kernel
/-- TEST_SYNC of flag 5 with GE 2: flags count as 0 or 1, so predicate 3 is cleared (R82). -/
theorem test_testSync_flag :
    ((left (.testSync 3 wTestSync) (issuing wTestSync fun k => { k with preds := 8, flags := 0x20, flags0 := 0x20 })).core 3).preds = 0 := by
  decide +kernel
/-- A mark 10,000 ns away and a multiple of 16 ns arms; one that is no multiple does not (R31). -/
theorem test_arm_align : ∀ b : Bool,
    (left (.legArmHiWrite 0) { base with seq := { base.seq with state := .loaded, armLo := if b then 133456 else 133457 } }).seq.state =
      (if b then .armed else .loaded) := by decide +kernel
/-- Bits [31:0] of the latch go first and HI is held for its path (R40, R405). -/
theorem test_loPair_latches :
    tget none (left (.loPairRead ⟨0x10000, 4⟩) { base with time := { base.time with hallTime := 0x500000007 } }).mgmt.bar0.latch 0x10004 = some 5 := by
  decide +kernel
/-- A trip lockout ends 60 s after the trip, not before (R377). -/
theorem test_lockout_boundary : ∀ b : Bool,
    (left .tripLockoutEnd { base with time := { base.time with hallTime := if b then 60000000000 else 59999999999 }
                                      pwr := { base.pwr with tripAt := some 0 } }).pwr.tripAt = (if b then none else some 0) := by decide +kernel

/-! ### The manual's worked examples -/

/-- Table 5.8. -/
theorem test_convert_to_e4m3 :
    let conv := fun (w : U32) mode sat (r : U16) => roundF fE4M3 mode sat r (ofF32 w)
    [conv 0x3F8CCCCD .rne false 0, conv 0x3F8CCCCD .rtz false 0, conv 0x3F8CCCCD .sr false 12097, conv 0x3F8CCCCD .sr false 39427,
      conv 0x43E80000 .rne false 0, conv 0x43FA0000 .rne false 0, conv 0x43FA0000 .rne true 0, conv 0x43FA0000 .rtz false 0] =
    [0x39, 0x38, 0x38, 0x39, 0x7E, 0x7F, 0x7E, 0x7E] := by decide +kernel
/-- Table 5.9: 10.0, 2.9 and −0.3 as MXFP4, with scale byte 0x80. -/
theorem test_quantise_mxfp4 :
    mxQuant 6 .rne [(ofF32 0x41200000, 0), (ofF32 0x4039999A, 0), (ofF32 0xBE99999A, 0)] = (0x80, [0x6, 0x3, 0x8]) := by decide +kernel
/-- Order inside a cell: 2²⁴ + 1 rounds to 2²⁴ (R100). -/
theorem test_add_rounds_to_even : f32add false 0x4B800000 0x3F800000 = 0x4B800000 := by decide +kernel
/-- One stripe of space 4: offset 0x0002_3000 + 4 GiB lies in stack 3, whose bell words have core 5 as home, in bank 0, row 512, PC 0 on. -/
theorem test_stripe_of_space_4 :
    let a := linearOf 4 0x100023000
    a = 3 * 72 * 2 ^ 30 + 0x10002000 ∧ stackOfAddr a = 3 ∧ stackCore 3 = 5 ∧ pcOf (stackAddrOf a) = 0 ∧ pcOf (stackAddrOf (a + 4095)) = 15 ∧
      bankOf (stackAddrOf a) = 0 ∧ rowOfAddr (stackAddrOf a) = 512 := by decide +kernel
/-- Core 5 to core 26 (R45, R46): launched in cycle 500, delivered in 510. -/
theorem test_mesh_delivery : meshDelivery 500 (coreX 5) (coreY 5) (coreX 26) (coreY 26) = 510 ∧ (coreX 26, coreY 26) = (4, 3) := by decide
/-- ERRLOG_PTR after 3,000 entries (R406). -/
theorem test_errlog_ptr : regValue { base with mgmt := { base.mgmt with errTotal := 3000 } } .bar0 0xC00040 = 0x002EE3B8 := by decide +kernel
/-- Table 4.11: a pass of 384 rows issued in cycle 69 has entry 0 valid in 338 and is done in 721; in T, issued in 2,000, in 2,652. -/
theorem test_pass_timing :
    let p : PassRec := { idx := 0, issue := 69, rows := 384, tOrient := false, direct := none, mfmt := 0, mode := 0, rtz := false, entry := 0
                         pitch := 2, src := 0, scaleSrc := 0, useSetB := false, sig := 0 }
    p.valid 0 = 338 ∧ p.done = 721 ∧ { p with issue := 2000, tOrient := true, mfmt := 1 }.done = 2652 := by decide +kernel

/-! ## Witnesses: states and operands that meet the hypotheses of the statements, clause by clause -/

theorem witness_StepRunsTheFrontCommand : base.pending = [] := by decide +kernel

theorem witness_EveryStepKeepsTheInvariant : Claims.Inv base ∧ ∃ t, step base = .next t :=
  ⟨by unfold Claims.Inv; decide +kernel, _, rfl⟩

theorem witness_DebugFuseFollowsR373 :
    (base.pwr.standbyOn = true ∧ base.pwr.phase ≠ .standby ∧ base.pwr.phase ≠ .standbyRelay ∧ (4 : U32).getLsbD 2 = true ∧ base.seq.state = .empty) ∧
    ∃ t, step { base with pending := [.debugEnable true] } = .next t ∧ base.pwr.debugEnable = false ∧ t.pwr.debugEnable = true :=
  ⟨by decide +kernel, _, rfl, by decide +kernel, by decide +kernel⟩
theorem witness_DebugFuseFollowsR373_blown :
    ∃ t, step { base with pwr := { base.pwr with debugFuse := false } } = .next t := ⟨_, rfl⟩

def keyLocked : State := { base with loader := { base.loader with keyCfg := 0x80000000 }, pending := [.keyLock] }
theorem witness_LockedKeySlotsAreFrozen :
    keyLocked.loader.keyCfg.getLsbD 31 = true ∧ keyLocked.pending.head? ≠ some .standbyPowerOn ∧
    keyLocked.pending.head? ≠ some .standbyPowerLoss ∧ ∃ t, step keyLocked = .next t :=
  ⟨by decide +kernel, by decide +kernel, by decide +kernel, _, rfl⟩

theorem witness_MainPowerCycleClearsAndKeeps :
    (base.seq.state = .empty ∧ base.pwr.phase ≠ .standby) ∧ run.seq.state ≠ .empty := by decide +kernel

def shut (above : Nat) (trip : Option U64) : State :=
  { base with pwr := { base.pwr with phase := .dieOff, dieOn := false, above1 := above, tripAt := trip } }
/-- Standby power with the time domain running. -/
def counting : State := { State.reset with time := { State.reset.time with osc := .freeRun } }
/-- The same with AUTO_ON as given and `n` samples of a stable input. -/
def auto (on : Bool) (n : Nat) : State :=
  { counting with pwr := { counting.pwr with cfg := if on then 0x80000000 else 0, stable := n } }
theorem witness_PowerOnStartsBringup :
    (∀ mv ∈ [(46000 : U16), 56000], (auto true 9).pwr.standbyOn = true ∧ (auto true 9).pwr.waitPowerOn = false ∧ (auto true 9).pwr.phase = .standby ∧
      (auto true 9).time.osc ≠ .reset ∧ (auto true 9).pwr.cfg.getLsbD 31 = true ∧
      10000 ≤ (if 46000 ≤ mv.toNat ∧ mv.toNat ≤ 56000 then max 10000 (auto true 9).pwr.stable else (auto true 9).pwr.stable)) ∧
    (auto false 10000).pwr.cfg.getLsbD 31 = false ∧ base.pwr.phase ≠ .standby ∧ base.pwr.phase ≠ .standbyRelay ∧
    (∀ n ∈ [9999, 10000], (auto false n).pwr.tripAt = none ∧ (auto false n).pwr.standbyOn = true ∧ (auto false n).pwr.phase = .standby ∧
      (auto false n).time.osc ≠ .reset ∧ (auto false n).pwr.stable = n) ∧
    ((shut 1000 none).pwr.phase = .dieOff ∧ 1000 ≤ (shut 1000 none).pwr.above1 ∧ (shut 1000 none).pwr.tripAt = none ∧
      (shut 1000 none).host.deferred = [] ∧ (shut 1000 none).host.tasks = []) ∧
    ((shut 999 none).pwr.phase = .dieOff ∧ (shut 999 none).pwr.above1 < 1000) ∧
    ((shut 1000 (some 9)).pwr.phase = .dieOff ∧ (shut 1000 (some 9)).pwr.tripAt ≠ none) := by
  refine ⟨?_, by decide +kernel⟩
  intro mv h
  refine ⟨by decide +kernel, by decide +kernel, by decide +kernel, by decide +kernel, by decide +kernel, ?_⟩
  rw [if_pos (by
    simp only [List.mem_cons, List.not_mem_nil, or_false] at h
    rcases h with rfl | rfl <;> decide +kernel)]
  exact Nat.le_max_left ..

def inPhase (p : PwrPhase) (o : TimeState) : State :=
  { base with pwr := { base.pwr with phase := p }, time := { base.time with osc := o } }
theorem witness_BringupPhasesFollowTable14_4 :
    ((inPhase .ramp .freeRun).pwr.phase = .ramp ∧ (inPhase .ramp .freeRun).pwr.fail = false) ∧
    ((inPhase .stackInit .freeRun).pwr.phase = .stackInit ∧ (inPhase .stackInit .freeRun).pwr.fastResume = false) ∧
    (let s := { inPhase .stackInit .locked with pwr := { (inPhase .stackInit .locked).pwr with fastResume := true, killPending := true } }
     s.pwr.phase = .stackInit ∧ s.pwr.fastResume = true ∧ s.pwr.fail = false ∧ s.pwr.killPending = true ∧ s.pwr.closeAt = none) ∧
    ((inPhase .ports .freeRun).pwr.phase = .ports ∧ (inPhase .ports .freeRun).time.osc ≠ .reset) ∧
    ((inPhase .sounding .sounding).pwr.phase = .sounding ∧ (inPhase .sounding .sounding).time.osc = .sounding ∧
      ∀ p, ((inPhase .sounding .sounding).port p).state ≠ .sound) ∧
    (((inPhase .sounding .sounding).updPort 2 fun p => { p with state := .sound }).pwr.phase = .sounding ∧
      (((inPhase .sounding .sounding).updPort 2 fun p => { p with state := .sound }).port 2).state = .sound) ∧
    ((inPhase .locking .locked).pwr.phase = .locking ∧ (inPhase .locking .locked).time.osc = .locked) ∧
    ((inPhase .scrub .locked).pwr.phase = .scrub ∧ (inPhase .scrub .locked).errs = []) := by decide +kernel

def inTier (n : Fin 6) (f : U16) : State :=
  { base with pwr := { base.pwr with tier := n }, clk := { base.clk with freq := f } }
theorem witness_ShedTiersOneAndTwo :
    base.pwr.standbyOn = true ∧
    ((inTier 0 1151).pwr.tier = 0 ∧ (45999 : U16).toNat < 46000 ∧ (inTier 0 1151).clk.steps = [] ∧ 1150 < (inTier 0 1151).clk.freq.toNat) ∧
    ((inTier 1 1001).pwr.tier = 1 ∧ (43999 : U16).toNat < 44000 ∧ (inTier 1 1001).clk.steps = [] ∧ 1000 < (inTier 1 1001).clk.freq.toNat) ∧
    ((inTier 0 1150).clk.freq.toNat ≤ 1150 ∧ (inTier 1 1000).clk.freq.toNat ≤ 1000) ∧
    ((inTier 2 1000).pwr.tier = 2 ∧ 45000 ≤ (45000 : U16).toNat ∧ (inTier 2 1000).host.deferred = [] ∧ (inTier 2 1000).host.tasks = [] ∧
      (inTier 2 1000).clk.target ≤ 1000) ∧
    ((inTier 1 1150).pwr.tier = 1 ∧ 47000 ≤ (47000 : U16).toNat ∧ (inTier 1 1150).host.deferred = [] ∧ (inTier 1 1150).host.tasks = [] ∧
      (inTier 1 1150).clk.target ≤ 1150) ∧
    ((1 : Fin 6) ≤ (inTier 1 1000).pwr.tier ∧ (2 : Fin 6) ≠ (inTier 1 1000).pwr.tier) ∧ 46000 ≤ (46000 : U16).toNat ∧ (44999 : U16).toNat < 45000 := by
  decide +kernel

def gatedTier : State :=
  { inTier 2 1000 with seq := { base.seq with state := .gated, begun := true } }
def parkedTier : State :=
  { gatedTier with pwr := { gatedTier.pwr with tier := 3, phase := .parked }, seq := { gatedTier.seq with parked := true } }
theorem witness_DeepTiersParkAndPowerOff :
    (gatedTier.pwr.standbyOn = true ∧ (∀ i, (gatedTier.stack i).toRefresh = false ∧ ∀ p, ((gatedTier.stack i).pc p).q = []) ∧ gatedTier.pwr.tier = 2 ∧ (41999 : U16).toNat < 42000 ∧ gatedTier.seq.state = .gated ∧
      gatedTier.seq.parked = false ∧ gatedTier.seq.suspended = false ∧ gatedTier.seq.suspendReq = none ∧ gatedTier.pwr.phase = .ready) ∧
    (parkedTier.pwr.standbyOn = true ∧ (∀ i, (parkedTier.stack i).toRefresh = false ∧ ∀ p, ((parkedTier.stack i).pc p).q = []) ∧ parkedTier.pwr.tier = 3 ∧ (39999 : U16).toNat < 40000 ∧ parkedTier.pwr.dieOn = true ∧
      parkedTier.seq.state ≠ .empty ∧ parkedTier.seq.state ≠ .halted ∧ parkedTier.loader.busy = false) := by decide +kernel

def atTime (t : U64) : State := { base with time := { base.time with hallTime := t } }
/-- A member whose parent is port 0, up, with a cell seen at time 0. -/
def member (t : U64) : State :=
  { (atTime t).updPort 0 fun p => { p with state := .up, beaconD := 500 } with time := { (atTime t).time with
      epochSet := true, parentSeen := true, backupSeen := true, backupCellAt := 1000 } }
def portIn (x : PortState) : State := base.updPort 2 fun p => { p with state := x }
def osc (o : TimeState) (seen : Bool) (at_ : U64) : State :=
  { base with time := { base.time with osc := o, parentSeen := seen, parentCellAt := at_ } }
def holdover (t : U64) : State := { base with time := { base.time with osc := .holdover, hallTime := t } }
/-- In ACQUIRE with the phase last out of the budget at time 0, and `slew` still to go. -/
def acquiring (t : U64) (slew : Int) (backup out : Bool) : State :=
  { base with time := { base.time with
      osc := .acquire, hallTime := t, phaseOutAt := 0, slew := slew, onBackup := backup, outOfSpec := out, pathBudget := 0x00070005 } }
theorem witness_TimeDomainStatesFollowTable1_2 :
    (∀ b : Bool, ∀ o : Bool, (acquiring 1000000 (if b then -70 else 50) b o).time.osc = .acquire ∧
      (acquiring 1000000 (if b then -70 else 50) b o).time.phaseOutAt.toNat + 1000000 ≤ (acquiring 1000000 (if b then -70 else 50) b o).now ∧
      (acquiring 1000000 (if b then -70 else 50) b o).time.slew.natAbs ≤ 10 * (if (acquiring 1000000 0 b o).time.onBackup
        then (acquiring 1000000 0 b o).time.pathBudget.extractLsb' 16 16 else (acquiring 1000000 0 b o).time.pathBudget.extractLsb' 0 16).toNat) ∧
    (acquiring 999999 0 false false).now < (acquiring 999999 0 false false).time.phaseOutAt.toNat + 1000000 ∧
    10 * ((acquiring 1000000 51 false false).time.pathBudget.extractLsb' 0 16).toNat < (acquiring 1000000 51 false false).time.slew.natAbs ∧
    (State.reset.pwr.standbyOn = true ∧ State.reset.time.osc = .reset) ∧ base.time.osc ≠ .reset ∧
    ((osc .acquire true 0).time.osc = .acquire ∧ (osc .acquire true 0).time.outOfSpec = false) ∧ base.time.osc ≠ .acquire ∧
    (base.time.osc = .locked ∧ base.time.role = .member ∧ base.time.parentSeen = false ∧ base.time.backupSeen = false ∧ base.time.rootChanged = false) ∧
    ((osc .locked true 122433).time.osc = .locked ∧ (osc .locked true 122433).time.parentSeen = true ∧
      (osc .locked true 122433).now < (osc .locked true 122433).time.parentCellAt.toNat + 1024) ∧
    ((member 2023).time.backupSeen = true ∧ (member 2023).time.backupLost = false ∧
      (member 2023).now < (member 2023).time.backupCellAt.toNat + 1024) ∧
    ((holdover 0).time.rootChanged = false ∧ { base with time := { base.time with rootChanged := true } }.time.rootChanged = true) ∧
    ((holdover 20000000).time.osc = .holdover ∧ (holdover 20000000).time.holdoverAt.toNat + 20000000 ≤ (holdover 20000000).now ∧
      (holdover 20000000).time.outOfSpec = false) ∧
    ((holdover 19999999).time.osc = .holdover ∧ (holdover 19999999).now < (holdover 19999999).time.holdoverAt.toNat + 20000000) := by
  decide +kernel

def rootAt (t : U64) : State :=
  { base with time := { base.time with hallTime := t, actingRoot := true, role := .root, beaconCfg := 5 } }
theorem witness_ReferencesAndPpsOut :
    ((rootAt 7).time.actingRoot = true ∧ (rootAt 7).time.beaconCfg.getLsbD 0 = true ∧ (rootAt 7).time.osc = .locked ∧ (rootAt 7).time.epochSet = false) ∧
    (rootAt 7).time.actingRoot = true ∧ base.time.actingRoot = false ∧
    (base.pwr.standbyOn = true ∧ (atTime 1000000000).now % 1000000000 = 0 ∧ (atTime 1000000000).pwr.standbyOn = true) ∧
    (atTime 999999999).now % 1000000000 ≠ 0 ∧ 100000 ≤ (atTime 1000100000).now % 1000000000 ∧
    (atTime 1000099999).now % 1000000000 < 100000 := by decide +kernel

def standbyRoot (t : U64) : State := { member t with time := { (member t).time with role := .standbyRoot } }
theorem witness_BeaconTreeFollowsItsRules :
    (c0get (1 : C0Msg) 0 1 = 1 ∧ ((member 5).port 0).cells = true ∧ 0 = (member 5).time.portUsed ∧ (member 5).time.actingRoot = false ∧
      (member 5).time.osc = .locked ∧ (member 5).time.epochSet = true ∧ ((member 5).port 0).beaconD ≠ 0xFFFF) ∧
    (((portIn .align).port 2).cells = true ∧ ((portIn .align).port 2).beaconD = 0xFFFF) ∧ c0get (2 : C0Msg) 0 1 ≠ 1 ∧ (base.port 2).cells = false ∧
    ((member 2023).time.parentCellAt.toNat + 1024 ≤ (member 2023).now ∧
      (member 2023).time.role = .member ∧ (member 2023).time.onBackup = false ∧ (member 2023).time.backupSeen = true ∧
      (member 2023).now < (member 2023).time.backupCellAt.toNat + 1024 ∧ (member 2023).time.backupLost = false) ∧
    (member 1023).now < (member 1023).time.parentCellAt.toNat + 1024 ∧ (member 2024).time.backupCellAt.toNat + 1024 ≤ (member 2024).now ∧
    ((standbyRoot 4096).time.role = .standbyRoot ∧ (standbyRoot 4096).time.actingRoot = false ∧
      (standbyRoot 4096).time.parentCellAt.toNat + 4096 ≤ (standbyRoot 4096).now) ∧
    (standbyRoot 4095).now < (standbyRoot 4095).time.parentCellAt.toNat + 4096 ∧
    base.fab.rootChangeSeen = false ∧ { base with fab := { base.fab with rootChangeSeen := true } }.fab.rootChangeSeen = true := by
  decide +kernel

/-- Port 2 after `n` round trips whose lengths add up to `sum`. -/
def sounded (n sum : Nat) : State := base.updPort 2 fun p => { p with state := .sound, rounds := n, soundSum := sum }
theorem witness_SoundingSetsDelaysAndBudgets :
    (base.seq.state = .empty ∧ base.loader.busy = false) ∧
    (((sounded 4096 81920).port 2).state = .sound ∧ ((sounded 4096 81920).port 2).rounds = 4096 ∧ (65515 : U16).toNat + 20 < 65536 ∧
      (480 : U16).toNat + 20 < 65536 ∧ 10 = min 0xFFFE ((((sounded 4096 81920).port 2).soundSum + if true then 8191 else 0) / 8192) ∧ (sounded 4096 81920).time.beaconCfg.extractLsb' 30 2 ≠ 2) ∧
    ((base.port 2).state ≠ .sound ∧ ((sounded 4095 0).port 2).rounds ≠ 4096) ∧
    (c0get (2 : C0Msg) 0 1 = 2 ∧ c0get (2 : C0Msg) 1 1 = 0 ∧ ((portIn .up).port 2).state = .up) ∧
    (c0get (0x102 : C0Msg) 0 1 = 2 ∧ c0get (0x102 : C0Msg) 1 1 = 1 ∧ ((sounded 0 0).port 2).state = .sound ∧ ((sounded 0 0).port 2).rounds < 4096 ∧
      c0get (0x102 : C0Msg) 5 3 = ((sounded 0 0).port 2).rounds) ∧
    (c0get (0x102 : C0Msg) 1 1 ≠ 0 ∧ ((portIn .align).port 2).state = .align) := by decide +kernel

/-- LOADED with hall time 0, and a first mark to write. -/
def loaded (lo : U32) : State :=
  { atTime 0 with seq := { base.seq with state := .loaded, armLo := lo } }
theorem witness_ArmingTheFirstMark :
    ((loaded 10000).seq.state = .loaded ∧ (loaded 10000).now + 10000 ≤ (pair (loaded 10000).seq.armLo 0).toNat ∧
      (pair (loaded 10000).seq.armLo 0).toNat % 16 = 0) ∧
    ((pair (loaded 9984).seq.armLo 0).toNat < (loaded 9984).now + 10000 ∧ (pair (loaded 9984).seq.armLo 0).toNat % 16 = 0) ∧
    ((loaded 10001).now + 10000 ≤ (pair (loaded 10001).seq.armLo 0).toNat ∧ (pair (loaded 10001).seq.armLo 0).toNat % 16 ≠ 0) ∧
    ((pair (loaded 9999).seq.armLo 0).toNat < (loaded 9999).now + 10000 ∧ (pair (loaded 9999).seq.armLo 0).toNat % 16 ≠ 0) ∧
    base.seq.state ≠ .loaded := by decide +kernel

/-- The running leg with every core past its block. -/
def legOver (ended : Bool) : State :=
  { run with seq := { run.seq with next := { ended := ended } }, cores := run.cores.map fun k => { k with blockDone := true } }
def held : Hold := { cycle := 100, since := 0, causes := [{ core := 3, what := .slice 0 0 }] }
def holding : State := { run with clk := { run.clk with hold := some held } }
theorem witness_LegCompleteGatesTheDie :
    ((legOver true).seq.state = .running ∧ (legOver true).clk.hold = none ∧ (∀ c, coreIdle (legOver true).seq.cycle ((legOver true).core c) = true) ∧
      (legOver true).seq.next.ended = true) ∧
    ((∀ c, coreIdle (legOver false).seq.cycle ((legOver false).core c) = true) ∧ (legOver false).pwr.tier.val < 3 ∧
      (legOver false).seq.mark.toNat ≤ (legOver false).seq.legMark.toNat) ∧
    (holding.seq.state = .running ∧ holding.clk.hold ≠ none) ∧
    coreIdle (issuing wNop id).seq.cycle ((issuing wNop id).core 3) = false := by decide +kernel

/-- The running leg at its horizon, 1,024 ns before the next mark's slip-free time, the mark itself being at `m`. -/
def horizonAt (m : U64) : State := { run with seq := { run.seq with nextAt := m, nextBase := 124480 } }
def horizonNow (s : State) : Prop :=
  s.seq.state = .running ∧ s.seq.due.ended = false ∧ s.seq.suspended = false ∧ s.seq.begun = true ∧ s.seq.horizonDone = false ∧
  s.seq.nextBase.toNat ≤ s.now + s.time.horizon
theorem witness_HorizonCheckPredictsOverruns :
    (horizonNow (horizonAt 127376) ∧ (horizonAt 127376).predict (horizonAt 127376).seq.cycle ≤ (horizonAt 127376).seq.nextAt.toNat) ∧
    (horizonNow (horizonAt 124480) ∧
      (horizonAt 124480).seq.nextAt.toNat < (horizonAt 124480).predict (horizonAt 124480).seq.cycle ∧ (horizonAt 124480).time.quantum ≠ 0 ∧
      (horizonAt 124480).predict (horizonAt 124480).seq.cycle - (horizonAt 124480).seq.nextAt.toNat ≤ 15 * (horizonAt 124480).time.quantum) := by
  unfold horizonNow; decide +kernel

/-- Mark 1 with k = `k` (bytes 4 to 8 of Table 11.6's SLIP). -/
def slip (k : Nat) : C0Msg := BitVec.ofNat 256 (2 ^ 32 + k * 2 ^ 64)
theorem witness_SlipsRaiseKMax :
    (run.seq.state = .running ∧ BitVec.ofNat 12 (c0get (slip 1) 2 2) = run.seq.origin ∧
      run.seq.nextNum ≤ fullMark run.seq.nextNum (c0get (slip 1) 4 4) ∧
      tget 0 run.seq.kMax (fullMark run.seq.nextNum (c0get (slip 1) 4 4)) < c0get (slip 1) 8 1) ∧
    (BitVec.ofNat 12 (c0get (slip 0) 2 2) = run.seq.origin ∧ run.seq.nextNum ≤ fullMark run.seq.nextNum (c0get (slip 0) 4 4) ∧
      c0get (slip 0) 8 1 ≤ tget 0 run.seq.kMax (fullMark run.seq.nextNum (c0get (slip 0) 4 4))) ∧
    (BitVec.ofNat 12 (c0get (0x300000000FFF0000 : C0Msg) 2 2) = 0xFFF) ∧
    (BitVec.ofNat 12 (c0get (3 * 2 ^ 64 : C0Msg) 2 2) = run.seq.origin ∧ fullMark run.seq.nextNum (c0get (3 * 2 ^ 64 : C0Msg) 4 4) < run.seq.nextNum) ∧
    base.seq.state = .empty ∧ base.fab.slipSeen = [] ∧
    (BitVec.ofNat 12 (c0get (9 * 2 ^ 16 : C0Msg) 2 2) ≠ run.seq.origin ∧ BitVec.ofNat 12 (c0get (9 * 2 ^ 16 : C0Msg) 2 2) ≠ 0xFFF) ∧
    (∀ b : Bool, ([(9, 1, if b then 0 else 1)] : List (BitVec 12 × Nat × Nat)).find? (fun e => e.1 == 9 && e.2.1 == 1) = some (9, 1, if b then 0 else 1)) := by
  decide +kernel

/-- The running leg with the next mark at `m`, and `susp` as the mark to suspend at. -/
def markAt (m : U64) (susp : Option U64) : State := { run with seq := { run.seq with nextAt := m, nextBase := m, suspendReq := susp } }
/-- Core 3 loading its next block, of which `n` bytes are still to come. -/
def helming (n : Nat) : State :=
  { run.updCore 3 fun k => { k with helmBusy := true } with jobs := [⟨0, .helm 3 8, 256, n, []⟩] }
theorem witness_MarksAndHelmLoads :
    ((markAt 123456 none).seq.state = .running ∧ (markAt 123456 none).seq.due.ended = false ∧ (markAt 123456 none).seq.suspended = false ∧
      (markAt 123456 none).seq.suspendReq = none ∧ (markAt 123456 none).seq.nextAt.toNat ≤ (markAt 123456 none).now) ∧
    (markAt 123457 none).now < (markAt 123457 none).seq.nextAt.toNat ∧
    (base.seq.state ≠ .armed ∧ base.seq.state ≠ .running ∧ base.seq.state ≠ .gated) ∧
    ((markAt 0 (some 1)).seq.suspendReq = some (BitVec.ofNat 64 (markAt 0 (some 1)).seq.nextNum) ∧ (markAt 0 (some 1)).seq.nextNum < 2 ^ 64) ∧
    (((helming 0).core 3).helmBusy = true ∧ (helming 0).seq.state ≠ .halted ∧ (helming 0).helmJob 3 = some ⟨0, .helm 3 8, 256, 0, []⟩) ∧
    ((helming 1).helmJob 3 = some ⟨0, .helm 3 8, 256, 1, []⟩) ∧
    (run.core 3).helmBusy = false := by decide +kernel

def armed : State :=
  { base with seq := { base.seq with state := .armed, nextAt := 123456, nextBase := 123456 }, fab := { base.fab with shadowReady := true } }
/-- The mark after the first, with the sequencer in a state and its table set active. -/
def marked (x : LegState) (parked : Bool) : State :=
  { armed with seq := { armed.seq with state := x, begun := true, parked := parked }
               fab := { armed.fab with tablesLive := true, shadowReady := false } }
theorem witness_TheFirstMarkStartsTheFirstLeg :
    (armed.seq.state = .armed ∧ armed.seq.due.ended = false ∧ armed.seq.suspended = false ∧ armed.seq.suspendReq = none ∧
      armed.seq.nextAt.toNat ≤ armed.now ∧ armed.host.tasks = [] ∧ armed.fab.tablesLive = false ∧ armed.fab.shadowReady = true ∧
      armed.fab.shadowSet = tget 0 armed.fab.legSet armed.seq.due.entry) ∧
    (∀ b : Bool, (marked .gated b).seq.due.ended = false ∧ (marked .gated b).seq.suspended = false ∧ (marked .gated b).seq.suspendReq = none ∧
      (marked .gated b).seq.nextAt.toNat ≤ (marked .gated b).now ∧ (marked .gated b).host.tasks = [] ∧ (marked .gated b).fab.tablesLive = true ∧
      (marked .gated b).fab.activeSet = tget 0 (marked .gated b).fab.legSet (marked .gated b).seq.due.entry ∧
      (marked .gated b).seq.state = .gated ∧ (marked .gated b).seq.parked = b) ∧
    ((marked .running false).seq.state = .running ∧ (marked .running false).seq.nextAt.toNat ≤ (marked .running false).now) := by decide +kernel

def stretched (c : Nat) : State := run.updRegion 2 fun r => { r with lastStretch := some c }
theorem witness_DroopTripsAndFollowers :
    (run.running = true ∧ (run.region 2).lastStretch = none ∧ ∀ q ∈ run.clk.reqs, q.2 + 2 ≠ run.seq.cycle) ∧
    ((stretched 97).running = true ∧ ((stretched 97).region 2).lastStretch = some 97 ∧ 97 ≠ (stretched 97).seq.cycle ∧
      (stretched 97).seq.cycle ≤ 97 + 3) ∧
    ((stretched 99).running = true ∧ ((stretched 99).region 2).lastStretch = some 99 ∧ 99 ≠ (stretched 99).seq.cycle) ∧
    ((stretched 100).region 2).lastStretch = some (stretched 100).seq.cycle ∧ base.running = false := by decide +kernel

def stepping (f : FreqStep) : State := { run with clk := { run.clk with steps := [f] } }
def cool (t : U64) : State := { atTime t with clk := { base.clk with freq := 1225 } }
theorem witness_FrequencySteps :
    ((stepping ⟨.down, 4, some 100⟩).clk.hold = none ∧ holding.clk.hold ≠ none) ∧
    (let s := { run with clk := { run.clk with steps := [⟨.down, 4, some 99⟩, ⟨.down, 1, some 100⟩] } }
     s.seq.state = .running ∧ s.clk.hold = none ∧ s.clk.steps = [⟨.down, 4, some 99⟩, ⟨.down, 1, some 100⟩] ∧ 99 ≤ s.seq.cycle ∧ 100 ≤ s.seq.cycle) ∧
    ((stepping ⟨.down, 4, some 100⟩).seq.state = .running ∧ (stepping ⟨.down, 4, some 100⟩).clk.steps = [⟨.down, 4, some 100⟩] ∧
      100 ≤ (stepping ⟨.down, 4, some 100⟩).seq.cycle) ∧
    ((stepping ⟨.cap 1150, 3, some 99⟩).clk.steps = [⟨.cap 1150, 3, some 99⟩] ∧ 99 ≤ (stepping ⟨.cap 1150, 3, some 99⟩).seq.cycle) ∧
    base.seq.state ≠ .running ∧
    ((cool 1000000).clk.lastTrigger.toNat + 1000000 ≤ (cool 1000000).now ∧
      (cool 1000000).clk.target + 25 ≤ tierCap (cool 1000000).pwr.tier.val ∧
      (∀ (r : Fin 8) (i : Fin 8), (((cool 1000000).region r).temps.extractLsb' (8 * i.val) 8).toNat <
        ((cool 1000000).clk.thermal.extractLsb' 0 8).toNat) ∧ ∀ i, ((cool 1000000).stack i).hot = false) ∧
    (cool 999999).now < (cool 999999).clk.lastTrigger.toNat + 1000000 := by decide +kernel
theorem witness_FrequencySteps_not_yet :
    ∀ f ∈ (stepping ⟨.down, 4, some 101⟩).clk.steps, f.up = true ∨ ∀ d, f.fromCycle = some d → (stepping ⟨.down, 4, some 101⟩).seq.cycle < d := by
  intro f h; cases h with
  | head => right; intro d h; cases h; decide +kernel
  | tail _ h => cases h

/-- Sensor 9 of 64 (region 1, sensor 1) at `t` degrees, the others at 94. -/
def sensors (t : Nat) : BitVec 512 := BitVec.ofNat 512 ((2 ^ 512 - 1) / 255 * 94 + (t - 94) * 2 ^ 72)
def tripped (t : U64) : State := { atTime t with pwr := { base.pwr with tripAt := some 0 } }
def runAt (t : U64) : State := { run with time := { run.time with hallTime := t } }
theorem witness_ThermalReadingsAndTrips :
    ((runAt 123456).now % 1000 ≠ 0 ∧ State.reset.pwr.dieOn = false) ∧
    ((runAt 123000).pwr.dieOn = true ∧ (runAt 123000).now % 1000 = 0 ∧ ∀ i : Fin 64, ((sensors 94).extractLsb' (8 * i.val) 8).toNat < 105 ∧
      ((sensors 94).extractLsb' (8 * i.val) 8).toNat < ((runAt 123000).clk.thermal.extractLsb' 8 8).toNat) ∧
    (105 ≤ ((sensors 105).extractLsb' (8 * 9) 8).toNat ∧ (∀ j : Fin 64, j < 9 → ((sensors 105).extractLsb' (8 * j.val) 8).toNat < 105) ∧
      (runAt 123000).seq.state ≠ .empty ∧ (runAt 123000).seq.state ≠ .halted ∧ (runAt 123000).loader.busy = false ∧
      ∀ k, ((runAt 123000).stack k).toRefresh = false ∧ ∀ p, (((runAt 123000).stack k).pc p).q = []) ∧
    ((tripped 59999999999).pwr.dieOn = true ∧ (tripped 59999999999).pwr.tripAt = some 0) := by decide +kernel

def heldSince (t : U64) (met : Option U64) : State :=
  { run with time := { run.time with hallTime := t }, clk := { run.clk with hold := some { held with metAt := met } } }
theorem witness_HoldsEndByReleaseOrTimeout :
    ((heldSince 16 (some 0)).clk.hold = some { held with metAt := some 0 } ∧
      20000 ≤ ((heldSince 16 (some 0)).now - (0 : U64).toNat) * (heldSince 16 (some 0)).clk.freq.toNat ∧ (heldSince 16 (some 0)).clk.steps = []) ∧
    ((heldSince 15 (some 0)).now - (0 : U64).toNat) * (heldSince 15 (some 0)).clk.freq.toNat < 20000 ∧
    (heldSince 16 none).clk.hold = some { held with metAt := none } ∧
    (bits (heldSince 10000001 none).clk.holdCfg 31 8 * 1000 < (heldSince 10000001 none).now - held.since.toNat ∧
      (heldSince 10000001 none).seq.state = .running ∧ held.causes ≠ []) ∧
    (heldSince 10000000 none).now - held.since.toNat ≤ bits (heldSince 10000000 none).clk.holdCfg 31 8 * 1000 := by decide +kernel
def heldFor (h : Hold) (l : List FreqStep) : State :=
  { run with time := { run.time with hallTime := 16 }, clk := { run.clk with hold := some { h with metAt := some 0 }, steps := l } }
theorem witness_HoldsEndByReleaseOrTimeout_steps :
    ((heldFor { held with causes := [⟨3, .hand (.credits 6 1), true⟩] } []).clk.hold =
        some { held with causes := [⟨3, .hand (.credits 6 1), true⟩], metAt := some 0 } ∧
      20000 ≤ (heldFor held []).now * (heldFor held []).clk.freq.toNat ∧ (heldFor held []).clk.steps = []) ∧
    (∀ d ∈ [none, some 100], (heldFor held [⟨.down, 4, d⟩]).clk.steps = [⟨.down, 4, d⟩] ∧
      (d = none ∨ d = some (heldFor held [⟨.down, 4, d⟩]).seq.cycle)) ∧ (heldSince 10000001 none).clk.phase ≠ .wait := by decide +kernel
theorem witness_HoldsEndByReleaseOrTimeout_causes : ∀ x ∈ held.causes, ∀ e n, x.what ≠ .hand (.credits e n) := by
  intro x h e n; cases h with
  | head => exact nofun
  | tail _ h => cases h

/-! ### Commands of the stream -/

theorem witness_IssueUnitCommands :
    Claims.Ready 0x00 (issuing wNop id) 3 wNop (entry wNop) [] ∧ Claims.Ready 0x01 (issuing wPredSet id) 3 wPredSet (entry wPredSet) [] ∧
    Claims.Ready 0x02 (issuing wPredLogic id) 3 wPredLogic (entry wPredLogic) [] ∧
    Claims.Ready 0x03 (issuing wTestSync id) 3 wTestSync (entry wTestSync) [] := by unfold Claims.Ready; decide +kernel

theorem witness_StationaryLoadsSwapsAndFills :
    Claims.Ready 0x10 (issuing wStatLoad id) 3 wStatLoad (entry wStatLoad) [] ∧
    Claims.Ready 0x11 (issuing wStatSwap withShadow) 3 wStatSwap (entry wStatSwap) [] ∧
    Claims.Ready 0x15 (issuing wAcbFill id) 3 wAcbFill (entry wAcbFill) [] := by unfold Claims.Ready; decide +kernel

theorem witness_PassesJoinTheirArray :
    Claims.Ready 0x12 (issuing wPassN id) 3 wPassN (entry wPassN) [] ∧ Claims.Ready 0x13 (issuing wPassT id) 3 wPassT (entry wPassT) [] ∧
    (directStream ((issuing wPassD withFeed).core 3) (engOf (bits (entry wPassD).words.w1 1 0)) 0 = some 1027 ∧
      Claims.Ready 0x14 (issuing wPassD withFeed) 3 wPassD (entry wPassD) []) := by unfold Claims.Ready; decide +kernel

theorem witness_VectorAndTurnCommandsJoinTheirEngine :
    Claims.Ready 0x20 (issuing wChain id) 3 wChain (entry wChain) [] ∧ Claims.Ready 0x21 (issuing wReduce id) 3 wReduce (entry wReduce) [] ∧
    Claims.Ready 0x22 (issuing wMove id) 3 wMove (entry wMove) [] ∧ Claims.Ready 0x40 (issuing wTurn id) 3 wTurn (entry wTurn) [] := by
  unfold Claims.Ready; decide +kernel

theorem witness_StreamCommands :
    (Claims.Ready 0x30 (issuing wArm withDesc) 3 wArm (entry wArm) [] ∧ (opA wArm).getLsbD 16 = false) ∧
    (Claims.Ready 0x30 (issuing wArmBase withDesc) 3 wArmBase (entry wArmBase) [] ∧ (opA wArmBase).getLsbD 16 = true) ∧
    (Claims.Ready 0x31 (issuing wHand0 withStore) 3 wHand0 (entry wHand0) [] ∧
      bits (tget 0 ((issuing wHand0 withStore).core 3).descs 5) 2 0 = 2 ∧ bits (opA wHand0) 20 16 = 0) ∧
    Claims.Ready 0x32 (issuing wRearm withPersist) 3 wRearm (entry wRearm) [] ∧
    Claims.Ready 0x33 (issuing wStop withLoad) 3 wStop (entry wStop) [] := by unfold Claims.Ready; decide +kernel
/-- The store with the entries of its first two blocks read, `n` bytes each. -/
def handing (n : Nat) : State :=
  issuing wHand fun k => (withStore k).updStream 5 fun st => { st with list := [(0, BitVec.ofNat 128 (n * 2 ^ 64)), (1, BitVec.ofNat 128 (n * 2 ^ 64))] }
def handed (n : Nat) : List (Nat × RoundBase × Move) :=
  handMoves (handing n) (tget 0 ((handing n).core 3).descs 5) (((handing n).core 3).stream 5) (((handing n).core 3).stream 5).handed
    (bits (opA wHand) 20 16)
theorem witness_StreamCommands_hand :
    (Claims.Ready 0x31 (issuing wHand withLoad) 3 wHand (entry wHand) [] ∧
      bits (tget 0 ((issuing wHand withLoad).core 3).descs 5) 2 0 = 1) ∧
    (∀ n ∈ [64, 8192], Claims.Ready 0x31 (handing n) 3 wHand (entry wHand) [] ∧ bits (tget 0 ((handing n).core 3).descs 5) 2 0 = 2) ∧
    bits (opA wHand) 20 16 ≠ 0 ∧ (∀ m ∈ handed 64, m.2.2.fault = none) ∧ ((handed 8192).find? fun m => m.2.2.fault.isSome).isSome = true := by
  unfold Claims.Ready; decide +kernel
/-- The same with no entry read; they lie in stack memory, whose block 128 holds an error that cannot be corrected where `bad`. -/
def unread (bad : Bool) : State := { blocks (issuing wHand withStore) with errs := if bad then [(128, [(0, 1), (1, 2), (2, 3), (3, 4), (4, 5)])] else [] }
theorem witness_StreamCommands_entries : ∀ bad : Bool,
    wHand.opcode = 0x31 ∧ ((unread bad).core 3).ahead = [entry wHand] ∧ (entry wHand).words = normWords wHand ∧ (unread bad).running = true ∧
    (entry wHand).issue = (unread bad).seq.cycle ∧
    (missingEntries ((foldS (readEntry 3 5) (missingEntries ((unread bad).core 3) wHand) (unread bad)).core 3) wHand = [] ↔ bad = false) := by
  decide +kernel

theorem witness_ChannelCommands :
    Claims.Ready 0x50 (issuing wSend withSender) 3 wSend (entry wSend) [] ∧
    Claims.Ready 0x52 (issuing wClose withSender) 3 wClose (entry wClose) [] ∧
    (Claims.Ready 0x51 (issuing wRelease withReceiver) 3 wRelease (entry wRelease) [] ∧
      epRole (((issuing wRelease withReceiver).core 3).ep 6).desc = 2 ∧
      epPeerModule (((issuing wRelease withReceiver).core 3).ep 6).desc ≠ (issuing wRelease withReceiver).module) ∧
    (Claims.Ready 0x51 (issuing wRelease withLocalSender) 3 wRelease (entry wRelease) [] ∧
      epRole (((issuing wRelease withLocalSender).core 3).ep 6).desc = 2 ∧ Claims.rings (sigsOf wRelease) = false ∧
      epPeerModule (((issuing wRelease withLocalSender).core 3).ep 6).desc = (issuing wRelease withLocalSender).module ∧
      epPeerCore (((issuing wRelease withLocalSender).core 3).ep 6).desc ≠ 3) := by
  unfold Claims.Ready; decide +kernel

theorem witness_BellCommands :
    (Claims.Ready 0x60 (issuing wBell id) 3 wBell (entry wBell) [] ∧ (opA wBell).getLsbD 59 = false ∧ (opA wBell).getLsbD 60 = false ∧
      (opA wBell).getLsbD 61 = false ∧ Claims.rings (sigsOf wBell) = false ∧
      (entry wBell).words.w1.extractLsb' 52 12 = (issuing wBell id).module) ∧
    Claims.Ready 0x61 (issuing wBuoyArm id) 3 wBuoyArm (entry wBuoyArm) [] ∧
    (Claims.Ready 0x62 (issuing wBuoyDisarm withBuoy) 3 wBuoyDisarm (entry wBuoyDisarm) [] ∧
      (((issuing wBuoyDisarm withBuoy).core 3).buoy ((opA wBuoyDisarm).extractLsb' 0 6)).armed = true) ∧
    Claims.Ready 0x63 (issuing wBellTest withBuoy) 3 wBellTest (entry wBellTest) [] := by unfold Claims.Ready; decide +kernel

theorem witness_BellCommands_far :
    (Claims.Ready 0x60 (withFar (issuing wBellFar id)) 3 wBellFar (entry wBellFar) [] ∧ (opA wBellFar).getLsbD 60 = false ∧
      (opA wBellFar).getLsbD 61 = false ∧ Claims.rings (sigsOf wBellFar) = false ∧
      haModule ((entry wBellFar).words.w1.extractLsb' 0 64) ≠ (withFar (issuing wBellFar id)).module) ∧
    (Claims.Ready 0x60 (withFar (issuing wBellFarX id)) 3 wBellFarX (entry wBellFarX) [] ∧ (opA wBellFarX).getLsbD 60 = false ∧
      (opA wBellFarX).getLsbD 61 = true) ∧
    (Claims.Ready 0x60 (withFar (issuing wBellMc id)) 3 wBellMc (entry wBellMc) [] ∧ (opA wBellMc).getLsbD 60 = true ∧
      (opA wBellMc).getLsbD 61 = false) ∧
    (Claims.Ready 0x60 (withFar (issuing wBellMcX id)) 3 wBellMcX (entry wBellMcX) [] ∧ (opA wBellMcX).getLsbD 60 = true ∧
      (opA wBellMcX).getLsbD 61 = true) := by unfold Claims.Ready; decide +kernel

theorem witness_EveryStreamCommandIsGuarded :
    ((Instr.nop 3 wPredSet).spelt = some (0x00, wPredSet) ∧ Claims.rowCore (.nop 3 wPredSet) = some 3 ∧ wPredSet.opcode ≠ 0x00) ∧
    ((Instr.nop 3 wNop).spelt = some (0x00, wNop) ∧ wNop.opcode = 0x00 ∧ (base.core 3).ahead = []) ∧
    (base.seq.state ≠ .running ∧ base.seq.state ≠ .halted) ∧
    ((Instr.streamHand 3 wHand).spelt = some (0x31, wHand) ∧ Claims.rowCore (.streamHand 3 wHand) = some 3 ∧ wHand.opcode = 0x31 ∧
      ((issuing wHand id).core 3).ahead = [entry wHand] ∧ (entry wHand).words = normWords wHand ∧ (issuing wHand id).running = true ∧
      (entry wHand).issue = (issuing wHand id).seq.cycle ∧ missingEntries ((issuing wHand id).core 3) (entry wHand).words = [] ∧
      commandCauses (issuing wHand id) 3 (entry wHand) ≠ []) := by decide +kernel

/-- The running module, core 3 about to issue the looked-out command `e`. -/
def issuingEntry (e : LookEntry) : State := run.updCore 3 fun k => { k with ahead := [e], blockWords := 8 }
theorem witness_SkippedCommandsHaveNoEffect :
    missingEntries ((issuingEntry { entry wNop with skip := true }).core 3) (entry wNop).words = [] ∧
    wNop.opcode = 0x00 ∧ ((issuingEntry { entry wNop with skip := true }).core 3).ahead = [{ entry wNop with skip := true }] ∧
    (entry wNop).words = normWords wNop ∧ (issuingEntry { entry wNop with skip := true }).running = true ∧
    (entry wNop).issue = (issuingEntry { entry wNop with skip := true }).seq.cycle ∧
    commandCauses (issuingEntry { entry wNop with skip := true }) 3 { entry wNop with skip := true } = [] ∧
    (entry wNop).idx + nwordsOf (entry wNop).words < ((issuingEntry { entry wNop with skip := true }).core 3).blockWords := by decide +kernel

/-- A NOP that waits for flag 5, and one with PROG = 1. -/
def wWait : CmdWords := ⟨wNop.w0 + BitVec.ofNat 256 (0x45000001 * 2 ^ 64), 0, 0, 0⟩
def wProg : CmdWords := ⟨wNop.w0 + BitVec.ofNat 256 (2 ^ 35), 0, 0, 0⟩
/-- Core 3 in the lookout cycle of its first command, which issues in cycle 108. -/
def looking (w : CmdWords) (next : U64) (h : Option Hold) : State :=
  { run.updCore 3 fun k => { k with bank0 := [(0, w.w0)], blockWords := 8, lookPrev := 98 } with
    seq := { run.seq with nextAt := next }, clk := { run.clk with hold := h } }
theorem witness_LookoutsSampleTheNextCommand :
    ¬ (base.seq.state = .running ∧ nextLook base 3 = some (normWords wNop, 108) ∧ 108 - 8 = base.seq.cycle) ∧
    ((looking wNop 200000 none).seq.state = .running ∧ nextLook (looking wNop 200000 none) 3 = some (normWords wNop, 108) ∧
      108 - 8 = (looking wNop 200000 none).seq.cycle ∧ wNop.w0.getLsbD 35 = false ∧
      ∀ x ∈ looksAt ((looking wNop 200000 none).core 3) (normWords wNop), waitMet (looking wNop 200000 none) 3 x = true) ∧
    (nextLook (looking wWait 200000 none) 3 = some (normWords wWait, 108) ∧ wWait.w0.getLsbD 35 = false ∧
      (looksAt ((looking wWait 200000 none).core 3) (normWords wWait)).filter (fun x => !waitMet (looking wWait 200000 none) 3 x) ≠ [] ∧
      (looking wWait 200000 none).clk.hold = none) ∧
    (nextLook (looking wWait 200000 (some held)) 3 = some (normWords wWait, 108) ∧
      (looksAt ((looking wWait 200000 (some held)).core 3) (normWords wWait)).filter (fun x => !waitMet (looking wWait 200000 (some held)) 3 x) ≠ [] ∧
      (looking wWait 200000 (some held)).clk.hold = some held) ∧
    (nextLook (looking wProg 127369 none) 3 = some (normWords wProg, 108) ∧ wProg.w0.getLsbD 35 = true ∧ (looking wProg 127369 none).seq.timed = true ∧
      (looking wProg 127369 none).seq.suspended = false ∧ (looking wProg 127369 none).seq.nextAt.toNat < (looking wProg 127369 none).predict 108 ∧
      ∀ x ∈ looksAt ((looking wProg 127369 none).core 3) (normWords wProg), waitMet (looking wProg 127369 none) 3 x = true) ∧
    ((looking wProg 127370 none).seq.timed = true ∧ (looking wProg 127370 none).predict 108 ≤ (looking wProg 127370 none).seq.nextAt.toNat) := by
  decide +kernel

/-! ### Completions -/

/-- The running module in cycle `n`, core 3 as `f` sets it up. -/
def coreAt (n : Nat) (f : Core → Core) : State := { run.updCore 3 f with seq := { run.seq with cycle := n } }
def withArr (u : ArrayUnit) (k : Core) : Core := { k with arrays := k.arrays.set 0 u }
def loadRec : LoadRec := ⟨0, 32, 0, false, 7, 256, 0, 0⟩
def passRec (issue : Nat) (direct : Option (BitVec 11)) : PassRec :=
  { idx := 0, issue := issue, rows := 4, tOrient := false, direct := direct, mfmt := 0, mode := 0, rtz := false, entry := 0, pitch := 2
    src := 0, scaleSrc := 0, useSetB := false, sig := 0x10500001 }
def fillRec : FillRec := ⟨0, 90, 5, 8, 77, 0⟩
def arrDone : State := coreAt 272 (withArr { load := some { loadRec with issue := 204 }, passes := [passRec 0 none]
                                             fills := [{ fillRec with issue := 262 }] })
theorem witness_ArrayCompletionsFireTheirSignals :
    (((arrDone.core 3).arr 0).load = some { loadRec with issue := 204 } ∧
      (204 + 4 + loadCycles loadRec.fmt loadRec.sparse ≤ arrDone.seq.cycle)) ∧
    (((arrDone.core 3).arr 0).passes = [] ++ passRec 0 none :: [] ∧ (passRec 0 none).done ≤ arrDone.seq.cycle) ∧
    (((arrDone.core 3).arr 0).fills = [] ++ { fillRec with issue := 262 } :: [] ∧ 262 + 2 + fillRec.count ≤ arrDone.seq.cycle) := by decide +kernel

def vecRec (w : CmdWords) : VecRec := { idx := 0, issue := 83, words := w, skipped := false }
def vecDone (w : CmdWords) (f : Core → Core) : State := coreAt 100 fun k => { f k with vec := { k.vec with inFlight := [vecRec w] } }
/-- The REDUCE with PEN, and the chain with its mask-out block on engine 0. -/
def wReduceP := cw 0x21 3 2 (1 * 2 ^ 56 + 2 * 2 ^ 52 + 2 ^ 51 + 2 ^ 43) 0 0 0
def wChainM := cw 0x20 3 2 (2 ^ 63 + 11 * 2 ^ 42 + 1) 0 ((1 * 2 ^ 43 + 5) * 2 ^ 48 + 11 * 2 ^ 42 + 2) 0
def withMaskOut (k : Core) : Core := { k with descs := [(9, 5)], streams := [(9, { armed := true })] }
theorem witness_VectorCompletionWritesPredicates :
    (((vecDone wMove id).core 3).vec.inFlight = [] ++ vecRec wMove :: [] ∧ (vecRec wMove).done ≤ (vecDone wMove id).seq.cycle ∧
      (vecRec wMove).words.opcode = 0x22) ∧
    ((vecRec wReduce).done ≤ (vecDone wReduce id).seq.cycle ∧ (vecRec wReduce).words.opcode = 0x21 ∧ rdPen (vecRec wReduce).words = false) ∧
    ((vecRec wReduceP).done ≤ (vecDone wReduceP id).seq.cycle ∧ (vecRec wReduceP).words.opcode = 0x21 ∧ rdPen (vecRec wReduceP).words = true) ∧
    ((vecRec wChain).done ≤ (vecDone wChain id).seq.cycle ∧ (vecRec wChain).words.opcode = 0x20 ∧
      ((chMout wChain).bind fun g => maskStream ((vecDone wChain id).core 3) g 5) = none) ∧
    ((vecRec wChainM).done ≤ (vecDone wChainM withMaskOut).seq.cycle ∧ (vecRec wChainM).words.opcode = 0x20 ∧
      ((chMout wChainM).bind fun g => maskStream ((vecDone wChainM withMaskOut).core 3) g 5) = some 9) := by decide +kernel

def storeHand : StoreHand :=
  { idx := 0, issue := 97, desc := 5, moves := [⟨0, 65536, 4096, 64⟩, ⟨1, 65600, 4160, 64⟩], lines := [4096, 4160], port := none
    skipped := false, sig := 0 }
/-- The same whose second element goes to module 9. -/
def storeHandFar : StoreHand := { storeHand with moves := [⟨0, 65536, 4096, 64⟩, ⟨1, BitVec.ofNat 64 (9 * 2 ^ 52), 4160, 64⟩] }
def handFar : State := withFar (blocks (coreAt 100 fun k => { withStore k with engines := k.engines.set 0 { hands := [storeHandFar] } }))
def handDone : State := blocks (coreAt 100 fun k => { withStore k with engines := k.engines.set 0 { hands := [storeHand] } })
def turnRec (dir issue : Nat) : TurnRec := { idx := 0, issue := issue, words := cw 0x40 8 3 (dir * 2 ^ 63 + 4 * 2 ^ 25) 0 4096 0, tile := 1 - dir }
def turnDone (r : TurnRec) : State := coreAt 100 fun k => { k with turn := { inFlight := [r] } }
def chMsg : ChMsg :=
  { module := 0, core := 3, ep := 6, routeGen := 0, seq := 0, units := 2, need := 2, ring := 0, at_ := 0, skipAt := none, srcCore := 3, srcEp := 6
    bytes := [1, 2, 3, 4] }
/-- An endpoint of role `role` whose peer is endpoint 0 of core 0 of module `m`. -/
def epDesc (m role : Nat) : W256 := BitVec.ofNat 256 (2 ^ 128 * 2 ^ 52 * m + 2 ^ 96 * 16 + 2 ^ 64 * 64 + role)
def sendRec : SendRec := ⟨0, 97, 6, 0, 500, false, 0, some chMsg, []⟩
def sendDone : State := coreAt 100 fun k => { withSender k with sends := [sendRec] }
/-- The same to an endpoint of module 9, and to group 0. -/
def sendFar : State := withFar (coreAt 100 fun k => { k with sends := [sendRec], eps := [(6, { desc := epDesc 9 1, open_ := true })] })
def sendMc : State := withFar (coreAt 100 fun k => { k with sends := [sendRec], eps := [(6, { desc := epDesc 0 3, open_ := true })] })
theorem witness_TransfersCompleteInOrder :
    (((handDone.core 3).eng 0).hands = [] ++ storeHand :: [] ∧ storeHand.skipped = false ∧ storeHand.lastRead ≤ handDone.seq.cycle ∧
      (∀ m ∈ storeHand.moves, haModule m.hall = handDone.module) ∧ Claims.rings storeHand.sig = false) ∧
    (((handFar.core 3).eng 0).hands = [] ++ storeHandFar :: [] ∧ storeHandFar.lastRead ≤ handFar.seq.cycle ∧
      ∃ m ∈ storeHandFar.moves, haModule m.hall ≠ handFar.module ∧ 0 < m.len) ∧
    (((turnDone (turnRec 0 50)).core 3).turn.inFlight = [] ++ turnRec 0 50 :: [] ∧ (turnRec 0 50) ∉ ([] : List TurnRec) ∧ (turnRec 0 50).readDone = false ∧
      tnDir (turnRec 0 50).words = 0 ∧ tnTiles (turnRec 0 50).words ≤ (turnRec 0 50).tile) ∧
    (((turnDone (turnRec 1 35)).core 3).turn.inFlight = [] ++ turnRec 1 35 :: [] ∧ tnDir (turnRec 1 35).words = 1 ∧
      (turnRec 1 35).spanEnd ≤ (turnDone (turnRec 1 35)).seq.cycle) ∧
    ((sendDone.core 3).sends = [] ++ sendRec :: [] ∧ sendRec.msg = some chMsg ∧ sendRec.skipped = false ∧ sendRec.lastRead ≤ sendDone.seq.cycle ∧
      epRole ((sendDone.core 3).ep sendRec.ep).desc ≠ 3 ∧ epPeerModule ((sendDone.core 3).ep sendRec.ep).desc = sendDone.module ∧
      Claims.rings sendRec.sig = false) ∧
    ((sendFar.core 3).sends = [] ++ sendRec :: [] ∧ epRole ((sendFar.core 3).ep sendRec.ep).desc ≠ 3 ∧
      epPeerModule ((sendFar.core 3).ep sendRec.ep).desc ≠ sendFar.module ∧
      chMsg.bytes ++ mreads sendRec.buf sendRec.src sendRec.len ≠ []) ∧
    epRole ((sendMc.core 3).ep sendRec.ep).desc = 3 := by decide +kernel

/-! ### Elastic slices and direct rows -/

/-- A pass whose first slice of group `g` is due in cycle 100 at lateness `late`; `esc` escalations in this leg. -/
def slicing (issue : Nat) (direct : Option (BitVec 11)) (late : Nat) (rows : List FedRow) (esc : Nat) : State :=
  { coreAt 100 (withArr { passes := [passRec issue direct], late := Vector.replicate 8 late, rows := rows }) with
    seq := { run.seq with cycle := 100, esc := esc } }
def SliceDue (s : State) (g : Fin 8) (p : PassRec) : Prop :=
  s.seq.state = .running ∧ (((s.core 3).arr 0).dueSlice g s.seq.cycle).isSome = true ∧
  (raiseLate g ((s.core 3).arr 0)).dueSlice g s.seq.cycle = some (p, 0)
theorem witness_SlicesEnterOrComeLate :
    (SliceDue (slicing 96 none 0 [] 0) 0 (passRec 96 none) ∧ (passRec 96 none).direct = none) ∧
    (SliceDue (slicing 96 (some 1027) 0 [⟨1, [], []⟩, ⟨0, [7], []⟩] 0) 0 (passRec 96 (some 1027)) ∧
      ((raiseLate 0 (((slicing 96 (some 1027) 0 [⟨1, [], []⟩, ⟨0, [7], []⟩] 0).core 3).arr 0)).rows.find? fun r =>
        r.m == (passRec 96 (some 1027)).first + 0) = some ⟨0, [7], []⟩) ∧
    SliceDue (slicing 80 (some 1027) 0 [] 0) 1 (passRec 80 (some 1027)) ∧
    (SliceDue (slicing 89 (some 1027) 7 [⟨1, [], []⟩] 0) 0 (passRec 89 (some 1027)) ∧
      (raiseLate 0 (((slicing 89 (some 1027) 7 [⟨1, [], []⟩] 0).core 3).arr 0)).slicePresent 0 (passRec 89 (some 1027)) 0 = false ∧
      (raiseLate 0 (((slicing 89 (some 1027) 7 [⟨1, [], []⟩] 0).core 3).arr 0)).late.get 0 < 8) ∧
    (SliceDue (slicing 88 (some 1027) 8 [] 15) 0 (passRec 88 (some 1027)) ∧
      (raiseLate 0 (((slicing 88 (some 1027) 8 [] 15).core 3).arr 0)).slicePresent 0 (passRec 88 (some 1027)) 0 = false ∧
      8 ≤ (raiseLate 0 (((slicing 88 (some 1027) 8 [] 15).core 3).arr 0)).late.get 0 ∧ (slicing 88 (some 1027) 8 [] 15).clk.hold = none ∧
      (slicing 88 (some 1027) 8 [] 15).seq.esc < (slicing 88 (some 1027) 8 [] 15).clk.escLimit) ∧
    (SliceDue (slicing 88 (some 1027) 8 [] 16) 0 (passRec 88 (some 1027)) ∧ (slicing 88 (some 1027) 8 [] 16).clk.escLimit ≠ 0 ∧
      (slicing 88 (some 1027) 8 [] 16).clk.escLimit ≤ (slicing 88 (some 1027) 8 [] 16).seq.esc) := by unfold SliceDue; decide +kernel
/-- An absent slice of group 0 past its lateness, in a hold (for this slice where `own`), and on a die halted in this cycle, or before it. -/
def escalating (own : Bool) (esc : Nat) : State :=
  { slicing 88 (some 1027) 8 [] esc with clk := { run.clk with hold := some { held with causes := [{ core := 3, what := .slice 0 (if own then 0 else 1) }] } } }
def haltedThen (slice : State) (time : U64) : State :=
  { slice with seq := { slice.seq with state := .halted }
               mgmt := { slice.mgmt with halt := { slice.mgmt.halt with valid := true, reason := hcSlot, time := time } } }
/-- The same slice, due and absent. -/
def Absent (s : State) : Prop :=
  (((s.core 3).arr 0).dueSlice 0 s.seq.cycle).isSome = true ∧ (raiseLate 0 ((s.core 3).arr 0)).dueSlice 0 s.seq.cycle = some (passRec 88 (some 1027), 0) ∧
  (raiseLate 0 ((s.core 3).arr 0)).slicePresent 0 (passRec 88 (some 1027)) 0 = false ∧ 8 ≤ (raiseLate 0 ((s.core 3).arr 0)).late.get 0
theorem witness_SlicesEnterOrComeLate_holds :
    (∀ n ∈ [15, 16], Absent (escalating false n) ∧ (escalating false n).seq.state = .running ∧ (escalating false n).waitsSlice 3 0 0 = false ∧
      (slicing 88 (some 1027) 8 [] n).waitsSlice 3 0 0 = false ∧ ((escalating false n).seq.esc < (escalating false n).clk.escLimit ↔ n = 15)) ∧
    (escalating true 15).waitsSlice 3 0 0 = true ∧
    (∀ n ∈ [15, 16], Absent (haltedThen (slicing 88 (some 1027) 8 [] n) 123456) ∧
      sameHaltCycle (haltedThen (slicing 88 (some 1027) 8 [] n) 123456) = true ∧
      (haltedThen (slicing 88 (some 1027) 8 [] n) 123456).clk.hold = none) ∧
    (sameHaltCycle (haltedThen (slicing 88 (some 1027) 8 [] 16) 123455) = false ∧
      (haltedThen (slicing 88 (some 1027) 8 [] 16) 123455).seq.state ≠ .running) := by unfold Absent; decide +kernel

def arrived : Elem := { pos := 0, need := 0, len := 256 }
theorem witness_DirectRowsReachTheLinks :
    arrivedRow ((coreAt 100 fun k => { withFeed k with streams := [(1027, { armed := true, elems := [arrived] })] }).core 3) 0 =
      some (1027, arrived) := by decide +kernel

/-! ### Streams at work -/

/-- A load of the store descriptor's places, `asked` of its block entries asked for and the first one, `b`, read. -/
def withFetch (asked : Nat) (b : BitVec 128) (k : Core) : Core :=
  { k with descs := [(5, (tget 0 (withStore k).descs 5) - 1)]
           streams := [(5, { armed := true, asked := asked, list := [(0, b)], bases := [⟨65536, 0, 0⟩] })] }
/-- A block entry of `len` bytes at offset `off` of its stack range. -/
def block (off len : Nat) : BitVec 128 := BitVec.ofNat 128 (len * 2 ^ 64 + off)
def waiting : Elem := { pos := 0, need := 64, hall := 65536, sp := 4096, len := 64, started := false }
def withWrite (k : Core) : Core :=
  { withStore k with
    streams := [(5, { armed := true, asked := 4, list := [(0, block 0 64)], bases := [⟨65536, 0, 0⟩], elems := [waiting] })]
    path := [.store 5 0] }
def listing : State := blocks (coreAt 100 (withFetch 0 0))
def fetching : State := blocks (coreAt 100 (withFetch 4 (block 4032 64)))
/-- The same from a stack of module 9, with a write window there where `far`. -/
def fetchFar (far : Bool) : State := (if far then withFar else id) (coreAt 100 fun k =>
  (withFetch 4 (block 0 64) k).updStream 5 fun st => { st with bases := [⟨BitVec.ofNat 64 (9 * 2 ^ 52), 0, 0⟩] })
def outside : State := coreAt 100 (withFetch 4 (block 4092 8))
def writing : State := blocks (coreAt 100 withWrite)
theorem witness_LeadSidesStartElements :
    (leadPick (listing.core 3) 0 = some 5 ∧ listDue (tget 0 (listing.core 3).descs 5) ((listing.core 3).stream 5) = true ∧
      listAddr (tget 0 (listing.core 3).descs 5) ((listing.core 3).stream 5).asked = 8192 ∧ 8192 % 16 = 0) ∧
    (fetching.seq.state ≠ .halted ∧ fetching.seq.state ≠ .empty ∧ leadPick (fetching.core 3) 0 = some 5 ∧
      listDue (tget 0 (fetching.core 3).descs 5) ((fetching.core 3).stream 5) = false ∧
      fetches (tget 0 (fetching.core 3).descs 5) = true ∧
      roundOf ((fetching.core 3).stream 5) (tget 0 (fetching.core 3).descs 5) 0 = some ⟨65536, 0, 0⟩ ∧
      (moveOf fetching (tget 0 (fetching.core 3).descs 5) ((fetching.core 3).stream 5) ⟨65536, 0, 0⟩ 0).fault = none ∧
      haSpace (moveOf fetching (tget 0 (fetching.core 3).descs 5) ((fetching.core 3).stream 5) ⟨65536, 0, 0⟩ 0).hall = 0) ∧
    (∀ q : Bool, leadPick ((fetchFar q).core 3) 0 = some 5 ∧ listDue (tget 0 ((fetchFar q).core 3).descs 5) (((fetchFar q).core 3).stream 5) = false ∧
      fetches (tget 0 ((fetchFar q).core 3).descs 5) = true ∧
      roundOf (((fetchFar q).core 3).stream 5) (tget 0 ((fetchFar q).core 3).descs 5) 0 = some ⟨BitVec.ofNat 64 (9 * 2 ^ 52), 0, 0⟩ ∧
      (moveOf (fetchFar q) (tget 0 ((fetchFar q).core 3).descs 5) (((fetchFar q).core 3).stream 5) ⟨BitVec.ofNat 64 (9 * 2 ^ 52), 0, 0⟩ 0).fault = (if q then none else some (BitVec.ofNat 64 (9 * 2 ^ 52))) ∧
      haModule (moveOf (fetchFar q) (tget 0 ((fetchFar q).core 3).descs 5) (((fetchFar q).core 3).stream 5) ⟨BitVec.ofNat 64 (9 * 2 ^ 52), 0, 0⟩ 0).hall ≠
        (fetchFar q).module) ∧
    (leadPick (outside.core 3) 0 = some 5 ∧ listDue (tget 0 (outside.core 3).descs 5) ((outside.core 3).stream 5) = false ∧
      (moveOf outside (tget 0 (outside.core 3).descs 5) ((outside.core 3).stream 5) ⟨65536, 0, 0⟩ 0).fault = some 69632) ∧
    (leadPick (writing.core 3) 0 = some 5 ∧ listDue (tget 0 (writing.core 3).descs 5) ((writing.core 3).stream 5) = false ∧
      fetches (tget 0 (writing.core 3).descs 5) = false ∧ sdStrided (tget 0 (writing.core 3).descs 5) = false ∧
      waitingOut (writing.core 3) 5 (tget 0 (writing.core 3).descs 5) ((writing.core 3).stream 5) = some waiting ∧
      roundOf ((writing.core 3).stream 5) (tget 0 (writing.core 3).descs 5) 0 = some ⟨65536, 0, 0⟩ ∧ haSpace waiting.hall = 0) := by decide +kernel

def fillAcc (o : FillOp) (t : Tag) : FillAcc := { port := 0, addr := 256, op := o, tag := t }
def filling (o : FillOp) (t : Tag) (busy : U32) : State := coreAt 100 fun k => { withLoad k with fills := [fillAcc o t], busyBanks := busy }
def four : FillOp := .write [1, 2, 3, 4]
theorem witness_FillsAreWrittenInFreeBanks :
    ((filling four .none 2).running = true ∧ ((filling four .none 2).core 3).busyBanks.getLsbD (1 : BitVec 5).toNat = true) ∧
    nextFill ((filling four .none 0).core 3).fills (2 : BitVec 5).toNat = none ∧
    Claims.FillTurn (filling four .none 1) 3 1 (fillAcc four .none) ∧
    Claims.FillTurn (filling four (.loadPiece 3 5 0 256) 0) 3 1 (fillAcc four (.loadPiece 3 5 0 256)) ∧
    Claims.FillTurn (filling four (.storePiece 4 5 0) 0) 3 1 (fillAcc four (.storePiece 4 5 0)) ∧
    Claims.FillTurn (filling four (.message 4) 0) 3 1 (fillAcc four (.message 4)) ∧
    Claims.FillTurn (filling (.read 8) (.job 2 0) 0) 3 1 (fillAcc (.read 8) (.job 2 0)) ∧
    ((filling four .none 0).staleLines ((filling four .none 0).core 3)).find? (fun x => x.1 == (fillAcc four .none).addr / 256) = none := by
  unfold Claims.FillTurn; decide +kernel
/-- Core 3 after an access of port `p` at bank `b` in cycle `n`. -/
def used (n p b : Nat) : State :=
  (filling four .none 0).updCore 3 fun k => { k with fillAt := some (123456, n), fillPorts := [p], fillBanks := [b] }
theorem witness_FillsAreWrittenInFreeBanks_once :
    (∀ x ∈ [(0, 9), (7, 1)], nextFill ((used 100 x.1 x.2).core 3).fills 1 = some (fillAcc four .none) ∧
      ((fillAcc four .none).port ∈ (((used 100 x.1 x.2).core 3).filled ((used 100 x.1 x.2).time.hallTime, (used 100 x.1 x.2).seq.cycle)).1 ∨
        1 ∈ (((used 100 x.1 x.2).core 3).filled ((used 100 x.1 x.2).time.hallTime, (used 100 x.1 x.2).seq.cycle)).2)) ∧
    Claims.FillTurn (used 99 0 1) 3 1 (fillAcc four .none) ∧ Claims.FillTurn (used 100 7 9) 3 1 (fillAcc four .none) := by
  unfold Claims.FillTurn; decide +kernel

/-- A stream of kind `kind` in slot 5 with one element whose bytes are all in place. -/
def complete (kind : Nat) : State :=
  coreAt 100 fun k => { k with descs := [(5, BitVec.ofNat 512 kind)], streams := [(5, { armed := true, elems := [arrived] })] }
theorem witness_ElementsCompleteInOrder :
    (sdKind (tget 0 ((complete 1).core 3).descs 5) = 1 ∧ ((complete 1).core 3).stream 5 = { armed := true, elems := [] ++ arrived :: [] } ∧
      arrived.need = 0 ∧ arrived.done = false) ∧
    (sdKind (tget 0 ((complete 4).core 3).descs 5) = 4 ∧ arrived ∉ ([] : List Elem)) ∧
    (sdKind (tget 0 ((complete 2).core 3).descs 5) = 2 ∧ arrived.started = true) ∧
    sdKind (tget 0 ((complete 5).core 3).descs 5) = 5 ∧
    (sdKind (tget 0 ((complete 3).core 3).descs 5) ≠ 1 ∧ sdKind (tget 0 ((complete 3).core 3).descs 5) ≠ 4 ∧
      sdKind (tget 0 ((complete 3).core 3).descs 5) ≠ 2 ∧ sdKind (tget 0 ((complete 3).core 3).descs 5) ≠ 5) := by decide +kernel

/-! ### Bells and channels -/

/-- An operation of core 3 on the scratchpad word at 64 of core 4 (space 1), or on the stack word at 4096 (space 0). -/
def bellReq (op : BitVec 2) (express : Bool) (o : BellOrigin) : BellReq :=
  { op := op, addr := BitVec.ofNat 64 (2 ^ 48 + 4 * 2 ^ 40 + 64), operand := 7, express := express, srcModule := 0, srcCore := 3, cmd := 0
    origin := o }
def belling (op : BitVec 2) : State :=
  coreAt 100 fun k => { k with path := [.bell (bellReq op false .ordered)], expPath := [bellReq op true .express] }
/-- The operation `f` next at its word's bank of core 4. -/
def atWord (r : BellReq) (old : Option U64) : FillAcc := { port := 14, addr := 64, op := .bell r old, tag := .none }
def bellHere (r : BellReq) (old : Option U64) : State :=
  (coreAt 100 id).updCore 4 fun k => { k with fills := [atWord r old] }
theorem witness_BellOperationsReachTheirHome :
    (∀ op : BitVec 2, ((belling op).core 3).nextBell op false = some (bellReq op false .ordered)) ∧
    (∀ op : BitVec 2, ((belling op).core 3).nextBell op true = some (bellReq op true .express)) ∧
    (∀ op : BitVec 2, ((coreAt 100 id).core 3).nextBell op false = none ∧ ((coreAt 100 id).core 3).nextBell op true = none) ∧
    placeOf (belling 0) (haSpace (bellReq 0 false .ordered).addr) (haOff (bellReq 0 false .ordered).addr) = .spad 4 64 ∧
    placeOf (belling 0) (haSpace 4096) (haOff 4096) = .dram 4096 := by decide +kernel
theorem witness_BellOperationsAreApplied :
    (∀ op : BitVec 2, Claims.FillTurn (bellHere (bellReq op false .ordered) none) 4 0 (atWord (bellReq op false .ordered) none)) ∧
    (∀ op : BitVec 2, Claims.FillTurn (bellHere (bellReq op false .ordered) (some 9)) 4 0 (atWord (bellReq op false .ordered) (some 9)) ∧
      (bellHere (bellReq op false .ordered) (some 9)).bellTaken (bellReq op false .ordered) = false) ∧
    Claims.FillTurn (bellHere (bellReq 0 true .express) (some 9)) 4 0 (atWord (bellReq 0 true .express) (some 9)) ∧
    (bellReq 0 false .ordered).srcModule = (bellHere (bellReq 0 false .ordered) none).module ∧
    (((bellHere (bellReq 3 false .ordered) none).updCore 4 fun k => { k with bellAt := some (123456, 100) }).bellTaken
      (bellReq 3 false .ordered) = true ∧
     Claims.FillTurn ((bellHere (bellReq 3 false .ordered) none).updCore 4 fun k => { k with bellAt := some (123456, 100) }) 4 0
      (atWord (bellReq 3 false .ordered) none)) := by unfold Claims.FillTurn; decide +kernel

def watching (r : BuoyReg) (v : List ReadValue) : State :=
  bellHere (bellReq 3 false (.buoy 3 2)) none |>.updCore 3 fun k =>
    { k with buoys := [(2, { armed := true, addr := (bellReq 0 false .ordered).addr, reg := r })], readValues := v }
theorem witness_BuoyAndReadValuesArrive :
    ((((watching .registering []).core 3).buoy 2).armed = true ∧ (((watching .registering []).core 3).buoy 2).reg = .registering) ∧
    (((watching .idle []).core 3).buoy 2).reg ≠ .registering ∧
    (Claims.FillTurn (watching .reading []) 4 0 (atWord (bellReq 3 false (.buoy 3 2)) none) ∧
      ((watching .reading []).core (homeCore (watching .reading []) (bellReq 3 false (.buoy 3 2)).addr)).bellAt ≠
        some ((watching .reading []).time.hallTime, (watching .reading []).seq.cycle) ∧
      (((watching .reading []).core 3).buoy 2).reg = .reading ∧
      (((watching .reading []).core 3).buoy 2).addr = (bellReq 3 false (.buoy 3 2)).addr) ∧
    (((watching (.returning 5 [6]) []).core 3).buoy 2).reg = .returning 5 [6] ∧
    (((watching .idle [⟨0, 64, 9, some 4, none⟩]).core 3).readValues = ⟨0, 64, 9, some 4, none⟩ :: [] ∧
      (∀ x ∈ ([⟨0, 64, 9, some 4, none⟩] : List ReadValue), x.need ≠ some 0)) ∧
    (((watching .idle [⟨0, 64, 9, none, some 8⟩, ⟨1, 72, 9, some 4, some 0⟩]).core 3).readValues =
      [⟨0, 64, 9, none, some 8⟩] ++ ⟨1, 72, 9, some 4, some 0⟩ :: []) ∧
    (∀ x ∈ ((watching .idle [⟨0, 64, 9, none, some 8⟩]).core 3).readValues, x.need ≠ none ∧ x.need ≠ some 0) := by
  unfold Claims.FillTurn; decide +kernel

/-- A message `m` of core 4 for endpoint 6 of core 3, which is open or not and of generation `g`. -/
def landing (open_ : Bool) (g : Nat) (m : ChMsg) (need : Option Nat) : State :=
  (coreAt 100 fun k => { k with eps := [(6, { desc := BitVec.ofNat 256 (2 ^ 96 * 16 + 2 ^ 64 * 64 + g * 2 ^ 16 + 2), open_ := open_ })] }).updCore 4
    fun k => { k with path := [.message m], pathNeed := need }
def skipMsg : ChMsg := { chMsg with skipAt := some 15 }
theorem witness_MessagesLand :
    (headMessage ((landing true 0 chMsg none).core 4) 3 6 = some chMsg ∧
      (∀ k, k ≠ 4 → headMessage ((landing true 0 chMsg none).core k) 3 6 = none) ∧ ((landing true 0 chMsg none).core 4).pathNeed = none ∧
      (((landing true 0 chMsg none).core 3).ep 6).open_ = true ∧ epIsRecv (((landing true 0 chMsg none).core 3).ep 6).desc = true ∧
      epGen (((landing true 0 chMsg none).core 3).ep 6).desc = chMsg.routeGen ∧ chMsg.skipAt = none) ∧
    (headMessage ((landing true 0 skipMsg none).core 4) 3 6 = some skipMsg ∧ skipMsg.skipAt = some 15) ∧
    ((landing true 0 chMsg (some 4)).core 4).pathNeed = some (3 + 1) ∧ ((landing true 0 chMsg (some 0)).core 4).pathNeed = some 0 ∧
    ((((landing false 0 chMsg none).core 3).ep 6).open_ = false ∧ chMsg.module = (landing false 0 chMsg none).module) ∧
    ((((landing true 1 chMsg none).core 3).ep 6).open_ = true ∧ epGen (((landing true 1 chMsg none).core 3).ep 6).desc ≠ chMsg.routeGen) ∧
    (∀ o : Bool, headMessage ((landing o 1 chMsg (some 0)).core 4) 3 6 = some chMsg ∧ ((landing o 1 chMsg (some 0)).core 4).pathNeed = some 0 ∧
      (((landing o 1 chMsg (some 0)).core 3).ep 6).open_ = o ∧ epIsRecv (((landing o 1 chMsg (some 0)).core 3).ep 6).desc = true ∧
      epGen (((landing o 1 chMsg (some 0)).core 3).ep 6).desc ≠ chMsg.routeGen) := by
  decide +kernel
def crediting (role strict reason : Nat) (g : U16) : State :=
  coreAt 100 fun k => { k with eps := [(6, { desc := BitVec.ofNat 256 (strict * 2 ^ 4 + role), creditsIn := [⟨518, 2, g, BitVec.ofNat 2 reason, 0, 0⟩] })] }
theorem witness_CreditsReturn :
    ((((crediting 1 0 0 9).core 3).ep 6).creditsIn = [⟨518, 2, 9, 0, 0, 0⟩] ∧ (9 : U16) ≠ epGen (((crediting 1 0 0 9).core 3).ep 6).desc) ∧
    ((0 : U16) = epGen (((crediting 1 0 0 0).core 3).ep 6).desc ∧ epRole (((crediting 1 0 0 0).core 3).ep 6).desc ≠ 3 ∧
      epStrict (((crediting 1 0 2 0).core 3).ep 6).desc = false) ∧
    ((0 : U16) = epGen (((crediting 3 0 0 0).core 3).ep 6).desc ∧ epRole (((crediting 3 0 0 0).core 3).ep 6).desc = 3) ∧
    ((((crediting 1 1 2 0).core 3).ep 6).creditsIn = [⟨518, 2, 0, 2, 0, 0⟩] ∧ epStrict (((crediting 1 1 2 0).core 3).ep 6).desc = true ∧
      (crediting 1 1 2 0).seq.state ≠ .halted ∧ (crediting 1 1 2 0).seq.state ≠ .empty) := by decide +kernel

/-! ### Stack memory -/

/-- A request at stack address 0 of stack 0: PC 0, bank 0, row 0. -/
def stackReq (w : Option (List Byte)) (t : Tag) : StackReq := { addr := 0, len := 64, write := w, requester := 0, tag := t }
def queueOf (n : Nat) : State :=
  base.updStack 0 fun c => { c with meshq := [{ stackReq none .none with src := 5 }, stackReq none .none], pcs := c.pcs.set 0 { q := List.replicate n (stackReq none .none) } }
/-- Request `r` at the head of PC 0, whose service is over at time `n` (in units of 10 ps). -/
def servingUntil (n : Nat) (r : StackReq) : State := base.updStack 0 fun c => { c with pcs := c.pcs.set 0 { q := [r], doing := some n } }
def serving (r : StackReq) : State := servingUntil 12345600 r
/-- The last request that stack 0 serves before self-refresh. -/
def refreshing : State := base.updStack 0 fun c =>
  { c with toRefresh := true, pcs := c.pcs.set 0 { q := [stackReq none .none], doing := some 12345600, drain := 1 } }
/-- Five wrong bytes of a block, one more than the code corrects (R275). -/
def badBlock : ErrPat := [(0, 1), (1, 2), (2, 3), (3, 4), (4, 5)]
/-- The bell operation of core 3 on the stack word at 4096. -/
def stackBell (op : BitVec 2) : BellReq := { bellReq op false .ordered with addr := 4096 }
def bellStack (op : BitVec 2) : StackReq :=
  { addr := 4096, len := 8, write := none, bell := some (stackBell op), requester := 3, tag := .none, src := 3 }
theorem witness_StackQueuesServeInOrder :
    (((queueOf 63).stack 0).meshq = [{ stackReq none .none with src := 5 }] ++ stackReq none .none :: [] ∧
      (((queueOf 63).stack 0).pc (pcOf (stackAddrOf (stackReq none .none).addr))).q.length < 64) ∧
    (64 ≤ (((queueOf 64).stack 0).pc (pcOf (stackAddrOf (stackReq none .none).addr))).q.length) ∧ (base.stack 0).meshq = [] ∧
    (∀ b : Bool, (if b then ((base.updStack 0 fun c => { c with selfRefresh := true }).stack 0).selfRefresh = true else
      ((base.stack 0).pc 0).doing = none)) ∧
    ((((servingUntil 12345601 (stackReq none .none)).stack 0).pc 0).doing = some 12345601 ∧
      100 * (servingUntil 12345601 (stackReq none .none)).now < 12345601) ∧
    ((refreshing.stack 0).selfRefresh = false ∧ (refreshing.stack 0).toRefresh = true ∧
      (∀ k, ((refreshing.stack 0).pc k).drain = if k = 0 then 1 else 0) ∧ ((refreshing.stack 0).pc 0).q = [stackReq none .none] ∧
      ((refreshing.stack 0).pc 0).doing = some 12345600 ∧ 12345600 ≤ 100 * refreshing.now) ∧
    (((serving (stackReq (some (List.replicate 64 7)) .none)).stack 0).selfRefresh = false ∧
      ((serving (stackReq (some (List.replicate 64 7)) .none)).stack 0).tideUntil = none ∧
      ((serving (stackReq (some (List.replicate 64 7)) .none)).stack 0).toRefresh = false ∧
      (((serving (stackReq (some (List.replicate 64 7)) .none)).stack 0).pc 0).doing = some 12345600 ∧
      (((serving (stackReq (some (List.replicate 64 7)) .none)).stack 0).pc 0).q = [stackReq (some (List.replicate 64 7)) .none] ∧
      (List.replicate 64 (7 : Byte)).length = 64) ∧
    ((((serving (stackReq none (.bufPiece 3 5 0 0))).stack 0).pc 0).q = [stackReq none (.bufPiece 3 5 0 0)] ∧
      fathomDecode (errAdd (errOf (serving (stackReq none (.bufPiece 3 5 0 0))) 0) []) = .clean []) ∧
    fathomDecode (errAdd (errOf (serving (stackReq none .none)) 0) badBlock) = .uncorrectable ∧
    (match fathomDecode (errAdd (errOf (serving (stackReq none .none)) 0) [(0, 1)]) with | .corrected _ => true | _ => false) = true := by
  decide +kernel
theorem witness_StackQueuesServeInOrder_bell : ∀ op : BitVec 2,
    (((serving (bellStack op)).stack 0).pc 0).q = [bellStack op] ∧ errOf (serving (bellStack op)) 4096 = [] ∧
    (serving (bellStack op)).pwr.snapshot = none ∧ (bellStack op).bell = some (stackBell op) ∧ 4096 % 64 ≤ 56 ∧
    Memory.wf (serving (bellStack op)).dram = true ∧ (serving (bellStack op)).bellTaken (stackBell op) = false := by decide +kernel

def warm (t : U64) (c : StackCtl) : State := (atTime t).updStack 1 fun _ => c
theorem witness_TidesAndTemperatures :
    ((warm 4148 {}).stackRuns 1 = true ∧ (warm 4148 {}).now % 3904 = 244 * (1 : Fin 16).val) ∧
    (warm 4149 {}).now % 3904 ≠ 244 * (1 : Fin 16).val ∧ (warm 4148 { selfRefresh := true }).stackRuns 1 = false ∧
    ((warm 2196 { doubling := true }).stackRuns 1 = true ∧ ((warm 2196 { doubling := true }).stack 1).doubling = true ∧
      (warm 2196 { doubling := true }).now % 3904 = (244 * (1 : Fin 16).val + 1952) % 3904) ∧
    ((warm 0 {}).stack 1).doubling = false ∧
    (((warm 220 { tideUntil := some 220 }).stack 1).tideUntil = some 220 ∧ (220 : U64).toNat ≤ (warm 220 { tideUntil := some 220 }).now) ∧
    (warm 219 { tideUntil := some 220 }).now < (220 : U64).toNat ∧
    ((warm 2000 {}).pwr.mainOn = true ∧ (warm 2000 {}).now % 1000 = 0 ∧ 94 < bits (warm 2000 {}).stackThermal 23 16 ∧
      bits (warm 2000 {}).stackThermal 23 16 ≤ 95 ∧ (warm 2000 {}).clk.lastHeat = none ∧ (warm 2000 {}).clk.steps = [] ∧
      1000 < (warm 2000 {}).clk.freq.toNat) ∧
    ({ warm 2000 {} with clk := { base.clk with lastHeat := some 1000 } }.now < (1000 : U64).toNat + 100000) ∧
    (warm 2001 {}).now % 1000 ≠ 0 := by decide +kernel

def rowA : RowRef := ⟨0, 0, 5⟩
def rowB : RowRef := ⟨0, 1, 6⟩
def sparing : State := base.updStack 2 fun c => { c with cands := [rowA, rowB], sparesUsed := [(bankKey rowA, 16), (bankKey rowB, 15)] }
theorem witness_RowsAreSparedWhileEmpty :
    run.holdsImage = true ∧ (∀ r ∈ (base.stack 2).cands, 16 ≤ tget 0 (base.stack 2).sparesUsed (bankKey r)) ∧
    (sparing.holdsImage = false ∧ (sparing.stack 2).cands = [rowA] ++ rowB :: [] ∧
      (∀ x ∈ [rowA], 16 ≤ tget 0 (sparing.stack 2).sparesUsed (bankKey x)) ∧ tget 0 (sparing.stack 2).sparesUsed (bankKey rowB) < 16) := by
  decide +kernel

/-! ### The fabric -/

/-- Port 2 as `x`. -/
def port2 (x : FabPort) : State := base.updPort 2 fun _ => x
theorem witness_LinkStatesFollowTable11_2 :
    (((port2 {}).port 2).state = .down ∧ (Claims.untrained 0x1E).length ≤ 1) ∧ 1 < (Claims.untrained 0x1C).length ∧
    (((port2 { state := .train }).port 2).state = .train ∧ Claims.untrained 0x1F = [] ∧ Claims.untrained 0x0F = [4] ∧ Claims.untrained 0x1E = [0]) ∧
    ((port2 { state := .align }).port 2).state = .align ∧ ((port2 { state := .up }).port 2).state = .up ∧ ((port2 {}).port 2).state ≠ .up ∧
    (base.holdsImage = false ∧ ((port2 { state := .failed }).port 2).state = .failed) ∧ run.holdsImage = true ∧
    (((port2 { state := .up }).port 2).failedLane = 7 ∧ ((port2 { state := .up }).port 2).rxLaneBad = none) ∧
    (((port2 { state := .up, failedLane := 3 }).port 2).failedLane ≠ 7 ∧ ((port2 { state := .up, failedLane := 3 }).port 2).failedLane.toNat ≠ 2) ∧
    (((port2 { state := .up, failedLane := 3 }).port 2).failedLane.toNat = (3 : Fin 5).val ∧
      ((port2 { state := .up, rxLaneBad := some 1 }).port 2).rxLaneBad = some 1) ∧
    (((port2 {}).port 2).state ≠ .train ∧ ((port2 {}).port 2).state ≠ .align ∧ ((port2 {}).port 2).state ≠ .up ∧
      ((port2 {}).port 2).rxLaneBad = none ∧ ((port2 {}).port 2).txDup = none ∧
      ((port2 { state := .align }).port 2).state ≠ .failed ∧ ((port2 { state := .align }).port 2).state ≠ .up) ∧
    (((port2 { state := .up, rxLaneBad := some 1, cleanRun := 16 }).port 2).rxLaneBad = some 1 ∧
      { port2 {} with time := { base.time with hallTime := 64 } }.now % 32 = 0) ∧
    ((port2 { state := .up, rxLaneBad := some 1, cleanRun := 15 }).port 2).cleanRun < 16 ∧
    ((port2 { state := .up, txDup := some (1, 96) }).port 2).txDup = some (1, 96) := by decide +kernel

def flit (k : BitVec 3) (ik : BitVec 3) (dest : BitVec 12) (off : BitVec 45) (space : BitVec 4) (l : List Byte) : Flit :=
  { fkind := k, pathSeq := 0, offset := off, space := space, len4 := 0, src := 9, srcCore := 0, ikind := ik, last := true, retry := false
    epoch := 0, dest := dest, key := 0, c2Seq := 1, payload := l }
def wire (f : Flit) (crc : U32) : WireFlit :=
  { flit := f, cell := 0, slot := 0, linkCode := 0, nackValid := false, nack := 0, c2Ack := 0, crc := crc }
/-- A flit as it was sent: its CRC is that of the bytes it covers. -/
def sent (f : Flit) : WireFlit := wire f (wireCrc (wire f 0))
/-- The CRC with every step's value computed before the next step, for the kernel. -/
def crcForce (c : U32) : List Byte → U32
  | [] => c
  | b :: t => match c.toNat with
    | 0 => crcForce (crcByte 0 b) t
    | n + 1 => crcForce (crcByte (BitVec.ofNat 32 (n + 1)) b) t
theorem crcForce_eq (l : List Byte) : ∀ c : U32, crcForce c l = l.foldl crcByte c := by
  induction l with
  | nil => intro c; rfl
  | cons b t ih =>
    intro c
    have h : BitVec.ofNat 32 c.toNat = c := by simp
    rw [crcForce, List.foldl_cons]
    split
    · rename_i e; rw [e] at h; rw [ih, ← h]; rfl
    · rename_i n e; rw [e] at h; rw [ih, h]
theorem crcOk_force (w : WireFlit) : wireCrcOk w = (~~~(crcForce 0xFFFFFFFF (wireBody w ++ wireTrailer w)) == w.crc) := by
  rw [crcForce_eq]; rfl
def sentCrc (f : Flit) : WireFlit := wire f (~~~(crcForce 0xFFFFFFFF (wireBody (wire f 0) ++ wireTrailer (wire f 0))))
theorem sent_force (f : Flit) : sent f = sentCrc f := by unfold sentCrc; rw [crcForce_eq]; rfl
def idleWord : Codeword := ⟨4, Vector.replicate 5 0⟩
def sixteen : Codeword := ⟨4, Vector.ofFn fun i => if i.val = 0 then BitVec.ofNat 1360 ((2 ^ 160 - 1) / 1023) else 0⟩
def kept : List Held := [⟨8, flit 1 0 0 0 0 []⟩]
/-- Codeword 4 as its lanes carry it: 16 wrong symbols are uncorrectable, and the CRC of 320 bytes of 0 is wrong. -/
theorem witness_LostFlitsAreResent_lost :
    (((port2 { state := .up }).port 2).cells = true ∧ ((port2 { state := .up }).port 2).spareFor = none ∧ wordDecode sixteen none = none) ∧
    ((port2 {}).port 2).cells = false ∧ wordDecode idleWord none = some (List.replicate 544 0, []) ∧
    wireCrcOk (firstFlit (ofSyms ((List.replicate 544 0).take 514))) = false := by simp only [crcOk_force]; decide +kernel
/-- The message of codeword 4 with flits of kinds `k` and 0, whose CRCs hold. -/
def message4 (k : BitVec 3) : Nat := messageNat 4 (sent (flit k 0 0 0 0 [])) (sent (flit 0 0 0 0 0 []))
def word4 (k : BitVec 3) : Codeword := ⟨4, lanesOf (message4 k) none⟩
theorem witness_LostFlitsAreResent_good : ∀ k : Bool,
    (wordDecode (word4 (if k then 1 else 2)) ((port2 { state := .up }).port 2).spareFor).any (fun r =>
      let m := ofSyms (r.1.take 514)
      wireCrcOk (firstFlit m) && wireCrcOk (secondFlit m) && (firstFlit m).flit.fkind == (if k then 1 else 2) && (secondFlit m).flit.fkind != 2 &&
        (firstFlit m).flit.c2Seq == ((port2 { state := .up }).port 2).c2SeqIn + 1) = true := by
  simp only [crcOk_force, word4, message4, sent_force]; decide +kernel
theorem witness_LostFlitsAreResent :
    (base.pwr.phase ≠ .dieOff ∧ base.pwr.phase ≠ .standbyRelay ∧ ((port2 { state := .up }).port 2).c2In.length < 64) ∧
    (((port2 { copies := kept }).port 2).gone = [] ∧ ((port2 { copies := kept }).port 2).c2Sent = [] ∧
      ((port2 { copies := kept }).port 2).retry.length + (((port2 { copies := kept }).port 2).copies.filter fun h => inCodeword h.slot 4).length ≤ 512) ∧
    ((((port2 { retry := kept }).port 2).retry.filter fun h => decide (h.slot + 8192 ≤ (port2 { retry := kept }).slot)) = kept) ∧
    (((port2 { c2Sent := [(121456, flit 2 0 9 0 0 [])] }).port 2).c2Sent = [(121456, flit 2 0 9 0 0 [])] ∧ (121456 : U64).toNat + 2000 ≤ base.now) ∧
    base.now < (121457 : U64).toNat + 2000 := by decide +kernel

/-- Port 2 up as `x` in the current slot, whose table entry for it is `e`. -/
def slotted (e : U16) (x : FabPort) : State :=
  { port2 { x with state := .up } with fab := { (port2 { x with state := .up }).fab with
      tablesLive := true, active := [(8192 * 2 + base.slot % 8192, e)], queues := [(7, [flit 1 0 9 0 0 []])] } }
/-- The same, with a route to module 9 over port 5, whose next slot is a TRANSIT from port `i`. -/
def passing (i : Nat) : State :=
  { slotted 0 { present := [⟨base.slot, flit 1 0 9 0 0 []⟩] } with fab := { (slotted 0 { present := [⟨base.slot, flit 1 0 9 0 0 []⟩] }).fab with
      route := [(9, 0x80000065)], active := [(8192 * 5 + (base.slot + 1) % 8192, BitVec.ofNat 16 (0x8000 + i))] }, seq := run.seq }
/-- A flit of epoch 5 that meets the slot of an own flit of epoch 0. -/
def meets : State :=
  { slotted 0x4007 { transit := [⟨base.slot, { flit 1 0 9 0 0 [] with epoch := 5 }, 1⟩] } with seq := run.seq }
theorem witness_SlotsSendWhatTheTableSays :
    ((slotted 0x4007 {}).slotIs 2 1 = true ∧ bits ((slotted 0x4007 {}).entryNow 2 (slotted 0x4007 {}).slot) 11 0 = 7 ∧
      tget [] (slotted 0x4007 {}).fab.queues 7 = [flit 1 0 9 0 0 []] ∧ (slotted 0x4007 {}).seq.state ≠ .halted) ∧
    ({ slotted 0x4007 {} with seq := { run.seq with state := .halted } }.slotIs 2 1 = true) ∧ (slotted 0 {}).slotIs 2 1 = false ∧
    (((slotted 0x8001 { transit := [⟨base.slot, flit 1 0 9 0 0 [], 1⟩] }).port 2).state = .up ∧
      ((slotted 0x8001 { transit := [⟨base.slot, flit 1 0 9 0 0 [], 1⟩] }).port 2).transit = [] ++ ⟨base.slot, flit 1 0 9 0 0 [], 1⟩ :: [] ∧
      base.slot = (slotted 0x8001 { transit := [⟨base.slot, flit 1 0 9 0 0 [], 1⟩] }).slot ∧
      (slotted 0x8001 { transit := [⟨base.slot, flit 1 0 9 0 0 [], 1⟩] }).ownFlit 2 = none) ∧
    ((((slotted 0x4007 { transit := [⟨base.slot, { flit 1 0 9 0 0 [] with epoch := 5 }, 1⟩] }).ownFlit 2).map fun g => g.epoch) =
        some 0 ∧ (slotted 0x4007 {}).seq.state ≠ .halted) ∧
    ((slotted 0x8001 {}).slotIs 2 2 = true ∧ ((slotted 0x8001 {}).port 2).transit = []) ∧
    ((slotted 0xC000 { retry := kept }).slotIs 2 3 = true ∧ ((slotted 0xC000 { retry := kept }).port 2).retry = kept) ∧
    ((slotted 0 {}).slotIs 2 0 = true ∧ ((slotted 0 {}).port 2).c2Out = [] ∧ ((slotted 0 {}).port 2).c2Again = []) ∧
    ((slotted 0 { c2Again := [flit 2 0 9 0 0 []] }).slotIs 2 0 = true ∧
      ((slotted 0 { c2Again := [flit 2 0 9 0 0 []] }).port 2).c2Again = flit 2 0 9 0 0 [] :: [] ∧
      (slotted 0 { c2Again := [flit 2 0 9 0 0 []] }).pwr.tier.val < 2) ∧
    ({ slotted 0 {} with pwr := { base.pwr with tier := 2 } }.slotIs 2 0 = true ∧ 2 ≤ { slotted 0 {} with pwr := { base.pwr with tier := 2 } }.pwr.tier.val) ∧
    ((meets.port 2).state = .up ∧ (meets.port 2).transit = [] ++ ⟨base.slot, { flit 1 0 9 0 0 [] with epoch := 5 }, 1⟩ :: [] ∧
      base.slot = meets.slot ∧ (meets.ownFlit 2).map (fun g => g.epoch) = some 0 ∧ meets.seq.state = .running) ∧
    ((slotted 0 { c2Out := [flit 2 0 9 0 0 []] }).slotIs 2 0 = true ∧
      nextC2 ((slotted 0 { c2Out := [flit 2 0 9 0 0 []] }).port 2).c2Out = some (flit 2 0 9 0 0 []) ∧
      ((slotted 0 { c2Out := [flit 2 0 9 0 0 []] }).port 2).c2Sent.length < 64 ∧ (slotted 0 {}).pwr.tier.val < 2) := by decide +kernel
/-- The same where both ports of the route claim the flit, where module 9 has no route, and with a flit that is sent again. -/
def twoClaims : State :=
  { passing 2 with fab := { (passing 2).fab with
      active := [(8192 * 5 + (base.slot + 1) % 8192, 0x8002), (8192 * 6 + (base.slot + 1) % 8192, 0x8002)] } }
def noRoute : State := { passing 2 with fab := { (passing 2).fab with route := [] } }
def again : Flit := { flit 1 0 9 0 0 [] with retry := true }
def retried : State := (passing 2).updPort 2 fun x => { x with present := [⟨base.slot, again⟩] }
theorem witness_SlotsSendWhatTheTableSays_present :
    ((((slotted 0 { present := [⟨base.slot, flit 1 0 0 0 0 []⟩] }).port 2).present.filter fun h => decide (h.slot ≤ base.slot)) =
        [⟨base.slot, flit 1 0 0 0 0 []⟩] ∧ (flit 1 0 0 0 0 []).dest = (slotted 0 {}).module) ∧
    ((((passing 2).port 2).present.filter fun h => decide (h.slot ≤ (passing 2).slot)) = [⟨base.slot, flit 1 0 9 0 0 []⟩] ∧
      (flit 1 0 9 0 0 []).dest ≠ (passing 2).module ∧ tget 0 (passing 2).fab.route (9 : BitVec 12).toNat = 0x80000065 ∧
      (0x80000065 : U32).getLsbD 31 = true ∧ portOf (bits (0x80000065 : U32) 3 0) = 5 ∧ portOf (bits (0x80000065 : U32) 7 4) = 6 ∧
      (flit 1 0 9 0 0 []).retry = false ∧ claims ((passing 2).transitSet (flit 1 0 9 0 0 [])) 5 2 (base.slot + 1) = true ∧
      claims ((passing 2).transitSet (flit 1 0 9 0 0 [])) 6 2 (base.slot + 1) = false ∧ ((passing 2).port 5).transit = []) ∧
    ((((passing 3).port 2).present.filter fun h => decide (h.slot ≤ (passing 3).slot)) = [⟨base.slot, flit 1 0 9 0 0 []⟩] ∧
      claims ((passing 3).transitSet (flit 1 0 9 0 0 [])) 5 2 (base.slot + 1) = false ∧
      claims ((passing 3).transitSet (flit 1 0 9 0 0 [])) 6 2 (base.slot + 1) = false ∧ (passing 3).seq.state ≠ .empty ∧
      (passing 3).seq.state ≠ .halted) ∧
    (claims (twoClaims.transitSet (flit 1 0 9 0 0 [])) 5 2 (base.slot + 1) = true ∧
      claims (twoClaims.transitSet (flit 1 0 9 0 0 [])) 6 2 (base.slot + 1) = true ∧ portOf 5 ≠ portOf 6 ∧ twoClaims.seq.state = .running ∧
      ((twoClaims.port 2).present.filter fun h => decide (h.slot ≤ twoClaims.slot)) = [⟨base.slot, flit 1 0 9 0 0 []⟩]) ∧
    (((noRoute.port 2).present.filter fun h => decide (h.slot ≤ noRoute.slot)) = [⟨base.slot, flit 1 0 9 0 0 []⟩] ∧
      (tget 0 noRoute.fab.route (9 : BitVec 12).toNat).getLsbD 31 = false ∧ noRoute.seq.state = .running) ∧
    (((retried.port 2).present.filter fun h => decide (h.slot ≤ retried.slot)) = [⟨base.slot, again⟩] ∧ again.retry = true ∧
      (tget 0 retried.fab.route (9 : BitVec 12).toNat).getLsbD 31 = true ∧ (retried.port 5).retry.length < 512) := by decide +kernel

/-- Window 1 over the scratchpad of core 3 (space 1), for reads, writes and bells with key 0, never closed. -/
def window : W256 := BitVec.ofNat 256 (2 ^ 256 - 2 ^ 224 + 7 * 2 ^ 160 + 2 ^ 64 * 2 ^ 24 + 2 ^ 48 + 3 * 2 ^ 40)
def spadOff (a : Nat) : BitVec 45 := BitVec.ofNat 45 (3 * 2 ^ 40 + a)
def windowed : State := { run with fab := { run.fab with windows := [(1, window)] } }

/-- A class-1 flit from module 9, core 0, for byte `a` of core 3's scratchpad. -/
def item (k : BitVec 3) (a : Nat) (l : List Byte) : Flit := flit 1 k 0 (spadOff a) 1 l
def lands (s : State) (f : Flit) : Prop :=
  s.discards f = false ∧ f.pathSeq.toNat = (s.path (pathKey f)).next % 2 ^ 24 ∧
  s.path (pathKey f) = { next := (s.path (pathKey f)).next, cur := (s.path (pathKey f)).cur, items := (s.path (pathKey f)).items } ∧ f.payload ≠ []
/-- The request of `n` bytes that come back to scratchpad 64 of the sender's core 0. -/
def request (n : Nat) : List Byte := toBytes 8 (9 * 2 ^ 52 + 2 ^ 48 + 64) ++ toBytes 4 n ++ toBytes 2 5
theorem witness_Class1ItemsLandInPathOrder :
    (item 1 64 []).ikind.toNat ≠ 0 ∧ { run with seq := { run.seq with state := .halted } }.seq.state = .halted ∧
    fullSeq ({ run with fab := { run.fab with pathsIn := [(pathKey (item 0 64 []), { next := 1 })] } }.path (pathKey (item 0 64 []))).next
      (item 0 64 []).pathSeq.toNat = none ∧
    (lands run (item 0 64 [1, 2]) ∧ (flitReject run (item 0 64 [1, 2])).isSome = true) ∧
    (lands windowed (item 0 64 [1, 2]) ∧ flitReject windowed (item 0 64 [1, 2]) = none ∧ (item 0 64 [1, 2]).space ≠ 2) ∧
    (lands windowed (item 1 64 [1, 2]) ∧ flitReject windowed (item 1 64 [1, 2]) = none) ∧
    (∀ n ∈ [0, 4, 1048576, 1048580], lands windowed (item 2 64 (request n)) ∧ ofBytes (((item 2 64 (request n)).payload.drop 8).take 4) = n) ∧
    (∀ n ∈ [4, 1048576], flitReject windowed (item 2 64 (request n)) = none) ∧
    (lands windowed (item 4 64 (toBytes 8 7 ++ [0, 0, 0])) ∧ flitReject windowed (item 4 64 (toBytes 8 7 ++ [0, 0, 0])) = none) := by
  unfold lands; decide +kernel

def awaitedRead : AwaitAccept := { core := 3, dest := 9, first := 0, pathSeq := 0, ack := none, elem := none, rdest := some 64 }
def awaitingRead : State := { windowed with fab := { windowed.fab with awaiting := [awaitedRead] } }
/-- Core 3's load element at scratchpad 0 to 63, whose bytes come from module 9. -/
def remoteStream : Stream :=
  { armed := true, bases := [⟨BitVec.ofNat 64 (9 * 2 ^ 52), 0, 0⟩]
    elems := [{ pos := 0, need := 64, hall := BitVec.ofNat 64 (9 * 2 ^ 52), len := 64, remote := true }] }
def remoteLoad : State := windowed.updCore 3 fun k => { withFetch 0 0 k with streams := [(5, remoteStream)] }
theorem witness_Class1ItemsLandInPathOrder_responses :
    (lands awaitingRead (item 3 64 (toBytes 8 5)) ∧ flitReject awaitingRead (item 3 64 (toBytes 8 5)) = none ∧
      coreOf ((item 3 64 (toBytes 8 5)).offset.toNat / 2 ^ 40) = 3 ∧ (item 3 64 (toBytes 8 5)).offset.toNat % 2 ^ 25 = 64 ∧
      awaitingRead.fab.awaiting = [awaitedRead] ∧ awaitedRead.rdest = some 64 ∧ awaitedRead.dest = (item 3 64 (toBytes 8 5)).src) ∧
    (lands remoteLoad (item 3 0 [1, 2, 3, 4]) ∧ remoteLoad.fab.awaiting = [] ∧ remoteElem remoteLoad 3 9 0 = some (5, 0)) ∧
    (lands windowed (item 3 64 [1]) ∧ windowed.fab.awaiting = [] ∧ remoteElem windowed 3 9 64 = none) := by unfold lands; decide +kernel

/-- Core 3's ring at scratchpad 0, open, of generation 0; and the first flit of a message for it. -/
def ringed : State := windowed.updCore 3 fun k =>
  { k with eps := [(6, { desc := BitVec.ofNat 256 (2 ^ 128 * 2 ^ 52 * 9 + 2 ^ 96 * 16 + 2 ^ 64 * 64 + 2), open_ := true })] }
def messageFlit1 : Flit := item 5 0 ([1, 0, 0, 0] ++ List.replicate 60 0)
theorem witness_Class1ItemsLandInPathOrder_message :
    lands ringed messageFlit1 ∧ flitReject ringed messageFlit1 = none ∧ messageFlit1.last = true ∧ (ringed.path (pathKey messageFlit1)).cur = none ∧
    messageFlit1.space = 1 ∧
    Claims.ownerOf (ringed.core 3) messageFlit1 = some 6 ∧ ofBytes ((messageFlit1.payload.drop 0).take 1) = 1 ∧
    ((ringed.core 3).ep 6).open_ = true ∧ epRole ((ringed.core 3).ep 6).desc = 2 ∧
    epGen ((ringed.core 3).ep 6).desc = BitVec.ofNat 16 (ofBytes ((messageFlit1.payload.drop 2).take 2)) := by unfold lands; decide +kernel
/-- A halted die, on which a kill waits for the open window where `kill` (R371). -/
def stopped (kill : Bool) : State :=
  { windowed with seq := { windowed.seq with state := .halted }, pwr := { windowed.pwr with killPending := kill } }
theorem witness_Class1ItemsLandInPathOrder_halted :
    (stopped false).seq.state = .halted ∧ (stopped false).pwr.killPending = false ∧
    (∀ k ∈ [0, 1], lands (stopped true) (item k 64 [1, 2]) ∧ (stopped true).seq.state = .halted ∧ flitReject (stopped true) (item k 64 [1, 2]) = none) := by
  unfold lands; decide +kernel
/-- The path of module 9, core 0, whose item 0, `g`, waits with all of its bytes written; `f` is the item behind. -/
def waitsWritten (g : Flit) (placed : List Nat) : State :=
  { ringed with fab := { ringed.fab with pathsIn := [(pathKey g, { next := 0, seen := [0], waiting := [(0, g)], placed := placed })] } }
def behind : Flit := { item 0 64 [1, 2] with pathSeq := 1 }
/-- The same with the endpoint closed, or of another generation, since the message's header came. -/
def waitsFor (open_ : Bool) (gen : Nat) : State := (waitsWritten messageFlit1 [0]).updCore 3 fun k =>
  { k with eps := [(6, { desc := BitVec.ofNat 256 (2 ^ 128 * 2 ^ 52 * 9 + 2 ^ 96 * 16 + 2 ^ 64 * 64 + gen * 2 ^ 16 + 2), open_ := open_ })] }
theorem witness_Class1ItemsLandInPathOrder_behind :
    (∀ g ∈ [item 1 64 [7], messageFlit1], pathKey behind = pathKey g ∧ behind.pathSeq.toNat = (0 + 1) % 2 ^ 24 ∧ g.payload ≠ [] ∧ g.last = true ∧
      flitReject (waitsWritten g []) behind = none ∧ (waitsWritten g []).path (pathKey behind) = { next := 0, seen := [0], waiting := [(0, g)] }) ∧
    (item 1 64 [7]).ikind = 1 ∧ messageFlit1.ikind = 5 ∧
    (waitsWritten messageFlit1 [0]).path (pathKey behind) = { next := 0, seen := [0], waiting := [(0, messageFlit1)], placed := [0] } ∧
    (∀ o : Bool, ∀ g ∈ [0, 5], (waitsFor o g).discards behind = false ∧ flitReject (waitsFor o g) behind = none ∧
      (waitsFor o g).path (pathKey behind) = { next := 0, seen := [0], waiting := [(0, messageFlit1)], placed := [0] } ∧
      Claims.ownerOf ((waitsFor o g).core 3) messageFlit1 = some 6 ∧ epRole (((waitsFor o g).core 3).ep 6).desc = 2 ∧
      (((waitsFor o g).core 3).ep 6).open_ = o ∧
      (epGen (((waitsFor o g).core 3).ep 6).desc = BitVec.ofNat 16 (ofBytes ((messageFlit1.payload.drop 2).take 2)) ↔ g = 0)) := by
  decide +kernel

/-- A routed message of `kind` from module 9 to module `dest`, RSEQ 4, with the fields `l`. -/
def routedMsg (kind dest : Nat) (l : List (Nat × Nat × Nat)) : C0Msg := c0msg ([(0, 1, kind), (2, 2, 9), (4, 2, dest), (6, 2, 4)] ++ l)
/-- A HALT of origin `o`; a STATUS of module `o`, STATUS_SEQ 4. -/
def haltOf (o : Nat) : C0Msg := c0msg [(0, 1, kindHalt), (2, 2, o)]
def statusOf (o : Nat) : C0Msg := c0msg [(0, 1, kindStatus), (4, 2, o), (6, 2, 4)]
def seenBy : State := { run with fab := { run.fab with haltSeen := [7], statusSeen := [(8, [4])], routedSeen := [(9, [4])] } }
theorem witness_Class0MessagesAreActedOnOnce :
    (c0get (haltOf 7) 0 1 = kindHalt ∧ BitVec.ofNat 12 (c0get (haltOf 7) 2 2) ∈ seenBy.fab.haltSeen) ∧
    (BitVec.ofNat 12 (c0get (haltOf 8) 2 2) ∉ seenBy.fab.haltSeen ∧ BitVec.ofNat 12 (c0get (haltOf 8) 2 2) ≠ seenBy.seq.origin ∧
      BitVec.ofNat 12 (c0get (haltOf 8) 2 2) ≠ 0xFFF) ∧
    (BitVec.ofNat 12 (c0get (haltOf 0xFFF) 2 2) ∉ run.fab.haltSeen ∧ BitVec.ofNat 12 (c0get (haltOf 0xFFF) 2 2) = 0xFFF ∧ run.holdsImage = true ∧
      run.seq.state ≠ .halted ∧ run.seq.state ≠ .empty) ∧
    (c0get (statusOf 8) 0 1 = kindStatus ∧ c0get (statusOf 8) 4 2 % 4096 ≠ seenBy.module.toNat ∧
      c0get (statusOf 8) 6 2 ∈ tget [] seenBy.fab.statusSeen (c0get (statusOf 8) 4 2 % 4096)) ∧
    c0get (statusOf 8) 6 2 ∉ tget [] run.fab.statusSeen (c0get (statusOf 8) 4 2 % 4096) ∧
    (∀ kind ∈ [kindCredit, kindCreditDrop, kindExpress, kindNack, kindAccept],
      (c0get (routedMsg kind 0 []) 0 1 = kind ∧ c0get (routedMsg kind 0 []) 6 2 ∈ tget [] seenBy.fab.routedSeen (c0get (routedMsg kind 0 []) 2 2 % 4096)) ∧
      (c0get (routedMsg kind 5 []) 6 2 ∉ tget [] run.fab.routedSeen (c0get (routedMsg kind 5 []) 2 2 % 4096) ∧
        BitVec.ofNat 12 (c0get (routedMsg kind 5 []) 4 2) ≠ run.module)) := by decide +kernel

/-- Core 3's send endpoint 6 to module 9, of generation 0. -/
def remoteSender : State := windowed.updCore 3 fun k =>
  { k with eps := [(6, { desc := BitVec.ofNat 256 (2 ^ 128 * 2 ^ 52 * 9 + 2 ^ 96 * 16 + 2 ^ 64 * 64 + 1), open_ := true })] }
/-- The same in role `role`, group 0 having one receiver here. -/
def senderOf (role : Nat) : State :=
  { windowed.updCore 3 fun k => { k with eps := [(6, { desc := epDesc 9 role, open_ := true })] } with
    groups := [(0, { defined := true, modules := [(0, 3)], members := [(3, 6)] })] }
/-- A module between the sender of group 0, behind port 2, and module 9, with no receiver of its own: endpoint 6 of core 3 stands for it. -/
def treeGroup : MGroup := { defined := true, ports := 32, modules := [(9, 3)], parentPort := some 2, selfCore := 3, selfEp := 6 }
def treeModule : State := { windowed.updPort 5 fun p => { p with peerModule := 9 } with groups := [(0, treeGroup)] }
def creditOf : C0Msg := routedMsg kindCredit 0 [(8, 1, 3), (9, 1, 6), (12, 4, 2)]
def dropOf : C0Msg := routedMsg kindCreditDrop 0 [(8, 1, 3), (9, 1, 6), (16, 4, 2)]
/-- An express operation `op` of module 9, core 0, EXPSEQ 0, on the scratchpad word at 64 of core 3. -/
def expressOf (op : Nat) : C0Msg := routedMsg kindExpress 0 [(8, 1, 32 * op), (16, 7, 2 ^ 48 + 3 * 2 ^ 40 + 64)]
def nackOf (strict : Nat) : C0Msg := routedMsg kindNack 0 [(9, 1, 4 * strict)]
def acceptOf : C0Msg := routedMsg kindAccept 0 [(8, 1, 3), (12, 3, 6)]
theorem witness_Class0MessagesAreActedOnOnce_credits :
    (Claims.ForThisModule remoteSender kindCredit creditOf 9 ∧ coreOf (c0get creditOf 8 1) = 3 ∧ BitVec.ofNat 7 (c0get creditOf 9 1) = 6 ∧
      epRole ((remoteSender.core 3).ep 6).desc = 1 ∧ epGen ((remoteSender.core 3).ep 6).desc = BitVec.ofNat 16 (c0get creditOf 10 2)) ∧
    passGroup remoteSender 3 6 9 = none ∧
    (Claims.ForThisModule treeModule kindCredit creditOf 9 ∧ passGroup treeModule 3 6 9 = some (0, treeGroup) ∧
      tget {} treeModule.groups 0 = treeGroup ∧ treeGroup.gen = BitVec.ofNat 16 (c0get creditOf 10 2)) ∧
    (∀ role ∈ [1, 3, 4], passGroup (senderOf role) 3 6 9 = none ∧ Claims.ForThisModule (senderOf role) kindCredit creditOf 9 ∧ epRole (((senderOf role).core 3).ep 6).desc = role ∧
      epGen (((senderOf role).core 3).ep 6).desc = BitVec.ofNat 16 (c0get creditOf 10 2)) ∧
    (tget {} (senderOf 4).groups (epGroup (((senderOf 4).core 3).ep 6).desc)).members ≠ [] ∧
    (∀ role ∈ [1, 3], Claims.ForThisModule (senderOf role) kindCreditDrop dropOf 9 ∧
      (((senderOf role).core 3).ep 6).dropsTaken.contains (BitVec.ofNat 32 (c0get dropOf 20 4)) = false ∧
      epStrict (((senderOf role).core 3).ep 6).desc = false) ∧
    (Claims.ForThisModule remoteSender kindCreditDrop dropOf 9 ∧
      ((remoteSender.core 3).ep 6).dropsTaken.contains (BitVec.ofNat 32 (c0get dropOf 20 4)) = false ∧
      epStrict ((remoteSender.core 3).ep 6).desc = false) := by unfold Claims.ForThisModule; decide +kernel
def storing : AwaitAccept := { core := 3, dest := 9, first := 0, pathSeq := 6, ack := none, elem := some (5, 0), rdest := none }
def busyExpress : State := { windowed with fab := { windowed.fab with expBusy := [288] } }
def awaitingAccept : State := { windowed with fab := { windowed.fab with awaiting := [storing] } }
theorem witness_Class0MessagesAreActedOnOnce_others :
    (Claims.ForThisModule windowed kindExpress (expressOf 0) 9 ∧ c0get (expressOf 0) 11 1 = tget 0 windowed.fab.expIn (32 * 9) % 256 ∧
      windowed.fab.expWait = [] ∧ windowed.fab.expBusy = [] ∧ windowed.seq.state ≠ .halted ∧ c0get (expressOf 0) 8 1 / 32 % 4 ≠ 3 ∧ c0get (expressOf 0) 16 7 / 2 ^ 48 % 16 = 1 ∧
      windowCheck windowed 1 (c0get (expressOf 0) 16 7 % 2 ^ 48) 8 2 (BitVec.ofNat 32 (c0get (expressOf 0) 12 4)) (some windowed.markNow) = none) ∧
    (Claims.ForThisModule busyExpress kindExpress (expressOf 0) 9 ∧ 32 * (9 : BitVec 12).toNat + 0 ∈ busyExpress.fab.expBusy) ∧
    (Claims.ForThisModule windowed kindExpress (expressOf 3) 9 ∧ c0get (expressOf 3) 8 1 / 32 % 4 = 3) ∧
    (Claims.ForThisModule windowed kindNack (nackOf 0) 9 ∧ c0get (nackOf 0) 9 1 / 4 % 2 = 0) ∧
    (Claims.ForThisModule windowed kindNack (nackOf 1) 9 ∧ c0get (nackOf 1) 9 1 / 4 % 2 = 1 ∧ windowed.seq.state ≠ .empty) ∧
    (Claims.ForThisModule awaitingAccept kindAccept acceptOf 9 ∧
      fullSeq (tget 0 awaitingAccept.fab.accepted (4096 * (c0get acceptOf 8 1 % 32) + 9)) (c0get acceptOf 12 3) = some 6 ∧
      awaitingAccept.fab.awaiting = [storing] ∧ storing.core.toNat = c0get acceptOf 8 1 % 32 ∧ storing.pathSeq ≤ 6 ∧
      storing.elem = some (5, 0) ∧ storing.ack = none ∧ storing.rdest = none) := by
  unfold Claims.ForThisModule; decide +kernel

def transit2 : State := { base.updPort 5 (fun p => { p with state := .up }) with fab := { (base.updPort 5 fun p => { p with state := .up }).fab with
  route := [(9, 0x80000005)] } }
def draining (n : Nat) (set : Nat) : State := { run with fab := { run.fab with drainUntil := some n, legSet := [(0, set)] } }
/-- Set 2 being copied, with `need` bytes of its range read to come. -/
def copied (need : Nat) : State := { run with fab := { run.fab with copying := some 2 }, jobs := [⟨7, .tables 2, 8, need, []⟩] }
theorem witness_TablesWindowsAndClass2Transit :
    ((flit 2 0 9 0 0 []).fkind = 2 ∧ (flit 2 0 9 0 0 []).dest ≠ transit2.module ∧ (tget 0 transit2.fab.route (9 : BitVec 12).toNat).getLsbD 31 = true ∧
      (transit2.port (portOf (bits (tget 0 transit2.fab.route (9 : BitVec 12).toNat) 3 0))).state = .up) ∧ (flit 1 0 9 0 0 []).fkind ≠ 2 ∧
    ((draining 38580 2).fab.drainUntil = some 38580 ∧ 38580 ≤ (draining 38580 2).slot ∧ (draining 38580 2).seq.due.ended = false ∧
      tget 0 (draining 38580 2).fab.legSet (draining 38580 2).seq.due.entry ≠ (draining 38580 2).fab.activeSet) ∧
    (38580 ≤ (draining 38580 0).slot ∧ tget 0 (draining 38580 0).fab.legSet (draining 38580 0).seq.due.entry = (draining 38580 0).fab.activeSet) ∧
    (draining 38581 2).slot < 38581 ∧
    ((flit 2 2 0 0 0 []).dest = base.module ∧ 2 ≤ (flit 2 2 0 0 0 []).ikind.toNat) ∧
    ((copied 0).fab.copying = some 2 ∧ (copied 0).jobDone (.tables 2) = some ⟨7, .tables 2, 8, 0, []⟩) ∧
    (copied 1).jobDone (.tables 2) = none ∧ base.fab.copying = none ∧
    (windowed.pwr.mainOn = true ∧ winSize (tget 0 windowed.fab.windows (bits (1 : U32) 13 0)) ≠ 0) := by decide +kernel

/-! ### Host link, registers, ingress -/

theorem witness_LinkManagementAndRegisterCommands :
    (base.pwr.mainOn = true ∧ base.pwr.phase ≠ .standby ∧ base.pwr.phase ≠ .standbyRelay ∧ standbyBlock (0x800000 : BitVec 24).toNat = false ∧
      base.pwr.standbyOn = true) ∧ base.seq.state = .empty ∧ run.seq.state ≠ .empty ∧
    (standbyBlock (0xA0000C : BitVec 24).toNat = true ∧ (0xA0000C : BitVec 24).toNat % 4 = 0 ∧ (0xA0000C : BitVec 24).toNat < 0xC00120 ∧
      isLo (0xA0000C : BitVec 24).toNat = false ∧ tget none base.mgmt.smbus.latch (0xA0000C : BitVec 24).toNat = none) ∧
    (standbyBlock (0xC00140 : BitVec 24).toNat = true ∧ (0xC00140 : BitVec 24).toNat % 4 = 0 ∧ isLo (0xC00140 : BitVec 24).toNat = false) ∧
    ((3 ≠ 4) ∧ (0x20022 : BitVec 24).toNat % 4 ≠ 0) ∧ ((0xFFC : BitVec 24).toNat < 0x1000 ∧ (0xFFC : BitVec 24).toNat % 4 = 0) ∧
    ((0x10000 : BitVec 24).toNat < 0xC00000 ∧ sealedReg (0x10000 : BitVec 24).toNat = false ∧ isLo (0x10000 : BitVec 24).toNat = true ∧ inDieMap (0x10000 : BitVec 24).toNat = false ∧ (0x10000 : BitVec 24).toNat % 4 = 0 ∧
      (0x10000 : BitVec 24).toNat < 0x100000 ∧ tget none base.mgmt.bar0.latch (0x10000 : BitVec 24).toNat = none) ∧
    ((0x800018 : BitVec 24).toNat < 0xC00000 ∧ sealedReg (0x800018 : BitVec 24).toNat = false ∧ isLo (0x800018 : BitVec 24).toNat = true ∧ (0x800018 : BitVec 24).toNat % 4 = 0 ∧ inDieMap (0x800018 : BitVec 24).toNat = true ∧
      0x300000 ≤ (0x800018 : BitVec 24).toNat ∧ tget none base.mgmt.bar0.latch (0x800018 : BitVec 24).toNat = none) ∧
    (isLo (0x10004 : BitVec 24).toNat = false ∧
      tget none { base with mgmt := { base.mgmt with bar0 := { base.mgmt.bar0 with latch := [(0x10004, some 5)] } } }.mgmt.bar0.latch
        (0x10004 : BitVec 24).toNat = some 5) := by decide +kernel

/-- A bit of IRQ_CAUSE that the hardware sets in the cycle of the write stays set; the other one is cleared (R404). -/
theorem test_w1c_keeps_what_is_set_now :
    (left (.registerWrite 0x80000C 4 3) { base with host := { base.host with irqCause := 3, irqNow := ⟨123456, 1, 0⟩ } }).host.irqCause = 1 := by
  decide +kernel

def haltedWith (retained : Bool) : State :=
  { run with seq := { run.seq with state := .halted }, pwr := { run.pwr with retained := retained } }
def paged (hi : U32) : State := { base with host := { base.host with bar2Hi := hi } }
theorem witness_DataWindowsAndBar2 :
    (base.pwr.standbyOn = true ∧ base.pwr.mainOn = true ∧ base.pwr.phase ≠ .standby ∧ base.pwr.phase ≠ .standbyRelay ∧ base.isSealed = false ∧
      ∀ o < 0x660, tget none base.mgmt.bar0.latch (0x100000 + 65536 * (3 : Fin 32).val + o) = none) ∧
    ((haltedWith true).isSealed = false ∧ (haltedWith true).pwr.retained = true) ∧ base.pwr.retained = false ∧
    ((haltedWith false).pwr.standbyOn = true ∧ (haltedWith false).pwr.mainOn = true ∧ (haltedWith false).isSealed = true) := by decide +kernel
/-- BAR2's base as HOST_BAR2_BASE_HI has it, in phase READY, with the finished range read `l`. -/
def pagedWith (hi : U32) (l : List Job) : State := { paged hi with jobs := l, jobNo := 8 }
def placed (s : State) (o : BitVec 36) (n : Nat) : Bool :=
  decide (placeOf s (s.host.bar2Hi.extractLsb' 16 4).toNat ((s.host.bar2Hi.extractLsb' 0 12).toNat * 2 ^ 36 + o.toNat + n) ≠ .none)
theorem witness_DataWindowsAndBar2_bar2 :
    (∀ l ∈ [[], [⟨7, .bar2, 4, 0, []⟩]], (pagedWith 17 l).pwr.phase = .ready ∧ (pagedWith 17 l).pwr.retained = false ∧
      (pagedWith 17 l).pwr.killPending = false ∧ (pagedWith 17 l).loader.busy = false ∧ (pagedWith 17 l).isSealed = false ∧
      (pagedWith 17 l).host.tasks = [] ∧ (pagedWith 17 l).host.writing = [] ∧ (∀ j ∈ (pagedWith 17 l).jobs, j.id ≠ (pagedWith 17 l).jobNo)) ∧
    ((∀ j ∈ (pagedWith 17 []).jobs, j.want ≠ .bar2) ∧ (pagedWith 17 []).host.bar2Hi.extractLsb' 16 4 = 0 ∧
      (pagedWith 0x20000 []).host.bar2Hi.extractLsb' 16 4 = 2) ∧
    (∀ i < 4, placed (pagedWith 17 []) 0xFFFFFFFFC i = true) ∧ (∀ i < 4, placed (pagedWith 0x20000 []) 0 i = true) ∧
    placed (pagedWith 18 []) 0 0 = false := by decide +kernel

/-- The mooring table at 0x100000, session 7 selected, a ring of `size` 4,096-byte pages at `ring`. -/
def mooring (ring size : U32) : State :=
  { run with host := { run.host with moorBaseLo := 0x100000, moorSel := 7, moorRingLo := ring, moorSize := size } }
/-- Session 7 open with a ring of one page of which 63 records wait, the host's clock at `t`, and the relay `r`. -/
def moored (t : U64) (r : List Relay) : State :=
  { mooring 0x30000 1 with host := { (mooring 0x30000 1).host with openSessions := [7], relaysIn := r, sessions := [(7, ⟨0x30000, 1, 0, 64 * 63, 0⟩)] }
                           time := { run.time with hallTime := t } }
def relay (landed : U32) : Relay := { session := 7, source := 5, bytes := 64, landed := landed, since := 0 }
theorem witness_IngressCommands_open :
    (Claims.MooringReady (mooring 0x30000 1048576) ∧ (mooring 0x30000 1048576).host.tasks = [] ∧
      (7 : BitVec 18) ∉ (mooring 0x30000 1048576).host.openSessions ∧
      (7 : BitVec 18) ∉ (mooring 0x30000 1048576).host.closing ∧ (0x30000 : U32).toNat % 4096 = 0 ∧
      0x30000 + 4096 * (1048576 : U32).toNat ≤ 1236950581248) ∧
    (Claims.MooringReady (mooring 0x30001 1) ∧ (0x30001 : U32).toNat % 4096 ≠ 0) ∧ Claims.MooringReady (mooring 0x30000 0) ∧
    (Claims.MooringReady (mooring 0x30000 1048577) ∧ 1048576 < (1048577 : U32).toNat) ∧
    (Claims.MooringReady (moored 0 []) ∧ (moored 0 []).host.moorSel.setWidth 18 = (7 : BitVec 18) ∧ (7 : BitVec 18) ∈ (moored 0 []).host.openSessions) := by
  unfold Claims.MooringReady; decide +kernel
theorem witness_IngressCommands_doorbell :
    (∃ one : State → HostDom → State, ∀ x h, one x h = { x with jobNo := (moored 0 []).jobNo + 1, host := h }) ∧
    (63 : U32) = BitVec.ofNat 32 (((moored 0 []).session 7).producer / 64) ∧ (64 : U32) ≠ BitVec.ofNat 32 (((moored 0 []).session 7).producer / 64) ∧
    (8 : BitVec 18) ∉ (moored 0 []).host.openSessions :=
  ⟨⟨_, fun _ _ => rfl⟩, by decide +kernel, by decide +kernel, by decide +kernel⟩
theorem witness_IngressCommands_relayed :
    (Claims.MooringReady (moored 1000000 [relay 64]) ∧ (moored 1000000 [relay 64]).host.relaysIn = [relay 64] ∧ (relay 64).bytes.toNat % 64 = 0 ∧
      (relay 64).bytes ≠ 0 ∧ (relay 64).bytes.toNat ≤ (relay 64).landed.toNat) ∧
    ((moored 1000000 [relay 63]).host.relaysIn = [relay 63] ∧ (relay 63).landed.toNat < (relay 63).bytes.toNat ∧
      (relay 63).since.toNat + 1000000 ≤ (moored 1000000 [relay 63]).now) ∧
    (moored 999999 [relay 63]).now < (relay 63).since.toNat + 1000000 := by unfold Claims.MooringReady; decide +kernel
/-- The unit at work on `w`, of which the blocks `b` have come. -/
def working (w : IngWork) (b : ReadBuf) : State := { moored 0 [] with host := { (moored 0 []).host with tasks := [⟨9, w, b⟩] }, jobNo := 10 }
/-- The block of a CONSUMER of 0, which has come. -/
def consumer0 : ReadBuf := ⟨[((moored 0 []).moorAddr 7 + 24, 8)], [((moored 0 []).moorAddr 7 + 24, some (toBytes 8 0))]⟩
theorem witness_IngressCommands_task :
    (∀ q ∈ [MoorReq.bell 7 64, .bell 7 65], Claims.MooringReady (working (.moor q 0) consumer0) ∧
      (working (.moor q 0) consumer0).host.tasks = [⟨9, .moor q 0, consumer0⟩] ∧ 9 ≠ (working (.moor q 0) consumer0).jobNo ∧
      (8 : BitVec 18) ∉ (working (.moor q 0) consumer0).host.openSessions ∧ (toBytes 8 0).length = 8) ∧
    ((64 : U32) - BitVec.ofNat 32 (((moored 0 []).session 7).producer / 64)).toNat = 1 ∧
    ((moored 0 []).session 7).producer / 64 + 1 ≤ ofBytes (toBytes 8 0) / 64 + 64 * ((moored 0 []).session 7).size ∧
    ((65 : U32) - BitVec.ofNat 32 (((moored 0 []).session 7).producer / 64)).toNat = 2 ∧
    ofBytes (toBytes 8 0) / 64 + 64 * ((moored 0 []).session 7).size < ((moored 0 []).session 7).producer / 64 + 2 := by
  unfold Claims.MooringReady; decide +kernel
theorem witness_IngressCommands_bellOf : Claims.bellOf (moored 0 []) 7 1 64 (.bell 7 64) ∧ Claims.bellOf (moored 0 []) 7 1 64 (.relayed 7 5 64) :=
  ⟨.inl ⟨64, rfl, by decide +kernel, by decide⟩, .inr ⟨5, 64, rfl, by decide, by decide +kernel⟩⟩
theorem witness_IngressCommands_bell :
    Claims.MooringReady (working (.bell 4) {}) ∧ (working (.bell 4) {}).host.tasks = [⟨9, .bell 4, {}⟩] ∧ (working (.bell 4) {}).host.posted = 0 := by
  unfold Claims.MooringReady; decide +kernel

/-- Session 7 of module 9, whose route is port 5; `l` is what port 5 has still to send. -/
def relaying (l : List Flit) : State :=
  { mooring 0x30000 640 with host := { (mooring 0x30000 640).host with relModule := 9 }
                             fab := { (base.updPort 5 fun p => { p with state := .up, c2Out := l }).fab with route := [(9, 0x80000005)] } }
/-- The relay of 128 bytes whose two blocks have come. -/
def relayRead : State := { relaying [] with
  host := { (relaying []).host with tasks := [⟨9, .relay 9 7 0x30000 128,
    ⟨pieces 64 0x30000 128, (pieces 64 0x30000 128).map fun w => (w.1, some (((List.replicate 128 (1 : Byte)).drop (w.1 - 0x30000)).take w.2))⟩⟩] }
  jobNo := 10 }
def shedding : State := { run with pwr := { run.pwr with tier := 2 } }
theorem witness_IngressCommands_relay :
    (shedding.pwr.dieOn = true ∧ 2 ≤ shedding.pwr.tier.val) ∧
    ((relaying []).pwr.dieOn = true ∧ (relaying []).seq.state ≠ .empty ∧ (relaying []).host.tasks = [] ∧
      (relaying []).host.moorSize.toNat % 64 = 0 ∧ 1 ≤ (relaying []).host.moorSize.toNat ∧ (relaying []).host.moorSize.toNat ≤ 1048576 ∧
      ((relaying []).host.moorRingHi ++ (relaying []).host.moorRingLo).toNat + (relaying []).host.moorSize.toNat ≤ 1236950581248 ∧
      (9 : BitVec 12) ≠ (relaying []).module ∧ (tget 0 (relaying []).fab.route (9 : BitVec 12).toNat).getLsbD 31 = true ∧
      ((relaying []).port (portOf ((tget 0 (relaying []).fab.route (9 : BitVec 12).toNat).extractLsb' 0 4).toNat)).state = .up ∧
      (relaying []).relaying 9 7 = false) ∧
    (relaying [{ flit 2 0 9 7 0 [] with src := 0 }]).relaying 9 7 = true ∧
    (Claims.MooringReady relayRead ∧ (relayRead.port (portOf ((tget 0 relayRead.fab.route (9 : BitVec 12).toNat).extractLsb' 0 4).toNat)).state = .up ∧
      0 < (List.replicate 128 (1 : Byte)).length) := by unfold Claims.MooringReady; decide +kernel

/-- A muster of mark `m` that waits, with a log of `n` units. -/
def mustering (m : U64) (n : U32) : State :=
  { run with seq := { run.seq with legMark := 3 }
             host := { run.host with musters := [⟨m, 77, [], 2⟩], musterBaseLo := 0x400000, musterBellLo := 8, ilogBaseLo := 0x800000, ilogSize := n } }
/-- The same with a log of 64 KiB of which `n` units of 64 are used. -/
def logged (n : Nat) : State :=
  { mustering 3 1 with host := { (mustering 3 1).host with ilogHead := BitVec.ofNat 64 (64 * n) } }
theorem witness_IngressCommands_muster :
    ((mustering 4 0).seq.begun = true ∧ (mustering 4 0).legBefore 4 = false) ∧
    ((mustering 3 0).host.musters = [⟨3, 77, [], 2⟩] ∧ (mustering 3 0).seq.begun = true ∧ (mustering 3 0).legBefore 3 = true ∧
      (mustering 3 0).host.ingCfg.getLsbD 0 = false ∧ (mustering 3 0).host.gapMarks = [] ∧ (mustering 3 0).host.listedFinal = [] ∧
      (mustering 3 0).host.tasks = [] ∧ (mustering 3 0).musterAddr 3 % 64 = 0 ∧
      ((mustering 3 0).host.ilogSize.extractLsb' 0 20).toNat = 0) ∧
    (mustering 3 0).ilogFree < 64 ∧
    (∀ n ∈ [1024, 1023], (logged n).host.musters = [⟨3, 77, [], 2⟩] ∧ (logged n).legBefore 3 = true ∧ (logged n).host.gapMarks = [] ∧
      (logged n).host.tasks = [] ∧ ((logged n).ilogFree = 64 * (1024 - n)) ∧ (logged n).host.ilogHead.toNat + 64 < 2 ^ 64) ∧
    (128 ≤ (mustering 3 1).ilogFree ∧ (mustering 3 1).host.ilogHead.toNat + 128 < 2 ^ 64) ∧ run.host.musters = [] ∧
    (run.pwr.mainOn = true ∧ run.host.gapMarks = []) := by decide +kernel

/-! ### Life cycle -/

def budgeted (n : U32) : State := { base with time := { base.time with pathBudget := n } }
def loading (pass : Bool) : State := { base with loader := { base.loader with busy := true, pass := pass } }
def closing (t : U64) : State := { atTime t with pwr := { base.pwr with closeAt := some 0, zeroing := true } }
theorem witness_LoadsKillsAndScrubs :
    (base.loader.busy = false ∧ base.seq.state = .empty ∧ base.time.osc = .locked ∧ bits (budgeted 500).time.pathBudget 15 0 ≤ 500 ∧ base.pwr.phase = .ready ∧ base.pwr.killPending = false ∧
      base.loader.dirty = false) ∧ (run.loader.busy = false ∧ run.seq.state ≠ .empty) ∧
    500 < bits (budgeted 501).time.pathBudget 15 0 ∧
    (∀ pass, (loading pass).loader.busy = true ∧ (loading pass).loader.stagedTouched = false ∧ (loading pass).loader.pass = pass ∧
      (loading pass).errs = [] ∧ (loading pass).pwr.snapshot = none) ∧
    (match checkImage (mreads (loading false).dram (loading false).stageBase (loading false).stageLen) (loading false).stageLen (loading false) with
      | .error _ => true | .ok _ => false) = true ∧
    base.pwr.phase ≠ .standby ∧ State.reset.pwr.phase = .standby ∧
    (run.pwr.phase = .ready ∧ run.pwr.killPending = false ∧ run.pwr.dieOn = true ∧ run.seq.state ≠ .halted ∧ run.pwr.retained = false) ∧
    ({ run with pwr := { run.pwr with debugEnable := true } }.pwr.debugEnable = true) ∧
    ((haltedWith true).pwr.retained = true ∧ (haltedWith true).pwr.dieOn = true ∧
      { haltedWith true with pwr := { (haltedWith true).pwr with killPending := true } }.pwr.killPending = true) ∧
    ((closing 65536).pwr.closeAt = some 0 ∧ (0 : U64).toNat + 65536 ≤ (closing 65536).now) ∧ (closing 65535).now < (0 : U64).toNat + 65536 ∧
    base.pwr.closeAt = none ∧ base.pwr.zeroing = false ∧ (closing 0).pwr.zeroing = true := by decide +kernel
/-- Kills in standby power, in bring-up, and with the die up: only in bring-up does the zeroing wait for the rails and the stacks. -/
theorem witness_LoadsKillsAndScrubs_phases :
    (∀ x ∈ [PwrPhase.standby, .standbyRelay, .ready, .suspended], Claims.mayZero { base.pwr with phase := x }) ∧
    (∀ x ∈ [PwrPhase.ramp, .stackInit], ¬ Claims.mayZero { base.pwr with phase := x }) ∧
    (State.reset.loader.busy = false ∧ State.reset.pwr.killPending = false ∧ State.reset.seq.state = .empty) := by
  unfold Claims.mayZero; decide +kernel

/-- The running leg, with SUSPEND_MARK `m`, an area at `a`, and a partition of `n`. -/
def suspending (m a : U32) (n : U16) : State :=
  { run with pwr := { run.pwr with suspMarkLo := m, suspBaseLo := a }, seq := { run.seq with partSize := n } }
/-- Gated before mark 1, which is withheld from time 0 on. -/
def withheld (t : U64) : State :=
  { atTime t with seq := { run.seq with state := .gated, suspendReq := some 1, suspendAt := 0 } }
/-- A suspension or a park, with RESUME at `r`. -/
def resuming (r : U32) : State :=
  { base with pwr := { base.pwr with resumeLo := r, phase := .suspended }, seq := { run.seq with state := .gated, suspended := true } }
def parking (ok : Bool) : State :=
  { base with pwr := { base.pwr with tier := 3, phase := .parked, above1 := if ok then 1000 else 999 }, seq := { run.seq with state := .gated, parked := true } }
theorem witness_SuspensionResumeAndService :
    4 < (suspending 1 0 5).seq.partSize.toNat ∧ ((suspending 1 0 4).seq.partSize.toNat ≤ 4 ∧ (suspending 1 0 4).seq.state = .running) ∧
    (base.seq.state ≠ .running ∧ base.seq.state ≠ .gated) ∧
    ((suspending 0 0 4).pwr.suspMarkHi ++ (suspending 0 0 4).pwr.suspMarkLo).toNat ≤ (suspending 0 0 4).seq.mark.toNat ∧
    ((suspending 1 1 4).seq.mark.toNat < ((suspending 1 1 4).pwr.suspMarkHi ++ (suspending 1 1 4).pwr.suspMarkLo).toNat ∧
      (suspending 1 1 4).suspendAreaOk = false) ∧
    ((suspending 1 0 4).seq.mark.toNat < ((suspending 1 0 4).pwr.suspMarkHi ++ (suspending 1 0 4).pwr.suspMarkLo).toNat ∧
      (suspending 1 0 4).suspendAreaOk = true ∧
      ((suspending 1 0 4).pwr.suspMarkHi ++ (suspending 1 0 4).pwr.suspMarkLo).toNat = (suspending 1 0 4).seq.nextNum) ∧
    (withheld 65536).snapshotReady = true ∧ (withheld 65535).now < (withheld 65535).seq.suspendAt.toNat + 65536 ∧ run.seq.state ≠ .gated ∧
    base.seq.suspendReq ≠ some (base.seq.legMark + 1) := by decide +kernel
def resumeAt (s : State) : Nat := (s.pwr.resumeHi ++ s.pwr.resumeLo).toNat
/-- A suspension at tier 3 with the input back. -/
def suspendedLow : State := { resuming 20123456 with pwr := { (resuming 20123456).pwr with tier := 3, above1 := 1000 } }
/-- The same with RESUME at `r`; and a park whose next mark has passed. -/
def lowAt (r : U32) : State := { suspendedLow with pwr := { suspendedLow.pwr with resumeLo := r } }
def parkedPast : State := { parking true with seq := { (parking true).seq with mark := (parking true).seq.legMark + 1 } }
theorem witness_SuspensionResumeAndService_resume :
    ((resuming 0).seq.suspended = true ∧ (resuming 0).pwr.tier = 0) ∧
    ((resuming 20123456).now + 20000000 ≤ resumeAt (resuming 20123456) ∧ resumeAt (resuming 20123456) % 16 = 0) ∧
    (resumeAt (resuming 20123440) < (resuming 20123440).now + 20000000 ∧ resumeAt (resuming 20123440) % 16 = 0) ∧
    ((resuming 20123457).now + 20000000 ≤ resumeAt (resuming 20123457) ∧ resumeAt (resuming 20123457) % 16 ≠ 0) ∧
    (resumeAt (resuming 20123455) < (resuming 20123455).now + 20000000 ∧ resumeAt (resuming 20123455) % 16 ≠ 0) ∧
    ((parking false).seq.suspended = false ∧ (parking false).pwr.tier = 3 ∧ (parking false).seq.parked = true ∧ (parking false).seq.state = .gated ∧
      (parking false).seq.mark = (parking false).seq.legMark ∧ (parking false).pwr.resumeOk = false) ∧
    ((parking true).pwr.resumeOk = true ∧ (parking true).host.deferred = [] ∧ (parking true).host.tasks = [] ∧ suspendedLow.seq.suspended = true ∧ suspendedLow.pwr.tier = 3 ∧
      suspendedLow.pwr.resumeOk = true ∧ suspendedLow.now + 20000000 ≤ resumeAt suspendedLow ∧ resumeAt suspendedLow % 16 = 0) ∧ (base.seq.suspended = false ∧ base.pwr.tier ≠ 3) ∧
    (∀ r, (lowAt r).seq.suspended = true ∧ (lowAt r).pwr.tier = 3) ∧ (lowAt 0).pwr.resumeOk = true ∧
    (resumeAt (lowAt 20123440) < (lowAt 20123440).now + 20000000 ∧ resumeAt (lowAt 20123440) % 16 = 0) ∧
    ((lowAt 20123457).now + 20000000 ≤ resumeAt (lowAt 20123457) ∧ resumeAt (lowAt 20123457) % 16 ≠ 0) ∧
    (resumeAt (lowAt 20123455) < (lowAt 20123455).now + 20000000 ∧ resumeAt (lowAt 20123455) % 16 ≠ 0) ∧
    (parkedPast.seq.suspended = false ∧ parkedPast.pwr.tier = 3 ∧ parkedPast.pwr.resumeOk = true ∧ parkedPast.seq.parked = true ∧
      parkedPast.seq.state = .gated ∧ parkedPast.seq.legMark.toNat < parkedPast.seq.mark.toNat ∧ parkedPast.host.deferred = [] ∧
      parkedPast.host.tasks = []) :=
  ⟨by decide +kernel, by decide +kernel, by decide +kernel, by decide +kernel, by decide +kernel, by decide +kernel, by decide +kernel,
    by decide +kernel, fun _ => ⟨rfl, rfl⟩, by decide +kernel, by decide +kernel, by decide +kernel, by decide +kernel, by decide +kernel⟩
/-- A suspension of a module whose stacks hold no write, at tier 3, and one at tier 0. -/
theorem witness_SuspensionResumeAndService_snapshot : ∀ low : Bool,
    ({ withheld 65536 with pwr := { base.pwr with tier := if low then 3 else 0 } }).snapshotReady = true ∧
    (∀ i, ((withheld 65536).stack i).toRefresh = false ∧ ∀ u ∈ ((withheld 65536).stack i).pcs.toList, ∀ r ∈ u.q, r.writes = false) := by
  decide +kernel

end Sys2Proof.Tests
end

/-!
PROOFS. Hall time (01_hall_time.md): the time domain, the references, the beacon tree and sounding, then arming, slips, marks, the ends of
legs and lookouts. Each part gives the rows' outcomes as lemmas, and settles its statements from them.
-/
namespace Sys2Proof.Machine

/-! ## Floods (R299) and port numbers -/

/-- A flood does what its claim says. -/
theorem c0flood_flooded (came : Option (Fin 16)) (m : C0Msg) (s : State) : Claims.Flooded came m s (c0flood came m s) := by
  obtain ⟨x, h⟩ := c0flood_eq came m s
  exact ⟨by rw [h], c0flood_port came m s⟩

/-- STATUS goes out as its claim says. -/
theorem sendStatus_sent (s : State) : Claims.StatusSent s (sendStatus s) := c0flood_flooded ..

/-- A port that a four-bit field names, written back to four bits, is the field. -/
theorem ofNat_portOf_bits (w : U32) (hi lo : Nat) (h : hi = lo + 3) :
    BitVec.ofNat 4 (portOf (bits w hi lo)).val = w.extractLsb' lo 4 := by
  apply BitVec.eq_of_toNat_eq
  simp [portOf, bits, h, show lo + 3 + 1 - lo = 4 by omega]

/-! ## The readings of the time domain -/

theorem TimeDom.budget_eq (t : TimeDom) :
    t.budget = (if t.onBackup then t.pathBudget.extractLsb' 16 16 else t.pathBudget.extractLsb' 0 16).toNat := by
  unfold TimeDom.budget; split <;> rfl

theorem phaseHeld_iff (s : State) :
    s.phaseHeld = true ↔ s.time.phaseOutAt.toNat + 1000000 ≤ s.now ∧ s.time.slew.natAbs ≤ 10 * s.time.budget := by
  simp [State.phaseHeld, TimeDom.inPhase]

theorem parentUp_iff (s : State) :
    s.parentUp = true ↔ s.time.parentSeen = true ∧ s.now < s.time.parentCellAt.toNat + 1024 := by
  simp [State.parentUp, State.parentQuiet]

theorem backupUp_iff (s : State) :
    s.backupUp = true ↔
      s.time.backupSeen = true ∧ s.now < s.time.backupCellAt.toNat + 1024 ∧ s.time.backupLost = false := by
  simp [State.backupUp, State.backupQuiet, and_assoc]

theorem someParent_iff (s : State) :
    s.someParent = true ↔ s.parentUp = true ∧ s.time.rootChanged = false ∨ s.backupUp = true := by
  simp [State.someParent]

theorem ppsAtCount_eq (s : State) :
    ppsAtCount s = { s with time := { s.time with ppsOut := if s.now % 1000000000 = 0 then true else s.time.ppsOut } } := by
  unfold ppsAtCount; split <;> rfl

/-! ## The states of Table 1.2 -/

theorem oscillatorStable_of_reset (s : State) (on : s.pwr.standbyOn = true) (h : s.time.osc = .reset) :
    exec .oscillatorStable s = .next { s with time := { s.time with
      osc := .freeRun, ppsOut := if s.now % 1000000000 = 0 then true else s.time.ppsOut } } := by
  change execOscillatorStable s = _
  unfold execOscillatorStable
  rw [if_pos ⟨on, h⟩, ppsAtCount_eq]; rfl

theorem oscillatorStable_of_ne (s : State) (h : s.time.osc ≠ .reset) : exec .oscillatorStable s = .next s := by
  change execOscillatorStable s = _
  unfold execOscillatorStable
  rw [if_neg fun q => h q.2]

/-- LOCKED clears a set OUT_OF_SPEC, and says so. -/
theorem acquireComplete_of_held (s : State) (h : s.time.osc = .acquire) (held : s.phaseHeld = true) :
    ∃ t : State, exec .acquireComplete s = .next t ∧
      (s.time.outOfSpec = false → t = { s with time := { s.time with osc := .locked } }) ∧
      (s.time.outOfSpec = true → Claims.StatusSent { s with time := { s.time with osc := .locked, outOfSpec := false } } t) := by
  change ∃ t, execAcquireComplete s = _ ∧ _
  unfold execAcquireComplete
  rw [if_pos ⟨h, held⟩]
  refine ⟨_, rfl, fun o => ?_, fun o => ?_⟩
  · rw [if_neg (by simp [o]), ← o]
  · rw [if_pos o]; exact sendStatus_sent _

theorem acquireComplete_of_not (s : State) (h : ¬ (s.time.osc = .acquire ∧ s.phaseHeld = true)) :
    exec .acquireComplete s = .next s := by
  change execAcquireComplete s = _
  unfold execAcquireComplete
  rw [if_neg h]

theorem holdover_of_alone (s : State) (o : s.time.osc = .locked) (r : s.time.role = .member) (h : s.someParent = false) :
    exec .holdover s = .next { s with time := { s.time with osc := .holdover, holdoverAt := s.time.hallTime, slew := 0 } } := by
  change execHoldover s = _
  unfold execHoldover
  rw [if_pos ⟨o, r, by simp [h]⟩]

theorem holdover_of_someParent (s : State) (h : s.someParent = true) : exec .holdover s = .next s := by
  change execHoldover s = _
  unfold execHoldover
  rw [if_neg fun q => q.2.2 h]

theorem holdoverLimit_reached (s : State) (o : s.time.osc = .holdover) (h : s.time.holdoverAt.toNat + 20000000 ≤ s.now)
    (n : s.time.outOfSpec = false) :
    exec .holdoverLimit s = .next (sendStatus { s with time := { s.time with outOfSpec := true } }) := by
  change execHoldoverLimit s = _
  unfold execHoldoverLimit
  rw [if_pos ⟨o, h, by simp [n]⟩]

theorem holdoverLimit_early (s : State) (h : s.now < s.time.holdoverAt.toNat + 20000000) : exec .holdoverLimit s = .next s := by
  change execHoldoverLimit s = _
  unfold execHoldoverLimit
  rw [if_neg fun q => absurd q.2.1 (by omega)]

theorem parentReturn_acquires (s : State) (backup : Bool) (o : s.time.osc = .holdover)
    (h : backup = true ∨ s.time.rootChanged = false) :
    ∃ t : State, exec (.parentReturn backup) s = .next t ∧
      t = { s with time := t.time } ∧ t.time.osc = .acquire ∧ t.time.onBackup = backup ∧ t.time.hallTime = s.time.hallTime ∧
      t.time.frac = s.time.frac ∧ t.time.outOfSpec = s.time.outOfSpec ∧ t.time.phaseOutAt = s.time.hallTime ∧
      t.time.portInUse = (if backup then s.time.beaconCfg.extractLsb' 20 4 else s.time.beaconCfg.extractLsb' 16 4) := by
  change ∃ t, execParentReturn backup s = _ ∧ _
  unfold execParentReturn
  rw [if_pos ⟨o, by simpa using h⟩]
  refine ⟨_, rfl, rfl, ?_⟩
  cases backup <;>
    exact ⟨rfl, rfl, rfl, rfl, rfl, rfl, ofNat_portOf_bits _ _ _ rfl⟩

theorem parentReturn_of_rootChanged (s : State) (h : s.time.rootChanged = true) : exec (.parentReturn false) s = .next s := by
  change execParentReturn false s = _
  unfold execParentReturn
  rw [if_neg (by simp [h])]

/-- Settles O12, row by row: each row's condition is read off the state by `phaseHeld_iff` and `someParent_iff`. -/
theorem timeDomainStatesFollowTable1_2 : Obligations.TimeDomainStatesFollowTable1_2 := by
  intro s
  refine ⟨oscillatorStable_of_reset s, oscillatorStable_of_ne s, ?acquire, ?alone, ?parent, ?backup, ?limit,
    holdoverLimit_early s, parentReturn_acquires s, parentReturn_of_rootChanged s⟩
  case acquire =>
    rintro _ rfl
    rw [← TimeDom.budget_eq]
    refine ⟨fun o h q => acquireComplete_of_held s o ((phaseHeld_iff s).2 ⟨h, q⟩), fun n => ?_⟩
    refine acquireComplete_of_not s fun ⟨o, held⟩ => ?_
    obtain ⟨h, q⟩ := (phaseHeld_iff s).1 held
    rcases n with n | n | n
    · exact n o
    · omega
    · omega
  case alone =>
    intro o r noParent noBackup
    refine holdover_of_alone s o r (Bool.eq_false_iff.2 fun heard => ?_)
    rw [someParent_iff, parentUp_iff, backupUp_iff] at heard
    obtain ⟨⟨seen, fresh⟩, same⟩ | ⟨seen, fresh, kept⟩ := heard
    · rcases noParent with h | h | h
      · simp [h] at seen
      · omega
      · simp [h] at same
    · rcases noBackup with h | h | h
      · simp [h] at seen
      · omega
      · simp [h] at kept
  case parent =>
    intro same seen fresh
    exact holdover_of_someParent s ((someParent_iff s).2 (.inl ⟨(parentUp_iff s).2 ⟨seen, fresh⟩, same⟩))
  case backup =>
    intro seen kept fresh
    exact holdover_of_someParent s ((someParent_iff s).2 (.inr ((backupUp_iff s).2 ⟨seen, fresh, kept⟩)))
  case limit =>
    intro o h n
    exact ⟨_, holdoverLimit_reached s o h n, sendStatus_sent _⟩

end Sys2Proof.Machine

namespace Sys2Proof.Machine

/-! ## Slewing and setting the count (R12, R14) -/

/-- A new aim changes the correction still to make, and at most the moment of Table 1.2's millisecond. -/
theorem slewTo_eq (ps : Int) (s : State) :
    slewTo ps s = { s with time := { s.time with
      slew := ps * 10 - ((s.now : Int) * 10000 + s.time.frac), phaseOutAt := (slewTo ps s).time.phaseOutAt } } := by
  unfold slewTo TimeDom.notePhase
  split <;> rfl

/-- The count set to 0 is at a whole second, so PPS_OUT is high. -/
theorem setCount_zero (s : State) : ∃ t : State, setCount 0 0 s = t ∧ t = { s with time := t.time } ∧
    t.time.hallTime = 0 ∧ t.time.frac = 0 ∧ t.time.slew = 0 ∧ t.time.epochSet = true ∧ t.time.ppsOut = true ∧
    t.time.ppsPin = s.time.ppsPin ∧ t.time.refOk = s.time.refOk ∧ t.time.osc = s.time.osc ∧
    t.time.actingRoot = s.time.actingRoot := by
  refine ⟨_, rfl, ?_⟩
  unfold setCount
  rw [ppsAtCount_eq]
  simp [State.now]

/-! ## The references (R20) -/

/-- The state in which PPS_IN_EDGE decides what the edge is for: PPS_IN present, REF_OK judged again. -/
def State.withPps (s : State) : State :=
  { s with time := { s.time with
      ppsPin := true, refOk := s.time.actingRoot && s.time.refPin && s.time.beaconCfg.getLsbD 0 } }

theorem execPpsInEdge_eq (s : State) :
    execPpsInEdge s = .next (if s.time.actingRoot = true ∧ s.time.beaconCfg.getLsbD 0 = true ∧ s.time.osc = .locked then
      if s.time.epochSet then slewTo ((nearestSecond s.now : Int) * 1000) s.withPps else setCount 0 0 s.withPps
      else s.withPps) := by
  have seen : refreshRefOk { s with time := { s.time with ppsPin := true } } = s.withPps := by
    simp [refreshRefOk, State.withPps, TimeDom.usePps, bit]
  unfold execPpsInEdge
  rw [seen]
  rfl

theorem ppsInEdge_first (s : State) (root : s.time.actingRoot = true) (use : s.time.beaconCfg.getLsbD 0 = true)
    (lock : s.time.osc = .locked) (waits : s.time.epochSet = false) :
    exec .ppsInEdge s = .next (setCount 0 0 s.withPps) := by
  change execPpsInEdge s = _
  rw [execPpsInEdge_eq, if_pos ⟨root, use, lock⟩, if_neg (by simp [waits])]

/-- An edge that does not start the count only aims the phase, at a root in LOCKED that uses PPS_IN. -/
theorem ppsInEdge_later (s : State) (h : s.time.epochSet = true ∨ s.time.actingRoot = false ∨ s.time.osc ≠ .locked) :
    exec .ppsInEdge s = .next (if s.time.actingRoot = true ∧ s.time.beaconCfg.getLsbD 0 = true ∧ s.time.osc = .locked then
      slewTo ((nearestSecond s.now : Int) * 1000) s.withPps else s.withPps) := by
  change execPpsInEdge s = _
  rw [execPpsInEdge_eq]
  by_cases c : s.time.actingRoot = true ∧ s.time.beaconCfg.getLsbD 0 = true ∧ s.time.osc = .locked
  · have counts : s.time.epochSet = true := by
      rcases h with h | h | h
      · exact h
      · simp [h] at c
      · exact absurd c.2.2 h
    rw [if_pos c, if_pos c, if_pos counts]
  · rw [if_neg c, if_neg c]

theorem refReturn_eq (s : State) (pps : Bool) :
    exec (.refReturn pps) s = .next { s with time := { s.time with
      refPin := s.time.refPin || !pps, ppsPin := s.time.ppsPin || pps
      refOk := s.time.actingRoot && (s.time.refPin || !pps) && (s.time.ppsPin || pps) && s.time.beaconCfg.getLsbD 0 } } := rfl

/-! ## PPS_OUT (R14) -/

theorem ppsOutRise_of_second (s : State) (on : s.pwr.standbyOn = true) (h : s.now % 1000000000 = 0) :
    exec .ppsOutRise s = .next { s with time := { s.time with ppsOut := true } } := by
  change execPpsOutRise s = _
  unfold execPpsOutRise
  rw [if_pos ⟨on, h⟩]

theorem ppsOutRise_of_between (s : State) (h : s.now % 1000000000 ≠ 0) : exec .ppsOutRise s = .next s := by
  change execPpsOutRise s = _
  unfold execPpsOutRise
  rw [if_neg fun q => h q.2]

theorem ppsOutFall_due (s : State) (h : 100000 ≤ s.now % 1000000000) :
    exec .ppsOutFall s = .next { s with time := { s.time with ppsOut := false } } := by
  change execPpsOutFall s = _
  unfold execPpsOutFall
  rw [if_pos h]

theorem ppsOutFall_early (s : State) (h : s.now % 1000000000 < 100000) : exec .ppsOutFall s = .next s := by
  change execPpsOutFall s = _
  unfold execPpsOutFall
  rw [if_neg (by omega)]

/-- Settles O13: an edge starts the count (`setCount_zero`) or only aims the phase (`slewTo_eq`). -/
theorem referencesAndPpsOut : Obligations.ReferencesAndPpsOut := by
  intro s
  refine ⟨?first, ?later, fun _ => rfl, refReturn_eq s, ppsOutRise_of_second s, ppsOutRise_of_between s, ppsOutFall_due s,
    ppsOutFall_early s⟩
  case first =>
    intro root use lock waits
    obtain ⟨t, rfl, frame, now, frac, slew, counts, out, pin, ok, osc, acts⟩ := setCount_zero s.withPps
    refine ⟨_, ppsInEdge_first s root use lock waits, ?_, now, frac, slew, counts, out, pin, ?_, osc.trans lock, acts.trans root⟩
    · rw [frame]; rfl
    · rw [ok]; simp [State.withPps, root, use]
  case later =>
    intro h
    refine ⟨_, ppsInEdge_later s h, ?_⟩
    split
    · rw [slewTo_eq]
      refine ⟨rfl, ?_⟩
      show (nearestSecond s.now : Int) * 1000 * 10 - ((s.now : Int) * 10000 + s.time.frac) = _
      rw [mul_assoc]; rfl
    · exact ⟨rfl, rfl⟩

end Sys2Proof.Machine

namespace Sys2Proof.Machine

/-! ## Time cells (R16, R17, R24) -/

/-- A time cell that is heard moves the listening times alone. -/
theorem hearCell_eq (p : Fin 16) (t : TimeDom) :
    hearCell p t = { t with
      parentCellAt := (hearCell p t).parentCellAt, parentSeen := (hearCell p t).parentSeen
      backupCellAt := (hearCell p t).backupCellAt, backupSeen := (hearCell p t).backupSeen } := by
  unfold hearCell
  dsimp only
  split <;> split <;> rfl

@[simp] theorem hearCell_actingRoot (p : Fin 16) (t : TimeDom) : (hearCell p t).actingRoot = t.actingRoot := by rw [hearCell_eq]
@[simp] theorem hearCell_osc (p : Fin 16) (t : TimeDom) : (hearCell p t).osc = t.osc := by rw [hearCell_eq]
@[simp] theorem hearCell_epochSet (p : Fin 16) (t : TimeDom) : (hearCell p t).epochSet = t.epochSet := by rw [hearCell_eq]
@[simp] theorem hearCell_portUsed (p : Fin 16) (t : TimeDom) : (hearCell p t).portUsed = t.portUsed := by rw [hearCell_eq]; rfl

theorem beaconTime_of_noCell (s : State) (p : Fin 16) (m : C0Msg) (h : c0get m 0 1 ≠ 1 ∨ (s.port p).cells = false) :
    exec (.beaconTime p m) s = .next s := by
  change execBeaconTime p m s = _
  have no : ¬ (c0get m 0 1 = kindBeacon ∧ (s.port p).cells = true) := by
    rintro ⟨kind, cells⟩
    rcases h with h | h
    · exact h kind
    · simp [h] at cells
  unfold execBeaconTime
  dsimp only
  rw [if_neg no]

/-- A cell over a link without a delay is heard, and does no more (R24). -/
theorem beaconTime_of_noDelay (s : State) (p : Fin 16) (m : C0Msg) (kind : c0get m 0 1 = 1) (cells : (s.port p).cells = true)
    (unset : (s.port p).beaconD = 0xFFFF) : exec (.beaconTime p m) s = .next { s with time := hearCell p s.time } := by
  change execBeaconTime p m s = _
  unfold execBeaconTime
  dsimp only
  rw [if_pos ⟨kind, cells⟩, if_pos (.inr unset)]

/-- A cell on the port in use of a module in LOCKED aims the phase at its stamp plus the delay (R16). -/
theorem beaconTime_of_used (s : State) (p : Fin 16) (m : C0Msg) (kind : c0get m 0 1 = 1) (cells : (s.port p).cells = true)
    (used : p = s.time.portUsed) (follows : s.time.actingRoot = false) (lock : s.time.osc = .locked) (counts : s.time.epochSet = true)
    (delay : (s.port p).beaconD ≠ 0xFFFF) :
    exec (.beaconTime p m) s = .next (slewTo ((c0get m 8 8 : Int) * 1000 + (s.port p).beaconD.toNat)
      { s with time := { hearCell p s.time with
          depth := BitVec.ofNat 8 (c0get m 4 1 + 1), portInUse := BitVec.ofNat 4 p.val } }) := by
  change execBeaconTime p m s = _
  unfold execBeaconTime
  dsimp only
  have follower : ¬ ((hearCell p s.time).actingRoot = true ∨ (s.port p).beaconD = 0xFFFF) := by
    rw [hearCell_actingRoot, follows]; exact fun q => q.elim (by decide) delay
  have inUse : p = (hearCell p s.time).portUsed ∧ ((hearCell p s.time).osc = .acquire ∨ (hearCell p s.time).osc = .locked) := by
    rw [hearCell_portUsed, hearCell_osc]; exact ⟨used, .inr lock⟩
  have noAcquire : ¬ ((hearCell p s.time).osc = .freeRun ∧ { s with time := hearCell p s.time }.someParent = true) := by
    simp [lock]
  rw [if_pos ⟨kind, cells⟩, if_neg follower, if_neg noAcquire, if_pos inUse, if_pos (by simpa using counts)]

/-! ## A silent parent and the standby root (R17, R19) -/

theorem switchDue_iff (s : State) : s.switchDue = true ↔
    s.time.role = .member ∧ s.time.onBackup = false ∧ s.time.parentCellAt.toNat + 1024 ≤ s.now ∧ s.backupUp = true := by
  simp [State.switchDue, State.parentQuiet, and_assoc]

theorem parentSilent_of_due (s : State) (h : s.switchDue = true) :
    exec .parentSilent s = .next { s with time := { s.time with
      onBackup := true, portInUse := s.time.beaconCfg.extractLsb' 20 4 } } := by
  change execParentSilent s = _
  unfold execParentSilent
  rw [if_pos h, ← ofNat_portOf_bits _ 23 20 rfl]; rfl

theorem parentSilent_of_not (s : State) (h : s.switchDue = false) : exec .parentSilent s = .next s := by
  change execParentSilent s = _
  unfold execParentSilent
  rw [if_neg (by simp [h])]

theorem standbyRootTakeover_due (s : State) (role : s.time.role = .standbyRoot) (waits : s.time.actingRoot = false)
    (quiet : s.time.parentCellAt.toNat + 4096 ≤ s.now) :
    exec .standbyRootTakeover s = .next (c0flood none
      (c0msg [(0, 1, 3), (2, 2, 0xFFF), (4, 2, s.module.toNat), (8, 8, s.now)]) { s with
        time := { s.time with role := .root, actingRoot := true, depth := 0, portInUse := 0, slew := 0, epochSet := true }
        fab := { s.fab with rootChangeSeen := true } }) := by
  change execStandbyRootTakeover s = _
  unfold execStandbyRootTakeover
  rw [if_pos ⟨role, by simp [waits], by simpa [State.parentQuiet] using quiet⟩]
  rfl

theorem standbyRootTakeover_early (s : State) (h : s.now < s.time.parentCellAt.toNat + 4096) :
    exec .standbyRootTakeover s = .next s := by
  change execStandbyRootTakeover s = _
  unfold execStandbyRootTakeover
  rw [if_neg fun q => absurd q.2.2 (by simpa [State.parentQuiet] using h)]

theorem rootChange_first (s : State) (p : Fin 16) (m : C0Msg) (h : s.fab.rootChangeSeen = false) :
    exec (.rootChange p m) s = .next (c0flood (some p) m { s with
      time := { s.time with
        role := .member, actingRoot := false, refOk := false, onBackup := true, rootChanged := true, epochSet := true
        portInUse := s.time.beaconCfg.extractLsb' 20 4 }
      fab := { s.fab with rootChangeSeen := true } }) := by
  change execRootChange p m s = _
  unfold execRootChange
  rw [if_neg (by simp [h]), ← ofNat_portOf_bits _ 23 20 rfl]; rfl

theorem rootChange_again (s : State) (p : Fin 16) (m : C0Msg) (h : s.fab.rootChangeSeen = true) :
    exec (.rootChange p m) s = .next (c0drop s) := by
  change execRootChange p m s = _
  unfold execRootChange
  rw [if_pos h]

/-- Settles O14: a heard cell moves the listening times alone (`hearCell_eq`), an aim only slews (`slewTo_eq`), and a flood does what
its claim says. -/
theorem beaconTreeFollowsItsRules : Obligations.BeaconTreeFollowsItsRules := by
  intro s p m
  refine ⟨?used, ?noDelay, beaconTime_of_noCell s p m, ?silent, ?heard, ?takeover, standbyRootTakeover_early s, ?change,
    rootChange_again s p m⟩
  case used =>
    intro kind cells used follows lock counts delay
    refine ⟨_, beaconTime_of_used s p m kind cells used follows lock counts delay, ?_⟩
    rw [slewTo_eq, hearCell_eq]
    rfl
  case noDelay =>
    intro kind cells unset
    refine ⟨_, beaconTime_of_noDelay s p m kind cells unset, ?_⟩
    rw [hearCell_eq]
  case silent =>
    intro quiet role primary seen fresh kept
    exact parentSilent_of_due s ((switchDue_iff s).2 ⟨role, primary, quiet, (backupUp_iff s).2 ⟨seen, fresh, kept⟩⟩)
  case heard =>
    intro h
    refine parentSilent_of_not s (Bool.eq_false_iff.2 fun due => ?_)
    obtain ⟨_, _, quiet, up⟩ := (switchDue_iff s).1 due
    obtain ⟨_, fresh, _⟩ := (backupUp_iff s).1 up
    omega
  case takeover =>
    intro role waits quiet
    exact ⟨_, standbyRootTakeover_due s role waits quiet, c0flood_flooded ..⟩
  case change =>
    intro first
    exact ⟨_, rootChange_first s p m first, c0flood_flooded ..⟩

end Sys2Proof.Machine

namespace Sys2Proof.Machine

/-! ## Path budgets (R23) -/

theorem budgetOf_toNat (sum : U16) : (budgetOf sum).toNat = min 65535 (sum.toNat + 20) := by
  simp only [budgetOf, satAdd, BitVec.toNat_ofNat]
  omega

theorem roleOfCfg_root (w : U32) : roleOfCfg w = .root ↔ w.extractLsb' 30 2 = 1 := by
  have two : ∀ x : BitVec 2, (match x.toNat with | 1 => BeaconRole.root | 2 => .standbyRoot | _ => .member) = .root ↔ x = 1 := by
    decide
  exact two _

theorem roleOfCfg_standbyRoot (w : U32) : roleOfCfg w = .standbyRoot ↔ w.extractLsb' 30 2 = 2 := by
  have two : ∀ x : BitVec 2,
      (match x.toNat with | 1 => BeaconRole.root | 2 => .standbyRoot | _ => .member) = .standbyRoot ↔ x = 2 := by
    decide
  exact two _

/-- The root's primary budget takes the place of the low one of a pair (R23). -/
theorem setBits_rootBudget (x y : U16) : setBits (x ++ y : U32) 15 0 20 = x ++ 20#16 := by
  have mask : ~~~(BitVec.ofNat 32 (2 ^ (15 + 1 - 0) - 1) <<< 0) = BitVec.allOnes 16 ++ 0#16 := by decide
  have value : BitVec.ofNat 32 (20 % 2 ^ (15 + 1 - 0)) <<< 0 = 0#16 ++ 20#16 := by decide
  unfold setBits
  dsimp only
  rw [mask, value, BitVec.and_append, BitVec.or_append, BitVec.and_allOnes, BitVec.and_zero, BitVec.or_zero, BitVec.zero_or]

theorem append_toNat (x y : U16) : (x ++ y : U32).toNat = x.toNat * 65536 + y.toNat := by
  rw [BitVec.toNat_append, ← Nat.shiftLeft_add_eq_or_of_lt y.isLt, Nat.shiftLeft_eq]

/-! ## The state that a sounding leaves (R22 to R24, R291) -/

theorem leaveSounding_frame (s : State) : ∃ t : TimeDom, leaveSounding s = { s with time := t } ∧
    t.hallTime = s.time.hallTime ∧ t.pathBudget = s.time.pathBudget ∧ t.backupLost = s.time.backupLost := by
  unfold leaveSounding
  dsimp only
  split
  · exact ⟨_, rfl, rfl, rfl, rfl⟩
  · split <;> exact ⟨_, rfl, rfl, rfl, rfl⟩

/-- The port of a link that has been measured: delay, uncertainty, and whether it is refused. -/
def FabPort.measured (p : FabPort) (d u : U16) : FabPort :=
  { p with
    soundD := d, soundU := u, beaconD := d, rounds := 0, soundSum := 0, tooLong := decide (d.toNat > 32000)
    state := if decide (d.toNat > 32000) || decide (u.toNat > 50) then .failed else .up }

/-- The module once a link has been measured and the roles are those of TIME_BEACON_CFG again. -/
def State.measuredLink (s : State) (p : Fin 16) (up : Bool) (u a b : U16) : State :=
  refreshRefOk (takeRole { s.updPort p fun f => f.measured ((s.port p).measuredD up) u with
    time := { s.time with
      pathBudget := budgetOf b ++ budgetOf a
      backupLost := decide ((budgetOf b).toNat > 500) && roleOfCfg s.time.beaconCfg != .standbyRoot } })

theorem soundingComplete_eq (s : State) (p : Fin 16) (up : Bool) (u a b : U16) (free : s.holdsImage = false)
    (sound : (s.port p).state = .sound) (rounds : (s.port p).rounds = 4096) :
    ∃ t : TimeDom, exec (.soundingComplete p up u a b) s = .next { s.measuredLink p up u a b with time := t } ∧
      t.hallTime = (s.measuredLink p up u a b).time.hallTime ∧ t.pathBudget = (s.measuredLink p up u a b).time.pathBudget ∧
      t.backupLost = (s.measuredLink p up u a b).time.backupLost := by
  have may : s.mayRound p = true := by simp [State.mayRound, sound, free]
  have run : exec (.soundingComplete p up u a b) s = .next
      (if (s.measuredLink p up u a b).allSounded = true ∧ (s.measuredLink p up u a b).time.osc = .sounding
        then leaveSounding (s.measuredLink p up u a b) else s.measuredLink p up u a b) := by
    change execSoundingComplete p up u a b s = _
    unfold execSoundingComplete
    rw [if_pos ⟨may, rounds⟩]
    rfl
  rw [run]
  split
  · obtain ⟨t, h, kept⟩ := leaveSounding_frame (s.measuredLink p up u a b)
    exact ⟨t, by rw [h], kept⟩
  · exact ⟨_, rfl, rfl, rfl, rfl⟩

theorem soundingComplete_of_not (s : State) (p : Fin 16) (up : Bool) (u a b : U16)
    (h : (s.port p).state ≠ .sound ∨ (s.port p).rounds ≠ 4096) : exec (.soundingComplete p up u a b) s = .next s := by
  change execSoundingComplete p up u a b s = _
  have no : ¬ (s.mayRound p = true ∧ (s.port p).rounds = 4096) := by
    rintro ⟨may, rounds⟩
    rcases h with h | h
    · simp [State.mayRound, h] at may
    · exact h rounds
  unfold execSoundingComplete
  rw [if_neg no]

theorem measuredLink_fab (s : State) (p : Fin 16) (up : Bool) (u a b : U16) :
    s.measuredLink p up u a b = { s with
      time := (s.measuredLink p up u a b).time
      fab := { s.fab with
        rootChangeSeen := false
        ports := s.fab.ports.set p ((s.port p).measured ((s.port p).measuredD up) u) } } := rfl

theorem measuredLink_pathBudget (s : State) (p : Fin 16) (up : Bool) (u a b : U16) (ha : a.toNat + 20 < 65536)
    (hb : b.toNat + 20 < 65536) : (s.measuredLink p up u a b).time.pathBudget.toNat = (b.toNat + 20) * 65536 +
      (if s.time.beaconCfg.extractLsb' 30 2 = 1 then 20 else a.toNat + 20) := by
  show (if roleOfCfg s.time.beaconCfg = .root then setBits (budgetOf b ++ budgetOf a : U32) 15 0 20
    else budgetOf b ++ budgetOf a).toNat = _
  simp only [roleOfCfg_root, setBits_rootBudget]
  split
  · rw [append_toNat, budgetOf_toNat, min_eq_right (by omega)]; rfl
  · rw [append_toNat, budgetOf_toNat, budgetOf_toNat, min_eq_right (by omega), min_eq_right (by omega)]

theorem measuredLink_backupLost (s : State) (p : Fin 16) (up : Bool) (u a b : U16)
    (h : s.time.beaconCfg.extractLsb' 30 2 ≠ 2) : (s.measuredLink p up u a b).time.backupLost = true ↔ 480 < b.toNat := by
  have role : (roleOfCfg s.time.beaconCfg != .standbyRoot) = true := by
    simpa [bne_iff_ne, roleOfCfg_standbyRoot] using h
  show (decide ((budgetOf b).toNat > 500) && roleOfCfg s.time.beaconCfg != .standbyRoot) = true ↔ _
  rw [role, Bool.and_true, decide_eq_true_iff, budgetOf_toNat]
  omega

/-! ## SOUND messages (R22, R290) -/

/-- A port that queues a message keeps all but its queue. -/
theorem c0queue_port_frame (p : Fin 16) (m : C0Msg) (s : State) :
    (c0queue p m s).port p = { s.port p with c0q := ((c0queue p m s).port p).c0q } := by
  unfold c0queue
  rw [updPort_port, if_pos rfl]
  dsimp only
  split <;> rfl

theorem c0queue_updPort (p : Fin 16) (m : C0Msg) (s : State) :
    c0queue p m s = { s with fab := { s.fab with ports := s.fab.ports.set p ((c0queue p m s).port p) } } := by
  unfold c0queue
  rw [updPort_port, if_pos rfl]; rfl

theorem soundMsg_request (s : State) (p : Fin 16) (m : C0Msg) (free : s.holdsImage = false) (kind : c0get m 0 1 = 2)
    (ask : c0get m 1 1 = 0) (up : (s.port p).state = .up) :
    exec (.soundMsg p m) s = .next (c0queue p (c0msg [(0, 1, 2), (1, 1, 1), (2, 2, s.module.toNat), (4, 1, p.val), (5, 3, c0get m 5 3),
      (8, 8, s.now * 1000 + (Config.freeValue s.freeCount).toNat % 1000)]) { s with freeCount := s.freeCount + 1 }) := by
  have cells : (s.port p).cells = true := by simp [FabPort.cells, up]
  change execSoundMsg p m s = _
  unfold execSoundMsg
  dsimp only
  rw [if_pos ⟨kind, cells⟩, if_neg (show ¬ (s.port p).state = .align by simp [up]), if_pos ask, if_neg (by simp [free])]
  rfl

theorem soundMsg_response (s : State) (p : Fin 16) (m : C0Msg) (free : s.holdsImage = false) (kind : c0get m 0 1 = 2)
    (answer : c0get m 1 1 = 1) (sound : (s.port p).state = .sound) (left : (s.port p).rounds < 4096)
    (round : c0get m 5 3 = (s.port p).rounds) :
    exec (.soundMsg p m) s = .next { s with
      freeCount := s.freeCount + 1
      fab := { s.fab with ports := s.fab.ports.set p { s.port p with
        rounds := (s.port p).rounds + 1
        soundSum := (s.port p).soundSum +
          (s.now * 1000 + (Config.freeValue s.freeCount).toNat % 1000 - (s.port p).soundAt - c0get m 8 8) } } } := by
  have cells : (s.port p).cells = true := by simp [FabPort.cells, sound]
  have may : s.mayRound p = true := by simp [State.mayRound, sound, free]
  change execSoundMsg p m s = _
  unfold execSoundMsg
  dsimp only
  rw [if_pos ⟨kind, cells⟩, if_neg (show ¬ (s.port p).state = .align by simp [sound]), if_neg (by simp [answer]),
    if_pos ⟨may, left, round⟩]
  rfl

/-- In ALIGN the peer's identity is all that a response gives. -/
theorem soundMsg_identity (s : State) (p : Fin 16) (m : C0Msg) (kind : c0get m 0 1 = 2) (answer : c0get m 1 1 ≠ 0)
    (align : (s.port p).state = .align) :
    exec (.soundMsg p m) s = .next (s.updPort p fun f => { f with
      identKnown := true, peerModule := BitVec.ofNat 12 (c0get m 2 2), peerPort := BitVec.ofNat 4 (c0get m 4 1) }) := by
  have cells : (s.port p).cells = true := by simp [FabPort.cells, align]
  change execSoundMsg p m s = _
  unfold execSoundMsg
  dsimp only
  rw [if_pos ⟨kind, cells⟩, if_pos align, if_neg answer, if_neg (by simp [State.mayRound, align])]

/-- Settles O15: `measuredLink` is the state a finished sounding leaves, and `leaveSounding_frame` says what its end can change. -/
theorem soundingSetsDelaysAndBudgets : Obligations.SoundingSetsDelaysAndBudgets := by
  intro s p m u a b empty idle
  have free : s.holdsImage = false := by simp [State.holdsImage, empty, idle]
  refine ⟨?complete, fun up => soundingComplete_of_not s p up u a b, ?request, soundMsg_response s p m free, soundMsg_identity s p m⟩
  case complete =>
    intro up d sound rounds hd
    obtain ⟨t, run, now, budget, lost⟩ := soundingComplete_eq s p up u a b free sound rounds
    have port : { s.measuredLink p up u a b with time := t }.port p = (s.port p).measured ((s.port p).measuredD up) u := by
      rw [measuredLink_fab]; simp [State.port]
    have delay : (s.port p).measuredD up = BitVec.ofNat 16 d := by rw [hd]; rfl
    have small : (BitVec.ofNat 16 d).toNat = d := by rw [BitVec.toNat_ofNat, Nat.mod_eq_of_lt (by omega)]
    refine ⟨_, run, ?_, ?_, now, ?_, ?_⟩
    · rw [port, measuredLink_fab]
    · rw [port, FabPort.measured, delay, small]
      simp
    · intro ha hb
      rw [← measuredLink_pathBudget s p up u a b ha hb]
      exact congrArg _ budget
    · intro h
      rw [← measuredLink_backupLost s p up u a b h]
      exact Eq.congr_left lost
  case request =>
    intro kind ask up
    exact ⟨_, soundMsg_request s p m free kind ask up, c0queue_updPort .., c0queue_port_frame .., c0queue_same p _ s _ rfl rfl⟩

end Sys2Proof.Machine

namespace Sys2Proof.Machine

/-! ## Arming (R31, R97) -/

theorem execLegArmHiWrite_loaded (s : State) (v : U32) (h : s.seq.state = .loaded) :
    exec (.legArmHiWrite v) s = .next
      (let t := pair s.seq.armLo v
       let early := decide (t.toNat < s.now + 10000)
       let off := decide (t.toNat % 16 ≠ 0)
       let u := if early then logErr errMarkPast none t s.time.hallTime s else s
       let u := if off then logErr errMarkAlign none t s.time.hallTime u else u
       if early || off then u else { s with seq := { s.seq with state := .armed, nextAt := t, nextBase := t } }) := by
  change execLegArmHiWrite v s = _
  unfold execLegArmHiWrite
  rw [if_pos h]
  dsimp only
  by_cases early : (pair s.seq.armLo v).toNat < s.now + 10000
  · simp only [early, decide_true, Bool.true_or, if_true]
    rw [show (logErr errMarkPast none (pair s.seq.armLo v) s.time.hallTime s).time = s.time by rw [logErr_frame]]
  · by_cases off : (pair s.seq.armLo v).toNat % 16 ≠ 0 <;> simp [early, off]

/-- Settles O16, by the two faults that a first mark can have: early, and misaligned. -/
theorem armingTheFirstMark : Obligations.ArmingTheFirstMark := by
  intro s v
  refine ⟨fun h far whole => ?_, fun h early whole => ?_, fun h far off => ?_, fun h early off => ?_, fun h => ?_⟩
  · rw [execLegArmHiWrite_loaded s v h]; simp [whole, show ¬ (pair s.seq.armLo v).toNat < s.now + 10000 by omega]
  · rw [execLegArmHiWrite_loaded s v h]; simp [whole, early]; rfl
  · rw [execLegArmHiWrite_loaded s v h]; simp [off, show ¬ (pair s.seq.armLo v).toNat < s.now + 10000 by omega]; rfl
  · rw [execLegArmHiWrite_loaded s v h]; simp [off, early]; rfl
  · change execLegArmHiWrite v s = _
    unfold execLegArmHiWrite
    rw [if_neg h]

/-! ## Slips (R33 to R37, R42) -/

/-- k_max of the mark that a slip of at least one quantum names, and of every other mark. -/
theorem kMax_raised (t : Tbl Nat) (m k : Nat) (pos : k ≠ 0) :
    tget 0 (tset 0 t m (max k (tget 0 t m))) m = max k (tget 0 t m) ∧
      ∀ j, j ≠ m → tget 0 (tset 0 t m (max k (tget 0 t m))) j = tget 0 t j :=
  ⟨tget_tset_new _ _ _ _ (by omega), fun _ h => tget_tset_other _ _ _ _ _ h⟩

/-- An interrupt depends on the host's registers and the time alone. -/
theorem setIrq_host (v : Fin 5) (s t : State) (h : t.host = s.host) (k : t.time.hallTime = s.time.hallTime) :
    (setIrq v t).host = (setIrq v s).host := by
  unfold setIrq
  dsimp only
  rw [h, k]
  split <;> rfl

/-- The count of slips reaches TIME_LEG_CFG.SLIP_IRQ with the next one, and its vector has not gone out in this job (R37). -/
def slipIrqDue (legCfg count : U32) (sent : Bool) : Bool :=
  decide ((legCfg.extractLsb' 16 16).toNat ≠ 0 ∧ (legCfg.extractLsb' 16 16).toNat ≤ (count + 1).toNat ∧ sent = false)

theorem countSlip_eq (s : State) :
    countSlip s = { s with
      time := { s.time with
        slipCount := s.time.slipCount + 1
        slipIrqSent := s.time.slipIrqSent || slipIrqDue s.time.legCfg s.time.slipCount s.time.slipIrqSent }
      host := bif slipIrqDue s.time.legCfg s.time.slipCount s.time.slipIrqSent then (setIrq 2 s).host else s.host } := by
  unfold countSlip
  cases due : slipIrqDue s.time.legCfg s.time.slipCount s.time.slipIrqSent with
  | true =>
    obtain ⟨set, reached, fresh⟩ := of_decide_eq_true due
    rw [if_pos ⟨set, reached, by simp [fresh]⟩, Bool.or_true, cond_true]
    refine (setIrq_frame ..).trans ?_
    rw [setIrq_host 2 s { s with time := { s.time with slipCount := s.time.slipCount + 1, slipIrqSent := true } } rfl rfl]
  | false =>
    rw [if_neg fun q => of_decide_eq_false due ⟨q.1, q.2.1, by simpa using q.2.2⟩, Bool.or_false, cond_false]

/-- The state with k_max of mark `m` at least `k`, and the next mark's time as it follows (R33). -/
def State.shifted (s : State) (m k : Nat) : State :=
  reshift { s with seq := { s.seq with kMax := tset 0 s.seq.kMax m (max k (tget 0 s.seq.kMax m)) } }

theorem applySlip_eq (m k : Nat) (raiser : BitVec 12) (core : BitVec 5) (seq : Bool) (reason : Byte) (s : State) :
    applySlip m k raiser core seq reason s = { s with
      seq := (s.shifted m k).seq
      time := { s.time with
        slipCount := s.time.slipCount + 1, slipTotal := s.time.slipTotal + 1
        slipIrqSent := s.time.slipIrqSent || slipIrqDue s.time.legCfg s.time.slipCount s.time.slipIrqSent
        slipLog := ringPush 256 s.time.slipLog
          { appliedAt := s.time.hallTime, mark := BitVec.ofNat 64 m, newTime := (s.shifted m k).markTime m, raiser := raiser
            core := core, seq := seq, k := BitVec.ofNat 4 k, kMax := BitVec.ofNat 4 (tget 0 (s.shifted m k).seq.kMax m)
            reason := reason, late := false } }
      host := bif slipIrqDue s.time.legCfg s.time.slipCount s.time.slipIrqSent then (setIrq 2 s).host else s.host } := by
  have irq : ∀ e : SlipEntry, (setIrq 2 (logSlip e (s.shifted m k))).host = (setIrq 2 s).host := fun e =>
    setIrq_host 2 s _ (by simp only [logSlip, State.shifted, reshift]) (by simp only [logSlip, State.shifted, reshift])
  show countSlip (logSlip _ (s.shifted m k)) = _
  rw [countSlip_eq, irq]
  dsimp only [logSlip, State.shifted, reshift]

theorem applySlip_applied (m k : Nat) (raiser : BitVec 12) (core : BitVec 5) (seq : Bool) (reason : Byte) (s : State) (pos : k ≠ 0) :
    Claims.SlipApplied m k raiser core seq reason s (applySlip m k raiser core seq reason s) := by
  rw [applySlip_eq]
  refine ⟨?_, kMax_raised s.seq.kMax m k pos⟩
  simp only [slipIrqDue, cond_eq_ite, decide_eq_true_iff]
  rfl

/-- The core that a slip shows; 0 where the leg sequencer raises it. -/
def slipCore (core : Option (Fin 32)) : BitVec 5 := core.elim 0 fun c => BitVec.ofNat 5 c.val

/-- A slip that this module raises is applied here, and flooded (R33, R35). -/
theorem raiseSlip_eq (m k : Nat) (core : Option (Fin 32)) (reason : Byte) (s : State)
    (legs : s.seq.state = .running ∨ s.seq.state = .gated) (goes : s.seq.suspended = false) :
    raiseSlip m k core reason s =
      c0flood none (slipMsgOf s m k (slipCore core) core.isNone reason)
        (applySlip m k s.module (slipCore core) core.isNone reason s) := by
  unfold raiseSlip
  rw [if_neg (by simp [legs, goes])]
  cases core <;> rfl

theorem slipQuanta_pos (q d : Nat) : 1 ≤ slipQuanta q d := le_max_left ..

/-- The quanta cover the overrun where 15 of them suffice (R35). -/
theorem slipQuanta_covers (q d : Nat) (pos : q ≠ 0) (fits : d ≤ 15 * q) : d ≤ slipQuanta q d * q := by
  have ceil : d ≤ (d + q - 1) / q * q := by
    have := Nat.div_add_mod (d + q - 1) q
    have := Nat.mod_lt (d + q - 1) (Nat.pos_of_ne_zero pos)
    rw [Nat.mul_comm]
    omega
  have le15 : (d + q - 1) / q ≤ 15 := by
    rw [← Nat.lt_succ_iff, Nat.div_lt_iff_lt_mul (Nat.pos_of_ne_zero pos)]
    omega
  calc d ≤ (d + q - 1) / q * q := ceil
    _ ≤ slipQuanta q d * q := Nat.mul_le_mul_right _ (by simp [slipQuanta, le15])

/-! ## The horizon check (R35, R36) -/

theorem timed_iff (q : Sequencer) : q.timed = true ↔
    (q.state = .armed ∨ q.state = .running ∨ q.state = .gated) ∧ q.due.ended = false ∧ q.suspended = false := by
  unfold Sequencer.timed
  cases q.state <;> simp

/-- At h(n) and later a slip names the mark after the next one (R34). -/
theorem slipTarget_atHorizon (s : State) (h : s.seq.nextBase.toNat ≤ s.now + s.time.horizon) :
    s.slipTarget = s.seq.nextNum + 1 := by
  unfold State.slipTarget
  rw [if_neg (by omega)]

theorem nextNum_begun (q : Sequencer) (h : q.begun = true) : q.nextNum = q.mark.toNat + 1 := by
  unfold Sequencer.nextNum
  rw [if_pos h]

theorem checkProgress_inTime (c : Nat) (core : Option (Fin 32)) (reason : Byte) (s : State)
    (h : ¬ (s.seq.timed = true ∧ s.seq.nextAt.toNat < s.predict c)) : checkProgress c core reason s = s := by
  unfold checkProgress
  dsimp only
  rw [if_neg h]

theorem checkProgress_late (c : Nat) (core : Option (Fin 32)) (reason : Byte) (s : State)
    (timed : s.seq.timed = true) (h : s.seq.nextAt.toNat < s.predict c) : checkProgress c core reason s =
      raiseSlip s.slipTarget (slipQuanta s.time.quantum (s.predict c - s.seq.nextAt.toNat)) core reason s := by
  unfold checkProgress
  dsimp only
  rw [if_pos ⟨timed, h⟩]

/-- The state once the check of h(n) is under way for the next mark. -/
def State.horizonNoted (s : State) : State := { s with seq := { s.seq with horizonDone := true } }

theorem horizonCheck_eq (s : State) (timed : s.seq.timed = true) (begun : s.seq.begun = true) (first : s.seq.horizonDone = false)
    (run : s.seq.state = .running) (h : s.seq.nextBase.toNat ≤ s.now + s.time.horizon) :
    exec .horizonCheck s = .next (checkProgress s.seq.cycle none slipHorizon s.horizonNoted) := by
  change execHorizonCheck s = _
  unfold execHorizonCheck
  rw [if_pos ⟨timed, begun, by simp [first], h⟩]
  dsimp only
  rw [if_pos run]
  rfl

/-- A flood leaves the sequencer as it is. -/
theorem c0flood_seq (p : Option (Fin 16)) (m : C0Msg) (s : State) : (c0flood p m s).seq = s.seq := by rw [c0flood_frame]

/-- Settles O18: the check is a progress check in the leg's running cycle, and its quanta cover the overrun by `slipQuanta_covers`. -/
theorem horizonCheckPredictsOverruns : Obligations.HorizonCheckPredictsOverruns := by
  intro s run more goes begun first horizon
  have timed : s.horizonNoted.seq.timed = true := (timed_iff _).2 ⟨.inr (.inl run), more, goes⟩
  have target : s.horizonNoted.slipTarget = s.seq.mark.toNat + 2 := by
    rw [slipTarget_atHorizon s.horizonNoted horizon, nextNum_begun s.horizonNoted.seq begun]; rfl
  rw [horizonCheck_eq s timed begun first run horizon]
  refine ⟨fun inTime => ?_, fun late => ?_⟩
  · rw [checkProgress_inTime _ _ _ s.horizonNoted fun q => absurd q.2 (Nat.not_lt.2 inTime)]; rfl
  · rw [checkProgress_late _ _ _ s.horizonNoted timed late, raiseSlip_eq _ _ _ _ s.horizonNoted (.inl run) goes, target]
    have applied := applySlip_applied (s.seq.mark.toNat + 2)
      (slipQuanta s.time.quantum (s.predict s.seq.cycle - s.seq.nextAt.toNat)) s.module 0 true 1
      s.horizonNoted (Nat.one_le_iff_ne_zero.1 (slipQuanta_pos ..))
    have kMax := applied.2.1
    refine ⟨_, _, _, rfl, rfl, applied, c0flood_flooded .., ?_, fun pos fits => ?_⟩
    · rw [c0flood_seq]
      exact (le_max_of_le_left (slipQuanta_pos ..)).trans_eq kMax.symm
    · rw [c0flood_seq]
      have covers := slipQuanta_covers s.time.quantum _ pos fits
      have most := Nat.mul_le_mul_right s.time.quantum ((le_max_left ..).trans_eq kMax.symm)
      exact Nat.sub_le_iff_le_add'.1 (covers.trans most)

end Sys2Proof.Machine

namespace Sys2Proof.Machine

/-! ## SLIP messages (R33, R299) -/

/-- The marks of this module take slips: an image is armed, and its legs are not halted. -/
abbrev Sequencer.takesSlips (q : Sequencer) : Prop := q.state = .armed ∨ q.state = .running ∨ q.state = .gated ∨ q.state = .done

theorem not_takesSlips (q : Sequencer) (h : q.state = .empty ∨ q.state = .loaded ∨ q.state = .halted) : ¬ q.takesSlips := by
  rcases h with h | h | h <;> simp [Sequencer.takesSlips, h]

/-- A slip of this partition is late, raises k_max, or is a duplicate. -/
theorem slipMsg_own (s : State) (p : Fin 16) (msg : C0Msg) (m k : Nat) (hm : m = fullMark s.seq.nextNum (c0get msg 4 4))
    (hk : k = c0get msg 8 1) (legs : s.seq.takesSlips)
    (own : BitVec.ofNat 12 (c0get msg 2 2) = s.seq.origin ∨ BitVec.ofNat 12 (c0get msg 2 2) = 0xFFF) :
    exec (.slipMsg p msg) s = .next
      (if m < s.seq.nextNum then
        lateSlip m k (BitVec.ofNat 12 (c0get msg 10 2)) (BitVec.ofNat 5 (c0get msg 12 1)) (decide (c0get msg 12 1 / 32 % 2 = 1))
          (BitVec.ofNat 8 (c0get msg 9 1)) s
      else if tget 0 s.seq.kMax m < k then
        c0flood (some p) msg (applySlip m k (BitVec.ofNat 12 (c0get msg 10 2)) (BitVec.ofNat 5 (c0get msg 12 1))
          (decide (c0get msg 12 1 / 32 % 2 = 1)) (BitVec.ofNat 8 (c0get msg 9 1)) s)
      else c0drop s) := by
  subst hm hk
  change execSlipMsg p msg s = _
  unfold execSlipMsg
  dsimp only
  rw [if_pos ⟨own, legs⟩]

/-- A slip of another partition and mark that was not seen before is recorded and goes on. -/
theorem slipMsg_foreign_first (s : State) (p : Fin 16) (msg : C0Msg)
    (foreign : ¬ ((BitVec.ofNat 12 (c0get msg 2 2) = s.seq.origin ∨ BitVec.ofNat 12 (c0get msg 2 2) = 0xFFF) ∧ s.seq.takesSlips))
    (h : s.fab.slipSeen.find? (fun e => e.1 == BitVec.ofNat 12 (c0get msg 2 2) && e.2.1 == c0get msg 4 4) = none) :
    exec (.slipMsg p msg) s = .next (c0flood (some p) msg { s with fab := { s.fab with
      slipSeen := s.fab.slipSeen ++ [(BitVec.ofNat 12 (c0get msg 2 2), c0get msg 4 4, c0get msg 8 1)] } }) := by
  change execSlipMsg p msg s = _
  unfold execSlipMsg
  dsimp only
  rw [if_neg foreign, h]

/-- A later one goes on when it raises the largest k seen. -/
theorem slipMsg_foreign_again (s : State) (p : Fin 16) (msg : C0Msg)
    (foreign : ¬ ((BitVec.ofNat 12 (c0get msg 2 2) = s.seq.origin ∨ BitVec.ofNat 12 (c0get msg 2 2) = 0xFFF) ∧ s.seq.takesSlips))
    (e : BitVec 12 × Nat × Nat)
    (h : s.fab.slipSeen.find? (fun e => e.1 == BitVec.ofNat 12 (c0get msg 2 2) && e.2.1 == c0get msg 4 4) = some e) :
    exec (.slipMsg p msg) s = .next (if e.2.2 < c0get msg 8 1 then
      c0flood (some p) msg { s with fab := { s.fab with slipSeen := s.fab.slipSeen.map fun x =>
        if x = e then (BitVec.ofNat 12 (c0get msg 2 2), c0get msg 4 4, c0get msg 8 1) else x } }
      else c0drop s) := by
  change execSlipMsg p msg s = _
  unfold execSlipMsg
  dsimp only
  rw [if_neg foreign, h]

/-- Settles O19: a slip of this partition by `slipMsg_own`, any other by the record of the largest k seen. -/
theorem slipsRaiseKMax : Obligations.SlipsRaiseKMax := by
  rintro s p msg _ m k rfl hm hk
  refine ⟨fun legs own => ⟨fun ahead raises => ?raise, fun ahead same => ?duplicate, fun e past he => ?late⟩, fun foreign => ?foreign⟩
  case raise =>
    rw [slipMsg_own s p msg m k hm hk legs own, if_neg (by omega), if_pos raises]
    exact ⟨_, _, rfl, applySlip_applied _ _ _ _ _ _ _ (by omega), c0flood_flooded ..⟩
  case duplicate =>
    rw [slipMsg_own s p msg m k hm hk legs own, if_neg (by omega), if_neg (by omega)]
    rfl
  case late =>
    rw [slipMsg_own s p msg m k hm hk legs own, if_pos past, he]
    rfl
  case foreign =>
    have other : ¬ ((BitVec.ofNat 12 (c0get msg 2 2) = s.seq.origin ∨ BitVec.ofNat 12 (c0get msg 2 2) = 0xFFF) ∧
        s.seq.takesSlips) := by
      rintro ⟨own, legs⟩
      rcases foreign with h | h | h | ⟨n, n'⟩
      · exact not_takesSlips _ (.inl h) legs
      · exact not_takesSlips _ (.inr (.inl h)) legs
      · exact not_takesSlips _ (.inr (.inr h)) legs
      · exact own.elim n n'
    subst hk
    refine ⟨fun first => ?_, fun e seen raises => ?_, fun e seen same => ?_⟩
    · exact ⟨_, slipMsg_foreign_first s p msg other first, c0flood_flooded ..⟩
    · rw [slipMsg_foreign_again s p msg other e seen, if_pos raises]
      exact ⟨_, rfl, c0flood_flooded ..⟩
    · rw [slipMsg_foreign_again s p msg other e seen, if_neg (by omega)]
      rfl

end Sys2Proof.Machine

namespace Sys2Proof.Machine

/-! ## Words on the mesh (R38, R45) -/

/-- Words that reach their queues move from the mesh to the queues, and nothing else changes. -/
theorem deliverFlits_frame (t : Option Nat) (l : List MeshFlit) (held : List Nat) (s : State) :
    ∃ x q, deliverFlits t l held s = { s with fab := { s.fab with onMesh := x, queues := q } } := by
  induction l generalizing held s with
  | nil => exact ⟨_, _, rfl⟩
  | cons e l ih =>
    unfold deliverFlits
    dsimp only
    generalize (_ && !held.contains e.queue) = due
    cases due with
    | true =>
      obtain ⟨x, q, h⟩ := ih held { s with fab := { s.fab with
        onMesh := s.fab.onMesh.erase e
        queues := tset [] s.fab.queues e.queue (tget [] s.fab.queues e.queue ++ [e.flit]) } }
      exact ⟨x, q, h⟩
    | false => exact ih _ s

theorem deliverMesh_frame (t : Option Nat) (s : State) :
    deliverMesh t s = { s with fab := { s.fab with
      onMesh := (deliverMesh t s).fab.onMesh, queues := (deliverMesh t s).fab.queues } } := by
  obtain ⟨x, q, h⟩ := deliverFlits_frame t s.fab.onMesh [] s
  have h : deliverMesh t s = _ := h
  rw [h]

theorem deliverMesh_of_empty (t : Option Nat) (s : State) (h : s.fab.onMesh = []) : deliverMesh t s = s := by
  unfold deliverMesh
  rw [h]
  rfl

/-! ## Leg completion (R30, R97) -/

theorem running_iff (s : State) : s.running = true ↔ s.seq.state = .running ∧ s.clk.hold = none := by
  simp [State.running]

theorem coresIdle_iff (s : State) : s.coresIdle = true ↔ ∀ c, coreIdle s.seq.cycle (s.core c) = true := by
  unfold State.coresIdle
  rw [List.all_eq_true]
  exact ⟨fun h c => h c (List.mem_ofFn.mpr ⟨c, rfl⟩), fun h c _ => h c⟩

/-- The module at the end of its leg, the words on the mesh still to be delivered. -/
def State.legOver (s : State) : State :=
  { s with
    cores := s.cores.map unarmStreams
    seq := { s.seq with state := if s.seq.next.ended then .done else .gated, lastCycle := BitVec.ofNat 32 s.seq.cycle } }

theorem execLegComplete_eq (s : State) (run : s.running = true) (idle : s.coresIdle = true) :
    execLegComplete s = .next
      (if s.seq.next.ended = true then deliverMesh none s.legOver
      else if s.seq.suspendReq = some (s.seq.legMark + 1) then deliverMesh none s.legOver
      else if 3 ≤ s.pwr.tier.val then park (deliverMesh none s.legOver)
      else if s.seq.legMark.toNat < s.seq.mark.toNat then startLeg true (deliverMesh none s.legOver)
      else deliverMesh none s.legOver) := by
  have seq : (deliverMesh none s.legOver).seq = s.legOver.seq := by rw [deliverMesh_frame]
  have pwr : (deliverMesh none s.legOver).pwr = s.pwr := by rw [deliverMesh_frame]; rfl
  unfold execLegComplete
  rw [if_pos ⟨run, idle⟩]
  change Host.Outcome.next
    (if (deliverMesh none s.legOver).seq.next.ended = true then _
     else if (deliverMesh none s.legOver).seq.suspendReq = some ((deliverMesh none s.legOver).seq.legMark + 1) then _
     else if 3 ≤ (deliverMesh none s.legOver).pwr.tier.val then _
     else if (deliverMesh none s.legOver).seq.legMark.toNat < (deliverMesh none s.legOver).seq.mark.toNat then _ else _) = _
  rw [seq, pwr]
  rfl

theorem legComplete_of_not (s : State) (h : ¬ (s.running = true ∧ s.coresIdle = true)) : exec .legComplete s = .next s := by
  change execLegComplete s = _
  unfold execLegComplete
  rw [if_neg h]

/-- A completed leg after which none starts: at END, under a suspension, or before the next mark (R30). -/
theorem legComplete_waits (s : State) (run : s.running = true) (idle : s.coresIdle = true)
    (waits : s.seq.next.ended = true ∨ s.seq.suspendReq = some (s.seq.legMark + 1) ∨
      s.pwr.tier.val < 3 ∧ s.seq.mark.toNat ≤ s.seq.legMark.toNat) :
    exec .legComplete s = .next (deliverMesh none s.legOver) := by
  refine (execLegComplete_eq s run idle).trans ?_
  by_cases ended : s.seq.next.ended = true
  · rw [if_pos ended]
  by_cases withheld : s.seq.suspendReq = some (s.seq.legMark + 1)
  · rw [if_neg ended, if_pos withheld]
  obtain ⟨tier, mark⟩ := (waits.resolve_left ended).resolve_left withheld
  rw [if_neg ended, if_neg withheld, if_neg (by omega), if_neg (by omega)]

/-- Settles O17: no leg starts after the completed one (`legComplete_waits`), and delivery moves words to their queues alone. -/
theorem legCompleteGatesTheDie : Obligations.LegCompleteGatesTheDie := by
  intro s
  refine ⟨fun run free idle waits => ?_, fun run held => ?_, fun c busy => ?_⟩
  · have ends := legComplete_waits s ((running_iff s).2 ⟨run, free⟩) ((coresIdle_iff s).2 idle) waits
    refine ⟨_, ends, deliverMesh_frame none s.legOver, fun empty => ?_⟩
    rw [deliverMesh_of_empty none s.legOver empty]
    rfl
  · exact legComplete_of_not s fun q => held ((running_iff s).1 q.1).2
  · refine legComplete_of_not s fun q => ?_
    rw [(coresIdle_iff s).1 q.2 c] at busy
    exact Bool.noConfusion busy

end Sys2Proof.Machine

namespace Sys2Proof.Machine

/-! ## The causes of a hold (R58, R60) -/

/-- `t` differs from `s` at most in how many holds core `c`'s stream engines count, in the hold in force and in HOLD_COUNT. -/
def HoldsOnly (c : Fin 32) (s t : State) : Prop :=
  ∃ g, t = { s with
      cores := s.cores.set c { s.core c with engines := g }
      clk := { s.clk with hold := t.clk.hold, holdCount := t.clk.holdCount } } ∧
    ∀ i : Fin 4, g.get i = { (s.core c).eng i with holds := (g.get i).holds }

theorem holdsOnly_clk (c : Fin 32) (s : State) (h : Option Hold) (n : U32) :
    HoldsOnly c s { s with clk := { s.clk with hold := h, holdCount := n } } :=
  ⟨(s.core c).engines, by rw [show ({ s.core c with engines := (s.core c).engines } : Core) = s.core c from rfl, cores_set_core],
    fun _ => rfl⟩

theorem holdsOnly_refl (c : Fin 32) (s : State) : HoldsOnly c s s := holdsOnly_clk c s s.clk.hold s.clk.holdCount

theorem holdsOnly_trans {c : Fin 32} {s t u : State} (a : HoldsOnly c s t) (b : HoldsOnly c t u) : HoldsOnly c s u := by
  obtain ⟨g, ht, hg⟩ := a
  obtain ⟨g', hu, hg'⟩ := b
  have core : t.core c = { s.core c with engines := g } := by rw [ht]; simp [State.core]
  refine ⟨g', ?_, fun i => ?_⟩
  · rw [hu, core, ht]
    simp
  · have kept : (t.core c).eng i = g.get i := by rw [core]; rfl
    rw [hg' i, kept, hg i]

/-- Stream engine `e` of a core counts one more hold. -/
def Core.engHeld (k : Core) (e : Fin 4) : Core := k.updEng e fun x => { x with holds := satInc x.holds }

theorem engHeld_eng (k : Core) (e i : Fin 4) : (k.engHeld e).eng i = { k.eng i with holds := ((k.engHeld e).eng i).holds } := by
  unfold Core.engHeld
  rw [updEng_eng]
  by_cases h : i = e
  · rw [if_pos h, h]
  · rw [if_neg h]

theorem countEngHold_cases (c : Fin 32) (w : WaitFor) (s : State) :
    countEngHold c w s = s ∨ ∃ e, countEngHold c w s = s.updCore c fun k => k.engHeld e := by
  unfold countEngHold
  split
  · rename_i e _
    dsimp only
    split_ifs
    · exact .inl rfl
    · exact .inr ⟨e, rfl⟩
  · exact .inl rfl

theorem countEngHold_only (c : Fin 32) (w : WaitFor) (s : State) : HoldsOnly c s (countEngHold c w s) := by
  obtain h | ⟨e, h⟩ := countEngHold_cases c w s
  · rw [h]; exact holdsOnly_refl c s
  · rw [h]; exact ⟨((s.core c).engHeld e).engines, rfl, engHeld_eng (s.core c) e⟩

/-- A stream engine's count of holds leaves the clock as it is. -/
theorem countEngHold_clk (c : Fin 32) (w : WaitFor) (s : State) : (countEngHold c w s).clk = s.clk := by
  obtain h | ⟨e, h⟩ := countEngHold_cases c w s
  · rw [h]
  · rw [h]; rfl

theorem holdCause_joins (c : Fin 32) (w : WaitFor) (s : State) (h : Hold) (on : s.clk.hold = some h) :
    holdCause c w s = { countEngHold c w s with
      clk := { s.clk with hold := some { h with causes := h.causes ++ [{ core := c, what := w }] } } } := by
  have on' : (countEngHold c w s).clk.hold = some h := by rw [countEngHold_clk, on]
  unfold holdCause
  dsimp only
  rw [on', countEngHold_clk]

theorem holdCause_starts (c : Fin 32) (w : WaitFor) (s : State) (off : s.clk.hold = none) :
    holdCause c w s = { countEngHold c w s with
      clk := { s.clk with
        hold := some { cycle := s.seq.cycle, since := s.time.hallTime, acc := s.clk.acc, causes := [{ core := c, what := w }] }
        holdCount := s.clk.holdCount + 1 } } := by
  have off' : (countEngHold c w s).clk.hold = none := by rw [countEngHold_clk, off]
  obtain ⟨g, frame, -⟩ := countEngHold_only c w s
  unfold holdCause
  dsimp only
  rw [off', countEngHold_clk]
  dsimp only
  rw [frame]

theorem holdCause_only (c : Fin 32) (w : WaitFor) (s : State) : HoldsOnly c s (holdCause c w s) := by
  refine holdsOnly_trans (countEngHold_only c w s) ?_
  unfold holdCause
  dsimp only
  split <;> exact holdsOnly_clk c _ _ _

theorem holdCauses_only (c : Fin 32) (l : List WaitFor) (s : State) : HoldsOnly c s (foldS (holdCause c) l s) := by
  induction l generalizing s with
  | nil => exact holdsOnly_refl c s
  | cons w l ih => exact holdsOnly_trans (holdCause_only c w s) (ih _)

/-- Causes that join a hold in force. -/
theorem holdCauses_join (c : Fin 32) (l : List WaitFor) (s : State) (h : Hold) (on : s.clk.hold = some h) :
    (foldS (holdCause c) l s).clk.holdCount = s.clk.holdCount ∧
    (foldS (holdCause c) l s).clk.hold = some { h with causes := h.causes ++ l.map fun x => { core := c, what := x } } := by
  induction l generalizing s h with
  | nil => exact ⟨rfl, by simpa [foldS] using on⟩
  | cons w l ih =>
    have one := holdCause_joins c w s h on
    obtain ⟨count, hold⟩ := ih (holdCause c w s) { h with causes := h.causes ++ [{ core := c, what := w }] } (by rw [one])
    refine ⟨count.trans (by rw [one]), hold.trans ?_⟩
    simp

/-- Causes that start a hold, which is counted once. -/
theorem holdCauses_start (c : Fin 32) (l : List WaitFor) (s : State) (unmet : l ≠ []) (off : s.clk.hold = none) :
    (foldS (holdCause c) l s).clk.holdCount = s.clk.holdCount + 1 ∧
    (foldS (holdCause c) l s).clk.hold = some { cycle := s.seq.cycle, since := s.time.hallTime, acc := s.clk.acc
                                                causes := l.map fun x => { core := c, what := x } } := by
  cases l with
  | nil => exact absurd rfl unmet
  | cons w l =>
    have one := holdCause_starts c w s off
    obtain ⟨count, hold⟩ := holdCauses_join c l (holdCause c w s) _ (by rw [one])
    exact ⟨count.trans (by rw [one]), hold⟩

/-! ## The lookout (R35, R57, R74, R80, R83) -/

theorem nwordsOf_normWords (w : CmdWords) : nwordsOf (normWords w) = nwordsOf w := rfl

theorem lookDue_iff (s : State) (c : Fin 32) (w : CmdWords) (issue : Nat) : lookDue s c w issue = true ↔
    s.seq.state = .running ∧ nextLook s c = some (normWords w, issue) ∧ issue - 8 = s.seq.cycle := by
  simp [lookDue, lookCycle, and_assoc]

/-- Core `c` once command `w` is looked out: its decision stands in the list of commands ahead. -/
def State.lookedOut (s : State) (c : Fin 32) (w : CmdWords) (issue : Nat) : State :=
  s.updCore c fun k => { k with
    ahead := k.ahead ++ [lookEntry k w issue], lookIdx := k.lookIdx + nwordsOf w, lookPrev := issue }

/-- What the lookout samples and finds not met. -/
def lookFails (s : State) (c : Fin 32) (w : CmdWords) : List WaitFor := (looksAt (s.core c) w).filter fun x => !waitMet s c x

/-- The state in which a lookout's samples are judged: its decision made, and its progress check with PROG = 1. -/
def State.checkedOut (s : State) (c : Fin 32) (w : CmdWords) (issue : Nat) : State :=
  if progOf w then checkProgress issue (some c) slipProgress (s.lookedOut c w issue) else s.lookedOut c w issue

theorem lookout_due (s : State) (c : Fin 32) (w : CmdWords) (issue : U32) (due : lookDue s c w issue.toNat = true) :
    exec (.lookout c w issue) s = .next (foldS (holdCause c) (lookFails s c (normWords w)) (s.checkedOut c (normWords w) issue.toNat)) := by
  change execLookout c w issue s = _
  unfold execLookout
  rw [if_pos due]
  rfl

theorem lookout_not_due (s : State) (c : Fin 32) (w : CmdWords) (issue : U32) (h : ¬ lookDue s c w issue.toNat = true) :
    exec (.lookout c w issue) s = .next s := by
  change execLookout c w issue s = _
  unfold execLookout
  rw [if_neg h]

/-- What a hold is told of this moment is as it was before a slip. -/
theorem raiseSlip_moment (m k : Nat) (core : Option (Fin 32)) (reason : Byte) (s : State)
    (legs : s.seq.state = .running ∨ s.seq.state = .gated) (goes : s.seq.suspended = false) :
    (raiseSlip m k core reason s).clk = s.clk ∧ (raiseSlip m k core reason s).seq.cycle = s.seq.cycle ∧
      (raiseSlip m k core reason s).time.hallTime = s.time.hallTime := by
  rw [raiseSlip_eq m k core reason s legs goes, c0flood_frame, applySlip_eq]
  exact ⟨rfl, rfl, rfl⟩

/-- What a lookout's progress check leaves of this moment, slip or not. -/
theorem checkProgress_moment (n : Nat) (core : Option (Fin 32)) (reason : Byte) (s : State) (legs : s.seq.state = .running) :
    (checkProgress n core reason s).clk = s.clk ∧ (checkProgress n core reason s).seq.cycle = s.seq.cycle ∧
      (checkProgress n core reason s).time.hallTime = s.time.hallTime := by
  by_cases late : s.seq.timed = true ∧ s.seq.nextAt.toNat < s.predict n
  · rw [checkProgress_late n core reason s late.1 late.2]
    exact raiseSlip_moment _ _ core reason s (.inl legs) ((timed_iff _).1 late.1).2.2
  · rw [checkProgress_inTime n core reason s late]
    exact ⟨rfl, rfl, rfl⟩

theorem checkedOut_moment (s : State) (c : Fin 32) (w : CmdWords) (issue : Nat) (legs : s.seq.state = .running) :
    (s.checkedOut c w issue).clk = s.clk ∧ (s.checkedOut c w issue).seq.cycle = s.seq.cycle ∧
      (s.checkedOut c w issue).time.hallTime = s.time.hallTime := by
  unfold State.checkedOut
  split
  · exact checkProgress_moment issue (some c) slipProgress (s.lookedOut c w issue) legs
  · exact ⟨rfl, rfl, rfl⟩

/-- With PROG = 1 in a leg predicted to overrun its mark, the lookout raises a slip (R35, R83). -/
theorem checkedOut_late (s : State) (c : Fin 32) (w : CmdWords) (issue : Nat) (legs : s.seq.state = .running)
    (prog : progOf w = true) (timed : s.seq.timed = true) (late : s.seq.nextAt.toNat < s.predict issue) :
    s.checkedOut c w issue = c0flood none
      (slipMsgOf s s.slipTarget (slipQuanta s.time.quantum (s.predict issue - s.seq.nextAt.toNat)) (BitVec.ofNat 5 c.val) false slipProgress)
      (applySlip s.slipTarget (slipQuanta s.time.quantum (s.predict issue - s.seq.nextAt.toNat)) s.module (BitVec.ofNat 5 c.val) false
        slipProgress (s.lookedOut c w issue)) := by
  unfold State.checkedOut
  rw [if_pos prog, checkProgress_late issue (some c) slipProgress (s.lookedOut c w issue) timed late,
    raiseSlip_eq _ _ _ _ (s.lookedOut c w issue) (.inl legs) ((timed_iff _).1 timed).2.2]
  rfl

theorem checkedOut_inTime (s : State) (c : Fin 32) (w : CmdWords) (issue : Nat)
    (h : ¬ (progOf w = true ∧ s.seq.timed = true ∧ s.seq.nextAt.toNat < s.predict issue)) :
    s.checkedOut c w issue = s.lookedOut c w issue := by
  unfold State.checkedOut
  split
  · rename_i prog
    exact checkProgress_inTime issue (some c) slipProgress (s.lookedOut c w issue) fun q => h ⟨prog, q⟩
  · rfl

/-- Settles O35: the progress check (`checkedOut_late`) leaves the moment as it was, so the causes that follow join or start the hold of
this cycle. -/
theorem lookoutsSampleTheNextCommand : Obligations.LookoutsSampleTheNextCommand := by
  intro s c w issue
  refine ⟨fun other => lookout_not_due s c w issue fun due => other ((lookDue_iff ..).1 due), ?_⟩
  rintro run next cycle late _ _ hLate rfl rfl
  have due := lookout_due s c w issue ((lookDue_iff ..).2 ⟨run, next, cycle⟩)
  obtain ⟨clk, cyc, now⟩ := checkedOut_moment s c (normWords w) issue.toNat run
  have late_iff : late ↔ progOf (normWords w) = true ∧ s.seq.timed = true ∧ s.seq.nextAt.toNat < s.predict issue.toNat := by
    rw [hLate]
    exact ⟨fun ⟨prog, timed, _, q⟩ => ⟨prog, timed, q⟩, fun ⟨prog, timed, q⟩ => ⟨prog, timed, ((timed_iff _).1 timed).2.2, q⟩⟩
  refine ⟨s.checkedOut c (normWords w) issue.toNat, _, due, ?inTime, ?slips, ?met, ?held⟩
  case inTime =>
    intro inTime
    exact checkedOut_inTime s c (normWords w) issue.toNat fun q => inTime (late_iff.2 q)
  case slips =>
    intro slips
    obtain ⟨prog, timed, past⟩ := late_iff.1 slips
    refine ⟨_, _, rfl, applySlip_applied _ _ _ _ _ _ _ (Nat.one_le_iff_ne_zero.1 (slipQuanta_pos ..)), ?_⟩
    rw [checkedOut_late s c (normWords w) issue.toNat run prog timed past]
    have core : (BitVec.ofNat 5 c.val).toNat + 32 * b2n false = c.val := by
      rw [BitVec.toNat_ofNat, Nat.mod_eq_of_lt (by omega)]; rfl
    rw [slipMsgOf, core]
    exact c0flood_flooded ..
  case met =>
    intro met
    rw [show lookFails s c (normWords w) = [] from met]
    rfl
  case held =>
    intro unmet
    refine ⟨holdCauses_only c _ _, fun h on => ?_, fun off => ?_⟩
    · obtain ⟨count, hold⟩ := holdCauses_join c (lookFails s c (normWords w)) _ h (clk.symm ▸ on)
      exact ⟨count.trans (by rw [clk]), hold⟩
    · obtain ⟨count, hold⟩ := holdCauses_start c (lookFails s c (normWords w)) _ unmet (clk.symm ▸ off)
      rw [clk, cyc, now] at hold
      exact ⟨count.trans (by rw [clk]), hold⟩

end Sys2Proof.Machine

namespace Sys2Proof.Machine

/-! ## The muster latch of a mark (R330) -/

/-- A latch writes the host's musters, and leaves the unit's work and its reads as they are. -/
theorem latchNow_frame (m a : U64) (s : State) : ∃ h : HostDom,
    latchNow m a s = { s with host := h } ∧ h.tasks = s.host.tasks ∧ h.buf = s.host.buf := by
  unfold latchNow
  split
  · exact ⟨_, rfl, rfl, rfl⟩
  · exact ⟨_, rfl, rfl, rfl⟩

/-- A latch wants no block, so it is done at once. -/
theorem runTask_latch (i : Nat) (m a : U64) (s : State) : ∃ h : HostDom,
    runTask ⟨i, .latch m a, {}⟩ s = { s with host := h } ∧ h.tasks = s.host.tasks.filter fun x => x.id != i := by
  obtain ⟨h, step, tasks, buf⟩ := latchNow_frame m a { s with host := { s.host with
    tasks := s.host.tasks.filter fun x => x.id != i, buf := {} } }
  have step : ingStep (.latch m a) { s with host := { s.host with
    tasks := s.host.tasks.filter fun x => x.id != i, buf := {} } } = _ := step
  refine ⟨{ h with buf := {} }, ?_, tasks⟩
  unfold runTask
  dsimp only
  rw [step]
  dsimp only
  rw [buf, if_pos rfl]

theorem taskReady_latch (i : Nat) (m a : U64) (s : State) (h : s.host.tasks = [⟨i, .latch m a, {}⟩]) :
    taskReady s ⟨i, .latch m a, {}⟩ = true := by
  simp [taskReady, h, IngWork.isMoor, IngWork.isMuster]

/-- With no work in the ingress unit, the latch of a mark reaches the host's part of the state alone. -/
theorem latchMuster_idle (s : State) (idle : s.host.tasks = []) :
    ∃ h : HostDom, latchMuster s = { s with jobNo := s.jobNo + 1, host := h } := by
  have one : ∀ u : State, u.host.tasks = [⟨s.jobNo, .latch s.seq.mark s.seq.markAt, {}⟩] →
      ∃ h : HostDom, ingressWork u = { u with host := h } := by
    intro u tasks
    obtain ⟨h, run, left⟩ := runTask_latch s.jobNo s.seq.mark s.seq.markAt u
    have finished : h.tasks = [] := by rw [left, tasks]; simp
    refine ⟨h, ?_⟩
    unfold ingressWork
    rw [tasks]
    simp only [List.length_cons, List.length_nil, ingWork, tasks, List.find?_cons_of_pos (taskReady_latch _ _ _ u tasks), run, finished,
      List.find?_nil]
  obtain ⟨h, work⟩ := one { s with
    jobNo := s.jobNo + 1, host := { s.host with tasks := [⟨s.jobNo, .latch s.seq.mark s.seq.markAt, {}⟩] } } rfl
  refine ⟨h, ?_⟩
  unfold latchMuster
  rw [idle]
  exact work

end Sys2Proof.Machine

namespace Sys2Proof.Machine

/-! ## The table sets at a mark (R295, R296) -/

/-- `g` is fabric `f` with table set `need` active, taken from the shadow where it was not active yet. -/
def TablesSwitched (need : Nat) (f g : Fabric) : Prop :=
  g.tablesLive = true ∧ g.activeSet = need ∧
  (f.tablesLive = true → f.activeSet = need → g.active = f.active) ∧
  (f.tablesLive = false ∨ f.activeSet ≠ need → g.active = f.shadow ∧ g.shadowReady = false)

theorem switchTables_ready (e : Nat) (s : State)
    (ready : s.fab.tablesLive = true ∧ s.fab.activeSet = s.setOfLeg e ∨ s.fab.shadowReady = true ∧ s.fab.shadowSet = s.setOfLeg e) :
    ∃ g, switchTables e s = { s with fab := g } ∧ TablesSwitched (s.setOfLeg e) s.fab g := by
  unfold switchTables
  dsimp only
  by_cases same : s.fab.tablesLive = true ∧ s.fab.activeSet = s.setOfLeg e
  · rw [if_pos same]
    refine ⟨_, rfl, same.1, same.2, fun _ _ => rfl, fun n => absurd same ?_⟩
    rcases n with n | n
    · simp [n]
    · exact fun q => n q.2
  · rw [if_neg same, if_pos (ready.resolve_left same)]
    exact ⟨_, rfl, rfl, rfl, fun a b => absurd ⟨a, b⟩ same, fun _ => ⟨rfl, rfl⟩⟩

/-! ## The start of a leg (R28, R56, R86, R87) -/

theorem applySteps_frame (due : FreqStep → Bool) (s : State) : ∃ k : ClkDom, applySteps due s = { s with clk := k } := by
  have all : ∀ (l : List FreqStep) (u : State), ∃ k : ClkDom, foldS applyStep l u = { u with clk := k } := by
    intro l
    induction l with
    | nil => exact fun u => ⟨u.clk, rfl⟩
    | cons t l ih =>
      intro u
      obtain ⟨k, h⟩ := ih (applyStep t u)
      exact ⟨k, h⟩
  obtain ⟨k, h⟩ := all (s.clk.steps.filter due) { s with clk := { s.clk with steps := s.clk.steps.filter fun x => !due x } }
  exact ⟨k, h⟩

/-- Of the fabric the replace-request reaches the ports and the number of STATUS messages. -/
theorem checkService_fab (s : State) : ∃ (x : Vector FabPort 16) (n : U16),
    (checkService s).fab = { s.fab with ports := x, statusSeq := n } := by
  unfold checkService
  split
  · generalize hu : setEvent evReplace _ = u
    have irq : (setIrq 1 u).fab = s.fab := by rw [setIrq_frame, ← hu]; rfl
    have sent := congrArg State.fab (sendStatus_sent (setIrq 1 u)).1
    exact ⟨(sendStatus (setIrq 1 u)).fab.ports, (setIrq 1 u).fab.statusSeq + 1, sent.trans (by rw [← irq])⟩
  · exact ⟨s.fab.ports, s.fab.statusSeq, rfl⟩

theorem checkService_reach (s : State) : ∃ (p : Power) (h : HostDom) (x : Vector FabPort 16) (n : U16),
    checkService s = { s with pwr := p, host := h, fab := { s.fab with ports := x, statusSeq := n } } := by
  obtain ⟨x, n, fab⟩ := checkService_fab s
  exact ⟨(checkService s).pwr, (checkService s).host, x, n, (checkService_frame s).trans (by rw [fab])⟩

/-- The floor record adds one leg, and may raise the replace-request (R378, R379). -/
theorem noteFloor_frame (s : State) : ∃ (fl : List Bool) (p : Power) (h : HostDom) (x : Vector FabPort 16) (n : U16),
    noteFloor s = { s with
      seq := { s.seq with floorLegs := fl }, pwr := p, host := h, fab := { s.fab with ports := x, statusSeq := n } } := by
  unfold noteFloor
  dsimp only
  generalize ringPush 4096 s.seq.floorLegs _ = fl
  obtain ⟨p, h, x, n, reach⟩ := checkService_reach { s with seq := { s.seq with floorLegs := fl } }
  exact ⟨fl, p, h, x, n, reach⟩

/-- A leg that starts in time: cycle 0 of the leg that is next, every core at the begin of its block. -/
theorem startLeg_inTime (s : State) :
    ∃ (k : ClkDom) (g : Tbl MGroup) (fl : List Bool) (p : Power) (h : HostDom) (x : Vector FabPort 16) (n : U16),
      startLeg false s = { s with
        clk := k, groups := g, pwr := p, host := h, fab := { s.fab with ports := x, statusSeq := n }
        cores := s.cores.map (coreAtLeg s.seq.next.leg.clearSync (walkNext s s.seq.next).ended)
        seq := { s.seq with
          state := .running, cur := s.seq.next, next := walkNext s s.seq.next
          legMark := if s.seq.state == .armed then 0 else s.seq.legMark + 1, cycle := 0, esc := 0, parked := false
          floorLegs := fl } } := by
  unfold startLeg
  dsimp only
  rw [Bool.false_and, if_neg Bool.false_ne_true]
  generalize hu : applySteps _ _ = u
  obtain ⟨k, clk⟩ := applySteps_frame (fun _ => true) { s with
    seq := { s.seq with
      state := .running, cur := s.seq.next, next := walkNext s s.seq.next
      legMark := if s.seq.state == .armed then 0 else s.seq.legMark + 1, cycle := 0, esc := 0, parked := false }
    clk := { s.clk with
      regions := s.clk.regions.map fun r => { r with lastStretch := none }, reqs := [], mesh := [], acc := 0, phase := .sample } }
  have clk : u = _ := hu.symm.trans clk
  generalize hw : ({ groupsAtLeg u with cores := _ } : State) = w
  obtain ⟨fl, p, h, x, n, floor⟩ := noteFloor_frame w
  refine ⟨k, (groupsAtLeg u).groups, fl, p, h, x, n, floor.trans ?_⟩
  rw [← hw, clk]
  rfl

end Sys2Proof.Machine

namespace Sys2Proof.Machine

/-! ## What a mark does (R28, R36, R366) -/

/-- A slip that this module raises changes k_max, the next mark's time, the records of slips, the interrupt and the ports. -/
theorem raiseSlip_frame (m k : Nat) (core : Option (Fin 32)) (reason : Byte) (s : State)
    (legs : s.seq.state = .running ∨ s.seq.state = .gated) (goes : s.seq.suspended = false) (pos : k ≠ 0) :
    ∃ (q : Tbl Nat) (a : U64) (t : TimeDom) (h : HostDom) (x : Vector FabPort 16),
      raiseSlip m k core reason s = { s with
        seq := { s.seq with kMax := q, nextAt := a }, time := t, host := h, fab := { s.fab with ports := x } } ∧
      t.slipCount = s.time.slipCount + 1 ∧ k ≤ tget 0 q m := by
  obtain ⟨x, flood⟩ := c0flood_eq none (slipMsgOf s m k (slipCore core) core.isNone reason)
    (applySlip m k s.module (slipCore core) core.isNone reason s)
  obtain ⟨frame, raised, -⟩ := applySlip_applied m k s.module (slipCore core) core.isNone reason s pos
  rw [raiseSlip_eq m k core reason s legs goes, flood]
  generalize applySlip m k s.module _ core.isNone reason s = u at frame raised
  refine ⟨u.seq.kMax, u.seq.nextAt, u.time, u.host, x, ?_, ?_, raised ▸ le_max_left ..⟩
  · rw [frame]
  · rw [frame]

/-- The module with its next mark reached: its number and time, and the walk of the legs one place on. -/
def State.atMark (s : State) : State :=
  reshift { s with seq := { s.seq with
    mark := BitVec.ofNat 64 s.seq.nextNum, markAt := s.seq.nextAt, markTimes := tset 0 s.seq.markTimes s.seq.nextNum s.seq.nextAt
    nextBase := s.seq.nextAt + BitVec.ofNat 64 (16 * s.seq.due.leg.w16.toNat), due := walkNext s s.seq.due, begun := true
    horizonDone := false } }

theorem mark_due (s : State) (timed : s.seq.timed = true) (due : s.seq.nextAt.toNat ≤ s.now) (free : s.seq.suspendReq = none) :
    exec .mark s = .next (markLeg (latchMuster (switchTables s.seq.due.entry s.atMark))) := by
  have goes : ¬ s.withheld = true := by simp [State.withheld, free]
  change execMark s = _
  unfold execMark
  rw [if_pos ⟨timed, due, goes⟩]
  rfl

/-- The state in which a mark judges the legs: the mark reached, its table set active, its muster latched. -/
def MarkReached (s t : State) : Prop :=
  ∃ (f : Fabric) (h : HostDom), t = { s.atMark with fab := f, jobNo := s.jobNo + 1, host := h } ∧
    TablesSwitched (tget 0 s.fab.legSet s.seq.due.entry) s.fab f

theorem markReached (s : State) (idle : s.host.tasks = [])
    (ready : s.fab.tablesLive = true ∧ s.fab.activeSet = tget 0 s.fab.legSet s.seq.due.entry ∨
      s.fab.shadowReady = true ∧ s.fab.shadowSet = tget 0 s.fab.legSet s.seq.due.entry) :
    MarkReached s (latchMuster (switchTables s.seq.due.entry s.atMark)) := by
  obtain ⟨f, tables, switched⟩ := switchTables_ready s.seq.due.entry s.atMark ready
  obtain ⟨h, latch⟩ := latchMuster_idle { s.atMark with fab := f } idle
  exact ⟨f, h, by rw [tables, latch]; rfl, switched⟩

theorem markLeg_starts (s : State) (h : s.seq.state = .armed ∨ s.seq.state = .gated ∧ s.seq.parked = false) :
    markLeg s = startLeg false s := by
  unfold markLeg
  rcases h with h | ⟨h, free⟩
  · rw [h]
  · rw [h]
    dsimp only
    rw [if_neg (by simp [free])]

/-- A leg that runs, or a die that is parked, is left as it is at the cost of a slip. -/
theorem markLeg_slips (s : State) (h : s.seq.state = .running ∨ s.seq.state = .gated ∧ s.seq.parked = true) :
    ∃ (m k : Nat) (reason : Byte), markLeg s = raiseSlip m k none reason s ∧ 1 ≤ k ∧
      (s.seq.state = .running → m = s.seq.mark.toNat + 1) := by
  unfold markLeg
  rcases h with h | ⟨h, parked⟩
  · rw [h]
    exact ⟨_, _, _, rfl, slipQuanta_pos .., fun _ => rfl⟩
  · rw [h]
    dsimp only
    rw [if_pos parked]
    exact ⟨_, _, _, rfl, le_rfl, nofun⟩

/-- What every mark leaves: its number, its table set active, and stack memory as it was. -/
def MarkTaken (s t : State) : Prop :=
  t.seq.mark = BitVec.ofNat 64 s.seq.nextNum ∧ TablesSwitched (tget 0 s.fab.legSet s.seq.due.entry) s.fab t.fab ∧ t.dram = s.dram

theorem startLeg_atMark (s u : State) (reached : MarkReached s u) :
    MarkTaken s (startLeg false u) ∧
      (startLeg false u).seq.state = .running ∧ (startLeg false u).seq.cycle = 0 ∧ (startLeg false u).seq.cur = s.seq.next ∧
      (startLeg false u).seq.legMark = (if s.seq.state = .armed then 0 else s.seq.legMark + 1) ∧
      ∃ noHelm, ∀ c, (startLeg false u).core c = coreAtLeg s.seq.next.leg.clearSync noHelm (s.core c) := by
  obtain ⟨f, h, rfl, switched⟩ := reached
  obtain ⟨k, g, fl, p, h', x, n, start⟩ := startLeg_inTime { s.atMark with fab := f, jobNo := s.jobNo + 1, host := h }
  rw [start]
  refine ⟨⟨rfl, switched, rfl⟩, rfl, rfl, rfl, ?_, _, fun c => vector_get_map ..⟩
  show (if s.seq.state == .armed then (0 : U64) else s.seq.legMark + 1) = _
  simp only [beq_iff_eq]

theorem slip_atMark (s u : State) (reached : MarkReached s u) (goes : s.seq.suspended = false)
    (h : s.seq.state = .running ∨ s.seq.state = .gated ∧ s.seq.parked = true) :
    MarkTaken s (markLeg u) ∧
      (markLeg u).seq.state = s.seq.state ∧ (markLeg u).seq.cycle = s.seq.cycle ∧ (markLeg u).seq.cur = s.seq.cur ∧
      (markLeg u).seq.next = s.seq.next ∧ (markLeg u).seq.legMark = s.seq.legMark ∧ (markLeg u).seq.parked = s.seq.parked ∧
      (markLeg u).cores = s.cores ∧ (markLeg u).clk = s.clk ∧ (markLeg u).time.slipCount = s.time.slipCount + 1 ∧
      (s.seq.state = .running → 1 ≤ tget 0 (markLeg u).seq.kMax ((BitVec.ofNat 64 s.seq.nextNum).toNat + 1)) := by
  obtain ⟨f, host, rfl, switched⟩ := reached
  obtain ⟨m, k, reason, leg, pos, target⟩ := markLeg_slips { s.atMark with fab := f, jobNo := s.jobNo + 1, host := host } h
  obtain ⟨q, a, t, h', x, slip, count, raised⟩ := raiseSlip_frame m k none reason
    { s.atMark with fab := f, jobNo := s.jobNo + 1, host := host } (h.imp_right And.left) goes (Nat.one_le_iff_ne_zero.1 pos)
  rw [leg, slip]
  refine ⟨⟨rfl, switched, rfl⟩, rfl, rfl, rfl, rfl, rfl, rfl, rfl, rfl, count, fun run => ?_⟩
  exact (pos.trans raised).trans_eq (congrArg _ (target run))

/-- Settles O21: every mark reaches one state (`markReached`), in which a leg starts (`startLeg_atMark`) or a slip is raised
(`slip_atMark`). -/
theorem theFirstMarkStartsTheFirstLeg : Obligations.TheFirstMarkStartsTheFirstLeg := by
  intro s more goes free due idle ready
  have reached := markReached s idle ready
  have marks : s.seq.state = .armed ∨ s.seq.state = .running ∨ s.seq.state = .gated →
      exec .mark s = .next (markLeg (latchMuster (switchTables s.seq.due.entry s.atMark))) :=
    fun legs => mark_due s ((timed_iff _).2 ⟨legs, more, goes⟩) due free
  generalize latchMuster (switchTables s.seq.due.entry s.atMark) = u at reached marks
  have seq : u.seq.state = s.seq.state ∧ u.seq.parked = s.seq.parked := by
    obtain ⟨f, h, rfl, -⟩ := reached
    exact ⟨rfl, rfl⟩
  have starts : s.seq.state = .armed ∨ s.seq.state = .gated ∧ s.seq.parked = false → markLeg u = startLeg false u := by
    rw [← seq.1, ← seq.2]
    exact markLeg_starts u
  refine ⟨fun legs => ?every, fun h => ?starts, fun h => ?slips⟩
  case every =>
    have taken : MarkTaken s (markLeg u) := by
      by_cases h : s.seq.state = .armed ∨ s.seq.state = .gated ∧ s.seq.parked = false
      · rw [starts h]
        exact (startLeg_atMark s u reached).1
      · refine (slip_atMark s u reached goes ?_).1
        rcases legs with l | l | l
        · exact absurd (.inl l) h
        · exact .inl l
        · exact .inr ⟨l, by simpa [l] using h⟩
    obtain ⟨mark, ⟨live, active, same, shadow⟩, dram⟩ := taken
    exact ⟨_, marks legs, mark, live, active, dram, same, shadow⟩
  case starts =>
    obtain ⟨-, state, cycle, cur, legMark, noHelm, cores⟩ := startLeg_atMark s u reached
    refine ⟨_, (marks (h.imp_right fun q => .inr q.1)).trans (by rw [starts h]), state, cycle, cur, legMark, fun c => ?_⟩
    rw [cores c]
    exact ⟨rfl, rfl, rfl, rfl, rfl, rfl, rfl, rfl⟩
  case slips =>
    exact ⟨_, marks (.inr (h.imp_right And.left)), (slip_atMark s u reached goes h).2⟩

end Sys2Proof.Machine

/-!
PROOFS. The die clock (02_die_regions_clock.md): stretches, steps of the frequency, the end of a hold, and temperatures with the
thermal trip. Each part gives the rows' outcomes as lemmas, and settles its statement from them.
-/
namespace Sys2Proof.Machine

/-! ## Folds over the parts of the module -/

theorem foldS_cons {α : Type} (f : α → State → State) (a : α) (l : List α) (s : State) : foldS f (a :: l) s = foldS f l (f a s) := rfl

theorem foldS_one {α : Type} (f : α → State → State) (a : α) (s : State) : foldS f [a] s = f a s := rfl

/-- Steps that each change the part they are for, by what that part and no other part holds, change every part once, in any order. -/
theorem foldS_each {ι α : Type} [DecidableEq ι] (f : ι → State → State) (part new : State → ι → α)
    (one : ∀ s i k, part (f i s) k = if k = i then new s i else part s k) (apart : ∀ s i k, k ≠ i → new (f i s) k = new s k)
    (l : List ι) (s : State) (once : l.Nodup) (k : ι) : part (foldS f l s) k = if k ∈ l then new s k else part s k := by
  induction l generalizing s with
  | nil => exact (if_neg List.not_mem_nil).symm
  | cons i l ih =>
    obtain ⟨fresh, once⟩ := List.nodup_cons.mp once
    rw [foldS_cons, ih (f i s) once]
    by_cases eq : k = i
    · subst eq
      simp [fresh, one]
    · simp [eq, one, apart]

theorem mem_ofFn_id {n : Nat} (i : Fin n) : i ∈ List.ofFn (id : Fin n → Fin n) := List.mem_ofFn.mpr ⟨i, rfl⟩

theorem nodup_ofFn_id (n : Nat) : (List.ofFn (id : Fin n → Fin n)).Nodup := List.nodup_ofFn.mpr Function.injective_id

theorem exists_get_of_mem {α : Type} {n : Nat} (v : Vector α n) (x : α) (h : x ∈ v.toList) : ∃ i : Fin n, v.get i = x := by
  obtain ⟨i, lt, eq⟩ := List.mem_iff_getElem.mp h
  exact ⟨⟨i, by simpa using lt⟩, by rw [← eq]; rfl⟩

/-! ## Stretches (R51, R52) -/

theorem locked_of_stretch (x : Region) (d l : Nat) (h : x.lastStretch = some l) : x.locked d = decide (d ≤ l + 3) := by
  simp only [Region.locked, h]

theorem locked_of_none (x : Region) (d : Nat) (h : x.lastStretch = none) : x.locked d = false := by
  simp only [Region.locked, h]

theorem follows_of_noRequest (k : ClkDom) (r : Fin 8) (d : Nat) (h : ∀ q ∈ k.reqs, q.2 + 2 ≠ d) : k.follows r d = false := by
  simp only [ClkDom.follows, List.any_eq_false, Bool.and_eq_true, beq_iff_eq]
  exact fun q mem e => h q mem e.2

/-- A region in a cycle `d` in which it stretches. -/
def Region.stretched (x : Region) (d : Nat) : Region := { x with lastStretch := some d, stretches := x.stretches + 1 }

/-- Of the clock a stretch changes its region, and the timeline where that is region 0's. -/
theorem stretchRegion_eq (r : Fin 8) (s : State) : ∃ a : Int,
    stretchRegion r s = { s with clk := { s.clk with
      regions := s.clk.regions.set r.val ((s.region r).stretched s.seq.cycle) r.isLt, acc := a } } := by
  unfold stretchRegion
  dsimp only
  split
  · exact ⟨_, rfl⟩
  · exact ⟨s.clk.acc, rfl⟩

theorem stretchRegion_region (r q : Fin 8) (s : State) :
    (stretchRegion r s).region q = if q = r then (s.region r).stretched s.seq.cycle else s.region q := by
  obtain ⟨a, stretch⟩ := stretchRegion_eq r s
  rw [stretch]
  exact vector_get_set ..

/-- A decision for a step down reaches the pending steps and their count alone. -/
theorem stepDown_frame (c : FreqChange) (limit : BitVec 4) (s : State) : ∃ (l : List FreqStep) (n : U16),
    stepDown c limit s = { s with clk := { s.clk with steps := l, stepsDown := n } } := by
  unfold stepDown
  dsimp only
  split
  · exact ⟨_, _, rfl⟩
  · exact ⟨_, s.clk.stepsDown, rfl⟩

theorem droopTrigger_frame (r : Fin 8) (s : State) : ∃ (l : List FreqStep) (n : U16) (t : U64) (d : Option U64),
    droopTrigger r s = { s with clk := { s.clk with steps := l, stepsDown := n, lastTrigger := t, lastDroop := d } } := by
  unfold droopTrigger noteTrigger
  dsimp only
  split_ifs
  · obtain ⟨l, n, h⟩ := stepDown_frame .down 1 { s with clk := { s.clk with
      lastTrigger := s.time.hallTime, lastDroop := some s.time.hallTime } }
    exact ⟨l, n, s.time.hallTime, some s.time.hallTime, h⟩
  · exact ⟨s.clk.steps, s.clk.stepsDown, s.time.hallTime, s.clk.lastDroop, rfl⟩
  · exact ⟨s.clk.steps, s.clk.stepsDown, s.clk.lastTrigger, s.clk.lastDroop, rfl⟩

/-- A request is counted for its region and the die and goes on the stretch net; of the rest of the clock it reaches at most the
decision for a step down. -/
theorem raiseRequest_eq (r : Fin 8) (s : State) : ∃ (k : ClkDom) (old : List (Nat × Nat)) (times : List U64),
    raiseRequest r s = { s with clk := k } ∧ k.reqs = old ++ [(r.val, s.seq.cycle)] ∧ k.freq = s.clk.freq ∧
      k.stretchCount = satInc s.clk.stretchCount ∧
      k.regions = s.clk.regions.set r.val
        { s.region r with requests := satInc (s.region r).requests, reqTimes := times } r.isLt := by
  unfold raiseRequest
  dsimp only
  generalize hu : ({ s.updRegion r _ with clk := _ } : State) = u
  obtain ⟨l, n, t, d, h⟩ := droopTrigger_frame r u
  rw [h, ← hu]
  exact ⟨_, _, _, rfl, rfl, rfl, rfl, rfl⟩

/-! ## Droop trips (R51) -/

theorem droopTrip_first (s : State) (r : Fin 8) (run : s.running = true) (free : (s.region r).lastStretch = none)
    (alone : ∀ q ∈ s.clk.reqs, q.2 + 2 ≠ s.seq.cycle) :
    exec (.droopTrip r) s = .next (raiseRequest r (stretchRegion r s)) := by
  change execDroopTrip r s = _
  unfold execDroopTrip
  dsimp only
  rw [if_neg (not_not.mpr run), if_neg (by simp [free]), if_neg (by simp [locked_of_none _ _ free]),
    if_neg (by simp [follows_of_noRequest _ _ _ alone])]

theorem droopTrip_locked (s : State) (r : Fin 8) (l : Nat) (run : s.running = true) (h : (s.region r).lastStretch = some l)
    (other : l ≠ s.seq.cycle) (near : s.seq.cycle ≤ l + 3) :
    exec (.droopTrip r) s = .next (s.updRegion r fun x => { x with absorbed := satInc x.absorbed }) := by
  change execDroopTrip r s = _
  unfold execDroopTrip
  dsimp only
  rw [if_neg (not_not.mpr run), if_neg (by simp [h, other]), if_pos (by simp [locked_of_stretch _ _ _ h, near])]

theorem droopTrip_stretching (s : State) (r : Fin 8) (h : (s.region r).lastStretch = some s.seq.cycle) :
    exec (.droopTrip r) s = .next s := by
  change execDroopTrip r s = _
  unfold execDroopTrip
  dsimp only
  rw [if_pos h, ite_self]

theorem droopTrip_stopped (s : State) (r : Fin 8) (h : s.running = false) : exec (.droopTrip r) s = .next s := by
  change execDroopTrip r s = _
  unfold execDroopTrip
  rw [if_pos (by simp [h])]

/-! ## Followers (R51) -/

theorem stretchFollow_stopped (s : State) (h : s.running = false) : exec .stretchFollow s = .next s := by
  change execStretchFollow s = _
  unfold execStretchFollow
  rw [if_pos (by simp [h])]

/-- Region `q` after the followers' stretches of the cycle. -/
def State.followed (s : State) (q : Fin 8) : Region :=
  if s.clk.follows q s.seq.cycle && !(s.region q).locked s.seq.cycle then (s.region q).stretched s.seq.cycle else s.region q

/-- A region that follows stretches where it is not locked. -/
def followRegion (r : Fin 8) (s : State) : State :=
  if s.clk.follows r s.seq.cycle ∧ ¬ (s.region r).locked s.seq.cycle then stretchRegion r s else s

theorem followRegion_eq (r : Fin 8) (s : State) : ∃ a : Int,
    followRegion r s = { s with clk := { s.clk with regions := s.clk.regions.set r.val (s.followed r) r.isLt, acc := a } } := by
  unfold followRegion State.followed
  split
  · rename_i h
    rw [if_pos (by simpa using h)]
    exact stretchRegion_eq r s
  · rename_i h
    rw [if_neg (by simpa using h)]
    refine ⟨s.clk.acc, ?_⟩
    rw [State.region, vector_set_get]

/-- The followers' stretches reach the regions and the timeline alone. -/
theorem followRegions_frame (l : List (Fin 8)) (s : State) : ∃ (v : Vector Region 8) (a : Int),
    foldS followRegion l s = { s with clk := { s.clk with regions := v, acc := a } } := by
  induction l generalizing s with
  | nil => exact ⟨s.clk.regions, s.clk.acc, rfl⟩
  | cons r l ih =>
    obtain ⟨a, one⟩ := followRegion_eq r s
    obtain ⟨v, b, rest⟩ := ih (followRegion r s)
    exact ⟨v, b, by rw [foldS_cons, rest, one]⟩

theorem followRegion_region (s : State) (r q : Fin 8) :
    (followRegion r s).region q = if q = r then s.followed r else s.region q := by
  obtain ⟨a, one⟩ := followRegion_eq r s
  rw [one]
  exact vector_get_set ..

/-- A region follows by its own lock and the requests of an earlier cycle, which the stretches of this one leave. -/
theorem followRegion_followed (s : State) (r q : Fin 8) (other : q ≠ r) : (followRegion r s).followed q = s.followed q := by
  obtain ⟨a, one⟩ := followRegion_eq r s
  unfold State.followed
  rw [followRegion_region, if_neg other, one]
  rfl

theorem stretchFollow_eq (s : State) (run : s.running = true) :
    ∃ t : State, exec .stretchFollow s = .next t ∧ t = { s with clk := t.clk } ∧ ∀ q, t.region q = s.followed q := by
  refine ⟨foldS followRegion (List.ofFn id) s, ?_, ?_, fun q => ?_⟩
  · change execStretchFollow s = _
    unfold execStretchFollow
    rw [if_neg (not_not.mpr run)]
    rfl
  · obtain ⟨v, a, all⟩ := followRegions_frame (List.ofFn id) s
    rw [all]
  · rw [foldS_each followRegion State.region State.followed followRegion_region followRegion_followed _ s (nodup_ofFn_id 8),
      if_pos (mem_ofFn_id q)]

/-- Settles O22: a trip by the branches of R51 (`droopTrip_first` to `droopTrip_stopped`), the followers by `stretchFollow_eq`. -/
theorem droopTripsAndFollowers : Obligations.DroopTripsAndFollowers := by
  intro s r
  refine ⟨fun run free alone => ?trip, fun l run h other near => droopTrip_locked s r l run h other near, droopTrip_stretching s r,
    fun h => ⟨droopTrip_stopped s r h, stretchFollow_stopped s h⟩, stretchFollow_eq s⟩
  case trip =>
    obtain ⟨a, stretch⟩ := stretchRegion_eq r s
    obtain ⟨k, old, times, request, reqs, freq, count, regions⟩ := raiseRequest_eq r (stretchRegion r s)
    have region : ∀ q, k.regions.get q = if q = r then
        { (s.region r).stretched s.seq.cycle with requests := satInc (s.region r).requests, reqTimes := times } else s.region q := by
      intro q
      rw [regions, vector_get_set, stretchRegion_region, if_pos rfl]
      split
      · rfl
      · rename_i ne
        exact (stretchRegion_region ..).trans (if_neg ne)
    have here := (region r).trans (if_pos rfl)
    have absorbed := congrArg Region.absorbed here
    rw [stretch] at request reqs freq count
    refine ⟨{ s with clk := k }, (droopTrip_first s r run free alone).trans (by rw [stretch, request]), rfl,
      congrArg Region.lastStretch here, congrArg Region.stretches here, congrArg Region.requests here, absorbed,
      count, freq, ?_, fun q ne => (region q).trans (if_neg ne)⟩
    rw [reqs]
    exact List.mem_append_right _ (List.mem_singleton.mpr rfl)

end Sys2Proof.Machine

namespace Sys2Proof.Machine

/-! ## Changes of the frequency that take effect (R54, R56) -/

/-- Where every pending change is due, all take effect, in the order in which they were decided. -/
theorem applySteps_all (due : FreqStep → Bool) (s : State) (h : ∀ t ∈ s.clk.steps, due t = true) :
    applySteps due s = foldS applyStep s.clk.steps { s with clk := { s.clk with steps := [] } } := by
  unfold applySteps
  rw [List.filter_eq_self.mpr h, List.filter_eq_nil_iff.mpr (by simpa using h)]

theorem applySteps_none (due : FreqStep → Bool) (s : State) (h : ∀ t ∈ s.clk.steps, due t = false) : applySteps due s = s := by
  unfold applySteps
  rw [List.filter_eq_nil_iff.mpr (by simpa using h), List.filter_eq_self.mpr (by simpa using h)]
  rfl

/-- A change to `f` MHz, by a step down or a cap: LIMIT keeps the cause `limit` until f is 1,250 MHz again. -/
def State.setFreq (s : State) (f : Nat) (limit : BitVec 4) : State :=
  { s with clk := { s.clk with
      freq := BitVec.ofNat 16 f, acc := s.clk.acc * (f : Int) / (s.clk.freq.toNat : Int)
      limit := if 1250 ≤ f then 0 else limit } }

theorem applyStep_down (t : FreqStep) (s : State) (h : t.change = .down) :
    applyStep t s = s.setFreq (max 1000 (s.clk.freq.toNat - 25)) t.limit := by
  unfold applyStep FreqStep.up
  rw [h]
  rfl

theorem applyStep_cap (t : FreqStep) (c : U16) (s : State) (h : t.change = .cap c) :
    applyStep t s = s.setFreq (min s.clk.freq.toNat c.toNat) t.limit := by
  unfold applyStep FreqStep.up
  rw [h]
  rfl

/-- A step down leaves a frequency that its register holds. -/
theorem setFreq_down_toNat (s : State) (limit : BitVec 4) :
    (s.setFreq (max 1000 (s.clk.freq.toNat - 25)) limit).clk.freq.toNat = max 1000 (s.clk.freq.toNat - 25) := by
  have bound := s.clk.freq.isLt
  exact Nat.mod_eq_of_lt (by omega)

theorem up_of_down (t : FreqStep) (h : t.change = .down) : t.up = false := by
  unfold FreqStep.up
  rw [h]

theorem up_of_cap (t : FreqStep) (c : U16) (h : t.change = .cap c) : t.up = false := by
  unfold FreqStep.up
  rw [h]

theorem stepDue_of_cycle (s : State) (t : FreqStep) (d : Nat) (down : t.up = false) (h : t.fromCycle = some d) (due : d ≤ s.seq.cycle) :
    s.stepDue t = true := by
  simp [State.stepDue, down, h, due]

theorem stepDue_of_early (s : State) (t : FreqStep) (h : t.up = true ∨ ∀ d, t.fromCycle = some d → s.seq.cycle < d) :
    s.stepDue t = false := by
  rcases h with up | early
  · simp [State.stepDue, up]
  · cases from_ : t.fromCycle with
    | none => simp [State.stepDue, from_]
    | some d => simp [State.stepDue, from_, early d from_]

/-! ## Applying a step down in its cycle (R56) -/

theorem freqStepApply_running (s : State) (run : s.running = true) : exec .freqStepApply s = .next (applySteps s.stepDue s) := by
  change execFreqStepApply s = _
  unfold execFreqStepApply
  rw [if_pos run]

theorem freqStepApply_stopped (s : State) (h : ¬ s.running = true) : exec .freqStepApply s = .next s := by
  change execFreqStepApply s = _
  unfold execFreqStepApply
  rw [if_neg h]

theorem freqStepApply_early (s : State) (h : ∀ f ∈ s.clk.steps, f.up = true ∨ ∀ d, f.fromCycle = some d → s.seq.cycle < d) :
    exec .freqStepApply s = .next s := by
  by_cases run : s.running = true
  · rw [freqStepApply_running s run, applySteps_none _ s fun t mem => stepDue_of_early s t (h t mem)]
  · exact freqStepApply_stopped s run

theorem freqStepApply_all (s : State) (run : s.running = true) (due : ∀ f ∈ s.clk.steps, s.stepDue f = true) :
    exec .freqStepApply s = .next (foldS applyStep s.clk.steps { s with clk := { s.clk with steps := [] } }) := by
  rw [freqStepApply_running s run, applySteps_all _ s due]

/-! ## Steps up (R55) -/

/-- A field of `n` bits read as a number. -/
theorem bits_eq_extract {m : Nat} (w : BitVec m) (hi lo n : Nat) (h : hi + 1 - lo = n) :
    bits w hi lo = (w.extractLsb' lo n).toNat := by
  subst h
  rfl

theorem cool_of_sensors (s : State)
    (sensors : ∀ (r : Fin 8) (i : Fin 8), ((s.region r).temps.extractLsb' (8 * i.val) 8).toNat < (s.clk.thermal.extractLsb' 0 8).toNat)
    (cold : ∀ i, (s.stack i).hot = false) : s.cool = true := by
  simp only [State.cool, Bool.and_eq_true, List.all_eq_true, decide_eq_true_eq, List.mem_range, Bool.not_eq_true']
  refine ⟨fun x mem i lt => ?_, fun i _ => cold i⟩
  obtain ⟨r, rfl⟩ := exists_get_of_mem _ x mem
  rw [bits_eq_extract _ _ _ 8 (by omega)]
  exact sensors r ⟨i, lt⟩

theorem freqStepUp_due (s : State) (quiet : s.clk.lastTrigger.toNat + 1000000 ≤ s.now) (cool : s.cool = true)
    (room : s.clk.target + 25 ≤ tierCap s.pwr.tier.val) :
    exec .freqStepUp s = .next { s with clk := { s.clk with
      steps := s.clk.steps ++ [⟨.up, s.clk.limit, none⟩]
      stepsUp := satInc s.clk.stepsUp, lastTrigger := s.time.hallTime } } := by
  change execFreqStepUp s = _
  unfold execFreqStepUp
  rw [if_pos (by simp [State.upDue, quiet, cool, room])]
  rfl

theorem freqStepUp_early (s : State) (h : s.now < s.clk.lastTrigger.toNat + 1000000) : exec .freqStepUp s = .next s := by
  change execFreqStepUp s = _
  unfold execFreqStepUp
  rw [if_neg (by simp [State.upDue, h])]

/-- Settles O23: a change that is due is one `setFreq`, two are one after the other, and what is not due stays (`freqStepApply_early`). -/
theorem frequencySteps : Obligations.FrequencySteps := by
  intro s
  refine ⟨fun f d state free only from_ due => ?one, fun f g d e state free both down₁ down₂ from₁ due₁ from₂ due₂ => ?two,
    freqStepApply_early s, fun h => freqStepApply_stopped s ?stopped,
    fun quiet room sensors cold => freqStepUp_due s quiet (cool_of_sensors s sensors cold) room, freqStepUp_early s⟩
  case one =>
    have run := (running_iff s).mpr ⟨state, free⟩
    have due : f.up = false → ∀ t ∈ s.clk.steps, s.stepDue t = true := by
      intro down
      simpa [only] using stepDue_of_cycle s f d down from_ due
    refine ⟨fun down => ?_, fun c cap => ?_⟩
    · rw [freqStepApply_all s run (due (up_of_down f down)), only, foldS_one, applyStep_down f _ down]
      rfl
    · rw [freqStepApply_all s run (due (up_of_cap f c cap)), only, foldS_one, applyStep_cap f c _ cap]
      rfl
  case two =>
    have run := (running_iff s).mpr ⟨state, free⟩
    have due : ∀ t ∈ s.clk.steps, s.stepDue t = true := by
      simpa [both] using ⟨stepDue_of_cycle s f d (up_of_down f down₁) from₁ due₁,
        stepDue_of_cycle s g e (up_of_down g down₂) from₂ due₂⟩
    have apply := freqStepApply_all s run due
    rw [both, foldS_cons, foldS_one, applyStep_down f _ down₁, applyStep_down g _ down₂, setFreq_down_toNat] at apply
    exact ⟨_, apply, rfl⟩
  case stopped =>
    rw [running_iff]
    exact fun run => h.elim (· run.1) (· run.2)

end Sys2Proof.Machine

namespace Sys2Proof.Machine

/-! ## The halt record (R381, R417) -/

/-- The record that a halt leaves on a die that has not halted before. -/
theorem raiseHalt_record (c : HaltCause) (s : State) (h : s.seq.state ≠ .empty) (g : s.seq.state ≠ .halted) :
    (raiseHalt c s).mgmt = { s.mgmt with halt := haltRecord c s, haltCount := satInc s.mgmt.haltCount } := by
  rw [raiseHalt_running c s h g]

/-! ## The release of a hold (R56, R59) -/

/-- No endpoint stalls in a hold in which none waits for credits. -/
theorem stallEps_of_noCredits (h : Hold) (periods : Nat) (s : State)
    (noCredits : ∀ x ∈ h.causes, ∀ e n, x.what ≠ .hand (.credits e n)) : stallEps h periods s = s := by
  unfold stallEps
  generalize h.causes = l at noCredits
  induction l with
  | nil => rfl
  | cons x l ih =>
    obtain ⟨first, rest⟩ := List.forall_mem_cons.mp noCredits
    refine Eq.trans ?_ (ih rest)
    change foldS _ l (match x.what with | .hand (.credits ep _) => _ | _ => s) = _
    congr 1
    split
    · rename_i e n what
      exact absurd what (first e n)
    · rfl

theorem stallEps_credits (h : Hold) (periods : Nat) (s : State) (c : Fin 32) (ep : BitVec 7) (n : Nat) (met : Bool)
    (only : h.causes = [⟨c, .hand (.credits ep n), met⟩]) :
    stallEps h periods s = s.updCore c fun k => k.updEp ep fun e => { e with stall := satAdd e.stall periods } := by
  unfold stallEps
  rw [only]
  rfl

/-- The changes of f that take effect with a release: the step downs that are due in its cycle, and those decided in the hold. -/
def State.releaseDue (s : State) (t : FreqStep) : Bool := s.stepDue t || (!t.up && t.fromCycle.isNone)

theorem releaseDue_of_down (s : State) (t : FreqStep) (down : t.change = .down)
    (h : t.fromCycle = none ∨ t.fromCycle = some s.seq.cycle) : s.releaseDue t = true := by
  unfold State.releaseDue
  rcases h with undated | now
  · simp [undated, up_of_down t down]
  · simp [stepDue_of_cycle s t _ (up_of_down t down) now le_rfl]

/-- The die as it runs again after a hold of `held` ns, 20 periods after hall time `m`. -/
def State.restarted (s : State) (m : U64) (held : Nat) : State :=
  { s with clk := { s.clk with
      hold := none
      acc := ((s.now - m.toNat) * (10 * s.clk.freq.toNat) : Nat) - 200000
      holdTime := s.clk.holdTime + BitVec.ofNat 64 held
      holdMax := BitVec.ofNat 32 (max s.clk.holdMax.toNat (min held 0xFFFFFFFF)) } }

theorem restarted_core (s : State) (m : U64) (held : Nat) (c : Fin 32) : (s.restarted m held).core c = s.core c := rfl

theorem lanternRelease_due (s u : State) (h : Hold) (m : U64) (on : s.clk.hold = some h) (met : h.metAt = some m)
    (due : 20000 ≤ (s.now - m.toNat) * s.clk.freq.toNat)
    (stalled : stallEps h (heldNs s.clk h m * s.clk.freq.toNat / 1000) s = u) :
    exec .lanternRelease s = .next (applySteps u.releaseDue (u.restarted m (heldNs s.clk h m))) := by
  change execLanternRelease s = _
  unfold execLanternRelease
  simp only [on, met]
  rw [if_pos (show s.restartDue m = true from decide_eq_true due), stalled]
  rfl

theorem lanternRelease_early (s : State) (h : Hold) (m : U64) (on : s.clk.hold = some h) (met : h.metAt = some m)
    (early : (s.now - m.toNat) * s.clk.freq.toNat < 20000) : exec .lanternRelease s = .next s := by
  change execLanternRelease s = _
  unfold execLanternRelease
  simp only [on, met]
  rw [if_neg (by simpa [State.restartDue] using early)]

theorem lanternRelease_unmet (s : State) (h : Hold) (on : s.clk.hold = some h) (unmet : h.metAt = none) :
    exec .lanternRelease s = .next s := by
  change execLanternRelease s = _
  unfold execLanternRelease
  simp only [on, unmet]

/-! ## A hold that is too long (R61) -/

/-- Where a hold has a cause, some core waits. -/
theorem waitingCore_isSome (h : Hold) (causes : h.causes ≠ []) :
    (allCores.find? fun c => h.causes.any fun x => x.core == c).isSome = true := by
  obtain ⟨x, mem⟩ := List.exists_mem_of_ne_nil _ causes
  rw [List.find?_isSome]
  exact ⟨x.core, List.mem_ofFn.mpr ⟨x.core, rfl⟩, List.any_eq_true.mpr ⟨x, mem, beq_self_eq_true _⟩⟩

/-- A hold past its limit is a halt cause, which names a waiting core and lists all of them. -/
theorem holdTimeout_due (s : State) (h : Hold) (on : s.clk.hold = some h) (long : s.clk.holdLimit < s.now - h.since.toNat) :
    ∃ c : HaltCause, exec .holdTimeout s = .next (raiseHalt c s) ∧ c.reason = hcHoldTimeout ∧
      (h.causes ≠ [] → c.core.isNone = false ∧ c.d0 = BitVec.ofNat 64 (waitMask h)) := by
  change ∃ c, execHoldTimeout s = _ ∧ _
  unfold execHoldTimeout
  simp only [on]
  rw [if_pos long]
  split
  · exact ⟨_, rfl, rfl, fun _ => ⟨rfl, rfl⟩⟩
  · rename_i nobody
    exact ⟨_, rfl, rfl, fun causes => by simpa [nobody] using waitingCore_isSome h causes⟩

theorem holdTimeout_early (s : State) (h : Hold) (on : s.clk.hold = some h) (short : s.now - h.since.toNat ≤ s.clk.holdLimit) :
    exec .holdTimeout s = .next s := by
  change execHoldTimeout s = _
  unfold execHoldTimeout
  simp only [on]
  rw [if_neg (not_lt.mpr short)]

/-- Settles O25: a release is `State.restarted` with the changes of f that are due, and a hold that is too long is one halt. -/
theorem holdsEndByReleaseOrTimeout : Obligations.HoldsEndByReleaseOrTimeout := by
  intro s h on
  refine ⟨fun m met due plain noStep => ?plain, fun m c ep n b met due only noStep => ?credits,
    fun m f met due plain one down decided => ?step, fun m met early => lanternRelease_early s h m on met early,
    fun unmet => lanternRelease_unmet s h on unmet, fun long state inside => ?timeout, holdTimeout_early s h on⟩
  case plain =>
    rw [lanternRelease_due s s h m on met due (stallEps_of_noCredits h _ s plain),
      applySteps_none _ _ (by simp [State.restarted, noStep])]
    rfl
  case credits =>
    have release := lanternRelease_due s _ h m on met due (stallEps_credits h _ s c ep n b only)
    rw [applySteps_none _ _ (by simp [State.restarted, State.updCore, noStep])] at release
    exact ⟨_, release, rfl, rfl, fun d other => by rw [restarted_core, updCore_core, if_neg other],
      by rw [restarted_core, updCore_core, if_pos rfl]⟩
  case step =>
    have release := lanternRelease_due s s h m on met due (stallEps_of_noCredits h _ s plain)
    have steps : (s.restarted m (heldNs s.clk h m)).clk.steps = [f] := one
    rw [applySteps_all _ _ (by simpa [steps] using releaseDue_of_down s f down decided), steps, foldS_one,
      applyStep_down f _ down] at release
    exact ⟨_, release, rfl⟩
  case timeout =>
    obtain ⟨c, halt, reason, waiting⟩ := holdTimeout_due s h on long
    have live : s.seq.state ≠ .empty ∧ s.seq.state ≠ .halted := by simp [state]
    have record := raiseHalt_record c s live.1 live.2
    refine ⟨_, halt, ?_, ?_⟩
    · rw [raiseHalt_running c s live.1 live.2]
      rfl
    · rw [record]
      refine ⟨rfl, reason, ?_, rfl, rfl, waiting⟩
      simp [haltRecord, state, inside]

end Sys2Proof.Machine

namespace Sys2Proof.Machine

/-! ## Readings of the sensors (R50) -/

/-- Byte `i` of a field of eight bytes. -/
theorem bits_byte {n : Nat} (w : BitVec n) (i : Nat) : bits w (8 * i + 7) (8 * i) = (w.extractLsb' (8 * i) 8).toNat :=
  bits_eq_extract _ _ _ 8 (by omega)

theorem extract_byte {n : Nat} (w : BitVec n) (a i : Nat) (h : i < 8) :
    (w.extractLsb' a 64).extractLsb' (8 * i) 8 = w.extractLsb' (a + 8 * i) 8 := by
  apply BitVec.eq_of_getLsbD_eq
  intro j lt
  have inside : 8 * i + j < 64 := by omega
  simp [inside, Nat.add_assoc]

/-- The highest of a region's eight sensors. -/
def hottest (t : BitVec 64) : Nat := (List.range 8).foldl (fun m i => max m (bits t (8 * i + 7) (8 * i))) 0

theorem hottest_spec (t : BitVec 64) :
    (∀ i : Fin 8, (t.extractLsb' (8 * i.val) 8).toNat ≤ hottest t) ∧ ∃ i : Fin 8, (t.extractLsb' (8 * i.val) 8).toNat = hottest t := by
  have folded : hottest t = ((List.range 8).map fun i => bits t (8 * i + 7) (8 * i)).max?.getD 0 := by
    unfold hottest
    rw [← List.foldl_map (g := max), List.foldl_max, Nat.zero_max]
  cases highest : ((List.range 8).map fun i => bits t (8 * i + 7) (8 * i)).max? with
  | none => exact absurd (List.max?_eq_none_iff.mp highest) (by simp)
  | some a =>
    rw [folded, highest, Option.getD_some]
    obtain ⟨mem, top⟩ := List.max?_eq_some_iff.mp highest
    obtain ⟨i, lt, eq⟩ := List.mem_map.mp mem
    exact ⟨fun i => bits_byte t i.val ▸ top _ (List.mem_map.mpr ⟨i.val, List.mem_range.mpr i.isLt, rfl⟩),
      ⟨i, List.mem_range.mp lt⟩, bits_byte t i ▸ eq⟩

/-- A region whose sensors show `t`. -/
def Region.sensed (x : Region) (t : BitVec 64) : Region := { x with temps := t, tmax := BitVec.ofNat 8 (hottest t) }

theorem sensed_tmax (x : Region) (t : BitVec 64) : (x.sensed t).tmax.toNat = hottest t := by
  obtain ⟨-, i, top⟩ := hottest_spec t
  have bound : hottest t < 256 := top ▸ (t.extractLsb' (8 * i.val) 8).isLt
  exact Nat.mod_eq_of_lt bound

/-- The sensors of region `r` are read. -/
def senseRegion (temps : BitVec 512) (r : Fin 8) (s : State) : State :=
  s.updRegion r fun x => x.sensed (temps.extractLsb' (64 * r.val) 64)

/-- The state with all regions read. -/
def State.sensed (s : State) (temps : BitVec 512) : State := foldS (senseRegion temps) (List.ofFn id) s

theorem sensed_frame (s : State) (temps : BitVec 512) :
    ∃ v : Vector Region 8, s.sensed temps = { s with clk := { s.clk with regions := v } } := by
  unfold State.sensed
  generalize List.ofFn id = l
  induction l generalizing s with
  | nil => exact ⟨s.clk.regions, rfl⟩
  | cons r l ih => exact ih (senseRegion temps r s)

theorem sensed_region (s : State) (temps : BitVec 512) (r : Fin 8) :
    (s.sensed temps).region r = (s.region r).sensed (temps.extractLsb' (64 * r.val) 64) := by
  unfold State.sensed
  rw [foldS_each (senseRegion temps) State.region (fun s r => (s.region r).sensed (temps.extractLsb' (64 * r.val) 64))
    (fun s r q => updRegion_region ..) (fun s r q other => by rw [senseRegion, updRegion_region, if_neg other]) _ s (nodup_ofFn_id 8),
    if_pos (mem_ofFn_id r)]

/-! ## The reading of every sensor (R50, R54, R377) -/

/-- What a thermal trip leaves of a die: halted, with the event, off, and the time of the trip noted. -/
def thermalTrip (c : HaltCause) (s : State) : State :=
  let d := dieOff (setEvent evThermal (raiseHalt c s))
  { d with pwr := { d.pwr with tripAt := some d.time.hallTime } }

/-- The cause of a trip by sensor `i`. -/
def tripCause (temps : BitVec 512) (i : Nat) : HaltCause :=
  ⟨hcThermal, none, engPower, none, BitVec.ofNat 64 (i / 8 + 8 * (i % 8)), BitVec.ofNat 64 (bits temps (8 * i + 7) (8 * i))⟩

theorem tripSensor_none (temps : BitVec 512) (h : ∀ i : Fin 64, (temps.extractLsb' (8 * i.val) 8).toNat < 105) :
    tripSensor temps = none := by
  unfold tripSensor
  rw [List.find?_eq_none]
  intro i mem
  rw [bits_byte, decide_eq_true_eq, not_le]
  exact h ⟨i, List.mem_range.mp mem⟩

theorem tripSensor_first (temps : BitVec 512) (i : Fin 64) (hot : 105 ≤ (temps.extractLsb' (8 * i.val) 8).toNat)
    (first : ∀ j : Fin 64, j < i → (temps.extractLsb' (8 * j.val) 8).toNat < 105) : tripSensor temps = some i.val := by
  unfold tripSensor
  rw [List.find?_range_eq_some]
  refine ⟨by rw [bits_byte]; exact decide_eq_true hot, List.mem_range.mpr i.isLt, fun j lt => ?_⟩
  rw [bits_byte, Bool.not_eq_true', decide_eq_false_iff_not, not_le]
  exact first ⟨j, lt.trans i.isLt⟩ lt

theorem readSensors_cool (temps : BitVec 512) (s : State) (cool : ∀ i : Fin 64, (temps.extractLsb' (8 * i.val) 8).toNat < 105 ∧
    (temps.extractLsb' (8 * i.val) 8).toNat < s.clk.throttleC) : readSensors temps s = s.sensed temps := by
  unfold readSensors
  generalize read : foldS _ _ s = u
  have read : s.sensed temps = u := read
  obtain ⟨v, frame⟩ := sensed_frame s temps
  have below : ¬ ((List.range 64).any fun i => decide (u.clk.throttleC ≤ bits temps (8 * i + 7) (8 * i))) = true := by
    rw [List.any_eq_true]
    rintro ⟨i, mem, hot⟩
    rw [bits_byte, decide_eq_true_eq, ← read, frame] at hot
    exact absurd hot (not_le.mpr (cool ⟨i, List.mem_range.mp mem⟩).2)
  rw [tripSensor_none temps fun i => (cool i).1]
  exact (if_neg below).trans read.symm

theorem readSensors_trip (temps : BitVec 512) (s : State) (i : Nat) (h : tripSensor temps = some i) :
    readSensors temps s = thermalTrip (tripCause temps i) (s.sensed temps) := by
  unfold readSensors
  generalize read : foldS _ _ s = u
  have read : s.sensed temps = u := read
  rw [h, read]
  unfold thermalTrip tripCause
  rfl

/-- The sensors show `temps`. -/
def State.showing (s : State) (temps : BitVec 512) : State := { s with clk := { s.clk with sensors := temps } }

theorem regionTempReading_noted (s : State) (temps : BitVec 512) (h : s.pwr.dieOn = false ∨ s.now % 1000 ≠ 0) :
    exec (.regionTempReading temps) s = .next (s.showing temps) := by
  change execRegionTempReading temps s = _
  unfold execRegionTempReading
  exact congrArg _ (if_neg fun q => h.elim (fun off => by simp [off] at q) (· q.2))

theorem regionTempReading_read (s : State) (temps : BitVec 512) (on : s.pwr.dieOn = true) (time : s.now % 1000 = 0) :
    exec (.regionTempReading temps) s = .next (readSensors temps (s.showing temps)) := by
  change execRegionTempReading temps s = _
  unfold execRegionTempReading
  exact congrArg _ (if_pos ⟨on, time⟩)

/-! ## Loss of die power (R282, R370, R377) -/

/-- A stack on the way to self-refresh: at once where no write waits in its queues. -/
def StackCtl.entering (c : StackCtl) : StackCtl :=
  if c.selfRefresh ∨ c.toRefresh then c
  else settleRefresh { c with toRefresh := true, pcs := c.pcs.map fun u => { u with drain := untilLastWrite u.q } }

theorem entering_of_idle (c : StackCtl) (free : c.toRefresh = false) (idle : ∀ p, (c.pc p).q = []) : c.entering.selfRefresh = true := by
  unfold StackCtl.entering
  split
  · rename_i h
    simpa [free] using h
  · have drained : (c.pcs.map fun u => ({ u with drain := untilLastWrite u.q } : PcQueue)).toList.all (fun u => u.drain == 0) = true := by
      rw [Vector.toList_map, List.all_map, List.all_eq_true]
      intro u mem
      obtain ⟨p, rfl⟩ := exists_get_of_mem c.pcs u mem
      have empty : (c.pcs.get p).q = [] := idle p
      simp [empty, untilLastWrite]
    unfold settleRefresh
    rw [if_pos (by simpa using drained)]

theorem enterSelfRefresh_frame (s : State) : ∃ v : Vector StackCtl 16, enterSelfRefresh s = { s with stks := v } := by
  unfold enterSelfRefresh
  generalize allStacks = l
  induction l generalizing s with
  | nil => exact ⟨s.stks, rfl⟩
  | cons i l ih =>
    rw [foldS_cons]
    split
    · exact ih s
    · exact ih _

theorem enterSelfRefresh_stack (s : State) (k : Fin 16) : (enterSelfRefresh s).stack k = (s.stack k).entering := by
  unfold enterSelfRefresh
  rw [foldS_each _ State.stack (fun s k => (s.stack k).entering) ?one ?apart allStacks s (nodup_ofFn_id 16),
    if_pos (show k ∈ allStacks from mem_ofFn_id k)]
  case one =>
    intro s i k
    unfold StackCtl.entering
    split
    · split
      · rename_i eq
        rw [eq]
      · rfl
    · exact updStack_stack ..
  case apart =>
    intro s i k other
    congr 1
    split
    · rfl
    · exact (updStack_stack ..).trans (if_neg other)

/-- Without a load in progress the loss of die power is the scrub of a die whose windows close and whose stacks enter self-refresh. -/
theorem dieOff_eq (s : State) (idle : s.loader.busy = false) :
    ∃ (f : Fabric) (a : Option U64) (z : List (Nat × Nat × Nat)) (v : Vector StackCtl 16),
      dieOff s = scrubDie { s with
        fab := f, stks := v
        pwr := { s.pwr with
          closeAt := a, zeroRanges := z, phase := .dieOff, dieOn := false, retained := false, zeroing := false, killPending := true } } ∧
      ∀ k, v.get k = (s.stack k).entering := by
  have stopped : stopLoad s = s := by
    unfold stopLoad
    rw [if_neg (by simp [idle])]
  have closed : ∃ (f : Fabric) (a : Option U64) (z : List (Nat × Nat × Nat)),
      (if s.pwr.killPending then s else closeWindows s) =
        { s with fab := f, pwr := { s.pwr with closeAt := a, zeroRanges := z } } := by
    split
    · exact ⟨s.fab, s.pwr.closeAt, s.pwr.zeroRanges, rfl⟩
    · exact ⟨_, _, _, rfl⟩
  obtain ⟨f, a, z, closed⟩ := closed
  generalize hu : ({ s with fab := f, pwr := { s.pwr with closeAt := a, zeroRanges := z } } : State) = u at closed
  obtain ⟨v, refresh⟩ := enterSelfRefresh_frame u
  refine ⟨{ f with ports := f.ports.map fun p => { p with present := [], transit := [], retry := [], copies := [], gone := [] } }, a, z, v,
    ?_, fun k => ?_⟩
  · unfold dieOff
    rw [stopped]
    dsimp only
    rw [closed, refresh, ← hu]
  · have stack := enterSelfRefresh_stack u k
    rw [refresh, ← hu] at stack
    exact stack

/-- A stack stays in self-refresh when the requests of the job leave its queues. -/
theorem scrubDie_stack (s : State) (k : Fin 16) : ((scrubDie s).stack k).selfRefresh = (s.stack k).selfRefresh := by
  have left : (scrubDie s).stack k = hostRequests (s.stack k) := vector_get_map ..
  rw [left]
  rfl

/-- What the loss of die power leaves. -/
structure PoweredOff (s t : State) : Prop where
  legState : t.seq.state = s.seq.state
  halt : t.mgmt.halt = s.mgmt.halt
  event : t.pwr.event = s.pwr.event
  dieOn : t.pwr.dieOn = false
  phase : t.pwr.phase = .dieOff
  hallTime : t.time.hallTime = s.time.hallTime
  dram : t.dram = s.dram
  cores : t.cores = Vector.replicate 32 {}
  refresh : (∀ k, (s.stack k).toRefresh = false ∧ ∀ p, ((s.stack k).pc p).q = []) → ∀ k, (t.stack k).selfRefresh = true

theorem dieOff_poweredOff (s : State) (idle : s.loader.busy = false) : PoweredOff s (dieOff s) := by
  obtain ⟨f, a, z, v, off, stks⟩ := dieOff_eq s idle
  rw [off]
  refine ⟨rfl, rfl, rfl, rfl, rfl, rfl, rfl, rfl, fun empty k => ?_⟩
  rw [scrubDie_stack]
  change (v.get k).selfRefresh = true
  rw [stks k]
  exact entering_of_idle _ (empty k).1 (empty k).2

/-! ## The thermal trip (R377) -/

theorem getLsbD_setBit {n : Nat} (w : BitVec n) (i j : Nat) (hi : i < n) (hj : j < n) :
    (setBit w i true).getLsbD j = (decide (j = i) || w.getLsbD j) := by
  rcases Nat.lt_trichotomy j i with lt | rfl | lt
  · simp [setBit, setBits, hj, lt, lt.ne]
  · simp [setBit, setBits, hj]
  · have above : ¬ j < i := by omega
    have apart : j - i ≠ 0 := by omega
    simp [setBit, setBits, hj, above, apart, lt.ne']

/-- A trip of a die that runs: the record of its cause, both events, and the loss of power. -/
theorem thermalTrip_live (c : HaltCause) (s : State) (h : s.seq.state ≠ .empty) (g : s.seq.state ≠ .halted)
    (idle : s.loader.busy = false) (empty : ∀ k, (s.stack k).toRefresh = false ∧ ∀ p, ((s.stack k).pc p).q = []) :
    ∃ t : State, thermalTrip c s = t ∧ t.seq.state = .halted ∧ t.mgmt.halt = haltRecord c s ∧ t.pwr.event.getLsbD 3 = true ∧
      t.pwr.event.getLsbD 0 = true ∧ t.pwr.dieOn = false ∧ t.pwr.phase = .dieOff ∧ t.pwr.tripAt = some s.time.hallTime ∧
      (∀ k, (t.stack k).selfRefresh = true) ∧ t.dram = s.dram ∧ t.cores = Vector.replicate 32 {} := by
  have off := dieOff_poweredOff (setEvent evThermal (raiseHalt c s)) (by rw [raiseHalt_running c s h g]; exact idle)
  unfold thermalTrip
  generalize dieOff _ = d at off ⊢
  rw [raiseHalt_running c s h g] at off
  have event : d.pwr.event = setBit (setBit s.pwr.event evHalt true) evThermal true := off.event
  refine ⟨_, rfl, off.legState, off.halt, ?thermal, ?halted, off.dieOn, off.phase, congrArg some off.hallTime, off.refresh empty, off.dram,
    off.cores⟩
  case thermal =>
    change d.pwr.event.getLsbD evThermal = true
    rw [event, getLsbD_setBit _ _ _ (by decide) (by decide), decide_eq_true rfl, Bool.true_or]
  case halted =>
    change d.pwr.event.getLsbD evHalt = true
    rw [event, getLsbD_setBit _ _ _ (by decide) (by decide), getLsbD_setBit _ _ _ (by decide) (by decide), decide_eq_true rfl,
      Bool.true_or, Bool.or_true]

theorem tripLockoutEnd_eq (s : State) (u : U64) (h : s.pwr.tripAt = some u) :
    exec .tripLockoutEnd s =
      .next (if u.toNat + 60000000000 ≤ s.now then { s with pwr := { s.pwr with tripAt := none } } else s) := by
  change execTripLockoutEnd s = _
  unfold execTripLockoutEnd
  rw [h]

/-- Settles O24: a reading that is taken leaves `State.sensed` (`readSensors_cool`), or the trip of that state (`thermalTrip_live`). -/
theorem thermalReadingsAndTrips : Obligations.ThermalReadingsAndTrips := by
  intro s temps
  refine ⟨regionTempReading_noted s temps, fun cool on time => ?cool, fun i on time hot first h g idle empty => ?trip, tripLockoutEnd_eq s⟩
  case cool =>
    have read := regionTempReading_read s temps on time
    rw [readSensors_cool temps (s.showing temps) cool] at read
    obtain ⟨v, frame⟩ := sensed_frame (s.showing temps) temps
    refine ⟨_, read, by rw [frame]; rfl, fun r => ?_⟩
    obtain ⟨top, i, at_⟩ := hottest_spec (temps.extractLsb' (64 * r.val) 64)
    have byte : ∀ i : Fin 8, (temps.extractLsb' (64 * r.val + 8 * i.val) 8).toNat =
        ((temps.extractLsb' (64 * r.val) 64).extractLsb' (8 * i.val) 8).toNat := fun i => by rw [extract_byte _ _ _ i.isLt]
    rw [sensed_region, sensed_tmax]
    exact ⟨rfl, fun i => (byte i).trans_le (top i), i, (byte i).trans at_⟩
  case trip =>
    have read := regionTempReading_read s temps on time
    rw [readSensors_trip temps (s.showing temps) i.val (tripSensor_first temps i hot first)] at read
    obtain ⟨v, frame⟩ := sensed_frame (s.showing temps) temps
    rw [frame] at read
    obtain ⟨t, trip, state, halt, thermal, halted, rest⟩ := thermalTrip_live (tripCause temps i.val)
      { s with clk := { s.clk with sensors := temps, regions := v } } h g idle empty
    refine ⟨t, read.trans (congrArg _ trip), state, ?_⟩
    rw [halt]
    refine ⟨rfl, rfl, rfl, ?_, thermal, halted, rest⟩
    change BitVec.ofNat 64 (bits temps (8 * i.val + 7) (8 * i.val)) = _
    rw [bits_byte, BitVec.ofNat_toNat]

end Sys2Proof.Machine

/-!
PROOFS. The command stream (03_command_stream.md): what every issue row does with the command that heads its core, and then the data
windows and BAR2 (12_host_ingress_harbor.md).
-/
namespace Sys2Proof.Machine

/-! ## Signals that fire (R77, R78) -/

/-- `t` is `s` after the two signals `sigs` of core `c` have fired. -/
def SignalsFired (c : Fin 32) (sigs : U64) (s t : State) : Prop :=
  t = { s with cores := s.cores.set c (t.core c), fab := t.fab, clk := { s.clk with mesh := t.clk.mesh } } ∧
  t.core c = Claims.Signalled t c sigs (s.core c) ∧ (Claims.rings sigs = false → t.clk = s.clk ∧ t.fab = s.fab)

theorem bits_extract_low (sigs : U64) : bits (sigs.extractLsb' 0 32) 31 28 = bits sigs 31 28 := by
  unfold bits
  congr 1
  ext i hi
  simp

theorem bits_extract_high (sigs : U64) : bits (sigs.extractLsb' 32 32) 31 28 = bits sigs 63 60 := by
  unfold bits
  congr 1
  ext i hi
  simp [show 28 + i < 32 by omega, ← Nat.add_assoc]

theorem rings_eq_false (sigs : U64) :
    Claims.rings sigs = false ↔ bits (sigs.extractLsb' 0 32) 31 28 ≠ 4 ∧ bits (sigs.extractLsb' 32 32) 31 28 ≠ 4 := by
  rw [bits_extract_low, bits_extract_high]
  simp [Claims.rings]

theorem fireSignals_fired (c : Fin 32) (idx : Nat) (sigs : U64) (s : State) : SignalsFired c sigs s (fireSignals c idx sigs s) := by
  unfold fireSignals
  cases quiet : Claims.rings sigs with
  | false =>
    obtain ⟨low, high⟩ := (rings_eq_false sigs).1 quiet
    rw [fireSignal_plain c idx _ _ high, fireSignal_plain c idx _ s low]
    refine ⟨?_, ?_, fun _ => ⟨rfl, rfl⟩⟩
    · simp [State.core]
    · simp [State.core, Claims.Signalled, quiet, Claims.sigFlags, Claims.sigCounters]
  | true =>
    obtain ⟨p, e, q, x, m, first⟩ := fireSignal_eq c idx (sigs.extractLsb' 0 32) s
    obtain ⟨p', e', q', x', m', second⟩ := fireSignal_eq c idx (sigs.extractLsb' 32 32) (fireSignal c idx (sigs.extractLsb' 0 32) s)
    rw [second, first]
    refine ⟨?_, ?_, fun silent => absurd (quiet.symm.trans silent) (by decide)⟩
    · simp [State.core]
    · simp [State.core, Claims.Signalled, quiet, Claims.sigFlags, Claims.sigCounters]

/-! ## Issue rows (R71, R90, R96) -/

/-- Every command of the stream is an issue row of its opcode and its core. -/
theorem exec_of_spelt (i : Instr) (op : Nat) (w : CmdWords) (c : Fin 32) (spelt : i.spelt = some (op, w))
    (core : Claims.rowCore i = some c) : ∃ name eff, ∀ s, exec i s = issueRow name op eff c w s := by
  cases i <;> cases spelt <;> cases core <;> exact ⟨_, _, fun _ => rfl⟩

theorem issueRow_of_misspelt (name : String) (op : Nat) (eff : Fin 32 → LookEntry → State → State) (c : Fin 32) (w : CmdWords)
    (s : State) (h : w.opcode ≠ op) : issueRow name op eff c w s = .refused (.illFormed name) := if_neg h

theorem issueRow_of_none_ahead (name : String) (eff : Fin 32 → LookEntry → State → State) (c : Fin 32) (w : CmdWords) (s : State)
    (h : (s.core c).ahead = []) : issueRow name w.opcode eff c w s = .next s := by
  unfold issueRow
  rw [if_pos rfl, h]

theorem issuing_of_stopped (s : State) (e : LookEntry) (stopped : s.seq.state ≠ .running) (alive : s.seq.state ≠ .halted) :
    s.issuing e = false := by
  simp [State.issuing, State.running, sameHaltCycle, stopped, alive]

theorem issueRow_of_stopped (name : String) (eff : Fin 32 → LookEntry → State → State) (c : Fin 32) (w : CmdWords) (s : State)
    (stopped : s.seq.state ≠ .running) (alive : s.seq.state ≠ .halted) : issueRow name w.opcode eff c w s = .next s := by
  unfold issueRow
  rw [if_pos rfl]
  split
  · rename_i e _ _
    rw [if_neg fun due => absurd due.2 (by simp [issuing_of_stopped s e stopped alive])]
  · rfl

/-- The command of `w` heads core `c`'s looked-out commands and issues in this cycle of a die that counts cycles; the block entries of a
store hand-over have been read (R205). -/
structure Heads (s : State) (c : Fin 32) (w : CmdWords) (e : LookEntry) (rest : List LookEntry) : Prop where
  ahead : (s.core c).ahead = e :: rest
  words : e.words = normWords w
  running : s.running = true
  now : e.issue = s.seq.cycle
  entries : missingEntries (s.core c) e.words = []

section
variable {s : State} {c : Fin 32} {w : CmdWords} {e : LookEntry} {rest : List LookEntry} (heads : Heads s c w e rest)
include heads

theorem Heads.sigsOf_words : sigsOf e.words = sigsOf w := by rw [heads.words]; rfl
theorem Heads.sosOf_words : sosOf e.words = w.w0.getLsbD 22 := by rw [heads.words]; rfl

theorem Heads.legs : s.seq.state = .running := ((running_iff s).1 heads.running).1

/-- The row of a command that is due judges it. -/
theorem Heads.issueRow_eq (name : String) (eff : Fin 32 → LookEntry → State → State) :
    issueRow name w.opcode eff c w s = .next (judgeCmd eff c e s) := by
  have due : s.issuing e = true := by simp [State.issuing, heads.now, heads.running]
  unfold issueRow
  rw [if_pos rfl, heads.ahead]
  dsimp only
  rw [if_pos ⟨heads.words, due⟩]
  unfold issueCmd
  rw [heads.entries]
  dsimp only [foldS, List.foldl]
  rw [if_pos heads.entries]

theorem Heads.judgeCmd_sound (eff : Fin 32 → LookEntry → State → State) (sound : commandCauses s c e = []) :
    judgeCmd eff c e s = takeCmd eff c e s := by
  unfold judgeCmd
  rw [sound]
  dsimp only
  rw [if_neg fun halted => absurd (heads.legs.symm.trans halted.1) (by decide)]

end

theorem judgeCmd_unsound (eff : Fin 32 → LookEntry → State → State) (c : Fin 32) (e : LookEntry) (s : State)
    (unsound : commandCauses s c e ≠ []) :
    judgeCmd eff c e s = (foldS raiseHalt (commandCauses s c e) s).updCore c (slotUsed e) := by
  unfold judgeCmd
  split
  · rename_i h t causes
    rw [causes]
  · rename_i none
    exact absurd none unsound

/-! ## The issue slot (R71, R72, R94) -/

theorem updCore_updCore (s : State) (c : Fin 32) (f g : Core → Core) :
    (s.updCore c f).updCore c g = s.updCore c fun k => g (f k) := by
  simp [State.updCore, State.core]

theorem trackWrites_eq (checked : Bool) (e : LookEntry) (k : Core) :
    ∃ x y, trackWrites checked e k = { k with scoreboard := x, untracked := y } := by
  unfold trackWrites
  split
  · split
    · split <;> exact ⟨_, _, rfl⟩
    · exact ⟨_, _, rfl⟩
  · exact ⟨_, _, rfl⟩

/-- Core `k` after the command of `e` has left its writes to the scoreboard and has taken its part of the slot. -/
def Core.slotPassed (held : Nat) (checked : Bool) (e : LookEntry) (k : Core) : Core := slotTaken held e (trackWrites checked e k)

theorem slotPassed_blockDone (held : Nat) (checked : Bool) (e : LookEntry) (k : Core) (more : e.idx + nwordsOf e.words < k.blockWords) :
    (k.slotPassed held checked e).blockDone = false := by
  obtain ⟨x, y, tracked⟩ := trackWrites_eq checked e k
  unfold Core.slotPassed
  rw [tracked]
  exact decide_eq_false (Nat.not_le.2 more)

theorem slotPassed_issued (held : Nat) (checked : Bool) (e : LookEntry) (rest : List LookEntry) (k : Core) (t : State) (c : Fin 32)
    (ahead : k.ahead = e :: rest) (more : e.idx + nwordsOf e.words < k.blockWords) (core : t.core c = k.slotPassed held checked e) :
    t.core c = Claims.Issued t c e rest k := by
  have block := slotPassed_blockDone held checked e k more
  obtain ⟨x, y, tracked⟩ := trackWrites_eq checked e k
  unfold Claims.Issued
  rw [core]
  unfold Core.slotPassed at block ⊢
  rw [tracked] at block ⊢
  simp only [slotTaken, slotUsed, ahead, List.drop_one, List.tail_cons] at block ⊢
  rw [block]

/-- `t` is `u` after the command of `e` has taken its part of core `c`'s slot. -/
def SlotTaken (c : Fin 32) (e : LookEntry) (rest : List LookEntry) (u t : State) : Prop :=
  t = { u with cores := u.cores.set c (t.core c) } ∧ t.core c = Claims.Issued t c e rest (u.core c)

/-- A command before the last one of its block takes its slot, and nothing follows. -/
theorem lastCommand_slotTaken (held : Nat) (checked : Bool) (c : Fin 32) (e : LookEntry) (rest : List LookEntry) (u : State)
    (ahead : (u.core c).ahead = e :: rest) (more : e.idx + nwordsOf e.words < (u.core c).blockWords) :
    SlotTaken c e rest u (lastCommand c e ((u.updCore c (trackWrites checked e)).updCore c (slotTaken held e))) := by
  have core : (u.updCore c (Core.slotPassed held checked e)).core c = (u.core c).slotPassed held checked e := by
    rw [updCore_core, if_pos rfl]
  have last : lastCommand c e (u.updCore c (Core.slotPassed held checked e)) = u.updCore c (Core.slotPassed held checked e) := by
    unfold lastCommand
    dsimp only
    rw [core, slotPassed_blockDone held checked e _ more]
    rfl
  rw [updCore_updCore]
  change SlotTaken c e rest u (lastCommand c e (u.updCore c (Core.slotPassed held checked e)))
  rw [last]
  refine ⟨by rw [core]; rfl, slotPassed_issued held checked e rest _ _ c ahead more core⟩

/-- The slot of a command whose core the signals `sigs` have changed from `k`. -/
theorem slotTaken_signalled {s u t : State} {c : Fin 32} {e : LookEntry} {rest : List LookEntry} {sigs : U64} {k : Core}
    (fired : SignalsFired c sigs (s.updCore c fun _ => k) u) (slot : SlotTaken c e rest u t) :
    t = { s with cores := s.cores.set c (t.core c), fab := t.fab, clk := { s.clk with mesh := t.clk.mesh } } ∧
      t.core c = Claims.Issued t c e rest (Claims.Signalled t c sigs k) ∧ (Claims.rings sigs = false → t.clk = s.clk ∧ t.fab = s.fab) := by
  obtain ⟨reach, core, quiet⟩ := fired
  obtain ⟨slotReach, slotCore⟩ := slot
  have fab : t.fab = u.fab := by rw [slotReach]
  have clk : t.clk = u.clk := by rw [slotReach]
  rw [updCore_core, if_pos rfl] at core
  have same : Claims.Signalled u c sigs k = Claims.Signalled t c sigs k := by
    unfold Claims.Signalled
    rw [slotCore]
    rfl
  refine ⟨?_, ?_, fun silent => ?_⟩
  · rw [fab, clk]
    generalize t.core c = x at slotReach
    rw [slotReach, reach]
    simp [State.updCore]
  · rw [slotCore, core, same]
  · rw [fab, clk]
    exact quiet silent

/-! ## A command that is sound (R76, R81) -/

/-- A sound command of the die's that is not skipped and completes at issue: its effect on its core, its signals, its slot. -/
theorem issuesTo_of_core {i : Instr} {name : String} {op : Nat} {eff : Fin 32 → LookEntry → State → State} {s : State} {c : Fin 32}
    {w : CmdWords} {e : LookEntry} {rest : List LookEntry} (ready : Claims.Ready op s c w e rest)
    (row : exec i s = issueRow name op (andSignals eff) c w s) (k : Core) (effect : eff c e s = s.updCore c fun _ => k)
    (ahead : k.ahead = (s.core c).ahead) (words : k.blockWords = (s.core c).blockWords) :
    Claims.IssuesTo i s c e rest fun t => Claims.Signalled t c (sigsOf w) k := by
  obtain ⟨rfl, head, norm, run, now, sound, goes, more, entries⟩ := ready
  have heads : Heads s c w e rest := ⟨head, norm, run, now, entries⟩
  have taken : takeCmd (andSignals eff) c e s =
      lastCommand c e (((fireSignals c e.idx (sigsOf w) (s.updCore c fun _ => k)).updCore c
        (trackWrites (bit s.seq.cfg 0) e)).updCore c (slotTaken (heldUntil s c e) e)) := by
    unfold takeCmd
    rw [goes]
    dsimp only [andSignals]
    rw [effect, heads.sigsOf_words]
    rfl
  have fired := fireSignals_fired c e.idx (sigsOf w) (s.updCore c fun _ => k)
  generalize fireSignals c e.idx (sigsOf w) (s.updCore c fun _ => k) = u at fired taken
  have core : u.core c = _ := fired.2.1
  rw [updCore_core, if_pos rfl] at core
  have slot := lastCommand_slotTaken (heldUntil s c e) (bit s.seq.cfg 0) c e rest u
    (by rw [core]; exact ahead.trans head) (by rw [core]; exact more.trans_eq words.symm)
  rw [← taken] at slot
  have runs : exec i s = .next (takeCmd (andSignals eff) c e s) := by rw [row, heads.issueRow_eq, heads.judgeCmd_sound _ sound]
  generalize takeCmd (andSignals eff) c e s = t at slot runs
  obtain ⟨reach, issued, quiet⟩ := slotTaken_signalled fired slot
  exact ⟨t, runs, reach, issued, fun silent => quiet (heads.sigsOf_words ▸ silent)⟩

end Sys2Proof.Machine

namespace Sys2Proof.Machine

/-! ## The issue unit (Table 3.6) -/

theorem updCore_self (s : State) (c : Fin 32) : (s.updCore c fun _ => s.core c) = s := by
  unfold State.updCore
  rw [cores_set_core]

/-- An effect that reads A of its words reads A of the row's words. -/
theorem opA_of_ready {op : Nat} {s : State} {c : Fin 32} {w : CmdWords} {e : LookEntry} {rest : List LookEntry}
    (ready : Claims.Ready op s c w e rest) : opA e.words = opA w := by
  obtain ⟨-, -, norm, -⟩ := ready
  rw [norm]
  rfl

theorem predOp_eq (op : Nat) (a b : Bool) :
    predOp op a b = if op = 0 then a && b else if op = 1 then a || b else if op = 2 then a != b else a && !b := by
  unfold predOp
  split
  · rfl
  · rfl
  · rfl
  · rename_i h0 h1 h2
    rw [if_neg h0, if_neg h1, if_neg h2]

theorem testCmp_eq (code v x : Nat) :
    testCmp code v x = if code = 0 then decide (x ≤ v) else if code = 1 then decide (v = x)
      else if code = 2 then decide (v < x) else decide (v ≠ x) := by
  unfold testCmp
  split
  · rfl
  · rfl
  · rfl
  · rename_i h0 h1 h2
    rw [if_neg h0, if_neg h1, if_neg h2]

/-- Settles O26: each effect is a write of the core's predicates, and its command issues by `issuesTo_of_core`. -/
theorem issueUnitCommands : Obligations.IssueUnitCommands := by
  intro s c w e rest
  refine ⟨fun ready => ?nop, fun ready => ?predSet, fun ready => ?predLogic, fun ready => ?testSync⟩
  case nop => exact issuesTo_of_core ready rfl _ (updCore_self s c).symm rfl rfl
  case predSet => exact issuesTo_of_core ready rfl _ (by unfold effPredSet; rw [opA_of_ready ready]; rfl) rfl rfl
  case predLogic =>
    refine issuesTo_of_core ready rfl _ ?_ rfl rfl
    unfold effPredLogic
    rw [opA_of_ready ready]
    change issuePred c (bits (opA w) 3 0) (predOp ..) s = _
    rw [predOp_eq]
    rfl
  case testSync =>
    refine issuesTo_of_core ready rfl _ ?_ rfl rfl
    unfold effTestSync
    rw [opA_of_ready ready]
    change issuePred c (bits (opA w) 3 0) (testCmp ..) s = _
    rw [testCmp_eq]
    rfl

/-! ## A command that is skipped (R76, R81) -/

theorem keepSkipped_ahead (lines : List Nat) (e : LookEntry) (k : Core) : (keepSkipped lines e k).ahead = k.ahead := by
  unfold keepSkipped; dsimp only; split <;> (try split) <;> rfl

theorem keepSkipped_blockWords (lines : List Nat) (e : LookEntry) (k : Core) : (keepSkipped lines e k).blockWords = k.blockWords := by
  unfold keepSkipped; dsimp only; split <;> (try split) <;> rfl

/-- Core `k` of a skipped command, before its signals. -/
def skippedCore (s : State) (c : Fin 32) (e : LookEntry) : Core :=
  keepSkipped (handLines s c e.words) e { s.core c with skipCount := (s.core c).skipCount + 1 }

theorem skipCmd_eq (s : State) (c : Fin 32) (e : LookEntry) :
    skipCmd c e s = if sosOf e.words = true then fireSignals c e.idx (sigsOf e.words) (s.updCore c fun _ => skippedCore s c e)
      else s.updCore c fun _ => skippedCore s c e := rfl

theorem takeCmd_skip (eff : Fin 32 → LookEntry → State → State) (c : Fin 32) (e : LookEntry) (s : State) (skip : e.skip = true) :
    takeCmd eff c e s =
      lastCommand c e (((skipCmd c e s).updCore c (trackWrites false e)).updCore c (slotTaken (heldUntil s c e) e)) := by
  have untracked : (skipCmd c e s).updCore c (trackWrites false e) = skipCmd c e s := updCore_self _ c
  unfold takeCmd
  rw [skip, untracked]
  rfl

/-- A skipped command takes its slot, and with SOS fires its signals. -/
theorem skipped_issues {s : State} {c : Fin 32} {w : CmdWords} {e : LookEntry} {rest : List LookEntry} (heads : Heads s c w e rest)
    (more : e.idx + nwordsOf e.words < (s.core c).blockWords) (eff : Fin 32 → LookEntry → State → State) (skip : e.skip = true) :
    ∃ t, takeCmd eff c e s = t ∧
      t = { s with cores := s.cores.set c (t.core c), fab := t.fab, clk := { s.clk with mesh := t.clk.mesh } } ∧
      (w.w0.getLsbD 22 = false ∨ Claims.rings (sigsOf w) = false → t.fab = s.fab ∧ t.clk = s.clk) ∧
      t.core c = Claims.Issued t c e rest
        (if w.w0.getLsbD 22 then Claims.Signalled t c (sigsOf w) (skippedCore s c e) else skippedCore s c e) := by
  have ahead : (skippedCore s c e).ahead = e :: rest := (keepSkipped_ahead ..).trans heads.ahead
  have words : (skippedCore s c e).blockWords = (s.core c).blockWords := keepSkipped_blockWords ..
  have slot (u : State) (a : (u.core c).ahead = e :: rest) (b : (u.core c).blockWords = (s.core c).blockWords) :=
    lastCommand_slotTaken (heldUntil s c e) false c e rest u a (more.trans_eq b.symm)
  refine ⟨_, takeCmd_skip eff c e s skip, ?_⟩
  rw [skipCmd_eq, heads.sosOf_words, heads.sigsOf_words]
  cases sos : w.w0.getLsbD 22 with
  | true =>
    have fired := fireSignals_fired c e.idx (sigsOf w) (s.updCore c fun _ => skippedCore s c e)
    have core := fired.2.1
    rw [updCore_core, if_pos rfl] at core
    obtain ⟨reach, issued, quiet⟩ := slotTaken_signalled fired
      (slot _ (by rw [core]; exact ahead) (by rw [core]; exact words))
    rw [if_pos rfl]
    exact ⟨reach, fun silent => (quiet (silent.resolve_left (by decide))).symm, issued⟩
  | false =>
    have core : (s.updCore c fun _ => skippedCore s c e).core c = skippedCore s c e := by rw [updCore_core, if_pos rfl]
    obtain ⟨reach, issued⟩ := slot (s.updCore c fun _ => skippedCore s c e) (by rw [core]; exact ahead) (by rw [core]; exact words)
    rw [if_neg (by decide)]
    rw [core] at issued
    generalize lastCommand c e _ = t at reach issued ⊢
    refine ⟨?_, fun _ => ?_, issued⟩
    · generalize t.core c = x at reach
      rw [reach]
      simp [State.updCore]
    · rw [reach]
      exact ⟨rfl, rfl⟩

/-- Settles O34: every row of the stream is an issue row (`exec_of_spelt`), and a skipped one takes its slot (`skipped_issues`). -/
theorem skippedCommandsHaveNoEffect : Obligations.SkippedCommandsHaveNoEffect := by
  intro s c w e rest i op spelt core opcode ahead words run now sound skip more entries
  obtain ⟨name, eff, row⟩ := exec_of_spelt i op w c spelt core
  subst opcode
  have heads : Heads s c w e rest := ⟨ahead, words, run, now, entries⟩
  obtain ⟨t, take, reach, quiet, issued⟩ := skipped_issues heads more eff skip
  refine ⟨t, ?_, reach, quiet, ?_⟩
  · rw [row, heads.issueRow_eq, heads.judgeCmd_sound _ sound, take]
  · rintro k rfl
    exact issued

/-! ## A command that fails a check (R90, R382) -/

theorem commandCauses_names (s : State) (c : Fin 32) (e : LookEntry) (x : HaltCause) (mem : x ∈ commandCauses s c e) :
    x.core = some c ∧ x.cmd = some e.idx := by
  unfold commandCauses at mem
  dsimp only at mem
  split at mem
  · simp_all
  · rcases List.mem_append.1 mem with field | later
    · split at field <;> simp_all
    · split at later
      · simp_all
      · rcases List.mem_append.1 later with done | format
        · split at done <;> simp_all
        · split at format <;> simp_all

theorem keepHalt_frame (h : HaltRec) (s : State) : ∃ f, keepHalt h s = { s with mgmt := { s.mgmt with halt := h }, fab := f } := by
  unfold keepHalt
  dsimp only
  split
  · exact ⟨s.fab, rfl⟩
  · rw [floodHalt_frame]
    exact ⟨_, rfl⟩

/-- `h` is the record of a halt of `s` by the command of `e`. -/
structure NamesCommand (s : State) (c : Fin 32) (e : LookEntry) (h : HaltRec) : Prop where
  valid : h.valid = true
  noCore : h.noCore = false
  core : h.core = BitVec.ofNat 5 c.val
  cmdValid : h.cmdValid = true
  cmdIndex : h.cmdIndex = BitVec.ofNat 13 e.idx
  cycle : s.clk.phase ≠ .wait → h.cycle = BitVec.ofNat 32 s.seq.cycle

/-- `t` is `s` halted by causes of the command of `e`. -/
def HaltedBy (c : Fin 32) (e : LookEntry) (s t : State) : Prop :=
  t = { s with mgmt := t.mgmt, seq := { s.seq with state := .halted, parked := false, suspended := false, suspendReq := none }
               clk := { s.clk with hold := none }
               pwr := { s.pwr with event := setBit s.pwr.event 0 true, eventNow := t.pwr.eventNow }
               fab := t.fab, host := t.host } ∧
  NamesCommand s c e t.mgmt.halt ∧ t.mgmt.haltCount = satInc s.mgmt.haltCount

theorem raiseHalt_halts (c : Fin 32) (e : LookEntry) (s : State) (x : HaltCause) (legs : s.seq.state = .running)
    (names : x.core = some c ∧ x.cmd = some e.idx) : HaltedBy c e s (raiseHalt x s) := by
  obtain ⟨core, cmd⟩ := names
  have live := raiseHalt_running x s (by rw [legs]; decide) (by rw [legs]; decide)
  generalize raiseHalt x s = t at live
  have halt : t.mgmt.halt = haltRecord x s := by rw [live]
  refine ⟨?_, ?_, by rw [live]⟩
  · generalize t.fab = f at live
    rw [live]
    rfl
  · rw [halt]
    refine ⟨rfl, ?_, ?_, ?_, ?_, fun cycle => ?_⟩
    · simp [haltRecord, core]
    · simp [haltRecord, core]
    · simp [haltRecord, cmd]
    · simp [haltRecord, cmd]
    · simp [haltRecord, legs, cycle]

/-- A further cause of the same command joins the record. -/
theorem raiseHalt_joins (c : Fin 32) (e : LookEntry) (s t : State) (x : HaltCause) (halted : HaltedBy c e s t)
    (names : x.core = some c ∧ x.cmd = some e.idx) : HaltedBy c e s (raiseHalt x t) := by
  obtain ⟨core, cmd⟩ := names
  obtain ⟨reach, record, count⟩ := halted
  have state : t.seq.state = .halted := by rw [reach]
  unfold raiseHalt
  rw [if_neg (by rw [state]; decide), if_pos state]
  split
  · unfold joinHalt
    dsimp only
    obtain ⟨f, kept⟩ := keepHalt_frame
      { (if outranks x t.mgmt.halt then
          { haltRecord x t with cycle := t.mgmt.halt.cycle, leg := t.mgmt.halt.leg, mark := t.mgmt.halt.mark, time := t.mgmt.halt.time
                                valid := t.mgmt.halt.valid }
        else t.mgmt.halt) with extra := satInc t.mgmt.halt.extra } t
    rw [kept]
    refine ⟨?_, ?_, count⟩
    · generalize t.mgmt = m at reach
      rw [reach]
    · obtain ⟨valid, noCore, named, cmdValid, cmdIndex, cycle⟩ := record
      split
      · exact ⟨valid, by simp [haltRecord, core], by simp [haltRecord, core], by simp [haltRecord, cmd], by simp [haltRecord, cmd], cycle⟩
      · exact ⟨valid, noCore, named, cmdValid, cmdIndex, cycle⟩
  · exact ⟨reach, record, count⟩

theorem raiseHalts_join (c : Fin 32) (e : LookEntry) (s : State) (l : List HaltCause)
    (names : ∀ x ∈ l, x.core = some c ∧ x.cmd = some e.idx) (t : State) (halted : HaltedBy c e s t) : HaltedBy c e s (foldS raiseHalt l t) := by
  induction l generalizing t with
  | nil => exact halted
  | cons x l ih =>
    exact ih (fun y h => names y (List.mem_cons_of_mem _ h)) _ (raiseHalt_joins c e s t x halted (names x List.mem_cons_self))

/-- All causes of a command that fails checks halt the die with a record that names it. -/
theorem raiseHalts_halt (c : Fin 32) (e : LookEntry) (s : State) (legs : s.seq.state = .running) (unsound : commandCauses s c e ≠ []) :
    HaltedBy c e s (foldS raiseHalt (commandCauses s c e) s) := by
  have names := commandCauses_names s c e
  generalize commandCauses s c e = l at unsound names
  cases l with
  | nil => exact absurd rfl unsound
  | cons x l =>
    exact raiseHalts_join c e s l (fun y h => names y (List.mem_cons_of_mem _ h)) _
      (raiseHalt_halts c e s x legs (names x List.mem_cons_self))

/-- Settles O33: the guards are those of every issue row; the causes of a failing command halt the die by `raiseHalts_halt`. -/
theorem everyStreamCommandIsGuarded : Obligations.EveryStreamCommandIsGuarded := by
  intro s i op w c spelt core
  obtain ⟨name, eff, row⟩ := exec_of_spelt i op w c spelt core
  simp only [row]
  refine ⟨fun misspelt => ⟨name, issueRow_of_misspelt _ _ _ _ _ s misspelt⟩, ?none, ?stopped, ?fails⟩
  case none =>
    rintro rfl
    exact issueRow_of_none_ahead _ _ _ _ s
  case stopped =>
    rintro rfl
    exact issueRow_of_stopped _ _ _ _ s
  case fails =>
    rintro e rest rfl ahead words run now entries unsound
    have heads : Heads s c w e rest := ⟨ahead, words, run, now, entries⟩
    rw [heads.issueRow_eq, judgeCmd_unsound _ c e s unsound]
    obtain ⟨reach, record, count⟩ := raiseHalts_halt c e s heads.legs unsound
    generalize foldS raiseHalt _ s = t at reach record count
    have at_ : t.core c = s.core c := by rw [reach]; rfl
    obtain ⟨valid, noCore, named, cmdValid, cmdIndex, cycle⟩ := record
    refine ⟨_, rfl, ?_, ?_, valid, noCore, named, cmdValid, cmdIndex, cycle, count⟩
    · rw [updCore_core, if_pos rfl]
      conv_lhs => unfold State.updCore
      generalize slotUsed e (t.core c) = k
      change { t with cores := t.cores.set c k } = { s with
        mgmt := t.mgmt, seq := _, clk := _, pwr := { s.pwr with event := _, eventNow := t.pwr.eventNow }, fab := t.fab, host := t.host, cores := _ }
      have cores : t.cores = s.cores := by rw [reach]
      rw [cores]
      rw [reach]
    · rw [updCore_core, if_pos rfl, at_]
      simp [slotUsed, ahead]

end Sys2Proof.Machine

namespace Sys2Proof.Machine

/-! ## Fields of wide registers -/

theorem getLsbD_setBits {n : Nat} (w : BitVec n) (hi lo v i : Nat) (h : i < n) :
    (setBits w hi lo v).getLsbD i = if lo ≤ i ∧ i ≤ hi then v.testBit (i - lo) else w.getLsbD i := by
  by_cases below : i < lo
  · have out : ¬ (lo ≤ i ∧ i ≤ hi) := by omega
    simp [setBits, h, below, out]
  · by_cases above : i ≤ hi
    · have inside : i - lo < hi + 1 - lo := by omega
      have field : lo ≤ i ∧ i ≤ hi := by omega
      have small : i - lo < n := by omega
      simp [setBits, h, below, field, inside, small, BitVec.getLsbD_ofNat, -BitVec.getLsbD_eq_getElem, Nat.testBit_two_pow_sub_one]
    · have outside : ¬ i - lo < hi + 1 - lo := by omega
      have field : ¬ (lo ≤ i ∧ i ≤ hi) := by omega
      simp [setBits, h, below, field, outside, BitVec.getLsbD_ofNat, -BitVec.getLsbD_eq_getElem, Nat.testBit_two_pow_sub_one]

theorem ofNat_bits {m : Nat} (w : BitVec m) (hi lo n : Nat) (h : hi + 1 - lo = n) : BitVec.ofNat n (bits w hi lo) = w.extractLsb' lo n := by
  rw [bits_eq_extract w hi lo n h, BitVec.ofNat_toNat, BitVec.setWidth_eq]

/-- A low field counts on, and the rest of its register stands. -/
theorem setBits_low_succ {k m : Nat} (w : BitVec (k + m)) (hi : Nat) (h : hi + 1 = m) :
    setBits w hi 0 (bits w hi 0 + 1) = w.extractLsb' m k ++ (w.extractLsb' 0 m + 1) := by
  have field : w.extractLsb' 0 m + 1 = BitVec.ofNat m (bits w hi 0 + 1) := by
    rw [BitVec.ofNat_add, ofNat_bits w hi 0 m h]
    rfl
  rw [field]
  apply BitVec.eq_of_getLsbD_eq
  intro i hi'
  rw [getLsbD_setBits _ _ _ _ _ hi', BitVec.getLsbD_append, BitVec.getLsbD_ofNat, BitVec.getLsbD_extractLsb']
  by_cases low : i < m
  · have inside : i ≤ hi := by omega
    simp [low, inside]
  · have outside : ¬ i ≤ hi := by omega
    have back : m + (i - m) = i := by omega
    simp [low, outside, back, show i - m < k by omega]

/-- The top 32-bit word of a register written, and the words below it. -/
theorem setWord_top {m : Nat} (w : BitVec (32 + m)) (i : Nat) (v : U32) (h : 32 * i = m) : setWord w i v = v ++ w.extractLsb' 0 m := by
  apply BitVec.eq_of_getLsbD_eq
  intro j hj
  unfold setWord
  rw [getLsbD_setBits _ _ _ _ _ hj, BitVec.getLsbD_append, BitVec.getLsbD_extractLsb']
  by_cases low : j < m
  · have outside : ¬ (32 * i ≤ j ∧ j ≤ 32 * i + 31) := by omega
    rw [if_neg outside]
    simp [low]
  · have inside : 32 * i ≤ j ∧ j ≤ 32 * i + 31 := by omega
    rw [if_pos inside]
    simp [low, h, BitVec.getLsbD]

theorem extract_ofNat (n v lo m : Nat) (h : lo + m ≤ n) : (BitVec.ofNat n v).extractLsb' lo m = BitVec.ofNat m (v / 2 ^ lo) := by
  apply BitVec.eq_of_getLsbD_eq
  intro i hi
  have wide : lo + i < n := by omega
  simp [hi, wide, BitVec.getLsbD_ofNat, -BitVec.getLsbD_eq_getElem, Nat.testBit_div_two_pow, Nat.add_comm]

theorem ofBytes_append (a b : List Byte) : ofBytes (a ++ b) = ofBytes a + 256 ^ a.length * ofBytes b := by
  induction a with
  | nil => simp [ofBytes]
  | cons x a ih =>
    rw [List.cons_append, ofBytes, ofBytes, ih, List.length_cons, Nat.pow_succ]
    ring

/-! ## Logging beside other changes (R389) -/

/-- What an entry makes of the management block comes from the block and the time alone. -/
theorem logErr_of_same (code : U16) (core : Option (Fin 32)) (d0 d1 : U64) (s t : State) (mgmt : t.mgmt = s.mgmt) (time : t.time = s.time) :
    logErr code core d0 d1 t = { t with mgmt := (logErr code core d0 d1 s).mgmt } := by
  have same : (logErr code core d0 d1 t).mgmt = (logErr code core d0 d1 s).mgmt := by
    cases last : s.mgmt.errLog.getLast? with
    | none => simp only [logErr, mgmt, time, last]
    | some e => cases core <;> (simp only [logErr, mgmt, time, last]; split <;> rfl)
  rw [logErr_frame, same]

/-! ## Reads of a core's registers on BAR0 (R40, R398, R401) -/

theorem coreReg_block (c : Fin 32) (r : Nat) (h : r < 65536) :
    0x100000 ≤ coreReg c r ∧ coreReg c r < 0x300000 ∧ coreOf ((coreReg c r - 0x100000) / 65536) = c ∧ coreReg c r % 65536 = r := by
  have number := c.isLt
  unfold coreReg
  refine ⟨by omega, by omega, Fin.ext ?_, by omega⟩
  change (1048576 + 65536 * c.val + r - 1048576) / 65536 % 32 = c.val
  omega

theorem coreReg_offset (c : Fin 32) (r k : Nat) (h : 0x100000 + r = k) : coreReg c r = k + 65536 * c.val := by
  unfold coreReg
  omega

/-- The offset of a core's register is no debug window's, and its LO halves are those of the block. -/
theorem isLo_coreReg (c : Fin 32) (r : Nat) (h : r < 65536) : isLo (coreReg c r) = coreLo r := by
  obtain ⟨low, high, -, block⟩ := coreReg_block c r h
  unfold isLo
  rw [block]
  have outside : [0x0C, 0x14, 0x10000, 0x10020, 0x10028, 0x20008, 0x20108, 0x20110, 0x20120, 0x20128, 0x20130, 0x800004, 0x800018, 0x800020,
      0x800028, 0x800034, 0x800044, 0x80004C, 0x80005C, 0x800080, 0x800090, 0xA00028, 0xA00030, 0xA00038, 0xA01020, 0xC00014,
      0xC0001C, 0xC00024, 0xC0002C, 0x600040, 0x600048].contains (coreReg c r) = false := by
    simp only [List.contains_eq_mem, decide_eq_false_iff_not, List.mem_cons, List.not_mem_nil, or_false, not_or]
    omega
  rw [outside, decide_eq_true low, decide_eq_true high, decide_eq_false (p := coreReg c r < 0x13000) (by omega),
    decide_eq_false (p := coreReg c r < 0x201C0) (by omega), decide_eq_false (p := 0x400000 ≤ coreReg c r) (by omega),
    decide_eq_false (p := 0x80F000 ≤ coreReg c r) (by omega), decide_eq_false (p := 0xC01000 ≤ coreReg c r) (by omega)]
  simp

theorem regValue_coreReg (s : State) (p : Path) (c : Fin 32) (r : Nat) (h : r < 65536) : regValue s p (coreReg c r) = coreRead s c r := by
  obtain ⟨low, high, core, block⟩ := coreReg_block c r h
  unfold regValue
  rw [if_neg (by omega), if_neg (by omega), if_neg (by omega), if_pos ⟨low, high⟩, core, block]

/-- Every offset is reached on BAR0 from RAMP on while the main rails are up, and on SMBus too (R361). -/
theorem reaches_up (s : State) (p : Path) (o : Nat) (standby : s.pwr.standbyOn = true) (main : s.pwr.mainOn = true)
    (link : s.linkPowered = true) : s.reaches p o = true := by
  simp [State.reaches, standby, main, link]

/-- What a read of a core's register does once the window's copy has left `u`: the value goes to the host, HI is latched after LO, and
CORE_BANK_DATA7 moves the pointer on. -/
def hostReadFrom (c : Fin 32) (r : Nat) (u : State) : State :=
  let t := windowStep c r (if coreLo r = true then Claims.latched (coreReg c (r + 4)) (coreRead u c (r + 4)) u else u)
  { t with host := { t.host with bar0Data := coreRead u c r } }

/-- A read of a core's register with nothing latched and nothing sealed. -/
theorem hostRead_coreReg (s : State) (c : Fin 32) (r : Nat) (h : r + 4 < 65536) (reached : ∀ o, s.reaches .bar0 o = true)
    (unsealed : s.isSealed = false) (free : tget none s.mgmt.bar0.latch (coreReg c r) = none) :
    hostRead_ (coreReg c r) s = hostReadFrom c r (windowCopy c r s) := by
  obtain ⟨low, high, core, block⟩ := coreReg_block c r (by omega)
  have value (t : State) : regValue t .bar0 (coreReg c r) = coreRead t c r := regValue_coreReg t .bar0 c r (by omega)
  have next (t : State) : regValue t .bar0 (coreReg c r + 4) = coreRead t c (r + 4) := regValue_coreReg t .bar0 c (r + 4) h
  have held : tget none ((windowCopy c r s).pathRegs .bar0).latch (coreReg c r) = none := by
    unfold windowCopy
    split <;> exact free
  have read : regRead .bar0 (coreReg c r) s = (coreRead (windowCopy c r s) c r, windowStep c r
      (if coreLo r = true then Claims.latched (coreReg c (r + 4)) (coreRead (windowCopy c r s) c (r + 4)) (windowCopy c r s)
        else windowCopy c r s)) := by
    unfold regRead
    dsimp only
    rw [if_neg (by simp [reached]), if_neg (by omega), if_neg (by simp [unsealed]), decide_eq_true low, decide_eq_true high, core, block,
      isLo_coreReg c r (by omega)]
    simp only [Bool.and_self, if_true, held, value, next, Option.getD_none, Option.isSome_none, Bool.false_eq_true, if_false]
    rfl
  unfold hostRead_
  rw [read]
  rfl

/-- A read of a sealed register of a core is all ones and is logged; CORE_BANK_DATA7 moves its pointer on all the same (R398). -/
theorem hostRead_sealed (s : State) (c : Fin 32) (r : Nat) (h : r < 65536) (reached : ∀ o, s.reaches .bar0 o = true)
    (isSealed : s.isSealed = true) (reg : sealedReg (coreReg c r) = true) :
    hostRead_ (coreReg c r) s = { logErr errStateSealed none (BitVec.ofNat 64 (coreReg c r)) 0 (windowStep c r s) with
      host := { (windowStep c r s).host with bar0Data := 0xFFFFFFFF } } := by
  obtain ⟨low, high, core, block⟩ := coreReg_block c r h
  unfold hostRead_ regRead
  dsimp only
  rw [if_neg (by simp [reached]), if_neg (by omega), if_pos ⟨reg, isSealed⟩, decide_eq_true low, decide_eq_true high, core, block]
  simp only [Bool.and_self, if_true]
  rw [logErr_frame]

theorem bankStep_eq (k : Core) : bankStep k = { k with bankPtr := k.bankPtr.extractLsb' 13 19 ++ (k.bankPtr.extractLsb' 0 13 + 1) } := by
  unfold bankStep
  rw [setBits_low_succ (k := 19) (m := 13) k.bankPtr 12 rfl]

end Sys2Proof.Machine

namespace Sys2Proof.Machine

/-! ## The data windows on BAR0 (R98, R227, R261) -/

theorem ofBytes_buoy (b : Buoy) : ∃ n, ofBytes (buoyBytes b) = b.addr.toNat + 2 ^ 64 * (b.value.toNat + 2 ^ 64 * n) := by
  have field (x : U64) (l : List Byte) : ofBytes (toBytes 8 x.toNat ++ l) = x.toNat + 2 ^ 64 * ofBytes l := by
    rw [ofBytes_append, ofBytes_toBytes, toBytes_length]
    exact congrArg (· + _) (Nat.mod_eq_of_lt x.isLt)
  unfold buoyBytes
  simp only [List.append_assoc]
  rw [field, field]
  exact ⟨_, rfl⟩

/-- A buoy's record begins with its address and its value (Table 9.7). -/
theorem buoyRecord_fields (b : Buoy) :
    (BitVec.ofNat 384 (ofBytes (buoyBytes b))).extractLsb' 0 64 = b.addr ∧
    (BitVec.ofNat 384 (ofBytes (buoyBytes b))).extractLsb' 64 64 = b.value := by
  obtain ⟨n, bytes⟩ := ofBytes_buoy b
  have addr := b.addr.isLt
  have value := b.value.isLt
  rw [extract_ofNat _ _ _ _ (by decide), extract_ofNat _ _ _ _ (by decide), bytes]
  refine ⟨?_, ?_⟩ <;> apply BitVec.eq_of_toNat_eq <;> rw [BitVec.toNat_ofNat] <;> omega

theorem coreRead_bankData0 (s : State) (c : Fin 32) : coreRead s c 0x40 = (s.core c).bankData.extractLsb' 0 32 := rfl
theorem coreRead_bankData7 (s : State) (c : Fin 32) : coreRead s c 0x5C = (s.core c).bankData.extractLsb' 224 32 := rfl
theorem coreRead_descData0 (s : State) (c : Fin 32) : coreRead s c 0x4C0 = (s.core c).descData.extractLsb' 0 32 := rfl
theorem coreRead_buoyData0 (s : State) (c : Fin 32) : coreRead s c 0x540 = (s.core c).buoyData.extractLsb' 0 32 := rfl
theorem coreRead_buoyData1 (s : State) (c : Fin 32) : coreRead s c 0x544 = (s.core c).buoyData.extractLsb' 32 32 := rfl
theorem coreRead_queryMaskLo (s : State) (c : Fin 32) : coreRead s c 0x510 = (queryMask (s.core c)).extractLsb' 0 32 := rfl
theorem coreRead_queryMaskHi (s : State) (c : Fin 32) : coreRead s c 0x514 = (s.core c).queryMask.extractLsb' 32 32 := rfl
theorem coreRead_epData0 (s : State) (c : Fin 32) : coreRead s c 0x640 = (s.core c).epData.extractLsb' 0 32 := rfl

/-- A register that is no LO half, read from `u`: its value goes to the host. -/
theorem hostReadFrom_plain (c : Fin 32) (r : Nat) (u : State) (plain : coreLo r = false) (still : r ≠ 0x5C) :
    hostReadFrom c r u = { u with host := { u.host with bar0Data := coreRead u c r } } := by
  unfold hostReadFrom windowStep
  rw [plain, if_neg still]
  rfl

/-- A LO half, read from `u`: its HI half is latched for the next read (R405). -/
theorem hostReadFrom_lo (c : Fin 32) (r : Nat) (u : State) (lo : coreLo r = true) (still : r ≠ 0x5C) :
    hostReadFrom c r u = { Claims.latched (coreReg c (r + 4)) (coreRead u c (r + 4)) u with
      host := { u.host with bar0Data := coreRead u c r } } := by
  unfold hostReadFrom windowStep
  rw [if_pos lo, if_neg still]
  rfl

theorem updCore_bankStep (s : State) (c : Fin 32) : s.updCore c bankStep =
    s.updCore c fun k => { k with bankPtr := k.bankPtr.extractLsb' 13 19 ++ (k.bankPtr.extractLsb' 0 13 + 1) } :=
  congrArg (s.updCore c) (funext bankStep_eq)

/-! What the first register of each window copies. -/

def Core.bankCopied (k : Core) : Core :=
  { k with bankData := tget 0 (k.bank (k.bankPtr.extractLsb' 13 1).toNat) (k.bankPtr.extractLsb' 0 13).toNat }
def Core.descCopied (k : Core) (i : BitVec 11) : Core :=
  { k with
    descData := tget 0 k.descs i.toNat, descState := Machine.descState k i, descLead := BitVec.ofNat 32 (k.stream i).lead
    descHanded := BitVec.ofNat 32 (k.stream i).handed, descFreed := BitVec.ofNat 32 (k.stream i).freed }
def Core.buoyCopied (k : Core) (i : BitVec 6) : Core := { k with buoyData := BitVec.ofNat 384 (ofBytes (buoyBytes (k.buoy i))) }
def Core.epCopied (k : Core) (i : BitVec 7) : Core := { k with epData := (k.ep i).desc, epLatch := k.ep i }

theorem windowCopy_bank (s : State) (c : Fin 32) : windowCopy c 0x40 s = s.updCore c Core.bankCopied := rfl

theorem windowCopy_desc (s : State) (c : Fin 32) :
    windowCopy c 0x4C0 s = s.updCore c fun k => k.descCopied (k.descPtr.extractLsb' 0 11) := by
  have field (k : Core) := ofNat_bits k.descPtr 10 0 11 rfl
  simp only [← field]
  rfl

theorem windowCopy_buoy (s : State) (c : Fin 32) :
    windowCopy c 0x540 s = s.updCore c fun k => k.buoyCopied (k.buoyPtr.extractLsb' 0 6) := by
  have field (k : Core) := ofNat_bits k.buoyPtr 5 0 6 rfl
  simp only [← field]
  rfl

theorem windowCopy_mask (s : State) (c : Fin 32) :
    windowCopy c 0x510 s = s.updCore c fun k => { k with queryMask := queryMask (s.core c) } := by
  have copy : windowCopy c 0x510 s = s.updCore c fun k => { k with queryMask := queryMask k } := rfl
  rw [copy]
  unfold State.updCore
  dsimp only

/-- The copy does not change what the query finds. -/
theorem queryMask_copied (k : Core) (m : U64) : queryMask { k with queryMask := m } = queryMask k := rfl

theorem windowCopy_ep (s : State) (c : Fin 32) :
    windowCopy c 0x640 s = s.updCore c fun k => k.epCopied (k.epPtr.extractLsb' 0 7) := by
  have field (k : Core) := ofNat_bits k.epPtr 6 0 7 rfl
  simp only [← field]
  rfl

section
variable {s : State} {c : Fin 32} (reached : ∀ o, s.reaches .bar0 o = true) (unsealed : s.isSealed = false)
  (free : ∀ o < 0x660, tget none s.mgmt.bar0.latch (coreReg c o) = none)
include reached unsealed free

theorem coreBankData0Read_open : exec (.coreBankData0Read c) s =
    (let w := tget 0 ((s.core c).bank ((s.core c).bankPtr.extractLsb' 13 1).toNat) ((s.core c).bankPtr.extractLsb' 0 13).toNat
     let t := s.updCore c fun k => { k with bankData := w }
     .next { t with host := { t.host with bar0Data := w.extractLsb' 0 32 } }) := by
  change Host.Outcome.next (hostRead_ (coreReg c 0x40) s) = _
  rw [hostRead_coreReg s c 0x40 (by decide) reached unsealed (free _ (by decide)), windowCopy_bank,
    hostReadFrom_plain c 0x40 _ rfl (by decide), coreRead_bankData0, updCore_core, if_pos rfl]
  rfl

theorem coreBankData7Read_open : exec (.coreBankData7Read c) s =
    (let t := s.updCore c fun k => { k with bankPtr := k.bankPtr.extractLsb' 13 19 ++ (k.bankPtr.extractLsb' 0 13 + 1) }
     .next { t with host := { t.host with bar0Data := (s.core c).bankData.extractLsb' 224 32 } }) := by
  have step : hostReadFrom c 0x5C s =
      { s.updCore c bankStep with host := { s.host with bar0Data := coreRead s c 0x5C } } := rfl
  change Host.Outcome.next (hostRead_ (coreReg c 0x5C) s) = _
  rw [hostRead_coreReg s c 0x5C (by decide) reached unsealed (free _ (by decide))]
  change Host.Outcome.next (hostReadFrom c 0x5C s) = _
  rw [step, coreRead_bankData7, updCore_bankStep]
  rfl

theorem streamDescData0Read_open : exec (.streamDescData0Read c) s =
    (let i : BitVec 11 := (s.core c).descPtr.extractLsb' 0 11
     let st := (s.core c).stream i
     let t := s.updCore c fun k => { k with
       descData := tget 0 k.descs i.toNat, descState := Machine.descState k i, descLead := BitVec.ofNat 32 st.lead
       descHanded := BitVec.ofNat 32 st.handed, descFreed := BitVec.ofNat 32 st.freed }
     .next { t with host := { t.host with bar0Data := (tget 0 (s.core c).descs i.toNat).extractLsb' 0 32 } }) := by
  change Host.Outcome.next (hostRead_ (coreReg c 0x4C0) s) = _
  rw [hostRead_coreReg s c 0x4C0 (by decide) reached unsealed (free _ (by decide)), windowCopy_desc,
    hostReadFrom_plain c 0x4C0 _ rfl (by decide), coreRead_descData0, updCore_core, if_pos rfl]
  rfl

theorem buoyData0Read_open : ∃ t : State, exec (.buoyData0Read c) s = .next t ∧
    t = { Claims.latched (0x100544 + 65536 * c.val) ((t.core c).buoyData.extractLsb' 32 32) s with
      host := { s.host with bar0Data := t.host.bar0Data }, cores := t.cores } ∧
    t.core c = { s.core c with buoyData := (t.core c).buoyData } ∧ (∀ d, d ≠ c → t.core d = s.core d) ∧
    (t.core c).buoyData.extractLsb' 0 64 = ((s.core c).buoy ((s.core c).buoyPtr.extractLsb' 0 6)).addr ∧
    (t.core c).buoyData.extractLsb' 64 64 = ((s.core c).buoy ((s.core c).buoyPtr.extractLsb' 0 6)).value ∧
    t.host.bar0Data = (t.core c).buoyData.extractLsb' 0 32 := by
  rw [← coreReg_offset c 0x544 0x100544 rfl]
  have read := hostRead_coreReg s c 0x540 (by decide) reached unsealed (free _ (by decide))
  rw [windowCopy_buoy, hostReadFrom_lo c 0x540 _ rfl (by decide), coreRead_buoyData0, coreRead_buoyData1] at read
  have core (d : Fin 32) : (hostRead_ (coreReg c 0x540) s).core d =
      if d = c then (s.core c).buoyCopied ((s.core c).buoyPtr.extractLsb' 0 6) else s.core d := by
    rw [read]
    exact updCore_core s c d fun k => k.buoyCopied (k.buoyPtr.extractLsb' 0 6)
  obtain ⟨addr, value⟩ := buoyRecord_fields ((s.core c).buoy ((s.core c).buoyPtr.extractLsb' 0 6))
  refine ⟨_, rfl, by rw [read]; rfl, ?_, fun d other => (core d).trans (if_neg other), ?_, ?_, by rw [read]; rfl⟩
  · rw [core c, if_pos rfl]
    rfl
  · rw [core c, if_pos rfl]
    exact addr
  · rw [core c, if_pos rfl]
    exact value

theorem bellQueryMaskLoRead_open : exec (.bellQueryMaskLoRead c) s =
    (let m := queryMask (s.core c)
     let t := Claims.latched (0x100514 + 65536 * c.val) (m.extractLsb' 32 32) (s.updCore c fun k => { k with queryMask := m })
     .next { t with host := { t.host with bar0Data := m.extractLsb' 0 32 } }) := by
  rw [← coreReg_offset c 0x514 0x100514 rfl]
  change Host.Outcome.next (hostRead_ (coreReg c 0x510) s) = _
  rw [hostRead_coreReg s c 0x510 (by decide) reached unsealed (free _ (by decide)), windowCopy_mask,
    hostReadFrom_lo c 0x510 _ rfl (by decide), coreRead_queryMaskLo, coreRead_queryMaskHi, updCore_core, if_pos rfl, queryMask_copied]
  rfl

theorem chEpData0Read_open : exec (.chEpData0Read c) s =
    (let e := (s.core c).ep ((s.core c).epPtr.extractLsb' 0 7)
     let t := s.updCore c fun k => { k with epData := e.desc, epLatch := e }
     .next { t with host := { t.host with bar0Data := e.desc.extractLsb' 0 32 } }) := by
  change Host.Outcome.next (hostRead_ (coreReg c 0x640) s) = _
  rw [hostRead_coreReg s c 0x640 (by decide) reached unsealed (free _ (by decide)), windowCopy_ep,
    hostReadFrom_plain c 0x640 _ rfl (by decide), coreRead_epData0, updCore_core, if_pos rfl]
  rfl

end

/-! ## The sealed state (R398) -/

theorem coreBankData0Read_sealed (s : State) (c : Fin 32) (reached : ∀ o, s.reaches .bar0 o = true) (shut : s.isSealed = true) :
    exec (.coreBankData0Read c) s =
      .next (let t := logErr errStateSealed none (BitVec.ofNat 64 (0x100040 + 65536 * c.val)) 0 s
        { t with host := { t.host with bar0Data := 0xFFFFFFFF } }) := by
  rw [← coreReg_offset c 0x40 0x100040 rfl]
  obtain ⟨low, high, -, block⟩ := coreReg_block c 0x40 (by decide)
  have reg : sealedReg (coreReg c 0x40) = true := by simp [sealedReg, block, low, high]
  have host : (logErr errStateSealed none (BitVec.ofNat 64 (coreReg c 0x40)) 0 s).host = s.host := by rw [logErr_frame]
  change Host.Outcome.next (hostRead_ (coreReg c 0x40) s) = _
  rw [hostRead_sealed s c 0x40 (by decide) reached shut reg]
  dsimp only
  rw [host]
  rfl

theorem coreBankData7Read_sealed (s : State) (c : Fin 32) (reached : ∀ o, s.reaches .bar0 o = true) (shut : s.isSealed = true) :
    exec (.coreBankData7Read c) s =
      .next { logErr errStateSealed none (BitVec.ofNat 64 (0x10005C + 65536 * c.val)) 0
        (s.updCore c fun k => { k with bankPtr := k.bankPtr.extractLsb' 13 19 ++ (k.bankPtr.extractLsb' 0 13 + 1) }) with
        host := { s.host with bar0Data := 0xFFFFFFFF } } := by
  rw [← coreReg_offset c 0x5C 0x10005C rfl]
  obtain ⟨low, high, -, block⟩ := coreReg_block c 0x5C (by decide)
  have reg : sealedReg (coreReg c 0x5C) = true := by simp [sealedReg, block, low, high]
  have step : (s.updCore c fun k => { k with bankPtr := k.bankPtr.extractLsb' 13 19 ++ (k.bankPtr.extractLsb' 0 13 + 1) }) =
      windowStep c 0x5C s := by
    exact (updCore_bankStep s c).symm
  change Host.Outcome.next (hostRead_ (coreReg c 0x5C) s) = _
  rw [hostRead_sealed s c 0x5C (by decide) reached shut reg, step]
  rfl

/-! ## Writes of the windows' last registers (R89, R98, R227, R253) -/

theorem bankWritable_iff (s : State) (c : Fin 32) : bankWritable s c = true ↔ s.pwr.retained = false ∧
    ¬ ((s.seq.state = .running ∨ s.seq.state = .gated) ∧
      (((s.core c).bankPtr.extractLsb' 13 1).toNat = s.seq.legMark.toNat % 2 ∨ (s.core c).helmDone = false)) := by
  have bank : bits (s.core c).bankPtr 13 13 = ((s.core c).bankPtr.extractLsb' 13 1).toNat := rfl
  unfold bankWritable
  dsimp only
  rw [bank]
  cases s.seq.state <;> simp

theorem bankWord_eq (x : U32) : bits x 13 0 = 8192 * (x.extractLsb' 13 1).toNat + (x.extractLsb' 0 13).toNat := by
  unfold bits
  simp only [BitVec.extractLsb'_toNat, Nat.shiftRight_eq_div_pow]
  omega

theorem logErr_updCore (code : U16) (core : Option (Fin 32)) (d0 d1 : U64) (s : State) (c : Fin 32) (f : Core → Core) :
    logErr code core d0 d1 (s.updCore c f) = (logErr code core d0 d1 s).updCore c f := by
  rw [logErr_of_same code core d0 d1 s (s.updCore c f) rfl rfl, logErr_frame code core d0 d1 s]
  rfl

/-- Core `k` after a write of `v` to CORE_BANK_DATA7. -/
def Core.bankFilled (k : Core) (v : U32) : Core := { k with bankData := v ++ k.bankData.extractLsb' 0 224 }

theorem bankStep_setBank (k : Core) (v : U32) (n : Nat) (t : Tbl W256) : bankStep ((k.bankFilled v).setBank n t) =
    { k.setBank n t with
      bankData := v ++ k.bankData.extractLsb' 0 224
      bankPtr := k.bankPtr.extractLsb' 13 19 ++ (k.bankPtr.extractLsb' 0 13 + 1) } := by
  rw [bankStep_eq]
  unfold Core.setBank
  split <;> rfl

theorem coreBankData7Write_eq (s : State) (c : Fin 32) (v : U32) (main : s.pwr.mainOn = true) : exec (.coreBankData7Write c v) s =
    (let word := v ++ (s.core c).bankData.extractLsb' 0 224
     let n := ((s.core c).bankPtr.extractLsb' 13 1).toNat
     let w := ((s.core c).bankPtr.extractLsb' 0 13).toNat
     let next := (s.core c).bankPtr.extractLsb' 13 19 ++ ((s.core c).bankPtr.extractLsb' 0 13 + 1)
     let put := s.updCore c fun k => { (k.setBank n (tset 0 (k.bank n) w word)) with bankData := word, bankPtr := next }
     let drop := s.updCore c fun k => { k with bankData := word, bankPtr := next }
     let legRuns := s.seq.state = .running ∨ s.seq.state = .gated
     .next (if s.pwr.retained = true then drop
       else if legRuns ∧ (n = s.seq.legMark.toNat % 2 ∨ (s.core c).helmDone = false) then
         logErr errReloadActive (some c) (BitVec.ofNat 64 (8192 * n + w)) 0 drop
       else put)) := by
  have filled : (s.updCore c fun k => { k with bankData := setWord k.bankData 7 v }) = s.updCore c fun k => k.bankFilled v := by
    unfold State.updCore
    dsimp only
    rw [setWord_top (m := 224) (s.core c).bankData 7 v rfl]
    rfl
  have core : (s.updCore c fun k => k.bankFilled v).core c = (s.core c).bankFilled v := by rw [updCore_core, if_pos rfl]
  have pwr : (s.updCore c fun k => k.bankFilled v).pwr = s.pwr := rfl
  have seq : (s.updCore c fun k => k.bankFilled v).seq = s.seq := rfl
  have writable := bankWritable_iff (s.updCore c fun k => k.bankFilled v) c
  rw [core, pwr, seq] at writable
  have dropped : (s.updCore c fun k => k.bankFilled v).updCore c bankStep = s.updCore c fun k => { k with
      bankData := v ++ (s.core c).bankData.extractLsb' 0 224
      bankPtr := (s.core c).bankPtr.extractLsb' 13 19 ++ ((s.core c).bankPtr.extractLsb' 0 13 + 1) } := by
    rw [updCore_updCore]
    unfold State.updCore
    dsimp only
    rw [bankStep_eq]
    rfl
  change execCoreBankData7Write c v s = _
  unfold execCoreBankData7Write
  rw [if_neg (by simp [main])]
  dsimp only
  rw [filled, core, pwr]
  by_cases retained : s.pwr.retained = true
  · have closed : ¬ bankWritable (s.updCore c fun k => k.bankFilled v) c = true := fun h => absurd retained (by simpa using (writable.1 h).1)
    rw [if_neg closed, if_pos retained, if_pos retained, dropped]
  · by_cases active : (s.seq.state = .running ∨ s.seq.state = .gated) ∧
        (((s.core c).bankPtr.extractLsb' 13 1).toNat = s.seq.legMark.toNat % 2 ∨ (s.core c).helmDone = false)
    · have closed : ¬ bankWritable (s.updCore c fun k => k.bankFilled v) c = true := fun h => (writable.1 h).2 active
      rw [if_neg closed, if_neg retained, if_neg retained, if_pos active, ← dropped,
        logErr_updCore _ _ _ _ (s.updCore c fun k => k.bankFilled v) c bankStep, ← bankWord_eq]
      rfl
    · have taken : bankWritable (s.updCore c fun k => k.bankFilled v) c = true := writable.2 ⟨by simpa using retained, active⟩
      rw [if_pos taken, if_neg retained, if_neg active, updCore_updCore, updCore_updCore]
      unfold State.updCore
      dsimp only
      rw [bankStep_setBank]
      rfl

theorem streamDescData15Write_eq (s : State) (c : Fin 32) (v : U32) (main : s.pwr.mainOn = true) : exec (.streamDescData15Write c v) s =
    (let d := v ++ (s.core c).descData.extractLsb' 0 480
     .next (s.updCore c fun k => { k with
       descData := d
       descs := if s.seq.state = .empty then tset 0 k.descs (k.descPtr.extractLsb' 0 11).toNat d else k.descs })) := by
  have data := setWord_top (m := 480) (s.core c).descData 15 v rfl
  change execStreamDescData15Write c v s = _
  unfold execStreamDescData15Write
  rw [if_neg (by simp [main])]
  unfold State.updCore
  dsimp only
  rw [data]
  split <;> rfl

theorem chEpData7Write_eq (s : State) (c : Fin 32) (v : U32) (main : s.pwr.mainOn = true) : exec (.chEpData7Write c v) s =
    (let d := v ++ (s.core c).epData.extractLsb' 0 224
     .next (if s.seq.state = .halted then s else s.updCore c fun k =>
       { (k.updEp (k.epPtr.extractLsb' 0 7) fun e => { e with staged := some d }) with epData := d })) := by
  have data := setWord_top (m := 224) (s.core c).epData 7 v rfl
  have field := ofNat_bits (s.core c).epPtr 6 0 7 rfl
  change execChEpData7Write c v s = _
  unfold execChEpData7Write
  by_cases halted : s.seq.state = .halted
  · rw [if_pos (.inr halted)]
    dsimp only
    rw [if_pos halted]
  · rw [if_neg (by simp [main, halted])]
    dsimp only
    rw [if_neg halted]
    unfold State.updCore
    dsimp only
    rw [data, field]
    rfl

/-! ## The debug window (R398, R399) -/

theorem regRead_debug (s : State) (p : Path) (i : Nat) (h : i < 8) (reached : ∀ o, s.reaches p o = true) :
    regRead p (0xC00120 + 4 * i) s = dbgRead p i s := by
  unfold regRead
  dsimp only
  rw [if_neg (by simp [reached]), if_pos (by omega)]
  congr 1
  omega

theorem dbgRead_closed (s : State) (p : Path) (i : Nat) (unsealed : s.isSealed = false) (running : s.pwr.retained = false) :
    dbgRead p i s = (0xFFFFFFFF, s) := by
  simp [dbgRead, unsealed, running]

/-- The window's word copied on a path. -/
def State.debugCopied (s : State) (p : Path) : State := s.updRegs p fun r => { r with dbgData := dbgWord s r.dbgPtr }

theorem dbgRead_first (s : State) (p : Path) (unsealed : s.isSealed = false) (retained : s.pwr.retained = true) :
    dbgRead p 0 s = ((dbgWord s (s.pathRegs p).dbgPtr).extractLsb' 0 32, s.debugCopied p) := by
  unfold dbgRead
  rw [if_neg (by simp [unsealed]), if_neg (by simp [retained])]
  cases p <;> rfl

theorem dbgRead_last (s : State) (p : Path) (unsealed : s.isSealed = false) (retained : s.pwr.retained = true) :
    dbgRead p 7 s = ((s.pathRegs p).dbgData.extractLsb' 224 32, s.updRegs p fun r => { r with
      dbgPtr := r.dbgPtr.extractLsb' 20 12 ++ (r.dbgPtr.extractLsb' 0 20 + 1) }) := by
  have step (r : PathRegs) := setBits_low_succ (k := 12) (m := 20) r.dbgPtr 19 rfl
  unfold dbgRead
  rw [if_neg (by simp [unsealed]), if_neg (by simp [retained])]
  simp only [step]
  rfl

/-- What the last read on a path returned. -/
def State.readOn (t : State) : Path → U32
  | .bar0 => t.host.bar0Data
  | .smbus => t.mgmt.smbus.data

theorem dbgData0Read_retained (s : State) (p : Path) (reached : ∀ o, s.reaches p o = true) (unsealed : s.isSealed = false)
    (retained : s.pwr.retained = true) :
    ∃ t : State, exec (.dbgData0Read p) s = .next t ∧ (t.pathRegs p).dbgData = dbgWord s (s.pathRegs p).dbgPtr ∧
      (t.pathRegs p).dbgPtr = (s.pathRegs p).dbgPtr ∧ t.cores = s.cores ∧ t.dram = s.dram ∧ t.seq = s.seq ∧
      t.readOn p = (dbgWord s (s.pathRegs p).dbgPtr).extractLsb' 0 32 := by
  have read := (regRead_debug s p 0 (by decide) reached).trans (dbgRead_first s p unsealed retained)
  change ∃ t, Host.Outcome.next (pathRead p 0xC00120 s) = .next t ∧ _
  cases p with
  | bar0 =>
    change ∃ t, Host.Outcome.next (hostRead_ 0xC00120 s) = .next t ∧ _
    unfold hostRead_
    rw [read]
    exact ⟨_, rfl, rfl, rfl, rfl, rfl, rfl, rfl⟩
  | smbus =>
    change ∃ t, Host.Outcome.next ((regRead .smbus 0xC00120 s).2.updRegs .smbus fun r => { r with data := (regRead .smbus 0xC00120 s).1 }) =
      .next t ∧ _
    rw [read]
    exact ⟨_, rfl, rfl, rfl, rfl, rfl, rfl, rfl⟩

theorem dbgData7Read_retained (s : State) (p : Path) (reached : ∀ o, s.reaches p o = true) (unsealed : s.isSealed = false)
    (retained : s.pwr.retained = true) :
    ∃ t : State, exec (.dbgData7Read p) s = .next t ∧ (t.pathRegs p).dbgData = (s.pathRegs p).dbgData ∧
      (t.pathRegs p).dbgPtr = (s.pathRegs p).dbgPtr.extractLsb' 20 12 ++ ((s.pathRegs p).dbgPtr.extractLsb' 0 20 + 1) ∧
      t.cores = s.cores ∧ t.dram = s.dram ∧ t.seq = s.seq := by
  have read := (regRead_debug s p 7 (by decide) reached).trans (dbgRead_last s p unsealed retained)
  change ∃ t, Host.Outcome.next (pathRead p 0xC0013C s) = .next t ∧ _
  cases p with
  | bar0 =>
    change ∃ t, Host.Outcome.next (hostRead_ 0xC0013C s) = .next t ∧ _
    unfold hostRead_
    rw [read]
    exact ⟨_, rfl, rfl, rfl, rfl, rfl, rfl⟩
  | smbus =>
    change ∃ t, Host.Outcome.next ((regRead .smbus 0xC0013C s).2.updRegs .smbus fun r => { r with data := (regRead .smbus 0xC0013C s).1 }) =
      .next t ∧ _
    rw [read]
    exact ⟨_, rfl, rfl, rfl, rfl, rfl, rfl⟩

/-- Without a retained state the window reads all ones. -/
theorem debugReads_closed (s : State) (reached : ∀ o, s.reaches .bar0 o = true) (unsealed : s.isSealed = false)
    (running : s.pwr.retained = false) : ∀ c ∈ [Instr.dbgData0Read .bar0, Instr.dbgData7Read .bar0],
      exec c s = .next { s with host := { s.host with bar0Data := 0xFFFFFFFF } } := by
  have read (i : Nat) (h : i < 8) : hostRead_ (0xC00120 + 4 * i) s = { s with host := { s.host with bar0Data := 0xFFFFFFFF } } := by
    unfold hostRead_
    rw [regRead_debug s .bar0 i h reached, dbgRead_closed s .bar0 i unsealed running]
  intro c mem
  rw [List.mem_pair] at mem
  obtain rfl | rfl := mem
  · exact congrArg Host.Outcome.next (read 0 (by decide))
  · exact congrArg Host.Outcome.next (read 7 (by decide))

end Sys2Proof.Machine

namespace Sys2Proof.Machine

/-! ## How BAR2 answers (R323, R371, R398) -/

/-- A READY module whose BAR2 neither a kill nor a seal closes. -/
structure Bar2Open (s : State) : Prop where
  main : s.pwr.mainOn = true
  ready : s.pwr.phase = .ready
  live : s.pwr.retained = false
  noKill : s.pwr.killPending = false
  unsealed : s.isSealed = false

theorem bar2Answer_mapped (s : State) (off n : Nat) (write : Bool) (free : Bar2Open s) (pos : 1 ≤ n) (few : n ≤ 4096)
    (mapped : ∀ i, i < n → placeOf s (bar2Space s) (off + i) ≠ .none) : bar2Answer s off n write = .served := by
  have all : ((List.range n).any fun i => placeOf s (bar2Space s) (off + i) == .none) = false := by
    simpa [List.any_eq_false] using mapped
  have nonzero : n ≠ 0 := by omega
  simp [bar2Answer, free.ready, free.main, free.live, free.noKill, free.unsealed, all, nonzero, few]

theorem bar2Answer_unmapped (s : State) (off n : Nat) (write : Bool) (free : Bar2Open s) (pos : 1 ≤ n) (few : n ≤ 4096)
    (hole : ∃ i, i < n ∧ placeOf s (bar2Space s) (off + i) = .none) : bar2Answer s off n write = .logged errBar2Unmapped := by
  have any : ((List.range n).any fun i => placeOf s (bar2Space s) (off + i) == .none) = true := by
    simpa [List.any_eq_true] using hole
  have nonzero : n ≠ 0 := by omega
  simp [bar2Answer, free.ready, free.main, any, nonzero, few]

/-! ## Ranges beside the reads and the host's registers -/

/-- The state with other reads and other host registers; no memory and no stack queue holds them. -/
def State.beside (jobs : List Job) (jobNo : Nat) (host : HostDom) (s : State) : State :=
  { s with jobs := jobs, jobNo := jobNo, host := host }

theorem foldS_comm {α : Type} (f : α → State → State) (g : State → State) (h : ∀ a s, f a (g s) = g (f a s)) (l : List α) (s : State) :
    foldS f l (g s) = g (foldS f l s) := by
  induction l generalizing s with
  | nil => rfl
  | cons a l ih => rw [foldS_cons, foldS_cons, h, ih]

theorem fillRead_beside (c : Fin 32) (port a n : Nat) (tag : Nat → Tag) (jobs : List Job) (jobNo : Nat) (host : HostDom) (s : State) :
    fillRead c port a n tag (s.beside jobs jobNo host) = (fillRead c port a n tag s).beside jobs jobNo host := by
  refine foldS_comm _ (State.beside jobs jobNo host) ?_ _ s
  exact fun _ _ => rfl

theorem fillAsk_beside (c : Fin 32) (port a : Nat) (data : List Byte) (tag : Tag) (jobs : List Job) (jobNo : Nat) (host : HostDom)
    (s : State) : fillAsk c port a data tag (s.beside jobs jobNo host) = (fillAsk c port a data tag s).beside jobs jobNo host := by
  refine foldS_comm _ (State.beside jobs jobNo host) ?_ _ s
  exact fun _ _ => rfl

theorem stackAsk_beside (src space off n : Nat) (data : Option (List Byte)) (rq : Nat) (tag : Nat → Tag) (jobs : List Job) (jobNo : Nat)
    (host : HostDom) (s : State) : stackAsk src space off n data rq tag (s.beside jobs jobNo host) =
      (stackAsk src space off n data rq tag s).beside jobs jobNo host := by
  refine foldS_comm _ (State.beside jobs jobNo host) ?_ _ s
  exact fun _ _ => rfl

theorem rangeRead_beside (port rq src space off n : Nat) (tag : Nat → Tag) (jobs : List Job) (jobNo : Nat) (host : HostDom) (s : State)
    (h : space ≠ 2) : rangeRead port rq src space off n tag (s.beside jobs jobNo host) =
      (rangeRead port rq src space off n tag s).beside jobs jobNo host := by
  unfold rangeRead
  split
  · exact fillRead_beside ..
  · exact absurd rfl h
  · exact stackAsk_beside ..

theorem rangeWrite_beside (port rq src space off : Nat) (bs : List Byte) (tag : Tag) (jobs : List Job) (jobNo : Nat) (host : HostDom)
    (s : State) (h : space ≠ 2) : rangeWrite port rq src space off bs tag (s.beside jobs jobNo host) =
      (rangeWrite port rq src space off bs tag s).beside jobs jobNo host := by
  unfold rangeWrite
  split
  · exact fillAsk_beside ..
  · exact absurd rfl h
  · exact stackAsk_beside ..

theorem beside_self (s : State) : s.beside s.jobs s.jobNo s.host = s := rfl

theorem rangeRead_keeps (port rq src space off n : Nat) (tag : Nat → Tag) (s : State) (h : space ≠ 2) :
    (rangeRead port rq src space off n tag s).host = s.host := by
  have same := rangeRead_beside port rq src space off n tag s.jobs s.jobNo s.host s h
  rw [beside_self] at same
  rw [same]
  rfl

theorem rangeWrite_keeps (port rq src space off : Nat) (bs : List Byte) (tag : Tag) (s : State) (h : space ≠ 2) :
    (rangeWrite port rq src space off bs tag s).jobs = s.jobs ∧ (rangeWrite port rq src space off bs tag s).jobNo = s.jobNo := by
  have same := rangeWrite_beside port rq src space off bs tag s.jobs s.jobNo s.host s h
  rw [beside_self] at same
  rw [same]
  exact ⟨rfl, rfl⟩

theorem writePlace_beside (p : Place) (b : Byte) (jobs : List Job) (jobNo : Nat) (host : HostDom) (s : State) :
    writePlace p b (s.beside jobs jobNo host) = (writePlace p b s).beside jobs jobNo host := by
  cases p <;> rfl

theorem writeHall_beside (space off : Nat) (bs : List Byte) (jobs : List Job) (jobNo : Nat) (host : HostDom) (s : State) :
    writeHall space off bs (s.beside jobs jobNo host) = (writeHall space off bs s).beside jobs jobNo host := by
  induction bs generalizing off s with
  | nil => rfl
  | cons b bs ih =>
    unfold writeHall
    rw [writePlace_beside, ih]
    rfl

theorem writeHall_keeps (space off : Nat) (bs : List Byte) (s : State) :
    (writeHall space off bs s).jobs = s.jobs ∧ (writeHall space off bs s).jobNo = s.jobNo := by
  have same := writeHall_beside space off bs s.jobs s.jobNo s.host s
  rw [beside_self] at same
  rw [same]
  exact ⟨rfl, rfl⟩

/-! ## Answers in link order (R324) -/

def Job.isBar2 (j : Job) : Bool := j.want == .bar2

theorem answerReads_none (fuel : Nat) (s : State) (h : s.jobs.find? Job.isBar2 = none) : answerReads fuel s = s := by
  cases fuel with
  | zero => rfl
  | succ fuel =>
    have h : s.jobs.find? (fun j => j.want == .bar2) = none := h
    unfold answerReads
    rw [h]

theorem answerReads_waits (fuel : Nat) (s : State) (j : Job) (h : s.jobs.find? Job.isBar2 = some j) (need : j.need ≠ 0) :
    answerReads fuel s = s := by
  cases fuel with
  | zero => rfl
  | succ fuel =>
    have h : s.jobs.find? (fun j => j.want == .bar2) = some j := h
    unfold answerReads
    rw [h]
    exact if_neg need

theorem answerReads_answers (fuel : Nat) (s : State) (j : Job) (h : s.jobs.find? Job.isBar2 = some j) (need : j.need = 0) :
    answerReads (fuel + 1) s =
      answerReads fuel (s.beside (s.jobs.filter fun x => x.id != j.id) s.jobNo { s.host with bar2Data := j.bytes }) := by
  have h : s.jobs.find? (fun j => j.want == .bar2) = some j := h
  conv_lhs => unfold answerReads
  rw [h]
  exact if_pos need

theorem find_bar2_none (l : List Job) (others : ∀ j ∈ l, j.want ≠ .bar2) : l.find? Job.isBar2 = none :=
  List.find?_eq_none.2 (by simpa [Job.isBar2] using others)

theorem find_bar2_last (l : List Job) (x : Job) (others : ∀ j ∈ l, j.want ≠ .bar2) (bar2 : x.want = .bar2) :
    (l ++ [x]).find? Job.isBar2 = some x := by
  rw [List.find?_append, find_bar2_none l others]
  simp [Job.isBar2, bar2]

/-! ## Reads of BAR2 (R324) -/

section
variable {s : State} (free : Bar2Open s) (o : BitVec 36) (n : Nat) (pos : 1 ≤ n) (few : n ≤ 4096)
include free pos few

/-- A read of mapped bytes asks for its pieces and waits among the reads. -/
theorem bar2Read_asks (mapped : ∀ i, i < n → placeOf s (bar2Space s) (bar2Off s o + i) ≠ .none) (notAcb : bar2Space s ≠ 2) :
    exec (.bar2Read o n) s = .next (hostReads
      ((rangeRead 15 rqHost srcHost (bar2Space s) (bar2Off s o) n (fun i => .job s.jobNo i) s).beside
        (s.jobs ++ [⟨s.jobNo, .bar2, n, n, []⟩]) (s.jobNo + 1) s.host)) := by
  have served := bar2Answer_mapped s (bar2Off s o) n false free pos few mapped
  change execBar2Read o n s = _
  unfold execBar2Read
  dsimp only
  rw [served]
  dsimp only [startJob]
  exact congrArg (fun t => Host.Outcome.next (hostReads t)) (rangeRead_beside 15 rqHost srcHost _ _ n _ _ _ s.host s notAcb)

/-- The first read of BAR2 in flight waits for its bytes. -/
theorem bar2Read_first (mapped : ∀ i, i < n → placeOf s (bar2Space s) (bar2Off s o + i) ≠ .none) (notAcb : bar2Space s ≠ 2)
    (first : ∀ j ∈ s.jobs, j.want ≠ .bar2) :
    exec (.bar2Read o n) s = .next { rangeRead 15 rqHost srcHost (bar2Space s) (bar2Off s o) n (fun i => .job s.jobNo i) s with
      jobs := s.jobs ++ [⟨s.jobNo, .bar2, n, n, []⟩], jobNo := s.jobNo + 1 } := by
  rw [bar2Read_asks free o n pos few mapped notAcb]
  unfold hostReads
  rw [answerReads_waits _ _ ⟨s.jobNo, .bar2, n, n, []⟩ (find_bar2_last _ _ first rfl) (Nat.one_le_iff_ne_zero.1 pos)]
  unfold State.beside
  rw [← rangeRead_keeps 15 rqHost srcHost (bar2Space s) (bar2Off s o) n (fun i => .job s.jobNo i) s notAcb]

/-- A read behind one whose bytes have all come: that one is answered, and this one waits. -/
theorem bar2Read_behind (mapped : ∀ i, i < n → placeOf s (bar2Space s) (bar2Off s o + i) ≠ .none) (notAcb : bar2Space s ≠ 2)
    (j : Job) (one : s.jobs = [j]) (bar2 : j.want = .bar2) (come : j.need = 0) (other : j.id ≠ s.jobNo) :
    exec (.bar2Read o n) s = .next { rangeRead 15 rqHost srcHost (bar2Space s) (bar2Off s o) n (fun i => .job s.jobNo i) s with
      jobs := [⟨s.jobNo, .bar2, n, n, []⟩], jobNo := s.jobNo + 1, host := { s.host with bar2Data := mreads j.buf 0 j.len } } := by
  have left : (([j] ++ [⟨s.jobNo, .bar2, n, n, []⟩] : List Job).filter fun x => x.id != j.id) = [⟨s.jobNo, .bar2, n, n, []⟩] := by
    simp [Ne.symm other]
  rw [bar2Read_asks free o n pos few mapped notAcb, one]
  unfold hostReads
  rw [answerReads_answers _ _ j (by simp [State.beside, Job.isBar2, bar2]) come]
  change Host.Outcome.next (answerReads _ (State.beside (List.filter _ ([j] ++ [_])) (s.jobNo + 1)
    { s.host with bar2Data := mreads j.buf 0 j.len } _)) = _
  rw [left, answerReads_waits _ _ ⟨s.jobNo, .bar2, n, n, []⟩ rfl (Nat.one_le_iff_ne_zero.1 pos)]
  rfl

/-- A read with an unmapped byte is all ones, and logged. -/
theorem bar2Read_unmapped (hole : ∃ i, i < n ∧ placeOf s (bar2Space s) (bar2Off s o + i) = .none)
    (first : ∀ j ∈ s.jobs, j.want ≠ .bar2) (fresh : ∀ j ∈ s.jobs, j.id ≠ s.jobNo) :
    exec (.bar2Read o n) s = .next (logErr errBar2Unmapped none (bar2Addr s (bar2Off s o)) 0
      { s with jobNo := s.jobNo + 1, host := { s.host with bar2Data := List.replicate n 0xFF } }) := by
  have logged := bar2Answer_unmapped s (bar2Off s o) n false free pos few hole
  have bytes : (⟨s.jobNo, .bar2, n, 0, mwrites [] 0 (List.replicate n 0xFF)⟩ : Job).bytes = List.replicate n 0xFF := by
    have back := mreads_mwrites (List.replicate n (0xFF : Byte)) [] 0 rfl
    rw [List.length_replicate] at back
    exact back
  have left : (s.jobs ++ [(⟨s.jobNo, .bar2, n, 0, mwrites [] 0 (List.replicate n 0xFF)⟩ : Job)]).filter (fun x => x.id != s.jobNo) = s.jobs := by
    rw [List.filter_append, List.filter_eq_self.2 (by simpa using fresh)]
    simp
  change execBar2Read o n s = _
  unfold execBar2Read
  dsimp only
  rw [logged]
  dsimp only
  rw [logErr_of_same _ _ _ _ s (onesRead n s) rfl rfl, logErr_of_same _ _ _ _ s
    { s with jobNo := s.jobNo + 1, host := { s.host with bar2Data := List.replicate n 0xFF } } rfl rfl]
  generalize (logErr errBar2Unmapped none (bar2Addr s (bar2Off s o)) 0 s).mgmt = m
  unfold hostReads
  rw [answerReads_answers _ _ _ (find_bar2_last _ _ first rfl) rfl, bytes]
  change Host.Outcome.next (answerReads _ (State.beside (List.filter (fun x => x.id != s.jobNo) (s.jobs ++ [_])) _ _ _)) = _
  rw [left, answerReads_none]
  · rfl
  · exact find_bar2_none s.jobs first

end

/-! ## Writes of BAR2 (R323, R327) -/

theorem ingressWork_idle (jobs : List Job) (jobNo : Nat) (host : HostDom) (s : State) (idle : host.tasks = []) :
    ingressWork (s.beside jobs jobNo host) = s.beside jobs jobNo host := by
  have tasks : (s.beside jobs jobNo host).host.tasks = [] := idle
  unfold ingressWork
  rw [tasks]
  simp only [ingWork, tasks, List.find?_nil]

theorem touchStaged_idle (space off n : Nat) (s : State) (idle : s.loader.busy = false) : touchStaged space off n s = s := by
  unfold touchStaged
  rw [if_neg fun h => absurd (idle.symm.trans h.1) (by decide)]

section
variable {s : State} (free : Bar2Open s) (o : BitVec 36) (l : List Byte) (pos : 1 ≤ l.length) (few : l.length ≤ 4096)
include free pos few

/-- A write with an unmapped byte is dropped, and logged. -/
theorem bar2Write_unmapped (hole : ∃ i, i < l.length ∧ placeOf s (bar2Space s) (bar2Off s o + i) = .none) :
    exec (.bar2Write o l) s = .next (logErr errBar2Unmapped none (bar2Addr s (bar2Off s o)) 0 s) := by
  change execBar2Write o l s = _
  unfold execBar2Write
  dsimp only
  rw [bar2Answer_unmapped s (bar2Off s o) l.length true free pos few hole]

section
variable (noLoad : s.loader.busy = false) (mapped : ∀ i, i < l.length → placeOf s (bar2Space s) (bar2Off s o + i) ≠ .none)
include noLoad mapped

theorem bar2Write_writes : exec (.bar2Write o l) s = .next (ingressWork
    (rangeWrite 15 rqHost srcHost (bar2Space s) (bar2Off s o) l (.hostWrite s.host.writeNo)
      (s.beside s.jobs s.jobNo { s.host with
        writeNo := s.host.writeNo + 1
        writing := s.host.writing ++ [(s.host.writeNo, rangePieces (bar2Space s) (bar2Off s o) l.length)] }))) := by
  change execBar2Write o l s = _
  unfold execBar2Write
  dsimp only
  rw [bar2Answer_mapped s (bar2Off s o) l.length true free pos few mapped]
  dsimp only
  rw [touchStaged_idle _ _ _ s noLoad, ite_self]
  rfl

/-- A write to a stack or a scratchpad is on its way in its pieces. -/
theorem bar2Write_queued (idle : s.host.tasks = []) (notAcb : bar2Space s ≠ 2) :
    exec (.bar2Write o l) s = .next { rangeWrite 15 rqHost srcHost (bar2Space s) (bar2Off s o) l (.hostWrite s.host.writeNo) s with
      host := { s.host with
        writeNo := s.host.writeNo + 1
        writing := s.host.writing ++ [(s.host.writeNo, rangePieces (bar2Space s) (bar2Off s o) l.length)] } } := by
  obtain ⟨jobs, jobNo⟩ := rangeWrite_keeps 15 rqHost srcHost (bar2Space s) (bar2Off s o) l (.hostWrite s.host.writeNo) s notAcb
  rw [bar2Write_writes free o l pos few noLoad mapped, rangeWrite_beside _ _ _ _ _ _ _ _ _ _ s notAcb, ingressWork_idle]
  · unfold State.beside
    rw [← jobs, ← jobNo]
  · exact idle

/-- A write to an accumulator buffer is made at once. -/
theorem bar2Write_acb (idle : s.host.tasks = []) (acb : bar2Space s = 2) (noWrite : s.host.writing = []) :
    exec (.bar2Write o l) s = .next { writeHall 2 (bar2Off s o) l s with host := { s.host with writeNo := s.host.writeNo + 1 } } := by
  obtain ⟨jobs, jobNo⟩ := writeHall_keeps 2 (bar2Off s o) l s
  have made : rangeWrite 15 rqHost srcHost 2 (bar2Off s o) l (.hostWrite s.host.writeNo)
      (s.beside s.jobs s.jobNo { s.host with writeNo := s.host.writeNo + 1, writing := [(s.host.writeNo, 1)] }) =
      (writeHall 2 (bar2Off s o) l s).beside s.jobs s.jobNo { s.host with writeNo := s.host.writeNo + 1, writing := [] } := by
    change hostWrote s.host.writeNo (writeHall 2 (bar2Off s o) l (s.beside _ _ _)) = _
    rw [writeHall_beside]
    unfold hostWrote State.beside
    dsimp only
    simp
  rw [bar2Write_writes free o l pos few noLoad mapped, acb, noWrite]
  change Host.Outcome.next (ingressWork (rangeWrite 15 rqHost srcHost 2 (bar2Off s o) l (.hostWrite s.host.writeNo)
    (s.beside s.jobs s.jobNo { s.host with writeNo := s.host.writeNo + 1, writing := [(s.host.writeNo, 1)] }))) = _
  rw [made, ingressWork_idle, ← noWrite]
  · unfold State.beside
    rw [← jobs, ← jobNo]
  · exact idle

end
end

/-- Settles O57: each window's row is one read or write of a register (`hostRead_coreReg`, `hostRead_sealed`), and each access to BAR2 is
answered by what its bytes are mapped to (`bar2Answer_mapped`, `bar2Answer_unmapped`). -/
theorem dataWindowsAndBar2 : Obligations.DataWindowsAndBar2 := by
  intro s standby main ramp relay
  have link : s.linkPowered = true := by simp [State.linkPowered, ramp, relay]
  have reached (p : Path) (o : Nat) := reaches_up s p o standby main link
  refine ⟨fun c unsealed free => ?reads, fun c v => ?writes, fun p unsealed retained => ?debug, fun unsealed live => ?closed,
    fun shut c => ?shut, fun ready live noKill noLoad unsealed idle fresh o sp off space place => ?bar2⟩
  case reads =>
    exact ⟨coreBankData0Read_open (reached _) unsealed free, coreBankData7Read_open (reached _) unsealed free,
      streamDescData0Read_open (reached _) unsealed free, buoyData0Read_open (reached _) unsealed free,
      bellQueryMaskLoRead_open (reached _) unsealed free, chEpData0Read_open (reached _) unsealed free⟩
  case writes => exact ⟨coreBankData7Write_eq s c v main, streamDescData15Write_eq s c v main, chEpData7Write_eq s c v main⟩
  case debug =>
    obtain ⟨t, run, data, ptr, cores, dram, seq, value⟩ := dbgData0Read_retained s p (reached p) unsealed retained
    refine ⟨⟨t, run, data, ptr, cores, dram, seq, ?_⟩, dbgData7Read_retained s p (reached p) unsealed retained⟩
    rw [← value]
    cases p <;> rfl
  case closed => exact debugReads_closed s (reached _) unsealed live
  case shut => exact ⟨coreBankData0Read_sealed s c (reached _) shut, coreBankData7Read_sealed s c (reached _) shut⟩
  case bar2 =>
    have free : Bar2Open s := ⟨main, ready, live, noKill, unsealed⟩
    obtain rfl : sp = bar2Space s := space
    obtain rfl : off = bar2Off s o := place
    refine ⟨fun n pos few mapped notAcb => ⟨fun first => ?_, fun j one bar2 come => ?_⟩, fun n pos few hole first => ?_,
      fun l pos few hole => ?_, fun l pos few mapped => ⟨fun notAcb => ?_, fun acb noWrite => ?_⟩⟩
    · exact bar2Read_first free o n pos few mapped notAcb first
    · exact bar2Read_behind free o n pos few mapped notAcb j one bar2 come (fresh j (by rw [one]; exact List.mem_singleton_self j))
    · exact bar2Read_unmapped free o n pos few hole first fresh
    · exact bar2Write_unmapped free o l pos few hole
    · exact bar2Write_queued free o l pos few noLoad mapped idle notAcb
    · exact bar2Write_acb free o l pos few noLoad mapped idle acb noWrite

end Sys2Proof.Machine

/-!
PROOFS. The matrix arrays (04_matrix_arrays.md): the commands that join an array, their completions, and the elastic links.
-/
namespace Sys2Proof.Machine

/-! ## A command that works on after its issue (R76) -/

/-- A sound command of the die's that is not skipped and fires nothing at issue: its effect on its core, and its slot. -/
theorem issuesTo_of_effect {i : Instr} {name : String} {op : Nat} {eff : Fin 32 → LookEntry → State → State} {s : State} {c : Fin 32}
    {w : CmdWords} {e : LookEntry} {rest : List LookEntry} (ready : Claims.Ready op s c w e rest)
    (row : exec i s = issueRow name op eff c w s) (k : Core) (effect : eff c e s = s.updCore c fun _ => k)
    (ahead : k.ahead = (s.core c).ahead) (words : k.blockWords = (s.core c).blockWords) :
    Claims.IssuesTo i s c e rest fun _ => k := by
  obtain ⟨rfl, head, norm, run, now, sound, goes, more, entries⟩ := ready
  have heads : Heads s c w e rest := ⟨head, norm, run, now, entries⟩
  have core : (s.updCore c fun _ => k).core c = k := by rw [updCore_core, if_pos rfl]
  have taken : takeCmd eff c e s = lastCommand c e (((s.updCore c fun _ => k).updCore c
      (trackWrites (bit s.seq.cfg 0) e)).updCore c (slotTaken (heldUntil s c e) e)) := by
    unfold takeCmd
    rw [goes, effect]
    rfl
  have slot := lastCommand_slotTaken (heldUntil s c e) (bit s.seq.cfg 0) c e rest (s.updCore c fun _ => k)
    (by rw [core]; exact ahead.trans head) (by rw [core]; exact more.trans_eq words.symm)
  have runs : exec i s = .next (takeCmd eff c e s) := by rw [row, heads.issueRow_eq, heads.judgeCmd_sound _ sound]
  rw [← taken] at slot
  generalize takeCmd eff c e s = t at slot runs
  obtain ⟨reach, issued⟩ := slot
  rw [core] at issued
  refine ⟨t, runs, ?_, issued, fun _ => ?_⟩
  · generalize t.core c = x at reach
    rw [reach]
    simp [State.updCore]
  · rw [reach]
    exact ⟨rfl, rfl⟩

/-- The array of a row's TARGET is that of the command that heads the core. -/
theorem arrayOf_ready {op : Nat} {s : State} {c : Fin 32} {w : CmdWords} {e : LookEntry} {rest : List LookEntry}
    (ready : Claims.Ready op s c w e rest) : arrayOfTarget (targetOf e.words) = arrayOf (targetOf w + 1) := by
  obtain ⟨-, -, norm, -⟩ := ready
  rw [norm]
  rfl

/-- The signals of a command are those of its row's words. -/
theorem sigsOf_ready {op : Nat} {s : State} {c : Fin 32} {w : CmdWords} {e : LookEntry} {rest : List LookEntry}
    (ready : Claims.Ready op s c w e rest) : sigsOf e.words = sigsOf w := by
  obtain ⟨-, -, norm, -⟩ := ready
  rw [norm]
  rfl

/-- A change of one array is a change of its core. -/
theorem State.updArr_eq (s : State) (c : Fin 32) (j : Fin 2) (f : ArrayUnit → ArrayUnit) :
    s.updArr c j f = s.updCore c fun _ => Claims.withArray (s.core c) j (f ((s.core c).arr j)) := rfl

/-! ## The sets and the buffer (R109, R111, R118) -/

/-- A change of the shadow set changes the set that is not active. -/
theorem updSet_shadow (u : ArrayUnit) (f : StatSet → StatSet) : u.updSet (!u.activeB) f = { u with
    setA := if u.activeB then f u.setA else u.setA, setB := if u.activeB then u.setB else f u.setB } := by
  unfold ArrayUnit.updSet
  by_cases on : u.activeB <;> simp [on]

theorem updSet_active (u : ArrayUnit) (f : StatSet → StatSet) : u.updSet u.activeB f = { u with
    setA := if u.activeB then u.setA else f u.setA, setB := if u.activeB then f u.setB else u.setB } := by
  unfold ArrayUnit.updSet
  by_cases on : u.activeB <;> simp [on]

/-- Settles O27: the load and the fill work on after their issue (`issuesTo_of_effect`), the swap completes at issue
(`issuesTo_of_core`). -/
theorem stationaryLoadsSwapsAndFills : Obligations.StationaryLoadsSwapsAndFills := by
  rintro s c w e rest j rfl
  refine ⟨fun ready => ?load, fun ready => ?swap, fun ready => ?fill⟩
  case load =>
    refine issuesTo_of_effect ready rfl _ ?_ rfl rfl
    rw [← opA_of_ready ready, ← sigsOf_ready ready, ← arrayOf_ready ready]
    change State.updArr .. = _
    simp only [updSet_shadow]
    rfl
  case swap =>
    refine issuesTo_of_core ready (eff := fun c e s => s.updArr c (arrayOfTarget (targetOf e.words)) fun u =>
      { u with activeB := !u.activeB, shadowValid := false, idleFrom := max u.idleFrom (e.issue + 1) }) rfl _ ?_ rfl rfl
    rw [← arrayOf_ready ready]
    rfl
  case fill =>
    refine issuesTo_of_effect ready rfl _ ?_ rfl rfl
    rw [← opA_of_ready ready, ← sigsOf_ready ready, ← arrayOf_ready ready]
    rfl

/-! ## Passes (R107, R120) -/

/-- The done flag of a pass is the flag that SIG0 names. -/
theorem sigIndex_sig0Of (w : CmdWords) : sigIndex (sig0Of w) = bits (sigsOf w) 27 20 := by
  unfold sigIndex sig0Of sigsOf bits
  congr 1
  ext i hi
  simp [show 20 + i < 32 by omega, show 20 + i < 64 by omega]

theorem passJoined_eq (p : PassRec) (u : ArrayUnit) :
    { u.updSet u.activeB (fun x => { x with usedUntil := max x.usedUntil p.done }) with
      passes := u.passes ++ [p], passCount := u.passCount + 1, doneFlag := BitVec.ofNat 7 (bits p.sig 27 20) } =
      Claims.passJoined p u := by
  rw [updSet_active]
  rfl

/-- A pass that reads its rows from the scratchpad joins its array. -/
theorem effPass_fed (tOrient : Bool) (c : Fin 32) (j : Fin 2) (e : LookEntry) (s : State) :
    effPass tOrient false c j e s = s.updCore c fun _ => Claims.withArray (s.core c) j
      (Claims.passJoined (Claims.passOf tOrient none 0 ((s.core c).arr j) e) ((s.core c).arr j)) := by
  rw [← passJoined_eq]
  unfold effPass
  simp only [sigIndex_sig0Of]
  rfl

/-- A direct pass joins its array and takes its positions of the stream. -/
theorem effPass_direct (c : Fin 32) (j : Fin 2) (e : LookEntry) (s : State) (d : BitVec 11)
    (feed : directStream (s.core c) (psEngine e.words) j = some d) :
    effPass false true c j e s = s.updCore c fun _ =>
      Claims.withArray { s.core c with streams := tset {} (s.core c).streams d.toNat { (s.core c).stream d with
          handed := ((s.core c).stream d).handed + psRows e.words } } j
        (Claims.passJoined (Claims.passOf false (some d) ((s.core c).stream d).handed ((s.core c).arr j) e) ((s.core c).arr j)) := by
  rw [← passJoined_eq]
  unfold effPass
  simp only [sigIndex_sig0Of, feed, if_true]
  rw [State.updArr_eq, updCore_updCore]
  rfl

/-- Settles O28: each pass works on after its issue (`issuesTo_of_effect`); its effect is `effPass_fed` or `effPass_direct`. -/
theorem passesJoinTheirArray : Obligations.PassesJoinTheirArray := by
  rintro s c w e rest j rfl
  refine ⟨fun ready => ?passN, fun ready => ?passT, fun d feed ready => ?direct⟩
  case passN =>
    refine issuesTo_of_effect ready rfl _ ?_ rfl rfl
    rw [← arrayOf_ready ready]
    exact effPass_fed ..
  case passT =>
    refine issuesTo_of_effect ready rfl _ ?_ rfl rfl
    rw [← arrayOf_ready ready]
    exact effPass_fed ..
  case direct =>
    refine issuesTo_of_effect ready rfl _ ?_ rfl rfl
    rw [← opA_of_ready ready]
    rw [← arrayOf_ready ready] at feed ⊢
    exact effPass_direct _ _ _ _ d feed

end Sys2Proof.Machine

namespace Sys2Proof.Machine

/-! ## Completions of the arrays (R108, R109, R118) -/

/-- A completion that changes its core to `k` and fires `sigs`. -/
theorem signalsTo_of_core {i : Instr} {s : State} {c : Fin 32} {sigs : U64} {k : Core} (idx : Nat)
    (runs : exec i s = .next (fireSignals c idx sigs (s.updCore c fun _ => k))) : Claims.SignalsTo i s c sigs k := by
  obtain ⟨reach, core, quiet⟩ := fireSignals_fired c idx sigs (s.updCore c fun _ => k)
  generalize fireSignals c idx sigs (s.updCore c fun _ => k) = t at runs reach core quiet
  rw [updCore_core, if_pos rfl] at core
  refine ⟨t, runs, ?_, core, fun silent => (quiet silent).symm⟩
  generalize t.core c = x at reach
  rw [reach]
  simp [State.updCore]

/-- The first record that is done is the one that a search finds. -/
theorem find_first {α : Type} (due : α → Bool) (pre post : List α) (x : α) (early : ∀ y ∈ pre, due y = false) (now : due x = true) :
    (pre ++ x :: post).find? due = some x := by
  rw [List.find?_append, List.find?_eq_none.2 fun y h => by simp [early y h], Option.none_or, List.find?_cons_of_pos now]

/-- Without the first record that is done, those before and after it stay. -/
theorem erase_first {α : Type} [DecidableEq α] (due : α → Bool) (pre post : List α) (x : α) (early : ∀ y ∈ pre, due y = false)
    (now : due x = true) : (pre ++ x :: post).erase x = pre ++ post := by
  have fresh : x ∉ pre := fun h => by simp [early x h] at now
  rw [List.erase_append_right _ fresh, List.erase_cons_head]

theorem statLoadComplete_eq (s : State) (c : Fin 32) (j : Fin 2) (r : LoadRec) (load : ((s.core c).arr j).load = some r)
    (ended : r.complete ≤ s.seq.cycle) :
    exec (.statLoadComplete c j) s = .next (fireSignals c r.idx r.sig (s.updArr c j fun u =>
      { (u.updSet (!u.activeB) fun x => { x with fmt := r.fmt, sparse := r.sparse, tag := r.tag }).over s.seq.cycle with
        load := none, shadowValid := true })) := by
  change execStatLoadComplete c j s = _
  unfold execStatLoadComplete
  rw [load]
  exact congrArg _ (if_pos ended)

theorem passDone_eq (s : State) (c : Fin 32) (j : Fin 2) (pre post : List PassRec) (p : PassRec)
    (passes : ((s.core c).arr j).passes = pre ++ p :: post) (early : ∀ q ∈ pre, s.seq.cycle < q.done) (now : p.done ≤ s.seq.cycle) :
    exec (.passDone c j) s =
      .next (fireSignals c p.idx p.sig (s.updArr c j fun u => { u.over s.seq.cycle with passes := pre ++ post })) := by
  have early' : ∀ q ∈ pre, decide (q.done ≤ s.seq.cycle) = false := fun q h => by simp [early q h]
  change execPassDone c j s = _
  unfold execPassDone
  rw [passes, find_first (fun p => decide (p.done ≤ s.seq.cycle)) pre post p early' (decide_eq_true now)]
  dsimp only
  rw [State.updArr_eq, State.updArr_eq, passes, erase_first _ pre post p early' (decide_eq_true now)]

theorem acbFillComplete_eq (s : State) (c : Fin 32) (j : Fin 2) (pre post : List FillRec) (f : FillRec)
    (fills : ((s.core c).arr j).fills = pre ++ f :: post) (early : ∀ q ∈ pre, s.seq.cycle < q.issue + 2 + q.count)
    (now : f.issue + 2 + f.count ≤ s.seq.cycle) :
    exec (.acbFillComplete c j) s =
      .next (fireSignals c f.idx f.sig (s.updArr c j fun u => { u.over s.seq.cycle with fills := pre ++ post })) := by
  have early' : ∀ q ∈ pre, decide (q.issue + 2 + q.count ≤ s.seq.cycle) = false := fun q h => by simp [early q h]
  change execAcbFillComplete c j s = _
  unfold execAcbFillComplete
  rw [fills, find_first (fun f => decide (f.issue + 2 + f.count ≤ s.seq.cycle)) pre post f early' (decide_eq_true now)]
  dsimp only
  rw [State.updArr_eq, State.updArr_eq, fills, erase_first _ pre post f early' (decide_eq_true now)]

/-- Settles O36: each completion changes its array and fires its signals (`signalsTo_of_core`). -/
theorem arrayCompletionsFireTheirSignals : Obligations.ArrayCompletionsFireTheirSignals := by
  rintro s c j u rfl
  refine ⟨fun r load ended => ?load, fun pre post p passes early now => ?pass, fun pre post f fills early now => ?fill⟩
  case load =>
    refine signalsTo_of_core r.idx ?_
    rw [statLoadComplete_eq s c j r load ended, State.updArr_eq, updSet_shadow]
    rfl
  case pass => exact signalsTo_of_core p.idx (passDone_eq s c j pre post p passes early now)
  case fill => exact signalsTo_of_core f.idx (acbFillComplete_eq s c j pre post f fills early now)

/-! ## Direct rows (R121, R219) -/

/-- Settles O40: the row joins the links, and its element is marked as there. -/
theorem directRowsReachTheLinks : Obligations.DirectRowsReachTheLinks := by
  refine fun s c j => ⟨fun d e arrived => ?_, fun absent => ?_⟩
  · change execDirectRowPresent c j s = _
    unfold execDirectRowPresent
    dsimp only
    rw [arrived]
    rfl
  · change execDirectRowPresent c j s = _
    unfold execDirectRowPresent
    dsimp only
    rw [absent]

end Sys2Proof.Machine

namespace Sys2Proof.Machine

/-! ## A slice that is due (R122) -/

/-- Core `c` of `s` with `v` as its array `j`. -/
def State.putArr (s : State) (c : Fin 32) (j : Fin 2) (v : ArrayUnit) : State := s.updCore c fun _ => Claims.withArray (s.core c) j v

theorem putArr_core (s : State) (c : Fin 32) (j : Fin 2) (v : ArrayUnit) : (s.putArr c j v).core c = Claims.withArray (s.core c) j v := by
  unfold State.putArr
  rw [updCore_core, if_pos rfl]

theorem withArray_arr (k : Core) (j : Fin 2) (v : ArrayUnit) : (Claims.withArray k j v).arr j = v :=
  (vector_get_set ..).trans (if_pos rfl)

theorem withArray_withArray (k : Core) (j : Fin 2) (v w : ArrayUnit) :
    Claims.withArray (Claims.withArray k j v) j w = Claims.withArray k j w := by
  simp [Claims.withArray]

theorem updCore_putArr (s : State) (c : Fin 32) (j : Fin 2) (v : ArrayUnit) (f : Core → Core) :
    (s.putArr c j v).updCore c f = s.updCore c fun _ => f (Claims.withArray (s.core c) j v) := updCore_updCore ..

theorem updArr_putArr (s : State) (c : Fin 32) (j : Fin 2) (v : ArrayUnit) (f : ArrayUnit → ArrayUnit) :
    (s.putArr c j v).updArr c j f = s.putArr c j (f v) := by
  rw [State.updArr_eq, putArr_core, withArray_arr, withArray_withArray, updCore_putArr]
  rfl

theorem dueSlice_row (u : ArrayUnit) (g : Fin 8) (t : Nat) (p : PassRec) (m : Nat) (slice : u.dueSlice g t = some (p, m)) :
    p.slices.get g = m := by
  unfold ArrayUnit.dueSlice at slice
  obtain ⟨q, -, due⟩ := Option.bind_eq_some_iff.1 slice
  dsimp only at due
  split at due
  · obtain ⟨rfl, rfl⟩ := Prod.mk.inj (Option.some.inj due)
    rfl
  · cases due

/-- Only a direct row whose stream position is not at the links is absent, and only from group 0. -/
theorem slicePresent_false_iff (u : ArrayUnit) (g : Fin 8) (p : PassRec) (m : Nat) :
    u.slicePresent g p m = false ↔ g = 0 ∧ p.direct ≠ none ∧ ∀ r ∈ u.rows, r.m ≠ p.first + m := by
  have first : g.val = 0 ↔ g = 0 := ⟨fun h => Fin.ext h, congrArg _⟩
  unfold ArrayUnit.slicePresent
  simp only [Bool.or_eq_false_iff, Option.isNone_eq_false_iff, Option.isSome_iff_ne_none, bne_eq_false_iff_eq, List.any_eq_false,
    beq_iff_eq, first]
  exact ⟨fun ⟨⟨feed, g0⟩, absent⟩ => ⟨g0, feed, absent⟩, fun ⟨g0, feed, absent⟩ => ⟨⟨feed, g0⟩, absent⟩⟩

/-- What group `g` does with the slice of row `m` of pass `p`, which is due. -/
def sliceStep (c : Fin 32) (j : Fin 2) (g : Fin 8) (u : ArrayUnit) (p : PassRec) (m : Nat) (s : State) : State :=
  if u.slicePresent g p m then
    if g.val = 0 then freeRow c p m (s.putArr c j (enterSlice g p u)) else s.putArr c j (enterSlice g p u)
  else if u.late.get g < 8 then s.putArr c j { u with late := u.late.set g (u.late.get g + 1) }
  else escalate c j g m (s.putArr c j u)

section
variable {s : State} {c : Fin 32} {j : Fin 2} {g : Fin 8} {u : ArrayUnit} {p : PassRec} {m : Nat}

theorem groupStep_of_due (raised : u = raiseLate g ((s.core c).arr j)) (slice : u.dueSlice g s.seq.cycle = some (p, m)) :
    groupStep c j g s = sliceStep c j g u p m s := by
  have put : s.updArr c j (raiseLate g) = s.putArr c j u := by rw [raised]; rfl
  unfold groupStep sliceStep
  dsimp only
  rw [put, putArr_core, withArray_arr]
  have slice' : u.dueSlice g (s.putArr c j u).seq.cycle = some (p, m) := slice
  rw [slice']
  dsimp only
  rw [updArr_putArr, updArr_putArr]

theorem elasticSliceDue_running (due : (((s.core c).arr j).dueSlice g s.seq.cycle).isSome = true)
    (raised : u = raiseLate g ((s.core c).arr j)) (slice : u.dueSlice g s.seq.cycle = some (p, m)) (legs : s.seq.state = .running) :
    exec (.elasticSliceDue c j g) s = .next (sliceStep c j g u p m s) := by
  change execElasticSliceDue c j g s = _
  unfold execElasticSliceDue
  rw [if_neg (by simpa [Option.isSome_iff_ne_none] using due), if_pos legs, groupStep_of_due raised slice]

theorem sameHaltCycle_halted (same : sameHaltCycle s = true) : s.seq.state = .halted := by
  simp only [sameHaltCycle, Bool.and_eq_true, beq_iff_eq] at same
  exact same.1.1

theorem elasticSliceDue_halting (due : (((s.core c).arr j).dueSlice g s.seq.cycle).isSome = true)
    (raised : u = raiseLate g ((s.core c).arr j)) (slice : u.dueSlice g s.seq.cycle = some (p, m)) (same : sameHaltCycle s = true) :
    exec (.elasticSliceDue c j g) s = .next (onlyCauses (sliceStep c j g u p m) s) := by
  change execElasticSliceDue c j g s = _
  unfold execElasticSliceDue onlyCauses
  rw [if_neg (by simpa [Option.isSome_iff_ne_none] using due), if_neg (by rw [sameHaltCycle_halted same]; decide), if_pos same,
    groupStep_of_due raised slice]

theorem elasticSliceDue_stopped (stopped : s.seq.state ≠ .running) (later : sameHaltCycle s = false) :
    exec (.elasticSliceDue c j g) s = .next s := by
  change execElasticSliceDue c j g s = _
  unfold execElasticSliceDue
  rw [if_neg stopped, later, if_neg Bool.false_ne_true, ite_self]

end

/-! ## A slice that enters (R121, R122) -/

/-- Pass `p` after a slice of group `g`. -/
def PassRec.sliced (p : PassRec) (g : Fin 8) : PassRec := { p with slices := p.slices.set g.val (p.slices.get g + 1) g.isLt }

/-- A slice that does not take a row from the links. -/
theorem enterSlice_counts (g : Fin 8) (p : PassRec) (u : ArrayUnit) (apart : p.direct = none ∨ g ≠ 0) :
    enterSlice g p u = { u with passes := u.passes.map fun x => if x = p then p.sliced g else x } := by
  have off : ¬ (p.direct.isSome ∧ g.val = 0) := fun ⟨feed, first⟩ =>
    apart.elim (fun h => by simp [h] at feed) fun h => h (Fin.ext first)
  unfold enterSlice
  dsimp only
  rw [if_neg off]
  rfl

/-- Array `u` after pass `p` has taken `row` from the links as its next row. -/
def ArrayUnit.rowTaken (u : ArrayUnit) (p : PassRec) (row : FedRow) : ArrayUnit := { u with
  rows := u.rows.erase row
  passes := u.passes.map fun x => if x = p then { p.sliced 0 with fed := p.fed ++ [{ row with m := p.slices.get 0 }] } else x }

/-- The first slice of a direct row takes it from the links. -/
theorem enterSlice_takes (p : PassRec) (u : ArrayUnit) (d : BitVec 11) (row : FedRow) (feed : p.direct = some d)
    (there : (u.rows.find? fun r => r.m == p.first + p.slices.get 0) = some row) : enterSlice 0 p u = u.rowTaken p row := by
  unfold enterSlice
  dsimp only
  rw [if_pos ⟨by simp [feed], rfl⟩, there]
  rfl

/-- A landing add of 1 for an acknowledgement (R78). -/
theorem ackAdd_acked (s : State) (c : Fin 32) (k : Core) (a : Option (BitVec 5)) :
    ackAdd (BitVec.ofNat 5 c.val) a (s.updCore c fun _ => k) = s.updCore c fun _ => Claims.acked s a 1 k := by
  cases a with
  | none => rfl
  | some n =>
    have mid : (s.updCore c fun _ => k).midCycle = s.midCycle := rfl
    unfold ackAdd landAdd Claims.acked
    dsimp only
    rw [coreOf_ofNat, updCore_updCore, mid]
    cases s.midCycle <;> rfl

theorem freeRow_fed (c : Fin 32) (p : PassRec) (m : Nat) (s : State) (fed : p.direct = none) : freeRow c p m s = s := by
  unfold freeRow
  rw [fed]

/-- Core `k` after the element of position `first + m` of stream `d` has completed. -/
def Core.rowFreed (k : Core) (d : BitVec 11) (at_ : Nat) : Core :=
  k.updStream d fun st => { st with freed := st.freed + 1, elems := st.elems.filter fun e => e.pos != at_ }

theorem freeRow_direct (c : Fin 32) (p : PassRec) (m : Nat) (s : State) (d : BitVec 11) (j : Fin 2) (v : ArrayUnit)
    (feed : p.direct = some d) : freeRow c p m (s.putArr c j v) = s.updCore c fun _ =>
      Claims.acked s (sdAck (tget 0 (s.core c).descs d.toNat)) 1 ((Claims.withArray (s.core c) j v).rowFreed d (p.first + m)) := by
  unfold freeRow
  rw [feed]
  dsimp only
  rw [updCore_putArr, putArr_core, ackAdd_acked]
  rfl

/-! ## A slice that is an escalation (R62, R123) -/

/-- Array `u` after one more escalation. -/
def ArrayUnit.escalated (u : ArrayUnit) : ArrayUnit := { u with escCount := satInc u.escCount, escLeg := satInc u.escLeg }

/-- An escalation of array `j`, which is `u`, is counted. -/
def State.escCounted (s : State) (c : Fin 32) (j : Fin 2) (u : ArrayUnit) : State :=
  { s.putArr c j u.escalated with seq := { s.seq with esc := s.seq.esc + 1 } }

theorem escalate_counted (c : Fin 32) (j : Fin 2) (g : Fin 8) (m : Nat) (s : State) (u : ArrayUnit) (new : s.waitsSlice c j g = false) :
    escalate c j g m (s.putArr c j u) =
      if s.clk.escLimit ≠ 0 ∧ s.clk.escLimit < s.seq.esc + 1 then escalationHalt c j g m (s.escCounted c j u)
      else holdCause c (.slice j g) (s.escCounted c j u) := by
  have new' : (s.putArr c j u).waitsSlice c j g = false := new
  unfold escalate
  rw [new', if_neg Bool.false_ne_true]
  dsimp only
  rw [updArr_putArr]
  rfl

/-- Within the limit an escalation is a cause of a hold. -/
theorem escalate_holds (c : Fin 32) (j : Fin 2) (g : Fin 8) (m : Nat) (s : State) (u : ArrayUnit) (new : s.waitsSlice c j g = false)
    (few : s.clk.escLimit = 0 ∨ s.seq.esc < s.clk.escLimit) :
    escalate c j g m (s.putArr c j u) = holdCause c (.slice j g) (s.escCounted c j u) := by
  rw [escalate_counted c j g m s u new, if_neg (by omega)]

/-- Past the limit an escalation halts the die. -/
theorem escalate_halts (c : Fin 32) (j : Fin 2) (g : Fin 8) (m : Nat) (s : State) (u : ArrayUnit) (new : s.waitsSlice c j g = false)
    (limited : s.clk.escLimit ≠ 0) (many : s.clk.escLimit ≤ s.seq.esc) :
    escalate c j g m (s.putArr c j u) = escalationHalt c j g m (s.escCounted c j u) := by
  rw [escalate_counted c j g m s u new, if_pos ⟨limited, by omega⟩]

/-- A slice counts as a hold of no stream engine. -/
theorem countEngHold_slice (c : Fin 32) (j : Fin 2) (g : Fin 8) (s : State) : countEngHold c (.slice j g) s = s := rfl

/-! ## A slice on a die that halts in this very cycle (R382) -/

theorem keepHalt_self (s : State) : keepHalt s.mgmt.halt s = s := by
  unfold keepHalt
  exact if_pos rfl

/-- Work that adds no cause of a halt leaves no trace. -/
theorem onlyCauses_calm (work : State → State) (s : State) (calm : (work s).mgmt = s.mgmt) : onlyCauses work s = s := by
  unfold onlyCauses
  rw [calm, keepHalt_self]

theorem ackAdd_mgmt (c : BitVec 5) (a : Option (BitVec 5)) (s : State) : (ackAdd c a s).mgmt = s.mgmt := by
  cases a <;> rfl

theorem freeRow_mgmt (c : Fin 32) (p : PassRec) (m : Nat) (s : State) : (freeRow c p m s).mgmt = s.mgmt := by
  unfold freeRow
  split
  · exact ackAdd_mgmt ..
  · rfl

theorem holdCause_mgmt (c : Fin 32) (w : WaitFor) (s : State) : (holdCause c w s).mgmt = s.mgmt := by
  obtain ⟨g, frame, -⟩ := holdCause_only c w s
  rw [frame]

/-- A slice that is not an escalation past the limit adds no cause of a halt. -/
theorem sliceStep_mgmt (c : Fin 32) (j : Fin 2) (g : Fin 8) (u : ArrayUnit) (p : PassRec) (m : Nat) (s : State)
    (calm : u.slicePresent g p m = true ∨ u.late.get g < 8 ∨ s.clk.escLimit = 0 ∨ s.seq.esc < s.clk.escLimit) :
    (sliceStep c j g u p m s).mgmt = s.mgmt := by
  unfold sliceStep
  split_ifs with present first few
  · exact freeRow_mgmt ..
  · rfl
  · rfl
  · have within := (calm.resolve_left present).resolve_left few
    cases new : s.waitsSlice c j g with
    | true =>
      have new' : (s.putArr c j u).waitsSlice c j g = true := new
      unfold escalate
      rw [if_pos new']
      rfl
    | false =>
      rw [escalate_holds c j g m s u new within]
      exact holdCause_mgmt ..

/-- A record that takes the place of another reaches the record and the ports (R382, R383). -/
theorem keepHalt_ports (h : HaltRec) (s : State) :
    ∃ x, keepHalt h s = { s with mgmt := { s.mgmt with halt := h }, fab := { s.fab with ports := x } } := by
  unfold keepHalt floodHalt
  dsimp only
  split_ifs
  · exact ⟨_, rfl⟩
  · exact ⟨_, rfl⟩
  · obtain ⟨x, flood⟩ := c0flood_eq none (haltMsgOf h _) { s with
      mgmt := { s.mgmt with halt := h }
      fab := { s.fab with ports := s.fab.ports.map fun p => { p with c0q := p.c0q.filter fun o => o.msg != haltMsgOf s.mgmt.halt s } } }
    exact ⟨x, flood⟩

theorem keepHalt_halt (h : HaltRec) (s : State) : (keepHalt h s).mgmt.halt = h := by
  obtain ⟨f, kept⟩ := keepHalt_frame h s
  rw [kept]

/-- EXTRA counts a cause that joins the record of its cycle. -/
theorem raiseHalt_extra (x : HaltCause) (s : State) (same : sameHaltCycle s = true) :
    (raiseHalt x s).mgmt.halt.extra = satInc s.mgmt.halt.extra := by
  have halted := sameHaltCycle_halted same
  unfold raiseHalt
  rw [if_neg (by rw [halted]; decide), if_pos halted, if_pos same]
  unfold joinHalt
  dsimp only
  rw [keepHalt_halt]

/-! ## The outcomes of a due slice -/

/-- A slice that is not the first of a direct row is present, and is counted. -/
theorem sliceStep_counts (c : Fin 32) (j : Fin 2) (g : Fin 8) (u : ArrayUnit) (p : PassRec) (m : Nat) (s : State)
    (apart : p.direct = none ∨ g ≠ 0) :
    sliceStep c j g u p m s = s.putArr c j { u with passes := u.passes.map fun x => if x = p then p.sliced g else x } := by
  have present : u.slicePresent g p m = true := by
    rw [← Bool.not_eq_false, slicePresent_false_iff]
    exact fun ⟨first, feed, _⟩ => apart.elim feed fun later => later first
  unfold sliceStep
  rw [if_pos present, enterSlice_counts g p u apart]
  split_ifs with first
  · exact freeRow_fed c p m _ (apart.resolve_right fun later => later (Fin.ext first))
  · rfl

/-- The first slice of a direct row whose bytes are at the links takes the row, and frees its position. -/
theorem sliceStep_takes (c : Fin 32) (j : Fin 2) (u : ArrayUnit) (p : PassRec) (s : State) (d : BitVec 11) (row : FedRow)
    (feed : p.direct = some d) (there : (u.rows.find? fun r => r.m == p.first + p.slices.get 0) = some row) :
    sliceStep c j 0 u p (p.slices.get 0) s = s.updCore c fun _ =>
      Claims.acked s (sdAck (tget 0 (s.core c).descs d.toNat)) 1
        ((Claims.withArray (s.core c) j (u.rowTaken p row)).rowFreed d (p.first + p.slices.get 0)) := by
  have present : u.slicePresent 0 p (p.slices.get 0) = true := by
    rw [← Bool.not_eq_false, slicePresent_false_iff]
    exact fun ⟨_, _, absent⟩ => absent row (List.mem_of_find?_eq_some there) (by simpa using List.find?_some there)
  unfold sliceStep
  rw [if_pos present, if_pos (Fin.val_zero _), freeRow_direct _ _ _ _ d _ _ feed, enterSlice_takes p u d row feed there]

theorem sliceStep_waits (c : Fin 32) (j : Fin 2) (g : Fin 8) (u : ArrayUnit) (p : PassRec) (m : Nat) (s : State)
    (absent : u.slicePresent g p m = false) (few : u.late.get g < 8) :
    sliceStep c j g u p m s = s.putArr c j { u with late := u.late.set g (u.late.get g + 1) } := by
  unfold sliceStep
  rw [absent, if_neg Bool.false_ne_true, if_pos few]

theorem sliceStep_escalates (c : Fin 32) (j : Fin 2) (g : Fin 8) (u : ArrayUnit) (p : PassRec) (m : Nat) (s : State)
    (absent : u.slicePresent g p m = false) (many : 8 ≤ u.late.get g) :
    sliceStep c j g u p m s = escalate c j g m (s.putArr c j u) := by
  unfold sliceStep
  rw [absent, if_neg Bool.false_ne_true, if_neg (Nat.not_lt.2 many)]

/-- The halt of an escalation names its core (R62, R123). -/
theorem escalationHalt_halts (c : Fin 32) (j : Fin 2) (g : Fin 8) (m : Nat) (s : State) (legs : s.seq.state = .running) :
    ∃ t, escalationHalt c j g m s = t ∧ t.seq.state = .halted ∧ t.mgmt.halt.valid = true ∧ t.mgmt.halt.reason = hcElastic ∧
      t.mgmt.halt.noCore = false ∧ t.mgmt.halt.core = BitVec.ofNat 5 c.val ∧ t.mgmt.haltCount = satInc s.mgmt.haltCount := by
  refine ⟨_, rfl, ?_⟩
  unfold escalationHalt
  rw [raiseHalt_running _ s (by rw [legs]; decide) (by rw [legs]; decide)]
  exact ⟨rfl, rfl, rfl, rfl, rfl, rfl⟩

/-- Of a halt on a die that has halted in this very cycle stay the record and its flood. -/
theorem escalationHalt_joins (c : Fin 32) (j : Fin 2) (g : Fin 8) (u : ArrayUnit) (p : PassRec) (m : Nat) (s : State)
    (same : sameHaltCycle s = true) (step : sliceStep c j g u p m s = escalationHalt c j g m (s.escCounted c j u)) :
    ∃ t, onlyCauses (sliceStep c j g u p m) s = t ∧
      t = { s with mgmt := { s.mgmt with halt := t.mgmt.halt }, fab := { s.fab with ports := t.fab.ports } } ∧
      t.mgmt.halt.extra = satInc s.mgmt.halt.extra := by
  have extra : (sliceStep c j g u p m s).mgmt.halt.extra = satInc s.mgmt.halt.extra := by
    rw [step]
    exact raiseHalt_extra _ (s.escCounted c j u) same
  refine ⟨_, rfl, ?_⟩
  unfold onlyCauses
  obtain ⟨x, kept⟩ := keepHalt_ports (sliceStep c j g u p m s).mgmt.halt s
  rw [kept]
  exact ⟨rfl, extra⟩

/-- Settles O39: a due slice takes one of the outcomes of `sliceStep`; on a die that has halted in this cycle only a further cause
counts (`onlyCauses_calm`, `escalationHalt_joins`). -/
theorem slicesEnterOrComeLate : Obligations.SlicesEnterOrComeLate := by
  intro s c j g u p m due raised slice
  obtain rfl : p.slices.get g = m := dueSlice_row u g _ p m slice
  refine ⟨fun legs => ?running, elasticSliceDue_stopped, fun same => ?halting⟩
  case running =>
    rw [elasticSliceDue_running due raised slice legs]
    refine ⟨fun fed => ?fed, fun d row feed first there k hk => ?direct, fun d _ later => ?group, slicePresent_false_iff u g p _,
      fun absent few => ?late, fun absent many new within => ?holds, fun absent many new limited past => ?halts⟩
    case fed => exact congrArg _ (sliceStep_counts c j g u p _ s (.inl fed))
    case direct =>
      subst first hk
      exact congrArg _ (sliceStep_takes c j u p s d row feed there)
    case group => exact congrArg _ (sliceStep_counts c j g u p _ s (.inr later))
    case late => exact congrArg _ (sliceStep_waits c j g u p _ s absent few)
    case holds =>
      rw [sliceStep_escalates c j g u p _ s absent many, escalate_holds c j g _ s u new within]
      refine ⟨_, rfl, ?_⟩
      cases on : s.clk.hold with
      | some h =>
        rw [holdCause_joins c _ (s.escCounted c j u) h on, countEngHold_slice]
        exact ⟨rfl, by rintro _ ⟨⟩; exact ⟨rfl, rfl⟩, nofun⟩
      | none =>
        rw [holdCause_starts c _ (s.escCounted c j u) on, countEngHold_slice]
        exact ⟨rfl, nofun, fun _ => ⟨rfl, rfl⟩⟩
    case halts =>
      obtain ⟨t, halt, rest⟩ := escalationHalt_halts c j g (p.slices.get g) (s.escCounted c j u) legs
      refine ⟨t, congrArg _ ?_, rest⟩
      rw [sliceStep_escalates c j g u p _ s absent many, escalate_halts c j g _ s u new limited past, halt]
  case halting =>
    rw [elasticSliceDue_halting due raised slice same]
    refine ⟨fun calm => congrArg _ (onlyCauses_calm _ s (sliceStep_mgmt c j g u p _ s calm)), fun absent many off limited past => ?_⟩
    have new : s.waitsSlice c j g = false := by unfold State.waitsSlice; rw [off]
    have step := (sliceStep_escalates c j g u p _ s absent many).trans (escalate_halts c j g _ s u new limited past)
    obtain ⟨t, runs, rest⟩ := escalationHalt_joins c j g u p _ s same step
    exact ⟨t, congrArg _ runs, rest⟩

end Sys2Proof.Machine

/-!
PROOFS. The vector engine (06_vector_engine.md): the commands that join it, with TURN, which joins its own engine, and the completion.
-/
namespace Sys2Proof.Machine

/-! ## Commands that join their engine (R157, R221) -/

/-- CHAIN, REDUCE and TILE_MOVE are rows of one effect. -/
theorem exec_of_vector {i : Instr} {op : Nat} {c : Fin 32} {w : CmdWords}
    (vector : i = .chain c w ∧ op = 0x20 ∨ i = .reduce c w ∧ op = 0x21 ∨ i = .tileMove c w ∧ op = 0x22) :
    ∃ name, ∀ s, exec i s = issueRow name op effVec c w s := by
  obtain ⟨rfl, rfl⟩ | ⟨rfl, rfl⟩ | ⟨rfl, rfl⟩ := vector <;> exact ⟨_, fun _ => rfl⟩

/-- Settles O29: each command works on after its issue (`issuesTo_of_effect`), and its effect is its record in its engine. -/
theorem vectorAndTurnCommandsJoinTheirEngine : Obligations.VectorAndTurnCommandsJoinTheirEngine := by
  intro s c w e rest
  refine ⟨fun i op vector ready => ?vector, fun ready => ?turn⟩
  case vector =>
    obtain ⟨name, row⟩ := exec_of_vector vector
    exact issuesTo_of_effect ready (row s) _ rfl rfl rfl
  case turn => exact issuesTo_of_effect ready rfl _ rfl rfl rfl

/-! ## The predicates of a completion (R168, R173) -/

/-- Core `k` after a completion has written predicate `i`. -/
def Core.predWritten (i : Nat) (v : Bool) (k : Core) : Core :=
  { k with preds := setBit k.preds (i % 16) v, predLate := setBit k.predLate (i % 16) true }

theorem writePred_updCore (c : Fin 32) (i : Nat) (v : Bool) (s : State) (k : Core) :
    writePred c i v (s.updCore c fun _ => k) = s.updCore c fun _ => k.predWritten i v := updCore_updCore ..

section
variable {c : Fin 32} {r : VecRec} {s : State}

/-- A chain writes its predicates in stage order. -/
theorem vecPreds_chain (chain : isChain r.words = true) (k : Core) : vecPreds c r (s.updCore c fun _ => k) =
    s.updCore c fun _ => Claims.stagePreds (((chainStages r.words).filter fun g => stOp g == 0x0A).zip r.preds) k := by
  unfold vecPreds Claims.stagePreds
  rw [if_pos chain]
  refine List.foldl_hom (fun k => s.updCore c fun _ => k) fun k g => ?stage
  split
  · rename_i any
    rw [if_pos any]
    exact writePred_updCore ..
  · rename_i all
    rw [if_neg (by omega), if_pos all]
    exact writePred_updCore ..
  · rename_i notAny notAll
    rw [if_neg notAny, if_neg notAll]

theorem vecPreds_reduce (chain : isChain r.words = false) (reduce : isReduce r.words = true) (pen : rdPen r.words = true) :
    vecPreds c r s = writePred c (rdPdest r.words) (reducePred r.words (reduceAll r.words r.srcSlices.flatten)) s := by
  unfold vecPreds
  rw [chain, if_neg Bool.false_ne_true, if_pos ⟨reduce, pen⟩]

theorem vecPreds_silent (chain : isChain r.words = false) (silent : isReduce r.words = false ∨ rdPen r.words = false) :
    vecPreds c r s = s := by
  unfold vecPreds
  rw [chain, if_neg Bool.false_ne_true, if_neg fun ⟨reduce, pen⟩ => by simp [reduce, pen] at silent]

end

/-- PDEST names one of the 16 predicates. -/
theorem rdPdest_mod (w : CmdWords) : rdPdest w % 16 = rdPdest w := Nat.mod_eq_of_lt (BitVec.isLt _)

/-! ## The mask-out block (R167) -/

/-- Core `k` after stream `d` has taken the mask-out block of `r`. -/
def Core.maskGiven (d : BitVec 11) (r : VecRec) (k : Core) : Core :=
  k.updStream d fun st => { st with
    handed := st.handed + 1
    elems := st.elems ++ [{ pos := st.handed, need := 512, len := 512, buf := mwrites [] 0 (bitsBlock r.maskOut), started := false }] }

section
variable {c : Fin 32} {r : VecRec} {s : State} {k : Core}

theorem giveMask_none (untaken : ((chMout r.words).bind fun g => maskStream k g 5) = none) :
    giveMask c r (s.updCore c fun _ => k) = s.updCore c fun _ => k := by
  unfold giveMask
  rw [updCore_core, if_pos rfl, untaken]

theorem giveMask_some {d : BitVec 11} (taken : ((chMout r.words).bind fun g => maskStream k g 5) = some d) :
    giveMask c r (s.updCore c fun _ => k) = s.updCore c fun _ => k.maskGiven d r := by
  unfold giveMask
  rw [updCore_core, if_pos rfl, taken]
  exact updCore_updCore ..

end

/-! ## The completion (R157) -/

/-- Core `k` after the command of `r` has left the engine, in which `l` stays. -/
def Core.vecLeft (l : List VecRec) (r : VecRec) (k : Core) : Core :=
  { k with vec := { k.vec with inFlight := l, lastDone := BitVec.ofNat 32 r.done } }

/-- `r` is the first command in core `c`'s engine that is done; those of `pre` and `post` stay. -/
structure FirstDone (s : State) (c : Fin 32) (pre post : List VecRec) (r : VecRec) : Prop where
  inFlight : (s.core c).vec.inFlight = pre ++ r :: post
  early : ∀ q ∈ pre, q.skipped = true ∨ q.trapped = true ∨ s.seq.cycle < q.done
  executed : r.skipped = false
  sound : r.trapped = false
  now : r.done ≤ s.seq.cycle

section
variable {s : State} {c : Fin 32} {pre post : List VecRec} {r : VecRec} (first : FirstDone s c pre post r)
include first

/-- Its mask-out block and its predicates leave the core as `k`, and its signals fire. -/
theorem FirstDone.signalsTo {k : Core} (work : vecPreds c r (if isChain r.words
      then giveMask c r (s.updCore c fun _ => (s.core c).vecLeft (pre ++ post) r)
      else s.updCore c fun _ => (s.core c).vecLeft (pre ++ post) r) = s.updCore c fun _ => k) :
    Claims.SignalsTo (.vectorComplete c) s c (sigsOf r.words) k := by
  have early : ∀ q ∈ pre, (!q.skipped && !q.trapped && decide (q.done ≤ s.seq.cycle)) = false := fun q h => by
    obtain skipped | trapped | later := first.early q h
    · rw [skipped, Bool.not_true, Bool.false_and, Bool.false_and]
    · rw [trapped, Bool.not_true, Bool.and_false, Bool.false_and]
    · rw [decide_eq_false (Nat.not_le.2 later), Bool.and_false]
  have now : (!r.skipped && !r.trapped && decide (r.done ≤ s.seq.cycle)) = true := by simp [first.executed, first.sound, first.now]
  have erased : (s.core c).vec.inFlight.erase r = pre ++ post := by rw [first.inFlight, erase_first _ pre post r early now]
  have left : (s.updCore c fun k => { k with vec := { k.vec with
      inFlight := k.vec.inFlight.erase r, lastDone := BitVec.ofNat 32 r.done } }) =
      s.updCore c fun _ => (s.core c).vecLeft (pre ++ post) r :=
    congrArg (fun l => s.updCore c fun _ => (s.core c).vecLeft l r) erased
  refine signalsTo_of_core r.idx ?_
  change execVectorComplete c s = _
  unfold execVectorComplete
  rw [first.inFlight, find_first _ pre post r early now]
  dsimp only
  rw [left, work]

/-- A TILE_MOVE, or a REDUCE without PEN, leaves the engine and fires its signals alone. -/
theorem FirstDone.silent (chain : isChain r.words = false) (silent : isReduce r.words = false ∨ rdPen r.words = false) :
    Claims.SignalsTo (.vectorComplete c) s c (sigsOf r.words) ((s.core c).vecLeft (pre ++ post) r) := by
  refine first.signalsTo ?_
  rw [chain, if_neg Bool.false_ne_true]
  exact vecPreds_silent chain silent

/-- A REDUCE with PEN writes PDEST. -/
theorem FirstDone.reduce (chain : isChain r.words = false) (reduce : isReduce r.words = true) (pen : rdPen r.words = true) :
    Claims.SignalsTo (.vectorComplete c) s c (sigsOf r.words) (((s.core c).vecLeft (pre ++ post) r).predWritten
      (rdPdest r.words) (reducePred r.words (reduceAll r.words r.srcSlices.flatten))) := by
  refine first.signalsTo ?_
  rw [chain, if_neg Bool.false_ne_true, vecPreds_reduce chain reduce pen]
  exact writePred_updCore ..

/-- A chain whose mask-out block leaves the core as `k` writes its predicates there. -/
theorem FirstDone.chain {k : Core} (chain : isChain r.words = true)
    (mask : giveMask c r (s.updCore c fun _ => (s.core c).vecLeft (pre ++ post) r) = s.updCore c fun _ => k) :
    Claims.SignalsTo (.vectorComplete c) s c (sigsOf r.words)
      (Claims.stagePreds (((chainStages r.words).filter fun g => stOp g == 0x0A).zip r.preds) k) := by
  refine first.signalsTo ?_
  rw [chain, if_pos rfl, mask]
  exact vecPreds_chain chain k

end

theorem isChain_of_opcode {w : CmdWords} {op : Nat} (code : w.opcode = op) : isChain w = (op == 0x20) := code ▸ rfl

theorem isReduce_of_opcode {w : CmdWords} {op : Nat} (code : w.opcode = op) : isReduce w = (op == 0x21) := code ▸ rfl

/-- Settles O37: the first command that is done leaves its core as `vecLeft` does (`FirstDone.signalsTo`), with what its opcode adds:
nothing, PDEST, or the mask-out block and the predicates of the compare stages. -/
theorem vectorCompletionWritesPredicates : Obligations.VectorCompletionWritesPredicates := by
  rintro s c pre post r inFlight early executed sound now k rfl
  have first : FirstDone s c pre post r := ⟨inFlight, early, executed, sound, now⟩
  refine ⟨fun move => ?move, fun reduce quiet => ?quiet, fun reduce pen => ?pen, ?untaken, ?taken⟩
  case move => exact first.silent (isChain_of_opcode move) (.inl (isReduce_of_opcode move))
  case quiet => exact first.silent (isChain_of_opcode reduce) (.inr quiet)
  case pen =>
    have written := first.reduce (isChain_of_opcode reduce) (isReduce_of_opcode reduce) pen
    unfold Core.predWritten at written
    rwa [rdPdest_mod] at written
  case untaken =>
    rintro chain _ rfl untaken
    exact first.chain (isChain_of_opcode chain) (giveMask_none untaken)
  case taken =>
    rintro chain _ rfl d taken
    exact first.chain (isChain_of_opcode chain) (giveMask_some taken)

end Sys2Proof.Machine

/-!
PROOFS. The scratchpad, the streams and the turn engine (08_scratchpad_streams.md): elements that complete, fill accesses, the stream
commands, and what the engines launch.
-/
namespace Sys2Proof.Machine

/-! ## Elements that complete (R212, R341) -/

/-- A map that changes one element, which stands at one place of the list, changes that place alone. -/
theorem map_replace_once {α : Type} [DecidableEq α] (pre post : List α) (x y : α) (before : x ∉ pre) (after : x ∉ post) :
    ((pre ++ x :: post).map fun z => if z = x then y else z) = pre ++ y :: post := by
  have keep (l : List α) (absent : x ∉ l) : (l.map fun z => if z = x then y else z) = l :=
    (List.map_congr_left fun z (mem : z ∈ l) => if_neg fun same : z = x => absent (same ▸ mem)).trans l.map_id
  rw [List.map_append, List.map_cons, if_pos rfl, keep pre before, keep post after]

/-- `t` differs from `s` at most in HARB_READY, in which bits may be set, and in the host's interrupt (R325, R341). -/
def HarborOnly (s t : State) : Prop :=
  t = { s with host := t.host } ∧
  t.host = { s.host with
    harbReady := t.host.harbReady, harbNow := t.host.harbNow, irqNow := t.host.irqNow, irqCause := t.host.irqCause
    msixPba := t.host.msixPba, msixSent := t.host.msixSent } ∧
  ∃ hit, t.host.harbReady = s.host.harbReady ||| hit

theorem HarborOnly.refl (s : State) : HarborOnly s s := ⟨rfl, rfl, 0, (BitVec.or_zero).symm⟩

theorem HarborOnly.trans {s t u : State} (first : HarborOnly s t) (second : HarborOnly t u) : HarborOnly s u := by
  obtain ⟨reach, host, hit, rises⟩ := first
  obtain ⟨reach', host', hit', rises'⟩ := second
  refine ⟨?_, ?_, hit ||| hit', by rw [rises', rises, BitVec.or_assoc]⟩
  · generalize u.host = h at reach'
    rw [reach', reach]
  · generalize u.host = h at host'
    rw [host', host]

/-- No bit of HARB_READY falls. -/
theorem HarborOnly.rises {s t : State} (only : HarborOnly s t) : s.host.harbReady &&& ~~~t.host.harbReady = 0 := by
  obtain ⟨-, -, hit, rises⟩ := only
  rw [rises, BitVec.not_or, ← BitVec.and_assoc, BitVec.and_not_self]
  exact BitVec.zero_and

theorem HarborOnly.core {s t : State} (only : HarborOnly s t) (c : Fin 32) : t.core c = s.core c := by
  rw [only.1]
  rfl

theorem setIrq_harborOnly (v : Fin 5) (s : State) : HarborOnly s (setIrq v s) := by
  unfold setIrq
  dsimp only
  split
  · exact ⟨rfl, rfl, 0, (BitVec.or_zero).symm⟩
  · split <;> exact ⟨rfl, rfl, 0, (BitVec.or_zero).symm⟩

theorem harborNote_harborOnly (a n : Nat) (s : State) : HarborOnly s (harborNote a n s) := by
  unfold harborNote
  dsimp only
  generalize s.host.harbors.foldl _ (0 : U64) = hit
  have noted : HarborOnly s { s with host := { s.host with
      harbReady := s.host.harbReady ||| hit, harbNow := s.host.harbNow.noteSet s.time.hallTime hit } } := ⟨rfl, rfl, hit, rfl⟩
  split
  · exact noted
  · exact noted.trans (setIrq_harborOnly 3 _)

theorem harborHall_harborOnly (space off n : Nat) (s : State) : HarborOnly s (harborHall space off n s) := by
  unfold harborHall
  split
  · generalize pieces 4096 off n = l
    induction l generalizing s with
    | nil => exact HarborOnly.refl s
    | cons p l ih => exact (harborNote_harborOnly (linearOf space p.1) p.2 s).trans (ih _)
  · exact HarborOnly.refl s

theorem noteElem_harborOnly (s₀ : State) (c : Fin 32) (n : BitVec 11) (s : State) : HarborOnly s (noteElem s₀ c n s) := by
  unfold noteElem
  split
  · split
    · exact harborHall_harborOnly ..
    · exact HarborOnly.refl s
  · exact HarborOnly.refl s

section
variable {s : State} {c : Fin 32} {n : BitVec 11} {pre post : List Elem} {e : Elem}

/-- The first element of a load or mask-in stream with its bytes in place completes, and leaves `l` in the stream. -/
theorem loadElementComplete_eq (elems : ((s.core c).stream n).elems = pre ++ e :: post) (landed : e.need = 0) (fresh : e.done = false)
    (first : ∀ x ∈ pre, x.need ≠ 0 ∨ x.done = true) (kind : sdKind (tget 0 (s.core c).descs n.toNat) = 1 ∨
      sdKind (tget 0 (s.core c).descs n.toNat) = 4) (l : List Elem)
    (left : (if sdKind (tget 0 (s.core c).descs n.toNat) = 1 then (pre ++ e :: post).erase e
      else (pre ++ e :: post).map fun x => if x = e then { e with done := true } else x) = l) :
    exec (.loadElementComplete c n) s = .next { s with
      cores := s.cores.set c (Claims.acked s (sdAck (tget 0 (s.core c).descs n.toNat)) 1 { s.core c with
        streams := tset {} (s.core c).streams n.toNat { (s.core c).stream n with elems := l } }) } := by
  have early : ∀ x ∈ pre, (x.need == 0 && !x.done) = false := fun x mem => by
    obtain needs | done := first x mem
    · rw [beq_false_of_ne needs, Bool.false_and]
    · rw [done, Bool.not_true, Bool.and_false]
  have update : (s.updCore c fun k => k.updStream n fun st =>
      if sdKind (tget 0 (s.core c).descs n.toNat) = 1 then { st with elems := st.elems.erase e }
      else { st with elems := st.elems.map fun x => if x = e then { e with done := true } else x }) =
      s.updCore c fun _ => { s.core c with
        streams := tset {} (s.core c).streams n.toNat { (s.core c).stream n with elems := l } } := by
    rw [← left, ← elems]
    unfold State.updCore Core.updStream
    split <;> rfl
  change execLoadElementComplete c n s = _
  unfold execLoadElementComplete
  dsimp only
  rw [if_pos kind, elems, find_first _ pre post e early (by rw [landed, fresh]; rfl)]
  dsimp only
  rw [update, ackAdd_acked]
  rfl

/-- Core `k` after the element of position `p` has left store stream `n`, in which `l` stays: its position is free again, and it leaves the
ordered path where it stands at the front. -/
def Core.storeLeft (n : BitVec 11) (l : List Elem) (p : Nat) (k : Core) : Core :=
  { k with
    streams := tset {} k.streams n.toNat { k.stream n with elems := l, freed := (k.stream n).freed + 1 }
    path := if k.path.head? = some (.store n p) then k.path.drop 1 else k.path }

theorem storeComplete_eq (elems : ((s.core c).stream n).elems = pre ++ e :: post) (landed : e.need = 0) (out : e.started = true)
    (first : ∀ x ∈ pre, x.started = false ∨ x.need ≠ 0) (kind : sdKind (tget 0 (s.core c).descs n.toNat) = 2 ∨
      sdKind (tget 0 (s.core c).descs n.toNat) = 5) :
    storeComplete c n s = s.updCore c fun _ =>
      Claims.acked s (sdAck (tget 0 (s.core c).descs n.toNat)) 1 ((s.core c).storeLeft n (pre ++ post) e.pos) := by
  have early : ∀ x ∈ pre, (x.started && x.need == 0) = false := fun x mem => by
    obtain waits | needs := first x mem
    · rw [waits, Bool.false_and]
    · rw [beq_false_of_ne needs, Bool.and_false]
  have now : (e.started && e.need == 0) = true := by rw [out, landed]; rfl
  have rest : ((s.core c).stream n).elems.erase e = pre ++ post := by
    rw [elems, erase_first (fun x => x.started && x.need == 0) pre post e early now]
  unfold storeComplete
  dsimp only
  rw [if_pos kind, elems, find_first _ pre post e early now]
  dsimp only
  rw [← ackAdd_acked]
  refine congrArg (ackAdd (BitVec.ofNat 5 c.val) _) (congrArg (fun k => { s with cores := s.cores.set c k }) ?_)
  unfold Core.storeLeft Core.updStream
  dsimp only
  rw [rest]
  by_cases front : (s.core c).path.head? = some (.store n e.pos)
  · obtain ⟨t, path⟩ := List.head?_eq_some_iff.1 front
    rw [if_pos front, path]
    exact if_pos ⟨rfl, rfl⟩
  · rw [if_neg front]
    split
    · rename_i x q t path
      refine if_neg fun ⟨desc, pos⟩ => front ?_
      rw [desc, pos] at path
      exact List.head?_eq_some_iff.2 ⟨t, path⟩
    · rfl

end

/-- Settles O43: the first element that is through leaves its stream (`loadElementComplete_eq`, `storeComplete_eq`), and what it covers of a
harbor's words reaches the host's part alone (`noteElem_harborOnly`). -/
theorem elementsCompleteInOrder : Obligations.ElementsCompleteInOrder := by
  rintro s c n d st pre post e rfl rfl elems landed
  refine ⟨fun kind fresh first => ?load, fun kind fresh first once => ?mask, fun notLoad notMask => ?other, fun kind out first => ?store,
    fun notStore notTurn => ?none⟩
  case load =>
    have early : ∀ x ∈ pre, (decide (x.need = 0) && !x.done) = false := fun x mem => by
      obtain needs | done := first x mem
      · rw [decide_eq_false needs, Bool.false_and]
      · rw [done, Bool.not_true, Bool.and_false]
    refine loadElementComplete_eq elems landed fresh first (.inl kind) (pre ++ post) ?_
    exact (if_pos kind).trans (erase_first (fun x => decide (x.need = 0) && !x.done) pre post e early (by simp [landed, fresh]))
  case mask =>
    have before : e ∉ pre := fun mem => by
      have := first e mem
      simp [landed, fresh] at this
    refine loadElementComplete_eq elems landed fresh first (.inr kind) _ ?_
    exact (if_neg (by rw [show sdKind _ = 4 from kind]; decide)).trans (map_replace_once pre post e _ before once)
  case other =>
    change execLoadElementComplete c n s = _
    unfold execLoadElementComplete
    dsimp only
    rw [if_neg fun kind => kind.elim notLoad notMask]
  case store =>
    have note := noteElem_harborOnly s c n (storeComplete c n s)
    have runs : exec (.storeElementComplete c n) s = .next (noteElem s c n (storeComplete c n s)) := congrArg _ (if_pos kind)
    rw [storeComplete_eq elems landed out first kind] at note runs
    generalize noteElem s c n _ = t at note runs
    have core := note.core c
    have rises := note.rises
    obtain ⟨reach, host, -⟩ := note
    rw [updCore_core, if_pos rfl] at core
    refine ⟨t, runs, ?_, core, host, rises⟩
    rw [core]
    exact reach
  case none =>
    change execStoreElementComplete c n s = _
    unfold execStoreElementComplete
    dsimp only
    rw [if_neg fun kind => kind.elim notStore notTurn]

end Sys2Proof.Machine

namespace Sys2Proof.Machine

/-! ## Fill accesses (R197, R200, R201) -/

/-- What an access brings may change cores, the fabric and the host, but no core's scratchpad and no fill that waits. -/
def FillsKept (s t : State) : Prop :=
  t = { s with cores := t.cores, fab := t.fab, host := t.host } ∧
  ∀ k, (t.core k).spad = (s.core k).spad ∧ (t.core k).fills = (s.core k).fills

theorem FillsKept.refl (s : State) : FillsKept s s := ⟨rfl, fun _ => ⟨rfl, rfl⟩⟩

theorem FillsKept.trans {s t u : State} (first : FillsKept s t) (second : FillsKept t u) : FillsKept s u := by
  obtain ⟨reach, kept⟩ := first
  obtain ⟨reach', kept'⟩ := second
  refine ⟨?_, fun k => ⟨(kept' k).1.trans (kept k).1, (kept' k).2.trans (kept k).2⟩⟩
  generalize u.cores = x, u.fab = y, u.host = z at reach'
  rw [reach', reach]

theorem updCore_fillsKept (s : State) (c : Fin 32) (f : Core → Core) (spad : (f (s.core c)).spad = (s.core c).spad)
    (fills : (f (s.core c)).fills = (s.core c).fills) : FillsKept s (s.updCore c f) := by
  refine ⟨rfl, fun k => ?_⟩
  rw [updCore_core]
  split
  · rename_i same
    rw [same]
    exact ⟨spad, fills⟩
  · exact ⟨rfl, rfl⟩

/-- A landed line is counted, and nothing else. -/
theorem lineLanded_core (f : FillAcc) (s : State) (k : Fin 32) :
    (lineLanded f s).core k = { s.core k with engines := ((lineLanded f s).core k).engines } := by
  unfold lineLanded
  split
  · dsimp only
    rw [updCore_core]
    split
    · rename_i same
      rw [same]
      rfl
    · rfl
  · rfl

theorem lineLanded_fillsKept (f : FillAcc) (s : State) : FillsKept s (lineLanded f s) := by
  unfold lineLanded
  split
  · exact updCore_fillsKept _ _ _ rfl rfl
  · exact .refl s

theorem elemGot_fillsKept (c : Fin 32) (d : BitVec 11) (p n : Nat) (s : State) : FillsKept s (elemGot c d p n s) :=
  updCore_fillsKept s c (fun k => k.updStream d fun st => updElem p (fun e => { e with need := e.need - n }) st) rfl rfl

theorem accepted_fillsKept (tag : Tag) (n : Nat) (s : State) : FillsKept s (accepted tag n s) := by
  have outside (x : Fabric) (y : HostDom) : FillsKept s { s with fab := x, host := y } := ⟨rfl, fun _ => ⟨rfl, rfl⟩⟩
  unfold accepted
  cases tag with
  | loadPiece | storePiece => exact elemGot_fillsKept ..
  | turnWrite c i =>
    unfold updTurn
    exact updCore_fillsKept s c _ rfl rfl
  | message | readValue => exact updCore_fillsKept s _ _ rfl rfl
  | item => exact outside _ s.host
  | hostWrite | posted | relayed => exact outside s.fab _
  | none | bufPiece | listEntry | turnPiece | job | ingress => exact .refl s

/-- The bytes of an element that have been written no longer miss in its stream. -/
theorem elemGot_streams (c : Fin 32) (d : BitVec 11) (p n : Nat) (s : State) (k : Core) (before : (s.core c).streams = k.streams) :
    ((elemGot c d p n s).core c).streams = tset {} k.streams d.toNat { k.stream d with
      elems := (k.stream d).elems.map fun x => if x.pos = p then { x with need := x.need - n } else x } := by
  unfold elemGot Core.stream
  rw [updCore_core, if_pos rfl, ← before]
  rfl

section
variable {s : State} {c : Fin 32} {bank : BitVec 5} {f : FillAcc}

/-- A fill whose port or bank has made its access of the cycle waits. -/
theorem fillAccess_waits (next : nextFill (s.core c).fills bank.toNat = some f)
    (used : f.port ∈ ((s.core c).filled (s.time.hallTime, s.seq.cycle)).1 ∨
      bank.toNat ∈ ((s.core c).filled (s.time.hallTime, s.seq.cycle)).2) :
    exec (.fillAccess c bank) s = .next s := by
  change execFillAccess c bank s = _
  unfold execFillAccess
  dsimp only
  rw [next]
  dsimp only
  rw [if_pos (used.imp List.contains_iff_mem.2 List.contains_iff_mem.2), ite_self]

/-- Core `c` of `s` once fill `f` has made its access and left the queue. -/
def State.fillGone (s : State) (c : Fin 32) (bank : BitVec 5) (f : FillAcc) : Core :=
  { Claims.noted s c bank f with fills := (s.core c).fills.erase f }

/-- The state in which fill `f` has written `l` and left the queue, before what its tag brings. -/
def State.fillMade (s : State) (c : Fin 32) (bank : BitVec 5) (f : FillAcc) (l : List Byte) : State :=
  lineLanded f (s.updCore c fun _ => (s.fillGone c bank f).fillWrite f.addr l)

theorem fillAccess_write (turn : Claims.FillTurn s c bank f) (l : List Byte) (op : f.op = .write l) :
    exec (.fillAccess c bank) s = .next (accepted f.tag l.length (s.fillMade c bank f l)) := by
  obtain ⟨free, next, port, once⟩ := turn
  change execFillAccess c bank s = _
  unfold execFillAccess
  dsimp only
  rw [if_neg (show ¬ (s.running = true ∧ bit (s.core c).busyBanks bank.toNat = true) from free), next]
  dsimp only
  rw [if_neg (not_or.2 ⟨mt List.contains_iff_mem.1 port, mt List.contains_iff_mem.1 once⟩), op]
  dsimp only
  rw [updCore_updCore]
  rfl

theorem fillAccess_read (turn : Claims.FillTurn s c bank f) (n : Nat) (op : f.op = .read n) :
    exec (.fillAccess c bank) s =
      .next (deliver f.tag (s.fillBytes (s.core c) f.addr n) (s.updCore c fun _ => s.fillGone c bank f)) := by
  obtain ⟨free, next, port, once⟩ := turn
  change execFillAccess c bank s = _
  unfold execFillAccess
  dsimp only
  rw [if_neg (show ¬ (s.running = true ∧ bit (s.core c).busyBanks bank.toNat = true) from free), next]
  dsimp only
  rw [if_neg (not_or.2 ⟨mt List.contains_iff_mem.1 port, mt List.contains_iff_mem.1 once⟩), op]
  dsimp only
  rw [updCore_updCore]
  rfl

/-- The write of fill `f` and what it brings: all that it leaves unchanged, and the bytes that it writes. -/
theorem fillAccess_written (turn : Claims.FillTurn s c bank f) (l : List Byte) (op : f.op = .write l) :
    ∃ t : State, exec (.fillAccess c bank) s = .next t ∧ t = { s with cores := t.cores, fab := t.fab, host := t.host } ∧
      (t.core c).fills = (s.core c).fills.erase f ∧ (t.core c).spad = mwrites (s.core c).spad f.addr l ∧
      ∀ k, k ≠ c → (t.core k).spad = (s.core k).spad ∧ (t.core k).fills = (s.core k).fills := by
  obtain ⟨reach, kept⟩ := (lineLanded_fillsKept f (s.updCore c fun _ => (s.fillGone c bank f).fillWrite f.addr l)).trans
    (accepted_fillsKept f.tag l.length _)
  have here := kept c
  rw [updCore_core, if_pos rfl] at here
  obtain ⟨spad, fills⟩ := here
  refine ⟨_, fillAccess_write turn l op, reach, fills, spad, fun k other => ?_⟩
  have there := kept k
  rwa [updCore_core, if_neg other] at there

/-- The write itself leaves every core's streams and its place on its ordered path. -/
theorem fillMade_transfers (s : State) (c : Fin 32) (bank : BitVec 5) (f : FillAcc) (l : List Byte) (k : Fin 32) :
    ((s.fillMade c bank f l).core k).streams = (s.core k).streams ∧ ((s.fillMade c bank f l).core k).pathNeed = (s.core k).pathNeed := by
  unfold State.fillMade
  rw [lineLanded_core]
  dsimp only
  rw [updCore_core]
  split
  · rename_i same
    rw [same]
    simp only [Core.fillWrite, State.fillGone, Claims.noted, and_self]
  · exact ⟨rfl, rfl⟩

end

/-- Settles O42: a write is made as `fillAccess_written` says and brings what its tag says, a read is delivered (`fillAccess_read`). -/
theorem fillsAreWrittenInFreeBanks : Obligations.FillsAreWrittenInFreeBanks := by
  intro s c bank
  refine ⟨fun run busy => ?busy, fun none => ?idle, fun f next used => fillAccess_waits next used,
    fun f turn => ⟨fun l op tag => ?plain, fun l op => ?write, fun n i o b op tag bytes => ?read, fun n fresh => ?fresh⟩⟩
  case busy =>
    change execFillAccess c bank s = _
    unfold execFillAccess
    dsimp only
    rw [if_pos (show s.running = true ∧ bit (s.core c).busyBanks bank.toNat = true from ⟨run, busy⟩)]
  case idle =>
    change execFillAccess c bank s = _
    unfold execFillAccess
    dsimp only
    rw [none, ite_self]
  case plain =>
    rw [fillAccess_write turn l op]
    unfold State.fillMade lineLanded
    rw [tag]
    rfl
  case write =>
    obtain ⟨t, runs, reach, fills, spad, others⟩ := fillAccess_written turn l op
    obtain rfl : t = _ := Host.Outcome.next.inj (runs.symm.trans (fillAccess_write turn l op))
    refine ⟨_, runs, reach, fills, spad, others, fun n p a tag => ?_, fun k n p tag => ?_, fun k tag => ?_⟩
    · rw [tag]
      unfold accepted
      exact elemGot_streams c n p l.length _ _ (fillMade_transfers s c bank f l c).1
    · rw [tag]
      unfold accepted
      exact elemGot_streams k n p l.length _ _ (fillMade_transfers s c bank f l k).1
    · rw [tag]
      rw [← (fillMade_transfers s c bank f l k).2]
      unfold accepted
      rw [updCore_core, if_pos rfl]
  case read =>
    rw [fillAccess_read turn n op, tag, bytes]
    rfl
  case fresh =>
    unfold State.fillBytes
    rw [fresh]

end Sys2Proof.Machine

namespace Sys2Proof.Machine

/-! ## The stream commands (R209 to R218, R226) -/

section
variable {i : Instr} {name : String} {op : Nat} {eff : Fin 32 → LookEntry → State → State} {s : State} {c : Fin 32} {w : CmdWords}
  {e : LookEntry} {rest : List LookEntry}

/-- A ready command is the head of its core's looked-out ones. -/
theorem heads_of_ready (ready : Claims.Ready op s c w e rest) : Heads s c w e rest := by
  obtain ⟨-, head, norm, run, now, -, -, -, entries⟩ := ready
  exact ⟨head, norm, run, now, entries⟩

/-- A ready command has its effect, and takes its slot. -/
theorem exec_of_ready (ready : Claims.Ready op s c w e rest) (row : exec i s = issueRow name op eff c w s) :
    exec i s = .next (lastCommand c e (((eff c e s).updCore c (trackWrites (bit s.seq.cfg 0) e)).updCore c (slotTaken (heldUntil s c e) e))) := by
  have heads := heads_of_ready ready
  obtain ⟨rfl, -, -, -, -, sound, goes, -, -⟩ := ready
  rw [row, heads.issueRow_eq, heads.judgeCmd_sound _ sound]
  unfold takeCmd
  rw [goes]
  rfl

/-- A ready command that changes its core to `k` and the fabric to `f` and then fires its signals. -/
theorem issuesSending_of_fired (ready : Claims.Ready op s c w e rest) (row : exec i s = issueRow name op eff c w s) (k : Core) (f : Fabric)
    (effect : eff c e s = fireSignals c e.idx (sigsOf e.words) (State.updCore { s with fab := f } c fun _ => k))
    (ahead : k.ahead = (s.core c).ahead) (words : k.blockWords = (s.core c).blockWords) :
    Claims.IssuesSending (· = f) i s c e rest fun t => Claims.Signalled t c (sigsOf w) k := by
  have runs := exec_of_ready ready row
  have sigs := sigsOf_ready ready
  obtain ⟨-, head, -, -, -, -, -, more, -⟩ := ready
  have fired := fireSignals_fired c e.idx (sigsOf w) (State.updCore { s with fab := f } c fun _ => k)
  rw [effect, sigs] at runs
  generalize fireSignals c e.idx (sigsOf w) (State.updCore { s with fab := f } c fun _ => k) = u at fired runs
  have core : u.core c = _ := fired.2.1
  rw [updCore_core, if_pos rfl] at core
  have slot := lastCommand_slotTaken (heldUntil s c e) (bit s.seq.cfg 0) c e rest u
    (by rw [core]; exact ahead.trans head) (by rw [core]; exact more.trans_eq words.symm)
  generalize lastCommand c e _ = t at slot runs
  obtain ⟨reach, issued, quiet⟩ := slotTaken_signalled fired slot
  exact ⟨t, runs, reach, issued, fun silent => quiet (sigs ▸ silent)⟩

end

/-- Core `k` once stream `d` is armed with descriptor `desc` by the command of index `idx`: its totals are 0, and a direct feed's links are
empty. -/
def Core.streamArmed (d : BitVec 11) (desc : BitVec 512) (idx : Nat) (k : Core) : Core :=
  { Claims.linksEmptied desc k with
    streams := tset {} k.streams d.toNat
      { armed := true, arms := (k.stream d).arms + 1, bases := [⟨sdHallBase desc, sdSpBase desc, idx⟩] }
    descs := tset 0 k.descs d.toNat desc }

theorem streamArmed_ahead (d : BitVec 11) (desc : BitVec 512) (idx : Nat) (k : Core) : (k.streamArmed d desc idx).ahead = k.ahead := by
  unfold Core.streamArmed Claims.linksEmptied
  split <;> rfl

theorem streamArmed_blockWords (d : BitVec 11) (desc : BitVec 512) (idx : Nat) (k : Core) :
    (k.streamArmed d desc idx).blockWords = k.blockWords := by
  unfold Core.streamArmed Claims.linksEmptied
  split <;> rfl

/-- The descriptor that a command with new bases, or without, leaves its stream (R203). -/
def armedDesc (e : LookEntry) (desc : BitVec 512) : BitVec 512 :=
  if bit (opA e.words) 16 then sdWithBase desc (e.words.w1.extractLsb' 0 64) (bits e.words.w1 88 64) else desc

theorem effStreamArm_eq (c : Fin 32) (e : LookEntry) (s : State) (d : BitVec 11) (desc : BitVec 512) (named : cmdDesc e.words = d)
    (held : tget 0 (s.core c).descs d.toNat = desc) :
    effStreamArm c e s = State.updCore { s with fab := { s.fab with awaiting := s.fab.awaiting.map (orphan c d (sdAck desc)) } } c
      (Core.streamArmed d (armedDesc e desc) e.idx) := by
  subst named held
  generalize new : armedDesc e _ = desc
  unfold armedDesc at new
  unfold effStreamArm
  dsimp only
  simp only [new]
  refine congrArg (State.updCore _ c) (funext fun k => ?_)
  unfold Core.streamArmed Claims.linksEmptied sdKind
  split <;> rfl

/-- Core `k` once stream `d` has the bases of a next round, which descriptor `desc` names. -/
def Core.streamRearmed (d : BitVec 11) (desc : BitVec 512) (idx : Nat) (k : Core) : Core :=
  { k with
    streams := tset {} k.streams d.toNat { k.stream d with bases := (k.stream d).bases ++ [⟨sdHallBase desc, sdSpBase desc, idx⟩] }
    descs := tset 0 k.descs d.toNat desc }

/-- Core `k` once `h` positions of load stream `d` are handed over and `f` are free. -/
def Core.loadHanded (d : BitVec 11) (h f : Nat) (k : Core) : Core :=
  { k with streams := tset {} k.streams d.toNat { k.stream d with
      handed := (k.stream d).handed + h, freed := (k.stream d).freed + f
      list := (k.stream d).list.filter fun x => decide ((k.stream d).freed + f ≤ x.1) } }

/-- The moves of the blocks that a store hand-over hands over (R211). -/
def State.handed (s : State) (c : Fin 32) (e : LookEntry) : List (Nat × RoundBase × Move) :=
  handMoves s (tget 0 (s.core c).descs (cmdDesc e.words).toNat) ((s.core c).stream (cmdDesc e.words))
    ((s.core c).stream (cmdDesc e.words)).handed (bits (opA e.words) 20 16)

/-- The record of a store hand-over whose blocks move by `ms`. -/
def handRecord (s : State) (e : LookEntry) (ms : List (Nat × RoundBase × Move)) : StoreHand :=
  { idx := e.idx, issue := e.issue, desc := cmdDesc e.words, skipped := false, sig := sigsOf e.words
    port := (ms.head?.map fun m => haModule m.2.2.hall).bind (firstPort s)
    moves := ms.map fun m => ⟨m.1, m.2.2.hall, m.2.2.sp, m.2.2.len⟩
    lines := ms.flatMap fun m => blockReads m.2.2.sp m.2.2.len }

/-- Core `k` once `n` positions of store stream `d` are handed over as `h`. -/
def Core.storeHanded (d : BitVec 11) (n : Nat) (h : StoreHand) (k : Core) : Core :=
  { k with
    streams := tset {} k.streams d.toNat { k.stream d with
      handed := (k.stream d).handed + n
      list := (k.stream d).list.filter fun x => decide ((k.stream d).handed + n ≤ x.1) }
    engines := k.engines.set (engOf (d.toNat / 512)) { k.eng (engOf (d.toNat / 512)) with
      hands := (k.eng (engOf (d.toNat / 512))).hands ++ [h] } }

theorem effHand_load {c : Fin 32} {e : LookEntry} {s : State}
    (kind : sdKind (tget 0 (s.core c).descs (cmdDesc e.words).toNat) ≠ 2) :
    effHand c e s = fireSignals c e.idx (sigsOf e.words)
      (s.updCore c (Core.loadHanded (cmdDesc e.words) (bits (opA e.words) 20 16) (bits (opA e.words) 36 32))) := by
  unfold effHand
  rw [if_neg fun store => kind store.1, if_neg kind]
  unfold andSignals effStreamHand
  dsimp only
  rw [if_neg kind]
  rfl

section
variable {c : Fin 32} {e : LookEntry} {s : State}
  (kind : sdKind (tget 0 (s.core c).descs (cmdDesc e.words).toNat) = 2)
include kind

theorem effHand_empty (empty : bits (opA e.words) 20 16 = 0) : effHand c e s = fireSignals c e.idx (sigsOf e.words) s := by
  unfold effHand
  rw [if_neg fun store => store.2 empty, if_pos kind]

theorem effHand_fault (blocks : bits (opA e.words) 20 16 ≠ 0) (m : Nat × RoundBase × Move)
    (bad : (s.handed c e).find? (fun m => m.2.2.fault.isSome) = some m) :
    effHand c e s = streamFault c (cmdDesc e.words) (tget 0 (s.core c).descs (cmdDesc e.words).toNat) m.2.1 m.1 (m.2.2.fault.getD 0) s := by
  unfold effHand
  rw [if_pos ⟨kind, blocks⟩]
  unfold effStreamHand
  dsimp only
  unfold State.handed at bad
  rw [if_pos kind, bad]

theorem effHand_store (blocks : bits (opA e.words) 20 16 ≠ 0) (sound : ∀ m ∈ s.handed c e, m.2.2.fault = none) :
    effHand c e s = s.updCore c (Core.storeHanded (cmdDesc e.words) (bits (opA e.words) 20 16) (handRecord s e (s.handed c e))) := by
  have nowhere : (s.handed c e).find? (fun m => m.2.2.fault.isSome) = none :=
    List.find?_eq_none.2 fun m mem => by rw [sound m mem]; exact Bool.false_ne_true
  unfold effHand
  rw [if_pos ⟨kind, blocks⟩]
  unfold effStreamHand
  dsimp only
  unfold State.handed at nowhere
  rw [if_pos kind, nowhere]
  rfl

end

/-- A block outside its bounds halts a die that runs, and leaves its stream faulted (R226). -/
theorem streamFault_halts (c : Fin 32) (d : BitVec 11) (desc : BitVec 512) (b : RoundBase) (p : Nat) (x : U64) (s : State)
    (legs : s.seq.state = .running) :
    (streamFault c d desc b p x s).seq.state = .halted ∧
      (streamFault c d desc b p x s).mgmt.halt = haltRecord ⟨hcBound, some c, BitVec.ofNat 8 (4 + d.toNat / 512), some b.cmd,
        BitVec.ofNat 64 (p % 2 ^ 32 + 2 ^ 32 * d.toNat + 2 ^ 44 * faultSource desc), x⟩ s ∧
      (streamFault c d desc b p x s).core c = (s.core c).updStream d fun st => { st with faulted := true } := by
  let u := s.updCore c fun k => k.updStream d fun st => { st with faulted := true }
  have runs : u.seq.state = .running := legs
  have core : u.core c = _ := (updCore_core ..).trans (if_pos rfl)
  unfold streamFault
  dsimp only
  rw [raiseHalt_running _ u (by rw [runs]; decide) (by rw [runs]; decide)]
  exact ⟨rfl, rfl, core⟩

/-! ## Block entries that are read at issue (R205, R277) -/

/-- What issues now in core `c` of `s` still does in `t`, and the same commands are looked out there. -/
def KeepsIssue (c : Fin 32) (s t : State) : Prop :=
  (t.core c).ahead = (s.core c).ahead ∧ ∀ e, s.issuing e = true → t.issuing e = true

theorem KeepsIssue.refl (c : Fin 32) (s : State) : KeepsIssue c s s := ⟨rfl, fun _ => id⟩

theorem KeepsIssue.trans {c : Fin 32} {s t u : State} (first : KeepsIssue c s t) (second : KeepsIssue c t u) : KeepsIssue c s u :=
  ⟨second.1.trans first.1, fun e due => second.2 e (first.2 e due)⟩

theorem keepsIssue_of_same (c : Fin 32) (s t : State) (cores : t.cores = s.cores) (seq : t.seq = s.seq) (clk : t.clk = s.clk)
    (time : t.time = s.time) (halt : t.mgmt.halt = s.mgmt.halt) : KeepsIssue c s t := by
  refine ⟨by rw [State.core, State.core, cores], fun e due => ?_⟩
  simpa only [State.issuing, State.running, sameHaltCycle, seq, clk, time, halt] using due

theorem noteCorrected_keepsIssue (c : Fin 32) (a : Nat) (s : State) : KeepsIssue c s (noteCorrected a s) := by
  unfold noteCorrected
  dsimp only
  rw [checkService_frame]
  split <;> exact keepsIssue_of_same c s _ rfl rfl rfl rfl rfl

theorem logErr_keepsIssue (c : Fin 32) (code : U16) (core : Option (Fin 32)) (d0 d1 : U64) (s : State) :
    KeepsIssue c s (logErr code core d0 d1 s) := by
  have halt := logErr_halt code core d0 d1 s
  have frame := logErr_frame code core d0 d1 s
  generalize logErr code core d0 d1 s = t at frame halt
  refine keepsIssue_of_same c s t ?_ ?_ ?_ ?_ halt <;> rw [frame]

/-- A command that issues in the cycle of a halt still issues. -/
theorem raiseHalt_keepsIssue (c : Fin 32) (x : HaltCause) (s : State) (named : x.reason ≠ 0) (loaded : s.seq.state ≠ .empty)
    (live : s.seq.state ≠ .halted) : KeepsIssue c s (raiseHalt x s) := by
  rw [raiseHalt_running x s loaded live]
  refine ⟨rfl, fun e due => ?_⟩
  have now : (e.issue == s.seq.cycle) = true := (Bool.and_eq_true_iff.1 due).1
  refine Bool.and_eq_true_iff.2 ⟨now, Bool.or_eq_true_iff.2 (.inr ?_)⟩
  simpa [sameHaltCycle, haltRecord] using named

theorem ueFound_keepsIssue (c : Fin 32) (rq a : Nat) (s : State) : KeepsIssue c s (ueFound rq a s) := by
  have row : KeepsIssue c s (ueRow a s) := keepsIssue_of_same c s _ rfl rfl rfl rfl rfl
  unfold ueFound
  dsimp only
  split
  · exact row.trans (logErr_keepsIssue ..)
  · split
    · rename_i halts
      refine row.trans (raiseHalt_keepsIssue c _ _ (show hcEcc ≠ 0 by decide) (fun state => ?_) fun state => ?_) <;>
        simp [State.ueHalts, state] at halts
    · exact row.trans (logErr_keepsIssue ..)

theorem blockRead_keepsIssue (c : Fin 32) (rq a n : Nat) (flip : ErrPat) (s : State) : KeepsIssue c s (blockRead rq a n flip s).2 := by
  unfold blockRead
  split
  · exact .refl c s
  · exact noteCorrected_keepsIssue c a s
  · exact ueFound_keepsIssue c rq a s

theorem dramRead_keepsIssue (c : Fin 32) (rq a n : Nat) (s : State) : KeepsIssue c s (dramRead rq a n s).2 := by
  unfold dramRead
  generalize pieces 64 a n = l
  induction l generalizing s with
  | nil => exact .refl c s
  | cons p l ih => exact (blockRead_keepsIssue c rq p.1 p.2 [] s).trans (ih _)

theorem readEntry_keepsIssue (c : Fin 32) (d : BitVec 11) (p : Nat) (s : State) : KeepsIssue c s (readEntry c d p s) := by
  have read := dramRead_keepsIssue c rqStream (listAddr (tget 0 (s.core c).descs d.toNat) p) 16 s
  unfold readEntry
  split
  · rename_i t got
    rw [got] at read
    refine read.trans ⟨?_, fun _ => id⟩
    rw [updCore_core, if_pos rfl]
    rfl
  · rename_i t got
    rw [got] at read
    exact read

theorem readEntries_keepIssue (c : Fin 32) (d : BitVec 11) (l : List Nat) (s : State) : KeepsIssue c s (foldS (readEntry c d) l s) := by
  induction l generalizing s with
  | nil => exact .refl c s
  | cons p l ih => exact (readEntry_keepsIssue c d p s).trans (ih _)

/-- A row whose command is due issues it. -/
theorem issueRow_of_due {name : String} {eff : Fin 32 → LookEntry → State → State} {s : State} {c : Fin 32} {w : CmdWords} {e : LookEntry}
    {rest : List LookEntry} {op : Nat} (code : w.opcode = op) (head : (s.core c).ahead = e :: rest) (norm : e.words = normWords w)
    (due : s.issuing e = true) : issueRow name op eff c w s = .next (issueCmd eff c e s) := by
  unfold issueRow
  rw [if_pos code, head]
  exact if_pos ⟨norm, due⟩

/-- A command whose block entries are all read by then issues from the state after the reads (R205). -/
theorem issueCmd_of_read {eff : Fin 32 → LookEntry → State → State} {s : State} {c : Fin 32} {e : LookEntry}
    (read : missingEntries ((foldS (readEntry c (cmdDesc e.words)) (missingEntries (s.core c) e.words) s).core c) e.words = []) :
    issueCmd eff c e s = issueCmd eff c e (foldS (readEntry c (cmdDesc e.words)) (missingEntries (s.core c) e.words) s) := by
  unfold issueCmd
  dsimp only
  rw [if_pos read, read]
  exact (if_pos read).symm

/-- A hand-over with a block entry that cannot be read takes its slot, and no more (R277). -/
theorem issueCmd_of_unread {eff : Fin 32 → LookEntry → State → State} {s : State} {c : Fin 32} {e : LookEntry}
    (unread : missingEntries ((foldS (readEntry c (cmdDesc e.words)) (missingEntries (s.core c) e.words) s).core c) e.words ≠ []) :
    issueCmd eff c e s = (foldS (readEntry c (cmdDesc e.words)) (missingEntries (s.core c) e.words) s).updCore c (slotUsed e) :=
  if_neg unread

/-- Settles O30: a ready command has the effect that its case names (`effStreamArm_eq` to `effHand_store`) or halts the die
(`streamFault_halts`); one whose block entries are not all read issues from the state after the reads (`issueCmd_of_read`). -/
theorem streamCommands : Obligations.StreamCommands := by
  rintro s c w e rest d desc st named rfl rfl
  refine ⟨?arm, ?rearm, ?stop, ?load, ?empty, ?store, ?fault, ?missing⟩
  case arm =>
    rintro desc' rfl ready
    have desc : cmdDesc e.words = d := by rw [cmdDesc, opA_of_ready ready, named]
    rw [← opA_of_ready ready]
    exact issuesSending_of_fired ready rfl (Core.streamArmed d (armedDesc e _) e.idx (s.core c)) _
      (congrArg (fireSignals c e.idx _) (effStreamArm_eq c e s d _ desc rfl)) (streamArmed_ahead ..) (streamArmed_blockWords ..)
  case rearm =>
    rintro desc' rfl ready
    obtain rfl : d = cmdDesc e.words := by rw [cmdDesc, opA_of_ready ready, named]
    exact issuesTo_of_core ready rfl (Core.streamRearmed (cmdDesc e.words) _ e.idx (s.core c)) rfl rfl rfl
  case stop =>
    intro ready
    obtain rfl : d = cmdDesc e.words := by rw [cmdDesc, opA_of_ready ready, named]
    exact issuesTo_of_core ready rfl _ rfl rfl rfl
  case load =>
    intro ready kind
    obtain rfl : d = cmdDesc e.words := by rw [cmdDesc, opA_of_ready ready, named]
    rw [← opA_of_ready ready]
    exact issuesSending_of_fired ready rfl (Core.loadHanded (cmdDesc e.words) _ _ (s.core c)) s.fab (effHand_load kind) rfl rfl
  case empty =>
    intro ready kind empty
    obtain rfl : d = cmdDesc e.words := by rw [cmdDesc, opA_of_ready ready, named]
    rw [← opA_of_ready ready] at empty
    refine issuesSending_of_fired ready rfl (s.core c) s.fab ?_ rfl rfl
    exact (effHand_empty kind empty).trans (congrArg (fireSignals c e.idx _) (updCore_self s c).symm)
  case store =>
    rintro ready kind blocks ms rfl sound
    obtain rfl : d = cmdDesc e.words := by rw [cmdDesc, opA_of_ready ready, named]
    rw [← opA_of_ready ready] at blocks sound ⊢
    refine ⟨handRecord s e (s.handed c e), rfl, rfl, rfl, rfl, sigsOf_ready ready, rfl, rfl, rfl, ?_⟩
    exact issuesTo_of_effect ready rfl (Core.storeHanded (cmdDesc e.words) _ _ (s.core c)) (effHand_store kind blocks sound) rfl rfl
  case fault =>
    intro ready kind blocks m bad
    obtain rfl : d = cmdDesc e.words := by rw [cmdDesc, opA_of_ready ready, named]
    rw [← opA_of_ready ready] at blocks bad
    have runs := exec_of_ready (i := .streamHand c w) ready rfl
    rw [effHand_fault kind blocks m bad] at runs
    obtain ⟨state, record, core⟩ := streamFault_halts c (cmdDesc e.words) (tget 0 (s.core c).descs (cmdDesc e.words).toNat) m.2.1 m.1
      (m.2.2.fault.getD 0) s (heads_of_ready ready).legs
    generalize streamFault c _ _ _ _ _ s = u at runs state record core
    obtain ⟨-, head, -, -, -, -, -, more, -⟩ := ready
    have slot := lastCommand_slotTaken (heldUntil s c e) (bit s.seq.cfg 0) c e rest u (by rw [core]; exact head) (by rw [core]; exact more)
    generalize lastCommand c e _ = t at slot runs
    obtain ⟨reach, issued⟩ := slot
    have seq : t.seq = u.seq := by rw [reach]
    have halt : t.mgmt.halt = _ := (show t.mgmt.halt = u.mgmt.halt by rw [reach]).trans record
    have stream : (t.core c).stream (cmdDesc e.words) = { (s.core c).stream (cmdDesc e.words) with faulted := true } := by
      rw [issued, core]
      exact tget_tset_new _ _ _ _ fun same => Bool.noConfusion (congrArg Stream.faulted same)
    refine ⟨t, runs, ?_⟩
    rw [seq, halt, stream]
    exact ⟨state, rfl, rfl, rfl, rfl, rfl, rfl, rfl⟩
  case missing =>
    rintro code head norm run now s' rfl
    obtain rfl : d = cmdDesc e.words := by
      rw [named, norm]
      rfl
    obtain ⟨ahead, still⟩ := readEntries_keepIssue c (cmdDesc e.words) (missingEntries (s.core c) e.words) s
    have due : s.issuing e = true := by simp [State.issuing, now, run]
    have runs : exec (.streamHand c w) s = .next (issueCmd effHand c e s) := issueRow_of_due code head norm due
    refine ⟨fun read => ?_, fun unread => ?_⟩
    · have again : exec (.streamHand c w) _ = .next (issueCmd effHand c e _) :=
        issueRow_of_due code (ahead.trans head) norm (still e due)
      rw [runs, again, issueCmd_of_read read]
    · rw [issueCmd_of_unread unread] at runs
      refine ⟨_, runs, ?_⟩
      rw [updCore_core, if_pos rfl]
      exact ⟨rfl, rfl⟩

end Sys2Proof.Machine

namespace Sys2Proof.Machine

/-! ## Launches on ordered paths (R235, R303) -/

/-- Flit `y` waits in queue `q` of fabric `f`, or is on its way there on the scheduled plane. -/
def Sent (q : Nat) (y : Flit) (f : Fabric) : Prop := y ∈ tget [] f.queues q ∨ ∃ t, ⟨t, q, y⟩ ∈ f.onMesh

/-- Every flit that has been sent in `s` and every ACCEPT awaited there still is in `t`. -/
def KeepsSent (s t : State) : Prop := (∀ q y, Sent q y s.fab → Sent q y t.fab) ∧ s.fab.awaiting ⊆ t.fab.awaiting

theorem KeepsSent.refl (s : State) : KeepsSent s s := ⟨fun _ _ => id, List.Subset.refl _⟩

theorem KeepsSent.trans {s t u : State} (first : KeepsSent s t) (second : KeepsSent t u) : KeepsSent s u :=
  ⟨fun q y sent => second.1 q y (first.1 q y sent), List.Subset.trans first.2 second.2⟩

theorem keepsSent_of_same {s t : State} (queues : t.fab.queues = s.fab.queues) (onMesh : t.fab.onMesh = s.fab.onMesh)
    (awaiting : t.fab.awaiting = s.fab.awaiting) : KeepsSent s t := by
  refine ⟨fun q y sent => ?_, by rw [awaiting]; exact List.Subset.refl _⟩
  unfold Sent
  rw [queues, onMesh]
  exact sent

theorem itemSent_kept {m : BitVec 12} {q n ikind space : Nat} {l : List (Nat × List Byte)} {s t : State}
    (sent : Claims.ItemSent m q n ikind space l s.fab) (kept : KeepsSent s t) : Claims.ItemSent m q n ikind space l t.fab := by
  intro i x piece
  obtain ⟨y, there, fields⟩ := sent i x piece
  exact ⟨y, kept.1 q y there, fields⟩

/-- `t` is `s` after launches on ordered paths. -/
def Launched (s t : State) : Prop := t = { s with fab := t.fab } ∧ t.fab = Claims.launched s t ∧ KeepsSent s t

theorem Launched.refl (s : State) : Launched s s := ⟨rfl, rfl, .refl _⟩

/-- Launches after launches change what launches may change. -/
theorem launched_trans {s t u : State} (first : t.fab = Claims.launched s t) (second : u.fab = Claims.launched t u) :
    u.fab = Claims.launched s u := by
  unfold Claims.launched at first second ⊢
  generalize u.fab = f at second
  rw [second, first]

theorem Launched.trans {s t u : State} (first : Launched s t) (second : Launched t u) : Launched s u := by
  obtain ⟨reach, fab, kept⟩ := first
  obtain ⟨reach', fab', kept'⟩ := second
  refine ⟨?_, launched_trans fab fab', kept.trans kept'⟩
  generalize u.fab = f at reach'
  rw [reach', reach]

theorem enqueueFlit_sent (q : Nat) (at_ : Option Nat) (f : Flit) (s : State) :
    Sent q { f with pathSeq := BitVec.ofNat 24 (tget 0 s.fab.seqOut q) } (enqueueFlit q at_ f s).fab := by
  unfold enqueueFlit Sent
  dsimp only
  split
  · exact .inr ⟨at_.getD 0, List.mem_append_right _ List.mem_cons_self⟩
  · refine .inl ?_
    dsimp only
    rw [tget_tset_new _ _ _ _ (by simp)]
    exact List.mem_append_right _ List.mem_cons_self

theorem enqueueFlit_launched (q : Nat) (at_ : Option Nat) (f : Flit) (s : State) : Launched s (enqueueFlit q at_ f s) := by
  unfold enqueueFlit
  dsimp only
  split
  · refine ⟨rfl, rfl, fun q' y sent => ?_, List.Subset.refl _⟩
    exact sent.imp_right fun ⟨t, mem⟩ => ⟨t, List.mem_append_left _ mem⟩
  · refine ⟨rfl, rfl, fun q' y sent => sent.imp_left fun mem => ?_, List.Subset.refl _⟩
    by_cases same : q' = q
    · subst same
      dsimp only
      rw [tget_tset_new _ _ _ _ (by simp)]
      exact List.mem_append_left _ mem
    · dsimp only
      rwa [tget_tset_other _ _ _ _ _ same]

theorem enqueueFlit_seqOut (q : Nat) (at_ : Option Nat) (f : Flit) (s : State) (q' : Nat) :
    tget 0 (enqueueFlit q at_ f s).fab.seqOut q' = tget 0 s.fab.seqOut q' + if q' = q then 1 else 0 := by
  have next : (enqueueFlit q at_ f s).fab.seqOut = tset 0 s.fab.seqOut q (tget 0 s.fab.seqOut q + 1) := by
    unfold enqueueFlit
    dsimp only
    split <;> rfl
  rw [next]
  split
  · rename_i same
    rw [same, tget_tset_new _ _ _ _ (Nat.succ_ne_zero _)]
  · rename_i other
    rw [tget_tset_other _ _ _ _ _ other, Nat.add_zero]

/-- `t` is `s` after the pieces `l` of an item have left on queue `q` for module `dest`. -/
structure CutSent (dest : BitVec 12) (q ikind space : Nat) (l : List (Nat × List Byte)) (s t : State) : Prop where
  launched : Launched s t
  count : ∀ q', tget 0 t.fab.seqOut q' = tget 0 s.fab.seqOut q' + if q' = q then l.length else 0
  sent : Claims.ItemSent dest q (tget 0 s.fab.seqOut q) ikind space l t.fab

theorem CutSent.nil (dest : BitVec 12) (q ikind space : Nat) (s : State) : CutSent dest q ikind space [] s s :=
  ⟨.refl s, fun q' => by simp, fun i x piece => by simp at piece⟩

section
variable {q : Nat} {c : BitVec 5} {dest : BitVec 12} {space ikind : Nat} {key : U32} {p : Nat × List Byte} {l : List (Nat × List Byte)}

/-- One flit of an item leaves before the pieces `l`, LAST where there are none. -/
theorem CutSent.cons {last : Bool} {at_ : Option Nat} {s t : State} (ends : last = decide (l.length = 0))
    (rest : CutSent dest q ikind space l (enqueueFlit q at_ (c1flit s c dest space p.1 ikind last key p.2) s) t) :
    CutSent dest q ikind space (p :: l) s t := by
  obtain ⟨launched, count, sent⟩ := rest
  have next := enqueueFlit_seqOut q at_ (c1flit s c dest space p.1 ikind last key p.2) s
  have first := enqueueFlit_sent q at_ (c1flit s c dest space p.1 ikind last key p.2) s
  refine ⟨(enqueueFlit_launched q at_ _ s).trans launched, fun q' => ?_, fun i x piece => ?_⟩
  · rw [count, next, List.length_cons]
    split <;> omega
  · cases i with
    | zero =>
      obtain rfl : p = x := Option.some.inj piece
      refine ⟨_, launched.2.2.1 q _ first, rfl, rfl, rfl, rfl, rfl, rfl, ?_⟩
      rw [List.length_cons]
      exact ends.trans (decide_eq_decide.2 (by omega))
    | succ i =>
      obtain ⟨y, there, kind, module, number, fields, offset, payload, final⟩ := sent i x piece
      refine ⟨y, there, kind, module, ?_, fields, offset, payload, ?_⟩
      · rw [number, next, if_pos rfl, Nat.add_assoc, Nat.add_comm 1]
      · rw [final, List.length_cons]
        exact decide_eq_decide.2 (by omega)

theorem launchCut_sent (at_ : Nat → Option Nat) (s : State) : CutSent dest q ikind space l s (launchCut q at_ c dest space ikind key l s) := by
  induction l generalizing s with
  | nil => exact .nil ..
  | cons p l ih =>
    cases l with
    | nil => exact .cons rfl (.nil ..)
    | cons p' l => exact .cons rfl (ih _)

end

theorem launchItem_sent (c : Fin 32) (dest : BitVec 12) (port : Option (Fin 16)) (read : Nat → Nat) (space off ikind : Nat) (bs : List Byte)
    (s : State) : CutSent dest (pathQueueOf s c dest) ikind space (cut256 (bs.length + 1) off bs) s
      (launchItem c dest port read space off ikind bs s) := launchCut_sent _ s

/-! ## What a core launches item by item -/

/-- `t` is `s` after launches of core `c`, which change nothing but the core and what ordered paths hold. -/
def Carried (c : Fin 32) (s t : State) : Prop :=
  t = { s with cores := s.cores.set c (t.core c), fab := t.fab } ∧ t.fab = Claims.launched s t ∧ KeepsSent s t

theorem carried_updCore (c : Fin 32) (f : Core → Core) (s : State) : Carried c s (s.updCore c f) := by
  refine ⟨?_, rfl, .refl _⟩
  rw [updCore_core, if_pos rfl]
  rfl

theorem Launched.core {s t : State} (launched : Launched s t) (c : Fin 32) : t.core c = s.core c := by
  rw [launched.1]
  rfl

theorem Launched.carried {s t : State} (launched : Launched s t) (c : Fin 32) : Carried c s t := by
  refine ⟨?_, launched.2⟩
  rw [launched.core, cores_set_core]
  exact launched.1

theorem Carried.refl (c : Fin 32) (s : State) : Carried c s s := (Launched.refl s).carried c

theorem Carried.trans {c : Fin 32} {s t u : State} (first : Carried c s t) (second : Carried c t u) : Carried c s u := by
  obtain ⟨reach, fab, kept⟩ := first
  obtain ⟨reach', fab', kept'⟩ := second
  refine ⟨?_, launched_trans fab fab', kept.trans kept'⟩
  generalize u.fab = f, u.core c = k at reach'
  generalize t.core c = k' at reach
  rw [reach', reach]
  simp

section
variable {c : Fin 32} {s t : State} (carried : Carried c s t)
include carried

theorem Carried.module : t.module = s.module := by
  unfold State.module
  rw [carried.2.1]
  rfl

theorem Carried.pathQueueOf (k : Fin 32) (dest : BitVec 12) : pathQueueOf t k dest = pathQueueOf s k dest := by
  unfold Machine.pathQueueOf
  rw [carried.2.1]
  rfl

theorem Carried.childAt (g : MGroup) (p : Fin 16) : childAt t g p = childAt s g p := by
  unfold Machine.childAt State.port
  rw [carried.2.1]
  rfl

end

/-- From `s` on, each step `f a` of core `c` launches `size a` flits on queue `queue a`, or none where `sends a` is false. -/
structure Launches {α : Type} (c : Fin 32) (s : State) (f : α → State → State) (sends : α → Bool) (queue size : α → Nat) : Prop where
  carried : ∀ a t, Carried c s t → Carried c t (f a t)
  count : ∀ a t q, Carried c s t →
    tget 0 (f a t).fab.seqOut q = tget 0 t.fab.seqOut q + if (sends a && queue a == q) = true then size a else 0

section
variable {α : Type} {c : Fin 32} {s : State} {f : α → State → State} {sends : α → Bool} {queue size : α → Nat}
  (launches : Launches c s f sends queue size)
include launches

theorem Launches.carried_foldS (l : List α) : ∀ t, Carried c s t → Carried c t (foldS f l t) := by
  induction l with
  | nil => exact fun t _ => .refl c t
  | cons a l ih =>
    intro t before
    have step := launches.carried a t before
    exact step.trans (ih _ (before.trans step))

theorem Launches.count_foldS (l : List α) (q : Nat) : ∀ t, Carried c s t → tget 0 (foldS f l t).fab.seqOut q =
    tget 0 t.fab.seqOut q + ((l.filter fun a => sends a && queue a == q).map size).sum := by
  induction l with
  | nil => exact fun t _ => rfl
  | cons a l ih =>
    intro t before
    rw [foldS_cons, ih _ (before.trans (launches.carried a t before)), launches.count a t q before, List.filter_cons, Nat.add_assoc]
    split
    · rfl
    · rw [Nat.zero_add]

/-- The step of an item that stands between `before` and `after` starts from the numbers that those before it leave, and what it sends
stays. -/
theorem Launches.at_ {u : State} (start : Carried c s u) (before after : List α) (a : α) : ∃ t, Carried c s t ∧
    (∀ q, tget 0 t.fab.seqOut q = tget 0 u.fab.seqOut q + ((before.filter fun a => sends a && queue a == q).map size).sum) ∧
    KeepsSent (f a t) (foldS f (before ++ a :: after) u) := by
  have first := start.trans (launches.carried_foldS before u start)
  refine ⟨foldS f before u, first, fun q => launches.count_foldS before q u start, ?_⟩
  have rest := launches.carried_foldS after (f a (foldS f before u)) (first.trans (launches.carried a _ first))
  unfold foldS at rest ⊢
  rw [List.foldl_append]
  exact rest.2.2

end

/-! ## Signals and what has been launched (R232) -/

theorem foldS_keepsSent {α : Type} (f : α → State → State) (step : ∀ a s, KeepsSent s (f a s)) (l : List α) (s : State) :
    KeepsSent s (foldS f l s) := by
  induction l generalizing s with
  | nil => exact .refl s
  | cons a l ih => exact (step a s).trans (ih _)

theorem updCore_keepsSent (c : Fin 32) (f : Core → Core) (s : State) : KeepsSent s (s.updCore c f) := KeepsSent.refl _

theorem ackAdd_keepsSent (c : BitVec 5) (a : Option (BitVec 5)) (s : State) : KeepsSent s (ackAdd c a s) := by
  cases a with
  | none => exact .refl s
  | some n => exact updCore_keepsSent ..

theorem c0send_keepsSent (dest : BitVec 12) (m : C0Msg) (s : State) : KeepsSent s (c0send dest m s) := by
  obtain ⟨x, sent⟩ := c0send_eq dest m s
  rw [sent]
  exact keepsSent_of_same rfl rfl rfl

theorem launchBellFlit_keepsSent (c : Fin 32) (m : BitVec 12) (r : BellReq) (s : State) : KeepsSent s (launchBellFlit c m r s) := by
  unfold launchBellFlit
  dsimp only
  refine KeepsSent.trans ?_ (enqueueFlit_launched ..).2.2
  split
  · split <;> exact KeepsSent.refl _
  · exact .refl s

theorem launchBell1_keepsSent (r : BellReq) (s : State) : KeepsSent s (launchBell1 r s) := by
  unfold launchBell1
  dsimp only
  split
  · split <;> exact updCore_keepsSent ..
  · split
    · refine KeepsSent.trans (KeepsSent.trans ?_ (c0send_keepsSent ..)) (ackAdd_keepsSent ..)
      exact keepsSent_of_same rfl rfl rfl
    · refine (launchBellFlit_keepsSent (coreOf r.srcCore.toNat) (haModule r.addr) r s).trans ⟨fun _ _ => id, ?_⟩
      exact fun x mem => List.mem_append_left _ (List.mem_append_left _ mem)

theorem launchBell_keepsSent (r : BellReq) (mcast : Bool) (s : State) : KeepsSent s (launchBell r mcast s) := by
  unfold launchBell
  split
  · exact foldS_keepsSent _ (fun _ _ => launchBell1_keepsSent ..) ..
  · exact launchBell1_keepsSent r s

theorem fireSignal_keepsSent (c : Fin 32) (idx : Nat) (f : U32) (s : State) : KeepsSent s (fireSignal c idx f s) := by
  unfold fireSignal
  split
  · exact updCore_keepsSent ..
  · exact updCore_keepsSent ..
  · exact updCore_keepsSent ..
  · exact launchBell_keepsSent ..
  · exact .refl s

theorem fireSignals_keepsSent (c : Fin 32) (idx : Nat) (sigs : U64) (s : State) : KeepsSent s (fireSignals c idx sigs s) :=
  (fireSignal_keepsSent c idx _ s).trans (fireSignal_keepsSent c idx _ _)

/-- What a completion leaves whose launches lead to `u`, once its signals have fired. -/
theorem Carried.fired {c : Fin 32} {s u : State} (carried : Carried c s u) (idx : Nat) (sigs : U64) : ∃ t, fireSignals c idx sigs u = t ∧
    t = { s with cores := s.cores.set c (t.core c), fab := t.fab, clk := { s.clk with mesh := t.clk.mesh } } ∧
    t.core c = Claims.Signalled t c sigs (u.core c) ∧ KeepsSent u t ∧
    (Claims.rings sigs = false → t.fab = u.fab ∧ t.fab = Claims.launched s t ∧ t.clk = s.clk) := by
  obtain ⟨reach, core, quiet⟩ := fireSignals_fired c idx sigs u
  have kept : KeepsSent u _ := fireSignals_keepsSent c idx sigs u
  generalize fireSignals c idx sigs u = t at reach core quiet kept
  obtain ⟨launched, fab, -⟩ := carried
  have clk : u.clk = s.clk := by rw [launched]
  refine ⟨t, rfl, ?_, core, kept, fun silent => ?_⟩
  · generalize t.core c = k at reach
    generalize u.core c = k', u.fab = f at launched
    rw [reach, launched]
    simp
  · obtain ⟨sameClk, sameFab⟩ := quiet silent
    refine ⟨sameFab, ?_, sameClk.trans clk⟩
    unfold Claims.launched at fab ⊢
    rw [sameFab]
    exact fab

/-! ## Handed blocks that leave (R211, R235) -/

theorem mreads_length (m : Mem) (a n : Nat) : (mreads m a n).length = n := by simp [mreads]

/-- The pieces in which a handed block leaves for another module. -/
def StoreHand.cut (r : StoreHand) (m : HandMove) : List (Nat × List Byte) := cut256 (m.len + 1) (haOff m.hall) (mreads r.buf m.sp m.len)

/-- The element that a handed block becomes: on module `module` it waits to be written out, away from it for its ACCEPT. -/
def StoreHand.elem (r : StoreHand) (module : BitVec 12) (m : HandMove) : Elem :=
  if haModule m.hall = module then
    { pos := m.pos, need := m.len, hall := m.hall, sp := m.sp, len := m.len, started := false
      buf := mwrites [] 0 (mreads r.buf m.sp m.len) }
  else { pos := m.pos, need := m.len, hall := m.hall, sp := m.sp, len := m.len, remote := true }

/-- What joins the ordered path on module `module` of a core whose blocks `l` are handed over. -/
def StoreHand.path (r : StoreHand) (module : BitVec 12) (l : List HandMove) : List PathItem :=
  (l.filter fun m => haModule m.hall == module).map fun m => .store r.desc m.pos

/-- Core `k'` is `k` after the blocks `l` of `r` have left. -/
def ElemsLaunched (module : BitVec 12) (r : StoreHand) (l : List HandMove) (k k' : Core) : Prop :=
  k' = { k with streams := k'.streams, path := k.path ++ r.path module l } ∧
  (k'.stream r.desc).elems = (k.stream r.desc).elems ++ l.map (r.elem module)

theorem ElemsLaunched.nil (module : BitVec 12) (r : StoreHand) (k : Core) : ElemsLaunched module r [] k k :=
  ⟨by simp [StoreHand.path], by simp⟩

theorem ElemsLaunched.cons {module : BitVec 12} {r : StoreHand} {m : HandMove} {l : List HandMove} {k k' k'' : Core}
    (first : ElemsLaunched module r [m] k k') (rest : ElemsLaunched module r l k' k'') : ElemsLaunched module r (m :: l) k k'' := by
  obtain ⟨reach, elems⟩ := first
  obtain ⟨reach', elems'⟩ := rest
  refine ⟨?_, by rw [elems', elems, List.append_assoc]; rfl⟩
  have path : r.path module (m :: l) = r.path module [m] ++ r.path module l := by
    unfold StoreHand.path
    rw [← List.map_append, ← List.filter_append]
    rfl
  generalize k''.streams = x at reach'
  generalize k'.streams = y at reach
  rw [reach', reach, path, List.append_assoc]

/-- A stream has the elements that it is given, where there are some. -/
theorem elems_updStream {k : Core} {d : BitVec 11} {f : Stream → Stream} {l : List Elem} {x : Elem} (more : (f (k.stream d)).elems = l ++ [x]) :
    ((k.updStream d f).stream d).elems = l ++ [x] := by
  have some : f (k.stream d) ≠ {} := fun none => by simp [none] at more
  exact (congrArg Stream.elems (tget_tset_new _ _ _ _ some)).trans more

section
variable {module : BitVec 12} {r : StoreHand} {m : HandMove}

/-- Core `k` after block `m` of `r` has joined its ordered path. -/
def Core.elemQueued (r : StoreHand) (m : HandMove) (x : Elem) (k : Core) : Core :=
  { k.updStream r.desc (fun st => { st with elems := st.elems ++ [x] }) with path := k.path ++ [.store r.desc m.pos] }

/-- Core `k` after block `m` of `r` has left for another module. -/
def Core.elemSent (r : StoreHand) (x : Elem) (k : Core) : Core :=
  k.updStream r.desc fun st => { st with lead := st.lead + 1, elems := st.elems ++ [x] }

theorem elemQueued_launched (here : haModule m.hall = module) (k : Core) : ElemsLaunched module r [m] k (k.elemQueued r m (r.elem module m)) := by
  refine ⟨?_, elems_updStream (f := fun st => { st with elems := st.elems ++ [r.elem module m] }) rfl⟩
  unfold StoreHand.path
  rw [List.filter_cons_of_pos (by simpa using here)]
  rfl

theorem elemSent_launched (away : haModule m.hall ≠ module) (k : Core) : ElemsLaunched module r [m] k (k.elemSent r (r.elem module m)) := by
  refine ⟨?_, elems_updStream (f := fun st => { st with lead := st.lead + 1, elems := st.elems ++ [r.elem module m] }) rfl⟩
  unfold StoreHand.path
  rw [List.filter_cons_of_neg (by simpa using away), List.filter_nil, List.map_nil, List.append_nil]
  rfl

end

section
variable {c : Fin 32} {r : StoreHand} {m : HandMove} {s : State}

/-- One more ACCEPT is awaited. -/
theorem awaiting_carried (a : AwaitAccept) : Carried c s { s with fab := { s.fab with awaiting := s.fab.awaiting ++ [a] } } :=
  ⟨by rw [State.core, vector_set_get], rfl, fun _ _ => id, List.subset_append_left ..⟩

theorem launchElem_here (here : haModule m.hall = s.module) :
    launchElem c r m s = s.updCore c (Core.elemQueued r m (r.elem s.module m)) := by
  unfold launchElem StoreHand.elem
  dsimp only
  rw [if_pos here, if_pos here]
  rfl

theorem launchElem_away (away : haModule m.hall ≠ s.module) (q : Nat) (queue : q = pathQueueOf s c (haModule m.hall)) :
    Carried c s (launchElem c r m s) ∧ (launchElem c r m s).core c = (s.core c).elemSent r (r.elem s.module m) ∧
      (∀ q', tget 0 (launchElem c r m s).fab.seqOut q' = tget 0 s.fab.seqOut q' + if q' = q then (r.cut m).length else 0) ∧
      Claims.ItemSent (haModule m.hall) q (tget 0 s.fab.seqOut q) 1 (haSpace m.hall) (r.cut m) (launchElem c r m s).fab ∧
      ⟨BitVec.ofNat 5 c.val, haModule m.hall, tget 0 s.fab.seqOut q, tget 0 s.fab.seqOut q + (r.cut m).length - 1, none,
        some (r.desc, m.pos), none⟩ ∈ (launchElem c r m s).fab.awaiting := by
  have item := launchItem_sent c (haModule m.hall) (firstPort s (haModule m.hall)) (r.readOf m) (haSpace m.hall) (haOff m.hall) 1
    (mreads r.buf m.sp m.len) s
  rw [mreads_length, ← queue] at item
  unfold launchElem
  dsimp only
  rw [if_neg away, ← queue]
  generalize launchItem c (haModule m.hall) _ _ _ _ _ _ s = t at item
  obtain ⟨launched, count, sent⟩ := item
  have carried := launched.carried c
  have last : lastSeqOf t c (haModule m.hall) = tget 0 s.fab.seqOut q + (r.cut m).length - 1 := by
    unfold lastSeqOf
    rw [carried.pathQueueOf, ← queue, count, if_pos rfl]
    rfl
  have own := carried_updCore c (Core.elemSent r (r.elem s.module m)) t
  have awaits := awaiting_carried (c := c) (s := t.updCore c (Core.elemSent r (r.elem s.module m)))
    ⟨BitVec.ofNat 5 c.val, haModule m.hall, tget 0 s.fab.seqOut q, lastSeqOf t c (haModule m.hall), none, some (r.desc, m.pos), none⟩
  have moved : (t.updCore c (Core.elemSent r (r.elem s.module m))).core c = (s.core c).elemSent r (r.elem s.module m) := by
    rw [updCore_core, if_pos rfl, launched.core]
  unfold StoreHand.elem at own awaits moved ⊢
  rw [if_neg away] at own awaits moved ⊢
  refine ⟨carried.trans (own.trans awaits), moved, count, sent, ?_⟩
  rw [← last]
  exact List.mem_append_right _ List.mem_cons_self

end

/-- Each handed block for another module sends its pieces. -/
theorem launchElem_launches (c : Fin 32) (r : StoreHand) (s : State) : Launches c s (launchElem c r)
    (fun m => haModule m.hall != s.module) (fun m => pathQueueOf s c (haModule m.hall)) (fun m => (r.cut m).length) := by
  refine ⟨fun m t before => ?_, fun m t q before => ?_⟩
  all_goals by_cases here : haModule m.hall = t.module
  · rw [launchElem_here here]
    exact carried_updCore ..
  · exact (launchElem_away here _ rfl).1
  · rw [launchElem_here here, if_neg (by simp [here, before.module])]
    rfl
  · obtain ⟨-, -, count, -⟩ := launchElem_away (c := c) (r := r) here _ rfl
    rw [count, before.pathQueueOf]
    congr 1
    rw [before.module] at here
    refine if_congr ?_ rfl rfl
    rw [Bool.and_eq_true_iff, bne_iff_ne, beq_iff_eq]
    exact ⟨fun same => ⟨here, same.symm⟩, fun both => both.2.symm⟩

/-- The blocks that leave reach their core as `ElemsLaunched` says. -/
theorem foldS_launchElem_core (c : Fin 32) (r : StoreHand) (s : State) (l : List HandMove) : ∀ t, Carried c s t →
    ElemsLaunched s.module r l (t.core c) ((foldS (launchElem c r) l t).core c) := by
  induction l with
  | nil => exact fun t _ => .nil ..
  | cons m l ih =>
    intro t before
    refine .cons ?_ (ih _ (before.trans ((launchElem_launches c r s).carried m t before)))
    rw [← before.module]
    change ElemsLaunched t.module r [m] (t.core c) ((launchElem c r m t).core c)
    by_cases here : haModule m.hall = t.module
    · rw [launchElem_here here, updCore_core, if_pos rfl]
      exact elemQueued_launched here _
    · rw [(launchElem_away here _ rfl).2.1]
      exact elemSent_launched here _

/-- Blocks that all stay on their module send nothing. -/
theorem foldS_launchElem_fab (c : Fin 32) (r : StoreHand) (s : State) (l : List HandMove) (here : ∀ m ∈ l, haModule m.hall = s.module) :
    (foldS (launchElem c r) l s).fab = s.fab := by
  induction l generalizing s with
  | nil => rfl
  | cons m l ih =>
    obtain ⟨first, rest⟩ := List.forall_mem_cons.1 here
    rw [foldS_cons, launchElem_here first]
    exact ih _ rest

/-! ## STORE_HAND_COMPLETE (R211, R235) -/

section
variable {c : Fin 32} {r : StoreHand} {s u : State} (start : Carried c s u)
include start

/-- What a handed block for another module sends, and the ACCEPT that its position waits for. -/
theorem foldS_launchElem_sent {before after : List HandMove} {m : HandMove} (away : haModule m.hall ≠ s.module) {q n : Nat}
    (queue : q = pathQueueOf s c (haModule m.hall))
    (number : n = tget 0 u.fab.seqOut q + ((before.filter fun x =>
      haModule x.hall != s.module && pathQueueOf s c (haModule x.hall) == q).map fun x => (r.cut x).length).sum) :
    Claims.ItemSent (haModule m.hall) q n 1 (haSpace m.hall) (r.cut m) (foldS (launchElem c r) (before ++ m :: after) u).fab ∧
      ⟨BitVec.ofNat 5 c.val, haModule m.hall, n, n + (r.cut m).length - 1, none, some (r.desc, m.pos), none⟩ ∈
        (foldS (launchElem c r) (before ++ m :: after) u).fab.awaiting := by
  obtain ⟨t, carried, count, kept⟩ := (launchElem_launches c r s).at_ start before after m
  rw [← carried.module] at away
  obtain ⟨-, -, -, sent, awaited⟩ := launchElem_away (c := c) (r := r) away q (by rw [queue, carried.pathQueueOf])
  rw [count, ← number] at sent awaited
  exact ⟨itemSent_kept sent kept, kept.2 awaited⟩

/-- The core whose handed blocks have left: they are among the elements of its stream, and those of its module on its ordered path. -/
theorem foldS_launchElem_path : (foldS (launchElem c r) r.moves u).core c = { u.core c with
    streams := ((foldS (launchElem c r) r.moves u).core c).streams, path := (u.core c).path ++ r.path s.module r.moves } ∧
    (((foldS (launchElem c r) r.moves u).core c).stream r.desc).elems =
      ((u.core c).stream r.desc).elems ++ r.moves.map (r.elem s.module) :=
  foldS_launchElem_core c r s r.moves u start

end

/-- Core `k` with the hand-overs `l` left in engine `e`. -/
def Core.handsLeft (e : Fin 4) (l : List StoreHand) (k : Core) : Core := k.updEng e fun g => { g with hands := l }

/-- A record that is skipped, or whose last read is still to come, is not due. -/
theorem notDue_of_early {skipped : Bool} {last cycle : Nat} (early : skipped = true ∨ cycle < last) :
    (!skipped && decide (last ≤ cycle)) = false := by
  obtain skipped | later := early
  · rw [skipped, Bool.not_true, Bool.false_and]
  · rw [decide_eq_false (Nat.not_le.2 later), Bool.and_false]

theorem storeHandComplete_eq {s : State} {c : Fin 32} {e : Fin 4} {pre post : List StoreHand} {r : StoreHand}
    (hands : ((s.core c).eng e).hands = pre ++ r :: post) (early : ∀ q ∈ pre, q.skipped = true ∨ s.seq.cycle < q.lastRead)
    (executed : r.skipped = false) (now : r.lastRead ≤ s.seq.cycle) : exec (.storeHandComplete c e) s =
      .next (fireSignals c r.idx r.sig (foldS (launchElem c r) r.moves (s.updCore c (Core.handsLeft e (pre ++ post))))) := by
  have early' : ∀ q ∈ pre, (!q.skipped && decide (q.lastRead ≤ s.seq.cycle)) = false := fun q mem => notDue_of_early (early q mem)
  have now' : (!r.skipped && decide (r.lastRead ≤ s.seq.cycle)) = true := by simp [executed, now]
  have erased : ((s.core c).eng e).hands.erase r = pre ++ post := by rw [hands, erase_first _ pre post r early' now']
  have left : (s.updCore c fun k => k.updEng e fun g => { g with hands := g.hands.erase r }) = s.updCore c (Core.handsLeft e (pre ++ post)) :=
    congrArg (fun l => s.updCore c (Core.handsLeft e l)) erased
  change execStoreHandComplete c e s = _
  unfold execStoreHandComplete
  rw [hands, find_first _ pre post r early' now']
  dsimp only
  rw [left]

/-- Signals leave the streams of their core as they are. -/
theorem signalled_streams {t : State} {c : Fin 32} {sigs : U64} {k k' k'' : Core} {p : List PathItem}
    (fired : k'' = Claims.Signalled t c sigs k') (launched : k' = { k with streams := k'.streams, path := p }) :
    k'' = Claims.Signalled t c sigs { k with streams := k''.streams, path := p } ∧ k''.streams = k'.streams := by
  have same : k''.streams = k'.streams := by
    rw [fired]
    rfl
  refine ⟨?_, same⟩
  rw [same]
  generalize k'.streams = x at launched
  rw [fired, launched]

/-! ## TURN_COMPLETE (R223, R224) -/

/-- TURN_COMPLETE (R223, R224): the first TURN that is through counts, stays in flight with its reads done, and fires its signals. -/
theorem turnComplete_signalsTo {s : State} {c : Fin 32} {pre post : List TurnRec} {r : TurnRec}
    (inFlight : (s.core c).turn.inFlight = pre ++ r :: post) (after : r ∉ post)
    (early : ∀ q ∈ pre, q.skipped = true ∨ q.readDone = true ∨
      (if tnDir q.words = 1 then s.seq.cycle < q.spanEnd else q.tile < tnTiles q.words))
    (executed : r.skipped = false) (reading : r.readDone = false)
    (now : if tnDir r.words = 1 then r.spanEnd ≤ s.seq.cycle else tnTiles r.words ≤ r.tile) :
    Claims.SignalsTo (.turnComplete c) s c (sigsOf r.words) { s.core c with turn :=
      { inFlight := pre ++ { r with readDone := true } :: post, count := (s.core c).turn.count + 1 } } := by
  have early' : ∀ q ∈ pre, (!q.skipped && !q.readDone &&
      (if tnDir q.words = 1 then decide (q.spanEnd ≤ s.seq.cycle) else decide (tnTiles q.words ≤ q.tile))) = false := fun q mem => by
    obtain skipped | done | later := early q mem
    · rw [skipped, Bool.not_true, Bool.false_and, Bool.false_and]
    · rw [done, Bool.not_true, Bool.and_false, Bool.false_and]
    · split at later <;> simp_all
  have now' : (!r.skipped && !r.readDone &&
      (if tnDir r.words = 1 then decide (r.spanEnd ≤ s.seq.cycle) else decide (tnTiles r.words ≤ r.tile))) = true := by
    split at now <;> simp_all
  have before : r ∉ pre := fun mem => by simp [early' r mem] at now'
  have mark (x : TurnRec) : (if x = r then { x with readDone := true } else x) = if x = r then { r with readDone := true } else x := by
    by_cases same : x = r
    · rw [same]
    · rw [if_neg same, if_neg same]
  have marked : ((s.core c).turn.inFlight.map fun x => if x = r then { x with readDone := true } else x) =
      pre ++ { r with readDone := true } :: post := by
    rw [inFlight]
    exact (List.map_congr_left fun x _ => mark x).trans (map_replace_once pre post r _ before after)
  refine signalsTo_of_core r.idx ?_
  change execTurnComplete c s = _
  unfold execTurnComplete
  dsimp only
  rw [inFlight, find_first _ pre post r early' now']
  exact congrArg (fun l => Host.Outcome.next (fireSignals c r.idx (sigsOf r.words) (s.updCore c fun _ =>
    { s.core c with turn := { inFlight := l, count := (s.core c).turn.count + 1 } }))) marked

/-! ## CH_SEND_COMPLETE (R235, R246, R248, R251) -/

/-- The pieces in which the marker of a message leaves for core `k` of another module. -/
def ChMsg.markCut (m : ChMsg) (ring : Nat) (k : BitVec 5) : List (Nat × List Byte) :=
  match skipMarker m with
  | some x => cut256 (x.2.length + 1) (k.toNat * 2 ^ 40 + ring + 256 * x.1) x.2
  | none => []

/-- The pieces in which a message leaves for core `k` of another module. -/
def ChMsg.itemCut (m : ChMsg) (ring : Nat) (k : BitVec 5) : List (Nat × List Byte) :=
  cut256 (m.bytes.length + 1) (k.toNat * 2 ^ 40 + ring + 256 * m.at_) m.bytes

/-- The marker of message `m` leaves for the module and core `x`. -/
def launchMark (c : Fin 32) (m : ChMsg) (ring : Nat) (read : Nat → Nat) (x : BitVec 12 × BitVec 5) (p : Option (Fin 16)) (s : State) : State :=
  match skipMarker m with
  | some y => launchItem c x.1 p (fun _ => read 0) 1 (x.2.toNat * 2 ^ 40 + ring + 256 * y.1) 5 y.2 s
  | none => s

/-- Message `m` leaves for the module and core `x`, after its marker. -/
def launchAway (c : Fin 32) (m : ChMsg) (ring : Nat) (read : Nat → Nat) (x : BitVec 12 × BitVec 5) (p : Option (Fin 16)) (s : State) : State :=
  launchItem c x.1 p read 1 (x.2.toNat * 2 ^ 40 + ring + 256 * m.at_) 5 m.bytes (launchMark c m ring read x p s)

/-- Core `k` with more at the end of its ordered path. -/
def Core.pathJoined (l : List PathItem) (k : Core) : Core := { k with path := k.path ++ l }

/-- The message as it stands on the ordered path of its sender for a receiver of the group on the die. -/
def ChMsg.to (m : ChMsg) (x : Fin 32 × BitVec 7) : PathItem := .message { m with core := BitVec.ofNat 5 x.1.val, ep := x.2 }

section
variable {c : Fin 32} {role group : Nat} {peer : BitVec 12} {m : ChMsg} {ring : Nat} {read : Nat → Nat} {s : State}

theorem launchMessage_here (single : role ≠ 3) (here : peer = s.module) :
    launchMessage c role group peer m ring read s = s.updCore c (Core.pathJoined [.message m]) := by
  unfold launchMessage
  dsimp only
  rw [if_neg single, if_pos here]
  rfl

theorem launchMessage_away (single : role ≠ 3) (away : peer ≠ s.module) :
    launchMessage c role group peer m ring read s = launchAway c m ring read (peer, m.core) (firstPort s peer) s := by
  unfold launchMessage
  dsimp only
  rw [if_neg single, if_neg away]
  rfl

theorem pathJoined_pathJoined (k : Core) (l l' : List PathItem) : (k.pathJoined l).pathJoined l' = k.pathJoined (l ++ l') :=
  congrArg (fun path => { k with path := path }) (List.append_assoc ..)

theorem pathJoined_nil (k : Core) : k.pathJoined [] = k := congrArg (fun path => { k with path := path }) (List.append_nil _)

theorem foldS_pathJoined {α : Type} (f : α → PathItem) (l : List α) (s : State) :
    foldS (fun x s => s.updCore c (Core.pathJoined [f x])) l s = s.updCore c (Core.pathJoined (l.map f)) := by
  induction l generalizing s with
  | nil =>
    have none : s.updCore c (Core.pathJoined []) = s :=
      (congrArg (fun k => s.updCore c fun _ => k) (pathJoined_nil (s.core c))).trans (updCore_self s c)
    exact none.symm
  | cons x l ih =>
    rw [foldS_cons, ih, updCore_updCore]
    exact congrArg (s.updCore c) (funext fun k => pathJoined_pathJoined k _ _)

theorem launchMessage_group (multicast : role = 3) {g : MGroup} (is : g = tget {} s.groups group) :
    launchMessage c role group peer m ring read s =
      foldS (fun p s => launchAway c m ring read (childAt s g p) (some p) s) g.childPorts
        (s.updCore c (Core.pathJoined (g.members.map m.to))) := by
  rw [← foldS_pathJoined, is]
  unfold launchMessage
  dsimp only
  rw [if_pos multicast]
  rfl

end

section
variable (c : Fin 32) (m : ChMsg) (ring : Nat) (read : Nat → Nat) (x : BitVec 12 × BitVec 5) (p : Option (Fin 16)) (s : State)

theorem launchMark_sent : CutSent x.1 (pathQueueOf s c x.1) 5 1 (m.markCut ring x.2) s (launchMark c m ring read x p s) := by
  unfold launchMark ChMsg.markCut
  split
  · exact launchItem_sent ..
  · exact .nil ..

/-- A message leaves for another module in its pieces, behind those of its marker. -/
theorem launchAway_sent {q : Nat} (queue : q = pathQueueOf s c x.1) : Launched s (launchAway c m ring read x p s) ∧
    (∀ q', tget 0 (launchAway c m ring read x p s).fab.seqOut q' =
      tget 0 s.fab.seqOut q' + if q' = q then (m.markCut ring x.2).length + (m.itemCut ring x.2).length else 0) ∧
    Claims.ItemSent x.1 q (tget 0 s.fab.seqOut q) 5 1 (m.markCut ring x.2) (launchAway c m ring read x p s).fab ∧
    Claims.ItemSent x.1 q (tget 0 s.fab.seqOut q + (m.markCut ring x.2).length) 5 1 (m.itemCut ring x.2)
      (launchAway c m ring read x p s).fab := by
  obtain ⟨marked, counted, mark⟩ := launchMark_sent c m ring read x p s
  obtain ⟨launched, count, item⟩ := launchItem_sent c x.1 p read 1 (x.2.toNat * 2 ^ 40 + ring + 256 * m.at_) 5 m.bytes
    (launchMark c m ring read x p s)
  rw [(marked.carried c).pathQueueOf, ← queue] at count item
  rw [← queue] at counted mark
  refine ⟨marked.trans launched, fun q' => ?_, itemSent_kept mark launched.2.2, ?_⟩
  · unfold launchAway
    rw [count, counted]
    unfold ChMsg.itemCut
    split <;> omega
  · rw [counted, if_pos rfl] at item
    exact item

end

/-- A message for the child modules of a group leaves by each of its child ports. -/
theorem launchAway_launches (c : Fin 32) (m : ChMsg) (ring : Nat) (read : Nat → Nat) (g : MGroup) (s : State) :
    Launches c s (fun p s => launchAway c m ring read (childAt s g p) (some p) s) (fun _ => true)
      (fun p => pathQueueOf s c (childAt s g p).1)
      (fun p => (m.markCut ring (childAt s g p).2).length + (m.itemCut ring (childAt s g p).2).length) := by
  refine ⟨fun p t _ => (launchAway_sent c m ring read _ _ t rfl).1.carried c, fun p t q before => ?_⟩
  obtain ⟨-, count, -⟩ := launchAway_sent c m ring read (childAt t g p) (some p) t rfl
  rw [count, before.pathQueueOf, before.childAt]
  congr 1
  refine if_congr ?_ rfl rfl
  rw [Bool.true_and, beq_iff_eq]
  exact eq_comm

/-- A message that leaves the module leaves the cores as they are. -/
theorem foldS_launchAway_core {c : Fin 32} {m : ChMsg} {ring : Nat} {read : Nat → Nat} {g : MGroup} (l : List (Fin 16)) (s : State) :
    (foldS (fun p s => launchAway c m ring read (childAt s g p) (some p) s) l s).core c = s.core c := by
  induction l generalizing s with
  | nil => rfl
  | cons p l ih => rw [foldS_cons, ih, (launchAway_sent c m ring read _ _ s rfl).1.core]

section
variable {c : Fin 32} {role group : Nat} {peer : BitVec 12} {m : ChMsg} {ring : Nat} {read : Nat → Nat} {s u : State}
  (start : Carried c s u)
include start

theorem Carried.groups : u.groups = s.groups := by rw [start.1]

/-- A message that is launched changes what launches may change. -/
theorem launchMessage_carried : Carried c s (launchMessage c role group peer m ring read u) := by
  by_cases multicast : role = 3
  · rw [launchMessage_group multicast rfl]
    have joined := start.trans (carried_updCore c (Core.pathJoined ((tget {} u.groups group).members.map m.to)) u)
    exact joined.trans ((launchAway_launches c m ring read _ s).carried_foldS _ _ joined)
  · by_cases here : peer = u.module
    · rw [launchMessage_here multicast here]
      exact start.trans (carried_updCore ..)
    · rw [launchMessage_away multicast here]
      exact start.trans ((launchAway_sent c m ring read _ _ u rfl).1.carried c)

/-- What a launched message adds to its sender's ordered path. -/
theorem launchMessage_path : (launchMessage c role group peer m ring read u).core c = (u.core c).pathJoined
    (if role = 3 then (tget {} s.groups group).members.map m.to else if peer = s.module then [.message m] else []) := by
  rw [← start.groups, ← start.module]
  by_cases multicast : role = 3
  · rw [launchMessage_group multicast rfl, if_pos multicast]
    rw [foldS_launchAway_core, updCore_core, if_pos rfl]
  · rw [if_neg multicast]
    by_cases here : peer = u.module
    · rw [launchMessage_here multicast here, if_pos here, updCore_core, if_pos rfl]
    · rw [launchMessage_away multicast here, if_neg here, pathJoined_nil]
      exact (launchAway_sent c m ring read _ _ u rfl).1.core c

/-- A message for an endpoint of its module sends nothing. -/
theorem launchMessage_fab (single : role ≠ 3) (here : peer = s.module) : (launchMessage c role group peer m ring read u).fab = u.fab := by
  rw [launchMessage_here single (by rw [start.module, here])]
  rfl

/-- What a message sends to one of the modules it is for. -/
theorem launchMessage_sent {before after : List (BitVec 12 × BitVec 5)} {x : BitVec 12 × BitVec 5}
    (dests : (if role = 3 then childModules s (tget {} s.groups group) else if peer = s.module then [] else [(peer, m.core)]) =
      before ++ x :: after) {q n : Nat} (queue : q = pathQueueOf s c x.1)
    (number : n = tget 0 u.fab.seqOut q + ((before.filter fun y => pathQueueOf s c y.1 == q).map
      fun y => (m.markCut ring y.2).length + (m.itemCut ring y.2).length).sum) :
    Claims.ItemSent x.1 q n 5 1 (m.markCut ring x.2) (launchMessage c role group peer m ring read u).fab ∧
      Claims.ItemSent x.1 q (n + (m.markCut ring x.2).length) 5 1 (m.itemCut ring x.2)
        (launchMessage c role group peer m ring read u).fab := by
  by_cases multicast : role = 3
  · rw [if_pos multicast] at dests
    obtain ⟨first, rest, ports, rfl, last⟩ := List.map_eq_append_iff.1 dests
    obtain ⟨p, second, rfl, rfl, -⟩ := List.map_eq_cons_iff.1 last
    rw [launchMessage_group multicast rfl, start.groups, ports]
    have joined := start.trans (carried_updCore c (Core.pathJoined ((tget {} s.groups group).members.map m.to)) u)
    obtain ⟨t, carried, count, kept⟩ :=
      (launchAway_launches c m ring read (tget {} s.groups group) s).at_ joined first second p
    obtain ⟨-, -, mark, item⟩ := launchAway_sent c m ring read (childAt t (tget {} s.groups group) p) (some p) t
      (q := q) (by rw [carried.pathQueueOf, carried.childAt, queue])
    rw [List.filter_map, List.map_map] at number
    have starts : tget 0 t.fab.seqOut q = n := (count q).trans number.symm
    rw [starts, carried.childAt] at mark item
    rw [carried.childAt] at kept
    exact ⟨itemSent_kept mark kept, itemSent_kept item kept⟩
  · rw [if_neg multicast] at dests
    by_cases here : peer = s.module
    · simp [here] at dests
    · rw [if_neg here] at dests
      obtain ⟨rfl, rest⟩ := List.append_eq_singleton_iff.1 dests.symm |>.resolve_right (by simp)
      obtain ⟨rfl, -⟩ := List.cons.inj rest
      rw [launchMessage_away multicast (by rw [start.module]; exact here)]
      have starts : tget 0 u.fab.seqOut q = n := number.symm
      obtain ⟨-, -, sent⟩ := launchAway_sent c m ring read (peer, m.core) (firstPort u peer) u (q := q) (by rw [start.pathQueueOf, queue])
      rwa [starts] at sent

end

/-- Core `k` with the sends `l` left. -/
def Core.sendsLeft (l : List SendRec) (k : Core) : Core := { k with sends := l }

theorem chSendComplete_eq {s : State} {c : Fin 32} {pre post : List SendRec} {r : SendRec} {m : ChMsg} {d : W256}
    (sends : (s.core c).sends = pre ++ r :: post) (sent : r.msg = some m) (early : ∀ q ∈ pre, q.skipped = true ∨ s.seq.cycle < q.lastRead)
    (executed : r.skipped = false) (now : r.lastRead ≤ s.seq.cycle) (desc : d = ((s.core c).ep r.ep).desc) : exec (.chSendComplete c) s =
      .next (fireSignals c r.idx r.sig (launchMessage c (epRole d) (epGroup d) (epPeerModule d)
        { m with bytes := m.bytes ++ mreads r.buf r.src r.len } (epRing d) r.readOf (s.updCore c (Core.sendsLeft (pre ++ post))))) := by
  have early' : ∀ q ∈ pre, (!q.skipped && decide (q.lastRead ≤ s.seq.cycle)) = false := fun q mem => notDue_of_early (early q mem)
  have now' : (!r.skipped && decide (r.lastRead ≤ s.seq.cycle)) = true := by simp [executed, now]
  have erased : (s.core c).sends.erase r = pre ++ post := by rw [sends, erase_first _ pre post r early' now']
  have left : (s.updCore c fun k => { k with sends := k.sends.erase r }) = s.updCore c (Core.sendsLeft (pre ++ post)) :=
    congrArg (fun l => s.updCore c (Core.sendsLeft l)) erased
  change execChSendComplete c s = _
  unfold execChSendComplete
  rw [sends, find_first _ pre post r early' now']
  dsimp only
  rw [left, sent, desc]

/-! ## What is through leaves in order -/

/-- Settles O38: what leaves leaves through `Carried` and keeps its place among the launches (`Launches.at_`), and the signals fire last
(`Carried.fired`). -/
theorem transfersCompleteInOrder : Obligations.TransfersCompleteInOrder := by
  intro s c
  refine ⟨?store, fun pre post r => turnComplete_signalsTo, ?send⟩
  case store =>
    intro e pre post r hands early executed now
    have start : Carried c s (s.updCore c (Core.handsLeft e (pre ++ post))) := carried_updCore ..
    have core : (s.updCore c (Core.handsLeft e (pre ++ post))).core c = (s.core c).handsLeft e (pre ++ post) := by
      rw [updCore_core, if_pos rfl]
    obtain ⟨path, elems⟩ := foldS_launchElem_path (r := r) start
    obtain ⟨t, fires, reach, signalled, kept, silent⟩ :=
      (start.trans ((launchElem_launches c r s).carried_foldS r.moves _ start)).fired r.idx r.sig
    rw [core] at path elems
    obtain ⟨signalled, streams⟩ := signalled_streams signalled path
    refine ⟨t, (storeHandComplete_eq hands early executed now).trans (congrArg _ fires), reach, signalled, ?elems, fun quiet => (silent quiet).2,
      fun here quiet => (silent quiet).1.trans (foldS_launchElem_fab c r _ r.moves here), ?sent⟩
    case elems =>
      unfold Core.stream at elems ⊢
      rw [streams]
      exact elems
    case sent =>
      rintro _ rfl before after m moves away - q n queue number
      have sent := foldS_launchElem_sent (r := r) start (after := after) away queue number
      rw [← moves] at sent
      exact ⟨itemSent_kept sent.1 kept, kept.2 sent.2⟩
  case send =>
    intro pre post r m sends message early executed now
    have start : Carried c s (s.updCore c (Core.sendsLeft (pre ++ post))) := carried_updCore ..
    generalize desc : ((s.core c).ep r.ep).desc = d
    have runs := chSendComplete_eq sends message early executed now desc.symm
    generalize bytes : m.bytes ++ mreads r.buf r.src r.len = b at runs ⊢
    have path := launchMessage_path (role := epRole d) (group := epGroup d) (peer := epPeerModule d) (m := { m with bytes := b })
      (ring := epRing d) (read := r.readOf) start
    obtain ⟨t, fires, reach, signalled, kept, silent⟩ := (launchMessage_carried (role := epRole d) (group := epGroup d)
      (peer := epPeerModule d) (m := { m with bytes := b }) (ring := epRing d) (read := r.readOf) start).fired r.idx r.sig
    rw [path, updCore_core, if_pos rfl] at signalled
    refine ⟨t, runs.trans (congrArg _ fires), reach, ?_⟩
    rintro b rfl d rfl
    refine ⟨signalled, fun quiet => (silent quiet).2, fun single here quiet => (silent quiet).1.trans (launchMessage_fab start single here), ?_⟩
    rintro _ rfl _ _ rfl rfl before after x dests q n queue number
    obtain ⟨mark, item⟩ := launchMessage_sent (read := r.readOf) (m := { m with bytes := b }) start dests queue number
    exact ⟨itemSent_kept mark kept, itemSent_kept item kept⟩

end Sys2Proof.Machine

/-!
PROOFS. Bells and channels (09_bells_channels.md): bell operations at their home, buoys, and the values of READs.
-/
namespace Sys2Proof.Machine

/-! ## An operation reaches its home (R229, R234, R236) -/

/-- An operation that arrives waits at the place of its word. -/
theorem bellArrive_atHome (r : BellReq) (s : State) : Claims.atHome r s (bellArrive r s) := by
  unfold bellArrive bellPlace
  refine ⟨fun h a place => ?_, fun a place i stack => ?_⟩
  · rw [place]
    rfl
  · rw [place, stack]
    rfl

/-- Each row of an operation takes the next one of its path. -/
theorem exec_of_bellRow {i : Instr} {src : Fin 32} {op : BitVec 2} {x : Bool} (row : i = .bellAdd ⟨src, x⟩ ∧ op = 0 ∨
    i = .bellSet ⟨src, x⟩ ∧ op = 1 ∨ i = .bellMax ⟨src, x⟩ ∧ op = 2 ∨ i = .bellRead src ∧ op = 3 ∧ x = false) (s : State) :
    exec i s = .next (bellRow op src x s) := by
  obtain ⟨rfl, rfl⟩ | ⟨rfl, rfl⟩ | ⟨rfl, rfl⟩ | ⟨rfl, rfl, rfl⟩ := row <;> rfl

/-! ## An operation that is applied (R229, R230, R239, R256) -/

theorem tget_map {α : Type} (d : α) (g : α → α) (keeps : g d = d) (t : Tbl α) (k : Nat) :
    tget d (t.map fun e => (e.1, g e.2)) k = g (tget d t k) := by
  induction t with
  | nil => exact keeps.symm
  | cons e t ih =>
    simp only [List.map_cons, tget]
    split
    · rfl
    · exact ih

/-- Buoy `b` once operation `r` has left `new` in its word. -/
def State.buoyAfter (s : State) (r : BellReq) (new : U64) (b : Buoy) : Buoy :=
  if b.armed && decide (bellPlace s b.addr = bellPlace s r.addr) then buoySee r new s.time.hallTime b else b

/-- Core `k` of `s` with its buoys after operation `r`. -/
def State.buoysSaw (s : State) (r : BellReq) (new : U64) (k : Core) : Core :=
  { k with buoys := k.buoys.map fun e => (e.1, s.buoyAfter r new e.2) }

theorem updateBuoys_core (r : BellReq) (new : U64) (s : State) (k : Fin 32) :
    (updateBuoys r new s).core k = s.buoysSaw r new (s.core k) := by
  have entry (e : Nat × Buoy) : (if e.2.armed && decide (bellPlace s e.2.addr = bellPlace s r.addr) then
      (e.1, buoySee r new s.time.hallTime e.2) else e) = (e.1, s.buoyAfter r new e.2) := by
    unfold State.buoyAfter
    split <;> rfl
  unfold updateBuoys State.core
  dsimp only
  rw [vector_get_map]
  simp only [entry]
  rfl

/-- The place that `r` holds on a path of its source core, which is `src`, is free. -/
def Core.bellGone (r : BellReq) (k : Core) : Core :=
  match r.origin with
  | .ordered => { k with path := k.path.drop 1, pathNeed := none }
  | .express => { k with expPath := k.expPath.drop 1, expBusy := false }
  | _ => k

theorem bellPassed_core (r : BellReq) (s : State) (k : Fin 32) :
    (bellPassed r s).core k = if k = coreOf r.srcCore.toNat then (s.core k).bellGone r else s.core k := by
  unfold bellPassed Core.bellGone
  cases r.origin with
  | ordered | express =>
    dsimp only
    rw [updCore_core]
    split
    · rename_i same
      rw [same]
    · rfl
  | item key n =>
    dsimp only
    unfold acceptMsg
    rw [c0send_frame, ite_self]
    rfl
  | expressIn | buoy | muster => exact (ite_self _).symm

theorem bellPassed_frame (r : BellReq) (s : State) :
    bellPassed r s = { s with cores := (bellPassed r s).cores, fab := (bellPassed r s).fab } := by
  unfold bellPassed
  cases r.origin with
  | item key n =>
    dsimp only
    unfold acceptMsg
    rw [c0send_frame]
    rfl
  | ordered | express | expressIn | buoy | muster => rfl

theorem bellPassed_module (r : BellReq) (s : State) : (bellPassed r s).module = s.module := by
  unfold bellPassed
  cases r.origin with
  | item key n =>
    dsimp only
    unfold acceptMsg
    obtain ⟨x, sent⟩ := c0send_eq r.srcModule (c0msg [(0, 1, kindAccept), (8, 1, r.srcCore.toNat), (12, 3, n % 2 ^ 24)])
      (s.updPath key fun p => { p with busy := false })
    rw [sent]
    rfl
  | ordered | express | expressIn | buoy | muster => rfl

/-- The home core of an operation once it is applied there: its log and its counts. -/
def State.homeLogged (s : State) (r : BellReq) (new : U64) (k : Core) : Core :=
  { k with
    bellAt := some (s.time.hallTime, s.seq.cycle)
    bellTimes := (k.bellTimes.filter fun t => decide (s.now < t.toNat + 1000)) ++ [s.time.hallTime]
    bellLog := if r.op = 3 then k.bellLog
      else ringPush 64 k.bellLog ⟨r.addr, new, s.time.hallTime, r.srcModule, r.srcCore, r.op, r.express, r.cmd⟩
    bellTotal := if r.op = 3 then k.bellTotal else k.bellTotal + 1 }

/-- Core `k` of `s` once the home of operation `r` has left `new` in its word and the path of `r` has gone on. -/
def State.bellTook (s : State) (r : BellReq) (new : U64) (k : Fin 32) : Core :=
  let seen := s.buoysSaw r new (s.core k)
  let logged := if k = homeCore s r.addr then s.homeLogged r new seen else seen
  if k = coreOf r.srcCore.toNat then logged.bellGone r else logged

/-- The state in which operation `r` is applied and nothing has returned to its source yet. -/
def State.bellMade (s : State) (r : BellReq) (new : U64) : State :=
  bellPassed r (logBell (homeCore s r.addr) r new (updateBuoys r new
    (s.updCore (homeCore s r.addr) fun k => { k with bellAt := some (s.time.hallTime, s.seq.cycle) })))

theorem bellMade_core (s : State) (r : BellReq) (new : U64) (k : Fin 32) : (s.bellMade r new).core k = s.bellTook r new k := by
  unfold State.bellMade State.bellTook
  rw [bellPassed_core]
  generalize noted : s.updCore (homeCore s r.addr) _ = u
  have saw (j : Fin 32) : (updateBuoys r new u).core j = s.buoysSaw r new (u.core j) := by
    rw [updateBuoys_core, ← noted]
    rfl
  have logged : (logBell (homeCore s r.addr) r new (updateBuoys r new u)).core k =
      if k = homeCore s r.addr then s.homeLogged r new (s.buoysSaw r new (s.core k)) else s.buoysSaw r new (s.core k) := by
    unfold logBell
    rw [updCore_core, saw, saw]
    by_cases home : k = homeCore s r.addr
    · rw [if_pos home, if_pos home, ← noted, updCore_core, if_pos rfl, ← home]
      unfold State.homeLogged
      by_cases read : r.op = 3
      · rw [if_pos read, if_pos read, if_pos read]
        rfl
      · rw [if_neg read, if_neg read, if_neg read]
        rfl
    · rw [if_neg home, if_neg home, ← noted, updCore_core, if_neg home]
  rw [logged]

end Sys2Proof.Machine

namespace Sys2Proof.Machine

section
variable {s : State} {r : BellReq} {new : U64}

theorem bellGone_paths (r : BellReq) (k : Core) :
    ∃ p n e b, k.bellGone r = { k with path := p, pathNeed := n, expPath := e, expBusy := b } := by
  unfold Core.bellGone
  split <;> exact ⟨_, _, _, _, rfl⟩

/-- An operation changes no data of a core, nor what its commands read. -/
theorem bellTook_keeps (s : State) (r : BellReq) (new : U64) (k : Fin 32) : ∃ b t l n a p m e x, s.bellTook r new k = { s.core k with
    buoys := b, bellTimes := t, bellLog := l, bellTotal := n, bellAt := a, path := p, pathNeed := m, expPath := e, expBusy := x } := by
  unfold State.bellTook
  dsimp only
  generalize logged : (if k = homeCore s r.addr then s.homeLogged r new (s.buoysSaw r new (s.core k)) else s.buoysSaw r new (s.core k)) = c
  have kept : ∃ b t l n a, c = { s.core k with buoys := b, bellTimes := t, bellLog := l, bellTotal := n, bellAt := a } := by
    rw [← logged]
    split <;> exact ⟨_, _, _, _, _, rfl⟩
  obtain ⟨b, t, l, n, a, rfl⟩ := kept
  split
  · obtain ⟨p, m, e, x, gone⟩ := bellGone_paths r _
    rw [gone]
    exact ⟨b, t, l, n, a, p, m, e, x, rfl⟩
  · exact ⟨b, t, l, n, a, _, _, _, _, rfl⟩

theorem bellTook_buoys (s : State) (r : BellReq) (new : U64) (k : Fin 32) :
    (s.bellTook r new k).buoys = (s.core k).buoys.map fun e => (e.1, s.buoyAfter r new e.2) := by
  unfold State.bellTook
  dsimp only
  split
  · obtain ⟨p, m, e, x, gone⟩ := bellGone_paths r
      (if k = homeCore s r.addr then s.homeLogged r new (s.buoysSaw r new (s.core k)) else s.buoysSaw r new (s.core k))
    rw [gone]
    split <;> rfl
  · split <;> rfl

/-- The home of an operation notes that it has applied one, and logs it unless it is a READ. -/
theorem bellTook_logged (s : State) (r : BellReq) (new : U64) (k : Fin 32) :
    (s.bellTook r new k).bellAt = (if k = homeCore s r.addr then some (s.time.hallTime, s.seq.cycle) else (s.core k).bellAt) ∧
    (s.bellTook r new k).bellTotal = (if k = homeCore s r.addr ∧ r.op ≠ 3 then (s.core k).bellTotal + 1 else (s.core k).bellTotal) ∧
    (s.bellTook r new k).bellLog = (if k = homeCore s r.addr ∧ r.op ≠ 3 then ringPush 64 (s.core k).bellLog
      ⟨r.addr, new, s.time.hallTime, r.srcModule, r.srcCore, r.op, r.express, r.cmd⟩ else (s.core k).bellLog) := by
  have logged : let c := (if k = homeCore s r.addr then s.homeLogged r new (s.buoysSaw r new (s.core k)) else s.buoysSaw r new (s.core k))
      (s.bellTook r new k).bellAt = c.bellAt ∧ (s.bellTook r new k).bellTotal = c.bellTotal ∧ (s.bellTook r new k).bellLog = c.bellLog := by
    unfold State.bellTook
    dsimp only
    split
    · obtain ⟨p, m, e, x, gone⟩ := bellGone_paths r
        (if k = homeCore s r.addr then s.homeLogged r new (s.buoysSaw r new (s.core k)) else s.buoysSaw r new (s.core k))
      rw [gone]
      exact ⟨rfl, rfl, rfl⟩
    · exact ⟨rfl, rfl, rfl⟩
  obtain ⟨at_, total, log⟩ := logged
  rw [at_, total, log]
  by_cases home : k = homeCore s r.addr
  · rw [if_pos home, if_pos home]
    by_cases read : r.op = 3
    · rw [if_neg fun h => h.2 read, if_neg fun h => h.2 read]
      exact ⟨rfl, if_pos read, if_pos read⟩
    · rw [if_pos ⟨home, read⟩, if_pos ⟨home, read⟩]
      exact ⟨rfl, if_neg read, if_neg read⟩
  · rw [if_neg home, if_neg home, if_neg fun h => home h.1, if_neg fun h => home h.1]
    exact ⟨rfl, rfl, rfl⟩

/-- The source's ordered path goes on behind an operation that was at its front. -/
theorem bellTook_ordered {k : Fin 32} (src : k = coreOf r.srcCore.toNat) (origin : r.origin = .ordered) :
    (s.bellTook r new k).path = (s.core k).path.drop 1 ∧ (s.bellTook r new k).pathNeed = none := by
  unfold State.bellTook Core.bellGone
  dsimp only
  rw [if_pos src, origin]
  constructor
  · dsimp only
    split <;> rfl
  · rfl

theorem bellTook_express {k : Fin 32} (src : k = coreOf r.srcCore.toNat) (origin : r.origin = .express) :
    (s.bellTook r new k).expPath = (s.core k).expPath.drop 1 ∧ (s.bellTook r new k).expBusy = false := by
  unfold State.bellTook Core.bellGone
  dsimp only
  rw [if_pos src, origin]
  constructor
  · dsimp only
    split <;> rfl
  · rfl

end

theorem bellMade_frame (s : State) (r : BellReq) (new : U64) :
    s.bellMade r new = { s with cores := (s.bellMade r new).cores, fab := (s.bellMade r new).fab } := by
  unfold State.bellMade
  rw [bellPassed_frame]
  unfold logBell updateBuoys State.updCore
  rfl

theorem bellMade_module (s : State) (r : BellReq) (new : U64) : (s.bellMade r new).module = s.module := bellPassed_module r _

/-- An operation of this die sends nothing as its path goes on. -/
theorem bellMade_fab {s : State} {r : BellReq} {new : U64} (here : r.origin = .ordered ∨ r.origin = .express) :
    (s.bellMade r new).fab = s.fab := by
  unfold State.bellMade bellPassed
  obtain origin | origin := here <;> rw [origin] <;> rfl

section
variable {s : State} {r : BellReq} {old : U64} (apart : ∀ k b, r.origin ≠ .buoy k b)
include apart

theorem bellApplied_write (write : r.op ≠ 3) : bellApplied r old s =
    if r.srcModule = s.module then ackAdd r.srcCore r.ack (s.bellMade r (bellNew r.op old r.operand)) else s.bellMade r (bellNew r.op old r.operand) := by
  have module := bellMade_module s r (bellNew r.op old r.operand)
  unfold bellApplied
  split
  · rename_i k b origin
    exact absurd origin (apart k b)
  · dsimp only
    rw [if_neg write]
    unfold State.bellMade at module ⊢
    rw [← module]

theorem bellApplied_read (read : r.op = 3) : bellApplied r old s = returnRead r old (s.bellMade r old) := by
  have same : bellNew r.op old r.operand = old := by
    rw [read]
    rfl
  unfold bellApplied
  split
  · rename_i k b origin
    exact absurd origin (apart k b)
  · dsimp only
    rw [if_pos read, same]
    rfl

end

/-- A landing add reaches the core that it names, and no other. -/
theorem ackAdd_core (c : BitVec 5) (a : Option (BitVec 5)) (s : State) (k : Fin 32) :
    (ackAdd c a s).core k = if k = coreOf c.toNat then Claims.acked s a 1 (s.core k) else s.core k := by
  cases a with
  | none => exact (ite_self _).symm
  | some n =>
    unfold ackAdd landAdd Claims.acked
    dsimp only
    rw [updCore_core]
    by_cases same : k = coreOf c.toNat
    · rw [if_pos same, if_pos same, same]
      cases s.midCycle <;> rfl
    · rw [if_neg same, if_neg same]

theorem ackAdd_frame (c : BitVec 5) (a : Option (BitVec 5)) (s : State) : ackAdd c a s = { s with cores := (ackAdd c a s).cores } := by
  cases a <;> rfl

theorem acked_frame (s : State) (a : Option (BitVec 5)) (n : Nat) (k : Core) : Claims.acked s a n k =
    { k with counters := (Claims.acked s a n k).counters, lateAdds := (Claims.acked s a n k).lateAdds } := by
  unfold Claims.acked
  split
  · rfl
  · split <;> rfl

/-- What a landing add leaves of the counters depends on the counters alone. -/
theorem acked_counters {s t : State} (a : Option (BitVec 5)) (n : Nat) {k k' : Core} (mid : t.midCycle = s.midCycle)
    (counters : k'.counters = k.counters) (late : k'.lateAdds = k.lateAdds) :
    (Claims.acked t a n k').counters = (Claims.acked s a n k).counters ∧ (Claims.acked t a n k').lateAdds = (Claims.acked s a n k).lateAdds := by
  unfold Claims.acked
  rw [mid]
  split
  · exact ⟨counters, late⟩
  · split
    · exact ⟨counters, by rw [late]⟩
    · exact ⟨by rw [counters], late⟩

end Sys2Proof.Machine

namespace Sys2Proof.Machine

/-! ## The turn of an operation at its bank (R93, R229) -/

section
variable {s : State} {h : Fin 32} {bank : BitVec 5} {f : FillAcc} {r : BellReq}

/-- The state in which fill `f` has its turn and has done nothing yet. -/
def State.fillNoted (s : State) (h : Fin 32) (bank : BitVec 5) (f : FillAcc) : State := s.updCore h fun _ => Claims.noted s h bank f

theorem fillAccess_bell (turn : Claims.FillTurn s h bank f) {old : Option U64} (op : f.op = .bell r old) :
    exec (.fillAccess h bank) s = .next (bellTurn h f r old (s.fillNoted h bank f)) := by
  obtain ⟨free, next, port, once⟩ := turn
  change execFillAccess h bank s = _
  unfold execFillAccess
  dsimp only
  rw [if_neg (show ¬ (s.running = true ∧ bit (s.core h).busyBanks bank.toNat = true) from free), next]
  dsimp only
  rw [if_neg (not_or.2 ⟨mt List.contains_iff_mem.1 port, mt List.contains_iff_mem.1 once⟩), op]
  rfl

theorem fillNoted_core (s : State) (h : Fin 32) (bank : BitVec 5) (f : FillAcc) : (s.fillNoted h bank f).core h = Claims.noted s h bank f := by
  unfold State.fillNoted
  rw [updCore_core, if_pos rfl]

theorem fillNoted_bellTaken : (s.fillNoted h bank f).bellTaken r = s.bellTaken r := by
  have same (k : Fin 32) : ((s.fillNoted h bank f).core k).bellAt = (s.core k).bellAt ∧
      ((s.fillNoted h bank f).core k).regAt = (s.core k).regAt := by
    unfold State.fillNoted
    rw [updCore_core]
    split
    · rename_i eq
      rw [eq]
      exact ⟨rfl, rfl⟩
    · exact ⟨rfl, rfl⟩
  have home : homeCore (s.fillNoted h bank f) r.addr = homeCore s r.addr := rfl
  unfold State.bellTaken
  dsimp only
  rw [home, (same _).1, (same _).2]
  rfl

theorem fillNoted_staleLines : (s.fillNoted h bank f).staleLines ((s.fillNoted h bank f).core h) = s.staleLines (s.core h) := by
  rw [fillNoted_core]
  rfl

theorem fillNoted_fillBytes (a n : Nat) :
    (s.fillNoted h bank f).fillBytes ((s.fillNoted h bank f).core h) a n = s.fillBytes (s.core h) a n := by
  rw [fillNoted_core]
  rfl

theorem reads_iff (r : BellReq) : r.reads = true ↔ r.op = 3 := beq_iff_eq

/-- An operation waits while its home has applied one in this cycle. -/
theorem bellTurn_taken {old : Option U64} {s : State} (taken : s.bellTaken r = true) (ends : old.isSome = true ∨ r.op = 3) :
    bellTurn h f r old s = s := by
  unfold bellTurn
  dsimp only
  rw [if_pos ⟨taken, ends.imp_right (reads_iff r).2⟩]

/-- The first access of an operation that writes only reads its word, and reads nothing where a read would return the old content. -/
theorem bellTurn_first {s : State} (write : r.op ≠ 3) : bellTurn h f r none s =
    if (s.staleLines (s.core h)).any (fun x => x.1 == f.addr / 256) then s
    else s.updCore h fun k => { k with fills := k.fills.map fun g =>
      if g = f then { f with op := .bell r (some (BitVec.ofNat 64 (ofBytes (s.fillBytes (s.core h) f.addr 8)))) } else g } := by
  have not : ¬ r.reads = true := fun reads => write ((reads_iff r).1 reads)
  unfold bellTurn
  dsimp only
  rw [if_neg fun taken => taken.2.elim Bool.noConfusion not, if_neg not,
    if_pos (show (none : Option U64).isNone = true from rfl)]
  rfl

/-- Core `k` in which the fill `f` of an operation is done, and has left `new` in the word behind it. -/
def Core.bellFilled (f : FillAcc) (new : U64) (k : Core) : Core := { k with fills := passValue f.addr new (k.fills.erase f) }

/-- The second access of an operation that writes leaves the new value in its word. -/
theorem bellTurn_second {s : State} {old : U64} (write : r.op ≠ 3) (free : s.bellTaken r = false) : bellTurn h f r (some old) s =
    bellApplied r old (s.updCore h fun k =>
      (k.bellFilled f (bellNew r.op old r.operand)).fillWrite f.addr (toBytes 8 (bellNew r.op old r.operand).toNat)) := by
  unfold bellTurn
  dsimp only
  rw [if_neg fun taken => absurd (taken.1.symm.trans free) (by decide), if_neg fun reads => write ((reads_iff r).1 reads),
    if_neg (show ¬ (some old).isNone = true from Bool.false_ne_true)]
  rfl

/-- The only access of a READ. -/
theorem bellTurn_read {s : State} (read : r.op = 3) (free : s.bellTaken r = false) : bellTurn h f r none s =
    bellApplied r (BitVec.ofNat 64 (ofBytes (s.fillBytes (s.core h) f.addr 8)))
      (s.updCore h (Core.bellFilled f (BitVec.ofNat 64 (ofBytes (s.fillBytes (s.core h) f.addr 8))))) := by
  unfold bellTurn
  dsimp only
  rw [if_neg fun taken => absurd (taken.1.symm.trans free) (by decide), if_pos ((reads_iff r).2 read)]
  rfl

end

/-- A buoy that is valid and watches the word shows what an operation that writes leaves there (R239, R243). -/
theorem buoyAfter_watching {s : State} {r : BellReq} {new : U64} {b : Buoy} (write : r.op ≠ 3) (armed : b.armed = true)
    (valid : b.valid = true) (idle : b.reg = .idle) (place : bellPlace s b.addr = bellPlace s r.addr) : s.buoyAfter r new b =
    { b with copy := new, lastTime := s.time.hallTime, lastModule := r.srcModule, lastCore := r.srcCore, lastCmd := r.cmd } := by
  unfold State.buoyAfter buoySee
  rw [if_pos (by rw [armed, decide_eq_true place, Bool.true_and]), idle]
  dsimp only
  rw [if_pos valid, if_neg write]

theorem buoyAfter_none (s : State) (r : BellReq) (new : U64) : s.buoyAfter r new {} = {} := rfl

/-- The value that ADD, SET or MAX leaves (Table 9.1). -/
theorem bellNew_write {op : BitVec 2} (write : op ≠ 3) (old x : U64) : bellNew op old x =
    if op = 0 then old + x else if op = 1 then x else if x.toNat ≤ old.toNat then old else x := by
  have all : ∀ op : BitVec 2, op ≠ 3 → op = 0 ∨ op = 1 ∨ op = 2 := by decide
  obtain rfl | rfl | rfl := all op write <;> rfl

/-- What an operation that writes leaves of core `k`, once it is written in core `h` and applied. -/
theorem bellApplied_core {s : State} {r : BellReq} {old : U64} (apart : ∀ k b, r.origin ≠ .buoy k b) (write : r.op ≠ 3) (k : Fin 32) :
    (bellApplied r old s).core k = if r.srcModule = s.module ∧ k = coreOf r.srcCore.toNat then
        Claims.acked s r.ack 1 (s.bellTook r (bellNew r.op old r.operand) k)
      else s.bellTook r (bellNew r.op old r.operand) k := by
  have mid : ∀ x, Claims.acked (s.bellMade r (bellNew r.op old r.operand)) r.ack 1 x = Claims.acked s r.ack 1 x := by
    intro x
    rw [bellMade_frame]
    rfl
  rw [bellApplied_write apart write]
  by_cases here : r.srcModule = s.module
  · rw [if_pos here, ackAdd_core, bellMade_core, mid]
    simp only [here, true_and]
  · rw [if_neg here, if_neg fun h => here h.1, bellMade_core]

theorem bellApplied_frame {s : State} {r : BellReq} {old : U64} (apart : ∀ k b, r.origin ≠ .buoy k b) (write : r.op ≠ 3) :
    bellApplied r old s = { s with cores := (bellApplied r old s).cores, fab := (bellApplied r old s).fab } := by
  rw [bellApplied_write apart write]
  split
  · rw [ackAdd_frame, bellMade_frame]
  · exact bellMade_frame ..

theorem bellApplied_fab {s : State} {r : BellReq} {old : U64} (here : r.origin = .ordered ∨ r.origin = .express) (write : r.op ≠ 3) :
    (bellApplied r old s).fab = s.fab := by
  have apart : ∀ k b, r.origin ≠ .buoy k b := fun k b origin => by
    rw [origin] at here
    exact here.elim BellOrigin.noConfusion BellOrigin.noConfusion
  rw [bellApplied_write apart write]
  split
  · rw [ackAdd_frame]
    exact bellMade_fab here
  · exact bellMade_fab here

end Sys2Proof.Machine

namespace Sys2Proof.Machine

/-- The state in which fill `f` has left `new` in the word of its operation. -/
def State.bellStored (s : State) (h : Fin 32) (bank : BitVec 5) (f : FillAcc) (new : U64) : State :=
  (s.fillNoted h bank f).updCore h fun k => (k.bellFilled f new).fillWrite f.addr (toBytes 8 new.toNat)

/-- The state in which fill `f` has read the word `new` for its operation. -/
def State.bellFetched (s : State) (h : Fin 32) (bank : BitVec 5) (f : FillAcc) (new : U64) : State :=
  (s.fillNoted h bank f).updCore h (Core.bellFilled f new)

theorem fillWrite_frame (k : Core) (a : Nat) (bytes : List Byte) : k.fillWrite a bytes = { k with
    spad := mwrites k.spad a bytes, prev := (k.fillWrite a bytes).prev, older := (k.fillWrite a bytes).older } := rfl

/-- The part of a core that the fills of its scratchpad leave alone and that an operation applied there reads. -/
def Core.besideFills (k : Core) :=
  (k.flags, k.preds, k.streams, k.counters, k.lateAdds, k.buoys, k.bellTotal, k.bellLog, k.path, k.expPath)

theorem fillWrite_besideFills (k : Core) (a : Nat) (bytes : List Byte) : (k.fillWrite a bytes).besideFills = k.besideFills := rfl

theorem bellFilled_besideFills (f : FillAcc) (new : U64) (k : Core) : (k.bellFilled f new).besideFills = k.besideFills := rfl

theorem noted_besideFills (s : State) (h : Fin 32) (bank : BitVec 5) (f : FillAcc) :
    (Claims.noted s h bank f).besideFills = (s.core h).besideFills := rfl

theorem bellStored_besideFills (s : State) (h : Fin 32) (bank : BitVec 5) (f : FillAcc) (new : U64) (k : Fin 32) :
    ((s.bellStored h bank f new).core k).besideFills = (s.core k).besideFills := by
  unfold State.bellStored State.fillNoted
  rw [updCore_updCore, updCore_core]
  split
  · rename_i same
    rw [fillWrite_besideFills, bellFilled_besideFills, noted_besideFills, same]
  · rfl

theorem bellStored_spad (s : State) (h : Fin 32) (bank : BitVec 5) (f : FillAcc) (new : U64) (k : Fin 32) :
    ((s.bellStored h bank f new).core k).spad =
      if k = h then mwrites (s.core h).spad f.addr (toBytes 8 new.toNat) else (s.core k).spad := by
  unfold State.bellStored State.fillNoted
  rw [updCore_updCore, updCore_core]
  split
  · rfl
  · rfl

theorem bellFetched_core (s : State) (h : Fin 32) (bank : BitVec 5) (f : FillAcc) (new : U64) (k : Fin 32) : ∃ l a p b,
    (s.bellFetched h bank f new).core k = { s.core k with fills := l, fillAt := a, fillPorts := p, fillBanks := b } := by
  unfold State.bellFetched State.fillNoted
  rw [updCore_updCore, updCore_core]
  split
  · rename_i same
    subst same
    exact ⟨_, _, _, _, rfl⟩
  · exact ⟨_, _, _, _, rfl⟩

section
variable {s : State} {h : Fin 32} {bank : BitVec 5} {f : FillAcc} {r : BellReq}

/-- An operation that writes is applied at the second access to its word. -/
theorem fillAccess_bellWrite (turn : Claims.FillTurn s h bank f) {old : U64} (write : r.op ≠ 3) (op : f.op = .bell r (some old))
    (free : s.bellTaken r = false) : exec (.fillAccess h bank) s =
      .next (bellApplied r old (s.bellStored h bank f (bellNew r.op old r.operand))) := by
  rw [fillAccess_bell turn op, bellTurn_second write (fillNoted_bellTaken.trans free)]
  rfl

/-- A READ, or the registration of a buoy, is served by the one access to its word. -/
theorem fillAccess_bellRead (turn : Claims.FillTurn s h bank f) (read : r.op = 3) (op : f.op = .bell r none)
    (free : s.bellTaken r = false) {old : U64} (value : old = BitVec.ofNat 64 (ofBytes (s.fillBytes (s.core h) f.addr 8))) :
    exec (.fillAccess h bank) s = .next (bellApplied r old (s.bellFetched h bank f old)) := by
  rw [fillAccess_bell turn op, bellTurn_read read (fillNoted_bellTaken.trans free), fillNoted_fillBytes, ← value]
  rfl

end

/-- The value `v` of READ `r` has reached its source core. -/
def Core.readReturned (r : BellReq) (v : U64) (k : Core) : Core :=
  { k with readValues := k.readValues ++ [⟨k.readNo, r.rdest, v, r.ack, none⟩], readNo := k.readNo + 1 }

/-- The value of a READ of this module needs no flit. -/
theorem returnRead_here {r : BellReq} {v : U64} {s : State} (here : r.srcModule = s.module) :
    returnRead r v s = s.updCore (coreOf r.srcCore.toNat) (Core.readReturned r v) := by
  unfold returnRead
  rw [if_pos here]
  rfl

/-- Beside what its landing add changes, an operation leaves of a core what its home and its path leave. -/
theorem bellApplied_landing {s : State} {r : BellReq} {old : U64} (apart : ∀ k b, r.origin ≠ .buoy k b) (write : r.op ≠ 3) (k : Fin 32) :
    ∃ x y, (bellApplied r old s).core k = { s.bellTook r (bellNew r.op old r.operand) k with counters := x, lateAdds := y } := by
  rw [bellApplied_core apart write]
  split
  · exact ⟨_, _, acked_frame ..⟩
  · exact ⟨_, _, rfl⟩

theorem bellApplied_counters {s : State} {r : BellReq} {old : U64} (apart : ∀ k b, r.origin ≠ .buoy k b) (write : r.op ≠ 3) (k : Fin 32) :
    ((bellApplied r old s).core k).counters = (if r.srcModule = s.module ∧ k = coreOf r.srcCore.toNat then
      (Claims.acked s r.ack 1 (s.core k)).counters else (s.core k).counters) ∧
    ((bellApplied r old s).core k).lateAdds = (if r.srcModule = s.module ∧ k = coreOf r.srcCore.toNat then
      (Claims.acked s r.ack 1 (s.core k)).lateAdds else (s.core k).lateAdds) := by
  obtain ⟨b, t, l, n, a, p, m, e, x, took⟩ := bellTook_keeps s r (bellNew r.op old r.operand) k
  rw [bellApplied_core apart write]
  by_cases here : r.srcModule = s.module ∧ k = coreOf r.srcCore.toNat
  · rw [if_pos here, if_pos here, if_pos here, took]
    exact acked_counters _ _ rfl rfl rfl
  · rw [if_neg here, if_neg here, if_neg here, took]
    exact ⟨rfl, rfl⟩

/-- Settles O44: an operation reaches its word by `bellArrive_atHome`, takes its turns there by `bellTurn_first` and `bellTurn_second`, and
what it leaves of a core is `bellApplied_core`. -/
theorem bellOperationsAtTheirHome : Obligations.BellOperationsAtTheirHome := by
  refine ⟨fun s src op x i row => ⟨fun none => ?idle, fun r next => ?arrives⟩,
    fun s h bank f r turn => ⟨fun write op => ?first, ?second, ?read, fun taken op => ?waits⟩⟩
  case idle =>
    rw [exec_of_bellRow row]
    unfold bellRow
    rw [none]
  case arrives =>
    refine ⟨_, exec_of_bellRow row s, ?_⟩
    unfold bellRow
    rw [next]
    exact bellArrive_atHome r _
  case first =>
    rw [fillAccess_bell turn op, bellTurn_first write, fillNoted_staleLines, fillNoted_fillBytes]
    split
    · rfl
    · rename_i fresh
      have lines : (s.staleLines (s.core h)).find? (fun x => x.1 == f.addr / 256) = none := by
        rw [List.find?_eq_none]
        exact fun x mem line => fresh (List.any_eq_true.2 ⟨x, mem, line⟩)
      have bytes : s.fillBytes (s.core h) f.addr 8 = mreads (s.core h).spad f.addr 8 := by
        unfold State.fillBytes
        rw [lines]
      rw [bytes]
      unfold State.fillNoted
      rw [updCore_updCore]
      rfl
  case second =>
    rintro old new write op free apart value
    rw [← bellNew_write write] at value
    have runs := fillAccess_bellWrite turn write op free
    rw [← value] at runs
    have frame := bellApplied_frame (s := s.bellStored h bank f new) (old := old) apart write
    have landing := bellApplied_landing (s := s.bellStored h bank f new) (old := old) apart write
    have counters := bellApplied_counters (s := s.bellStored h bank f new) (old := old) apart write
    have quiet := fun here => bellApplied_fab (s := s.bellStored h bank f new) (r := r) (old := old) here write
    have beside := bellStored_besideFills s h bank f new
    have spad := bellStored_spad s h bank f new
    rw [← value] at landing
    generalize bellApplied r old (s.bellStored h bank f new) = t at runs frame landing counters quiet
    have world : s.bellStored h bank f new = { s with cores := (s.bellStored h bank f new).cores } := rfl
    have home : homeCore (s.bellStored h bank f new) r.addr = homeCore s r.addr := rfl
    have after (b : Buoy) : (s.bellStored h bank f new).buoyAfter r new b = s.buoyAfter r new b := rfl
    have mid (k : Core) : Claims.acked (s.bellStored h bank f new) r.ack 1 k = Claims.acked s r.ack 1 k := rfl
    generalize s.bellStored h bank f new = u at *
    simp only [Core.besideFills, Prod.mk.injEq] at beside
    have data (k : Fin 32) : (t.core k).spad = (u.core k).spad ∧ (t.core k).flags = (s.core k).flags ∧ (t.core k).preds = (s.core k).preds ∧
        (t.core k).streams = (s.core k).streams := by
      obtain ⟨flags, preds, streams, -⟩ := beside k
      obtain ⟨x, y, eq⟩ := landing k
      obtain ⟨b, t, l, n, a, p, m, e, z, took⟩ := bellTook_keeps u r new k
      rw [eq, took]
      exact ⟨rfl, flags, preds, streams⟩
    have added (k : Fin 32) : ((t.core k).counters = (if r.srcModule = s.module ∧ k = coreOf r.srcCore.toNat then
          (Claims.acked s r.ack 1 (s.core k)).counters else (s.core k).counters)) ∧
        ((t.core k).lateAdds = (if r.srcModule = s.module ∧ k = coreOf r.srcCore.toNat then
          (Claims.acked s r.ack 1 (s.core k)).lateAdds else (s.core k).lateAdds)) := by
      obtain ⟨-, -, -, count, late, -⟩ := beside k
      obtain ⟨toCount, toLate⟩ := acked_counters r.ack 1 (s := s) (t := s) rfl count late
      rw [(counters k).1, (counters k).2, mid, toCount, toLate, count, late, world]
      exact ⟨rfl, rfl⟩
    obtain ⟨-, -, -, -, -, -, total, log, -⟩ := beside (homeCore s r.addr)
    obtain ⟨x, y, logged⟩ := landing (homeCore s r.addr)
    obtain ⟨tookAt, tookTotal, tookLog⟩ := bellTook_logged u r new (homeCore s r.addr)
    rw [home, if_pos rfl] at tookAt
    rw [home, if_pos ⟨rfl, write⟩, total] at tookTotal
    rw [home, if_pos ⟨rfl, write⟩, log] at tookLog
    refine ⟨t, runs, ?_, ?_, fun k other => ?_, fun k => (data k).2, ?_, ?_, ?_, fun k n armed valid idle place => ?_,
      fun k src here => ?_, fun k apart => ?_, fun k src ordered => ?_, fun k src express => ?_⟩
    · rw [frame, world]
    · rw [(data h).1, spad, if_pos rfl]
    · rw [(data k).1, spad, if_neg other]
    · rw [logged]
      exact tookAt.trans (by rw [world])
    · rw [logged]
      exact tookTotal
    · rw [logged]
      exact tookLog.trans (by rw [world])
    · obtain ⟨-, -, -, -, -, buoys, -⟩ := beside k
      obtain ⟨x, y, eq⟩ := landing k
      have saw : (t.core k).buoys = (s.core k).buoys.map fun e => (e.1, s.buoyAfter r new e.2) := by
        rw [eq]
        refine (bellTook_buoys u r new k).trans ?_
        simp only [buoys, after]
      unfold Core.buoy at armed valid idle place ⊢
      rw [saw, tget_map _ _ (buoyAfter_none s r new), buoyAfter_watching write armed valid idle place]
    · rw [(added k).1, (added k).2, if_pos ⟨here, src⟩, if_pos ⟨here, src⟩]
      exact ⟨rfl, rfl⟩
    · rw [(added k).1, (added k).2, if_neg fun both => apart.elim (absurd both.2) (absurd both.1),
        if_neg fun both => apart.elim (absurd both.2) (absurd both.1)]
      exact ⟨rfl, rfl⟩
    · obtain ⟨-, -, -, -, -, -, -, -, path, -⟩ := beside k
      obtain ⟨x, y, eq⟩ := landing k
      obtain ⟨dropped, need⟩ := bellTook_ordered (s := u) (new := new) src ordered
      rw [eq, quiet (.inl ordered), ← path]
      exact ⟨by rw [world], dropped, need⟩
    · obtain ⟨-, -, -, -, -, -, -, -, -, path⟩ := beside k
      obtain ⟨x, y, eq⟩ := landing k
      obtain ⟨dropped, busy⟩ := bellTook_express (s := u) (new := new) src express
      rw [eq, quiet (.inr express), ← path]
      exact ⟨by rw [world], dropped, busy⟩
  case read =>
    rintro k old read op free origin here src value
    have apart : ∀ k b, r.origin ≠ .buoy k b := fun k b buoy => BellOrigin.noConfusion (origin.symm.trans buoy)
    have runs := fillAccess_bellRead turn read op free value
    rw [bellApplied_read apart read] at runs
    rw [returnRead_here (here.trans (bellMade_module (s.bellFetched h bank f old) r old).symm), ← src] at runs
    have core (q : Fin 32) := bellMade_core (s.bellFetched h bank f old) r old q
    have frame := bellMade_frame (s.bellFetched h bank f old) r old
    rw [bellMade_fab (.inl origin)] at frame
    have fetched := bellFetched_core s h bank f old
    have world : s.bellFetched h bank f old = { s with cores := (s.bellFetched h bank f old).cores } := rfl
    have home : homeCore (s.bellFetched h bank f old) r.addr = homeCore s r.addr := rfl
    generalize (s.bellFetched h bank f old).bellMade r old = v at *
    generalize s.bellFetched h bank f old = u at *
    have data (q : Fin 32) : (v.core q).spad = (s.core q).spad ∧ (v.core q).bellLog = (s.core q).bellLog ∧
        (v.core q).counters = (s.core q).counters ∧ (v.core q).readValues = (s.core q).readValues ∧ (v.core q).readNo = (s.core q).readNo := by
      obtain ⟨-, -, log⟩ := bellTook_logged u r old q
      obtain ⟨l, a, p, b, eq⟩ := fetched q
      obtain ⟨b, t, l, n, a, p, m, e, z, took⟩ := bellTook_keeps u r old q
      rw [if_neg fun both => both.2 read] at log
      rw [core, log, took, eq]
      exact ⟨rfl, rfl, rfl, rfl, rfl⟩
    obtain ⟨dropped, need⟩ := bellTook_ordered (s := u) (new := old) src origin
    have path : (u.core k).path = (s.core k).path := by
      obtain ⟨l, a, p, b, eq⟩ := fetched k
      rw [eq]
    rw [← core, path] at dropped
    rw [← core] at need
    have source : (v.updCore k (Core.readReturned r old)).core k = { v.core k with
        readValues := (s.core k).readValues ++ [⟨(s.core k).readNo, r.rdest, old, r.ack, none⟩], readNo := (s.core k).readNo + 1 } := by
      obtain ⟨-, -, -, values, no⟩ := data k
      rw [updCore_core, if_pos rfl, ← values, ← no]
      rfl
    refine ⟨_, runs, ?_, fun q => ?_, ?_, ?_, ?_, ?_⟩
    · rw [frame, world]
      rfl
    · obtain ⟨spad, log, count, -⟩ := data q
      rw [updCore_core]
      split
      · rename_i same
        rw [← same]
        exact ⟨spad, log, count⟩
      · exact ⟨spad, log, count⟩
    · rw [source]
      exact dropped
    · rw [source]
      exact need
    · rw [source]
    · rw [source]
  case waits =>
    obtain ⟨old, op⟩ | ⟨read, op⟩ := op
    · rw [fillAccess_bell turn op, bellTurn_taken (fillNoted_bellTaken.trans taken) (.inl rfl)]
      rfl
    · rw [fillAccess_bell turn op, bellTurn_taken (fillNoted_bellTaken.trans taken) (.inr read)]
      rfl

end Sys2Proof.Machine

namespace Sys2Proof.Machine

/-! ## Registrations, buoy values and READ values (R234, R239) -/

/-- Eight bytes at a multiple of 8 lie in one line. -/
theorem pieces_word {a : Nat} (aligned : a % 8 = 0) : pieces 256 a 8 = [(a, 8)] := by
  have fits : min 8 (256 - a % 256) = 8 := by omega
  have first : pieces 256 a 8 = (a, min 8 (256 - a % 256)) :: cutAt 1 256 (a + min 8 (256 - a % 256)) (8 - min 8 (256 - a % 256)) := rfl
  rw [first, fits]
  rfl

/-- A word of a core's scratchpad is written by one fill access. -/
theorem fillAsk_word (c : Fin 32) (port : Nat) {a : Nat} (v : Nat) (tag : Tag) (aligned : a % 8 = 0) (s : State) :
    fillAsk c port a (toBytes 8 v) tag s = fillAdd c { port := port, addr := a, op := .write (toBytes 8 v), tag := tag } s := by
  unfold fillAsk
  rw [toBytes_length, pieces_word aligned, foldS_one]
  dsimp only
  rw [Nat.sub_self, List.drop_zero, List.take_of_length_le (toBytes_length 8 v).le]

/-- The buoy of a registration whose value `old` the home of its word has read (R239). -/
def Buoy.sentValue (a old : U64) (b : Buoy) : Buoy := if b.reg = .reading ∧ b.addr = a then { b with reg := .returning old [] } else b

/-- The home of a registration's word takes it in place of an operation. -/
def Core.regTaken (s : State) (k : Core) : Core := { k with regAt := some (s.time.hallTime, s.seq.cycle) }

theorem bellApplied_registers {r : BellReq} {old : U64} {c : Fin 32} {n : BitVec 6} (origin : r.origin = .buoy c n) (s : State) :
    bellApplied r old s = (s.updCore (homeCore s r.addr) (Core.regTaken s)).updCore c fun k => k.updBuoy n (Buoy.sentValue r.addr old) := by
  unfold bellApplied
  rw [origin]
  rfl

theorem bellTaken_registers {s : State} {r : BellReq} {c : Fin 32} {n : BitVec 6} (origin : r.origin = .buoy c n)
    (idle : (s.core (homeCore s r.addr)).bellAt ≠ some (s.time.hallTime, s.seq.cycle)) : s.bellTaken r = false := by
  have registers : r.registers = true := by
    unfold BellReq.registers
    rw [origin]
  unfold State.bellTaken
  dsimp only
  rw [registers, beq_eq_false_iff_ne.2 idle]
  rfl

theorem buoy_updBuoy {k : Core} {n : BitVec 6} {f : Buoy → Buoy} (new : f (k.buoy n) ≠ {}) : (k.updBuoy n f).buoy n = f (k.buoy n) :=
  tget_tset_new _ _ _ _ new

/-- What a registration leaves of each core. -/
theorem registers_core (s : State) (h c : Fin 32) (n : BitVec 6) (f : Buoy → Buoy) (k : Fin 32) :
    (((s.updCore h (Core.regTaken s)).updCore c fun q => q.updBuoy n f).core k).spad = (s.core k).spad ∧
    (((s.updCore h (Core.regTaken s)).updCore c fun q => q.updBuoy n f).core k).bellLog = (s.core k).bellLog ∧
    (k = h → (((s.updCore h (Core.regTaken s)).updCore c fun q => q.updBuoy n f).core k).regAt = some (s.time.hallTime, s.seq.cycle)) := by
  have taken (q : Fin 32) : ((s.updCore h (Core.regTaken s)).core q).spad = (s.core q).spad ∧
      ((s.updCore h (Core.regTaken s)).core q).bellLog = (s.core q).bellLog ∧
      (q = h → ((s.updCore h (Core.regTaken s)).core q).regAt = some (s.time.hallTime, s.seq.cycle)) := by
    rw [updCore_core]
    split
    · rename_i same
      rw [same]
      exact ⟨rfl, rfl, fun _ => rfl⟩
    · rename_i other
      exact ⟨rfl, rfl, fun same => absurd same other⟩
  generalize s.updCore h (Core.regTaken s) = u at taken
  rw [updCore_core]
  split
  · rename_i same
    rw [same]
    exact taken c
  · exact taken k

theorem buoyRegistration_goes {s : State} {c : Fin 32} {n : BitVec 6} (armed : ((s.core c).buoy n).armed = true)
    (due : ((s.core c).buoy n).reg = .registering) : exec (.buoyRegistration c n) s = .next (bellArrive
      { op := 3, addr := ((s.core c).buoy n).addr, operand := 0, express := false, srcModule := s.module, srcCore := BitVec.ofNat 5 c.val
        cmd := 0, origin := .buoy c n } (s.updCore c fun k => k.updBuoy n fun b => { b with reg := .reading })) := by
  change execBuoyRegistration c n s = _
  unfold execBuoyRegistration
  dsimp only
  rw [if_pos ⟨armed, due⟩]

theorem buoyRegistration_idle {s : State} {c : Fin 32} {n : BitVec 6} (other : ((s.core c).buoy n).reg ≠ .registering) :
    exec (.buoyRegistration c n) s = .next s := by
  change execBuoyRegistration c n s = _
  unfold execBuoyRegistration
  dsimp only
  rw [if_neg fun both => other both.2]

theorem find_none_of_all {α : Type} {due : α → Bool} {l : List α} (early : ∀ x ∈ l, due x = false) : l.find? due = none :=
  List.find?_eq_none.2 fun x mem now => Bool.false_ne_true ((early x mem).symm.trans now)

section
variable {s : State} {c : Fin 32}

theorem readValueLanding_first {l : List ReadValue} {v : ReadValue} (values : (s.core c).readValues = v :: l)
    (unwritten : ∀ x ∈ v :: l, x.need ≠ some 0) (once : v ∉ l) (need : v.need = none) (aligned : v.rdest % 8 = 0) :
    exec (.readValueLanding c) s = .next { s with cores := s.cores.set c { s.core c with
      readValues := { v with need := some 8 } :: l
      fills := (s.core c).fills ++ [{ port := 14, addr := v.rdest, op := .write (toBytes 8 v.value.toNat), tag := .readValue c v.id }] } } := by
  have next : (v :: l).find? (fun x => x.need == none) = some v := List.find?_cons_of_pos (beq_iff_eq.2 need)
  have replaced := map_replace_once [] l v { v with need := some 8 } List.not_mem_nil once
  change execReadValueLanding c s = _
  unfold execReadValueLanding
  dsimp only
  rw [values, find_none_of_all fun x mem => beq_eq_false_iff_ne.2 (unwritten x mem), next]
  dsimp only
  rw [fillAsk_word c 14 v.value.toNat (.readValue c v.id) aligned]
  unfold fillAdd
  rw [updCore_updCore]
  exact congrArg (fun q => Host.Outcome.next (s.updCore c fun k => { k with
    readValues := q
    fills := k.fills ++ [{ port := 14, addr := v.rdest, op := .write (toBytes 8 v.value.toNat), tag := .readValue c v.id }] })) replaced

theorem readValueLanding_written {pre post : List ReadValue} {v : ReadValue} (values : (s.core c).readValues = pre ++ v :: post)
    (before : ∀ x ∈ pre, x.need ≠ some 0) (need : v.need = some 0) :
    exec (.readValueLanding c) s =
      .next { s with cores := s.cores.set c (Claims.acked s v.ack 1 { s.core c with readValues := pre ++ post }) } := by
  have early : ∀ x ∈ pre, (x.need == some 0) = false := fun x mem => beq_eq_false_iff_ne.2 (before x mem)
  change execReadValueLanding c s = _
  unfold execReadValueLanding
  dsimp only
  rw [values, find_first _ pre post v early (beq_iff_eq.2 need)]
  dsimp only
  rw [erase_first _ pre post v early (beq_iff_eq.2 need)]
  exact congrArg Host.Outcome.next (ackAdd_acked s c { s.core c with readValues := pre ++ post } v.ack)

theorem readValueLanding_idle (waits : ∀ x ∈ (s.core c).readValues, x.need ≠ none ∧ x.need ≠ some 0) :
    exec (.readValueLanding c) s = .next s := by
  change execReadValueLanding c s = _
  unfold execReadValueLanding
  dsimp only
  rw [find_none_of_all fun x mem => beq_eq_false_iff_ne.2 (waits x mem).2, find_none_of_all fun x mem => beq_eq_false_iff_ne.2 (waits x mem).1]

end

/-- Settles O45: a registration takes the way of a READ to its home (`bellArrive_atHome`) and is served by the one access of
`fillAccess_bellRead`; a READ's value lands in the two phases of its fill write. -/
theorem buoyAndReadValuesArrive : Obligations.BuoyAndReadValuesArrive := by
  refine fun s c => ⟨?registers, fun n other => buoyRegistration_idle other, ?taken, ?arrives,
    fun v l => readValueLanding_first, fun pre post v => readValueLanding_written, readValueLanding_idle⟩
  case registers =>
    rintro n b rfl armed due
    exact ⟨_, buoyRegistration_goes armed due, bellArrive_atHome _ _⟩
  case taken =>
    rintro n b h bank f r turn op read origin free rfl reading word
    have runs := fillAccess_bellRead turn read op (bellTaken_registers origin free) rfl
    rw [bellApplied_registers origin] at runs
    generalize value : BitVec.ofNat 64 (ofBytes (s.fillBytes (s.core h) f.addr 8)) = old at runs ⊢
    have fetched := bellFetched_core s h bank f old
    have world : s.bellFetched h bank f old = { s with cores := (s.bellFetched h bank f old).cores } := rfl
    have home : homeCore (s.bellFetched h bank f old) r.addr = homeCore s r.addr := rfl
    generalize s.bellFetched h bank f old = u at *
    have left := registers_core u (homeCore u r.addr) c n (Buoy.sentValue r.addr old)
    have sent : Buoy.sentValue r.addr old ((s.core c).buoy n) = { (s.core c).buoy n with reg := .returning old [] } :=
      if_pos ⟨reading, word⟩
    have before : ((u.updCore (homeCore u r.addr) (Core.regTaken u)).core c).buoy n = (s.core c).buoy n := by
      obtain ⟨l, a, p, b, eq⟩ := fetched c
      rw [updCore_core]
      split
      · rename_i same
        rw [← same, eq]
        rfl
      · rw [eq]
        rfl
    refine ⟨_, runs, ?_, ?_, fun x same other => ?_, fun k => ?_⟩
    · rw [world]
      rfl
    · rw [updCore_core, if_pos rfl, buoy_updBuoy]
      · rw [before, sent]
      · rw [before, sent]
        exact fun eq => BuoyReg.noConfusion (congrArg Buoy.reg eq)
    · obtain ⟨-, -, taken⟩ := left (homeCore u r.addr)
      unfold State.bellTaken
      rw [other, same]
      dsimp only
      refine Bool.or_eq_true_iff.2 (.inr (Bool.and_eq_true_iff.2 ⟨rfl, beq_iff_eq.2 (taken rfl)⟩))
    · obtain ⟨spad, log, -⟩ := left k
      obtain ⟨l, a, p, b, eq⟩ := fetched k
      rw [spad, log, eq]
      exact ⟨rfl, rfl⟩
  case arrives =>
    intro n v later returning
    change execBuoyValueArrival c n s = _
    unfold execBuoyValueArrival
    rw [returning]
    rfl

end Sys2Proof.Machine

namespace Sys2Proof.Machine

/-! ## A return to an endpoint whose table is out of order (R250) -/

/-- A return of no units from receiver 0, of generation 0. -/
def emptyReturn : CreditRet := ⟨0, 0, 0, 0, 0, 0⟩

/-- Endpoint 3 waits for a return and stands behind endpoint 5 in its core's table. -/
def strayEps : Tbl Endpoint := [(5, { desc := 1 }), (3, { creditsIn := [emptyReturn] })]

/-- The reset state with table `l` of endpoints in core 0. -/
def strayState (l : Tbl Endpoint) : State := State.reset.updCore 0 fun k => { k with eps := l }

/-- The first write, of the default content, stops in front of endpoint 5 and removes nothing, so that the second one writes back the return. -/
theorem strayEps_left : tset {} (tset {} strayEps 3 {}) 3 (addCredits 0 (tget {} (tset {} strayEps 3 {}) 3)) =
    (3, { creditsIn := [emptyReturn] }) :: strayEps := by decide

theorem strayState_return : exec (.creditReturnArrival 0 3) (strayState strayEps) =
    .next (strayState ((3, { creditsIn := [emptyReturn] }) :: strayEps)) := by
  rw [← strayEps_left]
  rfl

/-- Refutes O46: the statement is about every table of endpoints, also one whose keys are out of order (`twf` refuses it). In this one the arrival takes the
only return of endpoint 3, what is left of the endpoint is the default content, which a table does not hold, and the removal does not find the
entry behind the one of endpoint 5: the return is still there (`strayEps_left`). -/
theorem not_messagesLandAndCreditsReturn : ¬ Obligations.MessagesLandAndCreditsReturn := by
  rintro ⟨-, returns⟩
  obtain ⟨-, back, -⟩ := returns (strayState strayEps) 0 3 _ emptyReturn [] rfl rfl
  obtain ⟨t, runs, -, -, -, -, taken, -⟩ := back rfl (by decide) (.inl rfl)
  rw [strayState_return] at runs
  obtain rfl := Host.Outcome.next.inj runs
  exact absurd taken (by decide)

end Sys2Proof.Machine

namespace Sys2Proof.Machine

/-! ## The channel commands (R246 to R250, R254) -/

theorem foldl_units (l : List Landed) (n : Nat) : l.foldl (fun u x => u + x.units) n = n + (l.map (·.units)).sum := by
  induction l generalizing n with
  | nil => rfl
  | cons x l ih => rw [List.foldl_cons, ih, List.map_cons, List.sum_cons, Nat.add_assoc]

/-- Endpoint `x` after its `n` oldest messages are released (R250). -/
def Endpoint.releasing (n : Nat) (x : Endpoint) : Endpoint := { x with
  landed := x.landed.drop n
  rp := match (x.landed.take n).getLast? with | some l => l.after | none => x.rp
  released := x.released + BitVec.ofNat 32 (((x.landed.take n).map (·.units)).sum) }

theorem ep_updEp {k : Core} {n : BitVec 7} {f : Endpoint → Endpoint} (new : f (k.ep n) ≠ {}) : (k.updEp n f).ep n = f (k.ep n) :=
  tget_tset_new _ _ _ _ new

theorem ep_ne_default {x : Endpoint} (role : epRole x.desc ≠ 0) : x ≠ {} := fun eq => role (by rw [eq]; rfl)

theorem minCode_eq_none {l : List Nat} (none : minCode l = none) : l = [] := by
  cases l with
  | nil => rfl
  | cons x l =>
    unfold minCode at none
    split at none <;> exact absurd none (Option.some_ne_none _)

/-- A command that meets no halt cause passes every check of its fields. -/
theorem fieldChecks_of_sound {s : State} {c : Fin 32} {e : LookEntry} (sound : commandCauses s c e = []) :
    opIllegal e.words = false ∧ fieldChecks s c e = [] := by
  unfold commandCauses at sound
  dsimp only at sound
  split at sound
  · exact absurd sound (List.cons_ne_nil _ _)
  · rename_i legal
    refine ⟨Bool.eq_false_iff.2 legal, minCode_eq_none ?_⟩
    have fields := (List.append_eq_nil_iff.1 sound).1
    split at fields
    · exact absurd fields (List.cons_ne_nil _ _)
    · rename_i none
      exact none

/-- A CH_RELEASE that passes its checks names a receive endpoint (Table 3.9). -/
theorem chRelease_receives {s : State} {c : Fin 32} {w : CmdWords} {e : LookEntry} {rest : List LookEntry}
    (ready : Claims.Ready 0x51 s c w e rest) : epIsRecv ((s.core c).ep ((opA w).extractLsb' 0 7)).desc = true := by
  have words := opA_of_ready ready
  obtain ⟨code, -, norm, -, -, sound, -⟩ := ready
  have opcode : e.words.opcode = 0x51 := by
    rw [norm]
    exact code
  obtain ⟨legal, fields⟩ := fieldChecks_of_sound sound
  have target : targetOf e.words = 9 := by
    have shape : opShape e.words.opcode = some (9, 9, 1, 1) := by
      rw [opcode]
      rfl
    unfold opIllegal at legal
    rw [shape] at legal
    simp only [Bool.not_eq_false', Bool.and_eq_true, decide_eq_true_eq] at legal
    omega
  have checks : chChecks (s.core c) e = [] := by
    unfold fieldChecks at fields
    dsimp only at fields
    rw [target] at fields
    exact (List.append_eq_nil_iff.1 fields).2
  unfold chChecks at checks
  dsimp only at checks
  rw [opcode, words] at checks
  have role := (List.append_eq_nil_iff.1 (List.append_eq_nil_iff.1 checks).1).2
  unfold when_ at role
  split at role
  · exact absurd role (List.cons_ne_nil _ _)
  · rename_i receives
    simpa using receives

/-- Core `k` once endpoint `ep` is released of its `n` oldest messages. -/
def Core.releasing (ep : BitVec 7) (n : Nat) (k : Core) : Core := k.updEp ep (Endpoint.releasing n)

/-- The effect of a CH_RELEASE. -/
theorem effChRelease_eq {s : State} {c : Fin 32} {w : CmdWords} {e : LookEntry} {rest : List LookEntry} {ep : BitVec 7}
    (ready : Claims.Ready 0x51 s c w e rest) (name : ep = (opA w).extractLsb' 0 7) : effChRelease c e s =
    returnCredit c ep ((((s.core c).ep ep).landed.take (bits (opA w) 23 8)).map (·.units)).sum
      (s.updCore c (Core.releasing ep (bits (opA w) 23 8))) := by
  unfold effChRelease
  dsimp only
  rw [foldl_units, Nat.zero_add, opA_of_ready ready, name]
  rfl

/-- A credit return (Table 11.6) stays on the die of its sender. -/
def Endpoint.credited (r : CreditRet) (x : Endpoint) : Endpoint := { x with creditsIn := x.creditsIn ++ [r] }

theorem returnCredit_here {s : State} {c : Fin 32} {ep : BitVec 7} {units : Nat} (role : epRole ((s.core c).ep ep).desc = 2)
    (here : epPeerModule ((s.core c).ep ep).desc = s.module) : returnCredit c ep units s =
      s.updCore (epPeerCore ((s.core c).ep ep).desc) fun k => k.updEp (epPeerEp ((s.core c).ep ep).desc)
        (Endpoint.credited ⟨128 * c.val + ep.toNat, units, epGen ((s.core c).ep ep).desc, 0, 0, s.module⟩) := by
  have sender : senderOf s ((s.core c).ep ep).desc =
      (epPeerModule ((s.core c).ep ep).desc, epPeerCore ((s.core c).ep ep).desc, epPeerEp ((s.core c).ep ep).desc) := by
    unfold senderOf
    rw [if_neg (by rw [role]; decide)]
  unfold returnCredit
  dsimp only
  rw [sender]
  exact if_pos here

theorem returnCredit_away {s : State} {c : Fin 32} {ep : BitVec 7} {units : Nat} (role : epRole ((s.core c).ep ep).desc = 2)
    (away : epPeerModule ((s.core c).ep ep).desc ≠ s.module) : returnCredit c ep units s =
      c0send (epPeerModule ((s.core c).ep ep).desc) (creditMsgOf (epPeerCore ((s.core c).ep ep).desc) (epPeerEp ((s.core c).ep ep).desc)
        (epGen ((s.core c).ep ep).desc) ((s.core c).ep ep).released) s := by
  have sender : senderOf s ((s.core c).ep ep).desc =
      (epPeerModule ((s.core c).ep ep).desc, epPeerCore ((s.core c).ep ep).desc, epPeerEp ((s.core c).ep ep).desc) := by
    unfold senderOf
    rw [if_neg (by rw [role]; decide)]
  unfold returnCredit
  dsimp only
  rw [sender]
  dsimp only
  rw [if_neg away, if_neg (by rw [role]; decide)]

theorem forwardCredit_core (g : Nat) (gen : U16) (s : State) (k : Fin 32) : (forwardCredit g gen s).core k = s.core k := by
  unfold forwardCredit
  dsimp only
  split
  · split
    · rw [c0send_frame]
      rfl
    · rfl
  · rfl

/-- Credits that return change no other part of a core than what its endpoints have to take back. -/
theorem returnCredit_core {c : Fin 32} {ep : BitVec 7} (units : Nat) {s : State} (k : Fin 32) (n : BitVec 7)
    (used : epRole ((s.core k).ep n).desc ≠ 0) : ∃ l, (returnCredit c ep units s).core k = { s.core k with eps := l } ∧
      (((returnCredit c ep units s).core k).ep n).landed = ((s.core k).ep n).landed ∧
      (((returnCredit c ep units s).core k).ep n).released = ((s.core k).ep n).released := by
  unfold returnCredit
  dsimp only
  generalize senderOf s ((s.core c).ep ep).desc = sender
  split
  · rw [updCore_core]
    split
    · rename_i same
      subst same
      refine ⟨_, rfl, ?_⟩
      by_cases self : n.toNat = sender.2.2.toNat
      · obtain rfl := BitVec.eq_of_toNat_eq self
        rw [ep_updEp]
        · exact ⟨rfl, rfl⟩
        · exact ep_ne_default used
      · unfold Core.updEp Core.ep
        dsimp only
        rw [tget_tset_other _ _ _ _ _ self]
        exact ⟨rfl, rfl⟩
    · exact ⟨_, rfl, rfl, rfl⟩
  · split
    · rw [forwardCredit_core]
      exact ⟨_, rfl, rfl, rfl⟩
    · rw [c0send_frame]
      exact ⟨_, rfl, rfl, rfl⟩

theorem updCore_const (s : State) (c : Fin 32) (f : Core → Core) : s.updCore c f = s.updCore c fun _ => f (s.core c) := rfl

theorem updCore_comm {c p : Fin 32} (apart : p ≠ c) (k : Core) (g : Core → Core) (s : State) :
    (s.updCore c fun _ => k).updCore p g = (s.updCore p g).updCore c fun _ => k := by
  have other : (s.updCore c fun _ => k).core p = s.core p := by rw [updCore_core, if_neg apart]
  have order : (s.cores.set c k).set p (g (s.core p)) = (s.cores.set p (g (s.core p))).set c k :=
    Vector.set_comm _ _ fun same => apart (Fin.ext same.symm)
  change { s with cores := (s.cores.set c k).set p (g ((s.updCore c fun _ => k).core p)) } =
    { s with cores := (s.cores.set p (g (s.core p))).set c k }
  rw [other, order]

/-- A ready command that completes at issue has its effect, fires its signals and takes its slot. -/
theorem runs_of_ready {op : Nat} {s : State} {c : Fin 32} {w : CmdWords} {e : LookEntry} {rest : List LookEntry} {i : Instr} {name : String}
    {eff : Fin 32 → LookEntry → State → State} (ready : Claims.Ready op s c w e rest) (row : exec i s = issueRow name op (andSignals eff) c w s)
    (ahead : ((eff c e s).core c).ahead = (s.core c).ahead) (words : ((eff c e s).core c).blockWords = (s.core c).blockWords) :
    ∃ u t, exec i s = .next t ∧ SignalsFired c (sigsOf w) (eff c e s) u ∧ SlotTaken c e rest u t := by
  have runs := exec_of_ready ready row
  have sigs := sigsOf_ready ready
  obtain ⟨-, head, -, -, -, -, -, more, -⟩ := ready
  unfold andSignals at runs
  rw [sigs] at runs
  have fired := fireSignals_fired c e.idx (sigsOf w) (eff c e s)
  generalize fireSignals c e.idx (sigsOf w) (eff c e s) = u at fired runs
  exact ⟨u, _, runs, fired, lastCommand_slotTaken _ _ c e rest u (by rw [fired.2.1]; exact ahead.trans head)
    (by rw [fired.2.1]; exact more.trans_eq words.symm)⟩

/-- A ready command that completes at issue and whose signals are no BELL changes what its effect changes, and its slot. -/
theorem silent_of_ready {op : Nat} {s : State} {c : Fin 32} {w : CmdWords} {e : LookEntry} {rest : List LookEntry} {i : Instr} {name : String}
    {eff : Fin 32 → LookEntry → State → State} (ready : Claims.Ready op s c w e rest) (row : exec i s = issueRow name op (andSignals eff) c w s)
    (silent : Claims.rings (sigsOf w) = false)
    (ahead : ((eff c e s).core c).ahead = (s.core c).ahead) (words : ((eff c e s).core c).blockWords = (s.core c).blockWords) :
    ∃ t, exec i s = .next t ∧ t = (eff c e s).updCore c (fun _ => t.core c) ∧
      t.core c = Claims.Issued t c e rest (Claims.Signalled t c (sigsOf w) ((eff c e s).core c)) := by
  obtain ⟨u, t, runs, fired, slot⟩ := runs_of_ready ready row ahead words
  rw [← updCore_self (eff c e s) c] at fired
  obtain ⟨reach, core, quiet⟩ := slotTaken_signalled fired slot
  obtain ⟨clk, fab⟩ := quiet silent
  refine ⟨t, runs, ?_, core⟩
  rw [fab, clk] at reach
  exact reach

theorem portOf_bits {n : Nat} (w : BitVec n) (lo : Nat) (p : Fin 16) : p.val = bits w (lo + 3) lo ↔ p = portOf (bits w (lo + 3) lo) := by
  have small : bits w (lo + 3) lo < 16 := by
    rw [bits_eq_extract w (lo + 3) lo 4 (by omega)]
    exact BitVec.isLt _
  have same : (portOf (bits w (lo + 3) lo)).val = bits w (lo + 3) lo := Nat.mod_eq_of_lt small
  rw [Fin.ext_iff, same]

theorem routePort_iff (d : BitVec 12) (s : State) (p : Fin 16) : Claims.RoutePort d s p ↔ bit (tget 0 s.fab.route d.toNat) 31 = true ∧
    (p = portOf (bits (tget 0 s.fab.route d.toNat) 3 0) ∨ p = portOf (bits (tget 0 s.fab.route d.toNat) 7 4)) :=
  and_congr_right fun _ => or_congr (portOf_bits _ 0 p) (portOf_bits _ 4 p)

/-- A message of this module waits at the ports of its route (R300). -/
theorem c0send_routed (d : BitVec 12) (m : C0Msg) {s u : State} (fab : u.fab = s.fab) (time : u.time = s.time) :
    Claims.Routed d m s (c0send d m u).fab := by
  obtain ⟨x, sent⟩ := c0send_eq d m u
  have module : u.module = s.module := congrArg (fun f : Fabric => f.moduleReg.extractLsb' 0 12) fab
  have stands (p : Fin 16) : u.port p = s.port p := congrArg (fun f : Fabric => f.ports.get p) fab
  have route : ∀ p, Claims.RoutePort d u p ↔ Claims.RoutePort d s p := fun p => by
    unfold Claims.RoutePort
    rw [fab]
  refine ⟨by rw [sent, fab], fun p => ⟨fun goes => ?_, fun apart => ?_⟩⟩
  · have port := c0send_port d m u p
    rw [if_pos ((routePort_iff d u p).1 ((route p).2 goes)), module, fab] at port
    exact port.trans (c0queue_same p _ s u (stands p) time)
  · have port := c0send_port d m u p
    rw [if_neg fun goes => apart ((route p).1 ((routePort_iff d u p).2 goes))] at port
    exact port.trans (stands p)

section
variable {s : State} {c : Fin 32} {w : CmdWords} {e : LookEntry} {rest : List LookEntry} {ep : BitVec 7} {n : Nat}

/-- What CH_RELEASE does before the credits return. -/
theorem releasing_ep (role : epRole ((s.core c).ep ep).desc ≠ 0) :
    ((s.updCore c (Core.releasing ep n)).core c).ep ep = ((s.core c).ep ep).releasing n := by
  rw [updCore_core, if_pos rfl]
  exact ep_updEp (ep_ne_default role)

theorem role_of_recv {d : W256} (recv : epIsRecv d = true) : epRole d ≠ 0 := fun zero => by
  unfold epIsRecv at recv
  rw [zero] at recv
  exact absurd recv (by decide)

/-- CH_RELEASE frees the oldest messages, whatever its return goes to. -/
theorem chRelease_frees (ready : Claims.Ready 0x51 s c w e rest) (name : ep = (opA w).extractLsb' 0 7) :
    ∃ t : State, exec (.chRelease c w) s = .next t ∧
      ((t.core c).ep ep).landed = (((s.core c).ep ep).releasing (bits (opA w) 23 8)).landed ∧
      ((t.core c).ep ep).released = (((s.core c).ep ep).releasing (bits (opA w) 23 8)).released := by
  have role := role_of_recv (chRelease_receives ready)
  rw [← name] at role
  have effect := effChRelease_eq ready name
  have freed := releasing_ep (n := bits (opA w) 23 8) role
  obtain ⟨l, core, landed, released⟩ := returnCredit_core (c := c) (ep := ep)
    ((((s.core c).ep ep).landed.take (bits (opA w) 23 8)).map (·.units)).sum (s := s.updCore c (Core.releasing ep (bits (opA w) 23 8))) c ep
    (by rw [freed]; exact role)
  rw [freed] at landed released
  have kept : (s.updCore c (Core.releasing ep (bits (opA w) 23 8))).core c = Core.releasing ep (bits (opA w) 23 8) (s.core c) := by
    rw [updCore_core, if_pos rfl]
  rw [kept] at core
  rw [← effect] at core landed released
  obtain ⟨u, t, runs, ⟨-, fired, -⟩, -, slot⟩ := runs_of_ready (i := .chRelease c w) (name := "CH_RELEASE") ready rfl (by rw [core]; rfl) (by rw [core]; rfl)
  have same : (t.core c).ep ep = ((effChRelease c e s).core c).ep ep := by
    rw [slot, fired]
    rfl
  refine ⟨t, runs, ?_⟩
  rw [same]
  exact ⟨landed, released⟩

/-- CH_RELEASE of an endpoint whose sender is on another module sends one CREDIT message (R250). -/
theorem chRelease_away (ready : Claims.Ready 0x51 s c w e rest) (name : ep = (opA w).extractLsb' 0 7)
    (two : epRole ((s.core c).ep ep).desc = 2) (away : epPeerModule ((s.core c).ep ep).desc ≠ s.module) :
    Claims.IssuesSending (Claims.Routed (epPeerModule ((s.core c).ep ep).desc) (creditMsgOf (epPeerCore ((s.core c).ep ep).desc)
        (epPeerEp ((s.core c).ep ep).desc) (epGen ((s.core c).ep ep).desc) (((s.core c).ep ep).releasing (bits (opA w) 23 8)).released) s)
      (.chRelease c w) s c e rest fun t => Claims.Signalled t c (sigsOf w) ((s.core c).releasing ep (bits (opA w) 23 8)) := by
  have freed := releasing_ep (n := bits (opA w) 23 8) (s := s) (c := c) (ep := ep) (by rw [two]; decide)
  have sends : effChRelease c e s = c0send (epPeerModule ((s.core c).ep ep).desc) (creditMsgOf (epPeerCore ((s.core c).ep ep).desc)
      (epPeerEp ((s.core c).ep ep).desc) (epGen ((s.core c).ep ep).desc) (((s.core c).ep ep).releasing (bits (opA w) 23 8)).released)
      (s.updCore c (Core.releasing ep (bits (opA w) 23 8))) := by
    rw [effChRelease_eq ready name, returnCredit_away (by rw [freed]; exact two) (by rw [freed]; exact away), freed]
    rfl
  have routed := c0send_routed (epPeerModule ((s.core c).ep ep).desc) (creditMsgOf (epPeerCore ((s.core c).ep ep).desc)
    (epPeerEp ((s.core c).ep ep).desc) (epGen ((s.core c).ep ep).desc) (((s.core c).ep ep).releasing (bits (opA w) 23 8)).released)
    (s := s) (u := s.updCore c (Core.releasing ep (bits (opA w) 23 8))) rfl rfl
  rw [c0send_frame] at sends
  generalize c0send _ _ _ = v at sends routed
  obtain ⟨t, runs, reach, core, quiet⟩ := issuesSending_of_fired (i := .chRelease c w) (name := "CH_RELEASE") ready rfl
    ((s.core c).releasing ep (bits (opA w) 23 8)) v.fab (congrArg (fireSignals c e.idx (sigsOf e.words)) sends) rfl rfl
  exact ⟨t, runs, reach, core, fun silent => ⟨(quiet silent).1, (quiet silent).2 ▸ routed⟩⟩

/-- CH_RELEASE of an endpoint whose sender is on this die leaves its return there (R250). -/
theorem chRelease_here (ready : Claims.Ready 0x51 s c w e rest) (name : ep = (opA w).extractLsb' 0 7)
    (two : epRole ((s.core c).ep ep).desc = 2) (here : epPeerModule ((s.core c).ep ep).desc = s.module) {p : Fin 32}
    (peer : p = epPeerCore ((s.core c).ep ep).desc) (other : p ≠ c) (silent : Claims.rings (sigsOf w) = false) : 
    ∃ t : State, exec (.chRelease c w) s = .next t ∧
      t = { s with cores := (s.cores.set c (t.core c)).set p (t.core p) } ∧
      t.core c = Claims.Issued t c e rest (Claims.Signalled t c (sigsOf w) ((s.core c).releasing ep (bits (opA w) 23 8))) ∧
      t.core p = (s.core p).updEp (epPeerEp ((s.core c).ep ep).desc) (Endpoint.credited ⟨128 * c.val + ep.toNat,
        ((((s.core c).ep ep).landed.take (bits (opA w) 23 8)).map (·.units)).sum, epGen ((s.core c).ep ep).desc, 0, 0, s.module⟩) := by
  have freed := releasing_ep (n := bits (opA w) 23 8) (s := s) (c := c) (ep := ep) (by rw [two]; decide)
  generalize credited : Endpoint.credited _ = g
  have sends : effChRelease c e s = (s.updCore p fun k => k.updEp (epPeerEp ((s.core c).ep ep).desc) g).updCore c fun _ =>
      (s.core c).releasing ep (bits (opA w) 23 8) := by
    rw [effChRelease_eq ready name, returnCredit_here (by rw [freed]; exact two) (by rw [freed]; exact here), freed, ← credited]
    rw [updCore_const s c, ← updCore_comm other, peer]
    rfl
  have fresh : (effChRelease c e s).core c = (s.core c).releasing ep (bits (opA w) 23 8) := by
    rw [sends, updCore_core, if_pos rfl]
  obtain ⟨t, runs, reach, core⟩ := silent_of_ready (i := .chRelease c w) (name := "CH_RELEASE") ready rfl silent
    (by rw [fresh]; rfl) (by rw [fresh]; rfl)
  rw [fresh] at core
  rw [sends, updCore_updCore] at reach
  have back : t.core p = (s.core p).updEp (epPeerEp ((s.core c).ep ep).desc) g := by
    refine (congrArg (State.core · p) reach).trans ?_
    rw [updCore_core, if_neg other, updCore_core, if_pos rfl]
  have order : (s.cores.set c (t.core c)).set p (t.core p) = (s.cores.set p (t.core p)).set c (t.core c) :=
    Vector.set_comm _ _ fun same => other (Fin.ext same.symm)
  refine ⟨t, runs, ?_, core, back⟩
  rw [order, back]
  exact reach

end

/-- The send endpoint `x` after a CH_SEND of `u` units (R246, R248). -/
def Endpoint.sending (u : Nat) (x : Endpoint) : Endpoint := { x with
  credits := x.credits - (if u ≤ bits x.desc 80 64 - x.wp then u else bits x.desc 80 64 - x.wp + u)
  deducted := x.deducted ++ [if u ≤ bits x.desc 80 64 - x.wp then u else bits x.desc 80 64 - x.wp + u]
  seq := x.seq + 1, sent := x.sent + 1
  wp := (if u ≤ bits x.desc 80 64 - x.wp then x.wp + u else u) % max 1 (bits x.desc 80 64) }

/-- A message that fits in front of the ring's end is placed at WP, another one at unit 0 behind a skip marker. -/
theorem placeMessage_sending (s : State) (c : Fin 32) (ep : BitVec 7) (len : Nat) {x : Endpoint} {m : ChMsg} (name : x = (s.core c).ep ep)
    (placed : m = placeMessage s c ep len) : { x with
      credits := x.credits - m.need, deducted := x.deducted ++ [m.need], seq := x.seq + 1, sent := x.sent + 1
      wp := if m.skipAt.isSome then m.units % (max 1 m.ring) else (x.wp + m.units) % (max 1 m.ring) } = x.sending (msgUnits len) := by
  have need : m.need = if msgUnits len ≤ bits x.desc 80 64 - x.wp then msgUnits len else bits x.desc 80 64 - x.wp + msgUnits len := by
    rw [placed, name]
    rfl
  have skips : m.skipAt.isSome = !decide (msgUnits len ≤ bits x.desc 80 64 - x.wp) := by
    rw [placed, name]
    change Option.isSome (if decide (msgUnits len ≤ bits ((s.core c).ep ep).desc 80 64 - ((s.core c).ep ep).wp) then none else some _) = _
    cases decide (msgUnits len ≤ bits ((s.core c).ep ep).desc 80 64 - ((s.core c).ep ep).wp) <;> rfl
  have units : m.units = msgUnits len ∧ m.ring = bits x.desc 80 64 := by
    rw [placed, name]
    exact ⟨rfl, rfl⟩
  unfold Endpoint.sending
  rw [need, skips, units.1, units.2]
  by_cases fits : msgUnits len ≤ bits x.desc 80 64 - x.wp
  · rw [decide_eq_true fits, if_pos fits, if_pos fits]
    rfl
  · rw [decide_eq_false fits, if_neg fits, if_neg fits]
    rfl

theorem effChSend_eq (s : State) (c : Fin 32) (e : LookEntry) (ep : BitVec 7) (name : ep = (opA e.words).extractLsb' 0 7) :
    effChSend c e s = s.updCore c fun _ => { s.core c with
      sends := (s.core c).sends ++ [⟨e.idx, e.issue, ep, bits e.words.w1 24 0, bits (opA e.words) 31 8, false, sigsOf e.words,
        some (placeMessage s c ep (bits (opA e.words) 31 8)), []⟩]
      eps := tset {} (s.core c).eps ep.toNat (((s.core c).ep ep).sending (msgUnits (bits (opA e.words) 31 8))) } := by
  rw [← placeMessage_sending s c ep (bits (opA e.words) 31 8) rfl rfl, name]
  rfl

/-- Settles O31: what CH_SEND leaves of its endpoint is `Endpoint.sending`, and what CH_RELEASE leaves is `Endpoint.releasing`; the units that
a release frees go the way of `returnCredit`. -/
theorem channelCommands : Obligations.ChannelCommands := by
  rintro s c w e rest ep x name rfl
  refine ⟨fun ready => ?send, fun ready => ?close, ?release⟩
  case send =>
    have words := opA_of_ready ready
    have sends := issuesTo_of_effect (i := .chSend c w) (name := "CH_SEND") ready rfl _ (effChSend_eq s c e ep (by rw [words, name])) rfl rfl
    rw [words] at sends
    exact ⟨_, rfl, rfl, rfl, rfl, rfl, rfl, sigsOf_ready ready, sends⟩
  case close =>
    refine issuesTo_of_core ready rfl _ ?_ rfl rfl
    rw [name, ← opA_of_ready ready]
    rfl
  case release =>
    rintro units rfl k rfl ready
    exact ⟨chRelease_away ready name, fun two here other silent => chRelease_here ready name two here rfl other silent,
      chRelease_frees ready name⟩

end Sys2Proof.Machine

namespace Sys2Proof.Machine

/-! ## Class-0 messages (R299, R300) -/

/-- A copy that was seen before is dropped and counted. -/
theorem haltMsg_again {s : State} {p : Fin 16} {msg : C0Msg} (kind : c0get msg 0 1 = kindHalt)
    (seen : BitVec.ofNat 12 (c0get msg 2 2) ∈ s.fab.haltSeen) : exec (.haltMsg p msg) s = .next (c0drop s) := by
  change execHaltMsg p msg s = _
  unfold execHaltMsg
  dsimp only
  rw [if_neg (not_not.2 kind), if_pos (List.contains_iff_mem.2 seen)]

/-- The state in which the halt of a partition is known (R388). -/
def State.haltKnown (s : State) (o : BitVec 12) : State := { s with fab := { s.fab with haltSeen := o :: s.fab.haltSeen } }

theorem haltMsg_floods {s : State} {p : Fin 16} {msg : C0Msg} {o : BitVec 12} (kind : c0get msg 0 1 = kindHalt)
    (origin : o = BitVec.ofNat 12 (c0get msg 2 2)) (new : o ∉ s.fab.haltSeen) (apart : ¬ (s.holdsImage = true ∧ (o = s.seq.origin ∨ o = 0xFFF))) :
    exec (.haltMsg p msg) s = .next (c0flood (some p) msg (s.haltKnown o)) := by
  subst origin
  obtain ⟨x, flood⟩ := c0flood_eq (some p) msg (s.haltKnown (BitVec.ofNat 12 (c0get msg 2 2)))
  change execHaltMsg p msg s = _
  unfold execHaltMsg
  dsimp only
  rw [if_neg (not_not.2 kind), if_neg (mt List.contains_iff_mem.1 new)]
  unfold State.haltKnown at flood ⊢
  rw [flood]
  exact congrArg _ (if_neg apart)

/-- The cause that a HALT message of another die gives this one (R383). -/
def remoteHalt (p : Fin 16) (msg : C0Msg) : HaltCause :=
  ⟨hcRemote, none, engFabric, none, BitVec.ofNat 64 (c0get msg 4 2 % 4096 + 65536 * c0get msg 6 1 +
    (if c0get msg 7 1 / 32 % 2 = 1 then 2 ^ 29 else 2 ^ 24 * (c0get msg 7 1 % 32))), BitVec.ofNat 64 p.val⟩

theorem haltMsg_halts {s : State} {p : Fin 16} {msg : C0Msg} {o : BitVec 12} (kind : c0get msg 0 1 = kindHalt)
    (origin : o = BitVec.ofNat 12 (c0get msg 2 2)) (new : o ∉ s.fab.haltSeen) (mine : s.holdsImage = true ∧ (o = s.seq.origin ∨ o = 0xFFF)) :
    exec (.haltMsg p msg) s = .next (raiseHalt (remoteHalt p msg) (c0flood (some p) msg (s.haltKnown o))) := by
  subst origin
  obtain ⟨x, flood⟩ := c0flood_eq (some p) msg (s.haltKnown (BitVec.ofNat 12 (c0get msg 2 2)))
  change execHaltMsg p msg s = _
  unfold execHaltMsg
  dsimp only
  rw [if_neg (not_not.2 kind), if_neg (mt List.contains_iff_mem.1 new)]
  unfold State.haltKnown at flood ⊢
  rw [flood]
  exact congrArg _ (if_pos mine)

/-- A remote halt sends no flood of its own. -/
theorem raiseHalt_remote_ports {c : HaltCause} {s : State} (remote : c.reason = hcRemote) (loaded : s.seq.state ≠ .empty)
    (live : s.seq.state ≠ .halted) : (raiseHalt c s).fab.ports = s.fab.ports := by
  unfold raiseHalt haltWith floodHalt
  rw [if_neg loaded, if_neg live, if_pos (show (haltRecord c s).reason = hcRemote from remote), setIrq_frame]
  rfl

theorem flooded_haltKnown {s : State} {p : Fin 16} {msg : C0Msg} {o : BitVec 12} {v : Vector FabPort 16}
    (ports : v = (c0flood (some p) msg (s.haltKnown o)).fab.ports) : Claims.Flooded (some p) msg s { s with fab := { s.fab with ports := v } } := by
  refine ⟨rfl, fun q => ?_⟩
  have port := c0flood_port (some p) msg (s.haltKnown o) q
  have same := c0queue_same q msg s (s.haltKnown o) rfl rfl
  have stands : (s.haltKnown o).port q = s.port q := rfl
  rw [same, stands] at port
  change v.get q = _
  rw [ports]
  exact port

/-- STATUS takes the same way. -/
theorem statusMsg_again {s : State} {p : Fin 16} {msg : C0Msg} (kind : c0get msg 0 1 = kindStatus)
    (seen : c0get msg 6 2 ∈ tget [] s.fab.statusSeen (c0get msg 4 2 % 4096)) : exec (.statusMsg p msg) s = .next (c0drop s) := by
  change execStatusMsg p msg s = _
  unfold execStatusMsg
  dsimp only
  rw [if_neg (not_not.2 kind), if_pos (.inl (List.contains_iff_mem.2 seen))]

theorem statusMsg_floods {s : State} {p : Fin 16} {msg : C0Msg} (kind : c0get msg 0 1 = kindStatus)
    (new : c0get msg 6 2 ∉ tget [] s.fab.statusSeen (c0get msg 4 2 % 4096)) (other : c0get msg 4 2 % 4096 ≠ s.module.toNat) :
    exec (.statusMsg p msg) s = .next (c0flood (some p) msg { s with fab := { s.fab with
      statusSeen := tset [] s.fab.statusSeen (c0get msg 4 2 % 4096)
        (ringPush 64 (tget [] s.fab.statusSeen (c0get msg 4 2 % 4096)) (c0get msg 6 2)) } }) := by
  change execStatusMsg p msg s = _
  unfold execStatusMsg
  dsimp only
  rw [if_neg (not_not.2 kind), if_neg (not_or.2 ⟨mt List.contains_iff_mem.1 new, other⟩)]
  rfl

/-! ## Routed messages (R300) -/

/-- The state in which a routed message is known. -/
def State.routedKnown (s : State) (msg : C0Msg) : State := { s with fab := { s.fab with
  routedSeen := tset [] s.fab.routedSeen (c0get msg 2 2 % 4096)
    (ringPush 64 (tget [] s.fab.routedSeen (c0get msg 2 2 % 4096)) (c0get msg 6 2)) } }

section
variable {s : State} {kind : Nat} {msg : C0Msg} {act : BitVec 12 → State → State}

theorem routed_other (other : c0get msg 0 1 ≠ kind) : routed kind msg act s = s := by
  unfold routed
  dsimp only
  rw [if_pos other]

theorem routed_again (same : c0get msg 0 1 = kind) (seen : c0get msg 6 2 ∈ tget [] s.fab.routedSeen (c0get msg 2 2 % 4096)) :
    routed kind msg act s = c0drop s := by
  unfold routed
  dsimp only
  rw [if_neg (not_not.2 same), if_pos (List.contains_iff_mem.2 seen)]

theorem routed_onward (same : c0get msg 0 1 = kind) (new : c0get msg 6 2 ∉ tget [] s.fab.routedSeen (c0get msg 2 2 % 4096))
    (other : BitVec.ofNat 12 (c0get msg 4 2) ≠ s.module) :
    routed kind msg act s = c0route (BitVec.ofNat 12 (c0get msg 4 2)) msg (s.routedKnown msg) := by
  unfold routed
  dsimp only
  rw [if_neg (not_not.2 same), if_neg (mt List.contains_iff_mem.1 new)]
  exact if_neg other

theorem routed_here {src : BitVec 12} (here : Claims.ForThisModule s kind msg src) : routed kind msg act s = act src (s.routedKnown msg) := by
  obtain ⟨same, rfl, dest, new⟩ := here
  have name : BitVec.ofNat 12 (c0get msg 2 2 % 4096) = BitVec.ofNat 12 (c0get msg 2 2) := by
    apply BitVec.eq_of_toNat_eq
    rw [BitVec.toNat_ofNat, BitVec.toNat_ofNat, Nat.mod_mod]
  unfold routed
  dsimp only
  rw [if_neg (not_not.2 same), new, if_neg Bool.false_ne_true, ← name]
  exact if_pos dest

/-- A message for another module goes on by the ports of its route. -/
theorem c0route_routed (d : BitVec 12) (q : Fin 16) :
    (Claims.RoutePort d s q → (c0route d msg (s.routedKnown msg)).port q = (c0queue q msg s).port q) ∧
    (¬ Claims.RoutePort d s q → (c0route d msg (s.routedKnown msg)).port q = s.port q) := by
  have port := c0route_port d msg (s.routedKnown msg) q
  refine ⟨fun goes => ?_, fun apart => ?_⟩
  · rw [if_pos ((routePort_iff d (s.routedKnown msg) q).1 goes)] at port
    exact port.trans (c0queue_same q msg s (s.routedKnown msg) rfl rfl)
  · rw [if_neg fun goes => apart ((routePort_iff d (s.routedKnown msg) q).2 goes)] at port
    exact port

end

/-! ## Credits that come back (R250, R251, R255) -/

/-- `t` is `s` with the endpoints of core `c` changed, of which `n` is now `y`. -/
def EpLeaves (c : Fin 32) (n : BitVec 7) (s t : State) (y : Endpoint) : Prop :=
  ∃ l : Tbl Endpoint, t = s.updCore c (fun k => { k with eps := l }) ∧ tget {} l n.toNat = y

theorem epLeaves_refl (c : Fin 32) (n : BitVec 7) (s : State) : EpLeaves c n s s ((s.core c).ep n) :=
  ⟨(s.core c).eps, (updCore_self s c).symm, rfl⟩

theorem EpLeaves.updEp {c : Fin 32} {n : BitVec 7} {s t : State} {y : Endpoint} (left : EpLeaves c n s t y) {f : Endpoint → Endpoint}
    (used : f y ≠ {}) : EpLeaves c n s (t.updCore c fun k => k.updEp n f) (f y) := by
  obtain ⟨l, rfl, rfl⟩ := left
  exact ⟨tset {} l n.toNat (f (tget {} l n.toNat)), updCore_updCore .., tget_tset_new _ _ _ _ used⟩

theorem EpLeaves.ep {c : Fin 32} {n : BitVec 7} {s t : State} {y : Endpoint} (left : EpLeaves c n s t y) : (t.core c).ep n = y := by
  obtain ⟨l, rfl, rfl⟩ := left
  rw [updCore_core, if_pos rfl]
  rfl

theorem EpLeaves.frame {c : Fin 32} {n : BitVec 7} {s t : State} {y : Endpoint} (left : EpLeaves c n s t y) :
    t = { s with cores := s.cores.set c { s.core c with eps := (t.core c).eps } } := by
  obtain ⟨l, rfl, -⟩ := left
  rw [updCore_core, if_pos rfl]
  rfl

/-- Endpoint `e` after `units` came back from receiver `member` (R250, R251). -/
def Endpoint.back (s : State) (member units : Nat) (e : Endpoint) : Endpoint :=
  if epRole e.desc = 3 then refreshMcast s { e with memberCum := tset 0 e.memberCum member (tget 0 e.memberCum member + units) }
  else addCredits units e

theorem creditBack_eq (c : Fin 32) (n : BitVec 7) (member units : Nat) (s : State) :
    creditBack c n member units s = s.updCore c fun k => k.updEp n (Endpoint.back s member units) := rfl

theorem addCredits_counts (u : Nat) (e : Endpoint) : ∃ d r m, addCredits u e =
    { e with credits := e.credits + u, deducted := d, returned := r, landedCount := m } := ⟨_, _, _, rfl⟩

theorem back_keeps (s : State) (member units : Nat) (e : Endpoint) :
    (Endpoint.back s member units e).desc = e.desc ∧ (Endpoint.back s member units e).dropsTaken = e.dropsTaken := by
  unfold Endpoint.back refreshMcast
  dsimp only
  split
  · obtain ⟨d, r, m, counts⟩ := addCredits_counts _ _
    rw [counts]
    exact ⟨rfl, rfl⟩
  · obtain ⟨d, r, m, counts⟩ := addCredits_counts units e
    rw [counts]
    exact ⟨rfl, rfl⟩

theorem back_single {s : State} {member units : Nat} {e : Endpoint} (role : epRole e.desc = 1) :
    (Endpoint.back s member units e).credits = e.credits + units := by
  unfold Endpoint.back
  rw [if_neg (by rw [role]; decide)]
  rfl

theorem back_multicast {s : State} {member units : Nat} {e : Endpoint} (role : epRole e.desc = 3) : Endpoint.back s member units e =
    refreshMcast s { e with memberCum := tset 0 e.memberCum member (tget 0 e.memberCum member + units) } := if_pos role

section
variable {s : State} {msg : C0Msg} {src : BitVec 12} {c : Fin 32} {n : BitVec 7} (core : c = coreOf (c0get msg 8 1))
  (name : n = BitVec.ofNat 7 (c0get msg 9 1))
include core name

theorem takeCredit_pass {i : Nat} {g : MGroup} (found : passGroup s c n src = some (i, g))
    (gen : g.gen = BitVec.ofNat 16 (c0get msg 10 2)) :
    takeCredit msg src s = childCredit i g.gen src (c0get msg 12 4) s := by
  subst core name
  unfold takeCredit passCredit
  dsimp only
  rw [found, ← gen]
  exact if_pos rfl

variable (alone : passGroup s c n src = none) (gen : epGen ((s.core c).ep n).desc = BitVec.ofNat 16 (c0get msg 10 2))
include alone gen

theorem takeCredit_multicast (role : epRole ((s.core c).ep n).desc = 3) : takeCredit msg src s =
    creditBack c n (4096 + src.toNat) (rise32 (tget 0 ((s.core c).ep n).memberIn src.toNat) (c0get msg 12 4))
      (s.updCore c fun k => k.updEp n fun e => { e with memberIn := tset 0 e.memberIn src.toNat (tget 0 e.memberIn src.toNat +
        rise32 (tget 0 ((s.core c).ep n).memberIn src.toNat) (c0get msg 12 4)) }) := by
  subst core name
  unfold takeCredit
  dsimp only
  rw [alone]
  dsimp only
  rw [if_neg (not_not.2 gen.symm), if_pos role]

theorem takeCredit_child (role : epRole ((s.core c).ep n).desc = 4) : takeCredit msg src s =
    childCredit (epGroup ((s.core c).ep n).desc) (BitVec.ofNat 16 (c0get msg 10 2)) src (c0get msg 12 4) s := by
  subst core name
  unfold takeCredit
  dsimp only
  rw [alone]
  dsimp only
  rw [if_neg (not_not.2 gen.symm), if_neg (by rw [role]; decide), if_pos role]

theorem takeCredit_single (role : epRole ((s.core c).ep n).desc = 1) : takeCredit msg src s =
    creditBack c n 0 (rise32 ((s.core c).ep n).cumIn.toNat (c0get msg 12 4)) (s.updCore c fun k => k.updEp n fun e =>
      { e with cumIn := e.cumIn + BitVec.ofNat 32 (rise32 ((s.core c).ep n).cumIn.toNat (c0get msg 12 4)) }) := by
  subst core name
  unfold takeCredit
  dsimp only
  rw [alone]
  dsimp only
  rw [if_neg (not_not.2 gen.symm), if_neg (by rw [role]; decide), if_neg (by rw [role]; decide)]

end

/-- A drop that does not halt the die brings its units back and is counted (R255). -/
theorem takeDrop_counts {c : Fin 32} {n : BitVec 7} {s t : State} {y : Endpoint} (left : EpLeaves c n s t y) (loose : epStrict y.desc = false)
    (role : epRole y.desc ≠ 0) (member units : Nat) (reason : BitVec 2) (seq : U32) (receiver : BitVec 12) :
    ∃ u z, EpLeaves c n s u z ∧ takeDrop c n member units reason seq receiver t = { u with
        mgmt := (takeDrop c n member units reason seq receiver t).mgmt } ∧
      z.credits = (Endpoint.back t member units y).credits ∧ z.dropsTaken = y.dropsTaken := by
  obtain ⟨desc, taken⟩ := back_keeps t member units y
  have back := left.updEp (f := Endpoint.back t member units) (ep_ne_default (by rw [desc]; exact role))
  rw [← creditBack_eq] at back
  unfold takeDrop
  dsimp only
  rw [left.ep, loose, if_neg Bool.false_ne_true]
  split
  · refine ⟨_, _, back.updEp (ep_ne_default ?_), rfl, rfl, taken⟩
    change epRole (Endpoint.back t member units y).desc ≠ 0
    rw [desc]
    exact role
  · have counted := back.updEp (f := fun e => { e with dropClosed := satInc e.dropClosed, closedPeer := true, cpLogged := true })
      (ep_ne_default (by change epRole (Endpoint.back t member units y).desc ≠ 0; rw [desc]; exact role))
    refine ⟨_, _, counted, ?_, rfl, taken⟩
    split
    · rfl
    · exact logErr_frame ..

/-- A CREDIT_DROP that is new to its endpoint. -/
theorem takeCreditDrop_new {s : State} {msg : C0Msg} {src : BitVec 12} {c : Fin 32} {n : BitVec 7} (core : c = coreOf (c0get msg 8 1))
    (name : n = BitVec.ofNat 7 (c0get msg 9 1)) (gen : epGen ((s.core c).ep n).desc = BitVec.ofNat 16 (c0get msg 10 2))
    (new : ((s.core c).ep n).dropsTaken.contains (BitVec.ofNat 32 (c0get msg 20 4)) = false) : takeCreditDrop msg src s =
    takeDrop c n (4096 + src.toNat) (if epRole ((s.core c).ep n).desc = 3 ∧ BitVec.ofNat 2 (c0get msg 12 1) = 2 then 0 else c0get msg 16 4)
      (BitVec.ofNat 2 (c0get msg 12 1)) (BitVec.ofNat 32 (c0get msg 20 4)) src
      (s.updCore c fun k => k.updEp n fun e => { e with dropsTaken := e.dropsTaken ++ [BitVec.ofNat 32 (c0get msg 20 4)] }) := by
  subst core name
  unfold takeCreditDrop
  dsimp only
  rw [if_neg (not_or.2 ⟨not_not.2 gen.symm, by rw [new]; exact Bool.false_ne_true⟩)]

/-- What goes to the parent of a group is counted beside the totals of its children. -/
theorem forwardCredit_keeps (i : Nat) (gen : U16) (s : State) :
    forwardCredit i gen s = { s with groups := (forwardCredit i gen s).groups, fab := (forwardCredit i gen s).fab } ∧
    (tget {} (forwardCredit i gen s).groups i).childIn = (tget {} s.groups i).childIn := by
  unfold forwardCredit
  dsimp only
  split
  · rename_i p parent
    split
    · have used : { tget {} s.groups i with sentUp := minOf ((tget {} s.groups i).members.map (fun x => ((s.core x.1).ep x.2).released.toNat) ++
          (childModules s (tget {} s.groups i)).map fun m => tget 0 (tget {} s.groups i).childIn m.1.toNat) } ≠ ({} : MGroup) := fun eq => by
        have none := congrArg MGroup.parentPort eq
        exact absurd (parent.symm.trans none) (Option.some_ne_none p)
      rw [c0send_frame]
      refine ⟨rfl, ?_⟩
      dsimp only
      rw [tget_tset_new _ _ _ _ used]
    · exact ⟨rfl, rfl⟩
  · exact ⟨rfl, rfl⟩

theorem childCredit_counts {i : Nat} {g : MGroup} {s : State} (group : tget {} s.groups i = g) (used : g.members ≠ [] ∨ g.parentPort.isSome = true)
    (gen : U16) (src : BitVec 12) (cum : Nat) :
    childCredit i gen src cum s = { s with groups := (childCredit i gen src cum s).groups, fab := (childCredit i gen src cum s).fab } ∧
    (tget {} (childCredit i gen src cum s).groups i).childIn =
      tset 0 g.childIn src.toNat (tget 0 g.childIn src.toNat + rise32 (tget 0 g.childIn src.toNat) cum) := by
  subst group
  have new : { tget {} s.groups i with childIn := tset 0 (tget {} s.groups i).childIn src.toNat (tget 0 (tget {} s.groups i).childIn src.toNat +
      rise32 (tget 0 (tget {} s.groups i).childIn src.toNat) cum) } ≠ ({} : MGroup) := fun eq => by
    have members := congrArg MGroup.members eq
    have parent := congrArg MGroup.parentPort eq
    obtain some | some := used
    · exact some members
    · exact absurd ((congrArg Option.isSome parent).symm.trans some) (by decide)
  unfold childCredit
  dsimp only
  obtain ⟨frame, children⟩ := forwardCredit_keeps i gen { s with groups := tset {} s.groups i { tget {} s.groups i with
    childIn := tset 0 (tget {} s.groups i).childIn src.toNat (tget 0 (tget {} s.groups i).childIn src.toNat +
      rise32 (tget 0 (tget {} s.groups i).childIn src.toNat) cum) } }
  refine ⟨frame.trans ?_, children.trans ?_⟩
  · rfl
  · dsimp only
    rw [tget_tset_new _ _ _ _ new]

end Sys2Proof.Machine

namespace Sys2Proof.Machine

/-! ## Express operations of other modules (R236, R300, R315) -/

/-- The state in which the express operation `msg`, of path number `n`, is taken in order, and none waits. -/
def State.expressTaken (s : State) (key n : Nat) : State :=
  { s with fab := { s.fab with expWait := [], expIn := tset 0 s.fab.expIn key (n + 1) } }

theorem drainExpress_none {s : State} (none : s.fab.expWait = []) (src : BitVec 12) (core : Nat) (fuel : Nat) :
    drainExpress src core fuel s = s := by
  cases fuel with
  | zero => rfl
  | succ fuel =>
    unfold drainExpress
    dsimp only
    rw [none]
    exact ite_self _

theorem bellArrive_fab (r : BellReq) (s : State) : (bellArrive r s).fab = s.fab := by
  unfold bellArrive
  split <;> rfl

/-- A rejected operation is NACKed. -/
theorem windowNack_counts (dest : BitVec 12) (core : BitVec 5) (express : Bool) (seq : Nat) (r : Reject) (s : State) :
    ∃ x, sendNack_ dest core express seq r s =
      { s with fab := { s.fab with winNacks := satInc s.fab.winNacks, rseq := s.fab.rseq + 1, ports := x } } := by
  obtain ⟨x, sent⟩ := c0send_eq dest (c0msg [(0, 1, kindNack), (8, 1, core.toNat), (9, 1, r.reason + 4 * b2n r.strict + 8 * b2n express),
    (10, 3, seq % 2 ^ 24), (14, 2, r.window)]) { s with fab := { s.fab with winNacks := satInc s.fab.winNacks } }
  exact ⟨x, sent⟩

/-- The operation of an EXPRESS_BELL message of module `src` (Table 11.6). -/
def expressReq (s : State) (src : BitVec 12) (msg : C0Msg) (op key : Nat) : BellReq :=
  { op := BitVec.ofNat 2 op, addr := BitVec.ofNat 64 (s.module.toNat * 2 ^ 52 + c0get msg 16 7 % 2 ^ 52)
    operand := BitVec.ofNat 64 (c0get msg 24 8), express := true, srcModule := src
    srcCore := BitVec.ofNat 5 (c0get msg 8 1), cmd := BitVec.ofNat 13 (c0get msg 9 2), origin := .expressIn key }

/-- Whether the windows of this module reject an express operation (R315). -/
def State.expressRejects (s : State) (msg : C0Msg) : Option Reject :=
  windowCheck s (c0get msg 16 7 / 2 ^ 48 % 16) (c0get msg 16 7 % 2 ^ 48) 8 2 (BitVec.ofNat 32 (c0get msg 12 4)) (some s.markNow)

section
variable {s : State} {msg : C0Msg} {src : BitVec 12} {key op : Nat}

theorem applyExpress_halted (halted : s.seq.state = .halted) : applyExpress src msg s = s := by
  unfold applyExpress
  dsimp only
  rw [if_pos halted]

theorem applyExpress_goes (live : s.seq.state ≠ .halted) (code : op = c0get msg 8 1 / 32 % 4) (write : op ≠ 3)
    (accepted : s.expressRejects msg = none) (name : key = 32 * src.toNat + c0get msg 8 1 % 32) : applyExpress src msg s =
    bellArrive (expressReq s src msg op key) { s with fab := { s.fab with expBusy := key :: s.fab.expBusy } } := by
  subst code
  have core : (BitVec.ofNat 5 (c0get msg 8 1)).toNat = c0get msg 8 1 % 32 := BitVec.toNat_ofNat ..
  unfold applyExpress
  dsimp only
  rw [if_neg live, if_neg write]
  unfold State.expressRejects at accepted
  rw [accepted]
  dsimp only
  rw [core, ← name]
  rfl

theorem applyExpress_rejected (live : s.seq.state ≠ .halted) (code : op = c0get msg 8 1 / 32 % 4)
    (rejected : op = 3 ∨ s.expressRejects msg ≠ none) : ∃ x, applyExpress src msg s =
    { s with fab := { s.fab with winNacks := satInc s.fab.winNacks, rseq := s.fab.rseq + 1, ports := x } } := by
  subst code
  unfold applyExpress
  dsimp only
  rw [if_neg live]
  by_cases read : c0get msg 8 1 / 32 % 4 = 3
  · rw [if_pos read]
    exact windowNack_counts ..
  · rw [if_neg read]
    obtain ⟨r, why⟩ := Option.ne_none_iff_exists'.1 (rejected.resolve_left read)
    unfold State.expressRejects at why
    rw [why]
    exact windowNack_counts ..

/-- An express operation leaves the others of its path where they are. -/
theorem applyExpress_path (s : State) (src : BitVec 12) (msg : C0Msg) : (applyExpress src msg s).fab.expWait = s.fab.expWait ∧
    (applyExpress src msg s).fab.expIn = s.fab.expIn := by
  by_cases halted : s.seq.state = .halted
  · rw [applyExpress_halted halted]
    exact ⟨rfl, rfl⟩
  · by_cases rejected : c0get msg 8 1 / 32 % 4 = 3 ∨ s.expressRejects msg ≠ none
    · obtain ⟨x, nack⟩ := applyExpress_rejected (src := src) halted rfl rejected
      rw [nack]
      exact ⟨rfl, rfl⟩
    · obtain ⟨write, accepted⟩ := not_or.1 rejected
      rw [applyExpress_goes halted rfl write (not_not.1 accepted) rfl, bellArrive_fab]
      exact ⟨rfl, rfl⟩

end

section
variable {s : State} {p : Fin 16} {msg : C0Msg} {src : BitVec 12} {key n : Nat} (name : key = 32 * src.toNat + c0get msg 8 1 % 32)
  (number : n = tget 0 s.fab.expIn key) (order : c0get msg 11 1 = n % 256) (none : s.fab.expWait = [])
include name number order none

/-- The next express operation of a source waits while an earlier one is on its way to its word. -/
theorem takeExpress_waits (busy : key ∈ s.fab.expBusy) :
    takeExpress p msg src s = { s with fab := { s.fab with expWait := [(BitVec.ofNat 4 p.val, msg)] } } := by
  subst name number
  have next : (c0get msg 11 1 + 256 - tget 0 s.fab.expIn (32 * src.toNat + c0get msg 8 1 % 32) % 256) % 256 < 128 := by omega
  unfold takeExpress drainExpress
  dsimp only
  rw [if_pos next, none, if_pos (List.contains_iff_mem.2 busy)]
  rfl

/-- The express operation that is next in order is acted on. -/
theorem takeExpress_acts (free : key ∉ s.fab.expBusy) (sent : c0get msg 2 2 % 4096 = src.toNat) :
    takeExpress p msg src s = applyExpress src msg (s.expressTaken key n) := by
  subst name number
  have next : (c0get msg 11 1 + 256 - tget 0 s.fab.expIn (32 * src.toNat + c0get msg 8 1 % 32) % 256) % 256 < 128 := by omega
  have found (x : BitVec 4 × C0Msg) (this : x.2 = msg) : [x].find? (fun x => c0get x.2 2 2 % 4096 == src.toNat &&
      c0get x.2 8 1 % 32 == c0get msg 8 1 % 32 && c0get x.2 11 1 == tget 0 s.fab.expIn (32 * src.toNat + c0get msg 8 1 % 32) % 256) = some x := by
    rw [List.find?_cons_of_pos]
    rw [this, sent, order]
    simp only [beq_self_eq_true, Bool.and_self]
  unfold takeExpress
  dsimp only
  rw [if_pos next, none]
  change drainExpress src (c0get msg 8 1 % 32) (1 + 1) _ = _
  unfold drainExpress
  dsimp only
  rw [if_neg (mt List.contains_iff_mem.1 free), List.nil_append, found _ rfl]
  dsimp only
  rw [List.erase_cons_head, drainExpress_none (applyExpress_path ..).1]
  rfl

end

/-! ## WINDOW_NACK and ACCEPT (R309, R316) -/

theorem raiseHalt_cores (x : HaltCause) (s : State) : (raiseHalt x s).cores = s.cores := by
  by_cases empty : s.seq.state = .empty
  · rw [raiseHalt_empty x s empty]
  by_cases halted : s.seq.state = .halted
  · unfold raiseHalt
    rw [if_neg empty, if_pos halted]
    split
    · unfold joinHalt
      dsimp only
      generalize HaltRec.mk _ _ _ _ _ _ _ _ _ _ _ _ _ _ _ = h
      obtain ⟨f, kept⟩ := keepHalt_frame h s
      rw [kept]
    · rfl
  · rw [raiseHalt_running x s empty halted]

/-- The newest entry of the error log has the code that was logged. -/
theorem logErr_last (code : U16) (core : Option (Fin 32)) (d0 d1 : U64) (s : State) :
    ∃ e, (logErr code core d0 d1 s).mgmt.errLog.getLast? = some e ∧ e.code = code := by
  have pushed (x : ErrEntry) (l : List ErrEntry) : (ringPush 1024 l x).getLast? = some x := by
    unfold ringPush
    rw [List.getLast?_drop, if_neg (by rw [List.length_append, List.length_singleton]; omega), List.getLast?_concat]
  obtain _ | k := core
  all_goals
    unfold logErr
    dsimp only
    split
    · split
      · rename_i same
        exact ⟨_, List.getLast?_concat, same.1⟩
      · dsimp only
        rw [pushed]
        exact ⟨_, rfl, rfl⟩
    · exact ⟨_, rfl, rfl⟩

/-- A NACK is logged, and with STRICT it is the cause of a halt too. -/
theorem takeNack_logs (s : State) (msg : C0Msg) (src : BitVec 12) : ∃ l k d0 d1,
    takeNack msg src s = if c0get msg 9 1 / 4 % 2 = 1 then
        raiseHalt ⟨hcWindow, some k, engFabric, none, d0, d1⟩ (logErr errWindowNack (some k) d0 d1 { s with fab := { s.fab with awaiting := l } })
      else logErr errWindowNack (some k) d0 d1 { s with fab := { s.fab with awaiting := l } } := by
  unfold takeNack
  dsimp only
  by_cases express : decide (c0get msg 9 1 / 8 % 2 = 1) = true
  · rw [if_pos express]
    exact ⟨s.fab.awaiting, _, _, _, rfl⟩
  · rw [if_neg express]
    exact ⟨_, _, _, _, rfl⟩

theorem ofNat_coreOf (k : BitVec 5) : BitVec.ofNat 5 (coreOf k.toNat).val = k := by
  apply BitVec.eq_of_toNat_eq
  rw [BitVec.toNat_ofNat]
  unfold coreOf
  dsimp only
  omega

/-- The items that an ACCEPT of `src` for a core's items up to number `n` completes. -/
def AwaitAccept.doneBy (core : Nat) (src : BitVec 12) (n : Nat) (w : AwaitAccept) : Bool :=
  w.core.toNat == core && w.dest == src && w.rdest.isNone && decide (w.pathSeq ≤ n)

/-- The state in which an ACCEPT is known, and nothing that it completes is done. -/
def State.acceptKnown (s : State) (core : Nat) (src : BitVec 12) (n : Nat) : State := { s with fab := { s.fab with
  accepted := tset 0 s.fab.accepted (4096 * core + src.toNat) (n + 1)
  awaiting := s.fab.awaiting.filter fun w => !w.doneBy core src n } }

theorem takeAccept_some {s : State} {msg : C0Msg} {src : BitVec 12} {n : Nat}
    (number : fullSeq (tget 0 s.fab.accepted (4096 * (c0get msg 8 1 % 32) + src.toNat)) (c0get msg 12 3) = some n) :
    takeAccept msg src s = foldS completeAccepted (s.fab.awaiting.filter fun w => w.doneBy (c0get msg 8 1 % 32) src n)
      (s.acceptKnown (c0get msg 8 1 % 32) src n) := by
  unfold takeAccept
  dsimp only
  rw [number]
  rfl

theorem completeAccepted_fab (w : AwaitAccept) (s : State) : (completeAccepted w s).fab = s.fab := by
  unfold completeAccepted
  dsimp only
  rw [ackAdd_frame]
  split <;> rfl

theorem completeAll_fab (l : List AwaitAccept) (s : State) : (foldS completeAccepted l s).fab = s.fab := by
  induction l generalizing s with
  | nil => rfl
  | cons w l ih => rw [foldS_cons, ih, completeAccepted_fab]

section
variable {s u : State} {w : AwaitAccept} (cores : u.cores = s.cores) (mid : u.midCycle = s.midCycle)
include cores mid

/-- The ACK of a completed item reaches its core, whose content was `k`. -/
theorem ackAdd_lands (k : Core) : (ackAdd w.core w.ack (u.updCore (coreOf w.core.toNat) fun _ => k)).cores =
    s.cores.set (coreOf w.core.toNat) (Claims.acked s w.ack 1 k) := by
  have lands := ackAdd_acked u (coreOf w.core.toNat) k w.ack
  have same : Claims.acked u w.ack 1 k = Claims.acked s w.ack 1 k := by
    unfold Claims.acked
    rw [mid]
  rw [ofNat_coreOf, same] at lands
  rw [lands, ← cores]
  rfl

theorem completeAccepted_elem {d : BitVec 11} {q : Nat} (elem : w.elem = some (d, q)) : (completeAccepted w u).cores =
    s.cores.set (coreOf w.core.toNat) (Claims.acked s w.ack 1
      { s.core (coreOf w.core.toNat) with
        streams := tset {} (s.core (coreOf w.core.toNat)).streams d.toNat { (s.core (coreOf w.core.toNat)).stream d with
          elems := ((s.core (coreOf w.core.toNat)).stream d).elems.map fun x => if x.pos = q then { x with need := 0 } else x } }) := by
  have core : u.core (coreOf w.core.toNat) = s.core (coreOf w.core.toNat) := congrArg (Vector.get · _) cores
  rw [← ackAdd_lands cores mid, ← core]
  unfold completeAccepted
  rw [elem]
  rfl

theorem completeAccepted_item (item : w.elem = none) : (completeAccepted w u).cores =
    s.cores.set (coreOf w.core.toNat) (Claims.acked s w.ack 1 (s.core (coreOf w.core.toNat))) := by
  have core : u.core (coreOf w.core.toNat) = s.core (coreOf w.core.toNat) := congrArg (Vector.get · _) cores
  rw [← ackAdd_lands cores mid, ← core, updCore_self]
  unfold completeAccepted
  rw [item]

end

/-- An ACCEPT completes the only item that waits for it. -/
theorem completes_only {w : AwaitAccept} {l : List AwaitAccept} {core : Nat} {src : BitVec 12} {n : Nat} (only : l = [w])
    (item : w.core.toNat = core) (dest : w.dest = src) (value : w.rdest = none) (due : w.pathSeq ≤ n) (s : State) :
    foldS completeAccepted (l.filter fun w => w.doneBy core src n) s = completeAccepted w s := by
  have done : w.doneBy core src n = true := by
    unfold AwaitAccept.doneBy
    rw [item, dest, value, decide_eq_true due]
    simp
  rw [only, List.filter_cons_of_pos done, List.filter_nil, foldS_one]

/-! ## What a CREDIT and a CREDIT_DROP leave of their endpoint -/

theorem EpLeaves.ofKnown {c : Fin 32} {n : BitVec 7} {s t : State} {msg : C0Msg} {y : Endpoint} (left : EpLeaves c n (s.routedKnown msg) t y) :
    t = { s with cores := s.cores.set c { s.core c with eps := (t.core c).eps }, fab := { s.fab with routedSeen := t.fab.routedSeen } } := by
  obtain ⟨l, rfl, -⟩ := left
  rw [updCore_core, if_pos rfl]
  rfl

section
variable {s : State} {msg : C0Msg} {src : BitVec 12} {c : Fin 32} {n : BitVec 7} (core : c = coreOf (c0get msg 8 1))
  (name : n = BitVec.ofNat 7 (c0get msg 9 1)) (gen : epGen ((s.core c).ep n).desc = BitVec.ofNat 16 (c0get msg 10 2))
include core name gen

theorem takeCredit_single_left (alone : passGroup s c n src = none) (role : epRole ((s.core c).ep n).desc = 1) :
    ∃ z, EpLeaves c n s (takeCredit msg src s) z ∧
      z.credits = ((s.core c).ep n).credits + rise32 ((s.core c).ep n).cumIn.toNat (c0get msg 12 4) := by
  have used (e : Endpoint) (desc : e.desc = ((s.core c).ep n).desc) : e ≠ {} :=
    ep_ne_default (by rw [desc, role]; decide)
  rw [takeCredit_single core name alone gen role, creditBack_eq]
  refine ⟨_, ((epLeaves_refl c n s).updEp (used _ rfl)).updEp (used _ (back_keeps ..).1), ?_⟩
  exact back_single role

theorem takeCredit_multicast_left (alone : passGroup s c n src = none) (role : epRole ((s.core c).ep n).desc = 3) {d : Nat}
    (rise : d = rise32 (tget 0 ((s.core c).ep n).memberIn src.toNat) (c0get msg 12 4)) :
    EpLeaves c n s (takeCredit msg src s) (refreshMcast s { (s.core c).ep n with
      memberIn := tset 0 ((s.core c).ep n).memberIn src.toNat (tget 0 ((s.core c).ep n).memberIn src.toNat + d)
      memberCum := tset 0 ((s.core c).ep n).memberCum (4096 + src.toNat) (tget 0 ((s.core c).ep n).memberCum (4096 + src.toNat) + d) }) := by
  have used (e : Endpoint) (desc : e.desc = ((s.core c).ep n).desc) : e ≠ {} :=
    ep_ne_default (by rw [desc, role]; decide)
  rw [takeCredit_multicast core name alone gen role, creditBack_eq, ← rise]
  have back : Endpoint.back (s.updCore c fun k => k.updEp n fun e => { e with
      memberIn := tset 0 e.memberIn src.toNat (tget 0 e.memberIn src.toNat + d) }) (4096 + src.toNat) d { (s.core c).ep n with
        memberIn := tset 0 ((s.core c).ep n).memberIn src.toNat (tget 0 ((s.core c).ep n).memberIn src.toNat + d) } = _ := back_multicast role
  refine Eq.mp (congrArg (EpLeaves c n s _) back) ?_
  exact ((epLeaves_refl c n s).updEp (used _ rfl)).updEp (used _ (back_keeps ..).1)

theorem takeCreditDrop_left (new : ((s.core c).ep n).dropsTaken.contains (BitVec.ofNat 32 (c0get msg 20 4)) = false)
    (loose : epStrict ((s.core c).ep n).desc = false) (role : epRole ((s.core c).ep n).desc = 1 ∨ epRole ((s.core c).ep n).desc = 3) :
    ∃ u z, EpLeaves c n s u z ∧ takeCreditDrop msg src s = { u with mgmt := (takeCreditDrop msg src s).mgmt } ∧
      (epRole ((s.core c).ep n).desc = 1 → z.credits = ((s.core c).ep n).credits + c0get msg 16 4) ∧
      z.dropsTaken = ((s.core c).ep n).dropsTaken ++ [BitVec.ofNat 32 (c0get msg 20 4)] := by
  have some : epRole ((s.core c).ep n).desc ≠ 0 := by
    obtain one | three := role
    · rw [one]; decide
    · rw [three]; decide
  have left := (epLeaves_refl c n s).updEp (f := fun e => { e with dropsTaken := e.dropsTaken ++ [BitVec.ofNat 32 (c0get msg 20 4)] })
    (ep_ne_default some)
  rw [takeCreditDrop_new core name gen new]
  obtain ⟨u, z, leaves, frame, credits, taken⟩ := takeDrop_counts left loose some (4096 + src.toNat)
    (if epRole ((s.core c).ep n).desc = 3 ∧ BitVec.ofNat 2 (c0get msg 12 1) = 2 then 0 else c0get msg 16 4)
    (BitVec.ofNat 2 (c0get msg 12 1)) (BitVec.ofNat 32 (c0get msg 20 4)) src
  refine ⟨u, z, leaves, frame, fun one => ?_, taken⟩
  rw [credits, if_neg fun three => absurd (one.symm.trans three.1) (by decide)]
  exact back_single one

end

/-- Settles O54: `routed` gives what each routed message does with its copies and with another module's, and the lemma of its kind what it does
here. -/
theorem class0MessagesAreActedOnOnce : Obligations.Class0MessagesAreActedOnOnce := by
  refine fun s p msg => ⟨fun o origin kind => ⟨fun seen => ?again, fun new other hall => ?floods, fun new mine image live loaded => ?halts⟩,
    ?status, fun i kind row => ?routed, fun src c n x core name point gen => ⟨?credit, ?drop⟩, fun src i g here found group gen => ?pass,
    fun src key n here name number order none => ?express, fun src here => ?nack, fun src key n here name number => ?accept⟩
  case again => exact haltMsg_again kind (origin ▸ seen)
  case floods =>
    exact ⟨_, haltMsg_floods kind origin new fun mine => mine.2.elim other hall, c0flood_flooded ..⟩
  case halts =>
    obtain ⟨x, flood⟩ := c0flood_eq (some p) msg (s.haltKnown o)
    have runs := haltMsg_halts (p := p) kind origin new ⟨image, mine⟩
    have flooded := fun v => flooded_haltKnown (s := s) (p := p) (msg := msg) (o := o) (v := v)
    generalize c0flood (some p) msg (s.haltKnown o) = u at flood runs flooded
    have state : u.seq.state = s.seq.state := by rw [flood]; rfl
    have halt := raiseHalt_record (remoteHalt p msg) u (by rw [state]; exact loaded) (by rw [state]; exact live)
    refine ⟨_, runs, ?_, ?_, ?_, ?_, ?_, flooded _ (raiseHalt_remote_ports rfl (by rw [state]; exact loaded) (by rw [state]; exact live))⟩
    · rw [raiseHalt_running _ _ (by rw [state]; exact loaded) (by rw [state]; exact live)]
    · rw [halt]
      rfl
    · rw [halt]
      rfl
    · rw [halt]
      rfl
    · rw [raiseHalt_cores, flood]
      rfl
  case status =>
    rintro kind _ _ rfl rfl other
    exact ⟨fun seen => statusMsg_again kind seen, fun new => ⟨_, statusMsg_floods kind new other, c0flood_flooded ..⟩⟩
  case routed =>
    obtain ⟨act, runs⟩ : ∃ act, exec i s = .next (routed kind msg act s) := by
      obtain ⟨rfl, rfl⟩ | ⟨rfl, rfl⟩ | ⟨rfl, rfl⟩ | ⟨rfl, rfl⟩ | ⟨rfl, rfl⟩ := row <;> exact ⟨_, rfl⟩
    rw [runs]
    refine ⟨fun other => by rw [routed_other other], fun same seen => by rw [routed_again same seen]; rfl, fun same new other => ⟨_, rfl, ?_, ?_⟩⟩
    · obtain ⟨x, onward⟩ := c0route_eq (BitVec.ofNat 12 (c0get msg 4 2)) msg (s.routedKnown msg)
      rw [routed_onward same new other, onward]
      rfl
    · rw [routed_onward same new other]
      exact c0route_routed _
  case credit =>
    intro here alone
    have runs : exec (.creditMsg p msg) s = .next (takeCredit msg src (s.routedKnown msg)) := congrArg _ (routed_here here)
    subst point
    refine ⟨_, runs, fun role => ?_, fun single => ?_, fun d multicast rise => ?_, fun g child group members => ?_⟩
    · obtain single | multicast := role
      · obtain ⟨z, left, -⟩ := takeCredit_single_left (s := s.routedKnown msg) core name gen alone single
        exact left.ofKnown
      · exact (takeCredit_multicast_left (s := s.routedKnown msg) core name gen alone multicast rfl).ofKnown
    · obtain ⟨z, left, credits⟩ := takeCredit_single_left (s := s.routedKnown msg) core name gen alone single
      rw [left.ep]
      exact credits
    · exact (takeCredit_multicast_left (s := s.routedKnown msg) core name gen alone multicast rise).ep
    · rw [takeCredit_child (s := s.routedKnown msg) core name alone gen child]
      exact childCredit_counts (s := s.routedKnown msg) group.symm (.inl members) _ src (c0get msg 12 4)
  case drop =>
    intro here new loose role
    have runs : exec (.creditDrop p msg) s = .next (takeCreditDrop msg src (s.routedKnown msg)) := congrArg _ (routed_here here)
    subst point
    obtain ⟨u, z, left, frame, credits, taken⟩ := takeCreditDrop_left (s := s.routedKnown msg) core name gen new loose role
    have ep : ((takeCreditDrop msg src (s.routedKnown msg)).core c).ep n = z := by
      rw [frame]
      exact left.ep
    generalize takeCreditDrop msg src (s.routedKnown msg) = t at runs frame ep
    have core : t.core c = u.core c := by
      rw [frame]
      rfl
    have fab : t.fab = u.fab := by rw [frame]
    refine ⟨t, runs, ?_, fun one => ?_, ?_⟩
    · rw [core, fab]
      exact frame.trans (congrArg (fun v : State => { v with mgmt := t.mgmt }) left.ofKnown)
    · rw [ep]
      exact credits one
    · rw [ep]
      exact taken
  case pass =>
    have runs : exec (.creditMsg p msg) s = .next (takeCredit msg src (s.routedKnown msg)) := congrArg _ (routed_here here)
    have parent : g.parentPort.isSome = true := by
      have all := List.find?_some found
      simp only [Bool.and_eq_true] at all
      obtain ⟨⟨⟨⟨-, parent⟩, -⟩, -⟩, -⟩ := all
      exact parent
    obtain ⟨frame, counts⟩ := childCredit_counts (s := s.routedKnown msg) group (.inr parent) g.gen src (c0get msg 12 4)
    rw [takeCredit_pass (s := s.routedKnown msg) rfl rfl found gen] at runs
    exact ⟨_, runs, frame, counts⟩
  case express =>
    have runs : exec (.expressBell p msg) s = .next (takeExpress p msg src (s.routedKnown msg)) := congrArg _ (routed_here here)
    have sent : c0get msg 2 2 % 4096 = src.toNat := by
      obtain ⟨-, rfl, -⟩ := here
      exact (BitVec.toNat_ofNat (c0get msg 2 2) 12).symm
    refine ⟨fun busy => ⟨_, runs, ?_⟩, fun free => ⟨_, runs, ?_⟩⟩
    · rw [takeExpress_waits (s := s.routedKnown msg) name number order none busy]
      rfl
    · rw [takeExpress_acts (s := s.routedKnown msg) name number order none free sent]
      obtain ⟨waits, counts⟩ := applyExpress_path ((s.routedKnown msg).expressTaken key n) src msg
      refine ⟨by rw [counts]; exact tget_tset_new _ _ _ _ (Nat.succ_ne_zero n), waits, fun halted => ?_, ?_⟩
      · rw [applyExpress_halted (s := (s.routedKnown msg).expressTaken key n) halted]
        exact ⟨rfl, rfl⟩
      · rintro op rejects live code rfl
        refine ⟨fun write accepted => ?_, fun rejected => ?_⟩
        · rw [applyExpress_goes (s := (s.routedKnown msg).expressTaken key n) live code write accepted name, bellArrive_fab]
          exact ⟨rfl, bellArrive_atHome _ _⟩
        · obtain ⟨x, nack⟩ := applyExpress_rejected (s := (s.routedKnown msg).expressTaken key n) (src := src) live code rejected
          rw [nack]
          exact ⟨rfl, rfl⟩
  case nack =>
    obtain ⟨l, k, d0, d1, logs⟩ := takeNack_logs (s.routedKnown msg) msg src
    have runs : exec (.windowNack p msg) s = .next (takeNack msg src (s.routedKnown msg)) := congrArg _ (routed_here here)
    have frame := logErr_frame errWindowNack (some k) d0 d1 { s.routedKnown msg with fab := { (s.routedKnown msg).fab with awaiting := l } }
    have last := logErr_last errWindowNack (some k) d0 d1 { s.routedKnown msg with fab := { (s.routedKnown msg).fab with awaiting := l } }
    rw [logs] at runs
    generalize logErr errWindowNack _ _ _ _ = u at runs frame last
    have cores : u.cores = s.cores := by rw [frame]; rfl
    have state : u.seq.state = s.seq.state := by rw [frame]; rfl
    by_cases strict : c0get msg 9 1 / 4 % 2 = 1
    · rw [if_pos strict] at runs
      refine ⟨_, runs, (raiseHalt_cores ..).trans cores, fun loose => absurd (loose.symm.trans strict) (by decide), fun _ loaded live => ?_⟩
      have halt := raiseHalt_record ⟨hcWindow, some k, engFabric, none, d0, d1⟩ u (by rw [state]; exact loaded) (by rw [state]; exact live)
      rw [halt, raiseHalt_running _ _ (by rw [state]; exact loaded) (by rw [state]; exact live)]
      exact ⟨rfl, rfl, rfl⟩
    · rw [if_neg strict] at runs
      have fab : u.fab = { (s.routedKnown msg).fab with awaiting := l } := by rw [frame]
      exact ⟨u, runs, cores, fun _ => ⟨by rw [fab]; exact frame, last⟩, fun yes => absurd yes strict⟩
  case accept =>
    subst name
    have runs : exec (.acceptMsg p msg) s = .next (takeAccept msg src (s.routedKnown msg)) := congrArg _ (routed_here here)
    rw [takeAccept_some (s := s.routedKnown msg) number] at runs
    have fab := completeAll_fab ((s.routedKnown msg).fab.awaiting.filter fun w => w.doneBy (c0get msg 8 1 % 32) src n)
      ((s.routedKnown msg).acceptKnown (c0get msg 8 1 % 32) src n)
    refine ⟨_, runs, ?_, ?_, fun w d q only core dest item due elem => ?_, fun w only core dest item due elem => ?_⟩
    · rw [fab]
      exact tget_tset_new _ _ _ _ (Nat.succ_ne_zero n)
    · rw [fab]
      rfl
    · rw [completes_only (l := (s.routedKnown msg).fab.awaiting) only core dest item due]
      have cores := completeAccepted_elem (s := s) (u := (s.routedKnown msg).acceptKnown (c0get msg 8 1 % 32) src n) rfl rfl elem
      rw [cores]
    · rw [completes_only (l := (s.routedKnown msg).fab.awaiting) only core dest item due]
      exact completeAccepted_item rfl rfl elem

end Sys2Proof.Machine

namespace Sys2Proof.Machine

/-! ## Ordered operations that leave (R234, R235) -/

/-- `t` is `s` after ordered operations of core `c` are launched: beside the core they change what ordered paths hold, and the mesh. -/
def Belled (c : Fin 32) (s t : State) : Prop :=
  t = { s with cores := s.cores.set c (t.core c), clk := { s.clk with mesh := t.clk.mesh }, fab := t.fab } ∧ t.fab = Claims.launched s t

theorem Belled.refl (c : Fin 32) (s : State) : Belled c s s := ⟨by rw [cores_set_core], rfl⟩

theorem Belled.trans {c : Fin 32} {s t u : State} (first : Belled c s t) (second : Belled c t u) : Belled c s u := by
  obtain ⟨reach, fab⟩ := first
  obtain ⟨reach', fab'⟩ := second
  refine ⟨?_, launched_trans fab fab'⟩
  generalize u.fab = f, u.core c = k, u.clk.mesh = m at reach'
  generalize t.core c = k', t.clk.mesh = m', t.fab = f' at reach
  rw [reach', reach]
  simp

theorem Carried.belled {c : Fin 32} {s t : State} (carried : Carried c s t) : Belled c s t := by
  obtain ⟨reach, fab, -⟩ := carried
  refine ⟨?_, fab⟩
  have clk : t.clk = s.clk := by rw [reach]
  rw [clk]
  exact reach

section
variable {c : Fin 32} {s t : State} (belled : Belled c s t)
include belled

theorem Belled.module : t.module = s.module := by
  unfold State.module
  rw [belled.2]
  rfl

theorem Belled.pathQueueOf (k : Fin 32) (dest : BitVec 12) : pathQueueOf t k dest = pathQueueOf s k dest := by
  unfold Machine.pathQueueOf
  rw [belled.2]
  rfl

theorem Belled.bellPayload (r : BellReq) : bellPayload t r = bellPayload s r := by
  unfold Machine.bellPayload responseQueueOf
  rw [belled.module, belled.2]
  rfl

theorem Belled.orderedSent {m : BitVec 12} {q n : Nat} {r : BellReq} {f : Fabric} (sent : Claims.OrderedSent t c m q n r f) :
    Claims.OrderedSent s c m q n r f := by
  unfold Claims.OrderedSent at sent ⊢
  rw [belled.bellPayload] at sent
  exact sent

end

/-- What an operation has sent stays where later launches send. -/
theorem orderedSent_kept {s t u : State} {c : Fin 32} {m : BitVec 12} {q n : Nat} {r : BellReq} (sent : Claims.OrderedSent s c m q n r t.fab)
    (kept : KeepsSent t u) : Claims.OrderedSent s c m q n r u.fab := by
  obtain ⟨waits, reads, x, there, fields⟩ := sent
  exact ⟨kept.2 waits, fun read => kept.2 (reads read), x, kept.1 q x there, fields⟩

/-- The state in which the word of an ordered operation has its links on the scheduled plane (R46). -/
def linksClaimed (c : Fin 32) (m : BitVec 12) (s : State) : State :=
  match firstPort s m with
  | some p => if s.running then schedLaunch s.seq.cycle c (portCore p) s else s
  | none => s

theorem linksClaimed_mesh (c : Fin 32) (m : BitVec 12) (s : State) : ∃ x, linksClaimed c m s = { s with clk := { s.clk with mesh := x } } := by
  unfold linksClaimed
  split
  · split <;> exact ⟨_, rfl⟩
  · exact ⟨_, rfl⟩

theorem launchBellFlit_eq (c : Fin 32) (m : BitVec 12) (r : BellReq) (s : State) : launchBellFlit c m r s =
    enqueueFlit (pathQueueOf s c m) (deliveryAt c (firstPort s m) s.seq.cycle s)
      (c1flit s (BitVec.ofNat 5 c.val) m (haSpace r.addr) (haOff r.addr) 4 true
        ((remoteKey s m (haSpace r.addr) (haOff r.addr) 8).getD 0) (bellPayload s r)) (linksClaimed c m s) := rfl

/-- The flit of an ordered operation. -/
theorem launchBellFlit_sent (c : Fin 32) (m : BitVec 12) (r : BellReq) (s : State) {q n : Nat} (queue : q = pathQueueOf s c m)
    (number : n = tget 0 s.fab.seqOut q) : Belled c s (launchBellFlit c m r s) ∧ (launchBellFlit c m r s).core c = s.core c ∧
      (launchBellFlit c m r s).fab.seqOut = tset 0 s.fab.seqOut q (n + 1) ∧
      ∃ x : Flit, Sent q x (launchBellFlit c m r s).fab ∧ x.ikind = 4 ∧ x.dest = m ∧ x.last = true ∧ x.pathSeq = BitVec.ofNat 24 n ∧
        x.space = BitVec.ofNat 4 (haSpace r.addr) ∧ x.offset = BitVec.ofNat 45 (haOff r.addr) ∧ x.payload = bellPayload s r := by
  subst queue number
  obtain ⟨x, claimed⟩ := linksClaimed_mesh c m s
  rw [launchBellFlit_eq, claimed]
  generalize deliveryAt c (firstPort s m) s.seq.cycle s = d
  generalize (remoteKey s m (haSpace r.addr) (haOff r.addr) 8).getD 0 = key
  have launched := enqueueFlit_launched (pathQueueOf s c m) d (c1flit s (BitVec.ofNat 5 c.val) m (haSpace r.addr) (haOff r.addr) 4 true key
    (bellPayload s r)) { s with clk := { s.clk with mesh := x } }
  have sent := enqueueFlit_sent (pathQueueOf s c m) d (c1flit s (BitVec.ofNat 5 c.val) m (haSpace r.addr) (haOff r.addr) 4 true key
    (bellPayload s r)) { s with clk := { s.clk with mesh := x } }
  refine ⟨?_, launched.core c, ?_, _, sent, rfl, rfl, rfl, rfl, rfl, rfl, rfl⟩
  · refine Belled.trans (t := { s with clk := { s.clk with mesh := x } }) ⟨by rw [State.core, vector_set_get], rfl⟩
      (launched.carried c).belled
  · unfold enqueueFlit
    dsimp only
    split <;> rfl

section
variable {c : Fin 32} {r : BellReq} {s : State} (mine : coreOf r.srcCore.toNat = c) (ordered : r.express = false)
include mine ordered

theorem launchBell1_ordered_here (here : haModule r.addr = s.module) :
    launchBell1 r s = s.updCore c fun k => { k with path := k.path ++ [.bell { r with origin := .ordered }] } := by
  unfold launchBell1
  dsimp only
  rw [if_pos here, ordered, mine]
  rfl

/-- An ordered operation on a word of another module. -/
theorem launchBell1_ordered_away (core : r.srcCore = BitVec.ofNat 5 c.val) (away : haModule r.addr ≠ s.module) {q n : Nat}
    (queue : q = pathQueueOf s c (haModule r.addr)) (number : n = tget 0 s.fab.seqOut q) :
    Belled c s (launchBell1 r s) ∧ (launchBell1 r s).core c = s.core c ∧ (launchBell1 r s).fab.seqOut = tset 0 s.fab.seqOut q (n + 1) ∧
      Claims.OrderedSent s c (haModule r.addr) q n r (launchBell1 r s).fab := by
  obtain ⟨belled, same, count, x, sent, fields⟩ := launchBellFlit_sent c (haModule r.addr) r s queue number
  unfold launchBell1
  dsimp only
  rw [if_neg away, ordered, if_neg Bool.false_ne_true, mine]
  generalize launchBellFlit c (haModule r.addr) r s = t at belled same count sent
  have last : lastSeqOf t c (haModule r.addr) = n := by
    unfold lastSeqOf
    rw [belled.pathQueueOf, ← queue, count, tget_tset_new _ _ _ _ (Nat.succ_ne_zero n)]
    rfl
  rw [last, core]
  refine ⟨belled.trans ⟨by rw [State.core, vector_set_get], rfl⟩, same, count, ?_, fun read => ?_, x, sent, fields⟩
  · exact List.mem_append_left _ (List.mem_append_right _ List.mem_cons_self)
  · exact List.mem_append_right _ (by rw [if_pos read]; exact List.mem_cons_self)

end

/-! ## One operation for every module of a group (R234) -/

/-- Operation `r` on the word at `a`. -/
def BellReq.on (r : BellReq) (a : U64) : BellReq := { r with addr := a }

/-- The word of module `m` that stands where `a` stands in its own (R234). -/
def bellWordOn (a : U64) (m : BitVec 12) : U64 := BitVec.ofNat 64 (m.toNat * 2 ^ 52 + bits a 51 0)

theorem haModule_bellWordOn (a : U64) (m : BitVec 12) : haModule (bellWordOn a m) = m := by
  have word : bits a 51 0 < 2 ^ 52 := BitVec.isLt _
  have number : m.toNat < 2 ^ 12 := m.isLt
  apply BitVec.eq_of_toNat_eq
  unfold haModule bellWordOn
  rw [BitVec.extractLsb'_toNat, BitVec.toNat_ofNat, Nat.shiftRight_eq_div_pow]
  omega

theorem on_module {r : BellReq} {at_ : BitVec 12 × BitVec 5 → U64} (names : ∀ m, haModule (at_ m) = m.1) (m : BitVec 12 × BitVec 5) :
    haModule (r.on (at_ m)).addr = m.1 := names m

/-- The launch of `r` on the word that `at_` gives for a module. -/
def launchOn (r : BellReq) (at_ : BitVec 12 × BitVec 5 → U64) (m : BitVec 12 × BitVec 5) (s : State) : State := launchBell1 (r.on (at_ m)) s

theorem launchBell_mcast (r : BellReq) (s : State) :
    launchBell r true s = foldS (launchOn r fun m => bellWordOn r.addr m.1) (tget {} s.groups (bits r.addr 63 56)).modules s := rfl

section
variable {c : Fin 32} {r : BellReq} {s : State} {at_ : BitVec 12 × BitVec 5 → U64} (core : r.srcCore = BitVec.ofNat 5 c.val)
  (names : ∀ m, haModule (at_ m) = m.1) (ordered : r.express = false)
include core names ordered

/-- What the launch of an ordered operation on one module adds. -/
theorem launchOn_ordered {t : State} (before : Belled c s t) (m : BitVec 12 × BitVec 5) : Belled c s (launchOn r at_ m t) ∧
    (launchOn r at_ m t).core c = (t.core c).pathJoined
      (if m.1 == s.module then [.bell { r.on (at_ m) with origin := .ordered }] else []) ∧
    ∀ q, tget 0 (launchOn r at_ m t).fab.seqOut q = tget 0 t.fab.seqOut q +
      if (m.1 != s.module && pathQueueOf s c m.1 == q) = true then 1 else 0 := by
  have mine : coreOf (r.on (at_ m)).srcCore.toNat = c := by
    change coreOf r.srcCore.toNat = c
    rw [core, coreOf_ofNat]
  by_cases here : m.1 = s.module
  · have local_ := launchBell1_ordered_here (s := t) mine ordered (by rw [on_module names, before.module, here])
    unfold launchOn
    rw [local_]
    refine ⟨before.trans (carried_updCore c _ t).belled, ?_, fun q => ?_⟩
    · rw [updCore_core, if_pos rfl, if_pos (beq_iff_eq.2 here)]
      rfl
    · rw [if_neg (by simp [here])]
      rfl
  · obtain ⟨belled, same, count, -⟩ := launchBell1_ordered_away (s := t) mine ordered core
      (by rw [on_module names, before.module]; exact here) rfl rfl
    rw [on_module names, before.pathQueueOf] at count
    refine ⟨before.trans belled, ?_, fun q => ?_⟩
    · rw [if_neg (by simpa using here)]
      exact same.trans (pathJoined_nil _).symm
    · change tget 0 (launchBell1 (r.on (at_ m)) t).fab.seqOut q = _
      rw [count]
      by_cases queue : pathQueueOf s c m.1 = q
      · rw [queue, if_pos (by simpa [queue] using here), tget_tset_new _ _ _ _ (Nat.succ_ne_zero _)]
      · rw [if_neg (by simp [queue]), tget_tset_other _ _ _ _ _ fun same => queue same.symm]
        rfl

/-- What the launches of an ordered operation on a list of modules add. -/
theorem launchOn_ordered_fold (l : List (BitVec 12 × BitVec 5)) {t : State} (before : Belled c s t) : Belled c s (foldS (launchOn r at_) l t) ∧
    (foldS (launchOn r at_) l t).core c = (t.core c).pathJoined
      ((l.filter fun m => m.1 == s.module).map fun m => .bell { r.on (at_ m) with origin := .ordered }) ∧
    ∀ q, tget 0 (foldS (launchOn r at_) l t).fab.seqOut q = tget 0 t.fab.seqOut q +
      (l.filter fun x => x.1 != s.module && pathQueueOf s c x.1 == q).length := by
  induction l generalizing t with
  | nil => exact ⟨before, (pathJoined_nil _).symm, fun q => rfl⟩
  | cons m l ih =>
    obtain ⟨first, path, count⟩ := launchOn_ordered core names ordered before m
    obtain ⟨belled, joined, counts⟩ := ih first
    refine ⟨belled, ?_, fun q => ?_⟩
    · rw [foldS_cons, joined, path, List.filter_cons, pathJoined_pathJoined]
      split <;> rfl
    · rw [foldS_cons, counts, count, List.filter_cons]
      split
      · rw [List.length_cons, Nat.add_assoc, Nat.add_comm 1]
      · rfl

/-- The operation for the module between `before` and `after` leaves under the number that those before it leave to it. -/
theorem launchOn_ordered_sent {t : State} (start : Belled c s t) (before after : List (BitVec 12 × BitVec 5)) (m : BitVec 12 × BitVec 5)
    (away : m.1 ≠ s.module) {q : Nat} (queue : q = pathQueueOf s c m.1) : Claims.OrderedSent s c m.1 q
      (tget 0 t.fab.seqOut q + (before.filter fun x => x.1 != s.module && pathQueueOf s c x.1 == q).length) (r.on (at_ m))
      (foldS (launchOn r at_) (before ++ m :: after) t).fab := by
  obtain ⟨belled, -, count⟩ := launchOn_ordered_fold core names ordered before start
  have mine : coreOf (r.on (at_ m)).srcCore.toNat = c := by
    change coreOf r.srcCore.toNat = c
    rw [core, coreOf_ofNat]
  have kept := foldS_keepsSent (launchOn r at_) (fun _ _ => launchBell1_keepsSent ..) after (launchOn r at_ m (foldS (launchOn r at_) before t))
  obtain ⟨-, -, -, sent⟩ := launchBell1_ordered_away (s := foldS (launchOn r at_) before t) mine ordered core
    (by rw [on_module names, belled.module]; exact away) (q := q) (by rw [on_module names, belled.pathQueueOf, queue]) rfl
  rw [on_module names, count] at sent
  have split : foldS (launchOn r at_) (before ++ m :: after) t = foldS (launchOn r at_) after (launchOn r at_ m (foldS (launchOn r at_) before t)) := by
    unfold foldS
    rw [List.foldl_append]
    rfl
  rw [split]
  exact orderedSent_kept (belled.orderedSent sent) kept

end

end Sys2Proof.Machine

namespace Sys2Proof.Machine

/-! ## Counted adds (R78) -/

/-- Core `k` with express numbers `x` and express path `p`. -/
def Core.expressed (x : Tbl Nat) (p : List BellReq) (k : Core) : Core := { k with expSeqOut := x, expPath := p }

theorem acked_expressed (s : State) (a : Option (BitVec 5)) (n : Nat) (x : Tbl Nat) (p : List BellReq) (k : Core) :
    Claims.acked s a n (k.expressed x p) = (Claims.acked s a n k).expressed x p := by
  unfold Claims.acked
  split
  · rfl
  · split <;> rfl

theorem acked_zero (s : State) (a : Option (BitVec 5)) (k : Core) : Claims.acked s a 0 k = k := by
  unfold Claims.acked
  split
  · rfl
  · rename_i b
    split
    · rw [List.replicate_zero, List.append_nil]
    · have same : k.counters.set b.toNat (k.counters.get b.toFin + BitVec.ofNat 16 0) b.isLt = k.counters := by
        rw [BitVec.add_zero]
        exact vector_set_get k.counters b.toFin
      rw [same]

/-- Adds of 1 on one counter add up. -/
theorem acked_acked (s : State) (a : Option (BitVec 5)) (m n : Nat) (k : Core) :
    Claims.acked s a n (Claims.acked s a m k) = Claims.acked s a (m + n) k := by
  unfold Claims.acked
  split
  · rfl
  · rename_i b
    split
    · dsimp only
      rw [List.append_assoc, List.replicate_append_replicate]
    · have sum : (k.counters.set b.toNat (k.counters.get b.toFin + BitVec.ofNat 16 m) b.isLt).set b.toNat
          ((k.counters.set b.toNat (k.counters.get b.toFin + BitVec.ofNat 16 m) b.isLt).get b.toFin + BitVec.ofNat 16 n) b.isLt =
          k.counters.set b.toNat (k.counters.get b.toFin + BitVec.ofNat 16 (m + n)) b.isLt := by
        have read : (k.counters.set b.toNat (k.counters.get b.toFin + BitVec.ofNat 16 m) b.isLt).get b.toFin =
            k.counters.get b.toFin + BitVec.ofNat 16 m := (vector_get_set k.counters b.toFin b.toFin _).trans (if_pos rfl)
        rw [read, Vector.set_set, BitVec.add_assoc, BitVec.ofNat_add]
      dsimp only
      rw [sum]

/-- The adds of two states with the same clock are the same. -/
theorem acked_of_mid {s t : State} (mid : t.midCycle = s.midCycle) (a : Option (BitVec 5)) (n : Nat) (k : Core) :
    Claims.acked t a n k = Claims.acked s a n k := by
  unfold Claims.acked
  rw [mid]

/-! ## EXPRESS_BELL messages in their queues (R301) -/

theorem c0get_setBits_high (w : C0Msg) (hi lo v : Nat) (high : 8 ≤ lo) : c0get (setBits w hi lo v) 0 1 = c0get w 0 1 := by
  unfold c0get bits
  congr 1
  ext i small
  have low : i < 8 := small
  rw [BitVec.getElem_extractLsb', BitVec.getElem_extractLsb', getLsbD_setBits _ _ _ _ _ (by omega), if_neg (by omega)]

theorem routedMsg_kind (d : BitVec 12) (m : C0Msg) (rseq : U16) (s : State) : c0get (Claims.routedMsg d m rseq s) 0 1 = c0get m 0 1 := by
  unfold Claims.routedMsg
  rw [c0get_setBits_high _ _ _ _ (by decide), c0get_setBits_high _ _ _ _ (by decide), c0get_setBits_high _ _ _ _ (by decide)]

theorem expressOf_kind (s : State) (r : BellReq) (n : Nat) : c0get (Claims.expressOf s r n) 0 1 = kindExpress := by
  have first : c0get (setBits (0 : C0Msg) 7 0 9) 0 1 = kindExpress := by decide
  unfold Claims.expressOf c0msg
  simp only [List.foldl_cons, List.foldl_nil]
  repeat rw [c0get_setBits_high _ _ _ _ (by decide)]
  exact first

/-- Every message that waits at a port in `s` still waits there in `t`. -/
def KeepsMsgs (s t : State) : Prop := ∀ (p : Fin 16) (o : C0Out), o ∈ (s.port p).c0q → o ∈ (t.port p).c0q

theorem KeepsMsgs.refl (s : State) : KeepsMsgs s s := fun _ _ => id

theorem KeepsMsgs.trans {s t u : State} (first : KeepsMsgs s t) (second : KeepsMsgs t u) : KeepsMsgs s u :=
  fun p o mem => second p o (first p o mem)

theorem mem_c0insert (q : List C0Out) (m : C0Msg) (since : U64) :
    (∃ o ∈ c0insert q m since, o.msg = m) ∧ ∀ o ∈ q, o ∈ c0insert q m since := by
  unfold c0insert
  refine ⟨⟨_, List.mem_append_left _ (List.mem_append_right _ List.mem_cons_self), rfl⟩, fun o mem => ?_⟩
  rw [← List.takeWhile_append_dropWhile (p := fun o => decide (c0rank o.msg ≤ c0rank m)) (l := q)] at mem
  obtain before | behind := List.mem_append.1 mem
  · exact List.mem_append_left _ (List.mem_append_left _ before)
  · exact List.mem_append_right _ behind

/-- A message that is no SLIP joins the queue of its port, and merges with none there. -/
theorem c0queue_joins (p : Fin 16) {m : C0Msg} (kind : c0get m 0 1 ≠ kindSlip) (s : State) :
    (∃ o ∈ ((c0queue p m s).port p).c0q, o.msg = m) ∧ ∀ o ∈ (s.port p).c0q, o ∈ ((c0queue p m s).port p).c0q := by
  unfold c0queue
  rw [updPort_port, if_pos rfl]
  dsimp only
  rw [beq_eq_false_iff_ne.2 kind]
  simp only [Bool.false_and, List.any_eq_true, Bool.false_eq_true, and_false, exists_false, if_false]
  exact mem_c0insert ..

theorem c0send_keepsMsgs (d : BitVec 12) {m : C0Msg} (kind : c0get m 0 1 ≠ kindSlip) (s : State) : KeepsMsgs s (c0send d m s) := by
  intro p o mem
  have routed : c0get (Claims.routedMsg d m s.fab.rseq s) 0 1 ≠ kindSlip := by
    rw [routedMsg_kind]
    exact kind
  have port := c0send_port d m s p
  split at port
  · rw [port]
    exact (c0queue_joins p routed s).2 o mem
  · rw [port]
    exact mem

/-- A message waits at each port of its route. -/
theorem c0send_waits (d : BitVec 12) {m : C0Msg} (kind : c0get m 0 1 ≠ kindSlip) (s : State) {p : Fin 16} (route : Claims.RoutePort d s p) :
    ∃ o ∈ ((c0send d m s).port p).c0q, o.msg = Claims.routedMsg d m s.fab.rseq s := by
  have routed : c0get (Claims.routedMsg d m s.fab.rseq s) 0 1 ≠ kindSlip := by
    rw [routedMsg_kind]
    exact kind
  rw [c0send_port, if_pos ((routePort_iff d s p).1 route)]
  exact (c0queue_joins p routed s).1

end Sys2Proof.Machine

namespace Sys2Proof.Machine

/-! ## Express operations that leave (R234, R236, R300) -/

/-- `t` is `s` after express operations of core `c` are launched. -/
def Expressed (c : Fin 32) (s t : State) : Prop := t = { s with
  cores := s.cores.set c (t.core c), fab := { s.fab with rseq := t.fab.rseq, sentAt := t.fab.sentAt, ports := t.fab.ports } }

theorem Expressed.refl (c : Fin 32) (s : State) : Expressed c s s := by
  unfold Expressed
  rw [cores_set_core]

theorem Expressed.trans {c : Fin 32} {s t u : State} (first : Expressed c s t) (second : Expressed c t u) : Expressed c s u := by
  unfold Expressed at first second ⊢
  generalize u.fab.rseq = n, u.fab.sentAt = m, u.fab.ports = v, u.core c = k at second ⊢
  rw [second, first]
  simp

section
variable {c : Fin 32} {s t : State} (expressed : Expressed c s t)
include expressed

theorem Expressed.module : t.module = s.module := by
  unfold State.module
  rw [show t = _ from expressed]

theorem Expressed.midCycle : t.midCycle = s.midCycle := by
  rw [show t = _ from expressed]
  rfl

theorem Expressed.expressOf (r : BellReq) (n : Nat) : Claims.expressOf t r n = Claims.expressOf s r n := by
  unfold Claims.expressOf remoteKey
  rw [show t = _ from expressed]

theorem Expressed.routePort (d : BitVec 12) (p : Fin 16) : Claims.RoutePort d t p ↔ Claims.RoutePort d s p := by
  unfold Claims.RoutePort
  rw [show t = _ from expressed]

end

/-- The state in which core `c` has numbered an express operation on the word at `a` of module `m`, and has not sent it. -/
def State.expressNumbered (c : Fin 32) (m : BitVec 12) (n : Nat) (a : U64) (s : State) : State :=
  { s.updCore c (fun k => { k with expSeqOut := tset 0 k.expSeqOut m.toNat (n + 1) }) with
    fab := { s.fab with sentAt := tset 0 s.fab.sentAt (sentKey c.val m true (n % 256)) (bits a 51 0) } }

/-- The fabric once an express operation of core `c`, its `n`th to its module, is sent. -/
def expressFab (c : Fin 32) (r : BellReq) (n : Nat) (s : State) : Fabric :=
  (c0send (haModule r.addr) (Claims.expressOf s r n) (s.expressNumbered c (haModule r.addr) n r.addr)).fab

section
variable {c : Fin 32} {r : BellReq} {s : State} (core : r.srcCore = BitVec.ofNat 5 c.val) (express : r.express = true)
include core express

theorem launchBell1_express_here (here : haModule r.addr = s.module) : launchBell1 r s =
    s.updCore c fun k => k.expressed k.expSeqOut (k.expPath ++ [{ r with origin := .express }]) := by
  unfold launchBell1
  dsimp only
  rw [if_pos here, express, core, coreOf_ofNat]
  rfl

/-- An express operation on a word of another module: its message leaves, and its ACK counts at once. -/
theorem launchBell1_express_away (away : haModule r.addr ≠ s.module) {n : Nat}
    (number : n = tget 0 (s.core c).expSeqOut (haModule r.addr).toNat) : launchBell1 r s =
      State.updCore { s with fab := expressFab c r n s } c fun _ => Claims.acked s r.ack 1
        ((s.core c).expressed (tset 0 (s.core c).expSeqOut (haModule r.addr).toNat (n + 1)) (s.core c).expPath) := by
  subst number
  have acks := ackAdd_acked { s with fab := expressFab c r (tget 0 (s.core c).expSeqOut (haModule r.addr).toNat) s } c
    ((s.core c).expressed (tset 0 (s.core c).expSeqOut (haModule r.addr).toNat (tget 0 (s.core c).expSeqOut (haModule r.addr).toNat + 1))
      (s.core c).expPath) r.ack
  rw [acked_of_mid (s := s) (t := { s with fab := expressFab c r (tget 0 (s.core c).expSeqOut (haModule r.addr).toNat) s }) rfl] at acks
  rw [← acks]
  unfold launchBell1
  dsimp only
  rw [if_neg away, express, if_pos rfl, core, coreOf_ofNat]
  refine congrArg (ackAdd _ r.ack) ?_
  exact c0send_frame ..

end

theorem expressFab_eq (c : Fin 32) (r : BellReq) (n : Nat) (s : State) :
    ∃ x y, expressFab c r n s = { s.fab with sentAt := x, rseq := s.fab.rseq + 1, ports := y } := by
  obtain ⟨x, sent⟩ := c0send_eq (haModule r.addr) (Claims.expressOf s r n) (s.expressNumbered c (haModule r.addr) n r.addr)
  unfold expressFab
  rw [sent]
  exact ⟨_, x, rfl⟩

theorem expressOf_noSlip (s : State) (r : BellReq) (n : Nat) : c0get (Claims.expressOf s r n) 0 1 ≠ kindSlip := by
  rw [expressOf_kind]
  decide

/-- The message of an express operation joins those that wait. -/
theorem expressFab_keepsMsgs (c : Fin 32) (r : BellReq) (n : Nat) (s : State) : KeepsMsgs s { s with fab := expressFab c r n s } :=
  fun p o mem => c0send_keepsMsgs (haModule r.addr) (expressOf_noSlip s r n) (s.expressNumbered c (haModule r.addr) n r.addr) p o mem

theorem expressFab_waits (c : Fin 32) (r : BellReq) (n : Nat) (s : State) {p : Fin 16} (route : Claims.RoutePort (haModule r.addr) s p) :
    ∃ o ∈ ((expressFab c r n s).ports.get p).c0q, o.msg = Claims.routedMsg (haModule r.addr) (Claims.expressOf s r n) s.fab.rseq s :=
  c0send_waits (haModule r.addr) (expressOf_noSlip s r n) (s.expressNumbered c (haModule r.addr) n r.addr) route

/-- Only core `c` and what express operations change may differ. -/
theorem expressed_updCore {c : Fin 32} {s : State} {f : Fabric} {x : Tbl Nat} {n : U16} {y : Vector FabPort 16}
    (fab : f = { s.fab with sentAt := x, rseq := n, ports := y }) (g : Core → Core) : Expressed c s (State.updCore { s with fab := f } c g) := by
  subst fab
  unfold Expressed
  rw [updCore_core, if_pos rfl]
  rfl

/-- How many modules of a list are not this one. -/
def State.others (s : State) (l : List (BitVec 12 × BitVec 5)) : Nat := (l.filter fun m => m.1 != s.module).length

/-- The operations of a list of modules that stay on this one. -/
def State.expressHere (s : State) (r : BellReq) (at_ : BitVec 12 × BitVec 5 → U64) (l : List (BitVec 12 × BitVec 5)) : List BellReq :=
  (l.filter fun m => m.1 == s.module).map fun m => { r.on (at_ m) with origin := .express }

theorem others_append (s : State) (l l' : List (BitVec 12 × BitVec 5)) : s.others (l ++ l') = s.others l + s.others l' := by
  unfold State.others
  rw [List.filter_append, List.length_append]

theorem expressHere_append (s : State) (r : BellReq) (at_ : BitVec 12 × BitVec 5 → U64) (l l' : List (BitVec 12 × BitVec 5)) :
    s.expressHere r at_ (l ++ l') = s.expressHere r at_ l ++ s.expressHere r at_ l' := by
  unfold State.expressHere
  rw [List.filter_append, List.map_append]

/-- What launches of express operations on the modules of a list `l` leave of `t`, in a module that numbers as `s` does. -/
structure ExpressLaunched (c : Fin 32) (s : State) (r : BellReq) (at_ : BitVec 12 × BitVec 5 → U64) (l : List (BitVec 12 × BitVec 5))
    (t u : State) : Prop where
  frame : Expressed c s u
  rseq : u.fab.rseq = t.fab.rseq + BitVec.ofNat 16 (s.others l)
  core : ∃ x, u.core c = (Claims.acked s r.ack (s.others l) (t.core c)).expressed x ((t.core c).expPath ++ s.expressHere r at_ l) ∧
    ∀ m, m ≠ s.module → tget 0 x m.toNat = tget 0 (t.core c).expSeqOut m.toNat + (l.filter fun x => x.1 == m).length
  kept : KeepsMsgs t u

section
variable {c : Fin 32} {r : BellReq} {s : State} {at_ : BitVec 12 × BitVec 5 → U64} {l : List (BitVec 12 × BitVec 5)}

theorem ExpressLaunched.nil {t : State} (before : Expressed c s t) : ExpressLaunched c s r at_ [] t t := by
  have none : s.others [] = 0 := rfl
  have stays : s.expressHere r at_ [] = [] := rfl
  refine ⟨before, ?_, ⟨(t.core c).expSeqOut, ?_, fun m _ => rfl⟩, .refl t⟩
  · rw [none, BitVec.add_zero]
  · rw [none, stays, acked_zero, List.append_nil]
    rfl

theorem ExpressLaunched.append {l' : List (BitVec 12 × BitVec 5)} {t u v : State} (first : ExpressLaunched c s r at_ l t u)
    (second : ExpressLaunched c s r at_ l' u v) : ExpressLaunched c s r at_ (l ++ l') t v := by
  obtain ⟨-, rseq, ⟨x, core, numbers⟩, kept⟩ := first
  obtain ⟨frame, rseq', ⟨x', core', numbers'⟩, kept'⟩ := second
  refine ⟨frame, ?_, ⟨x', ?_, fun m away => ?_⟩, kept.trans kept'⟩
  · rw [rseq', rseq, others_append, BitVec.ofNat_add, BitVec.add_assoc]
  · rw [core', core, acked_expressed, acked_acked, others_append, expressHere_append, ← List.append_assoc]
    rfl
  · rw [numbers' m away, core, List.filter_append, List.length_append, ← Nat.add_assoc]
    exact congrArg (· + _) (numbers m away)

variable (core : r.srcCore = BitVec.ofNat 5 c.val) (names : ∀ m, haModule (at_ m) = m.1) (express : r.express = true)
include core names express

theorem launchOn_express {t : State} (before : Expressed c s t) (m : BitVec 12 × BitVec 5) :
    ExpressLaunched c s r at_ [m] t (launchOn r at_ m t) := by
  by_cases here : m.1 = s.module
  · have joins := launchBell1_express_here (r := r.on (at_ m)) (s := t) core express (by rw [on_module names, before.module, here])
    have none : s.others [m] = 0 := by
      unfold State.others
      rw [List.filter_cons_of_neg (by simp [here])]
      rfl
    have stays : s.expressHere r at_ [m] = [{ r.on (at_ m) with origin := .express }] := by
      unfold State.expressHere
      rw [List.filter_cons_of_pos (p := fun m : BitVec 12 × BitVec 5 => m.1 == s.module) (beq_iff_eq.2 here)]
      rfl
    unfold launchOn
    rw [joins]
    refine ⟨before.trans (expressed_updCore (f := t.fab) rfl _), ?_, ⟨(t.core c).expSeqOut, ?_, fun m' away => ?_⟩, .refl t⟩
    · rw [none, BitVec.add_zero]
      rfl
    · rw [none, stays, acked_zero, updCore_core, if_pos rfl]
    · rw [List.filter_cons_of_neg (by rw [here]; simpa using away.symm)]
      rfl
  · have sends := launchBell1_express_away (r := r.on (at_ m)) (s := t) core express
      (by rw [on_module names, before.module]; exact here) rfl
    have one : s.others [m] = 1 := by
      unfold State.others
      rw [List.filter_cons_of_pos (by simpa using here)]
      rfl
    have leaves : s.expressHere r at_ [m] = [] := by
      unfold State.expressHere
      rw [List.filter_cons_of_neg (by simpa using here)]
      rfl
    rw [on_module names, acked_of_mid before.midCycle, acked_expressed] at sends
    obtain ⟨x, y, fab⟩ := expressFab_eq c (r.on (at_ m)) (tget 0 (t.core c).expSeqOut m.1.toNat) t
    have kept := expressFab_keepsMsgs c (r.on (at_ m)) (tget 0 (t.core c).expSeqOut m.1.toNat) t
    generalize expressFab c _ _ t = f at sends fab kept
    unfold launchOn
    rw [sends]
    refine ⟨before.trans (expressed_updCore fab _), ?_,
      ⟨tset 0 (t.core c).expSeqOut m.1.toNat (tget 0 (t.core c).expSeqOut m.1.toNat + 1), ?_, fun m' away => ?_⟩, kept⟩
    · rw [one, fab]
      rfl
    · rw [one, leaves, List.append_nil, updCore_core, if_pos rfl]
      rfl
    · by_cases same : m.1 = m'
      · rw [List.filter_cons_of_pos (p := fun x : BitVec 12 × BitVec 5 => x.1 == m') (beq_iff_eq.2 same), same, tget_tset_new _ _ _ _ (Nat.succ_ne_zero _)]
        rfl
      · rw [List.filter_cons_of_neg (by simpa using same), tget_tset_other _ _ _ _ _ fun eq => same (BitVec.eq_of_toNat_eq eq.symm)]
        rfl

theorem launchOn_express_fold (l : List (BitVec 12 × BitVec 5)) {t : State} (before : Expressed c s t) :
    ExpressLaunched c s r at_ l t (foldS (launchOn r at_) l t) := by
  induction l generalizing t with
  | nil => exact .nil before
  | cons m l ih =>
    have first := launchOn_express core names express before m
    exact first.append (ih first.frame)

/-- The message for the module between `before` and `after` leaves under the numbers that those before it leave to it. -/
theorem launchOn_express_sent {t : State} (start : Expressed c s t) (before after : List (BitVec 12 × BitVec 5)) (m : BitVec 12 × BitVec 5)
    (away : m.1 ≠ s.module) {p : Fin 16} (route : Claims.RoutePort m.1 s p) :
    ∃ o ∈ ((foldS (launchOn r at_) (before ++ m :: after) t).port p).c0q, o.msg = Claims.routedMsg m.1 (Claims.expressOf s (r.on (at_ m))
      (tget 0 (t.core c).expSeqOut m.1.toNat + (before.filter fun x => x.1 == m.1).length)) (t.fab.rseq + BitVec.ofNat 16 (s.others before)) s := by
  have first := launchOn_express_fold core names express before start
  have next := launchOn_express core names express first.frame m
  have rest := launchOn_express_fold core names express after next.frame
  have split : foldS (launchOn r at_) (before ++ m :: after) t =
      foldS (launchOn r at_) after (launchOn r at_ m (foldS (launchOn r at_) before t)) := by
    unfold foldS
    rw [List.foldl_append]
    rfl
  rw [split]
  generalize foldS (launchOn r at_) before t = v at first rest
  obtain ⟨frame, rseq, ⟨x, own, numbers⟩, -⟩ := first
  have sends := launchBell1_express_away (r := r.on (at_ m)) (s := v) core express (by rw [on_module names, frame.module]; exact away) rfl
  have number : tget 0 (v.core c).expSeqOut m.1.toNat = tget 0 (t.core c).expSeqOut m.1.toNat + (before.filter fun x => x.1 == m.1).length := by
    rw [own]
    exact numbers m.1 away
  obtain ⟨o, mem, msg⟩ := expressFab_waits c (r.on (at_ m)) (tget 0 (v.core c).expSeqOut m.1.toNat) v
    (by rw [on_module names]; exact (frame.routePort m.1 p).2 route)
  rw [on_module names] at sends msg
  refine ⟨o, rest.kept p o ?_, ?_⟩
  · unfold launchOn
    rw [sends]
    exact mem
  · rw [msg, frame.expressOf, number, rseq]
    unfold Claims.routedMsg
    rw [frame.module]

end

end Sys2Proof.Machine

namespace Sys2Proof.Machine

/-! ## The bell unit's commands (R233 to R241) -/

/-- The compare of BELL_TEST by its code (Table 6.3). -/
theorem bellCmp_eq (code : Nat) (a b : U64) : bellCmp code a b =
    [decide (a.toNat = b.toNat), decide (a.toNat ≠ b.toNat), decide (a.toNat < b.toNat), decide (a.toNat ≤ b.toNat), decide (b.toNat < a.toNat),
      decide (b.toNat ≤ a.toNat)].getD code false := by
  have same : decide (a = b) = decide (a.toNat = b.toNat) := decide_eq_decide.2 BitVec.toNat_inj.symm
  have other : decide (a ≠ b) = decide (a.toNat ≠ b.toNat) := decide_eq_decide.2 (not_congr BitVec.toNat_inj.symm)
  match code with
  | 0 => exact same
  | 1 => exact other
  | 2 | 3 | 4 | 5 => rfl
  | _ + 6 => rfl

theorem effBellTest_eq (c : Fin 32) (e : LookEntry) (s : State) {a : U64} (words : opA e.words = a) :
    effBellTest c e s = s.updCore c fun _ => { s.core c with
      preds := setBit (s.core c).preds (bits a 19 16)
        (bellCmp (bits a 10 8) (tget {} (s.core c).buoys0 (bits a 5 0)).copy (e.words.w1.extractLsb' 0 64))
      predLate := setBit (s.core c).predLate (bits a 19 16) true } := by
  have small : bits a 19 16 < 16 := BitVec.isLt _
  unfold effBellTest writePred
  dsimp only
  rw [words, Nat.mod_eq_of_lt small]
  rfl

section
variable {s : State} {c : Fin 32} {w : CmdWords} {e : LookEntry} {rest : List LookEntry} {addr : U64} {express mcast : Bool} {desc : BitVec 128}

/-- BELL_OP launches the operation that its words and its descriptor give. -/
theorem effBellOp_eq (ready : Claims.Ready 0x60 s c w e rest) (read : desc = tget 0 (s.core c).bellDescs (bits (opA w) 47 40))
    (word : addr = (if (opA w).getLsbD 59 then bdAddr desc else e.words.w1.extractLsb' 0 64))
    (fast : express = (if (opA w).getLsbD 59 then bdExpress desc else (opA w).getLsbD 61))
    (many : mcast = (if (opA w).getLsbD 59 then bdMcast desc else (opA w).getLsbD 60)) :
    effBellOp c e s = launchBell (Claims.opReq s c w e addr express) mcast s := by
  subst read word fast many
  unfold effBellOp bellOpReq
  rw [opA_of_ready ready]
  rfl

theorem opReq_mine : coreOf (Claims.opReq s c w e addr express).srcCore.toNat = c := coreOf_ofNat c

theorem bellOp_here (ready : Claims.Ready 0x60 s c w e rest) (eff : effBellOp c e s = launchBell (Claims.opReq s c w e addr express) false s)
    (here : haModule addr = s.module) : Claims.IssuesTo (.bellOp c w) s c e rest fun t => Claims.Signalled t c (sigsOf w) { s.core c with
      path := if express then (s.core c).path else (s.core c).path ++ [.bell (Claims.opReq s c w e addr false)]
      expPath := if express then (s.core c).expPath ++ [{ Claims.opReq s c w e addr true with origin := .express }] else (s.core c).expPath } := by
  refine issuesTo_of_core ready rfl _ (eff.trans ?_) rfl rfl
  cases express with
  | false => exact launchBell1_ordered_here opReq_mine rfl here
  | true => exact launchBell1_express_here rfl rfl here

theorem bellOp_express_away (ready : Claims.Ready 0x60 s c w e rest)
    (eff : effBellOp c e s = launchBell (Claims.opReq s c w e addr true) false s) (away : haModule addr ≠ s.module) {n : Nat}
    (number : n = tget 0 (s.core c).expSeqOut (haModule addr).toNat) : Claims.IssuesSending
      (Claims.Routed (haModule addr) (Claims.expressOf s (Claims.opReq s c w e addr true) n) { s with fab := { s.fab with
        sentAt := tset 0 s.fab.sentAt (sentKey c.val (haModule addr) true (n % 256)) (bits addr 51 0) } })
      (.bellOp c w) s c e rest fun t => Claims.Signalled t c (sigsOf w) (Claims.acked s (Claims.opReq s c w e addr true).ack 1
        { s.core c with expSeqOut := tset 0 (s.core c).expSeqOut (haModule addr).toNat (n + 1) }) := by
  have sends := launchBell1_express_away (r := Claims.opReq s c w e addr true) (c := c) rfl rfl away number
  have routed := c0send_routed (haModule addr) (Claims.expressOf s (Claims.opReq s c w e addr true) n)
    (s := { s with fab := { s.fab with sentAt := tset 0 s.fab.sentAt (sentKey c.val (haModule addr) true (n % 256)) (bits addr 51 0) } })
    (u := s.expressNumbered c (haModule addr) n addr) rfl rfl
  obtain ⟨t, runs, reach, core, quiet⟩ := issuesSending_of_fired (i := .bellOp c w) (name := "BELL_OP") ready rfl _ _
    (congrArg (fireSignals c e.idx (sigsOf e.words)) (eff.trans sends)) (by rw [acked_frame]; rfl) (by rw [acked_frame]; rfl)
  exact ⟨t, runs, reach, core, fun silent => ⟨(quiet silent).1, (quiet silent).2 ▸ routed⟩⟩

/-- What the launch `u` of ordered operations leaves, once their command's slot is taken. -/
theorem bellOp_ordered (ready : Claims.Ready 0x60 s c w e rest) (silent : Claims.rings (sigsOf w) = false) {u : State}
    (eff : effBellOp c e s = u) (belled : Belled c s u) {l : List PathItem} (core : u.core c = (s.core c).pathJoined l) :
    ∃ t : State, exec (.bellOp c w) s = .next t ∧ t = { s with
      cores := s.cores.set c (t.core c), clk := { s.clk with mesh := t.clk.mesh }
      fab := { s.fab with
        sentAt := t.fab.sentAt, seqOut := t.fab.seqOut, onMesh := t.fab.onMesh, queues := t.fab.queues, awaiting := t.fab.awaiting } } ∧
      t.core c = Claims.Issued t c e rest (Claims.Signalled t c (sigsOf w) ((s.core c).pathJoined l)) ∧ t.fab = u.fab := by
  obtain ⟨t, runs, reach, own⟩ := silent_of_ready (i := .bellOp c w) (name := "BELL_OP") ready rfl silent
    (by rw [eff, core]; rfl) (by rw [eff, core]; rfl)
  rw [eff] at reach own
  rw [core] at own
  have fab : t.fab = u.fab := by rw [reach]; rfl
  have left : Belled c s t := by
    rw [reach]
    exact belled.trans (carried_updCore c _ u).belled
  obtain ⟨frame, launched⟩ := left
  refine ⟨t, runs, ?_, own, fab⟩
  unfold Claims.launched at launched
  rw [← launched]
  exact frame

variable {mods : List (BitVec 12 × BitVec 5)} {at_ : BitVec 12 × BitVec 5 → U64}

/-- With MCAST the command launches one operation for every module of the group. -/
theorem launchBell_group (modules : mods = (tget {} s.groups (bits addr 63 56)).modules)
    (words : at_ = fun m => BitVec.ofNat 64 (m.1.toNat * 2 ^ 52 + bits addr 51 0)) :
    launchBell (Claims.opReq s c w e addr express) true s = foldS (launchOn (Claims.opReq s c w e addr express) at_) mods s ∧
      ∀ m, haModule (at_ m) = m.1 := by
  subst modules words
  exact ⟨launchBell_mcast .., fun m => haModule_bellWordOn addr m.1⟩

/-- What the launch of express operations for the modules of a group leaves, once their command's slot is taken. -/
theorem bellOp_express (ready : Claims.Ready 0x60 s c w e rest) (silent : Claims.rings (sigsOf w) = false) {u : State}
    (eff : effBellOp c e s = u) (launched : ExpressLaunched c s (Claims.opReq s c w e addr true) at_ mods s u) :
    ∃ t : State, exec (.bellOp c w) s = .next t ∧ t = { s with
      cores := s.cores.set c (t.core c)
      fab := { s.fab with rseq := s.fab.rseq + BitVec.ofNat 16 (s.others mods), sentAt := t.fab.sentAt, ports := t.fab.ports } } ∧
      t.core c = Claims.Issued t c e rest (Claims.Signalled t c (sigsOf w)
        (Claims.acked s (Claims.opReq s c w e addr true).ack (s.others mods) ((s.core c).expressed (t.core c).expSeqOut
          ((s.core c).expPath ++ s.expressHere (Claims.opReq s c w e addr true) at_ mods)))) ∧ t.fab = u.fab := by
  obtain ⟨frame, rseq, ⟨x, core, -⟩, -⟩ := launched
  rw [← acked_expressed] at core
  obtain ⟨t, runs, reach, own⟩ := silent_of_ready (i := .bellOp c w) (name := "BELL_OP") ready rfl silent
    (by rw [eff, core, acked_frame]; rfl) (by rw [eff, core, acked_frame]; rfl)
  rw [eff] at reach own
  rw [core] at own
  have fab : t.fab = u.fab := by rw [reach]; rfl
  have numbers : (t.core c).expSeqOut = x := by
    rw [own, acked_frame]
    exact if_neg (by rw [silent]; decide)
  have left : Expressed c s t := by
    rw [reach]
    exact frame.trans (expressed_updCore (s := u) (f := u.fab) rfl _)
  refine ⟨t, runs, ?_, ?_, fab⟩
  · rw [← rseq, ← fab]
    exact left
  · rw [numbers]
    exact own

end

/-- Settles O32: an operation of this module joins a path of its core; what leaves for other modules is `launchOn_ordered_sent` and
`launchOn_express_sent`, with the numbers that the operations before it leave to it. -/
theorem bellCommands : Obligations.BellCommands := by
  refine fun s c w e rest => ⟨fun addr express mcast desc read word fast many ready => ?op, fun ready => ?arm, fun ready armed => ?disarm,
    fun ready => ?test⟩
  case op =>
    have eff := effBellOp_eq ready read word fast many
    clear read word fast many
    refine ⟨fun single here => ?here, fun single away quick n number => ?express, fun single away slow silent => ?ordered,
      fun group silent mods modules at_ words => ?group⟩
    case here =>
      subst single
      exact bellOp_here ready eff here
    case express =>
      subst single quick
      exact bellOp_express_away ready eff away number
    case ordered =>
      subst single slow
      obtain ⟨belled, same, count, sent⟩ := launchBell1_ordered_away (r := Claims.opReq s c w e addr false) opReq_mine rfl rfl away rfl rfl
      obtain ⟨t, runs, frame, core, fab⟩ := bellOp_ordered (u := launchBell1 (Claims.opReq s c w e addr false) s) (l := []) ready silent eff belled (same.trans (pathJoined_nil _).symm)
      rw [pathJoined_nil] at core
      rw [← fab] at count sent
      refine ⟨t, runs, frame, core, ?_⟩
      rintro q rfl
      exact ⟨count, sent⟩
    case group =>
      subst group
      obtain ⟨launch, names⟩ := launchBell_group (w := w) (c := c) (e := e) (express := express) modules words
      rw [launch] at eff
      clear modules words
      refine ⟨fun slow => ?_, fun quick => ?_⟩
      · subst slow
        obtain ⟨belled, joined, -⟩ := launchOn_ordered_fold (r := Claims.opReq s c w e addr false) rfl names rfl mods (Belled.refl c s)
        obtain ⟨t, runs, frame, core, fab⟩ := bellOp_ordered ready silent eff belled joined
        refine ⟨t, runs, frame, core, ?_⟩
        rintro before after m rfl away q queue
        rw [fab]
        exact launchOn_ordered_sent (r := Claims.opReq s c w e addr false) rfl names rfl (Belled.refl c s) before after m away queue
      · subst quick
        have launched := launchOn_express_fold (r := Claims.opReq s c w e addr true) rfl names rfl mods (Expressed.refl c s)
        obtain ⟨t, runs, frame, core, fab⟩ := bellOp_express ready silent eff launched
        refine ⟨t, runs, frame, core, ?_⟩
        rintro before after m rfl away p route
        rw [fab]
        exact launchOn_express_sent (r := Claims.opReq s c w e addr true) rfl names rfl (Expressed.refl c s) before after m away route
  case arm =>
    refine issuesTo_of_core ready rfl _ ?_ rfl rfl
    rw [← opA_of_ready ready]
    rfl
  case disarm =>
    refine issuesTo_of_core ready rfl _ ?_ rfl rfl
    unfold effBuoyDisarm Core.updBuoy
    rw [opA_of_ready ready, updCore_const]
    dsimp only
    rw [if_pos armed]
  case test =>
    refine issuesTo_of_core ready rfl _ ?_ rfl rfl
    rw [effBellTest_eq c e s (opA_of_ready ready), bellCmp_eq]

end Sys2Proof.Machine

/-!
PROOFS. Memory stacks (10_memory_stacks.md): tides and temperatures, row sparing, and the queues of the stack controllers.
-/
namespace Sys2Proof.Machine

/-! ## Tides (R271, R272) -/

theorem updStack_updStack (s : State) (i : Fin 16) (f g : StackCtl → StackCtl) :
    (s.updStack i f).updStack i g = s.updStack i fun c => g (f c) := by
  simp [State.updStack, State.stack]

theorem tideStart_due {s : State} {i : Fin 16} (runs : s.stackRuns i = true) (due : s.now % 3904 = 244 * i.val) :
    exec (.tideStart i) s = .next (Claims.withStack s i (Claims.inTide s { s.stack i with
      doubling := ((s.stack i).doubling || (s.stack i).doubleNext) && !(s.stack i).singleNext, doubleNext := false, singleNext := false })) := by
  change execTideStart i s = _
  unfold execTideStart startTide
  rw [if_pos ⟨runs, due⟩, updStack_updStack]
  rfl

theorem tideStart_idle {s : State} {i : Fin 16} (idle : s.stackRuns i = false ∨ s.now % 3904 ≠ 244 * i.val) :
    exec (.tideStart i) s = .next s := by
  change execTideStart i s = _
  unfold execTideStart
  rw [if_neg fun ⟨runs, due⟩ => idle.elim (fun stopped => Bool.false_ne_true (stopped.symm.trans runs)) fun early => early due]

theorem doublingTideStart_due {s : State} {i : Fin 16} (runs : s.stackRuns i = true) (doubled : (s.stack i).doubling = true)
    (due : s.now % 3904 = (244 * i.val + 1952) % 3904) :
    exec (.doublingTideStart i) s =
      .next (Claims.withStack s i (Claims.inTide s { s.stack i with tideDouble := (s.stack i).tideDouble + 1 })) := by
  change execDoublingTideStart i s = _
  unfold execDoublingTideStart startTide
  rw [if_pos ⟨runs, doubled, due⟩, updStack_updStack]
  rfl

theorem doublingTideStart_single {s : State} {i : Fin 16} (single : (s.stack i).doubling = false) :
    exec (.doublingTideStart i) s = .next s := by
  change execDoublingTideStart i s = _
  unfold execDoublingTideStart
  rw [if_neg fun ⟨_, doubled, _⟩ => Bool.false_ne_true (single.symm.trans doubled)]

theorem tideEnd_due {s : State} {i : Fin 16} {u : U64} (tide : (s.stack i).tideUntil = some u) (passed : u.toNat ≤ s.now) :
    exec (.tideEnd i) s = .next (Claims.withStack s i { s.stack i with tideUntil := none }) := by
  change execTideEnd i s = _
  unfold execTideEnd
  rw [tide]
  exact congrArg _ (if_pos passed)

theorem tideEnd_early {s : State} {i : Fin 16} {u : U64} (tide : (s.stack i).tideUntil = some u) (early : s.now < u.toNat) :
    exec (.tideEnd i) s = .next s := by
  change execTideEnd i s = _
  unfold execTideEnd
  rw [tide]
  exact congrArg _ (if_neg (Nat.not_le.2 early))

/-! ## Heat triggers (R54, R273) -/

/-- The state in which a heat trigger is noted whose step down is to be decided. -/
def State.heated (s : State) : State :=
  { s with clk := { s.clk with lastTrigger := s.time.hallTime, lastHeat := some s.time.hallTime } }

theorem heatTrigger_due {s : State} (due : ∀ u, s.clk.lastHeat = some u → u.toNat + 100000 ≤ s.now) :
    heatTrigger s = stepDown .down 2 s.heated := by
  have now : (match (noteTrigger s).clk.lastHeat with
      | some t => decide (t.toNat + 100000 ≤ (noteTrigger s).now) | none => true) = true := by
    change (match s.clk.lastHeat with | some t => decide (t.toNat + 100000 ≤ s.now) | none => true) = true
    cases last : s.clk.lastHeat with
    | none => rfl
    | some u => exact decide_eq_true (due u last)
  exact if_pos now

theorem heatTrigger_spaced {s : State} {u : U64} (last : s.clk.lastHeat = some u) (soon : s.now < u.toNat + 100000) :
    heatTrigger s = noteTrigger s := by
  have early : ¬ (match (noteTrigger s).clk.lastHeat with
      | some t => decide (t.toNat + 100000 ≤ (noteTrigger s).now) | none => true) = true := by
    change ¬ (match s.clk.lastHeat with | some t => decide (t.toNat + 100000 ≤ s.now) | none => true) = true
    rw [last]
    exact fun due => absurd (of_decide_eq_true due) (Nat.not_le.2 soon)
  exact if_neg early

/-- A heat trigger restarts R55's time; of the rest of the clock it reaches at most the decision for a step down. -/
theorem heatTrigger_frame (s : State) : ∃ (l : List FreqStep) (n : U16) (h : Option U64),
    heatTrigger s = { s with clk := { s.clk with lastTrigger := s.time.hallTime, steps := l, stepsDown := n, lastHeat := h } } := by
  by_cases due : ∀ u, s.clk.lastHeat = some u → u.toNat + 100000 ≤ s.now
  · obtain ⟨l, n, decided⟩ := stepDown_frame .down 2 s.heated
    exact ⟨l, n, some s.time.hallTime, (heatTrigger_due due).trans decided⟩
  · push Not at due
    obtain ⟨u, last, soon⟩ := due
    exact ⟨s.clk.steps, s.clk.stepsDown, s.clk.lastHeat, heatTrigger_spaced last soon⟩

/-- A step down that nothing precedes is decided above the floor. -/
theorem stepDown_first {s : State} (idle : s.clk.steps = []) (above : 1000 < s.clk.freq.toNat) (limit : BitVec 4) :
    stepDown .down limit s = { s with clk := { s.clk with
      steps := [⟨.down, limit, if s.running then some (s.seq.cycle + 8) else none⟩], stepsDown := satInc s.clk.stepsDown } } := by
  have lower : max 1000 (s.clk.freq.toNat - 25) < s.clk.freq.toNat := by omega
  unfold stepDown
  dsimp only
  rw [idle]
  exact if_pos lower

theorem heatTrigger_first {s : State} (cool : s.clk.lastHeat = none) (idle : s.clk.steps = []) (above : 1000 < s.clk.freq.toNat) :
    heatTrigger s = { s with clk := { s.clk with
      lastTrigger := s.time.hallTime, lastHeat := some s.time.hallTime, stepsDown := satInc s.clk.stepsDown
      steps := [⟨.down, 2, if s.running then some (s.seq.cycle + 8) else none⟩] } } :=
  (heatTrigger_due fun _ last => nomatch cool.symm.trans last).trans (stepDown_first (s := s.heated) idle above 2)

/-! ## Stack temperatures (R272, R273) -/

/-- The highest of a stack's four sensors. -/
def hottestOf (temps : U32) : Nat := max (max (bits temps 7 0) (bits temps 15 8)) (max (bits temps 23 16) (bits temps 31 24))

/-- Controller `c` after a reading of `m`, under the limits of STACK_THERMAL_CFG. -/
def StackCtl.warmed (limits : U32) (m : Nat) (c : StackCtl) : StackCtl :=
  { c with
    temp := BitVec.ofNat 8 m, hot := decide (bits limits 23 16 ≤ m)
    doubleNext := if bits limits 15 8 ≤ m then !c.doubling else if m < bits limits 7 0 then false else c.doubleNext
    singleNext := if bits limits 15 8 ≤ m then false else if m < bits limits 7 0 then c.doubling else c.singleNext }

theorem foldl_hottest (temps : U32) :
    (List.range 4).foldl (fun m i => max m (bits temps (8 * i + 7) (8 * i))) 0 = hottestOf temps := by
  change max (max (max (max 0 (bits temps 7 0)) (bits temps 15 8)) (bits temps 23 16)) (bits temps 31 24) = _
  rw [Nat.zero_max, max_assoc]
  rfl

theorem readStackTemp_eq (i : Fin 16) (temps : U32) (s : State) : readStackTemp i temps s =
    if bits s.stackThermal 23 16 ≤ hottestOf temps then heatTrigger (s.updStack i (StackCtl.warmed s.stackThermal (hottestOf temps)))
    else s.updStack i (StackCtl.warmed s.stackThermal (hottestOf temps)) := by
  have warmed (c : StackCtl) : (let c := { c with temp := BitVec.ofNat 8 (hottestOf temps), hot := decide (bits s.stackThermal 23 16 ≤ hottestOf temps) }
      if bits s.stackThermal 15 8 ≤ hottestOf temps then { c with doubleNext := !c.doubling, singleNext := false }
      else if hottestOf temps < bits s.stackThermal 7 0 then { c with doubleNext := false, singleNext := c.doubling }
      else c) = c.warmed s.stackThermal (hottestOf temps) := by
    unfold StackCtl.warmed
    split_ifs <;> rfl
  unfold readStackTemp
  dsimp only at warmed ⊢
  simp only [foldl_hottest, warmed, decide_eq_true_eq]

theorem stackTempReading_early {s : State} {temps : U32} (i : Fin 16) (early : s.pwr.mainOn = false ∨ s.now % 1000 ≠ 0) :
    exec (.stackTempReading i temps) s = .next (Claims.withStack s i { s.stack i with sensors := temps }) := by
  change execStackTempReading i temps s = _
  unfold execStackTempReading
  exact congrArg _ (if_neg fun ⟨on, due⟩ => early.elim (fun off => Bool.false_ne_true (off.symm.trans on)) fun other => other due)

theorem stackTempReading_due {s : State} {temps : U32} (i : Fin 16) (on : s.pwr.mainOn = true) (due : s.now % 1000 = 0) :
    exec (.stackTempReading i temps) s = .next (
      let t := Claims.withStack s i (StackCtl.warmed s.stackThermal (hottestOf temps) { s.stack i with sensors := temps })
      if bits s.stackThermal 23 16 ≤ hottestOf temps then heatTrigger t else t) := by
  change execStackTempReading i temps s = _
  unfold execStackTempReading
  refine (congrArg _ (if_pos ⟨on, due⟩)).trans ?_
  rw [readStackTemp_eq, updStack_updStack]
  rfl

/-- Settles O48: tides by `tideStart_due` and `doublingTideStart_due`; a reading that is due leaves `StackCtl.warmed` and, from HOT_C on, a heat
trigger. -/
theorem tidesAndTemperatures : Obligations.TidesAndTemperatures := by
  refine fun s i => ⟨tideStart_due, tideStart_idle, doublingTideStart_due, doublingTideStart_single,
    fun u tide => ⟨tideEnd_due tide, tideEnd_early tide⟩, fun temps => stackTempReading_early i, ?reads⟩
  rintro temps m rfl on due
  have runs := stackTempReading_due (temps := temps) i on due
  dsimp only at runs
  generalize read : Claims.withStack s i _ = u at runs
  have same : u.clk = s.clk ∧ u.time = s.time ∧ u.seq = s.seq := by
    rw [← read]
    exact ⟨rfl, rfl, rfl⟩
  obtain ⟨clk, time, seq⟩ := same
  split at runs
  case isTrue hot =>
    obtain ⟨l, n, h, frame⟩ := heatTrigger_frame u
    refine ⟨_, runs, ?_, fun cool => absurd hot (Nat.not_le.2 cool), fun _ => ⟨?_, ?_, fun cool idle above => ?_, fun v last soon => ?_⟩⟩
    · rw [frame, ← read]
      rfl
    · rw [frame, ← time]
    · rw [frame, ← clk]
    · rw [← clk] at cool idle above ⊢
      rw [heatTrigger_first cool idle above, ← read]
      exact ⟨rfl, rfl, rfl⟩
    · rw [← clk] at last ⊢
      rw [heatTrigger_spaced last (by unfold State.now at soon ⊢; rwa [time])]
      rfl
  case isFalse cool =>
    rw [← read] at runs
    exact ⟨_, runs, rfl, fun _ => rfl, fun hot => absurd hot cool⟩

end Sys2Proof.Machine

namespace Sys2Proof.Machine

/-! ## What a block's errors leave of the module (R276 to R279) -/

/-- Controller `d` is `c` but for the errors that it has counted and the rows that it lists for them. -/
def StackCtl.CountsOnly (c d : StackCtl) : Prop := ∃ lost seen count last times blocks cands,
  d = { c with candLost := lost, ueSeen := seen, ceCount := count, ceLast := last, ceTimes := times, ceBlocks := blocks, cands := cands }

theorem StackCtl.CountsOnly.refl (c : StackCtl) : c.CountsOnly c := ⟨_, _, _, _, _, _, _, rfl⟩

theorem StackCtl.CountsOnly.trans {c d e : StackCtl} (first : c.CountsOnly d) (second : d.CountsOnly e) : c.CountsOnly e := by
  obtain ⟨_, _, _, _, _, _, _, rfl⟩ := first
  obtain ⟨_, _, _, _, _, _, _, rfl⟩ := second
  exact ⟨_, _, _, _, _, _, _, rfl⟩

/-- The controllers of `t` are those of `s` but for the errors that they have counted. -/
def StacksCount (s t : State) : Prop := ∀ k, (s.stack k).CountsOnly (t.stack k)

theorem stacksCount_of_same {s t : State} (stks : t.stks = s.stks) : StacksCount s t := fun k => by
  unfold State.stack
  rw [stks]
  exact .refl _

theorem StacksCount.trans {s t u : State} (first : StacksCount s t) (second : StacksCount t u) : StacksCount s u :=
  fun k => (first k).trans (second k)

theorem updStack_stacksCount {s : State} {i : Fin 16} {f : StackCtl → StackCtl} (counts : (s.stack i).CountsOnly (f (s.stack i))) :
    StacksCount s (s.updStack i f) := fun k => by
  rw [updStack_stack]
  split
  · rename_i same
    rw [same]
    exact counts
  · exact .refl _

theorem seen_stacksCount (i : Fin 16) (s : State) : StacksCount s (s.updStack i fun c => { c with ueSeen := true }) :=
  updStack_stacksCount ⟨_, _, _, _, _, _, _, rfl⟩

theorem addCand_stacksCount (i : Fin 16) (r : RowRef) (s : State) : StacksCount s (addCand i r s) := by
  refine updStack_stacksCount ?_
  split_ifs <;> exact ⟨_, _, _, _, _, _, _, rfl⟩

/-- The controller of a stack once it has counted, at time `now`, the corrected block that holds stack address `sa`. -/
def StackCtl.counted (sa : Nat) (now : U64) (c : StackCtl) : StackCtl :=
  { c with
    ceCount := satInc c.ceCount, ceLast := BitVec.ofNat 37 (sa / 64 * 64)
    ceTimes := (c.ceTimes ++ [now]).drop (c.ceTimes.length + 1 - 65536)
    ceBlocks := if c.ceBlocks.contains (rowRefOf sa, sa / 64) then c.ceBlocks else c.ceBlocks ++ [(rowRefOf sa, sa / 64)] }

/-- A corrected block is counted, and its row may become a candidate (R276, R279). -/
theorem noteCorrected_eq (a : Nat) (s : State) :
    noteCorrected a s = checkService (s.updStack (stackOfAddr a) (StackCtl.counted (stackAddrOf a) s.time.hallTime)) ∨
    noteCorrected a s = checkService (addCand (stackOfAddr a) (rowRefOf (stackAddrOf a))
      (s.updStack (stackOfAddr a) (StackCtl.counted (stackAddrOf a) s.time.hallTime))) := by
  unfold noteCorrected
  dsimp only
  split
  · exact .inr rfl
  · exact .inl rfl

theorem checkService_stacksCount (s : State) : StacksCount s (checkService s) :=
  stacksCount_of_same (by rw [checkService_frame])

theorem noteCorrected_stacksCount (a : Nat) (s : State) : StacksCount s (noteCorrected a s) := by
  have counted : StacksCount s (s.updStack (stackOfAddr a) (StackCtl.counted (stackAddrOf a) s.time.hallTime)) :=
    updStack_stacksCount ⟨_, _, _, _, _, _, _, rfl⟩
  obtain eq | eq := noteCorrected_eq a s <;> rw [eq]
  · exact counted.trans (checkService_stacksCount _)
  · exact (counted.trans (addCand_stacksCount _ _ _)).trans (checkService_stacksCount _)

theorem noteCorrected_frame (a : Nat) (s : State) : ∃ v p h f, noteCorrected a s = { s with stks := v, pwr := p, host := h, fab := f } := by
  obtain eq | eq := noteCorrected_eq a s <;> rw [eq, checkService_frame] <;> exact ⟨_, _, _, _, rfl⟩

theorem addCand_ceCount (i : Fin 16) (r : RowRef) (s : State) (k : Fin 16) :
    ((addCand i r s).stack k).ceCount = (s.stack k).ceCount := by
  unfold addCand
  rw [updStack_stack]
  split
  · rename_i same
    rw [same]
    split_ifs <;> rfl
  · rfl

/-- The stack of a corrected block counts it (R276). -/
theorem noteCorrected_ceCount (a : Nat) (s : State) :
    ((noteCorrected a s).stack (stackOfAddr a)).ceCount = satInc (s.stack (stackOfAddr a)).ceCount := by
  have service (u : State) (k : Fin 16) : (checkService u).stack k = u.stack k := by
    rw [checkService_frame]
    rfl
  obtain eq | eq := noteCorrected_eq a s <;> rw [eq, service]
  · rw [updStack_stack, if_pos rfl]
    rfl
  · rw [addCand_ceCount, updStack_stack, if_pos rfl]
    rfl

/-! ## Bytes that are written back as they were -/

theorem mread_mwrites_mreads {m : Mem} (wf : Memory.wf m = true) (a n x : Nat) : mread (mwrites m a (mreads m a n)) x = mread m x := by
  by_cases inside : a ≤ x ∧ x < a + n
  · obtain ⟨i, rfl⟩ := Nat.exists_eq_add_of_le inside.1
    have lt : i < (mreads m a n).length := by rw [mreads_length]; omega
    rw [mread_mwrites _ m a i wf lt]
    simp [mreads]
  · exact mread_mwrites_other _ m a x (by rw [mreads_length]; omega)

theorem applyErr_nil (off : Nat) (bs : List Byte) : applyErr [] off bs = bs := by
  have clean (p : Byte × Nat) : p.1 ^^^ tget 0 [] (off + p.2) = p.1 := BitVec.xor_zero
  unfold applyErr
  simp only [clean]
  exact List.map_fst_zip (by rw [List.length_range])

theorem fathomDecode_nil : fathomDecode [] = .clean [] := rfl

/-- Outside a suspend area the bytes of stack memory are those of its memory. -/
theorem dramBytes_eq_mreads {s : State} (none : s.pwr.snapshot = none) (a n : Nat) : dramBytes s a n = mreads s.dram a n := by
  unfold dramBytes mreads dramByte
  rw [none]

/-! ## Row sparing (R279, R280) -/

/-- `t` is `s` after blocks of a row have been copied: the rest of the module is as it was. -/
structure RowCopied (s t : State) : Prop where
  cores : t.cores = s.cores
  seq : t.seq = s.seq
  time : t.time = s.time
  counts : StacksCount s t

theorem RowCopied.refl (s : State) : RowCopied s s := ⟨rfl, rfl, rfl, stacksCount_of_same rfl⟩

theorem RowCopied.trans {s t u : State} (first : RowCopied s t) (second : RowCopied t u) : RowCopied s u :=
  ⟨second.cores.trans first.cores, second.seq.trans first.seq, second.time.trans first.time, first.counts.trans second.counts⟩

theorem rowCopied_of_memory (s : State) (d : Mem) (e : Tbl ErrPat) : RowCopied s { s with dram := d, errs := e } :=
  ⟨rfl, rfl, rfl, stacksCount_of_same rfl⟩

theorem noteCorrected_rowCopied (a : Nat) (s : State) : RowCopied s (noteCorrected a s) := by
  have counted := noteCorrected_stacksCount a s
  obtain ⟨v, p, h, f, frame⟩ := noteCorrected_frame a s
  rw [frame] at counted ⊢
  exact ⟨rfl, rfl, rfl, counted⟩

theorem seen_rowCopied (i : Fin 16) (s : State) : RowCopied s (s.updStack i fun c => { c with ueSeen := true }) :=
  ⟨rfl, rfl, rfl, seen_stacksCount i s⟩

theorem logErr_rowCopied (code : U16) (core : Option (Fin 32)) (d0 d1 : U64) (s : State) : RowCopied s (logErr code core d0 d1 s) := by
  rw [logErr_frame]
  exact ⟨rfl, rfl, rfl, stacksCount_of_same rfl⟩

theorem copyBlock_rowCopied (i : Fin 16) (a : Nat) (s : State) : RowCopied s (copyBlock i a s) := by
  unfold copyBlock
  split
  case h_1 => exact rowCopied_of_memory ..
  case h_2 => exact (rowCopied_of_memory ..).trans (noteCorrected_rowCopied ..)
  case h_3 =>
    have fresh : RowCopied s s.fresh.2 := ⟨rfl, rfl, rfl, stacksCount_of_same rfl⟩
    exact (fresh.trans (seen_rowCopied i _)).trans ((logErr_rowCopied ..).trans (rowCopied_of_memory ..))

theorem copyBlocks_rowCopied (i : Fin 16) (l : List Nat) (s : State) : RowCopied s (foldS (copyBlock i) l s) := by
  induction l generalizing s with
  | nil => exact .refl s
  | cons a l ih => exact (copyBlock_rowCopied i a s).trans (ih _)

/-- No block of stack memory holds an error, and its bytes are those of its memory. -/
structure ErrorFree (s : State) : Prop where
  errs : s.errs = []
  snapshot : s.pwr.snapshot = none
  wf : Memory.wf s.dram = true

theorem ErrorFree.write {s : State} (intact : ErrorFree s) (a : Nat) (bs : List Byte) : ErrorFree { s with dram := mwrites s.dram a bs } :=
  ⟨intact.errs, intact.snapshot, mwrites_wf bs s.dram a intact.wf⟩

/-- The copy of a block without an error writes the bytes that stand there. -/
theorem copyBlock_errorFree (i : Fin 16) (a : Nat) {s : State} (intact : ErrorFree s) :
    ∃ n, copyBlock i a s = { s with dram := mwrites s.dram a (mreads s.dram a n) } := by
  obtain ⟨errs, snapshot, -⟩ := intact
  have clean : errOf s a = [] := by
    unfold errOf
    rw [errs]
    rfl
  have none : tset [] s.errs (a / 64) [] = s.errs := by
    rw [errs]
    rfl
  refine ⟨64, ?_⟩
  unfold copyBlock
  rw [clean, fathomDecode_nil]
  dsimp only
  rw [applyErr_nil, dramBytes_eq_mreads snapshot, none]

/-- Blocks without an error are copied byte by byte. -/
theorem copyBlocks_bytes (i : Fin 16) (l : List Nat) {s : State} (intact : ErrorFree s) (x : Nat) :
    mread (foldS (copyBlock i) l s).dram x = mread s.dram x := by
  induction l generalizing s with
  | nil => rfl
  | cons a l ih =>
    obtain ⟨n, copied⟩ := copyBlock_errorFree i a intact
    rw [foldS_cons, copied, ih (intact.write a _)]
    exact mread_mwrites_mreads intact.wf a n x

theorem spare_iff (c : StackCtl) (r : RowRef) : decide (0 < c.sparesFree (bankKey r)) = true ↔ tget 0 c.sparesUsed (bankKey r) < 16 := by
  unfold StackCtl.sparesFree
  rw [decide_eq_true_iff]
  omega

theorem noSpare {c : StackCtl} {r : RowRef} (full : 16 ≤ tget 0 c.sparesUsed (bankKey r)) : decide (0 < c.sparesFree (bankKey r)) = false :=
  Bool.eq_false_iff.2 fun free => absurd ((spare_iff c r).1 free) (Nat.not_lt.2 full)

theorem rowSparing_held {s : State} (i : Fin 16) (held : s.holdsImage = true) : exec (.rowSparing i) s = .next s := by
  change execRowSparing i s = _
  unfold execRowSparing
  rw [if_pos held]

theorem rowSparing_full {s : State} {i : Fin 16} (full : ∀ r ∈ (s.stack i).cands, 16 ≤ tget 0 (s.stack i).sparesUsed (bankKey r)) :
    exec (.rowSparing i) s = .next s := by
  change execRowSparing i s = _
  unfold execRowSparing
  rw [find_none_of_all fun r mem => noSpare (full r mem), ite_self]

/-- The controller of a stack once candidate `r` is remapped. -/
def StackCtl.remapped (r : RowRef) (c : StackCtl) : StackCtl :=
  { c with
    cands := c.cands.erase r, spared := c.spared ++ [r]
    sparesUsed := tset 0 c.sparesUsed (bankKey r) (tget 0 c.sparesUsed (bankKey r) + 1)
    ceBlocks := c.ceBlocks.filter fun e => e.1 != r }

theorem rowSparing_first {s : State} {i : Fin 16} {pre post : List RowRef} {r : RowRef} (free : s.holdsImage = false)
    (cands : (s.stack i).cands = pre ++ r :: post) (full : ∀ x ∈ pre, 16 ≤ tget 0 (s.stack i).sparesUsed (bankKey x))
    (spare : tget 0 (s.stack i).sparesUsed (bankKey r) < 16) :
    exec (.rowSparing i) s = .next (checkService ((foldS (copyBlock i) (rowBlocks i r) s).updStack i (StackCtl.remapped r))) := by
  change execRowSparing i s = _
  unfold execRowSparing
  rw [if_neg (Bool.eq_false_iff.1 free), cands, find_first _ pre post r (fun x mem => noSpare (full x mem)) ((spare_iff _ r).2 spare)]
  rfl

/-- Settles O49: the row of `rowSparing_first` is copied by `copyBlocks_rowCopied`, and byte by byte where no block holds an error. -/
theorem rowsAreSparedWhileEmpty : Obligations.RowsAreSparedWhileEmpty := by
  refine fun s i => ⟨rowSparing_held i, rowSparing_full, fun pre post r free cands full spare => ?_⟩
  refine ⟨_, rowSparing_first free cands full spare, ?_⟩
  obtain ⟨cores, seq, time, counts⟩ := copyBlocks_rowCopied i (rowBlocks i r) s
  have bytes (intact : ErrorFree s) := copyBlocks_bytes i (rowBlocks i r) intact
  obtain ⟨lost, seen, count, last, times, blocks, left, copied⟩ := counts i
  generalize foldS (copyBlock i) (rowBlocks i r) s = u at *
  have remapped : (u.updStack i (StackCtl.remapped r)).stack i = (u.stack i).remapped r := (updStack_stack ..).trans (if_pos rfl)
  rw [copied] at remapped
  rw [checkService_frame]
  refine ⟨cores, seq, time, (congrArg StackCtl.spared remapped).trans rfl, (congrArg StackCtl.sparesUsed remapped).trans rfl,
    fun errs snapshot wf => bytes ⟨errs, snapshot, wf⟩⟩

end Sys2Proof.Machine

namespace Sys2Proof.Machine

/-! ## Requests that reach their queue (R48, R267) -/

/-- The next request of a source is behind those of other sources alone; it enters its queue where there is room. -/
theorem stackRequestArrival_next {s : State} {i : Fin 16} {n : Fin 64} {pre post : List StackReq} {r : StackReq}
    (mesh : (s.stack i).meshq = pre ++ r :: post) (others : ∀ x ∈ pre, x.src ≠ n.val) (own : r.src = n.val) :
    exec (.stackRequestArrival ⟨i, n⟩) s = .next (if ((s.stack i).pc (pcOf (stackAddrOf r.addr))).q.length < 64 then
      Claims.withStack s i { s.stack i with
        meshq := pre ++ post
        pcs := (s.stack i).pcs.set (pcOf (stackAddrOf r.addr)) { (s.stack i).pc (pcOf (stackAddrOf r.addr)) with
          q := ((s.stack i).pc (pcOf (stackAddrOf r.addr))).q ++ [{ r with arrived := s.time.hallTime }] } } else s) := by
  have early : ∀ x ∈ pre, (x.src == n.val) = false := fun x mem => beq_eq_false_iff_ne.2 (others x mem)
  have left : (s.stack i).meshq.erase r = pre ++ post := by
    rw [mesh, erase_first _ pre post r early (beq_iff_eq.2 own)]
  change execStackRequestArrival ⟨i, n⟩ s = _
  unfold execStackRequestArrival
  dsimp only
  rw [mesh, find_first _ pre post r early (beq_iff_eq.2 own), ← left]
  rfl

theorem stackRequestArrival_none {s : State} {i : Fin 16} {n : Fin 64} (others : ∀ x ∈ (s.stack i).meshq, x.src ≠ n.val) :
    exec (.stackRequestArrival ⟨i, n⟩) s = .next s := by
  change execStackRequestArrival ⟨i, n⟩ s = _
  unfold execStackRequestArrival
  dsimp only
  rw [find_none_of_all fun x mem => beq_eq_false_iff_ne.2 (others x mem)]

/-! ## What a served request brings reaches no controller -/

theorem fillAsk_frame (c : Fin 32) (port a : Nat) (bs : List Byte) (tag : Tag) (s : State) :
    ∃ x, fillAsk c port a bs tag s = { s with cores := x } := by
  unfold fillAsk
  generalize pieces 256 a bs.length = l
  induction l generalizing s with
  | nil => exact ⟨s.cores, rfl⟩
  | cons p l ih => exact ih _

theorem deliver_frame (tag : Tag) (bs : List Byte) (s : State) : ∃ x j h, deliver tag bs s = { s with cores := x, jobs := j, host := h } := by
  unfold deliver
  cases tag with
  | loadPiece c d p a =>
    obtain ⟨x, asked⟩ := fillAsk_frame c (8 + d.toNat / 512) a bs (.loadPiece c d p a) s
    exact ⟨x, _, _, asked⟩
  | bufPiece | listEntry | turnPiece | job | ingress | none | storePiece | turnWrite | item | message | readValue | hostWrite | posted | relayed => exact ⟨_, _, _, rfl⟩

theorem undelivered_frame (tag : Tag) (n : Nat) (s : State) : ∃ j h, undelivered tag n s = { s with jobs := j, host := h } := by
  unfold undelivered
  cases tag with
  | job =>
    dsimp only
    split <;> exact ⟨_, _, rfl⟩
  | ingress | hostWrite | posted | none | loadPiece | bufPiece | storePiece | listEntry | turnPiece | turnWrite | item | message | readValue
  | relayed => exact ⟨_, _, rfl⟩

theorem returnRead_frame (r : BellReq) (v : U64) (s : State) : ∃ x f, returnRead r v s = { s with cores := x, fab := f } := by
  unfold returnRead
  split
  · exact ⟨_, _, rfl⟩
  · have launched := (launchCut_sent (q := r.respQueue) (c := r.srcCore) (dest := r.srcModule) (space := 1) (ikind := 3) (key := 0)
      (l := [(r.srcCore.toNat * 2 ^ 40 + r.rdest, toBytes 8 v.toNat)]) (fun _ => none) s).launched.1
    exact ⟨s.cores, _, launched⟩

/-- An operation that is applied reaches the cores and the fabric alone. -/
theorem bellApplied_reach (b : BellReq) (old : U64) (s : State) : ∃ x f, bellApplied b old s = { s with cores := x, fab := f } := by
  by_cases buoy : ∃ c n, b.origin = .buoy c n
  · obtain ⟨c, n, origin⟩ := buoy
    unfold bellApplied
    rw [origin]
    exact ⟨_, _, rfl⟩
  · have apart : ∀ k n, b.origin ≠ .buoy k n := fun k n origin => buoy ⟨k, n, origin⟩
    by_cases read : b.op = 3
    · obtain ⟨x, f, returned⟩ := returnRead_frame b old (s.bellMade b old)
      rw [bellApplied_read apart read, returned, bellMade_frame]
      exact ⟨x, f, rfl⟩
    · exact ⟨_, _, bellApplied_frame apart read⟩

theorem raiseHalt_frame (c : HaltCause) (s : State) : ∃ m q h p f o,
    raiseHalt c s = { s with mgmt := m, seq := q, clk := { s.clk with hold := h }, pwr := p, fab := f, host := o } := by
  by_cases empty : s.seq.state = .empty
  · rw [raiseHalt_empty c s empty]
    exact ⟨s.mgmt, s.seq, s.clk.hold, s.pwr, s.fab, s.host, rfl⟩
  by_cases halted : s.seq.state = .halted
  · unfold raiseHalt
    rw [if_neg empty, if_pos halted]
    split
    · unfold joinHalt
      dsimp only
      generalize HaltRec.mk _ _ _ _ _ _ _ _ _ _ _ _ _ _ _ = h
      obtain ⟨f, kept⟩ := keepHalt_frame h s
      rw [kept]
      exact ⟨_, s.seq, s.clk.hold, s.pwr, f, s.host, rfl⟩
    · exact ⟨s.mgmt, s.seq, s.clk.hold, s.pwr, s.fab, s.host, rfl⟩
  · exact ⟨_, _, _, _, _, _, raiseHalt_running c s empty halted⟩

/-- `t` is `s` after a request has been served: time, f and the commands that wait are as they were, and so are the queues. -/
structure Served (s t : State) : Prop where
  time : t.time = s.time
  freq : t.clk.freq = s.clk.freq
  pending : t.pending = s.pending
  counts : StacksCount s t

theorem Served.refl (s : State) : Served s s := ⟨rfl, rfl, rfl, stacksCount_of_same rfl⟩

theorem Served.trans {s t u : State} (first : Served s t) (second : Served t u) : Served s u :=
  ⟨second.time.trans first.time, second.freq.trans first.freq, second.pending.trans first.pending, first.counts.trans second.counts⟩

/-- `t` is `s` after the errors of a block have been met: no memory and no core has changed. -/
structure ErrorMet (s t : State) : Prop where
  served : Served s t
  cores : t.cores = s.cores
  dram : t.dram = s.dram
  errs : t.errs = s.errs

theorem ErrorMet.refl (s : State) : ErrorMet s s := ⟨.refl s, rfl, rfl, rfl⟩

theorem ErrorMet.trans {s t u : State} (first : ErrorMet s t) (second : ErrorMet t u) : ErrorMet s u :=
  ⟨first.served.trans second.served, second.cores.trans first.cores, second.dram.trans first.dram, second.errs.trans first.errs⟩

theorem noteCorrected_met (a : Nat) (s : State) : ErrorMet s (noteCorrected a s) := by
  have counted := noteCorrected_stacksCount a s
  obtain ⟨v, p, h, f, frame⟩ := noteCorrected_frame a s
  rw [frame] at counted ⊢
  exact ⟨⟨rfl, rfl, rfl, counted⟩, rfl, rfl, rfl⟩

theorem ueRow_met (a : Nat) (s : State) : ErrorMet s (ueRow a s) :=
  ⟨⟨rfl, rfl, rfl, (seen_stacksCount _ s).trans (addCand_stacksCount _ _ _)⟩, rfl, rfl, rfl⟩

theorem logErr_met (code : U16) (core : Option (Fin 32)) (d0 d1 : U64) (s : State) : ErrorMet s (logErr code core d0 d1 s) := by
  rw [logErr_frame]
  exact ⟨⟨rfl, rfl, rfl, stacksCount_of_same rfl⟩, rfl, rfl, rfl⟩

theorem raiseHalt_met (c : HaltCause) (s : State) : ErrorMet s (raiseHalt c s) := by
  obtain ⟨m, q, h, p, f, o, frame⟩ := raiseHalt_frame c s
  rw [frame]
  exact ⟨⟨rfl, rfl, rfl, stacksCount_of_same rfl⟩, rfl, rfl, rfl⟩

theorem ueFound_met (rq a : Nat) (s : State) : ErrorMet s (ueFound rq a s) := by
  have row := ueRow_met a s
  unfold ueFound
  dsimp only
  split_ifs
  · exact row.trans (logErr_met ..)
  · exact row.trans (raiseHalt_met ..)
  · exact row.trans (logErr_met ..)

theorem blockRead_met (rq a n : Nat) (flip : ErrPat) (s : State) : ErrorMet s (blockRead rq a n flip s).2 := by
  unfold blockRead
  split
  · exact .refl s
  · exact noteCorrected_met a s
  · exact ueFound_met rq a s

theorem blockPut_served (a : Nat) (bs : List Byte) (s : State) : Served s (blockPut a bs s) := ⟨rfl, rfl, rfl, stacksCount_of_same rfl⟩

theorem blockModify_served (rq a n : Nat) (f : List Byte → List Byte) (flip : ErrPat) (s : State) :
    Served s (blockModify rq a n f flip s).2 := by
  unfold blockModify
  dsimp only
  split
  · exact (blockPut_served ..).trans (blockPut_served ..)
  · exact (noteCorrected_met a s).served.trans ((blockPut_served ..).trans (blockPut_served ..))
  · exact (ueFound_met rq a s).served

theorem blockWrite_served (rq a : Nat) (bs : List Byte) (flip : ErrPat) (s : State) : Served s (blockWrite rq a bs flip s).2 := by
  unfold blockWrite
  split
  · exact blockPut_served ..
  · exact blockModify_served ..

theorem deliver_served (tag : Tag) (bs : List Byte) (s : State) : Served s (deliver tag bs s) := by
  obtain ⟨x, j, h, frame⟩ := deliver_frame tag bs s
  rw [frame]
  exact ⟨rfl, rfl, rfl, stacksCount_of_same rfl⟩

theorem undelivered_served (tag : Tag) (n : Nat) (s : State) : Served s (undelivered tag n s) := by
  obtain ⟨j, h, frame⟩ := undelivered_frame tag n s
  rw [frame]
  exact ⟨rfl, rfl, rfl, stacksCount_of_same rfl⟩

theorem accepted_served (tag : Tag) (n : Nat) (s : State) : Served s (accepted tag n s) := by
  rw [(accepted_fillsKept tag n s).1]
  exact ⟨rfl, rfl, rfl, stacksCount_of_same rfl⟩

theorem harborNote_served (a n : Nat) (s : State) : Served s (harborNote a n s) := by
  rw [(harborNote_harborOnly a n s).1]
  exact ⟨rfl, rfl, rfl, stacksCount_of_same rfl⟩

theorem bellApplied_served (b : BellReq) (old : U64) (s : State) : Served s (bellApplied b old s) := by
  obtain ⟨x, f, frame⟩ := bellApplied_reach b old s
  rw [frame]
  exact ⟨rfl, rfl, rfl, stacksCount_of_same rfl⟩

theorem serveBell_served (r : StackReq) (b : BellReq) (flip : ErrPat) (s : State) : Served s (serveBell r b flip s) := by
  unfold serveBell
  split
  · have read := (blockRead_met rqBell r.addr 8 flip s).served
    split <;> rename_i got <;> rw [got] at read
    · exact read.trans (bellApplied_served ..)
    · exact read
  · have put := blockModify_served rqBell r.addr 8
      (fun l => toBytes 8 (bellNew b.op (BitVec.ofNat 64 (ofBytes l)) b.operand).toNat) flip s
    split <;> rename_i got <;> rw [got] at put
    · split
      · exact put.trans (bellApplied_served ..)
      · exact (put.trans (harborNote_served ..)).trans (bellApplied_served ..)
    · exact put

/-- Serving a request keeps the queues of every stack (R267, R268). -/
theorem serveReq_served (r : StackReq) (flip : ErrPat) (s : State) : Served s (serveReq r flip s) := by
  unfold serveReq
  split
  case h_1 => exact serveBell_served ..
  case h_2 =>
    have read := (blockRead_met r.requester.toNat r.addr r.len flip s).served
    split <;> rename_i got <;> rw [got] at read
    · exact read.trans (deliver_served ..)
    · exact read.trans (undelivered_served ..)
  case h_3 bs _ _ =>
    have put := blockWrite_served r.requester.toNat r.addr bs flip s
    split <;> rename_i got <;> rw [got] at put
    · split
      · exact (put.trans (harborNote_served ..)).trans (accepted_served ..)
      · exact put.trans (accepted_served ..)
    · exact put.trans (undelivered_served ..)

end Sys2Proof.Machine

namespace Sys2Proof.Machine

/-! ## The head of a queue that is served (R268, R269, R275) -/

/-- Queue `p` of controller `c` once its head `r`, with `l` behind it, has been served until `x`. -/
def StackCtl.queueAfter (c : StackCtl) (p : Fin 32) (r : StackReq) (l : List StackReq) (x : Nat) : PcQueue :=
  let row := ((bankOf (stackAddrOf r.addr)).toNat, (rowOfAddr (stackAddrOf r.addr)).toNat)
  let closed := c.tideUntil.isSome || c.selfRefresh
  beginNext c { c.pc p with
    q := l, doing := none, freeAt := x, lastWrite := some r.writes, drain := (c.pc p).drain - 1
    lastRow := if closed then none else some row
    openRows := if closed then [] else ((c.pc p).openRows.filter fun e => e.1 != row.1) ++ [row] }

/-- The state in which head `r` of queue `p` of stack `i` takes effect: it has left the queue, and the error `e` has come about in its block. -/
def State.headTaken (s : State) (i : Fin 16) (p : Fin 32) (r : StackReq) (l : List StackReq) (x : Nat) (e : ErrPat) : State :=
  { s with
    errs := if e = [] then s.errs else tset [] s.errs (r.addr / 64) (errAdd (errOf s r.addr) e)
    stks := s.stks.set i ((s.stack i).updPc p fun _ => (s.stack i).queueAfter p r l x) }

theorem headTaken_stack (s : State) (i : Fin 16) (p : Fin 32) (r : StackReq) (l : List StackReq) (x : Nat) (e : ErrPat) :
    (s.headTaken i p r l x e).stack i = (s.stack i).updPc p fun _ => (s.stack i).queueAfter p r l x :=
  (vector_get_set ..).trans (if_pos rfl)

theorem stackRequestService_idle {s : State} {i : Fin 16} {p : Fin 32} (errors : BlockErrors) (idle : (s.stack i).selfRefresh = true ∨
    ((s.stack i).pc p).doing = none ∨ ∃ x, ((s.stack i).pc p).doing = some x ∧ 100 * s.now < x) :
    exec (.stackRequestService i p errors) s = .next s := by
  have waits : (s.stack i).selfRefresh = true ∨ ¬ s.serviceOver ((s.stack i).pc p) = true := by
    unfold State.serviceOver
    obtain refreshing | none | ⟨x, doing, early⟩ := idle
    · exact .inl refreshing
    · rw [none]
      exact .inr Bool.false_ne_true
    · rw [doing]
      exact .inr fun passed => absurd (of_decide_eq_true passed) (Nat.not_le.2 early)
  change execStackRequestService i p errors s = _
  unfold execStackRequestService
  exact congrArg _ (if_pos waits)

section
variable {s : State} {i : Fin 16} {p : Fin 32} {flip stored : ErrPat} {r : StackReq} {l : List StackReq} {x : Nat}

/-- The head of a queue takes effect once its service is over, in a cycle in which its home can take the operation that it carries. -/
theorem stackRequestService_head (awake : (s.stack i).selfRefresh = false) (queue : ((s.stack i).pc p).q = r :: l)
    (doing : ((s.stack i).pc p).doing = some x) (passed : x ≤ 100 * s.now) (free : ∀ b, r.bell = some b → s.bellTaken b = false) :
    exec (.stackRequestService i p ⟨flip, stored⟩) s =
      .next ((serveReq r flip (s.headTaken i p r l x stored)).updStack i settleRefresh) := by
  have due : ¬ ((s.stack i).selfRefresh = true ∨ ¬ s.serviceOver ((s.stack i).pc p) = true) := by
    have ended : s.serviceOver ((s.stack i).pc p) = true := by
      unfold State.serviceOver
      rw [doing]
      exact decide_eq_true passed
    rintro (refreshing | waits)
    · exact Bool.false_ne_true (awake.symm.trans refreshing)
    · exact waits ended
  have taken : ¬ (r.bell.any fun b => s.bellTaken b) = true := by
    cases bell : r.bell with
    | none => exact Bool.false_ne_true
    | some b => exact Bool.eq_false_iff.1 (free b bell)
  have head (u : State) (stack : u.stack i = s.stack i) : serveHead i p flip u = serveReq r flip { u with
      stks := u.stks.set i ((s.stack i).updPc p fun _ => (s.stack i).queueAfter p r l x) } := by
    unfold serveHead
    dsimp only
    rw [stack, queue]
    dsimp only
    unfold State.updStack StackCtl.updPc
    rw [stack]
    dsimp only
    rw [doing]
    rfl
  change execStackRequestService i p ⟨flip, stored⟩ s = _
  unfold execStackRequestService
  refine congrArg Host.Outcome.next ((if_neg due).trans ?_)
  rw [queue]
  refine (if_neg taken).trans (congrArg (fun u : State => u.updStack i settleRefresh) ?_)
  dsimp only
  unfold State.headTaken
  split
  · exact head s rfl
  · exact head _ rfl

end

/-! ## The queue behind a served head (R268, R269) -/

theorem beginNext_frame (c : StackCtl) (u : PcQueue) : beginNext c u = { u with doing := (beginNext c u).doing } := by
  unfold beginNext
  split <;> rfl

/-- The service of the next request begins where one waits and may be served. -/
theorem beginNext_doing {c : StackCtl} {u : PcQueue} (may : mayServe c u = true) (free : u.doing = none) :
    (beginNext c u).doing = none ↔ u.q = [] := by
  unfold beginNext
  rw [free]
  cases queue : u.q with
  | nil => simp [free]
  | cons r l => simp [serviceEnd, queue, may]

theorem queueAfter_frame (c : StackCtl) (p : Fin 32) (r : StackReq) (l : List StackReq) (x : Nat) :
    (c.queueAfter p r l x).q = l ∧ (c.queueAfter p r l x).freeAt = x ∧ (c.queueAfter p r l x).lastWrite = some r.writes ∧
      (c.queueAfter p r l x).drain = (c.pc p).drain - 1 := by
  unfold StackCtl.queueAfter
  dsimp only
  rw [beginNext_frame]
  exact ⟨rfl, rfl, rfl, rfl⟩

/-- Outside tides and self-refresh the row of the served request is the open one of its bank. -/
theorem queueAfter_rows {c : StackCtl} (awake : c.selfRefresh = false) (calm : c.tideUntil = none) (p : Fin 32) (r : StackReq)
    (l : List StackReq) (x : Nat) :
    (c.queueAfter p r l x).lastRow = some ((bankOf (stackAddrOf r.addr)).toNat, (rowOfAddr (stackAddrOf r.addr)).toNat) ∧
      (c.queueAfter p r l x).openRows = ((c.pc p).openRows.filter fun e => e.1 != (bankOf (stackAddrOf r.addr)).toNat) ++
        [((bankOf (stackAddrOf r.addr)).toNat, (rowOfAddr (stackAddrOf r.addr)).toNat)] := by
  unfold StackCtl.queueAfter
  dsimp only
  rw [beginNext_frame, awake, calm]
  exact ⟨rfl, rfl⟩

theorem queueAfter_doing {c : StackCtl} (awake : c.selfRefresh = false) (stays : c.toRefresh = false) (p : Fin 32) (r : StackReq)
    (l : List StackReq) (x : Nat) : (c.queueAfter p r l x).doing = none ↔ l = [] := by
  unfold StackCtl.queueAfter
  refine beginNext_doing ?_ rfl
  unfold mayServe
  rw [awake, stays]
  rfl

/-! ## Self-refresh (R282) -/

theorem settleRefresh_stays {c : StackCtl} (stays : c.toRefresh = false) : settleRefresh c = c := by
  unfold settleRefresh
  rw [stays]
  rfl

/-- A queue with every page closed. -/
def PcQueue.closed (u : PcQueue) : PcQueue := { u with openRows := [], lastRow := none, doing := none }

/-- A stack whose queues have served what came before self-refresh enters it. -/
theorem settleRefresh_drained {c : StackCtl} (leaves : c.toRefresh = true) (drained : ∀ k, (c.pc k).drain = 0) : settleRefresh c = { c with
    selfRefresh := true, toRefresh := false, tideUntil := none, doubling := false, doubleNext := false, singleNext := false
    pcs := c.pcs.map PcQueue.closed } := by
  have all : c.pcs.toList.all (fun u => u.drain == 0) = true := by
    rw [List.all_eq_true]
    intro u mem
    obtain ⟨k, rfl⟩ := exists_get_of_mem c.pcs u mem
    exact beq_iff_eq.2 (drained k)
  unfold settleRefresh
  rw [leaves, all]
  rfl

theorem updStack_self {s : State} {i : Fin 16} {f : StackCtl → StackCtl} (same : f (s.stack i) = s.stack i) : s.updStack i f = s := by
  unfold State.updStack
  rw [same]
  exact congrArg (fun v => { s with stks := v }) (vector_set_get s.stks i)

/-- A stack that is not on its way to self-refresh stays outside it when a request is served. -/
theorem serveReq_stays {u : State} {i : Fin 16} (stays : (u.stack i).toRefresh = false) (r : StackReq) (flip : ErrPat) :
    (serveReq r flip u).updStack i settleRefresh = serveReq r flip u := by
  obtain ⟨_, _, _, _, _, _, _, counts⟩ := (serveReq_served r flip u).counts i
  exact updStack_self (settleRefresh_stays (by rw [counts]; exact stays))

/-- Each queue of the controllers is as the state in which the request took effect had it. -/
theorem serveReq_pc (r : StackReq) (flip : ErrPat) (u : State) (i : Fin 16) (k : Fin 32) :
    ((serveReq r flip u).stack i).pc k = (u.stack i).pc k := by
  obtain ⟨_, _, _, _, _, _, _, counts⟩ := (serveReq_served r flip u).counts i
  rw [counts]
  rfl

/-! ## Blocks that are read and written (R270, R275 to R277) -/

section
variable {r : StackReq} {flip : ErrPat} {s : State} (noBell : r.bell = none)
include noBell

/-- A whole block is written with fresh check bytes (R270). -/
theorem serveReq_block {bs : List Byte} (write : r.write = some bs) (whole : bs.length = 64) :
    (serveReq r flip s).dram = mwrites s.dram r.addr bs ∧ (serveReq r flip s).errs = tset [] s.errs (r.addr / 64) [] := by
  have put : blockWrite r.requester.toNat r.addr bs flip s = (some [], blockPut r.addr bs s) := if_pos whole
  unfold serveReq
  rw [noBell, write]
  dsimp only
  rw [put]
  dsimp only
  rw [(accepted_fillsKept ..).1]
  split
  · rw [(harborNote_harborOnly ..).1]
    exact ⟨rfl, rfl⟩
  · exact ⟨rfl, rfl⟩

variable (read : r.write = none)
include read

theorem serveReq_clean {e : ErrPat} (clean : fathomDecode (errAdd (errOf s r.addr) flip) = .clean e) :
    serveReq r flip s = deliver r.tag (applyErr e (r.addr % 64) (dramBytes s r.addr r.len)) s := by
  unfold serveReq blockRead
  rw [noBell, read, clean]

theorem serveReq_corrected {e : ErrPat} (corrected : fathomDecode (errAdd (errOf s r.addr) flip) = .corrected e) :
    serveReq r flip s = deliver r.tag (applyErr e (r.addr % 64) (dramBytes s r.addr r.len)) (noteCorrected r.addr s) := by
  unfold serveReq blockRead
  rw [noBell, read, corrected]

theorem serveReq_uncorrectable (lost : fathomDecode (errAdd (errOf s r.addr) flip) = .uncorrectable) :
    serveReq r flip s = undelivered r.tag r.len (ueFound r.requester.toNat r.addr s) := by
  unfold serveReq blockRead
  rw [noBell, read, lost]

/-- A read leaves memory and its errors. -/
theorem serveReq_read_memory : (serveReq r flip s).dram = s.dram ∧ (serveReq r flip s).errs = s.errs := by
  have delivered (bs : List Byte) (u : State) : (deliver r.tag bs u).dram = u.dram ∧ (deliver r.tag bs u).errs = u.errs := by
    obtain ⟨x, j, h, frame⟩ := deliver_frame r.tag bs u
    rw [frame]
    exact ⟨rfl, rfl⟩
  cases decoded : fathomDecode (errAdd (errOf s r.addr) flip) with
  | clean e =>
    rw [serveReq_clean noBell read decoded]
    exact delivered _ s
  | corrected e =>
    obtain ⟨-, -, dram, errs⟩ := noteCorrected_met r.addr s
    rw [serveReq_corrected noBell read decoded, (delivered _ _).1, (delivered _ _).2]
    exact ⟨dram, errs⟩
  | uncorrectable =>
    obtain ⟨-, -, dram, errs⟩ := ueFound_met r.requester.toNat r.addr s
    obtain ⟨j, h, frame⟩ := undelivered_frame r.tag r.len (ueFound r.requester.toNat r.addr s)
    rw [serveReq_uncorrectable noBell read decoded, frame]
    exact ⟨dram, errs⟩

/-- An uncorrectable block brings no core anything (R277). -/
theorem serveReq_uncorrectable_cores (lost : fathomDecode (errAdd (errOf s r.addr) flip) = .uncorrectable) :
    (serveReq r flip s).cores = s.cores := by
  obtain ⟨j, h, frame⟩ := undelivered_frame r.tag r.len (ueFound r.requester.toNat r.addr s)
  rw [serveReq_uncorrectable noBell read lost, frame]
  exact (ueFound_met ..).cores

/-- A corrected block is counted at its stack (R276). -/
theorem serveReq_corrected_ceCount {e : ErrPat} (corrected : fathomDecode (errAdd (errOf s r.addr) flip) = .corrected e) :
    ((serveReq r flip s).stack (stackOfAddr r.addr)).ceCount = satInc (s.stack (stackOfAddr r.addr)).ceCount := by
  obtain ⟨x, j, h, frame⟩ := deliver_frame r.tag (applyErr e (r.addr % 64) (dramBytes s r.addr r.len)) (noteCorrected r.addr s)
  rw [serveReq_corrected noBell read corrected, frame]
  exact noteCorrected_ceCount r.addr s

end

end Sys2Proof.Machine

namespace Sys2Proof.Machine

/-! ## Bell operations at a stack controller (R229, R270) -/

theorem mreads_drop_take (m : Mem) (a : Nat) {n k j : Nat} (inside : k + j ≤ n) : ((mreads m a n).drop k).take j = mreads m (a + k) j := by
  refine List.ext_getElem (by simp [mreads]; omega) fun i _ _ => ?_
  simp [mreads, Nat.add_assoc]

theorem ofBytes_lt (bs : List Byte) : ofBytes bs < 256 ^ bs.length := by
  induction bs with
  | nil => exact Nat.one_pos
  | cons b l ih =>
    have byte := b.isLt
    rw [ofBytes, List.length_cons, Nat.pow_succ']
    omega

/-- A word of eight bytes is the number that they spell. -/
theorem toNat_ofNat_mreadLE (m : Mem) (a : Nat) : (BitVec.ofNat 64 (mreadLE m a 8)).toNat = mreadLE m a 8 := by
  have bound := ofBytes_lt (mreads m a 8)
  rw [mreads_length] at bound
  exact Nat.mod_eq_of_lt bound

theorem errAdd_nil : errAdd [] [] = [] := rfl

theorem blockPut_dram (a : Nat) (bs : List Byte) (s : State) : (blockPut a bs s).dram = mwrites s.dram a bs := rfl

/-- The state in which `v` is the word at `a`, whose block has been written again (R270). -/
def State.wordStored (s : State) (a : Nat) (v : U64) : State :=
  blockPut a (toBytes 8 v.toNat) (blockPut (a / 64 * 64) (mreads s.dram (a / 64 * 64) 64) s)

theorem wordStored_dram (s : State) (a : Nat) (v : U64) : (s.wordStored a v).dram =
    mwrites (mwrites s.dram (a / 64 * 64) (mreads s.dram (a / 64 * 64) 64)) a (toBytes 8 v.toNat) := by
  unfold State.wordStored
  rw [blockPut_dram, blockPut_dram]

theorem wordStored_frame (s : State) (a : Nat) (v : U64) : ∃ d e, s.wordStored a v = { s with dram := d, errs := e } := by
  have put (a : Nat) (bs : List Byte) (u : State) : ∃ d e, blockPut a bs u = { u with dram := d, errs := e } := ⟨_, _, rfl⟩
  unfold State.wordStored
  obtain ⟨d, e, block⟩ := put (a / 64 * 64) (mreads s.dram (a / 64 * 64) 64) s
  rw [block]
  exact put ..

theorem wordStored_word {s : State} (wf : Memory.wf s.dram = true) (a : Nat) (v : U64) : mreadLE (s.wordStored a v).dram a 8 = v.toNat := by
  have word := mreads_mwrites (toBytes 8 v.toNat) _ a (mwrites_wf (mreads s.dram (a / 64 * 64) 64) s.dram (a / 64 * 64) wf)
  rw [toBytes_length] at word
  unfold mreadLE
  rw [wordStored_dram, word, ofBytes_toBytes]
  exact Nat.mod_eq_of_lt v.isLt

theorem wordStored_other {s : State} (wf : Memory.wf s.dram = true) {a x : Nat} (v : U64) (other : x < a ∨ a + 8 ≤ x) :
    mread (s.wordStored a v).dram x = mread s.dram x := by
  rw [wordStored_dram, mread_mwrites_other _ _ a x (by rw [toBytes_length]; exact other), mread_mwrites_mreads wf]

section
variable {s : State} {r : StackReq} {b : BellReq} (bell : r.bell = some b) (clean : errOf s r.addr = []) (snapshot : s.pwr.snapshot = none)
include bell clean snapshot

/-- A READ at a stack takes the word and writes nothing. -/
theorem serveReq_bell_read (read : b.op = 3) :
    serveReq r [] s = bellApplied b (BitVec.ofNat 64 (mreadLE s.dram r.addr 8)) s := by
  have block : blockRead rqBell r.addr 8 [] s = (some (mreads s.dram r.addr 8), s) := by
    unfold blockRead
    rw [clean, errAdd_nil, fathomDecode_nil]
    dsimp only
    rw [applyErr_nil, dramBytes_eq_mreads snapshot]
  unfold serveReq serveBell
  rw [bell]
  dsimp only
  rw [if_pos ((reads_iff b).2 read), block]
  rfl

/-- An operation that writes leaves its value in the word; the write may show in HARB_READY before it is applied (R270, R341). -/
theorem serveReq_bell_write (write : b.op ≠ 3) (inside : r.addr % 64 ≤ 56) {old : U64}
    (value : old = BitVec.ofNat 64 (mreadLE s.dram r.addr 8)) :
    ∃ u : State, u.dram = (s.wordStored r.addr (bellNew b.op old b.operand)).dram ∧ u.cores = s.cores ∧ u.pwr = s.pwr ∧
      serveReq r [] s = bellApplied b old u := by
  have place : r.addr / 64 * 64 + (r.addr - r.addr / 64 * 64) = r.addr := by omega
  have block (f : List Byte → List Byte) : blockModify rqBell r.addr 8 f [] s = (some (mreads s.dram r.addr 8),
      blockPut r.addr (f (mreads s.dram r.addr 8)) (blockPut (r.addr / 64 * 64) (mreads s.dram (r.addr / 64 * 64) 64) s)) := by
    unfold blockModify
    rw [clean, errAdd_nil, fathomDecode_nil]
    dsimp only
    rw [applyErr_nil, dramBytes_eq_mreads snapshot, mreads_drop_take _ _ (by omega), place]
  have word : BitVec.ofNat 64 (ofBytes (mreads s.dram r.addr 8)) = old := value.symm
  unfold serveReq serveBell
  rw [bell]
  dsimp only
  rw [if_neg fun reads => write ((reads_iff b).1 reads), block]
  dsimp only
  rw [word]
  have stored := wordStored_frame s r.addr (bellNew b.op old b.operand)
  unfold State.wordStored at stored ⊢
  obtain ⟨d, e, frame⟩ := stored
  rw [frame]
  split
  · exact ⟨_, rfl, rfl, rfl, rfl⟩
  · refine ⟨_, ?_, ?_, ?_, rfl⟩ <;> rw [(harborNote_harborOnly ..).1]

end

section
variable {s : State} {b : BellReq} {old : U64} (apart : ∀ k n, b.origin ≠ .buoy k n)
include apart

theorem bellApplied_total (write : b.op ≠ 3) :
    ((bellApplied b old s).core (homeCore s b.addr)).bellTotal = (s.core (homeCore s b.addr)).bellTotal + 1 := by
  obtain ⟨x, y, landing⟩ := bellApplied_landing (s := s) (old := old) apart write (homeCore s b.addr)
  obtain ⟨-, total, -⟩ := bellTook_logged s b (bellNew b.op old b.operand) (homeCore s b.addr)
  rw [landing]
  exact total.trans (if_pos ⟨rfl, write⟩)

/-- The value of a READ of this module waits at its source core. -/
theorem bellApplied_readValues (read : b.op = 3) (here : b.srcModule = s.module) :
    ((bellApplied b old s).core (coreOf b.srcCore.toNat)).readValues = (s.core (coreOf b.srcCore.toNat)).readValues ++
      [⟨(s.core (coreOf b.srcCore.toNat)).readNo, b.rdest, old, b.ack, none⟩] := by
  obtain ⟨_, _, _, _, _, _, _, _, _, took⟩ := bellTook_keeps s b old (coreOf b.srcCore.toNat)
  rw [bellApplied_read apart read, returnRead_here (here.trans (bellMade_module s b old).symm), updCore_core, if_pos rfl, bellMade_core,
    took]
  rfl

end

/-- The value that an operation leaves (Table 9.1). -/
theorem bellNew_eq (op : BitVec 2) (old x : U64) : bellNew op old x = if op = 0 then old + x else if op = 1 then x
    else if op = 2 then (if x.toNat ≤ old.toNat then old else x) else old := by
  have all : ∀ op : BitVec 2, op = 0 ∨ op = 1 ∨ op = 2 ∨ op = 3 := by decide
  obtain rfl | rfl | rfl | rfl := all op <;> rfl

/-- The home of a word depends on the fuses alone. -/
theorem homeCore_of_pwr {s u : State} (pwr : u.pwr = s.pwr) (a : U64) : homeCore u a = homeCore s a := by
  unfold homeCore bellPlace placeOf State.arrayOn
  rw [pwr]

/-- What an operation leaves of a block without an error, and of its home or its source. -/
theorem serveReq_bell {s : State} {r : StackReq} {b : BellReq} (bell : r.bell = some b) (clean : errOf s r.addr = [])
    (snapshot : s.pwr.snapshot = none) (apart : ∀ k n, b.origin ≠ .buoy k n) (inside : r.addr % 64 ≤ 56)
    (wf : Memory.wf s.dram = true) {old : U64} (value : old = BitVec.ofNat 64 (mreadLE s.dram r.addr 8)) :
    mreadLE (serveReq r [] s).dram r.addr 8 = (bellNew b.op old b.operand).toNat ∧
    (∀ a, a < r.addr ∨ r.addr + 8 ≤ a → mread (serveReq r [] s).dram a = mread s.dram a) ∧
    (b.op ≠ 3 → ((serveReq r [] s).core (homeCore s b.addr)).bellTotal = (s.core (homeCore s b.addr)).bellTotal + 1) ∧
    (b.op = 3 → b.srcModule = s.module → ((serveReq r [] s).core (coreOf b.srcCore.toNat)).readValues =
      (s.core (coreOf b.srcCore.toNat)).readValues ++ [⟨(s.core (coreOf b.srcCore.toNat)).readNo, b.rdest, old, b.ack, none⟩]) := by
  have memory (u : State) : (bellApplied b old u).dram = u.dram := by
    obtain ⟨x, f, frame⟩ := bellApplied_reach b old u
    rw [frame]
  by_cases read : b.op = 3
  · have same : bellNew b.op old b.operand = old := by rw [read]; rfl
    rw [serveReq_bell_read bell clean snapshot read, ← value, memory, same, value]
    exact ⟨(toNat_ofNat_mreadLE ..).symm, fun _ _ => rfl, absurd read, fun _ => bellApplied_readValues apart read⟩
  · obtain ⟨u, dram, cores, pwr, applied⟩ := serveReq_bell_write bell clean snapshot read inside value
    have total := bellApplied_total (s := u) (old := old) apart read
    rw [homeCore_of_pwr pwr] at total
    unfold State.core at total ⊢
    rw [cores] at total
    rw [applied, memory, dram]
    exact ⟨wordStored_word wf r.addr _, fun a other => wordStored_other wf _ other, fun _ => total, fun is => absurd is read⟩

theorem headTaken_ceCount (s : State) (i : Fin 16) (p : Fin 32) (r : StackReq) (l : List StackReq) (x : Nat) (e : ErrPat) (k : Fin 16) :
    ((s.headTaken i p r l x e).stack k).ceCount = (s.stack k).ceCount := by
  have stack : (s.headTaken i p r l x e).stack k = _ := vector_get_set ..
  rw [stack]
  split
  · rename_i same
    rw [same]
    rfl
  · rfl

/-! ## The service of a queue -/

/-- Settles O47: the head takes effect as `stackRequestService_head` says, its queue goes on by `StackCtl.queueAfter`, and what serving brings
reaches no controller's queues (`serveReq_served`). -/
theorem stackQueuesServeInOrder : Obligations.StackQueuesServeInOrder := by
  refine fun s i => ⟨fun n pre post r mesh others own => ⟨fun room => ?enters, fun full => ?held⟩, fun n => stackRequestArrival_none,
    fun p flip stored => stackRequestService_idle ⟨flip, stored⟩, ?refreshes, ?serves⟩
  case enters => rw [stackRequestArrival_next mesh others own, if_pos room]
  case held => rw [stackRequestArrival_next mesh others own, if_neg (Nat.not_lt.2 full)]
  case refreshes =>
    rintro p flip stored r l x awake leaves drains queue doing passed free
    refine ⟨_, stackRequestService_head awake queue doing passed free, ?_⟩
    obtain ⟨next, -, -, drain⟩ := queueAfter_frame (s.stack i) p r l x
    have pc := serveReq_pc r flip (s.headTaken i p r l x stored) i
    obtain ⟨_, _, _, _, _, _, _, counts⟩ := (serveReq_served r flip (s.headTaken i p r l x stored)).counts i
    rw [headTaken_stack] at pc counts
    generalize serveReq r flip (s.headTaken i p r l x stored) = t at pc counts
    have leaving : (t.stack i).toRefresh = true := by rw [counts]; exact leaves
    have drained (k : Fin 32) : ((t.stack i).pc k).drain = 0 := by
      rw [pc, updPc_pc]
      split
      · rw [drain, drains, if_pos rfl]
      · rename_i other
        rw [drains, if_neg other]
    have queued : ((t.stack i).pc p).q = l := by rw [pc, updPc_pc, if_pos rfl, next]
    have settled (k : Fin 32) : ((t.stack i).pcs.map PcQueue.closed).get k = ((t.stack i).pc k).closed := vector_get_map ..
    rw [updStack_stack, if_pos rfl, settleRefresh_drained leaving drained]
    refine ⟨rfl, rfl, rfl, (congrArg PcQueue.q (settled p)).trans queued, fun k => ⟨congrArg PcQueue.openRows (settled k),
      congrArg PcQueue.lastRow (settled k), congrArg PcQueue.doing (settled k)⟩⟩
  case serves =>
    rintro p flip stored r l x awake stays calm queue doing passed free
    have runs := stackRequestService_head (flip := flip) (stored := stored) awake queue doing passed free
    have taken := headTaken_stack s i p r l x stored
    rw [serveReq_stays (by rw [taken]; exact stays)] at runs
    obtain ⟨time, freq, pending, -⟩ := serveReq_served r flip (s.headTaken i p r l x stored)
    obtain ⟨next, freeAt, lastWrite, -⟩ := queueAfter_frame (s.stack i) p r l x
    obtain ⟨lastRow, openRows⟩ := queueAfter_rows awake calm p r l x
    have pc : ((serveReq r flip (s.headTaken i p r l x stored)).stack i).pc p = (s.stack i).queueAfter p r l x := by
      rw [serveReq_pc, taken, updPc_pc, if_pos rfl]
    refine ⟨_, runs, time, freq, pending, ?_, ?_, ?_, ?_, ?_, ?_, ?write, ?read, ?lost, ?counted, ?piece, ?bell⟩
    · rw [pc, next]
    · rw [pc, queueAfter_doing awake stays]
    · rw [pc, lastWrite]
    · rw [pc, freeAt]
    · rw [pc, lastRow]
    · rw [pc, openRows]
    case write =>
      rintro bs rfl noBell write whole
      exact serveReq_block noBell write whole
    case read => exact fun noBell read => serveReq_read_memory noBell read
    case lost =>
      rintro rfl noBell read lost
      exact serveReq_uncorrectable_cores (s := s.headTaken i p r l x []) noBell read lost
    case counted =>
      rintro e rfl noBell read corrected
      rw [serveReq_corrected_ceCount (s := s.headTaken i p r l x []) noBell read corrected, headTaken_ceCount]
    case piece =>
      rintro e c d q o rfl noBell read clean tag
      rw [serveReq_clean (s := s.headTaken i p r l x []) noBell read clean, tag]
      exact ⟨rfl, rfl⟩
    case bell =>
      rintro b old new rfl rfl clean snapshot bell apart inside wf value becomes
      rw [becomes, ← bellNew_eq]
      exact serveReq_bell (s := s.headTaken i p r l x []) bell clean snapshot apart inside wf value

end Sys2Proof.Machine

/-!
PROOFS. The Opvin fabric (11_opvin_fabric.md): link states, codewords and resends, the slots, class-1 items, and the fabric's tables with
class-2 transit.
-/
namespace Sys2Proof.Machine

/-! ## Updates of a port -/

/-- A field of a port that an update of any port leaves. -/
theorem updPort_field {β : Type} (g : FabPort → β) {s : State} {a p : Fin 16} {f : FabPort → FabPort} (same : g (f (s.port a)) = g (s.port a)) :
    g ((s.updPort a f).port p) = g (s.port p) := by
  rw [updPort_port]
  split
  · rename_i eq
    rw [same, eq]
  · rfl

theorem updPort_updPort (s : State) (p : Fin 16) (f g : FabPort → FabPort) :
    (s.updPort p f).updPort p g = s.updPort p fun x => g (f x) := by
  simp [State.updPort, State.port]

section
variable {s : State} {p : Fin 16}

theorem withPort_port (x : FabPort) : (Claims.withPort s p x).port p = x := by
  unfold Claims.withPort State.port
  rw [vector_get_set, if_pos rfl]

/-- A port written back as it is. -/
theorem withPort_self : Claims.withPort s p (s.port p) = s :=
  congrArg (fun ports => { s with fab := { s.fab with ports := ports } }) (vector_set_get _ _)

end

/-! ## The replace-request that a port's spare raises (R379) -/

theorem checkService_raised {s : State} (raised : s.pwr.svcRequest = true) : checkService s = s :=
  if_neg fun ⟨_, first⟩ => first raised

theorem checkService_served (s : State) : Claims.Served s (checkService s) :=
  ⟨fun calm => calm.elim (checkService_none s) checkService_raised, checkService_frame s⟩

/-- A STATUS flood reaches the class-0 queues of the ports alone. -/
theorem sendStatus_port (s : State) (p : Fin 16) :
    (sendStatus s).port p = { s.port p with c0q := ((sendStatus s).port p).c0q } ∧
      ((s.port p).state ≠ .up → (sendStatus s).port p = s.port p) := by
  unfold sendStatus
  rw [c0flood_port]
  split
  · rename_i up
    exact ⟨c0queue_port_frame .., fun down => absurd up.1 down⟩
  · exact ⟨rfl, fun _ => rfl⟩

theorem setIrq_port (v : Fin 5) (s : State) (p : Fin 16) : (setIrq v s).port p = s.port p := by
  rw [setIrq_frame]
  rfl

/-- The replace-request floods its STATUS and leaves the ports as they are otherwise. -/
theorem checkService_port (s : State) (p : Fin 16) :
    (checkService s).port p = { s.port p with c0q := ((checkService s).port p).c0q } ∧
      ((s.port p).state ≠ .up → (checkService s).port p = s.port p) := by
  unfold checkService
  split
  · have sent := sendStatus_port (setIrq 1 (setEvent evReplace { s with pwr := { s.pwr with svcRequest := true } })) p
    rw [setIrq_port] at sent
    exact sent
  · exact ⟨rfl, fun _ => rfl⟩

/-! ## The link states (R288 to R292, Table 11.2) -/

section
variable {s : State} {p : Fin 16}

theorem untrained_length : ∀ lanes : BitVec 5, (Claims.untrained lanes).length + (List.range 5).countP (fun i => bit lanes i) = 5 := by
  decide

theorem peerSignalDetect_found {lanes : BitVec 5} (down : (s.port p).state = .down) (few : (Claims.untrained lanes).length ≤ 1) :
    exec (.peerSignalDetect p lanes) s = .next (Claims.withPort s p { s.port p with state := .train }) := by
  have enough : 4 ≤ (List.range 5).countP fun i => bit lanes i := by
    have := untrained_length lanes
    omega
  exact congrArg Host.Outcome.next (if_pos ⟨down, enough⟩)

theorem peerSignalDetect_stays {lanes : BitVec 5} (other : (s.port p).state ≠ .down ∨ 1 < (Claims.untrained lanes).length) :
    exec (.peerSignalDetect p lanes) s = .next s := by
  refine congrArg Host.Outcome.next (if_neg fun ⟨down, enough⟩ => ?_)
  have := untrained_length lanes
  exact other.elim (fun up => up down) fun many => by omega

/-- Port `x` after a training that has left the lanes `l` untrained. -/
def FabPort.trained (now : U64) (l : List Nat) (x : FabPort) : FabPort :=
  match l with
  | [] => startAlign now none x
  | [i] => startAlign now (some i) x
  | _ => { freshLanes x with state := .failed }

theorem trained_state (now : U64) (l : List Nat) (x : FabPort) : (x.trained now l).state ≠ .up := by
  match l with
  | [] => exact PortState.noConfusion
  | [_] => exact PortState.noConfusion
  | _ :: _ :: _ => exact PortState.noConfusion

theorem trainDone_trained {lanes : BitVec 5} (train : (s.port p).state = .train) : exec (.trainDone p lanes) s =
    .next (checkService (Claims.withPort s p ((s.port p).trained s.time.hallTime (Claims.untrained lanes)))) :=
  congrArg Host.Outcome.next (if_pos train)

theorem trained_one (s : State) (i : Fin 4) (x : FabPort) : x.trained s.time.hallTime [i.val] =
    { Claims.aligns s x with failedLane := BitVec.ofNat 3 i.val, spareInUse := true, txStopped := some i } := by
  obtain ⟨i, small⟩ := i
  unfold FabPort.trained startAlign
  dsimp only
  rw [dif_pos small, decide_eq_true small]
  rfl

theorem trained_many {now : U64} {l : List Nat} (many : 1 < l.length) (x : FabPort) :
    x.trained now l = { Claims.lanesFresh x with state := .failed } := by
  match l, many with
  | _ :: _ :: _, _ => rfl

theorem trainDone_follows {lanes : BitVec 5} (train : (s.port p).state = .train) :
    ∃ (y : FabPort) (t : State), exec (.trainDone p lanes) s = .next t ∧ Claims.Served (Claims.withPort s p y) t ∧ t.port p = y ∧
      (Claims.untrained lanes = [] → y = { Claims.aligns s (s.port p) with failedLane := 7, spareInUse := false }) ∧
      (∀ i : Fin 4, Claims.untrained lanes = [i.val] → y = { Claims.aligns s (s.port p) with
        failedLane := BitVec.ofNat 3 i.val, spareInUse := true, txStopped := some i }) ∧
      (Claims.untrained lanes = [4] → y = { Claims.aligns s (s.port p) with failedLane := 4, spareInUse := false }) ∧
      (1 < (Claims.untrained lanes).length → y = { Claims.lanesFresh (s.port p) with state := .failed }) := by
  refine ⟨_, _, trainDone_trained train, checkService_served _, ?_, fun all => ?_, fun i one => ?_, fun spare => ?_, fun many => ?_⟩
  · have kept := (checkService_port (Claims.withPort s p ((s.port p).trained s.time.hallTime (Claims.untrained lanes))) p).2
    rw [withPort_port] at kept
    exact kept (trained_state _ _ _)
  · rw [all]
    rfl
  · rw [one, trained_one]
  · rw [spare]
    rfl
  · exact trained_many many _

/-- LANE_FAIL notes the lane and starts its count of corrected symbols anew. -/
theorem laneFail_up {i : Fin 5} (up : (s.port p).state = .up) : exec (.laneFail p i) s = .next (Claims.withPort s p (
    if (s.port p).failedLane.toNat = i.val ∨ (s.port p).rxLaneBad.any (fun j => j.val == i.val) = true then
      { s.port p with laneFixes := (s.port p).laneFixes.set i.val [] }
    else if (s.port p).failedLane ≠ 7 ∨ (s.port p).rxLaneBad.isSome = true then
      { s.port p with state := .failed, laneFixes := (s.port p).laneFixes.set i.val [] }
    else if small : i.val < 4 then
      { s.port p with rxLaneBad := some ⟨i.val, small⟩, linkCode := BitVec.ofNat 3 (1 + i.val), cleanRun := 0
                      laneFixes := (s.port p).laneFixes.set i.val [] }
    else { s.port p with failedLane := 4, laneFixes := (s.port p).laneFixes.set i.val [] })) :=
  congrArg Host.Outcome.next (if_pos up)

theorem rxLaneBad_any {x : FabPort} {i : Nat} :
    x.rxLaneBad.any (fun j => j.val == i) = true ↔ ∃ j : Fin 4, x.rxLaneBad = some j ∧ j.val = i := by
  simp only [Option.any_eq_true, beq_iff_eq]

/-- The first lane that fails: nothing has failed before it, and no takeover is under way. -/
theorem laneFail_first {i : Fin 5} (whole : (s.port p).failedLane = 7) (none : (s.port p).rxLaneBad = none) :
    ¬ ((s.port p).failedLane.toNat = i.val ∨ (s.port p).rxLaneBad.any (fun j => j.val == i.val) = true) ∧
      ¬ ((s.port p).failedLane ≠ 7 ∨ (s.port p).rxLaneBad.isSome = true) := by
  rw [whole, none]
  have other : (7 : BitVec 3).toNat ≠ i.val := by
    have : (7 : BitVec 3).toNat = 7 := rfl
    omega
  exact ⟨fun same => same.elim other Bool.false_ne_true, fun second => second.elim (fun ne => ne rfl) Bool.false_ne_true⟩

theorem laneFail_data {i : Fin 4} (up : (s.port p).state = .up) (whole : (s.port p).failedLane = 7) (none : (s.port p).rxLaneBad = none) :
    exec (.laneFail p ⟨i.val, by omega⟩) s = .next (Claims.withPort s p { s.port p with
      rxLaneBad := some i, linkCode := BitVec.ofNat 3 (1 + i.val), cleanRun := 0, laneFixes := (s.port p).laneFixes.set i.val [] }) := by
  obtain ⟨new, first⟩ := laneFail_first (i := ⟨i.val, by omega⟩) whole none
  rw [laneFail_up up, if_neg new, if_neg first, dif_pos i.isLt]

theorem laneFail_spare (up : (s.port p).state = .up) (whole : (s.port p).failedLane = 7) (none : (s.port p).rxLaneBad = none) :
    exec (.laneFail p 4) s = .next (Claims.withPort s p { s.port p with failedLane := 4, laneFixes := (s.port p).laneFixes.set 4 [] }) := by
  obtain ⟨new, first⟩ := laneFail_first (i := 4) whole none
  rw [laneFail_up up, if_neg new, if_neg first]
  rfl

theorem laneFail_second {i : Fin 5} (up : (s.port p).state = .up) (second : (s.port p).failedLane ≠ 7 ∨ (s.port p).rxLaneBad ≠ none)
    (other : (s.port p).failedLane.toNat ≠ i.val) (apart : ∀ j, (s.port p).rxLaneBad = some j → j.val ≠ i.val) :
    exec (.laneFail p i) s = .next (Claims.withPort s p { s.port p with
      state := .failed, laneFixes := (s.port p).laneFixes.set i.val [] }) := by
  have new : ¬ ((s.port p).failedLane.toNat = i.val ∨ (s.port p).rxLaneBad.any (fun j => j.val == i.val) = true) := fun same =>
    same.elim other fun taken => by
      obtain ⟨j, bad, eq⟩ := rxLaneBad_any.1 taken
      exact apart j bad eq
  rw [laneFail_up up, if_neg new, if_pos (second.imp_right Option.isSome_iff_ne_none.2)]

theorem laneFail_again {i : Fin 5} (up : (s.port p).state = .up)
    (same : (s.port p).failedLane.toNat = i.val ∨ ∃ j, (s.port p).rxLaneBad = some j ∧ j.val = i.val) :
    exec (.laneFail p i) s = .next (Claims.withPort s p { s.port p with laneFixes := (s.port p).laneFixes.set i.val [] }) := by
  rw [laneFail_up up, if_pos (same.imp_right rxLaneBad_any.2)]

/-- A takeover begins at the first multiple of 32 ns that is at least 64 ns away. -/
theorem spareTakeoverRequest_up {i : Fin 4} (up : (s.port p).state = .up) : ∃ b, s.now + 64 ≤ b ∧ b < s.now + 96 ∧ b % 32 = 0 ∧
    exec (.spareTakeoverRequest p i) s = .next (Claims.withPort s p { s.port p with txDup := some (i, b) }) :=
  ⟨(s.now + 64 + 31) / 32 * 32, by omega, by omega, by omega, congrArg Host.Outcome.next (if_pos up)⟩

theorem switchReady_iff : s.switchReady (s.port p) = true ↔
    (s.port p).rxLaneBad ≠ none ∧ 16 ≤ (s.port p).cleanRun ∧ s.now % 32 = 0 := by
  simp [State.switchReady, Option.isSome_iff_ne_none, and_assoc]

theorem spareLaneSwitch_waits (wait : ¬ ((s.port p).rxLaneBad ≠ none ∧ 16 ≤ (s.port p).cleanRun ∧ s.now % 32 = 0)) :
    exec (.spareLaneSwitch p) s = .next s :=
  congrArg Host.Outcome.next (if_neg fun ready => wait (switchReady_iff.1 ready))

theorem spareLaneSwitch_ready {i : Fin 4} (bad : (s.port p).rxLaneBad = some i) (clean : 16 ≤ (s.port p).cleanRun) (at32 : s.now % 32 = 0) :
    exec (.spareLaneSwitch p) s = .next (checkService (Claims.withPort s p { s.port p with
      rxLaneBad := none, linkCode := 5, spareInUse := true, failedLane := BitVec.ofNat 3 i.val, cleanRun := 0 })) := by
  have ready : s.switchReady (s.port p) = true := switchReady_iff.2 ⟨by rw [bad]; exact Option.some_ne_none i, clean, at32⟩
  refine (congrArg Host.Outcome.next (if_pos ready)).trans ?_
  simp only [State.updPort, bad]
  rfl

theorem spareTakeoverAck_none (none : (s.port p).txDup = none) : exec (.spareTakeoverAck p) s = .next s := by
  change execSpareTakeoverAck p s = _
  unfold execSpareTakeoverAck
  rw [none]

theorem spareTakeoverAck_some {i : Fin 4} {b : Nat} (doubled : (s.port p).txDup = some (i, b)) :
    exec (.spareTakeoverAck p) s = .next (Claims.withPort s p { s.port p with txDup := none, txStopped := some i }) := by
  change execSpareTakeoverAck p s = _
  unfold execSpareTakeoverAck
  rw [doubled]
  rfl

end

/-- Settles O50: each event is one branch of Table 11.2 on the port's state; a failing lane is the first (`laneFail_first`) or a second one, and
what raises the replace-request floods from ports in UP alone (`checkService_port`). -/
theorem linkStatesFollowTable11_2 : Obligations.LinkStatesFollowTable11_2 := by
  rintro s p x rfl
  refine ⟨fun _ => peerSignalDetect_found, fun _ => peerSignalDetect_stays, fun _ => trainDone_follows,
    fun _ other => congrArg Host.Outcome.next (if_neg other),
    fun m q align => ⟨congrArg Host.Outcome.next (if_pos align), congrArg Host.Outcome.next (if_pos align)⟩,
    fun _ _ _ other => congrArg Host.Outcome.next (if_neg other),
    fun up => congrArg Host.Outcome.next (if_pos up), fun other => congrArg Host.Outcome.next (if_neg other),
    fun free state => congrArg Host.Outcome.next (if_pos ⟨Bool.eq_false_iff.1 free, state⟩), fun held => congrArg Host.Outcome.next (if_neg ?retrain),
    fun _ => laneFail_data, laneFail_spare, fun _ => laneFail_second, fun _ => laneFail_again,
    fun _ other => congrArg Host.Outcome.next (if_neg other), fun _ other => congrArg Host.Outcome.next (if_neg other),
    fun none => spareLaneSwitch_waits fun ready => ready.1 none, spareTakeoverAck_none, fun _ => spareTakeoverRequest_up,
    fun i bad => ⟨fun clean at32 => ?switch, fun wait => spareLaneSwitch_waits fun ready => ?waits⟩, fun _ _ => spareTakeoverAck_some⟩
  case retrain =>
    exact fun ⟨free, state⟩ => held.elim free fun ⟨working, down⟩ => state.elim working down
  case switch =>
    have kept := (checkService_port (Claims.withPort s p { s.port p with
      rxLaneBad := none, linkCode := 5, spareInUse := true, failedLane := BitVec.ofNat 3 i.val, cleanRun := 0 }) p).1
    rw [withPort_port] at kept
    exact ⟨_, _, spareLaneSwitch_ready bad clean at32, checkService_served _, rfl, kept⟩
  case waits =>
    omega

end Sys2Proof.Machine

namespace Sys2Proof.Machine

/-! ## Steps that reach one port alone -/

/-- From `s` to `t` only port `p` has changed. -/
def PortOnly (p : Fin 16) (s t : State) : Prop := t = Claims.withPort s p (t.port p)

section
variable {s t u : State} {p : Fin 16}

theorem portOnly_refl (p : Fin 16) (s : State) : PortOnly p s s := withPort_self.symm

theorem portOnly_updPort (p : Fin 16) (f : FabPort → FabPort) (s : State) : PortOnly p s (s.updPort p f) := by
  unfold PortOnly
  rw [updPort_port, if_pos rfl]
  rfl

theorem updPort_eq (s : State) (p : Fin 16) (f : FabPort → FabPort) : s.updPort p f = Claims.withPort s p (f (s.port p)) := rfl

theorem withPort_withPort (x y : FabPort) : Claims.withPort (Claims.withPort s p x) p y = Claims.withPort s p y :=
  updPort_updPort s p (fun _ => x) (fun _ => y)

theorem PortOnly.trans (first : PortOnly p s t) (second : PortOnly p t u) : PortOnly p s u := by
  unfold PortOnly at *
  rw [second, first, withPort_withPort, withPort_port]

end

/-! ## Codewords (R286, R287, R293, R305) -/

section
variable {s : State} {p : Fin 16} {n : Nat} {w : WireFlit}

theorem codewordReceive_lost {cw : Codeword} (cells : (s.port p).cells = true) (lost : wordDecode cw (s.port p).spareFor = none) :
    exec (.codewordReceive p cw) s = .next (Claims.withPort s p { s.port p with
      fecUncorr := satInc (s.port p).fecUncorr, cleanRun := 0, syncRun := 0
      nacks := (s.port p).nacks ++ [(cw.index.setWidth 12, 4)] }) := by
  change execCodewordReceive p cw s = _
  unfold execCodewordReceive
  simp only [cells, lost, if_true]
  unfold sendNack
  rw [updPort_updPort]
  rfl

theorem codewordReceive_off {cw : Codeword} (off : (s.port p).cells = false) : exec (.codewordReceive p cw) s = .next s :=
  congrArg Host.Outcome.next (if_neg (Bool.eq_false_iff.1 off))

/-- What a flit of slot `n` does as its codeword comes in: one whose CRC fails is discarded. -/
def State.flitTaken (s : State) (p : Fin 16) (n : Nat) (w : WireFlit) : State := if wireCrcOk w then takeFlit p n w s else s

/-- What both flits of message `m` do in codeword `index`. -/
def State.bothTaken (s : State) (p : Fin 16) (index : BitVec 64) (m : Nat) : State :=
  (s.flitTaken p (2 * index.toNat) (firstFlit m)).flitTaken p (2 * index.toNat + 1) (secondFlit m)

/-- Port `x` after the FEC has found `syms`, with the places it has corrected. -/
def FabPort.decoded (now : U64) (cw : Codeword) (syms places : List Nat) (x : FabPort) : FabPort :=
  countSync cw.index.toNat syms (runClean cw syms (noteFixes now places x))

theorem codewordReceive_decoded {cw : Codeword} {syms places : List Nat} {m : Nat} (cells : (s.port p).cells = true)
    (decodes : wordDecode cw (s.port p).spareFor = some (syms, places)) (message : m = ofSyms (syms.take 514)) :
    exec (.codewordReceive p cw) s = .next (
      if (wireCrcOk (firstFlit m) && wireCrcOk (secondFlit m)) = true then
        (s.updPort p (FabPort.decoded s.time.hallTime cw syms places)).bothTaken p cw.index m
      else sendNack p cw.index ((s.updPort p (FabPort.decoded s.time.hallTime cw syms places)).bothTaken p cw.index m)) := by
  change execCodewordReceive p cw s = _
  unfold execCodewordReceive
  simp only [cells, decodes, if_true, message]
  rfl

/-- What the FEC finds is counted; the port keeps what it holds. -/
theorem decoded_keeps (now : U64) (cw : Codeword) (syms places : List Nat) (x : FabPort) :
    x.decoded now cw syms places = { x with fecCorr := satAdd x.fecCorr places.length
                                            laneFixes := (x.decoded now cw syms places).laneFixes
                                            cleanRun := (x.decoded now cw syms places).cleanRun
                                            syncRun := (x.decoded now cw syms places).syncRun } := by
  unfold FabPort.decoded countSync runClean noteFixes
  dsimp only
  split <;> split <;> rfl

theorem takeFlit_portOnly (p : Fin 16) (n : Nat) (w : WireFlit) (s : State) : PortOnly p s (takeFlit p n w s) := by
  unfold takeFlit
  exact portOnly_updPort ..

theorem flitTaken_portOnly (s : State) (p : Fin 16) (n : Nat) (w : WireFlit) : PortOnly p s (s.flitTaken p n w) := by
  unfold State.flitTaken
  split
  · exact takeFlit_portOnly ..
  · exact portOnly_refl ..

theorem bothTaken_portOnly (s : State) (p : Fin 16) (index : BitVec 64) (m : Nat) : PortOnly p s (s.bothTaken p index m) :=
  (flitTaken_portOnly ..).trans (flitTaken_portOnly ..)

/-- What taking a flit can change of its port. -/
theorem takeFlit_port (p : Fin 16) (n : Nat) (w : WireFlit) (s : State) :
    ((takeFlit p n w s).port p).nacks = (s.port p).nacks ∧
    (w.flit.fkind ≠ 2 → ((takeFlit p n w s).port p).c2In = (s.port p).c2In ∧ ((takeFlit p n w s).port p).c2SeqIn = (s.port p).c2SeqIn) := by
  unfold takeFlit
  rw [updPort_port, if_pos rfl]
  dsimp only
  split
  · exact ⟨rfl, fun _ => ⟨rfl, rfl⟩⟩
  · split
    · rename_i class2
      exact ⟨rfl, fun other => absurd class2.1 other⟩
    · exact ⟨rfl, fun _ => ⟨rfl, rfl⟩⟩

theorem flitTaken_port (s : State) (p : Fin 16) (n : Nat) (w : WireFlit) :
    ((s.flitTaken p n w).port p).nacks = (s.port p).nacks ∧
    (w.flit.fkind ≠ 2 → ((s.flitTaken p n w).port p).c2In = (s.port p).c2In ∧ ((s.flitTaken p n w).port p).c2SeqIn = (s.port p).c2SeqIn) := by
  unfold State.flitTaken
  split
  · exact takeFlit_port ..
  · exact ⟨rfl, fun _ => ⟨rfl, rfl⟩⟩

theorem bothTaken_nacks (s : State) (p : Fin 16) (index : BitVec 64) (m : Nat) :
    ((s.bothTaken p index m).port p).nacks = (s.port p).nacks := (flitTaken_port ..).1.trans (flitTaken_port ..).1

theorem takeFlit_presents (on : s.pwr.phase ≠ .dieOff) (alone : s.pwr.phase ≠ .standbyRelay) (up : (s.port p).state = .up)
    (other : w.flit.fkind ≠ 2) : (takeFlit p n w s).port p = { s.port p with
      rxCode := w.linkCode, nackIn := ((takeFlit p n w s).port p).nackIn, c2Sent := ((takeFlit p n w s).port p).c2Sent
      c2Again := ((takeFlit p n w s).port p).c2Again, c0in := (s.port p).c0in ++ cellMsgs w.cell
      present := (s.port p).present ++ Claims.presents (s.port p) n w } := by
  have runs : (s.pwr.phase == .dieOff || s.pwr.phase == .standbyRelay) = false := by
    simp [on, alone]
  have noClass2 : ∀ q : Prop, ¬ (w.flit.fkind = 2 ∧ q) := fun _ class2 => other class2.1
  unfold takeFlit Claims.presents
  rw [updPort_port, if_pos rfl]
  dsimp only
  rw [runs, up]
  by_cases class1 : w.flit.fkind = 1
  · rw [if_pos ⟨class1, rfl, Bool.false_ne_true⟩, if_pos class1]
  · rw [if_neg fun all => class1 all.1, if_neg (noClass2 _), if_neg class1, List.append_nil]

theorem takeFlit_class2 (up : (s.port p).state = .up) (class2 : w.flit.fkind = 2) (next : w.flit.c2Seq = (s.port p).c2SeqIn + 1)
    (room : (s.port p).c2In.length < 64) : ((takeFlit p n w s).port p).c2In = (s.port p).c2In ++ [w.flit] ∧
      ((takeFlit p n w s).port p).c2SeqIn = (s.port p).c2SeqIn + 1 := by
  have noClass1 : ∀ q : Prop, ¬ (w.flit.fkind = 1 ∧ q) := by
    rw [class2]
    exact fun _ class1 => absurd class1.1 (by decide)
  unfold takeFlit
  rw [updPort_port, if_pos rfl]
  dsimp only
  rw [if_neg (noClass1 _), if_pos ⟨class2, up, next, room⟩]
  exact ⟨rfl, next⟩

theorem codewordReceive_nacks {cw : Codeword} {syms places : List Nat} {m : Nat} (cells : (s.port p).cells = true)
    (decodes : wordDecode cw (s.port p).spareFor = some (syms, places)) (message : m = ofSyms (syms.take 514))
    (bad : wireCrcOk (firstFlit m) = false ∨ wireCrcOk (secondFlit m) = false) :
    ∃ t : State, exec (.codewordReceive p cw) s = .next t ∧ t = Claims.withPort s p (t.port p) ∧
      (t.port p).nacks = (s.port p).nacks ++ [(cw.index.setWidth 12, 4)] := by
  have fails : ¬ (wireCrcOk (firstFlit m) && wireCrcOk (secondFlit m)) = true := by
    rw [Bool.and_eq_true]
    exact fun ⟨first, second⟩ => bad.elim (fun no => Bool.false_ne_true (no.symm.trans first))
      fun no => Bool.false_ne_true (no.symm.trans second)
  have runs := codewordReceive_decoded cells decodes message
  rw [if_neg fails] at runs
  have kept := bothTaken_nacks (s.updPort p (FabPort.decoded s.time.hallTime cw syms places)) p cw.index m
  rw [updPort_port, if_pos rfl, decoded_keeps] at kept
  refine ⟨_, runs, ((portOnly_updPort ..).trans (bothTaken_portOnly ..)).trans (portOnly_updPort ..), ?_⟩
  unfold sendNack
  rw [updPort_port, if_pos rfl]
  exact congrArg (· ++ _) kept

theorem codewordReceive_presents {cw : Codeword} {syms places : List Nat} {m : Nat} {y : FabPort} (cells : (s.port p).cells = true)
    (decodes : wordDecode cw (s.port p).spareFor = some (syms, places)) (message : m = ofSyms (syms.take 514))
    (port : y = (s.port p).decoded s.time.hallTime cw syms places) (up : (s.port p).state = .up)
    (first : wireCrcOk (firstFlit m) = true) (second : wireCrcOk (secondFlit m) = true)
    (on : s.pwr.phase ≠ .dieOff) (alone : s.pwr.phase ≠ .standbyRelay)
    (other : (firstFlit m).flit.fkind ≠ 2) (other' : (secondFlit m).flit.fkind ≠ 2) :
    ∃ t : State, exec (.codewordReceive p cw) s = .next t ∧ t = Claims.withPort s p { y with
      rxCode := (secondFlit m).linkCode, nackIn := (t.port p).nackIn, c2Sent := (t.port p).c2Sent, c2Again := (t.port p).c2Again
      c0in := (s.port p).c0in ++ cellMsgs (firstFlit m).cell ++ cellMsgs (secondFlit m).cell
      present := (s.port p).present ++ Claims.presents (s.port p) (2 * cw.index.toNat) (firstFlit m) ++
        Claims.presents (s.port p) (2 * cw.index.toNat + 1) (secondFlit m) } := by
  have runs := codewordReceive_decoded cells decodes message
  rw [if_pos (Bool.and_eq_true_iff.2 ⟨first, second⟩)] at runs
  have only := (portOnly_updPort p (FabPort.decoded s.time.hallTime cw syms places) s).trans (bothTaken_portOnly _ p cw.index m)
  refine ⟨_, runs, Eq.trans only (congrArg (Claims.withPort s p) ?_)⟩
  subst port
  unfold State.bothTaken State.flitTaken
  rw [if_pos first, if_pos second]
  have start : (s.updPort p (FabPort.decoded s.time.hallTime cw syms places)).port p = (s.port p).decoded s.time.hallTime cw syms places := by
    rw [updPort_port, if_pos rfl]
  have kept := decoded_keeps s.time.hallTime cw syms places (s.port p)
  have frame : (s.updPort p (FabPort.decoded s.time.hallTime cw syms places)).pwr = s.pwr := rfl
  generalize s.updPort p (FabPort.decoded s.time.hallTime cw syms places) = u at *
  generalize (s.port p).decoded s.time.hallTime cw syms places = y at *
  have one := takeFlit_presents (s := u) (p := p) (n := 2 * cw.index.toNat) (by rw [frame]; exact on) (by rw [frame]; exact alone)
    (by rw [start, kept]; exact up) other
  have power : (takeFlit p (2 * cw.index.toNat) (firstFlit m) u).pwr = s.pwr := frame
  generalize takeFlit p (2 * cw.index.toNat) (firstFlit m) u = v at *
  have two := takeFlit_presents (s := v) (p := p) (n := 2 * cw.index.toNat + 1) (by rw [power]; exact on) (by rw [power]; exact alone)
    (by rw [one, start, kept]; exact up) other'
  rw [two, one, start, kept]
  rfl

theorem codewordReceive_class2 {cw : Codeword} {syms places : List Nat} {m : Nat} (cells : (s.port p).cells = true)
    (decodes : wordDecode cw (s.port p).spareFor = some (syms, places)) (message : m = ofSyms (syms.take 514)) (up : (s.port p).state = .up)
    (first : wireCrcOk (firstFlit m) = true) (class2 : (firstFlit m).flit.fkind = 2) (other : (secondFlit m).flit.fkind ≠ 2)
    (next : (firstFlit m).flit.c2Seq = (s.port p).c2SeqIn + 1) (room : (s.port p).c2In.length < 64) :
    ∃ t : State, exec (.codewordReceive p cw) s = .next t ∧ (t.port p).c2In = (s.port p).c2In ++ [(firstFlit m).flit] ∧
      (t.port p).c2SeqIn = (s.port p).c2SeqIn + 1 := by
  have start : (s.updPort p (FabPort.decoded s.time.hallTime cw syms places)).port p = (s.port p).decoded s.time.hallTime cw syms places := by
    rw [updPort_port, if_pos rfl]
  rw [decoded_keeps] at start
  have taken : ((s.updPort p (FabPort.decoded s.time.hallTime cw syms places)).bothTaken p cw.index m |>.port p).c2In =
      (s.port p).c2In ++ [(firstFlit m).flit] ∧
      ((s.updPort p (FabPort.decoded s.time.hallTime cw syms places)).bothTaken p cw.index m |>.port p).c2SeqIn = (s.port p).c2SeqIn + 1 := by
    generalize s.updPort p (FabPort.decoded s.time.hallTime cw syms places) = u at *
    obtain ⟨queued, counted⟩ := (flitTaken_port (u.flitTaken p (2 * cw.index.toNat) (firstFlit m)) p (2 * cw.index.toNat + 1) (secondFlit m)).2 other
    obtain ⟨added, number⟩ := takeFlit_class2 (s := u) (p := p) (n := 2 * cw.index.toNat) (by rw [start]; exact up) class2
      (by rw [start]; exact next) (by rw [start]; exact room)
    unfold State.bothTaken
    rw [queued, counted]
    unfold State.flitTaken
    rw [if_pos first, added, number, start]
    exact ⟨rfl, rfl⟩
  refine ⟨_, codewordReceive_decoded cells decodes message, ?_⟩
  split
  · exact taken
  · unfold sendNack
    rw [updPort_port, if_pos rfl]
    exact taken

end

/-! ## Copies and retries (R305, R306) -/

section
variable {s : State} {p : Fin 16}

theorem toRetry_room {f : Flit} (room : (s.port p).retry.length < 512) :
    toRetry p f s = s.updPort p fun x => { x with retry := x.retry ++ [⟨s.slot, { f with retry := true }⟩] } := if_pos room

/-- Copies that the retry buffer has room for join it in their order. -/
theorem foldS_toRetry (l : List Held) : ∀ s : State, (s.port p).retry.length + l.length ≤ 512 →
    foldS (fun h s => toRetry p h.flit s) l s =
      s.updPort p fun x => { x with retry := x.retry ++ l.map fun h => ⟨s.slot, { h.flit with retry := true }⟩ } := by
  induction l with
  | nil =>
    intro s _
    simp only [List.map_nil, List.append_nil]
    exact withPort_self.symm
  | cons h l ih =>
    intro s room
    rw [List.length_cons] at room
    rw [foldS_cons, toRetry_room (by omega), ih, updPort_updPort]
    · simp only [List.map_cons, List.append_assoc, List.singleton_append]
      rfl
    · rw [updPort_port, if_pos rfl, List.length_append, List.length_singleton]
      omega

theorem nackReceive_kept {idx : BitVec 12} (none : (s.port p).gone = [])
    (acked : ∀ e ∈ (s.port p).c2Sent, inCodeword (slotAt e.1.toNat) idx = false)
    (room : (s.port p).retry.length + ((s.port p).copies.filter fun h => inCodeword h.slot idx).length ≤ 512) :
    exec (.nackReceive p idx) s = .next (Claims.withPort s p { s.port p with
      copies := (s.port p).copies.filter fun h => !inCodeword h.slot idx
      retry := (s.port p).retry ++ ((s.port p).copies.filter fun h => inCodeword h.slot idx).map
        fun h => ⟨s.slot, { h.flit with retry := true }⟩ }) := by
  have noResend : ¬ ((s.port p).c2Sent.any fun e => inCodeword (slotAt e.1.toNat) idx) = true := by
    rw [List.any_eq_true]
    exact fun ⟨e, sent, mine⟩ => Bool.false_ne_true ((acked e sent).symm.trans mine)
  change execNackReceive p idx s = _
  unfold execNackReceive
  dsimp only
  rw [if_neg noResend, foldS_toRetry _ _ (by rw [updPort_port, if_pos rfl]; exact room), updPort_updPort, updPort_eq]
  dsimp only
  rw [none]
  rfl

theorem late_iff (h : Held) (n : Nat) : (!decide (h.slot + n ≤ s.slot)) = decide (s.slot < h.slot + n) := by
  rw [← decide_not]
  exact decide_eq_decide.2 Nat.not_le

theorem flitCopyExpire_eq : exec (.flitCopyExpire p) s = .next (Claims.withPort s p { s.port p with
    copies := (s.port p).copies.filter fun h => decide (s.slot < h.slot + 4096)
    gone := ((s.port p).gone ++ (s.port p).copies.filter fun h => decide (h.slot + 4096 ≤ s.slot)).filter
      fun h => decide (s.slot < h.slot + 8192) }) := by
  change execFlitCopyExpire p s = _
  unfold execFlitCopyExpire
  simp only [late_iff]
  rfl

/-- From `s` to `t` flits of port `p` have been lost: they are counted at the port and logged. -/
def FlitsLost (p : Fin 16) (s t : State) : Prop :=
  t = { s with mgmt := t.mgmt, fab := t.fab } ∧ t.port p = { s.port p with c1Lost := (t.port p).c1Lost }

theorem logErr_port (code : U16) (core : Option (Fin 32)) (d0 d1 : U64) (s : State) (p : Fin 16) :
    (logErr code core d0 d1 s).port p = s.port p := by
  rw [logErr_frame]
  rfl

theorem c1Lost_lost (f : Flit) : FlitsLost p s (c1Lost p f s) ∧ ((c1Lost p f s).port p).c1Lost = satInc (s.port p).c1Lost := by
  have port : (c1Lost p f s).port p = { s.port p with c1Lost := satInc (s.port p).c1Lost } := by
    unfold c1Lost
    rw [logErr_port, updPort_port, if_pos rfl]
  refine ⟨⟨?_, ?_⟩, ?_⟩
  · unfold c1Lost
    rw [logErr_frame]
    rfl
  · rw [port]
  · rw [port]

theorem foldS_c1Lost (l : List Held) : ∀ s : State, FlitsLost p s (foldS (fun h s => c1Lost p h.flit s) l s) := by
  induction l with
  | nil => exact fun s => ⟨rfl, rfl⟩
  | cons h l ih =>
    intro s
    obtain ⟨frame, port⟩ := (c1Lost_lost (s := s) (p := p) h.flit).1
    obtain ⟨frame', port'⟩ := ih (c1Lost p h.flit s)
    rw [foldS_cons]
    refine ⟨?_, ?_⟩
    · rw [frame', frame]
    · rw [port', port]

/-- Port `p` of `s` without the retries that have waited 8,192 slots. -/
def State.retriesLeft (s : State) (p : Fin 16) : State :=
  s.updPort p fun x => { x with retry := x.retry.filter fun h => decide (s.slot < h.slot + 8192) }

theorem retryWaitExpire_eq : exec (.retryWaitExpire p) s = .next (foldS (fun h s => c1Lost p h.flit s)
    ((s.port p).retry.filter fun h => decide (h.slot + 8192 ≤ s.slot)) (s.retriesLeft p)) := by
  change execRetryWaitExpire p s = _
  unfold execRetryWaitExpire
  simp only [late_iff]
  rfl

theorem retryWaitExpire_loses : ∃ t : State, exec (.retryWaitExpire p) s = .next t ∧ t = { s with mgmt := t.mgmt, fab := t.fab } ∧
    t.port p = { s.port p with retry := (s.port p).retry.filter fun h => decide (s.slot < h.slot + 8192), c1Lost := (t.port p).c1Lost } ∧
    ((∀ h ∈ (s.port p).retry, s.slot < h.slot + 8192) → t = s) ∧
    (∀ h, ((s.port p).retry.filter fun h => decide (h.slot + 8192 ≤ s.slot)) = [h] → (t.port p).c1Lost = satInc (s.port p).c1Lost) := by
  obtain ⟨frame, port⟩ := foldS_c1Lost (p := p) ((s.port p).retry.filter fun h => decide (h.slot + 8192 ≤ s.slot)) (s.retriesLeft p)
  have left : (s.retriesLeft p).port p =
      { s.port p with retry := (s.port p).retry.filter fun h => decide (s.slot < h.slot + 8192) } := (updPort_port ..).trans (if_pos rfl)
  refine ⟨_, retryWaitExpire_eq, frame, ?_, fun young => ?_, fun h one => ?_⟩
  · rw [left] at port
    exact port
  · have none : ((s.port p).retry.filter fun h => decide (h.slot + 8192 ≤ s.slot)) = [] :=
      List.filter_eq_nil_iff.2 fun h waits => by
        have := young h waits
        rw [decide_eq_true_eq]
        omega
    have all : ((s.port p).retry.filter fun h => decide (s.slot < h.slot + 8192)) = (s.port p).retry :=
      List.filter_eq_self.2 fun h waits => decide_eq_true (young h waits)
    rw [none]
    change s.retriesLeft p = s
    unfold State.retriesLeft
    rw [updPort_eq]
    rw [all]
    exact withPort_self
  · rw [one, foldS_one, (c1Lost_lost ..).2, left]

/-! ## Class 2 that is sent again (R311) -/

theorem c2ResendTimeout_due {a : U64} {f : Flit} {l : List (U64 × Flit)} (sent : (s.port p).c2Sent = (a, f) :: l)
    (due : a.toNat + 2000 ≤ s.now) : exec (.c2ResendTimeout p) s = .next (Claims.withPort s p { s.port p with
      c2Again := f :: l.map (·.2) ++ (s.port p).c2Again, c2Sent := [], c2Resend := satAdd (s.port p).c2Resend (l.length + 1) }) := by
  change execC2ResendTimeout p s = _
  unfold execC2ResendTimeout c2Resend
  rw [sent]
  dsimp only
  rw [if_pos due, updPort_eq, sent]
  rfl

theorem c2ResendTimeout_early {a : U64} {f : Flit} {l : List (U64 × Flit)} (sent : (s.port p).c2Sent = (a, f) :: l)
    (early : s.now < a.toNat + 2000) : exec (.c2ResendTimeout p) s = .next s := by
  change execC2ResendTimeout p s = _
  unfold execC2ResendTimeout
  rw [sent]
  exact congrArg Host.Outcome.next (if_neg (Nat.not_le.2 early))

end

/-- Settles O51: a codeword reaches its port alone (`bothTaken_portOnly`), each of its flits by `takeFlit_port`; what is kept of class 1 joins
the retry buffer (`foldS_toRetry`) or is lost (`foldS_c1Lost`). -/
theorem lostFlitsAreResent : Obligations.LostFlitsAreResent := by
  rintro s p x rfl
  refine ⟨fun _ => codewordReceive_lost, fun _ => codewordReceive_off, ?decoded, fun _ => nackReceive_kept, flitCopyExpire_eq,
    retryWaitExpire_loses, fun a f l sent => ⟨c2ResendTimeout_due sent, c2ResendTimeout_early sent⟩⟩
  rintro cw syms places m y cells decodes message port
  refine ⟨?_, codewordReceive_nacks cells decodes message, codewordReceive_presents cells decodes message port,
    codewordReceive_class2 cells decodes message⟩
  have kept := decoded_keeps s.time.hallTime cw syms places (s.port p)
  unfold FabPort.decoded at kept
  rw [port, kept]

end Sys2Proof.Machine

namespace Sys2Proof.Machine

/-! ## A flit leaves (R287, R293, R301, R305) -/

section
variable {s t u : State} {p : Fin 16} {f : Flit}

theorem PortOnly.frame (only : PortOnly p s t) : t = { s with fab := t.fab } := by
  unfold PortOnly at only
  rw [only]
  rfl

theorem PortOnly.queues (only : PortOnly p s t) : t.fab.queues = s.fab.queues := by
  unfold PortOnly at only
  rw [only]
  rfl

theorem PortOnly.other (only : PortOnly p s t) {q : Fin 16} (apart : q ≠ p) : t.port q = s.port q := by
  unfold PortOnly at only
  rw [only]
  exact (updPort_port s p q fun _ => t.port p).trans (if_neg apart)

/-- The trailer that a port makes has the CRC of its flit. -/
theorem wireCrcOk_wire (x : FabPort) (n : Nat) (f : Flit) (cell : C0Msg) : wireCrcOk (x.wire n f cell) = true :=
  beq_iff_eq.2 rfl

theorem sendFlit_portOnly (p : Fin 16) (f : Flit) (s : State) : PortOnly p s (sendFlit p f s) := by
  unfold sendFlit
  exact portOnly_updPort ..

/-- What a port that sends `f` in this slot keeps, and what it notes of it. -/
theorem sendFlit_port (p : Fin 16) (f : Flit) (s : State) : ∃ cell q at_ v, (sendFlit p f s).port p = { s.port p with
    c0q := q, nacks := nackSent (s.port p).nacks, soundAt := at_
    copies := (s.port p).copies ++ if f.fkind = 1 then [⟨s.slot, f⟩] else []
    lastSent := some (s.slot, (s.port p).wire s.slot f cell)
    sentWord := if s.slot % 2 = 1 then some ((s.port p).txWord (s.slot / 2) v ((s.port p).wire s.slot f cell)) else (s.port p).sentWord } := by
  unfold sendFlit
  rw [updPort_port, if_pos rfl]
  have kept : (if f.fkind = 1 then (s.port p).copies ++ [⟨s.slot, f⟩] else (s.port p).copies) =
      (s.port p).copies ++ if f.fkind = 1 then [⟨s.slot, f⟩] else [] := by
    split
    · rfl
    · rw [List.append_nil]
  rw [← kept]
  exact ⟨_, _, _, _, rfl⟩

/-- Port `y` is `x` but for the flits that it has to send. -/
def FabPort.SameWire (x y : FabPort) : Prop := y = { x with
  transit := y.transit, retry := y.retry, c1Retry := y.c1Retry, c2Out := y.c2Out, c2Again := y.c2Again, c2Sent := y.c2Sent, c2SeqOut := y.c2SeqOut }

/-- A flit leaves as port `p` of `s` sends, though what it had to send has changed. -/
theorem sendFlit_hasSent (time : u.time = s.time) (same : (s.port p).SameWire (u.port p)) (others : ∀ q, q ≠ p → u.port q = s.port q) :
    Claims.HasSent s (sendFlit p f u) p f := by
  obtain ⟨cell, q, at_, v, port⟩ := sendFlit_port p f u
  have slot : u.slot = s.slot := by
    unfold State.slot State.now
    rw [time]
  rw [slot, same] at port
  refine ⟨⟨(s.port p).wire s.slot f cell, ?_, rfl, rfl, rfl, rfl, rfl, ?_, wireCrcOk_wire ..⟩, ?_, fun odd => ?_, fun q apart => ?_⟩
  · rw [port]
    rfl
  · intro i n l nacks
    unfold FabPort.wire
    dsimp only
    rw [nacks]
  · rw [port]
  · refine ⟨v, (s.port p).wire s.slot f cell, rfl, ?_⟩
    rw [port]
    exact if_pos odd
  · rw [(sendFlit_portOnly p f u).other apart, others q apart]

theorem sendFlit_hasSent_upd {g : FabPort → FabPort} (same : (s.port p).SameWire (g (s.port p))) :
    Claims.HasSent s (sendFlit p f (s.updPort p g)) p f := by
  refine sendFlit_hasSent rfl ?_ fun q apart => (updPort_port ..).trans (if_neg apart)
  rw [updPort_port, if_pos rfl]
  exact same

theorem sendFlit_here (p : Fin 16) (f : Flit) (s : State) : Claims.HasSent s (sendFlit p f s) p f :=
  sendFlit_hasSent rfl rfl fun _ _ => rfl

/-- What a port still has to send once `f` has left. -/
theorem sendFlit_waiting (p : Fin 16) (f : Flit) (s : State) :
    ((sendFlit p f s).port p).transit = (s.port p).transit ∧ ((sendFlit p f s).port p).retry = (s.port p).retry ∧
    ((sendFlit p f s).port p).c1Retry = (s.port p).c1Retry ∧ ((sendFlit p f s).port p).c2Out = (s.port p).c2Out ∧
    ((sendFlit p f s).port p).c2Again = (s.port p).c2Again ∧ ((sendFlit p f s).port p).c2Sent = (s.port p).c2Sent ∧
    ((sendFlit p f s).port p).c2SeqOut = (s.port p).c2SeqOut := by
  obtain ⟨cell, q, at_, v, port⟩ := sendFlit_port p f s
  rw [port]
  exact ⟨rfl, rfl, rfl, rfl, rfl, rfl, rfl⟩

/-! ## Class 2 in a slot (R311, Table 14.6) -/

theorem sendClass2_stopped (deep : 2 ≤ s.pwr.tier.val) : sendClass2 p s = sendFlit p emptyFlit s := if_pos deep

/-- Class-2 flit `g` is sent again, and `l` are left to be. -/
def State.againTaken (s : State) (p : Fin 16) (g : Flit) (l : List Flit) : State :=
  s.updPort p fun x => { x with c2Again := l, c2Sent := x.c2Sent ++ [(s.time.hallTime, g)] }

theorem sendClass2_again {g : Flit} {l : List Flit} (again : (s.port p).c2Again = g :: l) (tier : s.pwr.tier.val < 2) :
    sendClass2 p s = sendFlit p g (s.againTaken p g l) := by
  unfold sendClass2
  rw [if_neg (Nat.not_le.2 tier), again]
  rfl

/-- The next number of class 2 on port `p`, in flit `f`. -/
def State.class2Next (s : State) (p : Fin 16) (f : Flit) : Flit := { f with c2Seq := (s.port p).c2SeqOut + 1 }

/-- Class-2 flit `f` no longer waits on port `p` but for its acknowledgement. -/
def State.class2Taken (s : State) (p : Fin 16) (f : Flit) : State := s.updPort p fun x => { x with
  c2Out := x.c2Out.erase f, c2SeqOut := x.c2SeqOut + 1, c2Sent := x.c2Sent ++ [(s.time.hallTime, s.class2Next p f)] }

theorem sendClass2_next (none : (s.port p).c2Again = []) (next : nextC2 (s.port p).c2Out = some f)
    (room : (s.port p).c2Sent.length < 64) (tier : s.pwr.tier.val < 2) :
    sendClass2 p s = sendFlit p (s.class2Next p f) (s.class2Taken p f) := by
  unfold sendClass2
  rw [if_neg (Nat.not_le.2 tier), none, next]
  exact if_pos room

theorem sendClass2_empty (none : (s.port p).c2Out = []) (none' : (s.port p).c2Again = []) : sendClass2 p s = sendFlit p emptyFlit s := by
  unfold sendClass2
  dsimp only
  rw [none', none]
  exact ite_self _

theorem sendClass2_portOnly (p : Fin 16) (s : State) : PortOnly p s (sendClass2 p s) := by
  unfold sendClass2
  dsimp only
  split
  · exact sendFlit_portOnly ..
  · split
    · exact (portOnly_updPort ..).trans (sendFlit_portOnly ..)
    · split
      · split
        · exact (portOnly_updPort ..).trans (sendFlit_portOnly ..)
        · exact sendFlit_portOnly ..
      · exact sendFlit_portOnly ..

/-- Fault reports, IKIND 3, go first. -/
theorem nextC2_report {l : List Flit} (next : nextC2 l = some f) : ∀ g ∈ l, g.ikind = 3 → f.ikind = 3 := by
  intro g waits report
  unfold nextC2 at next
  cases found : l.find? fun f => f.ikind == 3 with
  | none => exact absurd (beq_iff_eq.2 report) (List.find?_eq_none.1 found g waits)
  | some h =>
    rw [found] at next
    obtain rfl := Option.some.inj next
    exact beq_iff_eq.1 (List.find?_some (p := fun f : Flit => f.ikind == 3) found)

/-! ## The slots (R301, R303, R306) -/

theorem launchSlot_sends {q : Nat} {l : List Flit} (slot : s.slotIs p 1 = true) (queue : q = bits (s.entryNow p s.slot) 11 0)
    (head : tget [] s.fab.queues q = f :: l) (live : s.seq.state ≠ .halted) :
    exec (.launchSlot p) s = .next (sendFlit p { f with epoch := s.seq.mark.setWidth 11 }
      { s with fab := { s.fab with queues := tset [] s.fab.queues q l } }) := by
  change execLaunchSlot p s = _
  unfold execLaunchSlot
  simp only [slot, if_true, ← queue, head, live, if_false]
  rfl

theorem launchSlot_halted (slot : s.slotIs p 1 = true) (halted : s.seq.state = .halted) :
    exec (.launchSlot p) s = .next (sendClass2 p s) := by
  change execLaunchSlot p s = _
  unfold execLaunchSlot
  simp only [slot, halted, if_true]
  split <;> rfl

/-- The flit that a TRANSIT slot finds (R303). -/
theorem transit_found {pre post : List Crossing} {h : Crossing} (transit : (s.port p).transit = pre ++ h :: post) (now : h.slot = s.slot)
    (before : ∀ y ∈ pre, y.slot ≠ s.slot) : ((s.port p).transit.find? fun h => h.slot == s.slot) = some h ∧
      (s.port p).transit.erase h = pre ++ post := by
  have early : ∀ y ∈ pre, (y.slot == s.slot) = false := fun y waits => beq_eq_false_iff_ne.2 (before y waits)
  rw [transit]
  exact ⟨find_first _ pre post h early (beq_iff_eq.2 now), erase_first (fun h => h.slot == s.slot) pre post h early (beq_iff_eq.2 now)⟩

/-- The flits that cross port `p` in other slots. -/
def State.transitLeft (s : State) (p : Fin 16) (h : Crossing) : State := s.updPort p fun x => { x with transit := x.transit.erase h }

theorem transitSlot_crosses {h : Crossing} (up : (s.port p).state = .up)
    (found : ((s.port p).transit.find? fun h => h.slot == s.slot) = some h) (same : ∀ g, s.ownFlit p = some g → g.epoch = h.flit.epoch) :
    exec (.transitSlot p) s = .next (sendFlit p h.flit (s.transitLeft p h)) := by
  change execTransitSlot p s = _
  unfold execTransitSlot
  simp only [up, if_true, found]
  cases own : s.ownFlit p with
  | none => rfl
  | some g => simp [same g own, State.transitLeft]

theorem transitSlot_clashes {h : Crossing} {g : Flit} (up : (s.port p).state = .up)
    (found : ((s.port p).transit.find? fun h => h.slot == s.slot) = some h) (own : s.ownFlit p = some g) (other : g.epoch ≠ h.flit.epoch) :
    exec (.transitSlot p) s = .next (sendFlit p h.flit
      ((slotCollision 4 s.slot h.inp.val p.val (flitHeaderLow h.flit) s).transitLeft p h)) := by
  change execTransitSlot p s = _
  unfold execTransitSlot
  simp only [up, if_true, found, own, bne_iff_ne.2 other]
  rfl

theorem transitSlot_empty (slot : s.slotIs p 2 = true) (none : ∀ y ∈ (s.port p).transit, y.slot ≠ s.slot) :
    exec (.transitSlot p) s = .next (sendFlit p emptyFlit s) := by
  have up : (s.port p).state = .up := beq_iff_eq.1 (Bool.and_eq_true_iff.1 slot).1
  have found : ((s.port p).transit.find? fun h => h.slot == s.slot) = Option.none :=
    find_none_of_all fun y waits => beq_eq_false_iff_ne.2 (none y waits)
  change execTransitSlot p s = _
  unfold execTransitSlot
  simp only [up, if_true, found, slot]

/-- A collision halts a die that holds an image (R303, R388). -/
theorem slotCollision_halts {cause idx inp outp : Nat} {hdr : U64} (loaded : s.seq.state ≠ .empty) (live : s.seq.state ≠ .halted) :
    (slotCollision cause idx inp outp hdr s).seq.state = .halted ∧ (slotCollision cause idx inp outp hdr s).mgmt.halt.valid = true ∧
      (slotCollision cause idx inp outp hdr s).mgmt.halt.reason = hcSlot := by
  unfold slotCollision
  rw [raiseHalt_running _ s loaded live]
  exact ⟨rfl, rfl, rfl⟩

theorem PortOnly.halt (only : PortOnly p s t) : t.seq = s.seq ∧ t.mgmt = s.mgmt := by
  rw [only.frame]
  exact ⟨rfl, rfl⟩

/-- A retry of port `p` leaves, and `l` wait behind it. -/
def State.retryTaken (s : State) (p : Fin 16) (l : List Held) : State :=
  s.updPort p fun x => { x with retry := l, c1Retry := satInc x.c1Retry }

theorem retrySlot_sends {h : Held} {l : List Held} (slot : s.slotIs p 3 = true) (retry : (s.port p).retry = h :: l) :
    exec (.retrySlot p) s = .next (sendFlit p h.flit (s.retryTaken p l)) := by
  change execRetrySlot p s = _
  unfold execRetrySlot
  simp only [slot, if_true, retry]
  rfl

theorem freeSlot_class2 (slot : s.slotIs p 0 = true) : exec (.freeSlot p) s = .next (sendClass2 p s) := congrArg Host.Outcome.next (if_pos slot)

/-! ## Presentation (R303, R306, R296) -/

/-- Port `p` without the flits whose presentation slot has come. -/
def State.presented (s : State) (p : Fin 16) : State :=
  s.updPort p fun x => { x with present := x.present.filter fun h => decide (s.slot < h.slot) }

theorem flitPresent_one {h : Held} (due : ((s.port p).present.filter fun h => decide (h.slot ≤ s.slot)) = [h]) :
    exec (.flitPresent p) s = .next (presentFlit p h (s.presented p)) := by
  have early (h : Held) : (!decide (h.slot ≤ s.slot)) = decide (s.slot < h.slot) := by
    rw [← decide_not]
    exact decide_eq_decide.2 Nat.not_le
  change execFlitPresent p s = _
  unfold execFlitPresent
  simp only [due, early, foldS_one]
  rfl

theorem presentFlit_lands {h : Held} (here : h.flit.dest = s.module) : presentFlit p h s =
    { s with fab := { s.fab with landing := s.fab.landing ++ [⟨h.slot + 1, h.flit⟩] } } := if_pos here

section
variable {h : Held} {r : U32} {a b : Fin 16} (away : h.flit.dest ≠ s.module) (route : r = tget 0 s.fab.route h.flit.dest.toNat)
include away route

theorem presentFlit_noRoute (invalid : r.getLsbD 31 = false) :
    presentFlit p h s = slotCollision 3 (h.slot + 1) p.val 15 (flitHeaderLow h.flit) s := by
  unfold presentFlit
  dsimp only
  rw [if_neg away, ← route, if_pos (show ¬ bit r 31 = true from Bool.eq_false_iff.1 invalid)]

section
variable (valid : r.getLsbD 31 = true)
include valid

theorem presentFlit_retries (name : a = portOf (bits r 3 0)) (retry : h.flit.retry = true) : presentFlit p h s = toRetry a h.flit s := by
  unfold presentFlit
  dsimp only
  rw [if_neg away, ← route, if_neg (not_not.2 (show bit r 31 = true from valid)), if_pos retry, name]

theorem presentFlit_claimed (first : a = portOf (bits r 3 0)) (second : b = portOf (bits r 7 4)) (fresh : h.flit.retry = false) :
    presentFlit p h s =
      if (claims (s.transitSet h.flit) a p (h.slot + 1) && (claims (s.transitSet h.flit) b p (h.slot + 1) && decide (a ≠ b))) = true then
        slotCollision 2 (h.slot + 1) p.val 15 (flitHeaderLow h.flit) s
      else if claims (s.transitSet h.flit) a p (h.slot + 1) = true then toTransit p a (h.slot + 1) h.flit s
      else if (claims (s.transitSet h.flit) b p (h.slot + 1) && decide (a ≠ b)) = true then toTransit p b (h.slot + 1) h.flit s
      else slotCollision 1 (h.slot + 1) p.val 15 (flitHeaderLow h.flit) s := by
  unfold presentFlit
  dsimp only
  rw [if_neg away, ← route, if_neg (not_not.2 (show bit r 31 = true from valid)), if_neg (Bool.eq_false_iff.1 fresh), ← first, ← second]

theorem presentFlit_transits (first : a = portOf (bits r 3 0)) (second : b = portOf (bits r 7 4)) (fresh : h.flit.retry = false)
    (mine : claims (s.transitSet h.flit) a p (h.slot + 1) = true)
    (one : claims (s.transitSet h.flit) b p (h.slot + 1) = false ∨ a = b) (free : ∀ y ∈ (s.port a).transit, y.slot ≠ h.slot + 1) :
    presentFlit p h s = s.updPort a fun x => { x with transit := x.transit ++ [⟨h.slot + 1, h.flit, p⟩] } := by
  have single : (claims (s.transitSet h.flit) b p (h.slot + 1) && decide (a ≠ b)) = false := by
    obtain no | same := one
    · rw [no, Bool.false_and]
    · rw [decide_eq_false (not_not.2 same), Bool.and_false]
  have empty : ¬ ((s.port a).transit.any fun y => y.slot == h.slot + 1) = true := by
    rw [List.any_eq_true]
    exact fun ⟨y, waits, now⟩ => free y waits (beq_iff_eq.1 now)
  rw [presentFlit_claimed away route valid first second fresh, single, mine, if_neg Bool.false_ne_true, if_pos rfl]
  exact if_neg empty

theorem presentFlit_collides (first : a = portOf (bits r 3 0)) (second : b = portOf (bits r 7 4)) (fresh : h.flit.retry = false)
    (unique : claims (s.transitSet h.flit) a p (h.slot + 1) = false ∧ claims (s.transitSet h.flit) b p (h.slot + 1) = false ∨
      claims (s.transitSet h.flit) a p (h.slot + 1) = true ∧ claims (s.transitSet h.flit) b p (h.slot + 1) = true ∧ a ≠ b) :
    ∃ cause, presentFlit p h s = slotCollision cause (h.slot + 1) p.val 15 (flitHeaderLow h.flit) s := by
  rw [presentFlit_claimed away route valid first second fresh]
  obtain ⟨none, none'⟩ | ⟨mine, mine', apart⟩ := unique
  · rw [none, none']
    exact ⟨1, rfl⟩
  · rw [mine, mine', decide_eq_true apart]
    exact ⟨2, rfl⟩

end
end

end

/-- Settles O52: every slot ends in one `sendFlit`, whose flit leaves as `sendFlit_hasSent` says, and a flit that is presented goes on by the
branches of R303 (`presentFlit_lands` to `presentFlit_collides`). -/
theorem slotsSendWhatTheTableSays : Obligations.SlotsSendWhatTheTableSays := by
  rintro s p x rfl
  refine ⟨?launch, fun slot halted => ⟨_, launchSlot_halted slot halted, (sendClass2_portOnly p s).queues⟩,
    fun other => congrArg Host.Outcome.next (if_neg (Bool.eq_false_iff.1 other)), ?transit, ?clash,
    fun slot none => ⟨_, transitSlot_empty slot none, (sendFlit_portOnly p emptyFlit s).frame, sendFlit_here p emptyFlit s⟩, ?retry, ?again,
    ?idle, ?deep, fun other => congrArg Host.Outcome.next (if_neg (Bool.eq_false_iff.1 other)), ?next, ?present⟩
  case launch =>
    intro q f l slot queue head live
    have only := sendFlit_portOnly p { f with epoch := s.seq.mark.setWidth 11 } { s with fab := { s.fab with queues := tset [] s.fab.queues q l } }
    exact ⟨_, launchSlot_sends slot queue head live, only.frame, only.queues, sendFlit_hasSent rfl rfl fun _ _ => rfl⟩
  case transit =>
    intro pre post h up transit now before same
    obtain ⟨found, erased⟩ := transit_found transit now before
    obtain ⟨left, -⟩ := sendFlit_waiting p h.flit (s.transitLeft p h)
    refine ⟨_, transitSlot_crosses up found same, ((portOnly_updPort ..).trans (sendFlit_portOnly ..)).frame, left.trans ?_, sendFlit_hasSent_upd rfl⟩
    rw [State.transitLeft, updPort_port, if_pos rfl]
    exact erased
  case clash =>
    intro pre post h g up transit now before own other loaded live
    obtain ⟨found, -⟩ := transit_found transit now before
    refine ⟨_, transitSlot_clashes up found own other, ?_⟩
    obtain ⟨seq, mgmt⟩ := ((portOnly_updPort p _ (slotCollision 4 s.slot h.inp.val p.val (flitHeaderLow h.flit) s)).trans
      (sendFlit_portOnly p h.flit _)).halt
    unfold State.transitLeft
    rw [seq, mgmt]
    exact slotCollision_halts loaded live
  case retry =>
    intro h l slot retry
    obtain ⟨-, left, count, -⟩ := sendFlit_waiting p h.flit (s.retryTaken p l)
    rw [State.retryTaken, updPort_port, if_pos rfl] at left count
    exact ⟨_, retrySlot_sends slot retry, ((portOnly_updPort ..).trans (sendFlit_portOnly ..)).frame, left, count, sendFlit_hasSent_upd rfl⟩
  case again =>
    intro g l slot again tier
    have runs := freeSlot_class2 slot
    rw [sendClass2_again again tier] at runs
    obtain ⟨-, -, -, out, left, sent, number⟩ := sendFlit_waiting p g (s.againTaken p g l)
    rw [State.againTaken, updPort_port, if_pos rfl] at out left sent number
    exact ⟨_, runs, ((portOnly_updPort ..).trans (sendFlit_portOnly ..)).frame, left, out, number, sent, sendFlit_hasSent_upd rfl⟩
  case idle =>
    intro slot none none'
    have runs := freeSlot_class2 slot
    rw [sendClass2_empty none none'] at runs
    exact ⟨_, runs, (sendFlit_portOnly ..).frame, sendFlit_here ..⟩
  case deep =>
    intro slot deep
    have runs := freeSlot_class2 slot
    rw [sendClass2_stopped deep] at runs
    obtain ⟨-, -, -, out, again, -, -⟩ := sendFlit_waiting p emptyFlit s
    exact ⟨_, runs, (sendFlit_portOnly ..).frame, out, again, sendFlit_here ..⟩
  case next =>
    intro f slot none next room tier
    have runs := freeSlot_class2 slot
    rw [sendClass2_next none next room tier] at runs
    obtain ⟨-, -, -, out, -, sent, number⟩ := sendFlit_waiting p (s.class2Next p f) (s.class2Taken p f)
    rw [State.class2Taken, updPort_port, if_pos rfl] at out sent number
    exact ⟨nextC2_report next, _, runs, ((portOnly_updPort ..).trans (sendFlit_portOnly ..)).frame, out, number, sent, sendFlit_hasSent_upd rfl⟩
  case present =>
    intro h due
    have runs := flitPresent_one due
    have transit (a : Fin 16) : ((s.presented p).port a).transit = (s.port a).transit := updPort_field FabPort.transit rfl
    have retries (a : Fin 16) : ((s.presented p).port a).retry = (s.port a).retry := updPort_field FabPort.retry rfl
    refine ⟨fun here => ?_, fun r a b away route valid first second fresh mine one free => ?_,
      fun r a away route valid retry first room => ?_, fun r a b away route first second bad loaded live => ?_⟩
    · rw [runs, presentFlit_lands (s := s.presented p) here]
      rfl
    · rw [presentFlit_transits (s := s.presented p) away route valid first second fresh mine one (by rw [transit]; exact free)] at runs
      refine ⟨_, runs, rfl, ?_⟩
      rw [updPort_port, if_pos rfl, transit]
    · rw [presentFlit_retries (s := s.presented p) away route valid first retry, toRetry_room (by rw [retries]; exact room)] at runs
      refine ⟨_, runs, rfl, ?_⟩
      rw [updPort_port, if_pos rfl, retries, ← retry]
      rfl
    · have collides : ∃ cause, presentFlit p h (s.presented p) =
          slotCollision cause (h.slot + 1) p.val 15 (flitHeaderLow h.flit) (s.presented p) := by
        cases valid : r.getLsbD 31 with
        | false => exact ⟨3, presentFlit_noRoute (s := s.presented p) away route valid⟩
        | true =>
          obtain ⟨fresh, unique⟩ := bad.resolve_left fun no => Bool.false_ne_true (no.symm.trans valid)
          exact presentFlit_collides (s := s.presented p) away route valid first second fresh unique
      obtain ⟨cause, collides⟩ := collides
      rw [collides] at runs
      exact ⟨_, runs, slotCollision_halts loaded live⟩

end Sys2Proof.Machine

namespace Sys2Proof.Machine

/-! ## A write that lands on a path which its table lists twice (R308) -/

/-- A bell operation of module 0, core 0, on word 0 of core 0's scratchpad. -/
def lateBell : Flit :=
  { fkind := 1, pathSeq := 0, offset := 0, space := 1, len4 := 0, src := 0, srcCore := 0, ikind := 4, last := true, retry := false
    epoch := 0, dest := 0, key := 0, c2Seq := 0, payload := [] }

/-- A write of one byte to an accumulator buffer, item 0 of the same path. -/
def bufferWrite : Flit := { lateBell with ikind := 0, space := 2, payload := [7] }

/-- The path is listed twice: fresh, and behind that with the bell operation as its item 0. -/
def doublePaths : Tbl PathIn := [(0, {}), (0, { waiting := [(0, lateBell)] })]

/-- Window 1: the first byte of space 2, for writes with key 0, from mark 0 to mark 2^31. -/
def bufferWindow : W256 := BitVec.ofNat 256 (2 ^ 255 + 2 ^ 161 + 2 ^ 64 + 2 * 2 ^ 48)

/-- The reset state with this window and these paths. -/
def doublePath : State :=
  { State.reset with fab := { State.reset.fab with windows := [(1, bufferWindow)], pathsIn := doublePaths } }

/-- The window takes the write, which is next on the path that is found first. -/
theorem bufferWrite_accepted : doublePath.discards bufferWrite = false ∧ flitReject doublePath bufferWrite = none := by
  decide +kernel

/-- The item that is taken is the bell operation of the other entry: it waits at its word's home. -/
theorem bufferWrite_rings : ((landFlit bufferWrite doublePath).core 0).fills.length = 1 := by decide +kernel

/-- The write itself asks for no fill access. -/
theorem bufferWrite_asks : ((rangeWrite 14 rqFabric srcFabric bufferWrite.space.toNat bufferWrite.offset.toNat bufferWrite.payload
    (.item (pathKey bufferWrite) 0) doublePath).core 0).fills.length = 0 := by decide +kernel

/-- Refutes O53: the statement is about every table of paths, also one that lists a path twice (`twf` refuses it). The write to an accumulator
buffer, item 0 of the fresh entry that is found first, is made at once and leaves that entry with the default content, which a table does
not hold; the entry behind it is then found, and its bell operation is taken in place of the write (`bufferWrite_rings`), so that the landing does
more than write the byte (`bufferWrite_asks`). -/
theorem not_class1ItemsLandInPathOrder : ¬ Obligations.Class1ItemsLandInPathOrder := by
  intro holds
  obtain ⟨-, lands⟩ := holds doublePath 0 bufferWrite (by decide)
  obtain ⟨t, runs, -, fresh, -⟩ := lands rfl
  obtain ⟨admitted, accepted⟩ := bufferWrite_accepted
  obtain ⟨-, takes⟩ := fresh _ _ _ _ rfl rfl rfl rfl admitted rfl rfl
  obtain ⟨write, -⟩ := takes accepted (List.cons_ne_nil _ _) _ rfl
  obtain ⟨only, -⟩ := write (Nat.zero_le 1)
  have landed : landFlit bufferWrite doublePath = t := Host.Outcome.next.inj runs
  have fills : ((landFlit bufferWrite doublePath).core 0).fills.length = 0 := by
    rw [landed, only]
    exact bufferWrite_asks
  exact absurd (bufferWrite_rings.symm.trans fills) Nat.one_ne_zero

end Sys2Proof.Machine

namespace Sys2Proof.Machine

/-! ## Class-2 transit (R311) -/

/-- A class-2 flit is taken from port `p`. -/
def State.c2Taken (s : State) (p : Fin 16) (f : Flit) : State := s.updPort p fun x => { x with c2In := x.c2In.erase f, c2Arrived := x.c2Arrived.erase f }

theorem c2FlitReceive_ends {s : State} {p : Fin 16} {f : Flit} (ends : f.fkind ≠ 2 ∨ f.dest = s.module ∧ 2 ≤ f.ikind.toNat) :
    exec (.c2FlitReceive p f) s = .next (s.c2Taken p f) := by
  change execC2FlitReceive p f s = _
  unfold execC2FlitReceive
  by_cases class2 : f.fkind = 2
  · obtain ⟨here, high⟩ := ends.resolve_left fun other => other class2
    have mine : f.dest = (s.c2Taken p f).module := here
    have noRelay : ¬ f.ikind.toNat ≤ 1 := by omega
    exact congrArg Host.Outcome.next ((if_neg fun other => other class2).trans ((if_neg fun other => other mine).trans (if_neg noRelay)))
  · exact congrArg Host.Outcome.next (if_pos class2)

theorem c2FlitReceive_onward {s : State} {p : Fin 16} {f : Flit} (class2 : f.fkind = 2) (other : f.dest ≠ s.module) :
    exec (.c2FlitReceive p f) s = .next (c2Send f (s.c2Taken p f)) := by
  have away : f.dest ≠ (s.c2Taken p f).module := other
  exact congrArg Host.Outcome.next ((if_neg fun no => no class2).trans (if_pos away))

theorem c2Send_port {s : State} {f : Flit} {r : U32} {a : Fin 16} (route : r = tget 0 s.fab.route f.dest.toNat) (valid : r.getLsbD 31 = true)
    (name : a = portOf (bits r 3 0)) (up : (s.port a).state = .up) :
    c2Send f s = s.updPort a fun x => { x with c2Out := x.c2Out ++ [f] } := by
  subst route name
  unfold c2Send
  dsimp only
  rw [if_pos (show bit _ 31 = true from valid), if_pos up]

/-- What a class-2 flit that goes on leaves of the ports. -/
theorem c2FlitReceive_transit {s : State} {p : Fin 16} {f : Flit} {r : U32} {a : Fin 16} (class2 : f.fkind = 2) (other : f.dest ≠ s.module)
    (route : r = tget 0 s.fab.route f.dest.toNat) (valid : r.getLsbD 31 = true) (name : a = portOf (bits r 3 0))
    (up : (s.port a).state = .up) : ∃ t : State, exec (.c2FlitReceive p f) s = .next t ∧
      t = { s with fab := { s.fab with ports := t.fab.ports } } ∧ (t.port p).c2In = (s.port p).c2In.erase f ∧
      (t.port a).c2Out = (s.port a).c2Out ++ [f] := by
  have still : ((s.c2Taken p f).port a).state = (s.port a).state := updPort_field FabPort.state rfl
  have out : ((s.c2Taken p f).port a).c2Out = (s.port a).c2Out := updPort_field FabPort.c2Out rfl
  have runs := c2FlitReceive_onward (p := p) class2 other
  rw [c2Send_port (s := s.c2Taken p f) route valid name (still.trans up)] at runs
  refine ⟨_, runs, rfl, (updPort_field FabPort.c2In rfl).trans ?_, ?_⟩
  · unfold State.c2Taken
    rw [updPort_port, if_pos rfl]
  · rw [updPort_port, if_pos rfl, out]

/-! ## Slot tables (R295, R296) -/

theorem drainEnd_due {s : State} {n : Nat} (drain : s.fab.drainUntil = some n) (due : n ≤ s.slot) :
    exec .drainEnd s = .next { s with fab := { s.fab with
      drainUntil := none, previous := []
      copying := if s.seq.due.ended ∨ tget 0 s.fab.legSet s.seq.due.entry = s.fab.activeSet then none
        else some (tget 0 s.fab.legSet s.seq.due.entry) } } := by
  change execDrainEnd s = _
  unfold execDrainEnd
  rw [drain]
  exact congrArg Host.Outcome.next (if_pos due)

theorem drainEnd_early {s : State} {n : Nat} (drain : s.fab.drainUntil = some n) (early : s.slot < n) : exec .drainEnd s = .next s := by
  change execDrainEnd s = _
  unfold execDrainEnd
  rw [drain]
  exact congrArg Host.Outcome.next (if_neg (Nat.not_le.2 early))

theorem tableCopyDone_read {s : State} {n : Nat} {j : Job} (copying : s.fab.copying = some n) (read : s.jobDone (.tables n) = some j) :
    exec .tableCopyDone s = .next { s with
      jobs := s.jobs.filter fun x => x.id != j.id
      fab := { s.fab with shadow := tableEntries 0 (mreads j.buf 0 j.len), shadowSet := n, shadowReady := true, copying := none } } := by
  have found : s.copyRead = some (n, j) := by
    unfold State.copyRead
    rw [copying, Option.bind_some, read]
    rfl
  change execTableCopyDone s = _
  unfold execTableCopyDone
  rw [found]
  rfl

theorem tableCopyDone_waits {s : State} {n : Nat}
    (wait : s.fab.copying = none ∨ s.fab.copying = some n ∧ s.jobDone (.tables n) = none) : exec .tableCopyDone s = .next s := by
  have none : s.copyRead = none := by
    unfold State.copyRead
    obtain idle | ⟨copying, unread⟩ := wait
    · rw [idle, Option.bind_none]
    · rw [copying, Option.bind_some, unread]
      rfl
  change execTableCopyDone s = _
  unfold execTableCopyDone
  rw [none]

/-! ## Windows that close (R317) -/

/-- The top 32-bit field of a register of 256 bits after it is written. -/
theorem bits_setBits_top (w : W256) {v : Nat} (small : v < 2 ^ 32) : bits (setBits w 255 224 v) 255 224 = v := by
  have written : (setBits w 255 224 v).extractLsb' 224 32 = BitVec.ofNat 32 v := by
    apply BitVec.eq_of_getLsbD_eq
    intro i inside
    rw [BitVec.getLsbD_extractLsb', getLsbD_setBits _ _ _ _ _ (by omega), if_pos (by omega), BitVec.getLsbD_ofNat]
    simp [inside]
  rw [bits_eq_extract _ 255 224 32 rfl, written, BitVec.toNat_ofNat, Nat.mod_eq_of_lt small]

theorem bits_setBits_below (w : W256) (v : Nat) : bits (setBits w 255 224 v) 223 0 = bits w 223 0 := by
  rw [bits_eq_extract _ 223 0 224 rfl, bits_eq_extract w 223 0 224 rfl]
  congr 1
  apply BitVec.eq_of_getLsbD_eq
  intro i inside
  rw [BitVec.getLsbD_extractLsb', BitVec.getLsbD_extractLsb', getLsbD_setBits _ _ _ _ _ (by omega), if_neg (by omega)]

/-- A window that covers anything is no empty entry of the table. -/
theorem window_ne_zero {w x : W256} (size : winSize w ≠ 0) (same : bits x 223 0 = bits w 223 0) : x ≠ 0 := by
  rintro rfl
  have none : bits w 223 0 = 0 := same.symm
  rw [bits_eq_extract w 223 0 224 rfl] at none
  refine size ?_
  have low : w.extractLsb' 0 224 = 0 := BitVec.eq_of_toNat_eq none
  have field : w.extractLsb' 64 64 = (w.extractLsb' 0 224).extractLsb' 64 64 := by
    apply BitVec.eq_of_getLsbD_eq
    intro i inside
    simp only [BitVec.getLsbD_extractLsb', inside, Nat.zero_add, decide_true, Bool.true_and, show 64 + i < 224 by omega]
  unfold winSize
  rw [bits_eq_extract w 127 64 64 rfl, field, low]
  rfl

theorem fabWinClose_closes {s : State} {v : U32} (on : s.pwr.mainOn = true) (size : winSize (tget 0 s.fab.windows (bits v 13 0)) ≠ 0) :
    exec (.fabWinCloseWrite v) s = .next { s with fab := { s.fab with
      windows := tset 0 s.fab.windows (bits v 13 0) (closeWin s.seq.nextNum (tget 0 s.fab.windows (bits v 13 0))) } } :=
  congrArg Host.Outcome.next ((if_pos on).trans (if_neg size))

/-- Settles O55: a class-2 flit ends here or goes on (`c2FlitReceive_ends`, `c2FlitReceive_transit`), a table set waits or is there, and a
closed window keeps all below its CLOSE_MARK (`bits_setBits_below`). -/
theorem tablesWindowsAndClass2Transit : Obligations.TablesWindowsAndClass2Transit := by
  refine ⟨fun s p f class2 other valid up => c2FlitReceive_transit class2 other rfl valid rfl up,
    fun s p f other => c2FlitReceive_ends (.inl other),
    fun s n drain => ⟨fun due next new => ?copies, fun due last => ?kept, drainEnd_early drain⟩,
    fun s p f _ here high => c2FlitReceive_ends (.inr ⟨here, high⟩),
    fun s => ⟨fun n j => tableCopyDone_read, fun n => tableCopyDone_waits⟩, fun s v on size => ?closes⟩
  case copies =>
    rw [drainEnd_due drain due, if_neg fun same => same.elim (Bool.eq_false_iff.1 next) new]
  case kept =>
    rw [drainEnd_due drain due, if_pos last]
  case closes =>
    have small : min (bits (tget 0 s.fab.windows (bits v 13 0)) 255 224) (s.seq.nextNum % 2 ^ 32) < 2 ^ 32 := by omega
    have below := bits_setBits_below (tget 0 s.fab.windows (bits v 13 0))
      (min (bits (tget 0 s.fab.windows (bits v 13 0)) 255 224) (s.seq.nextNum % 2 ^ 32))
    have closed : tget 0 (tset 0 s.fab.windows (bits v 13 0) (closeWin s.seq.nextNum (tget 0 s.fab.windows (bits v 13 0)))) (bits v 13 0) =
        closeWin s.seq.nextNum (tget 0 s.fab.windows (bits v 13 0)) := tget_tset_new _ _ _ _ (window_ne_zero size below)
    refine ⟨_, fabWinClose_closes on size, rfl, ?_, ?_, fun j other => tget_tset_other _ _ _ _ _ other⟩
    · exact (congrArg (bits · 255 224) closed).trans (bits_setBits_top _ small)
    · exact (congrArg (bits · 223 0) closed).trans below

end Sys2Proof.Machine

namespace Sys2Proof.Machine

/-! ## One step (R324) -/

/-- Settles O1, by the two cases of the queue. -/
theorem stepRunsTheFrontCommand : Obligations.StepRunsTheFrontCommand := by
  refine ⟨fun c rest s => rfl, fun s empty => ?_⟩
  unfold step
  rw [empty]

end Sys2Proof.Machine

namespace Sys2Proof.Machine

/-! ## The host link and JTAG (R320, R321, R359) -/

theorem linkPowered_of_phase {s : State} (rails : s.pwr.phase ≠ .standby) (relay : s.pwr.phase ≠ .standbyRelay) : s.linkPowered = true := by
  simp [State.linkPowered, rails, relay]

theorem linkReset_powered {s : State} (link : s.linkPowered = true) (d3 : Bool) : linkReset d3 s = { s with host := { s.host with
    cfgSpace := [], bar2Lo := 0, bar2Hi := 0, msixTable := [], d3hot := d3 } } := if_pos link

theorem unlocked_iff {s : State} : s.unlocked = true ↔ s.seq.state = .empty ∧ s.loader.busy = false := by
  simp [State.unlocked]

/-- EXTEST acts, and drives its pins, exactly where the registers are unlocked (R359). -/
theorem jtagExtest_acts (s : State) (pins : U64) : ∃ t : State, exec (.jtagExtest pins) s = .next t ∧
    t = { s with mgmt := { s.mgmt with jtag := .extest, jtagDriving := true, jtagPins := pins, jtagData := 0 } } ∧
    (s.unlocked = true → t.jtagActs = .extest ∧ t.pinsDriven = true) ∧
    (s.unlocked = false → t.jtagActs = .bypass ∧ t.pinsDriven = false) := by
  refine ⟨_, rfl, rfl, fun unlocked => ⟨?_, unlocked⟩, fun busy => ⟨?_, busy⟩⟩
  · exact if_neg fun blocked => blocked.2 unlocked
  · exact if_pos ⟨rfl, by exact Bool.eq_false_iff.1 busy⟩

/-! ## Reads outside the core blocks and the debug window (R40, R398, R405) -/

theorem notCore_of_outside {o : Nat} (outside : o < 0x100000 ∨ 0x300000 ≤ o) : (decide (0x100000 ≤ o) && decide (o < 0x300000)) = false := by
  rw [Bool.and_eq_false_iff, decide_eq_false_iff_not, decide_eq_false_iff_not]
  omega

section
variable {s : State} {p : Path} {o : Nat} (reached : s.reaches p o = true) (window : o < 0xC00120 ∨ 0xC00140 ≤ o)
  (unsealed : sealedReg o = false) (outside : o < 0x100000 ∨ 0x300000 ≤ o)
include reached window unsealed outside

/-- A register that is no LO half, with nothing latched for it, is only read. -/
theorem regRead_live (plain : isLo o = false) (free : tget none (s.pathRegs p).latch o = none) : regRead p o s = (regValue s p o, s) := by
  have notCore := notCore_of_outside outside
  unfold regRead
  dsimp only
  rw [if_neg (by simp [reached]), if_neg (by omega), if_neg (by simp [unsealed])]
  simp [notCore, plain, free]

/-- A LO half latches its HI half. -/
theorem regRead_lo (lo : isLo o = true) (free : tget none (s.pathRegs p).latch o = none) : regRead p o s =
    (regValue s p o, s.updRegs p fun r => { r with latch := tset none r.latch (o + 4) (some (regValue s p (o + 4))) }) := by
  have notCore := notCore_of_outside outside
  unfold regRead
  dsimp only
  rw [if_neg (by simp [reached]), if_neg (by omega), if_neg (by simp [unsealed])]
  simp [notCore, lo, free]

/-- A latched HI half is read, and with that used up. -/
theorem regRead_latched {v : U32} (plain : isLo o = false) (held : tget none (s.pathRegs p).latch o = some v) :
    regRead p o s = (v, s.updRegs p fun r => { r with latch := tset none r.latch o none }) := by
  have notCore := notCore_of_outside outside
  unfold regRead
  dsimp only
  rw [if_neg (by simp [reached]), if_neg (by omega), if_neg (by simp [unsealed])]
  simp [notCore, plain, held]

end

/-! ## The standby blocks (R358, Table 16.1) -/

theorem standbyBlock_iff {o : Nat} : standbyBlock o = true ↔
    o < 0x1000 ∨ 0x10000 ≤ o ∧ o < 0x13000 ∨ 0xA00000 ≤ o ∧ o < 0xA00040 ∨ 0xC00000 ≤ o ∧ o < 0xC09000 := by
  simp [standbyBlock, or_assoc]

theorem inDieMap_of_standbyBlock {o : Nat} (standby : standbyBlock o = true) : inDieMap o = false := by
  have place := standbyBlock_iff.1 standby
  unfold inDieMap
  by_cases low : o < 0x100000
  · have early : ¬ 0x20000 ≤ o := by omega
    simp [low, early]
  · have late : ¬ o < 0xA00000 := by omega
    rw [if_neg low, if_neg (by omega), if_neg (by omega), if_neg (by omega), if_neg (by omega), if_neg late]
    by_cases power : o < 0xA01000
    · simp [power]
    · have above : ¬ o - 0xA01000 < 0x260 ∧ ¬ o - 0xA01000 < 0x120 ∧ ¬ o - 0xA01000 < 0x2C := by omega
      simp [above]

theorem sealedReg_of_standbyBlock {o : Nat} (standby : standbyBlock o = true) (window : o < 0xC00120 ∨ 0xC00140 ≤ o) :
    sealedReg o = false := by
  have place := standbyBlock_iff.1 standby
  have notWindow : (decide (0xC00120 ≤ o) && decide (o < 0xC00140)) = false := by
    rw [Bool.and_eq_false_iff, decide_eq_false_iff_not, decide_eq_false_iff_not]
    omega
  unfold sealedReg
  rw [notCore_of_outside (by omega), notWindow]
  rfl

theorem reaches_smbus {s : State} {o : Nat} (power : s.pwr.standbyOn = true) (standby : standbyBlock o = true) :
    s.reaches .smbus o = true := by
  simp [State.reaches, power, inDieMap_of_standbyBlock standby]

theorem reaches_bar0 {s : State} {o : Nat} (power : s.pwr.standbyOn = true) (link : s.linkPowered = true)
    (main : inDieMap o = true → s.pwr.mainOn = true) : s.reaches .bar0 o = true := by
  cases die : inDieMap o
  · simp [State.reaches, power, link, die]
  · simp [State.reaches, power, link, main die]

theorem smbusProcessCall_live {s : State} {o : BitVec 24} (power : s.pwr.standbyOn = true) (standby : standbyBlock o.toNat = true)
    (aligned : o.toNat % 4 = 0) (window : o.toNat < 0xC00120 ∨ 0xC00140 ≤ o.toNat) (plain : isLo o.toNat = false)
    (free : tget none s.mgmt.smbus.latch o.toNat = none) : exec (.smbusProcessCall o) s = .next { s with mgmt := { s.mgmt with
      smbus := { s.mgmt.smbus with data := regValue s .smbus o.toNat } } } := by
  have place := standbyBlock_iff.1 standby
  have read := regRead_live (p := .smbus) (reaches_smbus power standby) window (sealedReg_of_standbyBlock standby window) (by omega) plain free
  change execSmbusProcessCall o s = _
  unfold execSmbusProcessCall pathRead
  dsimp only
  rw [if_pos ⟨standby, aligned⟩, read]
  rfl

/-! ## Accesses of BAR0 (R322) -/

theorem registerWrite_word (s : State) {o : BitVec 24} (v : U32) (aligned : o.toNat % 4 = 0) :
    exec (.registerWrite o 4 v) s = .next (regWrite .bar0 o.toNat v s) := congrArg Host.Outcome.next (if_pos ⟨rfl, aligned⟩)

theorem bar0Bad_powered {s : State} (power : s.pwr.standbyOn = true) (link : s.linkPowered = true) (o : BitVec 24) (size : Nat) :
    bar0Bad o size s = logErr errBar0Size none (o.setWidth 64) (BitVec.ofNat 64 size) s := if_pos ⟨power, link⟩

/-- An access that is not one aligned word is logged, and a read of it is all ones. -/
theorem bar0_bad {s : State} (power : s.pwr.standbyOn = true) (link : s.linkPowered = true) (o : BitVec 24) (size : Nat) (v : U32)
    (bad : size ≠ 4 ∨ o.toNat % 4 ≠ 0) : ∃ t : State, t = logErr errBar0Size none (o.setWidth 64) (BitVec.ofNat 64 size) s ∧
      exec (.registerWrite o size v) s = .next t ∧
      exec (.loPairRead ⟨o, size⟩) s = .next { t with host := { t.host with bar0Data := 0xFFFFFFFF } } := by
  have notWord : ¬ (size = 4 ∧ o.toNat % 4 = 0) := by omega
  have logged := bar0Bad_powered power link o size
  refine ⟨_, rfl, ?_, ?_⟩
  · exact congrArg Host.Outcome.next ((if_neg notWord).trans logged)
  · rw [← logged]
    exact congrArg Host.Outcome.next (if_neg notWord)

/-- The identity block takes no write. -/
theorem regWrite_identity (s : State) (p : Path) {o : Nat} (v : U32) (low : o < 0x1000) : regWrite p o v s = s := by
  unfold regWrite
  by_cases away : ¬ s.reaches p o = true
  · exact if_pos away
  · rw [if_neg away, if_neg (by omega), if_neg (by omega), if_neg (by omega), if_neg (by omega), if_neg (by omega), if_neg (by omega), if_neg (by omega),
      if_neg (by omega), if_neg (by omega), if_neg (by omega)]

section
variable {s : State} {p : Path} {o : Nat} (v : U32) (reached : s.reaches p o = true)
include reached

theorem regWrite_seq (low : 0x20000 ≤ o) (high : o < 0x202C4) : regWrite p o v s = seqWrite (o - 0x20000) v s := by
  unfold regWrite
  rw [if_neg (by simp [reached]), if_neg (by omega), if_pos ⟨low, high⟩]

theorem regWrite_host (low : 0x800000 ≤ o) (high : o < 0x80F804) : regWrite p o v s = hostWrite (o - 0x800000) v s := by
  unfold regWrite
  rw [if_neg (by simp [reached]), if_neg (by omega), if_neg (by omega), if_neg (by omega), if_neg (by omega), if_neg (by omega),
    if_pos ⟨low, high⟩]

theorem regWrite_pwr (low : 0xA00000 ≤ o) (high : o < 0xA00040) : regWrite p o v s = pwrWrite p (o - 0xA00000) v s := by
  unfold regWrite
  rw [if_neg (by simp [reached]), if_neg (by omega), if_neg (by omega), if_neg (by omega), if_neg (by omega), if_neg (by omega),
    if_neg (by omega), if_neg (by omega), if_pos ⟨low, high⟩]

theorem regWrite_clk (low : 0xA01000 ≤ o) (high : o < 0xA01260) : regWrite p o v s = clkWrite (o - 0xA01000) v s := by
  unfold regWrite
  rw [if_neg (by simp [reached]), if_neg (by omega), if_neg (by omega), if_neg (by omega), if_neg (by omega), if_neg (by omega),
    if_neg (by omega), if_neg (by omega), if_neg (by omega), if_pos ⟨low, high⟩]

end

/-! ## Writes by the register's type (R402, R404, Table 16.2) -/

/-- What a write of 1 clears is what the manual lets it clear (R404). -/
theorem w1c_clears (w : W1c) (t v : U64) : w.clears t v = Claims.w1c w t v := by
  unfold W1c.clears W1c.now Claims.w1c
  split
  · rfl
  · exact (congrArg (v &&& ·) BitVec.not_zero).trans BitVec.and_allOnes

theorem pwrWrite_event (s : State) (p : Path) (v : U32) : pwrWrite p 0x0C v s = { s with pwr := { s.pwr with
    event := s.pwr.event &&& ~~~((Claims.w1c s.pwr.eventNow s.time.hallTime (v.setWidth 64)).extractLsb' 0 7) } } := by
  rw [← w1c_clears]
  rfl

theorem hostWrite_irqCause (s : State) (v : U32) : ∃ t : State, hostWrite 0x0C v s = t ∧ t = { s with host := { s.host with
    irqCause := s.host.irqCause &&& ~~~((Claims.w1c s.host.irqNow s.time.hallTime (v.setWidth 64)).extractLsb' 0 5)
    irqNow := t.host.irqNow } } := by
  rw [← w1c_clears]
  exact ⟨_, rfl, rfl⟩

theorem hostWrite_harbReady (s : State) (v : U32) : ∃ t : State, hostWrite 0x80 v s = t ∧ t = { s with host := { s.host with
    harbReady := s.host.harbReady &&& ~~~(Claims.w1c s.host.harbNow s.time.hallTime (v.setWidth 64))
    harbNow := t.host.harbNow } } := by
  rw [← w1c_clears]
  exact ⟨_, rfl, rfl⟩

theorem seqWrite_armLo (s : State) (v : U32) : seqWrite 0x20 v s = { s with seq := { s.seq with armLo := v } } := rfl

theorem within_iff {v lo hi : Nat} : within v lo hi = true ↔ lo ≤ v ∧ v ≤ hi := by
  simp [within]

/-- CLK_CFG keeps its value outside EMPTY, during a load, and where a field is out of its range (Table 2.7). -/
theorem clkWrite_cfg (s : State) (v : U32) : clkWrite 0x04 v s = if (s.seq.state = .empty ∧ s.loader.busy = false) ∧
      (v.extractLsb' 0 3).toNat ≤ 3 ∧ 2 ≤ (v.extractLsb' 3 5).toNat ∧ (v.extractLsb' 3 5).toNat ≤ 10 then
    { s with clk := { s.clk with cfg := v &&& 0xFFFF } } else s := by
  have fields : (bits v 2 0 ≤ 3 ∧ within (bits v 7 3) 2 10 = true) ↔
      (v.extractLsb' 0 3).toNat ≤ 3 ∧ 2 ≤ (v.extractLsb' 3 5).toNat ∧ (v.extractLsb' 3 5).toNat ≤ 10 := by
    rw [within_iff, bits_eq_extract v 2 0 3 rfl, bits_eq_extract v 7 3 5 rfl]
  unfold clkWrite
  by_cases unlocked : s.unlocked = true
  · simp only [unlocked, not_true_eq_false, if_false, fields, ← unlocked_iff, true_and]
  · rw [if_pos unlocked, if_neg fun all => unlocked (unlocked_iff.2 all.1)]

/-- Settles O56: the link's rows are one reset (`linkReset_powered`), a read is live, latches its HI half or takes what is latched
(`regRead_live`, `regRead_lo`, `regRead_latched`), and a write acts by its register (`regWrite_seq` to `regWrite_clk`). -/
theorem linkManagementAndRegisterCommands : Obligations.LinkManagementAndRegisterCommands := by
  intro s
  refine ⟨fun rails relay => ?link, rfl, rfl, fun pins => rfl, fun pins => ?extest, fun o v other => ?elsewhere,
    fun power => ⟨fun v => ?event, fun o standby aligned window plain free => smbusProcessCall_live power standby aligned window plain free,
      fun rails relay => ?bar0⟩⟩
  case link =>
    have link := linkPowered_of_phase rails relay
    have reset := fun d3 => congrArg Host.Outcome.next (α := State) (β := Host.Outcome State Fault Refusal) (linkReset_powered link d3)
    refine ⟨fun c row => ?_, reset true, congrArg Host.Outcome.next (if_pos link), fun _ _ => congrArg Host.Outcome.next (if_pos link)⟩
    simp only [List.mem_cons, List.not_mem_nil, or_false] at row
    obtain rfl | rfl | rfl := row <;> exact reset false
  case extest =>
    obtain ⟨t, runs, left, acts, waits⟩ := jtagExtest_acts s pins
    refine ⟨t, runs, left, fun empty idle => acts (unlocked_iff.2 ⟨empty, idle⟩), fun held => waits (Bool.eq_false_iff.2 fun unlocked => ?_)⟩
    obtain ⟨empty, idle⟩ := unlocked_iff.1 unlocked
    simp [empty, idle] at held
  case elsewhere =>
    have never : ¬ (standbyBlock o.toNat = true ∧ o.toNat % 4 = 0) := fun both => Bool.eq_false_iff.1 other both.1
    exact ⟨congrArg Host.Outcome.next (if_neg never), congrArg Host.Outcome.next (if_neg never)⟩
  case event =>
    have write := regWrite_pwr (s := s) (p := .smbus) v (reaches_smbus power (by decide)) (show 0xA00000 ≤ 0xA0000C by decide) (by decide)
    exact congrArg Host.Outcome.next ((if_pos (by decide)).trans (write.trans (pwrWrite_event s .smbus v)))
  case bar0 =>
    have link := linkPowered_of_phase rails relay
    refine ⟨fun o size v bad => bar0_bad power link o size v bad,
      fun o v low aligned => (registerWrite_word s v aligned).trans (congrArg Host.Outcome.next (regWrite_identity s .bar0 v low)),
      fun o high unsealed outside aligned main => ?reads, fun main v => ?writes⟩
    case reads =>
      have reached := reaches_bar0 power link main
      have read {w : U32} {t : State} (found : regRead .bar0 o.toNat s = (w, t)) :
          exec (.loPairRead ⟨o, 4⟩) s = .next { t with host := { t.host with bar0Data := w } } := by
        have row : hostRead_ o.toNat s = { t with host := { t.host with bar0Data := w } } := by
          unfold hostRead_
          rw [found]
        exact congrArg Host.Outcome.next ((if_pos ⟨rfl, aligned⟩).trans row)
      exact ⟨fun lo free => read (regRead_lo reached (by omega) unsealed outside lo free),
        fun w plain held => read (regRead_latched reached (by omega) unsealed outside plain held)⟩
    case writes =>
      have reached (o : Nat) := reaches_up s .bar0 o power main link
      have word (o : BitVec 24) (aligned : o.toNat % 4 = 0) {t : State} (write : regWrite .bar0 o.toNat v s = t) :
          exec (.registerWrite o 4 v) s = .next t := (registerWrite_word s v aligned).trans (congrArg Host.Outcome.next write)
      obtain ⟨t, cause, irqCause⟩ := hostWrite_irqCause s v
      obtain ⟨u, ready, harbReady⟩ := hostWrite_harbReady s v
      refine ⟨⟨t, word _ (by decide) ?_, irqCause⟩, ⟨u, word _ (by decide) ?_, harbReady⟩, word _ (by decide) ?_, word _ (by decide) ?_⟩
      · exact (regWrite_host v (reached _) (by decide) (by decide)).trans cause
      · exact (regWrite_host v (reached _) (by decide) (by decide)).trans ready
      · exact (regWrite_seq v (reached _) (by decide) (by decide)).trans (seqWrite_armLo s v)
      · exact (regWrite_clk v (reached _) (by decide) (by decide)).trans (clkWrite_cfg s v)

end Sys2Proof.Machine

namespace Sys2Proof.Machine

/-! ## Ranges cut into blocks -/

theorem cutAt_inside (k : Nat) : ∀ fuel a n : Nat, ∀ w ∈ cutAt fuel k a n, a ≤ w.1 ∧ w.1 + w.2 ≤ a + n := by
  intro fuel
  induction fuel with
  | zero => simp [cutAt]
  | succ fuel ih =>
    intro a n w mem
    unfold cutAt at mem
    split at mem
    · cases mem
    · obtain rfl | later := List.mem_cons.1 mem
      · dsimp only
        omega
      · have inside := ih _ _ w later
        omega

/-- Every piece of a range lies in it. -/
theorem pieces_inside {k a n : Nat} {w : Nat × Nat} (mem : w ∈ pieces k a n) : a ≤ w.1 ∧ w.1 + w.2 ≤ a + n := cutAt_inside k _ a n w mem

theorem cutAt_flatMap {k : Nat} (pos : 0 < k) (l : List Byte) (base : Nat) : ∀ fuel a n : Nat, base ≤ a → (n ≠ 0 → a % k + n ≤ fuel * k) →
    (cutAt fuel k a n).flatMap (fun w => (l.drop (w.1 - base)).take w.2) = (l.drop (a - base)).take n := by
  intro fuel
  induction fuel with
  | zero =>
    intro a n _ reach
    have none : n = 0 := by omega
    simp [cutAt, none]
  | succ fuel ih =>
    intro a n low reach
    unfold cutAt
    split
    case isTrue none => simp [none]
    case isFalse some =>
      have inside := Nat.mod_lt a pos
      have rest : n - min n (k - a % k) ≠ 0 → (a + min n (k - a % k)) % k + (n - min n (k - a % k)) ≤ fuel * k := by
        intro more
        have first : min n (k - a % k) = k - a % k := by omega
        have next : a + (k - a % k) = k * (a / k + 1) := by
          have parts := Nat.div_add_mod a k
          rw [Nat.mul_succ]
          omega
        have all := reach some
        rw [Nat.succ_mul] at all
        rw [first, next, Nat.mul_mod_right]
        omega
      have split : a + min n (k - a % k) - base = a - base + min n (k - a % k) := by omega
      rw [List.flatMap_cons, ih _ _ (by omega) rest, split, ← List.drop_drop, ← List.take_add]
      congr 1
      omega

/-- The bytes of the pieces of a range are those of the range. -/
theorem pieces_flatMap {k : Nat} (pos : 0 < k) (l : List Byte) (a : Nat) :
    (pieces k a l.length).flatMap (fun w => (l.drop (w.1 - a)).take w.2) = l := by
  unfold pieces
  rw [cutAt_flatMap pos l a _ _ _ le_rfl, Nat.sub_self, List.drop_zero, List.take_length]
  intro _
  have inside := Nat.mod_lt a pos
  have rest := Nat.mod_lt l.length pos
  have parts := Nat.div_add_mod l.length k
  rw [Nat.add_mul, Nat.mul_comm (l.length / k)]
  omega

theorem pieces_ne_nil {k a n : Nat} (pos : 0 < n) : pieces k a n ≠ [] := by
  unfold pieces cutAt
  rw [if_neg (by omega)]
  exact List.cons_ne_nil _ _

/-- A range inside one block is one piece. -/
theorem pieces_one {k a n : Nat} (pos : 0 < n) (fits : a % k + n ≤ k) : pieces k a n = [(a, n)] := by
  have whole : min n (k - a % k) = n := by omega
  have first : pieces k a n = (a, min n (k - a % k)) :: cutAt (n / k + 1) k (a + min n (k - a % k)) (n - min n (k - a % k)) := if_neg (by omega)
  rw [first, whole, Nat.sub_self]
  rfl

end Sys2Proof.Machine

namespace Sys2Proof.Machine

/-! ## The unit's count of jobs and the host's registers beside its requests and the log -/

/-- The state with another number for the next job and other host registers. -/
def State.withUnit (s : State) (jobNo : Nat) (host : HostDom) : State := { s with jobNo := jobNo, host := host }

theorem stackAsk_withUnit (src space off n : Nat) (data : Option (List Byte)) (rq : Nat) (tag : Nat → Tag) (jobNo : Nat) (host : HostDom)
    (s : State) : stackAsk src space off n data rq tag (s.withUnit jobNo host) = (stackAsk src space off n data rq tag s).withUnit jobNo host := by
  have beside := stackAsk_beside src space off n data rq tag s.jobs jobNo host s
  have jobs := congrArg State.jobs (stackAsk_beside src space off n data rq tag s.jobs s.jobNo s.host s)
  rw [beside_self] at jobs
  refine beside.trans ?_
  unfold State.beside State.withUnit
  rw [jobs]
  rfl

/-- Requests to the stacks change their queues alone. -/
theorem stackAsk_stks (src space off n : Nat) (data : Option (List Byte)) (rq : Nat) (tag : Nat → Tag) (s : State) :
    stackAsk src space off n data rq tag s = { s with stks := (stackAsk src space off n data rq tag s).stks } := by
  unfold stackAsk
  generalize pieces 64 off n = l
  induction l generalizing s with
  | nil => rfl
  | cons p l ih =>
    rw [foldS_cons, ih]
    rfl

/-- An entry of the log joins it beside a change that does not touch the log. -/
theorem logErr_beside (g : State → State) (mgmt : ∀ s, (g s).mgmt = s.mgmt) (time : ∀ s, (g s).time = s.time)
    (apart : ∀ s m, g { s with mgmt := m } = { g s with mgmt := m }) (code : U16) (core : Option (Fin 32)) (d0 d1 : U64) (s : State) :
    logErr code core d0 d1 (g s) = g (logErr code core d0 d1 s) := by
  exact (logErr_of_same code core d0 d1 s (g s) (mgmt s) (time s)).trans
    ((apart s _).symm.trans (congrArg g (logErr_frame code core d0 d1 s).symm))

theorem logErr_withUnit (code : U16) (core : Option (Fin 32)) (d0 d1 : U64) (jobNo : Nat) (host : HostDom) (s : State) :
    logErr code core d0 d1 (s.withUnit jobNo host) = (logErr code core d0 d1 s).withUnit jobNo host :=
  logErr_beside (State.withUnit · jobNo host) (fun _ => rfl) (fun _ => rfl) (fun _ _ => rfl) code core d0 d1 s

theorem withUnit_withUnit (s : State) (n m : Nat) (g h : HostDom) : (s.withUnit n g).withUnit m h = s.withUnit m h := rfl

/-! ## Posted writes -/

theorem posts_append (l m : List (Nat × List Byte)) (s : State) : Claims.posts (l ++ m) s = Claims.posts m (Claims.posts l s) :=
  List.foldl_append

theorem posts_withUnit (l : List (Nat × List Byte)) (jobNo : Nat) (host : HostDom) (s : State) :
    Claims.posts l (s.withUnit jobNo host) = (Claims.posts l s).withUnit jobNo host := by
  induction l generalizing s with
  | nil => rfl
  | cons w l ih => exact (congrArg (Claims.posts l) (stackAsk_withUnit ..)).trans (ih _)

theorem posts_stks (l : List (Nat × List Byte)) (s : State) : Claims.posts l s = { s with stks := (Claims.posts l s).stks } := by
  induction l generalizing s with
  | nil => rfl
  | cons w l ih =>
    change Claims.posts l (stackAsk srcIngress 0 w.1 w.2.length (some w.2) rqIngress (fun _ => .posted) s) =
      { s with stks := (Claims.posts l (stackAsk srcIngress 0 w.1 w.2.length (some w.2) rqIngress (fun _ => .posted) s)).stks }
    rw [ih, stackAsk_stks]

theorem posts_mgmt (l : List (Nat × List Byte)) (s : State) (m : Mgmt) :
    Claims.posts l { s with mgmt := m } = { Claims.posts l s with mgmt := m } := by
  induction l generalizing s with
  | nil => rfl
  | cons w l ih =>
    have ask : stackAsk srcIngress 0 w.1 w.2.length (some w.2) rqIngress (fun _ => .posted) { s with mgmt := m } =
        { stackAsk srcIngress 0 w.1 w.2.length (some w.2) rqIngress (fun _ => .posted) s with mgmt := m } :=
      foldS_comm _ (fun s : State => { s with mgmt := m }) (fun _ _ => rfl) _ s
    exact (congrArg (Claims.posts l) ask).trans (ih _)

theorem logErr_posts (code : U16) (core : Option (Fin 32)) (d0 d1 : U64) (l : List (Nat × List Byte)) (s : State) :
    logErr code core d0 d1 (Claims.posts l s) = Claims.posts l (logErr code core d0 d1 s) :=
  logErr_beside (Claims.posts l) (fun s => by rw [posts_stks]) (fun s => by rw [posts_stks]) (posts_mgmt l) code core d0 d1 s

/-- The host's registers once the unit has posted `k` more requests. -/
def HostDom.addPosted (h : HostDom) (k : Nat) : HostDom := { h with posted := h.posted + k }

/-- A write of the unit joins the writes it has posted. -/
theorem ingWrite_posts (a : Nat) (bs : List Byte) (l : List (Nat × List Byte)) (n k : Nat) (h : HostDom) (s : State) :
    ingWrite a bs ((Claims.posts l s).withUnit n (h.addPosted k)) =
      (Claims.posts (l ++ [(a, bs)]) s).withUnit n (h.addPosted (k + (pieces 64 a bs.length).length)) := by
  rw [posts_append]
  refine (stackAsk_withUnit srcIngress 0 a bs.length (some bs) rqIngress (fun _ => .posted) n
    { h with posted := h.posted + k + (pieces 64 a bs.length).length } (Claims.posts l s)).trans ?_
  rw [Nat.add_assoc]
  rfl

/-- A write inside one block is one request. -/
theorem ingWrite_block {a : Nat} {bs : List Byte} (pos : 0 < bs.length) (fits : a % 64 + bs.length ≤ 64) (l : List (Nat × List Byte))
    (n k : Nat) (h : HostDom) (s : State) : ingWrite a bs ((Claims.posts l s).withUnit n (h.addPosted k)) =
      (Claims.posts (l ++ [(a, bs)]) s).withUnit n (h.addPosted (k + 1)) := by
  rw [ingWrite_posts, pieces_one pos fits]
  rfl

end Sys2Proof.Machine

namespace Sys2Proof.Machine

/-! ## The unit at work (R327, R332) -/

/-- What a task at the front waits for beside its blocks. -/
def IngTask.MayRun (t : IngTask) (s : State) : Prop :=
  match t.work with
  | .moor _ after => s.pwr.tier.val < 2 ∧ ∀ w ∈ s.host.writing, after ≤ w.1
  | .bell _ => s.host.posted = 0
  | _ => True

/-- The task at the front runs once its blocks have come. -/
theorem taskReady_front {s : State} {t : IngTask} {rest : List IngTask} (front : s.host.tasks = t :: rest)
    (come : ∀ w ∈ t.buf.wants, ∃ g ∈ t.buf.got, g.1 = w.1) (may : t.MayRun s) : taskReady s t = true := by
  have blocks : (t.buf.wants.all fun w => t.buf.got.any fun g => g.1 == w.1) = true := by
    simpa [List.all_eq_true, List.any_eq_true] using come
  have turn (p : IngWork → Bool) : (!p t.work || ((t :: rest).find? fun x => p x.work).any fun x => x.id == t.id) = true := by
    cases first : p t.work <;> simp [first]
  unfold IngTask.MayRun at may
  unfold taskReady
  rw [blocks, front, turn, turn, Bool.true_and, Bool.true_and, Bool.true_and]
  cases work : t.work with
  | moor r after =>
    rw [work] at may
    obtain ⟨shallow, earlier⟩ := may
    simpa using And.intro shallow fun a b mem => earlier (a, b) mem
  | bell m =>
    rw [work] at may
    exact beq_iff_eq.2 may
  | latch | muster | relay => rfl

/-- A task that wants a block waits while none has come. -/
theorem taskReady_waits {s : State} {t : IngTask} (some : t.buf.wants ≠ []) (none : t.buf.got = []) : taskReady s t = false := by
  obtain ⟨w, l, wants⟩ := List.exists_cons_of_ne_nil some
  simp [taskReady, wants, none]

/-- A bell waits for the writes that the unit has posted (R235). -/
theorem taskReady_bell {s : State} {t : IngTask} {m : U64} (bell : t.work = .bell m) (posted : s.host.posted ≠ 0) : taskReady s t = false := by
  simp [taskReady, bell, posted]

theorem ingWork_rests (fuel : Nat) {s : State} (rests : ∀ t ∈ s.host.tasks, taskReady s t = false) : ingWork fuel s = s := by
  have none : s.host.tasks.find? (taskReady s) = none := List.find?_eq_none.2 fun t mem => Bool.eq_false_iff.1 (rests t mem)
  cases fuel with
  | zero => rfl
  | succ fuel =>
    unfold ingWork
    rw [none]

theorem ingWork_idle (fuel : Nat) {s : State} (idle : s.host.tasks = []) : ingWork fuel s = s :=
  ingWork_rests fuel fun _ mem => absurd (idle ▸ mem) List.not_mem_nil

theorem ingWork_runs (fuel : Nat) {s : State} {t : IngTask} {rest : List IngTask} (front : s.host.tasks = t :: rest)
    (ready : taskReady s t = true) : ingWork (fuel + 1) s = ingWork fuel (runTask t s) := by
  have first : s.host.tasks.find? (taskReady s) = some t := by
    rw [front, List.find?_cons_of_pos ready]
  conv_lhs => unfold ingWork
  rw [first]

/-- The state that a task works on: its own blocks in the buffer, and the other tasks. -/
def State.workingOn (s : State) (t : IngTask) : State :=
  { s with host := { s.host with tasks := s.host.tasks.filter (fun x => x.id != t.id), buf := { wants := [], got := t.buf.got } } }

/-- A task that wants no further block is done. -/
theorem runTask_done {s u : State} {t : IngTask} (work : ingStep t.work (s.workingOn t) = u) (enough : u.host.buf.wants = []) :
    runTask t s = { u with host := { u.host with buf := {} } } := by
  subst work
  exact if_pos enough

theorem runTask_clean {s u : State} {t : IngTask} (work : ingStep t.work (s.workingOn t) = u) (clean : u.host.buf = {}) : runTask t s = u := by
  have left : ({ u with host := { u.host with buf := {} } } : State) = u := by rw [← clean]
  rw [runTask_done work (by rw [clean]), left]

/-- A task that wants further blocks asks for them, and nothing else of it counts. -/
theorem runTask_asks {s : State} {t : IngTask} {l : List (Nat × Nat)} (wants : (ingStep t.work (s.workingOn t)).host.buf.wants = l)
    (some : l ≠ []) : runTask t s = foldS (fun w s => stackAsk srcIngress 0 w.1 w.2 none rqIngress (fun _ => .ingress t.id w.1) s) l
      { s with host := { s.host with tasks := s.host.tasks.map fun x =>
        if x.id = t.id then { x with buf := { x.buf with wants := l } } else x } } := by
  subst wants
  exact if_neg some

/-- What a new task works on when the unit has nothing else to do. -/
def State.alone (s : State) : State := s.withUnit (s.jobNo + 1) { s.host with buf := {} }

theorem workingOn_new {s : State} (idle : s.host.tasks = []) (w : IngWork) : (addTask w s).workingOn ⟨s.jobNo, w, {}⟩ = s.alone := by
  unfold State.workingOn addTask State.alone State.withUnit
  simp [idle]

section
variable {s : State} {w : IngWork} (idle : s.host.tasks = []) (may : IngTask.MayRun ⟨s.jobNo, w, {}⟩ s)
include idle may

theorem ingressWork_new : ingressWork (addTask w s) = ingWork 1 (runTask ⟨s.jobNo, w, {}⟩ (addTask w s)) := by
  have front : (addTask w s).host.tasks = [⟨s.jobNo, w, {}⟩] := by
    unfold addTask
    rw [idle]
    rfl
  have ready : taskReady (addTask w s) ⟨s.jobNo, w, {}⟩ = true := taskReady_front front (fun _ none => nomatch none) may
  unfold ingressWork
  rw [front]
  exact ingWork_runs 1 front ready

/-- New work of an idle unit that wants no block is done at once. -/
theorem ingressWork_done {u : State} (work : ingStep w s.alone = u) (buf : u.host.buf = {})
    (rests : ∀ t ∈ u.host.tasks, taskReady u t = false) : ingressWork (addTask w s) = u := by
  rw [ingressWork_new idle may, runTask_clean ((congrArg (ingStep w) (workingOn_new idle w)).trans work) buf]
  exact ingWork_rests 1 rests

/-- New work of an idle unit asks for the blocks that it wants. -/
theorem ingressWork_asks {l : List (Nat × Nat)} (wants : (ingStep w s.alone).host.buf.wants = l) (some : l ≠ []) :
    ingressWork (addTask w s) = (foldS (fun b s' => stackAsk srcIngress 0 b.1 b.2 none rqIngress (fun _ => .ingress s.jobNo b.1) s') l s).withUnit
      (s.jobNo + 1) { s.host with tasks := [⟨s.jobNo, w, ⟨l, []⟩⟩] } := by
  have waiting : ({ addTask w s with host := { (addTask w s).host with tasks := (addTask w s).host.tasks.map fun x =>
      if x.id = s.jobNo then { x with buf := { x.buf with wants := l } } else x } } : State) =
      s.withUnit (s.jobNo + 1) { s.host with tasks := [⟨s.jobNo, w, ⟨l, []⟩⟩] } := by
    unfold addTask State.withUnit
    simp [idle]
  rw [ingressWork_new idle may, runTask_asks (by rw [workingOn_new idle w]; exact wants) some]
  dsimp only
  rw [waiting, foldS_comm _ (State.withUnit · _ _) fun b t => stackAsk_withUnit _ _ _ _ _ _ _ _ _ _]
  exact ingWork_rests 1 fun t mem => by
    obtain rfl := List.mem_singleton.1 mem
    exact taskReady_waits some rfl

end

end Sys2Proof.Machine

namespace Sys2Proof.Machine

/-! ## Reads of the unit -/

/-- A read of which no block has come wants them all. -/
theorem ingReadAux_wanted (l : List (Nat × Nat)) : ∀ s : State, s.host.buf.got = [] → ∃ bs, ingReadAux l s =
    (some bs, { s with host := { s.host with buf := { s.host.buf with wants := s.host.buf.wants ++ l } } }) := by
  induction l with
  | nil =>
    intro s _
    rw [List.append_nil]
    exact ⟨[], rfl⟩
  | cons p l ih =>
    intro s none
    obtain ⟨bs, rest⟩ := ih { s with host := { s.host with buf := { s.host.buf with wants := s.host.buf.wants ++ [(p.1, p.2)] } } } none
    have first : ingBlock p.1 p.2 s = (some (List.replicate p.2 0),
        { s with host := { s.host with buf := { s.host.buf with wants := s.host.buf.wants ++ [(p.1, p.2)] } } }) := by
      unfold ingBlock
      rw [none]
      rfl
    refine ⟨List.replicate p.2 0 ++ bs, ?_⟩
    unfold ingReadAux
    rw [first]
    dsimp only
    rw [rest]
    dsimp only
    rw [List.append_assoc]
    rfl

/-- A read whose blocks have all come changes nothing. -/
theorem ingReadAux_come (s : State) (f : Nat × Nat → List Byte) (l : List (Nat × Nat))
    (come : ∀ p ∈ l, ∃ g, (s.host.buf.got.find? fun g => g.1 == p.1 && (g.2.all fun b => b.length == p.2)) = some g ∧ g.2 = some (f p)) :
    ingReadAux l s = (some (l.flatMap f), s) := by
  induction l with
  | nil => rfl
  | cons p l ih =>
    obtain ⟨g, found, bytes⟩ := come p List.mem_cons_self
    have first : ingBlock p.1 p.2 s = (some (f p), s) := by
      unfold ingBlock
      rw [found]
      exact congrArg (·, s) bytes
    unfold ingReadAux
    rw [first]
    dsimp only
    rw [ih fun q mem => come q (List.mem_cons_of_mem p mem)]
    rfl

/-! ## The mooring table (R326) -/

/-- The entry of a session in the mooring table. -/
def HostDom.moorAt (h : HostDom) (i : BitVec 18) : Nat := (pair h.moorBaseLo h.moorBaseHi).toNat + 64 * i.toNat

/-- The entries of an aligned table are aligned. -/
theorem moorAt_aligned {h : HostDom} (aligned : h.moorBaseLo.toNat % 64 = 0) (i : BitVec 18) : h.moorAt i % 64 = 0 := by
  have base : (pair h.moorBaseLo h.moorBaseHi).toNat = h.moorBaseHi.toNat * 2 ^ 32 + h.moorBaseLo.toNat := by
    unfold pair
    rw [BitVec.toNat_append, ← Nat.shiftLeft_add_eq_or_of_lt h.moorBaseLo.isLt, Nat.shiftLeft_eq]
  unfold HostDom.moorAt
  omega

theorem moorPut_posts {i : BitVec 18} {off n a : Nat} (v : Nat) {h : HostDom} (entry : h.moorAt i = a) (aligned : a % 64 = 0) (pos : 0 < n)
    (fits : off + n ≤ 64) (l : List (Nat × List Byte)) (m k : Nat) (s : State) :
    moorPut i off n v ((Claims.posts l s).withUnit m (h.addPosted k)) =
      (Claims.posts (l ++ [(a + off, toBytes n v)]) s).withUnit m (h.addPosted (k + 1)) := by
  have place : ((Claims.posts l s).withUnit m (h.addPosted k)).moorAddr i = a := entry
  unfold moorPut
  rw [place]
  refine ingWrite_block ?_ ?_ l m k h s <;> rw [toBytes_length] <;> omega

theorem moorPut_host (i : BitVec 18) (off n v : Nat) (s : State) : (moorPut i off n v s).host =
    s.host.addPosted (pieces 64 (s.moorAddr i + off) (toBytes n v).length).length := by
  unfold moorPut ingWrite
  rw [stackAsk_stks]
  rfl

theorem updSession_buf (i : BitVec 18) (f : Session → Session) (s : State) : (s.updSession i f).host.buf = s.host.buf := rfl

theorem moorOpenEntry_posts {i : BitVec 18} {a : Nat} {h : HostDom} (entry : h.moorAt i = a) (aligned : a % 64 = 0) (ring : U64)
    (size tag : U32) (m : Nat) (s : State) : moorOpenEntry i ring size tag (s.withUnit m h) =
      (Claims.posts [(a + 12, toBytes 4 tag.toNat), (a + 8, toBytes 4 size.toNat), (a, toBytes 8 ring.toNat), (a + 16, toBytes 24 0),
        (a + 40, toBytes 1 1)] s).withUnit m { h with
          posted := h.posted + 5, sessions := tset {} h.sessions i.toNat ⟨ring.toNat, size.toNat, tag, 0, 0⟩
          openSessions := insertSession i h.openSessions, openedSince := h.openedSince + 1 } := by
  have puts : moorPut i 40 1 1 (moorPut i 16 24 0 (moorPut i 0 8 ring.toNat (moorPut i 8 4 size.toNat (moorPut i 12 4 tag.toNat
      ((Claims.posts [] s).withUnit m (h.addPosted 0)))))) = (Claims.posts [(a + 12, toBytes 4 tag.toNat), (a + 8, toBytes 4 size.toNat),
        (a, toBytes 8 ring.toNat), (a + 16, toBytes 24 0), (a + 40, toBytes 1 1)] s).withUnit m (h.addPosted 5) := by
    rw [moorPut_posts _ entry aligned (by decide) (by decide), moorPut_posts _ entry aligned (by decide) (by decide),
      moorPut_posts _ entry aligned (by decide) (by decide), moorPut_posts _ entry aligned (by decide) (by decide),
      moorPut_posts _ entry aligned (by decide) (by decide)]
    rfl
  change moorOpenEntry i ring size tag ((Claims.posts [] s).withUnit m (h.addPosted 0)) = _
  unfold moorOpenEntry
  dsimp only
  rw [puts]
  generalize Claims.posts _ s = t
  rfl

theorem moorCloseEntry_posts {i : BitVec 18} {a : Nat} {h : HostDom} (entry : h.moorAt i = a) (aligned : a % 64 = 0) (m : Nat) (s : State) :
    moorCloseEntry i (s.withUnit m h) = (Claims.posts [(a + 40, toBytes 1 2)] s).withUnit m { h with
      posted := h.posted + 1, openSessions := h.openSessions.filter (· != i), closing := insertSession i h.closing } := by
  have put : moorPut i 40 1 2 (s.withUnit m h) = (Claims.posts [(a + 40, toBytes 1 2)] s).withUnit m (h.addPosted 1) :=
    moorPut_posts 2 entry aligned (by decide) (by decide) [] m 0 s
  unfold moorCloseEntry
  rw [put]
  generalize Claims.posts _ s = t
  rfl

theorem ringOk_iff {ring size : Nat} : ringOk ring size = true ↔
    ring % 4096 = 0 ∧ 1 ≤ size ∧ size ≤ 1048576 ∧ ring + 4096 * size ≤ 1236950581248 := by
  have bytes : memBytes = 1236950581248 := by decide
  simp only [ringOk, Bool.and_eq_true, decide_eq_true_eq, and_assoc, bytes]

/-! ## What the unit accepts (R327, R329) -/

section
variable {s : State} (record : bit s.host.ingCfg 0 = false) (job : s.seq.state ≠ .empty) (i : BitVec 18)
include record job

theorem acceptMoor_open_taken (ring : U64) (size tag : U32) (taken : i ∈ s.host.openSessions ∨ i ∈ s.host.closing) :
    acceptMoor (.open_ i ring size tag) s = moorRefuse (.open_ i ring size tag) 1 s := by
  simp [acceptMoor, moorSession, record, job, taken]

theorem acceptMoor_open_badRing (ring : U64) (size tag : U32) (new : i ∉ s.host.openSessions) (free : i ∉ s.host.closing)
    (bad : ringOk ring.toNat size.toNat = false) : acceptMoor (.open_ i ring size tag) s = moorRefuse (.open_ i ring size tag) 2 s := by
  simp [acceptMoor, moorSession, record, job, new, free, bad]

theorem acceptMoor_open (ring : U64) (size tag : U32) (new : i ∉ s.host.openSessions) (free : i ∉ s.host.closing)
    (good : ringOk ring.toNat size.toNat = true) : acceptMoor (.open_ i ring size tag) s =
      moorResult (.open_ i ring size tag) 0 (moorOpenEntry i ring size tag s) := by
  simp [acceptMoor, moorSession, record, job, new, free, good]

theorem acceptMoor_close (open_ : i ∈ s.host.openSessions) : acceptMoor (.close i) s = moorResult (.close i) 0 (moorCloseEntry i s) := by
  simp [acceptMoor, moorSession, record, job, open_]

theorem acceptMoor_close_free (free : i ∉ s.host.openSessions) : acceptMoor (.close i) s = moorRefuse (.close i) 1 s := by
  simp [acceptMoor, moorSession, record, job, free]

theorem acceptMoor_bell_free (v : U32) (free : i ∉ s.host.openSessions) :
    acceptMoor (.bell i v) s = logErr errIngressState none (i.setWidth 64) 0 s := by
  simp [acceptMoor, moorSession, record, job, free, moorRefuse, moorCode, moorResult]

/-- A doorbell of an open session, the host's own or a relayed one, moves PRODUCER on. -/
theorem acceptMoor_bellOf (open_ : i ∈ s.host.openSessions) {d v : Nat} {q : MoorReq} (bell : Claims.bellOf s i d v q) :
    acceptMoor q s = moorAdvance i d v s := by
  obtain ⟨w, rfl, rfl, rfl⟩ | ⟨m, n, rfl, rfl, rfl⟩ := bell <;> simp [acceptMoor, moorSession, record, job, open_]

end

/-! ## Doorbells (R329) -/

theorem moorAdvance_still (i : BitVec 18) (v : Nat) (s : State) : moorAdvance i 0 v s = s := rfl

/-- CONSUMER of an entry is one block. -/
theorem consumer_block {a : Nat} (aligned : a % 64 = 0) : pieces 64 (a + 24) 8 = [(a + 24, 8)] := pieces_one (by decide) (by omega)

theorem moorAdvance_asks {i : BitVec 18} {d : Nat} (v : Nat) {s : State} (aligned : s.host.moorAt i % 64 = 0) (moves : d ≠ 0)
    (buf : s.host.buf = {}) : (moorAdvance i d v s).host.buf.wants = [(s.moorAddr i + 24, 8)] := by
  obtain ⟨bs, read⟩ := ingReadAux_wanted [(s.moorAddr i + 24, 8)] s (by rw [buf])
  have block : pieces 64 (s.moorAddr i + 24) 8 = [(s.moorAddr i + 24, 8)] := consumer_block aligned
  unfold moorAdvance consumerOf ingRead
  rw [if_neg moves, block, read, buf]
  dsimp only [Option.map_some]
  split
  · rw [logErr_frame]
    rfl
  · rw [updSession_buf, moorPut_host]
    rfl

/-- A doorbell whose CONSUMER has come. -/
theorem moorAdvance_come {i : BitVec 18} {d : Nat} (v : Nat) {s : State} {bs : List Byte} (aligned : s.host.moorAt i % 64 = 0)
    (moves : d ≠ 0) (come : s.host.buf.got = [(s.moorAddr i + 24, some bs)]) (size : bs.length = 8) : moorAdvance i d v s =
      if ofBytes bs / 64 + 64 * (s.session i).size < (s.session i).producer / 64 + d then
        logErr errIngressOverrun none (i.setWidth 64) (BitVec.ofNat 64 v) s
      else (moorPut i 16 8 (64 * ((s.session i).producer / 64 + d)) s).updSession i fun e =>
        { e with producer := 64 * ((s.session i).producer / 64 + d) } := by
  have block : pieces 64 (s.moorAddr i + 24) 8 = [(s.moorAddr i + 24, 8)] := consumer_block aligned
  have read : ingReadAux [(s.moorAddr i + 24, 8)] s = (some bs, s) := by
    have all := ingReadAux_come s (fun _ => bs) [(s.moorAddr i + 24, 8)] (by simp [come, size])
    simpa using all
  have consumer : consumerOf i s = (some (ofBytes bs), s) := by
    unfold consumerOf ingRead
    rw [block, read]
    rfl
  have passes : (s.session i).producer / 64 + d - ofBytes bs / 64 > 64 * (s.session i).size ↔
      ofBytes bs / 64 + 64 * (s.session i).size < (s.session i).producer / 64 + d := by omega
  unfold moorAdvance
  dsimp only
  rw [if_neg moves, consumer]
  simp only [passes]

end Sys2Proof.Machine

namespace Sys2Proof.Machine

/-! ## Requests of the host (R327, R365) -/

theorem logErr_host (code : U16) (core : Option (Fin 32)) (d0 d1 : U64) (s : State) : (logErr code core d0 d1 s).host = s.host := by
  rw [logErr_frame]

theorem logErr_fab (code : U16) (core : Option (Fin 32)) (d0 d1 : U64) (s : State) : (logErr code core d0 d1 s).fab = s.fab := by
  rw [logErr_frame]

/-- With the die up and below tier 2 a request is new work of the unit. -/
theorem moorRequest_runs {s : State} (on : s.pwr.dieOn = true) (shallow : s.pwr.tier.val < 2) (r : MoorReq) :
    moorRequest r s = ingressWork (addTask (.moor r s.host.writeNo) s) :=
  (if_neg fun off => off on).trans (if_neg (Nat.not_le.2 shallow))

/-- At tier 2 and deeper a doorbell waits, or finds the queue full (R365). -/
theorem doorbell_deferred {s : State} (on : s.pwr.dieOn = true) (deep : 2 ≤ s.pwr.tier.val) (i : BitVec 18) (v : U32) :
    exec (.doorbell i v) s = .next (if s.host.deferred.length < 4096 then
      { s with host := { s.host with deferred := s.host.deferred ++ [.bell i v] } } else logErr errIngressState none (i.setWidth 64) 0 s) :=
  congrArg Host.Outcome.next ((if_neg fun off => off on).trans (if_pos deep))

section
variable {s : State} (ready : Claims.MooringReady s) (idle : s.host.tasks = [])
include ready

theorem moor_mayRun (id : Nat) (r : MoorReq) (n : Nat) (b : ReadBuf) : IngTask.MayRun ⟨id, .moor r n, b⟩ s := by
  obtain ⟨-, shallow, -, -, noWrite, -⟩ := ready
  exact ⟨shallow, fun w mem => absurd (noWrite ▸ mem) List.not_mem_nil⟩

include idle

/-- A request that wants no block is accepted at once. -/
theorem moorRequest_done {r : MoorReq} {u : State} (work : acceptMoor r s.alone = u) (buf : u.host.buf = {}) (tasks : u.host.tasks = []) :
    moorRequest r s = u := by
  rw [moorRequest_runs ready.1 ready.2.1]
  exact ingressWork_done idle (moor_mayRun ready ..) work buf fun _ mem => absurd (tasks ▸ mem) List.not_mem_nil

theorem moorRequest_refused {r : MoorReq} {v : Nat} (refused : acceptMoor r s.alone = moorRefuse r v s.alone) :
    moorRequest r s = moorRefuse r v s.alone := by
  have buf : (moorResult r v s.alone).host.buf = {} := by cases r <;> rfl
  have tasks : (moorResult r v s.alone).host.tasks = [] := by cases r <;> exact idle
  unfold moorRefuse at refused ⊢
  exact moorRequest_done ready idle refused (by rw [logErr_host, buf]) (by rw [logErr_host, tasks])

/-- OPEN of a FREE entry with a good ring posts the entry's words (Table 12.3). -/
theorem moorOpen_opens {i : BitVec 18} {ring : U64} {size tag : U32} (new : i ∉ s.host.openSessions) (free : i ∉ s.host.closing)
    (good : ringOk ring.toNat size.toNat = true) : moorRequest (.open_ i ring size tag) s =
      (Claims.posts [(s.moorAddr i + 12, toBytes 4 tag.toNat), (s.moorAddr i + 8, toBytes 4 size.toNat), (s.moorAddr i, toBytes 8 ring.toNat),
        (s.moorAddr i + 16, toBytes 24 0), (s.moorAddr i + 40, toBytes 1 1)] s).withUnit (s.jobNo + 1) { s.host with
          openSessions := insertSession i s.host.openSessions, openedSince := s.host.openedSince + 1
          sessions := tset {} s.host.sessions i.toNat ⟨ring.toNat, size.toNat, tag, 0, 0⟩
          moorResult := 0x80000000, posted := s.host.posted + 5, buf := {} } := by
  obtain ⟨on, shallow, record, job, noWrite, aligned⟩ := ready
  have entry := moorOpenEntry_posts (a := s.moorAddr i) (h := { s.host with buf := {} }) rfl (moorAt_aligned aligned i) ring size tag (s.jobNo + 1) s
  refine moorRequest_done ⟨on, shallow, record, job, noWrite, aligned⟩ idle ?_ rfl idle
  rw [acceptMoor_open (s := s.alone) record job i ring size tag new free good]
  refine (congrArg (moorResult (.open_ i ring size tag) 0) entry).trans ?_
  generalize Claims.posts _ s = t
  rfl

/-- CLOSE of an OPEN entry posts its state. -/
theorem moorClose_closes {i : BitVec 18} (open_ : i ∈ s.host.openSessions) : moorRequest (.close i) s =
      (Claims.posts [(s.moorAddr i + 40, toBytes 1 2)] s).withUnit (s.jobNo + 1) { s.host with
        openSessions := s.host.openSessions.filter (· != i), closing := insertSession i s.host.closing
        moorResult := 0x80000000, posted := s.host.posted + 1, buf := {} } := by
  obtain ⟨on, shallow, record, job, noWrite, aligned⟩ := ready
  have entry := moorCloseEntry_posts (a := s.moorAddr i) (h := { s.host with buf := {} }) rfl (moorAt_aligned aligned i) (s.jobNo + 1) s
  refine moorRequest_done ⟨on, shallow, record, job, noWrite, aligned⟩ idle ?_ rfl idle
  rw [acceptMoor_close (s := s.alone) record job i open_]
  refine (congrArg (moorResult (.close i) 0) entry).trans ?_
  generalize Claims.posts _ s = t
  rfl

/-- A doorbell that moves PRODUCER, the host's own or a relayed one, asks for CONSUMER first. -/
theorem bell_asks {i : BitVec 18} (open_ : i ∈ s.host.openSessions) {d v : Nat} {q : MoorReq} (bell : Claims.bellOf s i d v q) (moves : d ≠ 0) :
    moorRequest q s = (stackAsk srcIngress 0 (s.moorAddr i + 24) 8 none rqIngress (fun _ => .ingress s.jobNo (s.moorAddr i + 24)) s).withUnit
      (s.jobNo + 1) { s.host with tasks := [⟨s.jobNo, .moor q s.host.writeNo, ⟨[(s.moorAddr i + 24, 8)], []⟩⟩] } := by
  obtain ⟨on, shallow, record, job, noWrite, aligned⟩ := ready
  have wants : (acceptMoor q s.alone).host.buf.wants = [(s.moorAddr i + 24, 8)] := by
    rw [acceptMoor_bellOf (s := s.alone) record job i open_ bell]
    exact moorAdvance_asks (s := s.alone) v (moorAt_aligned aligned i) moves rfl
  have may := moor_mayRun ⟨on, shallow, record, job, noWrite, aligned⟩ s.jobNo q s.host.writeNo {}
  rw [moorRequest_runs on shallow, ingressWork_asks idle may wants (List.cons_ne_nil _ _), foldS_one]

end

end Sys2Proof.Machine

namespace Sys2Proof.Machine

/-! ## Work that goes on before a later request -/

/-- The task of a doorbell that comes while the unit is at work. -/
def State.laterBell (s : State) (j : BitVec 18) (z : U32) : IngTask := ⟨s.jobNo, .moor (.bell j z) s.host.writeNo, {}⟩

/-- What work that goes on works on: the blocks that have come for it, and one later task. -/
def State.serving (s : State) (later : IngTask) (got : List (Nat × Option (List Byte))) : State :=
  s.withUnit (s.jobNo + 1) { s.host with tasks := [later], buf := { wants := [], got := got } }

/-- A doorbell is the unit's last task, and finds its session not open. -/
theorem ingWork_refused {t : State} {h : HostDom} {j : BitVec 18} (z : U32) (id n m : Nat) (shallow : t.pwr.tier.val < 2) (noWrite : h.writing = [])
    (record : bit h.ingCfg 0 = false) (job : t.seq.state ≠ .empty) (closed : j ∉ h.openSessions) :
    ingWork 2 (t.withUnit m { h with tasks := [⟨id, .moor (.bell j z) n, {}⟩], buf := {} }) =
      logErr errIngressState none (j.setWidth 64) 0 (t.withUnit m { h with tasks := [], buf := {} }) := by
  have alone : (t.withUnit m { h with tasks := [⟨id, .moor (.bell j z) n, {}⟩], buf := {} }).workingOn ⟨id, .moor (.bell j z) n, {}⟩ =
      t.withUnit m { h with tasks := [], buf := {} } := by
    simp [State.workingOn, State.withUnit]
  have refused : ingStep (.moor (.bell j z) n) (t.withUnit m { h with tasks := [], buf := {} }) =
      logErr errIngressState none (j.setWidth 64) 0 (t.withUnit m { h with tasks := [], buf := {} }) :=
    acceptMoor_bell_free (s := t.withUnit m { h with tasks := [], buf := {} }) record job j z closed
  have may : IngTask.MayRun ⟨id, .moor (.bell j z) n, {}⟩ (t.withUnit m { h with tasks := [⟨id, .moor (.bell j z) n, {}⟩], buf := {} }) :=
    ⟨shallow, fun w (mem : w ∈ h.writing) => absurd (noWrite ▸ mem) List.not_mem_nil⟩
  rw [ingWork_runs 1 rfl (taskReady_front rfl (by simp) may),
    runTask_clean ((congrArg (ingStep (.moor (.bell j z) n)) alone).trans refused) (by rw [logErr_host]; rfl)]
  exact ingWork_idle 1 (by rw [logErr_host]; rfl)

/-- Work whose blocks have come goes on before a later doorbell, which finds its session not open. -/
theorem doorbell_behind {s t : State} {h : HostDom} {x : IngTask} {j : BitVec 18} {z : U32} (ready : Claims.MooringReady s)
    (front : s.host.tasks = [x]) (other : x.id ≠ s.jobNo) (closed : j ∉ s.host.openSessions)
    (come : ∀ w ∈ x.buf.wants, ∃ g ∈ x.buf.got, g.1 = w.1) (may : x.MayRun s)
    (work : ingStep x.work (s.serving (s.laterBell j z) x.buf.got) =
      t.withUnit (s.jobNo + 1) { h with tasks := [s.laterBell j z], buf := { wants := [], got := x.buf.got } })
    (pwr : t.pwr = s.pwr) (seq : t.seq = s.seq) (sessions : h.openSessions = s.host.openSessions) (writing : h.writing = s.host.writing)
    (cfg : h.ingCfg = s.host.ingCfg) : exec (.doorbell j z) s =
      .next (logErr errIngressState none (j.setWidth 64) 0 (t.withUnit (s.jobNo + 1) { h with tasks := [], buf := {} })) := by
  obtain ⟨on, shallow, record, job, noWrite, -⟩ := ready
  have both : (addTask (.moor (.bell j z) s.host.writeNo) s).host.tasks = [x, s.laterBell j z] := by
    unfold addTask
    rw [front]
    rfl
  have serving : (addTask (.moor (.bell j z) s.host.writeNo) s).workingOn x = s.serving (s.laterBell j z) x.buf.got := by
    have others : [x, s.laterBell j z].filter (fun y => y.id != x.id) = [s.laterBell j z] := by
      simp [State.laterBell, Ne.symm other]
    unfold State.workingOn
    rw [both, others]
    rfl
  change Host.Outcome.next (moorRequest (.bell j z) s) = _
  rw [moorRequest_runs on shallow]
  unfold ingressWork
  rw [both]
  refine congrArg Host.Outcome.next ((ingWork_runs 2 both (taskReady_front both come may)).trans ?_)
  rw [runTask_done ((congrArg (ingStep x.work) serving).trans work) rfl]
  exact ingWork_refused (t := t) (h := h) z s.jobNo s.host.writeNo (s.jobNo + 1) (by rw [pwr]; exact shallow) (writing.trans noWrite)
    ((congrArg (bit · 0) cfg).trans record) (by rw [seq]; exact job) (by rw [sessions]; exact closed)

end Sys2Proof.Machine

namespace Sys2Proof.Machine

/-! ## Doorbells whose CONSUMER has come (R329) -/

section
variable {s : State} {x : IngTask} {j : BitVec 18} {z : U32} (ready : Claims.MooringReady s) (front : s.host.tasks = [x])
  (other : x.id ≠ s.jobNo) (closed : j ∉ s.host.openSessions)
include ready front other closed

/-- The doorbell fits the ring, or overruns it; then the later request is refused. -/
theorem bell_served {i : BitVec 18} {q : MoorReq} {d v n : Nat} {bs : List Byte} (open_ : i ∈ s.host.openSessions)
    (bell : Claims.bellOf s i d v q) (moves : 0 < d) (work : x.work = .moor q n)
    (buf : x.buf = ⟨[(s.moorAddr i + 24, 8)], [(s.moorAddr i + 24, some bs)]⟩) (size : bs.length = 8) :
    (ofBytes bs / 64 + 64 * (s.session i).size < (s.session i).producer / 64 + d → exec (.doorbell j z) s =
      .next (logErr errIngressState none (j.setWidth 64) 0 ((logErr errIngressOverrun none (i.setWidth 64) (BitVec.ofNat 64 v) s).withUnit
        (s.jobNo + 1) { s.host with tasks := [], buf := {} }))) ∧
    ((s.session i).producer / 64 + d ≤ ofBytes bs / 64 + 64 * (s.session i).size → exec (.doorbell j z) s =
      .next (logErr errIngressState none (j.setWidth 64) 0
        ((Claims.posts [(s.moorAddr i + 16, toBytes 8 (64 * ((s.session i).producer / 64 + d)))] s).withUnit (s.jobNo + 1) { s.host with
          posted := s.host.posted + 1
          sessions := tset {} s.host.sessions i.toNat { s.session i with producer := 64 * ((s.session i).producer / 64 + d) }
          tasks := [], buf := {} }))) := by
  have come : ∀ w ∈ x.buf.wants, ∃ g ∈ x.buf.got, g.1 = w.1 := by simp [buf]
  have may : x.MayRun s := by
    have id : x = ⟨x.id, .moor q n, x.buf⟩ := by rw [← work]
    rw [id]
    exact moor_mayRun ready ..
  have behind {t : State} {h : HostDom} := doorbell_behind (t := t) (h := h) (z := z) ready front other closed come may
  obtain ⟨-, -, record, job, -, aligned⟩ := ready
  have entry := moorAt_aligned aligned i
  have advance : ingStep x.work (s.serving (s.laterBell j z) x.buf.got) = moorAdvance i d v (s.serving (s.laterBell j z) x.buf.got) := by
    rw [work]
    exact acceptMoor_bellOf (s := s.serving (s.laterBell j z) x.buf.got) record job i open_ bell
  have served := advance.trans (moorAdvance_come (s := s.serving (s.laterBell j z) x.buf.got) (bs := bs) v entry (Nat.pos_iff_ne_zero.1 moves)
    (by rw [buf]; rfl) size)
  refine ⟨fun more => behind (h := s.host) ?overrun (by rw [logErr_frame]) (by rw [logErr_frame]) rfl rfl rfl,
    fun fits => behind (h := { s.host with
      posted := s.host.posted + 1
      sessions := tset {} s.host.sessions i.toNat { s.session i with producer := 64 * ((s.session i).producer / 64 + d) } })
      ?fits (by rw [posts_stks]) (by rw [posts_stks]) rfl rfl rfl⟩
  case overrun =>
    exact served.trans ((if_pos more).trans (logErr_withUnit ..))
  case fits =>
    have put := moorPut_posts (off := 16) (n := 8) (i := i) (a := s.moorAddr i) (64 * ((s.session i).producer / 64 + d))
      (h := (s.serving (s.laterBell j z) x.buf.got).host) rfl entry (by decide) (by decide) [] (s.jobNo + 1) 0 s
    refine served.trans ((if_neg (Nat.not_lt.2 fits)).trans ?_)
    refine (congrArg (fun t : State => t.updSession i fun e => { e with producer := 64 * ((s.session i).producer / 64 + d) }) put).trans ?_
    rw [List.nil_append]
    generalize Claims.posts _ s = t
    rfl

end

/-! ## Relays (R338) -/

theorem relayPieces_bytes : ∀ (fuel i : Nat) (l : List Byte), l.length ≤ 256 * fuel → (relayPieces fuel i l).flatMap (fun p => p.2) = l := by
  intro fuel
  induction fuel with
  | zero =>
    intro i l none
    rw [List.length_eq_zero_iff.1 (Nat.le_zero.1 none)]
    rfl
  | succ fuel ih =>
    intro i l reach
    cases l with
    | nil => rfl
    | cons b l =>
      have rest : ((b :: l).drop 256).length ≤ 256 * fuel := by
        rw [List.length_drop]
        omega
      unfold relayPieces
      rw [List.flatMap_cons, ih _ _ rest, List.take_append_drop]

theorem relayPieces_small : ∀ (fuel i : Nat) (l : List Byte), ∀ p ∈ relayPieces fuel i l, p.2.length ≤ 256 := by
  intro fuel
  induction fuel with
  | zero => exact fun i l p mem => absurd mem List.not_mem_nil
  | succ fuel ih =>
    intro i l p mem
    cases l with
    | nil => exact absurd mem List.not_mem_nil
    | cons b l =>
      obtain rfl | later := List.mem_cons.1 mem
      · exact List.length_take_le ..
      · exact ih _ _ p later

/-- The flits that carry the bytes of a relay. -/
def relayFlits (s : State) (dest : BitVec 12) (session : BitVec 18) (l : List Byte) : List Flit :=
  (relayPieces (l.length / 256 + 2) 0 l).map fun p => relayFlit s dest session 0 p.1 p.2

theorem relayFlits_bytes (s : State) (dest : BitVec 12) (session : BitVec 18) (l : List Byte) :
    (relayFlits s dest session l).flatMap (fun f => f.payload) = l := by
  unfold relayFlits
  rw [List.flatMap_map]
  exact relayPieces_bytes _ 0 l (by omega)

theorem relayFlits_fields (s : State) (dest : BitVec 12) (session : BitVec 18) (l : List Byte) : ∀ f ∈ relayFlits s dest session l,
    f.fkind = 2 ∧ f.src = s.module ∧ f.dest = dest ∧ f.ikind = 0 ∧ f.payload.length ≤ 256 := by
  intro f mem
  obtain ⟨p, piece, rfl⟩ := List.mem_map.1 mem
  exact ⟨rfl, rfl, rfl, rfl, relayPieces_small _ _ _ p piece⟩

/-- Flits for a module whose port is UP join what that port has to send. -/
theorem relayFlits_queued {dest : BitVec 12} {session : BitVec 18} {a : Fin 16} {r : U32} (valid : r.getLsbD 31 = true)
    (name : a = portOf (bits r 3 0)) (l : List (Nat × List Byte)) : ∀ s : State, r = tget 0 s.fab.route dest.toNat → (s.port a).state = .up →
    foldS (fun p s => c2Send (relayFlit s dest session 0 p.1 p.2) s) l s =
      s.updPort a fun x => { x with c2Out := x.c2Out ++ l.map fun p => relayFlit s dest session 0 p.1 p.2 } := by
  induction l with
  | nil =>
    intro s _ _
    have same : s.fab.ports.set a.val (s.port a) a.isLt = s.fab.ports := vector_set_get s.fab.ports a
    simp only [List.map_nil, List.append_nil, State.updPort, same]
    rfl
  | cons p l ih =>
    intro s route up
    have still : ((s.updPort a fun x => { x with c2Out := x.c2Out ++ [relayFlit s dest session 0 p.1 p.2] }).port a).state = .up :=
      (updPort_field FabPort.state rfl).trans up
    rw [foldS_cons, c2Send_port (f := relayFlit s dest session 0 p.1 p.2) route valid name up, ih (s.updPort a _) route still, updPort_updPort]
    simp only [List.map_cons, List.append_assoc, List.singleton_append]
    rfl

/-- A relay whose blocks have come puts its flits and its doorbell on the route's port. -/
theorem sendRelay_sends {s : State} {dest : BitVec 12} {session : BitVec 18} {a : Fin 16} {r : U32} {src : Nat} {l : List Byte}
    (valid : r.getLsbD 31 = true) (name : a = portOf (bits r 3 0)) (route : r = tget 0 s.fab.route dest.toNat) (up : (s.port a).state = .up)
    (read : ingRead src l.length s = (some l, s)) : sendRelay dest session src l.length s = s.updPort a fun x => { x with
      c2Out := x.c2Out ++ relayFlits s dest session l ++ [relayFlit s dest session 1 0 (toBytes 4 l.length)] } := by
  unfold sendRelay
  rw [read]
  dsimp only
  rw [relayFlits_queued valid name _ s route up, c2Send_port (s := s.updPort a _) route valid name ((updPort_field FabPort.state rfl).trans up),
    updPort_updPort]
  rfl

/-- The blocks that have come for a relay are its bytes. -/
theorem ingRead_blocks {s : State} {src : Nat} {l : List Byte}
    (come : s.host.buf.got = (pieces 64 src l.length).map fun w => (w.1, some ((l.drop (w.1 - src)).take w.2))) :
    ingRead src l.length s = (some l, s) := by
  have whole {w : Nat × Nat} (piece : w ∈ pieces 64 src l.length) : ((l.drop (w.1 - src)).take w.2).length = w.2 := by
    have inside := pieces_inside piece
    rw [List.length_take, List.length_drop]
    omega
  unfold ingRead
  rw [ingReadAux_come s (fun w => (l.drop (w.1 - src)).take w.2), pieces_flatMap (by decide)]
  intro p piece
  rw [come]
  have some_ : ((pieces 64 src l.length).map fun w => (w.1, some ((l.drop (w.1 - src)).take w.2))).find?
      (fun g => g.1 == p.1 && (g.2.all fun b => b.length == p.2)) |>.isSome := by
    rw [List.find?_isSome]
    exact ⟨_, List.mem_map_of_mem piece, by simp [whole piece]⟩
  obtain ⟨g, found⟩ := Option.isSome_iff_exists.1 some_
  obtain ⟨w, block, rfl⟩ := List.mem_map.1 (List.mem_of_find?_eq_some found)
  refine ⟨_, found, ?_⟩
  have fits := List.find?_some found
  simp only [Option.all_some, Bool.and_eq_true, beq_iff_eq, whole block] at fits
  rw [fits.1, fits.2]

section
variable {s : State} {x : IngTask} {j : BitVec 18} {z : U32} (ready : Claims.MooringReady s) (front : s.host.tasks = [x])
  (other : x.id ≠ s.jobNo) (closed : j ∉ s.host.openSessions)
include ready front other closed

theorem relay_served {dest : BitVec 12} {session : BitVec 18} {src : Nat} {l : List Byte} {a : Fin 16}
    (work : x.work = .relay dest session src l.length)
    (buf : x.buf = ⟨pieces 64 src l.length, (pieces 64 src l.length).map fun w => (w.1, some ((l.drop (w.1 - src)).take w.2))⟩)
    (name : a = portOf ((tget 0 s.fab.route dest.toNat).extractLsb' 0 4).toNat) (valid : (tget 0 s.fab.route dest.toNat).getLsbD 31 = true)
    (up : (s.port a).state = .up) : exec (.doorbell j z) s = .next (logErr errIngressState none (j.setWidth 64) 0
      ((s.updPort a fun p => { p with c2Out := p.c2Out ++ relayFlits s dest session l ++ [relayFlit s dest session 1 0 (toBytes 4 l.length)] }).withUnit
        (s.jobNo + 1) { s.host with tasks := [], buf := {} })) := by
  have come : ∀ w ∈ x.buf.wants, ∃ g ∈ x.buf.got, g.1 = w.1 := by
    rw [buf]
    exact fun w piece => ⟨_, List.mem_map_of_mem piece, rfl⟩
  have may : x.MayRun s := by
    unfold IngTask.MayRun
    rw [work]
    trivial
  have blocks := ingRead_blocks (s := s.serving (s.laterBell j z) x.buf.got) (src := src) (l := l) (by rw [buf]; rfl)
  refine doorbell_behind (h := s.host) ready front other closed come may ?_ rfl rfl rfl rfl rfl
  rw [work]
  exact sendRelay_sends (s := s.serving (s.laterBell j z) x.buf.got) valid name rfl up blocks

end

/-! ## The muster bell (R332) -/

/-- The bell of the muster of `mark`, with the free signaller `v` (log entry 32). -/
def musterReq (s : State) (mark v : U64) : BellReq :=
  { op := 2, addr := s.host.musterBellHi ++ s.host.musterBellLo, operand := mark + 1, express := false, srcModule := s.module
    srcCore := v.setWidth 5, cmd := v.extractLsb' 8 13, origin := .muster }

/-- Where an operation waits at its home neither the log nor the unit's registers have a part. -/
theorem bellArrive_withUnit (r : BellReq) (n : Nat) (h : HostDom) (s : State) :
    bellArrive r (s.withUnit n h) = (bellArrive r s).withUnit n h := by
  have place : bellPlace (s.withUnit n h) r.addr = bellPlace s r.addr := rfl
  unfold bellArrive
  rw [place]
  cases bellPlace s r.addr <;> rfl

theorem bellArrive_frame (r : BellReq) (s : State) :
    bellArrive r s = { s with cores := (bellArrive r s).cores, stks := (bellArrive r s).stks } := by
  unfold bellArrive
  cases bellPlace s r.addr <;> rfl

theorem logErr_bellArrive (r : BellReq) (code : U16) (core : Option (Fin 32)) (d0 d1 : U64) (s : State) :
    logErr code core d0 d1 (bellArrive r s) = bellArrive r (logErr code core d0 d1 s) := by
  refine logErr_beside (bellArrive r) (fun s => by rw [bellArrive_frame]) (fun s => by rw [bellArrive_frame]) (fun s m => ?_) code core d0 d1 s
  have place : bellPlace { s with mgmt := m } r.addr = bellPlace s r.addr := rfl
  unfold bellArrive
  rw [place]
  cases bellPlace s r.addr <;> rfl

section
variable {s : State} {x : IngTask} {j : BitVec 18} {z : U32} (ready : Claims.MooringReady s) (front : s.host.tasks = [x])
  (other : x.id ≠ s.jobNo) (closed : j ∉ s.host.openSessions)
include ready front other closed

theorem musterBell_served {mark : U64} (work : x.work = .bell mark) (buf : x.buf = {}) (written : s.host.posted = 0) :
    exec (.doorbell j z) s = .next (bellArrive (musterReq s mark (Config.freeValue s.freeCount)) (logErr errIngressState none (j.setWidth 64) 0
      (State.withUnit { s with freeCount := s.freeCount + 1 } (s.jobNo + 1) { s.host with tasks := [], buf := {} }))) := by
  have come : ∀ w ∈ x.buf.wants, ∃ g ∈ x.buf.got, g.1 = w.1 := by simp [buf]
  have may : x.MayRun s := by
    unfold IngTask.MayRun
    rw [work]
    exact written
  rw [← logErr_bellArrive, bellArrive_withUnit]
  refine doorbell_behind (h := s.host) ready front other closed come may ?_ (by rw [bellArrive_frame]) (by rw [bellArrive_frame]) rfl rfl rfl
  rw [work]
  exact bellArrive_withUnit (musterReq s mark (Config.freeValue s.freeCount)) _ _ { s with freeCount := s.freeCount + 1 }

end

end Sys2Proof.Machine

namespace Sys2Proof.Machine

/-! ## Relays as they are asked for and as they end (R338) -/

theorem c2Send_fab (f : Flit) (s : State) : c2Send f s = { s with fab := (c2Send f s).fab } := by
  unfold c2Send
  dsimp only
  split <;> rfl

theorem sendRelay_wants {s : State} (dest : BitVec 12) (session : BitVec 18) (src n : Nat) (buf : s.host.buf = {}) :
    (sendRelay dest session src n s).host.buf.wants = pieces 64 src n := by
  obtain ⟨bs, read⟩ := ingReadAux_wanted (pieces 64 src n) s (by rw [buf])
  have flits := foldS_fab (fun (p : Nat × List Byte) t => c2Send (relayFlit t dest session 0 p.1 p.2) t) fun p t => c2Send_fab _ t
  unfold sendRelay ingRead
  rw [read, buf]
  dsimp only
  rw [c2Send_fab, flits]
  rfl

theorem moorRelay_refused {s : State} {dest : BitVec 12} {session : BitVec 18} (target : dest = s.host.relModule.setWidth 12)
    (named : session = s.host.moorSel.setWidth 18) (on : s.pwr.dieOn = true) (again : s.relaying dest session = true) :
    exec .moorRelay s = .next (logErr errIngressState none (session.setWidth 64) 3 s) := by
  subst target named
  exact congrArg Host.Outcome.next ((if_neg fun off => off on).trans (if_pos (.inr (.inl again))))

/-- A relay that is in order asks for its bytes. -/
theorem moorRelay_asks {s : State} {dest : BitVec 12} {session : BitVec 18} {src n : Nat} (target : dest = s.host.relModule.setWidth 12)
    (named : session = s.host.moorSel.setWidth 18) (ring : src = (s.host.moorRingHi ++ s.host.moorRingLo).toNat)
    (length : n = s.host.moorSize.toNat) (on : s.pwr.dieOn = true) (job : s.seq.state ≠ .empty) (units : n % 64 = 0) (pos : 1 ≤ n)
    (few : n ≤ 1048576) (inside : src + n ≤ 1236950581248) (away : dest ≠ s.module) (valid : (tget 0 s.fab.route dest.toNat).getLsbD 31 = true) (first : s.relaying dest session = false)
    (idle : s.host.tasks = []) : exec .moorRelay s = .next (
      (foldS (fun w t => stackAsk srcIngress 0 w.1 w.2 none rqIngress (fun _ => .ingress s.jobNo w.1) t) (pieces 64 src n) s).withUnit
        (s.jobNo + 1) { s.host with tasks := [⟨s.jobNo, .relay dest session src n, ⟨pieces 64 src n, []⟩⟩] }) := by
  have bytes : memBytes = 1236950581248 := by decide
  have route : bit (tget 0 s.fab.route dest.toNat) 31 = true := valid
  have sound : ¬ (s.seq.state = .empty ∨ s.relaying dest session = true ∨ n % 64 ≠ 0 ∨ n = 0 ∨ 1048576 < n ∨ memBytes < src + n ∨
      dest = s.module ∨ bit (tget 0 s.fab.route dest.toNat) 31 = false) := by
    rw [bytes, route, first]
    simp only [job, away, false_or, or_false, Bool.false_eq_true, Bool.true_eq_false]
    omega
  rw [← ingressWork_asks (w := .relay dest session src n) idle trivial (sendRelay_wants (s := s.alone) dest session src n rfl)
    (pieces_ne_nil pos)]
  subst target named ring length
  exact congrArg Host.Outcome.next ((if_neg fun off => off on).trans (if_neg sound))

theorem relay_erased {s : State} {r : Relay} (one : s.host.relaysIn = [r]) : s.host.relaysIn.erase r = [] := by
  rw [one]
  simp

section
variable {s : State} {i : BitVec 18} {m : BitVec 12} {r : Relay} (one : s.host.relaysIn = [r]) (session : r.session = i) (source : r.source = m)
include one session source

theorem relay_found : s.host.relaysIn.find? (fun r => r.session == i && r.source == m) = some r := by
  rw [one]
  simp [session, source]

theorem relayedDoorbell_waits (missing : r.landed.toNat < r.bytes.toNat) : exec (.relayedDoorbell i m r.bytes) s = .next s := by
  have early : ¬ (r.bytes = r.bytes ∧ r.bytes ≠ 0 ∧ r.bytes.toNat ≤ r.landed.toNat) := fun all => Nat.not_le.2 missing all.2.2
  change execRelayedDoorbell i m r.bytes s = _
  unfold execRelayedDoorbell
  rw [relay_found one session source]
  exact congrArg Host.Outcome.next (if_neg early)

/-- A relayed doorbell whose bytes have all landed is a request like the host's own. -/
theorem relayedDoorbell_request (some : r.bytes ≠ 0) (landed : r.bytes.toNat ≤ r.landed.toNat) :
    exec (.relayedDoorbell i m r.bytes) s = .next (moorRequest (.relayed i m r.bytes) (s.withUnit s.jobNo { s.host with relaysIn := [] })) := by
  change execRelayedDoorbell i m r.bytes s = _
  unfold execRelayedDoorbell
  rw [relay_found one session source]
  dsimp only
  rw [if_pos ⟨rfl, some, landed⟩, relay_erased one]
  rfl

theorem relayStall_due (some : r.bytes ≠ 0) (missing : r.landed.toNat < r.bytes.toNat) (due : r.since.toNat + 1000000 ≤ s.now) :
    exec (.relayStall i m) s = .next (logErr errRelayStall none (i.setWidth 64) (m.setWidth 64) { s with host := { s.host with relaysIn := [] } }) := by
  change execRelayStall i m s = _
  unfold execRelayStall
  rw [relay_found one session source]
  dsimp only
  rw [if_pos ⟨some, missing, due⟩, relay_erased one]

theorem relayStall_early (early : s.now < r.since.toNat + 1000000) : exec (.relayStall i m) s = .next s := by
  change execRelayStall i m s = _
  unfold execRelayStall
  rw [relay_found one session source]
  exact congrArg Host.Outcome.next (if_neg fun all => Nat.not_le.2 early all.2.2)

end

end Sys2Proof.Machine

namespace Sys2Proof.Machine

/-! ## Musters and the ingress log (R331, R332, R334 to R336) -/

theorem logRecord_length (kind : Nat) (mark at_ : U64) (session : Nat) (body : List Byte) :
    (logRecord kind mark at_ session body).length = (32 + body.length + 63) / 64 * 64 := by
  unfold logRecord pad64
  simp only [List.length_append, toBytes_length, List.length_replicate]
  omega

theorem musterBytes_length {m : Muster} (none : m.entries = []) : (musterBytes m).length = 64 := by
  unfold musterBytes
  rw [none]
  simp

/-- An interrupt changes its own registers alone. -/
theorem setIrq_parts (v : Fin 5) (s : State) : ∃ c w p q,
    setIrq v s = { s with host := { s.host with irqCause := c, irqNow := w, msixPba := p, msixSent := q } } := by
  unfold setIrq
  dsimp only
  split
  · exact ⟨_, _, _, _, rfl⟩
  · split <;> exact ⟨_, _, _, _, rfl⟩

/-- The host's registers once the log has grown to `head`, by `k` requests, with what the interrupt of ILOG_WARN leaves. -/
def HostDom.logged (h : HostDom) (head k : Nat) (c : BitVec 5) (w : W1c) (p : Byte) (q : List (Fin 8)) : HostDom :=
  { h with ilogHead := BitVec.ofNat 64 head, posted := h.posted + k, irqCause := c, irqNow := w, msixPba := p, msixSent := q }

theorem ilogWrites_posts (bytes : Nat × Nat → List Byte) (h : HostDom) (s : State) (n : Nat) (parts : List (Nat × Nat)) : ∀ l k, ∃ k',
    foldS (fun p s => ingWrite (s.ilogBase + p.1 % max 1 s.ilogBytes) (bytes p) s) parts ((Claims.posts l s).withUnit n (h.addPosted k)) =
      (Claims.posts (l ++ parts.map fun p => ((s.withUnit n h).ilogBase + p.1 % max 1 (s.withUnit n h).ilogBytes, bytes p)) s).withUnit n
        (h.addPosted k') := by
  induction parts with
  | nil => exact fun l k => ⟨k, by rw [List.map_nil, List.append_nil]; rfl⟩
  | cons p parts ih =>
    intro l k
    have first := ingWrite_posts ((s.withUnit n h).ilogBase + p.1 % max 1 (s.withUnit n h).ilogBytes) (bytes p) l n k h s
    obtain ⟨k', rest⟩ := ih (l ++ [((s.withUnit n h).ilogBase + p.1 % max 1 (s.withUnit n h).ilogBytes, bytes p)])
      (k + (pieces 64 ((s.withUnit n h).ilogBase + p.1 % max 1 (s.withUnit n h).ilogBytes) (bytes p).length).length)
    rw [List.append_assoc] at rest
    exact ⟨k', (congrArg (foldS _ parts) first).trans rest⟩

/-- What joins the log is posted at ILOG_HEAD, which moves on; free space that falls below ILOG_WARN raises an interrupt (R336). -/
theorem ilogAppend_posts {s : State} {n N : Nat} {h : HostDom} (bs : List Byte) (size : (s.withUnit n h).ilogBytes = N) (pos : 0 < N) :
    ∃ k c w p q, ilogAppend bs (s.withUnit n h) = (Claims.posts ((pieces 64 h.ilogHead.toNat bs.length).map fun x =>
      ((s.withUnit n h).ilogBase + x.1 % N, (bs.drop (x.1 - h.ilogHead.toNat)).take x.2)) s).withUnit n
        (h.logged (h.ilogHead.toNat + bs.length) k c w p q) := by
  have some : max 1 N = N := by omega
  obtain ⟨k, writes⟩ := ilogWrites_posts (fun x => (bs.drop (x.1 - h.ilogHead.toNat)).take x.2) h s n (pieces 64 h.ilogHead.toNat bs.length) [] 0
  rw [size, some, List.nil_append] at writes
  unfold ilogAppend
  dsimp only
  generalize appended : foldS _ _ (s.withUnit n h) = t
  have same := appended.symm.trans writes
  split
  · obtain ⟨c, w, p, q, irq⟩ := setIrq_parts 4 { t with host := { t.host with ilogHead := BitVec.ofNat 64 (h.ilogHead.toNat + bs.length) } }
    refine ⟨k, c, w, p, q, irq.trans ?_⟩
    rw [same]
    generalize Claims.posts _ s = u
    rfl
  · refine ⟨k, h.irqCause, h.irqNow, h.msixPba, h.msixSent, ?_⟩
    rw [same]
    generalize Claims.posts _ s = u
    rfl

end Sys2Proof.Machine

namespace Sys2Proof.Machine

/-- A muster without sessions is its buffer, which is posted, and its bell. -/
theorem placeMuster_posts {m : Muster} {l : List (Nat × List Byte)} {s : State} {n B : Nat} {h : HostDom} (none : m.entries = [])
    (listed : h.listedFinal = []) (place : (s.withUnit n h).musterAddr m.mark = B) (aligned : B % 64 = 0) :
    placeMuster m ((Claims.posts l s).withUnit n h) = (Claims.posts (l ++ [(B, musterBytes m)]) s).withUnit (n + 1) { h with
      posted := h.posted + 1, tasks := ⟨n, .bell m.mark, {}⟩ :: h.tasks } := by
  have size := musterBytes_length none
  have buffer := ingWrite_block (a := B) (bs := musterBytes m) (by omega) (by omega) l n 0 h s
  have written : setMustered m (ingWrite (((Claims.posts l s).withUnit n h).musterAddr m.mark) (musterBytes m) ((Claims.posts l s).withUnit n h)) =
      (Claims.posts (l ++ [(B, musterBytes m)]) s).withUnit n (h.addPosted 1) := by
    have address : ((Claims.posts l s).withUnit n h).musterAddr m.mark = B := place
    unfold setMustered
    rw [none, address]
    exact buffer
  unfold placeMuster
  dsimp only
  rw [written]
  generalize Claims.posts (l ++ _) s = t
  have nobody : (t.withUnit n (h.addPosted 1)).host.listedFinal = [] := listed
  rw [nobody]
  rfl

theorem flushGaps_none {s : State} (none : s.host.gapMarks = []) : flushGaps s.host.gapMarks s = s := by
  have same : flushGaps [] s = s := by
    unfold flushGaps
    rw [← none]
  rw [none, same]

/-- A gap whose record fits joins the log. -/
theorem flushGaps_fits {s t : State} {n : Nat} {h : HostDom} {g : U64 × U64} (fits : 64 ≤ s.ilogFree)
    (joins : ilogAppend (logRecord 3 g.1 g.2 0 []) s = t.withUnit n h) : flushGaps [g] s = t.withUnit n { h with gapMarks := [] } := by
  refine (if_pos fits).trans ?_
  rw [joins]
  rfl

theorem logRecord_muster_length {m : Muster} (entries : m.entries = []) : (logRecord 1 m.mark m.at_ 0 (musterBytes m)).length = 128 := by
  rw [logRecord_length, musterBytes_length entries]

section
variable {m : Muster} {s : State} (entries : m.entries = []) (gaps : s.host.gapMarks = [])
include entries gaps

/-- The record of a muster without sessions joins the log where it fits. -/
theorem logMuster_fits (fits : 128 ≤ s.ilogFree) : logMuster m s = ilogAppend (logRecord 1 m.mark m.at_ 0 (musterBytes m)) s := by
  have length := logRecord_muster_length entries
  unfold logMuster
  rw [entries]
  dsimp only [bytesRecords]
  rw [flushGaps_none gaps, List.append_nil, length, if_pos ⟨fits, gaps⟩]

/-- Where it does not fit the muster leaves a gap (R336). -/
theorem logMuster_gap (short : s.ilogFree < 128) : logMuster m s = flushGaps [(m.mark, m.at_)]
    (logErr errIlogGap none m.mark 0 { s with host := { s.host with gap := true } }) := by
  have length := logRecord_muster_length entries
  have tight : ¬ (128 ≤ s.ilogFree ∧ s.host.gapMarks = []) := fun both => Nat.not_le.2 short both.1
  have still : (logErr errIlogGap none m.mark 0 { s with host := { s.host with gap := true } }).host.gapMarks = [] := by
    rw [logErr_host]
    exact gaps
  unfold logMuster
  rw [entries]
  dsimp only [bytesRecords]
  rw [flushGaps_none gaps, List.append_nil, length, if_neg tight, still, List.nil_append]

end

/-- The state in which the oldest of the musters is logged, with `l` those that follow it. -/
def State.mustering (s : State) (l : List Muster) : State := s.withUnit (s.jobNo + 1) { s.host with musters := l, buf := {} }

theorem mustering_gap (s : State) (l : List Muster) (mark : U64) :
    logErr errIlogGap none mark 0 { s.mustering l with host := { (s.mustering l).host with gap := true } } =
      (logErr errIlogGap none mark 0 s).withUnit (s.jobNo + 1) { s.host with musters := l, buf := {}, gap := true } :=
  logErr_withUnit errIlogGap none mark 0 (s.jobNo + 1) { s.host with musters := l, buf := {}, gap := true } s

section
variable {s : State} {m : Muster} {l : List Muster} (oldest : s.host.musters = m :: l)
include oldest

theorem musterWrite_early (early : s.legBefore m.mark = false) : exec .musterWrite s = .next s := by
  have waits : ¬ (s.seq.begun = true ∧ s.legBefore m.mark = true) := fun both => Bool.eq_false_iff.1 early both.2
  change execMusterWrite s = _
  unfold execMusterWrite
  rw [oldest]
  exact congrArg Host.Outcome.next (if_neg waits)

/-- A muster without sessions, once it is logged: its buffer is posted, and its bell waits for it (R332). -/
theorem musterWrite_places {p : List (Nat × List Byte)} {t : State} {h : HostDom} {B : Nat} (begun : s.seq.begun = true)
    (leg : s.legBefore m.mark = true) (record : s.host.ingCfg.getLsbD 0 = false) (idle : s.host.tasks = []) (entries : m.entries = [])
    (logged : logMuster m (s.mustering l) = (Claims.posts p t).withUnit (s.jobNo + 1) h) (listed : h.listedFinal = []) (tasks : h.tasks = [])
    (buf : h.buf = {}) (place : (t.withUnit (s.jobNo + 1) h).musterAddr m.mark = B) (aligned : B % 64 = 0) : exec .musterWrite s =
      .next ((Claims.posts (p ++ [(B, musterBytes m)]) t).withUnit (s.jobNo + 2) { h with
        posted := h.posted + 1, tasks := [⟨s.jobNo + 1, .bell m.mark, {}⟩] }) := by
  have placed := placeMuster_posts (l := p) entries listed place aligned
  rw [tasks] at placed
  have work : ingStep (.muster m) (s.mustering l) = placeMuster m (logMuster m (s.mustering l)) :=
    if_neg fun replay => Bool.eq_false_iff.1 record replay
  have runs : exec .musterWrite s =
      .next (ingressWork (addTask (.muster m) (s.withUnit s.jobNo { s.host with musters := l }))) := by
    change execMusterWrite s = _
    unfold execMusterWrite
    rw [oldest]
    exact congrArg Host.Outcome.next (if_pos ⟨begun, leg⟩)
  rw [runs]
  refine congrArg Host.Outcome.next (ingressWork_done (s := s.withUnit s.jobNo { s.host with musters := l }) (w := .muster m) idle trivial
    ((work.trans (congrArg (placeMuster m) logged)).trans placed) buf fun y bell => ?_)
  obtain rfl := List.mem_singleton.1 bell
  exact taskReady_bell rfl (Nat.succ_ne_zero _)

end

section
variable {s : State} {m : Muster} {l : List Muster} {B h : Nat} (oldest : s.host.musters = m :: l) (begun : s.seq.begun = true)
  (leg : s.legBefore m.mark = true) (record : s.host.ingCfg.getLsbD 0 = false) (entries : m.entries = []) (gaps : s.host.gapMarks = [])
  (listed : s.host.listedFinal = []) (idle : s.host.tasks = []) (place : B = s.musterAddr m.mark) (aligned : B % 64 = 0)
  (head : h = s.host.ilogHead.toNat)
include oldest begun leg record entries gaps listed idle place aligned

/-- With no room for a GAP record the gap waits (R336). -/
theorem musterWrite_full (full : s.ilogFree < 64) : exec .musterWrite s = .next (logErr errIlogGap none m.mark 0
    ((Claims.posts [(B, musterBytes m)] s).withUnit (s.jobNo + 2) { s.host with
      musters := l, gap := true, gapMarks := [(m.mark, m.at_)], posted := s.host.posted + 1, buf := {}
      tasks := [⟨s.jobNo + 1, .bell m.mark, {}⟩] })) := by
  have logged : logMuster m (s.mustering l) = (Claims.posts [] (logErr errIlogGap none m.mark 0 s)).withUnit (s.jobNo + 1)
      { s.host with musters := l, buf := {}, gap := true, gapMarks := [(m.mark, m.at_)] } := by
    rw [logMuster_gap (s := s.mustering l) entries gaps (Nat.lt_trans full (by decide)), mustering_gap]
    exact if_neg (Nat.not_le.2 full)
  rw [musterWrite_places oldest begun leg record idle entries logged listed idle rfl place.symm aligned, logErr_withUnit, logErr_posts]
  rfl

include head

/-- With room for a GAP record alone the gap joins the log at once (R336). -/
theorem musterWrite_gap (room : 64 ≤ s.ilogFree) (short : s.ilogFree < 128) (top : h + 64 < 2 ^ 64) : ∃ (t : State) (gap : List Byte),
    exec .musterWrite s = .next t ∧ gap = logRecord 3 m.mark m.at_ 0 [] ∧ t = {
      Claims.posts (((pieces 64 h 64).map fun p => (s.ilogBase + p.1 % s.ilogBytes, (gap.drop (p.1 - h)).take p.2)) ++ [(B, musterBytes m)])
        (logErr errIlogGap none m.mark 0 s) with
      jobNo := s.jobNo + 2, host := t.host } ∧
    t.host.musters = l ∧ t.host.gap = true ∧ t.host.gapMarks = [] ∧ t.host.ilogHead.toNat = h + 64 ∧ t.host.ilogTail = s.host.ilogTail ∧
    t.host.tasks = [⟨s.jobNo + 1, .bell m.mark, {}⟩] := by
  subst head
  have length : (logRecord 3 m.mark m.at_ 0 []).length = 64 := logRecord_length ..
  have size : 0 < s.ilogBytes := by
    unfold State.ilogFree at room
    omega
  obtain ⟨k, c, w, p, q, appended⟩ := ilogAppend_posts (s := logErr errIlogGap none m.mark 0 s) (n := s.jobNo + 1)
    (h := { s.host with musters := l, buf := {}, gap := true }) (N := s.ilogBytes) (logRecord 3 m.mark m.at_ 0 []) rfl size
  rw [length] at appended
  have logged := ((logMuster_gap (s := s.mustering l) entries gaps short).trans (congrArg (flushGaps _) (mustering_gap s l m.mark))).trans
    (flushGaps_fits (g := (m.mark, m.at_)) room appended)
  refine ⟨_, _, musterWrite_places oldest begun leg record idle entries logged listed idle rfl place.symm aligned, rfl, rfl, rfl, rfl,
    rfl, ?_, rfl, rfl⟩
  exact Nat.mod_eq_of_lt top

/-- With room for it the record of the muster joins the log (R335). -/
theorem musterWrite_logs (room : 128 ≤ s.ilogFree) (top : h + 128 < 2 ^ 64) : ∃ t : State, exec .musterWrite s = .next t ∧ t = {
      Claims.posts (((pieces 64 h 128).map fun p => (s.ilogBase + p.1 % s.ilogBytes,
        ((logRecord 1 m.mark m.at_ 0 (musterBytes m)).drop (p.1 - h)).take p.2)) ++ [(B, musterBytes m)]) s with
      jobNo := s.jobNo + 2, host := t.host } ∧
    t.host.musters = l ∧ t.host.gap = s.host.gap ∧ t.host.gapMarks = [] ∧ t.host.ilogHead.toNat = h + 128 ∧ t.host.ilogTail = s.host.ilogTail ∧
    t.host.tasks = [⟨s.jobNo + 1, .bell m.mark, {}⟩] := by
  subst head
  have size : 0 < s.ilogBytes := by
    unfold State.ilogFree at room
    omega
  obtain ⟨k, c, w, p, q, appended⟩ := ilogAppend_posts (s := s) (n := s.jobNo + 1) (h := { s.host with musters := l, buf := {} })
    (N := s.ilogBytes) (logRecord 1 m.mark m.at_ 0 (musterBytes m)) rfl size
  rw [logRecord_muster_length entries] at appended
  have logged := (logMuster_fits (s := s.mustering l) entries gaps room).trans appended
  refine ⟨_, musterWrite_places oldest begun leg record idle entries logged listed idle rfl place.symm aligned, rfl, rfl, rfl, gaps,
    ?_, rfl, rfl⟩
  exact Nat.mod_eq_of_lt top

end

/-! ## The registers of the log (R337, R405) -/

theorem ilogTailHi_sets {s : State} (v : U32) (main : s.pwr.mainOn = true) (gaps : s.host.gapMarks = []) :
    exec (.ilogTailHiWrite v) s = .next { s with host := { s.host with ilogTail := v ++ s.host.ilogTailLo } } := by
  change execIlogTailHiWrite v s = _
  unfold execIlogTailHiWrite
  rw [if_pos main]
  exact congrArg Host.Outcome.next (flushGaps_none (s := { s with host := { s.host with ilogTail := v ++ s.host.ilogTailLo } }) gaps)

theorem ilogHeadSet_replay {s : State} (v : U32) (main : s.pwr.mainOn = true) :
    exec (.ilogHeadSetWrite v) s = .next (if s.host.ingCfg.getLsbD 0 = true then
      { s with host := { s.host with ilogHead := BitVec.ofNat 64 (64 * v.toNat) } } else s) := by
  have both : (s.pwr.mainOn = true ∧ bit s.host.ingCfg 0 = true) ↔ s.host.ingCfg.getLsbD 0 = true := and_iff_right main
  exact congrArg Host.Outcome.next (if_congr both rfl rfl)

end Sys2Proof.Machine

namespace Sys2Proof.Machine

/-- Two numbers that differ have a difference (R329). -/
theorem toNat_sub_ne_zero {v p : U32} (moves : v ≠ p) : (v - p).toNat ≠ 0 := by
  intro none
  refine moves (BitVec.eq_of_toNat_eq ?_)
  bv_omega

/-- The PRODUCER units of a relayed doorbell. -/
theorem units_ne_zero {n : U32} (units : n.toNat % 64 = 0) (some : n ≠ 0) : n.toNat / 64 ≠ 0 := by
  have pos : n.toNat ≠ 0 := fun none => some (BitVec.eq_of_toNat_eq none)
  omega

/-- Settles O58: a request that wants no block is accepted at once (`moorRequest_done`), one that does asks for it (`ingressWork_asks`), and work
whose blocks have come goes on before a later request (`doorbell_behind`); a muster is logged or leaves a gap, and is placed
(`musterWrite_places`). -/
theorem ingressCommands : Obligations.IngressCommands := by
  intro s
  refine ⟨fun ready idle one left => ?requests, fun ready x later j z after front other name closed left => ?behind,
    fun i v on deep => doorbell_deferred on deep i v,
    fun dest session src n target named ring length on job units pos few inside away valid =>
      ⟨fun first idle => moorRelay_asks target named ring length on job units pos few inside away valid first idle,
        fun again => moorRelay_refused target named on again⟩,
    fun m l oldest => ⟨fun _ early => musterWrite_early oldest early,
      fun B h rec_ place head record begun leg cfg entries gaps listed idle aligned => ?muster⟩,
    fun none => ?noMuster, fun v main => ⟨fun gaps => ilogTailHi_sets v main gaps, ilogHeadSet_replay v main⟩⟩
  case requests =>
    have left : ∀ t h, one t h = t.withUnit (s.jobNo + 1) h := left
    obtain ⟨-, -, record, job, -, -⟩ := id ready
    refine ⟨fun i ring size named base length => ?table, fun i v closed => ?closed, fun i asks open_ asked => ?bells⟩
    case table =>
      subst named base length
      refine ⟨fun new free aligned pos few inside => ⟨_, congrArg Host.Outcome.next (moorOpen_opens ready idle new free
          (ringOk_iff.2 ⟨aligned, pos, few, inside⟩)), (left _ _).symm⟩,
        fun taken => ?_, fun new free bad => ?_, fun open_ => ?_, fun closed => ?_⟩ <;> rw [left]
      · exact congrArg Host.Outcome.next (moorRequest_refused ready idle (acceptMoor_open_taken (s := s.alone) record job _ _ _ _ taken))
      · have never : ringOk (pair s.host.moorRingLo s.host.moorRingHi).toNat s.host.moorSize.toNat = false := by
          refine Bool.eq_false_iff.2 fun good => ?_
          obtain ⟨aligned, pos, few, -⟩ := ringOk_iff.1 good
          obtain unaligned | none | many := bad
          · exact unaligned aligned
          · omega
          · omega
        exact congrArg Host.Outcome.next (moorRequest_refused ready idle (acceptMoor_open_badRing (s := s.alone) record job _ _ _ _ new free never))
      · exact congrArg Host.Outcome.next (moorClose_closes ready idle open_)
      · exact congrArg Host.Outcome.next (moorRequest_refused ready idle (acceptMoor_close_free (s := s.alone) record job _ closed))
    case closed =>
      rw [left]
      exact congrArg Host.Outcome.next (moorRequest_refused (v := 1) ready idle (acceptMoor_bell_free (s := s.alone) record job i v closed))
    case bells =>
      have asked (q : MoorReq) := (asked q).trans (left _ _)
      refine ⟨fun v still => ?_, fun v moves => ?_, fun m r single session source units some => ⟨fun landed => ?_, fun missing =>
        ⟨relayedDoorbell_waits single session source missing, relayStall_due single session source some missing,
          relayStall_early single session source⟩⟩⟩
      · have none : (v - BitVec.ofNat 32 ((s.session i).producer / 64)).toNat = 0 := by rw [still, BitVec.sub_self]; rfl
        have advance := acceptMoor_bellOf (s := s.alone) record job i open_ (.inl ⟨v, rfl, rfl, rfl⟩)
        rw [left]
        refine congrArg Host.Outcome.next (moorRequest_done ready idle (advance.trans ?_) rfl idle)
        exact (congrArg (moorAdvance i · v.toNat s.alone) none).trans (moorAdvance_still i v.toNat s.alone)
      · rw [asked]
        exact congrArg Host.Outcome.next (bell_asks ready idle open_ (.inl ⟨v, rfl, rfl, rfl⟩) (toNat_sub_ne_zero moves))
      · rw [relayedDoorbell_request single session source some landed, asked]
        refine congrArg Host.Outcome.next ((bell_asks (s := s.withUnit s.jobNo { s.host with relaysIn := [] }) ready idle open_
          (.inr ⟨m, r.bytes, rfl, rfl, rfl⟩) (units_ne_zero units some)).trans ?_)
        rw [stackAsk_withUnit]
        rfl
  case behind =>
    subst name
    have left : ∀ t h, after t h = logErr errIngressState none (j.setWidth 64) 0 (t.withUnit (s.jobNo + 1) { h with tasks := [], buf := {} }) := left
    refine ⟨fun i q d v n C bs open_ bell moves work buf size come => ?bell, fun dest session src l a work buf name pos valid up => ?relay,
      fun mark work buf written => ?musterBell⟩
    case bell =>
      subst come
      obtain ⟨overrun, fits⟩ := bell_served (z := z) ready front other closed open_ bell moves work buf size
      rw [left, left]
      exact ⟨overrun, fits⟩
    case relay =>
      refine ⟨_, relayFlits s dest session l, relay_served ready front other closed work buf name valid up, ?_, ?_,
        relayFlits_bytes s dest session l, relayFlits_fields s dest session l⟩ <;> rw [logErr_fab]
      · rw [left]
        rfl
      · rfl
    case musterBell =>
      refine ⟨musterReq s mark (Config.freeValue s.freeCount), _, musterBell_served ready front other closed work buf written, rfl, ?_⟩
      rw [left]
      exact bellArrive_atHome _ _
  case muster =>
    subst record
    refine ⟨fun full => musterWrite_full oldest begun leg cfg entries gaps listed idle place aligned full,
      fun room short top => musterWrite_gap oldest begun leg cfg entries gaps listed idle place aligned head room short top,
      fun room top => musterWrite_logs oldest begun leg cfg entries gaps listed idle place aligned head room top⟩
  case noMuster =>
    change execMusterWrite s = _
    unfold execMusterWrite
    rw [none]

end Sys2Proof.Machine

/-!
PROOFS. Loading images and ending jobs (13_quimar_image_loading.md): the key lock, the two passes of a load, kills and scrubs. Each part
gives the rows' outcomes as lemmas, and settles its statement from them.
-/
namespace Sys2Proof.Machine

/-! ## The key lock (R349) -/

/-- Settles O5: what a step moves at all (`step_moves`) leaves locked key slots as they are. -/
theorem lockedKeySlotsAreFrozen : Obligations.LockedKeySlotsAreFrozen := by
  intro s t locked noPower noLoss next
  have other : ∀ i ∈ s.pending.head?, Instr.notStandby i := by
    intro i front
    refine ⟨fun same => noPower ?_, fun same => noLoss ?_⟩
    · rw [Option.mem_def.1 front, same]
    · rw [Option.mem_def.1 front, same]
  exact (step_moves other next).locked locked

theorem keyLock_eq {s : State} (idle : s.loader.busy = false) : exec .keyLock s = .next (if s.seq.state = .empty then
    { s with loader := { s.loader with keyCfg := s.loader.keyCfg ||| 0x80000000 } } else s) := by
  have lock : setBit s.loader.keyCfg 31 true = s.loader.keyCfg ||| 0x80000000 := by
    refine BitVec.eq_of_getLsbD_eq fun j lt => ?_
    rw [getLsbD_setBit _ _ _ (by decide) lt, BitVec.getLsbD_or, Bool.or_comm, show (0x80000000 : U32) = BitVec.twoPow 32 31 from rfl,
      BitVec.getLsbD_twoPow]
    simp [eq_comm]
  change execKeyLock s = _
  unfold execKeyLock
  rw [lock]
  exact congrArg Host.Outcome.next (if_congr (unlocked_iff.trans (and_iff_left idle)) rfl rfl)

end Sys2Proof.Machine

namespace Sys2Proof.Machine

/-! ## LOAD (R353) -/

theorem loadable_iff {s : State} : s.loadable = true ↔ (s.seq.state = .empty ∧ s.loader.busy = false) ∧ s.time.osc = .locked ∧
    bits s.time.pathBudget 15 0 ≤ 500 ∧ s.pwr.phase = .ready ∧ s.pwr.killPending = false ∧ s.loader.dirty = false := by
  simp [State.loadable, unlocked_iff, and_assoc]

theorem imageLoad_busy {s : State} (busy : s.loader.busy = true) : exec .imageLoad s = .next s := congrArg Host.Outcome.next (if_pos busy)

theorem imageLoad_accepted {s : State} (idle : s.loader.busy = false) (ready : s.loadable = true) : exec .imageLoad s =
    .next { s with loader := { s.loader with busy := true, stepNo := 0, pass := false, stagedTouched := false } } :=
  congrArg Host.Outcome.next ((if_neg (Bool.eq_false_iff.1 idle)).trans (if_pos ready))

theorem imageLoad_refused {s : State} (idle : s.loader.busy = false) (unready : s.loadable = false) : exec .imageLoad s =
    .next (logErr errImageRefused none 1 0 { s with loader := { s.loader with busy := false, result := 1, faultOff := 0 } }) :=
  congrArg Host.Outcome.next ((if_neg (Bool.eq_false_iff.1 idle)).trans (if_neg (Bool.eq_false_iff.1 unready)))

theorem loadComplete_idle {s : State} (idle : s.loader.busy = false) (stop : Option (Byte × U64)) : exec (.loadComplete stop) s = .next s :=
  congrArg Host.Outcome.next (if_pos (Bool.eq_false_iff.1 idle))

/-! ## The staged image (R354) -/

/-- The bytes of the pieces of a range of memory are those of the range. -/
theorem mreads_pieces {k : Nat} (pos : 0 < k) (m : Mem) (a n : Nat) : (pieces k a n).flatMap (fun w => mreads m w.1 w.2) = mreads m a n := by
  have whole := pieces_flatMap pos (mreads m a n) a
  rw [mreads_length] at whole
  refine Eq.trans (List.flatMap_congr fun w mem => ?_) whole
  have inside := pieces_inside mem
  rw [mreads_drop_take m a (by omega), Nat.add_sub_cancel' inside.1]

theorem stageBlock_readable {s : State} (clean : s.errs = []) (live : s.pwr.snapshot = none) (a n : Nat) :
    stageBlock a n s = (some (mreads s.dram a n), s) := by
  have none : errOf s a = [] := by rw [errOf, clean]; rfl
  unfold stageBlock
  rw [none, fathomDecode_nil]
  dsimp only
  rw [applyErr_nil, dramBytes_eq_mreads live]

theorem stageRead_readable {s : State} (clean : s.errs = []) (live : s.pwr.snapshot = none) (base : Nat) (l : List (Nat × Nat)) :
    stageRead base l s = (.ok (l.flatMap fun w => mreads s.dram w.1 w.2), s) := by
  induction l with
  | nil => rfl
  | cons w l ih =>
    unfold stageRead
    rw [stageBlock_readable clean live]
    dsimp only
    rw [ih]
    rfl

/-- A staged image without a stored error, that the host has left alone, is read as it stands. -/
theorem stagedImage_readable {s : State} (clean : s.errs = []) (live : s.pwr.snapshot = none) (still : s.loader.stagedTouched = false) :
    stagedImage s = (.ok (mreads s.dram s.stageBase s.stageLen), s) := by
  unfold stagedImage
  rw [stageRead_readable clean live, mreads_pieces (by decide)]
  dsimp only
  rw [still]
  rfl

/-! ## The ends of the passes (R354) -/

section
variable {s : State} {l : List Byte} (image : stagedImage s = (.ok l, s))

theorem loadComplete_check (busy : s.loader.busy = true) (check : s.loader.pass = false) (stop : Option (Byte × U64)) :
    exec (.loadComplete stop) s = .next (endCheck s) :=
  congrArg Host.Outcome.next ((if_neg (not_not.2 busy)).trans (if_neg (Bool.eq_false_iff.1 check)))

theorem loadComplete_write (busy : s.loader.busy = true) (write : s.loader.pass = true) (stop : Option (Byte × U64)) :
    exec (.loadComplete stop) s = .next (endWrite stop s) :=
  congrArg Host.Outcome.next ((if_neg (not_not.2 busy)).trans (if_pos write))

include image

theorem endCheck_refused {r : Refuse} (unsound : checkImage l s.stageLen s = .error r) : endCheck s = endLoad r s := by
  unfold endCheck
  rw [image]
  dsimp only
  rw [unsound]

theorem endCheck_accepted {v : List Byte × List Rec} (sound : checkImage l s.stageLen s = .ok v) : endCheck s =
    { s with loader := { s.loader with pass := true, regions := (regionsOf l s).map fun x => x.2 } } := by
  unfold endCheck
  rw [image]
  dsimp only
  rw [sound]

theorem endWrite_done {v : List Byte × List Rec} (sound : checkImage l s.stageLen s = .ok v) : endWrite none s = writeImage l v.1 v.2 s := by
  unfold endWrite
  rw [image]
  dsimp only
  rw [sound]

theorem endWrite_stopped {v : List Byte × List Rec} (sound : checkImage l s.stageLen s = .ok v) (k : Byte) (o : U64) :
    endWrite (some (k, o)) s = if k.toNat ≤ 0x12 ∧ o.toNat < s.stageLen then stopWrite l v.1 v.2 k o s else s := by
  unfold endWrite
  rw [image]
  dsimp only
  rw [sound]

end

theorem endLoad_loader (r : Refuse) (s : State) : (endLoad r s).loader = { s.loader with
    busy := false, result := BitVec.ofNat 8 r.1, faultOff := BitVec.ofNat 64 r.2 } := by
  unfold endLoad
  rw [logErr_frame]

/-- A write pass that stops leaves the module DIRTY, at the step it had reached and the offset of the block (R355). -/
theorem stopWrite_loader (l v : List Byte) (rs : List Rec) (k : Byte) (o : U64) (s : State) : ∃ x : Loader,
    (stopWrite l v rs k o s).loader = { x with busy := false, dirty := true, stepNo := k, result := 0x0F, faultOff := o } := by
  unfold stopWrite
  dsimp only
  rw [endLoad_loader, BitVec.ofNat_toNat, BitVec.setWidth_eq]
  exact ⟨_, rfl⟩

/-! ## The end of the write pass (R354) -/

/-- A reading that every step of a fold keeps is kept. -/
theorem foldS_keeps {α β : Type} (f : α → State → State) (g : State → β) (step : ∀ a s, g (f a s) = g s) (l : List α) (s : State) :
    g (foldS f l s) = g s := by
  induction l generalizing s with
  | nil => rfl
  | cons a l ih => rw [foldS_cons, ih, step]

theorem raiseHalt_programId (c : HaltCause) (s : State) : (raiseHalt c s).seq.programId = s.seq.programId := by
  by_cases empty : s.seq.state = .empty
  · rw [raiseHalt_empty c s empty]
  by_cases halted : s.seq.state = .halted
  · unfold raiseHalt
    rw [if_neg empty, if_pos halted]
    split
    · obtain ⟨f, kept⟩ := keepHalt_frame _ s
      exact congrArg (·.seq.programId) kept
    · rfl
  · rw [raiseHalt_running c s empty halted]

theorem ueFound_programId (rq a : Nat) (s : State) : (ueFound rq a s).seq.programId = s.seq.programId := by
  unfold ueFound
  dsimp only
  split_ifs
  · rw [logErr_frame]
    rfl
  · exact raiseHalt_programId _ (ueRow a s)
  · rw [logErr_frame]
    rfl

theorem blockRead_programId (rq a n : Nat) (flip : ErrPat) (s : State) : (blockRead rq a n flip s).2.seq.programId = s.seq.programId := by
  unfold blockRead
  split
  · rfl
  · obtain ⟨v, p, h, f, frame⟩ := noteCorrected_frame a s
    exact congrArg (·.seq.programId) frame
  · exact ueFound_programId rq a s

theorem dramRead_programId (rq a n : Nat) (s : State) : (dramRead rq a n s).2.seq.programId = s.seq.programId := by
  unfold dramRead
  generalize pieces 64 a n = l
  induction l generalizing s with
  | nil => rfl
  | cons p l ih => exact (ih _).trans (blockRead_programId rq p.1 p.2 [] s)

theorem loadBanks_programId (leg : LegEntry) (s : State) : (loadBanks leg s).seq.programId = s.seq.programId := by
  refine foldS_keeps _ (·.seq.programId) (fun c u => ?_) allCores s
  dsimp only
  rw [show ∀ t f, (State.updCore t c f).seq = t.seq from fun _ _ => rfl, dramRead_programId, dramRead_programId]

theorem loadTables_programId (s : State) : (loadTables s).seq.programId = s.seq.programId := by
  unfold loadTables
  dsimp only
  exact dramRead_programId rqFabric _ 262144 s

theorem armBuoys_programId (v : List Byte) (rs : List Rec) (s : State) : (armBuoys v rs s).seq.programId = s.seq.programId := by
  refine foldS_keeps _ (·.seq.programId) (fun _ _ => ?_) _ s
  rfl

/-- The program of a loaded image is the one that its header names. -/
theorem loadSequencer_programId (l : List Byte) (s : State) :
    (loadSequencer l s).seq.programId.toNat = ofBytes ((l.drop 24).take 8) := by
  have length : ((l.drop 24).take 8).length ≤ 8 := List.length_take_le ..
  have fits := (ofBytes_lt ((l.drop 24).take 8)).trans_le (Nat.pow_le_pow_right (by decide) length)
  exact Nat.mod_eq_of_lt fits

theorem logErr_if (P : Prop) [Decidable P] (code : U16) (core : Option (Fin 32)) (d0 d1 : U64) (s : State) :
    ∃ m, (if P then logErr code core d0 d1 s else s) = { s with mgmt := m } := by
  split_ifs
  · exact ⟨_, logErr_frame ..⟩
  · exact ⟨s.mgmt, rfl⟩

/-- `t` is `s` with an image that is loaded or armed: what arming changes is the sequencer's state and marks, and the log. -/
def ArmsAtMost (s t : State) : Prop := ∃ (x : LegState) (at_ base : U64) (m : Mgmt),
  t = { s with seq := { s.seq with state := x, nextAt := at_, nextBase := base }, mgmt := m } ∧ x ≠ .empty

theorem legArmHiWrite_armsAtMost {s : State} (loaded : s.seq.state = .loaded) (v : U32) :
    ∃ t, execLegArmHiWrite v s = .next t ∧ ArmsAtMost s t := by
  refine ⟨_, execLegArmHiWrite_loaded s v loaded, ?_⟩
  dsimp only
  generalize pair s.seq.armLo v = t
  obtain ⟨m, early⟩ := logErr_if (decide (t.toNat < s.now + 10000) = true) errMarkPast none t s.time.hallTime s
  rw [early]
  obtain ⟨n, off⟩ := logErr_if (decide (t.toNat % 16 ≠ 0) = true) errMarkAlign none t s.time.hallTime { s with mgmt := m }
  rw [off]
  split_ifs
  · exact ⟨s.seq.state, s.seq.nextAt, s.seq.nextBase, n, rfl, by rw [loaded]; decide⟩
  · exact ⟨.armed, _, _, s.mgmt, rfl, by decide⟩

theorem armFirst_armsAtMost {s : State} (loaded : s.seq.state = .loaded) : ArmsAtMost s (armFirst s) := by
  unfold armFirst
  split_ifs
  · exact ⟨s.seq.state, s.seq.nextAt, s.seq.nextBase, s.mgmt, rfl, by rw [loaded]; decide⟩
  · obtain ⟨_, arm, x, a, b, m, rfl, live⟩ :=
      legArmHiWrite_armsAtMost (s := { s with seq := { s.seq with armLo := s.loader.firstMarkLo } }) loaded s.loader.firstMarkHi
    rw [arm]
    exact ⟨x, a, b, m, rfl, live⟩

/-- A write pass that ends leaves a loaded image and the program of its header (R354). -/
theorem writeImage_loaded (l v : List Byte) (rs : List Rec) (s : State) : ∃ t, writeImage l v rs s = t ∧ t.loader.busy = false ∧
    t.loader.result = 0 ∧ t.loader.faultOff = 0 ∧ t.seq.state ≠ .empty ∧ t.seq.programId.toNat = ofBytes ((l.drop 24).take 8) := by
  unfold writeImage
  dsimp only
  generalize writeSections v _ = u
  have program : (armBuoys v rs (loadTables (loadBanks (loadSequencer l u).seq.next.leg (loadSequencer l u)))).seq.programId.toNat =
      ofBytes ((l.drop 24).take 8) := by
    rw [armBuoys_programId, loadTables_programId, loadBanks_programId, loadSequencer_programId]
  generalize armBuoys v rs _ = w at program ⊢
  refine ⟨_, rfl, ?_⟩
  generalize result : armFirst _ = t
  obtain ⟨x, a, b, m, armed, live⟩ := result ▸ armFirst_armsAtMost rfl
  rw [armed]
  exact ⟨rfl, rfl, rfl, live, program⟩

end Sys2Proof.Machine

namespace Sys2Proof.Machine

/-! ## Zeroing (R356, R369, R371) -/

theorem canZero_iff (p : Power) : p.canZero = true ↔ Claims.mayZero p := by
  simp [Power.canZero, Claims.mayZero, or_assoc, and_assoc]

theorem tryZeroing_frame (s : State) : tryZeroing s = { s with pwr := { s.pwr with zeroing := (tryZeroing s).pwr.zeroing } } := by
  unfold tryZeroing
  split_ifs <;> rfl

/-- Zeroing begins with the table empty and the rails and stacks up, unless the kill is retained; one that has begun goes on. -/
theorem tryZeroing_zeroing (s : State) : (tryZeroing s).pwr.zeroing = true ↔
    s.pwr.killPending = true ∧ s.pwr.retained = false ∧ s.pwr.closeAt = none ∧ Claims.mayZero s.pwr ∨ s.pwr.zeroing = true := by
  rw [← canZero_iff, ← Bool.not_eq_true]
  unfold tryZeroing
  split_ifs with begins
  · exact iff_of_true rfl (.inl begins)
  · exact (or_iff_right begins).symm

/-- A table without some of its keys reads the default at those and is as it was elsewhere. -/
theorem tget_filter {α : Type} (d : α) (p : Nat → Bool) (t : Tbl α) (k : Nat) :
    tget d (t.filter fun e => p e.1) k = if p k then tget d t k else d := by
  induction t with
  | nil => exact (ite_self _).symm
  | cons e t ih =>
    obtain ⟨a, v⟩ := e
    by_cases same : a = k
    · subst same
      by_cases kept : p a = true
      · simp [kept, tget]
      · rw [if_neg kept] at ih ⊢
        simp [kept, ih]
    · by_cases kept : p a = true <;> simp [kept, tget, same, ih]

theorem zeroRanges_mread (l : List (Nat × Nat × Nat)) (s : State) (a : Nat) :
    mread (zeroRanges l s).dram a = if l.any fun r => inRange r a then 0 else mread s.dram a := by
  have kept := tget_filter (0 : Byte) (fun a => !l.any fun r => inRange r a) s.dram a
  refine kept.trans ?_
  cases l.any fun r => inRange r a <;> rfl

/-! ## The kill of a die that has not halted (R370 to R372) -/

/-- A halt cause on a die that has not halted: the die halts with its record, where it holds an image. -/
theorem raiseHalt_live (c : HaltCause) (s : State) (live : s.seq.state ≠ .halted) : ∃ (m : Mgmt) (q : Sequencer) (k : Option Hold)
    (e : BitVec 7) (n : W1c) (o : HostDom) (l : List (BitVec 12)) (x : Vector FabPort 16),
    raiseHalt c s = { s with
      mgmt := m, seq := q, clk := { s.clk with hold := k }, pwr := { s.pwr with event := e, eventNow := n }, host := o
      fab := { s.fab with haltSeen := l, ports := x } } ∧
    (s.seq.state = .empty → q.state = .empty ∧ m = s.mgmt) ∧
    (s.seq.state ≠ .empty → q.state = .halted ∧ m.halt = haltRecord c s) := by
  by_cases empty : s.seq.state = .empty
  · rw [raiseHalt_empty c s empty]
    exact ⟨_, _, _, _, _, _, _, _, rfl, fun _ => ⟨empty, rfl⟩, fun loaded => absurd empty loaded⟩
  · have flood (h : HaltRec) (u : State) : ∃ x, floodHalt h u = { u with fab := { u.fab with ports := x } } := by
      unfold floodHalt
      split_ifs
      · exact ⟨_, rfl⟩
      · exact c0flood_eq _ _ _
    unfold raiseHalt haltWith
    rw [if_neg empty, if_neg live]
    obtain ⟨x, flood⟩ := flood (haltRecord c s) (setIrq 0 (setEvent evHalt { s with
      mgmt := { s.mgmt with halt := haltRecord c s, haltCount := satInc s.mgmt.haltCount }
      seq := { s.seq with state := .halted, parked := false, suspended := false, suspendReq := none }
      clk := { s.clk with hold := none }
      fab := { s.fab with haltSeen := s.seq.origin :: s.fab.haltSeen } }))
    rw [flood, setIrq_frame]
    exact ⟨_, _, _, _, _, _, _, _, rfl, fun none => absurd none empty, fun _ => ⟨rfl, rfl⟩⟩

theorem killedPhase_eq (x : PwrPhase) : killedPhase x = if x ∈ [.ready, .parked, .suspended, .killed] then .killed else x := by
  cases x <;> rfl

/-- A kill leaves the phases in which the zeroing waits, and those of standby power, as they are. -/
theorem mayZero_killed {p q : Power} (phase : q.phase = killedPhase p.phase) (die : q.dieOn = p.dieOn) (fast : q.fastResume = p.fastResume) :
    Claims.mayZero q ↔ Claims.mayZero p := by
  unfold Claims.mayZero
  rw [phase, die, fast]
  cases p.phase <;> simp [killedPhase]

/-- The kill strikes: the windows close at the next mark, the die halts, and the zeroing is owed. -/
def State.struck (s : State) (c : HaltCause) : State :=
  let t := raiseHalt c (closeWindows s)
  { t with pwr := { t.pwr with phase := killedPhase t.pwr.phase, killPending := true } }

/-- What a kill leaves wherever its windows, phase and halt are concerned, retained or not. -/
structure Struck (s : State) (c : HaltCause) (t : State) : Prop where
  pending : t.pwr.killPending = true
  phase : t.pwr.phase = killedPhase s.pwr.phase
  time : t.time.beaconCfg = s.time.beaconCfg ∧ t.time.hallTime = s.time.hallTime
  dram : t.dram = s.dram
  windows : t.fab.windows = s.fab.windows.map fun e => (e.1, closeWin s.seq.nextNum e.2)
  ranges : t.pwr.zeroRanges = killRanges s
  closeAt : t.pwr.closeAt = if s.fab.windows = [] then none else some s.seq.nextAt
  empty : s.seq.state = .empty → t.seq.state = .empty ∧ t.mgmt = s.mgmt
  halted : s.seq.state ≠ .empty → t.seq.state = .halted ∧ t.mgmt.halt = haltRecord c (closeWindows s)

/-- The kill itself leaves the cores and the power block's other fields to the scrub that follows or waits. -/
theorem struck_frame (s : State) (c : HaltCause) (live : s.seq.state ≠ .halted) : Struck s c (s.struck c) ∧
    (s.struck c).cores = s.cores ∧ (s.struck c).fab.c0Bound = s.fab.c0Bound ∧
    (s.struck c).pwr.retained = s.pwr.retained ∧ (s.struck c).pwr.zeroing = s.pwr.zeroing ∧
    (Claims.mayZero (s.struck c).pwr ↔ Claims.mayZero s.pwr) := by
  obtain ⟨m, q, k, e, n, o, l, x, struck, empty, halted⟩ := raiseHalt_live c (closeWindows s) live
  unfold State.struck
  rw [struck]
  exact ⟨⟨rfl, rfl, ⟨rfl, rfl⟩, rfl, rfl, rfl, rfl, empty, halted⟩, rfl, rfl, rfl, rfl, mayZero_killed rfl rfl rfl⟩

/-- A retention keeps what the kill has left. -/
theorem Struck.retained {s t : State} {c : HaltCause} (struck : Struck s c t) :
    Struck s c { t with pwr := { t.pwr with retained := true } } := { struck with }

/-- So does the scrub, which neither the windows nor the halt record are part of. -/
theorem Struck.scrubbed {s t : State} {c : HaltCause} (struck : Struck s c t) : Struck s c (tryZeroing (scrubDie t)) := by
  rw [tryZeroing_frame]
  exact { struck with }

theorem tryZeroing_retained (s : State) : (tryZeroing s).pwr.retained = s.pwr.retained := by rw [tryZeroing_frame]

/-- The scrub itself neither starts the zeroing nor stands in its way. -/
theorem scrubDie_zeroing (s : State) : (tryZeroing (scrubDie s)).pwr.zeroing = true ↔
    s.pwr.killPending = true ∧ s.pwr.retained = false ∧ s.pwr.closeAt = none ∧ Claims.mayZero s.pwr ∨ s.pwr.zeroing = true :=
  tryZeroing_zeroing (scrubDie s)

/-- The scrubbed die: R370's state is zero and every RWL register has its value of Table 16.3. -/
structure Scrubbed (t : State) : Prop where
  cores : t.cores = Vector.replicate 32 {}
  groups : t.groups = []
  seq : t.seq.cfg = 0 ∧ t.seq.tableLen = 0
  time : t.time.slipCfg = 0x00800040 ∧ t.time.legCfg = 0x0000003C
  hold : t.clk.holdCfg = 0x00271010
  fab : t.fab.c0Bound = 0x3C4 ∧ t.fab.drain = 0x400 ∧ t.fab.route = []
  host : t.host.musterDepth = 2
  pwr : t.pwr.suspBaseLo = 0 ∧ t.pwr.resumeLo = 0

theorem scrubDie_scrubbed (s : State) : Scrubbed (tryZeroing (scrubDie s)) := by
  rw [tryZeroing_frame]
  exact ⟨rfl, rfl, ⟨rfl, rfl⟩, ⟨rfl, rfl⟩, rfl, ⟨rfl, rfl, rfl⟩, rfl, rfl, rfl⟩

/-! ## KILL (R370, R372) -/

theorem stopLoad_idle {s : State} (idle : s.loader.busy = false) : stopLoad s = s := if_neg (Bool.eq_false_iff.1 idle)

/-- The cause of a kill: its source is DETAIL0, and DETAIL1 is the supply's voltage (R370). -/
def killCause (s : State) (source : KillSource) : HaltCause :=
  ⟨hcKill, none, engPower, none, killCode source, if source = .supply then s.pwr.vin.setWidth 64 else 0⟩

theorem kill_pending {s : State} (idle : s.loader.busy = false) (pending : s.pwr.killPending = true) (gone : s.pwr.retained = false)
    (source : KillSource) (retain : Bool) : exec (.kill source retain) s = .next s := by
  change execKill source retain s = _
  unfold execKill killDie
  dsimp only
  rw [stopLoad_idle idle, if_pos pending, if_neg fun kept => Bool.eq_false_iff.1 gone kept.1]

/-- The halt record of a kill. -/
theorem Struck.record {s t : State} {source : KillSource} (struck : Struck s (killCause s source) t) (loaded : s.seq.state ≠ .empty) :
    t.seq.state = .halted ∧ t.mgmt.halt.valid = true ∧ t.mgmt.halt.reason = 0x11 ∧ t.mgmt.halt.engine = 0x13 ∧
      t.mgmt.halt.noCore = true ∧ t.mgmt.halt.detail0 = killCode source := by
  obtain ⟨halted, record⟩ := struck.halted loaded
  rw [record]
  exact ⟨halted, rfl, rfl, rfl, rfl, rfl⟩

section
variable {s : State} (source : KillSource) (retain : Bool) (idle : s.loader.busy = false) (fresh : s.pwr.killPending = false)
  (live : s.seq.state ≠ .halted)
include idle fresh

theorem kill_eq : exec (.kill source retain) s = .next (if (retain && s.pwr.debugEnable && source != .supply) = true ∧
      (s.struck (killCause s source)).seq.state ≠ .empty then
    { s.struck (killCause s source) with pwr := { (s.struck (killCause s source)).pwr with retained := true } }
    else tryZeroing (scrubDie (s.struck (killCause s source)))) := by
  change execKill source retain s = _
  unfold execKill killDie
  dsimp only
  rw [stopLoad_idle idle, if_neg (Bool.eq_false_iff.1 fresh)]
  rfl

include live

/-- The kill is retained: RETAIN counts while DEBUG_ENABLE is 1, for a die that holds an image, and never for the supply. -/
theorem kill_retained (keep : retain = true ∧ s.pwr.debugEnable = true ∧ source ≠ .supply ∧ s.seq.state ≠ .empty) :
    ∃ t, exec (.kill source retain) s = .next t ∧ Struck s (killCause s source) t ∧
      t.pwr.retained = true ∧ t.cores = s.cores ∧ t.fab.c0Bound = s.fab.c0Bound := by
  obtain ⟨asked, enable, host, loaded⟩ := keep
  obtain ⟨struck, cores, bound, -⟩ := struck_frame s (killCause s source) live
  have kept : (retain && s.pwr.debugEnable && source != .supply) = true := by simp [asked, enable, host]
  have halted : (s.struck (killCause s source)).seq.state ≠ .empty := by rw [(struck.halted loaded).1]; decide
  exact ⟨_, (kill_eq source retain idle fresh).trans (congrArg Host.Outcome.next (if_pos ⟨kept, halted⟩)), struck.retained, rfl, cores, bound⟩

/-- Any other kill scrubs the die, and the zeroing begins where no window stands and nothing is in its way. -/
theorem kill_scrubs (drop : ¬(retain = true ∧ s.pwr.debugEnable = true ∧ source ≠ .supply ∧ s.seq.state ≠ .empty)) :
    ∃ t, exec (.kill source retain) s = .next t ∧ Struck s (killCause s source) t ∧ Scrubbed t ∧ t.pwr.retained = s.pwr.retained ∧
      (s.pwr.retained = false → (t.pwr.zeroing = true ↔ s.fab.windows = [] ∧ Claims.mayZero s.pwr ∨ s.pwr.zeroing = true)) := by
  obtain ⟨struck, -, -, retained, zeroing, mayZero⟩ := struck_frame s (killCause s source) live
  have dropped : ¬((retain && s.pwr.debugEnable && source != .supply) = true ∧ (s.struck (killCause s source)).seq.state ≠ .empty) := by
    rintro ⟨kept, halted⟩
    simp only [Bool.and_eq_true, bne_iff_ne] at kept
    obtain ⟨⟨asked, enable⟩, host⟩ := kept
    exact drop ⟨asked, enable, host, fun empty => halted (struck.empty empty).1⟩
  refine ⟨_, (kill_eq source retain idle fresh).trans (congrArg Host.Outcome.next (if_neg dropped)), struck.scrubbed, scrubDie_scrubbed _,
    (tryZeroing_retained _).trans retained, fun gone => ?_⟩
  refine (scrubDie_zeroing (s.struck (killCause s source))).trans ?_
  rw [struck.pending, retained, gone, struck.closeAt, mayZero, zeroing]
  simp

theorem kill_struck : ∃ t, exec (.kill source retain) s = .next t ∧ Struck s (killCause s source) t ∧
    if retain = true ∧ s.pwr.debugEnable = true ∧ source ≠ .supply ∧ s.seq.state ≠ .empty then
      t.pwr.retained = true ∧ t.cores = s.cores ∧ t.fab.c0Bound = s.fab.c0Bound
    else Scrubbed t ∧ t.pwr.retained = s.pwr.retained ∧
      (s.pwr.retained = false → (t.pwr.zeroing = true ↔ s.fab.windows = [] ∧ Claims.mayZero s.pwr ∨ s.pwr.zeroing = true)) := by
  split_ifs with keep
  · exact kill_retained source retain idle fresh live keep
  · exact kill_scrubs source retain idle fresh live keep

end

/-! ## SCRUB and WINDOW_TABLE_EMPTY (R371, R372) -/

theorem scrub_retained {s : State} (kept : s.pwr.retained = true) : exec .scrub s =
    .next (tryZeroing (scrubDie { s with pwr := { s.pwr with retained := false } })) := congrArg Host.Outcome.next (if_pos kept)

theorem scrub_ignored {s : State} (gone : s.pwr.retained = false) : exec .scrub s = .next s :=
  congrArg Host.Outcome.next (if_neg (Bool.eq_false_iff.1 gone))

theorem windowTableEmpty_of_closeAt {s : State} {u : U64} (closing : s.pwr.closeAt = some u) : exec .windowTableEmpty s =
    .next (if u.toNat + 65536 ≤ s.now then tryZeroing { s with fab := { s.fab with windows := [] }, pwr := { s.pwr with closeAt := none } }
      else s) := by
  change execWindowTableEmpty s = _
  unfold execWindowTableEmpty
  rw [closing]

theorem windowTableEmpty_of_none {s : State} (closed : s.pwr.closeAt = none) : exec .windowTableEmpty s = .next s := by
  change execWindowTableEmpty s = _
  unfold execWindowTableEmpty
  rw [closed]

end Sys2Proof.Machine

namespace Sys2Proof.Machine

/-! ## The life of an image (R353 to R356, R370 to R372) -/

/-- Settles O59: a LOAD is accepted by `loadable_iff`, and each pass ends on the image as it stands (`stagedImage_readable`), the write pass
in `writeImage_loaded` or `stopWrite_loader`; a kill leaves `Struck`, retained or with the scrubbed die (`kill_struck`); and the zeroing begins
by `tryZeroing_zeroing` and ends by `zeroRanges_mread`. -/
theorem loadsKillsAndScrubs : Obligations.LoadsKillsAndScrubs := by
  intro s
  refine ⟨fun idle => ⟨?accept, ?refuse, fun stop => loadComplete_idle idle stop, keyLock_eq idle⟩, imageLoad_busy, ?passes,
    fun idle pending gone source retain => ?again, ?kill, ?scrub, scrub_ignored, ?table, windowTableEmpty_of_none, ?notZeroing, ?zeroing⟩
  case accept =>
    intro empty locked near ready fresh clean
    exact imageLoad_accepted idle (loadable_iff.2 ⟨⟨empty, idle⟩, locked, near, ready, fresh, clean⟩)
  case refuse =>
    intro bad
    refine imageLoad_refused idle (Bool.eq_false_iff.2 fun good => ?_)
    obtain ⟨⟨empty, -⟩, locked, near, ready, fresh, clean⟩ := loadable_iff.1 good
    obtain bad | bad | bad | bad | bad | bad := bad
    · exact bad empty
    · exact bad locked
    · omega
    · exact bad ready
    · exact Bool.eq_false_iff.1 fresh bad
    · exact Bool.eq_false_iff.1 clean bad
  case passes =>
    intro busy still clean live l bytes
    have image : stagedImage s = (.ok l, s) := bytes ▸ stagedImage_readable clean live still
    refine ⟨fun check stop => ⟨fun r unsound => ?_, fun v sound => ?_⟩,
      fun v write sound => ⟨?_, fun k o step inside => ?_, fun k o outside => ?_⟩⟩
    · exact (loadComplete_check busy check stop).trans (congrArg _ (endCheck_refused image unsound))
    · exact (loadComplete_check busy check stop).trans (congrArg _ (endCheck_accepted image sound))
    · obtain ⟨t, written, loaded⟩ := writeImage_loaded l v.1 v.2 s
      exact ⟨t, (loadComplete_write busy write none).trans (congrArg _ ((endWrite_done image sound).trans written)), loaded⟩
    · obtain ⟨x, left⟩ := stopWrite_loader l v.1 v.2 k o s
      refine ⟨_, (loadComplete_write busy write _).trans (congrArg _ ((endWrite_stopped image sound k o).trans
        (if_pos ⟨step, inside⟩))), ?_⟩
      rw [left]
      exact ⟨rfl, rfl, rfl, rfl, rfl⟩
    · exact (loadComplete_write busy write _).trans (congrArg _ ((endWrite_stopped image sound k o).trans (if_neg (by omega))))
  case again => exact kill_pending idle pending gone source retain
  case kill =>
    intro idle fresh live source retain
    obtain ⟨t, kill, struck, rest⟩ := kill_struck source retain idle fresh live
    refine ⟨t, kill, struck.pending, struck.phase.trans (killedPhase_eq _), struck.time.1, struck.time.2, struck.dram, struck.windows,
      struck.ranges, struck.closeAt, struck.empty, struck.record, ?_⟩
    split_ifs at rest ⊢
    · exact rest
    · obtain ⟨⟨cores, groups, ⟨cfg, len⟩, ⟨slip, leg⟩, hold, ⟨bound, drain, route⟩, depth, base, resume⟩, retained, zeroing⟩ := rest
      exact ⟨retained, cores, groups, cfg, len, slip, leg, hold, bound, drain, depth, route, base, resume, zeroing⟩
  case scrub =>
    intro kept pending
    refine ⟨_, scrub_retained kept, ?_⟩
    rw [tryZeroing_frame]
    exact ⟨rfl, rfl, rfl, rfl, rfl, rfl, (scrubDie_zeroing _).trans (or_congr_left
      ⟨fun ⟨_, _, closed, may⟩ => ⟨closed, may⟩, fun ⟨closed, may⟩ => ⟨pending, rfl, closed, may⟩⟩)⟩
  case table =>
    intro u closing
    have row := windowTableEmpty_of_closeAt closing
    refine ⟨fun early => row.trans (congrArg _ (if_neg (by omega))), fun due => ⟨_, row.trans (congrArg _ (if_pos due)), tryZeroing_frame _,
      (tryZeroing_zeroing _).trans (or_congr_left
        ⟨fun ⟨pending, gone, _, may⟩ => ⟨pending, gone, may⟩, fun ⟨pending, gone, may⟩ => ⟨pending, gone, rfl, may⟩⟩)⟩⟩
  case notZeroing => exact fun idle => congrArg Host.Outcome.next (if_neg (Bool.eq_false_iff.1 idle))
  case zeroing =>
    intro owed
    refine ⟨_, congrArg Host.Outcome.next (if_pos owed), rfl, rfl, rfl, rfl, rfl, rfl, rfl, rfl, rfl, fun a covered => ?_, fun a apart => ?_⟩
    · exact (zeroRanges_mread _ s a).trans (if_pos (List.any_eq_true.2 covered))
    · exact (zeroRanges_mread _ s a).trans (if_neg (by simpa using apart))

end Sys2Proof.Machine
